-- ==== Sys2Proof/Word.lean ====
section
/-!
DEFINITION. Word.lean: the management word, the byte, and the place of a field in a word (R16, R35).
-/
namespace Sys2Proof

/-- A management register: 32 bits (R16). -/
abbrev Word := BitVec 32

/-- The smallest addressable unit of system space (R16). -/
abbrev Byte := BitVec 8

/-- A named field of a register: its lowest bit and its width (R16). -/
structure Fld where
  lo : Nat
  width : Nat
  deriving DecidableEq, Repr

/-- The access codes of R16. -/
inductive Access where
  | rw | ro | wo | w1c | w1s | rc
  deriving DecidableEq, Repr

end Sys2Proof
end

