-- ==== Sys2Proof/Machine/Sparse.lean ====
section
/-!
DEFINITION. Machine/Sparse.lean: sparse data by key, as a list of key and value pairs with keys strictly rising, and the
field arithmetic of a management word.
-/
namespace Sys2Proof

/-- Sparse data: keys strictly rising (Sparse.rising). -/
abbrev Sparse (α : Type) := List (Nat × α)

/-- The value stored under a key, if any. -/
def Sparse.find {α : Type} : Sparse α → Nat → Option α
  | [], _ => none
  | (j, v) :: m, k => if k = j then some v else Sparse.find m k

/-- The value stored under a key, or the given default. -/
def Sparse.get {α : Type} (m : Sparse α) (d : α) (k : Nat) : α := (Sparse.find m k).getD d

/-- Store a value under a key, keeping keys rising. -/
def Sparse.put {α : Type} : Sparse α → Nat → α → Sparse α
  | [], k, v => [(k, v)]
  | (j, w) :: m, k, v =>
    if k < j then (k, v) :: (j, w) :: m
    else if k = j then (k, v) :: m
    else (j, w) :: Sparse.put m k v

/-- Remove a key. -/
def Sparse.del {α : Type} (m : Sparse α) (k : Nat) : Sparse α := m.filter (fun e => e.1 != k)

/-- Store a value, except that storing what an unlisted key reads as removes the entry. -/
def Sparse.set {α : Type} [DecidableEq α] (m : Sparse α) (d : α) (k : Nat) (v : α) : Sparse α :=
  if v = d then Sparse.del m k else Sparse.put m k v

/-- Remove every key for which the test holds. -/
def Sparse.drop {α : Type} (m : Sparse α) (p : Nat → Bool) : Sparse α := m.filter (fun e => !p e.1)

/-- Keys strictly rising, all above the bound. -/
def Sparse.risingFrom {α : Type} : Nat → Sparse α → Bool
  | _, [] => true
  | b, (j, _) :: m => decide (b ≤ j) && Sparse.risingFrom (j + 1) m

/-- Keys strictly rising. -/
def Sparse.rising {α : Type} (m : Sparse α) : Bool := Sparse.risingFrom 0 m

/-- The canonical form: keys strictly rising, and no entry equal to what an unlisted key reads as. -/
def Sparse.canon {α : Type} [DecidableEq α] (m : Sparse α) (d : Nat → α) : Bool :=
  Sparse.rising m && m.all (fun e => decide (e.2 ≠ d e.1))

/-- Read a field of a word as a number. -/
def fieldOf (w : Word) (f : Fld) : Nat := (w.toNat >>> f.lo) % 2 ^ f.width

/-- A mask with the bits of a field set. -/
def maskOf (f : Fld) : Word := BitVec.ofNat 32 ((2 ^ f.width - 1) <<< f.lo)

/-- Replace a field of a word; the value is taken modulo the field's width. -/
def withField (w : Word) (f : Fld) (n : Nat) : Word :=
  (w &&& ~~~ maskOf f) ||| BitVec.ofNat 32 ((n % 2 ^ f.width) <<< f.lo)

/-- The sum of a count and an increment, held at the largest value of the field (a saturating count). -/
def satAdd (width n k : Nat) : Nat := min (n + k) (2 ^ width - 1)

/-- Read an unsigned n as a two's-complement number of the given width. -/
def signedOf (width n : Nat) : Int :=
  if n % 2 ^ width < 2 ^ (width - 1) then (n % 2 ^ width : Nat) else (n % 2 ^ width : Nat) - (2 ^ width : Nat)

/-- The two's-complement encoding of a number in the given width. -/
def unsignedOf (width : Nat) (i : Int) : Nat := (i % (2 ^ width : Nat)).toNat

/-- Bit k of a number. -/
def bitOf (n k : Nat) : Bool := n.testBit k

/-- A Bool as 0 or 1. -/
def b2n (b : Bool) : Nat := if b then 1 else 0

/-- The number whose bits, lowest first, are given. -/
def natOfBools : List Bool → Nat
  | [] => 0
  | b :: bs => b2n b + 2 * natOfBools bs

/-- n with bit k set or cleared. -/
def setBit (n k : Nat) (b : Bool) : Nat :=
  if b then n ||| (1 <<< k) else if n.testBit k then n - (1 <<< k) else n

end Sys2Proof
end

