-- ==== Sys2Proof/Machine/Fabric.lean ====
section
/-!
DEFINITION. Machine/Fabric.lean: the fabric of a gallery (chapter 03): what a cell, an alcove, a carry column, a facet and a track
compute, how they are joined, and which state bit belongs to which. No command of the table clocks them: their state while they run
is a free value (log 30), and these functions say what one clock edge does and what a settled net reads.
-/
namespace Sys2Proof.Machine

/-- The state bits of a gallery's fabric that a switch stores and loads (R130): bits 49,151:0 are the flip-flops; facet f has the
266 bits from 49,152 + 266 f: X 36, Y 36, Z 64, product 64, accumulator 64, OVF0, OVF1. -/
abbrev FabricBits := BitVec 151296

/-- The state bits whose numbers satisfy a test. -/
@[irreducible] def bitsWhere (p : Nat → Bool) : FabricBits :=
  BitVec.ofNat 151296 ((List.range 151296).foldl (fun n k => if p k then n ||| 1 <<< k else n) 0)

/-! ## The look-up table (R68) -/

/-- The configuration of a look-up table: 64 table bits, and the mode. In fractured mode bits 31:0 are the table of TH and bits
63:32 that of TW. -/
structure LutCfg where
  table : BitVec 64
  fractured : Bool
  deriving DecidableEq, Repr, Inhabited

/-- The whole-table output TW of inputs L0 to L5. -/
def lutTw (c : LutCfg) (l : BitVec 6) : Bool :=
  if c.fractured then c.table.getLsbD (32 + l.toNat % 32) else c.table.getLsbD l.toNat

/-- The half-table output TH: the half that L5 = 0 selects, or the independent function of L0 to L4. -/
def lutTh (c : LutCfg) (l : BitVec 6) : Bool := c.table.getLsbD (l.toNat % 32)

/-! ## Flip-flops (R70 to R73) -/

/-- Where a flip-flop takes its D input: the table, the sum, or the direct input. -/
inductive FfSrc where
  | table | sum | direct
  deriving DecidableEq, Repr, Inhabited

/-- The configuration of a flip-flop (R70): its D source, one of the two alcove clocks and its edge, one of the four clock enables or
none, and one of the two set/reset lines or none; `used` is clear for a flip-flop that the plane does not use (R73). -/
structure FfCfg where
  used : Bool
  src : FfSrc
  clk : Fin 2
  falling : Bool
  ce : Option (Fin 4)
  sr : Option (Fin 2)
  deriving DecidableEq, Repr, Inhabited

/-- D of a flip-flop. -/
def ffD (c : FfSrc) (t s d : Bool) : Bool :=
  match c with
  | .table => t
  | .sum => s
  | .direct => d

/-- A flip-flop at an active clock edge: set/reset forces INIT whatever the clock enable; none is a constant (R70, R71). -/
def ffEdge (q d init : Bool) (ce sr : Option Bool) : Bool :=
  if sr.getD false then init else if ce.getD true then d else q

/-- The eight control lines of an alcove (R76, R77): the levels of its clock enables and set/reset lines at an edge. -/
structure Controls where
  ce : Fin 4 → Bool
  sr : Fin 2 → Bool

/-- A flip-flop at an edge of alcove clock clk: it acts only when it selects that clock and that edge; one that the plane does not use
captures nothing (R70, R73). -/
def ffClock (c : FfCfg) (clk : Fin 2) (falling : Bool) (x : Controls) (q d init : Bool) : Bool :=
  if c.used && c.clk == clk && c.falling == falling then ffEdge q d init (c.ce.map x.ce) (c.sr.map x.sr) else q

/-! ## Carry (R74) -/

/-- What feeds the carry of a cell: the preceding bit, a constant, or source n of the alcove's interconnect. -/
inductive CarrySrc where
  | chain
  | const (b : Bool)
  | net (n : Fin 224)
  deriving DecidableEq, Repr, Inhabited

/-- One bit of a carry chain: sum and carry out, from propagate, generate and carry in. -/
def carryBit (p g cin : Bool) : Bool × Bool := (p ^^ cin, g || (p && cin))

/-! ## The cell (R68 to R70, R74) -/

/-- The configuration of a cell. `sum1` and `sum0` put S1 and S0 in the place of TW and TH on its outputs (R69). -/
structure CellCfg where
  lut : LutCfg
  sum1 : Bool
  sum0 : Bool
  carry : CarrySrc
  ff0 : FfCfg
  ff1 : FfCfg
  deriving DecidableEq, Repr, Inhabited

/-- What a cell's inputs carry: L0 to L5, DI0, DI1, and the carry in that its configuration chooses. -/
structure CellIn where
  l : BitVec 6
  di0 : Bool
  di1 : Bool
  cin : Bool
  deriving DecidableEq, Repr, Inhabited

/-- Bit 0 of a cell's carry: TH propagates, DI1 generates. -/
def cellBit0 (c : CellCfg) (i : CellIn) : Bool × Bool := carryBit (lutTh c.lut i.l) i.di1 i.cin

/-- Bit 1 of a cell's carry: TW propagates, DI0 generates. -/
def cellBit1 (c : CellCfg) (i : CellIn) : Bool × Bool := carryBit (lutTw c.lut i.l) i.di0 (cellBit0 c i).2

/-- The carry out of a cell. -/
def cellCarry (c : CellCfg) (i : CellIn) : Bool := (cellBit1 c i).2

/-- The four outputs of a cell, given its flip-flops (R69): TW or S1, TH or S0, FF0, FF1. -/
def cellOut (c : CellCfg) (i : CellIn) (q0 q1 : Bool) (o : Fin 4) : Bool :=
  match o with
  | 0 => if c.sum1 then (cellBit1 c i).1 else lutTw c.lut i.l
  | 1 => if c.sum0 then (cellBit0 c i).1 else lutTh c.lut i.l
  | 2 => q0
  | 3 => q1

/-- D of FF0: TW, S1 or DI0 (R70). -/
def cellD0 (c : CellCfg) (i : CellIn) : Bool := ffD c.ff0.src (lutTw c.lut i.l) (cellBit1 c i).1 i.di0

/-- D of FF1: TH, S0 or DI1 (R70). -/
def cellD1 (c : CellCfg) (i : CellIn) : Bool := ffD c.ff1.src (lutTh c.lut i.l) (cellBit0 c i).1 i.di1

/-! ## The alcove (R74 to R77) -/

/-- Source n of an alcove's interconnect among its 128 cell outputs (0 to 127, cell n / 4, output n % 4) and its 96 inputs from
logic-layer routing (128 to 223) that choice k of an input of a cell selects: the pattern is fixed in the silicon and not published
(R76). Inputs 0 to 5 are L0 to L5, 6 and 7 DI0 and DI1. -/
opaque alcoveSource : Fin 32 → Fin 8 → Fin 24 → Fin 224

/-- A clock enable or set/reset line of an alcove: one of the 96 routing inputs, or a constant (R76). -/
inductive LineSrc where
  | input (n : Fin 96)
  | const (b : Bool)
  deriving DecidableEq, Repr, Inhabited

/-- The configuration of an alcove (R76, R77): its cells and, for each input of each cell, its choice among 24 sources; two clocks
among the gallery's eight; four clock enables and two set/reset lines; and the interconnect source of each of its 64 outputs to
logic-layer routing (none: its carry out, which only row 31 has, R74). -/
structure AlcoveCfg where
  cell : Fin 32 → CellCfg
  sel : Fin 32 → Fin 8 → Fin 24
  clk : Fin 2 → Fin 8
  ce : Fin 4 → LineSrc
  sr : Fin 2 → LineSrc
  out : Fin 64 → Option (Fin 224)
  deriving Inhabited

/-- What stands on an alcove's nets: its interconnect sources, its flip-flops, and the carry from the alcove below. -/
structure AlcoveNets where
  src : Fin 224 → Bool
  ff : Fin 32 → Fin 2 → Bool
  below : Bool

/-- A control line's level. -/
def lineLevel (x : AlcoveNets) : LineSrc → Bool
  | .input n => x.src ⟨128 + n.val, by omega⟩
  | .const b => b

/-- The control lines of an alcove. -/
def alcoveControls (a : AlcoveCfg) (x : AlcoveNets) : Controls := ⟨fun k => lineLevel x (a.ce k), fun k => lineLevel x (a.sr k)⟩

/-- The level at input i of cell c. -/
def cellInput (a : AlcoveCfg) (x : AlcoveNets) (c : Fin 32) (i : Fin 8) : Bool := x.src (alcoveSource c i (a.sel c i))

/-- The carry in that a cell's configuration chooses; a constant or a net breaks the chain (R74). -/
def carryIn (x : AlcoveNets) (prev : Bool) : CarrySrc → Bool
  | .chain => prev
  | .const b => b
  | .net n => x.src n

/-- The inputs of cell c, given the carry out of the preceding bit. -/
def cellInAt (a : AlcoveCfg) (x : AlcoveNets) (c : Fin 32) (prev : Bool) : CellIn :=
  { l := BitVec.ofNat 6 (natOfBools ((List.finRange 6).map (fun i => cellInput a x c ⟨i.val, by omega⟩)))
    di0 := cellInput a x c 6
    di1 := cellInput a x c 7
    cin := carryIn x prev (a.cell c).carry }

/-- The carry that reaches cell n of an alcove: from cell 0, bit 0, to cell 31, bit 1, starting with the alcove below (R74). -/
def alcoveCarry (a : AlcoveCfg) (x : AlcoveNets) : Nat → Bool
  | 0 => x.below
  | n + 1 => if h : n < 32 then cellCarry (a.cell ⟨n, h⟩) (cellInAt a x ⟨n, h⟩ (alcoveCarry a x n)) else alcoveCarry a x n

/-- The inputs of cell c. -/
def cellIn (a : AlcoveCfg) (x : AlcoveNets) (c : Fin 32) : CellIn := cellInAt a x c (alcoveCarry a x c.val)

/-- The nets are settled: each of the 128 cell outputs reads what its cell makes of the inputs. -/
def alcoveSettled (a : AlcoveCfg) (x : AlcoveNets) : Prop :=
  ∀ c : Fin 32, ∀ o : Fin 4, x.src ⟨4 * c.val + o.val, by omega⟩ = cellOut (a.cell c) (cellIn a x c) (x.ff c 0) (x.ff c 1) o

/-- The flip-flops of an alcove after an edge of its clock k, given their INIT values (R70, R71, R73). -/
def alcoveEdge (a : AlcoveCfg) (x : AlcoveNets) (init : Fin 32 → Fin 2 → Bool) (k : Fin 2) (falling : Bool) (c : Fin 32) (i : Fin 2) :
    Bool :=
  if i = 0 then ffClock (a.cell c).ff0 k falling (alcoveControls a x) (x.ff c 0) (cellD0 (a.cell c) (cellIn a x c)) (init c 0)
  else ffClock (a.cell c).ff1 k falling (alcoveControls a x) (x.ff c 1) (cellD1 (a.cell c) (cellIn a x c)) (init c 1)

/-- What an alcove drives on output o to logic-layer routing, in alcove row r (R74, R76). -/
def alcoveOut (a : AlcoveCfg) (x : AlcoveNets) (r : Fin 32) (o : Fin 64) : Bool :=
  match a.out o with
  | some n => x.src n
  | none => r == 31 && alcoveCarry a x 32

/-- A column of alcoves is settled: the carry of row r feeds row r + 1; nothing feeds row 0, and the carry of row 31 goes no further, so
no chain is longer than 32 alcoves, and none crosses the gallery's boundary (R74, R75). What row 0 reads as its chain input is not
given: 0 (DESIGN CHOICE, log 63). -/
def columnSettled (a : Fin 32 → AlcoveCfg) (x : Fin 32 → AlcoveNets) : Prop :=
  (∀ r, alcoveSettled (a r) (x r)) ∧ (x 0).below = false ∧
    ∀ r : Fin 31, (x r.succ).below = alcoveCarry (a r.castSucc) (x r.castSucc) 32

/-! ## Facets (R78 to R83) -/

/-- Modes of a facet. -/
inductive FacetMode where
  | m27 | d16 | dot9
  deriving DecidableEq, Repr, Inhabited

/-- What is added to the product. -/
inductive FacetAdd where
  | acc | z | ci | zero
  deriving DecidableEq, Repr, Inhabited

/-- The configuration of a facet. -/
structure FacetCfg where
  used : Bool
  /-- The gallery clock it takes (R78). -/
  clk : Fin 8
  mode : FacetMode
  /-- Signedness of X and Y in D16 and DOT9. -/
  sx : Bool
  sy : Bool
  add : FacetAdd
  saturate : Bool
  /-- The operand and product stages are used. -/
  opReg : Bool
  prodReg : Bool
  deriving DecidableEq, Repr, Inhabited

/-- Bits of an operand as a number, signed or not. -/
def operandAt (signed : Bool) (v lo w : Nat) : Int :=
  let n := v / 2 ^ lo % 2 ^ w
  if signed then signedOf w n else n

/-- The product, or the two of D16 (low, high). -/
def facetProduct (c : FacetCfg) (x y : BitVec 36) : Int × Int :=
  match c.mode with
  | .m27 => (operandAt true x.toNat 0 27 * operandAt true y.toNat 0 24, 0)
  | .d16 => (operandAt c.sx x.toNat 0 16 * operandAt c.sy y.toNat 0 16, operandAt c.sx x.toNat 16 16 * operandAt c.sy y.toNat 16 16)
  | .dot9 => (((List.range 4).map (fun k => operandAt c.sx x.toNat (9 * k) 9 * operandAt c.sy y.toNat (9 * k) 9)).foldl (· + ·) 0, 0)

/-- A result of w bits (R81): its value as w bits, wrapped or saturated, and whether it did not fit. -/
def fitTo (sat : Bool) (w : Nat) (r : Int) : Nat × Bool :=
  let hi : Int := 2 ^ (w - 1) - 1
  let lo : Int := -2 ^ (w - 1)
  let past := decide (hi < r) || decide (r < lo)
  (if past && sat then unsignedOf w (if hi < r then hi else lo) else unsignedOf w r, past)

/-- The state of a facet: its operand and product stages and its accumulator, with the overflow flags. -/
structure FacetSt where
  x : BitVec 36 := 0
  y : BitVec 36 := 0
  z : BitVec 64 := 0
  prod : Int × Int := (0, 0)
  prodZ : BitVec 64 := 0
  acc : BitVec 64 := 0
  ovf0 : Bool := false
  ovf1 : Bool := false
  deriving DecidableEq, Repr

/-- The value added to the product (R79); LOAD puts Z in the accumulator's place. -/
def facetAddend (c : FacetCfg) (acc z ci : BitVec 64) (load : Bool) : BitVec 64 :=
  match c.add with
  | .acc => if load then z else acc
  | .z => z
  | .ci => ci
  | .zero => 0

/-- The accumulator stage: the result and its flags, which stand until a cycle with LOAD high (R81). -/
def facetAccumulate (c : FacetCfg) (s : FacetSt) (prod : Int × Int) (z ci : BitVec 64) (load sub : Bool) : FacetSt :=
  let a := facetAddend c s.acc z ci load
  let p := fun (i : Int) => if sub then -i else i
  let keep := fun (o : Bool) => !load && o
  if c.mode = .d16 then
    let lo := fitTo c.saturate 32 (signedOf 32 a.toNat + p prod.1)
    let hi := fitTo c.saturate 32 (signedOf 32 (a.toNat / 2 ^ 32) + p prod.2)
    { s with acc := BitVec.ofNat 64 (lo.1 + 2 ^ 32 * hi.1), ovf0 := keep s.ovf0 || lo.2, ovf1 := keep s.ovf1 || hi.2 }
  else
    let r := fitTo c.saturate 64 (a.toInt + p prod.1)
    { s with acc := BitVec.ofNat 64 r.1, ovf0 := keep s.ovf0 || r.2 }

/-- One clock of a facet (R79 to R81, R83): CE low holds every stage; stages that are bypassed pass their input on. DEDUCED (log 64):
R80's three cycles end at the edge at which P is read: an operand captured at edge 0 is in the product stage at edge 1, in P from edge 2,
and read at edge 3. DESIGN CHOICE (log 64): LOAD, SUB and CI act at the accumulator stage in the cycle in which they are applied. -/
def facetClock (c : FacetCfg) (s : FacetSt) (x y : BitVec 36) (z ci : BitVec 64) (load sub ce : Bool) : FacetSt :=
  if !c.used then {}
  else if !ce then s
  else
    let opX := if c.opReg then s.x else x
    let opY := if c.opReg then s.y else y
    let opZ := if c.opReg then s.z else z
    let prod := if c.prodReg then s.prod else facetProduct c opX opY
    let pz := if c.prodReg then s.prodZ else opZ
    let t := facetAccumulate c s prod pz ci load sub
    { t with x := x, y := y, z := z, prod := facetProduct c opX opY, prodZ := opZ }

/-- P: the accumulator. -/
def facetP (s : FacetSt) : BitVec 64 := s.acc

/-- CO: the result P (DEDUCED, log 64: R78 and R82 name no other source of the cascade). -/
def facetCo (s : FacetSt) : BitVec 64 := facetP s

/-- CI of the facet in row i of a column: CO of the facet below it, and 0 in row 0; so the cascade stays in the gallery (R82). -/
def facetCi (col : Fin 32 → FacetSt) (i : Fin 32) : BitVec 64 :=
  if i.val = 0 then 0 else facetCo (col ⟨i.val - 1, by omega⟩)

/-- Facet column j (0 to 11) and row i of a facet index 32 j + i (R78). -/
def facetPlace (f : Nat) : Nat × Nat := (f / 32, f % 32)

/-- The alcove column beside which a facet stands: 2 j + 1; its alcove row is i (R78). -/
def facetBeside (f : Nat) : Nat := 2 * (facetPlace f).1 + 1

/-! ## Routing in the logic layer (R84, R85) -/

/-- Directions. -/
inductive Dir where
  | n | e | s | w
  deriving DecidableEq, Repr, Inhabited

/-- One step in a direction in a grid of rows and columns, inside it: N is toward row − 1, E toward column + 1 (DEDUCED from the
sides of R234, log 63). -/
def Dir.step (d : Dir) (rows cols : Nat) (p : Nat × Nat) : Option (Nat × Nat) :=
  match d with
  | .n => if p.1 = 0 then none else some (p.1 - 1, p.2)
  | .e => if p.2 + 1 < cols then some (p.1, p.2 + 1) else none
  | .s => if p.1 + 1 < rows then some (p.1 + 1, p.2) else none
  | .w => if p.2 = 0 then none else some (p.1, p.2 - 1)

/-- n steps in a direction, as far as they stay inside. -/
def Dir.go (d : Dir) (rows cols : Nat) : Nat → Nat × Nat → Option (Nat × Nat)
  | 0, p => some p
  | m + 1, p => (d.go rows cols m p).bind (d.step rows cols)

/-- The track sets of R84: tracks of lengths 1, 4 and 12 in a direction, and long lines of a row and of a column. -/
inductive TrackSet where
  | len1 (d : Dir) | len4 (d : Dir) | len12 (d : Dir) | longRow | longColumn
  deriving DecidableEq, Repr, Inhabited

/-- Tracks of a set that start at each alcove; for long lines, those of each row or column (R84). -/
def TrackSet.count : TrackSet → Nat
  | .len1 _ => 16
  | .len4 _ => 8
  | .len12 _ => 4
  | .longRow => 16
  | .longColumn => 16

/-- Span of a set, in alcoves; for long lines the row or column (R84). -/
def TrackSet.span : TrackSet → Nat
  | .len1 _ => 1
  | .len4 _ => 4
  | .len12 _ => 12
  | .longRow => 24
  | .longColumn => 32

/-- A track of the logic layer: its set, the alcove (row, column) that it starts at, or for a long line the one that drives it, and its
number among the set's tracks there. -/
structure LogicTrack where
  set : TrackSet
  at' : Nat × Nat
  idx : Nat
  deriving DecidableEq, Repr, Inhabited

/-- The alcoves that a track reaches (R84): those of its reach that lie inside the gallery, so that a track that would pass the boundary
ends at the last of them. -/
def LogicTrack.reach (t : LogicTrack) : List (Nat × Nat) :=
  match t.set with
  | .len1 d => [1].filterMap (fun n => d.go 32 24 n t.at')
  | .len4 d => [1, 2, 3, 4].filterMap (fun n => d.go 32 24 n t.at')
  | .len12 d => [4, 8, 12].filterMap (fun n => d.go 32 24 n t.at')
  | .longRow => (List.range 24).map (fun c => (t.at'.1, c))
  | .longColumn => (List.range 32).map (fun r => (r, t.at'.2))

/-- The track exists. -/
def LogicTrack.ok (t : LogicTrack) : Bool := t.idx < t.set.count && t.at'.1 < 32 && t.at'.2 < 24

/-! ## The configuration of a gallery (R76, R84 to R88) -/

/-- A stair (R88): its driver enable, its selector among eight attach positions, and whether the plane connects its receiver. -/
structure StairCfg where
  en : Bool
  sel : Fin 8
  recv : Bool
  deriving DecidableEq, Repr, Inhabited

/-- What drives a track of the logic layer: an output of the alcove that it starts at, a bit of the facet beside it (0 to 63 P, 64 and
65 OVF0 and OVF1), a bit of a border input group or a landing, or the receiver of a stair. -/
inductive TrackDriver where
  | alcove (o : Fin 64)
  | facet (f : Fin 384) (b : Fin 66)
  | border (g : Fin 35) (b : Fin 64)
  | stair (k : Fin 192)
  deriving DecidableEq, Repr, Inhabited

/-- The configuration that a plane gives a gallery's fabric: alcoves by row and column, facets by index, stairs, the one driver of each
logic-layer track (R85), and the track that each of an alcove's 96 inputs takes. -/
structure FabricCfg where
  alcove : Fin 32 → Fin 24 → AlcoveCfg
  facet : Fin 384 → FacetCfg
  stair : Fin 192 → StairCfg
  driver : LogicTrack → TrackDriver
  input : Fin 32 → Fin 24 → Fin 96 → LogicTrack
  deriving Inhabited

/-- An alcove's input takes a track that reaches the alcove. -/
def FabricCfg.routed (c : FabricCfg) : Prop :=
  ∀ r k i, (c.input r k i).ok = true ∧ (r.val, k.val) ∈ (c.input r k i).reach

/-- What the drivers of a gallery's tracks read. -/
structure FabricNets where
  alcove : Fin 32 → Fin 24 → AlcoveNets
  facet : Fin 384 → FacetSt
  border : Fin 35 → BitVec 64
  stair : Fin 192 → Bool

/-- The value of a logic-layer track: that of its one driver (R85). -/
def trackLevel (c : FabricCfg) (x : FabricNets) (t : LogicTrack) : Bool :=
  match c.driver t with
  | .alcove o =>
    let r : Fin 32 := ⟨t.at'.1 % 32, by omega⟩
    let k : Fin 24 := ⟨t.at'.2 % 24, by omega⟩
    alcoveOut (c.alcove r k) (x.alcove r k) r o
  | .facet f b =>
    if b.val < 64 then (facetP (x.facet f)).getLsbD b.val else if b.val = 64 then (x.facet f).ovf0 else (x.facet f).ovf1
  | .border g b => (x.border g).getLsbD b.val
  | .stair k => x.stair k

/-- The gallery's nets are settled: every column is, and each routing input of each alcove reads its track. -/
def fabricSettled (c : FabricCfg) (x : FabricNets) : Prop :=
  (∀ k, columnSettled (fun r => c.alcove r k) (fun r => x.alcove r k)) ∧
    ∀ r k, ∀ i : Fin 96, (x.alcove r k).src ⟨128 + i.val, by omega⟩ = trackLevel c x (c.input r k i)

/-! ## Which state bit is which -/

/-- The flip-flop of a state bit below 49,152: bit 64 a + 2 c + i is FF i of cell c of alcove a, and alcove a stands in row a / 24,
column a % 24. -/
def FabricCfg.ffAt (c : FabricCfg) (k : Nat) : FfCfg :=
  let a := c.alcove ⟨k / 64 / 24 % 32, by omega⟩ ⟨k / 64 % 24, by omega⟩
  let x := a.cell ⟨k % 64 / 2, by omega⟩
  if k % 2 = 0 then x.ff0 else x.ff1

/-- The gallery clock of a flip-flop: that of the alcove clock it selects (R70, R76). -/
def FabricCfg.ffBranch (c : FabricCfg) (k : Nat) : Fin 8 :=
  (c.alcove ⟨k / 64 / 24 % 32, by omega⟩ ⟨k / 64 % 24, by omega⟩).clk (c.ffAt k).clk

/-- The facet of a state bit from 49,152. -/
def FabricCfg.facetAt (c : FabricCfg) (k : Nat) : FacetCfg := c.facet ⟨(k - 49152) / 266 % 384, by omega⟩

/-- The state bit belongs to a flip-flop or facet that the plane uses and that gallery clock n clocks (R70, R73, R76, R78, R83). -/
def FabricCfg.clockedBy (c : FabricCfg) (n k : Nat) : Bool :=
  if k < 49152 then (c.ffAt k).used && (c.ffBranch k).val == n else (c.facetAt k).used && (c.facetAt k).clk.val == n

/-- The state bits that gallery clock n clocks. -/
def FabricCfg.domain (c : FabricCfg) (n : Nat) : FabricBits := bitsWhere (c.clockedBy n)

/-- The state bits of facets that the plane does not use: they stay 0 (R83). -/
def FabricCfg.idleFacets (c : FabricCfg) : FabricBits := bitsWhere (fun k => decide (49152 ≤ k) && !(c.facetAt k).used)

/-- The gallery clocks that a flip-flop or facet of the plane uses, bit n for clock n (R129, R415). -/
def FabricCfg.clocks (c : FabricCfg) : Nat := natOfBools ((List.range 8).map (fun n => c.domain n != 0))

end Sys2Proof.Machine
end

