-- ==== Sys2Proof/Machine/Types.lean ====
section
/-!
DEFINITION. Machine/Types.lean: the data that commands carry and State holds: packets of Omist (R237), plane images (R346), and
the hidden records of the units.
-/
namespace Sys2Proof

/-! ## Indices (R25) -/

abbrev HallIx := Fin 8
abbrev GalIx := Fin 256
abbrev PlaneIx := Fin 4
abbrev SlotIx := Fin 32
abbrev StackIx := Fin 4
abbrev BankIx := Fin 32
abbrev EngIx := Fin 4
abbrev LaneIx := Fin 16

/-! ## Packets -/

/-- Where a packet stands in the network (R234): at input `side` of router `node` of mesh `mesh` of hall `hall`. -/
structure Spot where
  hall : Nat
  node : Nat
  /-- The input side; 8 for a copy that the router itself sends again (R251). -/
  side : Nat
  mesh : Nat
  /-- It has passed the checks of that input and waits there for its output. -/
  inside : Bool := false
  /-- The side whose corridor a gateway of this hall has sent it to (R253). -/
  via : Option Nat := none
  /-- The corridor channel by which it came to this input. -/
  chan : Option Nat := none
  /-- It has left the router by an attachment side and stands before its target. -/
  target : Bool := false
  deriving DecidableEq, Repr, Inhabited

/-- A packet of Omist (R237): the header unit's fields, its data units, and the sideband of R237. HCHECK and the FCRC words are held
as their differences from the check words of what they cover (Packet.hcheck, Packet.fcrc). -/
structure Packet where
  dstPort : BitVec 3 := 0
  dstNode : BitVec 6 := 0
  dstHall : BitVec 3 := 0
  srcPort : BitVec 3 := 0
  srcNode : BitVec 6 := 0
  srcHall : BitVec 3 := 0
  cmd : BitVec 8 := 0
  units : BitVec 4 := 0
  runits : BitVec 4 := 0
  seq : BitVec 12 := 0
  tag : BitVec 10 := 0
  vc : BitVec 2 := 0
  status : BitVec 3 := 0
  mesh : BitVec 1 := 0
  epoch : BitVec 2 := 0
  addr : BitVec 48 := 0
  beFirst : BitVec 64 := 0
  beLast : BitVec 64 := 0
  arg : BitVec 224 := 0
  data : List (BitVec 512) := []
  /-- HCHECK as carried, exclusive-or the CRC-32C of header bits 479:0. -/
  hdiff : BitVec 32 := 0
  /-- FCRC of data units as carried, exclusive-or their CRC-16/CCITT, by unit where they differ. -/
  fdiff : List (Nat × BitVec 16) := []
  poison : Bool := false
  cut : Bool := false
  hops : Nat := 0
  /-- For a response: the order key of the request it answers (R235). -/
  rkey : Nat := 0
  /-- A request sent through EQ, or its response: its tag is the endpoint's own, apart from those of IQ (R106, R109). -/
  eq : Bool := false
  /-- For a request of a gallery's endpoint: the plane active when it was issued (R389). -/
  plane : BitVec 2 := 0
  /-- For a request of a gallery's endpoint: that plane's effective bank mask when IQ took the header (R152). -/
  bmask : Word := 0
  /-- Where it stands; none: at its sending interface. -/
  spot : Option Spot := none
  deriving DecidableEq, Repr, Inhabited

/-- HCHECK does not match the header (R248). -/
def Packet.hdrBad (p : Packet) : Bool := p.hdiff != 0

/-- The data units whose FCRC does not match (R249). -/
def Packet.badUnits (p : Packet) : List Nat := (p.fdiff.filter (fun x => x.2 != 0)).map (·.1)

/-- The packet stands before its target (R234). -/
def Packet.landed (p : Packet) : Bool := (p.spot.map (·.target)).getD false

/-- Header bits 127:0 (R237), as lens probes compare and record them (R262, R263). -/
def Packet.hdrLow (p : Packet) : BitVec 128 :=
  p.addr ++ (0 : BitVec 10) ++ p.epoch ++ p.mesh ++ p.status ++ p.vc ++ p.tag ++ p.seq ++ p.runits ++ p.units ++ p.cmd
    ++ p.srcHall ++ p.srcNode ++ p.srcPort ++ p.dstHall ++ p.dstNode ++ p.dstPort

/-- Omist status codes (R244). -/
inductive OSt where
  | ok | dataErr | integErr | absent | unavail | denied | overtaken | exhausted
  deriving DecidableEq, Repr, Inhabited

/-- The code of a status (R244). -/
def OSt.code : OSt → Nat
  | .ok => 0 | .dataErr => 1 | .integErr => 2 | .absent => 3 | .unavail => 4 | .denied => 5 | .overtaken => 6 | .exhausted => 7

/-- The status of a code. -/
def OSt.ofCode (n : Nat) : OSt :=
  if n = 0 then .ok else if n = 1 then .dataErr else if n = 2 then .integErr else if n = 3 then .absent
  else if n = 4 then .unavail else if n = 5 then .denied else if n = 6 then .overtaken else .exhausted

/-! ## Plane images -/

/-- What the configuration frames of a plane say (R88, R116): the meaning of each frame bit is Voxgar's (scope), and they are read by
Config.designInfo, which has no body. -/
structure DesignInfo where
  /-- The configuration of cells, facets, routing switches and stairs. -/
  fabric : Machine.FabricCfg
  /-- INIT values (R72, R131). -/
  init : Machine.FabricBits
  /-- Set: the bit is private in this plane (R130); clear: shared. -/
  priv : Machine.FabricBits
  deriving Inhabited

/-- A plane image: header attributes (R346) and the data of its 768 frames; an unlisted frame is all 0. -/
structure Image where
  id : BitVec 16 := 0
  place : BitVec 2 := 0
  fixedG : BitVec 8 := 0
  vmask : BitVec 2 := 0
  grade : BitVec 2 := 0
  tqEn : Bool := false
  bmask : BitVec 32 := 0
  /-- Border mode of each per-plane output group, 2 bits a group (R100). -/
  border : BitVec 70 := 0
  frames : Sparse (BitVec 4096) := []
  deriving DecidableEq, Repr, Inhabited

/-- Who writes a register or asks for an operation: host software, or the design through the register region with the endpoint
(hall and node, and whether it is a gallery's endpoint) that sent the request (R461, R498). -/
inductive Writer where
  | host
  | design (hall node : Nat)
  deriving DecidableEq, Repr, Inhabited

/-- Who asked for a plane load (event 0x2202). -/
inductive Requester where
  | host | design | gweak
  deriving DecidableEq, Repr, Inhabited

/-- The code of a requester in event 0x2202. -/
def Requester.code : Requester → Nat
  | .host => 0 | .design => 1 | .gweak => 2

/-- A request in a gallery's load queue (R142 to R144). -/
structure LoadReq where
  plane : Nat
  slot : Nat
  replace : Bool
  from' : Requester
  deriving DecidableEq, Repr, Inhabited

/-- What a finished load met, as facts of the silicon: frames sent again once, a frame that failed its check twice, mirror frames
with a single error, and a mirror frame with a double error. -/
structure LoadFacts where
  resent : List (Fin 768)
  failed : Option (Fin 768)
  ce : List (Fin 768)
  double : Option (Fin 768)
  deriving DecidableEq, Repr, Inhabited

/-- Phase of a replacement load from its step 2 on (R148). -/
inductive ReplPhase where
  /-- Steps 2 and 3: the plane is REPLACING and frames cross. -/
  | loading
  /-- Step 4: the new image is held, waiting for the edge of step 5. -/
  | loaded
  /-- Step 5 taken; borders wait for the edge of step 6. -/
  | activated
  deriving DecidableEq, Repr, Inhabited

/-- Phase of a gallery reset (R111). -/
inductive RstPhase where
  | none | hold | released
  deriving DecidableEq, Repr, Inhabited

/-- A request of a gallery's endpoint or of an engine that awaits its response (R106, R245). -/
structure Outst where
  tag : Nat
  plane : Nat
  req : Packet
  deriving DecidableEq, Repr, Inhabited

/-- An enqueue of EQ that awaits its answer, oldest first (R109); answered ones wait for their turn and their plane (R136). -/
structure EqOut where
  plane : Nat
  tag : Nat
  answer : Option Nat
  deriving DecidableEq, Repr, Inhabited

/-- An item presented or waiting on IT (R108): its plane and descriptor. -/
structure ItHeld where
  plane : Nat
  desc : BitVec 256
  /-- The design has taken it (IT_READY); it is in service until DN. -/
  accepted : Bool
  deriving DecidableEq, Repr, Inhabited

/-- What a prism request asks (PSM_QOP and PSM_WE, R163). -/
inductive PrismOp where
  | read | write | push | pop | reserved
  deriving DecidableEq, Repr, Inhabited

/-- An accepted prism request and, once its access is performed, its result (R164). -/
structure PrismReq where
  plane : Nat
  op : PrismOp
  bank : Nat
  row : Nat
  be : BitVec 128
  wdata : BitVec 1024
  /-- None: waiting for its bank; some (code, data): performed or failed, waiting for its completion. -/
  done : Option (Nat × BitVec 1024)
  /-- 0; or 1 after a switch left its plane, 2 after a gallery reset: its completion is discarded (R168). -/
  dropped : Nat
  deriving DecidableEq, Repr, Inhabited

/-- What the check codes of the bytes of an access show, as facts of the silicon: byte places with a single-bit error and with a
double error (R177). -/
structure EccFacts where
  ce : List Nat := []
  ue : List Nat := []
  deriving DecidableEq, Repr, Inhabited

/-- A test row that starts (R191): its bank, and what the check codes of the row show as it is saved (R177). -/
structure RowSave where
  bank : BankIx
  ecc : EccFacts
  deriving DecidableEq, Repr, Inhabited

/-- The transparent test of one bank (R191 to R193): the row under test, the holding buffer as bytes and their codeword flags. -/
structure MemTest where
  row : Nat
  step : Nat
  fault : Option Nat
  deriving DecidableEq, Repr, Inhabited

/-- Repair entry of a spare row (R195, GAL_REP_s). -/
structure RepEntry where
  used : Bool
  live : Bool
  retired : Bool
  row : Nat
  deriving DecidableEq, Repr, Inhabited

/-- The hidden state of a queue controller (R187, R188). -/
structure QHid where
  unann : Nat := 0
  annCount : Nat := 0
  inFlight : Bool := false
  /-- A non-OK answer came, with this status, and the retry has not been sent. -/
  retry : Option Nat := none
  /-- A retry of this announcement has been sent, and QUEUE_ENQ_RETRY raised. -/
  retried : Bool := false
  deriving DecidableEq, Repr, Inhabited

/-- A slot copy of a gallery (R157): source gallery (within the hall), source slot, destination slot, and whether it runs. -/
structure CopyOp where
  srcG : Nat
  srcSlot : Nat
  dst : Nat
  running : Bool
  deriving DecidableEq, Repr, Inhabited

/-- The hidden state of a gallery. What a GAL register shows is in the register file, not here. -/
structure Gal where
  /-- Images of the resident planes, by plane. -/
  planes : Sparse Image := []
  /-- Images of the mirror slots, by slot. -/
  slots : Sparse Image := []
  live : Machine.FabricBits := 0
  shadow : Sparse Machine.FabricBits := []
  shared : Machine.FabricBits := 0
  loadQ : List LoadReq := []
  /-- The head of the load queue is in progress. -/
  loadBusy : Bool := false
  /-- The replacement under way: its plane and phase. -/
  repl : Option (Nat × ReplPhase) := none
  /-- The time of the last refusal of a request of the design: PR_NAK is high for the one cycle after it (R125, R132). -/
  nak : Option Nat := none
  /-- A change of SRC that waits for a context-clock edge (R122). -/
  srcNext : Option Nat := none
  /-- Bank limits still in force, by plane, where a change of GAL_BMASK_p waits for a context-clock edge (R151). -/
  maskOld : Sparse Word := []
  rst : RstPhase := .none
  /-- E0 has passed and E1 has not (R129). -/
  switching : Bool := false
  /-- Borders held for a replacement load (R139), for clock loss (R415), and from release until step 3 (R358). -/
  bRepl : Bool := false
  bClk : Bool := false
  bBoot : Bool := false
  /-- The image that was active before the borders were presented, whose modes and stairs are in force meanwhile; none: ZERO in every
  group and no stair driver enabled (R103, R119, R139). -/
  held : Option Image := none
  /-- The number of the free values that its HOLD groups keep (R139, R358). -/
  heldAt : Nat := 0
  /-- The first switch after power-up loads INIT values (R131). -/
  fresh : Bool := true
  /-- An IQ request has its FIRST unit taken and its LAST not (R135, R502): its tag, and the effective bank mask at its header (R152). -/
  iqPart : Option (Nat × Word) := none
  epOut : List Outst := []
  /-- Responses held for an inactive plane (R136). -/
  ipHeld : List (Nat × Packet) := []
  /-- The last response presented on IP. -/
  ipLast : Option Packet := none
  eqOut : List EqOut := []
  eqLast : Option Nat := none
  /-- Target messages waiting for TQ, oldest first; and how many of the head's units, its header first, the design has taken (R107,
  R137). -/
  tq : List Packet := []
  tqTaken : Nat := 0
  it : List ItHeld := []
  /-- Accepted prism requests in order, by prism. -/
  prism : Sparse (List PrismReq) := []
  memtest : Sparse MemTest := []
  /-- Next physical row the transparent test takes, by bank (R191). -/
  testRow : Sparse Nat := []
  /-- Passes completed, by bank. -/
  testPass : Sparse Nat := []
  /-- When the last row's test started, by bank (R191). -/
  testAt : Sparse Nat := []
  /-- Rows found faulty and not repaired since, as bank and physical row, for the next shutdown record (R193). -/
  faults : List (Nat × Nat) := []
  /-- Prisms whose PSM_READY is low: their request lost arbitration and has not been granted since (R165). -/
  psmStall : List Nat := []
  /-- Write-backs of corrected bytes that wait, by bank, as keys of memory (R175). -/
  wb : Sparse (List Nat) := []
  /-- Bank named in the last queue operation that prism k accepted (PSM_QEMPTY, PSM_QFULL). -/
  psmQ : Sparse Nat := []
  /-- The last completion of prism k: error code and data (PSM_CVALID). -/
  psmLast : Sparse (Nat × BitVec 1024) := []
  repair : Sparse RepEntry := []
  q : Sparse QHid := []
  copy : Option CopyOp := none
  deriving DecidableEq, Repr, Inhabited

/-! ## Gweak -/

/-- A flow of Gweak (R204, R205): its ready items oldest first, the item in service, whether it is parked, and whether its head
waits for the tick after an engine's UNAVAIL (R217). -/
structure GFlow where
  ready : List (BitVec 256) := []
  svc : Option (BitVec 256) := none
  parked : Bool := false
  retryWait : Bool := false
  deriving DecidableEq, Repr, Inhabited

/-- A server of Gweak (R208). What GWK_SRV_v shows is in the register file. -/
structure GSrv where
  /-- The plane state last reported (R128). -/
  pstate : Nat := 0
  item : Option (BitVec 256) := none
  /-- When the delivery left node 32. -/
  sent : Nat := 0
  /-- The watchdog has parked the flow of the item held (R215). -/
  overrun : Bool := false
  /-- Order of the last delivery to the plane (R212). -/
  lru : Nat := 0
  /-- BUSY with no flow after a Gweak reset (R228). -/
  orphan : Bool := false
  /-- The class for which a load into the plane is under way or has just ended (R212, R225). -/
  load : Option Nat := none
  /-- The load has ended and the item waits for the gallery's servers to be idle (R212). -/
  loaded : Bool := false
  deriving DecidableEq, Repr, Inhabited

/-- The hidden state of a Gweak. -/
structure Gwk where
  flows : Sparse GFlow := []
  /-- Delayed items with their flow index, in order of acceptance (R219). -/
  delay : List (Nat × BitVec 256) := []
  srvs : Sparse GSrv := []
  /-- Round-robin pointers by priority (R209) and by class (R211). -/
  rr : Sparse Nat := []
  cptr : Sparse Nat := []
  /-- Galleries whose servers are being removed, and whether GWK_SRV_CMD asked (R224). -/
  removing : List (Nat × Bool) := []
  /-- Deliveries made, for the order of R212. -/
  lru : Nat := 0
  /-- The on-chip trace ring, by record (R230). -/
  trace : Sparse (BitVec 128) := []
  deriving DecidableEq, Repr, Inhabited

/-! ## The HBM3E memory port and the encryption engine -/

/-- What the encryption engine meets for one 64-byte block, as facts of the silicon: metadata lookups served by the cache and
fetched (how the cache is indexed is not given), the kind of a metadata item of the path that fails (0 data-tag line, 1 counter
block, 2 counter-block-tag line, 2 + j level-j node), whether the block's own tag fails, and lines evicted. -/
structure MeeFacts where
  hits : Nat := 0
  misses : Nat := 0
  metaBad : Option (Fin 10) := none
  tagBad : Bool := false
  /-- The controller answers the block DATA_ERR (for a merge of the combining buffer, R298). -/
  dataErr : Bool := false
  /-- Kind and number of each evicted metadata item. -/
  evict : List (Nat × Nat) := []
  deriving DecidableEq, Repr, Inhabited

/-- How a 32-byte burst reads (R275, R276), as a fact of the silicon. -/
inductive BurstFact where
  | ok | corrected | uncorrectable | severity | parityOnce | parityTwice
  deriving DecidableEq, Repr, Inhabited

/-- An entry of a write queue (R270, R271): the block (stack offset div 64), its bytes and their enables, when it was placed, the
requests that wait for it (R271), whether a read waits for it, how many posted writes it holds (R278), and the bytes that only the
write-back of a corrected burst put there (R275). -/
structure WqEnt where
  blk : Nat
  data : BitVec 512
  mask : BitVec 64
  t : Nat
  waiters : List (Nat × Nat) := []
  urgent : Bool := false
  posted : Nat := 0
  wb : BitVec 64 := 0
  deriving DecidableEq, Repr, Inhabited

/-- An entry of a read queue: the block, the request and the block's place in it, its range when encrypted, and its arrival. -/
structure RqEnt where
  blk : Nat
  id : Nat
  k : Nat
  range : Option Nat
  t : Nat
  deriving DecidableEq, Repr, Inhabited

/-- A request whose blocks are being performed: its result so far by block, as status code and data. -/
structure HReq where
  id : Nat
  p : Packet
  res : List (Option (Nat × BitVec 512))
  deriving DecidableEq, Repr, Inhabited

/-- Modes of a pseudo-channel (R273). -/
inductive PcMode where
  | read | forced | opportune
  deriving DecidableEq, Repr, Inhabited

/-- A pseudo-channel (R269, R273, R279, R280). -/
structure PcSt where
  rq : List RqEnt := []
  wq : List WqEnt := []
  mode : PcMode := .read
  /-- Writes issued in OPPORTUNE since a read arrived. -/
  wsr : Nat := 0
  /-- Open row by bank (SID, bank group, bank as one number). -/
  rows : Sparse Nat := []
  /-- Activation table: row key and count. -/
  table : List (Nat × Nat) := []
  /-- Refreshes postponed, by bank. -/
  postponed : Sparse Nat := []
  /-- Corrected bursts whose write-back waits for room in the write queue, as stack offsets (R275). -/
  wbWait : List Nat := []
  deriving DecidableEq, Repr, Inhabited

/-- A memory port. -/
structure Hbm where
  /-- Requests in the request buffer, oldest first, with their facts. -/
  buf : List (Packet × List MeeFacts) := []
  reqs : List HReq := []
  nextId : Nat := 0
  pcs : Sparse PcSt := []
  /-- Causes that hold the stack in self-refresh (R282): 0 PROG_N or RELOAD, 1 foundation partial reset, 2 SR_HOLD, 3 stop,
  4 power-down, 5 clock loss. -/
  wants : List Nat := []
  /-- The exit has been granted and is under way. -/
  exiting : Bool := false
  /-- Initialisation has begun (R501). -/
  initBegun : Bool := false
  /-- Alerts in a row, by channel (R278). -/
  alerts : Sparse Nat := []
  deriving DecidableEq, Repr, Inhabited

/-- The counters of a range's tree (R291, R292): minor counters by block, major counters by page, and the counter that covers each
counter block (level 1) and node (level j + 1), by level and number. -/
structure MeeTree where
  minor : Sparse Nat := []
  major : Sparse Nat := []
  nctr : Sparse Nat := []
  deriving DecidableEq, Repr, Inhabited

/-- A range of an encryption engine. What its registers show is in the register file. -/
structure MeeRange where
  keyCur : BitVec 256 := 0
  keyNext : BitVec 256 := 0
  /-- Blocks written since the range entered INIT (R300), by number from the start of the data span. -/
  written : Sparse Bool := []
  cur : MeeTree := {}
  next : MeeTree := {}
  /-- The sweep under way began with the range POISONED (R303). -/
  allPoison : Bool := false
  /-- The key change has begun its sweep. -/
  begun : Bool := false
  deriving DecidableEq, Repr, Inhabited

/-- An entry of the write-combining buffer (R297). -/
structure WcbEnt where
  blk : Nat
  range : Nat
  data : BitVec 512
  mask : BitVec 64
  t : Nat
  deriving DecidableEq, Repr, Inhabited

/-- An encryption engine. -/
structure Mee where
  ranges : Sparse MeeRange := []
  wcb : List WcbEnt := []
  /-- Dirty metadata lines: range, level (1 counter block, 1 + j level-j node) and number (R296). -/
  dirty : List (Nat × Nat × Nat) := []
  deriving DecidableEq, Repr, Inhabited

/-! ## Lanes, Ethernet engines, pads -/

/-- The hidden state of a lane: runs of measurements at or above LOCK_FOM, below it, below ALARM_FOM, and at or above ALARM_FOM + 8
(R316); QREQ; the temperature stored with the coefficients; the start begins from stored coefficients (R318, R319). -/
structure LaneHid where
  lockHi : Nat := 0
  lockLo : Nat := 0
  almLo : Nat := 0
  almHi : Nat := 0
  qreq : Bool := false
  temp : Nat := 0
  warm : Bool := false
  deriving DecidableEq, Repr, Inhabited

/-- What an outstanding request of an engine is for. -/
inductive EthOp where
  /-- A write of stored frame `id`. -/
  | store (id : Nat)
  | enq (entry flow : Nat)
  | push (entry : Nat)
  /-- Read k of the head of a transmit queue. -/
  | fetch (queue k : Nat)
  deriving DecidableEq, Repr, Inhabited

/-- A frame under STORE whose writes are not all answered (R328). -/
structure EthStore where
  id : Nat
  entry : Nat
  left : Nat
  bad : Bool
  item : Option (BitVec 256)
  deriving DecidableEq, Repr, Inhabited

/-- A descriptor of a transmit queue (R331): its reads, once begun, and the bytes they returned. -/
structure EthDesc where
  desc : BitVec 256
  reading : Bool := false
  left : Nat := 0
  bad : Nat := 0
  chunks : Sparse (List Byte) := []
  deriving DecidableEq, Repr, Inhabited

/-- What the stream landing presents of a received frame (R322 table): its port, bytes, matching entry and receive timestamp. -/
structure EthStream where
  port : Nat
  bytes : List Byte
  hit : Option Nat
  ts : Option Nat
  deriving DecidableEq, Repr, Inhabited

/-- A frame in the receive buffer (R327): its size, and what waits for the stream. -/
structure EthRx where
  id : Nat
  port : Nat
  size : Nat
  stream : Option EthStream
  deriving DecidableEq, Repr, Inhabited

/-- A complete stream frame waiting for transmission, with the identifier of its timestamp request. -/
structure EthTx where
  port : Nat
  bytes : List Byte
  tsid : Option Nat
  deriving DecidableEq, Repr, Inhabited

/-- An entry of the transmit timestamp store (R330). -/
structure EthTs where
  time : Nat
  port : Nat
  src : Nat
  id : Nat
  deriving DecidableEq, Repr, Inhabited

/-- The hidden state of an Ethernet engine. -/
structure Eth where
  rx : List EthRx := []
  /-- Requests not yet sent: at most 64 are outstanding (R327). With each, the frame of the receive buffer it belongs to. -/
  outbox : List (Option Nat × EthOp × Packet) := []
  /-- Outstanding requests by tag. -/
  ops : List (Nat × EthOp) := []
  stores : List EthStore := []
  /-- Bytes gathered and bytes since the last boundary, by entry (R326). -/
  gather : Sparse (List Byte × Nat) := []
  /-- RX_RDY (R324). -/
  rdy : Nat := 0
  txq : Sparse (List EthDesc) := []
  stream : List EthTx := []
  ts : List EthTs := []
  nextId : Nat := 0
  /-- The last frame presented on the stream, and the last frame sent: port, source (0 to 7 queue, 8 stream), bytes. -/
  shown : Option EthStream := none
  sent : Option (Nat × Nat × List Byte) := none
  deriving DecidableEq, Repr, Inhabited

/-- A link of a hall's meshes (R250): 0 LIVE, 1 DEAD, 2 TESTING; its LATE count and last self-test RESULT; and whether LATE_SPEAKER
has been raised since its declaration (R254). -/
structure Link where
  st : Nat := 0
  late : Nat := 0
  result : Nat := 0
  spoke : Bool := false
  /-- Packets that have crossed and left the far input, but whose confirmation did not get back (R232, R251). -/
  unconf : List Packet := []
  /-- Of VC0 and VC2, the one that this output sent last; the input that it granted last, by virtual channel (R242). -/
  turn : Nat := 0
  rr : Sparse Nat := []
  deriving DecidableEq, Repr, Inhabited

/-- A corridor (R63 to R66), where an end is hall × 5 + channel: the state of each channel at each end (R257), as in Link; ends that have
raised LATE_SPEAKER since their declaration; the hall that asked for each channel's self-test; the channel that the spare serves; by
sending end, what `Link.unconf` holds for a link. -/
structure Corr where
  st : Sparse Nat := []
  spoke : List Nat := []
  tester : Sparse Nat := []
  spare : Option Nat := none
  unconf : Sparse (List Packet) := []
  deriving DecidableEq, Repr, Inhabited

/-- A link that a command names (R250): a side of a router, by link index, or channel c of the corridor on side k of the hall. -/
inductive LinkRef where
  | link (i : Fin 640)
  | channel (k : Fin 3) (c : Fin 5)
  deriving DecidableEq, Repr, Inhabited

/-- A link or channel that falls silent (R251, R252): the packets crossing it, by VC and MESH, of which some units have crossed. -/
structure LinkCut where
  link : LinkRef
  part : List (Fin 4 × Bool)
  deriving DecidableEq, Repr, Inhabited

/-- A router that can hold a packet for a sleeping domain (R258): the domain, and the mesh of the router (R231). -/
structure RouterRef where
  dom : Fin 72
  mesh : Fin 2
  deriving DecidableEq, Repr, Inhabited

/-- What becomes of a packet that a router sends on: it is lost on the way, or its tail is confirmed (R232). -/
structure HopFate where
  lost : Bool
  conf : Bool
  deriving DecidableEq, Repr, Inhabited

/-- Notices on VC3 (R238, R251, R257), whose layouts the manual does not give. -/
inductive NoticeKind where
  /-- The far end has declared channel c of the corridor on side k dead. -/
  | dead (k : Fin 3) (c : Fin 5)
  /-- A mesh link of the hall is dead: new packets go round it. -/
  | reroute
  /-- A wake request or its end. -/
  | wake
  deriving DecidableEq, Repr, Inhabited

/-- What an RD or WR meets at its target, as facts: check results of a gallery's memory; bytes of the request that a prism write of
the same row took in the same cycle (R174); and the facts of a memory port's blocks. -/
structure AccFacts where
  ecc : EccFacts := {}
  ovt : List Nat := []
  mee : List MeeFacts := []
  deriving DecidableEq, Repr, Inhabited

/-- A QPUSH as it reaches its queue: the bytes of its rows, counted through the packet, that a prism write of the same row took in the
same cycle (R174). -/
structure QueuePush where
  pkt : Packet
  ovt : List Nat
  deriving DecidableEq, Repr, Inhabited

/-- A group of a calibration sweep (R436): a landing group, or an HBM byte lane. -/
inductive CalGroup where
  | land (n : Fin 192)
  | hbm (n : Fin 160)
  deriving DecidableEq, Repr, Inhabited

/-- The hidden state of a hall. What its registers show is in the register file, not here. -/
structure Hall where
  gwk : Gwk := {}
  hbm : Hbm := {}
  mee : Mee := {}
  lanes : Sparse LaneHid := []
  /-- Applied delay of each landing group (R46), where it is not 0x20; groups whose margin is low (R48). -/
  landAt : Sparse Nat := []
  landLow : List Nat := []
  eths : Sparse Eth := []
  /-- Serialiser clocks (2 b + k) whose pins stand in their SAFE state (R337). -/
  padSafe : List Nat := []
  /-- Mezzanine tracks locked off (R94), when a track was last re-enabled, and galleries whose priority pass it awaits (R93). -/
  mezzLocked : List Nat := []
  mezzRearm : Sparse Nat := []
  mezzPass : Sparse (List Nat) := []
  /-- The galleries of the first two stairs that detected each contention (R91). -/
  mezzSeen : Sparse (List Nat) := []
  /-- Links by index (R250), where they are not live and untouched. -/
  links : Sparse Link := []
  /-- FRST_TIMEOUT has been raised in this partial reset (R61). -/
  frstLate : Bool := false
  /-- The lens trace buffer, by record (R263). -/
  lens : Sparse (BitVec 256) := []
  deriving DecidableEq, Repr, Inhabited

/-! ## The event queue and the management port -/

/-- An event record (R465), with the code's severity and unit derived from the code. -/
structure EventRec where
  code : Nat
  sev : Nat
  hall : Nat
  idx : Nat
  time : Nat
  args : Nat
  deriving DecidableEq, Repr, Inhabited

/-- The event queue (R467, R468): records oldest first, how many the last EVREAD holds, and when each limited event was last
raised. -/
structure EventQ where
  recs : List EventRec := []
  held : Nat := 0
  last : Sparse Nat := []
  deriving DecidableEq, Repr, Inhabited

/-- A response in the port's slot (R460). -/
structure PortRsp where
  tag : Nat
  status : Nat
  ostat : Nat
  data : List Byte
  deriving DecidableEq, Repr, Inhabited

/-- The management port (R459 to R463). -/
structure MPort where
  live : Bool := false
  /-- The command running, as OP and TAG. -/
  busy : Option (Nat × Nat) := none
  rsp : Option PortRsp := none
  lastErr : Nat := 0
  /-- The bytes the port last drove on a STATUS, GETRSP transaction. -/
  out : List Byte := []
  deriving DecidableEq, Repr, Inhabited

/-- A command transaction of the port after its OP (R457, R458): the width bit of OP, TAG, ADDR, LEN, the HCRC sent, and for
commands that carry data the data and the DCRC sent. -/
structure PortCmd where
  wide : Bool := true
  tag : Byte := 0
  addr : Word := 0
  len : BitVec 16 := 0
  hcrc : BitVec 16 := 0
  data : List Byte := []
  dcrc : BitVec 16 := 0
  deriving DecidableEq, Repr, Inhabited

/-- A transaction that no row of its own names: one that is cut short or overlong, one that arrives while a command runs, and one
whose OP is reserved (R458, R459). -/
inductive BadXact where
  | malformed
  | busy
  | reserved (op : Fin 128) (c : PortCmd)
  deriving DecidableEq, Repr, Inhabited

/-! ## Omist interfaces -/

/-- A receiving interface's record of one sender (R246): the sender's epoch and the last 256 numbers accepted, newest first. -/
structure SeqRec where
  epoch : Nat := 0
  seen : List Nat := []
  deriving DecidableEq, Repr, Inhabited

/-- A request that awaits its response (R245): the packet and when it left. -/
structure Req where
  p : Packet
  t : Nat
  deriving DecidableEq, Repr, Inhabited

/-- Live counters of an initiator interface (R264, R265). -/
structure IStat where
  req : Nat := 0
  units : Nat := 0
  lmin : Nat := 0xFFFFFFFF
  lmax : Nat := 0
  lsum : Nat := 0
  err : Nat := 0
  hist : Sparse Nat := []
  deriving DecidableEq, Repr, Inhabited

/-! ## Clocks, power, temperature -/

/-- A clock source now lost (R414): the hall (15 for REFCLK), the source byte and since when. -/
structure Lost where
  hall : Nat
  src : Nat
  since : Nat
  deriving DecidableEq, Repr, Inhabited

/-- A clock source of R414: REFCLK, LREF_h_q, fabric PLL i, or clock domain 24 + d of a hall. -/
inductive ClkSrc where
  | ref
  | lref (h : HallIx) (q : Fin 4)
  | pll (h : HallIx) (i : Fin 6)
  | domain (h : HallIx) (d : Fin 40)
  deriving DecidableEq, Repr, Inhabited

/-- The package time base and the clock units' hidden state (R411, R412). -/
structure Clk where
  /-- Time in units of 2^-16 ns. -/
  tb : BitVec 64 := 0
  /-- What the frequency offset has added beyond whole units, in 10^-9 of a unit (R411). -/
  acc : Int := 0
  /-- Latched CLK_TB_NOW_HI. -/
  latch : Nat := 0
  lost : List Lost := []
  /-- Fabric PLLs stopped by DEEP, bit i, by hall (R413). -/
  deepOff : Sparse Nat := []
  /-- The PLLs fed from REFCLK have been started at step 8 of start-up (R406). -/
  pllOn : Bool := false
  /-- REFCLK is present; LREF inputs present, bit 4 h + q (R404, R414). -/
  ref : Bool := true
  lref : Nat := 0xFFFFFFFF
  /-- The straps OSCDLY (R405). -/
  oscdly : Nat := 0
  /-- Gallery clock branches have been started by release and not stopped since (R406). -/
  galOn : Bool := false
  /-- Pads and lanes have been started by release and not stopped since (R336, R317). -/
  ioOn : Bool := false
  deriving DecidableEq, Repr, Inhabited

/-- Who waits for an admission (R420). -/
inductive AdmFor where
  /-- Domain d of hall h, for PWR_CMD (wake = false) or a wake. -/
  | power (h d : Nat) (wake : Bool)
  /-- Stack m's self-refresh exit. -/
  | hbmExit (m : Nat)
  /-- Sweep or initialisation of range r of stack m. -/
  | mee (m r : Nat)
  | bist
  /-- The slot copy of gallery G. -/
  | copy (G : Nat)
  | library
  | import_
  /-- Lowering of hall h's gallery clock division. -/
  | divLower (h : Nat)
  deriving DecidableEq, Repr, Inhabited

/-- A request waiting for admission (R422). -/
structure AdmReq where
  kind : Nat
  hall : Nat
  who : AdmFor
  since : Nat
  deriving DecidableEq, Repr, Inhabited

/-- A cost held after a grant (R420, R421), in mW. -/
structure AdmHold where
  kind : Nat
  hall : Nat
  who : AdmFor
  cost : Nat
  deriving DecidableEq, Repr, Inhabited

/-- The admission controller: waiting requests oldest first, costs held, and requesters that ask again at the next chance. -/
structure Adm where
  queue : List AdmReq := []
  held : List AdmHold := []
  again : List (Nat × Nat × AdmFor) := []
  deriving DecidableEq, Repr, Inhabited

/-- Why a domain changes (R418, R258). -/
structure DomChange where
  /-- State the domain heads for: 0 OFF, 1 RETENTION, 2 ON. -/
  target : Nat
  /-- State to return to when admission times out. -/
  prev : Nat
  byCmd : Bool
  /-- A wake waits behind a power-down under way (R259). -/
  wakeAfter : Bool
  /-- A gallery-logic domain whose hall's mirror domain comes first (R419). -/
  waitMirror : Bool
  deriving DecidableEq, Repr, Inhabited

/-- The PWR_CMD under way: hall, domain, target, and whether its power-down waits for Gweak's removal of servers or for the
Ethernet engines to drain (R418). -/
structure PwrCmd where
  hall : Nat
  dom : Nat
  target : Nat
  waitSrv : Bool
  waitDrain : Bool
  deriving DecidableEq, Repr, Inhabited

/-- The thermal routine's memory of a hall or stack: its latest readings (time in ns, value in 0.25 °C), newest first. -/
structure ThermHist where
  pts : List (Nat × Int) := []
  deriving DecidableEq, Repr, Inhabited

/-- The orderly or thermal stop (R434, R431). -/
structure StopSt where
  /-- Step in progress, 1 to 5; 0 no stop. -/
  step : Nat := 0
  cause : Nat := 0
  t0 : Nat := 0
  /-- When a thermal trigger made it a thermal stop. -/
  thermal : Option Nat := none
  /-- The immediate cut has been taken and holds (R432). -/
  cut : Bool := false
  /-- The start now waiting at step 1 follows an immediate cut (R433), and START_TOO_HOT has been raised. -/
  hotStart : Bool := false
  hotRaised : Bool := false
  deriving DecidableEq, Repr, Inhabited

/-- A packet in a wake slot of a router (R258), and when it arrived. -/
structure Slot where
  p : Packet
  t : Nat
  deriving DecidableEq, Repr, Inhabited

/-! ## Start-up, scrubbing and flash -/

/-- Where the system manager stands in a start (R350, R357, R360). -/
inductive BootPhase where
  /-- Power-on reset: a rail lies below its threshold (R481, R483). -/
  | off
  /-- The start delay runs, or RST_N is held low (R405, R479). -/
  | delay
  /-- Step 1, waiting for halls and stacks to cool (R433). -/
  | hot
  /-- Step 2 is next: flash discovery. -/
  | discover
  /-- Steps 3 to 5 are next: header and manifest checks. -/
  | check
  /-- Step 6 is next: the record scan. -/
  | scan
  /-- Step 7: the start-up self-test, or the ECC checker test of a warm start. -/
  | selftest
  /-- Step 8 is next. -/
  | pll
  /-- Step 9: sections are being read. -/
  | load
  /-- Release steps 1 and 2 have been taken; step 3 is next. -/
  | border
  /-- Release step 3 has been taken; steps 4 and 5 are next. -/
  | last
  /-- No start is in progress: running, safe hold or stopped, as BOOT_STAT.STATE says. -/
  | done
  /-- Warm reconfiguration, steps 1 to 4, until PROG_N is high (R360). -/
  | warm
  deriving DecidableEq, Repr, Inhabited

/-- An entry of the section table (R342). -/
structure Sect where
  typ : Nat
  lib : Bool
  off : Nat
  len : Nat
  digest : BitVec 512
  deriving DecidableEq, Repr, Inhabited

/-- A PLACE record of BOOTMAP (R345). -/
structure PlaceRec where
  sect : Nat
  G : Nat
  slot : Nat
  planes : Nat
  deriving DecidableEq, Repr, Inhabited

/-- A GALLERY record of BOOTMAP (R345). -/
structure GalRec where
  G : Nat
  active : Nat
  act : Bool
  gcrc : Nat
  deriving DecidableEq, Repr, Inhabited

/-- The image being tried or running, as read from its header, manifest and BOOTMAP. -/
structure ImageSt where
  base : Nat := 0
  version : Nat := 0
  svn : Nat := 0
  full : Bool := false
  sects : List Sect := []
  places : List PlaceRec := []
  gals : List GalRec := []
  /-- Running CRC-32C of each gallery (R349), as the register of the CRC. -/
  crc : Sparse Nat := []
  /-- Digests of the CATALOGUE section (R364). -/
  cat : List (BitVec 512) := []
  deriving DecidableEq, Repr, Inhabited

/-- An import (R363): its hall, gallery, slot, address, header and whether it has been admitted. -/
structure Import where
  hall : Nat
  g : Nat
  slot : Nat
  addr : Nat
  granted : Bool
  deriving DecidableEq, Repr, Inhabited

/-- A record waiting for its write (R375): type and payload. -/
structure RecWrite where
  typ : Nat
  payload : List Byte
  deriving DecidableEq, Repr, Inhabited

/-- Where a hall's scrubber stands in its round (R366): unit u (4 g + p for plane p of gallery g in resident passes, 128 + s for slot
s in the mirror pass), frame, the gallery of the next mirror pass, and the priority pass in progress: gallery, plane, frame. -/
structure Scrub where
  u : Nat := 0
  frame : Nat := 0
  m : Nat := 0
  prio : Option (Nat × Nat × Nat) := none
  /-- The contended tracks for which the priority pass in progress was begun (R93). -/
  prioFor : List Nat := []
  deriving DecidableEq, Repr, Inhabited

/-- The system manager's start-up state. -/
structure Boot where
  phase : BootPhase := .off
  /-- Kind of the last start: 0 power-on, 1 RST_N, 2 PROG_N, 3 RELOAD. -/
  kind : Nat := 0
  rstLow : Bool := false
  progLow : Bool := false
  delayOver : Bool := false
  /-- Step 1 of the start, or step 5 of R360. -/
  t0 : Nat := 0
  golden : Bool := false
  /-- Steps 6 to 8 have been passed in this start. -/
  passed8 : Bool := false
  img : ImageSt := {}
  /-- An image runs, or is being started, whose SVN img.svn is (R386). -/
  runs : Bool := false
  next : Nat := 0
  /-- Galleries activated whose borders wait for release step 3. -/
  rel : List Nat := []
  lib : Bool := false
  /-- The present library section has been admitted, or asked for admission. -/
  libOk : Bool := false
  libAsked : Bool := false
  /-- Section from which a slot was filled (key 32 G + slot), for R369. -/
  slotSect : Sparse Nat := []
  /-- Slots waiting for their reload from flash (key 32 G + slot), and the one in progress. -/
  reload : List Nat := []
  scrub : Sparse Scrub := []
  imp : Option Import := none
  /-- Host software's flash command: OP and address. -/
  fcmd : Option (Nat × Nat) := none
  recs : List RecWrite := []
  deriving DecidableEq, Repr, Inhabited

/-! ## Self-test and calibration -/

/-- A self-test run (R446 to R450): units still to run, halls, preserving mode, requester (0 start, 1 shutdown, 2 host software),
whether it has been admitted, what has been found, and the result with which it ends after the unit in progress (R448, R453). -/
structure BistRun where
  units : List Nat
  halls : Nat
  keep : Bool
  who : Nat
  started : Bool := false
  repaired : Bool := false
  unrep : Bool := false
  ends : Option Nat := none
  /-- The first unrepairable failure: unit, hall, gallery. -/
  bad : Option (Nat × Nat × Nat) := none
  deriving DecidableEq, Repr, Inhabited

/-- A failure that a unit of the self-test finds (R452): hall, gallery, address and bit. -/
structure BistFail where
  hall : Fin 8
  g : Fin 32
  f1 : BitVec 32
  f2 : BitVec 32
  deriving DecidableEq, Repr, Inhabited

/-- The self-test engine. The log holds BIST_FLOG_0 to BIST_FLOG_2 of each failure. -/
structure Bist where
  run : Option BistRun := none
  log : List (Nat × Nat × Nat) := []
  /-- BIST_REFUSED has been raised while start-up waits at step 7 (R450). -/
  raised : Bool := false
  /-- H_h of halls 0 to 7 at the start of a shutdown test (R444). -/
  th : List Nat := []
  deriving DecidableEq, Repr, Inhabited

/-- A hall run of calibration (R440). -/
structure CalRun where
  /-- A sweep has been made. -/
  swept : Bool := false
  /-- One further run follows (R441). -/
  again : Bool := false
  /-- The start run of R440. -/
  start : Bool := false
  temp : Nat := 0
  stemp : Nat := 0
  moved : Nat := 0
  idle : Nat := 0
  limit : Nat := 0
  low : Nat := 0
  deriving DecidableEq, Repr, Inhabited

/-- The calibration manager: runs by hall, and halls whose start run has not ended. -/
structure Cal where
  runs : Sparse CalRun := []
  startLeft : Nat := 0
  /-- Halls that wait for state RUN, or for the end of a partial reset (R441, R453). -/
  want : Nat := 0
  /-- Spare-lane assignment of an HBM channel (16 m + c), as the calibration record gives it (R443). -/
  lrep : Sparse Nat := []
  deriving DecidableEq, Repr, Inhabited

/-! ## Security -/

/-- One-time-programmable memory (R378 to R386): life-cycle state; key hashes by slot; programmed, revoked and spoilt slots; the
committed and spoilt positions of the counter; a spoilt state bit. -/
structure Otp where
  lc : Nat := 0
  keys : Sparse (BitVec 256) := []
  prog : Nat := 0
  rev : Nat := 0
  spoilt : Nat := 0
  rb : Nat := 0
  rbSpoilt : Nat := 0
  deriving DecidableEq, Repr, Inhabited

/-- A life-cycle, key or counter command in progress: the word written to SEC_LC_CMD (R380). -/
structure LcCmd where
  word : Word
  /-- It has passed checks 1 to 3 and its signature check has been made, with this outcome. -/
  sig : Bool
  deriving DecidableEq, Repr, Inhabited

/-- Instructions of the JTAG port (R400, R401). -/
inductive JtagOp where
  | bypass | idcode | samplePreload | extest | clamp | highz | extestPulse | extestTrain | vendor | other
  deriving DecidableEq, Repr, Inhabited

/-- The security engine. -/
structure Sec where
  /-- Measurement registers (R388). -/
  mr : Sparse (BitVec 512) := []
  cmd : Option LcCmd := none
  /-- An attestation under way: the first 640 bytes of its report; and one that waits for a command. -/
  att : Option (List Byte) := none
  attWait : Bool := false
  /-- The package time base in ns and the word of BOOT_STAT at the GO of the latest attestation (R396). -/
  attGo : Nat × Word := (0, 0)
  /-- A command waits for an attestation (R402). -/
  cmdWait : Option Word := none
  report : Option (List Byte) := none
  /-- The wipe in progress: its cause (0 power-on, 1 life cycle, 2 tamper). -/
  wipe : Option Nat := none
  /-- Partitions being zeroed, with the value that then applies (R390). -/
  zero : Sparse Word := []
  /-- The challenge of the vendor instruction, and whether the private test modes are open (R401). -/
  vchal : Option (BitVec 256) := none
  unlocked : Bool := false
  /-- What a reset or loss of power left spoilt, until the next start reports it (R382): kind and index. -/
  spoilt : Option (Nat × Nat) := none
  /-- The instruction that acts on the JTAG port (R400). -/
  jtag : JtagOp := .bypass
  deriving DecidableEq, Repr, Inhabited

end Sys2Proof
end

