-- ==== Sys2Proof/Syntax.lean ====
section
/-!
DEFINITION. Syntax.lean: the commands of the block, one constructor per row of the table of operations and events. An operand that a
docstring does not explain is an index (R25), a register's written value, or a fact of the silicon or of the board that the command
meets; the definition of the command's meaning says which.
-/
namespace Sys2Proof

/-- The commands. -/
inductive Instr where
  /-- REGISTER_WRITE (R17). A write by host software or the design to a management register that has no row of its own sets its
  fields as their access codes give. -/
  | registerWrite (w : Writer) (a : Word) (v : Word)
  /-- POWER_ON (R481). The board powers the rails up in order, and the device holds in power-on reset until every rail passes
  its threshold. -/
  | powerOn (oscdly : Fin 4) (ref : Bool) (lref : BitVec 32)
  /-- START_DELAY_END (R405). The oscillator start delay set by the OSCDLY straps expires and start-up begins at step 1. -/
  | startDelayEnd
  /-- SUPPLY_FALL (R483). A rail falls below its falling threshold and the device enters power-on reset, losing HBM, the vault
  and any stop in progress. -/
  | supplyFall (spoil : Option (Fin 3 × Fin 128))
  /-- RST_N (R361). RST_N held low for at least 1 µs resets the device, keeping only the vault and life-cycle state, and
  restarts start-up at step 1. -/
  | rstN (spoil : Option (Fin 3 × Fin 128))
  /-- PROG_N (R360). A PROG_N low of at least 1 µs starts warm reconfiguration. -/
  | progN (commit : Bool) (run : Option (Byte × Byte))
  /-- STOP_N (R434). STOP_N held low for at least 1 µs starts the orderly stop. -/
  | stopN
  /-- FLASH_DISCOVERY (R339). The system manager reads and compares the SFDP tables of both flash devices and switches them to
  octal DDR, or enters safe hold. -/
  | flashDiscovery (dev0 : Bool) (dev1 : Bool) (same : Bool) (good : Bool) (size : Fin 5)
  /-- IMAGE_CHECK (R343). The header and manifest of an image are read and checked in order before any frame is written. -/
  | imageCheck (mv : List (Fin 4096))
  /-- RECORD_SCAN (R374). The record area is scanned, the shutdown and calibration records are chosen and the self-test path is
  set. -/
  | recordScan (mv : List (Fin 4096))
  /-- FABRIC_PLL_LOCK (R406). At step 8 of start-up the fabric and engine PLLs lock, landing codes are set from the calibration
  record or cold, and HBM initialisation begins. -/
  | fabricPllLock (sweeps : List (HallIx × CalGroup × Int × Int))
  /-- SECTION_READ (R344). An image section has been read in full, its frames written, and its digest and any gallery CRC
  compared. -/
  | sectionRead (facts : List (GalIx × PlaneIx × LoadFacts))
  /-- RELEASE (R357). Once every boot-phase check has passed, the active planes of the loaded galleries become ACTIVE and the
  gallery clocks start. -/
  | release
  /-- RELEASE_BORDERS (R357). 64 cycles of the slowest gallery clock after release starts, border presentation ends in every
  activated gallery. -/
  | releaseBorders
  /-- BOOT_DONE (R357). 1 µs after the borders are released, VCCIO is checked, pads and lanes start and DONE rises. -/
  | bootDone (senses : List (Fin 4))
  /-- IMPORT (R363). A write of BOOT_IMP_CMD with GO starts an import of a plane image from system space into a mirror slot. -/
  | importCmd (v : Word) (st : Fin 8)
  /-- IMPORT_COMPLETE (R365). An import ends: the slot becomes VALID or EMPTY and BOOT_IMP_STAT.RESULT is set. -/
  | importComplete (st : Fin 8)
  /-- SCRUB_FRAME_STEP (R366). Each INTERVAL the scrubber of a hall handles one frame of its current resident, mirror or
  priority pass. -/
  | scrubFrameStep (h : HallIx) (mirror : Fin 3) (diff : BitVec 4096)
  /-- SCRUB_SLOT_RELOAD_DONE (R369). The reload of a BAD slot from flash ends and the slot becomes VALID or UNUSABLE. -/
  | scrubSlotReloadDone (G : GalIx) (k : SlotIx) (fault : Bool)
  /-- FLASH_READ (R377). BOOT_FCMD with OP READ fills BOOT_FBUF from a 256-byte flash page. -/
  | flashRead (v : Word)
  /-- FLASH_PROGRAM (R377). BOOT_FCMD with OP PROGRAM and the key writes BOOT_FBUF to a flash page, unless the area is
  protected. -/
  | flashProgram (v : Word)
  /-- FLASH_ERASE (R377). BOOT_FCMD with OP ERASE and the key erases 8 KiB of flash, unless the area is protected. -/
  | flashErase (v : Word)
  /-- FLASH_CMD_DONE (R377). A flash command of host software ends and BOOT_FSTAT.RESULT is set. -/
  | flashCmdDone (fault : Bool)
  /-- RECORD_WRITE_DONE (R375). A flash record has been erased and programmed into the next free record slot. -/
  | recordWriteDone (fault : Bool)
  /-- FRST_START (R57). FRST_CTRL with the key and GO starts a foundation partial reset: STATE becomes DRAIN and new requests
  are answered UNAVAIL. -/
  | frstStart (h : HallIx) (v : Word)
  /-- FRST_DRAIN_END (R57). 4 µs after the start, outstanding requests are answered UNAVAIL, their tags are retired and STATE
  becomes RESET. -/
  | frstDrainEnd (h : HallIx)
  /-- FRST_HOLD_END (R57). After the 10 µs reset hold the reset units initialise, epochs advance and STATE becomes INIT. -/
  | frstHoldEnd (h : HallIx)
  /-- FRST_DONE (R57). Initialisation ends, STATE returns to READY and paused work resumes. -/
  | frstDone (h : HallIx)
  /-- FRST_TIMEOUT (R61). 200 µs after the start without READY, the hall is fenced and a CRITICAL event is raised. -/
  | frstTimeout (h : HallIx)
  /-- HALL_FENCE_SET (R65). Setting HALL_FENCE.FENCE fences every channel of the hall's corridors. -/
  | hallFenceSet (h : HallIx)
  /-- HALL_FENCE_CLEAR (R66). Clearing HALL_FENCE.FENCE starts the link self-test of the channels the fence held. -/
  | hallFenceClear (h : HallIx)
  /-- CORR_FENCE (R63). A write of CORR_CTRL_k.FENCE fences or releases corridor channels by host software. -/
  | corrFence (h : HallIx) (k : Fin 3) (v : Word)
  /-- CORR_READMIT (R66). Writing CORR_CTRL_k.READMIT starts the self-test of each dead channel that no fence holds. -/
  | corrReadmit (h : HallIx) (k : Fin 3)
  /-- LAND_CODE_STEP (R46). Every 16 landing-clock cycles the applied delay moves one code toward a changed CODE. -/
  | landCodeStep (h : HallIx) (n : Fin 192)
  /-- LAND_PARITY (R51). A lane, Ethernet stream or pad landing word arrives with a parity mismatch, is delivered as received
  and counted. -/
  | landParity (h : HallIx) (n : Fin 192)
  /-- MEZZ_CONTENTION (R91). A disagreement of 2 ns or more on a mezzanine track disables every driver on it and requests
  priority scrub passes. -/
  | mezzContention (h : HallIx) (track : Fin 5120) (g1 : Fin 32) (g2 : Fin 32)
  /-- MEZZ_REARMED (R93). When every priority pass for a contended track has completed, its drivers are re-enabled. -/
  | mezzRearmed (h : HallIx) (track : Fin 5120)
  /-- MEZZ_OFF_WRITE (R94). Writing 1 to a MEZZ_OFF bit re-enables a locked track when its claims are still valid. -/
  | mezzOffWrite (h : HallIx) (j : Fin 160) (v : Word)
  /-- GAL_CLKSEL_WRITE (R97). A change of GAL_CLKSEL_n.SRC stops the old gallery clock glitch-free and starts the switch, unless
  the encoding is reserved. -/
  | galClkselWrite (G : GalIx) (n : Fin 8) (v : Word)
  /-- GAL_CLK_SWITCH_DONE (R97). The new gallery clock source starts and SWITCHING clears. -/
  | galClkSwitchDone (G : GalIx) (n : Fin 8)
  /-- EP_REQUEST (R104). The design's request is taken on IQ and sent by the endpoint, or refused. -/
  | epRequest (G : GalIx) (vc : Fin 4) (last : Bool) (p : Packet)
  /-- DN_DONE (R108). The design signals the end of its item on DN and the gallery router sends DONE to Gweak. -/
  | dnDone (G : GalIx) (status : Fin 4)
  /-- EQ_ENQUEUE (R109). The design's enqueue is taken on EQ and sent on VC2 to the owning Gweak. -/
  | eqEnqueue (G : GalIx) (desc : BitVec 256)
  /-- MSG_ACCEPT (R107). The design accepts the last unit of a target message on TQ and the endpoint sends its response. -/
  | msgAccept (G : GalIx) (last : Bool)
  /-- IT_ACCEPT (R108). The design takes a presented item on IT. -/
  | itAccept (G : GalIx)
  /-- GAL_RST (R110). GAL_RST with the key and GO requests a gallery reset and sets PENDING. -/
  | galRst (G : GalIx) (v : Word)
  /-- GAL_RESET_EDGE (R111). At the next context-clock edge the reset becomes active: borders presented, flip-flops to INIT,
  held items completed with RESET. -/
  | galResetEdge (G : GalIx)
  /-- GAL_RESET_RELEASE (R111). After CYCLES context-clock cycles the flip-flops are released. -/
  | galResetRelease (G : GalIx)
  /-- GAL_RESET_DONE (R111). One cycle after release the borders are released, ACTIVE clears and COUNT increments. -/
  | galResetDone (G : GalIx)
  /-- GAL_CTX_CFG_WRITE (R122). A write of GAL_CTX_CFG changes the plane-select source or the context clock, subject to the
  server rule. -/
  | galCtxCfgWrite (G : GalIx) (v : Word)
  /-- GAL_CTX_SEL_WRITE (R124). A write of GAL_CTX_SEL.PLANE requests a switch in STATIC mode or while no plane is active. -/
  | galCtxSelWrite (G : GalIx) (v : Word)
  /-- PLANE_REQUEST (R125). In DESIGN mode a PR_VALID request names the switch edge, or is refused with PR_NAK. -/
  | planeRequest (G : GalIx) (q : PlaneIx)
  /-- PLANE_SWITCH_EDGE (R130). At E0 the incoming plane's configuration applies, state is stored and loaded through the
  shadows, and borders are presented. -/
  | planeSwitchEdge (G : GalIx)
  /-- SWITCH_CAPTURE (R129). At E1 the fabric captures under the new plane, borders are released and stopped branches restart.
  -/
  | switchCapture (G : GalIx)
  /-- GAL_LOAD_CMD_LOAD (R142). GAL_LOAD_CMD with MODE LOAD requests a load into a plane that is not active. -/
  | galLoadCmdLoad (w : Writer) (G : GalIx) (slot : SlotIx) (p : PlaneIx)
  /-- GAL_LOAD_CMD_REPLACE (R148). GAL_LOAD_CMD with MODE REPLACE requests a replacement load of the active plane. -/
  | galLoadCmdReplace (w : Writer) (G : GalIx) (slot : SlotIx) (p : PlaneIx)
  /-- PLANE_LOAD_START (R143). A request reaches the head of the gallery's load queue, is checked again and its frames begin to
  cross. -/
  | planeLoadStart (G : GalIx)
  /-- PLANE_LOAD_COMPLETE (R146). A plane load ends: the plane becomes READY, ACTIVE after replacement, or FAILED, and the state
  is reported. -/
  | planeLoadComplete (G : GalIx) (f : LoadFacts)
  /-- REPLACE_EDGE (R148). At the first context-clock edge after the replacement reaches the queue head, the plane's state is
  stored and it becomes REPLACING. -/
  | replaceEdge (G : GalIx)
  /-- REPLACE_ACTIVATE (R148). At the edge after the replacement completes, the load step runs and the plane becomes ACTIVE
  without capture. -/
  | replaceActivate (G : GalIx)
  /-- REPLACE_CAPTURE (R148). At the following edge capture resumes and the borders are released. -/
  | replaceCapture (G : GalIx)
  /-- SLOT_COPY (R157). GAL_SLOT_CMD with OP COPY requests a slot copy from another gallery of the hall, or refuses it. -/
  | slotCopy (G : GalIx) (srcG : Fin 32) (srcSlot : SlotIx) (dst : SlotIx)
  /-- SLOT_INVALIDATE (R157). GAL_SLOT_CMD with OP INVALIDATE empties an unpinned slot. -/
  | slotInvalidate (G : GalIx) (k : SlotIx)
  /-- SLOT_COPY_COMPLETE (R157). A slot copy ends with the destination VALID or EMPTY. -/
  | slotCopyComplete (G : GalIx) (pass : Bool)
  /-- PRISM_REQUEST (R163). A row request of the design is accepted on a prism. -/
  | prismRequest (G : GalIx) (k : Fin 4) (op : PrismOp) (bank : Fin 8) (row : Fin 2048) (be : BitVec 128) (wdata : BitVec 1024) (parity : Bool)
  /-- BANK_ACCESS (R172). A bank grants the highest-priority access presented and performs it, checking each byte. -/
  | bankAccess (G : GalIx) (b : BankIx) (f : EccFacts) (diff : Option (Fin 1664))
  /-- PRISM_COMPLETION (R164). The oldest outstanding prism request completes on PSM_CVALID, or is discarded after a switch or
  reset. -/
  | prismCompletion (G : GalIx) (k : Fin 4)
  /-- QUEUE_ENQ_RETRY (R188). 1 µs after a non-OK answer the announcement enqueue is sent again. -/
  | queueEnqRetry (G : GalIx) (b : BankIx)
  /-- GAL_Q_CFG_WRITE (R182). A write of GAL_Q_CFG enables or disables a queue, resetting its pointers, unless refused. -/
  | galQCfgWrite (G : GalIx) (b : BankIx) (v : Word)
  /-- MEMTEST_ROW_START (R191). INTERVAL after the previous row started, the transparent test saves the next physical row and
  redirects its accesses. -/
  | memtestRowStart (G : GalIx) (r : RowSave)
  /-- MEMTEST_RESTORE (R193). The tested row is restored from the holding buffer, to a spare if it was faulty and one is free.
  -/
  | memtestRestore (G : GalIx) (b : BankIx)
  /-- ENQ (R200). An enqueue packet reaches Gweak and is checked, accepted, forwarded or refused. -/
  | enq (p : Packet)
  /-- GWK_ENQ_GO (R199). Writing GWK_ENQ_GO submits the descriptor in GWK_ENQ_w as an enqueue of host software. -/
  | gwkEnqGo (h : HallIx) (v : Word)
  /-- DISPATCH_DECISION (R209). In each decision interval Gweak picks at most one ready head item and assigns it to a server, a
  load or an engine. -/
  | dispatchDecision (h : HallIx)
  /-- CLASS_NO_SERVER (R216). A head item still unplaced 10 µs after it became head is reported. -/
  | classNoServer (h : HallIx) (f : Fin 512)
  /-- DONE (R214). A DONE packet reaches Gweak and the server's item ends as its status gives. -/
  | doneMsg (p : Packet)
  /-- WATCHDOG_CHECK (R215). Once per microsecond Gweak checks every BUSY server against its class's SVC_LIMIT. -/
  | watchdogCheck (h : HallIx)
  /-- ENGINE_RETRY_READY (R217). At the first tick after an engine's UNAVAIL the returned item becomes ready again. -/
  | engineRetryReady (h : HallIx) (f : Fin 512)
  /-- DUE_RELEASE (R219). In each release interval Gweak releases the next due item from the delay list to its flow. -/
  | dueRelease (h : HallIx)
  /-- GWK_TICK_WRITE (R218). A write of GWK_TICK applies only while dispatch is off and the delay list is empty. -/
  | gwkTickWrite (h : HallIx) (v : Word)
  /-- GWK_FLOW_CFG_WRITE (R207). A write of GWK_FLOW_CFG enables or disables a flow, freeing its queued items on disable. -/
  | gwkFlowCfgWrite (h : HallIx) (f : Fin 512) (v : Word)
  /-- FLOW_RESUME (R207). GWK_FLOW_CMD with OP RESUME returns a parked flow with no item in service to service. -/
  | flowResume (h : HallIx) (f : Fin 512)
  /-- FLOW_FLUSH (R207). GWK_FLOW_CMD with OP FLUSH frees the ready and delayed items of a flow. -/
  | flowFlush (h : HallIx) (f : Fin 512)
  /-- SRV_ADD (R223). GWK_SRV_CMD with OP ADD adds the four servers of a SCHEDULED gallery whose domain is ON. -/
  | srvAdd (h : HallIx) (g : Fin 32)
  /-- SRV_REMOVE (R224). GWK_SRV_CMD with OP REMOVE, or a power-off request, starts removal of a gallery's servers. -/
  | srvRemove (h : HallIx) (g : Fin 32)
  /-- SRV_REMOVED (R224). When no server of the gallery is RESERVED, LOADING or DRAINING, all four become NONE. -/
  | srvRemoved (h : HallIx) (g : Fin 32)
  /-- SRV_PRELOAD (R225). GWK_SRV_CMD with OP PRELOAD has Gweak load a class's image into a victim plane ahead of demand. -/
  | srvPreload (h : HallIx) (g : Fin 32) (k : Fin 64)
  /-- RD (R239). An RD request reaches its target and is performed or refused, and a response is returned. -/
  | rd (p : Packet) (f : AccFacts)
  /-- WR (R239). A WR request reaches its target and is performed or refused, and a response is returned. -/
  | wr (p : Packet) (f : AccFacts)
  /-- QPUSH (R185). A QPUSH command pushes 1 to 4 rows onto a gallery queue, or is refused whole. -/
  | qpush (x : QueuePush)
  /-- QPOP (R185). A QPOP command pops 1 to 4 rows from a gallery queue, or is refused whole. -/
  | qpop (p : Packet) (f : EccFacts)
  /-- SRD (R389). An SRD request reaches the vault and is checked and performed. -/
  | srd (p : Packet) (ue : Bool)
  /-- SWR (R389). An SWR request reaches the vault and is checked and performed. -/
  | swr (p : Packet)
  /-- MSG (R107). A MSG packet reaches a gallery's port 1 and is delivered on TQ to a plane with TQ_EN set. -/
  | msg (p : Packet)
  /-- ITEM (R108). An ITEM packet reaches a gallery's port 0 and is presented on IT, requesting a switch if its plane is not
  active. -/
  | item (p : Packet)
  /-- LOADREQ (R143). A load request from Gweak reaches the mirror loader and is checked and queued. -/
  | loadreq (p : Packet)
  /-- LOADRPT (R128). A loader report of a plane state reaches Gweak, which updates residency and may deliver, return or
  exclude. -/
  | loadrpt (p : Packet)
  /-- XMIT (R331). An XMIT from Gweak reaches an Ethernet engine and is queued or refused. -/
  | xmit (p : Packet)
  /-- RSP (R245). A response reaches its initiator and completes the request, or is dropped for a retired tag. -/
  | rsp (p : Packet)
  /-- MRD (R461). An MRD reaches a register agent and reads a management word. -/
  | mrd (p : Packet)
  /-- MWR (R461). An MWR reaches a register agent and writes a management word. -/
  | mwr (p : Packet)
  /-- NOTICE (R251). A link, wake or reroute notice reaches a router or gateway, which fences a link or reroutes new packets. -/
  | notice (h : HallIx) (k : NoticeKind) (p : Packet)
  /-- ROUTER_PACKET (R234). A packet arrives at a router input, is checked and routed onward or held, and is observed by lens
  probes. -/
  | routerPacket (h : HallIx) (n : Fin 40) (d : Fin 8) (p : Packet) (stallIn : Nat) (stallOut : Nat) (fate : HopFate)
  /-- LINK_DEAD (R251). A flit unacknowledged beyond DEAD_TO makes its end declare the link dead, fence it and replay. -/
  | linkDead (h : HallIx) (l : LinkCut)
  /-- LATE_SPEAKER (R254). A handshake from the fenced side of a dead link is swallowed by its isolation latch. -/
  | lateSpeaker (h : HallIx) (l : LinkRef)
  /-- LINK_READMIT (R255). OMI_READMIT with GO starts the self-test of a dead mesh or attachment link. -/
  | linkReadmit (h : HallIx) (i : Fin 640)
  /-- LINK_SELF_TEST_DONE (R255). A link self-test ends and the link becomes LIVE or DEAD. -/
  | linkSelfTestDone (h : HallIx) (l : LinkRef) (r : Fin 3)
  /-- RSP_TIMEOUT (R245). A request with no response within RSP_TO is completed by its initiator with UNAVAIL and its tag
  retired. -/
  | rspTimeout (h : HallIx) (n : Fin 64) (port : Fin 8) (tag : Fin 1024)
  /-- WAKE_TIMEOUT (R260). A packet still in its wake slot after WAKE_TO is answered UNAVAIL or dropped. -/
  | wakeTimeout (h : HallIx) (r : RouterRef) (vc : Fin 4)
  /-- ISTAT_SNAP (R264). Writing LENS_ISTAT_CTRL.SNAP copies every initiator counter of the hall and clears the live counters.
  -/
  | istatSnap (h : HallIx)
  /-- HBM_INIT_DONE (R501). HBM initialisation ends with the stack ACTIVE or FAILED. -/
  | hbmInitDone (m : StackIx) (bad : Option (Fin 3))
  /-- HBM_BURST (R273). A pseudo-channel issues its next column command as its scheduler chooses, and checks read data. -/
  | hbmBurst (m : StackIx) (pc : Fin 32) (f0 : BurstFact) (f1 : BurstFact) (mf : MeeFacts)
  /-- HBM_ALERT (R277). A parity alert from the stack stops the channel, precharges and replays the unacknowledged commands. -/
  | hbmAlert (m : StackIx) (ch : Fin 16) (kind : Fin 2) (acked : Bool) (acts : List (Fin 2 × Fin 1572864))
  /-- HBM_REFRESH (R279). A per-bank refresh falls due and is issued, or postponed within the limit. -/
  | hbmRefresh (m : StackIx) (pc : Fin 32) (bank : Fin 48)
  /-- HBM_TEMP_READ (R279). Every 1 ms the memory port reads the stack's temperature and refresh requirement. -/
  | hbmTempRead (m : StackIx) (t : Fin 256) (mult : Fin 3)
  /-- ACTIVATION_TABLE_CLEAR (R280). Every 32 ms all activation table entries are cleared. -/
  | activationTableClear (m : StackIx)
  /-- HBM_CHANNEL_SR_ENTRY (R281). A channel idle for SR_IDLE enters self-refresh. -/
  | hbmChannelSrEntry (m : StackIx) (ch : Fin 16)
  /-- SR_HOLD_SET (R282). Setting HBM_CTRL.SR_HOLD places the whole stack in self-refresh. -/
  | srHoldSet (m : StackIx)
  /-- SR_HOLD_CLEAR (R282). Clearing SR_HOLD requests admission for the stack's exit. -/
  | srHoldClear (m : StackIx)
  /-- HBM_STACK_SR_ENTRY (R282). Once posted writes and queued reads are done, every channel enters self-refresh and the
  encryption engine pauses. -/
  | hbmStackSrEntry (m : StackIx)
  /-- HBM_WQ_WRITE (R274). A write of HBM_WQ sets the drain watermarks, unless they are inconsistent. -/
  | hbmWqWrite (m : StackIx) (v : Word)
  /-- MEE_RANGE_ENABLE (R289). Setting MEE_CTRL_r.EN moves a valid range to WAIT for initialisation. -/
  | meeRangeEnable (m : StackIx) (r : Fin 8)
  /-- MEE_RANGE_DISABLE (R299). Clearing MEE_CTRL_r.EN zeroises the range's keys and makes it OFF. -/
  | meeRangeDisable (m : StackIx) (r : Fin 8)
  /-- MEE_KEYCHG (R304). Writing MEE_CTRL_r.KEYCHG requests a key change of a range with a next key. -/
  | meeKeychg (m : StackIx) (r : Fin 8)
  /-- MEE_KEY_LOAD (R293). MEE_KEYLD with GO loads a current or next key from the registers or the random generator. -/
  | meeKeyLoad (m : StackIx) (v : Word)
  /-- MEE_UNIT_DONE (R305). A sweep or initialisation finishes one 32 KiB unit and the boundary advances. -/
  | meeUnitDone (m : StackIx) (r : Fin 8) (fails : List (Fin 512 × Bool)) (metaBad : Option (Fin 10 × Fin 512))
  /-- WCB_AGE_MERGE (R297). A combining-buffer entry that has stood for WC_AGE is read, merged, encrypted and written. -/
  | wcbAgeMerge (m : StackIx) (blk : Fin 603979776) (f : MeeFacts)
  /-- LANE_ENABLE (R311). Setting LANE_CFG_l.EN starts a lane, unless its configuration is refused. -/
  | laneEnable (h : HallIx) (l : LaneIx) (v : Word)
  /-- LANE_DISABLE (R317). Clearing LANE_CFG_l.EN returns the lane to DISABLED. -/
  | laneDisable (h : HallIx) (l : LaneIx)
  /-- LANE_QUIET (R317). A write of LANE_CTRL_l.QUIET moves the lane into or out of QUIET. -/
  | laneQuiet (h : HallIx) (l : LaneIx) (b : Bool)
  /-- LANE_DORMANT (R318). A write of LANE_CTRL_l.DORMANT stores coefficients and enters DORMANT, or leaves it. -/
  | laneDormant (h : HallIx) (l : LaneIx) (b : Bool)
  /-- QREQ (R317). A change of the design's QREQ signal moves the lane between ACTIVE and QUIET. -/
  | qreq (h : HallIx) (l : LaneIx) (b : Bool)
  /-- LANE_PLL_LOCK (R317). The transmit PLL locks and the lane becomes ACTIVE. -/
  | lanePllLock (h : HallIx) (l : LaneIx)
  /-- FOM_MEASURE (R316). Every 10 µs the eye monitor measures FOM and LOCK and ALARM follow. -/
  | fomMeasure (h : HallIx) (l : LaneIx) (fom : Fin 256) (cdr : Bool) (under : Nat)
  /-- ETH_MODE_WRITE (R321). A write of ETH_MODE_e sets the port mode and enables, unless a change is made while ports are
  enabled. -/
  | ethModeWrite (h : HallIx) (e : EngIx) (v : Word)
  /-- ETH_LINK_UP (R322). A port gains block, alignment and FEC lock with no fault and comes up. -/
  | ethLinkUp (h : HallIx) (e : EngIx) (p : Fin 4)
  /-- ETH_LINK_DOWN (R322). A port loses lock or sees a fault and goes down, discarding its queued descriptors. -/
  | ethLinkDown (h : HallIx) (e : EngIx) (p : Fin 4) (cause : Fin 4)
  /-- ETH_FRAME_RECEIVE (R325). A received frame is checked, classified and dropped, streamed, stored or queued. -/
  | ethFrameReceive (h : HallIx) (e : EngIx) (p : Fin 4) (b : List Byte) (fcs : Bool) (cor : Nat) (unc : Nat)
  /-- ETH_STREAM_FRAME (R323). A transmit frame whose EOP has arrived on the stream landing is queued for sending or discarded.
  -/
  | ethStreamFrame (h : HallIx) (e : EngIx) (j : Fin 2) (p : Fin 4) (b : List Byte) (err : Bool) (tsid : Option (Fin 256))
  /-- ETH_TX_EOP_TIMEOUT (R323). A stream frame with no EOP 100 µs after its SOP is discarded. -/
  | ethTxEopTimeout (h : HallIx) (e : EngIx) (p : Fin 4)
  /-- ETH_FRAME_TRANSMIT (R332). At a frame boundary the engine sends the next complete frame of its sources, recording a
  timestamp if asked. -/
  | ethFrameTransmit (h : HallIx) (e : EngIx) (p : Fin 4)
  /-- TXTS_READ (R330). A read of ETH_TXTS_e_2 removes the oldest transmit timestamp entry. -/
  | txtsRead (h : HallIx) (e : EngIx)
  /-- ETH_CL_ACT_WRITE (R326). Writing ETH_CL_ACT_e_n with EN set resets NEXT and discards the entry's gathered bytes. -/
  | ethClActWrite (h : HallIx) (e : EngIx) (n : Fin 128) (v : Word)
  /-- PAD_CFG_WRITE (R335). A write of PAD_CFG_b_n configures a pin, unless the standard or options do not fit. -/
  | padCfgWrite (h : HallIx) (b : Fin 2) (n : Fin 48) (v : Word)
  /-- OWN (R379). SEC_LC_CMD with OP OWN moves a BLANK part toward OWNED with SEC_KEYBUF in slot 0. -/
  | own (v : Word)
  /-- SECURE (R379). SEC_LC_CMD with OP SECURE moves an OWNED part to SECURED. -/
  | secure (v : Word)
  /-- RETURN (R399). SEC_LC_CMD with OP RETURN moves the part to RETURNED, destroying the owner's secrets. -/
  | returnCmd (v : Word)
  /-- KEY_ADD (R383). SEC_LC_CMD with OP KEY_ADD programs a key hash into an unused slot. -/
  | keyAdd (v : Word)
  /-- KEY_REVOKE (R384). SEC_LC_CMD with OP KEY_REVOKE revokes a usable slot, leaving another usable. -/
  | keyRevoke (v : Word)
  /-- RB_ADVANCE (R386). SEC_LC_CMD with OP RB_ADVANCE advances the anti-rollback counter after the golden check. -/
  | rbAdvance (v : Word)
  /-- LC_CMD_COMPLETE (R382). A life-cycle command's signature check and OTP programming end and its effect commits. -/
  | lcCmdComplete (fail : Option (Fin 3 × Fin 128))
  /-- VPART_WRITE (R390). A write of SEC_VPART_i that changes its assignment zeroes the partition first. -/
  | vpartWrite (i : Fin 16) (v : Word)
  /-- VPART_ZERO_DONE (R390). Zeroing of a vault partition ends and the new assignment applies. -/
  | vpartZeroDone (i : Fin 16)
  /-- VAULT_WIPE_DONE (R391). A vault wipe and its read-back end, leaving the vault READY, LOCKED or FAILED. -/
  | vaultWipeDone (fail : Option (Fin 65536))
  /-- TAMPER (R393). TAMP_N low for 1 µs or more wipes and locks the vault and may clear encryption ranges and enter safe hold.
  -/
  | tamper
  /-- ATTEST_START (R396). SEC_ATT_CMD.GO copies the measurements and starts building and signing an attestation report. -/
  | attestStart
  /-- ATTEST_DONE (R396). The attestation report is signed and DONE is set. -/
  | attestDone
  /-- MR_EXTEND (R388). SEC_MRX_CMD with GO extends measurement register 6 or 7 by the written value. -/
  | mrExtend (w : Writer) (v : Word)
  /-- RNG_FAIL (R397). A health-test failure of the entropy source sets SEC_RNG.FAIL. -/
  | rngFail (test : Fin 256)
  /-- RNG_RETRY (R397). Every second while FAIL is set the source retries its start-up tests and FAIL clears on a pass. -/
  | rngRetry (pass : Bool)
  /-- JTAG_INSTRUCTION (R400). An instruction loaded on the JTAG port acts, or acts as BYPASS. -/
  | jtagInstruction (op : JtagOp) (code : Fin 256)
  /-- VENDOR_UNLOCK (R401). In RETURNED, a correct signed vendor response opens the private test modes. -/
  | vendorUnlock (k : Fin 2) (sig : List Byte)
  /-- CLK_LOSS (R414). A clock-loss detector finds a reference, PLL or lane clock lost and the affected units enter their safe
  states. -/
  | clkLoss (c : ClkSrc) (frames : List (HallIx × EngIx × Fin 4 × Bool))
  /-- CLK_RESTORED (R416). A lost source is qualified again or relocks, stopped branches restart and safe states end. -/
  | clkRestored (c : ClkSrc)
  /-- HCLK_PLL_WRITE (R408). A write of HCLK_PLL_i sets a fabric PLL's multiplier, unless it breaks a limit or the PLL is in
  use. -/
  | hclkPllWrite (h : HallIx) (i : Fin 6) (v : Word)
  /-- HCLK_PLLOUT_WRITE (R409). A write of HCLK_PLLOUT_i_j changes an output divider glitch-free, subject to the limits. -/
  | hclkPlloutWrite (h : HallIx) (i : Fin 6) (j : Fin 4) (v : Word)
  /-- HCLK_PAD_WRITE (R409). A write of HCLK_PAD_b_k selects a pad word clock and enables its PLL, subject to the 200 MHz limit.
  -/
  | hclkPadWrite (h : HallIx) (b : Fin 2) (k : Fin 2) (v : Word)
  /-- HCLK_LREF_WRITE (R410). A write of HCLK_LREF_q changes a quad's lane reference only while every lane of the quad is
  disabled. -/
  | hclkLrefWrite (h : HallIx) (q : Fin 4) (v : Word)
  /-- CLOCK_MODE_CHANGE (R413). A write of HCLK_MODE sets a hall's clock mode, stopping or relocking PLLs as DEEP requires. -/
  | clockModeChange (h : HallIx) (v : Word)
  /-- TB_FREQ_WRITE (R411). A write of CLK_TB_FREQ sets the time base's frequency offset, unless beyond ±200 ppm. -/
  | tbFreqWrite (v : Word)
  /-- TB_STEP (R411). A write of CLK_TB_STEP steps the package time base by a signed amount. -/
  | tbStep (v : Word)
  /-- TB_SET (R411). A write of CLK_TB_SET_HI loads the package time base and clears its fraction. -/
  | tbSet (v : Word)
  /-- PWR_CMD_ON (R418). PWR_CMD with OP ON requests admission to power a domain up, or is refused. -/
  | pwrCmdOn (h : HallIx) (d : Fin 128)
  /-- PWR_CMD_OFF (R418). PWR_CMD with OP OFF powers a domain down once its precondition holds. -/
  | pwrCmdOff (h : HallIx) (d : Fin 128)
  /-- PWR_CMD_RETENTION (R418). PWR_CMD with OP RETENTION places a gallery-memory or mirror domain in retention. -/
  | pwrCmdRetention (h : HallIx) (d : Fin 128)
  /-- DOMAIN_POWER_UP_DONE (R417). A domain reaches ON and the packets held for it in wake slots are delivered. -/
  | domainPowerUpDone (h : HallIx) (d : Fin 72)
  /-- DOMAIN_POWER_DOWN_DONE (R418). A domain reaches OFF or RETENTION, releases its cost and starts any pending wake. -/
  | domainPowerDownDone (h : HallIx) (d : Fin 72)
  /-- ADMISSION_GRANT (R422). The admission controller grants a waiting request whose cost fits both its hall cap and the
  package budget, starting the requester's operation. -/
  | admissionGrant
  /-- ADM_TIMEOUT (R422). A request waiting longer than ADM_TO gets the timeout outcome of its kind. -/
  | admTimeout (i : Fin 64)
  /-- PWR_LEDGER_WRITE (R423). A write of PWR_BUDGET or a hall cap is applied within limits and waiting requests are evaluated
  again. -/
  | pwrLedgerWrite (hall : Option HallIx) (v : Word)
  /-- THERM_MEAS (R424). A write of THERM_MEAS starts a measurement of the halls named. -/
  | thermMeas (v : Word)
  /-- THERMAL_ROUTINE (R424). Every PERIOD ms, or FAST ms for a hot hall, the thermal routine starts a measurement. -/
  | thermalRoutine (h : HallIx)
  /-- MEASUREMENT_DONE (R425). A hall measurement completes, is cross-checked, and the thresholds, throttle steps and shutdown
  prediction are applied. -/
  | measurementDone (h : HallIx) (x : List (BitVec 10))
  /-- IMMEDIATE_CUT (R432). At the end of step 3 of a thermal stop, or 5 ms after the trigger, clocks stop, domains power off
  and the device holds. -/
  | immediateCut
  /-- STOP_DRAIN_END (R434). The drain ends when no server holds an item or DRAIN expires, and the fabric, pads, lanes and HBM
  are stopped. -/
  | stopDrainEnd (mv : List (Fin 4096))
  /-- STOP_DONE (R434). The shutdown self-test and record end, DONE falls and the state becomes STOPPED. -/
  | stopDone
  /-- CAL_RUN_REQUEST (R440). A write of CAL_CTRL.RUN_HALL requests a calibration run of the halls named. -/
  | calRunRequest (halls : Fin 256)
  /-- CAL_SAVE (R443). A write of CAL_CTRL.SAVE writes a calibration record. -/
  | calSave
  /-- CAL_WATCH (R441). A hall whose latest measurement is older than WATCH is measured on demand. -/
  | calWatch (h : HallIx)
  /-- CAL_GROUP_SWEEP (R437). A shadow sampler finishes sweeping a group and the new code and MARGIN are set. -/
  | calGroupSweep (h : HallIx) (g : CalGroup) (lo : Int) (hi : Int)
  /-- CAL_GROUP_IDLE (R438). A group with too few transitions within 200 µs is idle and keeps its code. -/
  | calGroupIdle (h : HallIx) (g : CalGroup)
  /-- CAL_RUN_DONE (R440). A hall run covers all its groups and seeds, and T_CAL is updated. -/
  | calRunDone (h : HallIx) (seeds : List (LaneIx × BitVec 88))
  /-- BIST_CMD (R449). BIST_CMD with the key and GO requests a self-test run, checked against state and supplies. -/
  | bistCmd (v : Word) (mv : List (Fin 4096))
  /-- BIST_UNIT_DONE (R446). A self-test unit finishes in every selected hall and failures are logged and repaired. -/
  | bistUnitDone (fails : List BistFail)
  /-- BIST_SUPPLY_CHECK (R448). Every 1 ms during a run the engine checks VCC_CORE and REFCLK and abandons the run on a failure.
  -/
  | bistSupplyCheck (mv : List (Fin 4096))
  /-- RDREG (R461). The RDREG command reads consecutive management words. -/
  | rdreg (c : PortCmd)
  /-- WRREG (R461). The WRREG command writes consecutive management words. -/
  | wrreg (c : PortCmd)
  /-- EVREAD (R468). The EVREAD command acknowledges held event records and returns and holds the oldest records. -/
  | evread (c : PortCmd)
  /-- STATUS (R462). A STATUS transaction returns the status word at once. -/
  | status
  /-- GETRSP (R460). A GETRSP transaction returns the held response without clearing it. -/
  | getrsp
  /-- RELOAD (R360). The RELOAD command starts warm reconfiguration. -/
  | reload (c : PortCmd) (commit : Bool)
  /-- STOP (R434). The STOP command starts the orderly stop with cause 1. -/
  | stop (c : PortCmd)
  /-- ATTEST (R458). The ATTEST command writes the nonce and starts an attestation. -/
  | attest (c : PortCmd)
  /-- BULKRD (R464). The BULKRD command reads the attestation report or a trace buffer. -/
  | bulkrd (c : PortCmd) (st : Fin 8)
  /-- MALFORMED_TRANSACTION (R459). A transaction cut short or overlong, or arriving while busy, is discarded and LASTERR is
  set. -/
  | malformedTransaction (b : BadXact)
  /-- HBM_SR_EXIT_DONE (R282). A whole-stack self-refresh exit completes 2 to 5 µs after its admission grant: HBM_STATE becomes
  ACTIVE, waiting requests are served, and a paused sweep asks admission afresh. -/
  | hbmSrExitDone (m : StackIx)
  /-- PROG_N_RISE (R360). PROG_N returning high, once step 4 is done, starts start-up from step 2. -/
  | progNRise
  /-- RST_N_RISE (R479). The rising edge of RST_N, after the start delay has ended, begins start-up at step 1. -/
  | rstNRise
  /-- RX_RDY_RISE (R324). The design raising RX_RDY bit p lets the engine present the received frames of port p that wait in its
  receive buffer. -/
  | rxRdyRise (h : HallIx) (e : EngIx) (p : Fin 4) (rdy : Fin 16)
  /-- PLL_RELOCK (R413). A fabric or pad PLL restarted by leaving DEEP, by an applied N or F change, or by HCLK_PAD enable
  locks, and the branches it feeds start. -/
  | pllRelock (h : HallIx) (x : Fin 10)
  /-- SWEEP_ADMISSION_RETRY (R420). 1 ms after a kind-9 admission timeout, the encryption engine requests admission again for
  its sweep or initialisation. -/
  | sweepAdmissionRetry (m : StackIx) (r : Fin 8)
  /-- CAL_START_RUN (R440). 1 ms after release at each start, a calibration run of every hall begins. -/
  | calStartRun
  /-- CLOCK_BORDER_RELEASE (R416). 64 cycles of its slowest clock after every clock of its active plane runs again, a gallery
  held by clock loss releases its borders. -/
  | clockBorderRelease (G : GalIx)
  /-- PAD_SAFE_EXIT (R337). At the 16th word boundary after their serialiser clock relocks, pins leave their SAFE state and send
  the landing word of that cycle. -/
  | padSafeExit (h : HallIx) (b : Fin 2) (k : Fin 2)
  /-- SELFTEST_SUPPLY_RECHECK (R450). While start-up waits at step 7 on a refused self-test, the supply and clock conditions are
  checked again every 10 ms, and the test starts when they hold. -/
  | selftestSupplyRecheck (mv : List (Fin 4096))
  /-- HOT_START_MEASURE (R433). After an immediate cut, the system manager measures every hall and stack every 10 ms while
  start-up waits at step 1. -/
  | hotStartMeasure (x : List (List (BitVec 10))) (t : List (Fin 256 × Fin 3))
  deriving DecidableEq, Repr

end Sys2Proof
end

