-- ==== Sys2Proof/Decode.lean ====
section
/-!
DEFINITION. Decode.lean: the command that a word of the table of operations and events spells. No row of that table has bits: the
block takes its commands from outside as operations, not as encoded words (log 1).
-/
namespace Sys2Proof

/-- The command that a word of nbits bits spells: none, since no row of the table has an encoding. -/
def decodeTableWord (_nbits _w : Nat) : Option Instr := none

end Sys2Proof
end

