-- ==== Sys2Proof/Machine/Header.lean ====
section
/-!
DEFINITION. Machine/Header.lean: check words (R341, R456), and the layout of a packet's header unit and of a flit's sideband (R237).
-/
namespace Sys2Proof.Machine

/-- One bit step of the reflected CRC-32C. -/
def crcBit (c : Nat) : Nat := if c % 2 = 1 then (c / 2) ^^^ 0x82F63B78 else c / 2

/-- One byte of the CRC-32C, over the register. -/
def crcByte (c : Nat) (b : Byte) : Nat :=
  crcBit (crcBit (crcBit (crcBit (crcBit (crcBit (crcBit (crcBit (c ^^^ b.toNat))))))))

/-- CRC-32C of bytes. -/
def crc32c (l : List Byte) : Nat := l.foldl crcByte 0xFFFFFFFF ^^^ 0xFFFFFFFF

/-- One bit step of CRC-16/CCITT. -/
def crc16Bit (c : Nat) : Nat := if 0x8000 ≤ c then ((2 * c) ^^^ 0x1021) % 65536 else 2 * c

/-- One byte of CRC-16/CCITT. -/
def crc16Byte (c : Nat) (b : Byte) : Nat :=
  crc16Bit (crc16Bit (crc16Bit (crc16Bit (crc16Bit (crc16Bit (crc16Bit (crc16Bit (c ^^^ (b.toNat * 256)))))))))

/-- CRC-16/CCITT of bytes. -/
def crc16 (l : List Byte) : Nat := l.foldl crc16Byte 0xFFFF

/-- Bytes of a vector, lowest first. -/
def vecBytes {w : Nat} (n : Nat) (v : BitVec w) : List Byte := (List.range n).map (fun i => BitVec.ofNat 8 (v.toNat / 2 ^ (8 * i)))

/-- Header bits 479:0 (R237). -/
def headerBits (p : Packet) : BitVec 480 := p.arg ++ p.beLast ++ p.beFirst ++ p.hdrLow

/-- The CRC-32C that HCHECK must show (R237). -/
def headerCrc (p : Packet) : BitVec 32 := BitVec.ofNat 32 (crc32c (vecBytes 60 (headerBits p)))

/-- HCHECK as the packet carries it. A change of MESH in a packet whose check holds therefore rewrites HCHECK too (R240). -/
def hcheck (p : Packet) : BitVec 32 := headerCrc p ^^^ p.hdiff

/-- The header unit (R237). -/
def headerUnit (p : Packet) : BitVec 512 := hcheck p ++ headerBits p

/-- FCRC of the flit that carries the header (unit 0) or data unit u − 1, as the packet carries it (R237). The header's own check is
HCHECK (R248), and its FCRC is taken to match. -/
def fcrc (p : Packet) (u : Nat) : BitVec 16 :=
  let x : BitVec 512 := if u = 0 then headerUnit p else p.data.getD (u - 1) 0
  BitVec.ofNat 16 (crc16 (vecBytes 64 x)) ^^^ (if u = 0 then 0 else ((p.fdiff.find? (fun d => d.1 == u - 1)).map (·.2)).getD 0)

/-- The sideband of flit u of a packet of n data units (R237). -/
def sideband (p : Packet) (u : Nat) : BitVec 32 :=
  let b := fun (x : Bool) => BitVec.ofBool x
  fcrc p u ++ (0 : BitVec 7) ++ BitVec.ofNat 3 p.hops ++ b p.cut ++ b p.poison ++ b (u == p.units.toNat) ++ b (u == 0) ++ p.vc

/-- Flits of a packet. -/
def flitsOf (p : Packet) : Nat := 1 + p.units.toNat

end Sys2Proof.Machine
end

