-- ==== Sys2Proof/Config.lean ====
section
/-!
DEFINITION. Config.lean: what the manual leaves to Voxgar, to cryptographic standards or to the silicon. Each is a constant with no
body: nothing in Lean can evaluate it, and a statement about it holds whatever it is. A free value takes the counter State.free,
which every use advances.
-/
namespace Sys2Proof

/-- The facts that the frames of a plane encode; the bit meanings are Voxgar's (chapter 00, R88, R116). -/
opaque Config.designInfo : Sparse (BitVec 4096) → DesignInfo

/-- A free word: an open value that the manual does not give. -/
opaque Config.freeWord : Nat → Word

/-- Free fabric state: what the design's own logic makes of its flip-flops and facets, which is no event of this model. -/
opaque Config.freeFabric : Nat → Machine.FabricBits

/-- The value that an output group (second) carried in the cycle before its gallery presented its borders (R139, R358), a free value:
what the design makes of it is no event of this model. -/
opaque Config.freeGroup : Nat → Nat → BitVec 64

/-- The stair (0 to 191) of a gallery (0 to 31 of its hall, first) and its selector position (0 to 7) that reach one of the two attach
positions (third) of a track (second) in that gallery, if any (R86): the silicon's, not published. -/
opaque Config.attachOf : Nat → Nat → Fin 2 → Option (Fin 192 × Fin 8)

/-- The byte read at a key of memory that nothing has written since its contents were lost (R178): by epoch of the memory and key. -/
opaque Config.unwrittenByte : Nat → Nat → Byte

/-- How a read of such a byte arrives: 0 correct, 1 corrected, else uncorrectable (R178). -/
opaque Config.unwrittenCheck : Nat → Nat → Nat

/-- SHAKE256 with a 512-bit output over a byte string (R340, R388). -/
opaque Config.shake256 : List Byte → BitVec 512

/-- Whether an SLH-DSA signature (third) by the key whose hash is given (first) covers the message (second) (R340, R381). -/
opaque Config.sigOk : BitVec 256 → List Byte → List Byte → Bool

/-- The signature of the device's own key over a message (R396). -/
opaque Config.deviceSign : List Byte → List Byte

/-- AES-256 in Galois/Counter Mode with a 64-bit tag, per NIST SP 800-38D (R291): from the key, the IV, the bytes that are only
authenticated and the bytes that are encrypted, the ciphertext and the tag. -/
opaque Config.gcm : BitVec 256 → BitVec 96 → List Byte → List Byte → List Byte × BitVec 64

/-- Output of the random number generator (R397). -/
opaque Config.random : Nat → BitVec 256

/-- A free 64-byte block of data. -/
opaque Config.freeBlock : Nat → BitVec 512

/-- The temperature of a lane quad (R318), by time, hall and quad, in °C above −128; no sensor is named for it. -/
opaque Config.quadTemp : Nat → Nat → Nat → Nat

/-- The certificate of the device's identity, by word (R394). -/
opaque Config.vendorCert : Nat → Word

/-- The device ID programmed at manufacture (R394). -/
opaque Config.deviceId : Nat → Word

/-- SHAKE256 of the ROM of the system manager (R388). -/
opaque Config.romDigest : BitVec 512

/-- The hash of vendor key k in the ROM, unless it is absent or marked revoked (R385). -/
opaque Config.vendorKeyHash : Nat → Option (BitVec 256)

/-- The level of TAMP_N at a time at which no command gives it (R393). -/
opaque Config.tampPin : Nat → Bool

/-- The level to which the board ties IOPULL (R336, R478). -/
opaque Config.ioPull : Bool

end Sys2Proof
end

