-- ==== Sys2Proof/Machine/EventNames.lean ====
section
/-!
DEFINITION. Machine/EventNames.lean: the events of the chapters' event lists (code, severity and arguments) and the source
unit of a code (R503).
-/
namespace Sys2Proof

/-- Severities (R465). -/
inductive Sev where
  | info | warn | error | critical
  deriving DecidableEq, Repr

/-- An event kind: its code and severity. -/
structure EvKind where
  code : Nat
  sev : Sev
  deriving DecidableEq, Repr

/-- address; bit 32 write (R7) -/
def Ev.ABSENT_UNIT_ACCESS : EvKind := ⟨0x0010, .warn⟩
/-- address; bit 32 write (R34) -/
def Ev.UNMAPPED_ACCESS : EvKind := ⟨0x0011, .warn⟩
/-- kind (0 header, 1 data); OP; at most once per second -/
def Ev.MPORT_CHECK_FAIL : EvKind := ⟨0x0030, .warn⟩
/-- OP; TAG -/
def Ev.MPORT_ABANDONED : EvKind := ⟨0x0031, .warn⟩
/-- reset kind -/
def Ev.BOOT_START : EvKind := ⟨0x0100, .info⟩
/-- cause; SECTION; G; FRAME -/
def Ev.PRIMARY_FAIL : EvKind := ⟨0x0101, .error⟩
/-- PCAUSE; GCAUSE; 1 if self-test -/
def Ev.SAFE_HOLD : EvKind := ⟨0x0103, .critical⟩
/-- SOURCE; PATH; BOOT_DONE_T -/
def Ev.BOOT_DONE : EvKind := ⟨0x0104, .info⟩
/-- DEV0; DEV1; MATCH -/
def Ev.FLASH_FAULT : EvKind := ⟨0x0105, .critical⟩
/-- record slot; TYPE -/
def Ev.RECORD_TORN : EvKind := ⟨0x0106, .warn⟩
/-- records rewritten -/
def Ev.RECORD_AREA_ERASED : EvKind := ⟨0x0107, .info⟩
/-- sections failed -/
def Ev.LIB_DONE : EvKind := ⟨0x0108, .info⟩
/-- cause; SECTION; G -/
def Ev.LIB_FAIL : EvKind := ⟨0x0109, .error⟩
/-- hall -/
def Ev.FRST_START : EvKind := ⟨0x0400, .info⟩
/-- hall; DROPPED -/
def Ev.FRST_DONE : EvKind := ⟨0x0401, .info⟩
/-- hall; STATE -/
def Ev.FRST_TIMEOUT : EvKind := ⟨0x0402, .critical⟩
/-- hall; gallery; slot; frame -/
def Ev.SCRUB_MIRROR_CE : EvKind := ⟨0x1000, .info⟩
/-- hall; gallery; slot; frame -/
def Ev.SCRUB_SLOT_BAD : EvKind := ⟨0x1001, .warn⟩
/-- hall; gallery; slot -/
def Ev.SCRUB_SLOT_RELOADED : EvKind := ⟨0x1002, .info⟩
/-- hall; gallery; slot; ORIGIN -/
def Ev.SCRUB_SLOT_UNUSABLE : EvKind := ⟨0x1003, .error⟩
/-- hall; gallery; plane; frame -/
def Ev.SCRUB_PLANE_REPAIR : EvKind := ⟨0x1004, .error⟩
/-- hall; gallery; plane; frame -/
def Ev.SCRUB_BENIGN : EvKind := ⟨0x1005, .info⟩
/-- hall; gallery; plane; frame -/
def Ev.SCRUB_SENSITIVE : EvKind := ⟨0x1006, .critical⟩
/-- hall; gallery; slot; IMAGE_ID -/
def Ev.IMPORT_DONE : EvKind := ⟨0x1010, .info⟩
/-- hall; gallery; slot; RESULT -/
def Ev.IMPORT_REFUSED : EvKind := ⟨0x1011, .warn⟩
/-- hall; gallery; COUNT -/
def Ev.GAL_RESET : EvKind := ⟨0x2001, .info⟩
/-- hall; gallery; tag -/
def Ev.EP_TAG_REUSE : EvKind := ⟨0x2010, .warn⟩
/-- hall; gallery; VC requested -/
def Ev.EP_VC_REJECT : EvKind := ⟨0x2011, .warn⟩
/-- hall; track; first and second detecting galleries -/
def Ev.MEZZ_CONTENTION : EvKind := ⟨0x2100, .error⟩
/-- hall; track -/
def Ev.MEZZ_TRACK_LOCKED : EvKind := ⟨0x2101, .critical⟩
/-- hall; track -/
def Ev.MEZZ_REARMED : EvKind := ⟨0x2102, .info⟩
/-- hall; gallery; plane; track; frame number -/
def Ev.MEZZ_LOAD_CONTENTION : EvKind := ⟨0x2103, .error⟩
/-- hall; gallery; requested plane; its state; source -/
def Ev.CTX_SWITCH_REFUSED : EvKind := ⟨0x2200, .warn⟩
/-- hall; gallery; plane; slot; cause; frame number -/
def Ev.PLANE_LOAD_FAIL : EvKind := ⟨0x2201, .error⟩
/-- hall; gallery; plane; slot; reason; requester (0 host software, 1 design, 2 Gweak) -/
def Ev.PLANE_LOAD_REFUSED : EvKind := ⟨0x2202, .warn⟩
/-- hall; gallery; failed plane -/
def Ev.NO_ACTIVE_PLANE : EvKind := ⟨0x2203, .error⟩
/-- hall; gallery; plane; bank; path (0 prism, 1 endpoint) -/
def Ev.BANK_DENIED : EvKind := ⟨0x2204, .warn⟩
/-- hall; gallery; destination slot; RESULT -/
def Ev.SLOT_COPY_DONE : EvKind := ⟨0x2205, .info⟩
/-- hall; gallery; SRC requested; SERVERS -/
def Ev.CTX_SRC_REFUSED : EvKind := ⟨0x2206, .warn⟩
/-- hall; group n; MARGIN -/
def Ev.LAND_MARGIN_LOW : EvKind := ⟨0x2800, .warn⟩
/-- hall; group n; PERR -/
def Ev.LAND_PARITY : EvKind := ⟨0x2801, .error⟩
/-- hall; group n; code applied -/
def Ev.LAND_CODE_LIMIT : EvKind := ⟨0x2802, .warn⟩
/-- hall; gallery; bank; row; path -/
def Ev.MEM_UE : EvKind := ⟨0x3000, .error⟩
/-- hall; gallery; bank; source hall and node -/
def Ev.MEM_ACL_DENIED : EvKind := ⟨0x3002, .warn⟩
/-- hall; gallery; queue b; path -/
def Ev.QUEUE_OVERFLOW : EvKind := ⟨0x3010, .warn⟩
/-- hall; gallery; queue b; path -/
def Ev.QUEUE_UNDERFLOW : EvKind := ⟨0x3011, .warn⟩
/-- hall; gallery; queue b; Omist status -/
def Ev.QUEUE_ENQ_RETRY : EvKind := ⟨0x3012, .warn⟩
/-- hall; gallery; queue b; SPAN; BASE; SIZE -/
def Ev.QUEUE_CFG_REFUSED : EvKind := ⟨0x3013, .warn⟩
/-- hall; gallery; bank; physical row; bit -/
def Ev.MEMTEST_FAULT : EvKind := ⟨0x3020, .warn⟩
/-- hall; gallery; bank; row; spare -/
def Ev.MEMTEST_REPAIRED : EvKind := ⟨0x3021, .info⟩
/-- hall; gallery; bank; row -/
def Ev.MEMTEST_NO_SPARE : EvKind := ⟨0x3022, .error⟩
/-- hall; flow; source hall and node; condition row -/
def Ev.GWK_ENQ_REFUSED : EvKind := ⟨0x4000, .warn⟩
/-- hall; resource (0 item store, 1 delay list, 2 flow QLIMIT); flow -/
def Ev.GWK_EXHAUSTED : EvKind := ⟨0x4001, .error⟩
/-- hall; register offset -/
def Ev.GWK_CFG_REFUSED : EvKind := ⟨0x4002, .warn⟩
/-- hall; flow; server; class; µs elapsed -/
def Ev.FLOW_PARKED : EvKind := ⟨0x4010, .error⟩
/-- hall; flow; server or engine; cause -/
def Ev.ITEM_FAILED : EvKind := ⟨0x4011, .warn⟩
/-- hall; flow; lateness in ticks -/
def Ev.LATE_DROP : EvKind := ⟨0x4012, .warn⟩
/-- hall; server -/
def Ev.STRAY_DONE : EvKind := ⟨0x4013, .warn⟩
/-- hall; class; gallery; plane; refusal reason or failure cause -/
def Ev.LOAD_FAILED : EvKind := ⟨0x4020, .error⟩
/-- hall; class; flows waiting -/
def Ev.CLASS_NO_SERVER : EvKind := ⟨0x4021, .warn⟩
/-- hall; gallery -/
def Ev.SRV_REMOVED : EvKind := ⟨0x4030, .info⟩
/-- hall; gallery -/
def Ev.SRV_ADDED : EvKind := ⟨0x4031, .info⟩
/-- hall; SLIP -/
def Ev.RELEASE_SLIP : EvKind := ⟨0x4040, .warn⟩
/-- hall; engine; flow -/
def Ev.ENGINE_RETRY : EvKind := ⟨0x4041, .warn⟩
/-- hall; LOST -/
def Ev.TRACE_LOST : EvKind := ⟨0x4050, .warn⟩
/-- hall; server -/
def Ev.ORPHAN_DONE : EvKind := ⟨0x4060, .info⟩
/-- hall; link index, or corridor and channel; 1 if this end declared, 0 if it fenced on the far end's declaration (R257) -/
def Ev.LINK_DEAD : EvKind := ⟨0x5000, .error⟩
/-- hall; link index, or corridor and channel -/
def Ev.LATE_SPEAKER : EvKind := ⟨0x5001, .warn⟩
/-- hall; link index, or corridor and channel -/
def Ev.LINK_READMITTED : EvKind := ⟨0x5002, .info⟩
/-- hall; link index, or corridor and channel; RESULT -/
def Ev.LINK_TEST_FAIL : EvKind := ⟨0x5003, .error⟩
/-- hall; destination hall and node; mesh -/
def Ev.NO_ROUTE : EvKind := ⟨0x5004, .error⟩
/-- hall; node; side -/
def Ev.HDR_CHECK : EvKind := ⟨0x5010, .error⟩
/-- hall; node; side -/
def Ev.FLIT_POISON : EvKind := ⟨0x5011, .error⟩
/-- hall; receiving node and port; source route -/
def Ev.DUP_DISCARD : EvKind := ⟨0x5012, .info⟩
/-- hall; node; port; VC -/
def Ev.WAKE_TIMEOUT : EvKind := ⟨0x5020, .warn⟩
/-- hall; node; port; cause (0 no-wake, 1 slot occupied) -/
def Ev.WAKE_REFUSED : EvKind := ⟨0x5021, .info⟩
/-- hall; initiator i; tag -/
def Ev.RSP_RETIRED : EvKind := ⟨0x5031, .info⟩
/-- hall; LOST -/
def Ev.LENS_TRACE_LOST : EvKind := ⟨0x5040, .warn⟩
/-- corridor; channel replaced -/
def Ev.CORR_SPARE_IN_USE : EvKind := ⟨0x5800, .warn⟩
/-- corridor; mesh -/
def Ev.CORR_MESH_LOST : EvKind := ⟨0x5801, .error⟩
/-- hall; cause (0 host software, 1 FRST_TIMEOUT) -/
def Ev.HALL_FENCED : EvKind := ⟨0x5802, .warn⟩
/-- hall; pseudo-channel; CAUSE; BURST -/
def Ev.HBM_UE : EvKind := ⟨0x6000, .error⟩
/-- hall; channel; kind (0 command/address parity, 1 write data parity); alerts in the current replay -/
def Ev.HBM_ALERT : EvKind := ⟨0x6010, .warn⟩
/-- hall; channel; posted writes discarded -/
def Ev.HBM_CH_FAILED : EvKind := ⟨0x6011, .critical⟩
/-- hall; pseudo-channel; SID; bank group; bank; row -/
def Ev.HBM_NEIGHBOUR_REFRESH : EvKind := ⟨0x6020, .info⟩
/-- hall; REFMULT; TEMP -/
def Ev.HBM_REFRESH_RATE : EvKind := ⟨0x6030, .info⟩
/-- hall; cause (0 identity, 1 training, 2 no response) -/
def Ev.HBM_INIT_FAIL : EvKind := ⟨0x6040, .critical⟩
/-- hall; register offset -/
def Ev.HBM_CFG_REFUSED : EvKind := ⟨0x6041, .warn⟩
/-- hall; range; block stack offset bits 35:6 -/
def Ev.MEE_INTEG_FAIL : EvKind := ⟨0x7000, .error⟩
/-- hall; range; START; K; item kind -/
def Ev.MEE_POISONED : EvKind := ⟨0x7001, .error⟩
/-- hall; range -/
def Ev.MEE_POISON_FULL : EvKind := ⟨0x7002, .critical⟩
/-- hall; range; span start; K; counter kind (0 major, 1 node) -/
def Ev.MEE_EXHAUSTED : EvKind := ⟨0x7010, .error⟩
/-- hall; range; page P -/
def Ev.MEE_MAJOR_STEP : EvKind := ⟨0x7011, .info⟩
/-- hall; range -/
def Ev.MEE_INIT_DONE : EvKind := ⟨0x7020, .info⟩
/-- hall; range; SHARE -/
def Ev.MEE_KEYCHG_START : EvKind := ⟨0x7021, .info⟩
/-- hall; range; BOUND; cause (0 PROG_N or RELOAD, 1 foundation partial reset, 2 SR_HOLD, 3 orderly stop, 4 memory-port power-down) -/
def Ev.MEE_KEYCHG_PAUSE : EvKind := ⟨0x7022, .info⟩
/-- hall; range; SKIPPED -/
def Ev.MEE_KEYCHG_DONE : EvKind := ⟨0x7023, .info⟩
/-- hall; range; block stack offset bits 35:6; cause (0 DATA_ERR, 1 tag) -/
def Ev.MEE_SWEEP_SKIP : EvKind := ⟨0x7025, .warn⟩
/-- hall; range; block stack offset bits 35:6 -/
def Ev.MEE_WCB_LOST : EvKind := ⟨0x7030, .error⟩
/-- hall; register offset; range -/
def Ev.MEE_CFG_REFUSED : EvKind := ⟨0x7040, .warn⟩
/-- hall; range; source hall and node -/
def Ev.MEE_META_ACCESS : EvKind := ⟨0x7041, .warn⟩
/-- hall; lane; FOM -/
def Ev.LANE_LOCK : EvKind := ⟨0x8000, .info⟩
/-- hall; lane; FOM; cause (0 FOM, 1 CDR) -/
def Ev.LANE_LOCK_LOST : EvKind := ⟨0x8001, .warn⟩
/-- hall; lane; FOM -/
def Ev.LANE_FOM_ALARM : EvKind := ⟨0x8002, .warn⟩
/-- hall; lane; FOM -/
def Ev.LANE_FOM_CLEAR : EvKind := ⟨0x8003, .info⟩
/-- hall; lane; register offset -/
def Ev.LANE_CFG_REFUSED : EvKind := ⟨0x8004, .warn⟩
/-- hall; engine; port -/
def Ev.ETH_LINK_UP : EvKind := ⟨0x8100, .info⟩
/-- hall; engine; port; cause (0 lock, 1 local fault, 2 remote fault, 3 lane not ACTIVE) -/
def Ev.ETH_LINK_DOWN : EvKind := ⟨0x8101, .warn⟩
/-- hall; engine; port -/
def Ev.ETH_RX_DROP : EvKind := ⟨0x8102, .warn⟩
/-- hall; engine; port; FECU -/
def Ev.ETH_FEC_UNCORR : EvKind := ⟨0x8103, .warn⟩
/-- hall; engine; entry; Omist status -/
def Ev.ETH_STORE_ERR : EvKind := ⟨0x8104, .error⟩
/-- hall; engine; entry; Omist status -/
def Ev.ETH_QUEUE_LOSS : EvKind := ⟨0x8105, .warn⟩
/-- hall; engine; entry; flow; Omist status -/
def Ev.ETH_ENQ_FAIL : EvKind := ⟨0x8106, .warn⟩
/-- hall; engine; queue; Omist status -/
def Ev.ETH_TX_FETCH_ERR : EvKind := ⟨0x8107, .error⟩
/-- hall; engine; port; descriptors discarded -/
def Ev.ETH_TX_DISCARD : EvKind := ⟨0x8108, .warn⟩
/-- hall; engine; TSOVF -/
def Ev.ETH_TXTS_OVF : EvKind := ⟨0x8109, .warn⟩
/-- hall; engine; register offset -/
def Ev.ETH_CFG_REFUSED : EvKind := ⟨0x810A, .warn⟩
/-- hall; engine; entry -/
def Ev.ETH_NOGWK_DROP : EvKind := ⟨0x810B, .warn⟩
/-- hall; bank; VCCIO; SENSE -/
def Ev.PAD_VCCIO_MISMATCH : EvKind := ⟨0x8200, .error⟩
/-- hall; bank; pin -/
def Ev.PAD_CFG_REFUSED : EvKind := ⟨0x8201, .warn⟩
/-- hall; PLL; output; requested MHz -/
def Ev.PLL_LIMIT : EvKind := ⟨0x9000, .warn⟩
/-- hall; register offset -/
def Ev.PLL_CFG_REFUSED : EvKind := ⟨0x9001, .warn⟩
/-- hall, 0xF for REFCLK; source, 8 bits (R414) -/
def Ev.CLK_LOSS : EvKind := ⟨0x9010, .error⟩
/-- hall, 0xF for REFCLK; source, 8 bits (R414); µs lost -/
def Ev.CLK_RESTORED : EvKind := ⟨0x9011, .info⟩
/-- step in ns, or 0 for a load -/
def Ev.TB_STEPPED : EvKind := ⟨0x9020, .info⟩
/-- value written -/
def Ev.TB_FREQ_REFUSED : EvKind := ⟨0x9021, .warn⟩
/-- hall; domain; RESULT -/
def Ev.PWR_CMD_REFUSED : EvKind := ⟨0x9100, .warn⟩
/-- hall; kind -/
def Ev.ADM_TIMEOUT : EvKind := ⟨0x9101, .warn⟩
/-- hall; kind -/
def Ev.ADM_QUEUE_FULL : EvKind := ⟨0x9102, .warn⟩
/-- cause -/
def Ev.STOP_START : EvKind := ⟨0x9200, .info⟩
/-- servers still holding items -/
def Ev.STOP_DRAIN_LIMIT : EvKind := ⟨0x9201, .warn⟩
/-- ms from step 1 -/
def Ev.STOP_DONE : EvKind := ⟨0x9202, .info⟩
/-- hall; H -/
def Ev.THERM_WARN : EvKind := ⟨0xA000, .warn⟩
/-- hall; H -/
def Ev.THERM_WARN_CLEAR : EvKind := ⟨0xA001, .info⟩
/-- hall; step; H -/
def Ev.THERM_THROTTLE : EvKind := ⟨0xA002, .error⟩
/-- hall; H -/
def Ev.THERM_THROTTLE_CLEAR : EvKind := ⟨0xA003, .info⟩
/-- hall or stack; form (0 thermal stop, 1 cut); H; t_p in ms -/
def Ev.THERM_SHUTDOWN : EvKind := ⟨0xA004, .critical⟩
/-- hall; sensor; RAW; estimate -/
def Ev.SENSOR_SUSPECT : EvKind := ⟨0xA010, .warn⟩
/-- hall; sensor; RAW -/
def Ev.SENSOR_RESTORED : EvKind := ⟨0xA011, .info⟩
/-- stack; TEMP -/
def Ev.HBM_THERM_WARN : EvKind := ⟨0xA020, .warn⟩
/-- stack; TEMP -/
def Ev.HBM_THERM_THROTTLE : EvKind := ⟨0xA021, .error⟩
/-- stack; TEMP; threshold left -/
def Ev.HBM_THERM_CLEAR : EvKind := ⟨0xA022, .info⟩
/-- hall or stack; temperature -/
def Ev.START_TOO_HOT : EvKind := ⟨0xA030, .warn⟩
/-- hall; MOVED; IDLE -/
def Ev.CAL_RUN_DONE : EvKind := ⟨0xB000, .info⟩
/-- hall or stack; temperature; T_CAL -/
def Ev.CAL_TEMP_TRIGGER : EvKind := ⟨0xB001, .info⟩
/-- stack; byte lane; RD_CODE; WR_CODE -/
def Ev.CAL_HBM_LIMIT : EvKind := ⟨0xB002, .warn⟩
/-- SEQ -/
def Ev.CAL_RECORD_WRITTEN : EvKind := ⟨0xB003, .info⟩
/-- SAVE_RESULT -/
def Ev.CAL_RECORD_FAIL : EvKind := ⟨0xB004, .warn⟩
/-- hall; cause (0 no valid record, 1 temperature) -/
def Ev.CAL_COLD : EvKind := ⟨0xB005, .info⟩
/-- UNITS; HALLS; MODE; requester (0 start, 1 shutdown, 2 host software) -/
def Ev.BIST_START : EvKind := ⟨0xB100, .info⟩
/-- RESULT; LOGGED -/
def Ev.BIST_DONE : EvKind := ⟨0xB101, .info⟩
/-- unit; hall; gallery; FLOG_1 -/
def Ev.BIST_FAIL : EvKind := ⟨0xB102, .error⟩
/-- unit; hall; gallery -/
def Ev.BIST_UNREPAIRABLE : EvKind := ⟨0xB103, .critical⟩
/-- RESULT; lowest VCC_CORE reading in mV -/
def Ev.BIST_REFUSED : EvKind := ⟨0xB104, .warn⟩
/-- SEQ; PASS; NREP total -/
def Ev.SHUTDOWN_RECORD : EvKind := ⟨0xB110, .info⟩
/-- old state; new state -/
def Ev.LC_CHANGED : EvKind := ⟨0xC000, .warn⟩
/-- OP; RESULT -/
def Ev.LC_CMD_REFUSED : EvKind := ⟨0xC001, .warn⟩
/-- slot -/
def Ev.KEY_ADDED : EvKind := ⟨0xC002, .info⟩
/-- slot; SIGSLOT -/
def Ev.KEY_REVOKED : EvKind := ⟨0xC003, .warn⟩
/-- old C; new C -/
def Ev.RB_ADVANCED : EvKind := ⟨0xC004, .info⟩
/-- kind (0 slot, 1 position, 2 state); index -/
def Ev.OTP_SPOILT : EvKind := ⟨0xC005, .error⟩
/-- COUNT; ZMEE; HOLD -/
def Ev.TAMPER : EvKind := ⟨0xC010, .critical⟩
/-- cause (0 power-on, 1 life cycle, 2 tamper) -/
def Ev.VAULT_WIPED : EvKind := ⟨0xC011, .info⟩
/-- first failing word -/
def Ev.VAULT_FAIL : EvKind := ⟨0xC012, .critical⟩
/-- source hall and node; partition; check -/
def Ev.VAULT_DENIED : EvKind := ⟨0xC013, .warn⟩
/-- time base at GO -/
def Ev.ATTEST_DONE : EvKind := ⟨0xC020, .info⟩
/-- failing test -/
def Ev.RNG_FAIL : EvKind := ⟨0xC030, .error⟩
/-- opcode -/
def Ev.JTAG_REFUSED : EvKind := ⟨0xC040, .warn⟩
/-- vendor key -/
def Ev.VENDOR_UNLOCK : EvKind := ⟨0xC041, .info⟩

/-- The source unit of an event code (R503). -/
def unitOfCode (c : Nat) : Nat :=
  if 0x0030 ≤ c ∧ c ≤ 0x003F then 15
  else if c < 0x1000 then 0
  else if c < 0x2000 then 1
  else if c < 0x3000 then 2
  else if c < 0x4000 then 3
  else if c < 0x5000 then 4
  else if c < 0x6000 then 5
  else if c < 0x7000 then 6
  else if c < 0x8000 then 7
  else if c < 0x8100 then 8
  else if c < 0x8200 then 9
  else if c < 0x9000 then 10
  else if c < 0xA000 then 11
  else if c < 0xB000 then 12
  else if c < 0xC000 then 13
  else 14

end Sys2Proof
end

