-- ==== Sys2Proof/Machine/RegNames.lean ====
section
/-!
DEFINITION. Machine/RegNames.lean: the management address of every register (R32 and the register lists of the chapters), as a
function of its unit and indices, and the place of every named field. A name is the manual's without its index letters:
Reg.X is the address of register X, Fl.X_F is field F of it.
-/
namespace Sys2Proof

/-- The base of a block of hall h (R32). -/
def hallBase (h off : Nat) : Nat := 0x10000000 + h * 0x1000000 + off

/-- The base of the GAL block of gallery G (R32, R25). -/
def galBase (G : Nat) : Nat := 0x10000000 + (G / 32) * 0x1000000 + 0x100000 + (G % 32) * 0x10000

def Reg.SYS_CAP : Nat := 0x0 + 16
def Reg.HALL_INFO (h : Nat) : Nat := hallBase h 0x00000 + 0
def Reg.FRST_CTRL (h : Nat) : Nat := hallBase h 0x00000 + 16
def Reg.FRST_STAT (h : Nat) : Nat := hallBase h 0x00000 + 20
def Reg.HALL_FENCE (h : Nat) : Nat := hallBase h 0x00000 + 32
def Reg.CORR_CTRL (h k : Nat) : Nat := hallBase h 0x00000 + 64 + k * 16
def Reg.CORR_STAT (h k : Nat) : Nat := hallBase h 0x00000 + 68 + k * 16
def Reg.LAND_CFG (h : Nat) : Nat := hallBase h 0x00000 + 256
def Reg.LAND_ALARM (h j : Nat) : Nat := hallBase h 0x00000 + 272 + j * 4
def Reg.LAND (h n : Nat) : Nat := hallBase h 0x00000 + 1024 + n * 4
def Reg.GAL_INFO (G : Nat) : Nat := galBase G + 0
def Reg.GAL_CLKSEL (G n : Nat) : Nat := galBase G + 16 + n * 4
def Reg.GAL_CLKSTAT (G : Nat) : Nat := galBase G + 48
def Reg.GAL_RST (G : Nat) : Nat := galBase G + 64
def Reg.GAL_RSTCFG (G : Nat) : Nat := galBase G + 68
def Reg.GAL_RSTSTAT (G : Nat) : Nat := galBase G + 72
def Reg.GAL_EP_CFG (G : Nat) : Nat := galBase G + 96
def Reg.GAL_EP_STAT (G : Nat) : Nat := galBase G + 100
def Reg.GAL_MEZZ_STAT (G : Nat) : Nat := galBase G + 112
def Reg.MEZZ_QUERY (h : Nat) : Nat := hallBase h 0x00000 + 4096
def Reg.MEZZ_TRACK (h : Nat) : Nat := hallBase h 0x00000 + 4100
def Reg.MEZZ_CFG (h : Nat) : Nat := hallBase h 0x00000 + 4104
def Reg.MEZZ_OFF (h j : Nat) : Nat := hallBase h 0x00000 + 4352 + j * 4
def Reg.GAL_CTX_CFG (G : Nat) : Nat := galBase G + 256
def Reg.GAL_CTX_SEL (G : Nat) : Nat := galBase G + 260
def Reg.GAL_CTX_STAT (G : Nat) : Nat := galBase G + 264
def Reg.GAL_CTX_COUNT (G : Nat) : Nat := galBase G + 268
def Reg.GAL_CTX_DROP (G : Nat) : Nat := galBase G + 272
def Reg.GAL_PLANE (G p : Nat) : Nat := galBase G + 288 + p * 16
def Reg.GAL_BMASK (G p : Nat) : Nat := galBase G + 292 + p * 16
def Reg.GAL_BMASK_EFF (G p : Nat) : Nat := galBase G + 296 + p * 16
def Reg.GAL_LOAD_CMD (G : Nat) : Nat := galBase G + 352
def Reg.GAL_LOAD_STAT (G : Nat) : Nat := galBase G + 356
def Reg.GAL_SLOT_CMD (G : Nat) : Nat := galBase G + 368
def Reg.GAL_SLOT_STAT (G : Nat) : Nat := galBase G + 372
def Reg.GAL_SLOT (G s : Nat) : Nat := galBase G + 512 + s * 4
def Reg.GAL_PRISM (G k : Nat) : Nat := galBase G + 1024 + k * 4
def Reg.GAL_PRISM_STAT (G k : Nat) : Nat := galBase G + 1040 + k * 4
def Reg.GAL_MEM_STAT (G : Nat) : Nat := galBase G + 1056
def Reg.GAL_MEM_ECC (G : Nat) : Nat := galBase G + 1060
def Reg.GAL_MEM_ELOG (G : Nat) : Nat := galBase G + 1064
def Reg.GAL_MEM_ACL (G j : Nat) : Nat := galBase G + 1088 + j * 4
def Reg.GAL_MEM_LIST (G i : Nat) : Nat := galBase G + 1104 + i * 4
def Reg.GAL_MEMTEST_CFG (G : Nat) : Nat := galBase G + 1152
def Reg.GAL_MEMTEST_STAT (G : Nat) : Nat := galBase G + 1156
def Reg.GAL_MEMTEST_FAULT (G : Nat) : Nat := galBase G + 1160
def Reg.GAL_REP_SEL (G : Nat) : Nat := galBase G + 1184
def Reg.GAL_REP (G s : Nat) : Nat := galBase G + 1216 + s * 4
def Reg.GAL_Q_CFG (G b : Nat) : Nat := galBase G + 4096 + b * 32
def Reg.GAL_Q_RING (G b : Nat) : Nat := galBase G + 4100 + b * 32
def Reg.GAL_Q_WM (G b : Nat) : Nat := galBase G + 4104 + b * 32
def Reg.GAL_Q_PTR (G b : Nat) : Nat := galBase G + 4108 + b * 32
def Reg.GAL_Q_STAT (G b : Nat) : Nat := galBase G + 4112 + b * 32
def Reg.GAL_Q_ITEM_HI (G b : Nat) : Nat := galBase G + 4116 + b * 32
def Reg.GAL_Q_ITEM_LO (G b : Nat) : Nat := galBase G + 4120 + b * 32
def Reg.GAL_Q_ANN (G b : Nat) : Nat := galBase G + 4124 + b * 32
def Reg.GWK_INFO (h : Nat) : Nat := hallBase h 0x30000 + 0
def Reg.GWK_CTRL (h : Nat) : Nat := hallBase h 0x30000 + 4
def Reg.GWK_TICK (h : Nat) : Nat := hallBase h 0x30000 + 8
def Reg.GWK_TNOW (h : Nat) : Nat := hallBase h 0x30000 + 12
def Reg.GWK_STAT (h : Nat) : Nat := hallBase h 0x30000 + 16
def Reg.GWK_DLY (h : Nat) : Nat := hallBase h 0x30000 + 20
def Reg.GWK_THROTTLE (h : Nat) : Nat := hallBase h 0x30000 + 24
def Reg.GWK_TRACE_CFG (h : Nat) : Nat := hallBase h 0x30000 + 32
def Reg.GWK_TRACE_BASE (h : Nat) : Nat := hallBase h 0x30000 + 36
def Reg.GWK_TRACE_PTR (h : Nat) : Nat := hallBase h 0x30000 + 40
def Reg.GWK_ENQ (h w : Nat) : Nat := hallBase h 0x30000 + 64 + w * 4
def Reg.GWK_ENQ_GO (h : Nat) : Nat := hallBase h 0x30000 + 96
def Reg.GWK_ENQ_RSP (h : Nat) : Nat := hallBase h 0x30000 + 100
def Reg.GWK_SRV_CMD (h : Nat) : Nat := hallBase h 0x30000 + 128
def Reg.GWK_SRV_STAT (h : Nat) : Nat := hallBase h 0x30000 + 132
def Reg.GWK_FLOW_CMD (h : Nat) : Nat := hallBase h 0x30000 + 144
def Reg.GWK_SRV (h v : Nat) : Nat := hallBase h 0x30000 + 1024 + v * 4
def Reg.GWK_CLASS_A (h k : Nat) : Nat := hallBase h 0x30000 + 2048 + k * 16
def Reg.GWK_CLASS_MASK (h k : Nat) : Nat := hallBase h 0x30000 + 2052 + k * 16
def Reg.GWK_CLASS_B (h k : Nat) : Nat := hallBase h 0x30000 + 2056 + k * 16
def Reg.GWK_CLASS_C (h k : Nat) : Nat := hallBase h 0x30000 + 2060 + k * 16
def Reg.GWK_CLASS_EXCL (h k : Nat) : Nat := hallBase h 0x30000 + 3072 + k * 4
def Reg.GWK_CSTAT (h k : Nat) : Nat := hallBase h 0x30000 + 3328 + k * 4
def Reg.GWK_XPROF (h i j : Nat) : Nat := hallBase h 0x30000 + 4096 + i * 16 + j * 4
def Reg.GWK_FLOW_CFG (h f : Nat) : Nat := hallBase h 0x30000 + 8192 + f * 16
def Reg.GWK_FLOW_STAT (h f : Nat) : Nat := hallBase h 0x30000 + 8196 + f * 16
def Reg.GWK_FLOW_CNT (h f : Nat) : Nat := hallBase h 0x30000 + 8200 + f * 16
def Reg.GWK_FLOW_SEQ (h f : Nat) : Nat := hallBase h 0x30000 + 8204 + f * 16
def Reg.OMI_INFO (h : Nat) : Nat := hallBase h 0x10000 + 0
def Reg.OMI_CFG (h : Nat) : Nat := hallBase h 0x10000 + 4
def Reg.OMI_ERR (h : Nat) : Nat := hallBase h 0x10000 + 8
def Reg.OMI_WAKE_STAT (h : Nat) : Nat := hallBase h 0x10000 + 12
def Reg.OMI_LATE (h : Nat) : Nat := hallBase h 0x10000 + 16
def Reg.OMI_LQUERY (h : Nat) : Nat := hallBase h 0x10000 + 32
def Reg.OMI_LSTAT (h : Nat) : Nat := hallBase h 0x10000 + 36
def Reg.OMI_READMIT (h : Nat) : Nat := hallBase h 0x10000 + 40
def Reg.OMI_DEAD (h j : Nat) : Nat := hallBase h 0x10000 + 64 + j * 4
def Reg.OMI_HDET (h d : Nat) : Nat := hallBase h 0x10000 + 256 + d * 4
def Reg.OMI_NOWAKE (h j : Nat) : Nat := hallBase h 0x10000 + 320 + j * 4
def Reg.LENS_CFG (h k : Nat) : Nat := hallBase h 0x20000 + 0 + k * 64
def Reg.LENS_MASK (h k w : Nat) : Nat := hallBase h 0x20000 + 4 + k * 64 + w * 4
def Reg.LENS_MATCH (h k w : Nat) : Nat := hallBase h 0x20000 + 20 + k * 64 + w * 4
def Reg.LENS_PKTS (h k : Nat) : Nat := hallBase h 0x20000 + 36 + k * 64
def Reg.LENS_FLITS (h k : Nat) : Nat := hallBase h 0x20000 + 40 + k * 64
def Reg.LENS_STALL (h k : Nat) : Nat := hallBase h 0x20000 + 44 + k * 64
def Reg.LENS_TCFG (h : Nat) : Nat := hallBase h 0x20000 + 1024
def Reg.LENS_TPTR (h : Nat) : Nat := hallBase h 0x20000 + 1028
def Reg.LENS_ISTAT_CTRL (h : Nat) : Nat := hallBase h 0x20000 + 1032
def Reg.HBM_INFO (h : Nat) : Nat := hallBase h 0x40000 + 0
def Reg.HBM_CFG (h : Nat) : Nat := hallBase h 0x40000 + 4
def Reg.HBM_WQ (h : Nat) : Nat := hallBase h 0x40000 + 8
def Reg.HBM_RH (h : Nat) : Nat := hallBase h 0x40000 + 12
def Reg.HBM_CTRL (h : Nat) : Nat := hallBase h 0x40000 + 16
def Reg.HBM_STAT (h : Nat) : Nat := hallBase h 0x40000 + 20
def Reg.HBM_SR (h : Nat) : Nat := hallBase h 0x40000 + 24
def Reg.HBM_ERR (h : Nat) : Nat := hallBase h 0x40000 + 28
def Reg.HBM_RHCNT (h : Nat) : Nat := hallBase h 0x40000 + 32
def Reg.HBM_ELOG_0 (h : Nat) : Nat := hallBase h 0x40000 + 36
def Reg.HBM_ELOG_1 (h : Nat) : Nat := hallBase h 0x40000 + 40
def Reg.HBM_TEMP (h : Nat) : Nat := hallBase h 0x40000 + 44
def Reg.HBM_PC (h pc : Nat) : Nat := hallBase h 0x40000 + 256 + pc * 4
def Reg.MEE_INFO (h : Nat) : Nat := hallBase h 0x50000 + 0
def Reg.MEE_CFG (h : Nat) : Nat := hallBase h 0x50000 + 4
def Reg.MEE_CACHE (h : Nat) : Nat := hallBase h 0x50000 + 8
def Reg.MEE_WCB (h : Nat) : Nat := hallBase h 0x50000 + 12
def Reg.MEE_KEY (h w : Nat) : Nat := hallBase h 0x50000 + 32 + w * 4
def Reg.MEE_KEYLD (h : Nat) : Nat := hallBase h 0x50000 + 64
def Reg.MEE_DBASE (h r : Nat) : Nat := hallBase h 0x50000 + 256 + r * 64
def Reg.MEE_DUNITS (h r : Nat) : Nat := hallBase h 0x50000 + 260 + r * 64
def Reg.MEE_MBASE (h r : Nat) : Nat := hallBase h 0x50000 + 264 + r * 64
def Reg.MEE_MNEED (h r : Nat) : Nat := hallBase h 0x50000 + 268 + r * 64
def Reg.MEE_CTRL (h r : Nat) : Nat := hallBase h 0x50000 + 272 + r * 64
def Reg.MEE_STAT (h r : Nat) : Nat := hallBase h 0x50000 + 276 + r * 64
def Reg.MEE_BOUND (h r : Nat) : Nat := hallBase h 0x50000 + 280 + r * 64
def Reg.MEE_ERR (h r : Nat) : Nat := hallBase h 0x50000 + 284 + r * 64
def Reg.MEE_POISON (h r i : Nat) : Nat := hallBase h 0x50000 + 1024 + r * 64 + i * 4
def Reg.LANE_CFG (h l : Nat) : Nat := hallBase h 0x60000 + 0 + l * 4096
def Reg.LANE_RATE (h l : Nat) : Nat := hallBase h 0x60000 + 4 + l * 4096
def Reg.LANE_CTRL (h l : Nat) : Nat := hallBase h 0x60000 + 8 + l * 4096
def Reg.LANE_TXEQ (h l : Nat) : Nat := hallBase h 0x60000 + 12 + l * 4096
def Reg.LANE_STAT (h l : Nat) : Nat := hallBase h 0x60000 + 16 + l * 4096
def Reg.LANE_FOM (h l : Nat) : Nat := hallBase h 0x60000 + 20 + l * 4096
def Reg.LANE_FOM_CFG (h l : Nat) : Nat := hallBase h 0x60000 + 24 + l * 4096
def Reg.LANE_ERR (h l : Nat) : Nat := hallBase h 0x60000 + 28 + l * 4096
def Reg.ETH_MODE (h e : Nat) : Nat := hallBase h 0x70000 + 0 + e * 16384
def Reg.ETH_PORT (h e p : Nat) : Nat := hallBase h 0x70000 + 16 + e * 16384 + p * 16
def Reg.ETH_PSTAT (h e p : Nat) : Nat := hallBase h 0x70000 + 20 + e * 16384 + p * 16
def Reg.ETH_KEY (h e w : Nat) : Nat := hallBase h 0x70000 + 512 + e * 16384 + w * 4
def Reg.ETH_TXQ (h e q : Nat) : Nat := hallBase h 0x70000 + 768 + e * 16384 + q * 4
def Reg.ETH_TXTS_0 (h e : Nat) : Nat := hallBase h 0x70000 + 1024 + e * 16384
def Reg.ETH_TXTS_1 (h e : Nat) : Nat := hallBase h 0x70000 + 1028 + e * 16384
def Reg.ETH_TXTS_2 (h e : Nat) : Nat := hallBase h 0x70000 + 1032 + e * 16384
def Reg.ETH_TSADJ (h e p : Nat) : Nat := hallBase h 0x70000 + 1040 + e * 16384 + p * 4
def Reg.ETH_STAT (h e : Nat) : Nat := hallBase h 0x70000 + 1056 + e * 16384
def Reg.PAD_BANK (h b : Nat) : Nat := hallBase h 0x80000 + 0 + b * 4
def Reg.PAD_CFG (h b n : Nat) : Nat := hallBase h 0x80000 + 256 + b * 256 + n * 4
def Reg.BOOT_STAT : Nat := 0x10000 + 0
def Reg.BOOT_CAUSE_ARG : Nat := 0x10000 + 4
def Reg.BOOT_VER : Nat := 0x10000 + 8
def Reg.BOOT_DONE_T : Nat := 0x10000 + 12
def Reg.BOOT_FLASH : Nat := 0x10000 + 16
def Reg.BOOT_REC : Nat := 0x10000 + 20
def Reg.BOOT_LIB : Nat := 0x10000 + 24
def Reg.BOOT_IMP_ADDR : Nat := 0x10000 + 64
def Reg.BOOT_IMP_ADDRH : Nat := 0x10000 + 68
def Reg.BOOT_IMP_CMD : Nat := 0x10000 + 72
def Reg.BOOT_IMP_STAT : Nat := 0x10000 + 76
def Reg.BOOT_SCRUB_CFG : Nat := 0x10000 + 128
def Reg.BOOT_FADDR : Nat := 0x10000 + 192
def Reg.BOOT_FCMD : Nat := 0x10000 + 196
def Reg.BOOT_FSTAT : Nat := 0x10000 + 200
def Reg.BOOT_FPROT : Nat := 0x10000 + 204
def Reg.BOOT_SCRUB_POS (h : Nat) : Nat := 0x10000 + 512 + h * 16
def Reg.BOOT_SCRUB_CNT (h : Nat) : Nat := 0x10000 + 516 + h * 16
def Reg.BOOT_SCRUB_ROUNDS (h : Nat) : Nat := 0x10000 + 520 + h * 16
def Reg.BOOT_FBUF (w : Nat) : Nat := 0x10000 + 1024 + w * 4
def Reg.SEC_INFO : Nat := 0x20000 + 0
def Reg.SEC_LC_CMD : Nat := 0x20000 + 4
def Reg.SEC_CMD_STAT : Nat := 0x20000 + 8
def Reg.SEC_TAMP_CFG : Nat := 0x20000 + 16
def Reg.SEC_TAMP_STAT : Nat := 0x20000 + 20
def Reg.SEC_VAULT_STAT : Nat := 0x20000 + 24
def Reg.SEC_JTAG : Nat := 0x20000 + 32
def Reg.SEC_RNG : Nat := 0x20000 + 36
def Reg.SEC_KEYBUF (w : Nat) : Nat := 0x20000 + 64 + w * 4
def Reg.SEC_CHAL (w : Nat) : Nat := 0x20000 + 96 + w * 4
def Reg.SEC_ATT_NONCE (w : Nat) : Nat := 0x20000 + 128 + w * 4
def Reg.SEC_ATT_CMD : Nat := 0x20000 + 160
def Reg.SEC_ATT_STAT : Nat := 0x20000 + 164
def Reg.SEC_MRX (w : Nat) : Nat := 0x20000 + 192 + w * 4
def Reg.SEC_MRX_CMD : Nat := 0x20000 + 256
def Reg.SEC_VPART (i : Nat) : Nat := 0x20000 + 320 + i * 4
def Reg.SEC_ID (w : Nat) : Nat := 0x20000 + 512 + w * 4
def Reg.SEC_SIGBUF (w : Nat) : Nat := 0x20000 + 4096 + w * 4
def Reg.SEC_CERT (w : Nat) : Nat := 0x20000 + 34816 + w * 4
def Reg.CLK_STAT : Nat := 0x70000 + 0
def Reg.CLK_TB_FREQ : Nat := 0x70000 + 16
def Reg.CLK_TB_STEP : Nat := 0x70000 + 20
def Reg.CLK_TB_SET_LO : Nat := 0x70000 + 24
def Reg.CLK_TB_SET_HI : Nat := 0x70000 + 28
def Reg.CLK_TB_NOW_LO : Nat := 0x70000 + 32
def Reg.CLK_TB_NOW_HI : Nat := 0x70000 + 36
def Reg.HCLK_MODE (h : Nat) : Nat := hallBase h 0x90000 + 0
def Reg.HCLK_STAT (h : Nat) : Nat := hallBase h 0x90000 + 4
def Reg.HCLK_PLL (h i : Nat) : Nat := hallBase h 0x90000 + 256 + i * 32
def Reg.HCLK_PLLOUT (h i j : Nat) : Nat := hallBase h 0x90000 + 260 + i * 32 + j * 4
def Reg.HCLK_LREF (h q : Nat) : Nat := hallBase h 0x90000 + 512 + q * 4
def Reg.HCLK_PAD (h b k : Nat) : Nat := hallBase h 0x90000 + 544 + b * 8 + k * 4
def Reg.HCLK_DIV (h : Nat) : Nat := hallBase h 0x90000 + 768
def Reg.PWR_CFG : Nat := 0x30000 + 0
def Reg.PWR_BUDGET : Nat := 0x30000 + 4
def Reg.PWR_USED : Nat := 0x30000 + 8
def Reg.PWR_CMD : Nat := 0x30000 + 16
def Reg.PWR_CMD_STAT : Nat := 0x30000 + 20
def Reg.PWR_STOP : Nat := 0x30000 + 24
def Reg.PWR_QSTAT : Nat := 0x30000 + 28
def Reg.PWR_COST (k : Nat) : Nat := 0x30000 + 256 + k * 4
def Reg.PWR_HCAP (h : Nat) : Nat := 0x30000 + 512 + h * 16
def Reg.PWR_HBASE (h : Nat) : Nat := 0x30000 + 516 + h * 16
def Reg.PWR_HUSED (h : Nat) : Nat := 0x30000 + 520 + h * 16
def Reg.PWR_DSTAT (h d : Nat) : Nat := 0x30000 + 4096 + h * 512 + d * 4
def Reg.THERM_CFG : Nat := 0x40000 + 0
def Reg.THERM_OFS : Nat := 0x40000 + 4
def Reg.THERM_MEAS : Nat := 0x40000 + 8
def Reg.THERM_CURVE (k : Nat) : Nat := 0x40000 + 16 + k * 4
def Reg.THERM_HALL (h : Nat) : Nat := 0x40000 + 256 + h * 4
def Reg.THERM_HBM (m : Nat) : Nat := 0x40000 + 320 + m * 4
def Reg.THERM_T (h j : Nat) : Nat := 0x40000 + 4096 + h * 128 + j * 4
def Reg.CAL_CFG : Nat := 0x50000 + 0
def Reg.CAL_CTRL : Nat := 0x50000 + 4
def Reg.CAL_STAT : Nat := 0x50000 + 8
def Reg.CAL_REC : Nat := 0x50000 + 12
def Reg.CAL_HTEMP (h : Nat) : Nat := 0x50000 + 256 + h * 16
def Reg.CAL_HSTAT (h : Nat) : Nat := 0x50000 + 260 + h * 16
def Reg.CAL_STEMP (m : Nat) : Nat := 0x50000 + 384 + m * 4
def Reg.CAL_HBM (m n : Nat) : Nat := 0x50000 + 4096 + m * 1024 + n * 4
def Reg.CAL_LSEED (L w : Nat) : Nat := 0x50000 + 16384 + L * 16 + w * 4
def Reg.BIST_CMD : Nat := 0x60000 + 0
def Reg.BIST_STAT : Nat := 0x60000 + 4
def Reg.BIST_GSEL (h : Nat) : Nat := 0x60000 + 16 + h * 4
def Reg.BIST_VMON (c : Nat) : Nat := 0x60000 + 64 + c * 4
def Reg.BIST_UNIT (u : Nat) : Nat := 0x60000 + 96 + u * 4
def Reg.BIST_FIDX : Nat := 0x60000 + 256
def Reg.BIST_FLOG_0 : Nat := 0x60000 + 260
def Reg.BIST_FLOG_1 : Nat := 0x60000 + 264
def Reg.BIST_FLOG_2 : Nat := 0x60000 + 268
def Reg.BIST_PATH : Nat := 0x60000 + 272
def Reg.SYS_ID : Nat := 0x0 + 0
def Reg.SYS_EVCFG : Nat := 0x0 + 256
def Reg.SYS_EVSTAT : Nat := 0x0 + 260
def Reg.SYS_EV (w : Nat) : Nat := 0x0 + 272 + w * 4
def Reg.SYS_RSTINFO : Nat := 0x0 + 512
def Reg.SYS_PORT : Nat := 0x0 + 768
def Reg.ETH_RXF (h e p : Nat) : Nat := hallBase h 0x70000 + 256 + e * 16384 + p * 32
def Reg.ETH_RXDROP (h e p : Nat) : Nat := hallBase h 0x70000 + 260 + e * 16384 + p * 32
def Reg.ETH_RXMISS (h e p : Nat) : Nat := hallBase h 0x70000 + 264 + e * 16384 + p * 32
def Reg.ETH_TXF (h e p : Nat) : Nat := hallBase h 0x70000 + 268 + e * 16384 + p * 32
def Reg.ETH_TXDROP (h e p : Nat) : Nat := hallBase h 0x70000 + 272 + e * 16384 + p * 32
def Reg.ETH_FECC (h e p : Nat) : Nat := hallBase h 0x70000 + 276 + e * 16384 + p * 32
def Reg.ETH_FECU (h e p : Nat) : Nat := hallBase h 0x70000 + 280 + e * 16384 + p * 32
def Reg.ETH_CL_MATCH (h e n w : Nat) : Nat := hallBase h 0x70000 + 8192 + e * 16384 + n * 64 + w * 4
def Reg.ETH_CL_MASK (h e n w : Nat) : Nat := hallBase h 0x70000 + 8208 + e * 16384 + n * 64 + w * 4
def Reg.ETH_CL_ACT (h e n : Nat) : Nat := hallBase h 0x70000 + 8224 + e * 16384 + n * 64
def Reg.ETH_CL_ADDR (h e n : Nat) : Nat := hallBase h 0x70000 + 8228 + e * 16384 + n * 64
def Reg.ETH_CL_ADDRH (h e n : Nat) : Nat := hallBase h 0x70000 + 8232 + e * 16384 + n * 64
def Reg.ETH_CL_BUF (h e n : Nat) : Nat := hallBase h 0x70000 + 8236 + e * 16384 + n * 64
def Reg.ETH_CL_ITEM (h e n : Nat) : Nat := hallBase h 0x70000 + 8240 + e * 16384 + n * 64
def Reg.ETH_CL_HITS (h e n : Nat) : Nat := hallBase h 0x70000 + 8244 + e * 16384 + n * 64
def Reg.ETH_CL_NEXT (h e n : Nat) : Nat := hallBase h 0x70000 + 8248 + e * 16384 + n * 64
def Reg.LENS_IREQ (h i : Nat) : Nat := hallBase h 0x20000 + 4096 + i * 64
def Reg.LENS_IUNITS (h i : Nat) : Nat := hallBase h 0x20000 + 4100 + i * 64
def Reg.LENS_ILMIN (h i : Nat) : Nat := hallBase h 0x20000 + 4104 + i * 64
def Reg.LENS_ILMAX (h i : Nat) : Nat := hallBase h 0x20000 + 4108 + i * 64
def Reg.LENS_ILSUM_LO (h i : Nat) : Nat := hallBase h 0x20000 + 4112 + i * 64
def Reg.LENS_ILSUM_HI (h i : Nat) : Nat := hallBase h 0x20000 + 4116 + i * 64
def Reg.LENS_IERR (h i : Nat) : Nat := hallBase h 0x20000 + 4120 + i * 64
def Reg.LENS_IHIST (h i j : Nat) : Nat := hallBase h 0x20000 + 4128 + i * 64 + j * 4

def Fl.SYS_CAP_LANES : Fld := ⟨20, 8⟩
def Fl.SYS_CAP_HBM_STACKS : Fld := ⟨16, 4⟩
def Fl.SYS_CAP_HALLS : Fld := ⟨8, 8⟩
def Fl.SYS_CAP_GRADE : Fld := ⟨2, 2⟩
def Fl.SYS_CAP_MEE : Fld := ⟨1, 1⟩
def Fl.SYS_CAP_GWEAK : Fld := ⟨0, 1⟩
def Fl.HALL_INFO_LAND_GROUPS : Fld := ⟨8, 8⟩
def Fl.HALL_INFO_CORR_V : Fld := ⟨6, 1⟩
def Fl.HALL_INFO_CORR_E : Fld := ⟨5, 1⟩
def Fl.HALL_INFO_CORR_W : Fld := ⟨4, 1⟩
def Fl.HALL_INFO_MEMPORT : Fld := ⟨3, 1⟩
def Fl.HALL_INFO_HALL : Fld := ⟨0, 3⟩
def Fl.FRST_CTRL_KEY : Fld := ⟨8, 8⟩
def Fl.FRST_CTRL_GO : Fld := ⟨0, 1⟩
def Fl.FRST_STAT_TIMEOUT : Fld := ⟨31, 1⟩
def Fl.FRST_STAT_DROPPED : Fld := ⟨8, 16⟩
def Fl.FRST_STAT_STATE : Fld := ⟨0, 2⟩
def Fl.HALL_FENCE_FENCE : Fld := ⟨0, 1⟩
def Fl.CORR_CTRL_READMIT : Fld := ⟨16, 1⟩
def Fl.CORR_CTRL_SPARE_EN : Fld := ⟨8, 1⟩
def Fl.CORR_CTRL_FENCE : Fld := ⟨0, 5⟩
def Fl.CORR_STAT_MESH1_DETOUR : Fld := ⟨21, 1⟩
def Fl.CORR_STAT_MESH0_DETOUR : Fld := ⟨20, 1⟩
def Fl.CORR_STAT_SPARE_FOR : Fld := ⟨16, 3⟩
def Fl.CORR_STAT_FENCED : Fld := ⟨8, 5⟩
def Fl.CORR_STAT_CORRIDOR : Fld := ⟨0, 4⟩
def Fl.LAND_CFG_MARGIN_MIN : Fld := ⟨0, 6⟩
def Fl.LAND_ALARM_BITS : Fld := ⟨0, 32⟩
def Fl.LAND_PERR : Fld := ⟨24, 8⟩
def Fl.LAND_MARGIN : Fld := ⟨16, 6⟩
def Fl.LAND_HOLD : Fld := ⟨7, 1⟩
def Fl.LAND_CODE : Fld := ⟨0, 6⟩
def Fl.GAL_INFO_EDGE : Fld := ⟨11, 1⟩
def Fl.GAL_INFO_HALL : Fld := ⟨8, 3⟩
def Fl.GAL_INFO_G : Fld := ⟨0, 8⟩
def Fl.GAL_CLKSEL_DEEP : Fld := ⟨10, 1⟩
def Fl.GAL_CLKSEL_SLEEP : Fld := ⟨9, 1⟩
def Fl.GAL_CLKSEL_RUN : Fld := ⟨8, 1⟩
def Fl.GAL_CLKSEL_SRC : Fld := ⟨0, 6⟩
def Fl.GAL_CLKSTAT_SWITCHING : Fld := ⟨16, 8⟩
def Fl.GAL_CLKSTAT_LOST : Fld := ⟨8, 8⟩
def Fl.GAL_CLKSTAT_RUNNING : Fld := ⟨0, 8⟩
def Fl.GAL_RST_KEY : Fld := ⟨8, 8⟩
def Fl.GAL_RST_GO : Fld := ⟨0, 1⟩
def Fl.GAL_RSTCFG_CYCLES : Fld := ⟨0, 8⟩
def Fl.GAL_RSTSTAT_COUNT : Fld := ⟨16, 16⟩
def Fl.GAL_RSTSTAT_PENDING : Fld := ⟨1, 1⟩
def Fl.GAL_RSTSTAT_ACTIVE : Fld := ⟨0, 1⟩
def Fl.GAL_EP_CFG_LIMIT : Fld := ⟨8, 7⟩
def Fl.GAL_EP_CFG_ECLK : Fld := ⟨0, 3⟩
def Fl.GAL_EP_STAT_VCERR : Fld := ⟨24, 8⟩
def Fl.GAL_EP_STAT_TAGERR : Fld := ⟨16, 8⟩
def Fl.GAL_EP_STAT_TBP : Fld := ⟨8, 1⟩
def Fl.GAL_EP_STAT_OUTSTANDING : Fld := ⟨0, 7⟩
def Fl.GAL_MEZZ_STAT_CONT : Fld := ⟨16, 8⟩
def Fl.GAL_MEZZ_STAT_CLAIMS : Fld := ⟨0, 13⟩
def Fl.MEZZ_QUERY_TRACK : Fld := ⟨0, 13⟩
def Fl.MEZZ_TRACK_LOCKED : Fld := ⟨17, 1⟩
def Fl.MEZZ_TRACK_OFF : Fld := ⟨16, 1⟩
def Fl.MEZZ_TRACK_PLANES : Fld := ⟨8, 3⟩
def Fl.MEZZ_TRACK_CLAIMED : Fld := ⟨5, 1⟩
def Fl.MEZZ_TRACK_OWNER : Fld := ⟨0, 5⟩
def Fl.MEZZ_CFG_RECUR : Fld := ⟨8, 8⟩
def Fl.MEZZ_CFG_AUTO_REARM : Fld := ⟨0, 1⟩
def Fl.MEZZ_OFF_BITS : Fld := ⟨0, 32⟩
def Fl.GAL_CTX_CFG_CCLK : Fld := ⟨4, 3⟩
def Fl.GAL_CTX_CFG_SRC : Fld := ⟨0, 2⟩
def Fl.GAL_CTX_SEL_PLANE : Fld := ⟨0, 2⟩
def Fl.GAL_CTX_STAT_SERVERS : Fld := ⟨8, 4⟩
def Fl.GAL_CTX_STAT_PEND_PLANE : Fld := ⟨4, 2⟩
def Fl.GAL_CTX_STAT_PENDING : Fld := ⟨3, 1⟩
def Fl.GAL_CTX_STAT_NONE : Fld := ⟨2, 1⟩
def Fl.GAL_CTX_STAT_ACTIVE : Fld := ⟨0, 2⟩
def Fl.GAL_CTX_COUNT_COUNT : Fld := ⟨0, 32⟩
def Fl.GAL_CTX_DROP_DENIED : Fld := ⟨24, 8⟩
def Fl.GAL_CTX_DROP_MSG : Fld := ⟨16, 8⟩
def Fl.GAL_CTX_DROP_PRISM : Fld := ⟨0, 16⟩
def Fl.GAL_PLANE_IMAGE_ID : Fld := ⟨16, 16⟩
def Fl.GAL_PLANE_SLOT : Fld := ⟨8, 5⟩
def Fl.GAL_PLANE_FAIL_CAUSE : Fld := ⟨4, 4⟩
def Fl.GAL_PLANE_TQ_EN : Fld := ⟨3, 1⟩
def Fl.GAL_PLANE_STATE : Fld := ⟨0, 3⟩
def Fl.GAL_BMASK_VALUE : Fld := ⟨0, 32⟩
def Fl.GAL_BMASK_EFF_VALUE : Fld := ⟨0, 32⟩
def Fl.GAL_LOAD_CMD_SLOT : Fld := ⟨8, 5⟩
def Fl.GAL_LOAD_CMD_PLANE : Fld := ⟨4, 2⟩
def Fl.GAL_LOAD_CMD_MODE : Fld := ⟨1, 2⟩
def Fl.GAL_LOAD_CMD_GO : Fld := ⟨0, 1⟩
def Fl.GAL_LOAD_STAT_LOADS : Fld := ⟨16, 16⟩
def Fl.GAL_LOAD_STAT_REASON : Fld := ⟨12, 4⟩
def Fl.GAL_LOAD_STAT_RESULT : Fld := ⟨8, 3⟩
def Fl.GAL_LOAD_STAT_RESENT : Fld := ⟨3, 5⟩
def Fl.GAL_LOAD_STAT_QUEUED : Fld := ⟨0, 3⟩
def Fl.GAL_SLOT_CMD_SRC_G : Fld := ⟨21, 5⟩
def Fl.GAL_SLOT_CMD_SRC_SLOT : Fld := ⟨16, 5⟩
def Fl.GAL_SLOT_CMD_DST_SLOT : Fld := ⟨8, 5⟩
def Fl.GAL_SLOT_CMD_OP : Fld := ⟨1, 2⟩
def Fl.GAL_SLOT_CMD_GO : Fld := ⟨0, 1⟩
def Fl.GAL_SLOT_STAT_RESULT : Fld := ⟨1, 3⟩
def Fl.GAL_SLOT_STAT_BUSY : Fld := ⟨0, 1⟩
def Fl.GAL_SLOT_IMAGE_ID : Fld := ⟨16, 16⟩
def Fl.GAL_SLOT_PLACE : Fld := ⟨14, 2⟩
def Fl.GAL_SLOT_ORIGIN : Fld := ⟨12, 2⟩
def Fl.GAL_SLOT_PIN : Fld := ⟨3, 1⟩
def Fl.GAL_SLOT_STATE : Fld := ⟨0, 3⟩
def Fl.GAL_PRISM_PCLK : Fld := ⟨0, 3⟩
def Fl.GAL_PRISM_STAT_STALLS : Fld := ⟨16, 16⟩
def Fl.GAL_PRISM_STAT_ERRS : Fld := ⟨8, 8⟩
def Fl.GAL_PRISM_STAT_DISCARDED : Fld := ⟨0, 8⟩
def Fl.GAL_MEM_STAT_OVERTAKEN : Fld := ⟨16, 16⟩
def Fl.GAL_MEM_STAT_ACL_DENIED : Fld := ⟨8, 8⟩
def Fl.GAL_MEM_STAT_STATE : Fld := ⟨0, 2⟩
def Fl.GAL_MEM_ECC_CE : Fld := ⟨16, 16⟩
def Fl.GAL_MEM_ECC_UE : Fld := ⟨0, 16⟩
def Fl.GAL_MEM_ELOG_VALID : Fld := ⟨31, 1⟩
def Fl.GAL_MEM_ELOG_PATH : Fld := ⟨29, 2⟩
def Fl.GAL_MEM_ELOG_BANK : Fld := ⟨24, 5⟩
def Fl.GAL_MEM_ELOG_ROW : Fld := ⟨13, 11⟩
def Fl.GAL_MEM_ELOG_BYTE : Fld := ⟨6, 7⟩
def Fl.GAL_MEM_ACL_RDONLY_0 : Fld := ⟨2, 1⟩
def Fl.GAL_MEM_ACL_MODE_0 : Fld := ⟨0, 2⟩
def Fl.GAL_MEM_ACL_RDONLY_1 : Fld := ⟨6, 1⟩
def Fl.GAL_MEM_ACL_MODE_1 : Fld := ⟨4, 2⟩
def Fl.GAL_MEM_ACL_RDONLY_2 : Fld := ⟨10, 1⟩
def Fl.GAL_MEM_ACL_MODE_2 : Fld := ⟨8, 2⟩
def Fl.GAL_MEM_ACL_RDONLY_3 : Fld := ⟨14, 1⟩
def Fl.GAL_MEM_ACL_MODE_3 : Fld := ⟨12, 2⟩
def Fl.GAL_MEM_ACL_RDONLY_4 : Fld := ⟨18, 1⟩
def Fl.GAL_MEM_ACL_MODE_4 : Fld := ⟨16, 2⟩
def Fl.GAL_MEM_ACL_RDONLY_5 : Fld := ⟨22, 1⟩
def Fl.GAL_MEM_ACL_MODE_5 : Fld := ⟨20, 2⟩
def Fl.GAL_MEM_ACL_RDONLY_6 : Fld := ⟨26, 1⟩
def Fl.GAL_MEM_ACL_MODE_6 : Fld := ⟨24, 2⟩
def Fl.GAL_MEM_ACL_RDONLY_7 : Fld := ⟨30, 1⟩
def Fl.GAL_MEM_ACL_MODE_7 : Fld := ⟨28, 2⟩
def Fl.GAL_MEM_LIST_VALID : Fld := ⟨31, 1⟩
def Fl.GAL_MEM_LIST_HALL : Fld := ⟨9, 3⟩
def Fl.GAL_MEM_LIST_NODE : Fld := ⟨3, 6⟩
def Fl.GAL_MEMTEST_CFG_INTERVAL : Fld := ⟨8, 8⟩
def Fl.GAL_MEMTEST_CFG_LIVE_REPAIR : Fld := ⟨1, 1⟩
def Fl.GAL_MEMTEST_CFG_EN : Fld := ⟨0, 1⟩
def Fl.GAL_MEMTEST_STAT_PASSES : Fld := ⟨16, 16⟩
def Fl.GAL_MEMTEST_STAT_FAULTS : Fld := ⟨9, 7⟩
def Fl.GAL_MEMTEST_STAT_SPARES_FREE : Fld := ⟨0, 9⟩
def Fl.GAL_MEMTEST_FAULT_VALID : Fld := ⟨31, 1⟩
def Fl.GAL_MEMTEST_FAULT_REPAIRED : Fld := ⟨30, 1⟩
def Fl.GAL_MEMTEST_FAULT_BANK : Fld := ⟨25, 5⟩
def Fl.GAL_MEMTEST_FAULT_ROW : Fld := ⟨13, 12⟩
def Fl.GAL_MEMTEST_FAULT_BIT : Fld := ⟨0, 11⟩
def Fl.GAL_REP_SEL_BANK : Fld := ⟨0, 5⟩
def Fl.GAL_REP_USED : Fld := ⟨31, 1⟩
def Fl.GAL_REP_LIVE : Fld := ⟨30, 1⟩
def Fl.GAL_REP_RETIRED : Fld := ⟨29, 1⟩
def Fl.GAL_REP_ROW : Fld := ⟨0, 11⟩
def Fl.GAL_Q_CFG_SPAN : Fld := ⟨4, 2⟩
def Fl.GAL_Q_CFG_EN : Fld := ⟨0, 1⟩
def Fl.GAL_Q_RING_SIZE : Fld := ⟨16, 15⟩
def Fl.GAL_Q_RING_BASE : Fld := ⟨0, 14⟩
def Fl.GAL_Q_WM_LOW : Fld := ⟨16, 15⟩
def Fl.GAL_Q_WM_HIGH : Fld := ⟨0, 15⟩
def Fl.GAL_Q_PTR_TAIL : Fld := ⟨16, 14⟩
def Fl.GAL_Q_PTR_HEAD : Fld := ⟨0, 14⟩
def Fl.GAL_Q_STAT_OVF : Fld := ⟨31, 1⟩
def Fl.GAL_Q_STAT_UNF : Fld := ⟨30, 1⟩
def Fl.GAL_Q_STAT_LO_HIT : Fld := ⟨29, 1⟩
def Fl.GAL_Q_STAT_HI_HIT : Fld := ⟨28, 1⟩
def Fl.GAL_Q_STAT_ENQ_RETRY : Fld := ⟨27, 1⟩
def Fl.GAL_Q_STAT_FILL : Fld := ⟨0, 15⟩
def Fl.GAL_Q_ITEM_HI_EN : Fld := ⟨31, 1⟩
def Fl.GAL_Q_ITEM_HI_CLASS : Fld := ⟨12, 6⟩
def Fl.GAL_Q_ITEM_HI_FLOW : Fld := ⟨0, 12⟩
def Fl.GAL_Q_ITEM_LO_EN : Fld := ⟨31, 1⟩
def Fl.GAL_Q_ITEM_LO_CLASS : Fld := ⟨12, 6⟩
def Fl.GAL_Q_ITEM_LO_FLOW : Fld := ⟨0, 12⟩
def Fl.GAL_Q_ANN_OVFCNT : Fld := ⟨24, 8⟩
def Fl.GAL_Q_ANN_UNFCNT : Fld := ⟨16, 8⟩
def Fl.GAL_Q_ANN_ANN : Fld := ⟨0, 14⟩
def Fl.GWK_INFO_FLOW_BASE : Fld := ⟨16, 12⟩
def Fl.GWK_INFO_CLASSES : Fld := ⟨8, 8⟩
def Fl.GWK_INFO_SERVERS : Fld := ⟨0, 8⟩
def Fl.GWK_CTRL_RELEASE_EN : Fld := ⟨1, 1⟩
def Fl.GWK_CTRL_DISPATCH_EN : Fld := ⟨0, 1⟩
def Fl.GWK_TICK_DIV : Fld := ⟨0, 8⟩
def Fl.GWK_TNOW_VALUE : Fld := ⟨0, 32⟩
def Fl.GWK_STAT_STRAY : Fld := ⟨24, 8⟩
def Fl.GWK_STAT_ITEMS : Fld := ⟨0, 17⟩
def Fl.GWK_DLY_SLIP : Fld := ⟨24, 8⟩
def Fl.GWK_DLY_LATE : Fld := ⟨16, 8⟩
def Fl.GWK_DLY_USED : Fld := ⟨0, 15⟩
def Fl.GWK_THROTTLE_MAX_BUSY : Fld := ⟨0, 6⟩
def Fl.GWK_TRACE_CFG_MASK : Fld := ⟨16, 16⟩
def Fl.GWK_TRACE_CFG_SIZE : Fld := ⟨4, 4⟩
def Fl.GWK_TRACE_CFG_STOP : Fld := ⟨1, 1⟩
def Fl.GWK_TRACE_CFG_EN : Fld := ⟨0, 1⟩
def Fl.GWK_TRACE_BASE_BASE : Fld := ⟨0, 28⟩
def Fl.GWK_TRACE_PTR_WRAPPED : Fld := ⟨31, 1⟩
def Fl.GWK_TRACE_PTR_STOPPED : Fld := ⟨30, 1⟩
def Fl.GWK_TRACE_PTR_LOST : Fld := ⟨16, 14⟩
def Fl.GWK_TRACE_PTR_NEXT : Fld := ⟨0, 16⟩
def Fl.GWK_ENQ_VALUE : Fld := ⟨0, 32⟩
def Fl.GWK_ENQ_GO_GO : Fld := ⟨0, 1⟩
def Fl.GWK_ENQ_RSP_BUSY : Fld := ⟨31, 1⟩
def Fl.GWK_ENQ_RSP_STATUS : Fld := ⟨0, 3⟩
def Fl.GWK_SRV_CMD_CLASS : Fld := ⟨8, 6⟩
def Fl.GWK_SRV_CMD_G : Fld := ⟨3, 5⟩
def Fl.GWK_SRV_CMD_OP : Fld := ⟨1, 2⟩
def Fl.GWK_SRV_CMD_GO : Fld := ⟨0, 1⟩
def Fl.GWK_SRV_STAT_BUSY : Fld := ⟨31, 1⟩
def Fl.GWK_SRV_STAT_RESULT : Fld := ⟨0, 3⟩
def Fl.GWK_FLOW_CMD_FLOW : Fld := ⟨3, 9⟩
def Fl.GWK_FLOW_CMD_OP : Fld := ⟨1, 2⟩
def Fl.GWK_FLOW_CMD_GO : Fld := ⟨0, 1⟩
def Fl.GWK_SRV_STATE : Fld := ⟨29, 3⟩
def Fl.GWK_SRV_RESIDENT : Fld := ⟨28, 1⟩
def Fl.GWK_SRV_FLOW : Fld := ⟨16, 12⟩
def Fl.GWK_SRV_IMAGE_ID : Fld := ⟨0, 16⟩
def Fl.GWK_CLASS_A_EN : Fld := ⟨31, 1⟩
def Fl.GWK_CLASS_A_PRIO : Fld := ⟨28, 3⟩
def Fl.GWK_CLASS_A_DEST : Fld := ⟨27, 1⟩
def Fl.GWK_CLASS_A_ENGINE : Fld := ⟨25, 2⟩
def Fl.GWK_CLASS_A_TXQ : Fld := ⟨22, 3⟩
def Fl.GWK_CLASS_A_RES : Fld := ⟨21, 1⟩
def Fl.GWK_CLASS_A_ON_FAIL : Fld := ⟨20, 1⟩
def Fl.GWK_CLASS_A_SLOT : Fld := ⟨15, 5⟩
def Fl.GWK_CLASS_A_COPIES : Fld := ⟨11, 4⟩
def Fl.GWK_CLASS_MASK_VALUE : Fld := ⟨0, 32⟩
def Fl.GWK_CLASS_B_IMAGE_ID : Fld := ⟨16, 16⟩
def Fl.GWK_CLASS_B_SVC_LIMIT : Fld := ⟨0, 16⟩
def Fl.GWK_CLASS_C_LATE_MAX : Fld := ⟨16, 16⟩
def Fl.GWK_CLASS_EXCL_BITS : Fld := ⟨0, 32⟩
def Fl.GWK_CSTAT_LOADS : Fld := ⟨16, 16⟩
def Fl.GWK_CSTAT_LOADFAIL : Fld := ⟨8, 8⟩
def Fl.GWK_CSTAT_NOSRV : Fld := ⟨0, 8⟩
def Fl.GWK_XPROF_EN : Fld := ⟨31, 1⟩
def Fl.GWK_XPROF_DST : Fld := ⟨22, 2⟩
def Fl.GWK_XPROF_DSH : Fld := ⟨17, 5⟩
def Fl.GWK_XPROF_WM1 : Fld := ⟨12, 5⟩
def Fl.GWK_XPROF_OFS : Fld := ⟨7, 5⟩
def Fl.GWK_XPROF_SRC : Fld := ⟨0, 7⟩
def Fl.GWK_FLOW_CFG_EN : Fld := ⟨31, 1⟩
def Fl.GWK_FLOW_CFG_ACC : Fld := ⟨29, 2⟩
def Fl.GWK_FLOW_CFG_SRC_HALL : Fld := ⟨26, 3⟩
def Fl.GWK_FLOW_CFG_SRC_NODE : Fld := ⟨20, 6⟩
def Fl.GWK_FLOW_CFG_QLIMIT : Fld := ⟨0, 17⟩
def Fl.GWK_FLOW_STAT_STATE : Fld := ⟨29, 3⟩
def Fl.GWK_FLOW_STAT_TARGET : Fld := ⟨22, 7⟩
def Fl.GWK_FLOW_STAT_ENG : Fld := ⟨21, 1⟩
def Fl.GWK_FLOW_STAT_QUEUED : Fld := ⟨0, 17⟩
def Fl.GWK_FLOW_CNT_DONE : Fld := ⟨16, 16⟩
def Fl.GWK_FLOW_CNT_FAILED : Fld := ⟨8, 8⟩
def Fl.GWK_FLOW_CNT_DROPPED : Fld := ⟨0, 8⟩
def Fl.GWK_FLOW_SEQ_ISEQ : Fld := ⟨0, 24⟩
def Fl.OMI_INFO_MESHES : Fld := ⟨16, 2⟩
def Fl.OMI_INFO_NODES : Fld := ⟨8, 8⟩
def Fl.OMI_INFO_HALL : Fld := ⟨0, 3⟩
def Fl.OMI_CFG_RSP_TO : Fld := ⟨24, 8⟩
def Fl.OMI_CFG_WAKE_TO : Fld := ⟨8, 11⟩
def Fl.OMI_CFG_DEAD_TO : Fld := ⟨0, 6⟩
def Fl.OMI_ERR_RETIRED : Fld := ⟨24, 8⟩
def Fl.OMI_ERR_DUP : Fld := ⟨16, 8⟩
def Fl.OMI_ERR_POISON : Fld := ⟨8, 8⟩
def Fl.OMI_ERR_HDR : Fld := ⟨0, 8⟩
def Fl.OMI_WAKE_STAT_REFUSED : Fld := ⟨24, 8⟩
def Fl.OMI_WAKE_STAT_TIMEOUT : Fld := ⟨16, 8⟩
def Fl.OMI_WAKE_STAT_WAKES : Fld := ⟨0, 16⟩
def Fl.OMI_LATE_COUNT : Fld := ⟨0, 32⟩
def Fl.OMI_LQUERY_LINK : Fld := ⟨0, 10⟩
def Fl.OMI_LSTAT_LATE : Fld := ⟨16, 16⟩
def Fl.OMI_LSTAT_RESULT : Fld := ⟨4, 3⟩
def Fl.OMI_LSTAT_STATE : Fld := ⟨0, 2⟩
def Fl.OMI_READMIT_GO : Fld := ⟨16, 1⟩
def Fl.OMI_READMIT_LINK : Fld := ⟨0, 10⟩
def Fl.OMI_DEAD_VALUE : Fld := ⟨0, 32⟩
def Fl.OMI_HDET_MESH1 : Fld := ⟨8, 3⟩
def Fl.OMI_HDET_MESH0 : Fld := ⟨0, 3⟩
def Fl.OMI_NOWAKE_BITS : Fld := ⟨0, 32⟩
def Fl.LENS_CFG_EN : Fld := ⟨31, 1⟩
def Fl.LENS_CFG_TRACE : Fld := ⟨30, 1⟩
def Fl.LENS_CFG_VCMASK : Fld := ⟨26, 4⟩
def Fl.LENS_CFG_DIR : Fld := ⟨15, 1⟩
def Fl.LENS_CFG_SIDE : Fld := ⟨12, 3⟩
def Fl.LENS_CFG_MESH : Fld := ⟨9, 1⟩
def Fl.LENS_CFG_NODE : Fld := ⟨0, 6⟩
def Fl.LENS_MASK_VALUE : Fld := ⟨0, 32⟩
def Fl.LENS_MATCH_VALUE : Fld := ⟨0, 32⟩
def Fl.LENS_PKTS_COUNT : Fld := ⟨0, 32⟩
def Fl.LENS_FLITS_COUNT : Fld := ⟨0, 32⟩
def Fl.LENS_STALL_COUNT : Fld := ⟨0, 32⟩
def Fl.LENS_TCFG_EN : Fld := ⟨31, 1⟩
def Fl.LENS_TCFG_STOP : Fld := ⟨30, 1⟩
def Fl.LENS_TPTR_WRAPPED : Fld := ⟨31, 1⟩
def Fl.LENS_TPTR_STOPPED : Fld := ⟨30, 1⟩
def Fl.LENS_TPTR_LOST : Fld := ⟨16, 14⟩
def Fl.LENS_TPTR_NEXT : Fld := ⟨0, 11⟩
def Fl.LENS_ISTAT_CTRL_SCALE : Fld := ⟨8, 3⟩
def Fl.LENS_ISTAT_CTRL_SNAP : Fld := ⟨0, 1⟩
def Fl.HBM_INFO_HEIGHT : Fld := ⟨24, 4⟩
def Fl.HBM_INFO_CAP_GIB : Fld := ⟨16, 8⟩
def Fl.HBM_INFO_PCS : Fld := ⟨8, 8⟩
def Fl.HBM_INFO_STACK : Fld := ⟨0, 2⟩
def Fl.HBM_CFG_READ_AGE : Fld := ⟨24, 8⟩
def Fl.HBM_CFG_WB_EN : Fld := ⟨16, 1⟩
def Fl.HBM_CFG_SR_IDLE : Fld := ⟨8, 8⟩
def Fl.HBM_CFG_RATE : Fld := ⟨0, 2⟩
def Fl.HBM_WQ_WR_AGE : Fld := ⟨16, 8⟩
def Fl.HBM_WQ_HIGH : Fld := ⟨8, 7⟩
def Fl.HBM_WQ_LOW : Fld := ⟨0, 7⟩
def Fl.HBM_RH_EN : Fld := ⟨20, 1⟩
def Fl.HBM_RH_RADIUS : Fld := ⟨16, 3⟩
def Fl.HBM_RH_THRESH : Fld := ⟨0, 16⟩
def Fl.HBM_CTRL_SR_HOLD : Fld := ⟨0, 1⟩
def Fl.HBM_STAT_FAILED_CH : Fld := ⟨16, 16⟩
def Fl.HBM_STAT_STATE : Fld := ⟨0, 3⟩
def Fl.HBM_SR_BITS : Fld := ⟨0, 16⟩
def Fl.HBM_ERR_UE : Fld := ⟨24, 8⟩
def Fl.HBM_ERR_ALERT : Fld := ⟨16, 8⟩
def Fl.HBM_ERR_CE : Fld := ⟨0, 16⟩
def Fl.HBM_RHCNT_COUNT : Fld := ⟨0, 32⟩
def Fl.HBM_ELOG_0_VALID : Fld := ⟨31, 1⟩
def Fl.HBM_ELOG_0_CAUSE : Fld := ⟨29, 2⟩
def Fl.HBM_ELOG_0_PC : Fld := ⟨24, 5⟩
def Fl.HBM_ELOG_0_SID : Fld := ⟨22, 2⟩
def Fl.HBM_ELOG_0_BG : Fld := ⟨20, 2⟩
def Fl.HBM_ELOG_0_BA : Fld := ⟨18, 2⟩
def Fl.HBM_ELOG_0_ROW : Fld := ⟨3, 15⟩
def Fl.HBM_ELOG_1_BURST : Fld := ⟨0, 31⟩
def Fl.HBM_TEMP_REFMULT : Fld := ⟨8, 2⟩
def Fl.HBM_TEMP_TEMP : Fld := ⟨0, 8⟩
def Fl.HBM_PC_FAILED : Fld := ⟨17, 1⟩
def Fl.HBM_PC_WMODE : Fld := ⟨16, 1⟩
def Fl.HBM_PC_WQ : Fld := ⟨8, 7⟩
def Fl.HBM_PC_RQ : Fld := ⟨0, 7⟩
def Fl.MEE_INFO_RANGES : Fld := ⟨16, 4⟩
def Fl.MEE_INFO_STACK : Fld := ⟨0, 2⟩
def Fl.MEE_CFG_WC_AGE : Fld := ⟨0, 8⟩
def Fl.MEE_CACHE_HITS : Fld := ⟨16, 16⟩
def Fl.MEE_CACHE_MISSES : Fld := ⟨0, 16⟩
def Fl.MEE_WCB_LOST : Fld := ⟨16, 16⟩
def Fl.MEE_WCB_FILL : Fld := ⟨0, 7⟩
def Fl.MEE_KEY_VALUE : Fld := ⟨0, 32⟩
def Fl.MEE_KEYLD_RANGE : Fld := ⟨4, 3⟩
def Fl.MEE_KEYLD_SRC : Fld := ⟨2, 1⟩
def Fl.MEE_KEYLD_SLOT : Fld := ⟨1, 1⟩
def Fl.MEE_KEYLD_GO : Fld := ⟨0, 1⟩
def Fl.MEE_DBASE_DBASE : Fld := ⟨0, 21⟩
def Fl.MEE_DUNITS_DUNITS : Fld := ⟨0, 21⟩
def Fl.MEE_MBASE_MBASE : Fld := ⟨0, 24⟩
def Fl.MEE_MNEED_LEVELS : Fld := ⟨24, 4⟩
def Fl.MEE_MNEED_NEED : Fld := ⟨0, 24⟩
def Fl.MEE_CTRL_SHARE : Fld := ⟨8, 6⟩
def Fl.MEE_CTRL_KEYCHG : Fld := ⟨1, 1⟩
def Fl.MEE_CTRL_EN : Fld := ⟨0, 1⟩
def Fl.MEE_STAT_EXH : Fld := ⟨31, 1⟩
def Fl.MEE_STAT_KEY_NEXT : Fld := ⟨30, 1⟩
def Fl.MEE_STAT_KEY_CUR : Fld := ⟨29, 1⟩
def Fl.MEE_STAT_PCOUNT : Fld := ⟨24, 5⟩
def Fl.MEE_STAT_STATE : Fld := ⟨0, 3⟩
def Fl.MEE_BOUND_BOUND : Fld := ⟨0, 21⟩
def Fl.MEE_ERR_INTEG : Fld := ⟨16, 16⟩
def Fl.MEE_ERR_SKIPPED : Fld := ⟨0, 16⟩
def Fl.MEE_POISON_VALID : Fld := ⟨31, 1⟩
def Fl.MEE_POISON_K : Fld := ⟨27, 4⟩
def Fl.MEE_POISON_START : Fld := ⟨0, 27⟩
def Fl.LANE_CFG_EN : Fld := ⟨31, 1⟩
def Fl.LANE_CFG_RXPOL : Fld := ⟨7, 1⟩
def Fl.LANE_CFG_TXPOL : Fld := ⟨6, 1⟩
def Fl.LANE_CFG_SDI_SCR : Fld := ⟨5, 1⟩
def Fl.LANE_CFG_MOD : Fld := ⟨4, 1⟩
def Fl.LANE_CFG_MODE : Fld := ⟨0, 3⟩
def Fl.LANE_RATE_F1001 : Fld := ⟨31, 1⟩
def Fl.LANE_RATE_RATE : Fld := ⟨0, 27⟩
def Fl.LANE_CTRL_COLD : Fld := ⟨3, 1⟩
def Fl.LANE_CTRL_FREEZE : Fld := ⟨2, 1⟩
def Fl.LANE_CTRL_DORMANT : Fld := ⟨1, 1⟩
def Fl.LANE_CTRL_QUIET : Fld := ⟨0, 1⟩
def Fl.LANE_TXEQ_POST1 : Fld := ⟨24, 6⟩
def Fl.LANE_TXEQ_MAIN : Fld := ⟨16, 6⟩
def Fl.LANE_TXEQ_PRE1 : Fld := ⟨8, 6⟩
def Fl.LANE_TXEQ_PRE2 : Fld := ⟨0, 6⟩
def Fl.LANE_STAT_PLL_LOCK : Fld := ⟨7, 1⟩
def Fl.LANE_STAT_STORED : Fld := ⟨6, 1⟩
def Fl.LANE_STAT_ALARM : Fld := ⟨5, 1⟩
def Fl.LANE_STAT_LOCK : Fld := ⟨4, 1⟩
def Fl.LANE_STAT_STATE : Fld := ⟨0, 3⟩
def Fl.LANE_FOM_MIN : Fld := ⟨8, 8⟩
def Fl.LANE_FOM_FOM : Fld := ⟨0, 8⟩
def Fl.LANE_FOM_CFG_ALARM_FOM : Fld := ⟨8, 8⟩
def Fl.LANE_FOM_CFG_LOCK_FOM : Fld := ⟨0, 8⟩
def Fl.LANE_ERR_LOCKLOSS : Fld := ⟨24, 8⟩
def Fl.LANE_ERR_ALARMS : Fld := ⟨16, 8⟩
def Fl.LANE_ERR_UNDER : Fld := ⟨0, 16⟩
def Fl.ETH_MODE_MISS : Fld := ⟨24, 1⟩
def Fl.ETH_MODE_PORTEN : Fld := ⟨16, 4⟩
def Fl.ETH_MODE_FEC25 : Fld := ⟨8, 4⟩
def Fl.ETH_MODE_SPEED : Fld := ⟨4, 4⟩
def Fl.ETH_MODE_MODE : Fld := ⟨0, 3⟩
def Fl.ETH_PORT_STRM_POS : Fld := ⟨16, 4⟩
def Fl.ETH_PORT_MAXLEN : Fld := ⟨0, 14⟩
def Fl.ETH_PSTAT_FECLOCK : Fld := ⟨3, 1⟩
def Fl.ETH_PSTAT_LFAULT : Fld := ⟨2, 1⟩
def Fl.ETH_PSTAT_RFAULT : Fld := ⟨1, 1⟩
def Fl.ETH_PSTAT_LINK : Fld := ⟨0, 1⟩
def Fl.ETH_KEY_EN : Fld := ⟨31, 1⟩
def Fl.ETH_KEY_SRC : Fld := ⟨0, 7⟩
def Fl.ETH_TXQ_FILL : Fld := ⟨8, 5⟩
def Fl.ETH_TXQ_PORT : Fld := ⟨0, 2⟩
def Fl.ETH_TXTS_0_VALUE : Fld := ⟨0, 32⟩
def Fl.ETH_TXTS_1_VALUE : Fld := ⟨0, 32⟩
def Fl.ETH_TXTS_2_VALID : Fld := ⟨31, 1⟩
def Fl.ETH_TXTS_2_PORT : Fld := ⟨28, 2⟩
def Fl.ETH_TXTS_2_SRC : Fld := ⟨24, 4⟩
def Fl.ETH_TXTS_2_ID : Fld := ⟨0, 24⟩
def Fl.ETH_TSADJ_RX : Fld := ⟨16, 16⟩
def Fl.ETH_TSADJ_TX : Fld := ⟨0, 16⟩
def Fl.ETH_STAT_NOGWK : Fld := ⟨24, 8⟩
def Fl.ETH_STAT_ENQFAIL : Fld := ⟨16, 8⟩
def Fl.ETH_STAT_TRUNC : Fld := ⟨8, 8⟩
def Fl.ETH_STAT_TSOVF : Fld := ⟨0, 8⟩
def Fl.PAD_BANK_MISMATCH : Fld := ⟨8, 1⟩
def Fl.PAD_BANK_SENSE : Fld := ⟨4, 2⟩
def Fl.PAD_BANK_VCCIO : Fld := ⟨0, 2⟩
def Fl.PAD_CFG_SAFE : Fld := ⟨14, 2⟩
def Fl.PAD_CFG_SCLK : Fld := ⟨12, 1⟩
def Fl.PAD_CFG_SER : Fld := ⟨10, 2⟩
def Fl.PAD_CFG_TERM : Fld := ⟨9, 1⟩
def Fl.PAD_CFG_SLEW : Fld := ⟨8, 1⟩
def Fl.PAD_CFG_DRIVE : Fld := ⟨6, 2⟩
def Fl.PAD_CFG_PULL : Fld := ⟨4, 2⟩
def Fl.PAD_CFG_STD : Fld := ⟨0, 3⟩
def Fl.BOOT_STAT_GCAUSE : Fld := ⟨28, 4⟩
def Fl.BOOT_STAT_PCAUSE : Fld := ⟨24, 4⟩
def Fl.BOOT_STAT_PATH : Fld := ⟨18, 2⟩
def Fl.BOOT_STAT_SOURCE : Fld := ⟨16, 2⟩
def Fl.BOOT_STAT_LIB : Fld := ⟨5, 1⟩
def Fl.BOOT_STAT_STATE : Fld := ⟨0, 4⟩
def Fl.BOOT_CAUSE_ARG_SECTION : Fld := ⟨22, 10⟩
def Fl.BOOT_CAUSE_ARG_G : Fld := ⟨14, 8⟩
def Fl.BOOT_CAUSE_ARG_FRAME : Fld := ⟨4, 10⟩
def Fl.BOOT_VER_VALUE : Fld := ⟨0, 32⟩
def Fl.BOOT_DONE_T_VALUE : Fld := ⟨0, 32⟩
def Fl.BOOT_FLASH_MATCH : Fld := ⟨10, 1⟩
def Fl.BOOT_FLASH_DEV1 : Fld := ⟨9, 1⟩
def Fl.BOOT_FLASH_DEV0 : Fld := ⟨8, 1⟩
def Fl.BOOT_FLASH_SIZE : Fld := ⟨0, 5⟩
def Fl.BOOT_REC_VALUE : Fld := ⟨0, 32⟩
def Fl.BOOT_LIB_RUNNING : Fld := ⟨31, 1⟩
def Fl.BOOT_LIB_FAILED : Fld := ⟨16, 8⟩
def Fl.BOOT_LIB_LEFT : Fld := ⟨0, 10⟩
def Fl.BOOT_IMP_ADDR_ADDR : Fld := ⟨6, 26⟩
def Fl.BOOT_IMP_ADDRH_ADDRH : Fld := ⟨0, 8⟩
def Fl.BOOT_IMP_CMD_HALL : Fld := ⟨13, 3⟩
def Fl.BOOT_IMP_CMD_G : Fld := ⟨8, 5⟩
def Fl.BOOT_IMP_CMD_SLOT : Fld := ⟨3, 5⟩
def Fl.BOOT_IMP_CMD_GO : Fld := ⟨0, 1⟩
def Fl.BOOT_IMP_STAT_BUSY : Fld := ⟨31, 1⟩
def Fl.BOOT_IMP_STAT_RESULT : Fld := ⟨0, 4⟩
def Fl.BOOT_SCRUB_CFG_EN : Fld := ⟨31, 1⟩
def Fl.BOOT_SCRUB_CFG_SB : Fld := ⟨8, 1⟩
def Fl.BOOT_SCRUB_CFG_INTERVAL : Fld := ⟨0, 8⟩
def Fl.BOOT_FADDR_FADDR : Fld := ⟨0, 30⟩
def Fl.BOOT_FCMD_KEY : Fld := ⟨8, 8⟩
def Fl.BOOT_FCMD_OP : Fld := ⟨1, 2⟩
def Fl.BOOT_FCMD_GO : Fld := ⟨0, 1⟩
def Fl.BOOT_FSTAT_BUSY : Fld := ⟨31, 1⟩
def Fl.BOOT_FSTAT_RESULT : Fld := ⟨0, 3⟩
def Fl.BOOT_FPROT_GOLDEN_WE : Fld := ⟨0, 1⟩
def Fl.BOOT_SCRUB_POS_KIND : Fld := ⟨30, 2⟩
def Fl.BOOT_SCRUB_POS_G : Fld := ⟨24, 5⟩
def Fl.BOOT_SCRUB_POS_SLOT : Fld := ⟨19, 5⟩
def Fl.BOOT_SCRUB_POS_PLANE : Fld := ⟨17, 2⟩
def Fl.BOOT_SCRUB_POS_FRAME : Fld := ⟨7, 10⟩
def Fl.BOOT_SCRUB_CNT_REPAIRED : Fld := ⟨24, 8⟩
def Fl.BOOT_SCRUB_CNT_BAD : Fld := ⟨16, 8⟩
def Fl.BOOT_SCRUB_CNT_CORR : Fld := ⟨0, 16⟩
def Fl.BOOT_SCRUB_ROUNDS_COUNT : Fld := ⟨0, 32⟩
def Fl.BOOT_FBUF_VALUE : Fld := ⟨0, 32⟩
def Fl.SEC_INFO_RB : Fld := ⟨24, 8⟩
def Fl.SEC_INFO_RBSPOILT : Fld := ⟨20, 4⟩
def Fl.SEC_INFO_SPOILT : Fld := ⟨12, 4⟩
def Fl.SEC_INFO_REVOKED : Fld := ⟨8, 4⟩
def Fl.SEC_INFO_PROGRAMMED : Fld := ⟨4, 4⟩
def Fl.SEC_INFO_LC : Fld := ⟨0, 2⟩
def Fl.SEC_LC_CMD_KEY : Fld := ⟨24, 8⟩
def Fl.SEC_LC_CMD_VALUE : Fld := ⟨16, 8⟩
def Fl.SEC_LC_CMD_SIGSLOT : Fld := ⟨14, 2⟩
def Fl.SEC_LC_CMD_SLOT : Fld := ⟨12, 2⟩
def Fl.SEC_LC_CMD_FORCE : Fld := ⟨11, 1⟩
def Fl.SEC_LC_CMD_OP : Fld := ⟨1, 3⟩
def Fl.SEC_LC_CMD_GO : Fld := ⟨0, 1⟩
def Fl.SEC_CMD_STAT_BUSY : Fld := ⟨31, 1⟩
def Fl.SEC_CMD_STAT_RESULT : Fld := ⟨0, 4⟩
def Fl.SEC_TAMP_CFG_HOLD : Fld := ⟨2, 1⟩
def Fl.SEC_TAMP_CFG_ZMEE : Fld := ⟨1, 1⟩
def Fl.SEC_TAMP_CFG_EN : Fld := ⟨0, 1⟩
def Fl.SEC_TAMP_STAT_LATCH : Fld := ⟨31, 1⟩
def Fl.SEC_TAMP_STAT_PIN : Fld := ⟨30, 1⟩
def Fl.SEC_TAMP_STAT_COUNT : Fld := ⟨0, 16⟩
def Fl.SEC_VAULT_STAT_WIPES : Fld := ⟨8, 16⟩
def Fl.SEC_VAULT_STAT_STATE : Fld := ⟨0, 2⟩
def Fl.SEC_JTAG_EXT_EN : Fld := ⟨0, 1⟩
def Fl.SEC_RNG_FAIL : Fld := ⟨0, 1⟩
def Fl.SEC_KEYBUF_VALUE : Fld := ⟨0, 32⟩
def Fl.SEC_CHAL_VALUE : Fld := ⟨0, 32⟩
def Fl.SEC_ATT_NONCE_VALUE : Fld := ⟨0, 32⟩
def Fl.SEC_ATT_CMD_GO : Fld := ⟨0, 1⟩
def Fl.SEC_ATT_STAT_BUSY : Fld := ⟨31, 1⟩
def Fl.SEC_ATT_STAT_DONE : Fld := ⟨0, 1⟩
def Fl.SEC_MRX_VALUE : Fld := ⟨0, 32⟩
def Fl.SEC_MRX_CMD_J : Fld := ⟨1, 3⟩
def Fl.SEC_MRX_CMD_GO : Fld := ⟨0, 1⟩
def Fl.SEC_VPART_VALID : Fld := ⟨31, 1⟩
def Fl.SEC_VPART_RDONLY : Fld := ⟨30, 1⟩
def Fl.SEC_VPART_PLANES : Fld := ⟨8, 4⟩
def Fl.SEC_VPART_G : Fld := ⟨0, 8⟩
def Fl.SEC_ID_VALUE : Fld := ⟨0, 32⟩
def Fl.SEC_SIGBUF_VALUE : Fld := ⟨0, 32⟩
def Fl.SEC_CERT_VALUE : Fld := ⟨0, 32⟩
def Fl.CLK_STAT_OSCDLY : Fld := ⟨4, 2⟩
def Fl.CLK_STAT_TB_HELD : Fld := ⟨1, 1⟩
def Fl.CLK_STAT_REF_OK : Fld := ⟨0, 1⟩
def Fl.CLK_TB_FREQ_VALUE : Fld := ⟨0, 32⟩
def Fl.CLK_TB_STEP_VALUE : Fld := ⟨0, 32⟩
def Fl.CLK_TB_SET_LO_VALUE : Fld := ⟨0, 32⟩
def Fl.CLK_TB_SET_HI_VALUE : Fld := ⟨0, 16⟩
def Fl.CLK_TB_NOW_LO_VALUE : Fld := ⟨0, 32⟩
def Fl.CLK_TB_NOW_HI_VALUE : Fld := ⟨0, 16⟩
def Fl.HCLK_MODE_MODE : Fld := ⟨0, 2⟩
def Fl.HCLK_STAT_PAD_LOCK : Fld := ⟨16, 4⟩
def Fl.HCLK_STAT_ETH_LOCK : Fld := ⟨12, 4⟩
def Fl.HCLK_STAT_LREF_OK : Fld := ⟨8, 4⟩
def Fl.HCLK_STAT_PLL_LOCK : Fld := ⟨0, 6⟩
def Fl.HCLK_PLL_N : Fld := ⟨24, 6⟩
def Fl.HCLK_PLL_F : Fld := ⟨0, 24⟩
def Fl.HCLK_PLLOUT_EN : Fld := ⟨31, 1⟩
def Fl.HCLK_PLLOUT_D : Fld := ⟨0, 8⟩
def Fl.HCLK_LREF_SRC : Fld := ⟨0, 1⟩
def Fl.HCLK_PAD_EN : Fld := ⟨31, 1⟩
def Fl.HCLK_PAD_SRC : Fld := ⟨0, 5⟩
def Fl.HCLK_DIV_DIV : Fld := ⟨0, 2⟩
def Fl.PWR_CFG_ADM_TO : Fld := ⟨0, 8⟩
def Fl.PWR_BUDGET_BUDGET : Fld := ⟨0, 20⟩
def Fl.PWR_USED_USED : Fld := ⟨0, 21⟩
def Fl.PWR_CMD_HALL : Fld := ⟨12, 3⟩
def Fl.PWR_CMD_DOM : Fld := ⟨3, 7⟩
def Fl.PWR_CMD_OP : Fld := ⟨1, 2⟩
def Fl.PWR_CMD_GO : Fld := ⟨0, 1⟩
def Fl.PWR_CMD_STAT_BUSY : Fld := ⟨31, 1⟩
def Fl.PWR_CMD_STAT_RESULT : Fld := ⟨0, 3⟩
def Fl.PWR_STOP_DRAIN : Fld := ⟨0, 8⟩
def Fl.PWR_QSTAT_KIND : Fld := ⟨16, 4⟩
def Fl.PWR_QSTAT_WAITING : Fld := ⟨0, 7⟩
def Fl.PWR_COST_COST100 : Fld := ⟨16, 16⟩
def Fl.PWR_COST_COST25 : Fld := ⟨0, 16⟩
def Fl.PWR_HCAP_CAP : Fld := ⟨0, 20⟩
def Fl.PWR_HBASE_BASE : Fld := ⟨0, 20⟩
def Fl.PWR_HUSED_USED : Fld := ⟨0, 20⟩
def Fl.PWR_DSTAT_STATE : Fld := ⟨0, 3⟩
def Fl.THERM_CFG_STOP_LEAD : Fld := ⟨16, 8⟩
def Fl.THERM_CFG_FAST : Fld := ⟨8, 4⟩
def Fl.THERM_CFG_PERIOD : Fld := ⟨0, 8⟩
def Fl.THERM_OFS_LM : Fld := ⟨16, 8⟩
def Fl.THERM_OFS_ML : Fld := ⟨8, 8⟩
def Fl.THERM_OFS_FM : Fld := ⟨0, 8⟩
def Fl.THERM_MEAS_HALLS : Fld := ⟨0, 8⟩
def Fl.THERM_CURVE_DENY : Fld := ⟨16, 16⟩
def Fl.THERM_CURVE_MAX_BUSY : Fld := ⟨8, 6⟩
def Fl.THERM_CURVE_DIV : Fld := ⟨0, 2⟩
def Fl.THERM_HALL_BUSY : Fld := ⟨31, 1⟩
def Fl.THERM_HALL_SUSPECTS : Fld := ⟨16, 5⟩
def Fl.THERM_HALL_SHUTDOWN : Fld := ⟨15, 1⟩
def Fl.THERM_HALL_STOPPING : Fld := ⟨14, 1⟩
def Fl.THERM_HALL_STEP : Fld := ⟨12, 2⟩
def Fl.THERM_HALL_THROTTLE : Fld := ⟨11, 1⟩
def Fl.THERM_HALL_WARN : Fld := ⟨10, 1⟩
def Fl.THERM_HALL_H : Fld := ⟨0, 10⟩
def Fl.THERM_HBM_SHUTDOWN : Fld := ⟨10, 1⟩
def Fl.THERM_HBM_THROTTLE : Fld := ⟨9, 1⟩
def Fl.THERM_HBM_WARN : Fld := ⟨8, 1⟩
def Fl.THERM_HBM_TEMP : Fld := ⟨0, 8⟩
def Fl.THERM_T_VALID : Fld := ⟨31, 1⟩
def Fl.THERM_T_EVER : Fld := ⟨29, 1⟩
def Fl.THERM_T_SUSPECT : Fld := ⟨28, 1⟩
def Fl.THERM_T_EFF : Fld := ⟨16, 10⟩
def Fl.THERM_T_RAW : Fld := ⟨0, 10⟩
def Fl.CAL_CFG_REC_EN : Fld := ⟨17, 1⟩
def Fl.CAL_CFG_AUTO : Fld := ⟨16, 1⟩
def Fl.CAL_CFG_WATCH : Fld := ⟨8, 8⟩
def Fl.CAL_CFG_DELTA : Fld := ⟨0, 5⟩
def Fl.CAL_CTRL_SAVE : Fld := ⟨8, 1⟩
def Fl.CAL_CTRL_RUN_HALL : Fld := ⟨0, 8⟩
def Fl.CAL_STAT_SAVING : Fld := ⟨31, 1⟩
def Fl.CAL_STAT_SAVE_RESULT : Fld := ⟨28, 3⟩
def Fl.CAL_STAT_COLD : Fld := ⟨16, 8⟩
def Fl.CAL_STAT_RUNNING : Fld := ⟨0, 8⟩
def Fl.CAL_REC_VALUE : Fld := ⟨0, 32⟩
def Fl.CAL_HTEMP_T_CAL : Fld := ⟨16, 10⟩
def Fl.CAL_HTEMP_RUNS : Fld := ⟨0, 16⟩
def Fl.CAL_HSTAT_MOVED : Fld := ⟨24, 8⟩
def Fl.CAL_HSTAT_IDLE : Fld := ⟨16, 8⟩
def Fl.CAL_HSTAT_LIMIT : Fld := ⟨8, 8⟩
def Fl.CAL_HSTAT_LOWMARGIN : Fld := ⟨0, 8⟩
def Fl.CAL_STEMP_T_CAL : Fld := ⟨16, 10⟩
def Fl.CAL_STEMP_RUNS : Fld := ⟨0, 16⟩
def Fl.CAL_HBM_MARGIN : Fld := ⟨16, 8⟩
def Fl.CAL_HBM_WR_CODE : Fld := ⟨8, 6⟩
def Fl.CAL_HBM_RD_CODE : Fld := ⟨0, 6⟩
def Fl.CAL_LSEED_VALUE : Fld := ⟨0, 32⟩
def Fl.BIST_CMD_KEY : Fld := ⟨24, 8⟩
def Fl.BIST_CMD_HALLS : Fld := ⟨16, 8⟩
def Fl.BIST_CMD_UNITS : Fld := ⟨8, 6⟩
def Fl.BIST_CMD_MODE : Fld := ⟨1, 1⟩
def Fl.BIST_CMD_GO : Fld := ⟨0, 1⟩
def Fl.BIST_STAT_BUSY : Fld := ⟨31, 1⟩
def Fl.BIST_STAT_UNIT : Fld := ⟨24, 3⟩
def Fl.BIST_STAT_LOGGED : Fld := ⟨16, 8⟩
def Fl.BIST_STAT_RESULT : Fld := ⟨0, 4⟩
def Fl.BIST_GSEL_VALUE : Fld := ⟨0, 32⟩
def Fl.BIST_VMON_OK : Fld := ⟨31, 1⟩
def Fl.BIST_VMON_MV : Fld := ⟨0, 12⟩
def Fl.BIST_UNIT_OUTCOME : Fld := ⟨30, 2⟩
def Fl.BIST_UNIT_HALLS : Fld := ⟨16, 8⟩
def Fl.BIST_UNIT_FAILS : Fld := ⟨0, 16⟩
def Fl.BIST_FIDX_IDX : Fld := ⟨0, 6⟩
def Fl.BIST_FLOG_0_VALID : Fld := ⟨31, 1⟩
def Fl.BIST_FLOG_0_UNIT : Fld := ⟨28, 3⟩
def Fl.BIST_FLOG_0_HALL : Fld := ⟨25, 3⟩
def Fl.BIST_FLOG_0_G : Fld := ⟨20, 5⟩
def Fl.BIST_FLOG_1_VALUE : Fld := ⟨0, 32⟩
def Fl.BIST_FLOG_2_VALUE : Fld := ⟨0, 32⟩
def Fl.BIST_PATH_SEQ : Fld := ⟨8, 24⟩
def Fl.BIST_PATH_REASON : Fld := ⟨0, 4⟩
def Fl.SYS_ID_VALUE : Fld := ⟨0, 32⟩
def Fl.SYS_EVCFG_ATTN : Fld := ⟨0, 2⟩
def Fl.SYS_EVSTAT_OVF : Fld := ⟨16, 16⟩
def Fl.SYS_EVSTAT_CRIT : Fld := ⟨15, 1⟩
def Fl.SYS_EVSTAT_COUNT : Fld := ⟨0, 9⟩
def Fl.SYS_EV_VALUE : Fld := ⟨0, 32⟩
def Fl.SYS_RSTINFO_WARMS : Fld := ⟨16, 16⟩
def Fl.SYS_RSTINFO_CAUSE : Fld := ⟨0, 3⟩
def Fl.SYS_PORT_HCRC : Fld := ⟨24, 8⟩
def Fl.SYS_PORT_DCRC : Fld := ⟨16, 8⟩
def Fl.SYS_PORT_REJECT : Fld := ⟨8, 8⟩
def Fl.SYS_PORT_ABANDONED : Fld := ⟨0, 8⟩
def Fl.ETH_RXF_COUNT : Fld := ⟨0, 32⟩
def Fl.ETH_RXDROP_COUNT : Fld := ⟨0, 32⟩
def Fl.ETH_RXMISS_COUNT : Fld := ⟨0, 32⟩
def Fl.ETH_TXF_COUNT : Fld := ⟨0, 32⟩
def Fl.ETH_TXDROP_COUNT : Fld := ⟨0, 32⟩
def Fl.ETH_FECC_COUNT : Fld := ⟨0, 32⟩
def Fl.ETH_FECU_COUNT : Fld := ⟨0, 32⟩
def Fl.ETH_CL_MATCH_VALUE : Fld := ⟨0, 32⟩
def Fl.ETH_CL_MASK_VALUE : Fld := ⟨0, 32⟩
def Fl.ETH_CL_ACT_EN : Fld := ⟨31, 1⟩
def Fl.ETH_CL_ACT_ACT : Fld := ⟨29, 2⟩
def Fl.ETH_CL_ACT_PORTS : Fld := ⟨25, 4⟩
def Fl.ETH_CL_ACT_RXTS : Fld := ⟨24, 1⟩
def Fl.ETH_CL_ACT_ITEM : Fld := ⟨23, 1⟩
def Fl.ETH_CL_ACT_PROF_EN : Fld := ⟨22, 1⟩
def Fl.ETH_CL_ACT_PROF : Fld := ⟨18, 4⟩
def Fl.ETH_CL_ACT_BUFSZ : Fld := ⟨16, 2⟩
def Fl.ETH_CL_ACT_OFS : Fld := ⟨0, 7⟩
def Fl.ETH_CL_ADDR_ADDR : Fld := ⟨6, 26⟩
def Fl.ETH_CL_ADDRH_ADDRH : Fld := ⟨0, 8⟩
def Fl.ETH_CL_BUF_FLUSH : Fld := ⟨16, 16⟩
def Fl.ETH_CL_BUF_CNT : Fld := ⟨0, 12⟩
def Fl.ETH_CL_ITEM_CLASS : Fld := ⟨12, 6⟩
def Fl.ETH_CL_ITEM_FLOW : Fld := ⟨0, 12⟩
def Fl.ETH_CL_HITS_HITS : Fld := ⟨16, 16⟩
def Fl.ETH_CL_HITS_QLOSS : Fld := ⟨0, 16⟩
def Fl.ETH_CL_NEXT_NEXT : Fld := ⟨0, 12⟩
def Fl.LENS_IREQ_VALUE : Fld := ⟨0, 32⟩
def Fl.LENS_IUNITS_VALUE : Fld := ⟨0, 32⟩
def Fl.LENS_ILMIN_VALUE : Fld := ⟨0, 32⟩
def Fl.LENS_ILMAX_VALUE : Fld := ⟨0, 32⟩
def Fl.LENS_ILSUM_LO_VALUE : Fld := ⟨0, 32⟩
def Fl.LENS_ILSUM_HI_VALUE : Fld := ⟨0, 32⟩
def Fl.LENS_IERR_VALUE : Fld := ⟨0, 32⟩
def Fl.LENS_IHIST_VALUE : Fld := ⟨0, 32⟩

end Sys2Proof
end

