-- ==== Sys2Proof/Machine/RegMap.lean ====
section
/-!
DEFINITION. Machine/RegMap.lean: the register map: for every block its registers, their index strides, reset values, fields,
access codes and reserved encodings, as the register lists of the chapters give them (R16 to R18, R32, R33), and where a
management address lies in that map.
-/
namespace Sys2Proof

/-- A field of a register: lowest bit, width, access code, and the reserved encodings as closed intervals (R16, R18). -/
structure FldRow where
  lo : Nat
  width : Nat
  acc : Access
  resv : List (Nat × Nat)

/-- A register of a block: offset, indices as (count, stride), reset value by unit and indices, fields. -/
structure RegRow where
  off : Nat
  dims : List (Nat × Nat)
  rst : Nat → List Nat → Nat
  flds : List FldRow

/-- The blocks of management space (R32). -/
inductive Block where
  | sys | boot | sec | pwr | therm | cal | bist | clk
  | hall | omist | lens | gweak | hbmc | mee | lane | eth | pad | hclk | gal
  deriving DecidableEq, Repr

/-- Where an address lies: the block, its unit (the hall; G for a GAL block; 0 for package blocks) and the offset in it. -/
structure Loc where
  block : Block
  unit : Nat
  off : Nat
  deriving DecidableEq, Repr

/-- The stack attached to a hall with a memory port (R26); 0 for other halls. -/
def stackOfHall (h : Nat) : Nat := if h = 3 then 1 else if h = 4 then 2 else if h = 7 then 3 else 0

/-- The hall to which a stack attaches (R26). -/
def hallOfStack (m : Nat) : Nat := if m = 0 then 0 else if m = 1 then 3 else if m = 2 then 4 else 7

/-- A hall with a memory port (R26). -/
def hasPort (h : Nat) : Bool := h == 0 || h == 3 || h == 4 || h == 7

/-- The corridor number on side k of hall h (k = 0 west, 1 east, 2 vertical), or none (R27). -/
def corridorOf (h k : Nat) : Option Nat :=
  let c := h % 4
  let r := h / 4
  if k = 0 then (if c = 0 then none else some (3 * r + c - 1))
  else if k = 1 then (if c = 3 then none else some (3 * r + c))
  else if k = 2 then some (6 + c) else none

/-- The side of the far hall on which the same corridor ends (R27). -/
def farSide (k : Nat) : Nat := if k = 0 then 1 else if k = 1 then 0 else 2

/-- HALL_INFO by hall. -/
def infoHall (h : Nat) : Nat :=
  0xC040 + (if h % 4 = 3 then 0 else 0x20) + (if h % 4 = 0 then 0 else 0x10) + (if hasPort h then 8 else 0) + h

/-- CORR_STAT_k by hall: the corridor number and no spare use, or 0x0007_000F for an absent corridor. -/
def corrStatReset (h k : Nat) : Nat := 0x00070000 + (corridorOf h k).getD 0xF

/-- GAL_INFO by gallery (R25; edge galleries lie in columns 0 and 7). -/
def infoGal (G : Nat) : Nat :=
  (if G % 8 = 0 ∨ G % 8 = 7 then 0x800 else 0) + (G / 32) * 256 + G

/-- PWR_COST_k by kind, units of 10 mW: COST100 in bits 31:16, COST25 in bits 15:0 (R420). -/
def costReset (k : Nat) : Nat :=
  let t : List (Nat × Nat) := [(140, 170), (22, 30), (18, 26), (200, 260), (220, 250), (300, 330), (120, 140), (400, 460),
    (2000, 2200), (600, 650), (3000, 3400), (150, 170), (1100, 1300)]
  let c := t.getD k (0, 0)
  c.2 * 65536 + c.1

/-- THERM_CURVE_k by step. -/
def curveReset (k : Nat) : Nat :=
  [0x0C171801, 0x0E1F1002, 0x0FFF0803, 0x1FFF0003].getD k 0

/-- PWR_DSTAT_h_d before a start has powered the domain: OFF, or ABSENT where no such domain exists (R417). -/
def dstatReset (h d : Nat) : Nat := if d = 71 && !hasPort h then 6 else 0

/-- Registers of block sys. -/
def rows_sys : List RegRow := [
  -- SYS_CAP
  ⟨16, [], fun _ _ => 0x08040800,
    [⟨20, 8, .ro, []⟩, ⟨16, 4, .ro, []⟩, ⟨8, 8, .ro, []⟩, ⟨2, 2, .ro, []⟩, ⟨1, 1, .ro, []⟩, ⟨0, 1, .ro, []⟩]⟩,
  -- SYS_ID
  ⟨0, [], fun _ _ => 0xc8e8035,
    [⟨0, 32, .ro, []⟩]⟩,
  -- SYS_EVCFG
  ⟨256, [], fun _ _ => 0x0,
    [⟨0, 2, .rw, []⟩]⟩,
  -- SYS_EVSTAT
  ⟨260, [], fun _ _ => 0x0,
    [⟨16, 16, .rc, []⟩, ⟨15, 1, .w1c, []⟩, ⟨0, 9, .ro, []⟩]⟩,
  -- SYS_EV
  ⟨272, [(4, 4)], fun _ _ => 0x0,
    [⟨0, 32, .ro, []⟩]⟩,
  -- SYS_RSTINFO
  ⟨512, [], fun _ _ => 0,
    [⟨16, 16, .ro, []⟩, ⟨0, 3, .ro, []⟩]⟩,
  -- SYS_PORT
  ⟨768, [], fun _ _ => 0x0,
    [⟨24, 8, .rc, []⟩, ⟨16, 8, .rc, []⟩, ⟨8, 8, .rc, []⟩, ⟨0, 8, .rc, []⟩]⟩]

/-- Registers of block boot. -/
def rows_boot : List RegRow := [
  -- BOOT_STAT
  ⟨0, [], fun _ _ => 0x0,
    [⟨28, 4, .ro, []⟩, ⟨24, 4, .ro, []⟩, ⟨18, 2, .ro, []⟩, ⟨16, 2, .ro, []⟩, ⟨5, 1, .ro, []⟩, ⟨0, 4, .ro, []⟩]⟩,
  -- BOOT_CAUSE_ARG
  ⟨4, [], fun _ _ => 0x0,
    [⟨22, 10, .ro, []⟩, ⟨14, 8, .ro, []⟩, ⟨4, 10, .ro, []⟩]⟩,
  -- BOOT_VER
  ⟨8, [], fun _ _ => 0x0,
    [⟨0, 32, .ro, []⟩]⟩,
  -- BOOT_DONE_T
  ⟨12, [], fun _ _ => 0x0,
    [⟨0, 32, .ro, []⟩]⟩,
  -- BOOT_FLASH
  ⟨16, [], fun _ _ => 0x0,
    [⟨10, 1, .ro, []⟩, ⟨9, 1, .ro, []⟩, ⟨8, 1, .ro, []⟩, ⟨0, 5, .ro, []⟩]⟩,
  -- BOOT_REC
  ⟨20, [], fun _ _ => 0x0,
    [⟨0, 32, .ro, []⟩]⟩,
  -- BOOT_LIB
  ⟨24, [], fun _ _ => 0x0,
    [⟨31, 1, .ro, []⟩, ⟨16, 8, .rc, []⟩, ⟨0, 10, .ro, []⟩]⟩,
  -- BOOT_IMP_ADDR
  ⟨64, [], fun _ _ => 0x0,
    [⟨6, 26, .rw, []⟩]⟩,
  -- BOOT_IMP_ADDRH
  ⟨68, [], fun _ _ => 0x0,
    [⟨0, 8, .rw, []⟩]⟩,
  -- BOOT_IMP_CMD
  ⟨72, [], fun _ _ => 0x0,
    [⟨13, 3, .wo, []⟩, ⟨8, 5, .wo, []⟩, ⟨3, 5, .wo, []⟩, ⟨0, 1, .wo, []⟩]⟩,
  -- BOOT_IMP_STAT
  ⟨76, [], fun _ _ => 0x0,
    [⟨31, 1, .ro, []⟩, ⟨0, 4, .ro, []⟩]⟩,
  -- BOOT_SCRUB_CFG
  ⟨128, [], fun _ _ => 0x8,
    [⟨31, 1, .rw, []⟩, ⟨8, 1, .rw, []⟩, ⟨0, 8, .rw, [(0, 1)]⟩]⟩,
  -- BOOT_FADDR
  ⟨192, [], fun _ _ => 0x0,
    [⟨0, 30, .rw, []⟩]⟩,
  -- BOOT_FCMD
  ⟨196, [], fun _ _ => 0x0,
    [⟨8, 8, .wo, []⟩, ⟨1, 2, .wo, []⟩, ⟨0, 1, .wo, []⟩]⟩,
  -- BOOT_FSTAT
  ⟨200, [], fun _ _ => 0x0,
    [⟨31, 1, .ro, []⟩, ⟨0, 3, .ro, []⟩]⟩,
  -- BOOT_FPROT
  ⟨204, [], fun _ _ => 0x0,
    [⟨0, 1, .rw, []⟩]⟩,
  -- BOOT_SCRUB_POS
  ⟨512, [(8, 16)], fun _ _ => 0x0,
    [⟨30, 2, .ro, []⟩, ⟨24, 5, .ro, []⟩, ⟨19, 5, .ro, []⟩, ⟨17, 2, .ro, []⟩, ⟨7, 10, .ro, []⟩]⟩,
  -- BOOT_SCRUB_CNT
  ⟨516, [(8, 16)], fun _ _ => 0x0,
    [⟨24, 8, .rc, []⟩, ⟨16, 8, .rc, []⟩, ⟨0, 16, .rc, []⟩]⟩,
  -- BOOT_SCRUB_ROUNDS
  ⟨520, [(8, 16)], fun _ _ => 0x0,
    [⟨0, 32, .rc, []⟩]⟩,
  -- BOOT_FBUF
  ⟨1024, [(64, 4)], fun _ _ => 0x0,
    [⟨0, 32, .rw, []⟩]⟩]

/-- Registers of block sec. -/
def rows_sec : List RegRow := [
  -- SEC_INFO
  ⟨0, [], fun _ _ => 0,
    [⟨24, 8, .ro, []⟩, ⟨20, 4, .ro, []⟩, ⟨12, 4, .ro, []⟩, ⟨8, 4, .ro, []⟩, ⟨4, 4, .ro, []⟩, ⟨0, 2, .ro, []⟩]⟩,
  -- SEC_LC_CMD
  ⟨4, [], fun _ _ => 0x0,
    [⟨24, 8, .wo, []⟩, ⟨16, 8, .wo, []⟩, ⟨14, 2, .wo, []⟩, ⟨12, 2, .wo, []⟩, ⟨11, 1, .wo, []⟩, ⟨1, 3, .wo, []⟩, ⟨0, 1, .wo, []⟩]⟩,
  -- SEC_CMD_STAT
  ⟨8, [], fun _ _ => 0x0,
    [⟨31, 1, .ro, []⟩, ⟨0, 4, .ro, []⟩]⟩,
  -- SEC_TAMP_CFG
  ⟨16, [], fun _ _ => 0x1,
    [⟨2, 1, .rw, []⟩, ⟨1, 1, .rw, []⟩, ⟨0, 1, .rw, []⟩]⟩,
  -- SEC_TAMP_STAT
  ⟨20, [], fun _ _ => 0x0,
    [⟨31, 1, .w1c, []⟩, ⟨30, 1, .ro, []⟩, ⟨0, 16, .rc, []⟩]⟩,
  -- SEC_VAULT_STAT
  ⟨24, [], fun _ _ => 0x0,
    [⟨8, 16, .ro, []⟩, ⟨0, 2, .ro, []⟩]⟩,
  -- SEC_JTAG
  ⟨32, [], fun _ _ => 0x0,
    [⟨0, 1, .rw, []⟩]⟩,
  -- SEC_RNG
  ⟨36, [], fun _ _ => 0x0,
    [⟨0, 1, .ro, []⟩]⟩,
  -- SEC_KEYBUF
  ⟨64, [(8, 4)], fun _ _ => 0x0,
    [⟨0, 32, .rw, []⟩]⟩,
  -- SEC_CHAL
  ⟨96, [(8, 4)], fun _ _ => 0,
    [⟨0, 32, .ro, []⟩]⟩,
  -- SEC_ATT_NONCE
  ⟨128, [(8, 4)], fun _ _ => 0x0,
    [⟨0, 32, .rw, []⟩]⟩,
  -- SEC_ATT_CMD
  ⟨160, [], fun _ _ => 0,
    [⟨0, 1, .wo, []⟩]⟩,
  -- SEC_ATT_STAT
  ⟨164, [], fun _ _ => 0x0,
    [⟨31, 1, .ro, []⟩, ⟨0, 1, .ro, []⟩]⟩,
  -- SEC_MRX
  ⟨192, [(16, 4)], fun _ _ => 0,
    [⟨0, 32, .wo, []⟩]⟩,
  -- SEC_MRX_CMD
  ⟨256, [], fun _ _ => 0,
    [⟨1, 3, .wo, []⟩, ⟨0, 1, .wo, []⟩]⟩,
  -- SEC_VPART
  ⟨320, [(16, 4)], fun _ _ => 0x0,
    [⟨31, 1, .rw, []⟩, ⟨30, 1, .rw, []⟩, ⟨8, 4, .rw, []⟩, ⟨0, 8, .rw, []⟩]⟩,
  -- SEC_ID
  ⟨512, [(8, 4)], fun _ _ => 0,
    [⟨0, 32, .ro, []⟩]⟩,
  -- SEC_SIGBUF
  ⟨4096, [(7448, 4)], fun _ _ => 0,
    [⟨0, 32, .wo, []⟩]⟩,
  -- SEC_CERT
  ⟨34816, [(7512, 4)], fun _ _ => 0,
    [⟨0, 32, .ro, []⟩]⟩]

/-- Registers of block pwr. -/
def rows_pwr : List RegRow := [
  -- PWR_CFG
  ⟨0, [], fun _ _ => 0x5,
    [⟨0, 8, .rw, [(0, 0)]⟩]⟩,
  -- PWR_BUDGET
  ⟨4, [], fun _ _ => 0xaae60,
    [⟨0, 20, .rw, []⟩]⟩,
  -- PWR_USED
  ⟨8, [], fun _ _ => 0x0,
    [⟨0, 21, .ro, []⟩]⟩,
  -- PWR_CMD
  ⟨16, [], fun _ _ => 0x0,
    [⟨12, 3, .wo, []⟩, ⟨3, 7, .wo, []⟩, ⟨1, 2, .wo, []⟩, ⟨0, 1, .wo, []⟩]⟩,
  -- PWR_CMD_STAT
  ⟨20, [], fun _ _ => 0x0,
    [⟨31, 1, .ro, []⟩, ⟨0, 3, .ro, []⟩]⟩,
  -- PWR_STOP
  ⟨24, [], fun _ _ => 0x14,
    [⟨0, 8, .rw, [(0, 0), (201, 255)]⟩]⟩,
  -- PWR_QSTAT
  ⟨28, [], fun _ _ => 0x0,
    [⟨16, 4, .ro, []⟩, ⟨0, 7, .ro, []⟩]⟩,
  -- PWR_COST
  ⟨256, [(16, 4)], fun _ ix => costReset (ix.getD 0 0),
    [⟨16, 16, .rw, []⟩, ⟨0, 16, .rw, []⟩]⟩,
  -- PWR_HCAP
  ⟨512, [(8, 16)], fun _ _ => 0x15f90,
    [⟨0, 20, .rw, []⟩]⟩,
  -- PWR_HBASE
  ⟨516, [(8, 16)], fun _ _ => 0x0,
    [⟨0, 20, .rw, []⟩]⟩,
  -- PWR_HUSED
  ⟨520, [(8, 16)], fun _ _ => 0x0,
    [⟨0, 20, .ro, []⟩]⟩,
  -- PWR_DSTAT
  ⟨4096, [(8, 512), (72, 4)], fun _ ix => dstatReset (ix.getD 0 0) (ix.getD 1 0),
    [⟨0, 3, .ro, []⟩]⟩]

/-- Registers of block therm. -/
def rows_therm : List RegRow := [
  -- THERM_CFG
  ⟨0, [], fun _ _ => 0xa010a,
    [⟨16, 8, .rw, [(0, 4)]⟩, ⟨8, 4, .rw, [(0, 0)]⟩, ⟨0, 8, .rw, []⟩]⟩,
  -- THERM_OFS
  ⟨4, [], fun _ _ => 0x180404,
    [⟨16, 8, .rw, []⟩, ⟨8, 8, .rw, []⟩, ⟨0, 8, .rw, []⟩]⟩,
  -- THERM_MEAS
  ⟨8, [], fun _ _ => 0,
    [⟨0, 8, .wo, []⟩]⟩,
  -- THERM_CURVE
  ⟨16, [(4, 4)], fun _ ix => curveReset (ix.getD 0 0),
    [⟨16, 16, .rw, []⟩, ⟨8, 6, .rw, [(33, 63)]⟩, ⟨0, 2, .rw, []⟩]⟩,
  -- THERM_HALL
  ⟨256, [(8, 4)], fun _ _ => 0x0,
    [⟨31, 1, .ro, []⟩, ⟨16, 5, .ro, []⟩, ⟨15, 1, .ro, []⟩, ⟨14, 1, .ro, []⟩, ⟨12, 2, .ro, []⟩, ⟨11, 1, .ro, []⟩, ⟨10, 1, .ro, []⟩, ⟨0, 10, .ro, []⟩]⟩,
  -- THERM_HBM
  ⟨320, [(4, 4)], fun _ _ => 0x0,
    [⟨10, 1, .ro, []⟩, ⟨9, 1, .ro, []⟩, ⟨8, 1, .ro, []⟩, ⟨0, 8, .ro, []⟩]⟩,
  -- THERM_T
  ⟨4096, [(8, 128), (32, 4)], fun _ _ => 0x0,
    [⟨31, 1, .ro, []⟩, ⟨29, 1, .w1c, []⟩, ⟨28, 1, .ro, []⟩, ⟨16, 10, .ro, []⟩, ⟨0, 10, .ro, []⟩]⟩]

/-- Registers of block cal. -/
def rows_cal : List RegRow := [
  -- CAL_CFG
  ⟨0, [], fun _ _ => 0x30a08,
    [⟨17, 1, .rw, []⟩, ⟨16, 1, .rw, []⟩, ⟨8, 8, .rw, [(0, 0)]⟩, ⟨0, 5, .rw, [(0, 1), (21, 31)]⟩]⟩,
  -- CAL_CTRL
  ⟨4, [], fun _ _ => 0x0,
    [⟨8, 1, .wo, []⟩, ⟨0, 8, .wo, []⟩]⟩,
  -- CAL_STAT
  ⟨8, [], fun _ _ => 0x0,
    [⟨31, 1, .ro, []⟩, ⟨28, 3, .ro, []⟩, ⟨16, 8, .ro, []⟩, ⟨0, 8, .ro, []⟩]⟩,
  -- CAL_REC
  ⟨12, [], fun _ _ => 0x0,
    [⟨0, 32, .ro, []⟩]⟩,
  -- CAL_HTEMP
  ⟨256, [(8, 16)], fun _ _ => 0x0,
    [⟨16, 10, .ro, []⟩, ⟨0, 16, .rc, []⟩]⟩,
  -- CAL_HSTAT
  ⟨260, [(8, 16)], fun _ _ => 0x0,
    [⟨24, 8, .ro, []⟩, ⟨16, 8, .ro, []⟩, ⟨8, 8, .ro, []⟩, ⟨0, 8, .ro, []⟩]⟩,
  -- CAL_STEMP
  ⟨384, [(4, 4)], fun _ _ => 0x0,
    [⟨16, 10, .ro, []⟩, ⟨0, 16, .rc, []⟩]⟩,
  -- CAL_HBM
  ⟨4096, [(4, 1024), (160, 4)], fun _ _ => 0x2020,
    [⟨16, 8, .ro, []⟩, ⟨8, 6, .ro, []⟩, ⟨0, 6, .ro, []⟩]⟩,
  -- CAL_LSEED
  ⟨16384, [(128, 16), (3, 4)], fun _ ix => if ix.getD 1 0 = 2 then 0xFF000000 else 0,
    [⟨0, 32, .ro, []⟩]⟩]

/-- Registers of block bist. -/
def rows_bist : List RegRow := [
  -- BIST_CMD
  ⟨0, [], fun _ _ => 0x0,
    [⟨24, 8, .wo, []⟩, ⟨16, 8, .wo, []⟩, ⟨8, 6, .wo, []⟩, ⟨1, 1, .wo, []⟩, ⟨0, 1, .wo, []⟩]⟩,
  -- BIST_STAT
  ⟨4, [], fun _ _ => 0x7000000,
    [⟨31, 1, .ro, []⟩, ⟨24, 3, .ro, []⟩, ⟨16, 8, .ro, []⟩, ⟨0, 4, .ro, []⟩]⟩,
  -- BIST_GSEL
  ⟨16, [(8, 4)], fun _ _ => 0xffffffff,
    [⟨0, 32, .rw, []⟩]⟩,
  -- BIST_VMON
  ⟨64, [(4, 4)], fun _ _ => 0x0,
    [⟨31, 1, .ro, []⟩, ⟨0, 12, .ro, []⟩]⟩,
  -- BIST_UNIT
  ⟨96, [(6, 4)], fun _ _ => 0x0,
    [⟨30, 2, .ro, []⟩, ⟨16, 8, .ro, []⟩, ⟨0, 16, .ro, []⟩]⟩,
  -- BIST_FIDX
  ⟨256, [], fun _ _ => 0x0,
    [⟨0, 6, .rw, []⟩]⟩,
  -- BIST_FLOG_0
  ⟨260, [], fun _ _ => 0x0,
    [⟨31, 1, .ro, []⟩, ⟨28, 3, .ro, []⟩, ⟨25, 3, .ro, []⟩, ⟨20, 5, .ro, []⟩]⟩,
  -- BIST_FLOG_1
  ⟨264, [], fun _ _ => 0x0,
    [⟨0, 32, .ro, []⟩]⟩,
  -- BIST_FLOG_2
  ⟨268, [], fun _ _ => 0x0,
    [⟨0, 32, .ro, []⟩]⟩,
  -- BIST_PATH
  ⟨272, [], fun _ _ => 0x0,
    [⟨8, 24, .ro, []⟩, ⟨0, 4, .ro, []⟩]⟩]

/-- Registers of block clk. -/
def rows_clk : List RegRow := [
  -- CLK_STAT
  ⟨0, [], fun _ _ => 0,
    [⟨4, 2, .ro, []⟩, ⟨1, 1, .ro, []⟩, ⟨0, 1, .ro, []⟩]⟩,
  -- CLK_TB_FREQ
  ⟨16, [], fun _ _ => 0x0,
    [⟨0, 32, .rw, []⟩]⟩,
  -- CLK_TB_STEP
  ⟨20, [], fun _ _ => 0,
    [⟨0, 32, .wo, []⟩]⟩,
  -- CLK_TB_SET_LO
  ⟨24, [], fun _ _ => 0x0,
    [⟨0, 32, .rw, []⟩]⟩,
  -- CLK_TB_SET_HI
  ⟨28, [], fun _ _ => 0,
    [⟨0, 16, .wo, []⟩]⟩,
  -- CLK_TB_NOW_LO
  ⟨32, [], fun _ _ => 0,
    [⟨0, 32, .ro, []⟩]⟩,
  -- CLK_TB_NOW_HI
  ⟨36, [], fun _ _ => 0,
    [⟨0, 16, .ro, []⟩]⟩]

/-- Registers of block hall. -/
def rows_hall : List RegRow := [
  -- HALL_INFO
  ⟨0, [], fun u _ => infoHall u,
    [⟨8, 8, .ro, []⟩, ⟨6, 1, .ro, []⟩, ⟨5, 1, .ro, []⟩, ⟨4, 1, .ro, []⟩, ⟨3, 1, .ro, []⟩, ⟨0, 3, .ro, []⟩]⟩,
  -- FRST_CTRL
  ⟨16, [], fun _ _ => 0x0,
    [⟨8, 8, .wo, []⟩, ⟨0, 1, .wo, []⟩]⟩,
  -- FRST_STAT
  ⟨20, [], fun _ _ => 0x0,
    [⟨31, 1, .w1c, []⟩, ⟨8, 16, .ro, []⟩, ⟨0, 2, .ro, []⟩]⟩,
  -- HALL_FENCE
  ⟨32, [], fun _ _ => 0x0,
    [⟨0, 1, .rw, []⟩]⟩,
  -- CORR_CTRL
  ⟨64, [(3, 16)], fun _ _ => 0x100,
    [⟨16, 1, .wo, []⟩, ⟨8, 1, .rw, []⟩, ⟨0, 5, .rw, []⟩]⟩,
  -- CORR_STAT
  ⟨68, [(3, 16)], fun u ix => corrStatReset u (ix.getD 0 0),
    [⟨21, 1, .ro, []⟩, ⟨20, 1, .ro, []⟩, ⟨16, 3, .ro, []⟩, ⟨8, 5, .ro, []⟩, ⟨0, 4, .ro, []⟩]⟩,
  -- LAND_CFG
  ⟨256, [], fun _ _ => 0x4,
    [⟨0, 6, .rw, []⟩]⟩,
  -- LAND_ALARM
  ⟨272, [(6, 4)], fun _ _ => 0x0,
    [⟨0, 32, .w1c, []⟩]⟩,
  -- LAND
  ⟨1024, [(192, 4)], fun _ _ => 0x20,
    [⟨24, 8, .rc, []⟩, ⟨16, 6, .ro, []⟩, ⟨7, 1, .rw, []⟩, ⟨0, 6, .rw, []⟩]⟩,
  -- MEZZ_QUERY
  ⟨4096, [], fun _ _ => 0x0,
    [⟨0, 13, .rw, [(5120, 8191)]⟩]⟩,
  -- MEZZ_TRACK
  ⟨4100, [], fun _ _ => 0x0,
    [⟨17, 1, .ro, []⟩, ⟨16, 1, .ro, []⟩, ⟨8, 3, .ro, []⟩, ⟨5, 1, .ro, []⟩, ⟨0, 5, .ro, []⟩]⟩,
  -- MEZZ_CFG
  ⟨4104, [], fun _ _ => 0x6401,
    [⟨8, 8, .rw, []⟩, ⟨0, 1, .rw, []⟩]⟩,
  -- MEZZ_OFF
  ⟨4352, [(160, 4)], fun _ _ => 0x0,
    [⟨0, 32, .w1c, []⟩]⟩]

/-- Registers of block omist. -/
def rows_omist : List RegRow := [
  -- OMI_INFO
  ⟨0, [], fun u _ => 0x00022800 + u,
    [⟨16, 2, .ro, []⟩, ⟨8, 8, .ro, []⟩, ⟨0, 3, .ro, []⟩]⟩,
  -- OMI_CFG
  ⟨4, [], fun _ _ => 0x28006403,
    [⟨24, 8, .rw, [(0, 0)]⟩, ⟨8, 11, .rw, [(0, 0), (1601, 2047)]⟩, ⟨0, 6, .rw, []⟩]⟩,
  -- OMI_ERR
  ⟨8, [], fun _ _ => 0x0,
    [⟨24, 8, .rc, []⟩, ⟨16, 8, .rc, []⟩, ⟨8, 8, .rc, []⟩, ⟨0, 8, .rc, []⟩]⟩,
  -- OMI_WAKE_STAT
  ⟨12, [], fun _ _ => 0x0,
    [⟨24, 8, .rc, []⟩, ⟨16, 8, .rc, []⟩, ⟨0, 16, .rc, []⟩]⟩,
  -- OMI_LATE
  ⟨16, [], fun _ _ => 0x0,
    [⟨0, 32, .rc, []⟩]⟩,
  -- OMI_LQUERY
  ⟨32, [], fun _ _ => 0x0,
    [⟨0, 10, .rw, [(640, 1023)]⟩]⟩,
  -- OMI_LSTAT
  ⟨36, [], fun _ _ => 0,
    [⟨16, 16, .ro, []⟩, ⟨4, 3, .ro, []⟩, ⟨0, 2, .ro, []⟩]⟩,
  -- OMI_READMIT
  ⟨40, [], fun _ _ => 0x0,
    [⟨16, 1, .wo, []⟩, ⟨0, 10, .wo, []⟩]⟩,
  -- OMI_DEAD
  ⟨64, [(20, 4)], fun _ _ => 0x0,
    [⟨0, 32, .ro, []⟩]⟩,
  -- OMI_HDET
  ⟨256, [(8, 4)], fun _ _ => 0x0,
    [⟨8, 3, .rw, [(4, 7)]⟩, ⟨0, 3, .rw, [(4, 7)]⟩]⟩,
  -- OMI_NOWAKE
  ⟨320, [(3, 4)], fun _ _ => 0x0,
    [⟨0, 32, .rw, []⟩]⟩]

/-- Registers of block lens. -/
def rows_lens : List RegRow := [
  -- LENS_CFG
  ⟨0, [(8, 64)], fun _ _ => 0x3c000000,
    [⟨31, 1, .rw, []⟩, ⟨30, 1, .rw, []⟩, ⟨26, 4, .rw, []⟩, ⟨15, 1, .rw, []⟩, ⟨12, 3, .rw, []⟩, ⟨9, 1, .rw, []⟩, ⟨0, 6, .rw, [(40, 63)]⟩]⟩,
  -- LENS_MASK
  ⟨4, [(8, 64), (4, 4)], fun _ _ => 0x0,
    [⟨0, 32, .rw, []⟩]⟩,
  -- LENS_MATCH
  ⟨20, [(8, 64), (4, 4)], fun _ _ => 0x0,
    [⟨0, 32, .rw, []⟩]⟩,
  -- LENS_PKTS
  ⟨36, [(8, 64)], fun _ _ => 0x0,
    [⟨0, 32, .rc, []⟩]⟩,
  -- LENS_FLITS
  ⟨40, [(8, 64)], fun _ _ => 0x0,
    [⟨0, 32, .rc, []⟩]⟩,
  -- LENS_STALL
  ⟨44, [(8, 64)], fun _ _ => 0x0,
    [⟨0, 32, .rc, []⟩]⟩,
  -- LENS_TCFG
  ⟨1024, [], fun _ _ => 0x0,
    [⟨31, 1, .rw, []⟩, ⟨30, 1, .rw, []⟩]⟩,
  -- LENS_TPTR
  ⟨1028, [], fun _ _ => 0x0,
    [⟨31, 1, .w1c, []⟩, ⟨30, 1, .w1c, []⟩, ⟨16, 14, .rc, []⟩, ⟨0, 11, .ro, []⟩]⟩,
  -- LENS_ISTAT_CTRL
  ⟨1032, [], fun _ _ => 0x0,
    [⟨8, 3, .rw, []⟩, ⟨0, 1, .wo, []⟩]⟩,
  -- LENS_IREQ
  ⟨4096, [(48, 64)], fun _ _ => 0,
    [⟨0, 32, .ro, []⟩]⟩,
  -- LENS_IUNITS
  ⟨4100, [(48, 64)], fun _ _ => 0,
    [⟨0, 32, .ro, []⟩]⟩,
  -- LENS_ILMIN
  ⟨4104, [(48, 64)], fun _ _ => 0xFFFFFFFF,
    [⟨0, 32, .ro, []⟩]⟩,
  -- LENS_ILMAX
  ⟨4108, [(48, 64)], fun _ _ => 0,
    [⟨0, 32, .ro, []⟩]⟩,
  -- LENS_ILSUM_LO
  ⟨4112, [(48, 64)], fun _ _ => 0,
    [⟨0, 32, .ro, []⟩]⟩,
  -- LENS_ILSUM_HI
  ⟨4116, [(48, 64)], fun _ _ => 0,
    [⟨0, 32, .ro, []⟩]⟩,
  -- LENS_IERR
  ⟨4120, [(48, 64)], fun _ _ => 0,
    [⟨0, 32, .ro, []⟩]⟩,
  -- LENS_IHIST
  ⟨4128, [(48, 64), (8, 4)], fun _ _ => 0,
    [⟨0, 32, .ro, []⟩]⟩]

/-- Registers of block gweak. -/
def rows_gweak : List RegRow := [
  -- GWK_INFO
  ⟨0, [], fun u _ => 0x00004080 + 512 * u * 65536,
    [⟨16, 12, .ro, []⟩, ⟨8, 8, .ro, []⟩, ⟨0, 8, .ro, []⟩]⟩,
  -- GWK_CTRL
  ⟨4, [], fun _ _ => 0x2,
    [⟨1, 1, .rw, []⟩, ⟨0, 1, .rw, []⟩]⟩,
  -- GWK_TICK
  ⟨8, [], fun _ _ => 0x1,
    [⟨0, 8, .rw, [(0, 0), (251, 255)]⟩]⟩,
  -- GWK_TNOW
  ⟨12, [], fun _ _ => 0x0,
    [⟨0, 32, .ro, []⟩]⟩,
  -- GWK_STAT
  ⟨16, [], fun _ _ => 0x0,
    [⟨24, 8, .rc, []⟩, ⟨0, 17, .ro, []⟩]⟩,
  -- GWK_DLY
  ⟨20, [], fun _ _ => 0x0,
    [⟨24, 8, .rc, []⟩, ⟨16, 8, .rc, []⟩, ⟨0, 15, .ro, []⟩]⟩,
  -- GWK_THROTTLE
  ⟨24, [], fun _ _ => 0x20,
    [⟨0, 6, .rw, [(33, 63)]⟩]⟩,
  -- GWK_TRACE_CFG
  ⟨32, [], fun _ _ => 0x73ff0000,
    [⟨16, 16, .rw, []⟩, ⟨4, 4, .rw, [(10, 15)]⟩, ⟨1, 1, .rw, []⟩, ⟨0, 1, .rw, []⟩]⟩,
  -- GWK_TRACE_BASE
  ⟨36, [], fun _ _ => 0x0,
    [⟨0, 28, .rw, []⟩]⟩,
  -- GWK_TRACE_PTR
  ⟨40, [], fun _ _ => 0x0,
    [⟨31, 1, .w1c, []⟩, ⟨30, 1, .w1c, []⟩, ⟨16, 14, .rc, []⟩, ⟨0, 16, .ro, []⟩]⟩,
  -- GWK_ENQ
  ⟨64, [(8, 4)], fun _ _ => 0x0,
    [⟨0, 32, .rw, []⟩]⟩,
  -- GWK_ENQ_GO
  ⟨96, [], fun _ _ => 0x0,
    [⟨0, 1, .wo, []⟩]⟩,
  -- GWK_ENQ_RSP
  ⟨100, [], fun _ _ => 0x0,
    [⟨31, 1, .ro, []⟩, ⟨0, 3, .ro, []⟩]⟩,
  -- GWK_SRV_CMD
  ⟨128, [], fun _ _ => 0x0,
    [⟨8, 6, .wo, []⟩, ⟨3, 5, .wo, []⟩, ⟨1, 2, .wo, []⟩, ⟨0, 1, .wo, []⟩]⟩,
  -- GWK_SRV_STAT
  ⟨132, [], fun _ _ => 0x0,
    [⟨31, 1, .ro, []⟩, ⟨0, 3, .ro, []⟩]⟩,
  -- GWK_FLOW_CMD
  ⟨144, [], fun _ _ => 0x0,
    [⟨3, 9, .wo, []⟩, ⟨1, 2, .wo, []⟩, ⟨0, 1, .wo, []⟩]⟩,
  -- GWK_SRV
  ⟨1024, [(128, 4)], fun _ _ => 0x0,
    [⟨29, 3, .ro, []⟩, ⟨28, 1, .ro, []⟩, ⟨16, 12, .ro, []⟩, ⟨0, 16, .ro, []⟩]⟩,
  -- GWK_CLASS_A
  ⟨2048, [(64, 16)], fun _ _ => 0x800,
    [⟨31, 1, .rw, []⟩, ⟨28, 3, .rw, []⟩, ⟨27, 1, .rw, []⟩, ⟨25, 2, .rw, []⟩, ⟨22, 3, .rw, []⟩, ⟨21, 1, .rw, []⟩, ⟨20, 1, .rw, []⟩, ⟨15, 5, .rw, []⟩, ⟨11, 4, .rw, []⟩]⟩,
  -- GWK_CLASS_MASK
  ⟨2052, [(64, 16)], fun _ _ => 0x0,
    [⟨0, 32, .rw, []⟩]⟩,
  -- GWK_CLASS_B
  ⟨2056, [(64, 16)], fun _ _ => 0x0,
    [⟨16, 16, .rw, []⟩, ⟨0, 16, .rw, []⟩]⟩,
  -- GWK_CLASS_C
  ⟨2060, [(64, 16)], fun _ _ => 0x0,
    [⟨16, 16, .rw, []⟩]⟩,
  -- GWK_CLASS_EXCL
  ⟨3072, [(64, 4)], fun _ _ => 0x0,
    [⟨0, 32, .w1c, []⟩]⟩,
  -- GWK_CSTAT
  ⟨3328, [(64, 4)], fun _ _ => 0x0,
    [⟨16, 16, .rc, []⟩, ⟨8, 8, .rc, []⟩, ⟨0, 8, .rc, []⟩]⟩,
  -- GWK_XPROF
  ⟨4096, [(16, 16), (4, 4)], fun _ _ => 0x0,
    [⟨31, 1, .rw, []⟩, ⟨22, 2, .rw, []⟩, ⟨17, 5, .rw, []⟩, ⟨12, 5, .rw, []⟩, ⟨7, 5, .rw, []⟩, ⟨0, 7, .rw, []⟩]⟩,
  -- GWK_FLOW_CFG
  ⟨8192, [(512, 16)], fun _ _ => 0x0,
    [⟨31, 1, .rw, []⟩, ⟨29, 2, .rw, []⟩, ⟨26, 3, .rw, []⟩, ⟨20, 6, .rw, [(40, 63)]⟩, ⟨0, 17, .rw, []⟩]⟩,
  -- GWK_FLOW_STAT
  ⟨8196, [(512, 16)], fun _ _ => 0xA0000000,
    [⟨29, 3, .ro, []⟩, ⟨22, 7, .ro, []⟩, ⟨21, 1, .ro, []⟩, ⟨0, 17, .ro, []⟩]⟩,
  -- GWK_FLOW_CNT
  ⟨8200, [(512, 16)], fun _ _ => 0x0,
    [⟨16, 16, .rc, []⟩, ⟨8, 8, .rc, []⟩, ⟨0, 8, .rc, []⟩]⟩,
  -- GWK_FLOW_SEQ
  ⟨8204, [(512, 16)], fun _ _ => 0x0,
    [⟨0, 24, .ro, []⟩]⟩]

/-- Registers of block hbmc. -/
def rows_hbmc : List RegRow := [
  -- HBM_INFO
  ⟨0, [], fun u _ => 0x0C242000 + stackOfHall u,
    [⟨24, 4, .ro, []⟩, ⟨16, 8, .ro, []⟩, ⟨8, 8, .ro, []⟩, ⟨0, 2, .ro, []⟩]⟩,
  -- HBM_CFG
  ⟨4, [], fun _ _ => 0x32010802,
    [⟨24, 8, .rw, [(0, 0)]⟩, ⟨16, 1, .rw, []⟩, ⟨8, 8, .rw, []⟩, ⟨0, 2, .rw, [(3, 3)]⟩]⟩,
  -- HBM_WQ
  ⟨8, [], fun _ _ => 0x83010,
    [⟨16, 8, .rw, []⟩, ⟨8, 7, .rw, []⟩, ⟨0, 7, .rw, []⟩]⟩,
  -- HBM_RH
  ⟨12, [], fun _ _ => 0x120800,
    [⟨20, 1, .rw, []⟩, ⟨16, 3, .rw, [(0, 0), (5, 7)]⟩, ⟨0, 16, .rw, [(0, 63)]⟩]⟩,
  -- HBM_CTRL
  ⟨16, [], fun _ _ => 0x0,
    [⟨0, 1, .rw, []⟩]⟩,
  -- HBM_STAT
  ⟨20, [], fun _ _ => 0x1,
    [⟨16, 16, .ro, []⟩, ⟨0, 3, .ro, []⟩]⟩,
  -- HBM_SR
  ⟨24, [], fun _ _ => 0x0,
    [⟨0, 16, .ro, []⟩]⟩,
  -- HBM_ERR
  ⟨28, [], fun _ _ => 0x0,
    [⟨24, 8, .rc, []⟩, ⟨16, 8, .rc, []⟩, ⟨0, 16, .rc, []⟩]⟩,
  -- HBM_RHCNT
  ⟨32, [], fun _ _ => 0x0,
    [⟨0, 32, .rc, []⟩]⟩,
  -- HBM_ELOG_0
  ⟨36, [], fun _ _ => 0x0,
    [⟨31, 1, .ro, []⟩, ⟨29, 2, .ro, []⟩, ⟨24, 5, .ro, []⟩, ⟨22, 2, .ro, []⟩, ⟨20, 2, .ro, []⟩, ⟨18, 2, .ro, []⟩, ⟨3, 15, .ro, []⟩]⟩,
  -- HBM_ELOG_1
  ⟨40, [], fun _ _ => 0x0,
    [⟨0, 31, .ro, []⟩]⟩,
  -- HBM_TEMP
  ⟨44, [], fun _ _ => 0x0,
    [⟨8, 2, .ro, []⟩, ⟨0, 8, .ro, []⟩]⟩,
  -- HBM_PC
  ⟨256, [(32, 4)], fun _ _ => 0x0,
    [⟨17, 1, .ro, []⟩, ⟨16, 1, .ro, []⟩, ⟨8, 7, .ro, []⟩, ⟨0, 7, .ro, []⟩]⟩]

/-- Registers of block mee. -/
def rows_mee : List RegRow := [
  -- MEE_INFO
  ⟨0, [], fun u _ => 0x00080000 + stackOfHall u,
    [⟨16, 4, .ro, []⟩, ⟨0, 2, .ro, []⟩]⟩,
  -- MEE_CFG
  ⟨4, [], fun _ _ => 0xa,
    [⟨0, 8, .rw, [(0, 0)]⟩]⟩,
  -- MEE_CACHE
  ⟨8, [], fun _ _ => 0x0,
    [⟨16, 16, .rc, []⟩, ⟨0, 16, .rc, []⟩]⟩,
  -- MEE_WCB
  ⟨12, [], fun _ _ => 0x0,
    [⟨16, 16, .rc, []⟩, ⟨0, 7, .ro, []⟩]⟩,
  -- MEE_KEY
  ⟨32, [(8, 4)], fun _ _ => 0x0,
    [⟨0, 32, .wo, []⟩]⟩,
  -- MEE_KEYLD
  ⟨64, [], fun _ _ => 0x0,
    [⟨4, 3, .wo, []⟩, ⟨2, 1, .wo, []⟩, ⟨1, 1, .wo, []⟩, ⟨0, 1, .wo, []⟩]⟩,
  -- MEE_DBASE
  ⟨256, [(8, 64)], fun _ _ => 0x0,
    [⟨0, 21, .rw, []⟩]⟩,
  -- MEE_DUNITS
  ⟨260, [(8, 64)], fun _ _ => 0x0,
    [⟨0, 21, .rw, []⟩]⟩,
  -- MEE_MBASE
  ⟨264, [(8, 64)], fun _ _ => 0x0,
    [⟨0, 24, .rw, []⟩]⟩,
  -- MEE_MNEED
  ⟨268, [(8, 64)], fun _ _ => 0x0,
    [⟨24, 4, .ro, []⟩, ⟨0, 24, .ro, []⟩]⟩,
  -- MEE_CTRL
  ⟨272, [(8, 64)], fun _ _ => 0x800,
    [⟨8, 6, .rw, [(0, 0), (33, 63)]⟩, ⟨1, 1, .wo, []⟩, ⟨0, 1, .rw, []⟩]⟩,
  -- MEE_STAT
  ⟨276, [(8, 64)], fun _ _ => 0x0,
    [⟨31, 1, .w1c, []⟩, ⟨30, 1, .ro, []⟩, ⟨29, 1, .ro, []⟩, ⟨24, 5, .ro, []⟩, ⟨0, 3, .ro, []⟩]⟩,
  -- MEE_BOUND
  ⟨280, [(8, 64)], fun _ _ => 0x0,
    [⟨0, 21, .ro, []⟩]⟩,
  -- MEE_ERR
  ⟨284, [(8, 64)], fun _ _ => 0x0,
    [⟨16, 16, .rc, []⟩, ⟨0, 16, .rc, []⟩]⟩,
  -- MEE_POISON
  ⟨1024, [(8, 64), (16, 4)], fun _ _ => 0x0,
    [⟨31, 1, .ro, []⟩, ⟨27, 4, .ro, []⟩, ⟨0, 27, .ro, []⟩]⟩]

/-- Registers of block lane. -/
def rows_lane : List RegRow := [
  -- LANE_CFG
  ⟨0, [(16, 4096)], fun _ _ => 0x0,
    [⟨31, 1, .rw, []⟩, ⟨7, 1, .rw, []⟩, ⟨6, 1, .rw, []⟩, ⟨5, 1, .rw, []⟩, ⟨4, 1, .rw, []⟩, ⟨0, 3, .rw, [(4, 7)]⟩]⟩,
  -- LANE_RATE
  ⟨4, [(16, 4096)], fun _ _ => 0x0,
    [⟨31, 1, .rw, []⟩, ⟨0, 27, .rw, []⟩]⟩,
  -- LANE_CTRL
  ⟨8, [(16, 4096)], fun _ _ => 0x0,
    [⟨3, 1, .rw, []⟩, ⟨2, 1, .rw, []⟩, ⟨1, 1, .rw, []⟩, ⟨0, 1, .rw, []⟩]⟩,
  -- LANE_TXEQ
  ⟨12, [(16, 4096)], fun _ _ => 0x3f0000,
    [⟨24, 6, .rw, []⟩, ⟨16, 6, .rw, []⟩, ⟨8, 6, .rw, []⟩, ⟨0, 6, .rw, []⟩]⟩,
  -- LANE_STAT
  ⟨16, [(16, 4096)], fun _ _ => 0x0,
    [⟨7, 1, .ro, []⟩, ⟨6, 1, .ro, []⟩, ⟨5, 1, .ro, []⟩, ⟨4, 1, .ro, []⟩, ⟨0, 3, .ro, []⟩]⟩,
  -- LANE_FOM
  ⟨20, [(16, 4096)], fun _ _ => 0xff00,
    [⟨8, 8, .rc, []⟩, ⟨0, 8, .ro, []⟩]⟩,
  -- LANE_FOM_CFG
  ⟨24, [(16, 4096)], fun _ _ => 0x6040,
    [⟨8, 8, .rw, [(248, 255)]⟩, ⟨0, 8, .rw, []⟩]⟩,
  -- LANE_ERR
  ⟨28, [(16, 4096)], fun _ _ => 0x0,
    [⟨24, 8, .rc, []⟩, ⟨16, 8, .rc, []⟩, ⟨0, 16, .rc, []⟩]⟩]

/-- Registers of block eth. -/
def rows_eth : List RegRow := [
  -- ETH_MODE
  ⟨0, [(4, 16384)], fun _ _ => 0x0,
    [⟨24, 1, .rw, []⟩, ⟨16, 4, .rw, []⟩, ⟨8, 4, .rw, []⟩, ⟨4, 4, .rw, []⟩, ⟨0, 3, .rw, [(5, 7)]⟩]⟩,
  -- ETH_PORT
  ⟨16, [(4, 16384), (4, 16)], fun _ _ => 0x805f2,
    [⟨16, 4, .rw, [(9, 15)]⟩, ⟨0, 14, .rw, [(0, 63), (9217, 16383)]⟩]⟩,
  -- ETH_PSTAT
  ⟨20, [(4, 16384), (4, 16)], fun _ _ => 0x0,
    [⟨3, 1, .ro, []⟩, ⟨2, 1, .ro, []⟩, ⟨1, 1, .ro, []⟩, ⟨0, 1, .ro, []⟩]⟩,
  -- ETH_KEY
  ⟨512, [(4, 16384), (4, 4)], fun _ _ => 0x0,
    [⟨31, 1, .rw, []⟩, ⟨0, 7, .rw, []⟩]⟩,
  -- ETH_TXQ
  ⟨768, [(4, 16384), (8, 4)], fun _ _ => 0x0,
    [⟨8, 5, .ro, []⟩, ⟨0, 2, .rw, []⟩]⟩,
  -- ETH_TXTS_0
  ⟨1024, [(4, 16384)], fun _ _ => 0x0,
    [⟨0, 32, .ro, []⟩]⟩,
  -- ETH_TXTS_1
  ⟨1028, [(4, 16384)], fun _ _ => 0x0,
    [⟨0, 32, .ro, []⟩]⟩,
  -- ETH_TXTS_2
  ⟨1032, [(4, 16384)], fun _ _ => 0x0,
    [⟨31, 1, .rc, []⟩, ⟨28, 2, .rc, []⟩, ⟨24, 4, .rc, []⟩, ⟨0, 24, .rc, []⟩]⟩,
  -- ETH_TSADJ
  ⟨1040, [(4, 16384), (4, 4)], fun _ _ => 0x0,
    [⟨16, 16, .rw, []⟩, ⟨0, 16, .rw, []⟩]⟩,
  -- ETH_STAT
  ⟨1056, [(4, 16384)], fun _ _ => 0x0,
    [⟨24, 8, .rc, []⟩, ⟨16, 8, .rc, []⟩, ⟨8, 8, .rc, []⟩, ⟨0, 8, .rc, []⟩]⟩,
  -- ETH_RXF
  ⟨256, [(4, 16384), (4, 32)], fun _ _ => 0,
    [⟨0, 32, .rc, []⟩]⟩,
  -- ETH_RXDROP
  ⟨260, [(4, 16384), (4, 32)], fun _ _ => 0,
    [⟨0, 32, .rc, []⟩]⟩,
  -- ETH_RXMISS
  ⟨264, [(4, 16384), (4, 32)], fun _ _ => 0,
    [⟨0, 32, .rc, []⟩]⟩,
  -- ETH_TXF
  ⟨268, [(4, 16384), (4, 32)], fun _ _ => 0,
    [⟨0, 32, .rc, []⟩]⟩,
  -- ETH_TXDROP
  ⟨272, [(4, 16384), (4, 32)], fun _ _ => 0,
    [⟨0, 32, .rc, []⟩]⟩,
  -- ETH_FECC
  ⟨276, [(4, 16384), (4, 32)], fun _ _ => 0,
    [⟨0, 32, .rc, []⟩]⟩,
  -- ETH_FECU
  ⟨280, [(4, 16384), (4, 32)], fun _ _ => 0,
    [⟨0, 32, .rc, []⟩]⟩,
  -- ETH_CL_MATCH
  ⟨8192, [(4, 16384), (128, 64), (4, 4)], fun _ _ => 0,
    [⟨0, 32, .rw, []⟩]⟩,
  -- ETH_CL_MASK
  ⟨8208, [(4, 16384), (128, 64), (4, 4)], fun _ _ => 0,
    [⟨0, 32, .rw, []⟩]⟩,
  -- ETH_CL_ACT
  ⟨8224, [(4, 16384), (128, 64)], fun _ _ => 0,
    [⟨31, 1, .rw, []⟩, ⟨29, 2, .rw, []⟩, ⟨25, 4, .rw, []⟩, ⟨24, 1, .rw, []⟩, ⟨23, 1, .rw, []⟩, ⟨22, 1, .rw, []⟩, ⟨18, 4, .rw, []⟩, ⟨16, 2, .rw, []⟩, ⟨0, 7, .rw, []⟩]⟩,
  -- ETH_CL_ADDR
  ⟨8228, [(4, 16384), (128, 64)], fun _ _ => 0,
    [⟨6, 26, .rw, []⟩]⟩,
  -- ETH_CL_ADDRH
  ⟨8232, [(4, 16384), (128, 64)], fun _ _ => 0,
    [⟨0, 8, .rw, []⟩]⟩,
  -- ETH_CL_BUF
  ⟨8236, [(4, 16384), (128, 64)], fun _ _ => 0,
    [⟨16, 16, .rw, []⟩, ⟨0, 12, .rw, []⟩]⟩,
  -- ETH_CL_ITEM
  ⟨8240, [(4, 16384), (128, 64)], fun _ _ => 0,
    [⟨12, 6, .rw, []⟩, ⟨0, 12, .rw, []⟩]⟩,
  -- ETH_CL_HITS
  ⟨8244, [(4, 16384), (128, 64)], fun _ _ => 0,
    [⟨16, 16, .rc, []⟩, ⟨0, 16, .rc, []⟩]⟩,
  -- ETH_CL_NEXT
  ⟨8248, [(4, 16384), (128, 64)], fun _ _ => 0,
    [⟨0, 12, .ro, []⟩]⟩]

/-- Registers of block pad. -/
def rows_pad : List RegRow := [
  -- PAD_BANK
  ⟨0, [(2, 4)], fun _ _ => 0x0,
    [⟨8, 1, .ro, []⟩, ⟨4, 2, .ro, []⟩, ⟨0, 2, .rw, []⟩]⟩,
  -- PAD_CFG
  ⟨256, [(2, 256), (48, 4)], fun _ _ => 0x8000,
    [⟨14, 2, .rw, []⟩, ⟨12, 1, .rw, []⟩, ⟨10, 2, .rw, []⟩, ⟨9, 1, .rw, []⟩, ⟨8, 1, .rw, []⟩, ⟨6, 2, .rw, []⟩, ⟨4, 2, .rw, []⟩, ⟨0, 3, .rw, [(5, 7)]⟩]⟩]

/-- Registers of block hclk. -/
def rows_hclk : List RegRow := [
  -- HCLK_MODE
  ⟨0, [], fun _ _ => 0x0,
    [⟨0, 2, .rw, [(3, 3)]⟩]⟩,
  -- HCLK_STAT
  ⟨4, [], fun _ _ => 0x0,
    [⟨16, 4, .ro, []⟩, ⟨12, 4, .ro, []⟩, ⟨8, 4, .ro, []⟩, ⟨0, 6, .ro, []⟩]⟩,
  -- HCLK_PLL
  ⟨256, [(6, 32)], fun _ _ => 0x1e000000,
    [⟨24, 6, .rw, []⟩, ⟨0, 24, .rw, []⟩]⟩,
  -- HCLK_PLLOUT
  ⟨260, [(6, 32), (4, 4)], fun _ _ => 0x80000006,
    [⟨31, 1, .rw, []⟩, ⟨0, 8, .rw, [(0, 3)]⟩]⟩,
  -- HCLK_LREF
  ⟨512, [(4, 4)], fun _ _ => 0x0,
    [⟨0, 1, .rw, []⟩]⟩,
  -- HCLK_PAD
  ⟨544, [(2, 8), (2, 4)], fun _ _ => 0x0,
    [⟨31, 1, .rw, []⟩, ⟨0, 5, .rw, [(23, 31)]⟩]⟩,
  -- HCLK_DIV
  ⟨768, [], fun _ _ => 0x0,
    [⟨0, 2, .ro, []⟩]⟩]

/-- Registers of block gal. -/
def rows_gal : List RegRow := [
  -- GAL_INFO
  ⟨0, [], fun u _ => infoGal u,
    [⟨11, 1, .ro, []⟩, ⟨8, 3, .ro, []⟩, ⟨0, 8, .ro, []⟩]⟩,
  -- GAL_CLKSEL
  ⟨16, [(8, 4)], fun _ ix => 0x100 + ix.getD 0 0,
    [⟨10, 1, .rw, []⟩, ⟨9, 1, .rw, []⟩, ⟨8, 1, .rw, []⟩, ⟨0, 6, .rw, [(23, 23)]⟩]⟩,
  -- GAL_CLKSTAT
  ⟨48, [], fun _ _ => 0xff,
    [⟨16, 8, .ro, []⟩, ⟨8, 8, .ro, []⟩, ⟨0, 8, .ro, []⟩]⟩,
  -- GAL_RST
  ⟨64, [], fun _ _ => 0x0,
    [⟨8, 8, .wo, []⟩, ⟨0, 1, .wo, []⟩]⟩,
  -- GAL_RSTCFG
  ⟨68, [], fun _ _ => 0x10,
    [⟨0, 8, .rw, [(0, 3)]⟩]⟩,
  -- GAL_RSTSTAT
  ⟨72, [], fun _ _ => 0x0,
    [⟨16, 16, .rc, []⟩, ⟨1, 1, .ro, []⟩, ⟨0, 1, .ro, []⟩]⟩,
  -- GAL_EP_CFG
  ⟨96, [], fun _ _ => 0x4000,
    [⟨8, 7, .rw, [(0, 0), (65, 127)]⟩, ⟨0, 3, .rw, []⟩]⟩,
  -- GAL_EP_STAT
  ⟨100, [], fun _ _ => 0x0,
    [⟨24, 8, .rc, []⟩, ⟨16, 8, .rc, []⟩, ⟨8, 1, .ro, []⟩, ⟨0, 7, .ro, []⟩]⟩,
  -- GAL_MEZZ_STAT
  ⟨112, [], fun _ _ => 0x0,
    [⟨16, 8, .rc, []⟩, ⟨0, 13, .ro, []⟩]⟩,
  -- GAL_CTX_CFG
  ⟨256, [], fun _ _ => 0x0,
    [⟨4, 3, .rw, []⟩, ⟨0, 2, .rw, [(3, 3)]⟩]⟩,
  -- GAL_CTX_SEL
  ⟨260, [], fun _ _ => 0x0,
    [⟨0, 2, .rw, []⟩]⟩,
  -- GAL_CTX_STAT
  ⟨264, [], fun _ _ => 0x4,
    [⟨8, 4, .ro, []⟩, ⟨4, 2, .ro, []⟩, ⟨3, 1, .ro, []⟩, ⟨2, 1, .ro, []⟩, ⟨0, 2, .ro, []⟩]⟩,
  -- GAL_CTX_COUNT
  ⟨268, [], fun _ _ => 0x0,
    [⟨0, 32, .rc, []⟩]⟩,
  -- GAL_CTX_DROP
  ⟨272, [], fun _ _ => 0x0,
    [⟨24, 8, .rc, []⟩, ⟨16, 8, .rc, []⟩, ⟨0, 16, .rc, []⟩]⟩,
  -- GAL_PLANE
  ⟨288, [(4, 16)], fun _ _ => 0x0,
    [⟨16, 16, .ro, []⟩, ⟨8, 5, .ro, []⟩, ⟨4, 4, .ro, []⟩, ⟨3, 1, .ro, []⟩, ⟨0, 3, .ro, []⟩]⟩,
  -- GAL_BMASK
  ⟨292, [(4, 16)], fun _ _ => 0xffffffff,
    [⟨0, 32, .rw, []⟩]⟩,
  -- GAL_BMASK_EFF
  ⟨296, [(4, 16)], fun _ _ => 0x0,
    [⟨0, 32, .ro, []⟩]⟩,
  -- GAL_LOAD_CMD
  ⟨352, [], fun _ _ => 0x0,
    [⟨8, 5, .wo, []⟩, ⟨4, 2, .wo, []⟩, ⟨1, 2, .wo, []⟩, ⟨0, 1, .wo, []⟩]⟩,
  -- GAL_LOAD_STAT
  ⟨356, [], fun _ _ => 0x0,
    [⟨16, 16, .rc, []⟩, ⟨12, 4, .ro, []⟩, ⟨8, 3, .ro, []⟩, ⟨3, 5, .rc, []⟩, ⟨0, 3, .ro, []⟩]⟩,
  -- GAL_SLOT_CMD
  ⟨368, [], fun _ _ => 0x0,
    [⟨21, 5, .wo, []⟩, ⟨16, 5, .wo, []⟩, ⟨8, 5, .wo, []⟩, ⟨1, 2, .wo, []⟩, ⟨0, 1, .wo, []⟩]⟩,
  -- GAL_SLOT_STAT
  ⟨372, [], fun _ _ => 0x0,
    [⟨1, 3, .ro, []⟩, ⟨0, 1, .ro, []⟩]⟩,
  -- GAL_SLOT
  ⟨512, [(32, 4)], fun _ _ => 0x0,
    [⟨16, 16, .ro, []⟩, ⟨14, 2, .ro, []⟩, ⟨12, 2, .ro, []⟩, ⟨3, 1, .ro, []⟩, ⟨0, 3, .ro, []⟩]⟩,
  -- GAL_PRISM
  ⟨1024, [(4, 4)], fun _ _ => 0x0,
    [⟨0, 3, .rw, []⟩]⟩,
  -- GAL_PRISM_STAT
  ⟨1040, [(4, 4)], fun _ _ => 0x0,
    [⟨16, 16, .rc, []⟩, ⟨8, 8, .rc, []⟩, ⟨0, 8, .rc, []⟩]⟩,
  -- GAL_MEM_STAT
  ⟨1056, [], fun _ _ => 0x0,
    [⟨16, 16, .rc, []⟩, ⟨8, 8, .rc, []⟩, ⟨0, 2, .ro, []⟩]⟩,
  -- GAL_MEM_ECC
  ⟨1060, [], fun _ _ => 0x0,
    [⟨16, 16, .rc, []⟩, ⟨0, 16, .rc, []⟩]⟩,
  -- GAL_MEM_ELOG
  ⟨1064, [], fun _ _ => 0x0,
    [⟨31, 1, .ro, []⟩, ⟨29, 2, .ro, []⟩, ⟨24, 5, .ro, []⟩, ⟨13, 11, .ro, []⟩, ⟨6, 7, .ro, []⟩]⟩,
  -- GAL_MEM_ACL
  ⟨1088, [(4, 4)], fun _ _ => 0x0,
    [⟨2, 1, .rw, []⟩, ⟨0, 2, .rw, []⟩, ⟨6, 1, .rw, []⟩, ⟨4, 2, .rw, []⟩, ⟨10, 1, .rw, []⟩, ⟨8, 2, .rw, []⟩, ⟨14, 1, .rw, []⟩, ⟨12, 2, .rw, []⟩, ⟨18, 1, .rw, []⟩, ⟨16, 2, .rw, []⟩, ⟨22, 1, .rw, []⟩, ⟨20, 2, .rw, []⟩, ⟨26, 1, .rw, []⟩, ⟨24, 2, .rw, []⟩, ⟨30, 1, .rw, []⟩, ⟨28, 2, .rw, []⟩]⟩,
  -- GAL_MEM_LIST
  ⟨1104, [(4, 4)], fun _ _ => 0x0,
    [⟨31, 1, .rw, []⟩, ⟨9, 3, .rw, []⟩, ⟨3, 6, .rw, [(40, 63)]⟩]⟩,
  -- GAL_MEMTEST_CFG
  ⟨1152, [], fun _ _ => 0xa02,
    [⟨8, 8, .rw, [(0, 0)]⟩, ⟨1, 1, .rw, []⟩, ⟨0, 1, .rw, []⟩]⟩,
  -- GAL_MEMTEST_STAT
  ⟨1156, [], fun _ _ => 0x100,
    [⟨16, 16, .rc, []⟩, ⟨9, 7, .rc, []⟩, ⟨0, 9, .ro, []⟩]⟩,
  -- GAL_MEMTEST_FAULT
  ⟨1160, [], fun _ _ => 0x0,
    [⟨31, 1, .ro, []⟩, ⟨30, 1, .ro, []⟩, ⟨25, 5, .ro, []⟩, ⟨13, 12, .ro, []⟩, ⟨0, 11, .ro, []⟩]⟩,
  -- GAL_REP_SEL
  ⟨1184, [], fun _ _ => 0x0,
    [⟨0, 5, .rw, []⟩]⟩,
  -- GAL_REP
  ⟨1216, [(8, 4)], fun _ _ => 0x0,
    [⟨31, 1, .ro, []⟩, ⟨30, 1, .ro, []⟩, ⟨29, 1, .ro, []⟩, ⟨0, 11, .ro, []⟩]⟩,
  -- GAL_Q_CFG
  ⟨4096, [(32, 32)], fun _ _ => 0x0,
    [⟨4, 2, .rw, []⟩, ⟨0, 1, .rw, []⟩]⟩,
  -- GAL_Q_RING
  ⟨4100, [(32, 32)], fun _ _ => 0x8000000,
    [⟨16, 15, .rw, []⟩, ⟨0, 14, .rw, []⟩]⟩,
  -- GAL_Q_WM
  ⟨4104, [(32, 32)], fun _ _ => 0x0,
    [⟨16, 15, .rw, []⟩, ⟨0, 15, .rw, []⟩]⟩,
  -- GAL_Q_PTR
  ⟨4108, [(32, 32)], fun _ _ => 0x0,
    [⟨16, 14, .ro, []⟩, ⟨0, 14, .ro, []⟩]⟩,
  -- GAL_Q_STAT
  ⟨4112, [(32, 32)], fun _ _ => 0x0,
    [⟨31, 1, .w1c, []⟩, ⟨30, 1, .w1c, []⟩, ⟨29, 1, .w1c, []⟩, ⟨28, 1, .w1c, []⟩, ⟨27, 1, .w1c, []⟩, ⟨0, 15, .ro, []⟩]⟩,
  -- GAL_Q_ITEM_HI
  ⟨4116, [(32, 32)], fun _ _ => 0x0,
    [⟨31, 1, .rw, []⟩, ⟨12, 6, .rw, []⟩, ⟨0, 12, .rw, []⟩]⟩,
  -- GAL_Q_ITEM_LO
  ⟨4120, [(32, 32)], fun _ _ => 0x0,
    [⟨31, 1, .rw, []⟩, ⟨12, 6, .rw, []⟩, ⟨0, 12, .rw, []⟩]⟩,
  -- GAL_Q_ANN
  ⟨4124, [(32, 32)], fun _ _ => 0x0,
    [⟨24, 8, .rc, []⟩, ⟨16, 8, .rc, []⟩, ⟨0, 14, .ro, []⟩]⟩]

/-- The registers of a block. -/
def rowsOf : Block → List RegRow
  | .sys => rows_sys
  | .boot => rows_boot
  | .sec => rows_sec
  | .pwr => rows_pwr
  | .therm => rows_therm
  | .cal => rows_cal
  | .bist => rows_bist
  | .clk => rows_clk
  | .hall => rows_hall
  | .omist => rows_omist
  | .lens => rows_lens
  | .gweak => rows_gweak
  | .hbmc => rows_hbmc
  | .mee => rows_mee
  | .lane => rows_lane
  | .eth => rows_eth
  | .pad => rows_pad
  | .hclk => rows_hclk
  | .gal => rows_gal

/-- The indices that an offset gives under a list of (count, stride), outer index first; none where it lies between registers. -/
def matchDims : List (Nat × Nat) → Nat → Option (List Nat)
  | [], o => if o = 0 then some [] else none
  | (c, st) :: ds, o =>
    if o / st < c then (matchDims ds (o % st)).map (fun ix => o / st :: ix)
    else none

/-- The indices with which an offset names this register. -/
def RegRow.indices (r : RegRow) (o : Nat) : Option (List Nat) :=
  if r.off ≤ o then matchDims r.dims (o - r.off) else none

/-- The first register of a list that an offset names. -/
def findRow : List RegRow → Nat → Option (RegRow × List Nat)
  | [], _ => none
  | r :: rs, o => match r.indices o with
    | some ix => some (r, ix)
    | none => findRow rs o

/-- The block of a package-level address (R32). -/
def pkgBlock (n : Nat) : Option Block :=
  [Block.sys, .boot, .sec, .pwr, .therm, .cal, .bist, .clk][n]?

/-- The per-hall block of a 64 KiB slot number (R32). -/
def hallBlock (n : Nat) : Option Block :=
  [Block.hall, .omist, .lens, .gweak, .hbmc, .mee, .lane, .eth, .pad, .hclk][n]?

/-- Where an address lies (R32, R35): block, unit and word offset; none outside every block. -/
def locate (a : Nat) : Option Loc :=
  let a := a / 4 * 4
  if a < 0x80000 then (pkgBlock (a / 0x10000)).map (fun b => ⟨b, 0, a % 0x10000⟩)
  else if 0x10000000 ≤ a ∧ a < 0x18000000 then
    let h := (a - 0x10000000) / 0x1000000
    let o := (a - 0x10000000) % 0x1000000
    if o < 0xA0000 then
      match hallBlock (o / 0x10000) with
      | some b => if (b = .hbmc || b = .mee) && !hasPort h then none else some ⟨b, h, o % 0x10000⟩
      | none => none
    else if 0x100000 ≤ o ∧ o < 0x300000 then some ⟨.gal, 32 * h + (o - 0x100000) / 0x10000, o % 0x10000⟩
    else none
  else none

/-- The register that an address names, with its location and indices (R33). -/
def regAt (a : Nat) : Option (Loc × RegRow × List Nat) :=
  match locate a with
  | none => none
  | some l => (findRow (rowsOf l.block) l.off).map (fun p => (l, p.1, p.2))

/-- The reset value of the register at an address; 0 where no register lies. -/
def resetWord (a : Nat) : Word :=
  match regAt a with
  | some (l, r, ix) => BitVec.ofNat 32 (r.rst l.unit ix)
  | none => 0

end Sys2Proof
end

