-- ==== Sys2Proof/Machine/State.lean ====
section
/-!
DEFINITION. Machine/State.lean: the state of the part, and the part right after power-on reset.
-/
namespace Sys2Proof.Machine

/-- The variant and grade of a part (R1); State.reset's is GE, grade 2 (DESIGN CHOICE, log 3). -/
structure Part where
  gweak : Bool := true
  mee : Bool := true
  grade : Nat := 2
  deriving DecidableEq, Repr, Inhabited

/-- Faults: none of this part's commands ends in one. -/
inductive Fault where
  /-- Raised by no command: the part has no effect after which the machine stops (safe). -/
  | halted
  deriving DecidableEq, Repr

/-- Refusals. -/
inductive Refusal where
  /-- A command whose meaning is not written (safe): raised by Dispatch alone. -/
  | notModelled (mnemonic : String)
  deriving DecidableEq, Repr

structure State where
  part : Part
  regs : Sparse Word
  mem : List Host.Cell
  memEpoch : Nat
  free : Nat
  now : Nat
  ev : EventQ
  port : MPort
  clk : Clk
  adm : Adm
  dom : Sparse DomChange
  pwrCmd : Option PwrCmd
  thermHall : Sparse ThermHist
  thermStack : Sparse ThermHist
  thermGood : Sparse Nat
  stop : StopSt
  slots : Sparse Slot
  boot : Boot
  bist : Bist
  cal : Cal
  otp : Otp
  sec : Sec
  net : List Packet
  reqs : List Req
  seqNext : Sparse Nat
  seqRec : Sparse SeqRec
  epochs : Sparse Nat
  istat : Sparse IStat
  gals : Sparse Gal
  halls : Sparse Hall
  corrs : Sparse Corr
  pending : List Instr
  deriving DecidableEq, Repr

/-- The part in power-on reset, before its supplies have passed their thresholds (R481, R483): every register at its reset value,
nothing stored, nothing in progress, one-time-programmable memory BLANK (log 3), the flash erased, no command waiting. A register
file, a memory or a table that lists nothing reads as its reset contents. -/
def State.reset : State :=
  { part := {}, regs := [], mem := [], memEpoch := 0, free := 0, now := 0, ev := {}, port := {}, clk := {}, adm := {}, dom := [],
    pwrCmd := none, thermHall := [], thermStack := [], thermGood := [], stop := {}, slots := [], boot := {}, bist := {}, cal := {},
    otp := {}, sec := {}, net := [], reqs := [], seqNext := [], seqRec := [], epochs := [], istat := [], gals := [], halls := [],
    corrs := [], pending := [] }

end Sys2Proof.Machine
end

