-- ==== Sys2Proof/Machine/Ops.lean ====
section
/-!
DEFINITION. Machine/Ops.lean: the operations every family shares: registers, events, memory, packets, power domains and
admission.
-/
namespace Sys2Proof.Machine

/-! ## Registers -/

/-- The stored word of a register: what the register file lists, or the reset value (R16, R33). -/
def State.reg (s : State) (a : Nat) : Word := (Sparse.find s.regs a).getD (resetWord a)

/-- Store a register's word; a word equal to the reset value is not listed. -/
def State.setReg (s : State) (a : Nat) (w : Word) : State :=
  { s with regs := Sparse.set s.regs (resetWord a) a w }

/-- A field of a register as a number. -/
def State.fld (s : State) (a : Nat) (f : Fld) : Nat := fieldOf (s.reg a) f

/-- Set a field of a register. -/
def State.setFld (s : State) (a : Nat) (f : Fld) (n : Nat) : State := s.setReg a (withField (s.reg a) f n)

/-- Whether a field is not 0. -/
def State.bit (s : State) (a : Nat) (f : Fld) : Bool := s.fld a f != 0

/-- Add to a counting field, which saturates. -/
def State.incFld (s : State) (a : Nat) (f : Fld) (k : Nat) : State :=
  s.setFld a f (satAdd f.width (s.fld a f) k)

/-- Set or clear bit k of a field. -/
def State.setFldBit (s : State) (a : Nat) (f : Fld) (k : Nat) (b : Bool) : State :=
  s.setFld a f (setBit (s.fld a f) k b)

/-- Return a register to its reset value. -/
def State.clrReg (s : State) (a : Nat) : State := s.setReg a (resetWord a)

/-- Return every register whose address satisfies the test to its reset value. -/
def State.resetRegs (s : State) (p : Nat → Bool) : State := { s with regs := Sparse.drop s.regs p }

/-- Whether a value lies in a field's reserved encodings (R18). -/
def rowReserved (f : FldRow) (n : Nat) : Bool := f.resv.any (fun p => decide (p.1 ≤ n) && decide (n ≤ p.2))

/-- A field's place. -/
def rowFld (f : FldRow) : Fld := ⟨f.lo, f.width⟩

/-- What a write does to one field, by its access code (R16, R17, R18). -/
def applyField (v : Word) (old : Word) (f : FldRow) : Word :=
  let n := fieldOf v (rowFld f)
  let o := fieldOf old (rowFld f)
  match f.acc with
  | .rw => if rowReserved f n then old else withField old (rowFld f) n
  | .w1c => withField old (rowFld f) (o &&& (2 ^ f.width - 1 - n))
  | .w1s => withField old (rowFld f) (o ||| n)
  | .ro | .wo | .rc => old

/-- A write with no effect beyond the register's own fields (R17, R18). -/
def State.writeFields (s : State) (a : Nat) (v : Word) : State :=
  match regAt a with
  | none => s
  | some (_, r, _) => s.setReg a (r.flds.foldl (applyField v) (s.reg a))

/-- What a read clears: the RC fields (R16). -/
def clearRc (w : Word) (f : FldRow) : Word := if f.acc = .rc then withField w (rowFld f) 0 else w

/-- What a read returns of a field: WO fields return 0 (R16). -/
def hideWo (w : Word) (f : FldRow) : Word := if f.acc = .wo then withField w (rowFld f) 0 else w

/-- Advance the counter of free values. -/
def State.draw (s : State) : State := { s with free := s.free + 1 }

/-- The package time base in ns (R411). -/
def State.tbNs (s : State) : Nat := s.clk.tb.toNat / 65536

/-! ## Events (R465 to R470) -/

/-- The rank of a severity. -/
def sevCode : Sev → Nat
  | .info => 0 | .warn => 1 | .error => 2 | .critical => 3

/-- Pack arguments from bit 0 upward, each in its width; bits beyond bit 47 are dropped (R466). -/
def packArgs : List (Nat × Nat) → Nat
  | [] => 0
  | (w, v) :: r => (v % 2 ^ w + 2 ^ w * packArgs r) % 2 ^ 48

/-- Remove the first record of a severity after the first n, if any. -/
def dropFirstSev (n sev : Nat) : List EventRec → Option (List EventRec)
  | [] => none
  | r :: rs =>
    if n = 0 && r.sev == sev then some rs
    else (dropFirstSev (n - 1) sev rs).map (fun t => r :: t)

/-- Make room in a full queue for a record of a severity (R467): the queue without the record it replaces, or none. -/
def makeRoom (held sev : Nat) (rs : List EventRec) : Option (List EventRec) :=
  match dropFirstSev held 0 rs with
  | some t => some t
  | none => match dropFirstSev held 1 rs with
    | some t => some t
    | none => if sev ≥ 2 then dropFirstSev held 2 rs else none

/-- Count a record replaced, dropped or counted instead of queued (R467). -/
def State.incOvf (s : State) : State := s.incFld Reg.SYS_EVSTAT Fl.SYS_EVSTAT_OVF 1

/-- Put a record that has arrived at the system manager into the queue (R467, R469). -/
def State.enqueueEvent (s : State) (r : EventRec) : State :=
  let s1 := if r.sev = 3 then s.setFld Reg.SYS_EVSTAT Fl.SYS_EVSTAT_CRIT 1 else s
  if s.ev.recs.length < 256 then { s1 with ev := { s1.ev with recs := s1.ev.recs ++ [r] } }
  else match makeRoom s.ev.held r.sev s.ev.recs with
    | some t => { s1 with ev := { s1.ev with recs := t ++ [r] } }.incOvf
    | none => s.incOvf

/-- The record of an event raised now (R465). -/
def State.record (s : State) (k : EvKind) (hall idx args : Nat) : EventRec :=
  ⟨k.code, sevCode k.sev, hall, idx, s.tbNs % 2 ^ 48, args⟩

/-- Raise an event (R465, R466). Hall 15 is the package; index 63 is none. -/
def State.post (s : State) (k : EvKind) (hall idx : Nat) (args : List (Nat × Nat)) : State :=
  s.enqueueEvent (s.record k hall idx (packArgs args))

/-- Raise an event of the package. -/
def State.postPkg (s : State) (k : EvKind) (args : List (Nat × Nat)) : State := s.post k 15 63 args

/-- Raise an event of gallery G (R466). -/
def State.postGal (s : State) (k : EvKind) (G : Nat) (args : List (Nat × Nat)) : State := s.post k (G / 32) (G % 32) args

/-- Whether the period of a limit has passed since it was last stamped. -/
def State.limOpen (s : State) (id period : Nat) : Bool :=
  match Sparse.find s.ev.last id with
  | some t => decide (t + period ≤ s.now)
  | none => true

/-- Stamp a limit with the present time. -/
def State.limStamp (s : State) (id : Nat) : State := { s with ev := { s.ev with last := Sparse.put s.ev.last id s.now } }

/-- Raise an event at most once per period (ns) for its code and key. -/
def State.postLim (s : State) (k : EvKind) (key period hall idx : Nat) (args : List (Nat × Nat)) : State :=
  let id := k.code * 65536 + key
  if s.limOpen id period then (s.limStamp id).post k hall idx args else s

/-- One millisecond in ns. -/
def ms : Nat := 1000000

/-- How many queued records are of codes 0x0010 and 0x0011 (R7). -/
def accessRecords (rs : List EventRec) : Nat := (rs.filter (fun r => r.code == 0x10 || r.code == 0x11)).length

/-- Raise ABSENT_UNIT_ACCESS or UNMAPPED_ACCESS within the limit of 16 queued records of the two (R7, R34). -/
def State.postAccess (s : State) (k : EvKind) (hall addr : Nat) (write : Bool) : State :=
  if accessRecords s.ev.recs ≥ 16 then s.incOvf
  else s.post k hall 63 [(32, addr), (1, b2n write)]

/-! ## Memory -/

/-- Keys of memory: a system-space address (48 bits, R36), or a flash address above them. -/
def flashKey (a : Nat) : Nat := 2 ^ 48 + a

/-- The base of a gallery's memory window (R36). -/
def memBase (G : Nat) : Nat := 0x8000000000 + G * 0x1000000

/-- The base of the vault (R36). -/
def vaultBase : Nat := 0xF000000000

/-- The base of the register region (R36). -/
def regBase : Nat := 0xF800000000

/-- What an unlisted key reads as: 0xFF in flash (erased), 0x00 in the vault (wiped), otherwise nothing written (log 5). -/
def unlistedByte (k : Nat) : Option Byte :=
  if 2 ^ 48 ≤ k then some 0xFF
  else if vaultBase ≤ k && k < vaultBase + 0x40000 then some 0
  else none

/-- The byte that stands at a key, if one has been written (or an unlisted key reads as one). -/
def State.memByte (s : State) (k : Nat) : Option Byte :=
  match Sparse.find s.mem k with
  | some b => some b
  | none => unlistedByte k

/-- The byte a read of a key delivers; one that nothing has written is arbitrary (R178). -/
def State.readByte (s : State) (k : Nat) : Byte := (s.memByte k).getD (Config.unwrittenByte s.memEpoch k)

/-- Store a byte; storing what an unlisted key reads as removes the entry. -/
def putCell (m : List Host.Cell) (k : Nat) (b : Byte) : List Host.Cell :=
  if unlistedByte k = some b then Sparse.del m k else Sparse.put m k b

/-- Write a byte. -/
def State.writeByte (s : State) (k : Nat) (b : Byte) : State := { s with mem := putCell s.mem k b }

/-- Write consecutive bytes from a key. -/
def State.writeBytes (s : State) (k : Nat) : List Byte → State
  | [] => s
  | b :: bs => (s.writeByte k b).writeBytes (k + 1) bs

/-- Write those of consecutive bytes whose enable is set. -/
def State.writeEnabled (s : State) (k : Nat) : List (Byte × Bool) → State
  | [] => s
  | (b, e) :: bs => (if e then s.writeByte k b else s).writeEnabled (k + 1) bs

/-- Read n consecutive bytes from a key. -/
def State.readBytes (s : State) (k n : Nat) : List Byte := (List.range n).map (fun i => s.readByte (k + i))

/-- Bytes of a bit vector, lowest first. -/
def bytesOf {w : Nat} (n : Nat) (v : BitVec w) : List Byte :=
  (List.range n).map (fun i => BitVec.ofNat 8 (v.toNat / 2 ^ (8 * i)))

/-- The number whose bytes, lowest first, are given. -/
def natOfBytes : List Byte → Nat
  | [] => 0
  | b :: bs => b.toNat + 256 * natOfBytes bs

/-- Contents of keys lo to hi − 1 are lost: what nothing rewrites is arbitrary (R178) or, in vault and flash, cleared. -/
def State.loseMem (s : State) (lo hi : Nat) : State :=
  { s with mem := Sparse.drop s.mem (fun k => decide (lo ≤ k) && decide (k < hi)), memEpoch := s.memEpoch + 1 }

/-- Bytes lo to hi − 1 of the vault are zeroed (R390, R391). -/
def State.zeroVault (s : State) (lo hi : Nat) : State :=
  { s with mem := Sparse.drop s.mem (fun k => decide (lo ≤ k) && decide (k < hi)) }

/-- The canonical form of memory: addresses strictly rising, and no entry equal to what an unlisted address reads as. -/
def memWf (m : List Host.Cell) : Bool :=
  Sparse.rising m && m.all (fun e => decide (unlistedByte e.1 ≠ some e.2))

/-! ## Packets -/

/-- The interface number of a port of a node of a hall. -/
def ifaceId (hall node port : Nat) : Nat := (hall * 64 + node) * 8 + port

/-- The pair number of a sender and a receiver (R246). -/
def pairId (p : Packet) : Nat :=
  ifaceId p.srcHall.toNat p.srcNode.toNat p.srcPort.toNat * 4096 + ifaceId p.dstHall.toNat p.dstNode.toNat p.dstPort.toNat

/-- The parity of the bits of n that a mask selects. -/
def parityOf (n mask : Nat) : Nat := ((List.range 32).filter (fun i => (n &&& mask).testBit i)).length % 2

/-- The order key of a packet (R235). -/
def orderKey (p : Packet) : Nat :=
  let c := p.cmd.toNat
  if c = 0x80 then p.rkey
  else if c = 0x11 ∨ c = 0x12 ∨ c = 0x16 then (p.data.headD 0).toNat % 4096
  else if c = 0x10 ∨ (0x13 ≤ c ∧ c ≤ 0x15) then
    (p.srcHall.toNat * 512 + p.srcNode.toNat * 8 + p.srcPort.toNat)
      + 4096 * (p.dstHall.toNat * 512 + p.dstNode.toNat * 8 + p.dstPort.toNat)
  else p.addr.toNat / 512 % 2 ^ 31

/-- The mesh of a key (R235). -/
def meshOf (k : Nat) : Nat := parityOf k 0x55555555

/-- The corridor channel of a key (R235). -/
def channelOf (k : Nat) : Nat := 2 * meshOf k + parityOf k 0x2AAAAAAA

/-- Whether a command has a response (R238). -/
def hasResponse (c : Nat) : Bool := !(c == 0x12 || c == 0x13 || c == 0x15 || 0x80 == c || (0xC2 ≤ c && c ≤ 0xCF))

/-- A packet as its sending interface completes it: sequence number, epoch and mesh (R235, R237, R246). -/
def State.stamped (s : State) (p : Packet) : Packet :=
  { p with seq := BitVec.ofNat 12 (Sparse.get s.seqNext 0 (pairId p)), epoch := BitVec.ofNat 2 (Sparse.get s.epochs 0 p.srcHall.toNat),
           mesh := BitVec.ofNat 1 (meshOf (orderKey p)) }

/-- Send a packet: its sending interface completes it; a request awaits its response (R245). -/
def State.send (s : State) (p : Packet) : State :=
  let id := pairId p
  let n := Sparse.get s.seqNext 0 id
  let q := s.stamped p
  { s with
    net := s.net ++ [q]
    seqNext := Sparse.set s.seqNext 0 id ((n + 1) % 4096)
    reqs := if hasResponse p.cmd.toNat then s.reqs ++ [⟨q, s.now⟩] else s.reqs }

/-- The response to a request (R237, R244): back to its source, with its tag and order key. -/
def rspOf (p : Packet) (st : OSt) (data : List (BitVec 512)) : Packet :=
  { dstPort := p.srcPort, dstNode := p.srcNode, dstHall := p.srcHall, srcPort := p.dstPort, srcNode := p.dstNode,
    srcHall := p.dstHall, cmd := 0x80, units := BitVec.ofNat 4 data.length, tag := p.tag, vc := 1,
    status := BitVec.ofNat 3 st.code, addr := p.addr, data := data, rkey := orderKey p, eq := p.eq }

/-- Answer a request. -/
def State.respond (s : State) (p : Packet) (st : OSt) (data : List (BitVec 512)) : State := s.send (rspOf p st data)

/-- The packet has arrived: it is no longer in flight. -/
def State.take (s : State) (p : Packet) : State := { s with net := s.net.erase p }

/-- Whether a packet's number is in the receiver's record of its sender (R246). -/
def State.isDup (s : State) (p : Packet) : Bool :=
  match Sparse.find s.seqRec (pairId p) with
  | some r => r.epoch == p.epoch.toNat && r.seen.contains p.seq.toNat
  | none => false

/-- Record a packet's number; a new epoch clears the record (R246). -/
def State.accept (s : State) (p : Packet) : State :=
  let r := Sparse.get s.seqRec ⟨0, []⟩ (pairId p)
  let seen := if r.epoch = p.epoch.toNat then r.seen else []
  { s with seqRec := Sparse.put s.seqRec (pairId p) ⟨p.epoch.toNat, (p.seq.toNat :: seen).take 256⟩ }

/-- A packet takes the next number of its pair (R246). -/
def State.numbered (s : State) (p : Packet) : State :=
  { s with seqNext := Sparse.set s.seqNext 0 (pairId p) ((Sparse.get s.seqNext 0 (pairId p) + 1) % 4096) }

/-- A packet is sent and accepted within one command. -/
def State.passes (s : State) (p : Packet) : State := (s.numbered p).accept (s.stamped p)

/-- A number from fields, lowest first, as in packArgs but without its 48-bit bound. -/
def packBits : List (Nat × Nat) → Nat
  | [] => 0
  | (w, v) :: r => v % 2 ^ w + 2 ^ w * packBits r

/-- A bit vector with w bits from lo replaced. -/
def putBits {n : Nat} (v : BitVec n) (lo w x : Nat) : BitVec n :=
  (v &&& ~~~ BitVec.ofNat n ((2 ^ w - 1) <<< lo)) ||| BitVec.ofNat n ((x % 2 ^ w) <<< lo)

/-- Bits lo and up of a number, w of them. -/
def bitsOf (n lo w : Nat) : Nat := n / 2 ^ lo % 2 ^ w

/-- A packet from a unit of hall h to a node and port. -/
def unitPacket (h node port dh dnode dport : Nat) (cmd : Nat) (vc tag : Nat) : Packet :=
  { srcHall := BitVec.ofNat 3 h, srcNode := BitVec.ofNat 6 node, srcPort := BitVec.ofNat 3 port,
    dstHall := BitVec.ofNat 3 dh, dstNode := BitVec.ofNat 6 dnode, dstPort := BitVec.ofNat 3 dport,
    cmd := BitVec.ofNat 8 cmd, vc := BitVec.ofNat 2 vc, tag := BitVec.ofNat 10 tag }

/-- An ENQ packet to the Gweak of the descriptor's flow (R109, R199). -/
def enqPacket (h node port tag : Nat) (desc : BitVec 256) : Packet :=
  { unitPacket h node port (bitsOf desc.toNat 0 12 / 512) 32 0 0x11 2 tag with units := 1, data := [desc.setWidth 512] }

/-- A DONE packet: server v in ARG bits 6:0 and the end in bits 9:8 (0 done, 1 failed, 2 RESET, 3 reserved code); the layout is
the model's (log 12). -/
def donePacket (G plane status : Nat) : Packet :=
  { unitPacket (G / 32) (G % 32) 0 (G / 32) 32 1 0x13 2 0 with
      arg := BitVec.ofNat 224 (packBits [(8, 4 * (G % 32) + plane), (3, status)]) }

/-- A LOADRPT packet: gallery, plane, state, image identifier, refusal reason or failure cause, 1 for a refusal (log 12). -/
def loadRptPacket (G plane st id reason : Nat) (refused : Bool) : Packet :=
  { unitPacket (G / 32) 35 0 (G / 32) 32 1 0x15 2 0 with
      arg := BitVec.ofNat 224 (packBits [(5, G % 32), (2, plane), (3, st), (16, id), (4, reason), (1, b2n refused)]) }

/-- An item descriptor (R197) with the fields an enqueuer writes. -/
def mkDesc (flow cls addr len user0 user1 : Nat) : BitVec 256 :=
  BitVec.ofNat 256 (packBits [(12, flow), (6, cls), (14, 0), (48, addr), (24, len), (24, 0), (32, 0), (32, user0), (32, user1)])

/-! ## Power domains -/

/-- The state of domain d of hall h: 0 OFF, 1 RETENTION, 2 ON, 3 WAITING, 4 POWERING_UP, 5 POWERING_DOWN, 6 ABSENT (R417). -/
def State.domState (s : State) (h d : Nat) : Nat :=
  if (d = 70 && !s.part.gweak) || (d = 71 && !hasPort h) || d > 71 then 6
  else s.fld (Reg.PWR_DSTAT h d) Fl.PWR_DSTAT_STATE

/-- Set a domain's state. -/
def State.setDom (s : State) (h d st : Nat) : State := s.setFld (Reg.PWR_DSTAT h d) Fl.PWR_DSTAT_STATE st

/-- Whether a domain is ON. -/
def State.domOn (s : State) (h d : Nat) : Bool := s.domState h d == 2

/-! ## Release and stop -/

/-- The device runs: released, and neither stopped nor in safe hold (BOOT_STAT.STATE is RUN). -/
def State.running (s : State) : Bool := s.fld Reg.BOOT_STAT Fl.BOOT_STAT_STATE == 6

/-- An orderly or thermal stop runs (R434). -/
def State.stopping (s : State) : Bool := decide (1 ≤ s.stop.step) && decide (s.stop.step ≤ 4)

/-! ## Galleries -/

/-- The hidden state of gallery G. -/
def State.gal (s : State) (G : Nat) : Gal := Sparse.get s.gals {} G

/-- Replace the hidden state of gallery G. -/
def State.setGal (s : State) (G : Nat) (g : Gal) : State := { s with gals := Sparse.set s.gals {} G g }

/-- Change the hidden state of gallery G. -/
def State.modGal (s : State) (G : Nat) (f : Gal → Gal) : State := s.setGal G (f (s.gal G))

/-- The hidden state of hall h. -/
def State.hall (s : State) (h : Nat) : Hall := Sparse.get s.halls {} h

/-- Change the hidden state of hall h. -/
def State.modHall (s : State) (h : Nat) (f : Hall → Hall) : State :=
  { s with halls := Sparse.set s.halls {} h (f (s.hall h)) }

/-- The state of plane p (R116). -/
def State.planeState (s : State) (G p : Nat) : Nat := s.fld (Reg.GAL_PLANE G p) Fl.GAL_PLANE_STATE

/-- Set the state of a plane. -/
def State.setPlaneState (s : State) (G p st : Nat) : State := s.setFld (Reg.GAL_PLANE G p) Fl.GAL_PLANE_STATE st

/-- No plane is active (GAL_CTX_STAT.NONE, R119). -/
def State.noPlane (s : State) (G : Nat) : Bool := s.bit (Reg.GAL_CTX_STAT G) Fl.GAL_CTX_STAT_NONE

/-- The active plane, if any. -/
def State.activePlane (s : State) (G : Nat) : Option Nat :=
  if s.noPlane G then none else some (s.fld (Reg.GAL_CTX_STAT G) Fl.GAL_CTX_STAT_ACTIVE)

/-- The image a plane holds. -/
def State.planeImg (s : State) (G p : Nat) : Image := Sparse.get (s.gal G).planes {} p

/-- The image a slot holds. -/
def State.slotImg (s : State) (G k : Nat) : Image := Sparse.get (s.gal G).slots {} k

/-- What a plane's frames encode. -/
def State.planeInfo (s : State) (G p : Nat) : DesignInfo := Config.designInfo (s.planeImg G p).frames

/-- The state of slot k (GAL_SLOT_s.STATE). -/
def State.slotState (s : State) (G k : Nat) : Nat := s.fld (Reg.GAL_SLOT G k) Fl.GAL_SLOT_STATE

/-- The plane-select source (R120): 0 STATIC, 1 DESIGN, 2 SCHEDULED. -/
def State.ctxSrc (s : State) (G : Nat) : Nat := s.fld (Reg.GAL_CTX_CFG G) Fl.GAL_CTX_CFG_SRC

/-- The borders of a gallery are presented (R139, R119, R415, R358). -/
def State.bordersHeld (s : State) (G : Nat) : Bool :=
  let g := s.gal G
  g.switching || g.bRepl || g.bClk || g.bBoot || g.rst != .none || s.noPlane G

/-- Whether the source of a gallery clock branch runs: the branch toggles (GAL_CLKSTAT.RUNNING). -/
def State.branchRuns (s : State) (G n : Nat) : Bool :=
  bitOf (s.fld (Reg.GAL_CLKSTAT G) Fl.GAL_CLKSTAT_RUNNING) n

/-- The context clock runs. -/
def State.contextClockRuns (s : State) (G : Nat) : Bool :=
  s.branchRuns G (s.fld (Reg.GAL_CTX_CFG G) Fl.GAL_CTX_CFG_CCLK)

/-! ## Where an access goes (R6, R7, R33, R34, R499) -/

/-- Hall h is in a foundation partial reset: FRST_STAT.STATE is not READY (R57). -/
def State.inFrst (s : State) (h : Nat) : Bool := s.bit (Reg.FRST_STAT h) Fl.FRST_STAT_STATE

/-- The hall that the block of an address belongs to; 15 for an address in no hall's block (R7, R34). DESIGN CHOICE (log 62): an address
in hall h's 16 MiB but outside the blocks of R32's second table lies in no block, and so carries 15. -/
def hallOfAddr (a : Nat) : Nat :=
  if 0x10000000 ≤ a ∧ a < 0x18000000 then
    let o := (a - 0x10000000) % 0x1000000
    if o < 0xA0000 ∨ (0x100000 ≤ o ∧ o < 0x300000) then (a - 0x10000000) / 0x1000000 else 15
  else 15

/-- The block is that of a unit the variant lacks (R6). -/
def State.blockAbsent (s : State) (b : Block) : Bool := (b == .gweak && !s.part.gweak) || (b == .mee && !s.part.mee)

/-- The block's unit is held in reset by a foundation partial reset of its hall (R499). -/
def State.blockHeld (s : State) (l : Loc) : Bool :=
  (l.block == .gweak || l.block == .hbmc || l.block == .mee || l.block == .eth) && s.inFrst l.unit

/-- How an access to an address is served. -/
inductive RegGo where
  /-- In the block of an absent unit (R7). -/
  | absent
  /-- Unmapped (R34). -/
  | unmapped
  /-- The unit is held in reset: UNAVAIL (R499). -/
  | held
  | at (l : Loc) (r : RegRow) (ix : List Nat)

/-- How an access to an address is served (R6, R33, R34, R499): an address with no register is unmapped whether its unit is held or
not. -/
def State.regGo (s : State) (a : Nat) : RegGo :=
  match locate a with
  | none => .unmapped
  | some l =>
    if s.blockAbsent l.block then .absent
    else match findRow (rowsOf l.block) l.off with
      | none => .unmapped
      | some (r, ix) => if s.blockHeld l then .held else .at l r ix

/-- A write by host software to the register at address a, whose effect is f: in the block of an absent unit, or unmapped, it is
reported and does nothing (R7, R34); in a block that is held it does nothing (R499). -/
def State.hostWrite (s : State) (a : Nat) (f : State → State) : State :=
  match s.regGo a with
  | .absent => s.postAccess Ev.ABSENT_UNIT_ACCESS (hallOfAddr a) a true
  | .unmapped => s.postAccess Ev.UNMAPPED_ACCESS (hallOfAddr a) a true
  | .held => s
  | .at _ _ _ => f s

/-! ## Units under test (R447) -/

/-- Self-test unit u is under test in hall h (R447). -/
def State.testing (s : State) (h u : Nat) : Bool :=
  match s.bist.run with
  | some r => r.started && r.units.headD 7 == u && bitOf r.halls h
  | none => false

/-- The mirror loader of hall h is under test: its slots, or its buffers (R446, R447). -/
def State.loaderTested (s : State) (h : Nat) : Bool := s.testing h 1 || s.testing h 2

/-- Gallery G is under test by unit u, 0 or 5 (R446, R447). -/
def State.galTesting (s : State) (G u : Nat) : Bool :=
  s.testing (G / 32) u && bitOf (s.fld (Reg.BIST_GSEL (G / 32)) Fl.BIST_GSEL_VALUE) (G % 32)

/-! ## Admission (R420 to R422) -/

/-- The change of a domain under way, if any. -/
def State.domChange (s : State) (h d : Nat) : Option DomChange := Sparse.find s.dom (h * 72 + d)

/-- Record the change of a domain. -/
def State.setChange (s : State) (h d : Nat) (c : DomChange) : State := { s with dom := Sparse.put s.dom (h * 72 + d) c }

/-- The change of a domain has ended. -/
def State.endChange (s : State) (h d : Nat) : State := { s with dom := Sparse.del s.dom (h * 72 + d) }

/-- The power command ends with a result (R418). -/
def State.pwrResult (s : State) (r : Nat) : State :=
  ({ s with pwrCmd := none }.setFld Reg.PWR_CMD_STAT Fl.PWR_CMD_STAT_BUSY 0).setFld Reg.PWR_CMD_STAT Fl.PWR_CMD_STAT_RESULT r

/-- A domain that waited for admission returns to its previous state (R420). -/
def State.domBack (s : State) (h d : Nat) : State :=
  match s.domChange h d with
  | some c => (s.setDom h d c.prev).endChange h d
  | none => s

/-- The gallery-logic domains of hall h that wait for the mirror domain (R419), by command or by wake. -/
def State.mirrorWaiters (s : State) (h : Nat) (byCmd : Bool) : List Nat :=
  (List.range 32).filter (fun g => (s.domChange h g).any (fun c => c.waitMirror && c.byCmd == byCmd))

/-- A packet waits in a wake slot of domain d (R258). -/
def State.slotHeld (s : State) (h d : Nat) : Bool := s.slots.any (fun x => x.1 / 8 == h * 72 + d)

/-- A domain's command has timed out: it goes on waiting for a wake that also needs it, and otherwise returns to its previous
state. -/
def State.cmdFailed (s : State) (h d : Nat) : State :=
  match s.domChange h d with
  | some c => if s.slotHeld h d || d == 64 then s.setChange h d { c with byCmd := false } else s.domBack h d
  | none => s

/-- The admission that a power command waits for has timed out: RESULT 3, the domain in its previous state (R420). A mirror domain
that a wake also needs goes on waiting. -/
def State.powerFailed (s : State) (kind h d : Nat) : State :=
  let s := s.pwrResult 3
  let s := if d = 64 then (s.mirrorWaiters h true).foldl (fun s g => s.cmdFailed h g) s else s
  if s.slotHeld h d || (d == 64 && !(s.mirrorWaiters h false).isEmpty) then
    let s : State := { s with adm := { s.adm with again := s.adm.again ++ [(kind, h, .power h d true)] } }
    s.cmdFailed h d
  else s.domBack h d

/-- End the request of a requester with its timeout outcome (R420). -/
def State.admTimedOut (s : State) (kind hall : Nat) (who : AdmFor) : State :=
  match who with
  | .power h d wake =>
    if wake then { s with adm := { s.adm with again := s.adm.again ++ [(kind, hall, who)] } }
    else s.powerFailed kind h d
  | .hbmExit _ => { s with adm := { s.adm with again := s.adm.again ++ [(kind, hall, who)] } }
  | .mee _ _ => s
  | .bist =>
    ({ s with bist := { s.bist with run := none } }.setFld Reg.BIST_STAT Fl.BIST_STAT_BUSY 0).setFld Reg.BIST_STAT Fl.BIST_STAT_RESULT 6
  | .copy G =>
    let op := ((s.gal G).copy).getD ⟨0, 0, 0, false⟩
    let s := s.modGal G (fun g => { g with copy := none })
    let s := (s.setFld (Reg.GAL_SLOT_STAT G) Fl.GAL_SLOT_STAT_RESULT 6).setFld (Reg.GAL_SLOT_STAT G) Fl.GAL_SLOT_STAT_BUSY 0
    s.postGal Ev.SLOT_COPY_DONE G [(5, op.dst), (3, 6)]
  | .library => { s with adm := { s.adm with again := s.adm.again ++ [(kind, hall, who)] } }
  | .import_ =>
    let i := (s.boot.imp).getD ⟨0, 0, 0, 0, false⟩
    let s := { s with boot := { s.boot with imp := none } }
    let s := (s.setFld Reg.BOOT_IMP_STAT Fl.BOOT_IMP_STAT_BUSY 0).setFld Reg.BOOT_IMP_STAT Fl.BOOT_IMP_STAT_RESULT 10
    s.post Ev.IMPORT_REFUSED hall i.g [(5, i.slot), (4, 10)]
  | .divLower _ => s

/-- Start a reading of a hall's sensors; one already converting serves (R424). -/
def State.startReading (s : State) (h : Nat) : State := s.setFld (Reg.THERM_HALL h) Fl.THERM_HALL_BUSY 1

/-- Ask for admission (R421, R422, and step 1 of R434): queued, or ended at once while a stop runs or when the queue is full. -/
def State.admRequest (s : State) (kind hall : Nat) (who : AdmFor) : State :=
  if (s.stopping && kind != 10) || s.stop.cut then s.admTimedOut kind hall who
  else if s.adm.queue.length ≥ 64 then
    (s.post Ev.ADM_QUEUE_FULL hall 63 [(4, kind)]).admTimedOut kind hall who
  else
    ({ s with adm := { s.adm with queue := s.adm.queue ++ [⟨kind, hall, who, s.now⟩] } } : State).startReading hall

/-- Release every cost held for a requester and kind (R420). -/
def State.admRelease (s : State) (kind : Nat) (who : AdmFor) : State :=
  { s with adm := { s.adm with held := s.adm.held.filter (fun x => !(x.kind == kind && decide (x.who = who))) } }

/-- Withdraw a waiting request. -/
def State.admWithdraw (s : State) (who : AdmFor) : State :=
  { s with adm := { s.adm with queue := s.adm.queue.filter (fun x => !decide (x.who = who)),
                               again := s.adm.again.filter (fun x => !decide (x.2.2 = who)) } }

/-! ## Outcomes -/

/-- A command that ends in a next state. -/
abbrev Out := Host.Outcome State Fault Refusal

end Sys2Proof.Machine
end

