-- ==== Sys2Proof/Machine/GwkState.lean ====
section
/-!
DEFINITION. Machine/GwkState.lean: the state of a hall's Gweak, its decision trace, and how a gallery's servers are added (R203 to R208,
R218, R223, R230).
-/
namespace Sys2Proof.Machine

/-! ## State of a Gweak -/

/-- The hidden state of hall h's Gweak. -/
def State.gwk (s : State) (h : Nat) : Gwk := (s.hall h).gwk

/-- Change it. -/
def State.modGwk (s : State) (h : Nat) (f : Gwk → Gwk) : State := s.modHall h (fun x => { x with gwk := f x.gwk })

/-- Gweak of hall h works: present, its domain ON, no foundation partial reset under way and its stores not under test (R6, R417, R57,
R447). -/
def State.gwkOn (s : State) (h : Nat) : Bool :=
  s.part.gweak && s.domOn h 70 && !s.bit (Reg.FRST_STAT h) Fl.FRST_STAT_STATE && !s.testing h 2

/-- Flow f (0 to 511) of hall h. -/
def State.flow (s : State) (h f : Nat) : GFlow := Sparse.get (s.gwk h).flows {} f

/-- Server v of hall h. -/
def State.srv (s : State) (h v : Nat) : GSrv := Sparse.get (s.gwk h).srvs {} v

/-- Change a server. -/
def State.modSrv (s : State) (h v : Nat) (f : GSrv → GSrv) : State :=
  s.modGwk h (fun g => { g with srvs := Sparse.set g.srvs {} v (f (Sparse.get g.srvs {} v)) })

/-- State of a server (R208): 0 NONE, 1 IDLE, 2 LOADING, 3 RESERVED, 4 BUSY, 5 DRAINING. -/
def State.srvState (s : State) (h v : Nat) : Nat := s.fld (Reg.GWK_SRV h v) Fl.GWK_SRV_STATE

/-- Set it. -/
def State.setSrvState (s : State) (h v st : Nat) : State := s.setFld (Reg.GWK_SRV h v) Fl.GWK_SRV_STATE st

/-- Flow enabled. -/
def State.flowEn (s : State) (h f : Nat) : Bool := s.bit (Reg.GWK_FLOW_CFG h f) Fl.GWK_FLOW_CFG_EN

/-- Delayed items of flow f. -/
def State.delayedOf (s : State) (h f : Nat) : Nat := ((s.gwk h).delay.filter (fun x => x.1 == f)).length

/-- The state of a flow: the first row of the table of R204 whose condition holds. -/
def State.flowState (s : State) (h f : Nat) : Nat :=
  let x := s.flow h f
  if !s.flowEn h f then 5
  else if x.parked then 4
  else if x.svc.isSome then 2
  else if !x.ready.isEmpty then 1
  else if s.delayedOf h f ≠ 0 then 3
  else 0

/-- Bring GWK_FLOW_STAT_f in line (R204). -/
def State.flowSync (s : State) (h f : Nat) : State :=
  let a := Reg.GWK_FLOW_STAT h f
  (s.setFld a Fl.GWK_FLOW_STAT_STATE (s.flowState h f)).setFld a Fl.GWK_FLOW_STAT_QUEUED
    ((s.flow h f).ready.length + s.delayedOf h f)

/-- Change a flow and bring its status in line. -/
def State.modFlow (s : State) (h f : Nat) (g : GFlow → GFlow) : State :=
  (s.modGwk h (fun x => { x with flows := Sparse.set x.flows {} f (g (Sparse.get x.flows {} f)) })).flowSync h f

/-- Items held in the hall (R200 row 5). -/
def State.gwkItems (s : State) (h : Nat) : Nat := s.fld (Reg.GWK_STAT h) Fl.GWK_STAT_ITEMS

/-- n items are freed. -/
def State.freeItems (s : State) (h n : Nat) : State :=
  s.setFld (Reg.GWK_STAT h) Fl.GWK_STAT_ITEMS (s.gwkItems h - n)

/-- The delay list's entries in use are shown. -/
def State.delaySync (s : State) (h : Nat) : State :=
  s.setFld (Reg.GWK_DLY h) Fl.GWK_DLY_USED (s.gwk h).delay.length

/-- FLOW of a descriptor (R197). -/
def dFlow (d : BitVec 256) : Nat := bitsOf d.toNat 0 12
/-- CLASS of a descriptor. -/
def dClass (d : BitVec 256) : Nat := bitsOf d.toNat 12 6
/-- DUE_EN of a descriptor. -/
def dDueEn (d : BitVec 256) : Bool := bitOf d.toNat 18
/-- ISEQ of a descriptor. -/
def dIseq (d : BitVec 256) : Nat := bitsOf d.toNat 104 24
/-- DUE of a descriptor. -/
def dDue (d : BitVec 256) : Nat := bitsOf d.toNat 128 32
/-- Set RETRY of a descriptor. -/
def dRetry (d : BitVec 256) : BitVec 256 := putBits d 24 1 1

/-- TNOW of hall h (R218): the hall time base in ticks of DIV × 6.4 ns. -/
def State.tnow (s : State) (h : Nat) : Nat :=
  s.clk.tb.toNat * 10 / (max 1 (s.fld (Reg.GWK_TICK h) Fl.GWK_TICK_DIV) * 4194304) % 2 ^ 32

/-- DUE − TNOW as a signed number (R218). -/
def State.dueIn (s : State) (h : Nat) (d : BitVec 256) : Int := signedOf 32 (dDue d + 2 ^ 32 - s.tnow h)

/-! ## The decision trace (R230) -/

/-- Records of the ring: 4,096 on chip, or 256 × 2^(SIZE − 1) in HBM. -/
def traceRecs (size : Nat) : Nat := if size = 0 then 4096 else 256 * 2 ^ (size - 1)

/-- A record is lost. -/
def State.traceLost (s : State) (h : Nat) : State :=
  let s := s.incFld (Reg.GWK_TRACE_PTR h) Fl.GWK_TRACE_PTR_LOST 1
  s.postLim Ev.TRACE_LOST h ms h 63 [(14, s.fld (Reg.GWK_TRACE_PTR h) Fl.GWK_TRACE_PTR_LOST)]

/-- Advance NEXT past a record written. -/
def State.traceAdvance (s : State) (h n : Nat) : State :=
  let a := Reg.GWK_TRACE_PTR h
  let i := s.fld a Fl.GWK_TRACE_PTR_NEXT + 1
  if i < n then s.setFld a Fl.GWK_TRACE_PTR_NEXT i
  else (s.setFld a Fl.GWK_TRACE_PTR_NEXT 0).setFld a
    (if s.bit (Reg.GWK_TRACE_CFG h) Fl.GWK_TRACE_CFG_STOP then Fl.GWK_TRACE_PTR_STOPPED else Fl.GWK_TRACE_PTR_WRAPPED) 1

/-- The write of one record to the HBM ring: 16 bytes of a 64-byte unit, tag 1001 (log 12). -/
def traceWrite (h a : Nat) (r : BitVec 128) : Packet :=
  let m := hallOfStack (a / 0x1000000000)
  { unitPacket h 32 0 m 33 0 2 0 1001 with
      units := 1, addr := BitVec.ofNat 48 (a / 64 * 64), beFirst := BitVec.ofNat 64 (0xFFFF <<< (a % 64)),
      data := [BitVec.ofNat 512 (r.toNat <<< (8 * (a % 64)))] }

/-- Write a record (R230). Whether a record for HBM can be written at once is open: a free value decides. -/
def State.gwkTrace (s : State) (h flow cls target reason iseq arg : Nat) : State :=
  let c := Reg.GWK_TRACE_CFG h
  let p := Reg.GWK_TRACE_PTR h
  if !s.bit c Fl.GWK_TRACE_CFG_EN || !bitOf (s.fld c Fl.GWK_TRACE_CFG_MASK) reason || s.bit p Fl.GWK_TRACE_PTR_STOPPED then s
  else
    let prio := s.fld (Reg.GWK_CLASS_A h cls) Fl.GWK_CLASS_A_PRIO
    let r := BitVec.ofNat 128 (packBits [(48, s.tbNs), (12, flow), (6, cls), (3, prio), (7, target), (4, reason), (24, iseq),
      (24, arg)])
    let size := s.fld c Fl.GWK_TRACE_CFG_SIZE
    let i := s.fld p Fl.GWK_TRACE_PTR_NEXT
    if size = 0 then
      (s.modGwk h (fun g => { g with trace := Sparse.put g.trace i r })).traceAdvance h 4096
    else
      let base := s.fld (Reg.GWK_TRACE_BASE h) Fl.GWK_TRACE_BASE_BASE * 0x1000
      let n := traceRecs size
      let fits := base % (16 * n) == 0 && decide (base < 0x4000000000) &&
        decide (base % 0x1000000000 + 16 * n ≤ 0x900000000)
      if !fits then s.traceLost h
      else if bitOf (Config.freeWord s.free).toNat 0 then s.draw.traceLost h
      else (s.draw.send (traceWrite h (base + 16 * i) r)).traceAdvance h n

/-! ## Servers (R208, R223) -/

/-- Server v's gallery, and the gallery number G of gallery g of hall h. -/
def srvGal (h g : Nat) : Nat := 32 * h + g

/-- Server numbers of gallery g. -/
def srvsOf (g : Nat) : List Nat := [4 * g, 4 * g + 1, 4 * g + 2, 4 * g + 3]

/-- Show what server v's plane holds (R128, R208). -/
def State.showSrv (s : State) (h v st id : Nat) : State :=
  let r := st == 2 || st == 3
  let a := Reg.GWK_SRV h v
  ((s.modSrv h v (fun x => { x with pstate := st })).setFld a Fl.GWK_SRV_RESIDENT (b2n r)).setFld a Fl.GWK_SRV_IMAGE_ID
    (if r then id else 0)


/-- Whether gallery g has servers. -/
def State.hasServers (s : State) (h g : Nat) : Bool := (srvsOf g).any (fun v => s.srvState h v != 0)

/-- Servers of gallery g are added (R223): the loader reports its planes. -/
def State.addServers (s : State) (h g : Nat) : State :=
  let G := srvGal h g
  let s := (List.range 4).foldl (fun s p =>
    let v := 4 * g + p
    ((s.modSrv h v (fun _ => {})).setReg (Reg.GWK_SRV h v) 0 |>.setSrvState h v 1).showSrv h v (s.planeState G p)
      (s.fld (Reg.GAL_PLANE G p) Fl.GAL_PLANE_IMAGE_ID)) s
  let s := s.setFld (Reg.GAL_CTX_STAT G) Fl.GAL_CTX_STAT_SERVERS 0xF
  (s.post Ev.SRV_ADDED h g []).gwkTrace h 0 0 (4 * g) 13 0 (2 * g)

/-- Add the servers of gallery g where R223 has them: Gweak works, SRC is SCHEDULED, the gallery-logic domain is ON, none are there. -/
def State.addServersIf (s : State) (h g : Nat) : State :=
  if s.gwkOn h && s.ctxSrc (srvGal h g) == 2 && s.domOn h g && !s.hasServers h g then s.addServers h g else s

end Sys2Proof.Machine
end

