-- ==== Sys2Proof/Machine/Gallery.lean ====
section
/-!
DEFINITION. Machine/Gallery.lean: the fabric, endpoint and gallery-reset commands (chapter 03): mezzanine contention, gallery clock
selection, the Omist endpoint, and gallery resets; and the fabric state that switches and resets move (R130, R131).
-/
namespace Sys2Proof.Machine

/-! ## Fabric state -/

/-- The flip-flop bits of the fabric state. -/
def ffMask : FabricBits := BitVec.ofNat 151296 (2 ^ 49152 - 1)

/-- Store step of R130: the shadow of the outgoing plane and the shared shadow. -/
def storeShadow (priv live shadow : FabricBits) : FabricBits := (shadow &&& ~~~ priv) ||| (live &&& priv)

/-- Store step of R130 for the shared shadow. -/
def storeShared (priv live shared : FabricBits) : FabricBits := (shared &&& priv) ||| (live &&& ~~~ priv)

/-- Load step of R130: private bits from the incoming plane's shadow, the others from the shared shadow. -/
def loadLive (priv shadow shared : FabricBits) : FabricBits := (shadow &&& priv) ||| (shared &&& ~~~ priv)

/-- Store step of plane p of gallery G. -/
def State.storeState (s : State) (G p : Nat) : State :=
  let priv := (s.planeInfo G p).priv
  s.modGal G (fun g =>
    { g with shadow := Sparse.set g.shadow 0 p (storeShadow priv g.live (Sparse.get g.shadow 0 p)),
             shared := storeShared priv g.live g.shared })

/-- Load step of plane q of gallery G. -/
def State.loadState (s : State) (G q : Nat) : State :=
  let priv := (s.planeInfo G q).priv
  s.modGal G (fun g => { g with live := loadLive priv (Sparse.get g.shadow 0 q) g.shared })

/-- Live values and the shared shadow take the INIT values of plane q (R131). -/
def State.initState (s : State) (G q : Nat) : State :=
  let i := (s.planeInfo G q).init
  s.modGal G (fun g => { g with live := i, shared := i })

/-- The shadow of plane q takes the INIT values of its image (R131). -/
def State.initShadow (s : State) (G q : Nat) : State :=
  let i := (s.planeInfo G q).init
  s.modGal G (fun g => { g with shadow := Sparse.set g.shadow 0 q i })

/-- The bits that m selects are captured: the design's logic makes of them what it will, a free value; those in idle are 0. -/
def State.captureBits (s : State) (G : Nat) (m idle : FabricBits) : State :=
  (s.modGal G (fun g => { g with live := ((g.live &&& ~~~ m) ||| (Config.freeFabric s.free &&& m)) &&& ~~~ idle })).draw

/-- The bits of plane p's flip-flops and facets whose branch toggles (R98). -/
def State.runningBits (s : State) (G p : Nat) : FabricBits :=
  (List.range 8).foldl (fun m n => if s.branchRuns G n then m ||| (s.planeInfo G p).fabric.domain n else m) 0

/-- Capture resumes under the active plane: flip-flops and facets that it does not use, and those of a stopped branch, keep their values;
a facet that it does not use holds 0 (R73, R83, R98). -/
def State.captureResumes (s : State) (G : Nat) : State :=
  match s.activePlane G with
  | none => s
  | some p => s.captureBits G (s.runningBits G p) (s.planeInfo G p).fabric.idleFacets

/-- Branch n of a gallery that is not presenting its borders begins to toggle: its bits are captured again (R98). -/
def State.branchCaptures (s : State) (G n : Nat) : State :=
  match s.activePlane G with
  | none => s
  | some p => if s.bordersHeld G then s
    else s.captureBits G ((s.planeInfo G p).fabric.domain n) (s.planeInfo G p).fabric.idleFacets

/-! ## Mezzanine tracks (R86 to R95) -/

/-- The galleries (0 to 31) that a track spans (R86). -/
def trackGals (n : Nat) : List Nat :=
  if n < 3072 then
    let r := n / 768
    let q := n / 256 % 3
    (List.range 4).map (fun i => 8 * r + 2 * q + i)
  else
    let c := (n - 3072) / 256
    (List.range 4).map (fun i => 8 * i + c)

/-- The tracks that pass above gallery g (0 to 31). -/
def tracksOver (g : Nat) : List Nat := (List.range 5120).filter (fun n => (trackGals n).contains g)

/-- The track that selector position e of stair k of gallery g reaches: one of the two attach positions of a track in that gallery
belongs to it. Each of a track's eight attach positions, two in each gallery that it spans, belongs to one stair at most (R86). -/
def stairTrack (g : Nat) (k : Fin 192) (e : Fin 8) : Option Nat :=
  (tracksOver g).find? (fun n => Config.attachOf g n 0 == some (k, e) || Config.attachOf g n 1 == some (k, e))

/-- The enabled stair drivers of a plane in gallery g, in the order of their stairs, with the track of each (R88). -/
def drivesOf (d : DesignInfo) (g : Nat) : List (Nat × Nat) :=
  (List.finRange 192).filterMap (fun k =>
    if (d.fabric.stair k).en then (stairTrack g k (d.fabric.stair k).sel).map (fun n => (k.val, n)) else none)

/-- Whether a plane drives a track from gallery g. -/
def drivesTrack (d : DesignInfo) (g n : Nat) : Bool := (drivesOf d g).any (fun x => x.2 == n)

/-- A plane is resident: READY or ACTIVE (R118), or it holds the complete image of a replacement load, whose claims the end of the
load added (R89). -/
def State.claims (s : State) (G p : Nat) : Bool :=
  s.planeState G p == 2 || s.planeState G p == 3 || (s.gal G).repl == some (p, .loaded)

/-- Planes of gallery G whose claims stand and whose image drives a track. -/
def State.residentDrivers (s : State) (G n : Nat) : List Nat :=
  (List.range 4).filter (fun p => s.claims G p && drivesTrack (s.planeInfo G p) (G % 32) n)

/-- The claim of a track of hall h (R88, R89): the gallery (0 to 31) that holds it and how many of its planes drive it. -/
def State.claimOf (s : State) (h n : Nat) : Option (Nat × Nat) :=
  ((trackGals n).map (fun g => (g, (s.residentDrivers (32 * h + g) n).length))).find? (fun x => x.2 != 0)

/-- Gallery g of hall h detected the last contention of a track while another gallery held the claim, so a driver of it is enabled that
an upset enabled; a pass over it since has put its frames right (R91, R93). -/
def State.upsetDriver (s : State) (h n g : Nat) : Bool :=
  (Sparse.get (s.hall h).mezzSeen [] n).contains g && (Sparse.get (s.hall h).mezzPass [] n).contains g
    && (s.claimOf h n).map (·.1) != some g

/-- The claim of a track is valid for every enabled driver: one gallery at most has a plane that drives it, and no gallery has a driver
that an upset enabled (R94). -/
def State.claimValid (s : State) (h n : Nat) : Bool :=
  ((trackGals n).filter (fun g => !(s.residentDrivers (32 * h + g) n).isEmpty)).length ≤ 1 &&
    !(trackGals n).any (s.upsetDriver h n)

/-- Whether a track is disabled (MEZZ_OFF). -/
def State.trackOff (s : State) (h n : Nat) : Bool := bitOf (s.fld (Reg.MEZZ_OFF h (n / 32)) Fl.MEZZ_OFF_BITS) (n % 32)

/-- Set or clear a track's MEZZ_OFF bit. -/
def State.setTrackOff (s : State) (h n : Nat) (b : Bool) : State :=
  s.setFldBit (Reg.MEZZ_OFF h (n / 32)) Fl.MEZZ_OFF_BITS (n % 32) b

/-- Lock a track off (R94). -/
def State.lockTrack (s : State) (h n : Nat) : State :=
  (s.modHall h (fun x => { x with mezzLocked := n :: x.mezzLocked.filter (· != n) })).post Ev.MEZZ_TRACK_LOCKED h 63 [(13, n)]

/-- Whether a contention recurs within the window of a re-enable (R94). -/
def State.recurs (s : State) (h n : Nat) : Bool :=
  let w := s.fld (Reg.MEZZ_CFG h) Fl.MEZZ_CFG_RECUR
  match Sparse.find (s.hall h).mezzRearm n with
  | some t => w != 0 && decide (s.now < t + w * 10 * ms)
  | none => false

/-- Contention on a track (R91, R93, R94); g1 and g2 are the galleries of the first two stairs that detected it. -/
def State.mezzContention (s : State) (h n g1 g2 : Nat) : State :=
  if s.trackOff h n then s
  else
    let rec0 := s.recurs h n
    let s := s.setTrackOff h n true
    let s := s.incFld (Reg.GAL_MEZZ_STAT (32 * h + g1)) Fl.GAL_MEZZ_STAT_CONT 1
    let s := if g1 = g2 then s else s.incFld (Reg.GAL_MEZZ_STAT (32 * h + g2)) Fl.GAL_MEZZ_STAT_CONT 1
    let s := s.post Ev.MEZZ_CONTENTION h g1 [(13, n), (5, g2)]
    let s := s.modHall h (fun x =>
      { x with mezzPass := Sparse.put x.mezzPass n (trackGals n), mezzSeen := Sparse.put x.mezzSeen n [g1, g2] })
    if rec0 || !s.bit (Reg.MEZZ_CFG h) Fl.MEZZ_CFG_AUTO_REARM then s.lockTrack h n else s

/-- Re-enable a track: its bit and lock clear, and the time is kept for R94. -/
def State.rearmTrack (s : State) (h n : Nat) : State :=
  let t := s.now
  (s.setTrackOff h n false).modHall h (fun x =>
    { x with mezzLocked := x.mezzLocked.filter (· != n), mezzRearm := Sparse.put x.mezzRearm n t,
             mezzPass := Sparse.del x.mezzPass n, mezzSeen := Sparse.del x.mezzSeen n })

/-- The priority passes of a contended track have completed (R93); when AUTO_REARM has been cleared since the contention, the track is
locked now (R94). -/
def State.mezzRearmed (s : State) (h n : Nat) : State :=
  if s.trackOff h n && !(s.hall h).mezzLocked.contains n && (Sparse.get (s.hall h).mezzPass [] n).isEmpty then
    if s.bit (Reg.MEZZ_CFG h) Fl.MEZZ_CFG_AUTO_REARM then (s.rearmTrack h n).post Ev.MEZZ_REARMED h 63 [(13, n)]
    else s.lockTrack h n
  else s

/-- One bit of a write to MEZZ_OFF_j (R94). -/
def State.mezzOffBit (s : State) (h n : Nat) : State :=
  if s.trackOff h n && s.claimValid h n then s.rearmTrack h n else s

/-- A write of v to MEZZ_OFF_j (R94). -/
def State.mezzOffWrite (s : State) (h j : Nat) (v : Word) : State :=
  (List.range 32).foldl (fun s i => if bitOf v.toNat i then s.mezzOffBit h (32 * j + i) else s) s

/-! ## Borders (R100 to R103, R119, R139, R358) -/

/-- Groups 21 to 34 exist only in edge galleries, those of columns 0 and 7 (R100). -/
def groupExists (G grp : Nat) : Bool := grp < 21 || (grp < 35 && (G % 8 == 0 || G % 8 == 7))

/-- Signals of an output group (R100): 63 and 45 to the pads, 168 to the lanes, 544 to the Ethernet stream, else 64. -/
def groupWidth (grp : Nat) : Nat :=
  if grp = 21 then 63 else if grp = 22 then 45 else if grp = 25 then 40 else if grp = 34 then 32 else 64

/-- What an output group connects to (R100). -/
inductive GroupTo where
  /-- Input group k on the side of the neighbour that faces this gallery. -/
  | side (d : Dir) (k : Nat)
  /-- Stairs from 64 i. -/
  | stairs (i : Nat)
  | endpoint
  | items
  /-- Pad pins of the gallery's 12, first and last. -/
  | pads (lo hi : Nat)
  /-- 64 of the 168 lane transmit signals, from the given one. -/
  | lanes (lo : Nat)
  /-- 64 of the 544 Ethernet transmit signals, from the given one. -/
  | ethernet (lo : Nat)
  deriving DecidableEq, Repr

/-- Directions by side number. -/
def sideDir (n : Nat) : Dir := if n = 0 then .n else if n = 1 then .e else if n = 2 then .s else .w

/-- What output group grp connects to (R100). -/
def groupTo (grp : Nat) : GroupTo :=
  if grp < 16 then .side (sideDir (grp / 4)) (grp % 4)
  else if grp < 19 then .stairs (64 * (grp - 16))
  else if grp = 19 then .endpoint
  else if grp = 20 then .items
  else if grp = 21 then .pads 0 6
  else if grp = 22 then .pads 7 11
  else if grp < 26 then .lanes (64 * (grp - 23))
  else .ethernet (64 * (grp - 26))

/-- Groups 19, 20 and 26 to 34 have no mode: they present ZERO (R101). -/
def fixedZero (grp : Nat) : Bool := grp == 19 || grp == 20 || 26 ≤ grp

/-- The mode that an image's BORDER gives a group, groups 0 to 18 then 21 to 25 (R346): 0 HOLD, 1 ZERO, 2 ONE. -/
def groupMode (i : Image) (grp : Nat) : Nat := bitsOf i.border.toNat (2 * if grp < 19 then grp else grp - 2) 2

/-- The image whose modes a gallery loaded with ACT set presents during the boot phase, before its plane is ACTIVE (R358). -/
def State.bootImg (s : State) (G : Nat) : Option Image :=
  match s.boot.img.gals.find? (fun g => g.G == G) with
  | some g => if s.boot.phase == .load && g.act && s.planeState G g.active == 2 then some (s.planeImg G g.active) else none
  | none => none

/-- The image whose modes are in force while the borders are presented: with no active plane, and none being replaced, only that of
R358, else that of the last active plane. -/
def State.borderImg (s : State) (G : Nat) : Option Image :=
  if s.noPlane G && !(s.gal G).bRepl then s.bootImg G else (s.gal G).held

/-- What an output group presents (R101, R119, R139, R149, R358): by the mode of the image in force. HOLD keeps the value of the cycle
before, or in the boot phase what INIT values give, a free value; so does the reserved mode. Without an image every group presents
ZERO. -/
def State.presented (s : State) (G grp : Nat) : BitVec 64 :=
  if fixedZero grp then 0
  else match s.borderImg G with
    | none => 0
    | some i =>
      let ones : BitVec 64 := BitVec.ofNat 64 (2 ^ groupWidth grp - 1)
      if groupMode i grp = 1 then 0 else if groupMode i grp = 2 then ones
      else Config.freeGroup (s.gal G).heldAt grp &&& ones

/-- What an output group of gallery G carries, given what the design makes of each: the presented value while the borders are
presented. -/
def State.groupOut (s : State) (design : Nat → Nat → BitVec 64) (G grp : Nat) : BitVec 64 :=
  if s.bordersHeld G then s.presented G grp else design G grp

/-- The opposite side. -/
def Dir.opposite : Dir → Dir
  | .n => .s
  | .e => .w
  | .s => .n
  | .w => .e

/-- The number of a side: N, E, S, W. -/
def Dir.num : Dir → Nat
  | .n => 0
  | .e => 1
  | .s => 2
  | .w => 3

/-- The neighbour of a gallery on a side, in its own hall; none at the edge of the hall (R102). -/
def neighbour (G : Nat) (d : Dir) : Option Nat := (d.step 4 8 (G % 32 / 8, G % 8)).map (fun p => 32 * (G / 32) + 8 * p.1 + p.2)

/-- Input group k of a gallery on a side: output group k of the facing side of its neighbour there, and 0 where it has none, so that no
group crosses between halls (R100, R102). -/
def State.groupIn (s : State) (design : Nat → Nat → BitVec 64) (G : Nat) (d : Dir) (k : Nat) : BitVec 64 :=
  match neighbour G d with
  | some n => s.groupOut design n (4 * d.opposite.num + k)
  | none => 0

/-- The image whose stair drivers and selectors are in force: while the borders are presented, the one that was active before (R103). -/
def State.stairImg (s : State) (G : Nat) : Option Image :=
  if s.bordersHeld G then (s.gal G).held else (s.activePlane G).map (s.planeImg G)

/-- The stairs whose enabled drivers now act on a track of hall h, as gallery (0 to 31) and stair (R87, R91, R95, R103): none while the
track is disabled. -/
def State.drivers (s : State) (h n : Nat) : List (Nat × Nat) :=
  if s.trackOff h n then []
  else (trackGals n).flatMap (fun g => match s.stairImg (32 * h + g) with
    | none => []
    | some i => ((drivesOf (Config.designInfo i.frames) g).filter (fun x => x.2 == n)).map (fun x => (g, x.1)))

/-- The value of a mezzanine track, given the group outputs of the designs: what its driver drives, through stair group 16 + k / 64, and
0 with no driver (R87, R100). -/
def State.trackValue (s : State) (design : Nat → Nat → BitVec 64) (h n : Nat) : Bool :=
  match s.drivers h n with
  | [] => false
  | (g, k) :: _ => (s.groupOut design (32 * h + g) (16 + k / 64)).getLsbD (k % 64)

/-- What the receiver of stair k delivers to the fabric of gallery G: 0 where the active plane does not connect it (R87, R95). -/
def State.stairIn (s : State) (design : Nat → Nat → BitVec 64) (G : Nat) (k : Fin 192) : Bool :=
  match s.activePlane G with
  | none => false
  | some p =>
    let c := (s.planeInfo G p).fabric.stair k
    c.recv && match stairTrack (G % 32) k c.sel with
      | some n => s.trackValue design (G / 32) n
      | none => false

/-- The borders of a gallery are about to be presented: the active image's modes and stairs stay in force, and its groups' values are
kept (R103, R139). -/
def State.holdBorders (s : State) (G : Nat) : State :=
  if s.bordersHeld G then s
  else
    let i := (s.activePlane G).map (s.planeImg G)
    let n := s.free
    (s.modGal G (fun g => { g with held := i, heldAt := n })).draw

/-! ## Gallery clocks (R96 to R99, R414) -/

/-- The pad word clock that serialiser clock c (0 to 3) of hall h takes comes from fabric PLL i (R407). -/
def State.padFrom (s : State) (h c i : Nat) : Bool :=
  let a := Reg.HCLK_PAD h (c / 2) (c % 2)
  s.bit a Fl.HCLK_PAD_EN && s.fld a Fl.HCLK_PAD_SRC / 4 == i

/-- A loss takes clock domain d of hall h with it (R407, R414): REFCLK every PLL fed from it, LREF the lanes of its quad that select
it, a fabric PLL its outputs and the pad clocks taken from them. -/
def State.lossTakes (s : State) (h d : Nat) (l : Lost) : Bool :=
  if l.hall = 15 then
    d < 24 || (56 ≤ d && d < 64) ||
      (24 ≤ d && d < 40 && s.fld (Reg.HCLK_LREF h ((d - 24) / 4)) Fl.HCLK_LREF_SRC == 1)
  else if l.hall != h then false
  else if 0x50 ≤ l.src then (d < 24 && d / 4 == l.src - 0x50) || (60 ≤ d && d < 64 && s.padFrom h (d - 60) (l.src - 0x50))
  else if 0x40 ≤ l.src then 24 ≤ d && d < 40 && (d - 24) / 4 == l.src - 0x40
      && s.fld (Reg.HCLK_LREF h ((d - 24) / 4)) Fl.HCLK_LREF_SRC == 0
  else l.src == d

/-- A lane that is neither ACTIVE nor QUIET has no receive clock (R414). -/
def State.laneQuiet (s : State) (h l : Nat) : Bool :=
  let st := s.fld (Reg.LANE_STAT h l) Fl.LANE_STAT_STATE
  st != 3 && st != 4

/-- Whether clock domain d of hall h is now lost. -/
def State.domainLost (s : State) (h d : Nat) : Bool :=
  s.clk.lost.any (s.lossTakes h d) || (40 ≤ d && d < 56 && s.laneQuiet h (d - 40))

/-- The enable of a branch for the hall's clock mode (R98, R413). -/
def State.branchEnabled (s : State) (G n : Nat) : Bool :=
  let m := s.fld (Reg.HCLK_MODE (G / 32)) Fl.HCLK_MODE_MODE
  if m = 0 then s.bit (Reg.GAL_CLKSEL G n) Fl.GAL_CLKSEL_RUN
  else if m = 1 then s.bit (Reg.GAL_CLKSEL G n) Fl.GAL_CLKSEL_SLEEP
  else s.bit (Reg.GAL_CLKSEL G n) Fl.GAL_CLKSEL_DEEP

/-- The source of a branch. -/
def State.branchSrc (s : State) (G n : Nat) : Nat := s.fld (Reg.GAL_CLKSEL G n) Fl.GAL_CLKSEL_SRC

/-- A clock domain of hall h toggles (R406, R407): its PLL has locked, a fabric output is enabled, a lane is sending or
receiving; and it is not lost. -/
def State.srcRuns (s : State) (h d : Nat) : Bool :=
  let a := Reg.HCLK_STAT h
  !s.domainLost h d &&
    (if d < 24 then
      bitOf (s.fld a Fl.HCLK_STAT_PLL_LOCK) (d / 4) && s.bit (Reg.HCLK_PLLOUT h (d / 4) (d % 4)) Fl.HCLK_PLLOUT_EN
    else if d < 40 then s.bit (Reg.LANE_STAT h (d - 24)) Fl.LANE_STAT_PLL_LOCK
    else if d < 56 then !s.laneQuiet h (d - 40)
    else if d < 60 then bitOf (s.fld a Fl.HCLK_STAT_ETH_LOCK) (d - 56)
    else bitOf (s.fld a Fl.HCLK_STAT_PAD_LOCK) (d - 60))

/-- The branches that a gallery's active plane uses: its flip-flops' and facets' clocks and the context clock. -/
def State.usedBranches (s : State) (G : Nat) : Nat :=
  match s.activePlane G with
  | none => 0
  | some p => (s.planeInfo G p).fabric.clocks ||| (1 <<< s.fld (Reg.GAL_CTX_CFG G) Fl.GAL_CTX_CFG_CCLK)

/-- A gallery held for clock loss has a used branch without its clock (R415). -/
def State.clkStopped (s : State) (G : Nat) : Bool :=
  (s.gal G).bClk &&
    (List.range 8).any (fun n => bitOf (s.usedBranches G) n && s.domainLost (G / 32) (s.branchSrc G n))

/-- The gallery clocks of the image that was active before the borders were presented. -/
def State.heldClocks (s : State) (G : Nat) : Nat := match (s.gal G).held with
  | some i => (Config.designInfo i.frames).fabric.clocks
  | none => 0

/-- The gallery clocks of the active plane's flip-flops and facets. -/
def State.activeClocks (s : State) (G : Nat) : Nat := match s.activePlane G with
  | some p => (s.planeInfo G p).fabric.clocks
  | none => 0

/-- The branches that take part in a switch or replacement under way (R129, R148): used by the outgoing plane or by the incoming one.
While an IQ request is part-way across, or a reset holds the gallery, a pending switch stops none (DEDUCED, log 65: R135 and R113 put
its E0 off, and the request needs its clock). -/
def State.takingPart (s : State) (G : Nat) : Nat :=
  let g := s.gal G
  if g.switching then s.heldClocks G ||| s.activeClocks G
  else match g.repl with
    | some (p, _) => s.heldClocks G ||| (s.planeInfo G p).fabric.clocks
    | none =>
      if s.bit (Reg.GAL_CTX_STAT G) Fl.GAL_CTX_STAT_PENDING && g.iqPart.isNone && g.rst == .none then
        s.activeClocks G ||| (s.planeInfo G (s.fld (Reg.GAL_CTX_STAT G) Fl.GAL_CTX_STAT_PEND_PLANE)).fabric.clocks
      else 0

/-- Branch n is stopped for a switch or replacement: it takes part and is not the context clock (R129). -/
def State.switchStops (s : State) (G n : Nat) : Bool :=
  bitOf (s.takingPart G) n && s.fld (Reg.GAL_CTX_CFG G) Fl.GAL_CTX_CFG_CCLK != n

/-- Branch n of gallery G toggles: its source runs, its enable for the clock mode is set, and no change of source, loss, switch or
replacement stops it (R97, R98, R99, R129, R415). -/
def State.branchOn (s : State) (G n : Nat) : Bool :=
  s.clk.galOn && s.domOn (G / 32) (G % 32) && s.branchEnabled G n && s.srcRuns (G / 32) (s.branchSrc G n)
    && !bitOf (s.fld (Reg.GAL_CLKSTAT G) Fl.GAL_CLKSTAT_SWITCHING) n && !(bitOf (s.usedBranches G) n && s.clkStopped G)
    && !s.switchStops G n

/-- What waits for a context-clock edge takes effect when the context clock runs: a change of SRC, with the servers that Gweak adds when
SRC becomes SCHEDULED, and changed bank limits (R122, R151, R223). -/
def State.contextEdge (s : State) (G : Nat) : State :=
  if s.contextClockRuns G && ((s.gal G).srcNext.isSome || !(s.gal G).maskOld.isEmpty) then
    let s1 := match (s.gal G).srcNext with
      | some n =>
        let t := s.setFld (Reg.GAL_CTX_CFG G) Fl.GAL_CTX_CFG_SRC n
        if n = 2 then t.addServersIf (G / 32) (G % 32) else t
      | none => s
    s1.modGal G (fun g => { g with srcNext := none, maskOld := [] })
  else s

/-- Bring LOST and RUNNING of one branch in line; a branch that begins to toggle clocks its flip-flops and facets again. -/
def State.branchUpdate (s : State) (G n : Nat) : State :=
  let lost := s.domainLost (G / 32) (s.branchSrc G n)
  let run := s.branchOn G n
  let was := s.branchRuns G n
  let s := (s.setFldBit (Reg.GAL_CLKSTAT G) Fl.GAL_CLKSTAT_LOST n lost).setFldBit (Reg.GAL_CLKSTAT G) Fl.GAL_CLKSTAT_RUNNING n run
  if run && !was then (s.branchCaptures G n).contextEdge G else s

/-- The same for the eight branches of a gallery. -/
def State.branchesUpdate (s : State) (G : Nat) : State := (List.range 8).foldl (fun s n => s.branchUpdate G n) s

/-- The active plane of gallery G uses a clock now lost (R415). -/
def State.usesLost (s : State) (G : Nat) : Bool :=
  (List.range 8).any (fun n => bitOf (s.usedBranches G) n && s.domainLost (G / 32) (s.branchSrc G n))

/-- After a loss or a return: galleries that use a lost clock present their borders, and branches follow (R415, R416). -/
def State.galClockCheck (s : State) (G : Nat) : State :=
  (if s.usesLost G then (s.holdBorders G).modGal G (fun g => { g with bClk := true }) else s).branchesUpdate G

/-- The same for the galleries of a hall. -/
def State.hallClockCheck (s : State) (h : Nat) : State := (List.range 32).foldl (fun s g => s.galClockCheck (32 * h + g)) s

/-- A switch or replacement begins, is given up or ends: the branches that take part stop or restart (R129, R148). -/
def State.switchStarts (s : State) (G : Nat) : State := s.branchesUpdate G

/-- A write of GAL_CLKSEL_n (R96 to R98). -/
def State.galClkselWrite (s : State) (G n : Nat) (v : Word) : State :=
  let old := s.branchSrc G n
  let s := s.writeFields (Reg.GAL_CLKSEL G n) v
  let s := if s.branchSrc G n = old then s
    else s.setFldBit (Reg.GAL_CLKSTAT G) Fl.GAL_CLKSTAT_SWITCHING n true
  s.branchUpdate G n

/-- The new source of gallery clock n starts (R97). -/
def State.galClkSwitchDone (s : State) (G n : Nat) : State :=
  if bitOf (s.fld (Reg.GAL_CLKSTAT G) Fl.GAL_CLKSTAT_SWITCHING) n then
    (s.setFldBit (Reg.GAL_CLKSTAT G) Fl.GAL_CLKSTAT_SWITCHING n false).branchUpdate G n
  else s

/-! ## The endpoint (R104 to R109, R502) -/

/-- Bank of an offset in a gallery's memory window (R159). -/
def bankOf (off : Nat) : Nat := off / 0x40000 % 32

/-- Who serves a management address (R36, R37, R239): hall h's agent for a block of hall h; none for hall 0's manager, which serves the
package-level blocks and every address outside the hall blocks. -/
def regHall (m : Nat) : Option Nat := if hallOfAddr m < 8 then some (hallOfAddr m) else none

/-- The destination of a system-space address (R239): hall, node, port; none where it maps nowhere (R37). -/
def destOf (a : Nat) : Option (Nat × Nat × Nat) :=
  if a < 0x4000000000 then
    if a % 0x1000000000 < 0x900000000 then some (hallOfStack (a / 0x1000000000), 33, 0) else none
  else if 0x8000000000 ≤ a ∧ a < 0x8100000000 then
    let G := (a - 0x8000000000) / 0x1000000
    if a % 0x1000000 < 0x800000 then some (G / 32, G % 32, 2) else none
  else if vaultBase ≤ a ∧ a < vaultBase + 0x40000 then some (0, 36, 6)
  else if regBase ≤ a ∧ a < regBase + 0x100000000 then
    match regHall (a - regBase) with
    | some h => some (h, 35, 7)
    | none => some (0, 36, 7)
  else none

/-- First and last byte that a system-space request addresses: 64-byte units from ADDR, RUNITS of them for RD, QPOP and SRD, else
UNITS (R237). -/
def spanOf (p : Packet) : Nat × Nat :=
  let a := p.addr.toNat / 64 * 64
  let n := if p.cmd = 1 ∨ p.cmd = 4 ∨ p.cmd = 5 then p.runits.toNat else p.units.toNat
  (a, a + 64 * n - 1)

/-- The destination of a whole request: every byte must lie in one used region (R37). -/
def destOfReq (p : Packet) : Option (Nat × Nat × Nat) :=
  let (a, b) := spanOf p
  match destOf a with
  | none => none
  | some d => if b < a then some d else
    match destOf b with
    | none => none
    | some e => if e.2 = d.2 || (d.2.2 = 7 && e.2.2 = 7) then some d else none

/-- A command whose route is derived from ADDR (R239). -/
def routedCmd (c : Nat) : Bool := 1 ≤ c && c ≤ 6

/-- Requests outstanding at a gallery's endpoint: those that await their response and those whose response is held (R106, R136). A
request whose response is to be discarded stays outstanding until it comes (DEDUCED, log 66: R111 retires its tag then). -/
def epOutstanding (g : Gal) : Nat := g.epOut.length + g.ipHeld.length

/-- Present a response on IP to the plane that asked, or hold it while that plane is inactive (R136); one of a plane that is no
longer resident is discarded. -/
def State.deliverIP (s : State) (G plane : Nat) (r : Packet) : State :=
  if s.activePlane G = some plane then s.modGal G (fun g => { g with ipLast := some r })
  else if s.planeState G plane = 2 then s.modGal G (fun g => { g with ipHeld := g.ipHeld ++ [(plane, r)] })
  else s

/-- A response that the endpoint itself makes on IP. -/
def localRsp (G : Nat) (p : Packet) (st : OSt) : Packet :=
  rspOf { p with srcHall := BitVec.ofNat 3 (G / 32), srcNode := BitVec.ofNat 6 (G % 32), srcPort := 0 } st []

/-- The gallery can take a request on IQ: a plane is active, borders are not presented, no reset holds it (R101, R111). -/
def State.canIssue (s : State) (G : Nat) : Bool := (s.activePlane G).isSome && !s.bordersHeld G

/-- Banks of gallery G that a request to its own window touches. -/
def banksTouched (G : Nat) (p : Packet) : List Nat :=
  let (a, b) := spanOf p
  if memBase G ≤ a ∧ b < memBase G + 0x800000 then
    (List.range 32).filter (fun k => bankOf (a - memBase G) ≤ k && k ≤ bankOf (b - memBase G))
  else []

/-- The effective bank mask of plane p (R151). -/
def State.bmaskEff (s : State) (G p : Nat) : Word :=
  (s.planeImg G p).bmask &&& (Sparse.find (s.gal G).maskOld p).getD (s.reg (Reg.GAL_BMASK G p))

/-- A write of GAL_BMASK_p: the change governs from the next context-clock edge, at once when the context clock runs (R151). -/
def State.bmaskWrite (s : State) (G p : Nat) (v : Word) : State :=
  let old := s.reg (Reg.GAL_BMASK G p)
  let s1 := s.writeFields (Reg.GAL_BMASK G p) v
  if s.contextClockRuns G || (Sparse.find (s.gal G).maskOld p).isSome then s1
  else s1.modGal G (fun g => { g with maskOld := Sparse.put g.maskOld p old })

/-- Refuse an access by bank mask (R152). -/
def State.bankDenied (s : State) (G p bank path : Nat) : State :=
  (s.incFld (Reg.GAL_CTX_DROP G) Fl.GAL_CTX_DROP_DENIED 1).postLim Ev.BANK_DENIED G ms (G / 32) (G % 32)
    [(2, p), (5, bank), (1, path)]

/-- Send a request of plane p that has passed the endpoint's checks: the endpoint fills in source, route and channel. -/
def State.epSend (s : State) (G p : Nat) (r : Packet) : State :=
  let s := s.send r
  s.modGal G (fun g => { g with epOut := g.epOut ++ [⟨r.tag.toNat, p, r⟩] })

/-- The bank mask that governs the request now on IQ: that of its header's edge (R152). -/
def State.epMask (s : State) (G p : Nat) : Word := match (s.gal G).iqPart with
  | some x => x.2
  | none => s.bmaskEff G p

/-- A request as its endpoint completes it: the source, the plane now active and its mask (R105, R152, R389). -/
def epFilled (G p vc : Nat) (m : Word) (q : Packet) : Packet :=
  { q with srcHall := BitVec.ofNat 3 (G / 32), srcNode := BitVec.ofNat 6 (G % 32), srcPort := 0, vc := BitVec.ofNat 2 vc,
           hdiff := 0, fdiff := [], poison := false, cut := false, hops := 0, plane := BitVec.ofNat 2 p, bmask := m, spot := none }

/-- A request with its destination: hall, node and port. -/
def routedTo (r : Packet) (d : Nat × Nat × Nat) : Packet :=
  { r with dstHall := BitVec.ofNat 3 d.1, dstNode := BitVec.ofNat 6 d.2.1, dstPort := BitVec.ofNat 3 d.2.2 }

/-- The first bank a request touches outside a mask (R151, R152). -/
def bankOutside (m : Word) (G : Nat) (r : Packet) : Option Nat := (banksTouched G r).find? (fun b => !bitOf m.toNat b)

/-- A routed request is sent, unless the first bank it touches outside the mask is given: then it is refused (R152). -/
def State.epBanked (s : State) (G p : Nat) (r : Packet) (bank : Option Nat) : State :=
  match bank with
  | some b => (s.bankDenied G p b 1).deliverIP G p (localRsp G r .denied)
  | none => s.epSend G p r

/-- A routed request is sent, unless it touches a bank outside the plane's mask (R152). -/
def State.epRouted (s : State) (G p : Nat) (r : Packet) : State := s.epBanked G p r (bankOutside r.bmask G r)

/-- Where a request of an endpoint goes: by its address, or by the route that it gives (R239). -/
def epDest (r : Packet) : Option (Nat × Nat × Nat) :=
  if routedCmd r.cmd.toNat then destOfReq r else some (r.dstHall.toNat, r.dstNode.toNat, r.dstPort.toNat)

/-- A request of hall h goes to the hall's register agent, or in hall 0 to node 36: a partial reset of the hall lets it pass (R499). -/
def passesFrst (h : Nat) (r : Packet) : Bool := match epDest r with
  | some (a, n, port) => a == h && ((n == 35 && port == 7) || (h == 0 && n == 36))
  | none => false

/-- The whole request has been taken on IQ with virtual channel vc (R104 to R106, R152, R37, R57 step 2, R499). -/
def State.epActs (s : State) (G p vc : Nat) (r : Packet) : State :=
  if vc = 1 ∨ vc = 3 then
    ((s.deliverIP G p (localRsp G r .denied)).incFld (Reg.GAL_EP_STAT G) Fl.GAL_EP_STAT_VCERR 1).postGal
      Ev.EP_VC_REJECT G [(2, vc)]
  else if (s.gal G).epOut.any (fun o => o.tag == r.tag.toNat) ||
      (s.gal G).ipHeld.any (fun x => x.2.tag == r.tag) then
    ((s.deliverIP G p (localRsp G r .denied)).incFld (Reg.GAL_EP_STAT G) Fl.GAL_EP_STAT_TAGERR 1).postGal
      Ev.EP_TAG_REUSE G [(10, r.tag.toNat)]
  else if s.inFrst (G / 32) && !passesFrst (G / 32) r then s.deliverIP G p (localRsp G r .unavail)
  else if routedCmd r.cmd.toNat then
    match destOfReq r with
    | none => s.deliverIP G p (localRsp G r .absent)
    | some d => s.epRouted G p (routedTo r d)
  else s.epSend G p r

/-- A request of the endpoint is taken. -/
def State.epTaken (s : State) (G p vc : Nat) (m : Word) (q : Packet) : State := s.epActs G p vc (epFilled G p vc m q)

/-- The endpoint clock of a gallery runs: the branch that GAL_EP_CFG.ECLK selects toggles (R104). -/
def State.endpointRuns (s : State) (G : Nat) : Bool := s.branchRuns G (s.fld (Reg.GAL_EP_CFG G) Fl.GAL_EP_CFG_ECLK)

/-- IQ_READY at an edge of the endpoint clock (R101, R104, R106). -/
def State.iqReady (s : State) (G : Nat) : Bool :=
  s.canIssue G && s.endpointRuns G && decide (epOutstanding (s.gal G) < s.fld (Reg.GAL_EP_CFG G) Fl.GAL_EP_CFG_LIMIT)

/-- EP_REQUEST: with last clear only the FIRST unit has been taken; with last set the LAST unit is taken and the request acts. A switch
that waited for the request then stops its branches (R129, R135). -/
def State.epRequest (s : State) (G vc : Nat) (last : Bool) (q : Packet) : State :=
  if !s.iqReady G then s
  else match s.activePlane G with
    | none => s
    | some p =>
      if last then
        let t := (s.modGal G (fun g => { g with iqPart := none })).epTaken G p vc (s.epMask G p) q
        if s.bit (Reg.GAL_CTX_STAT G) Fl.GAL_CTX_STAT_PENDING then t.switchStarts G else t
      else s.modGal G (fun g => { g with iqPart := some (q.tag.toNat, s.bmaskEff G p) })

/-- Whether the gallery takes what the design gives at a context-clock edge (R101, R104). -/
def State.ctxTakes (s : State) (G : Nat) : Bool := s.canIssue G && s.contextClockRuns G

/-- DN_DONE (R108): the item of the active plane ends with the status the design gives. DESIGN CHOICE (log 67): a DN_VALID while the
plane's item still waits on IT unaccepted sends its DONE too, and the item stays presented. -/
def State.dnDone (s : State) (G status : Nat) : State :=
  if !s.ctxTakes G then s
  else match s.activePlane G with
    | none => s
    | some p =>
      if (s.gal G).it.any (fun i => i.plane == p && i.accepted) then
        (s.modGal G (fun g => { g with it := g.it.filter (fun i => !(i.plane == p && i.accepted)) })).send
          (donePacket G p (if status = 0 then 0 else if status = 1 then 1 else 3))
      else s.send (donePacket G p (if status = 0 then 0 else if status = 1 then 1 else 3))

/-- Tags that the endpoint uses for enqueues: 768 and up, one per enqueue outstanding (log 12). -/
def freeEqTag (g : Gal) : Nat :=
  ((List.range 16).find? (fun i => !g.eqOut.any (fun e => e.tag == 768 + i))).map (768 + ·) |>.getD 768

/-- Present the answered enqueues of the active plane, in the order of their acceptance up to the first that is not answered (R109,
R136); an answered enqueue of a plane that is lost, or from before a gallery reset, is retired. DEDUCED (log 68): the order of R109 is
kept for each plane, since R136 gives a plane its answers in its first cycle of activity. -/
def drainEq (active : Option Nat) (g : Gal) : Gal :=
  let kept := g.eqOut.filter (fun e => e.plane < 4 || e.answer.isNone)
  match active with
  | none => { g with eqOut := kept }
  | some p =>
    let due := (kept.filter (fun e => e.plane == p)).takeWhile (fun e => e.answer.isSome)
    { g with eqOut := kept.filter (fun e => !due.contains e),
             eqLast := match due.getLast? with
               | some e => e.answer
               | none => g.eqLast }

/-- An enqueue that the endpoint answers itself. -/
def State.eqAnswered (s : State) (G p tag st : Nat) : State :=
  s.modGal G (fun g => drainEq (some p) { g with eqOut := g.eqOut ++ [⟨p, tag, some st⟩] })

/-- EQ_ENQUEUE (R109): the enqueue goes to the Gweak of its flow's hall, at most 16 outstanding; absent Gweak answers ABSENT. Enqueues
whose answers are to be retired count until these come (DEDUCED, log 66). -/
def State.eqEnqueue (s : State) (G : Nat) (desc : BitVec 256) : State :=
  if !s.ctxTakes G || decide ((s.gal G).eqOut.length ≥ 16) then s
  else match s.activePlane G with
    | none => s
    | some p =>
      let tag := freeEqTag (s.gal G)
      if !s.part.gweak then s.eqAnswered G p tag 3
      else if s.inFrst (G / 32) then s.eqAnswered G p tag 4
      else
        (s.modGal G (fun g => { g with eqOut := g.eqOut ++ [⟨p, tag, none⟩] })).send
          { enqPacket (G / 32) (G % 32) 0 tag desc with eq := true }

/-- Whether the active plane takes target messages (R137). -/
def State.tqOpen (s : State) (G : Nat) : Bool :=
  match s.activePlane G with
  | some p => s.bit (Reg.GAL_PLANE G p) Fl.GAL_PLANE_TQ_EN && !s.bordersHeld G
  | none => false

/-- A unit of a target message on TQ (R107): the header unit, with the source route, TAG and ARG; or a data unit. -/
inductive TqUnit where
  | header (srcHall : BitVec 3) (srcNode : BitVec 6) (srcPort : BitVec 3) (tag : BitVec 10) (arg : BitVec 224)
  | data (d : BitVec 512)
  deriving DecidableEq, Repr

/-- Unit n of a message's run, with TQ_FIRST and TQ_LAST: the header, then its UNITS data units (R107). -/
def tqUnit (m : Packet) (n : Nat) : TqUnit × Bool × Bool :=
  (if n = 0 then .header m.srcHall m.srcNode m.srcPort m.tag m.arg else .data (m.data.getD (n - 1) 0),
    n == 0, n == m.data.length)

/-- MSG_ACCEPT (R107): at edges of the endpoint clock the design takes units of the message at the head of TQ: with last clear, the next
unit where it is not the last; with last set, those that remain, and the response is sent. -/
def State.msgAccept (s : State) (G : Nat) (last : Bool) : State :=
  if !s.tqOpen G || !s.endpointRuns G then s
  else match (s.gal G).tq with
    | [] => s
    | m :: r =>
      if last then (s.modGal G (fun g => { g with tq := r, tqTaken := 0 })).respond m .ok []
      else if (tqUnit m (s.gal G).tqTaken).2.2 then s
      else s.modGal G (fun g => { g with tqTaken := g.tqTaken + 1 })

/-- IT_ACCEPT (R108): the design takes the item presented to the active plane. -/
def State.itAccept (s : State) (G : Nat) : State :=
  if !s.ctxTakes G then s
  else match s.activePlane G with
    | none => s
    | some p => s.modGal G (fun g =>
        { g with it := g.it.map (fun i => if i.plane = p then { i with accepted := true } else i) })

/-! ## Gallery reset (R110 to R114) -/

/-- A write of GAL_RST (R110). -/
def State.galRst (s : State) (G : Nat) (v : Word) : State :=
  if fieldOf v Fl.GAL_RST_KEY = 0x5A ∧ fieldOf v Fl.GAL_RST_GO = 1 ∧ s.fld (Reg.GAL_RSTSTAT G) Fl.GAL_RSTSTAT_ACTIVE = 0
      ∧ s.fld (Reg.GAL_RSTSTAT G) Fl.GAL_RSTSTAT_PENDING = 0 then
    s.setFld (Reg.GAL_RSTSTAT G) Fl.GAL_RSTSTAT_PENDING 1
  else s

/-- The private flip-flop shadows of every resident plane but p take that plane's INIT (R111). -/
def State.resetShadows (s : State) (G p : Nat) : State :=
  (List.range 4).foldl (fun s q =>
    if q != p && s.planeState G q == 2 then
      let d := s.planeInfo G q
      let m := d.priv &&& ffMask
      s.modGal G (fun g =>
        { g with shadow := Sparse.set g.shadow 0 q ((Sparse.get g.shadow 0 q &&& ~~~ m) ||| (d.init &&& m)) })
    else s) s

/-- Flip-flops and facets at step 2 of a gallery reset: live values and C take the active plane's INIT, facets clear, the private
shadows of every other resident plane take that plane's INIT (R111, R131). DESIGN CHOICE (log 69): with no active plane, live flip-flops
and C keep their values, facets clear, and the shadows of every READY plane take INIT. -/
def State.resetFabric (s : State) (G : Nat) : State :=
  match s.activePlane G with
  | none => (s.modGal G (fun g => { g with live := g.live &&& ffMask })).resetShadows G 4
  | some p =>
    let i := (s.planeInfo G p).init
    (s.modGal G (fun g => { g with live := i &&& ffMask, shared := i })).resetShadows G p

/-- The item port reports every held item of the gallery's servers with status RESET (R111). -/
def State.resetItems (s : State) (G : Nat) : State :=
  let items := (s.gal G).it
  items.foldl (fun s i => s.send (donePacket G i.plane 2)) (s.modGal G (fun g => { g with it := [] }))

/-- The gallery's channels at step 2 of a reset (R111, R502): what is part-way across and what is held goes; what is outstanding is to
be discarded when it comes. A switch cycle that is open ends at this edge. -/
def resetHold (g : Gal) : Gal :=
  { g with
    rst := .hold, switching := false, iqPart := none, ipHeld := [], tqTaken := 0
    epOut := g.epOut.map (fun o => { o with plane := 4 })
    eqOut := g.eqOut.map (fun e => { e with plane := 4 })
    prism := g.prism.map (fun x => (x.1, x.2.map (fun r => { r with dropped := (if r.dropped = 0 then 2 else r.dropped) }))) }

/-- Step 2 of a gallery reset, at a context-clock edge (R111, R114, R502); a replacement under way comes first (R150). -/
def State.galResetEdge (s : State) (G : Nat) : State :=
  if s.bit (Reg.GAL_RSTSTAT G) Fl.GAL_RSTSTAT_PENDING && s.contextClockRuns G && ((s.gal G).repl).isNone then
    let s := (s.setFld (Reg.GAL_RSTSTAT G) Fl.GAL_RSTSTAT_PENDING 0).setFld (Reg.GAL_RSTSTAT G) Fl.GAL_RSTSTAT_ACTIVE 1
    (((((s.holdBorders G).resetFabric G).resetItems G).modGal G resetHold).modGal G (drainEq none)).switchStarts G
  else s

/-- Step 4: the flip-flops are released (R111). -/
def State.galResetRelease (s : State) (G : Nat) : State :=
  if (s.gal G).rst = .hold then s.modGal G (fun g => { g with rst := .released }) else s

/-- Step 5: borders released, ACTIVE clear, COUNT incremented, event (R111). -/
def State.galResetDone (s : State) (G : Nat) : State :=
  if (s.gal G).rst = .released then
    let s := s.modGal G (fun g => { g with rst := .none })
    let s := s.setFld (Reg.GAL_RSTSTAT G) Fl.GAL_RSTSTAT_ACTIVE 0
    let s := s.incFld (Reg.GAL_RSTSTAT G) Fl.GAL_RSTSTAT_COUNT 1
    let s := (s.captureResumes G).switchStarts G
    s.postGal Ev.GAL_RESET G [(16, s.fld (Reg.GAL_RSTSTAT G) Fl.GAL_RSTSTAT_COUNT)]
  else s

/-! ## Meanings -/

/-- MEZZ_CONTENTION (R91). -/
def execMezzContention (h : HallIx) (track : Fin 5120) (g1 g2 : Fin 32) (s : State) : Out := .next (s.mezzContention h track g1 g2)
/-- MEZZ_REARMED (R93). -/
def execMezzRearmed (h : HallIx) (track : Fin 5120) (s : State) : Out := .next (s.mezzRearmed h track)
/-- MEZZ_OFF_WRITE (R94). -/
def execMezzOffWrite (h : HallIx) (j : Fin 160) (v : Word) (s : State) : Out := .next (s.mezzOffWrite h j v)
/-- GAL_CLKSEL_WRITE (R97). -/
def execGalClkselWrite (G : GalIx) (n : Fin 8) (v : Word) (s : State) : Out := .next (s.galClkselWrite G n v)
/-- GAL_CLK_SWITCH_DONE (R97). -/
def execGalClkSwitchDone (G : GalIx) (n : Fin 8) (s : State) : Out := .next (s.galClkSwitchDone G n)
/-- EP_REQUEST (R104). -/
def execEpRequest (G : GalIx) (vc : Fin 4) (last : Bool) (p : Packet) (s : State) : Out := .next (s.epRequest G vc last p)
/-- DN_DONE (R108). -/
def execDnDone (G : GalIx) (status : Fin 4) (s : State) : Out := .next (s.dnDone G status)
/-- EQ_ENQUEUE (R109). -/
def execEqEnqueue (G : GalIx) (desc : BitVec 256) (s : State) : Out := .next (s.eqEnqueue G desc)
/-- MSG_ACCEPT (R107). -/
def execMsgAccept (G : GalIx) (last : Bool) (s : State) : Out := .next (s.msgAccept G last)
/-- IT_ACCEPT (R108). -/
def execItAccept (G : GalIx) (s : State) : Out := .next (s.itAccept G)
/-- GAL_RST (R110). -/
def execGalRst (G : GalIx) (v : Word) (s : State) : Out := .next (s.galRst G v)
/-- GAL_RESET_EDGE (R111). -/
def execGalResetEdge (G : GalIx) (s : State) : Out := .next (s.galResetEdge G)
/-- GAL_RESET_RELEASE (R111). -/
def execGalResetRelease (G : GalIx) (s : State) : Out := .next (s.galResetRelease G)
/-- GAL_RESET_DONE (R111). -/
def execGalResetDone (G : GalIx) (s : State) : Out := .next (s.galResetDone G)

end Sys2Proof.Machine
end

