-- ==== Sys2Proof/Machine/Planes.lean ====
section
/-!
DEFINITION. Machine/Planes.lean: context planes, plane loads, replacement and stored slots (chapter 04).
-/
namespace Sys2Proof.Machine

/-! ## Reports and residency (R117, R118, R128) -/

/-- Report a plane's state to Gweak when the gallery is SCHEDULED (R128): with the cause of a failed load, or as a refusal with its
reason (R143). -/
def State.reportPlane (s : State) (G p reason : Nat) (refused : Bool) : State :=
  if s.ctxSrc G = 2 && s.part.gweak then
    s.send (loadRptPacket G p (s.planeState G p) (s.fld (Reg.GAL_PLANE G p) Fl.GAL_PLANE_IMAGE_ID) reason refused)
  else s

/-- A plane ceases to be resident (R118): its image goes, its held responses are discarded and their tags retired (R136). -/
def State.loseResidency (s : State) (G p : Nat) : State :=
  s.modGal G (fun g =>
    { g with planes := Sparse.del g.planes p,
             ipHeld := g.ipHeld.filter (fun x => x.1 != p),
             epOut := g.epOut.map (fun o => if o.plane = p then { o with plane := 4 } else o),
             eqOut := g.eqOut.map (fun e => if e.plane = p then { e with plane := 4 } else e) })

/-- A plane becomes EMPTY (R117), which is reported where its state changes (R128). -/
def State.emptyPlane (s : State) (G p : Nat) : State :=
  let was := s.planeState G p
  let s := (s.loseResidency G p).clrReg (Reg.GAL_PLANE G p)
  if was = 0 then s else s.reportPlane G p 0 false

/-- Show an image in GAL_PLANE_p with a state and the slot it came from. -/
def State.showPlane (s : State) (G p st slot : Nat) (img : Image) : State :=
  s.setReg (Reg.GAL_PLANE G p)
    (BitVec.ofNat 32 (packBits [(3, st), (1, b2n img.tqEn), (4, 0), (5, slot), (3, 0), (16, img.id.toNat)]))

/-- Show a plane with no image in a state, with a failure cause. -/
def State.showNoImage (s : State) (G p st cause slot : Nat) : State :=
  s.setReg (Reg.GAL_PLANE G p) (BitVec.ofNat 32 (packBits [(3, st), (1, 0), (4, cause), (5, slot)]))

/-- The images now resident (GAL_CTX_STAT: active plane number and NONE). -/
def State.setActive (s : State) (G p : Nat) : State :=
  (s.setFld (Reg.GAL_CTX_STAT G) Fl.GAL_CTX_STAT_ACTIVE p).setFld (Reg.GAL_CTX_STAT G) Fl.GAL_CTX_STAT_NONE 0

/-! ## Selecting a plane (R120 to R127) -/

/-- Refuse a switch that source src asked for (R124, R125, R132): in DESIGN mode PR_NAK is high for a cycle, and the event is raised at
most once per millisecond. -/
def State.switchRefused (s : State) (G q src : Nat) : State :=
  let args := [(2, q), (3, s.planeState G q), (2, src)]
  if src = 1 then
    (s.modGal G (fun g => { g with nak := some s.now })).postLim Ev.CTX_SWITCH_REFUSED G ms (G / 32) (G % 32) args
  else s.postGal Ev.CTX_SWITCH_REFUSED G args

/-- PR_NAK of gallery G (R125): high in the cycle after a refusal, in DESIGN mode alone. -/
def State.prNak (s : State) (G : Nat) : Bool := s.ctxSrc G == 1 && (s.gal G).nak == some s.now

/-- A switch to q is requested (step 1 of the switch table): it is PENDING and the other taking-part branches begin to stop (R129).
DESIGN CHOICE (log 70): a request made while one is PENDING takes its place, and nothing but R132 and a plane that is no longer READY
withdraws one; the chapter gives neither. -/
def State.requestSwitch (s : State) (G q : Nat) : State :=
  ((s.setFld (Reg.GAL_CTX_STAT G) Fl.GAL_CTX_STAT_PENDING 1).setFld (Reg.GAL_CTX_STAT G) Fl.GAL_CTX_STAT_PEND_PLANE q).switchStarts G

/-- Servers of the gallery (GAL_CTX_STAT.SERVERS). -/
def State.servers (s : State) (G : Nat) : Nat := s.fld (Reg.GAL_CTX_STAT G) Fl.GAL_CTX_STAT_SERVERS

/-- A change of SRC is applied at the next context-clock edge: at once when the context clock runs (R122). -/
def State.srcChange (s : State) (G src : Nat) : State := (s.modGal G (fun g => { g with srcNext := some src })).contextEdge G

/-- A write of GAL_CTX_CFG by host software (R121 to R123): CCLK at once, and a pending switch then stops the branches that the new
context clock leaves to be stopped. -/
def State.ctxCfgWrite (s : State) (G : Nat) (v : Word) : State :=
  let a := Reg.GAL_CTX_CFG G
  let src := fieldOf v Fl.GAL_CTX_CFG_SRC
  let s := ((s.setFld a Fl.GAL_CTX_CFG_CCLK (fieldOf v Fl.GAL_CTX_CFG_CCLK)).branchesUpdate G).contextEdge G
  let now := (s.gal G).srcNext.getD (s.ctxSrc G)
  if src = 3 ∨ (src = 2 ∧ s.part.gweak = false) ∨ src = now then s
  else if s.ctxSrc G = 2 ∧ s.servers G ≠ 0 then
    s.postGal Ev.CTX_SRC_REFUSED G [(2, src), (4, s.servers G)]
  else s.srcChange G src

/-- A write of GAL_CTX_SEL by host software (R124): the active plane's number has no effect; one that asks for a switch to a plane that is
not READY is not applied. -/
def State.ctxSelWrite (s : State) (G : Nat) (v : Word) : State :=
  let q := fieldOf v Fl.GAL_CTX_SEL_PLANE
  let a := Reg.GAL_CTX_SEL G
  if s.activePlane G = some q then s
  else if s.ctxSrc G = 0 || (s.noPlane G && s.ctxSrc G != 2) then
    if s.planeState G q = 2 then (s.setFld a Fl.GAL_CTX_SEL_PLANE q).requestSwitch G q
    else s.switchRefused G q 0
  else s.setFld a Fl.GAL_CTX_SEL_PLANE q

/-- A request of the active plane's logic on the plane-request port (R125), at an edge of the context clock. -/
def State.planeRequest (s : State) (G q : Nat) : State :=
  if s.ctxSrc G != 1 || !s.contextClockRuns G then s
  else match s.activePlane G with
    | none => s
    | some p =>
      if q = p then s
      else if s.planeState G q = 2 then s.requestSwitch G q
      else s.switchRefused G q 1

/-! ## The switch edge (R129 to R138) -/

/-- Clear the pending switch. -/
def State.clearPending (s : State) (G : Nat) : State := s.setFld (Reg.GAL_CTX_STAT G) Fl.GAL_CTX_STAT_PENDING 0

/-- What the channels of the gallery do at E0 of a switch from plane p (R134, R137): prism data is discarded on arrival, a message
half delivered is delivered again. -/
def State.channelsAtSwitch (s : State) (G : Nat) : State :=
  let s := if (s.gal G).tqTaken ≠ 0 then s.incFld (Reg.GAL_CTX_DROP G) Fl.GAL_CTX_DROP_MSG 1 else s
  s.modGal G (fun g =>
    { g with tqTaken := 0,
             prism := g.prism.map (fun x => (x.1, x.2.map (fun r =>
               { r with dropped := (if r.dropped = 0 then 1 else r.dropped) }))) })

/-- Responses held for plane q go to it, in order; the last of them is the one last presented (R136). -/
def heldTo (q : Nat) (g : Gal) : Gal :=
  { g with ipHeld := g.ipHeld.filter (fun x => x.1 != q),
           ipLast := match (g.ipHeld.filter (fun x => x.1 == q)).getLast? with
             | some x => some x.2
             | none => g.ipLast }

/-- Responses held for plane q are presented from its first cycle of activity (R136). -/
def State.presentHeld (s : State) (G q : Nat) : State := s.modGal G (fun g => drainEq (some q) (heldTo q g))

/-- Plane p goes out of use at E0: its modes and stairs stay in force, the store step, and READY (R103, R130, R139). -/
def State.leavePlane (s : State) (G p : Nat) : State := ((s.holdBorders G).storeState G p).setPlaneState G p 2

/-- The live bits of the incoming plane q: INIT values at the first switch after power-up, else the load step (R130, R131). -/
def State.incoming (s : State) (G q : Nat) : State := if (s.gal G).fresh then s.initState G q else s.loadState G q

/-- Plane q becomes the active plane at E0, and the switch is counted (R129, R130). -/
def State.enterPlane (s : State) (G q : Nat) : State :=
  (((((s.incoming G q).modGal G (fun g => { g with fresh := false, switching := true })).setPlaneState G q 3).setActive
    G q).clearPending G).incFld (Reg.GAL_CTX_COUNT G) Fl.GAL_CTX_COUNT_COUNT 1

/-- E0 of a switch to plane q (R129, R130, R131). -/
def State.switchTo (s : State) (G q : Nat) : State :=
  match s.activePlane G with
  | some p => (((((s.leavePlane G p).enterPlane G q).channelsAtSwitch G).presentHeld G q).reportPlane G p 0 false).reportPlane G q 0 false
  | none => ((((s.modGal G (fun g => { g with held := none })).enterPlane G q).channelsAtSwitch G).presentHeld G q).reportPlane G q 0 false

/-- A replacement at the head of the load queue goes before a switch (R132). -/
def State.replaceNext (s : State) (G : Nat) : Bool := match (s.gal G).loadQ with
  | r :: _ => r.replace
  | [] => false

/-- A context-clock edge of gallery G can be the switch edge: the context clock runs and every other branch that takes part is stopped
(R129), no reset is requested or in progress (R113), no request is part-way across (R135), no replacement is under way or next (R132,
R148) and no switch cycle is open. -/
def State.edgeEligible (s : State) (G : Nat) : Bool :=
  s.contextClockRuns G && (List.range 8).all (fun n => !(s.switchStops G n && s.branchRuns G n))
    && !s.bit (Reg.GAL_RSTSTAT G) Fl.GAL_RSTSTAT_PENDING && (s.gal G).rst == .none && (s.gal G).iqPart.isNone
    && (s.gal G).repl.isNone && !s.replaceNext G && !(s.gal G).switching

/-- PLANE_SWITCH_EDGE: the pending switch acts at an eligible edge; a plane no longer READY refuses it. -/
def State.planeSwitchEdge (s : State) (G : Nat) : State :=
  let q := s.fld (Reg.GAL_CTX_STAT G) Fl.GAL_CTX_STAT_PEND_PLANE
  if !s.bit (Reg.GAL_CTX_STAT G) Fl.GAL_CTX_STAT_PENDING || !s.edgeEligible G then s
  else if s.planeState G q != 2 then ((s.clearPending G).switchRefused G q (s.ctxSrc G)).switchStarts G
  else (s.switchTo G q).switchStarts G

/-- E1, the next edge of the context clock: capture resumes under the incoming plane, the borders are released, and the other branches
restart (R129). -/
def State.switchCapture (s : State) (G : Nat) : State :=
  if (s.gal G).switching && s.contextClockRuns G then
    ((s.modGal G (fun g => { g with switching := false })).captureResumes G).switchStarts G
  else s

/-! ## Plane loads (R142 to R147) -/

/-- Whether a placement class admits gallery G (the table before R156). -/
def placeAdmits (i : Image) (G : Nat) : Bool :=
  let c := G % 8
  if i.place = 0 then decide (i.fixedG.toNat = G)
  else if i.place = 1 then 1 ≤ c && c ≤ 6
  else if i.place = 2 then c == 0
  else c == 7

/-- Whether a variant mask names a unit that the part lacks (R13, R14). -/
def variantLacks (pt : Part) (vmask : Nat) : Bool := (bitOf vmask 0 && !pt.gweak) || (bitOf vmask 1 && !pt.mee)

/-- A refusal of a load: reason and status (R143). -/
abbrev LoadRefusal := Nat × OSt

/-- Row 11, and rows 2 to 4 and 6 to 9, of the refusals (R143): those checked again at the head of the queue. -/
def State.loadCheckHead (s : State) (G : Nat) (r : LoadReq) : Option LoadRefusal :=
  let img := s.slotImg G r.slot
  if s.inFrst (G / 32) then some (11, .unavail)
  else if s.ctxSrc G = 2 ∧ (r.from' ≠ .gweak ∨ r.replace) then some (2, .denied)
  else if !r.replace && s.planeState G r.plane == 3 then some (3, .denied)
  else if r.replace && s.planeState G r.plane != 3 then some (4, .denied)
  else if s.slotState G r.slot ≠ 2 then some (6, .unavail)
  else if variantLacks s.part img.vmask.toNat then some (7, .absent)
  else if !placeAdmits img G then some (8, .denied)
  else if !s.domOn (G / 32) (G % 32) then some (9, .unavail)
  else none

/-- Row 5: the target plane is loading, replacing, or named by a queued request. -/
def State.loadBusyPlane (s : State) (G p : Nat) : Bool :=
  s.planeState G p == 1 || s.planeState G p == 5 || (s.gal G).loadQ.any (fun r => r.plane == p)

/-- The refusals checked on arrival, in their order (R143): row 11, then rows 1 to 10. -/
def State.loadCheck (s : State) (G : Nat) (r : LoadReq) (foreign : Bool) : Option LoadRefusal :=
  if s.inFrst (G / 32) then some (11, .unavail)
  else if foreign then some (1, .denied)
  else if s.ctxSrc G = 2 ∧ (r.from' ≠ .gweak ∨ r.replace) then some (2, .denied)
  else if !r.replace && s.planeState G r.plane == 3 then some (3, .denied)
  else if r.replace && s.planeState G r.plane != 3 then some (4, .denied)
  else if s.loadBusyPlane G r.plane then some (5, .unavail)
  else match s.loadCheckHead G r with
    | some x => some x
    | none => if (s.gal G).loadQ.length ≥ 4 then some (10, .unavail) else none

/-- Record a refusal of a load (R143). -/
def State.loadRefused (s : State) (G : Nat) (r : LoadReq) (x : LoadRefusal) : State :=
  let s := s.setFld (Reg.GAL_LOAD_STAT G) Fl.GAL_LOAD_STAT_REASON x.1
  let s := s.setFld (Reg.GAL_LOAD_STAT G) Fl.GAL_LOAD_STAT_RESULT x.2.code
  s.postGal Ev.PLANE_LOAD_REFUSED G [(2, r.plane), (5, r.slot), (4, x.1), (2, r.from'.code)]

/-- A load request meets a mirror loader under test (R447): UNAVAIL, with a REASON that the manual does not give, a free value. -/
def State.loadUnderTest (s : State) (G : Nat) (r : LoadReq) : State × OSt :=
  (s.draw.loadRefused G r ((Config.freeWord s.free).toNat % 16, .unavail), .unavail)

/-- A load request arrives (R142, R143): the state after it and the status of the arrival checks. -/
def State.loadArrive (s : State) (G : Nat) (r : LoadReq) (foreign : Bool) : State × OSt :=
  if s.loaderTested (G / 32) then s.loadUnderTest G r else
  match s.loadCheck G r foreign with
  | some x => (s.loadRefused G r x, x.2)
  | none =>
    ((s.modGal G (fun g => { g with loadQ := g.loadQ ++ [r] })).setFld (Reg.GAL_LOAD_STAT G) Fl.GAL_LOAD_STAT_RESULT 0, .ok)

/-- Whether a writer is not host software and not the gallery's own endpoint (R143 row 1, R183). -/
def isForeign (G : Nat) : Writer → Bool
  | .host => false
  | .design h n => !(h == G / 32 && n == G % 32)

/-- The requester named in the refusal event. -/
def requesterOf : Writer → Requester
  | .host => .host
  | .design _ _ => .design

/-- A write of GAL_LOAD_CMD (R142, R143): the state after it, and whether the write is answered DENIED (FOREIGN). -/
def State.loadCmdWrite (s : State) (w : Writer) (G : Nat) (v : Word) : State × OSt :=
  let m := fieldOf v Fl.GAL_LOAD_CMD_MODE
  if fieldOf v Fl.GAL_LOAD_CMD_GO = 0 ∨ m = 0 ∨ m = 3 then (s, if isForeign G w then .denied else .ok)
  else
    let r : LoadReq := ⟨fieldOf v Fl.GAL_LOAD_CMD_PLANE, fieldOf v Fl.GAL_LOAD_CMD_SLOT, decide (m = 2), requesterOf w⟩
    ((s.loadArrive G r (isForeign G w)).1, if isForeign G w then .denied else .ok)

/-- Refuse the request at the head of the queue (R143), reporting it to Gweak when Gweak asked. -/
def State.loadRefuseHead (s : State) (G : Nat) (r : LoadReq) (x : LoadRefusal) : State :=
  let s := (s.modGal G (fun g => { g with loadQ := g.loadQ.tail })).loadRefused G r x
  if r.from' = .gweak then s.reportPlane G r.plane x.1 true else s

/-- PLANE_LOAD_START: the request at the head is checked again; a LOAD then enters LOADING (R143 to R145, R117, R118). A
replacement that passes waits for its edge. -/
def State.planeLoadStart (s : State) (G : Nat) : State :=
  match (s.gal G).loadQ with
  | [] => s
  | r :: _ =>
    if (s.gal G).loadBusy || s.loaderTested (G / 32) then s
    else match s.loadCheckHead G r with
      | some x => s.loadRefuseHead G r x
      | none =>
        if r.replace then s
        else
          let s := (s.loseResidency G r.plane).showNoImage G r.plane 1 0 r.slot
          (s.modGal G (fun g => { g with loadBusy := true })).reportPlane G r.plane 0 false

/-- A slot in which an uncorrectable frame was met (R368, R369): BAD, and UNUSABLE at once when it did not come from flash. -/
def State.slotBad (s : State) (G k frame : Nat) : State :=
  let a := Reg.GAL_SLOT G k
  let s := (s.setFld a Fl.GAL_SLOT_STATE 3).postGal Ev.SCRUB_SLOT_BAD G [(5, k), (10, frame)]
  let s := s.incFld (Reg.BOOT_SCRUB_CNT (G / 32)) Fl.BOOT_SCRUB_CNT_BAD 1
  if s.fld a Fl.GAL_SLOT_ORIGIN = 1 then s
  else (s.setFld a Fl.GAL_SLOT_STATE 4).postGal Ev.SCRUB_SLOT_UNUSABLE G [(5, k), (2, s.fld a Fl.GAL_SLOT_ORIGIN)]

/-- Single errors of mirror frames met (R368). -/
def State.mirrorCe (s : State) (G k frame : Nat) : State :=
  (s.incFld (Reg.BOOT_SCRUB_CNT (G / 32)) Fl.BOOT_SCRUB_CNT_CORR 1).postLim Ev.SCRUB_MIRROR_CE (G / 32) (1000 * ms) (G / 32)
    (G % 32) [(5, k), (10, frame)]

/-- The first stair, in the order of frames and stairs, whose driver the load may not enable, with its track (R88): two drivers on one
track in this plane, or a track claimed by another gallery; its frame is 744 + (stair div 8). -/
def State.contentionStair (s : State) (G : Nat) (d : DesignInfo) : Option (Nat × Nat) :=
  (drivesOf d (G % 32)).find? (fun x =>
    decide (((drivesOf d (G % 32)).filter (fun y => y.2 == x.2)).length > 1) ||
    match s.claimOf (G / 32) x.2 with
    | some (g, _) => g != G % 32
    | none => false)

/-- A load fails (R146): the plane becomes FAILED with a cause, and after a replacement the gallery has no active plane (R149). -/
def State.loadFails (s : State) (G p slot cause frame : Nat) (replaced : Bool) : State :=
  let s := s.showNoImage G p 4 cause slot
  let s := s.postGal Ev.PLANE_LOAD_FAIL G [(2, p), (5, slot), (4, cause), (10, frame)]
  let s := if replaced then
      ((s.modGal G (fun g => { g with repl := none, bRepl := false, held := none })).switchStarts G).postGal Ev.NO_ACTIVE_PLANE G [(2, p)]
    else s
  s.reportPlane G p cause false

/-- A load passes (R146, R131): READY, or for a replacement the new image waits for step 5 of R148. -/
def State.loadPasses (s : State) (G p slot : Nat) (replaced : Bool) : State :=
  let img := s.slotImg G slot
  let s := (s.modGal G (fun g => { g with planes := Sparse.put g.planes p img })).initShadow G p
  if replaced then s.modGal G (fun g => { g with repl := some (p, .loaded) })
  else ((s.showPlane G p 2 slot img).incFld (Reg.GAL_LOAD_STAT G) Fl.GAL_LOAD_STAT_LOADS 1).reportPlane G p 0 false

/-- The landing group of a gallery's plane-load port (R45). -/
def loadGroup (G : Nat) : Nat := 5 * (G % 32) + 4

/-- The first failing frame and its cause among the facts and the contention check (R88, R146). -/
def firstFailure (f : LoadFacts) (cont : Option (Nat × Nat)) : Option (Nat × Nat) :=
  let c1 := f.failed.map (fun x => (x.val, 1))
  let c2 := cont.map (fun x => (744 + x.1 / 8, 2))
  let c3 := f.double.map (fun x => (x.val, 3))
  [c1, c2, c3].foldl (fun best c => match best, c with
    | none, c => c
    | some b, some x => if x.1 < b.1 then some x else some b
    | some b, none => some b) none

/-- The head of the load queue leaves it, and what the load met is counted (R146, R52, R368). DESIGN CHOICE (log 71): RESENT has 5 bits
and shows the number of resent frames modulo 32. -/
def State.loadEnds (s : State) (G : Nat) (r : LoadReq) (f : LoadFacts) : State :=
  let s := s.modGal G (fun g => { g with loadQ := g.loadQ.tail, loadBusy := false })
  let s := f.ce.foldl (fun s x => s.mirrorCe G r.slot x.val) s
  let s := s.setFld (Reg.GAL_LOAD_STAT G) Fl.GAL_LOAD_STAT_RESENT f.resent.length
  s.incFld (Reg.LAND (G / 32) (loadGroup G)) Fl.LAND_PERR (f.resent.length + 2 * b2n f.failed.isSome)

/-- What a failing frame does besides failing the load: a contention is reported, an uncorrectable frame makes the slot BAD
(R88, R368). -/
def State.frameFails (s : State) (G : Nat) (r : LoadReq) (cont : Option (Nat × Nat)) (frame cause : Nat) : State :=
  if cause = 2 then
    match cont with
    | some x => s.postGal Ev.MEZZ_LOAD_CONTENTION G [(2, r.plane), (13, x.2), (10, frame)]
    | none => s
  else if cause = 3 then s.slotBad G r.slot frame else s

/-- PLANE_LOAD_COMPLETE: the load in progress ends (R146, R148, R149, R52, R88, R368). -/
def State.planeLoadComplete (s : State) (G : Nat) (f : LoadFacts) : State :=
  match (s.gal G).loadQ with
  | [] => s
  | r :: _ =>
    if !(s.gal G).loadBusy then s
    else
      let cont := s.contentionStair G (Config.designInfo (s.slotImg G r.slot).frames)
      match firstFailure f cont with
      | none => (s.loadEnds G r f).loadPasses G r.plane r.slot r.replace
      | some (frame, cause) =>
        ((s.loadEnds G r f).frameFails G r cont frame cause).loadFails G r.plane r.slot cause frame r.replace

/-! ## Replacement (R148 to R150) -/

/-- A switch pending at step 2 of a replacement is refused (R132). -/
def State.refusePending (s : State) (G : Nat) : State :=
  if s.bit (Reg.GAL_CTX_STAT G) Fl.GAL_CTX_STAT_PENDING then
    let q := s.fld (Reg.GAL_CTX_STAT G) Fl.GAL_CTX_STAT_PEND_PLANE
    (s.clearPending G).switchRefused G q (s.ctxSrc G)
  else s

/-- The gallery's channels and borders at step 2 of a replacement of plane p (R148, R134, R502). -/
def replaceHold (p : Nat) (g : Gal) : Gal :=
  { g with loadBusy := true, repl := some (p, .loading), bRepl := true, iqPart := none, tqTaken := 0,
           prism := g.prism.map (fun x => (x.1, x.2.map (fun r => { r with dropped := (if r.dropped = 0 then 1 else r.dropped) }))) }

/-- Step 2 of a replacement: the active plane's state is stored, the borders are presented, and the plane is REPLACING (R148). -/
def State.beginReplace (s : State) (G p slot : Nat) : State :=
  ((((((((s.holdBorders G).storeState G p).modGal G (replaceHold p)).loseResidency G p).showNoImage G p 5 0 slot).setFld
    (Reg.GAL_CTX_STAT G) Fl.GAL_CTX_STAT_NONE 1).switchStarts G).reportPlane G p 0 false)

/-- REPLACE_EDGE: step 2 of a replacement at the head of the queue (R148, R132, R502). -/
def State.replaceEdge (s : State) (G : Nat) : State :=
  match (s.gal G).loadQ with
  | [] => s
  | r :: _ =>
    if !r.replace || (s.gal G).loadBusy || (s.gal G).repl.isSome || !s.contextClockRuns G || (s.gal G).rst != .none
        || (s.gal G).switching then s
    else match s.loadCheckHead G r with
      | some x => s.loadRefuseHead G r x
      | none => (s.refusePending G).beginReplace G r.plane r.slot

/-- REPLACE_ACTIVATE: step 5, the load step and ACTIVE without capture (R148). -/
def State.replaceActivate (s : State) (G : Nat) : State :=
  match (s.gal G).repl with
  | some (p, .loaded) =>
    if !s.contextClockRuns G then s
    else
      let slot := s.fld (Reg.GAL_PLANE G p) Fl.GAL_PLANE_SLOT
      let s := (s.loadState G p).showPlane G p 3 slot (s.planeImg G p)
      let s := (s.setActive G p).incFld (Reg.GAL_LOAD_STAT G) Fl.GAL_LOAD_STAT_LOADS 1
      (s.modGal G (fun g => { g with repl := some (p, .activated) })).reportPlane G p 0 false
  | _ => s

/-- REPLACE_CAPTURE: step 6, capture resumes and the borders are released (R148). -/
def State.replaceCapture (s : State) (G : Nat) : State :=
  match (s.gal G).repl with
  | some (_, .activated) =>
    if !s.contextClockRuns G then s
    else ((s.modGal G (fun g => { g with repl := none, bRepl := false })).captureResumes G).switchStarts G
  | _ => s

/-! ## Stored slots (R155 to R157) -/

/-- A slot is pinned while a plane loaded from it is LOADING, READY, ACTIVE or REPLACING (R155). -/
def State.pinned (s : State) (G k : Nat) : Bool :=
  (List.range 4).any (fun p =>
    s.fld (Reg.GAL_PLANE G p) Fl.GAL_PLANE_SLOT == k &&
      (s.planeState G p == 1 || s.planeState G p == 2 || s.planeState G p == 3 || s.planeState G p == 5))

/-- Show a slot: state, origin and image. -/
def State.showSlot (s : State) (G k st origin : Nat) (img : Image) : State :=
  s.setReg (Reg.GAL_SLOT G k)
    (BitVec.ofNat 32 (packBits [(3, st), (9, 0), (2, origin), (2, img.place.toNat), (16, img.id.toNat)]))

/-- A slot no longer waits for its reload from flash. -/
def State.reloadOff (s : State) (G k : Nat) : State :=
  { s with boot := { s.boot with reload := s.boot.reload.filter (· != 32 * G + k) } }

/-- Make a slot EMPTY. -/
def State.emptySlot (s : State) (G k : Nat) : State :=
  ((s.reloadOff G k).modGal G (fun g => { g with slots := Sparse.del g.slots k })).clrReg (Reg.GAL_SLOT G k)

/-- Fill a slot with an image: VALID with an origin (1 flash, 2 import, 3 copy). -/
def State.fillSlot (s : State) (G k origin : Nat) (img : Image) : State :=
  ((s.reloadOff G k).modGal G (fun g => { g with slots := Sparse.put g.slots k img })).showSlot G k 2 origin img

/-- A copy, an import or a slot reload is writing the slot (R157): it is WRITING, or the BAD slot whose reload is in progress, the first
of those that wait (R369). -/
def State.slotWriting (s : State) (G k : Nat) : Bool := s.slotState G k == 1 || s.boot.reload.head? == some (32 * G + k)

/-- The end of a copy or invalidation (R157). -/
def State.slotDone (s : State) (G k result : Nat) : State :=
  let a := Reg.GAL_SLOT_STAT G
  ((s.setFld a Fl.GAL_SLOT_STAT_RESULT result).setFld a Fl.GAL_SLOT_STAT_BUSY 0).postGal Ev.SLOT_COPY_DONE G [(5, k), (3, result)]

/-- Refuse a copy or invalidation, leaving a copy that runs alone. -/
def State.slotRefused (s : State) (G k result : Nat) : State :=
  (s.setFld (Reg.GAL_SLOT_STAT G) Fl.GAL_SLOT_STAT_RESULT result).postGal Ev.SLOT_COPY_DONE G [(5, k), (3, result)]

/-- OP COPY of GAL_SLOT_CMD (R157); under a self-test of the mirror layer it is refused (R447) with a RESULT that the manual does not
give, a free value. -/
def State.slotCopy (s : State) (G srcG srcSlot dst : Nat) : State :=
  let S := 32 * (G / 32) + srcG
  let img := s.slotImg S srcSlot
  if s.slotState S srcSlot ≠ 2 then s.slotRefused G dst 1
  else if s.pinned G dst then s.slotRefused G dst 2
  else if !placeAdmits img G then s.slotRefused G dst 3
  else if (s.gal G).copy.isSome || s.slotWriting G dst then s.slotRefused G dst 4
  else if s.loaderTested (G / 32) then s.draw.slotRefused G dst ((Config.freeWord s.free).toNat % 8)
  else
    let s := s.modGal G (fun g => { g with copy := some ⟨srcG, srcSlot, dst, false⟩ })
    (s.setFld (Reg.GAL_SLOT_STAT G) Fl.GAL_SLOT_STAT_BUSY 1).admRequest 11 (G / 32) (.copy G)

/-- OP INVALIDATE of GAL_SLOT_CMD (R157). -/
def State.slotInvalidate (s : State) (G k : Nat) : State :=
  if s.pinned G k then s.slotRefused G k 2
  else if s.slotWriting G k then s.slotRefused G k 4
  else (s.emptySlot G k).slotRefused G k 0

/-- A write of GAL_SLOT_CMD by host software. -/
def State.slotCmdWrite (s : State) (G : Nat) (v : Word) : State :=
  let op := fieldOf v Fl.GAL_SLOT_CMD_OP
  let dst := fieldOf v Fl.GAL_SLOT_CMD_DST_SLOT
  if fieldOf v Fl.GAL_SLOT_CMD_GO = 0 then s
  else if op = 1 then s.slotCopy G (fieldOf v Fl.GAL_SLOT_CMD_SRC_G) (fieldOf v Fl.GAL_SLOT_CMD_SRC_SLOT) dst
  else if op = 2 then s.slotInvalidate G dst
  else s

/-- Why a copy that waited for admission is refused at its grant (R155, R157): the RESULT, 0 for none. -/
def State.copyBarred (s : State) (G : Nat) (c : CopyOp) : Nat :=
  if s.slotState (32 * (G / 32) + c.srcG) c.srcSlot ≠ 2 then 1
  else if s.pinned G c.dst then 2
  else if s.slotWriting G c.dst then 4
  else 0

/-- Admission of a slot copy is granted: the destination is WRITING (R157), unless it may no longer be written (R155). -/
def State.slotCopyStart (s : State) (G : Nat) : State :=
  match (s.gal G).copy with
  | none => s
  | some c =>
    if s.copyBarred G c ≠ 0 then
      ((s.modGal G (fun g => { g with copy := none })).admRelease 11 (.copy G)).slotDone G c.dst (s.copyBarred G c)
    else
      ((s.modGal G (fun g => { g with copy := some { c with running := true } })).emptySlot G c.dst).setFld
        (Reg.GAL_SLOT G c.dst) Fl.GAL_SLOT_STATE 1

/-- SLOT_COPY_COMPLETE (R157): every frame passed, or one failed its check. -/
def State.slotCopyComplete (s : State) (G : Nat) (pass : Bool) : State :=
  match (s.gal G).copy with
  | none => s
  | some c =>
    if !c.running then s
    else
      let img := s.slotImg (32 * (G / 32) + c.srcG) c.srcSlot
      let s := (s.modGal G (fun g => { g with copy := none })).admRelease 11 (.copy G)
      if pass then (s.fillSlot G c.dst 3 img).slotDone G c.dst 0
      else (s.emptySlot G c.dst).slotDone G c.dst 5

/-! ## Meanings -/

/-- GAL_CTX_SEL_WRITE (R124). -/
def execGalCtxSelWrite (G : GalIx) (v : Word) (s : State) : Out := .next (s.ctxSelWrite G v)
/-- PLANE_REQUEST (R125). -/
def execPlaneRequest (G : GalIx) (q : PlaneIx) (s : State) : Out := .next (s.planeRequest G q)
/-- PLANE_SWITCH_EDGE (R130). -/
def execPlaneSwitchEdge (G : GalIx) (s : State) : Out := .next (s.planeSwitchEdge G)
/-- SWITCH_CAPTURE (R129). -/
def execSwitchCapture (G : GalIx) (s : State) : Out := .next (s.switchCapture G)
/-- GAL_LOAD_CMD with MODE LOAD (R142). -/
def execGalLoadCmdLoad (w : Writer) (G : GalIx) (slot : SlotIx) (p : PlaneIx) (s : State) : Out :=
  .next (s.loadArrive G ⟨p, slot, false, requesterOf w⟩ (isForeign G w)).1
/-- GAL_LOAD_CMD with MODE REPLACE (R148). -/
def execGalLoadCmdReplace (w : Writer) (G : GalIx) (slot : SlotIx) (p : PlaneIx) (s : State) : Out :=
  .next (s.loadArrive G ⟨p, slot, true, requesterOf w⟩ (isForeign G w)).1
/-- PLANE_LOAD_START (R143). -/
def execPlaneLoadStart (G : GalIx) (s : State) : Out := .next (s.planeLoadStart G)
/-- REPLACE_EDGE (R148). -/
def execReplaceEdge (G : GalIx) (s : State) : Out := .next (s.replaceEdge G)
/-- REPLACE_ACTIVATE (R148). -/
def execReplaceActivate (G : GalIx) (s : State) : Out := .next (s.replaceActivate G)
/-- REPLACE_CAPTURE (R148). -/
def execReplaceCapture (G : GalIx) (s : State) : Out := .next (s.replaceCapture G)
/-- SLOT_COPY (R157). -/
def execSlotCopy (G : GalIx) (srcG : Fin 32) (srcSlot dst : SlotIx) (s : State) : Out := .next (s.slotCopy G srcG srcSlot dst)
/-- SLOT_INVALIDATE (R157). -/
def execSlotInvalidate (G : GalIx) (k : SlotIx) (s : State) : Out := .next (s.slotInvalidate G k)
/-- SLOT_COPY_COMPLETE (R157). -/
def execSlotCopyComplete (G : GalIx) (pass : Bool) (s : State) : Out := .next (s.slotCopyComplete G pass)

end Sys2Proof.Machine
end

