-- ==== Sys2Proof/Machine/GalMem.lean ====
section
/-!
DEFINITION. Machine/GalMem.lean: gallery memory (chapter 05): prisms, banks and their check codes, queue controllers, the
transparent test and repair rows.
-/
namespace Sys2Proof.Machine

/-! ## Reads and their check codes (R176 to R178) -/

/-- Paths of GAL_MEM_ELOG. -/
abbrev MemPath := Nat

/-- Key of byte y of row r of bank b of gallery G (R159). -/
def memKey (G b r y : Nat) : Nat := memBase G + b * 0x40000 + r * 0x80 + y

/-- How byte key k of a read arrives: 0 correct, 1 corrected, 2 uncorrectable: by the facts given, and arbitrary for a byte that
nothing has written (R177, R178). -/
def State.byteCheck (s : State) (k : Nat) (i : Nat) (f : EccFacts) : Nat :=
  if f.ue.contains i then 2
  else match s.memByte k with
    | some _ => if f.ce.contains i then 1 else 0
    | none => min (Config.unwrittenCheck s.memEpoch k) 2

/-- The bytes that a checked read of n bytes from key k delivers: 0x00 for an uncorrectable one (R177). -/
def State.checkedBytes (s : State) (k n : Nat) (f : EccFacts) : List Byte :=
  (List.range n).map (fun i => if s.byteCheck (k + i) i f = 2 then 0 else s.readByte (k + i))

/-- Places among n bytes from key k that arrive with check c. -/
def State.placesWith (s : State) (k n c : Nat) (f : EccFacts) : List Nat :=
  (List.range n).filter (fun i => s.byteCheck (k + i) i f == c)

/-- Count, log and report the check results of a read of n bytes from offset off of gallery G's memory (R175, R177): the log shows the last
uncorrectable byte in address order, the event the first. -/
def State.eccReport (s : State) (G off n : Nat) (path : MemPath) (f : EccFacts) : State :=
  let k := memBase G + off
  let ce := s.placesWith k n 1 f
  let ue := s.placesWith k n 2 f
  let s1 := s.incFld (Reg.GAL_MEM_ECC G) Fl.GAL_MEM_ECC_CE ce.length
  let s1 := s1.modGal G (fun g =>
    let b := bankOf off
    { g with wb := Sparse.set g.wb [] b ((Sparse.get g.wb [] b ++ ce.map (k + ·)).take 16) })
  match ue with
  | [] => s1
  | y :: r =>
    let o := off + y
    let e := off + r.getLastD y
    let s1 := s1.incFld (Reg.GAL_MEM_ECC G) Fl.GAL_MEM_ECC_UE ue.length
    let s1 := s1.setReg (Reg.GAL_MEM_ELOG G)
      (BitVec.ofNat 32 (packBits [(6, 0), (7, e % 0x80), (11, e / 0x80 % 0x800), (5, bankOf e), (2, path), (1, 1)]))
    s1.postLim Ev.MEM_UE G ms (G / 32) (G % 32) [(5, bankOf o), (11, o / 0x80 % 0x800), (2, path)]

/-- A write of a byte cancels its pending write-back (R175). -/
def State.cancelWb (s : State) (G b : Nat) (keys : List Nat) : State :=
  s.modGal G (fun g => { g with wb := Sparse.set g.wb [] b ((Sparse.get g.wb [] b).filter (fun k => !keys.contains k)) })

/-! ## Power and clock of a bank (R160, R162, R179) -/

/-- Whether gallery memory is ON. -/
def State.memOn (s : State) (G : Nat) : Bool := s.domOn (G / 32) (32 + G % 32)

/-- The gallery clock of bank group k (R160). -/
def State.prismClk (s : State) (G k : Nat) : Nat := s.fld (Reg.GAL_PRISM G k) Fl.GAL_PRISM_PCLK

/-- The source of bank b's clock is being changed: requests wait (R162). -/
def State.bankWaits (s : State) (G b : Nat) : Bool :=
  bitOf (s.fld (Reg.GAL_CLKSTAT G) Fl.GAL_CLKSTAT_SWITCHING) (s.prismClk G (b / 8))

/-- The bank clock of bank b runs: its enable is set, its source is not lost, and no change of source is in progress (R160, R162). -/
def State.bankClockRuns (s : State) (G b : Nat) : Bool :=
  let n := s.prismClk G (b / 8)
  s.branchEnabled G n && s.srcRuns (G / 32) (s.branchSrc G n) && !s.bankWaits G b

/-! ## Queue controllers (R181 to R190) -/

/-- Banks of a queue's span (R181). -/
def spanBanks (span : Nat) : Nat := 2 ^ span

/-- Whether queue b is enabled. -/
def State.qOn (s : State) (G b : Nat) : Bool := s.bit (Reg.GAL_Q_CFG G b) Fl.GAL_Q_CFG_EN

def State.qSize (s : State) (G b : Nat) : Nat := s.fld (Reg.GAL_Q_RING G b) Fl.GAL_Q_RING_SIZE
def State.qBase (s : State) (G b : Nat) : Nat := s.fld (Reg.GAL_Q_RING G b) Fl.GAL_Q_RING_BASE
def State.qHead (s : State) (G b : Nat) : Nat := s.fld (Reg.GAL_Q_PTR G b) Fl.GAL_Q_PTR_HEAD
def State.qTail (s : State) (G b : Nat) : Nat := s.fld (Reg.GAL_Q_PTR G b) Fl.GAL_Q_PTR_TAIL
def State.qFill (s : State) (G b : Nat) : Nat := s.fld (Reg.GAL_Q_STAT G b) Fl.GAL_Q_STAT_FILL
/-- The hidden state of queue b. -/
def State.qHid (s : State) (G b : Nat) : QHid := Sparse.get (s.gal G).q {} b
/-- Change the hidden state of queue b. -/
def State.modQ (s : State) (G b : Nat) (f : QHid → QHid) : State :=
  s.modGal G (fun g => { g with q := Sparse.set g.q {} b (f (Sparse.get g.q {} b)) })

/-- Offset in the gallery's window of ring offset o of queue b (R181). -/
def State.qOff (s : State) (G b o : Nat) : Nat := b * 0x40000 + (s.qBase G b + o) * 0x80

/-- The bank that holds ring offset o (R181, R190). -/
def State.qBank (s : State) (G b o : Nat) : Nat := b + (s.qBase G b + o) / 2048

/-- A mark of GAL_Q_STAT_b. -/
def State.qMark (s : State) (G b : Nat) (f : Fld) : State := s.setFld (Reg.GAL_Q_STAT G b) f 1

/-- Build and send an enqueue of a queue controller (R187, R189): tag 512 + b for the high watermark, 544 + b for the low. -/
def State.qSendItem (s : State) (G b : Nat) (item addr len user1 tag : Nat) : State :=
  let it := s.reg item
  s.send (enqPacket (G / 32) (G % 32) 2 tag
    (mkDesc (fieldOf it Fl.GAL_Q_ITEM_HI_FLOW) (fieldOf it Fl.GAL_Q_ITEM_HI_CLASS) (memBase G + addr) len b user1))

/-- An announcement completes (R187). -/
def State.qAnnounced (s : State) (G b : Nat) : State :=
  let high := s.fld (Reg.GAL_Q_WM G b) Fl.GAL_Q_WM_HIGH
  let ann := s.fld (Reg.GAL_Q_ANN G b) Fl.GAL_Q_ANN_ANN
  let s := s.setFld (Reg.GAL_Q_ANN G b) Fl.GAL_Q_ANN_ANN ((ann + high) % max 1 (s.qSize G b))
  let s := s.modQ G b (fun q => { q with unann := q.unann - high, annCount := (q.annCount + 1) % 2 ^ 32,
                                         inFlight := false, retry := none, retried := false })
  s.qMark G b Fl.GAL_Q_STAT_HI_HIT

/-- An announcement of queue b is due (R187). -/
def State.qDue (s : State) (G b : Nat) : Bool :=
  let high := s.fld (Reg.GAL_Q_WM G b) Fl.GAL_Q_WM_HIGH
  let q := s.qHid G b
  high != 0 && decide (q.unann ≥ high) && !q.inFlight && s.bit (Reg.GAL_Q_ITEM_HI G b) Fl.GAL_Q_ITEM_HI_EN && s.qOn G b
    && s.bankClockRuns G b

/-- An answer other than OK to the announcement in flight: ENQ_RETRY, and the retry waits (R188). -/
def State.qUnanswered (s : State) (G b st : Nat) : State :=
  (s.qMark G b Fl.GAL_Q_STAT_ENQ_RETRY).modQ G b (fun q => { q with retry := some st })

/-- The announcement in flight is sent; the router of a hall under foundation partial reset answers it UNAVAIL (R57, R187). -/
def State.qSendHigh (s : State) (G b : Nat) : State :=
  let high := s.fld (Reg.GAL_Q_WM G b) Fl.GAL_Q_WM_HIGH
  let ann := s.fld (Reg.GAL_Q_ANN G b) Fl.GAL_Q_ANN_ANN
  if s.inFrst (G / 32) then s.qUnanswered G b 4
  else s.qSendItem G b (Reg.GAL_Q_ITEM_HI G b) (s.qOff G b ann) (high * 128) (s.qHid G b).annCount (512 + b)

/-- Evaluate the announcement of queue b, as each bank-clock cycle does (R187); on a part without Gweak it completes at once (R188). -/
def State.qAnnounce (s : State) (G b : Nat) : State :=
  if s.qDue G b then
    if s.part.gweak then
      (s.modQ G b (fun q => { q with inFlight := true, retry := none, retried := false })).qSendHigh G b
    else s.qAnnounced G b
  else s

/-- A write of GAL_Q_ITEM_HI_b: the next bank-clock cycle evaluates the announcement (R187). -/
def State.qItemWrite (s : State) (G b : Nat) (v : Word) : State := (s.writeFields (Reg.GAL_Q_ITEM_HI G b) v).qAnnounce G b

/-- The response to an announcement (R187, R188). -/
def State.qResponse (s : State) (G b : Nat) (st : Nat) : State :=
  if !(s.qHid G b).inFlight then s
  else if st = 0 then (s.qAnnounced G b).qAnnounce G b
  else s.qUnanswered G b st

/-- The response to a low-watermark enqueue (R189). -/
def State.qLowResponse (s : State) (G b : Nat) (st : Nat) : State :=
  if st = 0 then s else s.qMark G b Fl.GAL_Q_STAT_ENQ_RETRY

/-- QUEUE_ENQ_RETRY (R188): the announcement that waits is sent again; the first retry raises the event. -/
def State.qRetry (s : State) (G b : Nat) : State :=
  let q := s.qHid G b
  match q.retry with
  | none => s
  | some st =>
    if q.inFlight then
      let s := if q.retried then s else s.postGal Ev.QUEUE_ENQ_RETRY G [(5, b), (3, st)]
      (s.modQ G b (fun q => { q with retry := none, retried := true })).qSendHigh G b
    else s

/-- A push refused because the queue is full (R184); path 0 prism, 1 Omist-side. -/
def State.qOverflow (s : State) (G b path : Nat) : State :=
  ((s.qMark G b Fl.GAL_Q_STAT_OVF).incFld (Reg.GAL_Q_ANN G b) Fl.GAL_Q_ANN_OVFCNT 1).postLim Ev.QUEUE_OVERFLOW
    (G * 32 + b) ms (G / 32) (G % 32) [(5, b), (2, path)]

/-- A pop refused because the queue is empty (R184). -/
def State.qUnderflow (s : State) (G b path : Nat) : State :=
  ((s.qMark G b Fl.GAL_Q_STAT_UNF).incFld (Reg.GAL_Q_ANN G b) Fl.GAL_Q_ANN_UNFCNT 1).postLim Ev.QUEUE_UNDERFLOW
    (G * 32 + b) ms (G / 32) (G % 32) [(5, b), (2, path)]

/-- One row has been written at TAIL: TAIL, FILL and UNANN advance and the announcement is evaluated (R184, R187). -/
def State.qPushed (s : State) (G b : Nat) : State :=
  let s := s.setFld (Reg.GAL_Q_PTR G b) Fl.GAL_Q_PTR_TAIL ((s.qTail G b + 1) % max 1 (s.qSize G b))
  let s := s.setFld (Reg.GAL_Q_STAT G b) Fl.GAL_Q_STAT_FILL (s.qFill G b + 1)
  (s.modQ G b (fun q => { q with unann := q.unann + 1 })).qAnnounce G b

/-- One row has been read at HEAD: HEAD and FILL advance, and the low watermark is evaluated (R184, R189). -/
def State.qPopped (s : State) (G b : Nat) : State :=
  let low := s.fld (Reg.GAL_Q_WM G b) Fl.GAL_Q_WM_LOW
  let s := s.setFld (Reg.GAL_Q_PTR G b) Fl.GAL_Q_PTR_HEAD ((s.qHead G b + 1) % max 1 (s.qSize G b))
  let fill := s.qFill G b - 1
  let s := s.setFld (Reg.GAL_Q_STAT G b) Fl.GAL_Q_STAT_FILL fill
  if fill = low then
    let s := s.qMark G b Fl.GAL_Q_STAT_LO_HIT
    if s.bit (Reg.GAL_Q_ITEM_LO G b) Fl.GAL_Q_ITEM_LO_EN && s.part.gweak then
      if s.inFrst (G / 32) then s.qLowResponse G b 4
      else s.qSendItem G b (Reg.GAL_Q_ITEM_LO G b) (s.qOff G b (s.qHead G b)) 0 fill (544 + b)
    else s
  else s

/-- A span overlaps the span of an enabled queue other than b (R182). -/
def State.spanTaken (s : State) (G b n : Nat) : Bool :=
  (List.range 32).any (fun c =>
    c != b && s.qOn G c &&
      let m := spanBanks (s.fld (Reg.GAL_Q_CFG G c) Fl.GAL_Q_CFG_SPAN)
      decide (b < c + m) && decide (c < b + n))

/-- HEAD, TAIL, FILL and ANN of queue b are 0 (R183). -/
def State.qDiscard (s : State) (G b : Nat) : State :=
  ((s.clrReg (Reg.GAL_Q_PTR G b)).setFld (Reg.GAL_Q_STAT G b) Fl.GAL_Q_STAT_FILL 0).setFld (Reg.GAL_Q_ANN G b) Fl.GAL_Q_ANN_ANN 0

/-- A write of GAL_Q_CFG_b by host software or the gallery's own endpoint (R182, R183). -/
def State.qCfgWrite (s : State) (G b : Nat) (v : Word) : State :=
  let a := Reg.GAL_Q_CFG G b
  let span := fieldOf v Fl.GAL_Q_CFG_SPAN
  let n := spanBanks span
  if s.qOn G b then
    if fieldOf v Fl.GAL_Q_CFG_EN = 0 then
      ((s.setFld a Fl.GAL_Q_CFG_EN 0).qDiscard G b).modGal G (fun g => { g with q := Sparse.del g.q b })
    else s
  else if fieldOf v Fl.GAL_Q_CFG_EN = 0 then s.setFld a Fl.GAL_Q_CFG_SPAN span
  else if b % n ≠ 0 ∨ s.spanTaken G b n ∨ s.qSize G b < 2 ∨ s.qBase G b + s.qSize G b > n * 2048 then
    s.postGal Ev.QUEUE_CFG_REFUSED G [(5, b), (2, span), (14, s.qBase G b), (15, s.qSize G b)]
  else
    let s := (s.setFld a Fl.GAL_Q_CFG_SPAN span).setFld a Fl.GAL_Q_CFG_EN 1
    (s.qDiscard G b).modGal G (fun g => { g with q := Sparse.del g.q b })

/-- A write of GAL_Q_RING_b or GAL_Q_WM_b: not applied while EN is set (R183). -/
def State.qLockedWrite (s : State) (G b a : Nat) (v : Word) : State := if s.qOn G b then s else s.writeFields a v

/-! ## Prisms (R163 to R168) -/

/-- Requests outstanding at prism k, oldest first. -/
def State.prismQ (s : State) (G k : Nat) : List PrismReq := Sparse.get (s.gal G).prism [] k

/-- Replace them. -/
def State.setPrismQ (s : State) (G k : Nat) (l : List PrismReq) : State :=
  s.modGal G (fun g => { g with prism := Sparse.set g.prism [] k l })

/-- Whether a queue operation. -/
def isQop : PrismOp → Bool
  | .push | .pop => true
  | .read | .write | .reserved => false

/-- The error code with which a request fails before its bank access (R163, R167, R179, R50, R152): in the order power, reserved
encoding, parity, queue named, mask. -/
def State.prismEarly (s : State) (G p : Nat) (op : PrismOp) (bank : Nat) (be : BitVec 128) (parity : Bool) : Option Nat :=
  if op = .reserved then some 7
  else if !s.memOn G || s.galTesting G 0 then some 6
  else if parity then some 2
  else if isQop op then (if s.qOn G bank then none else some 7)
  else if !bitOf (s.bmaskEff G p).toNat bank then some 3
  else if op = .write ∧ be = 0 then some 0
  else none

/-- PSM_READY of prism k: a plane is active, borders are not presented, its clock toggles, and no request of it waits that lost arbitration
(R101, R163, R165). -/
def State.psmReady (s : State) (G k : Nat) : Bool :=
  s.canIssue G && s.branchRuns G (s.prismClk G k) && !(s.gal G).psmStall.contains k

/-- PRISM_REQUEST: a request of the design is accepted on prism k (R163). -/
def State.prismRequest (s : State) (G k : Nat) (op : PrismOp) (b3 row : Nat) (be : BitVec 128) (wd : BitVec 1024)
    (parity : Bool) : State :=
  if !s.psmReady G k then s
  else match s.activePlane G with
    | none => s
    | some p =>
      let bank := 8 * k + b3
      let early := s.prismEarly G p op bank be parity
      let s := if early = some 3 then s.bankDenied G p bank 0 else s
      let s := if isQop op then s.modGal G (fun g => { g with psmQ := Sparse.put g.psmQ k bank }) else s
      s.setPrismQ G k (s.prismQ G k ++ [⟨p, op, bank, row, be, wd, early.map (fun c => (c, 0)), 0⟩])

/-- The oldest request of prism k that has not been performed. -/
def firstWaiting : List PrismReq → Option PrismReq
  | [] => none
  | r :: rs => if r.done.isSome then firstWaiting rs else some r

/-- Give the oldest unperformed request its result. -/
def markDone (res : Nat × BitVec 1024) : List PrismReq → List PrismReq
  | [] => []
  | r :: rs => if r.done.isSome then r :: markDone res rs else { r with done := some res } :: rs

/-- Bytes of a row with their enables. -/
def rowEnabled (be : BitVec 128) (wd : BitVec 1024) : List (Byte × Bool) :=
  (List.range 128).map (fun i => (BitVec.ofNat 8 (wd.toNat / 2 ^ (8 * i)), bitOf be.toNat i))

/-- Read the row at an offset of gallery G: data, error code and the state after the check results are reported. -/
def State.rowRead (s : State) (G off : Nat) (path : MemPath) (f : EccFacts) : State × Nat × BitVec 1024 :=
  let k := memBase G + off
  let bad := !(s.placesWith k 128 2 f).isEmpty
  (s.eccReport G off 128 path f, if bad then 1 else 0, BitVec.ofNat 1024 (natOfBytes (s.checkedBytes k 128 f)))

/-- Write the enabled bytes of a row. -/
def State.rowWrite (s : State) (G off : Nat) (be : BitVec 128) (wd : BitVec 1024) : State :=
  let k := memBase G + off
  let keys := ((List.range 128).filter (fun i => bitOf be.toNat i)).map (k + ·)
  (s.cancelWb G (bankOf off) keys).writeEnabled k (rowEnabled be wd)

/-- Perform a prism request in its bank (R163 to R168, R184, R190): the state after it, its error code and data. A gallery's memory
under test answers code 6 (R447). -/
def State.prismPerform (s : State) (G : Nat) (r : PrismReq) (f : EccFacts) : State × Nat × BitVec 1024 :=
  if s.galTesting G 0 then (s, 6, 0) else
  match r.op with
  | .reserved => (s, 7, 0)
  | .read => s.rowRead G (r.bank * 0x40000 + r.row * 0x80) 0 f
  | .write => (s.rowWrite G (r.bank * 0x40000 + r.row * 0x80) r.be r.wdata, 0, 0)
  | .push =>
    let b := r.bank
    if !s.qOn G b then (s, 7, 0)
    else if !bitOf (s.bmaskEff G r.plane).toNat (s.qBank G b (s.qTail G b)) then
      (s.bankDenied G r.plane (s.qBank G b (s.qTail G b)) 0, 3, 0)
    else if s.qFill G b ≥ s.qSize G b then (s.qOverflow G b 0, 5, 0)
    else ((s.rowWrite G (s.qOff G b (s.qTail G b)) r.be r.wdata).qPushed G b, 0, 0)
  | .pop =>
    let b := r.bank
    if !s.qOn G b then (s, 7, 0)
    else if !bitOf (s.bmaskEff G r.plane).toNat (s.qBank G b (s.qHead G b)) then
      (s.bankDenied G r.plane (s.qBank G b (s.qHead G b)) 0, 3, 0)
    else if s.qFill G b = 0 then (s.qUnderflow G b 0, 4, 0)
    else
      let x := s.rowRead G (s.qOff G b (s.qHead G b)) 0 f
      (x.1.qPopped G b, x.2)

/-! ## The transparent test (R191 to R195) -/

/-- Number of the repair entry of spare i of bank b. -/
def repIx (b i : Nat) : Nat := 8 * b + i

/-- Repair entry of a spare. -/
def State.rep (s : State) (G b i : Nat) : RepEntry := Sparse.get (s.gal G).repair ⟨false, false, false, 0⟩ (repIx b i)

/-- Change a repair entry. -/
def State.setRep (s : State) (G b i : Nat) (e : RepEntry) : State :=
  s.modGal G (fun g => { g with repair := Sparse.set g.repair ⟨false, false, false, 0⟩ (repIx b i) e })

/-- A free spare of bank b: neither used nor retired. -/
def State.freeSpare (s : State) (G b : Nat) : Option Nat :=
  (List.range 8).find? (fun i => !(s.rep G b i).used && !(s.rep G b i).retired)

/-- The bank that holds the row of a prism request: for a push or pop of an enabled queue, the bank of the row at TAIL or HEAD (R172,
R190). -/
def State.reqBank (s : State) (G : Nat) (r : PrismReq) : Nat :=
  match r.op with
  | .push => if s.qOn G r.bank then s.qBank G r.bank (s.qTail G r.bank) else r.bank
  | .pop => if s.qOn G r.bank then s.qBank G r.bank (s.qHead G r.bank) else r.bank
  | .read | .write | .reserved => r.bank

/-- The row of a prism request in that bank. -/
def State.reqRow (s : State) (G : Nat) (r : PrismReq) : Nat :=
  match r.op with
  | .push => (s.qBase G r.bank + s.qTail G r.bank) % 2048
  | .pop => (s.qBase G r.bank + s.qHead G r.bank) % 2048
  | .read | .write | .reserved => r.row

/-- The prism request that is presented to bank b. -/
def State.prismAt (s : State) (G b : Nat) : Option PrismReq :=
  (firstWaiting (s.prismQ G (b / 8))).filter (fun r => s.reqBank G r == b)

/-- The prism's access to bank b stalls: STALLS counts it and PSM_READY falls (R165, R173). -/
def State.prismStalls (s : State) (G b : Nat) : State :=
  if (s.prismAt G b).isSome then
    (s.incFld (Reg.GAL_PRISM_STAT G (b / 8)) Fl.GAL_PRISM_STAT_STALLS 1).modGal G (fun g =>
      { g with psmStall := b / 8 :: g.psmStall.filter (· != b / 8) })
  else s

/-- The prism's access is granted (R165). -/
def State.prismGranted (s : State) (G b : Nat) (r : PrismReq) (f : EccFacts) : State :=
  let k := b / 8
  let x := s.prismPerform G r f
  (x.1.setPrismQ G k (markDone x.2 (x.1.prismQ G k))).modGal G (fun g => { g with psmStall := g.psmStall.filter (· != k) })

/-- The addressed row that physical row r of bank b serves: its own number, or the row its spare replaces; none for a free spare
and for a row that a spare replaces (R195). -/
def State.addressedRow (s : State) (G b r : Nat) : Option Nat :=
  if r < 2048 then
    if (List.range 8).any (fun i => (s.rep G b i).used && (s.rep G b i).row == r) then none else some r
  else if (s.rep G b (r - 2048)).used then some (s.rep G b (r - 2048)).row else none

/-- The save of physical row r checks each byte (R177, path 2). A row with no address is counted too; what the log and the event then
show as its row is not given, a free value. -/
def State.saveChecks (s : State) (G b r : Nat) (f : EccFacts) : State :=
  match s.addressedRow G b r with
  | some a => s.eccReport G (b * 0x40000 + a * 0x80) 128 2 f
  | none =>
    let s1 := s.incFld (Reg.GAL_MEM_ECC G) Fl.GAL_MEM_ECC_CE f.ce.length
    match f.ue with
    | [] => s1
    | y :: _ =>
      let row := (Config.freeWord s1.free).toNat % 0x800
      let s1 := s1.draw.incFld (Reg.GAL_MEM_ECC G) Fl.GAL_MEM_ECC_UE f.ue.length
      let s1 := s1.setReg (Reg.GAL_MEM_ELOG G) (BitVec.ofNat 32 (packBits [(6, 0), (7, y), (11, row), (5, b), (2, 2), (1, 1)]))
      s1.postLim Ev.MEM_UE G ms (G / 32) (G % 32) [(5, b), (11, row), (2, 2)]

/-- The next row of bank b may start: INTERVAL µs have passed since the previous one started (R191). -/
def State.testDue (s : State) (G b : Nat) : Bool :=
  match Sparse.find (s.gal G).testAt b with
  | some t => decide (t + s.fld (Reg.GAL_MEMTEST_CFG G) Fl.GAL_MEMTEST_CFG_INTERVAL * 1000 ≤ s.now)
  | none => true

/-- MEMTEST_ROW_START: the next physical row is saved and its accesses redirected (R191, R192). The save has priority 4: while a prism
request is presented to the bank it stalls (R172). -/
def State.memtestStart (s : State) (G b : Nat) (f : EccFacts) : State :=
  if s.bit (Reg.GAL_MEMTEST_CFG G) Fl.GAL_MEMTEST_CFG_EN && s.memOn G && s.bankClockRuns G b
      && (Sparse.find (s.gal G).memtest b).isNone && (s.prismAt G b).isNone && s.testDue G b then
    let r := Sparse.get (s.gal G).testRow 0 b
    let n := s.now
    (s.saveChecks G b r f).modGal G (fun g =>
      { g with memtest := Sparse.put g.memtest b ⟨r, 1, none⟩, testAt := Sparse.put g.testAt b n })
  else s

/-- A march read that differs from its expected value (R193): recorded once per row. -/
def State.memtestFault (s : State) (G b : Nat) (t : MemTest) (bit : Nat) : State :=
  let s := s.incFld (Reg.GAL_MEMTEST_STAT G) Fl.GAL_MEMTEST_STAT_FAULTS 1
  let s := s.setReg (Reg.GAL_MEMTEST_FAULT G)
    (BitVec.ofNat 32 (packBits [(11, bit), (2, 0), (12, t.row), (5, b), (1, 0), (1, 1)]))
  let s := s.modGal G (fun g => { g with faults := (b, t.row) :: g.faults.filter (· != (b, t.row)) })
  s.postGal Ev.MEMTEST_FAULT G [(5, b), (12, t.row), (11, bit)]

/-- One granted march access of the test (steps 2 to 7); diff is the first failing bit of its read. -/
def State.memtestMarch (s : State) (G b : Nat) (t : MemTest) (diff : Option Nat) : State :=
  let s := match diff, t.fault with
    | some bit, none => s.memtestFault G b t bit
    | _, _ => s
  let t' : MemTest := { t with step := t.step + 1, fault := (t.fault).or diff }
  s.modGal G (fun g => { g with memtest := Sparse.put g.memtest b t' })

/-- Spare i of bank b takes the place of physical row r, which serves addressed row a: a faulty spare in use is retired (R193). -/
def State.replaceRow (s : State) (G b r a i : Nat) (live : Bool) : State :=
  let s := if 2048 ≤ r then s.setRep G b (r - 2048) { s.rep G b (r - 2048) with used := false, retired := true } else s
  (s.setRep G b i ⟨true, live, false, a⟩).modGal G (fun g => { g with faults := g.faults.filter (· != (b, r)) })

/-- GAL_MEMTEST_FAULT shows physical row r of bank b. -/
def State.faultShown (s : State) (G b r : Nat) : Bool :=
  let a := Reg.GAL_MEMTEST_FAULT G
  s.bit a Fl.GAL_MEMTEST_FAULT_VALID && s.fld a Fl.GAL_MEMTEST_FAULT_BANK == b && s.fld a Fl.GAL_MEMTEST_FAULT_ROW == r

/-- The restore of a row found faulty (R193): to a free spare with LIVE_REPAIR, else in place. A faulty spare that no row uses is not
usable (GAL_REP_s.RETIRED). -/
def State.memtestRepair (s : State) (G b : Nat) (t : MemTest) : State :=
  match s.addressedRow G b t.row with
  | none => if 2048 ≤ t.row then s.setRep G b (t.row - 2048) { s.rep G b (t.row - 2048) with retired := true } else s
  | some row =>
    match (if s.bit (Reg.GAL_MEMTEST_CFG G) Fl.GAL_MEMTEST_CFG_LIVE_REPAIR then s.freeSpare G b else none) with
    | some i =>
      let s := s.replaceRow G b t.row row i true
      let s := if s.faultShown G b t.row then s.setFld (Reg.GAL_MEMTEST_FAULT G) Fl.GAL_MEMTEST_FAULT_REPAIRED 1 else s
      s.postGal Ev.MEMTEST_REPAIRED G [(5, b), (11, row), (3, i)]
    | none => s.postGal Ev.MEMTEST_NO_SPARE G [(5, b), (11, row)]

/-- A fault found and not repaired takes a free spare in the repair map of the shutdown record (R193, R444). -/
def State.faultMapped (s : State) (G : Nat) (x : Nat × Nat) : State :=
  match s.addressedRow G x.1 x.2, s.freeSpare G x.1 with
  | some a, some i => s.replaceRow G x.1 x.2 a i false
  | _, _ => s

/-- Passes completed by every bank: the least of the banks' counts. -/
def passesOf (m : Sparse Nat) : Nat := ((List.range 32).map (fun b => Sparse.get m 0 b)).foldl min (Sparse.get m 0 0)

/-- The row under test of bank b is restored, to a spare if it was faulty and one is free, and redirection ends (R191, R193). -/
def State.testRestored (s : State) (G b : Nat) (t : MemTest) : State :=
  let s := if t.fault.isSome then s.memtestRepair G b t else s
  let before := passesOf (s.gal G).testPass
  let s := s.modGal G (fun g =>
    let last := decide (t.row = 2055)
    { g with memtest := Sparse.del g.memtest b,
             testRow := Sparse.set g.testRow 0 b (if last then 0 else t.row + 1),
             testPass := if last then Sparse.put g.testPass b (Sparse.get g.testPass 0 b + 1) else g.testPass })
  s.incFld (Reg.GAL_MEMTEST_STAT G) Fl.GAL_MEMTEST_STAT_PASSES (passesOf (s.gal G).testPass - before)

/-- MEMTEST_RESTORE: the restore cycle of bank b, when its march is done and its clock runs; a prism access to the bank stalls (R191 to
R194). -/
def State.memtestRestore (s : State) (G b : Nat) : State :=
  match Sparse.find (s.gal G).memtest b with
  | none => s
  | some t => if t.step < 7 || !s.memOn G || !s.bankClockRuns G b then s else (s.testRestored G b t).prismStalls G b

/-! ## Bank arbitration (R172 to R175) -/

/-- The write-back of the oldest corrected byte of bank b (R175, R177): its read is checked too, path 3. -/
def State.byteWriteBack (s : State) (G b : Nat) (f : EccFacts) : State :=
  match Sparse.get (s.gal G).wb [] b with
  | [] => s
  | k :: r =>
    let c := s.byteCheck k 0 f
    let v := s.readByte k
    let s1 := (s.eccReport G (k - memBase G) 1 3 f).modGal G (fun g => { g with wb := Sparse.set g.wb [] b r })
    if c = 2 then s1 else s1.writeByte k v

/-- A march step of the test of bank b, unless it is done. -/
def State.marchStep (s : State) (G b : Nat) (diff : Option Nat) : State :=
  match Sparse.find (s.gal G).memtest b with
  | some t => s.memtestMarch G b t diff
  | none => s

/-- Whether a prism request is to the row under test of bank b: the holding buffer serves it, in no bank cycle (R192). -/
def State.redirected (s : State) (G b : Nat) (r : PrismReq) : Bool :=
  match Sparse.find (s.gal G).memtest b with
  | some t => s.addressedRow G b t.row == some (s.reqRow G r)
  | none => false

/-- The grant of a bank-clock cycle of bank b (R172, R192): a restore; the prism, and a march step besides when the buffer serves the
prism; a march step; a write-back. -/
def State.bankGrant (s : State) (G b : Nat) (f : EccFacts) (diff : Option Nat) : State :=
  match Sparse.find (s.gal G).memtest b, s.prismAt G b with
  | some t, w =>
    if t.step ≥ 7 then s.memtestRestore G b
    else match w with
      | some r =>
        let s1 := s.prismGranted G b r f
        if s.redirected G b r then s1.marchStep G b diff else s1
      | none => s.marchStep G b diff
  | none, some r => s.prismGranted G b r f
  | none, none => s.byteWriteBack G b f

/-- BANK_ACCESS: one bank-clock cycle of bank b: a grant, and then the announcement of its queue is evaluated (R172, R187). An Omist-side
access is granted in the command that carries its packet (log 14). f and diff are the facts of the granted read. -/
def State.bankAccess (s : State) (G b : Nat) (f : EccFacts) (diff : Option Nat) : State :=
  if !s.memOn G || !s.bankClockRuns G b then s else (s.bankGrant G b f diff).qAnnounce G b

/-- PRISM_COMPLETION: the oldest outstanding request of prism k completes, or is discarded (R164, R168, R134). -/
def State.prismCompletion (s : State) (G k : Nat) : State :=
  match s.prismQ G k with
  | r :: rs =>
    match r.done with
    | none => s
    | some (code, data) =>
      let s := s.setPrismQ G k rs
      let s := if code = 0 then s else s.incFld (Reg.GAL_PRISM_STAT G k) Fl.GAL_PRISM_STAT_ERRS 1
      if r.dropped = 0 then s.modGal G (fun g => { g with psmLast := Sparse.put g.psmLast k (code, data) })
      else
        let s := s.incFld (Reg.GAL_PRISM_STAT G k) Fl.GAL_PRISM_STAT_DISCARDED 1
        if r.dropped = 1 ∧ code ≤ 1 ∧ (r.op = .read ∨ r.op = .pop) then s.incFld (Reg.GAL_CTX_DROP G) Fl.GAL_CTX_DROP_PRISM 1 else s
  | [] => s

/-! ## Meanings -/

/-- PRISM_REQUEST (R163). -/
def execPrismRequest (G : GalIx) (k : Fin 4) (op : PrismOp) (bank : Fin 8) (row : Fin 2048) (be : BitVec 128)
    (wdata : BitVec 1024) (parity : Bool) (s : State) : Out := .next (s.prismRequest G k op bank row be wdata parity)
/-- BANK_ACCESS (R172). -/
def execBankAccess (G : GalIx) (b : BankIx) (f : EccFacts) (diff : Option (Fin 1664)) (s : State) : Out :=
  .next (s.bankAccess G b f (diff.map (·.val)))
/-- PRISM_COMPLETION (R164). -/
def execPrismCompletion (G : GalIx) (k : Fin 4) (s : State) : Out := .next (s.prismCompletion G k)
/-- QUEUE_ENQ_RETRY (R188). -/
def execQueueEnqRetry (G : GalIx) (b : BankIx) (s : State) : Out := .next (s.qRetry G b)
/-- GAL_Q_CFG_WRITE (R182). -/
def execGalQCfgWrite (G : GalIx) (b : BankIx) (v : Word) (s : State) : Out := .next (s.qCfgWrite G b v)
/-- MEMTEST_ROW_START (R191). -/
def execMemtestRowStart (G : GalIx) (r : RowSave) (s : State) : Out := .next (s.memtestStart G r.bank r.ecc)
/-- MEMTEST_RESTORE (R193). -/
def execMemtestRestore (G : GalIx) (b : BankIx) (s : State) : Out := .next (s.memtestRestore G b)

end Sys2Proof.Machine
end

