-- ==== Sys2Proof/Machine/Gweak.lean ====
section
/-!
DEFINITION. Machine/Gweak.lean: the flow scheduler of a hall (chapter 06): enqueues, dispatch, deliveries and ends, the delay list,
servers, and the decision trace.
-/
namespace Sys2Proof.Machine

/-! ## Enqueues (R196 to R201, R222) -/

/-- The outcome of the checks of R200, rows 2 to 8. -/
inductive EnqOut where
  | denied (row : Nat)
  | exhausted (resource : Nat)
  | accepted
  deriving DecidableEq, Repr

/-- Whether a flow admits a source (R201). -/
def State.admits (s : State) (h f sh sn : Nat) (host : Bool) : Bool :=
  let c := Reg.GWK_FLOW_CFG h f
  let acc := s.fld c Fl.GWK_FLOW_CFG_ACC
  host || acc == 0 || (acc == 1 && sh == h) ||
    (acc == 2 && s.fld c Fl.GWK_FLOW_CFG_SRC_HALL == sh && s.fld c Fl.GWK_FLOW_CFG_SRC_NODE == sn)

/-- Items that flow f holds: ready, delayed and in service. -/
def State.flowHolds (s : State) (h f : Nat) : Nat :=
  (s.flow h f).ready.length + s.delayedOf h f + b2n (s.flow h f).svc.isSome

/-- Rows 2 to 8 of the enqueue checks (R200). -/
def State.enqCheck (s : State) (h : Nat) (d : BitVec 256) (sh sn : Nat) (host : Bool) : EnqOut :=
  let f := dFlow d % 512
  let ql := s.fld (Reg.GWK_FLOW_CFG h f) Fl.GWK_FLOW_CFG_QLIMIT
  if bitsOf d.toNat 25 7 ≠ 0 ∨ s.bit (Reg.GWK_CLASS_A h (dClass d)) Fl.GWK_CLASS_A_EN = false then .denied 2
  else if !s.flowEn h f then .denied 3
  else if !s.admits h f sh sn host then .denied 4
  else if s.gwkItems h ≥ 65536 then .exhausted 0
  else if ql ≠ 0 ∧ s.flowHolds h f ≥ ql then .exhausted 2
  else if dDueEn d = true ∧ s.dueIn h d > 0 ∧ (s.gwk h).delay.length ≥ 16384 then .exhausted 1
  else .accepted

/-- Accept an item (R198, R200, R218). -/
def State.enqAccept (s : State) (h : Nat) (d : BitVec 256) (remote : Bool) : State :=
  let f := dFlow d % 512
  let q := s.fld (Reg.GWK_FLOW_SEQ h f) Fl.GWK_FLOW_SEQ_ISEQ
  let d := putBits (putBits (putBits (putBits d 23 1 (b2n remote)) 24 1 0) 104 24 q) 224 32 (s.tnow h)
  let s := s.setFld (Reg.GWK_FLOW_SEQ h f) Fl.GWK_FLOW_SEQ_ISEQ (q + 1)
  let s := s.setFld (Reg.GWK_STAT h) Fl.GWK_STAT_ITEMS (s.gwkItems h + 1)
  if dDueEn d && decide (s.dueIn h d > 0) then
    ((s.modGwk h (fun g => { g with delay := g.delay ++ [(f, d)] })).delaySync h).flowSync h f
  else
    let s := if dDueEn d && decide (s.dueIn h d < 0) then s.incFld (Reg.GWK_DLY h) Fl.GWK_DLY_LATE 1 else s
    s.modFlow h f (fun x => { x with ready := x.ready ++ [d] })

/-- An enqueue for a flow of this hall reaches node 32 (R200): the state after it and the status answered. -/
def State.enqueue (s : State) (h : Nat) (d : BitVec 256) (sh sn : Nat) (host remote : Bool) : State × OSt :=
  let f := dFlow d
  match s.enqCheck h d sh sn host with
  | .denied row =>
    (s.postLim Ev.GWK_ENQ_REFUSED h ms h 63 [(12, f), (3, sh), (6, sn), (3, row)], .denied)
  | .exhausted r => (s.postLim Ev.GWK_EXHAUSTED (4 * h + r) ms h 63 [(2, r), (12, f)], .exhausted)
  | .accepted => (s.enqAccept h d remote, .ok)

/-- ENQ at node 32 of hall h (R200, R222): forwarded, or checked and answered. Source node 32 is host software's (R199). -/
def State.enqPacketAt (s : State) (h : Nat) (p : Packet) : State :=
  let d : BitVec 256 := (p.data.headD 0).setWidth 256
  let own := dFlow d / 512
  if own ≠ h then
    let d' := putBits d 23 1 1
    let q := { p with dstHall := BitVec.ofNat 3 own, data := [d'.setWidth 512], arg := 1, hops := 0 }
    let s1 := s.send q
    { s1 with reqs := s.reqs }
  else
    let r := s.enqueue h d p.srcHall.toNat p.srcNode.toNat (p.srcNode == 32) (p.arg == 1)
    let iseq := if r.2 = .ok then s.fld (Reg.GWK_FLOW_SEQ h (dFlow d % 512)) Fl.GWK_FLOW_SEQ_ISEQ else 0
    let s := r.1.gwkTrace h (dFlow d) (dClass d) 0 15 iseq (packBits [(3, r.2.code), (3, p.srcHall.toNat), (6, p.srcNode.toNat)])
    s.respond p r.2 []

/-- A write of GWK_ENQ_GO (R199): the descriptor goes to node 32 as an enqueue of host software, tag 1000 (log 12). -/
def State.gwkEnqGo (s : State) (h : Nat) (v : Word) : State :=
  if fieldOf v Fl.GWK_ENQ_GO_GO = 0 ∨ s.bit (Reg.GWK_ENQ_RSP h) Fl.GWK_ENQ_RSP_BUSY = true then s
  else
    let d : BitVec 256 := BitVec.ofNat 256 (packBits ((List.range 8).map (fun w => (32, (s.reg (Reg.GWK_ENQ h w)).toNat))))
    (s.setFld (Reg.GWK_ENQ_RSP h) Fl.GWK_ENQ_RSP_BUSY 1).send
      { unitPacket h 32 0 h 32 0 0x11 2 1000 with units := 1, data := [d.setWidth 512] }

/-- The response to an enqueue of host software (R199). -/
def State.gwkEnqRsp (s : State) (h st : Nat) : State :=
  (s.setFld (Reg.GWK_ENQ_RSP h) Fl.GWK_ENQ_RSP_BUSY 0).setFld (Reg.GWK_ENQ_RSP h) Fl.GWK_ENQ_RSP_STATUS st

/-! ## Servers: which a class may take (R211, R212) -/

/-- Whether a gallery has a server in one of the given states. -/
def State.galHas (s : State) (h g : Nat) (sts : List Nat) : Bool := (srvsOf g).any (fun v => sts.contains (s.srvState h v))

/-- Galleries with a RESERVED or BUSY server (R226). -/
def State.busyGals (s : State) (h : Nat) : Nat := ((List.range 32).filter (fun g => s.galHas h g [3, 4])).length

/-- The effective MAX_BUSY (R226, R429). -/
def State.maxBusy (s : State) (h : Nat) : Nat :=
  let host := s.fld (Reg.GWK_THROTTLE h) Fl.GWK_THROTTLE_MAX_BUSY
  let t := Reg.THERM_HALL h
  if s.bit t Fl.THERM_HALL_THROTTLE then
    min host (s.fld (Reg.THERM_CURVE (s.fld t Fl.THERM_HALL_STEP)) Fl.THERM_CURVE_MAX_BUSY)
  else host

/-- A gallery is open to a new assignment (R211); one under removal is not (R224). -/
def State.galOpen (s : State) (h g : Nat) : Bool :=
  let G := srvGal h g
  s.ctxSrc G == 2 && s.domOn h g && !s.galHas h g [3, 5] && !s.bit (Reg.GAL_CTX_STAT G) Fl.GAL_CTX_STAT_PENDING &&
    !(s.gwk h).removing.any (fun x => x.1 == g) &&
    (s.galHas h g [3, 4] || decide (s.busyGals h + 1 ≤ s.maxBusy h))

/-- The image identifier of a class. -/
def State.classImg (s : State) (h k : Nat) : Nat := s.fld (Reg.GWK_CLASS_B h k) Fl.GWK_CLASS_B_IMAGE_ID

/-- A gallery is eligible for a class: in its mask and not excluded. -/
def State.eligible (s : State) (h k g : Nat) : Bool :=
  bitOf (s.reg (Reg.GWK_CLASS_MASK h k)).toNat g && !bitOf (s.reg (Reg.GWK_CLASS_EXCL h k)).toNat g

/-- Server v's plane holds image i (R128, R208). -/
def State.holds (s : State) (h v i : Nat) : Bool :=
  s.bit (Reg.GWK_SRV h v) Fl.GWK_SRV_RESIDENT && s.fld (Reg.GWK_SRV h v) Fl.GWK_SRV_IMAGE_ID == i

/-- A load of image i into server v's plane is under way. -/
def State.loadingImg (s : State) (h v i : Nat) : Bool :=
  match (s.srv h v).load with
  | some k => !(s.srv h v).loaded && s.classImg h k == i
  | none => false

/-- Whether gallery g holds a copy of image i, or a load of it is under way (R212). -/
def State.galCopies (s : State) (h g i : Nat) : Nat :=
  ((srvsOf g).filter (fun v => s.srvState h v != 0 && (s.holds h v i || s.loadingImg h v i))).length

/-- The resident copies of class k (R212). -/
def State.copies (s : State) (h k : Nat) : Nat :=
  (((List.range 32).filter (fun g => s.eligible h k g)).map (fun g => s.galCopies h g (s.classImg h k))).foldl (· + ·) 0

/-- Whether an enabled class marks image i PINNED (R212); RES and IMAGE_ID of a class with DEST = ENGINE are ignored (R217). -/
def State.imgPinned (s : State) (h i : Nat) : Bool :=
  (List.range 64).any (fun k => s.bit (Reg.GWK_CLASS_A h k) Fl.GWK_CLASS_A_EN && s.bit (Reg.GWK_CLASS_A h k) Fl.GWK_CLASS_A_RES
    && !s.bit (Reg.GWK_CLASS_A h k) Fl.GWK_CLASS_A_DEST && s.classImg h k == i)

/-- The victim plane of gallery g (R212), as its server. -/
def State.victim (s : State) (h g : Nat) : Option Nat :=
  let idle := (srvsOf g).filter (fun v => s.srvState h v == 1)
  match idle.find? (fun v => (s.srv h v).pstate == 0) with
  | some v => some v
  | none => match idle.find? (fun v => (s.srv h v).pstate == 4) with
    | some v => some v
    | none =>
      (idle.filter (fun v => (s.srv h v).pstate == 2
        && !s.imgPinned h (s.fld (Reg.GWK_SRV h v) Fl.GWK_SRV_IMAGE_ID))).foldl (fun best v => match best with
          | none => some v
          | some b => if (s.srv h v).lru < (s.srv h b).lru then some v else some b) none

/-- Galleries in round-robin order after the class's pointer (R211). -/
def State.galOrder (s : State) (h k : Nat) : List Nat :=
  let c := Sparse.get (s.gwk h).cptr 31 k
  (List.range 32).map (fun i => (c + 1 + i) % 32)

/-- What pick_server answers: a server with its plane active, one whose delivery requests a switch, or one to load. -/
inductive Pick where
  | active (v : Nat)
  | switch (v : Nat)
  | load (v : Nat)
  | none
  deriving DecidableEq, Repr

/-- pick_server(k) (R211, R212). -/
def State.pickServer (s : State) (h k : Nat) : Pick :=
  let i := s.classImg h k
  let gs := (s.galOrder h k).filter (fun g => s.eligible h k g && s.galOpen h g)
  let act := gs.findSome? (fun g =>
    if s.galHas h g [3, 4, 5] then none
    else (srvsOf g).find? (fun v => s.srvState h v == 1 && (s.srv h v).pstate == 3 && s.holds h v i))
  match act with
  | some v => .active v
  | none =>
    let sw := gs.findSome? (fun g =>
      if (srvsOf g).all (fun v => s.srvState h v == 1) then
        (srvsOf g).find? (fun v => (s.srv h v).pstate == 2 && s.holds h v i)
      else none)
    match sw with
    | some v => .switch v
    | none =>
      if s.copies h k < s.fld (Reg.GWK_CLASS_A h k) Fl.GWK_CLASS_A_COPIES then
        match gs.findSome? (fun g => if s.galCopies h g i = 0 then s.victim h g else none) with
        | some v => .load v
        | none => .none
      else .none

/-! ## Assignment and delivery (R209 to R214) -/

/-- Deliver an item to server v: an ITEM packet with the plane in ARG (log 12); the server is BUSY (R211, R214). -/
def State.deliver (s : State) (h v : Nat) (d : BitVec 256) : State :=
  let n := (s.gwk h).lru + 1
  let t := s.now
  let s := s.modGwk h (fun g => { g with lru := n })
  let s := s.modSrv h v (fun x => { x with item := some d, sent := t, overrun := false, lru := n, load := none, loaded := false })
  (s.setSrvState h v 4).send
    { unitPacket h 32 0 h (v / 4) 0 0x12 2 0 with units := 1, data := [d.setWidth 512], arg := BitVec.ofNat 224 (v % 4) }

/-- The head of flow f goes into service with a target. -/
def State.takeHead (s : State) (h f : Nat) (d : BitVec 256) (target : Nat) (eng : Bool) : State :=
  let s := s.modFlow h f (fun x => { x with ready := x.ready.tail, svc := some d })
  (s.setFld (Reg.GWK_FLOW_STAT h f) Fl.GWK_FLOW_STAT_TARGET target).setFld (Reg.GWK_FLOW_STAT h f) Fl.GWK_FLOW_STAT_ENG (b2n eng)

/-- Ask the loader for a load (R212): gallery, plane, slot in ARG; tag 512 + v (log 12). -/
def State.askLoad (s : State) (h v k : Nat) : State :=
  let slot := s.fld (Reg.GWK_CLASS_A h k) Fl.GWK_CLASS_A_SLOT
  let s := s.incFld (Reg.GWK_CSTAT h k) Fl.GWK_CSTAT_LOADS 1
  (s.modSrv h v (fun x => { x with load := some k, loaded := false })).send
    { unitPacket h 32 0 h 35 0 0x14 2 (512 + v) with
        arg := BitVec.ofNat 224 (packBits [(5, v / 4), (2, v % 4), (5, slot)]) }

/-- Assign the head of flow f to a server (R209, R211, R212). -/
def State.assign (s : State) (h f k : Nat) (d : BitVec 256) (p : Pick) : State :=
  match p with
  | .none => s
  | .active v =>
    let s := (s.takeHead h f d v false).setFld (Reg.GWK_SRV h v) Fl.GWK_SRV_FLOW (512 * h + f)
    let s := s.modGwk h (fun g => { g with cptr := Sparse.put g.cptr k (v / 4) })
    (s.deliver h v d).gwkTrace h (512 * h + f) k v 0 (dIseq d) (v % 4)
  | .switch v =>
    let s := (s.takeHead h f d v false).setFld (Reg.GWK_SRV h v) Fl.GWK_SRV_FLOW (512 * h + f)
    let s := s.modGwk h (fun g => { g with cptr := Sparse.put g.cptr k (v / 4) })
    (s.deliver h v d).gwkTrace h (512 * h + f) k v 1 (dIseq d) (v % 4)
  | .load v =>
    let s := (s.takeHead h f d v false).setFld (Reg.GWK_SRV h v) Fl.GWK_SRV_FLOW (512 * h + f)
    let s := s.modGwk h (fun g => { g with cptr := Sparse.put g.cptr k (v / 4) })
    let s := ((s.setSrvState h v 3).modSrv h v (fun x => { x with item := some d })).askLoad h v k
    s.gwkTrace h (512 * h + f) k v 2 (dIseq d) (v % 4 + 4 * s.fld (Reg.GWK_CLASS_A h k) Fl.GWK_CLASS_A_SLOT)

/-- Assign the head of flow f to an Ethernet engine (R217): XMIT with the transmit queue in ARG, tag f (log 12). -/
def State.assignEngine (s : State) (h f k : Nat) (d : BitVec 256) : State :=
  let a := Reg.GWK_CLASS_A h k
  let e := s.fld a Fl.GWK_CLASS_A_ENGINE
  let q := s.fld a Fl.GWK_CLASS_A_TXQ
  let s := (s.takeHead h f d e true).send
    { unitPacket h 32 0 h 34 e 0x16 2 f with units := 1, data := [d.setWidth 512], arg := BitVec.ofNat 224 q }
  s.gwkTrace h (512 * h + f) k e 4 (dIseq d) q

/-- TNOW − DUE as a signed number (R210). -/
def State.lateBy (s : State) (h : Nat) (d : BitVec 256) : Int := signedOf 32 (s.tnow h + 2 ^ 32 - dDue d)

/-- The head item is later than its class allows (R210). -/
def State.tooLate (s : State) (h k : Nat) (d : BitVec 256) : Bool :=
  let m := s.fld (Reg.GWK_CLASS_C h k) Fl.GWK_CLASS_C_LATE_MAX
  dDueEn d && m != 0 && decide (s.lateBy h d > m)

/-- Drop a late head (R210). -/
def State.lateDrop (s : State) (h f k : Nat) (d : BitVec 256) : State :=
  let late := (s.lateBy h d).toNat
  let s := (s.modFlow h f (fun x => { x with ready := x.ready.tail, retryWait := false })).freeItems h 1
  let s := s.incFld (Reg.GWK_FLOW_CNT h f) Fl.GWK_FLOW_CNT_DROPPED 1
  let s := s.postLim Ev.LATE_DROP (512 * h + f) ms h 63 [(12, 512 * h + f), (32, late)]
  s.gwkTrace h (512 * h + f) k 0 9 (dIseq d) (min late 0xFFFFFF)

/-- A head that no server can take (R216); the trace records it at most once per millisecond per flow (R230). -/
def State.noServer (s : State) (h f k : Nat) (d : BitVec 256) : State :=
  let s := s.incFld (Reg.GWK_CSTAT h k) Fl.GWK_CSTAT_NOSRV 1
  let id := 0x10000 * 65536 + 512 * h + f
  if s.limOpen id ms then (s.limStamp id).gwkTrace h (512 * h + f) k 0 11 (dIseq d) 0 else s

/-- Consider the head of flow f at a priority: the state after it, and whether it was assigned. -/
def State.considerFlow (s : State) (h f prio : Nat) : State × Bool :=
  match (s.flow h f).ready with
  | [] => (s, false)
  | d :: _ =>
    let k := dClass d
    if s.flowState h f ≠ 1 ∨ (s.flow h f).retryWait = true ∨ s.fld (Reg.GWK_CLASS_A h k) Fl.GWK_CLASS_A_PRIO ≠ prio then (s, false)
    else if s.tooLate h k d then (s.lateDrop h f k d, false)
    else
      let moved := fun (s : State) => s.modGwk h (fun g => { g with rr := Sparse.put g.rr prio f })
      if s.bit (Reg.GWK_CLASS_A h k) Fl.GWK_CLASS_A_DEST then (moved (s.assignEngine h f k d), true)
      else match s.pickServer h k with
        | .none => (s.noServer h f k d, false)
        | p => (moved (s.assign h f k d p), true)

/-- Consider flows in order until one is assigned. -/
def State.considerFlows (s : State) (h prio : Nat) : List Nat → State × Bool
  | [] => (s, false)
  | f :: fs =>
    let r := s.considerFlow h f prio
    if r.2 then r else r.1.considerFlows h prio fs

/-- Flows whose head item is of a priority, in round-robin order after the pointer of that priority (R209); the first order starts at
flow 0. -/
def State.flowOrder (s : State) (h prio : Nat) : List Nat :=
  let fs := ((s.gwk h).flows.filter (fun x => match x.2.ready with
    | [] => false
    | d :: _ => s.fld (Reg.GWK_CLASS_A h (dClass d)) Fl.GWK_CLASS_A_PRIO == prio)).map (·.1)
  match Sparse.find (s.gwk h).rr prio with
  | none => fs
  | some r => fs.filter (fun f => r < f) ++ fs.filter (fun f => f ≤ r)

/-- Priorities from the given one down, until an assignment. The heads are those that the decision began with (s₀): the next head of a
flow that drops its head waits for a later decision (R209, R210). -/
def State.decidePrio (s s₀ : State) (h : Nat) : Nat → State
  | 0 => (s.considerFlows h 0 (s₀.flowOrder h 0)).1
  | n + 1 =>
    let r := s.considerFlows h (n + 1) (s₀.flowOrder h (n + 1))
    if r.2 then r.1 else r.1.decidePrio s₀ h n

/-- DISPATCH_DECISION (R209). -/
def State.dispatch (s : State) (h : Nat) : State :=
  if s.gwkOn h && s.bit (Reg.GWK_CTRL h) Fl.GWK_CTRL_DISPATCH_EN then s.decidePrio s h 7 else s

/-- CLASS_NO_SERVER (R216): the head of flow f is still unplaced. -/
def State.classNoServer (s : State) (h f : Nat) : State :=
  match (s.flow h f).ready with
  | [] => s
  | d :: _ =>
    if s.flowState h f = 1 ∧ s.gwkOn h = true then
      let k := dClass d
      let n := ((s.gwk h).flows.filter (fun x => s.flowState h x.1 == 1 && (match x.2.ready with
        | e :: _ => dClass e == k
        | [] => false))).length
      s.postLim Ev.CLASS_NO_SERVER (64 * h + k) ms h 63 [(6, k), (10, n)]
    else s

/-- An item goes back to the head of its flow with RETRY set (R213), or is freed when the flow has been disabled (R207, R229). -/
def State.returnItem (s : State) (h : Nat) (d : BitVec 256) (why target : Nat) : State :=
  let f := dFlow d % 512
  let s := if s.flowEn h f then s.modFlow h f (fun x => { x with ready := dRetry d :: x.ready, svc := none })
    else ((s.modFlow h f (fun x => { x with svc := none })).freeItems h 1).incFld (Reg.GWK_FLOW_CNT h f) Fl.GWK_FLOW_CNT_DROPPED 1
  s.gwkTrace h (dFlow d) (dClass d) target 8 (dIseq d) why

/-- A RESERVED item is returned and its server becomes IDLE (R213). -/
def State.returnReserved (s : State) (h v why : Nat) : State :=
  match (s.srv h v).item with
  | none => s.setSrvState h v 1
  | some d =>
    let s := s.modSrv h v (fun x => { x with item := none, load := if x.loaded then none else x.load, loaded := false })
    (s.setSrvState h v 1).returnItem h d why v

/-- Deliver the loaded items of gallery g once the other servers are IDLE (R212). -/
def State.deliverLoaded (s : State) (h g : Nat) : State :=
  match (srvsOf g).find? (fun v => s.srvState h v == 3 && (s.srv h v).loaded) with
  | none => s
  | some v =>
    if (srvsOf g).all (fun u => u == v || s.srvState h u == 1) then
      match (s.srv h v).item with
      | none => s
      | some d => (s.deliver h v d).gwkTrace h (dFlow d) (dClass d) v 3 (dIseq d) (v % 4)
    else s

/-- The load of a preload has ended with a result: the server is IDLE, and an item of the gallery that waited for it is delivered (R212,
R225). -/
def State.preloadEnded (s : State) (h v result : Nat) : State :=
  (((s.setSrvState h v 1).setFld (Reg.GWK_SRV_STAT h) Fl.GWK_SRV_STAT_BUSY 0).setFld (Reg.GWK_SRV_STAT h)
    Fl.GWK_SRV_STAT_RESULT result).deliverLoaded h (v / 4)

/-- A refused or failed load of class k (R213): exclusion, count, event. -/
def State.loadFailed (s : State) (h v k reason : Nat) : State :=
  let g := v / 4
  let s := s.setFldBit (Reg.GWK_CLASS_EXCL h k) Fl.GWK_CLASS_EXCL_BITS g true
  let s := s.incFld (Reg.GWK_CSTAT h k) Fl.GWK_CSTAT_LOADFAIL 1
  s.post Ev.LOAD_FAILED h g [(6, k), (2, v % 4), (4, reason)]

/-- The refusal reasons that exclude the gallery: SLOT, VARIANT and PLACEMENT (R213). -/
def excludes (reason : Nat) : Bool := reason == 6 || reason == 7 || reason == 8

/-- The load of Gweak's into server v's plane ended without the image (R213, R225). -/
def State.loadEnded (s : State) (h v k why reason : Nat) (excl : Bool) : State :=
  let st := s.srvState h v
  let s := s.modSrv h v (fun x => { x with load := none, loaded := false })
  let s := if excl then s.loadFailed h v k reason else s
  if st = 3 then s.returnReserved h v why
  else if st = 2 then s.preloadEnded h v 4
  else s

/-- A refusal of a load request by the loader, on arrival or at the head of the queue (R213). -/
def State.loadReqRefused (s : State) (h v reason : Nat) : State :=
  match (s.srv h v).load with
  | none => s
  | some k => s.loadEnded h v k 0 reason (excludes reason)

/-- LOADRPT at node 32 (R128, R212, R213, R225). -/
def State.loadRpt (s : State) (h : Nat) (p : Packet) : State :=
  let a := p.arg.toNat
  let g := bitsOf a 0 5
  let v := 4 * g + bitsOf a 5 2
  let st := bitsOf a 7 3
  let id := bitsOf a 10 16
  let reason := bitsOf a 26 4
  if bitOf a 30 then
    s.loadReqRefused h v reason
  else
    let s := if s.srvState h v = 0 then s else s.showSrv h v st id
    match (s.srv h v).load with
    | none => s
    | some k =>
      if (s.srv h v).loaded then s
      else if st = 4 then s.loadEnded h v k 1 reason true
      else if st = 2 ∨ st = 3 then
        if id ≠ s.classImg h k then s.loadEnded h v k 1 0 true
        else if s.srvState h v = 3 then (s.modSrv h v (fun x => { x with loaded := true })).deliverLoaded h g
        else
          let s := s.modSrv h v (fun x => { x with load := none })
          if s.srvState h v = 2 then s.preloadEnded h v 0 else s
      else s

/-- The response to a LOADREQ: a refusal carries its reason in ARG (log 12); one with no reason is taken as retryable. -/
def State.loadReqRsp (s : State) (h v st reason : Nat) : State :=
  if st = 0 then s else s.loadReqRefused h v reason

/-! ## Ends of items (R214, R215, R217) -/

/-- The item in service of flow f ends with a failure of the given cause (R214): target is the server, or the engine with eng. -/
def State.itemFailed (s : State) (h : Nat) (d : BitVec 256) (target : Nat) (eng : Bool) (cause : Nat) : State :=
  let f := dFlow d % 512
  let k := dClass d
  let park := s.bit (Reg.GWK_CLASS_A h k) Fl.GWK_CLASS_A_ON_FAIL && s.flowEn h f
  let s := (s.modFlow h f (fun x => { x with svc := none, parked := x.parked || park })).freeItems h 1
  let s := s.incFld (Reg.GWK_FLOW_CNT h f) Fl.GWK_FLOW_CNT_FAILED 1
  let s := if eng then s.postLim Ev.ITEM_FAILED (512 * h + f) ms h target [(12, dFlow d), (2, cause)]
    else s.postLim Ev.ITEM_FAILED (512 * h + f) ms h 63 [(12, dFlow d), (7, target), (2, cause)]
  let s := s.gwkTrace h (dFlow d) k target 6 (dIseq d) cause
  if park then s.gwkTrace h (dFlow d) k target 7 (dIseq d) 1 else s

/-- The item in service of its flow ends done. -/
def State.itemDone (s : State) (h : Nat) (d : BitVec 256) : State :=
  let f := dFlow d % 512
  ((s.modFlow h f (fun x => { x with svc := none })).freeItems h 1).incFld (Reg.GWK_FLOW_CNT h f) Fl.GWK_FLOW_CNT_DONE 1

/-- The cause of a failure, by the end a DONE packet carries (R214). -/
def endCause (e : Nat) : Nat := if e = 1 then 0 else if e = 2 then 1 else 2

/-- DONE at node 32 (R214, R228). -/
def State.gwkDone (s : State) (h : Nat) (p : Packet) : State :=
  let a := p.arg.toNat
  let v := bitsOf a 0 8 % 128
  let e := bitsOf a 8 3
  let st := s.srvState h v
  let x := s.srv h v
  if st ≠ 4 ∧ st ≠ 5 then
    (s.incFld (Reg.GWK_STAT h) Fl.GWK_STAT_STRAY 1).postLim Ev.STRAY_DONE h ms h 63 [(7, v)]
  else
    let s1 := (s.modSrv h v (fun y => { y with item := none, orphan := false, overrun := false })).setSrvState h v
      (if st = 5 then 0 else 1)
    if x.orphan then (s1.post Ev.ORPHAN_DONE h 63 [(7, v)]).deliverLoaded h (v / 4)
    else match x.item with
      | none => s1
      | some d =>
        let us := min ((s.now - x.sent) / 1000) 0xFFFFFF
        let s2 := if e = 0 then (s1.itemDone h d).gwkTrace h (dFlow d) (dClass d) v 5 (dIseq d) us
          else s1.itemFailed h d v false (endCause e)
        s2.deliverLoaded h (v / 4)

/-- The watchdog check of one server (R215); R224 applies it to a DRAINING server too. -/
def State.watchSrv (s : State) (h v : Nat) : State :=
  let x := s.srv h v
  match x.item with
  | none => s
  | some d =>
    let k := dClass d
    let lim := s.fld (Reg.GWK_CLASS_B h k) Fl.GWK_CLASS_B_SVC_LIMIT
    if (s.srvState h v = 4 ∨ s.srvState h v = 5) ∧ lim ≠ 0 ∧ x.overrun = false ∧ s.now - x.sent > lim * 1000 then
      let s := (s.modSrv h v (fun y => { y with overrun := true })).modFlow h (dFlow d % 512) (fun y => { y with parked := true })
      let s := s.post Ev.FLOW_PARKED h 63 [(12, dFlow d), (7, v), (6, k), (16, (s.now - x.sent) / 1000)]
      s.gwkTrace h (dFlow d) k v 7 (dIseq d) 0
    else s

/-- WATCHDOG_CHECK (R215). -/
def State.watchdog (s : State) (h : Nat) : State :=
  if s.gwkOn h then (List.range 128).foldl (fun s v => s.watchSrv h v) s else s

/-- The response of an Ethernet engine to the XMIT of flow f (R217). -/
def State.xmitRsp (s : State) (h f st : Nat) : State :=
  match (s.flow h f).svc with
  | none => s
  | some d =>
    let e := s.fld (Reg.GWK_FLOW_STAT h f) Fl.GWK_FLOW_STAT_TARGET
    if s.fld (Reg.GWK_FLOW_STAT h f) Fl.GWK_FLOW_STAT_ENG = 0 then s
    else if st = 0 then s.itemDone h d
    else if st = 4 then
      let s := s.returnItem h d 3 e
      let s := if s.flowEn h f then s.modFlow h f (fun x => { x with retryWait := true }) else s
      s.postLim Ev.ENGINE_RETRY (512 * h + f) ms h e [(12, dFlow d)]
    else s.itemFailed h d e true 3

/-- ENGINE_RETRY_READY (R217): the first tick after the response. -/
def State.engineRetryReady (s : State) (h f : Nat) : State :=
  if (s.flow h f).retryWait then s.modFlow h f (fun x => { x with retryWait := false }) else s

/-! ## The delay list (R218 to R221) -/

/-- Ticks since an item's DUE, modulo 2^32. -/
def State.sinceDue (s : State) (h : Nat) (d : BitVec 256) : Nat := (s.tnow h + 2 ^ 32 - dDue d) % 2 ^ 32

/-- The entry of the delay list that is released next: the earliest due, in order of acceptance within a tick (R219). -/
def State.nextDue (s : State) (h : Nat) : Option (Nat × BitVec 256) :=
  ((s.gwk h).delay.filter (fun x => s.sinceDue h x.2 < 2 ^ 31)).foldl (fun best x => match best with
    | none => some x
    | some b => if s.sinceDue h x.2 > s.sinceDue h b.2 then some x else some b) none

/-- DUE_RELEASE (R219, R220). -/
def State.dueRelease (s : State) (h : Nat) : State :=
  if !s.gwkOn h || !s.bit (Reg.GWK_CTRL h) Fl.GWK_CTRL_RELEASE_EN then s
  else match s.nextDue h with
    | none => s
    | some (f, d) =>
      let slip := s.sinceDue h d
      let s := (s.modGwk h (fun g => { g with delay := g.delay.erase (f, d) })).delaySync h
      let s := s.modFlow h f (fun x => { x with ready := x.ready ++ [d] })
      let s := if slip = 0 then s
        else
          let s := s.incFld (Reg.GWK_DLY h) Fl.GWK_DLY_SLIP 1
          s.postLim Ev.RELEASE_SLIP h ms h 63 [(8, s.fld (Reg.GWK_DLY h) Fl.GWK_DLY_SLIP)]
      s.gwkTrace h (512 * h + f) (dClass d) 0 10 (dIseq d) (min slip 0xFFFFFF)

/-- A write of GWK_TICK (R218). -/
def State.gwkTickWrite (s : State) (h : Nat) (v : Word) : State :=
  if !s.bit (Reg.GWK_CTRL h) Fl.GWK_CTRL_DISPATCH_EN && (s.gwk h).delay.isEmpty then s.writeFields (Reg.GWK_TICK h) v
  else s.post Ev.GWK_CFG_REFUSED h 63 [(16, 0x0008)]

/-! ## Flows (R207) -/

/-- Free the ready and delayed items of flow f (R207). -/
def State.freeFlow (s : State) (h f : Nat) : State :=
  let n := (s.flow h f).ready.length + s.delayedOf h f
  let s := (s.modGwk h (fun g => { g with delay := g.delay.filter (fun x => x.1 != f) })).delaySync h
  let s := (s.modFlow h f (fun x => { x with ready := [], retryWait := false })).freeItems h n
  s.incFld (Reg.GWK_FLOW_CNT h f) Fl.GWK_FLOW_CNT_DROPPED n

/-- A write of GWK_FLOW_CFG_f (R207). -/
def State.flowCfgWrite (s : State) (h f : Nat) (v : Word) : State :=
  let a := Reg.GWK_FLOW_CFG h f
  let was := s.flowEn h f
  let s := s.writeFields a v
  if was && !s.flowEn h f then (s.freeFlow h f).modFlow h f (fun x => { x with parked := false })
  else if !was && s.flowEn h f then
    if (s.flow h f).svc.isSome then (s.setFld a Fl.GWK_FLOW_CFG_EN 0).flowSync h f
    else s.modFlow h f (fun x => { x with parked := false })
  else s.flowSync h f

/-- FLOW_RESUME (R207). -/
def State.flowResume (s : State) (h f : Nat) : State :=
  if s.flowState h f = 4 ∧ (s.flow h f).svc = none then
    (s.modFlow h f (fun x => { x with parked := false })).gwkTrace h (512 * h + f) 0 0 14 0 1
  else s

/-- FLOW_FLUSH (R207). -/
def State.flowFlush (s : State) (h f : Nat) : State :=
  if s.flowEn h f then (s.freeFlow h f).gwkTrace h (512 * h + f) 0 0 14 0 2 else s

/-- A write of GWK_FLOW_CMD. -/
def State.flowCmdWrite (s : State) (h : Nat) (v : Word) : State :=
  let f := fieldOf v Fl.GWK_FLOW_CMD_FLOW
  let op := fieldOf v Fl.GWK_FLOW_CMD_OP
  if fieldOf v Fl.GWK_FLOW_CMD_GO = 0 then s
  else if op = 1 then s.flowResume h f
  else if op = 2 then s.flowFlush h f
  else s

/-! ## Servers coming and going (R223 to R225, R228) -/

/-- Record the result of a server command. -/
def State.srvResult (s : State) (h r : Nat) : State := s.setFld (Reg.GWK_SRV_STAT h) Fl.GWK_SRV_STAT_RESULT r

/-- OP ADD of GWK_SRV_CMD (R223). -/
def State.srvAdd (s : State) (h g : Nat) : State :=
  if s.bit (Reg.GWK_SRV_STAT h) Fl.GWK_SRV_STAT_BUSY then s
  else if s.ctxSrc (srvGal h g) ≠ 2 ∨ s.domOn h g = false then s.srvResult h 1
  else if s.hasServers h g then s.srvResult h 2
  else (s.addServers h g).srvResult h 0

/-- Steps 1 to 3 of the removal of gallery g's servers (R224). -/
def State.removeServers (s : State) (h g : Nat) (byCmd : Bool) : State :=
  let s := s.modGwk h (fun x =>
    { x with removing := if x.removing.any (fun y => y.1 == g) then x.removing.map (fun y => if y.1 = g then (g, y.2 || byCmd) else y)
                         else x.removing ++ [(g, byCmd)] })
  (srvsOf g).foldl (fun s v =>
    if s.srvState h v = 3 then s.returnReserved h v 2
    else if s.srvState h v = 4 then s.setSrvState h v 5
    else s) s

/-- OP REMOVE of GWK_SRV_CMD (R224). -/
def State.srvRemove (s : State) (h g : Nat) : State :=
  if s.bit (Reg.GWK_SRV_STAT h) Fl.GWK_SRV_STAT_BUSY then s
  else if !s.hasServers h g then s.srvResult h 2
  else (s.setFld (Reg.GWK_SRV_STAT h) Fl.GWK_SRV_STAT_BUSY 1).removeServers h g true

/-- Step 4 of the removal (R224): no server is RESERVED, LOADING or DRAINING. -/
def State.serversRemoved (s : State) (h g : Nat) : State :=
  match (s.gwk h).removing.find? (fun x => x.1 == g) with
  | none => s
  | some x =>
    if s.galHas h g [2, 3, 5] then s
    else
      let s := (srvsOf g).foldl (fun s v => (s.modSrv h v (fun _ => {})).setReg (Reg.GWK_SRV h v) 0) s
      let s := s.modGwk h (fun y => { y with removing := y.removing.filter (fun z => z.1 != g) })
      let s := s.setFld (Reg.GAL_CTX_STAT (srvGal h g)) Fl.GAL_CTX_STAT_SERVERS 0
      let s := (s.post Ev.SRV_REMOVED h g []).gwkTrace h 0 0 (4 * g) 13 0 (1 + 2 * g)
      if x.2 then (s.setFld (Reg.GWK_SRV_STAT h) Fl.GWK_SRV_STAT_BUSY 0).srvResult h 0 else s

/-- OP PRELOAD of GWK_SRV_CMD (R225). -/
def State.srvPreload (s : State) (h g k : Nat) : State :=
  if s.bit (Reg.GWK_SRV_STAT h) Fl.GWK_SRV_STAT_BUSY then s
  else if s.ctxSrc (srvGal h g) ≠ 2 ∨ s.domOn h g = false then s.srvResult h 1
  else if !s.hasServers h g then s.srvResult h 2
  else match (if (s.gwk h).removing.any (fun x => x.1 == g) then none else s.victim h g) with
    | none => s.srvResult h 3
    | some v =>
      let s := ((s.setFld (Reg.GWK_SRV_STAT h) Fl.GWK_SRV_STAT_BUSY 1).setSrvState h v 2).askLoad h v k
      s.gwkTrace h 0 k v 12 0 (v % 4 + 4 * s.fld (Reg.GWK_CLASS_A h k) Fl.GWK_CLASS_A_SLOT)

/-- A write of GWK_SRV_CMD. -/
def State.srvCmdWrite (s : State) (h : Nat) (v : Word) : State :=
  let g := fieldOf v Fl.GWK_SRV_CMD_G
  let op := fieldOf v Fl.GWK_SRV_CMD_OP
  if fieldOf v Fl.GWK_SRV_CMD_GO = 0 then s
  else if op = 1 then s.srvAdd h g
  else if op = 2 then s.srvRemove h g
  else if op = 3 then s.srvPreload h g (fieldOf v Fl.GWK_SRV_CMD_CLASS)
  else s

/-- Gweak returns to its reset state with its configuration kept (R228): items, delay list, servers and statistics go. -/
def State.gwkClear (s : State) (h : Nat) : State :=
  let base := hallBase h 0x30000
  let keepable := fun (o : Nat) =>
    decide (o < 0xC) || (0x18 ≤ o && o < 0x28) || (0x800 ≤ o && o < 0xD00) || (0x1000 ≤ o && o < 0x2000)
      || (0x2000 ≤ o && o % 16 == 0)
  let s := s.resetRegs (fun a => decide (base ≤ a) && decide (a < base + 0x10000) && !keepable (a - base))
  let s := s.modGwk h (fun _ => {})
  (List.range 512).foldl (fun s f => if s.flowEn h f then s.flowSync h f else s) s

/-- Gweak adds the servers of every SCHEDULED gallery (R228); a plane that still holds an item is BUSY with no flow. -/
def State.gwkRestart (s : State) (h : Nat) : State :=
  (List.range 32).foldl (fun s g =>
    let s := s.setFld (Reg.GAL_CTX_STAT (srvGal h g)) Fl.GAL_CTX_STAT_SERVERS 0
    let s := s.addServersIf h g
    if s.hasServers h g then
      (s.gal (srvGal h g)).it.foldl (fun s i =>
        (s.setSrvState h (4 * g + i.plane) 4).modSrv h (4 * g + i.plane) (fun x => { x with orphan := true })) s
    else s) (s.gwkClear h)

/-! ## Meanings -/

/-- GWK_ENQ_GO (R199). -/
def execGwkEnqGo (h : HallIx) (v : Word) (s : State) : Out := .next (s.hostWrite (Reg.GWK_ENQ_GO h) (·.gwkEnqGo h v))
/-- DISPATCH_DECISION (R209). -/
def execDispatchDecision (h : HallIx) (s : State) : Out := .next (s.dispatch h)
/-- CLASS_NO_SERVER (R216). -/
def execClassNoServer (h : HallIx) (f : Fin 512) (s : State) : Out := .next (s.classNoServer h f)
/-- WATCHDOG_CHECK (R215). -/
def execWatchdogCheck (h : HallIx) (s : State) : Out := .next (s.watchdog h)
/-- ENGINE_RETRY_READY (R217). -/
def execEngineRetryReady (h : HallIx) (f : Fin 512) (s : State) : Out := .next (s.engineRetryReady h f)
/-- DUE_RELEASE (R219). -/
def execDueRelease (h : HallIx) (s : State) : Out := .next (s.dueRelease h)
/-- GWK_TICK_WRITE (R218). -/
def execGwkTickWrite (h : HallIx) (v : Word) (s : State) : Out := .next (s.hostWrite (Reg.GWK_TICK h) (·.gwkTickWrite h v))
/-- GWK_FLOW_CFG_WRITE (R207). -/
def execGwkFlowCfgWrite (h : HallIx) (f : Fin 512) (v : Word) (s : State) : Out :=
  .next (s.hostWrite (Reg.GWK_FLOW_CFG h f) (·.flowCfgWrite h f v))
/-- FLOW_RESUME (R207). -/
def execFlowResume (h : HallIx) (f : Fin 512) (s : State) : Out :=
  .next (s.hostWrite (Reg.GWK_FLOW_CMD h) (·.flowResume h f))
/-- FLOW_FLUSH (R207). -/
def execFlowFlush (h : HallIx) (f : Fin 512) (s : State) : Out := .next (s.hostWrite (Reg.GWK_FLOW_CMD h) (·.flowFlush h f))
/-- SRV_ADD (R223). -/
def execSrvAdd (h : HallIx) (g : Fin 32) (s : State) : Out := .next (s.hostWrite (Reg.GWK_SRV_CMD h) (·.srvAdd h g))
/-- SRV_REMOVE (R224). -/
def execSrvRemove (h : HallIx) (g : Fin 32) (s : State) : Out := .next (s.hostWrite (Reg.GWK_SRV_CMD h) (·.srvRemove h g))
/-- SRV_PRELOAD (R225). -/
def execSrvPreload (h : HallIx) (g : Fin 32) (k : Fin 64) (s : State) : Out :=
  .next (s.hostWrite (Reg.GWK_SRV_CMD h) (·.srvPreload h g k))
/-- GAL_CTX_CFG_WRITE (R122). -/
def execGalCtxCfgWrite (G : GalIx) (v : Word) (s : State) : Out := .next (s.ctxCfgWrite G v)

end Sys2Proof.Machine
end

