-- ==== Sys2Proof/Machine/Hbm.lean ====
section
/-!
DEFINITION. Machine/Hbm.lean: the HBM3E memory port's controller (chapter 08): address map, queues, bursts and their check codes,
alerts, refresh, row disturbance and self-refresh.
-/
namespace Sys2Proof.Machine

/-! ## State and addresses (R267) -/

/-- The memory port of hall h. -/
def State.hbm (s : State) (h : Nat) : Hbm := (s.hall h).hbm

/-- Change it. -/
def State.modHbm (s : State) (h : Nat) (f : Hbm → Hbm) : State := s.modHall h (fun x => { x with hbm := f x.hbm })

/-- HBM_STAT.STATE: 0 OFF, 1 INIT, 2 ACTIVE, 3 SELF_REFRESH, 4 EXITING, 5 FAILED. -/
def State.hbmState (s : State) (h : Nat) : Nat := s.fld (Reg.HBM_STAT h) Fl.HBM_STAT_STATE

/-- Set it. -/
def State.setHbmState (s : State) (h st : Nat) : State := s.setFld (Reg.HBM_STAT h) Fl.HBM_STAT_STATE st

/-- The memory key of stack offset off of hall h's stack. -/
def hbmKey (h off : Nat) : Nat := stackOfHall h * 0x1000000000 + off

/-- The pseudo-channel of a stack offset (R267). -/
def pcOf (off : Nat) : Nat := off / 256 % 32

/-- The offset within the pseudo-channel. -/
def pcOff (off : Nat) : Nat := off / 8192 * 256 + off % 256

/-- Bank of a stack offset as 16 SID + 4 bank group + bank. -/
def hbmBank (off : Nat) : Nat :=
  let p := pcOff off
  let q := p % 0x18000000
  16 * (p / 0x18000000) + 4 * (q / 1024 % 4) + q / 4096 % 4

/-- Row of a stack offset. -/
def hbmRow (off : Nat) : Nat := pcOff off % 0x18000000 / 16384

/-- The row key of the activation table: SID, bank group, bank and row (R280). -/
def rowKey (bank row : Nat) : Nat := bank * 32768 + row

/-- Pseudo-channel pc. -/
def State.pc (s : State) (h pc : Nat) : PcSt := Sparse.get (s.hbm h).pcs {} pc

/-- Change a pseudo-channel. -/
def State.modPc (s : State) (h pc : Nat) (f : PcSt → PcSt) : State :=
  s.modHbm h (fun b => { b with pcs := Sparse.set b.pcs {} pc (f (Sparse.get b.pcs {} pc)) })

/-- The channel of pseudo-channel pc has failed (R278). -/
def State.pcFailed (s : State) (h pc : Nat) : Bool := bitOf (s.fld (Reg.HBM_STAT h) Fl.HBM_STAT_FAILED_CH) (pc / 2)

/-- The 64 bytes of block blk as they stand in the stack. -/
def State.blkData (s : State) (h blk : Nat) : BitVec 512 := BitVec.ofNat 512 (natOfBytes (s.readBytes (hbmKey h (64 * blk)) 64))

/-- Replace the enabled bytes of a block. -/
def overlay (old new : BitVec 512) (mask : BitVec 64) : BitVec 512 :=
  BitVec.ofNat 512 (natOfBytes ((List.range 64).map (fun i =>
    BitVec.ofNat 8 ((if bitOf mask.toNat i then new.toNat else old.toNat) / 2 ^ (8 * i)))))

/-- Bytes of a block. -/
def blkBytes (d : BitVec 512) : List Byte := bytesOf 64 d

/-! ## Row disturbance (R280) -/

/-- The entry with the lowest count, the first among equals. -/
def lowestEntry (t : List (Nat × Nat)) : Nat :=
  (t.foldl (fun best e => match best with
    | none => some e
    | some b => if e.2 < b.2 then some e else some b) none).elim 0 (·.1)

/-- The activation table after an activate of row key k, and the count that k then has. -/
def tableActivate (t : List (Nat × Nat)) (k : Nat) : List (Nat × Nat) × Nat :=
  match t.find? (fun e => e.1 == k) with
  | some e => (t.map (fun x => if x.1 = k then (k, x.2 + 1) else x), e.2 + 1)
  | none =>
    if t.length < 64 then (t ++ [(k, 1)], 1)
    else
      let l := lowestEntry t
      let c := ((t.find? (fun e => e.1 == l)).map (·.2)).getD 0
      (t.map (fun x => if x.1 = l then (k, c + 1) else x), c + 1)

/-- An activate of a row is counted; a row that reaches THRESH has its neighbours refreshed, which leaves its bank precharged (R280). -/
def State.countActivate (s : State) (h pc key : Nat) : State :=
  if !s.bit (Reg.HBM_RH h) Fl.HBM_RH_EN then s
  else
    let r := tableActivate (s.pc h pc).table key
    let s := s.modPc h pc (fun x => { x with table := r.1 })
    if r.2 ≥ s.fld (Reg.HBM_RH h) Fl.HBM_RH_THRESH then
      let s := s.modPc h pc (fun x => { x with
        table := x.table.map (fun e => if e.1 = key then (key, 0) else e), rows := Sparse.del x.rows (key / 32768) })
      let s := s.incFld (Reg.HBM_RHCNT h) Fl.HBM_RHCNT_COUNT 1
      let b := key / 32768
      s.postLim Ev.HBM_NEIGHBOUR_REFRESH (32 * h + pc) ms h (b % 4)
        [(5, pc), (2, b / 16), (2, b / 4 % 4), (15, key % 32768)]
    else s

/-- The row of a stack offset is opened if it is not open. -/
def State.openRow (s : State) (h pc off : Nat) : State :=
  let b := hbmBank off
  let r := hbmRow off
  if Sparse.find (s.pc h pc).rows b = some r then s
  else (s.modPc h pc (fun x => { x with rows := Sparse.put x.rows b r })).countActivate h pc (rowKey b r)

/-- Whether the row of a block is open. -/
def rowOpen (x : PcSt) (blk : Nat) : Bool := Sparse.find x.rows (hbmBank (64 * blk)) == some (hbmRow (64 * blk))

/-! ## Write queues (R269 to R271) -/

/-- The mask of burst b of a block. -/
def burstMask (m : BitVec 64) (b : Nat) : Nat := m.toNat / 2 ^ (32 * b) % 2 ^ 32

/-- All bytes of the bursts of which a mask enables some. -/
def touchedBursts (m : BitVec 64) : BitVec 64 :=
  BitVec.ofNat 64 ((if burstMask m 0 = 0 then 0 else 2 ^ 32 - 1) + (if burstMask m 1 = 0 then 0 else 2 ^ 64 - 2 ^ 32))

/-- Put bytes into the write queue, merging into the block's entry if it has one (R270); the write-back of a burst that the write
touches is cancelled (R275). -/
def wqPut (q : List WqEnt) (e : WqEnt) : List WqEnt :=
  if q.any (fun x => x.blk == e.blk) then
    q.map (fun x => if x.blk = e.blk then
      let c := x.wb &&& touchedBursts e.mask
      { x with data := overlay x.data e.data e.mask, mask := (x.mask &&& ~~~c) ||| e.mask, waiters := x.waiters ++ e.waiters,
               posted := x.posted + e.posted, wb := x.wb &&& ~~~c } else x)
  else q ++ [e]

/-- A burst, by stack offset, of which a mask of its block enables some byte. -/
def burstHit (blk : Nat) (m : BitVec 64) (off : Nat) : Bool := off / 64 == blk && burstMask m (off / 32 % 2) != 0

/-- A pseudo-channel takes a write: it goes ahead of its turn where a read of its block waits (R270), and cancels the write-backs of its
bursts (R275). -/
def pcPost (x : PcSt) (e : WqEnt) : PcSt :=
  let u := x.rq.any (fun r => r.blk == e.blk)
  { x with
    wq := (wqPut x.wq e).map (fun y => if y.blk = e.blk then { y with urgent := y.urgent || u } else y)
    wbWait := x.wbWait.filter (fun o => !burstHit e.blk e.mask o) }

/-- Place a write in its queue; a channel in self-refresh exits (R281). -/
def State.wqPost (s : State) (h : Nat) (e : WqEnt) : State :=
  let pc := pcOf (64 * e.blk)
  (s.modPc h pc (fun x => pcPost x e)).setFldBit (Reg.HBM_SR h) Fl.HBM_SR_BITS (pc / 2) false

/-- A block has a burst with only some of its bytes enabled (R271). -/
def partialMask (m : BitVec 64) : Bool :=
  [0, 1].any (fun b => burstMask m b != 0 && burstMask m b != 2 ^ 32 - 1)

/-! ## Burst checks (R275, R276) -/

/-- How a burst arrives: by the fact given, and arbitrary when some byte has never been written (R284). -/
def State.burstFact (s : State) (h off : Nat) (f : BurstFact) : BurstFact :=
  let k := hbmKey h off
  match (List.range 32).find? (fun i => (s.memByte (k + i)).isNone) with
  | some i =>
    let c := Config.unwrittenCheck s.memEpoch (k + i)
    if f = .ok then (if c = 0 then .ok else if c = 1 then .corrected else .uncorrectable) else f
  | none => f

/-- Record an uncorrectable burst (R275). -/
def State.burstUe (s : State) (h off cause : Nat) : State :=
  let pc := pcOf off
  let b := hbmBank off
  let s := s.incFld (Reg.HBM_ERR h) Fl.HBM_ERR_UE 1
  let s := s.setReg (Reg.HBM_ELOG_0 h)
    (BitVec.ofNat 32 (packBits [(3, 0), (15, hbmRow off), (2, b % 4), (2, b / 4 % 4), (2, b / 16), (5, pc), (2, cause), (1, 1)]))
  let s := s.setReg (Reg.HBM_ELOG_1 h) (BitVec.ofNat 32 (off / 32 % 2 ^ 31))
  s.postLim Ev.HBM_UE (32 * h + pc) ms h 63 [(5, pc), (2, cause), (31, off / 32)]

/-- The write-back of a corrected burst enters the write queue, in its block's entry if there is one (R275). -/
def State.wbEnter (s : State) (h off : Nat) : State :=
  let blk := off / 64
  let m : BitVec 64 := BitVec.ofNat 64 ((2 ^ 32 - 1) <<< (off % 64))
  let d := s.blkData h blk
  let t := s.now
  s.modPc h (pcOf off) (fun x =>
    if x.wq.any (fun e => e.blk == blk) then
      { x with wq := x.wq.map (fun e =>
          if e.blk = blk then { e with data := overlay e.data d m, mask := e.mask ||| m, wb := e.wb ||| m } else e) }
    else { x with wq := x.wq ++ [{ blk := blk, data := d, mask := m, t := t, wb := m }] })

/-- Write-backs that wait enter the write queue while it has room (R269, R275). -/
def State.wbDrain (s : State) (h pc : Nat) : State :=
  (s.pc h pc).wbWait.foldl (fun s o =>
    let x := s.pc h pc
    if x.wq.length < 64 ∨ x.wq.any (fun e => e.blk == o / 64) then
      (s.modPc h pc (fun y => { y with wbWait := y.wbWait.erase o })).wbEnter h o
    else s) s

/-- A corrected burst: counted, and written back through the write queue unless a write to it is there already (R275); the write of a
merge stands for the write-back. -/
def State.burstCe (s : State) (h off cause : Nat) : State :=
  let s := s.incFld (Reg.HBM_ERR h) Fl.HBM_ERR_CE 1
  let pc := pcOf off
  let x := s.pc h pc
  if cause == 0 && s.bit (Reg.HBM_CFG h) Fl.HBM_CFG_WB_EN && !x.wq.any (fun e => burstHit e.blk e.mask off) && !x.wbWait.contains off then
    (s.modPc h pc (fun y => { y with wbWait := y.wbWait ++ [off] })).wbDrain h pc
  else s

/-- The read of a burst is checked: the state after it, and whether its data is good. cause is 0 for a read, 1 for a merge. -/
def State.burstRead (s : State) (h off cause : Nat) (f : BurstFact) : State × Bool :=
  match s.burstFact h off f with
  | .ok => (s, true)
  | .parityOnce => (s, true)
  | .corrected => (s.burstCe h off cause, true)
  | .uncorrectable => (s.burstUe h off cause, false)
  | .severity => (s.burstUe h off (if cause = 1 then 1 else 3), false)
  | .parityTwice => (s.burstUe h off (if cause = 1 then 1 else 2), false)

/-! ## Results of requests (R244, R271) -/

/-- The status of a request from its blocks: the first that is not OK in address order (R244). -/
def firstStatus (r : List (Option (Nat × BitVec 512))) : Nat :=
  ((r.filterMap (fun x => x.map (·.1))).find? (· != 0)).getD 0

/-- Answer a request whose blocks all have results. -/
def State.hbmFinish (s : State) (h : Nat) (q : HReq) : State :=
  if q.res.all (·.isSome) then
    let s := s.modHbm h (fun b => { b with reqs := b.reqs.filter (fun x => x.id != q.id) })
    s.respond q.p (OSt.ofCode (firstStatus q.res))
      (if q.p.cmd = 1 then q.res.map (fun x => (x.map (·.2)).getD 0) else [])
  else s

/-- Block k of request id has its result. -/
def State.hbmResult (s : State) (h id k code : Nat) (d : BitVec 512) : State :=
  match (s.hbm h).reqs.find? (fun x => x.id == id) with
  | none => s
  | some q =>
    let q' : HReq := { q with res := q.res.set k (some (code, d)) }
    (s.modHbm h (fun b => { b with reqs := b.reqs.map (fun x => if x.id = id then q' else x) })).hbmFinish h q'

/-- Byte enables of unit u of a packet (R237). -/
def beOf (p : Packet) (u : Nat) : BitVec 64 :=
  if u = 0 then p.beFirst else if u + 1 = p.units.toNat then p.beLast else BitVec.allOnes 64

/-- The code of a request whose block w is part of a write entry: 1 (DATA_ERR) where a burst of its own was not written (R271). -/
def waiterCode (reqs : List HReq) (bad : List Nat) (w : Nat × Nat) : Nat :=
  match reqs.find? (fun q => q.id == w.1) with
  | none => 0
  | some q => b2n (bad.any (fun b => burstMask (beOf q.p w.2) b != 0))

/-- Perform a write entry in the stack (R271): full bursts are written, partial ones merged, and waiting requests get their
results. -/
def State.wqPerform (s : State) (h : Nat) (e : WqEnt) (facts : List BurstFact) : State :=
  let off := 64 * e.blk
  let reqs := (s.hbm h).reqs
  let one := fun (r : State × List Nat) (b : Nat) =>
    let m := burstMask e.mask b
    let o := off + 32 * b
    let bytes := ((blkBytes e.data).drop (32 * b)).take 32
    if m = 0 then r
    else if m = 2 ^ 32 - 1 then (r.1.writeBytes (hbmKey h o) bytes, r.2)
    else
      let c := r.1.burstRead h o 1 (facts.getD b .ok)
      if c.2 then
        let old := c.1.readBytes (hbmKey h o) 32
        (c.1.writeBytes (hbmKey h o) ((List.range 32).map (fun i => if bitOf m i then bytes.getD i 0 else old.getD i 0)), r.2)
      else (c.1, r.2 ++ [b])
  let r := [0, 1].foldl one (s, [])
  e.waiters.foldl (fun s w => s.hbmResult h w.1 w.2 (waiterCode reqs r.2 w) 0) r.1

/-- The data and code that a read of block blk delivers: bursts that are uncorrectable read 0 (R275). -/
def State.blkRead (s : State) (h blk : Nat) (facts : List BurstFact) : State × Nat × BitVec 512 :=
  let off := 64 * blk
  let d := s.blkData h blk
  let r0 := s.burstRead h off 0 (facts.getD 0 .ok)
  let r1 := r0.1.burstRead h (off + 32) 0 (facts.getD 1 .ok)
  let lo := if r0.2 then d.toNat % 2 ^ 256 else 0
  let hi := if r1.2 then d.toNat / 2 ^ 256 else 0
  (r1.1, if r0.2 && r1.2 then 0 else 1, BitVec.ofNat 512 (lo + hi * 2 ^ 256))

/-! ## The scheduler's choice (R273) -/

/-- What a schedule step issues. -/
inductive Issue where
  | none
  | read (e : RqEnt)
  | write (e : WqEnt)
  deriving DecidableEq, Repr

/-- Oldest entry of a write queue to an open row, else the oldest; an entry for which a read waits goes first (R270). -/
def nextWrite (x : PcSt) : Option WqEnt :=
  match x.wq.find? (·.urgent) with
  | some e => some e
  | none => match x.wq.find? (fun e => rowOpen x e.blk) with
    | some e => some e
    | none => x.wq.head?

/-- The mode after the first lines of the step. -/
def modeBefore (x : PcSt) (high wrAge now : Nat) : PcMode :=
  if x.mode = .read then
    if x.wq.length ≥ high ∨ (wrAge ≠ 0 ∧ x.wq.any (fun e => e.t + wrAge * 1000 ≤ now)) then .forced
    else if x.rq.isEmpty && !x.wq.isEmpty then .opportune
    else .read
  else x.mode

/-- The read that a step in read mode issues: the oldest; or the oldest to an open row while the oldest is not over age. A read
that waits for a write entry of its block is not issued before it (R270). -/
def nextRead (x : PcSt) (readAge now : Nat) : Option RqEnt :=
  let free := x.rq.filter (fun r => !x.wq.any (fun e => e.blk == r.blk))
  match free with
  | [] => none
  | r :: _ =>
    if now < r.t + readAge * 10 then
      match free.find? (fun e => rowOpen x e.blk) with
      | some e => some e
      | none => some r
    else some r

/-- Row commands are issued ahead for queued requests (R273): a bank no queued request of which finds its row open opens the row of its
oldest, reads before writes. -/
def State.rowsAhead (s : State) (h pc : Nat) : State :=
  let l := (s.pc h pc).rq.map (·.blk) ++ (s.pc h pc).wq.map (·.blk)
  l.foldl (fun s blk =>
    let x := s.pc h pc
    if l.any (fun y => hbmBank (64 * y) == hbmBank (64 * blk) && rowOpen x y) then s else s.openRow h pc (64 * blk)) s

/-- The issue of one schedule step, and the mode in which it is made. -/
def State.schedule (s : State) (h pc : Nat) : PcMode × Issue :=
  let x := s.pc h pc
  let wq := Reg.HBM_WQ h
  let m := modeBefore x (s.fld wq Fl.HBM_WQ_HIGH) (s.fld wq Fl.HBM_WQ_WR_AGE) s.now
  match x.wq.find? (·.urgent) with
  | some e => (m, .write e)
  | none =>
    if m = .read then
      (m, match nextRead x (s.fld (Reg.HBM_CFG h) Fl.HBM_CFG_READ_AGE) s.now with
        | some r => .read r
        | none => .none)
    else (m, match nextWrite x with
      | some e => .write e
      | none => .none)

/-- The mode after a write has been issued in write mode (R273). -/
def State.modeAfter (s : State) (h pc : Nat) (m : PcMode) : State :=
  s.modPc h pc (fun x =>
    let n := if x.rq.isEmpty then 0 else x.wsr + 1
    let m' := match m with
      | .forced => if x.wq.length ≤ s.fld (Reg.HBM_WQ h) Fl.HBM_WQ_LOW then .read else .forced
      | .opportune => if x.wq.isEmpty || (!x.rq.isEmpty && decide (n ≥ 4)) then .read else .opportune
      | .read => .read
    { x with mode := m', wsr := if m' = .read then 0 else n })

/-- Issue a write entry. -/
def State.issueWrite (s : State) (h pc : Nat) (m : PcMode) (e : WqEnt) (facts : List BurstFact) : State :=
  let s := (s.openRow h pc (64 * e.blk)).modPc h pc (fun x => { x with wq := x.wq.filter (fun y => y.blk != e.blk) })
  (s.wqPerform h e facts).modeAfter h pc m

/-- How a burst that a command without such an operand reads arrives: a free value. -/
def freeFact (n : Nat) : BurstFact :=
  let x := (Config.freeWord n).toNat % 6
  if x = 0 then .ok else if x = 1 then .corrected else if x = 2 then .uncorrectable else if x = 3 then .severity
  else if x = 4 then .parityOnce else .parityTwice

/-- The facts of the two bursts of a block, free, and the state after they are drawn. -/
def State.freeFacts (s : State) : State × List BurstFact := (s.draw.draw, [freeFact s.free, freeFact (s.free + 1)])

/-- Room is made in the write queue of a block for a write of the engine's own: the queue's next write is issued (R269). -/
def State.wqRoom (s : State) (h blk : Nat) : State :=
  let pc := pcOf (64 * blk)
  let x := s.pc h pc
  if x.wq.length < 64 ∨ x.wq.any (fun e => e.blk == blk) then s
  else match nextWrite x with
    | some e =>
      let f := s.freeFacts
      f.1.issueWrite h pc x.mode e f.2
    | none => s

/-! ## Alerts (R277, R278) -/

/-- A channel fails (R278). -/
def State.channelFails (s : State) (h ch : Nat) : State :=
  let lost := ([2 * ch, 2 * ch + 1].map (fun pc => ((s.pc h pc).wq.map (·.posted)).foldl (· + ·) 0)).foldl (· + ·) 0
  let s := s.setFldBit (Reg.HBM_STAT h) Fl.HBM_STAT_FAILED_CH ch true
  let s := [2 * ch, 2 * ch + 1].foldl (fun s pc =>
    let x := s.pc h pc
    let s := s.modPc h pc (fun y => { y with rq := [], wq := [], mode := .read, wsr := 0, wbWait := [] })
    let s := x.wq.foldl (fun s e => e.waiters.foldl (fun s w => s.hbmResult h w.1 w.2 4 0) s) s
    x.rq.foldl (fun s r => s.hbmResult h r.id r.k 4 0) s) s
  s.post Ev.HBM_CH_FAILED h 63 [(4, ch), (16, lost)]

/-- HBM_ALERT (R277): kind 0 command/address parity, 1 write data parity; acked: 16 commands of the previous replay have been
acknowledged; acts: row keys of the activates replayed, with the low bit of their pseudo-channel. -/
def State.hbmAlert (s : State) (h ch kind : Nat) (acked : Bool) (acts : List (Nat × Nat)) : State :=
  if bitOf (s.fld (Reg.HBM_STAT h) Fl.HBM_STAT_FAILED_CH) ch ∨ (s.hbmState h ≠ 2) then s
  else
    let n := match Sparse.find (s.hbm h).alerts ch with
      | none => 0
      | some k => if acked then 0 else k + 1
    let s := s.modHbm h (fun b => { b with alerts := Sparse.put b.alerts ch n })
    let s := s.incFld (Reg.HBM_ERR h) Fl.HBM_ERR_ALERT 1
    let s := s.postLim Ev.HBM_ALERT (16 * h + ch) ms h 63 [(4, ch), (1, kind), (8, n + 1)]
    let s := [2 * ch, 2 * ch + 1].foldl (fun s pc => s.modPc h pc (fun x => { x with rows := [] })) s
    let s := acts.foldl (fun s a => s.countActivate h (2 * ch + a.1 % 2) a.2) s
    if n ≥ 4 then s.channelFails h ch else s

/-! ## Refresh (R279) -/

/-- HBM_REFRESH: a per-bank refresh falls due (R279). While reads wait for the bank it is postponed, by at most 8 intervals; when it
is issued, postponed ones go with it and the bank is precharged. -/
def State.hbmRefresh (s : State) (h pc bank : Nat) : State :=
  if bitOf (s.fld (Reg.HBM_SR h) Fl.HBM_SR_BITS) (pc / 2) ∨ (s.hbmState h ≠ 2) then s
  else
    s.modPc h pc (fun x =>
      let n := Sparse.get x.postponed 0 bank
      if x.rq.any (fun r => hbmBank (64 * r.blk) == bank) && decide (n < 8) then
        { x with postponed := Sparse.set x.postponed 0 bank (n + 1) }
      else { x with postponed := Sparse.del x.postponed bank, rows := Sparse.del x.rows bank })

/-- ACTIVATION_TABLE_CLEAR (R280). -/
def State.clearTables (s : State) (h : Nat) : State :=
  s.modHbm h (fun b => { b with pcs := b.pcs.map (fun x => (x.1, { x.2 with table := [] })) })

/-! ## Self-refresh (R281 to R283) -/

/-- A pseudo-channel has nothing queued. -/
def pcIdle (x : PcSt) : Bool := x.rq.isEmpty && x.wq.isEmpty

/-- A pseudo-channel has no postponed refresh due. -/
def pcRefreshed (x : PcSt) : Bool := x.postponed.all (fun y => y.2 == 0)

/-- HBM_CHANNEL_SR_ENTRY (R281). -/
def State.channelSr (s : State) (h ch : Nat) : State :=
  if s.hbmState h = 2 ∧ s.fld (Reg.HBM_CFG h) Fl.HBM_CFG_SR_IDLE ≠ 0 ∧ pcIdle (s.pc h (2 * ch)) = true
      ∧ pcIdle (s.pc h (2 * ch + 1)) = true ∧ pcRefreshed (s.pc h (2 * ch)) = true ∧ pcRefreshed (s.pc h (2 * ch + 1)) = true ∧ s.pcFailed h (2 * ch) = false then
    (s.setFldBit (Reg.HBM_SR h) Fl.HBM_SR_BITS ch true).modHbm h (fun b =>
      { b with pcs := Sparse.set (Sparse.set b.pcs {} (2 * ch) { Sparse.get b.pcs {} (2 * ch) with rows := [] }) {} (2 * ch + 1)
                 { Sparse.get b.pcs {} (2 * ch + 1) with rows := [] } })
  else s

/-- Every pseudo-channel's queues are empty and no request is part-way performed. -/
def State.portQuiet (s : State) (h : Nat) : Bool :=
  (List.range 32).all (fun pc => pcIdle (s.pc h pc)) && (s.hbm h).reqs.isEmpty

/-- The write queue of pseudo-channel pc is performed. -/
def State.flushWrites (s : State) (h pc : Nat) : State :=
  let x := s.pc h pc
  x.wq.foldl (fun s e => let f := s.freeFacts; f.1.wqPerform h e f.2) (s.modPc h pc (fun y => { y with wq := [] }))

/-- Everything queued is performed (before the resets of R284 and the table of R57): writes first, then reads and their write-backs. -/
def State.portFlush (s : State) (h : Nat) : State :=
  (List.range 32).foldl (fun s pc =>
    let x := s.pc h pc
    let s := (s.modPc h pc (fun y => { y with rq := [], mode := .read, wsr := 0 })).flushWrites h pc
    (x.rq.foldl (fun s r =>
      let f := s.freeFacts
      let d := f.1.blkRead h r.blk f.2
      d.1.hbmResult h r.id r.k d.2.1 d.2.2) s).flushWrites h pc) s

/-- The stack asks for admission of its exit (R282, R420 kind 8). -/
def State.askExit (s : State) (h : Nat) : State := (s.setHbmState h 4).admRequest 8 h (.hbmExit (stackOfHall h))

/-- A cause of whole-stack self-refresh begins (R282): requests wait from now on. -/
def State.srBegin (s : State) (h cause : Nat) : State :=
  if !hasPort h then s
  else s.modHbm h (fun b => { b with wants := if b.wants.contains cause then b.wants else b.wants ++ [cause] })

/-- A cause ends (R282): when none is left and the stack is in self-refresh, the exit is asked for. -/
def State.srEnd (s : State) (h cause : Nat) : State :=
  if !hasPort h || !(s.hbm h).wants.contains cause then s
  else
    let s := s.modHbm h (fun b => { b with wants := b.wants.filter (· != cause) })
    if (s.hbm h).wants.isEmpty && s.hbmState h == 3 then s.askExit h else s

/-- The stack has entered self-refresh: state, channels, the cost of its last exit (R282, R420). -/
def State.stackEntered (s : State) (h : Nat) : State :=
  let failed := s.fld (Reg.HBM_STAT h) Fl.HBM_STAT_FAILED_CH
  let s := s.setFld (Reg.HBM_SR h) Fl.HBM_SR_BITS (s.fld (Reg.HBM_SR h) Fl.HBM_SR_BITS ||| (0xFFFF - failed))
  let s := s.modHbm h (fun b => { b with exiting := false, pcs := b.pcs.map (fun x => (x.1, { x.2 with rows := [], postponed := [] })) })
  let s := (s.admRelease 8 (.hbmExit (stackOfHall h))).admWithdraw (.hbmExit (stackOfHall h))
  let s := s.setHbmState h 3
  if (s.hbm h).wants.isEmpty then s.askExit h else s

/-- The grant of the exit (R282). -/
def State.exitGranted (s : State) (h : Nat) : State := s.modHbm h (fun b => { b with exiting := true })

/-- SR_HOLD_SET (R282). -/
def State.srHoldSet (s : State) (h : Nat) : State :=
  (s.setFld (Reg.HBM_CTRL h) Fl.HBM_CTRL_SR_HOLD 1).srBegin h 2

/-- SR_HOLD_CLEAR (R282). -/
def State.srHoldClear (s : State) (h : Nat) : State :=
  (s.setFld (Reg.HBM_CTRL h) Fl.HBM_CTRL_SR_HOLD 0).srEnd h 2

/-- A write of HBM_CTRL. -/
def State.hbmCtrlWrite (s : State) (h : Nat) (v : Word) : State :=
  if fieldOf v Fl.HBM_CTRL_SR_HOLD = 1 then s.srHoldSet h else s.srHoldClear h

/-- A write of HBM_WQ (R274). -/
def State.hbmWqWrite (s : State) (h : Nat) (v : Word) : State :=
  let hi := fieldOf v Fl.HBM_WQ_HIGH
  if fieldOf v Fl.HBM_WQ_LOW ≥ hi ∨ hi > 64 then s.post Ev.HBM_CFG_REFUSED h 63 [(16, 0x0008)]
  else s.writeFields (Reg.HBM_WQ h) v

/-! ## Meanings -/

/-- HBM_ALERT (R277). -/
def execHbmAlert (m : StackIx) (ch : Fin 16) (kind : Fin 2) (acked : Bool) (acts : List (Fin 2 × Fin 1572864)) (s : State) : Out :=
  .next (s.hbmAlert (hallOfStack m) ch kind acked (acts.map (fun a => (a.1.val, a.2.val))))
/-- HBM_REFRESH (R279). -/
def execHbmRefresh (m : StackIx) (pc : Fin 32) (bank : Fin 48) (s : State) : Out := .next (s.hbmRefresh (hallOfStack m) pc bank)
/-- ACTIVATION_TABLE_CLEAR (R280). -/
def execActivationTableClear (m : StackIx) (s : State) : Out := .next (s.clearTables (hallOfStack m))
/-- HBM_CHANNEL_SR_ENTRY (R281). -/
def execHbmChannelSrEntry (m : StackIx) (ch : Fin 16) (s : State) : Out := .next (s.channelSr (hallOfStack m) ch)
/-- SR_HOLD_SET (R282). -/
def execSrHoldSet (m : StackIx) (s : State) : Out :=
  .next (s.hostWrite (Reg.HBM_CTRL (hallOfStack m)) (·.srHoldSet (hallOfStack m)))
/-- SR_HOLD_CLEAR (R282). -/
def execSrHoldClear (m : StackIx) (s : State) : Out :=
  .next (s.hostWrite (Reg.HBM_CTRL (hallOfStack m)) (·.srHoldClear (hallOfStack m)))
/-- HBM_WQ_WRITE (R274). -/
def execHbmWqWrite (m : StackIx) (v : Word) (s : State) : Out :=
  .next (s.hostWrite (Reg.HBM_WQ (hallOfStack m)) (·.hbmWqWrite (hallOfStack m) v))

end Sys2Proof.Machine
end

