-- ==== Sys2Proof/Machine/Mee.lean ====
section
/-!
DEFINITION. Machine/Mee.lean: the inline encryption engine (chapter 09) and what needs it: requests at a memory port, bursts,
whole-stack entry and exit. Memory holds the data of an encrypted range as its owner sees it; what the stack then stores, and what
a span reads as after its keys are gone, is not seen or is lost (log 20).
-/
namespace Sys2Proof.Machine

/-! ## Ranges (R287 to R290, R299) -/

/-- The engine of hall h. -/
def State.mee (s : State) (h : Nat) : Mee := (s.hall h).mee

/-- Change it. -/
def State.modMee (s : State) (h : Nat) (f : Mee → Mee) : State := s.modHall h (fun x => { x with mee := f x.mee })

/-- Range r. -/
def State.range (s : State) (h r : Nat) : MeeRange := Sparse.get (s.mee h).ranges {} r

/-- Change a range. -/
def State.modRange (s : State) (h r : Nat) (f : MeeRange → MeeRange) : State :=
  s.modMee h (fun m => { m with ranges := Sparse.set m.ranges {} r (f (Sparse.get m.ranges {} r)) })

/-- State of a range: 0 OFF, 1 WAIT, 2 INIT, 3 READY, 4 SWEEP, 5 PAUSED, 6 POISONED. -/
def State.meeState (s : State) (h r : Nat) : Nat := s.fld (Reg.MEE_STAT h r) Fl.MEE_STAT_STATE

/-- Set it. -/
def State.setMeeState (s : State) (h r st : Nat) : State := s.setFld (Reg.MEE_STAT h r) Fl.MEE_STAT_STATE st

/-- Units of the data span. -/
def State.dunits (s : State) (h r : Nat) : Nat := s.fld (Reg.MEE_DUNITS h r) Fl.MEE_DUNITS_DUNITS

/-- Start of the data span, as a stack offset. -/
def State.dbase (s : State) (h r : Nat) : Nat := s.fld (Reg.MEE_DBASE h r) Fl.MEE_DBASE_DBASE * 0x8000

/-- Start of the metadata span. -/
def State.mbase (s : State) (h r : Nat) : Nat := s.fld (Reg.MEE_MBASE h r) Fl.MEE_MBASE_MBASE * 0x1000

/-- The boundary B. -/
def State.bound (s : State) (h r : Nat) : Nat := s.fld (Reg.MEE_BOUND h r) Fl.MEE_BOUND_BOUND

/-- Node counts N_1 to N_L of a range of n level-1 nodes (R290). -/
def nodeCounts : Nat → Nat → List Nat
  | 0, n => [n]
  | f + 1, n => if n ≤ 8 then [n] else n :: nodeCounts f ((n + 7) / 8)

/-- Stored node levels L. -/
def meeLevels (u : Nat) : Nat := if u = 0 then 0 else (nodeCounts 8 u).length

/-- Metadata span size in 4 KiB units (R290). -/
def meeNeed (u : Nat) : Nat :=
  if u = 0 then 0 else (u * 4672 + 64 * (nodeCounts 8 u).foldl (· + ·) 0 + 4095) / 4096

/-- The word of MEE_MNEED_r. -/
def State.meeMneed (s : State) (h r : Nat) : Word :=
  BitVec.ofNat 32 (packBits [(24, meeNeed (s.dunits h r)), (4, meeLevels (s.dunits h r))])

/-- Two spans, each start and size, overlap. -/
def overlaps (a n b m : Nat) : Bool := decide (a < b + m) && decide (b < a + n)

/-- The data and metadata spans of range r. -/
def State.meeSpans (s : State) (h r : Nat) : List (Nat × Nat) :=
  [(s.dbase h r, s.dunits h r * 0x8000), (s.mbase h r, meeNeed (s.dunits h r) * 0x1000)]

/-- Whether EN may be set (R289). -/
def State.meeEnableOk (s : State) (h r : Nat) : Bool :=
  let u := s.dunits h r
  let d := s.dbase h r
  let m := s.mbase h r
  let n := meeNeed u * 0x1000
  u != 0 && decide (d + u * 0x8000 ≤ 0x900000000) && decide (m + n ≤ 0x900000000) && !overlaps d (u * 0x8000) m n &&
    (List.range 8).all (fun q => q == r || s.meeState h q == 0 ||
      (s.meeSpans h q).all (fun x => !overlaps x.1 x.2 d (u * 0x8000) && !overlaps x.1 x.2 m n)) &&
    s.bit (Reg.MEE_STAT h r) Fl.MEE_STAT_KEY_CUR

/-- Refuse a configuration (R289). -/
def State.meeRefuse (s : State) (h off r : Nat) : State := s.post Ev.MEE_CFG_REFUSED h 63 [(16, off), (3, r)]

/-- The offset of a range's register in the block. -/
def meeRegOff (r o : Nat) : Nat := 0x0100 + r * 0x40 + o

/-- How an address is treated (R288). -/
inductive Treat where
  | plain
  | data (r : Nat)
  | metadata (r : Nat)
  deriving DecidableEq, Repr

/-- The treatment of a stack offset. -/
def State.treat (s : State) (h off : Nat) : Treat :=
  if !s.part.mee then .plain
  else
    let on := (List.range 8).filter (fun r => s.meeState h r != 0)
    match on.find? (fun r => decide (s.dbase h r ≤ off) && decide (off < s.dbase h r + s.dunits h r * 0x8000)) with
    | some r => .data r
    | none => match on.find? (fun r =>
        decide (s.mbase h r ≤ off) && decide (off < s.mbase h r + meeNeed (s.dunits h r) * 0x1000)) with
      | some r => .metadata r
      | none => .plain

/-! ## Poisoned spans (R302, R303) -/

/-- Whether 512-byte unit x of the data span lies in a poisoned span, or the whole range is treated so. -/
def State.poisoned (s : State) (h r x : Nat) : Bool :=
  ((s.range h r).allPoison && decide (s.bound h r ≤ x / 64)) ||
  (List.range 16).any (fun i =>
    let a := Reg.MEE_POISON h r i
    let st := s.fld a Fl.MEE_POISON_START
    s.bit a Fl.MEE_POISON_VALID && decide (st ≤ x) && decide (x < st + 8 ^ s.fld a Fl.MEE_POISON_K))

/-- K of a failing metadata item by its kind: 0 data-tag line, 1 counter block, 2 counter-block-tag line, 2 + j level-j node. -/
def poisonK (kind : Nat) : Nat := if kind ≤ 2 then kind else if kind = 3 then 2 else kind - 1

/-- A metadata item of block i's path fails (R302). -/
def State.addPoison (s : State) (h r kind i : Nat) : State :=
  let x := i / 8
  if s.poisoned h r x then s
  else
    let n := s.fld (Reg.MEE_STAT h r) Fl.MEE_STAT_PCOUNT
    let k := poisonK kind
    let st := x / 8 ^ k * 8 ^ k
    if n < 16 then
      let s := s.setReg (Reg.MEE_POISON h r n) (BitVec.ofNat 32 (packBits [(27, st), (4, k), (1, 1)]))
      let s := s.setFld (Reg.MEE_STAT h r) Fl.MEE_STAT_PCOUNT (n + 1)
      s.post Ev.MEE_POISONED h 63 [(3, r), (27, st), (4, k), (4, kind)]
    else
      let who := AdmFor.mee (stackOfHall h) r
      (((s.setMeeState h r 6).admRelease 9 who).admWithdraw who).post Ev.MEE_POISON_FULL h 63 [(3, r)]

/-! ## Counters (R291, R292, R296, R301) -/

/-- Key of the counter that covers an item: level (1 counter block, 1 + j level-j node) and number. -/
def nctrKey (lvl i : Nat) : Nat := lvl * 0x1000000 + i

/-- Whether unit u of range r is under the next key and tree (R304). -/
def State.underNext (s : State) (h r u : Nat) : Bool :=
  let st := s.meeState h r
  (st == 4 || st == 5) && (s.range h r).begun && decide (u < s.bound h r)

/-- The tree that covers block i. -/
def State.treeOf (s : State) (h r i : Nat) : MeeTree :=
  if s.underNext h r (i / 512) then (s.range h r).next else (s.range h r).cur

/-- Change the tree that covers block i. -/
def State.modTree (s : State) (h r i : Nat) (f : MeeTree → MeeTree) : State :=
  if s.underNext h r (i / 512) then s.modRange h r (fun x => { x with next := f x.next })
  else s.modRange h r (fun x => { x with cur := f x.cur })

/-- A counter over the path of block i stands at its largest value: its item and kind, counter block or node. -/
def State.nctrSpent (s : State) (h r i : Nat) : Option Nat :=
  (List.range (1 + meeLevels (s.dunits h r))).find? (fun j =>
    Sparse.get (s.treeOf h r i).nctr 0 (nctrKey (1 + j) (i / 64 / 8 ^ j)) == 2 ^ 56 - 1)

/-- A dirty metadata line is written back: the counter that covers it increments and its parent becomes dirty (R292, R296); one whose
counter is spent stays (R301). -/
def State.writeBack (s : State) (h r lvl i : Nat) : State :=
  if !(s.mee h).dirty.contains (r, lvl, i) then s
  else
    let blk := i * 64 * 8 ^ (lvl - 1)
    let n := Sparse.get (s.treeOf h r blk).nctr 0 (nctrKey lvl i)
    if n ≥ 2 ^ 56 - 1 then s
    else
      let s := s.modTree h r blk (fun t => { t with nctr := Sparse.put t.nctr (nctrKey lvl i) (n + 1) })
      let up := if lvl ≤ meeLevels (s.dunits h r) then [(r, lvl + 1, i / 8)] else []
      s.modMee h (fun m =>
        { m with dirty := m.dirty.filter (· != (r, lvl, i)) ++ up.filter (fun x => !m.dirty.contains x) })

/-- The cache is flushed: every dirty line, level by level (R296). -/
def State.cacheFlush (s : State) (h : Nat) : State :=
  (List.range 9).foldl (fun s j =>
    ((s.mee h).dirty.filter (fun d => d.2.1 == j + 1)).foldl (fun s d => s.writeBack h d.1 d.2.1 d.2.2) s) s

/-- Lookups of the metadata cache and evictions that an access makes (R296). -/
def State.meeLookups (s : State) (h r : Nat) (f : MeeFacts) : State :=
  let s := s.incFld (Reg.MEE_CACHE h) Fl.MEE_CACHE_HITS f.hits
  let s := s.incFld (Reg.MEE_CACHE h) Fl.MEE_CACHE_MISSES f.misses
  f.evict.foldl (fun s e => s.writeBack h r e.1 e.2) s

/-- A write is answered EXHAUSTED (R301): kind 0 MAJOR of page, 1 node counter. -/
def State.meeExhausted (s : State) (h r start k kind : Nat) : State :=
  (s.setFld (Reg.MEE_STAT h r) Fl.MEE_STAT_EXH 1).postLim Ev.MEE_EXHAUSTED (8 * h + r) ms h 63
    [(3, r), (27, start), (4, k), (1, kind)]

/-- The counters of block i advance for a write, or the write is exhausted (R292, R301): the state after it, and whether it may be
written. -/
def State.bumpCounters (s : State) (h r i : Nat) : State × Bool :=
  let p := i / 64
  let t := s.treeOf h r i
  match s.nctrSpent h r i with
  | some j => (s.meeExhausted h r (p / 8 ^ j * 8 ^ j * 8) (1 + j) 1, false)
  | none =>
    let m := Sparse.get t.minor 0 i
    if m < 127 then (s.modTree h r i (fun t => { t with minor := Sparse.put t.minor i (m + 1) }), true)
    else if Sparse.get t.major 0 p ≥ 2 ^ 57 - 1 then (s.meeExhausted h r (p * 8) 1 0, false)
    else
      let s := s.modTree h r i (fun t =>
        { t with major := Sparse.put t.major p (Sparse.get t.major 0 p + 1),
                 minor := Sparse.drop t.minor (fun b => b / 64 == p) })
      (s.postLim Ev.MEE_MAJOR_STEP (8 * h + r) (1000 * ms) h 63 [(3, r), (24, p)], true)

/-! ## What the stack stores of a range (R290, R291) -/

/-- The IV of a 64-byte item: kind 0 data block, 1 counter block, 2 node; its stack offset; its counter. -/
def meeIv (kind off ctr : Nat) : BitVec 96 := BitVec.ofNat 2 kind ++ BitVec.ofNat 30 (off / 64) ++ BitVec.ofNat 64 ctr

/-- The stack offset of block i of range r. -/
def State.meeBlockAt (s : State) (h r i : Nat) : Nat := s.dbase h r + 64 * i

/-- The counter of block i: MAJOR of its page over its MINOR. -/
def State.meeCtr (s : State) (h r i : Nat) : Nat :=
  128 * Sparse.get (s.treeOf h r i).major 0 (i / 64) + Sparse.get (s.treeOf h r i).minor 0 i

/-- The key that covers block i (R304). -/
def State.meeKeyOf (s : State) (h r i : Nat) : BitVec 256 :=
  if s.underNext h r (i / 512) then (s.range h r).keyNext else (s.range h r).keyCur

/-- The ciphertext and tag of block i with the given contents, as the stack then stores them. -/
def State.meeSealed (s : State) (h r i : Nat) (d : BitVec 512) : List Byte × BitVec 64 :=
  Config.gcm (s.meeKeyOf h r i) (meeIv 0 (s.meeBlockAt h r i) (s.meeCtr h r i)) [] (blkBytes d)

/-- The parts of a metadata span of U units, from its start: data tags, counter blocks, counter-block tags, level-1 nodes, and nodes of
level j + 1 above level j. -/
def metaTags : Nat := 0
def metaCounters (u : Nat) : Nat := u * 4096
def metaCounterTags (u : Nat) : Nat := u * 4608
def metaNodes (u : Nat) : Nat → Nat
  | 0 | 1 => u * 4672
  | j + 2 => metaNodes u (j + 1) + 64 * (nodeCounts 8 u).getD j 0

/-- The stack offsets of the data tag of block i, of the counter block and counter-block tag of page P, and of the level-j node above it. -/
def State.meeTagAt (s : State) (h r i : Nat) : Nat := s.mbase h r + metaTags + 8 * i
def State.meeCounterAt (s : State) (h r p : Nat) : Nat := s.mbase h r + metaCounters (s.dunits h r) + 64 * p
def State.meeCounterTagAt (s : State) (h r p : Nat) : Nat := s.mbase h r + metaCounterTags (s.dunits h r) + 8 * p
def State.meeNodeAt (s : State) (h r j p : Nat) : Nat := s.mbase h r + metaNodes (s.dunits h r) j + 64 * (p / 8 ^ j)

/-- The counter block of page P of range r. -/
def State.meeCounterBlock (s : State) (h r p : Nat) : BitVec 512 :=
  let t := s.treeOf h r (64 * p)
  BitVec.ofNat 512 (packBits ((List.range 64).map (fun k => (7, Sparse.get t.minor 0 (64 * p + k)))) + 2 ^ 448 * Sparse.get t.major 0 p)

/-- The tag of a counter block: it is authenticated only, under its parent's counter. -/
def State.meeCounterTag (s : State) (h r p : Nat) : BitVec 64 :=
  (Config.gcm (s.meeKeyOf h r (64 * p))
    (meeIv 1 (s.meeCounterAt h r p) (Sparse.get (s.treeOf h r (64 * p)).nctr 0 (nctrKey 1 p)))
    (blkBytes (s.meeCounterBlock h r p)) []).2

/-- The eight counters of the level-j node above page P, and its tag. -/
def State.meeNodeCtrs (s : State) (h r j p : Nat) : BitVec 448 :=
  BitVec.ofNat 448 (packBits ((List.range 8).map (fun c =>
    (56, Sparse.get (s.treeOf h r (64 * p)).nctr 0 (nctrKey j (p / 8 ^ j * 8 + c))))))
def State.meeNodeTag (s : State) (h r j p : Nat) : BitVec 64 :=
  (Config.gcm (s.meeKeyOf h r (64 * p))
    (meeIv 2 (s.meeNodeAt h r j p) (Sparse.get (s.treeOf h r (64 * p)).nctr 0 (nctrKey (j + 1) (p / 8 ^ j))))
    (bytesOf 56 (s.meeNodeCtrs h r j p)) []).2

/-! ## Blocks of encrypted ranges (R294 to R300) -/

/-- The number of block blk within range r. -/
def State.blkIn (s : State) (h r blk : Nat) : Nat := blk - s.dbase h r / 64

/-- A write entry for a whole block. -/
def fullEnt (blk t : Nat) (d : BitVec 512) : WqEnt := { blk := blk, data := d, mask := BitVec.allOnes 64, t := t, posted := 1 }

/-- The combining buffer's fill is shown. -/
def State.wcbSync (s : State) (h : Nat) : State := s.setFld (Reg.MEE_WCB h) Fl.MEE_WCB_FILL (s.mee h).wcb.length

/-- Remove the combining entry of a block. -/
def State.wcbDrop (s : State) (h blk : Nat) : State :=
  (s.modMee h (fun m => { m with wcb := m.wcb.filter (fun e => e.blk != blk) })).wcbSync h

/-- A whole block of range r is encrypted and posted (R292, R297, R301): the state after it and the code. -/
def State.encWrite (s : State) (h r blk : Nat) (d : BitVec 512) : State × Nat :=
  let i := s.blkIn h r blk
  let b := s.bumpCounters h r i
  if !b.2 then (b.1, 7)
  else
    let s := b.1.modRange h r (fun x => { x with written := Sparse.put x.written i true })
    let s := s.modMee h (fun m =>
      { m with dirty := if m.dirty.contains (r, 1, i / 64) then m.dirty else m.dirty ++ [(r, 1, i / 64)] })
    ((((s.wcbDrop h blk).wqRoom h blk).wqPost h (fullEnt blk s.now d)), 0)

/-- Verification of block i of range r (R294, R300, R302): the state after it and the code: 0 good, 2 INTEG_ERR, and whether an
unwritten block's tag happens to match. -/
def State.meeVerify (s : State) (h r blk : Nat) (f : MeeFacts) : State × Nat × Bool :=
  let i := s.blkIn h r blk
  let s := s.meeLookups h r f
  match f.metaBad with
  | some k => (s.addPoison h r k.val i, 2, false)
  | none =>
    let w := Sparse.get (s.range h r).written false i
    let luck := !w && Config.freeWord s.free == 0 && Config.freeWord (s.free + 1) == 0
    let s := if w then s else s.draw.draw
    if f.tagBad || (!w && !luck) then
      let s := s.incFld (Reg.MEE_ERR h r) Fl.MEE_ERR_INTEG 1
      (s.postLim Ev.MEE_INTEG_FAIL (8 * h + r) ms h 63 [(3, r), (30, blk)], 2, false)
    else (s, 0, luck)

/-- An entry of the combining buffer is lost (R298). -/
def State.wcbLost (s : State) (h : Nat) (e : WcbEnt) : State :=
  ((s.wcbDrop h e.blk).incFld (Reg.MEE_WCB h) Fl.MEE_WCB_LOST 1).postLim Ev.MEE_WCB_LOST (8 * h + e.range) ms h 63
    [(3, e.range), (30, e.blk)]

/-- The block as the latest write left it: the stack under its write entry. -/
def State.blkNow (s : State) (h blk : Nat) : BitVec 512 :=
  match (s.pc h (pcOf (64 * blk))).wq.find? (fun e => e.blk == blk) with
  | some e => overlay (s.blkData h blk) e.data e.mask
  | none => s.blkData h blk

/-- An entry is read, merged, encrypted and written, or lost (R297, R298). -/
def State.wcbMerge (s : State) (h : Nat) (e : WcbEnt) (f : MeeFacts) : State :=
  let i := s.blkIn h e.range e.blk
  if s.poisoned h e.range (i / 8) || f.dataErr then s.wcbLost h e
  else
    let v := s.meeVerify h e.range e.blk f
    if v.2.1 ≠ 0 then v.1.wcbLost h e
    else
      let w := v.1.encWrite h e.range e.blk (overlay (v.1.blkNow h e.blk) e.data e.mask)
      if w.2 = 0 then w.1 else w.1.wcbLost h e

/-- What a merge meets that a command without such an operand makes: free values (R298). -/
def freeMee (n : Nat) : MeeFacts :=
  let w := (Config.freeWord n).toNat
  { hits := w / 1024 % 16, misses := w / 16384 % 16, tagBad := w.testBit 0, dataErr := w.testBit 1,
    metaBad := if w.testBit 2 then some (Fin.ofNat 10 (w / 8)) else none }

/-- An entry is merged, with free facts. -/
def State.wcbMergeFree (s : State) (h : Nat) (e : WcbEnt) : State := s.draw.wcbMerge h e (freeMee s.free)

/-- The combining buffer is drained (R296, R297). -/
def State.wcbDrain (s : State) (h : Nat) : State := (s.mee h).wcb.foldl (fun s e => s.wcbMergeFree h e) s

/-- A partial write to a block of range r (R297). -/
def State.wcbPut (s : State) (h r blk : Nat) (d : BitVec 512) (m : BitVec 64) : State × Nat :=
  match (s.mee h).wcb.find? (fun e => e.blk == blk) with
  | some e =>
    let e' := { e with data := overlay e.data d m, mask := e.mask ||| m }
    if e'.mask = BitVec.allOnes 64 then s.encWrite h r blk e'.data
    else (s.modMee h (fun x => { x with wcb := x.wcb.map (fun y => if y.blk = blk then e' else y) }), 0)
  | none =>
    let s := if (s.mee h).wcb.length ≥ 64 then
        match (s.mee h).wcb with
        | o :: _ => s.wcbMergeFree h o
        | [] => s
      else s
    let t := s.now
    ((s.modMee h (fun x => { x with wcb := x.wcb ++ [⟨blk, r, d, m, t⟩] })).wcbSync h, 0)

/-- WCB_AGE_MERGE (R297). -/
def State.wcbAge (s : State) (h blk : Nat) (f : MeeFacts) : State :=
  match (s.mee h).wcb.find? (fun e => e.blk == blk) with
  | some e => s.wcbMerge h e f
  | none => s

/-! ## Requests at the port (R268 to R271, R288) -/

/-- Units that a request addresses. -/
def unitsOf (p : Packet) : Nat := if p.cmd = 1 ∨ p.cmd = 4 ∨ p.cmd = 5 then p.runits.toNat else p.units.toNat

/-- The stack block of unit u of a request. -/
def reqBlk (p : Packet) (u : Nat) : Nat := p.addr.toNat % 0x1000000000 / 64 + u

/-- A request touches a unit that a sweep holds (R304): it stalls. -/
def State.reqStalls (s : State) (h : Nat) (p : Packet) : Bool :=
  (List.range (unitsOf p)).any (fun u =>
    match s.treat h (64 * reqBlk p u) with
    | .data r => s.meeState h r == 4 && (64 * reqBlk p u - s.dbase h r) / 0x8000 == s.bound h r
    | _ => false)

/-- Pseudo-channels that a request touches. -/
def reqPcs (p : Packet) : List Nat := (List.range (unitsOf p)).map (fun u => pcOf (64 * reqBlk p u))

/-- Unit u of a request takes a place in a queue (R269, R270): it is not answered at once, and merges into no entry. -/
def State.unitQueues (s : State) (h : Nat) (p : Packet) (u : Nat) : Bool :=
  let blk := reqBlk p u
  let x := s.pc h (pcOf (64 * blk))
  let barred := match s.treat h (64 * blk) with
    | .plain => false
    | .metadata _ => true
    | .data r =>
      let st := s.meeState h r
      st == 1 || st == 2 || st == 6 || s.poisoned h r (s.blkIn h r blk / 8)
  !s.pcFailed h (pcOf (64 * blk)) && !barred &&
    (if p.cmd = 1 then !x.wq.any (fun e => e.blk == blk && e.mask == BitVec.allOnes 64)
     else beOf p u != 0 && !x.wq.any (fun e => e.blk == blk))

/-- Every block of a request that needs a place in a queue finds one (R269). -/
def State.reqFits (s : State) (h : Nat) (p : Packet) : Bool :=
  let l := ((List.range (unitsOf p)).filter (s.unitQueues h p)).map (fun u => pcOf (64 * reqBlk p u))
  l.all (fun pc =>
    let x := s.pc h pc
    decide ((if p.cmd = 1 then x.rq.length else x.wq.length) + (l.filter (· == pc)).length ≤ 64))

/-- A write reaches a block of which an earlier read is queued: it waits, so that the read does not see it (R270). -/
def State.reqBehind (s : State) (h : Nat) (p : Packet) : Bool :=
  p.cmd != 1 && (List.range (unitsOf p)).any (fun u => (s.pc h (pcOf (64 * reqBlk p u))).rq.any (fun r => r.blk == reqBlk p u))

/-- A metadata span is addressed (R288). -/
def State.meeMetaAccess (s : State) (h r : Nat) (p : Packet) : State :=
  s.postLim Ev.MEE_META_ACCESS h ms h 63 [(3, r), (3, p.srcHall.toNat), (6, p.srcNode.toNat)]

/-- Bytes of a combining entry over a verified block (R297). -/
def State.wcbOver (s : State) (h blk : Nat) (d : BitVec 512) : BitVec 512 :=
  match (s.mee h).wcb.find? (fun e => e.blk == blk) with
  | some e => overlay d e.data e.mask
  | none => d

/-- A read of a block of range r has its data: it is verified and answered (R294, R297). -/
def State.readDone (s : State) (h id k r blk : Nat) (d : BitVec 512) (f : MeeFacts) : State :=
  let v := s.meeVerify h r blk f
  if v.2.1 ≠ 0 then v.1.hbmResult h id k v.2.1 0
  else
    let data := if v.2.2 then Config.freeBlock v.1.free else d
    let s := if v.2.2 then v.1.draw else v.1
    s.hbmResult h id k 0 (s.wcbOver h blk data)

/-- Block u of a read of request id is started (R270, R288): it gets its result, or waits in a read queue. A block of an encrypted range
whose write entry is whole is verified at once. -/
def State.startRead (s : State) (h id : Nat) (p : Packet) (u : Nat) (f : MeeFacts) : State :=
  let blk := reqBlk p u
  let pc := pcOf (64 * blk)
  let enq := fun (s : State) (r : Option Nat) =>
    let t := s.now
    let s := s.modPc h pc (fun x =>
      { x with rq := x.rq ++ [⟨blk, id, u, r, t⟩], wsr := 0,
               wq := x.wq.map (fun e => if e.blk = blk then { e with urgent := true } else e) })
    s.setFldBit (Reg.HBM_SR h) Fl.HBM_SR_BITS (pc / 2) false
  if s.pcFailed h pc then s.hbmResult h id u 4 0
  else match s.treat h (64 * blk) with
    | .plain =>
      match (s.pc h pc).wq.find? (fun e => e.blk == blk && e.mask == BitVec.allOnes 64) with
      | some e => s.hbmResult h id u 0 e.data
      | none => enq s none
    | .metadata r => (s.meeMetaAccess h r p).hbmResult h id u 5 0
    | .data r =>
      let st := s.meeState h r
      if st = 1 ∨ st = 2 then s.hbmResult h id u 4 0
      else if st = 6 ∨ s.poisoned h r (s.blkIn h r blk / 8) = true then s.hbmResult h id u 2 0
      else match (s.pc h pc).wq.find? (fun e => e.blk == blk && e.mask == BitVec.allOnes 64) with
        | some e => s.readDone h id u r blk e.data f
        | none => enq s (some r)

/-- Block u of a write of request id is performed as far as it can be at once (R271, R288, R297). -/
def State.startWrite (s : State) (h id : Nat) (p : Packet) (u : Nat) (f : MeeFacts) : State :=
  let blk := reqBlk p u
  let pc := pcOf (64 * blk)
  let d := p.data.getD u 0
  let m := beOf p u
  if s.pcFailed h pc then s.hbmResult h id u 4 0
  else match s.treat h (64 * blk) with
    | .plain =>
      if m = 0 then s.hbmResult h id u 0 0
      else
        let part := partialMask m
        let t := s.now
        let s := s.wqPost h { blk := blk, data := d, mask := m, t := t, waiters := if part then [(id, u)] else [], posted := 1 }
        if part then s else s.hbmResult h id u 0 0
    | .metadata r => (s.meeMetaAccess h r p).hbmResult h id u 5 0
    | .data r =>
      let st := s.meeState h r
      let i := s.blkIn h r blk
      if st = 1 ∨ st = 2 then s.hbmResult h id u 4 0
      else if st = 6 ∨ s.poisoned h r (i / 8) = true then s.hbmResult h id u 2 0
      else if m = 0 then s.hbmResult h id u 0 0
      else match f.metaBad with
        | some k => ((s.meeLookups h r f).addPoison h r k.val i).hbmResult h id u 2 0
        | none =>
          let s := s.meeLookups h r f
          let w := if m = BitVec.allOnes 64 then s.encWrite h r blk d else s.wcbPut h r blk d m
          w.1.hbmResult h id u w.2 0

/-- A request leaves the buffer: each block in address order. -/
def State.startReq (s : State) (h : Nat) (p : Packet) (facts : List MeeFacts) : State :=
  let id := (s.hbm h).nextId
  let n := unitsOf p
  let s := s.modHbm h (fun b => { b with nextId := id + 1, reqs := b.reqs ++ [⟨id, p, List.replicate n none⟩] })
  (List.range n).foldl (fun s u =>
    if p.cmd = 1 then s.startRead h id p u (facts.getD u {}) else s.startWrite h id p u (facts.getD u {})) s

/-- The port serves requests: the stack is ACTIVE and nothing asks for whole-stack self-refresh (R282); while a partial reset drains or
the port's stores are tested, the port still performs what its request buffer holds (R57 step 3, R447). -/
def State.portServes (s : State) (h : Nat) : Bool :=
  s.hbmState h == 2
    && ((s.hbm h).wants.isEmpty
      || ((s.hbm h).wants == [1] && (s.fld (Reg.FRST_STAT h) Fl.FRST_STAT_STATE == 1 || s.testing h 2)))

/-- Requests of the buffer that can, start, oldest first; one that waits holds back later ones to its pseudo-channels (R269, R270), and 256
that wait fill the buffer. -/
def State.portDrain (s : State) (h : Nat) : State :=
  if !s.portServes h then s
  else
    let r := (s.hbm h).buf.foldl (fun (a : State × List Nat × List (Packet × List MeeFacts)) x =>
      if decide (256 ≤ a.2.2.length) || (reqPcs x.1).any (fun pc => a.2.1.contains pc) || a.1.reqStalls h x.1 || a.1.reqBehind h x.1
          || !a.1.reqFits h x.1 then
        (a.1, a.2.1 ++ reqPcs x.1, a.2.2 ++ [x])
      else (a.1.startReq h x.1 x.2, a.2.1, a.2.2)) (s, [], [])
    r.1.modHbm h (fun b => { b with buf := r.2.2 })

/-- A request arrives at the port (R269). The list holds the request buffer and, past 256 requests, those that wait for credits. -/
def State.portArrive (s : State) (h : Nat) (p : Packet) (facts : List MeeFacts) : State :=
  (s.modHbm h (fun b => { b with buf := b.buf ++ [(p, facts)] })).portDrain h

/-! ## Bursts (R273) -/

/-- A read entry is issued and its block delivered (R275, R294). -/
def State.issueRead (s : State) (h pc : Nat) (e : RqEnt) (facts : List BurstFact) (mf : MeeFacts) : State :=
  let s := (s.openRow h pc (64 * e.blk)).modPc h pc (fun x =>
    { x with rq := x.rq.filter (fun y => !(y.id == e.id && y.k == e.k)), mode := .read })
  match e.range with
  | none =>
    let d := s.blkRead h e.blk facts
    d.1.hbmResult h e.id e.k d.2.1 d.2.2
  | some r =>
    let unwritten := !Sparse.get (s.range h r).written false (s.blkIn h r e.blk)
    let d := if unwritten then (s, 0, (0 : BitVec 512)) else s.blkRead h e.blk facts
    if d.2.1 ≠ 0 then d.1.hbmResult h e.id e.k 1 0 else d.1.readDone h e.id e.k r e.blk d.2.2 mf

/-- HBM_BURST: one schedule step of a pseudo-channel (R273), a whole block to a step (log 21). -/
def State.hbmBurst (s : State) (h pc : Nat) (facts : List BurstFact) (mf : MeeFacts) : State :=
  if s.hbmState h ≠ 2 ∨ s.pcFailed h pc = true then s
  else
    let s := (s.wbDrain h pc).rowsAhead h pc
    let c := s.schedule h pc
    let s := match c.2 with
      | .none => s.modeAfter h pc c.1
      | .read e => s.issueRead h pc e facts mf
      | .write e => s.issueWrite h pc c.1 e facts
    s.portDrain h

/-! ## Range commands (R289, R299, R304, R305) -/

/-- Ask admission for range r (R420 kind 9) unless the request already waits. -/
def State.meeAsk (s : State) (h r : Nat) : State :=
  let who := AdmFor.mee (stackOfHall h) r
  if s.adm.queue.any (fun x => decide (x.who = who)) then s else s.admRequest 9 h who

/-- MEE_RANGE_ENABLE (R289). -/
def State.meeEnable (s : State) (h r : Nat) : State :=
  if s.meeState h r ≠ 0 then s
  else if !s.meeEnableOk h r then s.meeRefuse h (meeRegOff r 0x10) r
  else
    let s := s.setFld (Reg.MEE_CTRL h r) Fl.MEE_CTRL_EN 1
    let s := (s.setMeeState h r 1).setFld (Reg.MEE_BOUND h r) Fl.MEE_BOUND_BOUND 0
    let s := s.modRange h r (fun x => { x with written := [], cur := {}, next := {}, allPoison := false, begun := false })
    s.meeAsk h r

/-- The contents of a range's spans are no longer readable (R299). -/
def State.loseRange (s : State) (h r : Nat) : State :=
  (s.meeSpans h r).foldl (fun s x => s.loseMem (hbmKey h x.1) (hbmKey h (x.1 + x.2))) s

/-- MEE_RANGE_DISABLE (R299): keys zeroised, roots, cache lines and buffer entries discarded, the range OFF. -/
def State.meeDisable (s : State) (h r : Nat) : State :=
  if s.meeState h r = 0 then s.setFld (Reg.MEE_CTRL h r) Fl.MEE_CTRL_EN 0
  else
    let who := AdmFor.mee (stackOfHall h) r
    let blks := (s.meeSpans h r).headD (0, 0)
    let s := s.loseRange h r
    let s := (List.range 32).foldl (fun s pc => s.modPc h pc (fun x =>
      { x with wq := x.wq.filter (fun e => !(decide (blks.1 ≤ 64 * e.blk) && decide (64 * e.blk < blks.1 + blks.2))) })) s
    let s := (s.setFld (Reg.MEE_CTRL h r) Fl.MEE_CTRL_EN 0).setMeeState h r 0
    let s := (s.setFld (Reg.MEE_STAT h r) Fl.MEE_STAT_KEY_CUR 0).setFld (Reg.MEE_STAT h r) Fl.MEE_STAT_KEY_NEXT 0
    let s := s.setFld (Reg.MEE_BOUND h r) Fl.MEE_BOUND_BOUND 0
    let s := s.modMee h (fun m =>
      { m with ranges := Sparse.del m.ranges r, wcb := m.wcb.filter (fun e => e.range != r),
               dirty := m.dirty.filter (fun d => d.1 != r) })
    (((s.wcbSync h).admRelease 9 who).admWithdraw who).portDrain h

/-- MEE_KEYCHG (R304). -/
def State.meeKeychg (s : State) (h r : Nat) : State :=
  let st := s.meeState h r
  if (st ≠ 3 ∧ st ≠ 6) ∨ s.bit (Reg.MEE_STAT h r) Fl.MEE_STAT_KEY_NEXT = false then s.meeRefuse h (meeRegOff r 0x10) r
  else
    let s := s.modRange h r (fun x => { x with allPoison := decide (st = 6), begun := false, next := {} })
    ((s.setMeeState h r 5).setFld (Reg.MEE_BOUND h r) Fl.MEE_BOUND_BOUND 0).meeAsk h r

/-- The grant of kind 9 (R299, R304): initialisation or sweep runs from the unit at B. -/
def State.meeGranted (s : State) (h r : Nat) : State :=
  if s.meeState h r = 1 then s.setMeeState h r 2
  else if s.meeState h r = 5 then
    let s' := s.setMeeState h r 4
    if (s.range h r).begun then s'
    else (s'.modRange h r (fun x => { x with begun := true })).post Ev.MEE_KEYCHG_START h 63
      [(3, r), (6, s.fld (Reg.MEE_CTRL h r) Fl.MEE_CTRL_SHARE)]
  else s

/-- A sweep reaches the end of the data span (R305). -/
def State.sweepDone (s : State) (h r : Nat) : State :=
  let who := AdmFor.mee (stackOfHall h) r
  let s := s.modRange h r (fun x =>
    { x with keyCur := x.keyNext, keyNext := 0, cur := x.next, next := {}, allPoison := false, begun := false })
  let a := Reg.MEE_STAT h r
  let s := ((s.setFld a Fl.MEE_STAT_KEY_NEXT 0).setFld a Fl.MEE_STAT_EXH 0).setFld a Fl.MEE_STAT_PCOUNT 0
  let s := (List.range 16).foldl (fun s i => s.clrReg (Reg.MEE_POISON h r i)) s
  ((s.setMeeState h r 3).admRelease 9 who).post Ev.MEE_KEYCHG_DONE h 63
    [(3, r), (16, s.fld (Reg.MEE_ERR h r) Fl.MEE_ERR_SKIPPED)]

/-- One block of the unit being swept (R303, R305): fail is 0 good, 1 DATA_ERR, 2 its tag fails. -/
def State.sweepBlock (s : State) (h r i fail : Nat) : State :=
  if s.poisoned h r (i / 8) then s.modRange h r (fun x => { x with written := Sparse.del x.written i })
  else
    let w := Sparse.get (s.range h r).written false i
    if w && fail == 0 then s
    else
      let s := s.modRange h r (fun x => { x with written := Sparse.del x.written i })
      let s := s.incFld (Reg.MEE_ERR h r) Fl.MEE_ERR_SKIPPED 1
      s.postLim Ev.MEE_SWEEP_SKIP (8 * h + r) ms h 63
        [(3, r), (30, s.dbase h r / 64 + i), (1, if fail = 1 then 0 else 1)]

/-- MEE_UNIT_DONE (R305): a unit of an initialisation or sweep is written and B advances. fails: blocks of the unit (0 to 511) that
fail, with 1 for DATA_ERR or 2 for the tag; metaBad: a metadata item of the path of a block fails. -/
def State.meeUnitDone (s : State) (h r : Nat) (fails : List (Nat × Nat)) (metaBad : Option (Nat × Nat)) : State :=
  let b := s.bound h r
  let n := s.dunits h r
  if s.hbmState h ≠ 2 then s
  else if s.meeState h r = 2 then
    let s := s.setFld (Reg.MEE_BOUND h r) Fl.MEE_BOUND_BOUND (b + 1)
    if b + 1 ≥ n then
      ((s.setMeeState h r 3).admRelease 9 (.mee (stackOfHall h) r)).post Ev.MEE_INIT_DONE h 63 [(3, r)]
    else s
  else if s.meeState h r = 4 then
    let s := ((s.mee h).wcb.filter (fun e => e.range == r && s.blkIn h r e.blk / 512 == b)).foldl (fun s e =>
      let f := ((fails.find? (fun x => x.1 == s.blkIn h r e.blk % 512)).map (·.2)).getD 0
      s.wcbMerge h e { dataErr := f == 1, tagBad := f == 2 }) s
    let s : State := match metaBad with
      | some (kind, k) => s.addPoison h r kind (512 * b + k)
      | none => s
    if s.meeState h r ≠ 4 then s.portDrain h
    else
      let s := (List.range 512).foldl (fun s k =>
        s.sweepBlock h r (512 * b + k) (((fails.find? (fun x => x.1 == k)).map (·.2)).getD 0)) s
      let s := s.setFld (Reg.MEE_BOUND h r) Fl.MEE_BOUND_BOUND (b + 1)
      (if b + 1 ≥ n then s.sweepDone h r else s).portDrain h
  else s

/-- SWEEP_ADMISSION_RETRY (R420). -/
def State.sweepRetry (s : State) (h r : Nat) : State :=
  if (s.meeState h r = 1 ∨ s.meeState h r = 5) ∧ s.hbmState h = 2 then s.meeAsk h r else s

/-- A sweep or initialisation pauses (R306). -/
def State.meePause (s : State) (h cause : Nat) : State :=
  (List.range 8).foldl (fun s r =>
    let st := s.meeState h r
    let who := AdmFor.mee (stackOfHall h) r
    if st = 2 ∨ st = 4 then
      ((s.setMeeState h r (if st = 2 then 1 else 5)).admRelease 9 who).post Ev.MEE_KEYCHG_PAUSE h 63
        [(3, r), (21, s.bound h r), (3, cause)]
    else if st = 1 ∨ st = 5 then s.admWithdraw who
    else s) s

/-- The stack is ACTIVE: paused and waiting ranges ask admission afresh (R306). -/
def State.meeResume (s : State) (h : Nat) : State :=
  (List.range 8).foldl (fun s r => if s.meeState h r = 1 ∨ s.meeState h r = 5 then s.meeAsk h r else s) s

/-- MEE_KEY_LOAD (R293, R397, R398): a write of MEE_KEYLD. -/
def State.meeKeyload (s : State) (h : Nat) (v : Word) : State :=
  if fieldOf v Fl.MEE_KEYLD_GO = 0 then s
  else
    let r := fieldOf v Fl.MEE_KEYLD_RANGE
    let nxt := fieldOf v Fl.MEE_KEYLD_SLOT = 1
    let rnd := fieldOf v Fl.MEE_KEYLD_SRC = 1
    let st := s.meeState h r
    let words := (List.range 8).map (fun w => (32, (s.reg (Reg.MEE_KEY h w)).toNat))
    let key : BitVec 256 := if rnd then Config.random s.free else BitVec.ofNat 256 (packBits words)
    let ok := (if nxt then st == 3 || st == 6 else st == 0) && !(rnd && s.bit Reg.SEC_RNG Fl.SEC_RNG_FAIL)
      && !(!rnd && s.otp.lc == 2)
    let s := if rnd then s.draw else s
    let s := (List.range 8).foldl (fun s w => s.clrReg (Reg.MEE_KEY h w)) s
    if !ok then s.meeRefuse h 0x0040 r
    else if nxt then
      (s.modRange h r (fun x => { x with keyNext := key })).setFld (Reg.MEE_STAT h r) Fl.MEE_STAT_KEY_NEXT 1
    else (s.modRange h r (fun x => { x with keyCur := key })).setFld (Reg.MEE_STAT h r) Fl.MEE_STAT_KEY_CUR 1

/-- A write of MEE_CTRL_r: SHARE, then EN, then KEYCHG. -/
def State.meeCtrlWrite (s : State) (h r : Nat) (v : Word) : State :=
  let a := Reg.MEE_CTRL h r
  let sh := fieldOf v Fl.MEE_CTRL_SHARE
  let s := if 1 ≤ sh ∧ sh ≤ 32 then s.setFld a Fl.MEE_CTRL_SHARE sh else s
  let s := if fieldOf v Fl.MEE_CTRL_EN = 1 then s.meeEnable h r else s.meeDisable h r
  if fieldOf v Fl.MEE_CTRL_KEYCHG = 1 then s.meeKeychg h r else s

/-- A write of MEE_DBASE_r, MEE_DUNITS_r or MEE_MBASE_r (R289). -/
def State.meeSpanWrite (s : State) (h r a o : Nat) (v : Word) : State :=
  if s.meeState h r = 0 then s.writeFields a v else s.meeRefuse h (meeRegOff r o) r

/-! ## Whole-stack entry and exit with the engine (R282, R296, R306) -/

/-- HBM_STACK_SR_ENTRY (R282). -/
def State.stackSrEntry (s : State) (h : Nat) : State :=
  let w := (s.hbm h).wants
  let held := s.hbmState h = 2 ∨ (s.hbmState h = 4 ∧ (s.hbm h).exiting = false)
  if !hasPort h || w.isEmpty || !s.portQuiet h || !decide held || (s.portServes h && !(s.hbm h).buf.isEmpty) then s
  else
    let flush := w.any (fun c => c != 2 && c != 5)
    let s := if flush then ((s.wcbDrain h).portFlush h).cacheFlush h else s
    let s := match w.find? (· != 5) with
      | some c => s.meePause h c
      | none => s
    s.stackEntered h

/-- HBM_SR_EXIT_DONE (R282). -/
def State.srExitDone (s : State) (h : Nat) : State :=
  if s.hbmState h = 4 ∧ (s.hbm h).exiting = true then
    let s := (s.modHbm h (fun b => { b with exiting := false })).setHbmState h 2
    let s := s.setFld (Reg.HBM_SR h) Fl.HBM_SR_BITS 0
    (s.portDrain h).meeResume h
  else s

/-- HBM_INIT_DONE (R501, R266): none for a sound stack, or the cause (0 identity, 1 training, 2 no response). -/
def State.hbmInitDone (s : State) (h : Nat) (bad : Option Nat) : State :=
  if s.hbmState h = 1 ∧ (s.hbm h).initBegun = true then
    let s := s.modHbm h (fun b => { b with initBegun := false })
    match bad with
    | none => ((s.setHbmState h 2).portDrain h).meeResume h
    | some c => (s.setHbmState h 5).post Ev.HBM_INIT_FAIL h 63 [(2, c)]
  else s

/-! ## Meanings -/

/-- HBM_BURST (R273). -/
def execHbmBurst (m : StackIx) (pc : Fin 32) (f0 f1 : BurstFact) (mf : MeeFacts) (s : State) : Out :=
  .next (s.hbmBurst (hallOfStack m) pc [f0, f1] mf)
/-- HBM_INIT_DONE (R501). -/
def execHbmInitDone (m : StackIx) (bad : Option (Fin 3)) (s : State) : Out :=
  .next (s.hbmInitDone (hallOfStack m) (bad.map (·.val)))
/-- HBM_STACK_SR_ENTRY (R282). -/
def execHbmStackSrEntry (m : StackIx) (s : State) : Out := .next (s.stackSrEntry (hallOfStack m))
/-- HBM_SR_EXIT_DONE (R282). -/
def execHbmSrExitDone (m : StackIx) (s : State) : Out := .next (s.srExitDone (hallOfStack m))
/-- MEE_RANGE_ENABLE (R289). -/
def execMeeRangeEnable (m : StackIx) (r : Fin 8) (s : State) : Out :=
  .next (s.hostWrite (Reg.MEE_CTRL (hallOfStack m) r) (·.meeEnable (hallOfStack m) r))
/-- MEE_RANGE_DISABLE (R299). -/
def execMeeRangeDisable (m : StackIx) (r : Fin 8) (s : State) : Out :=
  .next (s.hostWrite (Reg.MEE_CTRL (hallOfStack m) r) (·.meeDisable (hallOfStack m) r))
/-- MEE_KEYCHG (R304). -/
def execMeeKeychg (m : StackIx) (r : Fin 8) (s : State) : Out :=
  .next (s.hostWrite (Reg.MEE_CTRL (hallOfStack m) r) (·.meeKeychg (hallOfStack m) r))
/-- MEE_KEY_LOAD (R293, R397, R398). -/
def execMeeKeyLoad (m : StackIx) (v : Word) (s : State) : Out :=
  .next (s.hostWrite (Reg.MEE_KEYLD (hallOfStack m)) (·.meeKeyload (hallOfStack m) v))
/-- MEE_UNIT_DONE (R305). -/
def execMeeUnitDone (m : StackIx) (r : Fin 8) (fails : List (Fin 512 × Bool)) (metaBad : Option (Fin 10 × Fin 512)) (s : State) : Out :=
  .next (s.meeUnitDone (hallOfStack m) r (fails.map (fun x => (x.1.val, if x.2 then 2 else 1)))
    (metaBad.map (fun x => (x.1.val, x.2.val))))
/-- WCB_AGE_MERGE (R297). -/
def execWcbAgeMerge (m : StackIx) (blk : Fin 603979776) (f : MeeFacts) (s : State) : Out :=
  .next (s.wcbAge (hallOfStack m) blk f)
/-- SWEEP_ADMISSION_RETRY (R420). -/
def execSweepAdmissionRetry (m : StackIx) (r : Fin 8) (s : State) : Out := .next (s.sweepRetry (hallOfStack m) r)

end Sys2Proof.Machine
end

