-- ==== Sys2Proof/Machine/Lanes.lean ====
section
/-!
DEFINITION. Machine/Lanes.lean: serial lanes, the pad ring, and parity at their landings (chapters 02 and 10).
-/
namespace Sys2Proof.Machine

/-! ## Clock sources (R414) -/

/-- Remember a loss of a source, once (R414). -/
def State.addLost (s : State) (h src : Nat) : State :=
  if s.clk.lost.any (fun l => l.hall == h && l.src == src) then s
  else { s with clk := { s.clk with lost := s.clk.lost ++ [⟨h, src, s.now⟩] } }

/-- A lane's receive clock is lost when the lane leaves ACTIVE and QUIET or its CDR unlocks (R414). -/
def State.rxClockLost (s : State) (h l : Nat) (report : Bool) : State :=
  if s.clk.lost.any (fun x => x.hall == h && x.src == 40 + l) then s
  else
    let s := s.addLost h (40 + l)
    let s := if report then s.post Ev.CLK_LOSS h 63 [(8, 40 + l)] else s
    s.hallClockCheck h

/-! ## Lane states (R317) -/

/-- The hidden state of lane l. -/
def State.lane (s : State) (h l : Nat) : LaneHid := Sparse.get (s.hall h).lanes {} l

/-- Change it. -/
def State.modLane (s : State) (h l : Nat) (f : LaneHid → LaneHid) : State :=
  s.modHall h (fun x => { x with lanes := Sparse.set x.lanes {} l (f (Sparse.get x.lanes {} l)) })

/-- LANE_STAT_l.STATE: 0 OFF, 1 DISABLED, 2 START, 3 ACTIVE, 4 QUIET, 5 DORMANT. -/
def State.laneState (s : State) (h l : Nat) : Nat := s.fld (Reg.LANE_STAT h l) Fl.LANE_STAT_STATE

/-- LANE_CFG_l.EN. -/
def State.laneEn (s : State) (h l : Nat) : Bool := s.bit (Reg.LANE_CFG h l) Fl.LANE_CFG_EN

/-- LANE_CFG_l.MODE. -/
def State.laneMode (s : State) (h l : Nat) : Nat := s.fld (Reg.LANE_CFG h l) Fl.LANE_CFG_MODE

/-- Lane l is the upper lane of a RAW_PAIR: it follows lane l − 1 (R310, R317). -/
def State.laneFollows (s : State) (h l : Nat) : Bool := l % 2 == 1 && s.laneEn h (l - 1) && s.laneMode h (l - 1) == 1

/-- LOCK clears with its event (R316): cause 0 FOM, 1 CDR. -/
def State.lockLost (s : State) (h l cause : Nat) : State :=
  let a := Reg.LANE_STAT h l
  if s.bit a Fl.LANE_STAT_LOCK then
    ((s.setFld a Fl.LANE_STAT_LOCK 0).incFld (Reg.LANE_ERR h l) Fl.LANE_ERR_LOCKLOSS 1).post Ev.LANE_LOCK_LOST h l
      [(8, s.fld (Reg.LANE_FOM h l) Fl.LANE_FOM_FOM), (1, cause)]
  else s

/-- Put lane l in a state: outside ACTIVE and QUIET its receiver does not run (R317), so LOCK clears and its receive clock is lost. -/
def State.laneTo (s : State) (h l st : Nat) (report : Bool) : State :=
  let was := s.laneState h l
  let a := Reg.LANE_STAT h l
  let s := (s.setFld a Fl.LANE_STAT_STATE st).setFld a Fl.LANE_STAT_PLL_LOCK (b2n (st == 3 || st == 4))
  let s := if was = st then s else s.hallClockCheck h
  if (was = 3 ∨ was = 4) ∧ st ≠ 3 ∧ st ≠ 4 then
    ((s.modLane h l (fun x => { x with lockHi := 0, lockLo := 0, almLo := 0, almHi := 0 })).lockLost h l 1).rxClockLost h l report
  else s

/-- The engine that lane l's quad belongs to, and the port of that engine that uses the lane in a port mode (R321). -/
def portOfLane (mode l : Nat) : Option Nat :=
  let i := l % 4
  if mode = 1 then some 0 else if mode = 2 then some (i / 2) else if mode = 3 ∨ mode = 4 then some i else none

/-- Lanes of port p of engine e in a port mode (R321). -/
def lanesOfPort (mode e p : Nat) : List Nat := ((List.range 4).map (4 * e + ·)).filter (fun l => portOfLane mode l == some p)

/-- The lanes that change with lane l: the pair in RAW_PAIR mode. -/
def State.withPair (s : State) (h l : Nat) : List Nat := if s.laneEn h l && s.laneMode h l == 1 then [l, l + 1] else [l]

/-- Change lane l, and with it the upper lane of its pair. -/
def State.laneGo (s : State) (h l st : Nat) (report : Bool) : State :=
  (s.withPair h l).foldl (fun s i => s.laneTo h i st report) s

/-! ## Configuration (R310 to R312) -/

/-- The fabric clock limit of a grade in kHz (R11). -/
def fabricLimit (grade : Nat) : Nat := if grade = 1 then 700000 else 850000

/-- A rate in kb/s lies in the range of a mode and modulation (R310). -/
def rateOk (mode mod rate : Nat) : Bool :=
  if mode = 0 then
    if mod = 0 then 1250000 ≤ rate && rate ≤ 28125000 else 53125000 ≤ rate && rate ≤ 112500000
  else if mode = 1 then mod == 1 && 53125000 ≤ rate && rate ≤ 112500000
  else true

/-- The lane clock of a RAW or RAW_PAIR rate exceeds a limit in kHz (R311, R312). -/
def laneClockOver (mode rate f1001 limit : Nat) : Bool :=
  let w := if mode = 1 then 160 else 80
  if mode ≤ 1 then
    if f1001 = 1 then decide (rate * 1000 > limit * w * 1001) else decide (rate > limit * w)
  else false

/-- Whether LANE_CFG_l with a value that sets EN is refused (R311). -/
def State.laneRefused (s : State) (h l : Nat) (v : Word) : Bool :=
  let mode := fieldOf v Fl.LANE_CFG_MODE
  let r := Reg.LANE_RATE h l
  let rate := s.fld r Fl.LANE_RATE_RATE
  let e := l / 4
  !rateOk mode (fieldOf v Fl.LANE_CFG_MOD) rate ||
    laneClockOver mode rate (s.fld r Fl.LANE_RATE_F1001) (fabricLimit s.part.grade) ||
    (mode == 1 && (l % 2 == 1 || s.laneEn h (l + 1))) ||
    (mode == 3 && (portOfLane (s.fld (Reg.ETH_MODE h e) Fl.ETH_MODE_MODE) l).isNone)

/-- What LANE_CFG_l would hold after a write (R18). -/
def State.written (s : State) (a : Nat) (v : Word) : Word := (s.writeFields a v).reg a

/-- A DISABLED lane with EN set starts, once release has reached its pad and lane step (R317); it starts cold (R439). -/
def State.laneStart (s : State) (h l : Nat) : State :=
  if s.laneEn h l && s.laneState h l == 1 && s.clk.ioOn && !s.laneFollows h l then
    ((s.withPair h l).foldl (fun s i => s.modLane h i (fun x => { x with warm := false })) s).laneGo h l 2 true
  else s

/-- LANE_ENABLE: a write of LANE_CFG_l with EN set (R311). -/
def State.laneEnable (s : State) (h l : Nat) (v : Word) : State :=
  let a := Reg.LANE_CFG h l
  if s.laneEn h l then s
  else if s.laneRefused h l (s.written a v) then s.post Ev.LANE_CFG_REFUSED h l [(16, 0x000)]
  else (s.writeFields a v).laneStart h l

/-- LANE_DISABLE: EN cleared (R317, R318). -/
def State.laneDisable (s : State) (h l : Nat) : State :=
  let g := s.withPair h l
  let s := g.foldl (fun s i => if s.laneState h i = 0 then s else s.laneTo h i 1 true) s
  let s := g.foldl (fun s i => s.setFld (Reg.LANE_STAT h i) Fl.LANE_STAT_STORED 0) s
  s.setFld (Reg.LANE_CFG h l) Fl.LANE_CFG_EN 0

/-- A write of LANE_CFG_l (R311). -/
def State.laneCfgWrite (s : State) (h l : Nat) (v : Word) : State :=
  if fieldOf v Fl.LANE_CFG_EN = 1 then s.laneEnable h l v
  else if s.laneEn h l then s.laneDisable h l
  else s.writeFields (Reg.LANE_CFG h l) v

/-- A write of LANE_RATE_l: not applied while EN is set (R311). -/
def State.laneRateWrite (s : State) (h l : Nat) (v : Word) : State :=
  if s.laneEn h l then s else s.writeFields (Reg.LANE_RATE h l) v

/-- A write of LANE_TXEQ_l: the four taps sum to at most 63. -/
def State.laneTxeqWrite (s : State) (h l : Nat) (v : Word) : State :=
  if fieldOf v Fl.LANE_TXEQ_POST1 + fieldOf v Fl.LANE_TXEQ_MAIN + fieldOf v Fl.LANE_TXEQ_PRE1 + fieldOf v Fl.LANE_TXEQ_PRE2 > 63 then
    s.post Ev.LANE_CFG_REFUSED h l [(16, 0x00C)]
  else s.writeFields (Reg.LANE_TXEQ h l) v

/-! ## Quiet and Dormant (R317, R318) -/

/-- The edge gallery (0 to 31) at which lane l lands (R42). -/
def laneGallery (l : Nat) : Nat := if l < 8 then 8 * (l / 2) else 8 * ((l - 8) / 2) + 7

/-- QREQ of lane l as it reads at the landing: low while the edge gallery presents its borders (R314 table). -/
def State.qreq (s : State) (h l : Nat) : Bool := (s.lane h l).qreq && !s.bordersHeld (32 * h + laneGallery l)

/-- Something asks for QUIET. -/
def State.wantsQuiet (s : State) (h l : Nat) : Bool := s.qreq h l || s.bit (Reg.LANE_CTRL h l) Fl.LANE_CTRL_QUIET

/-- Entry to DORMANT (R318): a locked lane stores its coefficients and the quad's temperature. -/
def State.dormantEnter (s : State) (h l : Nat) : State :=
  let t := Config.quadTemp s.now h (l / 4)
  let s := (s.withPair h l).foldl (fun s i =>
    if s.bit (Reg.LANE_STAT h i) Fl.LANE_STAT_LOCK then
      (s.modLane h i (fun x => { x with temp := t })).setFld (Reg.LANE_STAT h i) Fl.LANE_STAT_STORED 1
    else s) s
  s.laneGo h l 5 true

/-- Leaving DORMANT (R318). -/
def State.dormantLeave (s : State) (h l : Nat) : State :=
  let t := Config.quadTemp s.now h (l / 4)
  let cold := s.bit (Reg.LANE_CTRL h l) Fl.LANE_CTRL_COLD
  let s := (s.withPair h l).foldl (fun s i =>
    let x := s.lane h i
    let near := decide (t ≤ x.temp + 8) && decide (x.temp ≤ t + 8)
    let w := s.bit (Reg.LANE_STAT h i) Fl.LANE_STAT_STORED && !cold && near
    s.modLane h i (fun y => { y with warm := w })) s
  s.laneGo h l 2 true

/-- Lane l follows its QUIET, DORMANT and QREQ (R317). -/
def State.laneFollow (s : State) (h l : Nat) : State :=
  let st := s.laneState h l
  let dorm := s.bit (Reg.LANE_CTRL h l) Fl.LANE_CTRL_DORMANT
  if s.laneFollows h l then s
  else if (st = 3 ∨ st = 4) ∧ dorm = true then s.dormantEnter h l
  else if st = 5 ∧ dorm = false then s.dormantLeave h l
  else if st = 3 ∧ s.wantsQuiet h l = true then s.laneGo h l 4 true
  else if st = 4 ∧ s.wantsQuiet h l = false then s.laneGo h l 3 true
  else s

/-- A write of LANE_CTRL_l. -/
def State.laneCtrlWrite (s : State) (h l : Nat) (v : Word) : State := (s.writeFields (Reg.LANE_CTRL h l) v).laneFollow h l

/-- LANE_QUIET: a write of LANE_CTRL_l.QUIET. -/
def State.laneQuietWrite (s : State) (h l : Nat) (b : Bool) : State :=
  (s.setFld (Reg.LANE_CTRL h l) Fl.LANE_CTRL_QUIET (b2n b)).laneFollow h l

/-- LANE_DORMANT: a write of LANE_CTRL_l.DORMANT. -/
def State.laneDormantWrite (s : State) (h l : Nat) (b : Bool) : State :=
  (s.setFld (Reg.LANE_CTRL h l) Fl.LANE_CTRL_DORMANT (b2n b)).laneFollow h l

/-- QREQ: the design's signal changes. -/
def State.qreqChange (s : State) (h l : Nat) (b : Bool) : State :=
  (s.modLane h l (fun x => { x with qreq := b })).laneFollow h l

/-- The transmit clock source of lane l runs: its PLL's reference, and the engine clock of an ETH lane (R319). -/
def State.laneSource (s : State) (h l : Nat) : Bool :=
  !s.domainLost h (24 + l) && !(s.laneMode h l == 3 && s.domainLost h (56 + l / 4))

/-- LANE_PLL_LOCK: START to ACTIVE (R317), then on to QUIET or DORMANT if asked. -/
def State.lanePllLock (s : State) (h l : Nat) : State :=
  if s.laneState h l = 2 ∧ s.laneSource h l = true ∧ s.laneFollows h l = false then (s.laneGo h l 3 true).laneFollow h l else s

/-- Lane l's transmit clock source is lost: START, with stored coefficients if LOCK was set (R319). -/
def State.laneClockLost (s : State) (h l : Nat) : State :=
  let st := s.laneState h l
  if (st = 3 ∨ st = 4 ∨ st = 5) ∧ s.laneFollows h l = false then
    let s := (s.withPair h l).foldl (fun s i =>
      let w := s.bit (Reg.LANE_STAT h i) Fl.LANE_STAT_LOCK
      s.modLane h i (fun x => { x with warm := w })) s
    s.laneGo h l 2 false
  else s

/-- The lane-quad domain of lane l leaves ON (R317, R318). -/
def State.laneOff (s : State) (h l : Nat) : State :=
  (s.laneTo h l 0 true).setFld (Reg.LANE_STAT h l) Fl.LANE_STAT_STORED 0

/-- The lane-quad domain of lane l is ON: OFF to DISABLED, and on to START when enabled (R317). -/
def State.laneOn (s : State) (h l : Nat) : State :=
  if s.laneState h l = 0 then (s.setFld (Reg.LANE_STAT h l) Fl.LANE_STAT_STATE 1).laneStart h l else s

/-! ## The figure of merit (R316) -/

/-- LOCK follows a measurement. -/
def State.fomLock (s : State) (h l fom : Nat) (cdr : Bool) : State :=
  let th := s.fld (Reg.LANE_FOM_CFG h l) Fl.LANE_FOM_CFG_LOCK_FOM
  let x := s.lane h l
  let hi := if cdr && decide (fom ≥ th) then x.lockHi + 1 else 0
  let lo := if fom < th then x.lockLo + 1 else 0
  let s := s.modLane h l (fun y => { y with lockHi := min hi 10, lockLo := min lo 8 })
  let a := Reg.LANE_STAT h l
  if s.bit a Fl.LANE_STAT_LOCK then
    if !cdr then s.lockLost h l 1 else if lo ≥ 8 then s.lockLost h l 0 else s
  else if hi ≥ 10 then (s.setFld a Fl.LANE_STAT_LOCK 1).post Ev.LANE_LOCK h l [(8, fom)]
  else s

/-- ALARM follows a measurement. -/
def State.fomAlarm (s : State) (h l fom : Nat) : State :=
  let th := s.fld (Reg.LANE_FOM_CFG h l) Fl.LANE_FOM_CFG_ALARM_FOM
  let x := s.lane h l
  let lo := if fom < th then x.almLo + 1 else 0
  let hi := if fom ≥ th + 8 then x.almHi + 1 else 0
  let s := s.modLane h l (fun y => { y with almLo := min lo 8, almHi := min hi 8 })
  let a := Reg.LANE_STAT h l
  if s.bit a Fl.LANE_STAT_ALARM then
    if hi ≥ 8 then (s.setFld a Fl.LANE_STAT_ALARM 0).post Ev.LANE_FOM_CLEAR h l [(8, fom)] else s
  else if lo ≥ 8 then
    ((s.setFld a Fl.LANE_STAT_ALARM 1).incFld (Reg.LANE_ERR h l) Fl.LANE_ERR_ALARMS 1).post Ev.LANE_FOM_ALARM h l [(8, fom)]
  else s

/-- FOM_MEASURE: FOM and whether the CDR is locked, as facts; under is the SD_OVS words repeated since the last measurement (R314). -/
def State.fomMeasure (s : State) (h l fom : Nat) (cdr : Bool) (under : Nat) : State :=
  if s.laneState h l ≠ 3 ∧ s.laneState h l ≠ 4 then s
  else
    let a := Reg.LANE_FOM h l
    let s := (s.setFld a Fl.LANE_FOM_FOM fom).setFld a Fl.LANE_FOM_MIN (min fom (s.fld a Fl.LANE_FOM_MIN))
    let s := if s.laneMode h l = 2 then s.incFld (Reg.LANE_ERR h l) Fl.LANE_ERR_UNDER under else s
    (s.fomLock h l fom cdr).fomAlarm h l fom

/-! ## SDI scrambling (R313, R314) -/

/-- The scrambler of a lane and direction: the last nine scrambled bits, newest in bit 0, and the last level on the line. No command
carries a lane's words, so its contents are an argument. -/
abbrev SdiSt := BitVec 9 × Bool

/-- The register after a scrambled bit. -/
def sdiShift (x : SdiSt) (y line : Bool) : SdiSt := ((x.1 <<< 1) ||| (BitVec.ofBool y).setWidth 9, line)

/-- One bit sent: x^9 + x^4 + 1, then NRZI. -/
def sdiTxBit (x : SdiSt) (d : Bool) : SdiSt × Bool :=
  let y := (d ^^ x.1.getLsbD 3) ^^ x.1.getLsbD 8
  (sdiShift x y (x.2 ^^ y), x.2 ^^ y)

/-- One bit received: the inverse. -/
def sdiRxBit (x : SdiSt) (line : Bool) : SdiSt × Bool :=
  let y := line ^^ x.2
  (sdiShift x y line, (y ^^ x.1.getLsbD 3) ^^ x.1.getLsbD 8)

/-- The bits of a stretch, in order, through one of the two. -/
def sdiRun (f : SdiSt → Bool → SdiSt × Bool) (x : SdiSt) : List Bool → SdiSt × List Bool
  | [] => (x, [])
  | b :: l => let y := f x b; let r := sdiRun f y.1 l; (r.1, y.2 :: r.2)

/-- A lane scrambles: RAW with SDI_SCR set, and always SD_OVS. -/
def State.laneScrambles (s : State) (h l : Nat) : Bool :=
  (s.laneMode h l == 0 && s.bit (Reg.LANE_CFG h l) Fl.LANE_CFG_SDI_SCR) || s.laneMode h l == 2

/-- Bits of a landing word on their way to the line, bit 0 first. -/
def State.laneSends (s : State) (h l : Nat) (x : SdiSt) (w : List Bool) : SdiSt × List Bool :=
  if s.laneScrambles h l then sdiRun sdiTxBit x w else (x, w)

/-- Bits from the line on their way to a landing word, bit 0 first. -/
def State.laneTakes (s : State) (h l : Nat) (x : SdiSt) (w : List Bool) : SdiSt × List Bool :=
  if s.laneScrambles h l then sdiRun sdiRxBit x w else (x, w)

/-! ## Words and bits of a lane (R310, R314) -/

/-- The 160 bits of a RAW_PAIR cycle: 79:0 on lane l's landing, 159:80 on lane l + 1's (R310). -/
def pairWord (even odd : BitVec 80) : BitVec 160 := odd ++ even

/-- The two landing words of 160 bits received in RAW_PAIR (R310): lane l's and lane l + 1's. -/
def pairHalves (w : BitVec 160) : BitVec 80 × BitVec 80 := (w.setWidth 80, (w >>> 80).setWidth 80)

/-- The line bits of SD_OVS: each bit 11 times (R314). -/
def ovsSend (l : List Bool) : List Bool := l.flatMap (List.replicate 11)

/-- The bits that the SD_OVS receiver picks: one sample in 11, at a phase below 11 (R314). -/
def ovsTake (phase : Nat) (l : List Bool) : List Bool := (List.range (l.length / 11)).map (fun i => l.getD (11 * i + phase) false)

/-- TXV as the lane sees it: low while the edge gallery presents its borders (R314). -/
def State.laneTxv (s : State) (h l : Nat) (txv : Bool) : Bool := txv && !s.bordersHeld (32 * h + laneGallery l)

/-- The word that SD_OVS sends in a cycle with TXRDY high, and whether it counts in UNDER: without TXV the previous word goes again
(R314). -/
def ovsWord (txv : Bool) (word previous : BitVec 10) : BitVec 10 × Bool := if txv then (word, false) else (previous, true)

/-! ## Landing parity (R51) -/

/-- LAND_PARITY: a word of landing group n arrives with a mismatch. Groups 160 to 191 are the lane, stream and pad landings. -/
def State.landParity (s : State) (h n : Nat) : State :=
  let s := s.incFld (Reg.LAND h n) Fl.LAND_PERR 1
  s.postLim Ev.LAND_PARITY (256 * h + n) ms h 63 [(8, n), (8, s.fld (Reg.LAND h n) Fl.LAND_PERR)]

/-! ## Pads (R334 to R337) -/

/-- Whether PAD_CFG_b_n with a value is refused (R335). -/
def padRefused (vccio n : Nat) (v : Word) : Bool :=
  let std := fieldOf v Fl.PAD_CFG_STD
  let diff := std == 3 || std == 4
  let single := std == 1 || std == 2
  (diff && vccio == 0) || (diff && n % 2 == 1) ||
    (diff && (fieldOf v Fl.PAD_CFG_DRIVE != 0 || fieldOf v Fl.PAD_CFG_SLEW != 0 || fieldOf v Fl.PAD_CFG_PULL != 0)) ||
    (single && fieldOf v Fl.PAD_CFG_TERM != 0)

/-- PAD_CFG_WRITE (R335). -/
def State.padCfgWrite (s : State) (h b n : Nat) (v : Word) : State :=
  let a := Reg.PAD_CFG h b n
  if padRefused (s.fld (Reg.PAD_BANK h b) Fl.PAD_BANK_VCCIO) n (s.written a v) then
    s.post Ev.PAD_CFG_REFUSED h b [(6, n)]
  else s.writeFields a v

/-- Pins that use serialiser clock k of bank b enter their SAFE state (R337). -/
def State.padSafe (s : State) (h b k : Nat) : State :=
  s.modHall h (fun x => { x with padSafe := if x.padSafe.contains (2 * b + k) then x.padSafe else x.padSafe ++ [2 * b + k] })

/-- PAD_SAFE_EXIT: 16 word boundaries after the clock relocks, its pins leave their SAFE state. -/
def State.padSafeExit (s : State) (h b k : Nat) : State :=
  if s.domainLost h (60 + 2 * b + k) then s
  else s.modHall h (fun x => { x with padSafe := x.padSafe.filter (· != 2 * b + k) })

/-- How a pin stands (R334, R336, R337): before release and after a stop high-impedance, with weak pull-ups while IOPULL is low (R356); a
mismatched bank's outputs high-impedance; SAFE; while its edge gallery presents its borders, what these give (R336); else as configured. -/
inductive PinStand where
  | highz (pullUp : Bool) | safe (code : Nat) | asConfigured
  /-- Its output and enable carry what the border group of its edge gallery presents: HOLD, ZERO or ONE by its mode. -/
  | presented (mode : Nat)
  deriving DecidableEq, Repr

/-- The edge gallery (0 to 31) to which pin n of bank b belongs (R42). -/
def padGallery (b n : Nat) : Nat := 8 * (n / 12) + 7 * b

/-- The output group that carries a pin's output and enable (R100). -/
def padGroup (n : Nat) : Nat := if n % 12 < 7 then 21 else 22

/-- The pin whose configuration governs pin n of bank b: in a differential pair, the even one's (R335). -/
def State.padPin (s : State) (h b n : Nat) : Nat :=
  let std := s.fld (Reg.PAD_CFG h b (n - 1)) Fl.PAD_CFG_STD
  if n % 2 = 1 ∧ (std = 3 ∨ std = 4) then n - 1 else n

/-- The bits that a pin's serialiser sends of an 8-bit landing word, bit 0 first: one, two, four or eight by SER. The deserialiser fills
the same bits in the same order. -/
def State.padBits (s : State) (h b n : Nat) (word : BitVec 8) : List Bool :=
  (List.range (2 ^ s.fld (Reg.PAD_CFG h b (s.padPin h b n)) Fl.PAD_CFG_SER)).map word.getLsbD

/-- How pin n of bank b of hall h stands. -/
def State.pinStand (s : State) (h b n : Nat) : PinStand :=
  if !s.clk.ioOn then .highz (!Config.ioPull)
  else if s.bit (Reg.PAD_BANK h b) Fl.PAD_BANK_MISMATCH then .highz false
  else
    let a := Reg.PAD_CFG h b (s.padPin h b n)
    if (s.hall h).padSafe.contains (2 * b + s.fld a Fl.PAD_CFG_SCLK) then .safe (s.fld a Fl.PAD_CFG_SAFE)
    else
      let G := 32 * h + padGallery b n
      if !s.bordersHeld G then .asConfigured
      else .presented (((s.borderImg G).map (fun i => groupMode i (padGroup n))).getD 1)

/-- PAD_VCCIO_MISMATCH: a bank's supply is measured at release (R334). -/
def State.padMeasure (s : State) (h b sense : Nat) : State :=
  let a := Reg.PAD_BANK h b
  let s := s.setFld a Fl.PAD_BANK_SENSE sense
  let v := s.fld a Fl.PAD_BANK_VCCIO
  if v = sense then s.setFld a Fl.PAD_BANK_MISMATCH 0
  else (s.setFld a Fl.PAD_BANK_MISMATCH 1).post Ev.PAD_VCCIO_MISMATCH h b [(2, v), (2, sense)]

end Sys2Proof.Machine
end

