-- ==== Sys2Proof/Machine/Eth.lean ====
section
/-!
DEFINITION. Machine/Eth.lean: the Ethernet engines (chapter 10): port modes and links, classification, STORE and QUEUE, transmission,
timestamps; and the meanings of the lane, engine and pad commands.
-/
namespace Sys2Proof.Machine

/-! ## State and helpers -/

/-- Engine e of hall h. -/
def State.eth (s : State) (h e : Nat) : Eth := Sparse.get (s.hall h).eths {} e

/-- Change it. -/
def State.modEth (s : State) (h e : Nat) (f : Eth → Eth) : State :=
  s.modHall h (fun x => { x with eths := Sparse.set x.eths {} e (f (Sparse.get x.eths {} e)) })

/-- The port mode of an engine. -/
def State.ethMode (s : State) (h e : Nat) : Nat := s.fld (Reg.ETH_MODE h e) Fl.ETH_MODE_MODE

/-- Ports of a mode (R321). -/
def portsOf (mode : Nat) : Nat := if mode = 1 then 1 else if mode = 2 then 2 else if mode = 3 ∨ mode = 4 then 4 else 0

/-- The stream half of a port (R321). -/
def halfOf (mode p : Nat) : Nat := if mode = 2 then p else if mode = 1 then 0 else p / 2

/-- The rate of a port in Mb/s (R321). -/
def State.portRate (s : State) (h e p : Nat) : Nat :=
  let m := s.ethMode h e
  if m = 1 then 400000 else if m = 2 then 200000 else if m = 3 then 100000
  else if bitOf (s.fld (Reg.ETH_MODE h e) Fl.ETH_MODE_SPEED) p then 25000 else 10000

/-- Port p is up. -/
def State.portUp (s : State) (h e p : Nat) : Bool := s.bit (Reg.ETH_PSTAT h e p) Fl.ETH_PSTAT_LINK

/-- MAXLEN of port p. -/
def State.maxLen (s : State) (h e p : Nat) : Nat := s.fld (Reg.ETH_PORT h e p) Fl.ETH_PORT_MAXLEN

/-- A port carries frames (R322): enabled, in the mode, every lane ACTIVE with MODE = ETH, the domain ON and the engine clock
running. -/
def State.portCarries (s : State) (h e p : Nat) : Bool :=
  let m := s.ethMode h e
  bitOf (s.fld (Reg.ETH_MODE h e) Fl.ETH_MODE_PORTEN) p && decide (p < portsOf m) && s.domOn h 69 &&
    !s.domainLost h (56 + e) &&
    (lanesOfPort m e p).all (fun l => s.laneState h l == 3 && s.laneMode h l == 3)

/-- The engines of hall h are held by a partial reset or by the test of their stores (R57, R333, R447). -/
def State.ethsHeld (s : State) (h : Nat) : Bool := s.inFrst h || s.testing h 2

/-- The edge gallery (0 to 31) at which half j of engine e lands (R42). -/
def halfGallery (e j : Nat) : Nat := laneGallery (4 * e + 2 * j)

/-! ## Requests of the engine (R326 to R328) -/

/-- Tags not in use. -/
def freeTag (x : Eth) : Option Nat := (List.range 64).find? (fun t => !x.ops.any (fun o => o.1 == t))

/-- Complete a request whose address maps nowhere: as if answered ABSENT (R37). The outcome of an operation is applied by
`ethResult`, below. -/
structure Done where
  op : EthOp
  st : Nat
  data : List Byte
  deriving DecidableEq, Repr

/-- Send the next request of the outbox if fewer than 64 are outstanding; a request that maps nowhere is returned instead. -/
def State.ethSendOne (s : State) (h e : Nat) : State × Option Done :=
  let x := s.eth h e
  match x.outbox, freeTag x with
  | (fr, op, p) :: rest, some t =>
    let more := rest.any (fun y => y.1 == fr)
    let s := s.modEth h e (fun y =>
      { y with outbox := rest,
               rx := if more then y.rx else y.rx.filter (fun r => r.stream.isSome || decide (some r.id ≠ fr)) })
    let p := { p with srcHall := BitVec.ofNat 3 h, srcNode := 34, srcPort := BitVec.ofNat 3 e, tag := BitVec.ofNat 10 t }
    if p.cmd = 0x11 then ((s.modEth h e (fun y => { y with ops := y.ops ++ [(t, op)] })).send p, none)
    else match destOfReq p with
      | none => (s, some ⟨op, 3, []⟩)
      | some (dh, dn, dp) =>
        ((s.modEth h e (fun y => { y with ops := y.ops ++ [(t, op)] })).send
          { p with dstHall := BitVec.ofNat 3 dh, dstNode := BitVec.ofNat 6 dn, dstPort := BitVec.ofNat 3 dp }, none)
  | _, _ => (s, none)

/-- Queue requests of a frame. -/
def State.ethQueue (s : State) (h e : Nat) (fr : Option Nat) (l : List (EthOp × Packet)) : State :=
  s.modEth h e (fun y => { y with outbox := y.outbox ++ l.map (fun x => (fr, x.1, x.2)) })

/-- A WR or QPUSH of consecutive bytes from an address that lies on a 64-byte boundary. -/
def bytesPacket (cmd addr : Nat) (b : List Byte) : Packet :=
  let n := (b.length + 63) / 64
  let last := b.length - 64 * (n - 1)
  let m : BitVec 64 := BitVec.ofNat 64 (2 ^ last - 1)
  { cmd := BitVec.ofNat 8 cmd, units := BitVec.ofNat 4 n, addr := BitVec.ofNat 48 addr,
    beFirst := if n = 1 then m else BitVec.allOnes 64, beLast := m,
    data := (List.range n).map (fun i => BitVec.ofNat 512 (natOfBytes ((b.drop (64 * i)).take 64))) }

/-- Cut bytes into pieces of n. -/
def chunks (n : Nat) : Nat → List Byte → List (List Byte)
  | 0, _ => []
  | k + 1, b => if b.isEmpty then [] else b.take n :: chunks n k (b.drop n)

/-- The enqueue of a stored frame (R328). -/
def enqOf (h e : Nat) (entry : Nat) (d : BitVec 256) : EthOp × Packet :=
  (.enq entry (dFlow d), enqPacket h 34 e 0 d)

/-- Items of stored frames whose writes are all answered, in the order of the frames (R328). -/
def State.ethItems (s : State) (h e entry : Nat) : Nat → State
  | 0 => s
  | n + 1 =>
    match (s.eth h e).stores.find? (fun r => r.entry == entry) with
    | none => s
    | some r =>
      if r.left ≠ 0 then s
      else
        let s := s.modEth h e (fun y => { y with stores := y.stores.filter (fun q => q.id != r.id) })
        let s := match r.item with
          | some d => if r.bad then s else s.ethQueue h e none [enqOf h e entry d]
          | none => s
        s.ethItems h e entry n

/-! ## Classification (R325, R202, R203) -/

/-- Byte i of a frame; bytes past the end read 0. -/
def frameByte (b : List Byte) (i : Nat) : Nat := (b.getD i 0).toNat

/-- Word w of the key (R325). -/
def State.keyWord (s : State) (h e : Nat) (b : List Byte) (w : Nat) : Word :=
  let a := Reg.ETH_KEY h e w
  if s.bit a Fl.ETH_KEY_EN then
    let i := s.fld a Fl.ETH_KEY_SRC
    BitVec.ofNat 32 (((frameByte b i * 256 + frameByte b (i + 1)) * 256 + frameByte b (i + 2)) * 256 + frameByte b (i + 3))
  else 0

/-- The frame matches entry n (R325). -/
def State.entryMatches (s : State) (h e p : Nat) (b : List Byte) (n : Nat) : Bool :=
  let a := Reg.ETH_CL_ACT h e n
  s.bit a Fl.ETH_CL_ACT_EN && bitOf (s.fld a Fl.ETH_CL_ACT_PORTS) p &&
    (List.range 4).all (fun w =>
      let m := s.reg (Reg.ETH_CL_MASK h e n w)
      (s.keyWord h e b w &&& m) == (s.reg (Reg.ETH_CL_MATCH h e n w) &&& m))

/-- The winning entry. -/
def State.winner (s : State) (h e p : Nat) (b : List Byte) : Option Nat := (List.range 128).find? (s.entryMatches h e p b)

/-- The 64-bit window of an extraction step, network order; bytes 128 and up read 0 (R203). -/
def xWin (b : List Byte) (src : Nat) : Nat :=
  (List.range 8).foldl (fun w i => w * 256 + (if src + i < 128 then frameByte b (src + i) else 0)) 0

/-- The destination of DST: its place in the descriptor and its width (R203). -/
def xDst (dst : Nat) : Nat × Nat := if dst = 0 then (160, 32) else if dst = 1 then (192, 32) else if dst = 2 then (12, 6) else (19, 4)

/-- One step of a profile: the descriptor and the destinations touched. -/
def xStep (b : List Byte) (w : Word) (r : BitVec 256 × List Nat) : BitVec 256 × List Nat :=
  if fieldOf w Fl.GWK_XPROF_EN = 0 then r
  else
    let dst := fieldOf w Fl.GWK_XPROF_DST
    let width := fieldOf w Fl.GWK_XPROF_WM1 + 1
    let f := xWin b (fieldOf w Fl.GWK_XPROF_SRC) / 2 ^ (64 - fieldOf w Fl.GWK_XPROF_OFS - width) % 2 ^ width
    let (lo, n) := xDst dst
    let old := if r.2.contains dst then bitsOf r.1.toNat lo n else 0
    (putBits r.1 lo n (old ||| (f * 2 ^ fieldOf w Fl.GWK_XPROF_DSH)), dst :: r.2)

/-- Profile i of hall h applied to a descriptor (R203). -/
def State.extract (s : State) (h i : Nat) (b : List Byte) (d : BitVec 256) : BitVec 256 :=
  ((List.range 4).foldl (fun r j => xStep b (s.reg (Reg.GWK_XPROF h i j)) r) (d, [])).1

/-! ## Reception (R325 to R329) -/

/-- A timestamp in units of 2^-16 ns: the time base with a correction of 1/16 ns units (R329). -/
def stamp (t : BitVec 64) (adj : Nat) : Nat := ((t.toNat : Int) + signedOf 16 adj * 4096).emod (2 ^ 64) |>.toNat

/-- The receive timestamp: the frame's last bit arrives now, its first (n + 4) × 8 bit times earlier (R329). -/
def State.rxStamp (s : State) (h e p n : Nat) : Nat :=
  let back := (n + 4) * 8 * 1000 * 65536 / max 1 (s.portRate h e p)
  stamp (s.clk.tb - BitVec.ofNat 64 back) (s.fld (Reg.ETH_TSADJ h e p) Fl.ETH_TSADJ_RX)

/-- Bytes held in the receive buffer (R327). -/
def rxUsed (x : Eth) : Nat := (x.rx.map (·.size)).foldl (· + ·) 0

/-- Present the frames of port p that wait for the stream, in order, while the port is ready and its landing gallery does not present
its borders (R324). -/
def State.ethPresent (s : State) (h e : Nat) : State :=
  let x := s.eth h e
  let m := s.ethMode h e
  let go := fun (r : EthRx) => match r.stream with
    | some f => bitOf x.rdy f.port && !s.bordersHeld (32 * h + halfGallery e (halfOf m f.port))
    | none => false
  let out := x.rx.filter go
  s.modEth h e (fun y =>
    { y with rx := y.rx.filter (fun r => !go r),
             shown := match out.getLast? with
               | some r => r.stream
               | none => y.shown })

/-- A received frame goes into the buffer for the stream. -/
def State.ethStream (s : State) (h e : Nat) (f : EthStream) : State :=
  (s.modEth h e (fun y => { y with nextId := y.nextId + 1, rx := y.rx ++ [⟨y.nextId, f.port, f.bytes.length, some f⟩] })).ethPresent h e

/-- The address of a classification entry (ETH_CL_ADDR and ETH_CL_ADDRH). -/
def State.entryAddr (s : State) (h e n : Nat) : Nat :=
  s.fld (Reg.ETH_CL_ADDRH h e n) Fl.ETH_CL_ADDRH_ADDRH * 2 ^ 32 + s.fld (Reg.ETH_CL_ADDR h e n) Fl.ETH_CL_ADDR_ADDR * 64

/-- Little-endian bytes of a timestamp. -/
def stampBytes (t : Nat) : List Byte := bytesOf 8 (BitVec.ofNat 64 t)

/-- STORE (R326, R328). -/
def State.ethStore (s : State) (h e n : Nat) (b : List Byte) (ts : Nat) : State :=
  let a := Reg.ETH_CL_ACT h e n
  let cnt := s.fld (Reg.ETH_CL_BUF h e n) Fl.ETH_CL_BUF_CNT + 1
  let next := s.fld (Reg.ETH_CL_NEXT h e n) Fl.ETH_CL_NEXT_NEXT % cnt
  let size := 2 ^ (11 + s.fld a Fl.ETH_CL_ACT_BUFSZ)
  let item := s.bit a Fl.ETH_CL_ACT_ITEM
  let s := s.setFld (Reg.ETH_CL_NEXT h e n) Fl.ETH_CL_NEXT_NEXT ((next + 1) % cnt)
  if item && !s.part.gweak then
    (s.incFld (Reg.ETH_STAT h e) Fl.ETH_STAT_NOGWK 1).postLim Ev.ETH_NOGWK_DROP (4 * h + e) ms h e [(7, n)]
  else
    let body := (if s.bit a Fl.ETH_CL_ACT_RXTS then stampBytes ts else []) ++ b.drop (s.fld a Fl.ETH_CL_ACT_OFS)
    let s := if body.length > size then s.incFld (Reg.ETH_STAT h e) Fl.ETH_STAT_TRUNC 1 else s
    let body := body.take size
    let addr := s.entryAddr h e n + next * size
    let id := (s.eth h e).nextId
    let parts := chunks 512 64 body
    let ops := (List.range parts.length).map (fun i => (EthOp.store id, bytesPacket 2 (addr + 512 * i) (parts.getD i [])))
    let it := s.fld (Reg.ETH_CL_ITEM h e n) Fl.ETH_CL_ITEM_CLASS
    let d := mkDesc (s.fld (Reg.ETH_CL_ITEM h e n) Fl.ETH_CL_ITEM_FLOW) it addr body.length 0 0
    let d := if s.bit a Fl.ETH_CL_ACT_PROF_EN then s.extract h (s.fld a Fl.ETH_CL_ACT_PROF) b d else d
    let s := s.modEth h e (fun y =>
      { y with nextId := id + 1, stores := y.stores ++ [⟨id, n, parts.length, false, if item then some d else none⟩],
               rx := if parts.isEmpty then y.rx else y.rx ++ [⟨id, 0, b.length, none⟩] })
    (s.ethQueue h e (some id) ops).ethItems h e n 64

/-- Push the bytes gathered as whole rows (R326). -/
def pushRows (n addr : Nat) (acc : List Byte) : List (EthOp × Packet) :=
  if acc.isEmpty then []
  else
    let rows := (acc.length + 127) / 128
    let b := acc ++ List.replicate (128 * rows - acc.length) 0
    [(.push n, { bytesPacket 3 addr b with beFirst := BitVec.allOnes 64, beLast := BitVec.allOnes 64 })]

/-- The QUEUE action's gathering of a frame's bytes (R326): bytes gathered, bytes since the last boundary, pushes so far. -/
def gatherBytes (n addr flush : Nat) : List Byte → (List Byte × Nat × List (EthOp × Packet)) → List Byte × Nat × List (EthOp × Packet)
  | [], r => r
  | x :: xs, (acc, run, out) =>
    let acc := acc ++ [x]
    let run := run + 1
    let r1 := if acc.length = 512 then (([] : List Byte), out ++ pushRows n addr acc) else (acc, out)
    if flush ≠ 0 ∧ run = flush then gatherBytes n addr flush xs ([], 0, r1.2 ++ pushRows n addr r1.1)
    else gatherBytes n addr flush xs (r1.1, run, r1.2)

/-- QUEUE (R326). -/
def State.ethGather (s : State) (h e n : Nat) (b : List Byte) : State :=
  let flush := s.fld (Reg.ETH_CL_BUF h e n) Fl.ETH_CL_BUF_FLUSH
  let addr := s.entryAddr h e n
  let g := Sparse.get (s.eth h e).gather ([], 0) n
  let r := gatherBytes n addr flush (b.drop (s.fld (Reg.ETH_CL_ACT h e n) Fl.ETH_CL_ACT_OFS)) (g.1, g.2, [])
  let r := if flush = 0 then (([] : List Byte), 0, r.2.2 ++ pushRows n addr r.1) else r
  let id := (s.eth h e).nextId
  let s := s.modEth h e (fun y =>
    { y with nextId := id + 1, gather := Sparse.set y.gather ([], 0) n (r.1, r.2.1),
             rx := if r.2.2.isEmpty then y.rx else y.rx ++ [⟨id, 0, b.length, none⟩] })
  s.ethQueue h e (some id) r.2.2

/-- A frame with a good FCS is classified (R325, R326). -/
def State.ethClassify (s : State) (h e p : Nat) (b : List Byte) : State :=
  let ts := s.rxStamp h e p b.length
  match s.winner h e p b with
  | none =>
    if s.bit (Reg.ETH_MODE h e) Fl.ETH_MODE_MISS then s.ethStream h e ⟨p, b, none, none⟩
    else s.incFld (Reg.ETH_RXMISS h e p) Fl.ETH_RXMISS_COUNT 1
  | some n =>
    let a := Reg.ETH_CL_ACT h e n
    let s := s.incFld (Reg.ETH_CL_HITS h e n) Fl.ETH_CL_HITS_HITS 1
    let act := s.fld a Fl.ETH_CL_ACT_ACT
    if act = 0 then s
    else if act = 1 then s.ethStream h e ⟨p, b, some n, if s.bit a Fl.ETH_CL_ACT_RXTS then some ts else none⟩
    else if act = 2 then s.ethStore h e n b ts
    else s.ethGather h e n b

/-- A frame is dropped on reception. -/
def State.rxDrop (s : State) (h e p : Nat) : State := s.incFld (Reg.ETH_RXDROP h e p) Fl.ETH_RXDROP_COUNT 1

/-- FEC codewords corrected and uncorrectable (R322). -/
def State.fecCount (s : State) (h e p cor unc : Nat) : State :=
  let s := s.incFld (Reg.ETH_FECC h e p) Fl.ETH_FECC_COUNT cor
  if unc = 0 then s
  else
    let s := s.incFld (Reg.ETH_FECU h e p) Fl.ETH_FECU_COUNT unc
    s.postLim Ev.ETH_FEC_UNCORR (16 * h + 4 * e + p) ms h e
      [(2, p), (32, s.fld (Reg.ETH_FECU h e p) Fl.ETH_FECU_COUNT)]

/-! ## Results of requests (R326, R328, R331) -/

/-- Transmit-buffer bytes of port p in use: heads being read or complete, and stream frames (R331). -/
def State.txUsed (s : State) (h e p : Nat) : Nat :=
  let x := s.eth h e
  let q := (List.range 8).map (fun q =>
    if s.fld (Reg.ETH_TXQ h e q) Fl.ETH_TXQ_PORT = p then
      match Sparse.get x.txq [] q with
      | d :: _ => if d.reading then bitsOf d.desc.toNat 80 24 else 0
      | [] => 0
    else 0)
  let f := (x.stream.filter (fun t => t.port == p)).map (·.bytes.length)
  (q ++ f).foldl (· + ·) 0

/-- The reads of a descriptor (R331): LEN bytes from ADDR in requests of up to 8 units. -/
def fetchOps (q : Nat) (d : BitVec 256) : List (EthOp × Packet) :=
  let a := bitsOf d.toNat 32 48
  let len := bitsOf d.toNat 80 24
  let base := a / 64 * 64
  let total := (a - base + len + 63) / 64
  (List.range ((total + 7) / 8)).map (fun i =>
    (.fetch q i, { cmd := 1, addr := BitVec.ofNat 48 (base + 512 * i), runits := BitVec.ofNat 4 (min 8 (total - 8 * i)) }))

/-- Begin the reads of queue q's head if it waits and the transmit buffer has room; answers whether it was stopped for room. -/
def State.ethFetchQ (s : State) (h e q : Nat) : State × Bool :=
  match Sparse.get (s.eth h e).txq [] q with
  | [] => (s, false)
  | d :: rest =>
    if d.reading then (s, false)
    else
      let p := s.fld (Reg.ETH_TXQ h e q) Fl.ETH_TXQ_PORT
      if s.txUsed h e p + bitsOf d.desc.toNat 80 24 > 32768 then (s, true)
      else
        let ops := fetchOps q d.desc
        let s := s.modEth h e (fun y => { y with txq := Sparse.put y.txq q ({ d with reading := true, left := ops.length } :: rest) })
        (s.ethQueue h e none ops, false)

/-- Reads of the queue heads of every port, in the order of R332, while the port's buffer has room. -/
def State.ethFetch (s : State) (h e : Nat) : State :=
  (List.range 4).foldl (fun s p =>
    (((List.range 8).filter (fun q => s.fld (Reg.ETH_TXQ h e q) Fl.ETH_TXQ_PORT == p)).foldl (fun (r : State × Bool) q =>
      if r.2 then r else r.1.ethFetchQ h e q) (s, false)).1) s

/-- Remove the head of queue q, discarding it. -/
def State.txqDrop (s : State) (h e q : Nat) : State :=
  let p := s.fld (Reg.ETH_TXQ h e q) Fl.ETH_TXQ_PORT
  (s.modEth h e (fun y => { y with txq := Sparse.set y.txq [] q (Sparse.get y.txq [] q).tail })).incFld
    (Reg.ETH_TXDROP h e p) Fl.ETH_TXDROP_COUNT 1

/-- The result of an operation of the engine. -/
def State.ethResult (s : State) (h e : Nat) (r : Done) : State :=
  match r.op with
  | .store id =>
    match (s.eth h e).stores.find? (fun x => x.id == id) with
    | none => s
    | some x =>
      let x' : EthStore := { x with left := x.left - 1, bad := x.bad || r.st != 0 }
      let s := s.modEth h e (fun y => { y with stores := y.stores.map (fun z => if z.id = id then x' else z) })
      let s := if r.st ≠ 0 ∧ x.bad = false then
          let s := if x.item.isSome then s.incFld (Reg.ETH_STAT h e) Fl.ETH_STAT_ENQFAIL 1 else s
          s.postLim Ev.ETH_STORE_ERR ((4 * h + e) * 128 + x.entry) ms h e [(7, x.entry), (3, r.st)]
        else s
      s.ethItems h e x.entry 64
  | .enq entry flow =>
    if r.st = 0 then s
    else (s.incFld (Reg.ETH_STAT h e) Fl.ETH_STAT_ENQFAIL 1).postLim Ev.ETH_ENQ_FAIL ((4 * h + e) * 128 + entry) ms h e
      [(7, entry), (12, flow), (3, r.st)]
  | .push entry =>
    if r.st = 0 then s
    else (s.incFld (Reg.ETH_CL_HITS h e entry) Fl.ETH_CL_HITS_QLOSS 1).postLim Ev.ETH_QUEUE_LOSS ((4 * h + e) * 128 + entry) ms h e
      [(7, entry), (3, r.st)]
  | .fetch q k =>
    match Sparse.get (s.eth h e).txq [] q with
    | [] => s
    | d :: rest =>
      if d.reading = false ∨ d.left = 0 then s
      else
        let d' : EthDesc := { d with left := d.left - 1, bad := if d.bad = 0 then r.st else d.bad, chunks := Sparse.put d.chunks k r.data }
        let s := s.modEth h e (fun y => { y with txq := Sparse.put y.txq q (d' :: rest) })
        if d'.left = 0 ∧ d'.bad ≠ 0 then
          ((s.txqDrop h e q).postLim Ev.ETH_TX_FETCH_ERR (4 * h + e) ms h e [(3, q), (3, d'.bad)]).ethFetch h e
        else s

/-- Send what can be sent; a request that maps nowhere ends at once. -/
def State.ethPump (s : State) (h e : Nat) : Nat → State
  | 0 => s
  | n + 1 =>
    if (s.eth h e).outbox.isEmpty || (freeTag (s.eth h e)).isNone then s
    else
      let r := s.ethSendOne h e
      match r.2 with
      | none => r.1.ethPump h e n
      | some d => (r.1.ethResult h e d).ethPump h e n

/-- Enough for every request that an outbox and its results can hold. -/
def pumpFuel : Nat := 4096

/-- A response to the engine (R245, R328, R331). -/
def State.ethRsp (s : State) (h e tag st : Nat) (data : List (BitVec 512)) : State :=
  match (s.eth h e).ops.find? (fun o => o.1 == tag) with
  | none => s
  | some (_, op) =>
    let s := s.modEth h e (fun y => { y with ops := y.ops.filter (fun o => o.1 != tag) })
    (s.ethResult h e ⟨op, st, (data.map (fun d => bytesOf 64 d)).flatten⟩).ethPump h e pumpFuel

/-! ## Reception, the command -/

/-- ETH_FRAME_RECEIVE: the frame's bytes without its FCS, whether its FCS is good, and FEC codewords corrected and uncorrectable. -/
def State.ethReceive (s : State) (h e p : Nat) (b : List Byte) (fcs : Bool) (cor unc : Nat) : State :=
  if !s.portUp h e p then s
  else
    let s := s.fecCount h e p cor unc
    if !fcs then s.rxDrop h e p
    else
      let s := s.incFld (Reg.ETH_RXF h e p) Fl.ETH_RXF_COUNT 1
      if b.length + 4 < 64 ∨ b.length + 4 > s.maxLen h e p ∨ s.ethsHeld h = true then s.rxDrop h e p
      else if rxUsed (s.eth h e) + b.length > 262144 then
        (s.rxDrop h e p).postLim Ev.ETH_RX_DROP (4 * h + e) ms h e [(2, p)]
      else (s.ethClassify h e p b).ethPump h e pumpFuel

/-- RX_RDY_RISE (R324). -/
def State.rxRdy (s : State) (h e p : Nat) : State :=
  (s.modEth h e (fun y => { y with rdy := setBit y.rdy p true })).ethPresent h e

/-- RX_RDY falls: no row of its own; the model lets the next rise name the ports that stay ready (see log). -/
def State.rxRdySet (s : State) (h e rdy : Nat) : State := (s.modEth h e (fun y => { y with rdy := rdy })).ethPresent h e

/-! ## Transmission (R323, R330 to R332) -/

/-- Count a frame discarded on transmit. -/
def State.txDrop (s : State) (h e p : Nat) : State := s.incFld (Reg.ETH_TXDROP h e p) Fl.ETH_TXDROP_COUNT 1

/-- ETH_STREAM_FRAME: a frame with its EOP has arrived on half j for port p (R323). While the transmit buffers are held cleared, nothing of it
remains (R333). -/
def State.ethStreamFrame (s : State) (h e j p : Nat) (b : List Byte) (err : Bool) (tsid : Option Nat) : State :=
  let m := s.ethMode h e
  if s.bordersHeld (32 * h + halfGallery e j) || s.ethsHeld h then s
  else if p ≥ portsOf m ∨ halfOf m p ≠ j ∨ err = true ∨ b.length + 4 > s.maxLen h e p then s.txDrop h e p
  else
    let b := b ++ List.replicate (60 - b.length) 0
    s.modEth h e (fun y => { y with stream := y.stream ++ [⟨p, b, tsid⟩] })

/-- ETH_TX_EOP_TIMEOUT (R323). -/
def State.ethEopTimeout (s : State) (h e p : Nat) : State := s.txDrop h e p

/-- XMIT at node 34 (R331): queue TXQ is in ARG bits 2:0 (log 12). -/
def State.ethXmit (s : State) (h e : Nat) (p : Packet) : State :=
  let d : BitVec 256 := (p.data.headD 0).setWidth 256
  let q := bitsOf p.arg.toNat 0 3
  let port := s.fld (Reg.ETH_TXQ h e q) Fl.ETH_TXQ_PORT
  let len := bitsOf d.toNat 80 24
  if len = 0 ∨ len > s.maxLen h e port - 4 then s.respond p .denied []
  else if !s.portUp h e port || decide ((Sparse.get (s.eth h e).txq [] q).length ≥ 16) then s.respond p .unavail []
  else
    let s := s.modEth h e (fun y => { y with txq := Sparse.put y.txq q (Sparse.get y.txq [] q ++ [{ desc := d }]) })
    ((s.respond p .ok []).ethFetch h e).ethPump h e pumpFuel

/-- Record a transmit timestamp (R330). -/
def State.txStampAdd (s : State) (h e p src id : Nat) : State :=
  if (s.eth h e).ts.length ≥ 32 then
    let s := s.incFld (Reg.ETH_STAT h e) Fl.ETH_STAT_TSOVF 1
    s.postLim Ev.ETH_TXTS_OVF (4 * h + e) ms h e [(8, s.fld (Reg.ETH_STAT h e) Fl.ETH_STAT_TSOVF)]
  else
    let t := stamp s.clk.tb (s.fld (Reg.ETH_TSADJ h e p) Fl.ETH_TSADJ_TX)
    s.modEth h e (fun y => { y with ts := y.ts ++ [⟨t, p, src, id⟩] })

/-- The head of queue q is complete: all its reads were answered OK. -/
def headReady (x : Eth) (q : Nat) : Option EthDesc :=
  match Sparse.get x.txq [] q with
  | d :: _ => if d.reading && d.left == 0 && d.bad == 0 then some d else none
  | [] => none

/-- The bytes of a complete descriptor frame, padded to 60. -/
def descBytes (d : EthDesc) : List Byte :=
  let a := bitsOf d.desc.toNat 32 48
  let b := ((d.chunks.map (·.2)).flatten.drop (a % 64)).take (bitsOf d.desc.toNat 80 24)
  b ++ List.replicate (60 - b.length) 0

/-- The sources of port p in their order (R332): queues 0 to 7 of the port, with 8, the stream, before queue STRM_POS. -/
def State.txOrder (s : State) (h e p : Nat) : List Nat :=
  let pos := s.fld (Reg.ETH_PORT h e p) Fl.ETH_PORT_STRM_POS
  let qs := (List.range 8).filter (fun q => s.fld (Reg.ETH_TXQ h e q) Fl.ETH_TXQ_PORT == p)
  qs.filter (· < pos) ++ [8] ++ qs.filter (fun q => decide (q ≥ pos))

/-- A source has a complete frame. -/
def sourceReady (x : Eth) (p src : Nat) : Bool :=
  if src = 8 then x.stream.any (fun t => t.port == p) else (headReady x src).isSome

/-- Send the frame of a source. -/
def State.ethSend (s : State) (h e p src : Nat) : State :=
  let x := s.eth h e
  let s := s.incFld (Reg.ETH_TXF h e p) Fl.ETH_TXF_COUNT 1
  if src = 8 then
    match x.stream.find? (fun t => t.port == p) with
    | none => s
    | some t =>
      let s := s.modEth h e (fun y => { y with stream := y.stream.erase t, sent := some (p, 8, t.bytes) })
      match t.tsid with
      | some i => s.txStampAdd h e p 8 i
      | none => s
  else
    match headReady x src with
    | none => s
    | some d =>
      let s := s.modEth h e (fun y =>
        { y with txq := Sparse.set y.txq [] src (Sparse.get y.txq [] src).tail, sent := some (p, src, descBytes d) })
      if bitOf d.desc.toNat 19 then s.txStampAdd h e p src (dIseq d.desc) else s

/-- ETH_FRAME_TRANSMIT: a frame boundary of port p (R332); nothing is sent during a foundation partial reset (R333). -/
def State.ethTransmit (s : State) (h e p : Nat) : State :=
  if !s.portUp h e p || s.ethsHeld h then s
  else match (s.txOrder h e p).find? (sourceReady (s.eth h e) p) with
    | none => s
    | some src => ((s.ethSend h e p src).ethFetch h e).ethPump h e pumpFuel

/-- TXTS_READ: a read of ETH_TXTS_e_2 removes the oldest entry (R330). -/
def State.txtsRead (s : State) (h e : Nat) : State := s.modEth h e (fun y => { y with ts := y.ts.tail })

/-- What ETH_TXTS_e_2 reads. -/
def txtsWord (x : Eth) : Word :=
  match x.ts with
  | t :: _ => BitVec.ofNat 32 (packBits [(24, t.id), (4, t.src), (2, t.port), (1, 0), (1, 1)])
  | [] => 0

/-- What ETH_TXTS_e_0 and ETH_TXTS_e_1 read. -/
def txtsTime (x : Eth) (hi : Bool) : Word :=
  match x.ts with
  | t :: _ => BitVec.ofNat 32 (if hi then t.time / 2 ^ 32 else t.time)
  | [] => 0

/-! ## Links (R321, R322) -/

/-- Descriptors of port p's queues are discarded when it goes down (R331). -/
def State.discardTx (s : State) (h e p : Nat) : State :=
  let qs := (List.range 8).filter (fun q => s.fld (Reg.ETH_TXQ h e q) Fl.ETH_TXQ_PORT == p)
  let n := (qs.map (fun q => (Sparse.get (s.eth h e).txq [] q).length)).foldl (· + ·) 0
  if n = 0 then s
  else
    let s := s.modEth h e (fun y =>
      { y with txq := qs.foldl (fun t q => Sparse.del t q) y.txq,
               outbox := y.outbox.filter (fun o => match o.2.1 with
                 | .fetch q _ => !qs.contains q
                 | _ => true),
               ops := y.ops.map (fun o => match o.2 with
                 | .fetch q k => if qs.contains q then (o.1, .fetch 8 k) else o
                 | _ => o) })
    (s.incFld (Reg.ETH_TXDROP h e p) Fl.ETH_TXDROP_COUNT n).post Ev.ETH_TX_DISCARD h e [(2, p), (8, n)]

/-- Port p goes down: cause 0 lock, 1 local fault, 2 remote fault, 3 lane not ACTIVE (R322, R331). -/
def State.linkDown (s : State) (h e p cause : Nat) : State :=
  if !s.portUp h e p then s
  else
    let a := Reg.ETH_PSTAT h e p
    let s := ((s.setFld a Fl.ETH_PSTAT_LINK 0).setFld a Fl.ETH_PSTAT_LFAULT (b2n (cause == 1))).setFld a Fl.ETH_PSTAT_RFAULT (b2n (cause == 2))
    let s := if cause = 0 ∨ cause = 3 then s.setFld a Fl.ETH_PSTAT_FECLOCK 0 else s
    (s.post Ev.ETH_LINK_DOWN h e [(2, p), (2, cause)]).discardTx h e p

/-- Ports that no longer carry frames come down (R322). -/
def State.linksCheck (s : State) (h e : Nat) : State :=
  (List.range 4).foldl (fun s p => if s.portCarries h e p then s else s.linkDown h e p 3) s

/-- The same for the engine of lane l. -/
def State.laneCheck (s : State) (h l : Nat) : State := s.linksCheck h (l / 4)

/-- FEC runs on port p (R321). -/
def State.fecOn (s : State) (h e p : Nat) : Bool :=
  let m := s.ethMode h e
  m != 4 || (bitOf (s.fld (Reg.ETH_MODE h e) Fl.ETH_MODE_FEC25) p && bitOf (s.fld (Reg.ETH_MODE h e) Fl.ETH_MODE_SPEED) p)

/-- ETH_LINK_UP (R322). -/
def State.linkUp (s : State) (h e p : Nat) : State :=
  if s.portUp h e p || !s.portCarries h e p then s
  else
    let a := Reg.ETH_PSTAT h e p
    let s := ((s.setFld a Fl.ETH_PSTAT_LINK 1).setFld a Fl.ETH_PSTAT_LFAULT 0).setFld a Fl.ETH_PSTAT_RFAULT 0
    (s.setFld a Fl.ETH_PSTAT_FECLOCK (b2n (s.fecOn h e p))).post Ev.ETH_LINK_UP h e [(2, p)]

/-- ETH_MODE_WRITE (R321): refused while any port is enabled if it changes MODE, SPEED or FEC25. -/
def State.ethModeWrite (s : State) (h e : Nat) (v : Word) : State :=
  let a := Reg.ETH_MODE h e
  let w := s.written a v
  let differs := fun (f : Fld) => fieldOf w f != s.fld a f
  if s.fld a Fl.ETH_MODE_PORTEN ≠ 0 ∧
      (differs Fl.ETH_MODE_MODE || differs Fl.ETH_MODE_SPEED || differs Fl.ETH_MODE_FEC25) = true then
    s.post Ev.ETH_CFG_REFUSED h e [(16, 0x0000)]
  else (s.writeFields a v).linksCheck h e

/-- ETH_CL_ACT_WRITE: with EN set, NEXT becomes 0 and the gathered bytes go. -/
def State.ethClActWrite (s : State) (h e n : Nat) (v : Word) : State :=
  let s := s.writeFields (Reg.ETH_CL_ACT h e n) v
  if fieldOf v Fl.ETH_CL_ACT_EN = 1 then
    (s.setFld (Reg.ETH_CL_NEXT h e n) Fl.ETH_CL_NEXT_NEXT 0).modEth h e (fun y => { y with gather := Sparse.del y.gather n })
  else s

/-! ## Resets and power (R333, R418) -/

/-- Buffers, queues, gathering and the timestamp store cleared (R333). -/
def State.ethClear (s : State) (h e : Nat) : State :=
  s.modEth h e (fun y => { nextId := y.nextId, rdy := y.rdy, shown := y.shown, sent := y.sent })

/-- The engine holds no request and no frame still to be written or pushed (R418). -/
def ethIdle (x : Eth) : Bool := x.ops.isEmpty && x.outbox.isEmpty && x.rx.all (fun r => r.stream.isSome)

/-- The engines' domain goes OFF: frames waiting for the stream and descriptors are counted, everything is cleared (R418). -/
def State.ethOff (s : State) (h e : Nat) : State :=
  let x := s.eth h e
  let s := x.rx.foldl (fun s r => if r.stream.isSome then s.rxDrop h e r.port else s) s
  let s := (List.range 8).foldl (fun s q =>
    s.incFld (Reg.ETH_TXDROP h e (s.fld (Reg.ETH_TXQ h e q) Fl.ETH_TXQ_PORT)) Fl.ETH_TXDROP_COUNT (Sparse.get x.txq [] q).length) s
  (s.ethClear h e).linksCheck h e

/-! ## The stream landing (R322 table, R323, R324) -/

/-- Bytes as one 64-byte beat, the first byte in bits 7:0. -/
def beatOf (b : List Byte) : BitVec 512 := BitVec.ofNat 512 (natOfBytes b)

/-- The bytes that a received frame puts on the landing: the receive timestamp first, where there is one (R329). -/
def rxStreamBytes (f : EthStream) : List Byte :=
  (match f.ts with
    | some t => bytesOf 8 (BitVec.ofNat 64 t)
    | none => []) ++ f.bytes

/-- How many beats a frame takes. -/
def beatCount (n : Nat) : Nat := (n + 63) / 64

/-- Control bits 19:0, engine to design, of beat i of a frame: VALID, SOP, EOP, PORT, EMPTY, TS, HIT and ENTRY. -/
def rxBeatBits (f : EthStream) (i : Nat) : Nat :=
  let n := (rxStreamBytes f).length
  let sop := i == 0
  let eop := i + 1 == beatCount n
  packBits [(1, 1), (1, b2n sop), (1, b2n eop), (2, f.port), (6, if eop then 64 * beatCount n - n else 0), (1, b2n (sop && f.ts.isSome)),
    (1, b2n (sop && f.hit.isSome)), (7, if sop then f.hit.getD 0 else 0)]

/-- A beat of a received frame: its data and control bits 19:0. -/
def rxBeat (f : EthStream) (i : Nat) : BitVec 512 × Nat := (beatOf (((rxStreamBytes f).drop (64 * i)).take 64), rxBeatBits f i)

/-- TX_RDY: port p's transmit buffer has room for a frame of MAXLEN. -/
def State.txReady (s : State) (h e p : Nat) : Bool := decide (s.txUsed h e p + s.maxLen h e p ≤ 32768)

/-- The 32 control signals from engine e to the design, with bits 19:0 of the beat shown (0: none): TX_RDY, LINK and FCSOK above. -/
def State.rxControls (s : State) (h e beat : Nat) : Nat :=
  let bits := fun (f : Nat → Bool) => ((List.range 4).map (fun p => 2 ^ p * b2n (f p))).foldl (· + ·) 0
  packBits [(20, beat), (4, bits (s.txReady h e)), (4, bits (s.portUp h e)), (1, 1)]

/-- The operands of ETH_STREAM_FRAME that the valid beats of one frame spell, from their 32 control signals and data: port, bytes, TX_ERR
and TX_TSID. -/
def txFrame (beats : List (Nat × BitVec 512)) : Nat × List Byte × Bool × Option Nat :=
  let valid := beats.filter (fun x => bitOf x.1 0)
  let first := (valid.headD (0, 0)).1
  let last := (valid.getLastD (0, 0)).1
  let b := valid.flatMap (fun x => bytesOf 64 x.2)
  (bitsOf first 3 2, b.take (b.length - bitsOf last 5 6), bitOf last 11, if bitOf first 12 then some (bitsOf first 13 8) else none)

/-- RX_RDY, from the 32 control signals of the design. -/
def rxRdyBits (c : Nat) : Nat := bitsOf c 21 4

/-! ## Meanings: lanes -/

/-- LANE_ENABLE (R311). -/
def execLaneEnable (h : HallIx) (l : LaneIx) (v : Word) (s : State) : Out := .next (s.laneEnable h l v)
/-- LANE_DISABLE (R317). -/
def execLaneDisable (h : HallIx) (l : LaneIx) (s : State) : Out := .next ((s.laneDisable h l).laneCheck h l)
/-- LANE_QUIET (R317). -/
def execLaneQuiet (h : HallIx) (l : LaneIx) (b : Bool) (s : State) : Out := .next ((s.laneQuietWrite h l b).laneCheck h l)
/-- LANE_DORMANT (R318). -/
def execLaneDormant (h : HallIx) (l : LaneIx) (b : Bool) (s : State) : Out := .next ((s.laneDormantWrite h l b).laneCheck h l)
/-- QREQ (R317). -/
def execQreq (h : HallIx) (l : LaneIx) (b : Bool) (s : State) : Out := .next ((s.qreqChange h l b).laneCheck h l)
/-- LANE_PLL_LOCK (R317). -/
def execLanePllLock (h : HallIx) (l : LaneIx) (s : State) : Out := .next (s.lanePllLock h l)
/-- FOM_MEASURE (R316). -/
def execFomMeasure (h : HallIx) (l : LaneIx) (fom : Fin 256) (cdr : Bool) (under : Nat) (s : State) : Out :=
  .next (s.fomMeasure h l fom cdr under)
/-- LAND_PARITY (R51). -/
def execLandParity (h : HallIx) (n : Fin 192) (s : State) : Out := .next (s.landParity h n)

/-! ## Meanings: Ethernet -/

/-- ETH_MODE_WRITE (R321). -/
def execEthModeWrite (h : HallIx) (e : EngIx) (v : Word) (s : State) : Out :=
  .next (s.hostWrite (Reg.ETH_MODE h e) (·.ethModeWrite h e v))
/-- ETH_LINK_UP (R322). -/
def execEthLinkUp (h : HallIx) (e : EngIx) (p : Fin 4) (s : State) : Out := .next (s.linkUp h e p)
/-- ETH_LINK_DOWN (R322). -/
def execEthLinkDown (h : HallIx) (e : EngIx) (p : Fin 4) (cause : Fin 4) (s : State) : Out := .next (s.linkDown h e p cause)
/-- ETH_FRAME_RECEIVE (R325). -/
def execEthFrameReceive (h : HallIx) (e : EngIx) (p : Fin 4) (b : List Byte) (fcs : Bool) (cor unc : Nat) (s : State) : Out :=
  .next (s.ethReceive h e p b fcs cor unc)
/-- ETH_STREAM_FRAME (R323). -/
def execEthStreamFrame (h : HallIx) (e : EngIx) (j : Fin 2) (p : Fin 4) (b : List Byte) (err : Bool) (tsid : Option (Fin 256))
    (s : State) : Out := .next (s.ethStreamFrame h e j p b err (tsid.map (·.val)))
/-- ETH_TX_EOP_TIMEOUT (R323). -/
def execEthTxEopTimeout (h : HallIx) (e : EngIx) (p : Fin 4) (s : State) : Out := .next (s.ethEopTimeout h e p)
/-- ETH_FRAME_TRANSMIT (R332). -/
def execEthFrameTransmit (h : HallIx) (e : EngIx) (p : Fin 4) (s : State) : Out := .next (s.ethTransmit h e p)
/-- TXTS_READ (R330). -/
def execTxtsRead (h : HallIx) (e : EngIx) (s : State) : Out := .next (s.hostWrite (Reg.ETH_TXTS_2 h e) (·.txtsRead h e))
/-- ETH_CL_ACT_WRITE (R326). -/
def execEthClActWrite (h : HallIx) (e : EngIx) (n : Fin 128) (v : Word) (s : State) : Out :=
  .next (s.hostWrite (Reg.ETH_CL_ACT h e n) (·.ethClActWrite h e n v))
/-- RX_RDY_RISE (R324): the design's RX_RDY bits after the rise of bit p are given. -/
def execRxRdyRise (h : HallIx) (e : EngIx) (p : Fin 4) (rdy : Fin 16) (s : State) : Out :=
  .next ((s.rxRdySet h e rdy).rxRdy h e p)
/-- PAD_CFG_WRITE (R335). -/
def execPadCfgWrite (h : HallIx) (b : Fin 2) (n : Fin 48) (v : Word) (s : State) : Out := .next (s.padCfgWrite h b n v)
/-- PAD_SAFE_EXIT (R337). -/
def execPadSafeExit (h : HallIx) (b k : Fin 2) (s : State) : Out := .next (s.padSafeExit h b k)

end Sys2Proof.Machine
end

