-- ==== Sys2Proof/Machine/Clocks.lean ====
section
/-!
DEFINITION. Machine/Clocks.lean: PLL and clock-mode writes, clock loss and return, and the package time base (chapter 13).
-/
namespace Sys2Proof.Machine

/-! ## PLL settings (R12, R408 to R410) -/

/-- The frequency of output j of PLL i in units of 2^-24 × 100 MHz, before the divider. -/
def vcoOf (w : Word) : Nat := fieldOf w Fl.HCLK_PLL_N * 2 ^ 24 + fieldOf w Fl.HCLK_PLL_F

/-- A VCO word and divider give more than a limit in kHz. -/
def outOver (w : Word) (d limit : Nat) : Bool := decide (vcoOf w * 100000 > limit * 2 ^ 24 * d)

/-- The requested frequency in MHz. -/
def outMhz (w : Word) (d : Nat) : Nat := vcoOf w * 100 / (2 ^ 24 * max 1 d)

/-- Enabled pad word clocks take output j of PLL i. -/
def State.padSelects (s : State) (h i j : Nat) : Bool :=
  (List.range 4).any (fun c =>
    let a := Reg.HCLK_PAD h (c / 2) (c % 2)
    s.bit a Fl.HCLK_PAD_EN && s.fld a Fl.HCLK_PAD_SRC == 4 * i + j)

/-- Limit of output j of PLL i in kHz: the grade's, and 200 MHz where a pad word clock takes it (R12, R409). -/
def State.outLimit (s : State) (h i j : Nat) : Nat := if s.padSelects h i j then 200000 else fabricLimit s.part.grade

/-- A gallery clock branch or pad clock of the hall selects an output of PLL i (R409); with deep, a branch with DEEP set or a pad
clock (R413). -/
def State.pllUsed (s : State) (h i : Nat) (deep : Bool) : Bool :=
  (List.range 32).any (fun g => (List.range 8).any (fun n =>
    let G := 32 * h + g
    decide (s.branchSrc G n < 24) && s.branchSrc G n / 4 == i && (!deep || s.bit (Reg.GAL_CLKSEL G n) Fl.GAL_CLKSEL_DEEP)))
  || (List.range 4).any (fun c => s.padFrom h c i)

/-- Output j of PLL i would exceed the fabric limit under the PLL word w (R12). -/
def State.overOutput (s : State) (h i : Nat) (w : Word) : Option Nat :=
  (List.range 4).find? (fun j =>
    let o := Reg.HCLK_PLLOUT h i j
    s.bit o Fl.HCLK_PLLOUT_EN && outOver w (s.fld o Fl.HCLK_PLLOUT_D) (fabricLimit s.part.grade))

/-- PLL_LIMIT (R12, R409). -/
def State.pllLimit (s : State) (h i j mhz : Nat) : State := s.post Ev.PLL_LIMIT h 63 [(3, i), (2, j), (16, mhz)]

/-- PLL_CFG_REFUSED. -/
def State.pllRefused (s : State) (h off : Nat) : State := s.post Ev.PLL_CFG_REFUSED h 63 [(16, off)]

/-- A bit of HCLK_STAT's lock fields. -/
def State.setLock (s : State) (h : Nat) (f : Fld) (k : Nat) (b : Bool) : State := s.setFldBit (Reg.HCLK_STAT h) f k b

/-- N and F of a write lie outside the PLL's range (R408). -/
def pllRange (v : Word) : Bool :=
  let n := fieldOf v Fl.HCLK_PLL_N
  n < 20 || n > 40 || vcoOf v < 20 * 2 ^ 24 || vcoOf v > 40 * 2 ^ 24

/-- PLL_LIMIT for the first output of PLL i that word w would drive above its limit, if any (R12, R409). -/
def State.pllOver (s : State) (h i : Nat) (w : Word) : State :=
  match s.overOutput h i w with
  | some j => s.pllLimit h i j (outMhz w (s.fld (Reg.HCLK_PLLOUT h i j) Fl.HCLK_PLLOUT_D))
  | none => s

/-- HCLK_PLL_WRITE (R408, R409, R12): a change of N or F leaves the PLL to relock. A write that its range or a selected output bars, and
one that would exceed a limit, each raise their event; neither is applied. -/
def State.hclkPllWrite (s : State) (h i : Nat) (v : Word) : State :=
  let a := Reg.HCLK_PLL h i
  let w := s.written a v
  if i = 5 ∨ w = s.reg a then s
  else if pllRange v || s.pllUsed h i false then (s.pllOver h i w).pllRefused h (0x100 + 0x20 * i)
  else if (s.overOutput h i w).isSome then s.pllOver h i w
  else ((s.writeFields a v).setLock h Fl.HCLK_STAT_PLL_LOCK i false).hallClockCheck h

/-- HCLK_PLLOUT_WRITE (R409, R12); output 3 of PLL 5 is not written (R408). -/
def State.hclkPlloutWrite (s : State) (h i j : Nat) (v : Word) : State :=
  let a := Reg.HCLK_PLLOUT h i j
  let w := s.written a v
  let pll := s.reg (Reg.HCLK_PLL h i)
  let d := fieldOf w Fl.HCLK_PLLOUT_D
  if i = 5 ∧ j = 3 then s
  else if fieldOf w Fl.HCLK_PLLOUT_EN = 1 ∧ outOver pll d (s.outLimit h i j) = true then s.pllLimit h i j (outMhz pll d)
  else (s.writeFields a v).hallClockCheck h

/-- HCLK_PAD_WRITE (R409, R406): a word clock above 200 MHz is refused; an enabled pad PLL is left to lock. -/
def State.hclkPadWrite (s : State) (h b k : Nat) (v : Word) : State :=
  let a := Reg.HCLK_PAD h b k
  let w := s.written a v
  let src := fieldOf w Fl.HCLK_PAD_SRC
  let pll := s.reg (Reg.HCLK_PLL h (src / 4))
  let d := s.fld (Reg.HCLK_PLLOUT h (src / 4) (src % 4)) Fl.HCLK_PLLOUT_D
  if fieldOf w Fl.HCLK_PAD_EN = 1 ∧ outOver pll d 200000 = true then s.pllLimit h (src / 4) (src % 4) (outMhz pll d)
  else if w = s.reg a then s
  else ((s.writeFields a v).setLock h Fl.HCLK_STAT_PAD_LOCK (2 * b + k) false).hallClockCheck h

/-- HCLK_LREF_WRITE (R410). -/
def State.hclkLrefWrite (s : State) (h q : Nat) (v : Word) : State :=
  let a := Reg.HCLK_LREF h q
  if s.written a v = s.reg a then s
  else if (List.range 4).any (fun i => s.laneEn h (4 * q + i)) then s.pllRefused h (0x200 + 4 * q)
  else s.writeFields a v

/-! ## Clock modes and relocking (R413, R416) -/

/-- Fabric PLL i is stopped by DEEP. -/
def State.deepStopped (s : State) (h i : Nat) : Bool := bitOf (Sparse.get s.clk.deepOff 0 h) i

/-- Mark it so. -/
def State.setDeepOff (s : State) (h i : Nat) (b : Bool) : State :=
  { s with clk := { s.clk with deepOff := Sparse.set s.clk.deepOff 0 h (setBit (Sparse.get s.clk.deepOff 0 h) i b) } }

/-- CLOCK_MODE_CHANGE (R413): entering DEEP stops fabric PLLs 0 to 4 that feed no branch with DEEP set and no pad clock. -/
def State.clockMode (s : State) (h : Nat) (v : Word) : State :=
  let old := s.fld (Reg.HCLK_MODE h) Fl.HCLK_MODE_MODE
  let s := s.writeFields (Reg.HCLK_MODE h) v
  let new := s.fld (Reg.HCLK_MODE h) Fl.HCLK_MODE_MODE
  let s := if new = 2 ∧ old ≠ 2 then
      (List.range 5).foldl (fun s i =>
        if s.pllUsed h i true then s else (s.setDeepOff h i true).setLock h Fl.HCLK_STAT_PLL_LOCK i false) s
    else s
  s.hallClockCheck h

/-- A PLL of hall h is itself lost, or its reference is. -/
def State.pllLost (s : State) (h src : Nat) : Bool :=
  s.clk.lost.any (fun l => l.hall == 15 || (l.hall == h && l.src == src))

/-- PLL_RELOCK: fabric PLL x (0 to 5) or pad clock x − 6 locks and the branches it feeds start (R413, R416); in DEEP, a PLL that DEEP
stopped only once a branch with DEEP set or a pad clock takes an output of it. -/
def State.pllRelock (s : State) (h x : Nat) : State :=
  if !s.clk.pllOn then s
  else if x < 6 then
    if s.pllLost h (0x50 + x) || (s.deepStopped h x && s.fld (Reg.HCLK_MODE h) Fl.HCLK_MODE_MODE == 2 && !s.pllUsed h x true) then s
    else ((s.setDeepOff h x false).setLock h Fl.HCLK_STAT_PLL_LOCK x true).hallClockCheck h
  else
    let c := x - 6
    let a := Reg.HCLK_PAD h (c / 2) (c % 2)
    if !s.bit a Fl.HCLK_PAD_EN || s.domainLost h (60 + c) || !s.srcRuns h (s.fld a Fl.HCLK_PAD_SRC) then s
    else (s.setLock h Fl.HCLK_STAT_PAD_LOCK c true).hallClockCheck h

/-- The locks of hall h after its PLLs have locked (R406, R416): fabric PLLs not stopped or lost, engine PLLs, and pad PLLs that had
been enabled. -/
def State.locksUp (s : State) (h : Nat) : State :=
  let s := (List.range 6).foldl (fun s i =>
    if s.pllLost h (0x50 + i) || s.deepStopped h i then s else s.setLock h Fl.HCLK_STAT_PLL_LOCK i true) s
  let s := (List.range 4).foldl (fun s e => if s.pllLost h (56 + e) then s else s.setLock h Fl.HCLK_STAT_ETH_LOCK e true) s
  (List.range 4).foldl (fun s c =>
    let a := Reg.HCLK_PAD h (c / 2) (c % 2)
    if s.bit a Fl.HCLK_PAD_EN && !s.domainLost h (60 + c) then s.setLock h Fl.HCLK_STAT_PAD_LOCK c true else s) s

/-- Pad clock c of hall h locks, where it is enabled and its source is not lost. -/
def State.padLockUp (s : State) (h c : Nat) : State :=
  let a := Reg.HCLK_PAD h (c / 2) (c % 2)
  if s.bit a Fl.HCLK_PAD_EN && !s.domainLost h (60 + c) then s.setLock h Fl.HCLK_STAT_PAD_LOCK c true else s

/-- The locks that the return of one source brings (R416): a fabric PLL and the pad clocks taken from it, an engine PLL, or a pad
clock. -/
def State.locksBack (s : State) (h src : Nat) : State :=
  if 0x50 ≤ src then
    let i := src - 0x50
    if s.pllLost h src || s.deepStopped h i then s
    else (List.range 4).foldl (fun s c => if s.padFrom h c i then s.padLockUp h c else s) (s.setLock h Fl.HCLK_STAT_PLL_LOCK i true)
  else if 60 ≤ src ∧ src < 64 then s.padLockUp h (src - 60)
  else if 56 ≤ src ∧ src < 60 ∧ s.pllLost h src = false then s.setLock h Fl.HCLK_STAT_ETH_LOCK (src - 56) true
  else s

/-- Every PLL fed from REFCLK stopped and unlocked (R406). -/
def State.locksDown (s : State) : State :=
  let s := { s with clk := { s.clk with pllOn := false, deepOff := [], galOn := false } }
  (List.range 8).foldl (fun s h =>
    let a := Reg.HCLK_STAT h
    ((s.setFld a Fl.HCLK_STAT_PLL_LOCK 0).setFld a Fl.HCLK_STAT_ETH_LOCK 0).setFld a Fl.HCLK_STAT_PAD_LOCK 0) s

/-! ## Clock loss (R414, R415, R285) -/

/-- The controller of hall h places its stack in self-refresh on loss of its clock source (R285): posted blocks are written, queued
reads stay and are performed after the exit. -/
def State.hbmClockLost (s : State) (h : Nat) : State :=
  if !hasPort h then s
  else
    let s := s.srBegin h 5
    if s.hbmState h = 2 ∨ s.hbmState h = 4 then
      let s := (List.range 32).foldl (fun s pc => (s.modPc h pc (fun y => { y with mode := .read, wsr := 0 })).flushWrites h pc) s
      let s := s.stackEntered h
      s.setHbmState h 3
    else s

/-- The locks that a loss clears. -/
def State.lossLocks (s : State) (h : Nat) : State :=
  let a := Reg.HCLK_STAT h
  let clr := fun (s : State) (f : Fld) (k d : Nat) => if s.domainLost h d then s.setLock h f k false else s
  let s := (List.range 6).foldl (fun s i => clr s Fl.HCLK_STAT_PLL_LOCK i (4 * i)) s
  let s := (List.range 4).foldl (fun s e => clr s Fl.HCLK_STAT_ETH_LOCK e (56 + e)) s
  let s := (List.range 4).foldl (fun s c => clr s Fl.HCLK_STAT_PAD_LOCK c (60 + c)) s
  s.setFld a Fl.HCLK_STAT_LREF_OK (s.clk.lref / 2 ^ (4 * h))

/-- The safe states that hall h takes on a loss (R415). -/
def State.hallLoss (s : State) (h : Nat) : State :=
  let s := (s.lossLocks h).hallClockCheck h
  let s := (List.range 4).foldl (fun s c => if s.domainLost h (60 + c) then s.padSafe h (c / 2) (c % 2) else s) s
  let s := (List.range 16).foldl (fun s l => if s.laneSource h l then s else s.laneClockLost h l) s
  (List.range 4).foldl (fun s e => s.linksCheck h e) s

/-- The source of a loss is already lost with another (R414); a lane's receive clock is lost with its transmit clock, since the lane goes
to electrical idle. -/
def State.covered (s : State) (h src : Nat) : Bool :=
  if h = 15 then s.clk.lost.any (fun l => l.hall == 15)
  else s.clk.lost.any (fun l => l.hall == h && l.src == src) ||
    (if 0x50 ≤ src then s.domainLost h (4 * (src - 0x50))
    else if 0x40 ≤ src then false
    else if 40 ≤ src && src < 56 then s.domainLost h (src - 16)
    else s.domainLost h src)

/-- Frames in progress at an engine whose clock is lost (R415): port, and whether it was being received. -/
def State.framesLost (s : State) (l : List (Nat × Nat × Nat × Bool)) : State :=
  l.foldl (fun s x =>
    if s.domainLost x.1 (56 + x.2.1) then
      if x.2.2.2 then s.rxDrop x.1 x.2.1 x.2.2.1 else s.txDrop x.1 x.2.1 x.2.2.1
    else s) s

/-- CLK_LOSS (R414): hall 15 and source 0xFF is REFCLK. -/
def State.clkLoss (s : State) (h src : Nat) (frames : List (Nat × Nat × Nat × Bool)) : State :=
  if s.covered h src then s
  else
    let s := (s.addLost h src).post Ev.CLK_LOSS h 63 [(8, src)]
    if h = 15 then
      let s := { s with clk := { s.clk with ref := false } }
      let s := (s.setFld Reg.CLK_STAT Fl.CLK_STAT_TB_HELD 1).setFld Reg.CLK_STAT Fl.CLK_STAT_REF_OK 0
      let s := (List.range 8).foldl (fun s i => (s.hallLoss i).hbmClockLost i) s
      s.framesLost frames
    else
      let s := if 0x40 ≤ src ∧ src < 0x44 then
          { s with clk := { s.clk with lref := setBit s.clk.lref (4 * h + (src - 0x40)) false } }
        else s
      let s := if 40 ≤ src ∧ src < 56 then s.lockLost h (src - 40) 1 else s
      (s.hallLoss h).framesLost frames

/-- What follows the return of a source (R416): the PLLs it feeds have relocked. -/
def State.clkBack (s : State) (h src : Nat) : State :=
  if h = 15 then
    let s := { s with clk := { s.clk with ref := true } }
    let s := (s.setFld Reg.CLK_STAT Fl.CLK_STAT_TB_HELD 0).setFld Reg.CLK_STAT Fl.CLK_STAT_REF_OK 1
    (List.range 8).foldl (fun s i => (((if s.clk.pllOn then s.locksUp i else s).hallClockCheck i).srEnd i 5)) s
  else
    let s := if 0x40 ≤ src ∧ src < 0x44 then
        let s := { s with clk := { s.clk with lref := setBit s.clk.lref (4 * h + (src - 0x40)) true } }
        s.setFld (Reg.HCLK_STAT h) Fl.HCLK_STAT_LREF_OK (s.clk.lref / 2 ^ (4 * h))
      else s
    let s := if s.clk.pllOn then s.locksBack h src else s
    s.hallClockCheck h

/-- A reference input that was absent at power-on, with no loss reported. -/
def State.neverThere (s : State) (h src : Nat) : Bool :=
  if h = 15 then !s.clk.ref else decide (0x40 ≤ src) && decide (src < 0x44) && !bitOf s.clk.lref (4 * h + (src - 0x40))

/-- CLK_RESTORED (R416): the source counts as returned; a return with no reported loss raises no event. -/
def State.clkRestored (s : State) (h src : Nat) : State :=
  match s.clk.lost.find? (fun l => l.hall == h && l.src == src) with
  | none => if s.neverThere h src then s.clkBack h src else s
  | some l =>
    let s := { s with clk := { s.clk with lost := s.clk.lost.filter (fun x => !(x.hall == h && x.src == src)) } }
    (s.post Ev.CLK_RESTORED h 63 [(8, src), (32, (s.now - l.since) / 1000)]).clkBack h src

/-- CLOCK_BORDER_RELEASE (R416): every clock of the active plane has run for 64 cycles of the slowest. -/
def State.clockBorder (s : State) (G : Nat) : State :=
  if (s.gal G).bClk && !s.usesLost G &&
      (List.range 8).all (fun n => !bitOf (s.usedBranches G) n || s.branchRuns G n || !s.branchEnabled G n) then
    ((s.modGal G (fun g => { g with bClk := false })).captureResumes G).branchesUpdate G
  else s

/-! ## The package time base (R411, R412) -/

/-- The time base advances by 1 ns of REFCLK time, unless held. -/
def State.tbTick (s : State) : State :=
  if s.bit Reg.CLK_STAT Fl.CLK_STAT_TB_HELD then s
  else
    let f := signedOf 32 (s.reg Reg.CLK_TB_FREQ).toNat
    let a := s.clk.acc + 16 * f
    let k := a / 1000000000
    { s with clk := { s.clk with tb := s.clk.tb + BitVec.ofInt 64 (65536 + k), acc := a - k * 1000000000 } }

/-- What an idle nanosecond does: simulated time and the package time base advance (log 2). -/
def State.tick (s : State) : State := { s.tbTick with now := s.now + 1 }

/-- TB_FREQ_WRITE: beyond ±200 ppm it is not applied. -/
def State.tbFreqWrite (s : State) (v : Word) : State :=
  let f := v.toInt
  if f > 819200000 ∨ f < -819200000 then s.postPkg Ev.TB_FREQ_REFUSED [(32, v.toNat)]
  else s.setReg Reg.CLK_TB_FREQ v

/-- TB_STEP: a signed step in ns. -/
def State.tbStep (s : State) (v : Word) : State :=
  let s := { s with clk := { s.clk with tb := s.clk.tb + BitVec.ofInt 64 (v.toInt * 65536) } }
  s.postPkg Ev.TB_STEPPED [(32, v.toNat)]

/-- TB_SET: a write of CLK_TB_SET_HI loads the time and clears the fraction. -/
def State.tbSet (s : State) (v : Word) : State :=
  let t := (fieldOf v Fl.CLK_TB_SET_HI_VALUE * 2 ^ 32 + (s.reg Reg.CLK_TB_SET_LO).toNat) * 65536
  let s := { s with clk := { s.clk with tb := BitVec.ofNat 64 t, acc := 0 } }
  s.postPkg Ev.TB_STEPPED [(32, 0)]

/-! ## Meanings -/

/-- A clock source of R414 as an operand: the hall, and what of it; or REFCLK. -/
def srcCode : ClkSrc → Nat × Nat
  | .ref => (15, 0xFF)
  | .lref h q => (h, 0x40 + q)
  | .pll h i => (h, 0x50 + i)
  | .domain h d => (h, 24 + d)

/-- CLK_LOSS (R414). -/
def execClkLoss (c : ClkSrc) (frames : List (HallIx × EngIx × Fin 4 × Bool)) (s : State) : Out :=
  .next (s.clkLoss (srcCode c).1 (srcCode c).2 (frames.map (fun x => (x.1.val, x.2.1.val, x.2.2.1.val, x.2.2.2))))
/-- CLK_RESTORED (R416). -/
def execClkRestored (c : ClkSrc) (s : State) : Out := .next (s.clkRestored (srcCode c).1 (srcCode c).2)
/-- HCLK_PLL_WRITE (R408). -/
def execHclkPllWrite (h : HallIx) (i : Fin 6) (v : Word) (s : State) : Out := .next (s.hclkPllWrite h i v)
/-- HCLK_PLLOUT_WRITE (R409). -/
def execHclkPlloutWrite (h : HallIx) (i : Fin 6) (j : Fin 4) (v : Word) (s : State) : Out := .next (s.hclkPlloutWrite h i j v)
/-- HCLK_PAD_WRITE (R409). -/
def execHclkPadWrite (h : HallIx) (b k : Fin 2) (v : Word) (s : State) : Out := .next (s.hclkPadWrite h b k v)
/-- HCLK_LREF_WRITE (R410). -/
def execHclkLrefWrite (h : HallIx) (q : Fin 4) (v : Word) (s : State) : Out := .next (s.hclkLrefWrite h q v)
/-- CLOCK_MODE_CHANGE (R413). -/
def execClockModeChange (h : HallIx) (v : Word) (s : State) : Out := .next (s.clockMode h v)
/-- TB_FREQ_WRITE (R411). -/
def execTbFreqWrite (v : Word) (s : State) : Out := .next (s.tbFreqWrite v)
/-- TB_STEP (R411). -/
def execTbStep (v : Word) (s : State) : Out := .next (s.tbStep v)
/-- TB_SET (R411). -/
def execTbSet (v : Word) (s : State) : Out := .next (s.tbSet v)
/-- PLL_RELOCK (R413). -/
def execPllRelock (h : HallIx) (x : Fin 10) (s : State) : Out := .next (s.pllRelock h x)
/-- CLOCK_BORDER_RELEASE (R416). -/
def execClockBorderRelease (G : GalIx) (s : State) : Out := .next (s.clockBorder G)

end Sys2Proof.Machine
end

