-- ==== Sys2Proof/Machine/Power.lean ====
section
/-!
DEFINITION. Machine/Power.lean: power domains, PWR_CMD, wakes of domains, and the power ledger (chapter 13, R258 to R261,
R417 to R423).
-/
namespace Sys2Proof.Machine

/-! ## The ledger (R420 to R423) -/

/-- The hall temperature H_h, in units of 0.25 °C (R427). -/
def State.hallTemp (s : State) (h : Nat) : Int := signedOf 10 (s.fld (Reg.THERM_HALL h) Fl.THERM_HALL_H)

/-- The cost in mW of a request of kind k in hall h (R421). -/
def State.admCost (s : State) (k h : Nat) : Nat :=
  let a := Reg.PWR_COST k
  let c25 : Int := 10 * s.fld a Fl.PWR_COST_COST25
  let c100 : Int := 10 * s.fld a Fl.PWR_COST_COST100
  let t := max 100 (min 400 (s.hallTemp h))
  (c25 + ((c100 - c25) * (t - 100)).tdiv 300).toNat

/-- PWR_HUSED_h: the base of the hall and the costs held in it (R422). -/
def State.hallUsed (s : State) (h : Nat) : Nat :=
  s.fld (Reg.PWR_HBASE h) Fl.PWR_HBASE_BASE + ((s.adm.held.filter (fun x => x.hall == h)).map (·.cost)).foldl (· + ·) 0

/-- PWR_USED (R422). -/
def State.pkgUsed (s : State) : Nat := ((List.range 8).map (fun h => s.hallUsed h)).foldl (· + ·) 0

/-- A stack in throttle holds back kinds 8 and 9 in its hall (R430). -/
def State.stackThrottled (s : State) (h : Nat) : Bool :=
  hasPort h && s.bit (Reg.THERM_HBM (stackOfHall h)) Fl.THERM_HBM_THROTTLE

/-- Kind k is held back in hall h (R428, R430). -/
def State.admDenied (s : State) (k h : Nat) : Bool :=
  let a := Reg.THERM_HALL h
  (s.bit a Fl.THERM_HALL_THROTTLE
      && bitOf (s.fld (Reg.THERM_CURVE (s.fld a Fl.THERM_HALL_STEP)) Fl.THERM_CURVE_DENY) k)
    || (s.stackThrottled h && (k == 8 || k == 9))

/-- Whether anything is admitted (R352, R422): after release, and a self-test also in safe hold and in STOPPED (R449). -/
def State.admOpen (s : State) (k : Nat) : Bool :=
  let st := s.fld Reg.BOOT_STAT Fl.BOOT_STAT_STATE
  !s.stop.cut && (st == 6 || (k == 10 && (st == 7 || st == 9)))

/-- The first waiting request that the evaluation of R422 grants, with its cost. `blocked` holds the halls of older requests that
wait; `pkg` is pkg_blocked. -/
def State.firstGrant (s : State) (blocked : List Nat) (pkg : Bool) : List AdmReq → Option (AdmReq × Nat)
  | [] => none
  | r :: rs =>
    let c := s.admCost r.kind r.hall
    let hallOk := decide (s.hallUsed r.hall + c ≤ s.fld (Reg.PWR_HCAP r.hall) Fl.PWR_HCAP_CAP) && !s.admDenied r.kind r.hall
      && !blocked.contains r.hall && s.admOpen r.kind
    let pkgOk := !pkg && decide (s.pkgUsed + c ≤ s.fld Reg.PWR_BUDGET Fl.PWR_BUDGET_BUDGET)
    if hallOk && pkgOk then some (r, c) else s.firstGrant (r.hall :: blocked) (pkg || hallOk) rs

/-- Requests that are to ask again join the queue while it has room and no stop runs (R420). -/
def State.askAgain (s : State) : State :=
  let l := s.adm.again
  if s.stopping || s.stop.cut then s
  else l.foldl (fun s (x : Nat × Nat × AdmFor) =>
    if s.adm.queue.length ≥ 64 then { s with adm := { s.adm with again := s.adm.again ++ [x] } }
    else s.admRequest x.1 x.2.1 x.2.2) { s with adm := { s.adm with again := [] } }

/-- PWR_LEDGER_WRITE: a write of PWR_BUDGET (hall none) or PWR_HCAP_h (R423). The evaluation that follows is the command
ADMISSION_GRANT. -/
def State.ledgerWrite (s : State) (hall : Option Nat) (v : Word) : State :=
  match hall with
  | none => if fieldOf v Fl.PWR_BUDGET_BUDGET > 700000 then s else s.writeFields Reg.PWR_BUDGET v
  | some h =>
    if fieldOf v Fl.PWR_HCAP_CAP > s.fld Reg.PWR_BUDGET Fl.PWR_BUDGET_BUDGET then s else s.writeFields (Reg.PWR_HCAP h) v

/-! ## Powering up (R258, R417, R419) -/

/-- The admission kind of a power-up of domain d from state prev (R420). -/
def powerKind (d prev : Nat) : Nat :=
  if d < 32 then 0 else if d < 64 then (if prev = 0 then 1 else 2) else if d = 64 then 3 else if d < 69 then 4
  else if d = 69 then 5 else if d = 70 then 6 else 7

/-- The states a domain has besides ON (R417): OFF, and RETENTION. -/
def domHas (d target : Nat) : Bool :=
  if target = 2 then true else if target = 1 then decide (32 ≤ d) && decide (d ≤ 64) else d != 64

/-- Domain d waits for admission (R417, R420). -/
def State.waitPower (s : State) (h d : Nat) (byCmd : Bool) : State :=
  let prev := s.domState h d
  let s := (s.setDom h d 3).setChange h d ⟨2, prev, byCmd, false, false⟩
  s.admRequest (powerKind d prev) h (.power h d (!byCmd))

/-- A power-up of domain d begins (R419: a gallery-logic domain brings the mirror domain ON first). -/
def State.startUp (s : State) (h d : Nat) (byCmd : Bool) : State :=
  if decide (d < 32) && s.domState h 64 != 2 then
    let prev := s.domState h d
    let s := (s.setDom h d 3).setChange h d ⟨2, prev, byCmd, false, true⟩
    let m := s.domState h 64
    if m = 1 then s.waitPower h 64 byCmd
    else if m = 5 then match s.domChange h 64 with
      | some c => s.setChange h 64 { c with wakeAfter := true }
      | none => s
    else s
  else s.waitPower h d byCmd

/-- A packet waits for domain d (R258, R259): a power-up begins, or follows the power-down under way. -/
def State.wakeUp (s : State) (h d : Nat) : State :=
  let st := s.domState h d
  if st = 0 ∨ st = 1 then s.startUp h d false
  else if st = 5 then match s.domChange h d with
    | some c => s.setChange h d { c with wakeAfter := true }
    | none => s
  else s

/-- The router withdraws a wake's power-up request (R260). -/
def State.withdrawWake (s : State) (h d : Nat) : State :=
  match s.domChange h d with
  | none => s
  | some c =>
    if s.domState h d = 5 then s.setChange h d { c with wakeAfter := false }
    else if s.domState h d = 3 ∧ c.byCmd = false then
      let s := (s.admWithdraw (.power h d true)).domBack h d
      if c.waitMirror ∧ (s.mirrorWaiters h true ++ s.mirrorWaiters h false).isEmpty = true ∧ s.slotHeld h 64 = false
          ∧ s.domState h 64 = 3 ∧ ((s.domChange h 64).any (fun m => !m.byCmd)) = true then
        (s.admWithdraw (.power h 64 true)).domBack h 64
      else s
    else s

/-- The grant of a domain's power-up (R417). -/
def State.powerGranted (s : State) (h d : Nat) : State := if s.domState h d = 3 then s.setDom h d 4 else s

/-- Packets held for domain d leave their slots, by mesh and virtual channel, and stand before their target (R258 step 4). -/
def State.deliverSlots (s : State) (h d : Nat) : State :=
  (List.range 8).foldl (fun s i =>
    let k := (h * 72 + d) * 8 + i
    match Sparse.find s.slots k with
    | some x =>
      ({ s with slots := Sparse.del s.slots k, net := s.net ++ [x.p] } : State).incFld (Reg.OMI_WAKE_STAT h) Fl.OMI_WAKE_STAT_WAKES 1
    | none => s) s

/-- What follows when domain d reaches ON. -/
def State.domainOn (s : State) (h d : Nat) : State :=
  if d < 32 then (s.addServersIf h d).branchesUpdate (32 * h + d)
  else if d < 64 then s
  else if d = 64 then
    (List.range 32).foldl (fun s g =>
      match s.domChange h g with
      | some c =>
        if c.waitMirror then
          (s.setChange h g { c with waitMirror := false }).admRequest 0 h (.power h g (!c.byCmd))
        else s
      | none => s) s
  else if d < 69 then (List.range 4).foldl (fun s i => s.laneOn h (4 * (d - 65) + i)) s
  else if d = 69 then s
  else if d = 70 then s.gwkRestart h
  else s.srEnd h 4

/-- DOMAIN_POWER_UP_DONE (R417, R258). -/
def State.powerUpDone (s : State) (h d : Nat) : State :=
  if s.domState h d ≠ 4 then s
  else
    let c := ((s.domChange h d).map (·.byCmd)).getD false
    let s := ((s.setDom h d 2).endChange h d).domainOn h d
    let s := s.deliverSlots h d
    if c && (s.pwrCmd.any (fun x => x.hall == h && x.dom == d)) then s.pwrResult 0 else s

/-! ## Powering down (R418) -/

/-- Prism requests already accepted are performed, and rows under the transparent test are restored (R180). -/
def State.memQuiesce (s : State) (G : Nat) : State :=
  let s := (List.range 4).foldl (fun s k =>
    (s.prismQ G k).foldl (fun s r =>
      if r.done.isNone then
        let x := if s.bankClockRuns G r.bank then s.prismPerform G r {} else (s, (6, 0))
        x.1.setPrismQ G k (markDone x.2 (x.1.prismQ G k))
      else s) s) s
  (s.gal G).memtest.foldl (fun s e =>
    s.testRestored G e.1 e.2) s

/-- Queue controllers of a gallery are disabled (R179): EN, pointers and flags clear. -/
def State.queuesOff (s : State) (G : Nat) : State :=
  let s := (List.range 32).foldl (fun s b =>
    if s.qOn G b then
      ((s.setFld (Reg.GAL_Q_CFG G b) Fl.GAL_Q_CFG_EN 0).qDiscard G b).clrReg (Reg.GAL_Q_STAT G b)
    else s) s
  s.modGal G (fun g => { g with q := [] })

/-- The contents of a gallery's memory are lost (R178, R194): the transparent test starts again at row 0. -/
def State.memLost (s : State) (G : Nat) : State :=
  let s := (s.loseMem (memBase G) (memBase G + 0x1000000)).queuesOff G
  s.modGal G (fun g => { g with testRow := [], memtest := [], wb := [] })

/-- A gallery-logic domain is OFF (R117, R119, R418): planes EMPTY, a load in progress ends unreported, everything of the fabric is
lost; the mirror slots and the memory layer's units stand. -/
def State.galleryOff (s : State) (G : Nat) : State :=
  let s := (List.range 4).foldl (fun s p => s.emptyPlane G p) s
  let s := (s.setFld (Reg.GAL_CTX_STAT G) Fl.GAL_CTX_STAT_NONE 1).setFld (Reg.GAL_CTX_STAT G) Fl.GAL_CTX_STAT_PENDING 0
  let s := (s.setFld (Reg.GAL_RSTSTAT G) Fl.GAL_RSTSTAT_ACTIVE 0).setFld (Reg.GAL_RSTSTAT G) Fl.GAL_RSTSTAT_PENDING 0
  let s := s.modGal G (fun g =>
    { slots := g.slots, loadQ := if g.loadBusy then g.loadQ.tail else g.loadQ, memtest := g.memtest, testRow := g.testRow,
      testPass := g.testPass, testAt := g.testAt, faults := g.faults, psmStall := g.psmStall, wb := g.wb, psmQ := g.psmQ, psmLast := g.psmLast, repair := g.repair, q := g.q, copy := g.copy,
      prism := g.prism.map (fun x => (x.1, x.2.map (fun r => { r with dropped := 2 }))) })
  s.branchesUpdate G

/-- No slot copy, import, library section or slot reload of hall h waits or runs (R418). -/
def State.mirrorIdle (s : State) (h : Nat) : Bool :=
  (List.range 32).all (fun g => ((s.gal (32 * h + g)).copy).isNone)
    && !(s.boot.imp.any (fun i => i.hall == h))
    && s.boot.reload.all (fun k => k / 1024 != h)
    && !(s.boot.lib && s.boot.libAsked
          && s.boot.img.places.any (fun r => r.sect == s.boot.next && r.G / 32 == h))

/-- The precondition of a power-down (R418). -/
def State.downReady (s : State) (h d : Nat) : Bool :=
  if d < 64 then true
  else if d = 64 then (List.range 32).all (fun g => s.domState h g == 0) && s.mirrorIdle h
  else if d < 69 then (List.range 4).all (fun i => !s.laneEn h (4 * (d - 65) + i))
  else if d = 69 then (List.range 4).all (fun e => s.fld (Reg.ETH_MODE h e) Fl.ETH_MODE_PORTEN == 0)
  else if d = 70 then
    !s.bit (Reg.GWK_CTRL h) Fl.GWK_CTRL_DISPATCH_EN && s.gwkItems h == 0 && (List.range 32).all (fun g => !s.hasServers h g)
  else true

/-- Release every cost held for the power of domain d (R420). -/
def State.releasePower (s : State) (h d : Nat) : State :=
  { s with adm := { s.adm with held := s.adm.held.filter (fun x =>
      !(decide (x.who = .power h d true) || decide (x.who = .power h d false))) } }

/-- The power-down begins (R418): the domain leaves its state for POWERING_DOWN, and the cost of its power is released (R420). -/
def State.beginDown (s : State) (h d target : Nat) : State :=
  let prev := s.domState h d
  let s := if 32 ≤ d ∧ d < 64 ∧ prev = 2 then s.memQuiesce (32 * h + (d - 32)) else s
  let s := ((s.setDom h d 5).setChange h d ⟨target, prev, true, false, false⟩).releasePower h d
  if d < 32 then s.branchesUpdate (32 * h + d)
  else if 65 ≤ d ∧ d < 69 then (List.range 4).foldl (fun s i => s.laneOff h (4 * (d - 65) + i)) s
  else if d = 71 then s.srBegin h 4
  else s

/-- The engines of hall h hold nothing that the power-down waits for. -/
def State.ethsIdle (s : State) (h : Nat) : Bool := (List.range 4).all (fun e => ethIdle (s.eth h e))

/-- A power-down that waited goes on: for Gweak's removal of the gallery's servers, or for the engines to drain (R418). -/
def State.pwrGoOn (s : State) : State :=
  match s.pwrCmd with
  | some x =>
    if x.waitSrv && !s.hasServers x.hall x.dom && s.domState x.hall x.dom == 2 then
      ({ s with pwrCmd := some { x with waitSrv := false } } : State).beginDown x.hall x.dom x.target
    else if x.waitDrain && s.ethsIdle x.hall && s.domState x.hall x.dom == 2 then
      ({ s with pwrCmd := some { x with waitDrain := false } } : State).beginDown x.hall x.dom x.target
    else s
  | none => s

/-- A power command to OFF or RETENTION whose checks have passed. -/
def State.commandDown (s : State) (h d target : Nat) : State :=
  if decide (d < 32) && s.hasServers h d then
    ({ s with pwrCmd := some ⟨h, d, target, true, false⟩ } : State).removeServers h d false
  else if d = 69 then ({ s with pwrCmd := some ⟨h, d, target, false, true⟩ } : State).pwrGoOn
  else ({ s with pwrCmd := some ⟨h, d, target, false, false⟩ } : State).beginDown h d target

/-- PWR_CMD_REFUSED with a RESULT (R418). -/
def State.pwrRefuse (s : State) (h d r : Nat) : State :=
  (s.pwrResult r).post Ev.PWR_CMD_REFUSED h 63 [(7, d), (3, r)]

/-- A power command (R418): domain d of hall h to state target. -/
def State.pwrCommand (s : State) (h d target : Nat) : State :=
  if s.bit Reg.PWR_CMD_STAT Fl.PWR_CMD_STAT_BUSY then s
  else
    let st := s.domState h d
    if s.stopping then s.pwrRefuse h d 4
    else if st = 6 ∨ domHas d target = false ∨ st = 3 ∨ st = 4 ∨ st = 5 then s.pwrRefuse h d 1
    else if st = target then s.pwrResult 0
    else if target = 2 then
      ({ s with pwrCmd := some ⟨h, d, 2, false, false⟩ }.setFld Reg.PWR_CMD_STAT Fl.PWR_CMD_STAT_BUSY 1).startUp h d true
    else if st = 0 then s.pwrRefuse h d 1
    else if !s.downReady h d then s.pwrRefuse h d 2
    else (s.setFld Reg.PWR_CMD_STAT Fl.PWR_CMD_STAT_BUSY 1).commandDown h d target

/-- The target state of an OP of PWR_CMD. -/
def opTarget (op : Nat) : Nat := if op = 1 then 2 else if op = 2 then 0 else 1

/-- A write of PWR_CMD (R418). -/
def State.pwrCmdWrite (s : State) (v : Word) : State :=
  let op := fieldOf v Fl.PWR_CMD_OP
  if fieldOf v Fl.PWR_CMD_GO = 0 ∨ op = 0 then s
  else s.pwrCommand (fieldOf v Fl.PWR_CMD_HALL) (fieldOf v Fl.PWR_CMD_DOM) (opTarget op)

/-- What a domain loses when it reaches OFF or RETENTION (R418). -/
def State.domainDown (s : State) (h d target : Nat) : State :=
  if d < 32 then s.galleryOff (32 * h + d)
  else if d < 64 then (if target = 0 then s.memLost (32 * h + (d - 32)) else s)
  else if d = 69 then (List.range 4).foldl (fun s e => s.ethOff h e) s
  else s

/-- DOMAIN_POWER_DOWN_DONE (R418, R259). The memory port's domain follows its stack's entry (R417). -/
def State.powerDownDone (s : State) (h d : Nat) : State :=
  match s.domChange h d with
  | none => s
  | some c =>
    if s.domState h d ≠ 5 ∨ (d = 71 ∧ (s.hbmState h = 1 ∨ s.hbmState h = 2 ∨ s.hbmState h = 4)) then s
    else
      let s := ((s.setDom h d c.target).endChange h d).domainDown h d c.target
      let s := if c.byCmd && (s.pwrCmd.any (fun x => x.hall == h && x.dom == d)) then s.pwrResult 0 else s
      if c.wakeAfter || s.slotHeld h d then s.startUp h d false else s

/-- A domain is powered off at once, without admission (R432), or ON again (R417): its change ends. -/
def State.forceDom (s : State) (h d st : Nat) : State :=
  if s.domState h d = 6 then s else (s.setDom h d st).endChange h d

/-! ## Meanings -/

/-- PWR_CMD_ON (R418). -/
def execPwrCmdOn (h : HallIx) (d : Fin 128) (s : State) : Out := .next (s.pwrCommand h d 2)
/-- PWR_CMD_OFF (R418). -/
def execPwrCmdOff (h : HallIx) (d : Fin 128) (s : State) : Out := .next (s.pwrCommand h d 0)
/-- PWR_CMD_RETENTION (R418). -/
def execPwrCmdRetention (h : HallIx) (d : Fin 128) (s : State) : Out := .next (s.pwrCommand h d 1)
/-- DOMAIN_POWER_UP_DONE (R417). -/
def execDomainPowerUpDone (h : HallIx) (d : Fin 72) (s : State) : Out := .next (s.powerUpDone h d)
/-- DOMAIN_POWER_DOWN_DONE (R418). -/
def execDomainPowerDownDone (h : HallIx) (d : Fin 72) (s : State) : Out := .next (s.powerDownDone h d)
/-- PWR_LEDGER_WRITE (R423). -/
def execPwrLedgerWrite (hall : Option HallIx) (v : Word) (s : State) : Out := .next (s.ledgerWrite (hall.map (·.val)) v)
/-- SRV_REMOVED (R224): a power-down that waited for it goes on. -/
def execSrvRemoved (h : HallIx) (g : Fin 32) (s : State) : Out := .next (s.serversRemoved h g).pwrGoOn

end Sys2Proof.Machine
end

