-- ==== Sys2Proof/Machine/Security.lean ====
section
/-!
DEFINITION. Machine/Security.lean: safe hold, and the security engine: life cycle, keys, anti-rollback, measurements, the vault,
tamper, attestation, the random generator and JTAG (chapter 12).
-/
namespace Sys2Proof.Machine

/-! ## Stopping the fabric, and safe hold (R355) -/

/-- Every gallery presents its borders and its clocks stop; pads and lanes no longer drive (R355, R360 step 2, R434 step 3). -/
def State.fabricStop (s : State) : State :=
  let s : State := { s with clk := { s.clk with galOn := false, ioOn := false } }
  (List.range 256).foldl (fun s G => ((s.holdBorders G).modGal G (fun g => { g with bBoot := true })).branchesUpdate G) s

/-- No gallery has an active plane (R355); an active plane stays resident as READY. -/
def State.noActive (s : State) : State :=
  (List.range 256).foldl (fun s G =>
    match s.activePlane G with
    | some p => ((s.setPlaneState G p 2).setFld (Reg.GAL_CTX_STAT G) Fl.GAL_CTX_STAT_NONE 1).reportPlane G p 0 false
    | none => s) s

/-- The slot copy of gallery G is ended by something else, and SLOT_COPY_DONE is raised (R157): one that waits for admission with its
timeout outcome; the slot that a running one was writing becomes EMPTY, with a RESULT that the manual does not give, a free value. -/
def State.copyEnds (s : State) (G : Nat) : State :=
  match (s.gal G).copy with
  | some c =>
    let result := if c.running then (Config.freeWord s.free).toNat % 8 else 6
    let s := if c.running then s.draw.emptySlot G c.dst else s
    let s := s.modGal G (fun g => { g with copy := none })
    ((s.admWithdraw (.copy G)).admRelease 11 (.copy G)).slotDone G c.dst result
  | none => s

/-- An import under way is ended by something else (R365): the slot that it was writing becomes EMPTY, and IMPORT_REFUSED is raised with
a RESULT of refusal that the manual does not give, a free value (DESIGN CHOICE, log 46). -/
def State.importSlot (s : State) : State :=
  match s.boot.imp with
  | some i =>
    let result := 1 + (Config.freeWord s.free).toNat % 10
    let s := if i.granted then s.draw.emptySlot (32 * i.hall + i.g) i.slot else s.draw
    (s.setFld Reg.BOOT_IMP_STAT Fl.BOOT_IMP_STAT_RESULT result).post Ev.IMPORT_REFUSED i.hall i.g [(5, i.slot), (4, result)]
  | none => s

/-- No import and no library section is in progress. -/
def State.noLoads (s : State) : State := { s with boot := { s.boot with imp := none, lib := false, libOk := false, libAsked := false } }

/-- Slot copies and imports end (R434 step 1, R360 step 2); the slots they were writing become EMPTY. -/
def State.loadsEnd (s : State) : State :=
  let s := (((List.range 256).foldl State.copyEnds s).importSlot).noLoads
  let s := (s.admWithdraw .import_).admWithdraw .library
  let s := (s.admRelease 11 .import_).admRelease 11 .library
  ((s.setFld Reg.BOOT_IMP_STAT Fl.BOOT_IMP_STAT_BUSY 0).setFld Reg.BOOT_STAT Fl.BOOT_STAT_LIB 0).setFld Reg.BOOT_LIB
    Fl.BOOT_LIB_RUNNING 0

/-- Set BOOT_STAT.STATE. -/
def State.setBoot (s : State) (st : Nat) : State := s.setFld Reg.BOOT_STAT Fl.BOOT_STAT_STATE st

/-- The start is over, and no image runs. -/
def State.startOver (s : State) : State := { s with boot := { s.boot with phase := .done, runs := false } }

/-- The device enters safe hold (R355). -/
def State.safeHold (s : State) (selftest : Bool) : State :=
  let s := ((s.fabricStop.noActive.loadsEnd).setBoot 7).startOver
  s.postPkg Ev.SAFE_HOLD [(4, s.fld Reg.BOOT_STAT Fl.BOOT_STAT_PCAUSE), (4, s.fld Reg.BOOT_STAT Fl.BOOT_STAT_GCAUSE), (1, b2n selftest)]

/-- DONE is high (R356, R357, R360, R434): the part is released and runs, or an orderly stop runs. -/
def State.donePin (s : State) : Bool := s.running && s.boot.phase == .done

/-- ERR_N is low (R469). -/
def State.errN (s : State) : Bool := !(s.bit Reg.SYS_EVSTAT Fl.SYS_EVSTAT_CRIT || s.fld Reg.BOOT_STAT Fl.BOOT_STAT_STATE == 7)

/-! ## One-time-programmable memory (R378 to R387) -/

/-- Slot k is usable: programmed and not revoked (R378). -/
def slotUsable (o : Otp) (k : Nat) : Bool := bitOf o.prog k && !bitOf o.rev k

/-- How many bits of n below w are set. -/
def bitCount (n w : Nat) : Nat := ((List.range w).filter (fun i => n.testBit i)).length

/-- SEC_INFO, from one-time-programmable memory. -/
def otpInfo (o : Otp) : Word :=
  BitVec.ofNat 32 (packBits [(2, o.lc), (2, 0), (4, o.prog), (4, o.rev), (4, o.spoilt), (4, 0), (4, min 15 (bitCount o.rbSpoilt 128)),
    (8, o.rb)])

/-- The hash of a public key: the first 32 bytes of its SHAKE256 (R378). -/
def keyHash (pk : List Byte) : BitVec 256 := (Config.shake256 pk).setWidth 256

/-- An owner key is accepted (R378, R383, check 7 of R343, R364): its hash, and the signer's slot, which is usable and not spoilt. -/
def State.keyAccepted (s : State) (kslot : Nat) (pk : List Byte) : Bool :=
  if s.otp.lc = 0 then true
  else if s.otp.lc = 3 then false
  else slotUsable s.otp kslot && !bitOf s.otp.spoilt kslot && decide (Sparse.find s.otp.keys kslot = some (keyHash pk))

/-- A fresh challenge (R381). -/
def State.newChal (s : State) : State :=
  let c := Config.random s.free
  (List.range 8).foldl (fun s w => s.setReg (Reg.SEC_CHAL w) (BitVec.ofNat 32 (c.toNat / 2 ^ (32 * w)))) s.draw

/-- Bytes of n consecutive registers from a naming function. -/
def State.regBytes (s : State) (r : Nat → Nat) (n : Nat) : List Byte :=
  (List.range n).flatMap (fun w => bytesOf 4 (s.reg (r w)))

/-- The device ID as bytes (R394). -/
def deviceIdBytes : List Byte := (List.range 8).flatMap (fun w => bytesOf 4 (Config.deviceId w))

/-- The signed message of R381. -/
def State.cmdMessage (s : State) (v : Word) : List Byte :=
  deviceIdBytes ++ s.regBytes Reg.SEC_CHAL 8 ++ bytesOf 4 v ++ s.regBytes Reg.SEC_KEYBUF 8

/-- The size S of flash, once discovered (R339). -/
def State.flashSize (s : State) : Nat := 2 ^ s.fld Reg.BOOT_FLASH Fl.BOOT_FLASH_SIZE

/-- Flash has been found. -/
def State.flashOk (s : State) : Bool := s.fld Reg.BOOT_FLASH Fl.BOOT_FLASH_SIZE != 0

/-- n bytes of flash from an address. -/
def State.flashBytes (s : State) (a n : Nat) : List Byte := s.readBytes (flashKey a) n

/-- A little-endian number of n bytes of flash. -/
def State.flashNat (s : State) (a n : Nat) : Nat := natOfBytes (s.flashBytes a n)

/-- The SVN of the golden manifest, when it can be read (R387). -/
def State.goldenSvn (s : State) : Option Nat :=
  let g := s.flashSize / 2
  if !s.flashOk then none
  else
    let p := s.flashNat (g + 0x14) 4
    if s.flashNat g 4 = 0x5A434846 ∧ crc32c (s.flashBytes g 0x1C) = s.flashNat (g + 0x1C) 4 ∧ s.flashNat p 4 = 0x5A434D46 then
      some (s.flashNat (p + 0x10) 1)
    else none

/-! ## Measurements (R388) -/

/-- A measurement register. -/
def State.mr (s : State) (j : Nat) : BitVec 512 := Sparse.get s.sec.mr 0 j

/-- Extend measurement register j by X. -/
def State.extend (s : State) (j : Nat) (x : BitVec 512) : State :=
  { s with sec := { s.sec with mr := Sparse.set s.sec.mr 0 j (Config.shake256 (bytesOf 64 (s.mr j) ++ bytesOf 64 x)) } }

/-- MR_EXTEND: a write of SEC_MRX_CMD (R388); the design writes MR_7 and host software MR_6. -/
def State.mrExtend (s : State) (w : Writer) (v : Word) : State :=
  let j := if w = .host then 6 else 7
  if fieldOf v Fl.SEC_MRX_CMD_GO = 1 ∧ fieldOf v Fl.SEC_MRX_CMD_J = j then
    s.extend j (BitVec.ofNat 512 (natOfBytes (s.regBytes Reg.SEC_MRX 16)))
  else s

/-! ## The vault (R389 to R392) -/

/-- SEC_VAULT_STAT.STATE: 0 READY, 1 WIPING, 2 LOCKED, 3 FAILED. -/
def State.vaultState (s : State) : Nat := s.fld Reg.SEC_VAULT_STAT Fl.SEC_VAULT_STAT_STATE

/-- Set the state of the vault. -/
def State.setVault (s : State) (st : Nat) : State := s.setFld Reg.SEC_VAULT_STAT Fl.SEC_VAULT_STAT_STATE st

/-- A wipe begins, or restarts (R391, R402): every byte is zeroed. A vault that FAILED stays so. -/
def State.wipe (s : State) (cause : Nat) : State :=
  let s := s.zeroVault vaultBase (vaultBase + 0x40000)
  if s.vaultState = 3 then s
  else ({ s with sec := { s.sec with wipe := some cause } } : State).setVault 1

/-- VAULT_WIPE_DONE (R391, R393): fail names the first word whose read-back is not 0. -/
def State.wipeDone (s : State) (fail : Option Nat) : State :=
  match s.sec.wipe with
  | none => s
  | some cause =>
    let s : State := { s with sec := { s.sec with wipe := none } }
    let s := (s.zeroVault vaultBase (vaultBase + 0x40000)).incFld Reg.SEC_VAULT_STAT Fl.SEC_VAULT_STAT_WIPES 1
    match fail with
    | some w => (s.setVault 3).postPkg Ev.VAULT_FAIL [(16, w)]
    | none =>
      (s.setVault (if s.bit Reg.SEC_TAMP_STAT Fl.SEC_TAMP_STAT_LATCH then 2 else 0)).postPkg Ev.VAULT_WIPED [(2, cause)]

/-- The base of vault partition i (R389). -/
def vpartBase (i : Nat) : Nat := vaultBase + i * 0x4000

/-- VPART_WRITE: a write of SEC_VPART_i (R390). -/
def State.vpartWrite (s : State) (i : Nat) (v : Word) : State :=
  let a := Reg.SEC_VPART i
  let w := s.written a v
  let same := fun (f : Fld) => fieldOf w f == s.fld a f
  if same Fl.SEC_VPART_VALID && same Fl.SEC_VPART_G && same Fl.SEC_VPART_PLANES && (Sparse.find s.sec.zero i).isNone then
    s.setReg a w
  else { s with sec := { s.sec with zero := Sparse.put s.sec.zero i w } }

/-- VPART_ZERO_DONE: the partition is zero and its new assignment applies (R390). -/
def State.vpartZeroDone (s : State) (i : Nat) : State :=
  match Sparse.find s.sec.zero i with
  | some w =>
    let s : State := { s with sec := { s.sec with zero := Sparse.del s.sec.zero i } }
    (s.zeroVault (vpartBase i) (vpartBase i + 0x4000)).setReg (Reg.SEC_VPART i) w
  | none => s

/-- The partitions that a request of the vault touches, in address order (R389). -/
def vaultParts (p : Packet) : List Nat :=
  let i := (p.addr.toNat - vaultBase) / 0x4000
  let j := (p.addr.toNat / 64 * 64 + 64 * (max 1 (max p.units.toNat p.runits.toNat)) - 1 - vaultBase) / 0x4000
  (List.range (j + 1 - i)).map (i + ·)

/-- Partition i admits the gallery and plane that a request came from (R389, check 3). -/
def State.vaultOpen (s : State) (p : Packet) (i : Nat) : Bool :=
  let a := Reg.SEC_VPART i
  s.fld a Fl.SEC_VPART_VALID != 0 && s.fld a Fl.SEC_VPART_G == 32 * p.srcHall.toNat + p.srcNode.toNat
    && bitOf (s.fld a Fl.SEC_VPART_PLANES) p.plane.toNat

/-- The order in which the vault checks a request (R389): the number of the first failing check, or none; check 5 answers
UNAVAIL. A request that touches two partitions passes a check when both do (DESIGN CHOICE, log 32). -/
def State.vaultCheck (s : State) (p : Packet) : Option Nat :=
  let c := p.cmd.toNat
  let l := vaultParts p
  if c ≠ 5 ∧ c ≠ 6 then some 1
  else if p.srcNode.toNat ≥ 32 then some 2
  else if l.all (s.vaultOpen p) = false then some 3
  else if c = 6 ∧ l.any (fun i => s.bit (Reg.SEC_VPART i) Fl.SEC_VPART_RDONLY) = true then some 4
  else if s.vaultState ≠ 0 ∨ l.any (fun i => (Sparse.find s.sec.zero i).isSome) = true ∨ s.testing 0 3 = true then some 5
  else none

/-- Bytes and enables of the data of a write (R237): the first and last units have enables of their own. -/
def writeLanes (p : Packet) : List (Byte × Bool) :=
  let n := p.units.toNat
  (List.range n).flatMap (fun u =>
    let d := p.data.getD u 0
    let be : BitVec 64 := if u = 0 then p.beFirst else if u + 1 = n then p.beLast else BitVec.allOnes 64
    (List.range 64).map (fun i => (BitVec.ofNat 8 (d.toNat / 2 ^ (8 * i)), be.getLsbD i)))

/-- Units of 64 bytes of memory from a key. -/
def State.unitsAt (s : State) (k n : Nat) : List (BitVec 512) :=
  (List.range n).map (fun u => BitVec.ofNat 512 (natOfBytes (s.readBytes (k + 64 * u) 64)))

/-- A request at the vault is checked and performed (R389, R392); ue says that an uncorrectable word is met. -/
def State.vaultRequest (s : State) (p : Packet) (ue : Bool) : State :=
  match s.vaultCheck p with
  | some 5 => s.respond p .unavail []
  | some k =>
    let i := (p.addr.toNat - vaultBase) / 0x4000
    (s.postLim Ev.VAULT_DENIED 0 ms 15 63
      [(3, p.srcHall.toNat), (6, p.srcNode.toNat), (4, i), (3, k)]).respond p .denied []
  | none =>
    let k := p.addr.toNat / 64 * 64
    if p.cmd.toNat = 5 then
      let n := p.runits.toNat
      if ue then s.respond p .dataErr (List.replicate n 0) else s.respond p .ok (s.unitsAt k n)
    else (s.writeEnabled k (writeLanes p)).respond p .ok []

/-! ## Attestation (R396) -/

/-- The first 640 bytes of the report, with the time base in ns and BOOT_STAT at GO. -/
def State.reportHeadAt (s : State) (ns : Nat) (bs : Word) : List Byte :=
  let n4 := fun (n : Nat) => bytesOf 4 (BitVec.ofNat 32 n)
  n4 0x5A415454 ++ n4 s.otp.lc ++ n4 s.otp.rb ++ n4 (if s.boot.runs then s.boot.img.svn else 0xFFFFFFFF)
    ++ bytesOf 4 bs ++ n4 (bitsOf (otpInfo s.otp).toNat 4 12) ++ bytesOf 8 (BitVec.ofNat 64 ns)
    ++ deviceIdBytes ++ s.regBytes Reg.SEC_ATT_NONCE 8 ++ List.replicate 32 0
    ++ (List.range 8).flatMap (fun j => bytesOf 64 (s.mr j))

/-- The head of a report whose GO is now. -/
def State.reportHead (s : State) : List Byte := s.reportHeadAt s.tbNs (s.reg Reg.BOOT_STAT)

/-- Building and signing the report begins. -/
def State.attBegin (s : State) : State :=
  { s with sec := { s.sec with att := some (s.reportHeadAt s.sec.attGo.1 s.sec.attGo.2), attWait := false } }

/-- ATTEST_START: SEC_ATT_CMD.GO (R396, R402). -/
def State.attestStart (s : State) : State :=
  if s.bit Reg.SEC_ATT_STAT Fl.SEC_ATT_STAT_BUSY then s
  else
    let s := (s.setFld Reg.SEC_ATT_STAT Fl.SEC_ATT_STAT_BUSY 1).setFld Reg.SEC_ATT_STAT Fl.SEC_ATT_STAT_DONE 0
    let s : State := { s with sec := { s.sec with report := none, attGo := (s.tbNs, s.reg Reg.BOOT_STAT) } }
    if s.sec.cmd.isSome then { s with sec := { s.sec with attWait := true } } else s.attBegin

/-! ## Life-cycle, key and counter commands (R379 to R387, R399) -/

/-- End a command with a refusal (R380). -/
def State.lcRefuse (s : State) (op r : Nat) : State :=
  let s := (s.setFld Reg.SEC_CMD_STAT Fl.SEC_CMD_STAT_BUSY 0).setFld Reg.SEC_CMD_STAT Fl.SEC_CMD_STAT_RESULT r
  ({ s with sec := { s.sec with cmd := none } } : State).newChal.postPkg Ev.LC_CMD_REFUSED [(3, op), (4, r)]

/-- Check 1: OP is allowed in the present state (R378, R379, R386). -/
def opAllowed (lc op : Nat) : Bool :=
  if op = 1 then lc == 0 else if op = 2 then lc == 1 else if op = 3 then lc != 3
  else if 4 ≤ op ∧ op ≤ 6 then lc == 1 || lc == 2 else false

/-- Check 2: SLOT and VALUE (R383, R384, R386); 0 when they are valid. -/
def State.lcArgs (s : State) (op slot value : Nat) : Nat :=
  let o := s.otp
  if op = 1 then (if bitOf o.prog 0 || bitOf o.spoilt 0 then 4 else 0)
  else if op = 4 then (if bitOf o.prog slot || bitOf o.spoilt slot then 4 else 0)
  else if op = 5 then
    if !slotUsable o slot then 4
    else if (List.range 4).all (fun k => k == slot || !slotUsable o k) then 5 else 0
  else if op = 6 then
    if value ≤ o.rb ∨ value > 128 ∨ s.boot.runs = false ∨ value > s.boot.img.svn then 6 else 0
  else 0

/-- Whether a command needs an owner signature (R381). -/
def needsSig (lc op : Nat) : Bool := (lc == 2 && (3 ≤ op && op ≤ 6)) || (lc == 1 && op == 3)

/-- The signature in SEC_SIGBUF is by the key of usable slot SIGSLOT over the message (R381); none is accepted while the random
generator has failed (R397). -/
def State.sigGood (s : State) (v : Word) : Bool :=
  let k := fieldOf v Fl.SEC_LC_CMD_SIGSLOT
  !s.bit Reg.SEC_RNG Fl.SEC_RNG_FAIL && slotUsable s.otp k
    && (match Sparse.find s.otp.keys k with
        | some h => Config.sigOk h (s.cmdMessage v) (s.regBytes Reg.SEC_SIGBUF 7448)
        | none => false)

/-- Checks 1 to 3 of a command, and its start (R380); a life-cycle change whose signature passes wipes the vault first (R379). -/
def State.lcStart (s : State) (v : Word) : State :=
  let op := fieldOf v Fl.SEC_LC_CMD_OP
  let value := fieldOf v Fl.SEC_LC_CMD_VALUE
  let r := s.lcArgs op (fieldOf v Fl.SEC_LC_CMD_SLOT) value
  let s := s.setFld Reg.SEC_CMD_STAT Fl.SEC_CMD_STAT_BUSY 1
  if !opAllowed s.otp.lc op then s.lcRefuse op 1
  else if r ≠ 0 then s.lcRefuse op r
  else if op = 6 ∧ fieldOf v Fl.SEC_LC_CMD_FORCE = 0 ∧ (s.goldenSvn.any (fun x => decide (value ≤ x))) = false then s.lcRefuse op 7
  else
    let good := !needsSig s.otp.lc op || s.sigGood v
    let s : State := { s with sec := { s.sec with cmd := some ⟨v, good⟩ } }
    if good && decide (op ≤ 3) then s.wipe 1 else s

/-- A write of SEC_LC_CMD (R380). -/
def State.lcCommand (s : State) (v : Word) : State :=
  let st := s.fld Reg.BOOT_STAT Fl.BOOT_STAT_STATE
  if fieldOf v Fl.SEC_LC_CMD_KEY ≠ 0xA7 ∨ fieldOf v Fl.SEC_LC_CMD_GO = 0 then s
  else if (st ≠ 6 ∧ st ≠ 7) ∨ s.bit Reg.SEC_CMD_STAT Fl.SEC_CMD_STAT_BUSY = true then s
  else if s.sec.att.isSome then
    { s.setFld Reg.SEC_CMD_STAT Fl.SEC_CMD_STAT_BUSY 1 with sec := { s.sec with cmdWait := some v } }
  else s.lcStart v

/-- Every encryption range of every stack is cleared to OFF (R393, R399). -/
def State.allRangesOff (s : State) : State :=
  [0, 3, 4, 7].foldl (fun s h => (List.range 8).foldl (fun s r => s.meeDisable h r) s) s

/-- A key is committed into a slot; a slot is programmed once (R378). -/
def State.keyCommit (s : State) (slot : Nat) : State :=
  let k := BitVec.ofNat 256 (natOfBytes (s.regBytes Reg.SEC_KEYBUF 8))
  if bitOf s.otp.prog slot then s
  else { s with otp := { s.otp with prog := setBit s.otp.prog slot true, keys := Sparse.put s.otp.keys slot k } }

/-- What a command commits (R379, R383, R384, R386, R399), with its event. A bit once programmed stays: the life-cycle state and the
counter only advance. -/
def State.lcCommit (s : State) (v : Word) : State :=
  let op := fieldOf v Fl.SEC_LC_CMD_OP
  let slot := fieldOf v Fl.SEC_LC_CMD_SLOT
  let value := fieldOf v Fl.SEC_LC_CMD_VALUE
  let o := s.otp
  if op = 1 then
    let s := s.keyCommit 0
    ({ s with otp := { s.otp with lc := max s.otp.lc 1 } } : State).postPkg Ev.LC_CHANGED [(2, 0), (2, 1)]
  else if op = 2 then ({ s with otp := { o with lc := max o.lc 2 } } : State).postPkg Ev.LC_CHANGED [(2, 1), (2, 2)]
  else if op = 3 then
    let s : State := { s with otp := { o with lc := max o.lc 3, rev := o.rev ||| 15 } }
    (s.postPkg Ev.LC_CHANGED [(2, o.lc), (2, 3)]).allRangesOff.safeHold false
  else if op = 4 then (s.keyCommit slot).postPkg Ev.KEY_ADDED [(2, slot)]
  else if op = 5 then
    ({ s with otp := { o with rev := setBit o.rev slot true } } : State).postPkg Ev.KEY_REVOKED
      [(2, slot), (2, fieldOf v Fl.SEC_LC_CMD_SIGSLOT)]
  else ({ s with otp := { o with rb := max o.rb value } } : State).postPkg Ev.RB_ADVANCED [(8, o.rb), (8, value)]

/-- What a command was programming when it failed, by kind (0 slot, 1 position, 2 state) and index: RB_ADVANCE one of its positions,
KEY_ADD and KEY_REVOKE their slot, OWN slot 0 or the state, the others the state. -/
def spoilOf (o : Otp) (v : Word) (kind idx : Nat) : Nat × Nat :=
  let op := fieldOf v Fl.SEC_LC_CMD_OP
  if op = 6 then (1, if o.rb ≤ idx ∧ idx < fieldOf v Fl.SEC_LC_CMD_VALUE then idx else o.rb)
  else if op = 4 ∨ op = 5 then (0, fieldOf v Fl.SEC_LC_CMD_SLOT)
  else if op = 1 ∧ kind = 0 then (0, 0)
  else (2, idx)

/-- OTP programming or read-back has failed (R382): kind and index as far as they can be the command's. What was committed before
stands. -/
def State.lcSpoil (s : State) (v : Word) (kind idx : Nat) : State :=
  let op := fieldOf v Fl.SEC_LC_CMD_OP
  let o := s.otp
  let x := spoilOf o v kind idx
  let kind := x.1
  let idx := x.2
  let s : State :=
    if kind = 0 then { s with otp := { o with spoilt := setBit o.spoilt (idx % 4) true } }
    else if kind = 1 then { s with otp := { o with rb := max o.rb idx, rbSpoilt := setBit o.rbSpoilt idx true } }
    else if op = 1 then s.keyCommit 0
    else s
  (s.postPkg Ev.OTP_SPOILT [(2, kind), (8, idx)]).lcRefuse op 8

/-- After a command, an attestation that waited begins (R402). -/
def State.afterCmd (s : State) : State := if s.sec.attWait then s.attBegin else s

/-- The first counter position that a command is to program and that is spoilt, which fails its programming (R382, R386). -/
def State.spoiltAhead (s : State) (v : Word) : Option (Nat × Nat) :=
  if fieldOf v Fl.SEC_LC_CMD_OP = 6 then
    ((List.range (fieldOf v Fl.SEC_LC_CMD_VALUE)).find? (fun i => decide (s.otp.rb ≤ i) && bitOf s.otp.rbSpoilt i)).map (fun i => (1, i))
  else none

/-- A command waits for a wipe: its own, or one of tampering that restarted it before a life-cycle change (R379, R402). -/
def State.lcHeld (s : State) (c : LcCmd) : Bool :=
  s.sec.wipe == some 1 || (s.sec.wipe.isSome && c.sig && decide (fieldOf c.word Fl.SEC_LC_CMD_OP ≤ 3))

/-- LC_CMD_COMPLETE (R380 checks 4 and 5, R382): fail is a failure of programming or read-back, by kind and index. -/
def State.lcComplete (s : State) (fail : Option (Nat × Nat)) : State :=
  match s.sec.cmd with
  | none => s
  | some c =>
    let op := fieldOf c.word Fl.SEC_LC_CMD_OP
    if s.lcHeld c then s
    else if !c.sig then (s.lcRefuse op 3).afterCmd
    else match fail <|> s.spoiltAhead c.word with
      | some (k, i) => (s.lcSpoil c.word k i).afterCmd
      | none =>
        let s : State := { s with sec := { s.sec with cmd := none } }
        let s := (s.setFld Reg.SEC_CMD_STAT Fl.SEC_CMD_STAT_BUSY 0).setFld Reg.SEC_CMD_STAT Fl.SEC_CMD_STAT_RESULT 0
        ((s.lcCommit c.word).newChal).afterCmd

/-- ATTEST_DONE (R396): the report is signed. -/
def State.attestDone (s : State) : State :=
  match s.sec.att with
  | none => s
  | some b =>
    let sig := Config.deviceSign b
    let full := b ++ (List.range 49856).map (fun i => sig.getD i 0)
    let w := s.sec.cmdWait
    let s : State := { s with sec := { s.sec with att := none, report := some full, cmdWait := none } }
    let s := (s.setFld Reg.SEC_ATT_STAT Fl.SEC_ATT_STAT_BUSY 0).setFld Reg.SEC_ATT_STAT Fl.SEC_ATT_STAT_DONE 1
    let s := s.postPkg Ev.ATTEST_DONE [(48, natOfBytes ((b.drop 0x18).take 8))]
    match w with
    | some v => s.lcStart v
    | none => s

/-- An attestation is abandoned, with no report (R402, R497). -/
def State.attAbandon (s : State) : State :=
  (({ s with sec := { s.sec with att := none, attWait := false, report := none } } : State).setFld
    Reg.SEC_ATT_STAT Fl.SEC_ATT_STAT_BUSY 0).setFld Reg.SEC_ATT_STAT Fl.SEC_ATT_STAT_DONE 0

/-- A command of the security engine, and an attestation under way, are abandoned (R402); a finished report stays. -/
def State.secAbandon (s : State) : State :=
  let s := if s.sec.att.isSome || s.sec.attWait then s.attAbandon else s
  ({ s with sec := { s.sec with cmd := none, cmdWait := none } } : State).setFld Reg.SEC_CMD_STAT Fl.SEC_CMD_STAT_BUSY 0

/-! ## Tamper, random generator, JTAG (R393, R397, R400, R401) -/

/-- A write of SEC_TAMP_CFG: EN cannot be cleared in SECURED (R398). -/
def State.tampCfgWrite (s : State) (v : Word) : State :=
  s.writeFields Reg.SEC_TAMP_CFG (if s.otp.lc = 2 then withField v Fl.SEC_TAMP_CFG_EN (fieldOf v Fl.SEC_TAMP_CFG_EN ||| s.fld Reg.SEC_TAMP_CFG Fl.SEC_TAMP_CFG_EN) else v)

/-- A write of SEC_TAMP_STAT: LATCH clears only while TAMP_N is high, and the vault is READY again (R393). -/
def State.tampStatWrite (s : State) (v : Word) : State :=
  if fieldOf v Fl.SEC_TAMP_STAT_LATCH = 1 ∧ Config.tampPin s.now = true then
    let s := s.setFld Reg.SEC_TAMP_STAT Fl.SEC_TAMP_STAT_LATCH 0
    if s.vaultState = 2 then s.setVault 0 else s
  else s

/-- A write of SEC_JTAG: EXT_EN cannot be set in SECURED (R398). -/
def State.jtagWrite (s : State) (v : Word) : State :=
  if s.otp.lc = 2 ∧ fieldOf v Fl.SEC_JTAG_EXT_EN = 1 then s else s.writeFields Reg.SEC_JTAG v

/-- TAMPER (R393). -/
def State.tamper (s : State) : State :=
  if s.boot.phase = .off ∨ s.bit Reg.SEC_TAMP_CFG Fl.SEC_TAMP_CFG_EN = false then s
  else
    let zmee := s.fld Reg.SEC_TAMP_CFG Fl.SEC_TAMP_CFG_ZMEE
    let hold := s.fld Reg.SEC_TAMP_CFG Fl.SEC_TAMP_CFG_HOLD
    let s := (s.setFld Reg.SEC_TAMP_STAT Fl.SEC_TAMP_STAT_LATCH 1).incFld Reg.SEC_TAMP_STAT Fl.SEC_TAMP_STAT_COUNT 1
    let s := (s.wipe 2).postPkg Ev.TAMPER [(16, s.fld Reg.SEC_TAMP_STAT Fl.SEC_TAMP_STAT_COUNT), (1, zmee), (1, hold)]
    let s := if zmee = 1 then s.allRangesOff else s
    if hold = 1 then s.safeHold false else s

/-- RNG_FAIL (R397). -/
def State.rngFail (s : State) (test : Nat) : State := (s.setFld Reg.SEC_RNG Fl.SEC_RNG_FAIL 1).postPkg Ev.RNG_FAIL [(8, test)]

/-- JTAG_INSTRUCTION (R400, R401): op is what the loaded opcode names, code the opcode. -/
def State.jtagLoad (s : State) (op : JtagOp) (code : Nat) : State :=
  let set := fun (s : State) (x : JtagOp) => ({ s with sec := { s.sec with jtag := x } } : State)
  match op with
  | .extest | .clamp | .highz | .extestPulse | .extestTrain =>
    if s.donePin && !s.bit Reg.SEC_JTAG Fl.SEC_JTAG_EXT_EN then (set s .bypass).postPkg Ev.JTAG_REFUSED [(8, code)] else set s op
  | .vendor =>
    if s.otp.lc = 3 then
      let c := Config.random s.free
      { set s.draw .vendor with sec := { (set s.draw .vendor).sec with vchal := some c } }
    else set s .bypass
  | .other => set s .bypass
  | .bypass | .idcode | .samplePreload => set s op

/-- The JTAG instruction that acts: a test instruction loaded before DONE rose acts as BYPASS while DONE is high and EXT_EN clear
(R400). -/
def State.jtagActs (s : State) : JtagOp :=
  match s.sec.jtag with
  | .extest | .clamp | .highz | .extestPulse | .extestTrain =>
    if s.donePin && !s.bit Reg.SEC_JTAG Fl.SEC_JTAG_EXT_EN then .bypass else s.sec.jtag
  | x => x

/-- VENDOR_UNLOCK (R401): the response of vendor key k to the challenge. -/
def State.vendorUnlock (s : State) (k : Nat) (sig : List Byte) : State :=
  match s.sec.vchal, Config.vendorKeyHash k with
  | some c, some h =>
    if s.otp.lc = 3 ∧ Config.sigOk h (deviceIdBytes ++ bytesOf 32 c) sig = true then
      ({ s with sec := { s.sec with unlocked := true, vchal := none } } : State).postPkg Ev.VENDOR_UNLOCK [(1, k)]
    else s
  | _, _ => s

/-- A life-cycle command word with a given OP. -/
def withOp (v : Word) (op : Nat) : Word := withField v Fl.SEC_LC_CMD_OP op

/-! ## Meanings -/

/-- OWN (R379). -/
def execOwn (v : Word) (s : State) : Out := .next (s.lcCommand (withOp v 1))
/-- SECURE (R379). -/
def execSecure (v : Word) (s : State) : Out := .next (s.lcCommand (withOp v 2))
/-- RETURN (R399). -/
def execReturn (v : Word) (s : State) : Out := .next (s.lcCommand (withOp v 3))
/-- KEY_ADD (R383). -/
def execKeyAdd (v : Word) (s : State) : Out := .next (s.lcCommand (withOp v 4))
/-- KEY_REVOKE (R384). -/
def execKeyRevoke (v : Word) (s : State) : Out := .next (s.lcCommand (withOp v 5))
/-- RB_ADVANCE (R386). -/
def execRbAdvance (v : Word) (s : State) : Out := .next (s.lcCommand (withOp v 6))
/-- LC_CMD_COMPLETE (R382). -/
def execLcCmdComplete (fail : Option (Fin 3 × Fin 128)) (s : State) : Out := .next (s.lcComplete (fail.map (fun x => (x.1.val, x.2.val))))
/-- VPART_WRITE (R390). -/
def execVpartWrite (i : Fin 16) (v : Word) (s : State) : Out := .next (s.vpartWrite i v)
/-- VPART_ZERO_DONE (R390). -/
def execVpartZeroDone (i : Fin 16) (s : State) : Out := .next (s.vpartZeroDone i)
/-- VAULT_WIPE_DONE (R391). -/
def execVaultWipeDone (fail : Option (Fin 65536)) (s : State) : Out := .next (s.wipeDone (fail.map (·.val)))
/-- TAMPER (R393). -/
def execTamper (s : State) : Out := .next s.tamper
/-- ATTEST_START (R396). -/
def execAttestStart (s : State) : Out := .next s.attestStart
/-- ATTEST_DONE (R396). -/
def execAttestDone (s : State) : Out := .next s.attestDone
/-- MR_EXTEND (R388). -/
def execMrExtend (w : Writer) (v : Word) (s : State) : Out := .next (s.mrExtend w v)
/-- RNG_FAIL (R397). -/
def execRngFail (test : Fin 256) (s : State) : Out := .next (s.rngFail test)
/-- RNG_RETRY (R397). -/
def execRngRetry (pass : Bool) (s : State) : Out :=
  .next (if pass then s.setFld Reg.SEC_RNG Fl.SEC_RNG_FAIL 0 else s)
/-- JTAG_INSTRUCTION (R400). -/
def execJtagInstruction (op : JtagOp) (code : Fin 256) (s : State) : Out := .next (s.jtagLoad op code)
/-- VENDOR_UNLOCK (R401). -/
def execVendorUnlock (k : Fin 2) (sig : List Byte) (s : State) : Out := .next (s.vendorUnlock k sig)

end Sys2Proof.Machine
end

