-- ==== Sys2Proof/Machine/Boot.lean ====
section
/-!
DEFINITION. Machine/Boot.lean: images in flash and their parts, flash records and commands, imports and scrubbing (chapter 11).
-/
namespace Sys2Proof.Machine

/-! ## Frames (R346 to R348) -/

/-- One step of the frame check word: position and check so far, over data bit i (R347). -/
def checkStep (d : BitVec 4096) (x : Nat × Nat) (i : Nat) : Nat × Nat :=
  let p := if x.1 &&& (x.1 - 1) = 0 then x.1 + 1 else x.1
  (p + 1, if d.getLsbD i then x.2 ^^^ p else x.2)

/-- The 13-bit Hamming check of a frame (R347). -/
def frameHamming (d : BitVec 4096) : Nat := ((List.range 4096).foldl (checkStep d) (3, 0)).2

/-- The frame check word of a frame (R347). -/
def frameWord (d : BitVec 4096) : Nat :=
  let c := frameHamming d
  c ||| (((bitCount d.toNat 4096 + bitCount c 13) % 2) <<< 13)

/-- A frame with its check word is good (R347): syndrome 0, parity 0, bits 15:14 zero. -/
def frameGood (d : BitVec 4096) (w : Nat) : Bool := w == frameWord d

/-- What checking a received frame shows (R347): good, a single error in a data bit or a bit of the check word, or uncorrectable. -/
inductive FrameCheck where
  | good | dataBit (i : Nat) | checkBit (i : Nat) | uncorrectable
  deriving DecidableEq, Repr

/-- Check a received frame (R347). The positions of data bits are the numbers from 3 up that are no power of two, so that position s is
data bit s − 2 − log2 s. -/
def frameCheck (d : BitVec 4096) (w : Nat) : FrameCheck :=
  let s := frameHamming d ^^^ (w % 8192)
  let q := (bitCount d.toNat 4096 + bitCount w 14) % 2
  if w / 16384 ≠ 0 then .uncorrectable
  else if q = 0 then (if s = 0 then .good else .uncorrectable)
  else if s = 0 then .checkBit 13
  else if s &&& (s - 1) = 0 then .checkBit s.log2
  else if s - 2 - s.log2 < 4096 then .dataBit (s - 2 - s.log2)
  else .uncorrectable

/-- A received frame corrected (R347); none where it is uncorrectable. -/
def frameCorrected (d : BitVec 4096) (w : Nat) : Option (BitVec 4096 × Nat) :=
  match frameCheck d w with
  | .good => some (d, w)
  | .dataBit i => some (d ^^^ (1 <<< i), w)
  | .checkBit i => some (d, w ^^^ (2 ^ i))
  | .uncorrectable => none

/-- Flash device 0 holds the even bytes and device 1 the odd bytes of the address space (R338). -/
def flashDevice (a : Nat) : Nat × Nat := (a % 2, a / 2)

/-- Bytes from a place: flash, or system space. -/
abbrev Reader := Nat → Nat → List Byte

/-- A frame as read: data and check word. -/
abbrev Frame := BitVec 4096 × Nat

/-- The mark of frame f of a section (R346). -/
def markOf (rd : Reader) (f : Nat) : Nat := natOfBytes (rd (64 + f / 4) 1) / 2 ^ (2 * (f % 4)) % 4

/-- The literal frame at an offset. -/
def literalAt (rd : Reader) (pos : Nat) : Frame :=
  (BitVec.ofNat 4096 (natOfBytes (rd pos 512)), natOfBytes (rd (pos + 512) 2))

/-- Frames from frame f on (R346): none where a mark is reserved or repeats before frame 0; with them, the offset after the last
literal. -/
def decodeFrames (rd : Reader) : Nat → Nat → Nat → Frame → Option (List Frame × Nat)
  | 0, _, pos, _ => some ([], pos)
  | n + 1, f, pos, prev =>
    let m := markOf rd f
    if m = 3 ∨ (m = 2 ∧ f = 0) then none
    else
      let x : Frame := if m = 0 then literalAt rd pos else if m = 1 then (0, 0) else prev
      match decodeFrames rd n (f + 1) (if m = 0 then pos + 514 else pos) x with
      | some (l, e) => some (x :: l, e)
      | none => none

/-- The plane-image header (R346): the image without frames, SIGNED, FLEN, and whether it is well formed. -/
def planeHeader (b : List Byte) : Image × Bool × Nat × Bool :=
  let n := fun (o w : Nat) => natOfBytes ((b.drop o).take w)
  let a := n 8 4
  let border := n 0x10 6
  let img : Image :=
    { id := BitVec.ofNat 16 (n 4 2), place := BitVec.ofNat 2 a, fixedG := BitVec.ofNat 8 (a / 4), vmask := BitVec.ofNat 2 (a / 1024),
      grade := BitVec.ofNat 2 (a / 4096), tqEn := a.testBit 14, bmask := BitVec.ofNat 32 (n 0xC 4),
      border := BitVec.ofNat 70 (border % 2 ^ 38 + border / 2 ^ 38 * 2 ^ 42), frames := [] }
  let ok := n 0 4 == 0x5A50494D && n 4 2 != 0 && n 6 2 == 0 && a / 65536 == 0 && n 0x16 2 == 0
    && (List.range 24).all (fun i => border / 2 ^ (2 * i) % 4 != 3) && ((b.drop 0x1C).take 36).all (· == 0)
  (img, a.testBit 15, n 0x18 4, ok)

/-- The grade field of an image is refused for the part (R14). -/
def gradeLacks (pt : Part) (grade : Nat) : Bool := grade == 3 || (grade == 2 && pt.grade == 1)

/-- A decoded section: the image, its frames as read, SIGNED and FLEN. -/
structure PlaneSec where
  img : Image
  frames : List Frame
  signed : Bool
  flen : Nat

/-- The frames of an image, by number; an all-zero frame is not listed. -/
def imageFrames (l : List Frame) : Sparse (BitVec 4096) :=
  (l.mapIdx (fun i x => (i, x.1))).filter (fun x => x.2 != 0)

/-- Decode a PLANE section (R346): none for a FORMAT failure. -/
def decodePlane (rd : Reader) : Option PlaneSec :=
  let h := planeHeader (rd 0 64)
  if !h.2.2.2 then none
  else match decodeFrames rd 768 0 256 (0, 0) with
    | none => none
    | some (l, e) =>
      if h.2.2.1 = e - 64 then some ⟨{ h.1 with frames := imageFrames l }, l, h.2.1, h.2.2.1⟩ else none

/-- The first frame that is not good (R348). -/
def firstBad (l : List Frame) : Option Nat := l.findIdx? (fun x => !frameGood x.1 x.2)

/-- CRC-32C register over one frame (R349). -/
def crcFrame (c : Nat) (x : Frame) : Nat := (bytesOf 512 x.1 ++ bytesOf 2 (BitVec.ofNat 16 x.2)).foldl crcByte c

/-- A section of the image in flash, as a reader. -/
def State.sectReader (s : State) (x : Sect) : Reader := fun o n => s.flashBytes (s.boot.img.base + x.off + o) n

/-- The digest of a section of the image in flash matches its entry (R344). -/
def State.digestOk (s : State) (x : Sect) : Bool := decide (Config.shake256 (s.sectReader x 0 x.len) = x.digest)

/-! ## Checks before frames (R343) -/

/-- An entry of the section table at a flash address (R342). -/
def State.sectAt (s : State) (a : Nat) : Sect :=
  { typ := s.flashNat a 2, lib := (s.flashNat (a + 2) 2).testBit 0, off := s.flashNat (a + 4) 4, len := s.flashNat (a + 8) 4,
    digest := BitVec.ofNat 512 (s.flashNat (a + 0x20) 64) }

/-- One entry of the section table keeps its rules (R342): n sections, LENGTH length. -/
def State.sectOk (s : State) (a i n length : Nat) : Bool :=
  let x := s.sectAt a
  decide (s.flashNat (a + 2) 2 ≤ 1) && s.flashNat (a + 0xC) 20 == 0 && decide (1 ≤ x.typ) && decide (x.typ ≤ 6)
    && decide (x.off % 64 = 0) && decide (x.off + x.len ≤ length) && decide (0x100 + 96 * n + 29792 ≤ x.off)
    && (if i < 3 then decide (x.typ = i + 1) && !x.lib else decide (4 ≤ x.typ) && (x.typ == 4 || !x.lib))
    && (x.typ != 5 || (decide (x.len % 64 = 0) && decide (64 ≤ x.len) && decide (x.len ≤ 64 * 4096)))

/-- Two sections overlap. -/
def sectsMeet (x y : Sect) : Bool := overlaps x.off x.len y.off y.len

/-- No two sections of a list overlap. -/
def sectsApart : List Sect → Bool
  | [] => true
  | x :: l => l.all (fun y => !sectsMeet x y) && sectsApart l

/-- The section table of the manifest at flash address m keeps R342. -/
def State.tableOk (s : State) (m n length : Nat) (l : List Sect) : Bool :=
  (List.range n).all (fun i => s.sectOk (m + 0x100 + 96 * i) i n length) && sectsApart l
    && decide ((l.filter (·.typ == 5)).length ≤ 1) && decide ((l.filter (·.typ == 6)).length ≤ 1)

/-- Check 9: FIRMWARE (R385). -/
def State.firmwareOk (s : State) (x : Sect) : Bool :=
  let rd := s.sectReader x
  let n := fun (o w : Nat) => natOfBytes (rd o w)
  let flen := n 8 4
  s.digestOk x && n 0 4 == 0x5A465750 && decide (n 0xC 4 < 2) && decide (0x80 + flen + 29792 ≤ x.len)
    && (match Config.vendorKeyHash (n 0xC 4) with
        | some h => decide (h = keyHash (rd 0x10 64)) && Config.sigOk h (rd 0 (0x80 + flen)) (rd (0x80 + flen) 29792)
        | none => false)

/-- The image whose header lies at flash address hb is checked (R343): the cause of the first failing check, 0 when all pass, and
what was read. -/
def State.imageCheck (s : State) (hb : Nat) (golden : Bool) : Nat × ImageSt :=
  let S := s.flashSize
  let f := fun (a w : Nat) => s.flashNat a w
  let variant := f (hb + 8) 4
  let version := f (hb + 0xC) 4
  let length := f (hb + 0x10) 4
  let m := f (hb + 0x14) 4
  let n := f (m + 0x14) 4
  let sects := (List.range n).map (fun i => s.sectAt (m + 0x100 + 96 * i))
  let svn := f (m + 0x10) 1
  let pk := s.flashBytes (m + 0x20) 64
  let img : ImageSt := { base := m, version := version, svn := svn, full := (f (hb + 0x18) 4).testBit 0, sects := sects }
  let t : State := { s with boot := { s.boot with img := img } }
  if f hb 4 ≠ 0x5A434846 ∨ crc32c (s.flashBytes hb 0x1C) ≠ f (hb + 0x1C) 4 then (2, {})
  else if f (hb + 4) 4 ≠ 0x0C8E8035 then (3, {})
  else if variant ≥ 16 ∨ variantLacks s.part (variant % 4) = true ∨ gradeLacks s.part (variant / 4) = true then (4, {})
  else if m % 0x10000 ≠ 0 ∨ (golden = false ∧ m + length > S / 2) ∨ (golden = true ∧ (m < S / 2 ∨ m + length > S - 0x100000)) then (14, {})
  else if f m 4 ≠ 0x5A434D46 ∨ f (m + 4) 4 ≠ f (hb + 4) 4 ∨ f (m + 8) 4 ≠ variant ∨ f (m + 0xC) 4 ≠ version ∨ n < 3 ∨ n > 1024
      ∨ s.tableOk m n length sects = false then (10, {})
  else if svn < s.otp.rb then (5, {})
  else if s.keyAccepted (f (m + 0x18) 4) pk = false then (6, {})
  else if Config.sigOk (keyHash pk) (s.flashBytes m (0x100 + 96 * n)) (s.flashBytes (m + 0x100 + 96 * n) 29792) = false then (7, {})
  else if t.firmwareOk (sects.headD default) = false then (8, {})
  else (0, img)

/-! ## BOOTMAP (R345) -/

/-- Records of BOOTMAP from an offset: KIND, and the record as a number, to the end of the list. -/
def mapRecords (rd : Reader) (len : Nat) : Nat → Nat → List Nat
  | 0, _ => []
  | n + 1, o =>
    if o + 16 > len then []
    else
      let x := natOfBytes (rd o 16)
      if x % 16 = 0 then [] else x :: mapRecords rd len n (o + 16)

/-- A PLACE record. -/
def placeRec (x : Nat) : PlaceRec := ⟨bitsOf x 4 10, bitsOf x 14 8, bitsOf x 22 5, bitsOf x 27 4⟩

/-- A GALLERY record. -/
def galRec (x : Nat) : GalRec := ⟨bitsOf x 4 8, bitsOf x 12 2, x.testBit 14, bitsOf x 32 32⟩

/-- Whether section k is a PLANE section of the library phase. -/
def sectLib (i : ImageSt) (k : Nat) : Bool := (i.sects.getD k default).lib

/-- Whether BOOTMAP keeps R345, with its records; an activated plane must be placed. -/
def bootmapOk (i : ImageSt) (recs : List Nat) (places : List PlaceRec) (gals : List GalRec) : Bool :=
  recs.all (fun x => (x % 16 == 1 && x / 2 ^ 31 == 0) || (x % 16 == 2 && bitsOf x 15 17 == 0 && x / 2 ^ 64 == 0))
    && places.all (fun r => (i.sects.getD r.sect default).typ == 4 && gals.any (fun g => g.G == r.G)
        && places.all (fun q => q.G != r.G || sectLib i q.sect == sectLib i r.sect))
    && gals.all (fun g => !g.act || places.any (fun r => r.G == g.G && bitOf r.planes g.active))

/-! ## Flash records (R373 to R376) -/

/-- The flash address of record slot k. -/
def State.recAddr (s : State) (k : Nat) : Nat := s.flashSize - 0x100000 + k * 0x2000

/-- The type of the record in slot k. -/
def State.recType (s : State) (k : Nat) : Nat := s.flashNat (s.recAddr k + 4) 2

/-- The sequence number of the record in slot k. -/
def State.recSeq (s : State) (k : Nat) : Nat := s.flashNat (s.recAddr k + 8) 4

/-- The record in slot k has a magic number, a type and a sequence number. -/
def State.recThere (s : State) (k : Nat) : Bool :=
  s.flashNat (s.recAddr k) 4 == 0x5A435243 && decide (1 ≤ s.recType k) && decide (s.recType k ≤ 3) && decide (1 ≤ s.recSeq k)
    && decide (s.recSeq k ≤ 0xFFFFFFFE)

/-- The record in slot k is valid (R374). -/
def State.recValid (s : State) (k : Nat) : Bool :=
  s.recThere k && crc32c (s.flashBytes (s.recAddr k) 0xFFC) == s.flashNat (s.recAddr k + 0xFFC) 4

/-- The slot of the highest sequence number among slots. -/
def State.highest (s : State) : List Nat → Option Nat
  | [] => none
  | k :: ks => match s.highest ks with
    | none => some k
    | some j => if s.recSeq j > s.recSeq k then some j else some k

/-- The slot that holds a type's record (R374). -/
def State.typeRecord (s : State) (t : Nat) : Option Nat :=
  s.highest ((List.range 128).filter (fun k => s.recValid k && s.recType k == t))

/-- The slot of the highest valid sequence number. -/
def State.lastRecord (s : State) : Option Nat := s.highest ((List.range 128).filter s.recValid)

/-- The payload bytes of the record in slot k. -/
def State.recPayload (s : State) (k o n : Nat) : List Byte := s.flashBytes (s.recAddr k + 12 + o) n

/-- A little-endian number of a record's payload. -/
def State.recNat (s : State) (k o n : Nat) : Nat := natOfBytes (s.recPayload k o n)

/-- Flash bytes from an address to a length are erased (each reads 0xFF). -/
def State.flashErase (s : State) (a n : Nat) : State :=
  { s with mem := Sparse.drop s.mem (fun k => decide (flashKey a ≤ k) && decide (k < flashKey (a + n))) }

/-- The first 4 KiB of a record (R373). -/
def recordBytes (typ seq : Nat) (payload : List Byte) : List Byte :=
  let n := fun (w x : Nat) => bytesOf w (BitVec.ofNat 32 x)
  let b := n 4 0x5A435243 ++ n 2 typ ++ n 2 payload.length ++ n 4 seq ++ payload ++ List.replicate (4080 - payload.length) 0xFF
  b ++ n 4 (crc32c b)

/-- Erase a record slot and program a record there. -/
def State.programRecord (s : State) (k typ seq : Nat) (payload : List Byte) : State :=
  (s.flashErase (s.recAddr k) 0x2000).writeBytes (flashKey (s.recAddr k)) (recordBytes typ seq payload)

/-- The record area is erased and each type's record written back from SEQ 1 (R376). -/
def State.recordsRewritten (s : State) : State :=
  let keep := ([1, 2, 3].filterMap s.typeRecord).map (fun k => (s.recType k, s.recPayload k 0 (s.flashNat (s.recAddr k + 6) 2)))
  let s := s.flashErase (s.flashSize - 0x100000) 0x100000
  let s := (keep.zipIdx).foldl (fun s x => s.programRecord x.2 x.1.1 (x.2 + 1) x.1.2) s
  s.postPkg Ev.RECORD_AREA_ERASED [(8, keep.length)]

/-- Write a record (R375, R376): its sequence number with it. A shutdown record's REPSEQ of 0xFFFF_FFFF stands for the record
written just before it (R444). -/
def State.writeRecord (s : State) (typ : Nat) (payload : List Byte) : State × Nat :=
  let seqOf := fun (s : State) => ((s.lastRecord).map s.recSeq).getD 0
  let s := if seqOf s + 1 = 0xFFFFFFFF then s.recordsRewritten else s
  let last := s.lastRecord
  let seq := seqOf s + 1
  let holds := [1, 2, 3].filterMap s.typeRecord
  let start := match last with
    | some k => k + 1
    | none => 0
  let k := (((List.range 128).map (fun i => (start + i) % 128)).find? (fun j => !holds.contains j)).getD 0
  let payload := if typ = 1 ∧ natOfBytes ((payload.drop 0x18).take 4) = 0xFFFFFFFF then
      payload.take 0x18 ++ bytesOf 4 (BitVec.ofNat 32 (seq - 1)) ++ payload.drop 0x1C
    else payload
  ((s.programRecord k typ seq payload).setReg Reg.BOOT_REC (BitVec.ofNat 32 seq), seq)

/-- Ask for a record to be written. -/
def State.askRecord (s : State) (typ : Nat) (payload : List Byte) : State :=
  { s with boot := { s.boot with recs := s.boot.recs ++ [⟨typ, payload⟩] } }

/-- RECORD_WRITE_DONE (R375, R443, R444): the first waiting record has been written, or met a flash fault. -/
def State.recordWriteDone (s : State) (fault : Bool) : State :=
  match s.boot.recs with
  | [] => s
  | r :: rs =>
    let s : State := { s with boot := { s.boot with recs := rs } }
    if fault || !s.flashOk then
      if r.typ = 2 then
        let s := (s.setFld Reg.CAL_STAT Fl.CAL_STAT_SAVING 0).setFld Reg.CAL_STAT Fl.CAL_STAT_SAVE_RESULT 2
        s.postPkg Ev.CAL_RECORD_FAIL [(3, 2)]
      else s
    else
      let x := s.writeRecord r.typ r.payload
      let s := x.1
      if r.typ = 2 then
        let s := (s.setFld Reg.CAL_STAT Fl.CAL_STAT_SAVING 0).setFld Reg.CAL_STAT Fl.CAL_STAT_SAVE_RESULT 1
        (s.setReg Reg.CAL_REC (BitVec.ofNat 32 x.2)).postPkg Ev.CAL_RECORD_WRITTEN [(32, x.2)]
      else if r.typ = 1 then
        let nrep := natOfBytes ((r.payload.drop 0x1C).take 2)
        let more := match s.typeRecord 3 with
          | some k => if natOfBytes ((r.payload.drop 0x18).take 4) = 0xFFFFFFFF then s.recNat k 0 4 else 0
          | none => 0
        s.postPkg Ev.SHUTDOWN_RECORD [(32, x.2), (1, natOfBytes (r.payload.take 1)), (11, nrep + more)]
      else s

/-! ## Flash commands of host software (R377) -/

/-- Flash address a lies in the record area, or in the golden region while it is locked (R377). -/
def State.flashProtected (s : State) (a : Nat) : Bool :=
  let S := s.flashSize
  decide (S - 0x100000 ≤ a) || (decide (S / 2 ≤ a) && !s.bit Reg.BOOT_FPROT Fl.BOOT_FPROT_GOLDEN_WE)

/-- Record the result of a flash command. -/
def State.flashResult (s : State) (r : Nat) : State :=
  ({ s with boot := { s.boot with fcmd := none } }.setFld Reg.BOOT_FSTAT Fl.BOOT_FSTAT_BUSY 0).setFld Reg.BOOT_FSTAT
    Fl.BOOT_FSTAT_RESULT r

/-- A write of BOOT_FCMD (R377): the command is refused, or waits for its end. -/
def State.flashCommand (s : State) (v : Word) : State :=
  let op := fieldOf v Fl.BOOT_FCMD_OP
  let a := s.fld Reg.BOOT_FADDR Fl.BOOT_FADDR_FADDR
  if fieldOf v Fl.BOOT_FCMD_GO = 0 ∨ op = 0 ∨ s.bit Reg.BOOT_FSTAT Fl.BOOT_FSTAT_BUSY = true then s
  else if op ≠ 1 ∧ fieldOf v Fl.BOOT_FCMD_KEY ≠ 0xC3 then s.flashResult 4
  else if a % (if op = 3 then 0x2000 else 256) ≠ 0 then s.flashResult 2
  else if s.flashOk = false ∨ a ≥ s.flashSize then s.flashResult 3
  else if op ≠ 1 ∧ s.flashProtected a = true then s.flashResult 1
  else { s with boot := { s.boot with fcmd := some (op, a) } }.setFld Reg.BOOT_FSTAT Fl.BOOT_FSTAT_BUSY 1

/-- The system manager uses the flash: a start, a record, a slot reload or the library phase (R375, R377). -/
def State.flashBusy (s : State) : Bool :=
  !s.boot.recs.isEmpty || !s.boot.reload.isEmpty || s.boot.lib || s.boot.phase != .done

/-- FLASH_CMD_DONE (R377). -/
def State.flashCmdDone (s : State) (fault : Bool) : State :=
  match s.boot.fcmd with
  | none => s
  | some (op, a) =>
    if s.flashBusy then s
    else if fault then s.flashResult 3
    else
      let s := if op = 1 then
          (List.range 64).foldl (fun s w => s.setReg (Reg.BOOT_FBUF w) (BitVec.ofNat 32 (s.flashNat (a + 4 * w) 4))) s
        else if op = 2 then s.writeBytes (flashKey a) (s.regBytes Reg.BOOT_FBUF 64)
        else s.flashErase a 0x2000
      s.flashResult 0

/-- A BOOT_FCMD word with a given OP. -/
def withFop (v : Word) (op : Nat) : Word := withField v Fl.BOOT_FCMD_OP op

/-! ## Imports (R363 to R365) -/

/-- An import ends with a result (R365); IMAGE_ID is shown for result 0. -/
def State.importEnd (s : State) (i : Import) (result id : Nat) : State :=
  let s : State := { s with boot := { s.boot with imp := none } }
  let s := (s.setFld Reg.BOOT_IMP_STAT Fl.BOOT_IMP_STAT_BUSY 0).setFld Reg.BOOT_IMP_STAT Fl.BOOT_IMP_STAT_RESULT result
  let s := (s.admRelease 11 .import_).admWithdraw .import_
  if result = 0 then s.post Ev.IMPORT_DONE i.hall i.g [(5, i.slot), (16, id)]
  else s.post Ev.IMPORT_REFUSED i.hall i.g [(5, i.slot), (4, result)]

/-- The mirror loader of hall h answers imports, loads and copies UNAVAIL: reset, under test, or not powered. -/
def State.loaderDown (s : State) (h : Nat) : Bool :=
  s.bit (Reg.FRST_STAT h) Fl.FRST_STAT_STATE || s.loaderTested h || !s.domOn h 64

/-- IMPORT: a write of BOOT_IMP_CMD (R363); st is the status with which the reads of the header were answered. -/
def State.importStart (s : State) (v : Word) (st : Nat) : State :=
  if fieldOf v Fl.BOOT_IMP_CMD_GO = 0 then s
  else
    let h := fieldOf v Fl.BOOT_IMP_CMD_HALL
    let g := fieldOf v Fl.BOOT_IMP_CMD_G
    let k := fieldOf v Fl.BOOT_IMP_CMD_SLOT
    let G := 32 * h + g
    let a := 64 * s.fld Reg.BOOT_IMP_ADDR Fl.BOOT_IMP_ADDR_ADDR + 2 ^ 32 * s.fld Reg.BOOT_IMP_ADDRH Fl.BOOT_IMP_ADDRH_ADDRH
    let i : Import := ⟨h, g, k, a, false⟩
    if s.boot.imp.isSome then
      (s.setFld Reg.BOOT_IMP_STAT Fl.BOOT_IMP_STAT_RESULT 1).post Ev.IMPORT_REFUSED h g [(5, k), (4, 1)]
    else if s.pinned G k || s.slotWriting G k then s.importEnd i 2 0
    else if st ≠ 0 ∨ s.loaderDown h = true then s.importEnd i 8 0
    else
      let x := planeHeader (s.readBytes a 64)
      if !placeAdmits x.1 G then s.importEnd i 3 0
      else if variantLacks s.part x.1.vmask.toNat || gradeLacks s.part x.1.grade.toNat then s.importEnd i 4 0
      else if !x.2.2.2 then s.importEnd i 5 0
      else
        ({ s with boot := { s.boot with imp := some i } }.setFld Reg.BOOT_IMP_STAT Fl.BOOT_IMP_STAT_BUSY 1).admRequest 11 h .import_

/-- The import has been admitted: the slot is WRITING (R363), unless it has become pinned or WRITING meanwhile (R155). -/
def State.importGranted (s : State) : State :=
  match s.boot.imp with
  | none => s
  | some i =>
    let G := 32 * i.hall + i.g
    if s.pinned G i.slot || s.slotWriting G i.slot then s.importEnd i 2 0
    else (({ s with boot := { s.boot with imp := some { i with granted := true } } } : State).emptySlot G i.slot).setFld
      (Reg.GAL_SLOT G i.slot) Fl.GAL_SLOT_STATE 1

/-- The digest of an import, and whether its image is accepted (R364): 0, or result 6 or 7. -/
def State.importVerdict (s : State) (i : Import) (x : PlaneSec) : BitVec 512 × Nat :=
  let d := Config.shake256 (s.readBytes i.addr (64 + x.flen))
  let t := i.addr + 64 + x.flen
  if s.boot.img.cat.contains d then (d, 0)
  else if !x.signed then (d, 6)
  else
    let pk := s.readBytes (t + 4) 64
    if s.keyAccepted (natOfBytes (s.readBytes t 4)) pk && Config.sigOk (keyHash pk) (bytesOf 64 d) (s.readBytes (t + 68) 29792) then (d, 0)
    else (d, 7)

/-- IMPORT_COMPLETE (R363 to R365); st is the status with which the reads of the section were answered. -/
def State.importComplete (s : State) (st : Nat) : State :=
  match s.boot.imp with
  | none => s
  | some i =>
    let G := 32 * i.hall + i.g
    if !i.granted then s
    else if st ≠ 0 then (s.emptySlot G i.slot).importEnd i 8 0
    else match decodePlane (fun o n => s.readBytes (i.addr + o) n) with
      | none => (s.emptySlot G i.slot).importEnd i 9 0
      | some x =>
        if (firstBad x.frames).isSome then (s.emptySlot G i.slot).importEnd i 9 0
        else
          let v := s.importVerdict i x
          if v.2 = 0 then ((s.extend 5 v.1).fillSlot G i.slot 2 x.img).importEnd i 0 x.img.id.toNat
          else (s.emptySlot G i.slot).importEnd i v.2 0

/-! ## Scrubbing (R366 to R372) -/

/-- The scrubber of hall h. -/
def State.scrub (s : State) (h : Nat) : Scrub := Sparse.get s.boot.scrub {} h

/-- Change the scrubber of hall h. -/
def State.setScrub (s : State) (h : Nat) (x : Scrub) : State :=
  { s with boot := { s.boot with scrub := Sparse.set s.boot.scrub {} h x } }

/-- The scrubber of hall h works (R366, R372, R434, R447). -/
def State.scrubOn (s : State) (h : Nat) : Bool :=
  s.running && !s.stopping && s.bit Reg.BOOT_SCRUB_CFG Fl.BOOT_SCRUB_CFG_EN && !s.loaderDown h

/-- Plane p of gallery G is in a resident pass (R367). -/
def State.planeScrubbed (s : State) (G p : Nat) : Bool :=
  let st := s.planeState G p
  let k := s.slotState G (s.fld (Reg.GAL_PLANE G p) Fl.GAL_PLANE_SLOT)
  (st == 2 || st == 3) && k != 3 && k != 4

/-- Slot k of gallery G is in a mirror pass (R368). -/
def State.slotScrubbed (s : State) (G k : Nat) : Bool := s.slotState G k == 2 || s.slotState G k == 3

/-- Unit u of a round whose mirror pass is of gallery m is in the round. -/
def State.unitScrubbed (s : State) (h m u : Nat) : Bool :=
  if u < 128 then s.planeScrubbed (32 * h + u / 4) (u % 4) else s.slotScrubbed (32 * h + m) (u - 128)

/-- The next unit from u on. -/
def State.nextUnit (s : State) (h m u : Nat) : Option Nat := ((List.range 160).filter (fun x => decide (u ≤ x))).find? (s.unitScrubbed h m)

/-- Galleries of hall h for which a priority pass is requested (R93). DESIGN CHOICE (log 72): the lowest number goes first; the rule gives
no order among them. -/
def State.prioGals (s : State) (h : Nat) : List Nat :=
  (List.range 32).filter (fun g => (s.hall h).mezzPass.any (fun x => x.2.contains g))

/-- The contended tracks of hall h that await a pass over gallery g. -/
def State.passesFor (s : State) (h g : Nat) : List Nat := ((s.hall h).mezzPass.filter (fun t => t.2.contains g)).map (·.1)

/-- A priority pass of gallery g has completed: it serves the tracks whose contention came before it began (R93). -/
def State.prioDone (s : State) (h g : Nat) (tracks : List Nat) : State :=
  s.modHall h (fun x =>
    { x with mezzPass := x.mezzPass.map (fun t => if tracks.contains t.1 then (t.1, t.2.filter (· != g)) else t) })

/-- The map of an image in the SENSITIVE section (R371): the reader of its mark map and frames. -/
def findMap (rd : Reader) (len id : Nat) : Nat → Nat → Option Reader
  | 0, _ => none
  | n + 1, o =>
    if o + 64 > len then none
    else
      let h := planeHeader (rd o 64)
      if h.1.id.toNat = id then some (fun a w => rd (o + a) w) else findMap rd len id n (o + 64 + h.2.2.1)

/-- Every differing bit of a frame is benign (R371). -/
def State.benign (s : State) (id f : Nat) (diff : BitVec 4096) : Bool :=
  match s.boot.img.sects.find? (·.typ == 6) with
  | none => false
  | some x => match findMap (s.sectReader x) x.len id 65536 0 with
    | none => false
    | some rd => match decodeFrames rd 768 0 256 (0, 0) with
      | none => false
      | some (l, _) => diff &&& (l.getD f (0, 0)).1 == 0

/-- A slot met an uncorrectable frame (R368, R369): BAD, with a reload asked for when it came from flash. -/
def State.scrubBad (s : State) (G k f : Nat) : State :=
  let s := s.slotBad G k f
  if s.slotState G k = 3 ∧ (32 * G + k) ∉ s.boot.reload then
    { s with boot := { s.boot with reload := s.boot.reload ++ [32 * G + k] } }
  else s

/-- A plane frame is rewritten from the corrected copy (R367, R370, R371). -/
def State.planeRewrite (s : State) (G p f : Nat) (diff : BitVec 4096) : State :=
  let h := G / 32
  let s := s.incFld (Reg.BOOT_SCRUB_CNT h) Fl.BOOT_SCRUB_CNT_REPAIRED 1
  if !s.bit Reg.BOOT_SCRUB_CFG Fl.BOOT_SCRUB_CFG_SB then s.postLim Ev.SCRUB_PLANE_REPAIR G ms h (G % 32) [(2, p), (10, f)]
  else
    s.postGal (if s.fld (Reg.GAL_SLOT G (s.fld (Reg.GAL_PLANE G p) Fl.GAL_PLANE_SLOT)) Fl.GAL_SLOT_ORIGIN != 2 && s.benign (s.fld (Reg.GAL_PLANE G p) Fl.GAL_PLANE_IMAGE_ID) f diff then Ev.SCRUB_BENIGN else Ev.SCRUB_SENSITIVE) G
      [(2, p), (10, f)]

/-- One frame of a resident pass (R367): mirror 0 good, 1 single error, 2 uncorrectable; diff: bits in which the plane differs. -/
def State.residentFrame (s : State) (G p f mirror : Nat) (diff : BitVec 4096) : State :=
  let k := s.fld (Reg.GAL_PLANE G p) Fl.GAL_PLANE_SLOT
  if mirror = 2 then s.scrubBad G k f
  else
    let s := if mirror = 1 then s.mirrorCe G k f else s
    if diff = 0 then s else s.planeRewrite G p f diff

/-- Show where the scrubber stands. -/
def State.showScrub (s : State) (h kind g slot plane frame : Nat) : State :=
  s.setReg (Reg.BOOT_SCRUB_POS h)
    (BitVec.ofNat 32 (packBits [(7, 0), (10, frame), (2, plane), (5, slot), (5, g), (1, 0), (2, kind)]))

/-- The scrubber of hall h is stopped or paused. -/
def State.scrubPaused (s : State) (h : Nat) : State := s.setFld (Reg.BOOT_SCRUB_POS h) Fl.BOOT_SCRUB_POS_KIND 3

/-- A frame step of a priority pass of gallery g from plane p and frame f (R366, R93). -/
def State.prioStep (s : State) (h g p f mirror : Nat) (diff : BitVec 4096) : State :=
  let G := 32 * h + g
  let x := s.scrub h
  match ((List.range 4).filter (fun q => decide (p ≤ q))).find? (s.planeScrubbed G) with
  | none => (s.prioDone h g x.prioFor).setScrub h { x with prio := none }
  | some q =>
    let f := if q = p then f else 0
    let s := (s.showScrub h 2 g (s.fld (Reg.GAL_PLANE G q) Fl.GAL_PLANE_SLOT) q f).residentFrame G q f mirror diff
    if f + 1 < 768 then s.setScrub h { x with prio := some (g, q, f + 1) }
    else if ((List.range 4).filter (fun r => decide (q < r))).any (s.planeScrubbed G) then s.setScrub h { x with prio := some (g, q + 1, 0) }
    else (s.prioDone h g x.prioFor).setScrub h { x with prio := none }

/-- The scrubber stands at x after a frame step; the round is over where no unit is left in it (R366). -/
def State.roundGoes (s : State) (h : Nat) (x : Scrub) : State :=
  if (s.nextUnit h x.m x.u).isSome then s.setScrub h x
  else (s.incFld (Reg.BOOT_SCRUB_ROUNDS h) Fl.BOOT_SCRUB_ROUNDS_COUNT 1).setScrub h { x with u := 0, frame := 0, m := (x.m + 1) % 32 }

/-- A frame step of the round (R366 to R368); a resident pass pauses during a load into its gallery. -/
def State.roundStep (s : State) (h mirror : Nat) (diff : BitVec 4096) : State :=
  let x := s.scrub h
  match s.nextUnit h x.m x.u with
  | none => s.roundGoes h x
  | some u =>
    let f := if u = x.u then x.frame else 0
    let next : Scrub := if f + 1 < 768 then { x with u := u, frame := f + 1 } else { x with u := u + 1, frame := 0 }
    if u < 128 then
      let G := 32 * h + u / 4
      let p := u % 4
      if (s.gal G).loadBusy then s.scrubPaused h
      else
        ((s.showScrub h 0 (u / 4) (s.fld (Reg.GAL_PLANE G p) Fl.GAL_PLANE_SLOT) p f).residentFrame G p f mirror diff).roundGoes h next
    else
      let G := 32 * h + x.m
      let k := u - 128
      let s := s.showScrub h 1 x.m k 0 f
      let s := if mirror = 1 then s.mirrorCe G k f else if mirror = 2 ∧ s.slotState G k = 2 then s.scrubBad G k f else s
      s.roundGoes h next

/-- SCRUB_FRAME_STEP (R366). -/
def State.scrubStep (s : State) (h mirror : Nat) (diff : BitVec 4096) : State :=
  if !s.scrubOn h then s.scrubPaused h
  else match (s.scrub h).prio with
    | some (g, p, f) => if (s.gal (32 * h + g)).loadBusy then s.scrubPaused h else s.prioStep h g p f mirror diff
    | none => match s.prioGals h with
      | g :: _ =>
        if (s.gal (32 * h + g)).loadBusy then s.scrubPaused h
        else (s.setScrub h { s.scrub h with prioFor := s.passesFor h g }).prioStep h g 0 0 mirror diff
      | [] => s.roundStep h mirror diff

/-- SCRUB_SLOT_RELOAD_DONE (R369): the reload of a BAD slot ends; fault is a flash fault. -/
def State.slotReloaded (s : State) (G k : Nat) (fault : Bool) : State :=
  let key := 32 * G + k
  if key ∉ s.boot.reload ∨ s.slotState G k ≠ 3 then s
  else
    let s : State := { s with boot := { s.boot with reload := s.boot.reload.filter (· != key) } }
    let x := s.boot.img.sects.getD (Sparse.get s.boot.slotSect 0 key) default
    match (if fault || !s.digestOk x then none else decodePlane (s.sectReader x)) with
    | some d => (s.fillSlot G k 1 d.img).postGal Ev.SCRUB_SLOT_RELOADED G [(5, k)]
    | none =>
      (s.setFld (Reg.GAL_SLOT G k) Fl.GAL_SLOT_STATE 4).postGal Ev.SCRUB_SLOT_UNUSABLE G
        [(5, k), (2, s.fld (Reg.GAL_SLOT G k) Fl.GAL_SLOT_ORIGIN)]

/-- PLANE_LOAD_COMPLETE with the reload that a BAD slot asks for (R146, R368, R369). -/
def State.loadCompleted (s : State) (G : Nat) (f : LoadFacts) : State :=
  let k := ((s.gal G).loadQ.headD ⟨0, 0, false, .host⟩).slot
  let s := s.planeLoadComplete G f
  if s.slotState G k = 3 ∧ (32 * G + k) ∉ s.boot.reload then
    { s with boot := { s.boot with reload := s.boot.reload ++ [32 * G + k] } }
  else s

/-! ## Meanings -/

/-- RECORD_WRITE_DONE (R375). -/
def execRecordWriteDone (fault : Bool) (s : State) : Out := .next (s.recordWriteDone fault)
/-- FLASH_READ (R377). -/
def execFlashRead (v : Word) (s : State) : Out := .next (s.flashCommand (withFop v 1))
/-- FLASH_PROGRAM (R377). -/
def execFlashProgram (v : Word) (s : State) : Out := .next (s.flashCommand (withFop v 2))
/-- FLASH_ERASE (R377). -/
def execFlashErase (v : Word) (s : State) : Out := .next (s.flashCommand (withFop v 3))
/-- FLASH_CMD_DONE (R377). -/
def execFlashCmdDone (fault : Bool) (s : State) : Out := .next (s.flashCmdDone fault)
/-- IMPORT (R363). -/
def execImport (v : Word) (st : Fin 8) (s : State) : Out := .next (s.importStart v st)
/-- IMPORT_COMPLETE (R365). -/
def execImportComplete (st : Fin 8) (s : State) : Out := .next (s.importComplete st)
/-- SCRUB_FRAME_STEP (R366). -/
def execScrubFrameStep (h : HallIx) (mirror : Fin 3) (diff : BitVec 4096) (s : State) : Out := .next (s.scrubStep h mirror diff)
/-- SCRUB_SLOT_RELOAD_DONE (R369). -/
def execScrubSlotReloadDone (G : GalIx) (k : SlotIx) (fault : Bool) (s : State) : Out := .next (s.slotReloaded G k fault)
/-- PLANE_LOAD_COMPLETE (R146). -/
def execPlaneLoadComplete (G : GalIx) (f : LoadFacts) (s : State) : Out := .next (s.loadCompleted G f)

end Sys2Proof.Machine
end

