-- ==== Sys2Proof/Machine/Omist.lean ====
section
/-!
DEFINITION. Machine/Omist.lean: the network's links, corridors, routes, lens probes, arrivals and completions (chapter 07, R63 to
R66, R231 to R265, R500).
-/
namespace Sys2Proof.Machine

/-! ## Error counts -/

/-- A response or notice is dropped (OMI_ERR.RETIRED). -/
def State.retired (s : State) (h : Nat) : State := s.incFld (Reg.OMI_ERR h) Fl.OMI_ERR_RETIRED 1

/-- A packet that cannot be delivered: a request is answered with a status, anything else dropped and counted. -/
def State.turnedAway (s : State) (h : Nat) (p : Packet) (st : OSt) : State :=
  if hasResponse p.cmd.toNat then s.respond p st [] else s.retired h

/-! ## Links of a hall (R234, R250) -/

/-- The node, side and mesh of a link index. -/
def linkNode (i : Nat) : Nat := i / 8 % 40
def linkSide (i : Nat) : Nat := i % 8

/-- The link index of a mesh, node and side. -/
def linkIx (m n d : Nat) : Nat := 320 * m + 8 * n + d

/-- No link lies at this side (R234). -/
def State.linkAbsent (s : State) (h i : Nat) : Bool :=
  let n := linkNode i
  let d := linkSide i
  if d = 0 then n / 8 == 0
  else if d = 1 then n % 8 == 7
  else if d = 2 then n / 8 == 4
  else if d = 3 then n % 8 == 0
  else if n < 32 then decide (6 ≤ d)
  else if n = 34 then false
  else if d ≠ 4 then true
  else if n = 32 then !s.part.gweak
  else if n = 33 then !hasPort h
  else if n = 36 then h != 0
  else if n = 37 then h % 4 == 0
  else if n = 38 then h % 4 == 3
  else false

/-- The hidden state of a link. -/
def State.link (s : State) (h i : Nat) : Link := Sparse.get (s.hall h).links {} i

/-- Change a link. -/
def State.modLink (s : State) (h i : Nat) (f : Link → Link) : State :=
  s.modHall h (fun x => { x with links := Sparse.set x.links {} i (f (Sparse.get x.links {} i)) })

/-- The link state that OMI_LSTAT shows (R250). -/
def State.linkState (s : State) (h i : Nat) : Nat := if s.linkAbsent h i then 3 else (s.link h i).st

/-- The index of the same link as seen from its other end; an attachment side has none. -/
def linkPeer (i : Nat) : Option Nat :=
  let m := i / 320
  let n := linkNode i
  if linkSide i = 0 then some (linkIx m (n - 8) 2)
  else if linkSide i = 1 then some (linkIx m (n + 1) 3)
  else if linkSide i = 2 then some (linkIx m (n + 8) 0)
  else if linkSide i = 3 then some (linkIx m (n - 1) 1)
  else none

/-- Change a link as seen from both its ends. -/
def State.modBoth (s : State) (h i : Nat) (f : Link → Link) : State :=
  match linkPeer i with
  | some j => (s.modLink h i f).modLink h j f
  | none => s.modLink h i f

/-- A link's state and its last self-test. -/
def linkMark (st r : Nat) (x : Link) : Link := { x with st := st, result := r }

/-- A link declared dead: LATE counts from here, and LATE_SPEAKER may come again (R254). -/
def linkDeclared (x : Link) : Link := { x with st := 1, late := 0, spoke := false, unconf := [] }

/-- A link whose self-test runs. -/
def linkTesting (x : Link) : Link := { x with st := 2 }

/-- A link that has passed its self-test: LATE is cleared (R255). -/
def linkPassed (x : Link) : Link := { linkMark 0 1 x with late := 0 }

/-- The links (node, side) of the route from node a to node b: along the row, then along the column (R234). -/
def pathLinks : Nat → Nat → Nat → List (Nat × Nat)
  | 0, _, _ => []
  | f + 1, a, b =>
    if a % 8 < b % 8 then (a, 1) :: pathLinks f (a + 1) b
    else if a % 8 > b % 8 then (a, 3) :: pathLinks f (a - 1) b
    else if a / 8 < b / 8 then (a, 2) :: pathLinks f (a + 8) b
    else if a / 8 > b / 8 then (a, 0) :: pathLinks f (a - 8) b
    else []

/-- The route from node a to node b crosses a link of mesh m that is not live. -/
def State.pathDead (s : State) (h m a b : Nat) : Bool :=
  (pathLinks 12 a b).any (fun x => (s.link h (linkIx m x.1 x.2)).st != 0)

/-! ## Corridors (R27, R63 to R66) -/

/-- The hidden state of a corridor. -/
def State.corr (s : State) (c : Nat) : Corr := Sparse.get s.corrs {} c

/-- Change a corridor. -/
def State.modCorr (s : State) (c : Nat) (f : Corr → Corr) : State := { s with corrs := Sparse.set s.corrs {} c (f (s.corr c)) }

/-- The two ends of a corridor: hall and side (0 west, 1 east, 2 vertical) (R27). -/
def corrEnds (c : Nat) : (Nat × Nat) × (Nat × Nat) :=
  if c < 6 then ((4 * (c / 3) + c % 3, 1), (4 * (c / 3) + c % 3 + 1, 0)) else ((c - 6, 2), (c - 2, 2))

/-- The hall that side k of hall h leads to. -/
def hallOver (h k : Nat) : Nat := if k = 0 then h - 1 else if k = 1 then h + 1 else (h + 4) % 8

/-- A fence bit of channel ch is set at either end. -/
def State.fenceBit (s : State) (c ch : Nat) : Bool :=
  let e := corrEnds c
  bitOf (s.fld (Reg.CORR_CTRL e.1.1 e.1.2) Fl.CORR_CTRL_FENCE) ch || bitOf (s.fld (Reg.CORR_CTRL e.2.1 e.2.2) Fl.CORR_CTRL_FENCE) ch

/-- A hall fence of either hall holds the corridor. -/
def State.hallFence (s : State) (c : Nat) : Bool :=
  let e := corrEnds c
  s.bit (Reg.HALL_FENCE e.1.1) Fl.HALL_FENCE_FENCE || s.bit (Reg.HALL_FENCE e.2.1) Fl.HALL_FENCE_FENCE

/-- A channel's state at its end in hall h (R257): 0 LIVE, 1 DEAD, 2 TESTING. -/
def State.chanSt (s : State) (c h ch : Nat) : Nat := Sparse.get (s.corr c).st 0 (5 * h + ch)

/-- The end in hall h sends nothing by a channel: it has fenced it, or host software holds it (R63). -/
def State.endFenced (s : State) (c h ch : Nat) : Bool := s.chanSt c h ch != 0 || s.fenceBit c ch || s.hallFence c

/-- A channel's state as CORR_STAT and commands see it: that of the end that has left LIVE. -/
def State.chanOf (s : State) (c ch : Nat) : Nat :=
  let e := corrEnds c
  max (s.chanSt c e.1.1 ch) (s.chanSt c e.2.1 ch)

/-- A channel is fenced at either end, for any cause (R63). -/
def State.chanFenced (s : State) (c ch : Nat) : Bool := s.chanOf c ch != 0 || s.fenceBit c ch || s.hallFence c

/-- SPARE_EN is set at both ends. -/
def State.spareEn (s : State) (c : Nat) : Bool :=
  let e := corrEnds c
  s.bit (Reg.CORR_CTRL e.1.1 e.1.2) Fl.CORR_CTRL_SPARE_EN && s.bit (Reg.CORR_CTRL e.2.1 e.2.2) Fl.CORR_CTRL_SPARE_EN

/-- Mesh m has a channel in the corridor (R64). -/
def State.meshHas (s : State) (c m : Nat) : Bool :=
  [2 * m, 2 * m + 1].any (fun ch => !s.chanFenced c ch || (s.corr c).spare == some ch)

/-- The mesh-lost bit of CORR_STAT. -/
def detourFld (m : Nat) : Fld := if m = 0 then Fl.CORR_STAT_MESH0_DETOUR else Fl.CORR_STAT_MESH1_DETOUR

/-- Show a corridor's state at both ends (R63). -/
def State.corrShow (s : State) (c : Nat) (f : Fld) (n : Nat) : State :=
  let e := corrEnds c
  (s.setFld (Reg.CORR_STAT e.1.1 e.1.2) f n).setFld (Reg.CORR_STAT e.2.1 e.2.2) f n

/-- One mesh of a corridor after a change: a mesh that has just lost its last channel is reported (R64). -/
def State.meshSettle (s : State) (c m : Nat) : State :=
  let e := corrEnds c
  let lost := !s.meshHas c m
  let s := if lost && !s.bit (Reg.CORR_STAT e.1.1 e.1.2) (detourFld m) then s.post Ev.CORR_MESH_LOST 15 c [(1, m)] else s
  s.corrShow c (detourFld m) (b2n lost)

/-- A packet has been started on channel ch of corridor c from the end in hall h, and is not confirmed (R232): it has not left the far
input. -/
def startedOn (h ch c : Nat) (p : Packet) : Bool :=
  p.spot.any (fun x => x.chan == some ch && x.side == 4 && !x.target && x.hall != h && corridorOf x.hall (x.node - 37) == some c)

/-- The packets started on a channel from the end in hall h and not confirmed, in order. -/
def State.chanCopies (s : State) (c h ch : Nat) : List Packet :=
  Sparse.get (s.corr c).unconf [] (5 * h + ch) ++ s.net.filter (startedOn h ch c)

/-- The spare has packets that are not confirmed. -/
def State.spareBusy (s : State) (c : Nat) : Bool :=
  let e := corrEnds c
  !(s.chanCopies c e.1.1 4 ++ s.chanCopies c e.2.1 4).isEmpty

/-- After a change of a corridor: the spare's use, the meshes, and CORR_STAT (R63, R64). A channel that has left the fence keeps the
spare until what the spare carries has been confirmed (R256). -/
def State.corrSettle (s : State) (c : Nat) : State :=
  let ok := s.spareEn c && !s.chanFenced c 4
  let keep := ((s.corr c).spare).filter (fun ch => ok && (s.chanFenced c ch || s.spareBusy c))
  let s := match keep, (if ok then [0, 1, 2, 3].find? (s.chanFenced c) else none) with
    | none, some ch => (s.modCorr c (fun x => { x with spare := some ch })).post Ev.CORR_SPARE_IN_USE 15 c [(3, ch)]
    | k, _ => s.modCorr c (fun x => { x with spare := k })
  let s := (s.meshSettle c 0).meshSettle c 1
  let s := s.corrShow c Fl.CORR_STAT_FENCED (packBits ([0, 1, 2, 3, 4].map (fun ch => (1, b2n (s.chanFenced c ch)))))
  s.corrShow c Fl.CORR_STAT_SPARE_FOR (((s.corr c).spare).getD 7)

/-- Set a channel's state at its end in hall h. -/
def State.setEnd (s : State) (c h ch st : Nat) : State := s.modCorr c (fun x => { x with st := Sparse.set x.st 0 (5 * h + ch) st })

/-- Set a channel's state at both its ends. -/
def State.setChan (s : State) (c ch st : Nat) : State := (s.setEnd c (corrEnds c).1.1 ch st).setEnd c (corrEnds c).2.1 ch st

/-- The packet as its sender holds it for a replay: in the router or gateway at (h, n), to be sent again in mesh m (R251). -/
def replayOf (h n m : Nat) (p : Packet) : Packet :=
  { p with spot := some { hall := h, node := n, side := 8, mesh := m, inside := true }, mesh := BitVec.ofNat 1 m, cut := false }

/-- Of the packets that a link interrupts, those whose virtual channel is listed as part-way: the last started in each (R252). -/
def partWay (l : List Packet) (vcs : List (Fin 4)) : List Packet :=
  (List.range 4).filterMap (fun v => if vcs.any (fun x => x.val == v) then (l.filter (fun p => p.vc.toNat == v)).getLast? else none)

/-- Packets in flight whose tail will not come are ended with CUT (R252). -/
def State.cutPackets (s : State) (l : List Packet) : State :=
  { s with net := s.net.map (fun p => if l.contains p then { p with cut := true } else p) }

/-- Put packets in flight. -/
def State.putNet (s : State) (l : List Packet) : State := { s with net := s.net ++ l }

/-- The end in hall h of a channel fences it (R251, R252, R257): LINK_DEAD in its own hall, own = this end declares. Every packet that
this end has started and not had confirmed is replayed, with HOPS as before the crossing; those part-way are cut beyond. -/
def State.endFences (s : State) (h c ch : Nat) (own : Bool) (part : List (Fin 4)) : State :=
  let k := if (corrEnds c).1.1 = h then (corrEnds c).1.2 else (corrEnds c).2.2
  let l := s.chanCopies c h ch
  let s := (s.cutPackets (partWay (s.net.filter (startedOn h ch c)) part)).putNet
    (l.map (fun p => replayOf h (37 + k) p.mesh.toNat { p with hops := p.hops - 1 }))
  let s := (s.setEnd c h ch 1).modCorr c (fun x =>
    { x with spoke := x.spoke.filter (· != 5 * h + ch), unconf := Sparse.del x.unconf (5 * h + ch) })
  s.post Ev.LINK_DEAD h c [(10, ch), (1, b2n own)]

/-- An end that has not yet fenced a channel which the other has declared dead does so now (R257). -/
def State.endLearns (s : State) (c h ch : Nat) : State :=
  if s.chanSt c h ch == 0 && s.chanOf c ch == 1 then s.endFences h c ch false [] else s

/-- Start the self-test of a channel for hall h (R66, R255); the notice of a declaration has reached both ends by then. -/
def State.chanTest (s : State) (h c ch : Nat) : State :=
  (((s.endLearns c (corrEnds c).1.1 ch).endLearns c (corrEnds c).2.1 ch).setChan c ch 2).modCorr c (fun x => { x with tester := Sparse.put x.tester ch h })

/-- The corridors of a hall, by side. -/
def corrsOf (h : Nat) : List Nat := [0, 1, 2].filterMap (corridorOf h)

/-- A write of HALL_FENCE, or FRST_TIMEOUT (R65, R66). -/
def State.hallFenceSet (s : State) (h cause : Nat) : State :=
  if s.bit (Reg.HALL_FENCE h) Fl.HALL_FENCE_FENCE then s
  else
    let s := (s.setFld (Reg.HALL_FENCE h) Fl.HALL_FENCE_FENCE 1).post Ev.HALL_FENCED h 63 [(1, cause)]
    (corrsOf h).foldl (fun s c => s.corrSettle c) s

/-- The hall fence is cleared (R66): DEAD channels, and those that it held, are tested unless another fence holds them. -/
def State.hallFenceClear (s : State) (h : Nat) : State :=
  let was := s.bit (Reg.HALL_FENCE h) Fl.HALL_FENCE_FENCE
  let s := s.setFld (Reg.HALL_FENCE h) Fl.HALL_FENCE_FENCE 0
  (corrsOf h).foldl (fun s c =>
    let s := (List.range 5).foldl (fun s ch =>
      if s.fenceBit c ch || s.hallFence c || s.chanOf c ch == 2 then s
      else if was || s.chanOf c ch == 1 then s.chanTest h c ch else s) s
    s.corrSettle c) s

/-- A write of HALL_FENCE (R65, R66). -/
def State.hallFenceWrite (s : State) (h : Nat) (v : Word) : State :=
  if fieldOf v Fl.HALL_FENCE_FENCE = 1 then s.hallFenceSet h 0 else s.hallFenceClear h

/-- Bits FENCE and SPARE_EN of a write of CORR_CTRL_k (R63). -/
def State.corrFence (s : State) (h k : Nat) (v : Word) : State :=
  match corridorOf h k with
  | none => s
  | some c => (s.writeFields (Reg.CORR_CTRL h k) v).corrSettle c

/-- Bit READMIT of a write of CORR_CTRL_k (R66, R255). -/
def State.corrReadmit (s : State) (h k : Nat) : State :=
  match corridorOf h k with
  | none => s
  | some c =>
    let s := (List.range 5).foldl (fun s ch =>
      if s.chanOf c ch == 1 && !s.fenceBit c ch && !s.hallFence c then s.chanTest h c ch else s) s
    s.corrSettle c

/-- A write of CORR_CTRL_k. -/
def State.corrCtrlWrite (s : State) (h k : Nat) (v : Word) : State :=
  let s := s.corrFence h k v
  if fieldOf v Fl.CORR_CTRL_READMIT = 1 then s.corrReadmit h k else s

/-! ## Dead links, late speakers and self-tests (R250 to R256) -/

/-- The other end of corridor c from hall h. -/
def farHall (c h : Nat) : Nat := if (corrEnds c).1.1 = h then (corrEnds c).2.1 else (corrEnds c).1.1

/-- A packet stands at input i of hall h, sent there by the router beyond. -/
def standsAt (h i : Nat) (p : Packet) : Bool :=
  p.spot.any (fun x => x.hall == h && linkIx x.mesh x.node x.side == i && decide (x.side < 4) && !x.target)

/-- The packets started on the link that leaves by side i and not confirmed (R232), in order. -/
def State.linkCopies (s : State) (h i : Nat) : List Packet :=
  match linkPeer i with
  | some j => (s.link h i).unconf ++ s.net.filter (standsAt h j)
  | none => []

/-- The packets started on a mesh link are replayed on the other mesh at the same node, those part-way cut beyond (R251, R252). -/
def State.linkReplay (s : State) (h i : Nat) (part : List (Fin 4)) : State :=
  match linkPeer i with
  | some j =>
    let l := s.linkCopies h i
    (s.cutPackets (partWay (s.net.filter (standsAt h j)) part)).putNet (l.map (replayOf h (linkNode i) (1 - i / 320)))
  | none => s

/-- LINK_DEAD (R251, R252, R257); part names the virtual channels in which a packet was part-way: those sent by this end (false) and by
the other (true). -/
def State.linkDead (s : State) (h : Nat) (l : LinkRef) (part : List (Fin 4 × Bool)) : State :=
  let mine := (part.filter (fun x => !x.2)).map (·.1)
  let theirs := (part.filter (·.2)).map (·.1)
  match l with
  | .link i =>
    if s.linkState h i = 0 then
      let s := s.linkReplay h i mine
      let s := match linkPeer i with
        | some j => s.linkReplay h j theirs
        | none => s
      (s.modBoth h i linkDeclared).post Ev.LINK_DEAD h 63 [(10, i), (1, 1)]
    else s
  | .channel k ch =>
    match corridorOf h k with
    | none => s
    | some c =>
      if s.chanSt c h ch = 0 ∧ s.fenceBit c ch = false ∧ s.hallFence c = false then
        (s.endFences h c ch (s.chanSt c (farHall c h) ch == 0) mine).corrSettle c
      else s

/-- NOTICE of a dead channel: this end fences it, if the other end has declared it dead and this one has not yet (R257). -/
def State.noticeDead (s : State) (h : Nat) (k ch : Nat) : State :=
  match corridorOf h k with
  | none => s
  | some c =>
    if s.chanSt c h ch = 0 ∧ s.chanSt c (farHall c h) ch = 1 then (s.endFences h c ch false []).corrSettle c else s

/-- The isolation latch at the end of channel ch in hall h swallows n handshakes (R254). -/
def State.chanLate (s : State) (h c ch n : Nat) : State :=
  let first := !(s.corr c).spoke.contains (5 * h + ch)
  let s := s.incFld (Reg.OMI_LATE h) Fl.OMI_LATE_COUNT n
  if first then (s.modCorr c (fun x => { x with spoke := (5 * h + ch) :: x.spoke })).post Ev.LATE_SPEAKER h c [(10, ch)] else s

/-- LATE_SPEAKER (R254). -/
def State.lateSpeaker (s : State) (h : Nat) : LinkRef → State
  | .link i =>
    if s.linkState h i = 1 then
      let first := !(s.link h i).spoke
      let s := (s.modLink h i (fun x => { x with late := satAdd 16 x.late 1, spoke := true })).incFld (Reg.OMI_LATE h) Fl.OMI_LATE_COUNT 1
      if first then s.post Ev.LATE_SPEAKER h 63 [(10, i)] else s
    else s
  | .channel k ch =>
    match corridorOf h k with
    | none => s
    | some c => if s.chanSt c h ch = 1 then s.chanLate h c ch 1 else s

/-- A self-test of link i of hall h ends: result 1 pass, 2 no acknowledge, 3 data mismatch, 4 unit not ready (R255). -/
def State.linkTested (s : State) (h i r : Nat) : State :=
  if r = 1 then (s.modBoth h i linkPassed).post Ev.LINK_READMITTED h 63 [(10, i)]
  else (s.modBoth h i (linkMark 1 r)).post Ev.LINK_TEST_FAIL h 63 [(10, i), (3, r)]

/-- The power domain of the unit at a node and port (R258); none for one that never sleeps. -/
def domOfPort (n p : Nat) : Option Nat :=
  if n < 32 then (if p ≤ 1 then some n else if p = 2 then some (32 + n) else none)
  else if n = 32 then some 70 else if n = 33 then some 71 else if n = 34 then some 69
  else if n = 35 ∧ p ≤ 6 then some 64 else none

/-- The unit behind an attachment side is in reset or powered off (R255). -/
def State.unitDown (s : State) (h i : Nat) : Bool :=
  let n := linkNode i
  let d := linkSide i
  if d < 4 then false
  else
    let port := if n < 32 then (if d = 4 then 0 else 2) else d - 4
    ((domOfPort n port).any (fun x => !s.domOn h x)) || (s.inFrst h && decide (n < 35))

/-- OMI_READMIT with GO (R255). -/
def State.linkReadmit (s : State) (h i : Nat) : State :=
  if s.linkState h i ≠ 1 then s
  else if s.unitDown h i then s.linkTested h i 4
  else s.modBoth h i linkTesting

/-- A write of OMI_READMIT. -/
def State.readmitWrite (s : State) (h : Nat) (v : Word) : State :=
  let i := fieldOf v Fl.OMI_READMIT_LINK
  if fieldOf v Fl.OMI_READMIT_GO = 1 ∧ i < 640 then s.linkReadmit h i else s

/-- LINK_SELF_TEST_DONE (R255): result 1 to 3. -/
def State.selfTestDone (s : State) (h : Nat) (l : LinkRef) (r : Nat) : State :=
  match l with
  | .link i => if s.linkState h i = 2 then s.linkTested h i r else s
  | .channel k ch =>
    match corridorOf h k with
    | none => s
    | some c =>
      if s.chanOf c ch ≠ 2 then s
      else
        let x := Sparse.get (s.corr c).tester h ch
        if r = 1 then ((s.setChan c ch 0).post Ev.LINK_READMITTED x c [(10, ch)]).corrSettle c
        else ((s.setChan c ch 1).post Ev.LINK_TEST_FAIL x c [(10, ch), (3, r)]).corrSettle c

/-! ## Routes between halls (R38, R253) -/

/-- The side by which hall h sends a packet for hall d: horizontal corridors first (R38). -/
def defaultSide (h d : Nat) : Nat := if h % 4 < d % 4 then 1 else if h % 4 > d % 4 then 0 else 2

/-- Mesh m has a channel in the corridor on side k of hall h. -/
def State.sideHas (s : State) (h k m : Nat) : Bool :=
  match corridorOf h k with
  | some c => s.meshHas c m
  | none => false

/-- The detour entry of hall h toward hall d for mesh m, as a side (R253). -/
def State.detour (s : State) (h d m : Nat) : Option Nat :=
  let e := s.fld (Reg.OMI_HDET h d) (if m = 0 then Fl.OMI_HDET_MESH0 else Fl.OMI_HDET_MESH1)
  if 1 ≤ e ∧ e ≤ 3 then some (e - 1) else none

/-- The side and mesh by which a packet for hall d leaves hall h; none where it is not forwarded (R253). -/
def State.leaves (s : State) (h d m : Nat) : Option (Nat × Nat) :=
  let k := defaultSide h d
  if s.sideHas h k m then some (k, m)
  else match (s.detour h d m).filter (fun j => s.sideHas h j m) with
    | some j => some (j, m)
    | none => if s.sideHas h k (1 - m) then some (k, 1 - m) else none

/-- A packet gets from hall a to hall b within the hops left (R253). -/
def State.reaches (s : State) : Nat → Nat → Nat → Nat → Bool
  | 0, a, b, _ => a == b
  | f + 1, a, b, m => if a = b then true else match s.leaves a b m with
    | some (k, m') => s.reaches f (hallOver a k) b m'
    | none => false

/-- A request with key K from hall a to hall b, and its response, get through. -/
def State.connected (s : State) (a b key : Nat) : Bool := s.reaches 6 a b (meshOf key) && s.reaches 6 b a (meshOf key)

/-! ## Lens probes (R262, R263) -/

/-- Four words of a probe's pattern. -/
def State.lensPat (s : State) (r : Nat → Nat) : Nat := packBits ((List.range 4).map (fun w => (32, (s.reg (r w)).toNat)))

/-- Probe k of hall h observes this position and this packet (R262). -/
def State.probeSees (s : State) (h k m n d dir : Nat) (p : Packet) : Bool :=
  let a := Reg.LENS_CFG h k
  let mask := s.lensPat (Reg.LENS_MASK h k)
  s.bit a Fl.LENS_CFG_EN && s.fld a Fl.LENS_CFG_MESH == m && s.fld a Fl.LENS_CFG_NODE == n && s.fld a Fl.LENS_CFG_SIDE == d
    && s.fld a Fl.LENS_CFG_DIR == dir && bitOf (s.fld a Fl.LENS_CFG_VCMASK) p.vc.toNat
    && (p.hdrLow.toNat &&& mask) == (s.lensPat (Reg.LENS_MATCH h k) &&& mask)

/-- The trace record of a packet (R263). -/
def lensRecord (t k flits stall hdr : Nat) : BitVec 256 :=
  BitVec.ofNat 256 (packBits [(48, t), (3, k), (5, 0), (4, flits), (4, 0), (16, min stall 0xFFFF), (48, 0), (128, hdr)])

/-- A counted packet is traced (R263); lost says that its record cannot be written at once. -/
def State.lensTrace (s : State) (h k flits stall : Nat) (p : Packet) (lost : Bool) : State :=
  let a := Reg.LENS_TPTR h
  if !s.bit (Reg.LENS_CFG h k) Fl.LENS_CFG_TRACE || !s.bit (Reg.LENS_TCFG h) Fl.LENS_TCFG_EN || s.bit a Fl.LENS_TPTR_STOPPED then s
  else if lost then
    let s := s.incFld a Fl.LENS_TPTR_LOST 1
    s.postLim Ev.LENS_TRACE_LOST h ms h 63 [(14, s.fld a Fl.LENS_TPTR_LOST)]
  else
    let i := s.fld a Fl.LENS_TPTR_NEXT
    let r := lensRecord s.tbNs k flits stall p.hdrLow.toNat
    let s := s.modHall h (fun x => { x with lens := Sparse.put x.lens i r })
    if i < 2047 then s.setFld a Fl.LENS_TPTR_NEXT (i + 1)
    else (s.setFld a Fl.LENS_TPTR_NEXT 0).setFld a
      (if s.bit (Reg.LENS_TCFG h) Fl.LENS_TCFG_STOP then Fl.LENS_TPTR_STOPPED else Fl.LENS_TPTR_WRAPPED) 1

/-- The probes of a hall see a packet pass a position (R262). -/
def State.lensSee (s : State) (h m n d dir : Nat) (p : Packet) (stall : Nat) (lost : Bool) : State :=
  if s.linkState h (linkIx m n d) = 1 ∨ s.linkState h (linkIx m n d) = 3 then s
  else (List.range 8).foldl (fun s k =>
    if s.probeSees h k m n d dir p then
      let flits := 1 + p.units.toNat
      let s := s.incFld (Reg.LENS_PKTS h k) Fl.LENS_PKTS_COUNT 1
      let s := s.incFld (Reg.LENS_FLITS h k) Fl.LENS_FLITS_COUNT flits
      (s.incFld (Reg.LENS_STALL h k) Fl.LENS_STALL_COUNT stall).lensTrace h k flits stall p lost
    else s) s

/-! ## Routers (R234, R248 to R253) -/

/-- A packet in flight is changed. -/
def State.changePacket (s : State) (p q : Packet) : State := { s with net := s.net.replace p q }

/-- The attachment side of a node that a port lies behind. -/
def sideOfPort (n port : Nat) : Nat := if n < 32 then (if port = 2 then 5 else 4) else if n = 34 then 4 + port % 4 else 4

/-- Where a packet stands: at its sending interface before it has entered its router. -/
def spotOf (p : Packet) : Spot :=
  p.spot.getD { hall := p.srcHall.toNat, node := p.srcNode.toNat, side := sideOfPort p.srcNode.toNat p.srcPort.toNat, mesh := p.mesh.toNat }

/-- Where a router sends a packet. -/
inductive Hop where
  /-- By mesh side d of mesh m; via: the side of the gateway that this hall's gateway has sent it to. -/
  | side (d m : Nat) (via : Option Nat)
  /-- By the corridor on side k, in mesh m. -/
  | corridor (k m : Nat)
  /-- To its target. -/
  | target
  /-- It has no route. -/
  | none
  deriving DecidableEq, Repr

/-- The side toward node b from node n: along the row, then along the column (R234). -/
def sideToward (n b : Nat) : Nat := ((pathLinks 1 n b).head?.map (·.2)).getD 8

/-- From router n of hall h toward node b of the hall in mesh m (R234, R240, R251): a new packet goes by the other mesh if its route
crosses a dead link, one under way if the link before it is dead. -/
def State.hopMesh (s : State) (h n b m : Nat) (fresh : Bool) (via : Option Nat) : Hop :=
  let d := sideToward n b
  let dead := fun (m : Nat) => if fresh then s.pathDead h m n b else (s.link h (linkIx m n d)).st != 0
  if !dead m then .side d m via else if !dead (1 - m) then .side d (1 - m) via else .none

/-- What a gateway of hall h does with a packet for hall d, by the corridor on side k (R253). -/
def State.hopGate (s : State) (h n d k m : Nat) (hops : Nat) : Hop :=
  let cross := fun (m : Nat) => if 6 ≤ hops then Hop.none else .corridor k m
  if s.sideHas h k m then cross m
  else match (s.detour h d m).filter (fun j => s.sideHas h j m && j != k) with
    | some j => s.hopMesh h n (37 + j) m false (some j)
    | none => if s.sideHas h k (1 - m) then cross (1 - m) else .none

/-- Where the router at which a packet stands sends it (R234, R251, R253). -/
def State.hopOf (s : State) (p : Packet) : Hop :=
  let x := spotOf p
  let fresh := p.spot.isNone
  if p.dstHall.toNat = x.hall then
    if x.node = p.dstNode.toNat then .target else s.hopMesh x.hall x.node p.dstNode.toNat x.mesh fresh none
  else
    let k := x.via.getD (defaultSide x.hall p.dstHall.toNat)
    if x.node = 37 + k then s.hopGate x.hall x.node p.dstHall.toNat k x.mesh p.hops
    else s.hopMesh x.hall x.node (37 + k) x.mesh fresh x.via

/-- The channel by which the gateway of hall h sends a packet of key K over corridor c in mesh m (R64, R235). -/
def State.chanFor (s : State) (c h m key : Nat) : Nat :=
  let a := 2 * m + parityOf key 0x2AAAAAAA
  let b := 2 * m + (1 - parityOf key 0x2AAAAAAA)
  if !s.endFenced c h a then a
  else if (s.corr c).spare = some a then 4
  else if !s.endFenced c h b then b
  else 4

/-- Packets of one source, destination, virtual channel and order key (R236). -/
def sameOrder (p q : Packet) : Bool := pairId p == pairId q && p.vc == q.vc && orderKey p == orderKey q

/-- No packet of the same source, destination, virtual channel and order key that was sent before is still under way; a second copy of
one that has arrived does not count (R236, R246). -/
def State.oldest (s : State) (p : Packet) : Bool :=
  !s.net.any (fun q => sameOrder p q && decide (0 < (p.seq - q.seq).toNat ∧ (p.seq - q.seq).toNat < 2048) && !s.isDup q)

/-- The sender holds too many copies, or the packet must wait for those that went another way (R232, R247, R256). -/
def State.noRoom (s : State) (p : Packet) (e : Hop) : Bool :=
  let x := spotOf p
  let fits := fun (l : List Packet) (n : Nat) => decide ((l.map flitsOf).foldl (· + ·) (flitsOf p) ≤ n)
  let full := p.spot.isNone && decide (256 ≤ (s.net.filter (fun q => q.spot.isSome && pairId q == pairId p)).length)
  full || match e with
    | .side d m _ =>
      !fits (s.linkCopies x.hall (linkIx m x.node d)) 16
        || (p.spot.isNone && s.net.any (fun q => q.spot.isSome && sameOrder p q && q.mesh.toNat != m))
    | .corridor k m =>
      (match corridorOf x.hall k with
       | some c =>
         let a := s.chanFor c x.hall m (orderKey p)
         !fits (s.chanCopies c x.hall a) 128
           || (List.range 5).any (fun b => b != a && (s.chanCopies c x.hall b).any (fun q => channelOf (orderKey q) == channelOf (orderKey p)))
       | none => true)
    | .target =>
      !fits (s.net.filter (fun q => q.spot.any (fun y => y.target && y.hall == x.hall && y.node == x.node && y.mesh == x.mesh)
        && sideOfPort x.node q.dstPort.toNat == sideOfPort x.node p.dstPort.toNat)) 16
    | .none => false

/-- The link index of the output that a packet asks for; corridors and targets lie behind the attachment sides. -/
def outIx (p : Packet) : Hop → Nat
  | .side d m _ => linkIx m (spotOf p).node d
  | .corridor _ _ => linkIx (spotOf p).mesh (spotOf p).node 4
  | .target => linkIx (spotOf p).mesh (spotOf p).node (sideOfPort (spotOf p).node p.dstPort.toNat)
  | .none => 640

/-- The rank of a virtual channel at an output whose last of VC0 and VC2 was `turn`: the lowest goes first (R242). -/
def vcRank (turn vc : Nat) : Nat := if vc = 3 then 0 else if vc = 1 then 1 else if vc = turn then 3 else 2

/-- Places after the input granted last, in round-robin order (R242). -/
def rrRank (last side : Nat) : Nat := (side + 9 - (last + 1) % 9) % 9

/-- A packet that waits in the same router for the same output goes first (R242). -/
def State.outbid (s : State) (p : Packet) (e : Hop) : Bool :=
  let x := spotOf p
  let i := outIx p e
  let l := s.link x.hall i
  let rank := fun (q : Packet) => 16 * vcRank l.turn q.vc.toNat + rrRank (Sparse.get l.rr 8 q.vc.toNat) (spotOf q).side
  s.net.any (fun q => q.spot.any (fun y => y.inside && !y.target && y.hall == x.hall && y.node == x.node)
    && outIx q (s.hopOf q) == i && !s.noRoom q (s.hopOf q) && decide (rank q < rank p))

/-- An output has sent a packet (R242). -/
def State.outputSent (s : State) (p : Packet) (e : Hop) : State :=
  let x := spotOf p
  let v := p.vc.toNat
  s.modLink x.hall (outIx p e) (fun l =>
    { l with turn := if v = 0 ∨ v = 2 then v else l.turn, rr := Sparse.set l.rr 8 v x.side })

/-- A packet has no live route (R251, R253). -/
def State.noRoute (s : State) (h : Nat) (p : Packet) : State :=
  let s := ((s.take p).turnedAway h p .unavail)
  s.postLim Ev.NO_ROUTE h ms h 63 [(3, p.dstHall.toNat), (6, p.dstNode.toNat), (1, p.mesh.toNat)]

/-- The commands of R238, with the ranges of UNITS and RUNITS and the virtual channel; VC3 notices are 0xC2 to 0xCF. -/
def wellFormedPacket (p : Packet) : Bool :=
  let c := p.cmd.toNat
  let u := p.units.toNat
  let r := p.runits.toNat
  let vc := p.vc.toNat
  let even := fun (x : Nat) => 2 ≤ x && x ≤ 8 && x % 2 == 0
  if c = 1 ∨ c = 5 then vc == 0 && u == 0 && 1 ≤ r && r ≤ 8
  else if c = 2 ∨ c = 6 then vc == 0 && 1 ≤ u && u ≤ 8
  else if c = 3 then vc == 0 && even u
  else if c = 4 then vc == 0 && u == 0 && even r
  else if c = 0x10 then vc == 2 && u ≤ 8
  else if c = 0x11 ∨ c = 0x12 ∨ c = 0x16 then vc == 2 && u == 1
  else if 0x13 ≤ c ∧ c ≤ 0x15 then vc == 2 && u == 0
  else if c = 0x80 then vc == 1 && u ≤ 8
  else if c = 0xC0 then vc == 3 && u == 0 && r == 1
  else if c = 0xC1 then vc == 3 && u == 1
  else if 0xC2 ≤ c ∧ c ≤ 0xCF then vc == 3 && u == 0
  else false

/-- A command of the table of R238. -/
def knownCmd (c : Nat) : Bool :=
  (1 ≤ c && c ≤ 6) || (0x10 ≤ c && c ≤ 0x16) || c == 0x80 || (0xC0 ≤ c && c ≤ 0xCF)

/-- A packet that fails its header check is counted; it goes no further (R248). -/
def State.hdrCheck (s : State) (h n d : Nat) : State :=
  (s.incFld (Reg.OMI_ERR h) Fl.OMI_ERR_HDR 1).postLim Ev.HDR_CHECK h ms h 63 [(6, n), (3, d)]

/-- A packet with a unit whose FCRC fails is counted and goes on poisoned (R249). -/
def State.poisonCheck (s : State) (h n d : Nat) (p : Packet) : State × Packet :=
  if p.badUnits.isEmpty then (s, p)
  else
    let q := { p with poison := true, fdiff := [] }
    ((s.incFld (Reg.OMI_ERR h) Fl.OMI_ERR_POISON 1).postLim Ev.FLIT_POISON h ms h 63 [(6, n), (3, d)], q)

/-- The tail of a packet leaves the input where it stood: its sender's copy is confirmed, unless the confirmation does not get back
(R232). -/
def State.confirm (s : State) (p : Packet) (conf : Bool) : State :=
  let x := spotOf p
  if x.side = 4 ∧ x.chan.isSome then
    match corridorOf x.hall (x.node - 37), x.chan with
    | some c, some ch =>
      let s := if conf then s else
        let k := 5 * farHall c x.hall + ch
        s.modCorr c (fun y => { y with unconf := Sparse.set y.unconf [] k (Sparse.get y.unconf [] k ++ [p]) })
      s.corrSettle c
    | _, _ => s
  else if conf = true ∨ 4 ≤ x.side then s
  else match linkPeer (linkIx x.mesh x.node x.side) with
    | some j => s.modLink x.hall j (fun l => { l with unconf := l.unconf ++ [p] })
    | none => s

/-- A packet crosses corridor c by channel ch from hall h to the gateway of hall g on side k. A far end that has fenced the channel
swallows it (R254, R257), and the sender's copy stands. -/
def State.crosses (s : State) (c h ch g k m : Nat) (p : Packet) : State × Option Packet :=
  let q := { p with mesh := BitVec.ofNat 1 m, hops := p.hops + 1,
                    spot := some { hall := g, node := 37 + k, side := 4, mesh := m, chan := some ch } }
  if s.chanSt c g ch = 1 then
    (((s.take p).modCorr c (fun y =>
        { y with unconf := Sparse.set y.unconf [] (5 * h + ch) (Sparse.get y.unconf [] (5 * h + ch) ++ [q]) })).chanLate g c ch (flitsOf q), none)
  else (s.changePacket p q, some q)

/-- A packet leaves its router by the output it asks for: its new place, or nothing where it is swallowed. -/
def State.moves (s : State) (p : Packet) (e : Hop) (conf : Bool) : State × Option Packet :=
  let x := spotOf p
  match e with
  | .side d m via =>
    match linkPeer (linkIx m x.node d) with
    | some j =>
      let q := { p with mesh := BitVec.ofNat 1 m,
                        spot := some { hall := x.hall, node := linkNode j, side := linkSide j, mesh := m, via := via } }
      (((s.outputSent p e).changePacket p q).confirm p conf, some q)
    | none => (s, some p)
  | .corridor k m =>
    match corridorOf x.hall k with
    | some c =>
      let g := farHall c x.hall
      let y := (s.outputSent p e).crosses c x.hall (s.chanFor c x.hall m (orderKey p)) g (if k = 2 then 2 else 1 - k) m p
      (y.1.confirm p conf, y.2)
    | none => (s, some p)
  | .target =>
    let q := { p with spot := some { x with inside := true, target := true } }
    (((s.outputSent p e).changePacket p q).confirm p conf, some q)
  | .none => ((s.noRoute x.hall p).confirm p true, none)

/-- The side by which an output leaves its router. -/
def outSide (p : Packet) (e : Hop) : Nat := outIx p e % 8

/-- The unit at whose interface a packet stands can send nothing: its attachment side is no live link (R251). -/
def State.unitMute (s : State) (p : Packet) : Bool :=
  p.spot.isNone && s.linkState (spotOf p).hall (linkIx (spotOf p).mesh (spotOf p).node (spotOf p).side) != 0

/-- A packet enters the input where it stands: it is checked there (R248, R249) and seen by lens probes; none where it is discarded. -/
def State.enters (s : State) (p : Packet) (stall : Nat) (lost : Bool) : State × Option Packet :=
  let x := spotOf p
  if x.inside then (s, some p)
  else if p.hdrBad then (((s.take p).hdrCheck x.hall x.node x.side).confirm p true, none)
  else
    let y := (s.lensSee x.hall x.mesh x.node x.side 0 p stall lost).poisonCheck x.hall x.node x.side p
    (y.1.changePacket p y.2, some y.2)

/-- A packet passes the router at which it stands, or is held there (R232, R234, R242): the state, and the packet as it then is, unless
it has ended. The facts are the times for which it waited on entering and leaving, whether a lens record cannot be written at once, and
whether the confirmation of its tail gets back to the sender before. -/
def State.hop (s : State) (p : Packet) (stallIn stallOut : Nat) (lost conf : Bool) : State × Option Packet :=
  if p.landed || s.unitMute p then (s, some p)
  else if p.spot.isNone && s.noRoom p (s.hopOf p) then (s, some p)
  else
    let y := s.enters p stallIn lost
    match y.2 with
    | none => y
    | some p =>
      let s := y.1
      let e := s.hopOf p
      let x := spotOf p
      if s.noRoom p e || s.outbid p e then
        let q := { p with spot := some { x with inside := true } }
        (s.changePacket p q, some q)
      else
        let z := s.moves p e conf
        (if e = .none then z.1 else z.1.lensSee x.hall (outIx p e / 320) x.node (outSide p e) 1 (z.2.getD p) stallOut lost, z.2)

/-- A packet goes on, router by router, until it stands before its target, is held, or ends: the packet where it has arrived. -/
def State.travel : Nat → State → Packet → State × Option Packet
  | 0, s, _ => (s, none)
  | f + 1, s, p =>
    if p.landed then (s, some p)
    else
      let x := s.hop p 0 0 false true
      match x.2 with
      | none => x
      | some q => if q = p ∨ (spotOf q).inside = true ∧ q.landed = false then (x.1, none) else x.1.travel f q

/-- A packet that a command brings to its target: one in flight goes the rest of its way, and is there if none sent before it with the
same order is still under way (R236); one whose sending no command of this model shows stands there at once (log 16). -/
def State.reach (s : State) (p : Packet) : State × Option Packet :=
  if s.net.contains p then
    let x := s.travel 128 p
    (x.1, x.2.filter x.1.oldest)
  else (s, some p)

/-- A packet that its command finds before its target. -/
def State.reached (s : State) (p : Packet) : Bool := !s.net.contains p || (p.landed && s.oldest p)

/-! ## Statistics (R264, R265) -/

/-- The initiator index of a node and port. -/
def initiatorOf (n port : Nat) : Nat :=
  if n < 34 then n else if n = 34 then 34 + port % 4 else if n = 35 then 38 else if n = 36 then (if port = 1 then 40 else 39) else 41

/-- The bin of a latency at scale S (R265). -/
def binOf (scale l : Nat) : Nat := ((List.range 7).find? (fun j => decide (l < 2 ^ (scale + 6 + j)))).getD 7

/-- A request of an initiator has been completed with a status after a latency (R264). -/
def State.istatAdd (s : State) (r : Packet) (st lat : Nat) : State :=
  let h := r.srcHall.toNat
  let k := h * 48 + initiatorOf r.srcNode.toNat r.srcPort.toNat
  let x := Sparse.get s.istat {} k
  let b := binOf (s.fld (Reg.LENS_ISTAT_CTRL h) Fl.LENS_ISTAT_CTRL_SCALE) lat
  let y : IStat :=
    { req := (x.req + 1) % 2 ^ 32, units := satAdd 32 x.units (max r.units.toNat r.runits.toNat), lmin := min x.lmin lat,
      lmax := max x.lmax lat, lsum := (x.lsum + lat) % 2 ^ 64, err := (x.err + b2n (st != 0)) % 2 ^ 32,
      hist := Sparse.set x.hist 0 b ((Sparse.get x.hist 0 b + 1) % 2 ^ 32) }
  { s with istat := Sparse.put s.istat k y }

/-- Copy one initiator's counters into its registers. -/
def State.istatShow (s : State) (h i : Nat) : State :=
  let x := Sparse.get s.istat {} (h * 48 + i)
  let w := fun (s : State) (a n : Nat) => s.setReg a (BitVec.ofNat 32 n)
  let s := w (w (w s (Reg.LENS_IREQ h i) x.req) (Reg.LENS_IUNITS h i) x.units) (Reg.LENS_ILMIN h i) x.lmin
  let s := w (w (w s (Reg.LENS_ILMAX h i) x.lmax) (Reg.LENS_ILSUM_LO h i) x.lsum) (Reg.LENS_ILSUM_HI h i) (x.lsum / 2 ^ 32)
  (List.range 8).foldl (fun s j => w s (Reg.LENS_IHIST h i j) (Sparse.get x.hist 0 j)) (w s (Reg.LENS_IERR h i) x.err)

/-- ISTAT_SNAP (R264). -/
def State.istatSnap (s : State) (h : Nat) : State :=
  let s := (List.range 41).foldl (fun s i => if i < 39 ∨ h = 0 then s.istatShow h i else s) s
  { s with istat := Sparse.drop s.istat (fun k => k / 48 == h) }

/-- A write of LENS_ISTAT_CTRL. -/
def State.istatCtrlWrite (s : State) (h : Nat) (v : Word) : State :=
  let s := s.writeFields (Reg.LENS_ISTAT_CTRL h) v
  if fieldOf v Fl.LENS_ISTAT_CTRL_SNAP = 1 then s.istatSnap h else s

/-- A write of LENS_TPTR: clearing STOPPED restarts at record 0. -/
def State.tptrWrite (s : State) (h : Nat) (v : Word) : State :=
  let a := Reg.LENS_TPTR h
  let was := s.bit a Fl.LENS_TPTR_STOPPED
  let s := s.writeFields a v
  if was && !s.bit a Fl.LENS_TPTR_STOPPED then s.setFld a Fl.LENS_TPTR_NEXT 0 else s

/-! ## Completion of requests (R245) -/

/-- A request of the gallery's endpoint or queue controllers completes. -/
def State.galCompletes (s : State) (G : Nat) (r : Packet) (st : Nat) (data : List (BitVec 512)) (arg : BitVec 224) : State :=
  let t := r.tag.toNat
  let g := s.gal G
  if r.srcPort = 2 then (if t < 544 then s.qResponse G (t % 32) st else s.qLowResponse G (t % 32) st)
  else if r.eq = true ∧ g.eqOut.any (fun e => e.tag == t && e.answer.isNone) = true then
    let a := s.activePlane G
    s.modGal G (fun g => drainEq a
      { g with eqOut := g.eqOut.map (fun e => if e.tag = t ∧ e.answer.isNone = true then { e with answer := some st } else e) })
  else match g.epOut.find? (fun o => o.tag == t) with
    | none => s
    | some o =>
      let s := s.modGal G (fun g => { g with epOut := g.epOut.erase o })
      if o.plane < 4 then s.deliverIP G o.plane { rspOf r (OSt.ofCode st) data with arg := arg } else s

/-- A request completes with a status at its initiator: by its response, by its timeout, or by step 4 of R57. -/
def State.completes (s : State) (r : Packet) (st : Nat) (data : List (BitVec 512)) (arg : BitVec 224) : State :=
  let h := r.srcHall.toNat
  let n := r.srcNode.toNat
  let t := r.tag.toNat
  if n < 32 then s.galCompletes (32 * h + n) r st data arg
  else if n = 32 then
    if t = 1001 then (if st = 0 then s else s.traceLost h)
    else if t = 1000 then s.gwkEnqRsp h st
    else if r.cmd = 0x14 then s.loadReqRsp h (t % 128) st (bitsOf arg.toNat 0 4)
    else s.xmitRsp h t st
  else if n = 34 then (s.ethRsp h (r.srcPort.toNat % 4) t st data).pwrGoOn
  else s

/-- The outstanding request of an interface with a tag. -/
def State.findReq (s : State) (h n port tag : Nat) : Option Req :=
  s.reqs.find? (fun r => r.p.srcHall.toNat == h && r.p.srcNode.toNat == n && r.p.srcPort.toNat == port && r.p.tag.toNat == tag)

/-- The outstanding request that a response answers; a gallery's EQ has tags of its own (R106, R109, R245). -/
def State.answered (s : State) (p : Packet) : Option Req :=
  s.reqs.find? (fun r => r.p.srcHall == p.dstHall && r.p.srcNode == p.dstNode && r.p.srcPort == p.dstPort && r.p.tag == p.tag
    && r.p.eq == p.eq)

/-- Remove an outstanding request. -/
def State.dropReq (s : State) (r : Req) : State := { s with reqs := s.reqs.erase r }

/-- RSP_TIMEOUT (R245): the request is completed with UNAVAIL. -/
def State.rspTimeout (s : State) (h n port tag : Nat) : State :=
  match s.findReq h n port tag with
  | none => s
  | some r =>
    ((s.dropReq r).istatAdd r.p 4 (s.fld (Reg.OMI_CFG h) Fl.OMI_CFG_RSP_TO * 100000)).completes r.p 4 [] 0

/-- A late response is dropped (R245); one that a partial reset retired is counted in DROPPED (R57). -/
def State.rspRetired (s : State) (h n port tag : Nat) : State :=
  if 2 ≤ s.fld (Reg.FRST_STAT h) Fl.FRST_STAT_STATE ∧ n < 35 then s.incFld (Reg.FRST_STAT h) Fl.FRST_STAT_DROPPED 1
  else (s.retired h).postLim Ev.RSP_RETIRED h ms h 63 [(6, initiatorOf n port), (10, tag)]

/-- A packet is a duplicate: it is counted and not acted upon (R246). -/
def State.dupDiscard (s : State) (h : Nat) (p : Packet) : State :=
  (s.incFld (Reg.OMI_ERR h) Fl.OMI_ERR_DUP 1).postLim Ev.DUP_DISCARD h ms h 63
    [(6, p.dstNode.toNat), (3, p.dstPort.toNat), (3, p.srcPort.toNat), (6, p.srcNode.toNat), (3, p.srcHall.toNat)]

/-- The link behind which a packet's destination lies is not live (R251). -/
def State.attachDead (s : State) (p : Packet) : Bool :=
  let n := p.dstNode.toNat
  let st := s.linkState p.dstHall.toNat (linkIx p.mesh.toNat n (sideOfPort n p.dstPort.toNat))
  st == 1 || st == 2

/-- RSP (R245, R248, R249, R251, R252, R261): a response at its initiator. -/
def State.rspArrives (s : State) (p : Packet) : State :=
  let h := p.dstHall.toNat
  let n := p.dstNode.toNat
  let port := p.dstPort.toNat
  let s := s.take p
  if p.hdrBad then s.hdrCheck h n (sideOfPort n port)
  else
  let s := (s.poisonCheck h n (sideOfPort n port) p).1
  if p.cut then s
  else if s.attachDead p || (domOfPort n port).any (fun d => !s.domOn h d) then s.retired h
  else if s.isDup p then s.dupDiscard h p
  else
    let s := s.accept p
    match s.answered p with
    | none => s.rspRetired h n port p.tag.toNat
    | some r =>
      let bad := p.poison || !p.badUnits.isEmpty
      let st := if bad ∧ p.status = 0 then 1 else p.status.toNat
      ((s.dropReq r).istatAdd r.p st (s.now - r.t)).completes r.p st p.data p.arg

/-! ## Arrivals (R56 to R60, R238, R246, R249, R258 to R261, R500) -/

/-- Nothing lies behind the node or port (R30, R107, R239, R500), or the unit is absent (R8). -/
def State.nobody (s : State) (h n port : Nat) : Bool :=
  if n < 32 then decide (2 < port)
  else if n = 32 then !s.part.gweak || decide (1 < port)
  else if n = 33 then !hasPort h || port != 0
  else if n = 34 then decide (3 < port)
  else if n = 35 then false
  else if n = 36 then h != 0 || decide (port < 6)
  else true

/-- Whether a port takes a command (R500). -/
def portTakes (n port c : Nat) : Bool :=
  if n < 32 then (if port = 0 then c == 0x12 else if port = 1 then c == 0x10 else 1 ≤ c && c ≤ 4)
  else if n = 32 then (if port = 0 then c == 0x11 else c == 0x13 || c == 0x15)
  else if n = 33 then c == 1 || c == 2
  else if n = 34 then c == 0x16
  else if n = 35 ∧ port < 7 then c == 0x14
  else if n = 36 ∧ port = 6 then c == 1 || c == 2 || c == 5 || c == 6
  else c == 1 || c == 2 || c == 0xC0 || c == 0xC1

/-- Units of hall h that a partial reset holds (R56), by node and port. -/
def resetUnit (n port : Nat) : Bool := n < 35 || (n == 35 && port < 7)

/-- A memory port's, Gweak's, encryption engine's or Ethernet engine's register block (R499), by offset in the hall. -/
def resetBlock (o : Nat) : Bool := (0x30000 ≤ o && o < 0x60000) || (0x70000 ≤ o && o < 0x80000)

/-- Bit of OMI_NOWAKE for an endpoint's domain (R261). -/
def State.noWake (s : State) (h d : Nat) : Bool :=
  let w := fun (j b : Nat) => bitOf (s.fld (Reg.OMI_NOWAKE h j) Fl.OMI_NOWAKE_BITS) b
  if d < 32 then w 0 d else if d < 64 then w 1 (d - 32)
  else if d = 70 then w 2 0 else if d = 71 then w 2 1 else if d = 69 then w 2 2 else w 2 3

/-- A packet for a sleeping endpoint is refused (R261). -/
def State.wakeRefused (s : State) (h : Nat) (p : Packet) (cause : Nat) : State :=
  if hasResponse p.cmd.toNat then
    let s := (s.respond p .unavail []).incFld (Reg.OMI_WAKE_STAT h) Fl.OMI_WAKE_STAT_REFUSED 1
    s.postLim Ev.WAKE_REFUSED h ms h 63 [(6, p.dstNode.toNat), (3, p.dstPort.toNat), (1, cause)]
  else s.retired h

/-- A packet before its target. -/
def landedAt (p : Packet) : Packet :=
  let x := spotOf p
  { p with spot := some { x with hall := p.dstHall.toNat, node := p.dstNode.toNat, mesh := p.mesh.toNat, inside := true, target := true } }

/-- A packet for an endpoint whose domain d is not ON: the slot is that of its virtual channel at the router of its mesh (R258, R259,
R261). -/
def State.wakeGate (s : State) (h d : Nat) (p : Packet) : State :=
  let k := ((h * 72 + d) * 2 + p.mesh.toNat) * 4 + p.vc.toNat
  if s.noWake h d then s.wakeRefused h p 0
  else if (Sparse.find s.slots k).isSome then s.wakeRefused h p 1
  else
    let t := s.now
    ({ s with slots := Sparse.put s.slots k ⟨landedAt p, t⟩ } : State).wakeUp h d

/-- WAKE_TIMEOUT (R260): the packet in the slot of domain d and virtual channel vc at the router of mesh m is given up. -/
def State.wakeTimeout (s : State) (h d m vc : Nat) : State :=
  let k := ((h * 72 + d) * 2 + m) * 4 + vc
  match Sparse.find s.slots k with
  | none => s
  | some x =>
    let s := (({ s with slots := Sparse.del s.slots k } : State).turnedAway h x.p .unavail).incFld (Reg.OMI_WAKE_STAT h)
      Fl.OMI_WAKE_STAT_TIMEOUT 1
    let s := s.postLim Ev.WAKE_TIMEOUT (h * 72 + d) ms h 63 [(6, x.p.dstNode.toNat), (3, x.p.dstPort.toNat), (2, vc)]
    if s.slotHeld h d then s else s.withdrawWake h d

/-- Units whose stores self-test unit 2 tests (R446, R452): Gweak, the memory port, the engines and the mirror loader. -/
def storeUnit (n port : Nat) : Bool := resetUnit n port && 32 ≤ n

/-- Routers and gateways of hall h turn the packet away during a partial reset (R57 steps 2 to 6, R499) or a test of the unit's stores
(R447). -/
def State.resetTurns (s : State) (h : Nat) (p : Packet) : Option State :=
  let n := p.dstNode.toNat
  let port := p.dstPort.toNat
  if s.testing h 2 && storeUnit n port then some (if hasResponse p.cmd.toNat then s.respond p .unavail [] else s)
  else if !s.inFrst h || !resetUnit n port then none
  else if p.srcHall.toNat ≠ h then some (if hasResponse p.cmd.toNat then s.respond p .unavail [] else s)
  else if s.fld (Reg.FRST_STAT h) Fl.FRST_STAT_STATE = 1 then none
  else some s

/-- A packet that breaks the table of R238, or a QPUSH or QPOP whose address is not row 0 of a bank of a gallery memory layer. -/
def malformed (p : Packet) : Bool :=
  let o := p.addr.toNat / 64 * 64 - memBase 0
  let row0 := memBase 0 ≤ p.addr.toNat && o < 256 * 0x1000000 && o % 0x1000000 < 0x800000 && o % 0x40000 == 0
  !wellFormedPacket p || ((p.cmd == 3 || p.cmd == 4) && !row0)

/-- Answer a packet that has a response. -/
def State.answerIf (s : State) (p : Packet) (st : OSt) : State := if hasResponse p.cmd.toNat then s.respond p st [] else s

/-- The router before the target ends a packet: the attachment side is dead (R251), nothing lies behind it (R30), the unit is held in
reset or under test (R57, R447), or it sleeps (R258). -/
def State.routerEnds (s : State) (p : Packet) : Option State :=
  let h := p.dstHall.toNat
  let n := p.dstNode.toNat
  let port := p.dstPort.toNat
  if s.attachDead p then some (s.turnedAway h p .unavail)
  else if s.nobody h n port then some (s.answerIf p .absent)
  else match s.resetTurns h p with
    | some t => some t
    | none => ((domOfPort n port).filter (fun d => !s.domOn h d)).map (fun d => s.wakeGate h d p)

/-- An arrival whose header and units have been checked, up to the target's own part: false where it has ended there. -/
def State.arriveChecked (s : State) (p : Packet) : State × Bool :=
  let h := p.dstHall.toNat
  match s.routerEnds p with
  | some t => (t, false)
  | none =>
    if s.isDup p then (s.dupDiscard h p, false)
    else
      let s := s.accept p
      if malformed p then (s.turnedAway h p .denied, false)
      else if p.poison || !p.badUnits.isEmpty then (s.answerIf p .dataErr, false)
      else if !portTakes p.dstNode.toNat p.dstPort.toNat p.cmd.toNat || (p.cmd.toNat == 0x12 && !s.part.gweak) then
        (s.turnedAway h p .denied, false)
      else (s, true)

/-- The arrival of a request, message or notice at its target up to the target's own part: false where it has ended there. -/
def State.arrive (s : State) (p : Packet) : State × Bool :=
  let h := p.dstHall.toNat
  let d := sideOfPort p.dstNode.toNat p.dstPort.toNat
  let s := s.take p
  if p.hdrBad then (s.hdrCheck h p.dstNode.toNat d, false)
  else
    let s := (s.poisonCheck h p.dstNode.toNat d p).1
    if p.cut then (s, false) else s.arriveChecked p

/-- ROUTER_PACKET: a packet is at input d of router n of hall h, arriving or held there, and passes the router or is held. One that no
packet in flight is comes from outside what the commands show (log 16). The router before the target turns it away or holds it (R251,
R258). A command that is not in the table of R238, and so has no row, is answered by its target as it leaves the router. -/
def State.routerPacket (s : State) (h n d : Nat) (p : Packet) (stallIn stallOut : Nat) (lost conf : Bool) : State :=
  let there := s.net.contains p
  let q := if there then p else { p with spot := some { hall := h, node := n, side := d, mesh := p.mesh.toNat } }
  let x := spotOf q
  if there && !(x.hall == h && x.node == n && (x.side == d || x.side == 8)) then s
  else
    let y := (if there then s else s.putNet [q]).hop q stallIn stallOut lost conf
    match y.2 with
    | some r =>
      if !r.landed || q.landed || (knownCmd r.cmd.toNat && 0x80 ≤ r.cmd.toNat && r.cmd.toNat < 0xC0) then y.1
      else if knownCmd r.cmd.toNat then ((y.1.take r).routerEnds r).getD y.1
      else if r.cut then y.1.take r
      else ((y.1.take r).arriveChecked r).1
    | none => y.1

/-- NOTICE (R248, R249, R251, R252, R257): a notice at a router or gateway of hall h. -/
def State.noticeArrives (s : State) (h : Nat) (k : NoticeKind) (p : Packet) : State :=
  let s := s.take p
  if p.hdrBad then s.hdrCheck h p.dstNode.toNat 4
  else
  let s := (s.poisonCheck h p.dstNode.toNat 4 p).1
  if p.cut || p.poison || !p.badUnits.isEmpty then s
  else if s.isDup p then s.dupDiscard h p
  else match k with
    | .dead k c => (s.accept p).noticeDead h k c
    | .reroute => s.accept p
    | .wake => s.accept p

/-! ## Requests at a gallery's memory layer (R169 to R177, R185, R190) -/

/-- The chunks of n bytes from an offset that lie in one bank each. -/
def bankChunks (off n : Nat) : List (Nat × Nat) :=
  let e := (off / 0x40000 + 1) * 0x40000
  if off + n ≤ e then [(off, n)] else [(off, e - off), (e, off + n - e)]

/-- A field of a bank's entry in GAL_MEM_ACL: its mode, and RDONLY. -/
def State.aclMode (s : State) (G b : Nat) : Nat := fieldOf (s.reg (Reg.GAL_MEM_ACL G (b / 8))) ⟨4 * (b % 8), 2⟩
def State.aclRdonly (s : State) (G b : Nat) : Bool := fieldOf (s.reg (Reg.GAL_MEM_ACL G (b / 8))) ⟨4 * (b % 8) + 2, 1⟩ == 1

/-- The access mode of bank b admits a request (R170). -/
def State.aclAdmits (s : State) (G b : Nat) (p : Packet) (write : Bool) : Bool :=
  let m := s.aclMode G b
  let listed := (List.range 4).any (fun i =>
    let a := Reg.GAL_MEM_LIST G i
    s.bit a Fl.GAL_MEM_LIST_VALID && s.fld a Fl.GAL_MEM_LIST_HALL == p.srcHall.toNat
      && s.fld a Fl.GAL_MEM_LIST_NODE == p.srcNode.toNat)
  let who := if m = 0 then true else if m = 1 then p.srcHall.toNat == G / 32 else if m = 2 then listed else false
  who && !(write && s.aclRdonly G b)

/-- The request comes from the gallery's own endpoint (R170). -/
def ownRequest (G : Nat) (p : Packet) : Bool := p.srcHall.toNat == G / 32 && p.srcNode.toNat == G % 32 && p.srcPort == 0

/-- Answer a request that fails a bank's access mode (R170). -/
def State.aclDenied (s : State) (G b : Nat) (p : Packet) : State :=
  let s := s.incFld (Reg.GAL_MEM_STAT G) Fl.GAL_MEM_STAT_ACL_DENIED 1
  (s.postLim Ev.MEM_ACL_DENIED G ms (G / 32) (G % 32) [(5, b), (3, p.srcHall.toNat), (6, p.srcNode.toNat)]).respond p .denied []

/-- Facts of the part of a request from byte k on. -/
def factsFrom (f : EccFacts) (k : Nat) : EccFacts :=
  ⟨(f.ce.filter (fun i => decide (k ≤ i))).map (· - k), (f.ue.filter (fun i => decide (k ≤ i))).map (· - k)⟩

/-- Read n bytes from an offset, bank by bank (R169, R177): the state, the first status that is not OK, and the bytes. -/
def State.memRead (s : State) (G off n : Nat) (f : EccFacts) : State × Nat × List Byte :=
  (bankChunks off n).foldl (fun r c =>
    let s := r.1
    let st := fun (x : Nat) => if r.2.1 = 0 then x else r.2.1
    if !s.bankClockRuns G (bankOf c.1) then (s, st 4, r.2.2 ++ List.replicate c.2 0)
    else
      let g := factsFrom f (c.1 - off)
      let k := memBase G + c.1
      let bad := !(s.placesWith k c.2 2 g).isEmpty
      (s.eccReport G c.1 c.2 1 g, st (if bad then 1 else 0), r.2.2 ++ s.checkedBytes k c.2 g)) (s, 0, [])

/-- Write bytes with their enables from an offset, bank by bank (R169, R174): the state and the first status that is not OK. ovt names
the bytes that a prism write of the same cycle took. -/
def State.memWrite (s : State) (G off : Nat) (l : List (Byte × Bool)) (ovt : List Nat) : State × Nat :=
  (bankChunks off l.length).foldl (fun r c =>
    let s := r.1
    let st := fun (x : Nat) => if r.2 = 0 then x else r.2
    if !s.bankClockRuns G (bankOf c.1) then (s, st 4)
    else
      let i0 := c.1 - off
      let part := (l.zipIdx.drop i0).take c.2
      let hit := part.filter (fun x => x.1.2 && ovt.contains x.2)
      let beats := ((hit.map (fun x => (off + x.2) / 32)).eraseDups).length
      let wr := part.map (fun x => (x.1.1, x.1.2 && !ovt.contains x.2))
      let k := memBase G + c.1
      let keys := ((wr.zipIdx).filter (fun x => x.1.2)).map (fun x => k + x.2)
      let s := (s.cancelWb G (bankOf c.1) keys).writeEnabled k wr
      (s.incFld (Reg.GAL_MEM_STAT G) Fl.GAL_MEM_STAT_OVERTAKEN beats, st (if beats = 0 then 0 else 6))) (s, 0)

/-- RD or WR at port 2 of a gallery (R169 to R174, R447). -/
def State.memAccess (s : State) (G : Nat) (p : Packet) (f : AccFacts) : State :=
  let off := p.addr.toNat / 64 * 64 - memBase G
  let wr := p.cmd == 2
  let n := 64 * (if wr then p.units.toNat else p.runits.toNat)
  let banks := (bankChunks off n).map (fun c => bankOf c.1)
  if p.addr.toNat < memBase G ∨ off + n > 0x800000 then s.respond p .absent []
  else if s.galTesting G 0 then s.respond p .unavail []
  else match (if ownRequest G p then none else banks.find? (fun b => !s.aclAdmits G b p wr)) with
    | some b => s.aclDenied G b p
    | none =>
      if wr then
        let r := s.memWrite G off (writeLanes p) f.ovt
        r.1.respond p (OSt.ofCode r.2) []
      else
        let r := s.memRead G off n f.ecc
        r.1.respond p (OSt.ofCode r.2.1)
          ((List.range p.runits.toNat).map (fun u => BitVec.ofNat 512 (natOfBytes ((r.2.2.drop (64 * u)).take 64))))

/-- The first bank of the rows of a queue command that the requester may not use (R190). -/
def State.queueBarred (s : State) (G : Nat) (p : Packet) (banks : List Nat) : Option Nat :=
  if ownRequest G p then banks.find? (fun b => !bitOf p.bmask.toNat b)
  else banks.find? (fun b => !s.aclAdmits G b p (p.cmd == 3))

/-- Answer a queue command that fails its access check (R170, R152, R190). -/
def State.queueDenied (s : State) (G b : Nat) (p : Packet) : State :=
  if ownRequest G p then (s.bankDenied G p.plane.toNat b 1).respond p .denied [] else s.aclDenied G b p

/-- The bytes of row i of a push that a prism write of the same cycle did not take (R174), as enables. -/
def pushEnables (ovt : List Nat) (i : Nat) : BitVec 128 :=
  BitVec.ofNat 128 (natOfBools ((List.range 128).map (fun y => !ovt.contains (128 * i + y))))

/-- QPUSH of n rows (R174, R184, R185); ovt names the bytes that a prism write of the same cycle took. -/
def State.queuePush (s : State) (G b n : Nat) (p : Packet) (ovt : List Nat) : State :=
  if s.qFill G b + n > s.qSize G b then (s.qOverflow G b 1).respond p .unavail []
  else
    let beats := (((ovt.filter (fun y => decide (y < 128 * n))).map (· / 32)).eraseDups).length
    let s := (List.range n).foldl (fun s i =>
      let d : BitVec 1024 := (p.data.getD (2 * i + 1) 0) ++ (p.data.getD (2 * i) 0)
      (s.rowWrite G (s.qOff G b (s.qTail G b)) (pushEnables ovt i) d).qPushed G b) s
    (s.incFld (Reg.GAL_MEM_STAT G) Fl.GAL_MEM_STAT_OVERTAKEN beats).respond p (if beats = 0 then .ok else .overtaken) []

/-- QPOP of n rows (R184, R185); the facts are those of its bytes. -/
def State.queuePop (s : State) (G b n : Nat) (p : Packet) (f : EccFacts) : State :=
  if s.qFill G b < n then (s.qUnderflow G b 1).respond p .unavail []
  else
    let r := (List.range n).foldl (fun (r : State × Nat × List (BitVec 512)) i =>
      let x := r.1.rowRead G (r.1.qOff G b (r.1.qHead G b)) 1 (factsFrom f (128 * i))
      (x.1.qPopped G b, (if r.2.1 = 0 then x.2.1 else r.2.1), r.2.2 ++ [x.2.2.setWidth 512, (x.2.2 >>> 512).setWidth 512])) (s, 0, [])
    r.1.respond p (OSt.ofCode r.2.1) r.2.2

/-- QPUSH or QPOP at port 2 of a gallery (R185, R190, R162, R447). -/
def State.queueCommand (s : State) (G : Nat) (p : Packet) (f : AccFacts) : State :=
  let off := p.addr.toNat / 64 * 64 - memBase G
  let b := bankOf off
  let push := p.cmd == 3
  let n := (if push then p.units.toNat else p.runits.toNat) / 2
  let size := max 1 (s.qSize G b)
  let o := if push then s.qTail G b else s.qHead G b
  if p.addr.toNat < memBase G ∨ off % 0x40000 ≠ 0 ∨ off ≥ 0x800000 then s.respond p .denied []
  else if s.galTesting G 0 || !s.qOn G b || !s.bankClockRuns G b then s.respond p .unavail []
  else match s.queueBarred G p ((List.range n).map (fun i => s.qBank G b ((o + i) % size))) with
    | some x => s.queueDenied G x p
    | none => if push then s.queuePush G b n p f.ovt else s.queuePop G b n p f.ecc

/-! ## Items and messages at a gallery (R107, R108, R133) -/

/-- ITEM at port 0: the item waits for its plane, which is asked for (R108, R133). -/
def State.itemArrives (s : State) (G : Nat) (p : Packet) : State :=
  let q := p.arg.toNat % 4
  let s := s.modGal G (fun g => { g with it := g.it ++ [⟨q, (p.data.headD 0).setWidth 256, false⟩] })
  if s.activePlane G = some q ∨ s.ctxSrc G ≠ 2 ∨ s.planeState G q ≠ 2 then s else s.requestSwitch G q

/-- MSG at port 1 (R107). -/
def State.msgArrives (s : State) (G : Nat) (p : Packet) : State := s.modGal G (fun g => { g with tq := g.tq ++ [p] })

/-- LOADREQ at the mirror loader (R143): a refusal carries its reason in ARG (log 12). -/
def State.loadReqArrives (s : State) (h : Nat) (p : Packet) : State :=
  let a := p.arg.toNat
  let G := 32 * h + bitsOf a 0 5
  let x := s.loadArrive G ⟨bitsOf a 5 2, bitsOf a 7 5, false, .gweak⟩ false
  let reason := if x.2 = .ok then 0 else x.1.fld (Reg.GAL_LOAD_STAT G) Fl.GAL_LOAD_STAT_REASON
  x.1.send { rspOf p x.2 [] with arg := BitVec.ofNat 224 reason }

end Sys2Proof.Machine
end

