-- ==== Sys2Proof/Machine/Calib.lean ====
section
/-!
DEFINITION. Machine/Calib.lean: calibration (chapter 14, R46 to R49, R436 to R443, R453).
-/
namespace Sys2Proof.Machine

/-! ## Runs (R440, R441, R453) -/

/-- The run of hall h, if one is in progress: runs go on only in RUN (R441). -/
def State.calRun (s : State) (h : Nat) : Option CalRun := if s.running then Sparse.find s.cal.runs h else none

/-- Change the run of hall h. -/
def State.modCal (s : State) (h : Nat) (f : CalRun → CalRun) : State :=
  match s.calRun h with
  | some r => { s with cal := { s.cal with runs := Sparse.put s.cal.runs h (f r) } }
  | none => s

/-- The reading of a stack, in °C (R424). -/
def State.stackTemp (s : State) (m : Nat) : Nat := s.fld (Reg.THERM_HBM m) Fl.THERM_HBM_TEMP

/-- A hall run begins: the temperatures of the readings at its start are kept (R440). -/
def State.calBegin (s : State) (h : Nat) : State :=
  let r : CalRun := { start := bitOf s.cal.startLeft h, temp := s.fld (Reg.THERM_HALL h) Fl.THERM_HALL_H,
                      stemp := 4 * s.stackTemp (stackOfHall h) }
  { s with cal := { s.cal with runs := Sparse.put s.cal.runs h r, want := setBit s.cal.want h false } }

/-- A run of hall h may be made now (R441, R453). -/
def State.calMay (s : State) (h : Nat) : Bool := s.running && !s.inFrst h

/-- A run of hall h is asked for (R440, R441). -/
def State.calRequest (s : State) (h : Nat) : State :=
  let s := s.setFldBit Reg.CAL_STAT Fl.CAL_STAT_RUNNING h true
  match s.calRun h with
  | some r => if r.swept then s.modCal h (fun x => { x with again := true }) else s
  | none => if s.calMay h then s.calBegin h else { s with cal := { s.cal with want := setBit s.cal.want h true } }

/-- Runs that waited begin (R441, R453). -/
def State.calResume (s : State) : State :=
  (List.range 8).foldl (fun s h => if bitOf s.cal.want h && s.calMay h then s.calBegin h else s) s

/-- A write of CAL_CTRL.RUN_HALL (R440). -/
def State.calRunHalls (s : State) (halls : Nat) : State :=
  (List.range 8).foldl (fun s h => if bitOf halls h then s.calRequest h else s) s

/-- CAL_START_RUN (R440). -/
def State.calStart (s : State) : State :=
  if s.running then ({ s with cal := { s.cal with startLeft := 0xFF } } : State).calRunHalls 0xFF else s

/-- A partial reset of hall h stops its run, which starts again afterwards (R453). -/
def State.calStop (s : State) (h : Nat) : State :=
  if (s.calRun h).isSome then
    { s with cal := { s.cal with runs := Sparse.del s.cal.runs h, want := setBit s.cal.want h true } }
  else s

/-- Runs are abandoned by a reset (R453). -/
def State.calAbandon (s : State) : State :=
  ({ s with cal := { s.cal with runs := [], want := 0, startLeft := 0 } } : State).setFld Reg.CAL_STAT Fl.CAL_STAT_RUNNING 0

/-! ## Sweeps (R46 to R49, R437, R438) -/

/-- The centre of two edges, rounded toward the old code (R437). -/
def centreOf (lo hi old : Int) : Int :=
  let c := lo + hi
  if c % 2 = 0 then c / 2 else if 2 * old < c then c / 2 else c / 2 + 1

/-- A code held within 0 to 63 (R49, R438). -/
def clipCode (c : Int) : Nat := (max 0 (min 63 c)).toNat

/-- The delay now applied to landing group n of hall h (R46). -/
def State.landApplied (s : State) (h n : Nat) : Nat := Sparse.get (s.hall h).landAt 0x20 n

/-- Apply a delay at once. -/
def State.setLandAt (s : State) (h n c : Nat) : State :=
  s.modHall h (fun x => { x with landAt := Sparse.set x.landAt 0x20 n c })

/-- A code is set and applied at once, at step 8 of start-up (R442). -/
def State.setLandCode (s : State) (h n c : Nat) : State := (s.setFld (Reg.LAND h n) Fl.LAND_CODE c).setLandAt h n c

/-- LAND_CODE_STEP (R46): the applied delay moves one code toward CODE. -/
def State.landStep (s : State) (h n : Nat) : State :=
  let a := s.landApplied h n
  let c := s.fld (Reg.LAND h n) Fl.LAND_CODE
  if a < c then s.setLandAt h n (a + 1) else if c < a then s.setLandAt h n (a - 1) else s

/-- A margin has been measured (R48). -/
def State.landMargin (s : State) (h n m : Nat) : State :=
  let least := s.fld (Reg.LAND_CFG h) Fl.LAND_CFG_MARGIN_MIN
  let low := (s.hall h).landLow.contains n
  let s := s.setFld (Reg.LAND h n) Fl.LAND_MARGIN m
  if m < least ∧ low = false then
    let s := s.modHall h (fun x => { x with landLow := n :: x.landLow })
    (s.setFldBit (Reg.LAND_ALARM h (n / 32)) Fl.LAND_ALARM_BITS (n % 32) true).post Ev.LAND_MARGIN_LOW h 63 [(8, n), (6, m)]
  else if least + 2 ≤ m then s.modHall h (fun x => { x with landLow := x.landLow.filter (· != n) })
  else s

/-- A landing group has been swept: its two edges (R437, R46 to R49). -/
def State.landSweep (s : State) (h n : Nat) (lo hi : Int) : State :=
  let a := Reg.LAND h n
  let old := s.fld a Fl.LAND_CODE
  let c := centreOf lo hi old
  let new := clipCode c
  let s := s.landMargin h n (clipCode (hi - lo - 1))
  if s.bit a Fl.LAND_HOLD then s
  else
    let s := if c < 0 ∨ c > 63 then
        (s.modCal h (fun x => { x with limit := x.limit + 1 })).post Ev.LAND_CODE_LIMIT h 63 [(8, n), (6, new)]
      else s
    (s.setFld a Fl.LAND_CODE new).modCal h (fun x => { x with moved := x.moved + b2n (new != old) })

/-- An HBM byte lane has been swept (R437, R438). -/
def State.hbmSweep (s : State) (h n : Nat) (lo hi : Int) : State :=
  let m := stackOfHall h
  let a := Reg.CAL_HBM m n
  let rd := s.fld a Fl.CAL_HBM_RD_CODE
  let wr := s.fld a Fl.CAL_HBM_WR_CODE
  let c := centreOf lo hi rd
  let rd' := clipCode c
  let w : Int := (wr : Int) + ((rd' : Int) - (rd : Int))
  let wr' := clipCode w
  let window := (hi - lo - 1).toNat
  let s := ((s.setFld a Fl.CAL_HBM_RD_CODE rd').setFld a Fl.CAL_HBM_WR_CODE wr').setFld a Fl.CAL_HBM_MARGIN (min window 255)
  let s := s.modCal h (fun x => { x with moved := x.moved + b2n (rd' != rd || wr' != wr), limit := x.limit + b2n (decide (c < 0 ∨ c > 63)) })
  if (wr' : Int) ≠ w ∨ window < 4 then s.post Ev.CAL_HBM_LIMIT h m [(8, n), (6, rd'), (6, wr')] else s

/-- CAL_GROUP_SWEEP (R437, R438). -/
def State.calSweep (s : State) (h : Nat) (g : CalGroup) (lo hi : Int) : State :=
  match s.calRun h with
  | none => s
  | some _ =>
    let s := s.modCal h (fun x => { x with swept := true })
    match g with
    | .land n => s.landSweep h n lo hi
    | .hbm n => if hasPort h then s.hbmSweep h n lo hi else s

/-- CAL_GROUP_IDLE (R438): the group keeps its code and MARGIN. -/
def State.calIdle (s : State) (h : Nat) : State := s.modCal h (fun x => { x with swept := true, idle := x.idle + 1 })

/-! ## Records (R443) -/

/-- A 10-bit signed temperature as 2 bytes. -/
def tempBytes (n : Nat) : List Byte := bytesOf 2 (BitVec.ofInt 16 (signedOf 10 n))

/-- Codes of a width packed from bit 0 up, as bytes. -/
def packedBytes (n w : Nat) (l : List Nat) : List Byte :=
  let v := packBits (l.map (fun c => (w, c)))
  (List.range n).map (fun i => BitVec.ofNat 8 (v / 2 ^ (8 * i)))

/-- The payload of a calibration record (R443). -/
def State.calPayload (s : State) : List Byte :=
  bytesOf 4 (1 : Word)
    ++ (List.range 8).flatMap (fun h => tempBytes (s.fld (Reg.CAL_HTEMP h) Fl.CAL_HTEMP_T_CAL))
    ++ (List.range 4).flatMap (fun m => tempBytes (s.fld (Reg.CAL_STEMP m) Fl.CAL_STEMP_T_CAL))
    ++ List.replicate 4 0
    ++ (List.range 64).map (fun c => BitVec.ofNat 8 (Sparse.get s.cal.lrep 0 c))
    ++ packedBytes 1152 6 ((List.range 1536).map (fun i => s.fld (Reg.LAND (i / 192) (i % 192)) Fl.LAND_CODE))
    ++ packedBytes 960 6 ((List.range 640).flatMap (fun i =>
        let a := Reg.CAL_HBM (i / 160) (i % 160)
        [s.fld a Fl.CAL_HBM_RD_CODE, s.fld a Fl.CAL_HBM_WR_CODE]))
    ++ (List.range 128).flatMap (fun L => (List.range 3).flatMap (fun w => bytesOf 4 (s.reg (Reg.CAL_LSEED L w))))

/-- A calibration record is written (R443). -/
def State.calRecord (s : State) : State := (s.setFld Reg.CAL_STAT Fl.CAL_STAT_SAVING 1).askRecord 2 s.calPayload

/-- A write of CAL_CTRL.SAVE (R443): ignored while a record is being written. -/
def State.calSave (s : State) : State :=
  if s.bit Reg.CAL_STAT Fl.CAL_STAT_SAVING then s.setFld Reg.CAL_STAT Fl.CAL_STAT_SAVE_RESULT 3 else s.calRecord

/-- A write of CAL_CTRL. -/
def State.calCtrlWrite (s : State) (v : Word) : State :=
  let s := s.calRunHalls (fieldOf v Fl.CAL_CTRL_RUN_HALL)
  if fieldOf v Fl.CAL_CTRL_SAVE = 1 then s.calSave else s

/-! ## The end of a run (R439, R440) -/

/-- The converged coefficients of a lane (eleven codes from bit 0 up) become its seed, with its quad's temperature (R439). -/
def State.laneSeed (s : State) (h l : Nat) (c : BitVec 88) : State :=
  if !s.bit (Reg.LANE_STAT h l) Fl.LANE_STAT_LOCK then s
  else
    let L := 16 * h + l
    let t := (Config.quadTemp s.now h (l / 4) + 128) % 256
    let s := s.setReg (Reg.CAL_LSEED L 0) (c.setWidth 32)
    let s := s.setReg (Reg.CAL_LSEED L 1) ((c >>> 32).setWidth 32)
    s.setReg (Reg.CAL_LSEED L 2) (BitVec.ofNat 32 (packBits [(24, (c >>> 64).toNat), (8, t)]))

/-- Every lane of hall h takes its seed (R439); coefficients that the command does not give are free values. -/
def State.laneSeeds (s : State) (h : Nat) (seeds : List (Nat × BitVec 88)) : State :=
  (List.range 16).foldl (fun s l =>
    match seeds.find? (fun x => x.1 == l) with
    | some x => s.laneSeed h l x.2
    | none => s.draw.laneSeed h l ((Config.freeBlock s.free).setWidth 88)) s

/-- Groups of hall h below MARGIN_MIN. -/
def State.lowMargins (s : State) (h : Nat) : Nat :=
  ((List.range 192).filter (fun n => decide (s.fld (Reg.LAND h n) Fl.LAND_MARGIN < s.fld (Reg.LAND_CFG h) Fl.LAND_CFG_MARGIN_MIN))).length

/-- CAL_RUN_DONE (R439, R440, R443). -/
def State.calDone (s : State) (h : Nat) (seeds : List (Nat × BitVec 88)) : State :=
  match s.calRun h with
  | none => s
  | some r =>
    let s := s.laneSeeds h seeds
    let s := (s.setFld (Reg.CAL_HTEMP h) Fl.CAL_HTEMP_T_CAL r.temp).incFld (Reg.CAL_HTEMP h) Fl.CAL_HTEMP_RUNS 1
    let s := if hasPort h then
        let a := Reg.CAL_STEMP (stackOfHall h)
        (s.setFld a Fl.CAL_STEMP_T_CAL r.stemp).incFld a Fl.CAL_STEMP_RUNS 1
      else s
    let c8 := fun (n : Nat) => min n 255
    let s := s.setReg (Reg.CAL_HSTAT h)
      (BitVec.ofNat 32 (packBits [(8, c8 (s.lowMargins h)), (8, c8 r.limit), (8, c8 r.idle), (8, c8 r.moved)]))
    let s := s.post Ev.CAL_RUN_DONE h 63 [(8, c8 r.moved), (8, c8 r.idle)]
    let left := setBit s.cal.startLeft h false
    let last := bitOf s.cal.startLeft h && left == 0
    let s : State := { s with cal := { s.cal with runs := Sparse.del s.cal.runs h, startLeft := left } }
    let s := s.setFldBit Reg.CAL_STAT Fl.CAL_STAT_RUNNING h false
    let s := if last && s.bit Reg.CAL_CFG Fl.CAL_CFG_REC_EN then s.calRecord else s
    if r.again then s.calRequest h else s

/-! ## Temperature (R440, R441) -/

/-- CAL_WATCH (R441): a hall whose latest measurement is older than WATCH × 100 ms is measured. -/
def State.calWatch (s : State) (h : Nat) : State :=
  let old := match (Sparse.get s.thermHall {} h).pts with
    | (t, _) :: _ => decide (t + s.fld Reg.CAL_CFG Fl.CAL_CFG_WATCH * 100 * ms < s.now)
    | [] => true
  if s.bit Reg.CAL_CFG Fl.CAL_CFG_AUTO && old then s.startReading h else s

/-- A completed measurement of hall h triggers a run when it has moved by more than DELTA (R440). -/
def State.calTrigger (s : State) (h : Nat) : State :=
  let t := s.fld (Reg.CAL_HTEMP h) Fl.CAL_HTEMP_T_CAL
  let d := s.hallTemp h - signedOf 10 t
  if s.bit Reg.CAL_CFG Fl.CAL_CFG_AUTO && decide (d.natAbs > 4 * s.fld Reg.CAL_CFG Fl.CAL_CFG_DELTA) then
    (s.post Ev.CAL_TEMP_TRIGGER h 63 [(10, unsignedOf 10 (s.hallTemp h)), (10, t)]).calRequest h
  else s

/-- The same for a stack's reading. -/
def State.calStackTrigger (s : State) (m : Nat) : State :=
  let t := s.fld (Reg.CAL_STEMP m) Fl.CAL_STEMP_T_CAL
  let d : Int := 4 * (s.stackTemp m : Int) - signedOf 10 t
  if s.bit Reg.CAL_CFG Fl.CAL_CFG_AUTO && decide (d.natAbs > 4 * s.fld Reg.CAL_CFG Fl.CAL_CFG_DELTA) then
    (s.post Ev.CAL_TEMP_TRIGGER (hallOfStack m) m [(8, s.stackTemp m), (10, t)]).calRequest (hallOfStack m)
  else s

/-! ## Meanings -/

/-- LAND_CODE_STEP (R46). -/
def execLandCodeStep (h : HallIx) (n : Fin 192) (s : State) : Out := .next (s.landStep h n)
/-- CAL_RUN_REQUEST (R440). -/
def execCalRunRequest (halls : Fin 256) (s : State) : Out := .next (s.calRunHalls halls)
/-- CAL_SAVE (R443). -/
def execCalSave (s : State) : Out := .next s.calSave
/-- CAL_WATCH (R441). -/
def execCalWatch (h : HallIx) (s : State) : Out := .next (s.calWatch h)
/-- CAL_GROUP_SWEEP (R437). -/
def execCalGroupSweep (h : HallIx) (g : CalGroup) (lo hi : Int) (s : State) : Out := .next (s.calSweep h g lo hi)
/-- CAL_GROUP_IDLE (R438). -/
def execCalGroupIdle (h : HallIx) (_g : CalGroup) (s : State) : Out := .next (s.calIdle h)
/-- CAL_RUN_DONE (R440). -/
def execCalRunDone (h : HallIx) (seeds : List (LaneIx × BitVec 88)) (s : State) : Out :=
  .next (s.calDone h (seeds.map (fun x => (x.1.val, x.2))))
/-- CAL_START_RUN (R440). -/
def execCalStartRun (s : State) : Out := .next s.calStart

end Sys2Proof.Machine
end

