-- ==== Sys2Proof/Machine/Frst.lean ====
section
/-!
DEFINITION. Machine/Frst.lean: foundation partial reset (chapter 02, R56 to R62, R499).
-/
namespace Sys2Proof.Machine

/-! ## The units that a partial reset holds (R56) -/

/-- The memory port's write entries whose requests are unanswered are dropped; the others stay (R57 step 4). -/
def postedOnly (q : List WqEnt) : List WqEnt := q.filter (fun e => e.waiters.isEmpty || decide (0 < e.posted))

/-- At step 4 of R57 the memory port of hall h drops what it has not answered, writes what it has, and its stack enters self-refresh
(R272, R282, R284, R307). -/
def State.portDrop (s : State) (h : Nat) : State :=
  if !hasPort h then s
  else
    let s := s.modHbm h (fun b =>
      { b with reqs := [], buf := [], alerts := [],
               pcs := b.pcs.map (fun x => (x.1, { x.2 with rq := [], wq := postedOnly x.2.wq, table := [] })) })
    if s.hbmState h = 2 ∨ s.hbmState h = 4 then
      ((((s.wcbDrain h).portFlush h).cacheFlush h).meePause h 1).stackEntered h
    else s

/-- The Ethernet engines of hall h are cleared (R333). -/
def State.ethsClear (s : State) (h : Nat) : State := (List.range 4).foldl (fun s e => s.ethClear h e) s

/-- A load request queued and not started is refused, reason RESETTING (R57 step 3, R143). -/
def State.refuseQueued (s : State) (G : Nat) : State :=
  let g := s.gal G
  let wait := if g.loadBusy then g.loadQ.tail else g.loadQ
  let s := s.modGal G (fun x => { x with loadQ := if x.loadBusy then x.loadQ.take 1 else [] })
  wait.foldl (fun s r =>
    let s := s.loadRefused G r (11, .unavail)
    if r.from' = .gweak then s.reportPlane G r.plane 11 true else s) s

/-- Packets in hall h's wake slots are answered UNAVAIL, and the wakes they asked for are withdrawn (R60, R260). -/
def State.dropSlots (s : State) (h : Nat) : State :=
  let mine := s.slots.filter (fun x => x.1 / 8 / 72 == h)
  let s : State := { s with slots := s.slots.filter (fun x => x.1 / 8 / 72 != h) }
  mine.foldl (fun s x => (s.turnedAway h x.2.p .unavail).withdrawWake h (x.1 / 8 % 72)) s

/-! ## The sequence (R57) -/

/-- A self-test of unit 2 drops hall h: its result is 7 (R453). -/
def State.bistDropHall (s : State) (h : Nat) : State :=
  match s.bist.run with
  | some r =>
    if s.testing h 2 then
      { s with bist := { s.bist with run := some { r with halls := setBit r.halls h false, ends := some 7 } } }
    else s
  | none => s

/-- Steps 1 to 3, at the write: nothing that these steps do reads FRST_STAT.STATE, which is DRAIN after them. -/
def State.frstBegin (s : State) (h : Nat) : State :=
  let a := Reg.FRST_STAT h
  let s := s.setFld a Fl.FRST_STAT_DROPPED 0
  let s := (s.modHall h (fun x => { x with frstLate := false })).post Ev.FRST_START h 63 []
  let s := ((s.bistDropHall h).calStop h).dropSlots h
  let s := (List.range 32).foldl (fun s g => s.refuseQueued (32 * h + g)) s
  ((s.srBegin h 1).portDrain h).setFld a Fl.FRST_STAT_STATE 1

/-- FRST_START: a write of FRST_CTRL (R57). -/
def State.frstStart (s : State) (h : Nat) (v : Word) : State :=
  if fieldOf v Fl.FRST_CTRL_KEY ≠ 0xA5 ∨ fieldOf v Fl.FRST_CTRL_GO = 0 ∨ s.inFrst h = true then s else s.frstBegin h

/-- A request of hall h is answered UNAVAIL by its gallery router and its tag retired (R57 step 4). -/
def State.frstAnswer (s : State) (r : Req) : State :=
  ((s.dropReq r).istatAdd r.p 4 (s.now - r.t)).completes r.p 4 [] 0

/-- The requests of hall h that step 4 answers: those of galleries; those of the units held in reset end with the units. -/
def State.hallReqs (s : State) (h : Nat) (gals : Bool) : List Req :=
  s.reqs.filter (fun r => r.p.srcHall.toNat == h && (decide (r.p.srcNode.toNat < 32) == gals) && decide (r.p.srcNode.toNat < 35))

/-- FRST_DRAIN_END: step 4 (R57). -/
def State.frstDrainEnd (s : State) (h : Nat) : State :=
  if s.fld (Reg.FRST_STAT h) Fl.FRST_STAT_STATE ≠ 1 then s
  else
    let s := (s.hallReqs h true).foldl (fun s r => s.frstAnswer r) s
    let s := (s.hallReqs h false).foldl (fun s r => s.dropReq r) s
    let s := (List.range 32).foldl (fun s g => s.modGal (32 * h + g) (fun x => { x with tq := [], tqTaken := 0 })) s
    ((s.ethsClear h).portDrop h).setFld (Reg.FRST_STAT h) Fl.FRST_STAT_STATE 2

/-- A removal of servers that a power-down of hall h waits for begins again after Gweak's reset (R228, R418). -/
def State.removeAgain (s : State) (h : Nat) : State :=
  match s.pwrCmd with
  | some x => if x.hall = h ∧ x.waitSrv = true then (s.removeServers h x.dom false).pwrGoOn else s
  | none => s

/-- The interfaces of hall h advance their epoch (R246). -/
def State.epochNext (s : State) (h : Nat) : State :=
  { s with epochs := Sparse.set s.epochs 0 h ((Sparse.get s.epochs 0 h + 1) % 4) }

/-- FRST_HOLD_END: step 6 (R57, R228, R246). -/
def State.frstHoldEnd (s : State) (h : Nat) : State :=
  let a := Reg.FRST_STAT h
  if s.fld a Fl.FRST_STAT_STATE ≠ 2 then s
  else
    let s := (s.epochNext h).setFld a Fl.FRST_STAT_STATE 0
    let s := ((s.gwkRestart h).removeAgain h).setFld a Fl.FRST_STAT_STATE 3
    s.srEnd h 1

/-- FRST_DONE: step 7 (R57); in a hall with a memory port it waits for the exit from self-refresh. -/
def State.frstDone (s : State) (h : Nat) : State :=
  let a := Reg.FRST_STAT h
  if s.fld a Fl.FRST_STAT_STATE ≠ 3 ∨ (hasPort h = true ∧ s.hbmState h = 4) then s
  else
    let s := s.setFld a Fl.FRST_STAT_STATE 0
    (s.post Ev.FRST_DONE h 63 [(16, s.fld a Fl.FRST_STAT_DROPPED)]).calResume

/-- FRST_TIMEOUT (R61). -/
def State.frstTimeout (s : State) (h : Nat) : State :=
  let a := Reg.FRST_STAT h
  if s.inFrst h && !(s.hall h).frstLate then
    let s := (s.modHall h (fun x => { x with frstLate := true })).setFld a Fl.FRST_STAT_TIMEOUT 1
    (s.post Ev.FRST_TIMEOUT h 63 [(2, s.fld a Fl.FRST_STAT_STATE)]).hallFenceSet h 1
  else s

/-! ## Meanings -/

/-- FRST_START (R57). -/
def execFrstStart (h : HallIx) (v : Word) (s : State) : Out := .next (s.frstStart h v)
/-- FRST_DRAIN_END (R57). -/
def execFrstDrainEnd (h : HallIx) (s : State) : Out := .next (s.frstDrainEnd h)
/-- FRST_HOLD_END (R57). -/
def execFrstHoldEnd (h : HallIx) (s : State) : Out := .next (s.frstHoldEnd h)
/-- FRST_DONE (R57). -/
def execFrstDone (h : HallIx) (s : State) : Out := .next (s.frstDone h)
/-- FRST_TIMEOUT (R61). -/
def execFrstTimeout (h : HallIx) (s : State) : Out := .next (s.frstTimeout h)
/-- HALL_FENCE_SET (R65). -/
def execHallFenceSet (h : HallIx) (s : State) : Out := .next (s.hallFenceSet h 0)
/-- HALL_FENCE_CLEAR (R66). -/
def execHallFenceClear (h : HallIx) (s : State) : Out := .next (s.hallFenceClear h)
/-- CORR_FENCE (R63). -/
def execCorrFence (h : HallIx) (k : Fin 3) (v : Word) (s : State) : Out := .next (s.corrFence h k v)
/-- CORR_READMIT (R66). -/
def execCorrReadmit (h : HallIx) (k : Fin 3) (s : State) : Out := .next (s.corrReadmit h k)

end Sys2Proof.Machine
end

