-- ==== Sys2Proof/Machine/Bist.lean ====
section
/-!
DEFINITION. Machine/Bist.lean: the self-test engine and the shutdown records (chapter 14, R444 to R453).
-/
namespace Sys2Proof.Machine

/-! ## Conditions (R448) -/

/-- A reading of VCC_CORE in mV lies within 0.7275 to 0.7725 V. -/
def vccOk (mv : Nat) : Bool := decide (728 ≤ mv) && decide (mv ≤ 772)

/-- The voltage monitors have been read. -/
def State.vmonRead (s : State) (mv : List Nat) : State :=
  (List.range 4).foldl (fun s c =>
    let x := mv.getD c 0
    s.setReg (Reg.BIST_VMON c) (BitVec.ofNat 32 (packBits [(12, x), (19, 0), (1, b2n (vccOk x))]))) s

/-- The conditions of R448, by the latest readings: none, or the result 3 or 4 of the refusal. -/
def State.bistBar (s : State) : Option Nat :=
  if !(List.range 4).all (fun c => s.bit (Reg.BIST_VMON c) Fl.BIST_VMON_OK) then some 3
  else if !s.bit Reg.CLK_STAT Fl.CLK_STAT_REF_OK then some 4
  else none

/-- The lowest reading of VCC_CORE. -/
def State.lowestVcc (s : State) : Nat :=
  ((List.range 4).map (fun c => s.fld (Reg.BIST_VMON c) Fl.BIST_VMON_MV)).foldl min 4095

/-- BIST_REFUSED with a result (R449). -/
def State.bistRefuse (s : State) (r : Nat) : State :=
  (s.setFld Reg.BIST_STAT Fl.BIST_STAT_RESULT r).postPkg Ev.BIST_REFUSED [(4, r), (12, s.lowestVcc)]

/-! ## Units (R446, R447) -/

/-- Halls of a set. -/
def hallsOf (n : Nat) : List Nat := (List.range 8).filter (fun h => bitOf n h)

/-- Galleries of hall h that BIST_GSEL_h selects. -/
def State.gselOf (s : State) (h : Nat) : List Nat :=
  (List.range 32).filter (fun g => bitOf (s.fld (Reg.BIST_GSEL h) Fl.BIST_GSEL_VALUE) g)

/-- The test of a gallery's fabric ends its planes (R446): EMPTY, NONE set, claims withdrawn; what stays in the fabric is arbitrary. -/
def State.fabricTested (s : State) (G : Nat) : State :=
  let s := (List.range 4).foldl (fun s p => s.emptyPlane G p) s
  let s := (s.setFld (Reg.GAL_CTX_STAT G) Fl.GAL_CTX_STAT_NONE 1).setFld (Reg.GAL_CTX_STAT G) Fl.GAL_CTX_STAT_PENDING 0
  let n := s.free
  let s := s.draw.draw
  (s.modGal G (fun g =>
    { g with loadQ := if g.loadBusy then g.loadQ.tail else g.loadQ, loadBusy := false, repl := none, bRepl := false, switching := false,
             live := Config.freeFabric n, shared := Config.freeFabric (n + 1), shadow := [] })).branchesUpdate G

/-- The units of unit 2 in hall h return to their state at step 6 of R57. -/
def State.unitsReset (s : State) (h : Nat) : State :=
  let s := ((s.ethsClear h).portDrop h).gwkRestart h
  (s.modHall h (fun x => { x with lens := [] })).setReg (Reg.LENS_TPTR h) 0

/-- What the start of a unit's test does in hall h (R446, R447). -/
def State.unitBegin (s : State) (h u : Nat) (keep : Bool) : State :=
  if u = 0 then (s.gselOf h).foldl (fun s g => if s.domOn h (32 + g) then s.memLost (32 * h + g) else s) s
  else if u = 1 ∧ keep = false ∧ s.domOn h 64 = true then
    (List.range 32).foldl (fun s g => (List.range 32).foldl (fun s k => s.emptySlot (32 * h + g) k) s) s
  else if u = 2 then (s.srBegin h 1).portDrain h
  else if u = 5 then (s.gselOf h).foldl (fun s g => if s.domOn h g then s.fabricTested (32 * h + g) else s) s
  else s

/-- The unit at the head of the run begins. -/
def State.unitStart (s : State) : State :=
  match s.bist.run with
  | some r =>
    match r.units with
    | u :: _ =>
      let s := s.setFld Reg.BIST_STAT Fl.BIST_STAT_UNIT u
      (hallsOf r.halls).foldl (fun s h => s.unitBegin h u r.keep) s
    | [] => s
  | none => s

/-- A hall's unit that owns a store of unit 2 is powered (R449). -/
def State.storeOn (s : State) (h store : Nat) : Bool :=
  if store ≤ 2 then s.domOn h 70 else if store ≤ 5 then s.domOn h 71 else if store ≤ 7 then s.domOn h 69
  else if store = 9 then s.domOn h 64 else true

/-- A failure lies in a target that the unit tests (R449); a bank has 2,056 physical rows (R451). -/
def State.bistTarget (s : State) (r : BistRun) (u : Nat) (f : BistFail) : Bool :=
  let h := f.hall.val
  bitOf r.halls h && (if u = 0 then (s.gselOf h).contains f.g.val && s.domOn h (32 + f.g.val) && decide (bitsOf f.f1.toNat 0 12 < 2056)
    else if u = 1 then s.domOn h 64
    else if u = 2 then s.storeOn h (bitsOf f.f1.toNat 16 8)
    else if u = 5 then (s.gselOf h).contains f.g.val && s.domOn h f.g.val
    else true)

/-- A failure names a gallery. -/
def unitGal (u : Nat) : Bool := u == 0 || u == 1 || u == 5

/-- A failure is counted, logged and reported (R452). -/
def State.bistLog (s : State) (u : Nat) (f : BistFail) : State :=
  let s := (s.incFld (Reg.BIST_UNIT u) Fl.BIST_UNIT_FAILS 1).setFldBit (Reg.BIST_UNIT u) Fl.BIST_UNIT_HALLS f.hall.val true
  if s.bist.log.length ≥ 64 then s
  else
    let g := if unitGal u then f.g.val else 0
    let e := (packBits [(20, 0), (5, g), (3, f.hall.val), (3, u), (1, 1)], f.f1.toNat, f.f2.toNat)
    let s : State := { s with bist := { s.bist with log := s.bist.log ++ [e] } }
    (s.setFld Reg.BIST_STAT Fl.BIST_STAT_LOGGED s.bist.log.length).postLim Ev.BIST_FAIL u ms f.hall.val
      (if unitGal u then f.g.val else 63) [(3, u), (32, f.f1.toNat)]

/-- A memory-layer fault is repaired (R451): the state after it, and whether it could be. -/
def State.bistRepair (s : State) (f : BistFail) : State × Bool :=
  let G := 32 * f.hall.val + f.g.val
  let b := bitsOf f.f1.toNat 12 5
  let row := bitsOf f.f1.toNat 0 12
  let addr := s.addressedRow G b row
  let s := if 2048 ≤ row then s.setRep G b (row - 2048) ⟨false, false, true, 0⟩ else s
  match addr with
  | none => (s, true)
  | some a =>
    match s.freeSpare G b with
    | some i => (s.setRep G b i ⟨true, true, false, a⟩, true)
    | none => (s, false)

/-- One failure of unit u in a run (R451, R452). -/
def State.bistFailure (s : State) (u : Nat) (f : BistFail) : State :=
  let s := s.bistLog u f
  let x := if u = 0 then s.bistRepair f else (s, false)
  let note := fun (r : BistRun) =>
    if x.2 then { r with repaired := true }
    else { r with unrep := true, bad := r.bad.orElse (fun _ => some (u, f.hall.val, f.g.val)) }
  let s := x.1
  { s with bist := { s.bist with run := s.bist.run.map note } }

/-! ## Records (R444) -/

/-- A repair entry. -/
def repairWord (G b i : Nat) (e : RepEntry) : Nat :=
  packBits [(11, if e.used then e.row else 0), (3, 0), (3, i), (5, b), (8, G), (2, if e.used then 0 else 1)]

/-- The soft-repair map. -/
def State.repairMap (s : State) : List Nat :=
  s.gals.flatMap (fun x => (x.2.repair.filter (fun e => e.2.used || e.2.retired)).map (fun e => repairWord x.1 (e.1 / 8) (e.1 % 8) e.2))

/-- Repair entries as bytes. -/
def mapBytes (l : List Nat) : List Byte := l.flatMap (fun x => bytesOf 4 (BitVec.ofNat 32 x))

/-- A temperature in whole °C; which way it is rounded is free. -/
def State.wholeDeg (s : State) (t : Int) : State × Int :=
  if t % 4 = 0 then (s, t / 4) else (s.draw, t / 4 + (((Config.freeWord s.free).toNat % 2 : Nat) : Int))

/-- H_h of the halls in whole °C, for the shutdown record. -/
def State.keepTemps (s : State) : State :=
  let x := (List.range 8).foldl (fun (a : State × List Nat) h =>
    let y := a.1.wholeDeg (a.1.hallTemp h)
    (y.1, a.2 ++ [unsignedOf 8 y.2])) (s, [])
  { x.1 with bist := { x.1.bist with th := x.2 } }

/-- The faults that the transparent test found and did not repair take spares in the map (R193). -/
def State.faultsMapped (s : State) : State :=
  (List.range 256).foldl (fun s G => (s.gal G).faults.foldl (fun s x => s.faultMapped G x) s) s

/-- The shutdown record, and before it the repair record that holds the excess (R444). -/
def State.shutdownRecord (s : State) (unrep : Bool) : State :=
  let s := s.faultsMapped
  let l := s.repairMap
  let past := decide (2021 < l.length)
  let l := l.take 2021
  let n := fun (w x : Nat) => bytesOf w (BitVec.ofNat 64 x)
  let more := l.drop 1003
  let s := if more.isEmpty then s else s.askRecord 3 (n 4 more.length ++ mapBytes more)
  s.askRecord 1 (n 4 (packBits [(1, b2n (!unrep && !past)), (1, b2n past), (6, 0), (6, 0x3F)])
    ++ n 4 s.boot.img.version ++ n 8 s.tbNs ++ (List.range 8).map (fun h => BitVec.ofNat 8 (s.bist.th.getD h 0))
    ++ n 4 (if more.isEmpty then 0 else 0xFFFFFFFF) ++ n 2 (min l.length 1003) ++ n 2 0
    ++ (List.range 6).flatMap (fun u => bytesOf 4 (s.reg (Reg.BIST_UNIT u))) ++ n 8 0 ++ mapBytes (l.take 1003))

/-! ## Runs (R449, R450) -/

/-- The run ends with a result, and no unit is under test. -/
def State.bistClose (s : State) (result : Nat) : State :=
  let s : State := { s with bist := { s.bist with run := none } }
  let s := ((s.setFld Reg.BIST_STAT Fl.BIST_STAT_RESULT result).setFld Reg.BIST_STAT Fl.BIST_STAT_UNIT 7).setFld Reg.BIST_STAT
    Fl.BIST_STAT_BUSY 0
  (s.postPkg Ev.BIST_DONE [(4, result), (8, s.fld Reg.BIST_STAT Fl.BIST_STAT_LOGGED)]).admRelease 10 .bist

/-- What follows a finished run (R450, R451). -/
def State.bistAfter (s : State) (r : BistRun) : State :=
  if r.who = 0 then
    if r.ends.isSome then s
    else match r.bad with
      | some b => (s.post Ev.BIST_UNREPAIRABLE b.2.1 (if unitGal b.1 then b.2.2 else 63) [(3, b.1)]).safeHold true
      | none => { s with boot := { s.boot with phase := .pll } }
  else if r.who = 1 ∧ r.ends.isNone = true then s.shutdownRecord r.unrep
  else s

/-- A run ends after its last unit, or after the unit in progress when something abandons it. -/
def State.bistEnd (s : State) (r : BistRun) : State :=
  (s.bistClose (r.ends.getD (if r.unrep then 2 else if r.repaired then 1 else 0))).bistAfter r

/-- A unit has run; the next begins, or the run ends. -/
def State.bistNext (s : State) : State :=
  match s.bist.run with
  | none => s
  | some r => if r.units.isEmpty || r.ends.isSome then s.bistEnd r else s.unitStart

/-- A run begins (R449). -/
def State.bistBegin (s : State) : State :=
  match s.bist.run with
  | none => s
  | some r =>
    let s := (List.range 6).foldl (fun s u => s.setReg (Reg.BIST_UNIT u) 0) s
    let s : State := { s with bist := { s.bist with run := some { r with started := true }, log := [] } }
    let s := s.setFld Reg.BIST_STAT Fl.BIST_STAT_LOGGED 0
    (s.postPkg Ev.BIST_START [(6, (r.units.map (2 ^ ·)).foldl (· + ·) 0), (8, r.halls), (1, b2n r.keep), (2, r.who)]).bistNext

/-- A run is set up (not yet begun). -/
def State.bistSet (s : State) (r : BistRun) : State :=
  ({ s with bist := { s.bist with run := some r } } : State).setFld Reg.BIST_STAT Fl.BIST_STAT_BUSY 1

/-- Units of a set, ascending. -/
def unitList (n : Nat) : List Nat := (List.range 6).filter (fun u => bitOf n u)

/-- A selected gallery has servers of Gweak. -/
def State.bistServers (s : State) (halls : Nat) : Bool :=
  (hallsOf halls).any (fun h => (s.gselOf h).any (fun g => s.hasServers h g))

/-- BIST_CMD (R448, R449): the command word and the readings of VCC_CORE in mV. -/
def State.bistCmd (s : State) (v : Word) (mv : List Nat) : State :=
  let st := s.fld Reg.BOOT_STAT Fl.BOOT_STAT_STATE
  let units := fieldOf v Fl.BIST_CMD_UNITS
  let halls := fieldOf v Fl.BIST_CMD_HALLS
  if fieldOf v Fl.BIST_CMD_GO = 0 ∨ fieldOf v Fl.BIST_CMD_KEY ≠ 0x3C then s
  else if (st ≠ 6 ∧ st ≠ 7 ∧ st ≠ 9) ∨ s.bit Reg.BIST_STAT Fl.BIST_STAT_BUSY = true
      ∨ (bitOf units 5 = true ∧ s.bistServers halls = true) then s.bistRefuse 5
  else
    let s := s.vmonRead mv
    match s.bistBar with
    | some r => s.bistRefuse r
    | none => (s.bistSet ⟨unitList units, halls, fieldOf v Fl.BIST_CMD_MODE == 1, 2, false, false, false, none, none⟩).admRequest 10 0 .bist

/-- A run of a start begins (R450), unless R448 refuses it: BIST_REFUSED once while start-up waits. -/
def State.bistAtStart (s : State) (mv : List Nat) : State :=
  let s := s.vmonRead mv
  match s.bistBar with
  | some r =>
    if s.bist.raised then s
    else ({ s with bist := { s.bist with raised := true } } : State).bistRefuse r
  | none =>
    let path := s.fld Reg.BOOT_STAT Fl.BOOT_STAT_PATH
    let units := if path = 1 then [3, 4] else if path = 3 then [4] else [0, 1, 2, 3, 4, 5]
    (s.bistSet ⟨units, 0xFF, false, 0, false, false, false, none, none⟩).bistBegin

/-- The shutdown self-test (R434 step 4, R450): admitted at once as kind 10. -/
def State.bistAtStop (s : State) (mv : List Nat) : State :=
  let s := (s.vmonRead mv).keepTemps
  match s.bistBar with
  | some r => s.bistRefuse r
  | none =>
    let c := s.admCost 10 0
    let s : State := { s with adm := { s.adm with held := s.adm.held ++ [⟨10, 0, .bist, c⟩] } }
    (s.bistSet ⟨[0, 1, 2, 3, 4, 5], 0xFF, false, 1, false, false, false, none, none⟩).bistBegin

/-- The stores of unit 2 in hall h leave the test: the units have been reset, or resume (R446, R447). -/
def State.storesBack (s : State) (h : Nat) (keep : Bool) : State := (if keep then s else s.unitsReset h).srEnd h 1

/-- BIST_UNIT_DONE (R446, R451, R452): the unit under test ends with its failures. -/
def State.bistUnitDone (s : State) (fails : List BistFail) : State :=
  match s.bist.run with
  | none => s
  | some r =>
    if !r.started || r.units.isEmpty then s
    else
      let u := r.units.headD 7
      let was := r.unrep
      let s := ({ s with bist := { s.bist with run := some { r with unrep := false } } } : State)
      let found := fails.filter (fun f => s.bistTarget r u f)
      let s := found.foldl (fun s f => s.bistFailure u f) s
      let bad := s.bist.run.any (·.unrep)
      let s := s.setFld (Reg.BIST_UNIT u) Fl.BIST_UNIT_OUTCOME (if bad then 3 else if found.isEmpty then 1 else 2)
      let next := fun (x : BistRun) => { x with units := x.units.tail, unrep := x.unrep || was }
      let s : State := { s with bist := { s.bist with run := s.bist.run.map next } }
      let s := if u = 2 then (hallsOf r.halls).foldl (fun s h => s.storesBack h r.keep) s else s
      s.bistNext

/-- A reset, a stop, or a thermal action abandons a run at once: result 7 (R453). -/
def State.bistAbandon (s : State) : State :=
  match s.bist.run with
  | none => s
  | some r =>
    let s := s.admWithdraw .bist
    let s := if r.started then s.bistClose 7
      else (({ s with bist := { s.bist with run := none } } : State).setFld Reg.BIST_STAT Fl.BIST_STAT_RESULT 7).setFld Reg.BIST_STAT
        Fl.BIST_STAT_BUSY 0
    if r.started && r.units.headD 7 == 2 then (hallsOf r.halls).foldl (fun s h => s.storesBack h r.keep) s else s

/-- BIST_SUPPLY_CHECK (R448): a condition that fails ends the run after the unit in progress. -/
def State.bistSupply (s : State) (mv : List Nat) : State :=
  match s.bist.run with
  | none => s
  | some r =>
    if !r.started then s
    else
      let s := s.vmonRead mv
      match s.bistBar with
      | some x => if r.ends.isSome then s else { s with bist := { s.bist with run := some { r with ends := some x } } }
      | none => s

/-- SELFTEST_SUPPLY_RECHECK (R450). -/
def State.selftestRecheck (s : State) (mv : List Nat) : State :=
  if s.boot.phase = .selftest ∧ s.bist.run.isNone = true then s.bistAtStart mv else s

/-! ## Meanings -/

/-- BIST_CMD (R449). -/
def execBistCmd (v : Word) (mv : List (Fin 4096)) (s : State) : Out := .next (s.bistCmd v (mv.map (·.val)))
/-- BIST_UNIT_DONE (R446). -/
def execBistUnitDone (fails : List BistFail) (s : State) : Out := .next (s.bistUnitDone fails)
/-- BIST_SUPPLY_CHECK (R448). -/
def execBistSupplyCheck (mv : List (Fin 4096)) (s : State) : Out := .next (s.bistSupply (mv.map (·.val)))
/-- SELFTEST_SUPPLY_RECHECK (R450). -/
def execSelftestSupplyRecheck (mv : List (Fin 4096)) (s : State) : Out := .next (s.selftestRecheck (mv.map (·.val)))

end Sys2Proof.Machine
end

