-- ==== Sys2Proof/Machine/Therm.lean ====
section
/-!
DEFINITION. Machine/Therm.lean: measurements, thresholds, throttling, the thermal stop and cut, and the orderly stop (chapter 13,
R424 to R435).
-/
namespace Sys2Proof.Machine

/-! ## The cross-check (R425) -/

/-- Same-layer neighbours of sensor j of a foundation or memory layer. -/
def lateralOf (j : Nat) : List Nat :=
  let within := fun (lo hi : Nat) => (if lo < j then [j - 1] else []) ++ (if j < hi then [j + 1] else [])
  if j < 8 then within 0 7 else within 28 31

/-- Sensors below sensor j, and the field of THERM_OFS between (the table of R424). -/
def belowOf (j : Nat) : List Nat × Fld :=
  if j < 8 then ([], Fl.THERM_OFS_FM)
  else if j < 12 then (List.range 8, Fl.THERM_OFS_FM)
  else if j < 28 then ([8 + (j - 12) / 4], Fl.THERM_OFS_ML)
  else ((List.range 4).map (12 + 4 * (j - 28) + ·), Fl.THERM_OFS_LM)

/-- Sensors above sensor j. -/
def aboveOf (j : Nat) : List Nat × Fld :=
  if j < 8 then ([8, 9, 10, 11], Fl.THERM_OFS_FM)
  else if j < 12 then ((List.range 4).map (12 + 4 * (j - 8) + ·), Fl.THERM_OFS_ML)
  else if j < 28 then ([28 + (j - 12) / 4], Fl.THERM_OFS_LM)
  else ([], Fl.THERM_OFS_LM)

/-- The scale in which means of up to eight sensors, and the mean of two such means, are whole. -/
def estScale : Int := 1680

/-- The scaled mean of the readings of sensors not suspect, if any. -/
def meanOf (x : List Int) (sus : List Bool) (l : List Nat) : Option Int :=
  let u := l.filter (fun i => !sus.getD i false)
  if u.isEmpty then none
  else some ((u.map (fun i => x.getD i 0)).foldl (· + ·) 0 * (estScale / (u.length : Int)))

/-- The mean of what terms there are. -/
def meanTerms : List (Option Int) → Option Int
  | [some a, some b] => some ((a + b) / 2)
  | [some a, none] => some a
  | [none, some b] => some b
  | _ => none

/-- The scaled estimate of sensor j (R425), from raw readings and the suspect flags before the measurement; ofs gives an offset. -/
def estimate (x : List Int) (sus : List Bool) (ofs : Fld → Int) (j : Nat) : Int :=
  let b := belowOf j
  let a := aboveOf j
  let below := (meanOf x sus b.1).map (· - ofs b.2 * estScale)
  let above := (meanOf x sus a.1).map (· + ofs a.2 * estScale)
  let e := if 8 ≤ j ∧ j < 28 then meanTerms [below, above]
    else meanTerms [meanOf x sus (lateralOf j), if j < 8 then above else below]
  e.getD (x.getD j 0 * estScale)

/-- An offset of THERM_OFS. -/
def State.thermOfs (s : State) (f : Fld) : Int := (s.fld Reg.THERM_OFS f : Nat)

/-- An estimate in units of 0.25 °C, within a reading's range; which way it is rounded is free. -/
def State.estUnits (s : State) (e : Int) : State × Int :=
  let clip := fun (t : Int) => max (-512) (min 511 t)
  if e % estScale = 0 then (s, clip (e / estScale))
  else (s.draw, clip (e / estScale + (((Config.freeWord s.free).toNat % 2 : Nat) : Int)))

/-- Sensor j of hall h takes its reading, effective value and flags. -/
def State.sensorCheck (s : State) (h : Nat) (x : List Int) (sus : List Bool) (j : Nat) : State :=
  let a := Reg.THERM_T h j
  let v := x.getD j 0
  let e := estimate x sus s.thermOfs j
  let y := s.estUnits e
  let far := decide ((v * estScale - e).natAbs > 48 * estScale.toNat)
  let was := sus.getD j false
  let good := if far then 0 else Sparse.get s.thermGood 0 (32 * h + j) + 1
  let back := was && !far && decide (3 ≤ good)
  let now := far || (was && !back)
  let s := if now then y.1 else s
  let eff := if now then y.2 else v
  let s : State := { s with thermGood := Sparse.set s.thermGood 0 (32 * h + j) (if now && !far then good else 0) }
  let s := ((s.setFld a Fl.THERM_T_RAW (unsignedOf 10 v)).setFld a Fl.THERM_T_EFF (unsignedOf 10 eff)).setFld a Fl.THERM_T_VALID 1
  let s := s.setFld a Fl.THERM_T_SUSPECT (b2n now)
  if far && !was then
    (s.setFld a Fl.THERM_T_EVER 1).post Ev.SENSOR_SUSPECT h j [(10, unsignedOf 10 v), (10, unsignedOf 10 eff)]
  else if back then s.post Ev.SENSOR_RESTORED h j [(10, unsignedOf 10 v)]
  else s

/-! ## Prediction (R431) -/

/-- Add a reading to a history, which keeps what R431 can still need. -/
def pushPt (l : List (Nat × Int)) (t : Nat) (v : Int) : List (Nat × Int) :=
  let recent := l.takeWhile (fun p => decide (t < p.1 + ms))
  (t, v) :: (recent ++ (l.drop recent.length).take 1)

/-- The latest reading, and the latest at least 1 ms before it. -/
def slopePts (l : List (Nat × Int)) : Option ((Nat × Int) × (Nat × Int)) :=
  match l with
  | p :: r => (r.find? (fun q => decide (q.1 + ms ≤ p.1))).map (fun q => (p, q))
  | [] => none

/-- t_p ≤ n ms (R431), where limit and readings are in units of 0.25 °C. -/
def tpWithin (l : List (Nat × Int)) (limit : Int) (n : Nat) : Bool :=
  match slopePts l with
  | some (p, q) =>
    let d := p.2 - q.2
    decide (0 < d) && decide ((limit - p.2) * ((p.1 - q.1 : Nat) : Int) ≤ (n : Int) * d * (ms : Int))
  | none => false

/-- t_p in whole ms, 0xFFFF where it is longer or infinite. -/
def tpMs (l : List (Nat × Int)) (limit : Int) : Nat :=
  match slopePts l with
  | some (p, q) =>
    let d := p.2 - q.2
    if 0 < d then min 0xFFFF ((limit - p.2) * ((p.1 - q.1 : Nat) : Int) / (d * (ms : Int))).toNat else 0xFFFF
  | none => 0xFFFF

/-! ## Orderly stop (R434, R435) -/

/-- Waiting requests other than kind 10 end with their timeout outcome (R434 step 1). -/
def State.admStopped (s : State) : State :=
  let l := s.adm.queue.filter (fun r => r.kind != 10)
  let s : State := { s with adm := { s.adm with queue := s.adm.queue.filter (fun r => r.kind == 10) } }
  l.foldl (fun s r => s.admTimedOut r.kind r.hall r.who) s

/-- Every Gweak clears DISPATCH_EN (R227). -/
def State.dispatchOff (s : State) : State :=
  (List.range 8).foldl (fun s h => s.setFld (Reg.GWK_CTRL h) Fl.GWK_CTRL_DISPATCH_EN 0) s

/-- Step 1 of an orderly stop, after which step 2 is in progress. -/
def State.stopBegin (s : State) (cause : Nat) : State :=
  let t := s.now
  let s : State := { s with stop := { s.stop with step := 2, cause := cause, t0 := t } }
  (((s.postPkg Ev.STOP_START [(2, cause)]).dispatchOff.bistAbandon).admStopped).loadsEnd

/-- A stop before release (R362): loading is abandoned and the state is STOPPED. -/
def State.stopLoading (s : State) : State :=
  let s := s.bistAbandon
  let s : State := { s with boot := { s.boot with phase := .done, runs := false } }
  s.loadsEnd.setBoot 9

/-- A stop may begin: the start delay is over, no stop runs, and the part is neither in safe hold nor STOPPED (R355, R434, R435). -/
def State.stopMay (s : State) : Bool :=
  let st := s.fld Reg.BOOT_STAT Fl.BOOT_STAT_STATE
  s.boot.phase != .off && s.boot.phase != .delay && s.stop.step == 0 && !s.stop.cut && st != 7 && st != 9

/-- The orderly stop begins with a cause: 0 STOP_N, 1 the command, 2 a thermal trigger. -/
def State.orderlyStop (s : State) (cause : Nat) : State :=
  if !s.stopMay then s else if s.donePin then s.stopBegin cause else s.stopLoading

/-- The stack of hall h enters self-refresh at once (R434 step 3, R432): posted writes are written and queued reads answered (R282),
and its engine pauses and flushes (R306). -/
def State.stackHold (s : State) (h : Nat) : State :=
  let s := s.srBegin h 3
  if hasPort h && (s.hbmState h == 2 || (s.hbmState h == 4 && !(s.hbm h).exiting)) then
    ((((s.wcbDrain h).portFlush h).cacheFlush h).meePause h 3).stackEntered h
  else s

/-- Servers that hold an item or drain, over every hall (R434 step 2). -/
def State.heldServers (s : State) : Nat :=
  ((List.range 8).map (fun h => ((List.range 128).filter (fun v => [3, 4, 5].contains (s.srvState h v))).length)).foldl (· + ·) 0

/-- Step 4: the calibration record, the self-test and the shutdown record (R443, R444, R450). -/
def State.stopTest (s : State) (mv : List Nat) : State :=
  let s : State := { s with stop := { s.stop with step := 4 } }
  let s := if s.bit Reg.CAL_CFG Fl.CAL_CFG_REC_EN then s.calRecord else s
  s.bistAtStop mv

/-- STOP_DRAIN_END: step 2 ends and step 3 is taken; a stop that is not thermal goes on to step 4. mv: readings of VCC_CORE. -/
def State.stopDrainEnd (s : State) (mv : List Nat) : State :=
  if s.stop.step ≠ 2 then s
  else
    let n := s.heldServers
    let s := if n = 0 then s else s.postPkg Ev.STOP_DRAIN_LIMIT [(11, n)]
    let s : State := { s with stop := { s.stop with step := 3 } }
    let s := (List.range 8).foldl (fun s h => s.stackHold h) s.fabricStop
    if s.stop.thermal.isSome then s else s.stopTest mv

/-- STOP_DONE: step 5. -/
def State.stopDone (s : State) : State :=
  if s.stop.step = 4 ∧ s.bist.run.isNone = true ∧ s.boot.recs.isEmpty = true then
    let t := (s.now - s.stop.t0) / ms
    let s : State := { s with stop := { s.stop with step := 0 }, boot := { s.boot with phase := .done, runs := false } }
    (s.setBoot 9).postPkg Ev.STOP_DONE [(16, min t 0xFFFF)]
  else s

/-! ## The immediate cut (R432) -/

/-- The power command under way ends with the domains; its result is not stated. -/
def State.pwrCut (s : State) : State :=
  if s.pwrCmd.isSome then s.draw.pwrResult ((Config.freeWord s.free).toNat % 8) else s

/-- Domains of hall h are powered off without admission, and the mirror domain goes to retention (R432). -/
def State.hallCut (s : State) (h : Nat) : State :=
  let s := (List.range 72).foldl (fun s d =>
    if d = 64 then s.forceDom h d 1
    else if d = 71 then (if s.domState h d = 3 then s.forceDom h d 0 else s)
    else if s.domState h d = 6 ∨ s.domState h d = 0 then s
    else
      let s := if 65 ≤ d ∧ d < 69 then (List.range 4).foldl (fun s i => s.laneOff h (4 * (d - 65) + i)) s else s
      (s.forceDom h d 0).domainDown h d 0) s
  (List.range 32).foldl (fun s g => s.branchesUpdate (32 * h + g)) s

/-- The memory port of hall h in the cut: self-refresh below 95 °C, otherwise powered off with its contents lost. -/
def State.portCut (s : State) (h : Nat) : State :=
  if !hasPort h then s
  else
    let m := stackOfHall h
    if s.stackTemp m < 95 then s.stackHold h
    else
      let s := (s.meePause h 3).modHbm h (fun _ => {})
      let s := s.modMee h (fun x => { x with wcb := [], dirty := [] })
      ((s.loseMem (m * 0x1000000000) ((m + 1) * 0x1000000000)).setHbmState h 1).forceDom h 71 0

/-- Costs that the cut leaves held: powered memory ports, and lowered divisions (R420). -/
def State.costsCut (s : State) : State :=
  { s with adm := { queue := [], again := [], held := s.adm.held.filter (fun x => x.kind == 12 || (x.kind == 7 && s.domOn x.hall 71)) } }

/-- The thermal stop is no longer running (THERM_HALL_h.STOPPING). -/
def State.stoppingOff (s : State) : State :=
  (List.range 8).foldl (fun s h => s.setFld (Reg.THERM_HALL h) Fl.THERM_HALL_STOPPING 0) s

/-- Records that wait are not written any more (R432, R435). -/
def State.noRecords (s : State) : State :=
  let s := if s.boot.recs.isEmpty then s else s.setFld Reg.CAL_STAT Fl.CAL_STAT_SAVING 0
  { s with boot := { s.boot with recs := [] } }

/-- The stop is over and the power is cut: start-up runs no further. -/
def State.cutMade (s : State) : State :=
  { s with stop := { step := 0, cut := true }, boot := { s.boot with phase := .done, runs := false } }

/-- The immediate cut (R432). -/
def State.cutNow (s : State) : State :=
  let s := (s.bistAbandon.noRecords.fabricStop.loadsEnd).pwrCut.cutMade
  let s := (List.range 8).foldl (fun s h => (s.portCut h).hallCut h) s
  (s.costsCut.stoppingOff).setBoot 7

/-- IMMEDIATE_CUT: the end of step 3 of a thermal stop, or 5 ms after the trigger. -/
def State.immediateCut (s : State) : State := if s.stop.thermal.isSome && !s.stop.cut then s.cutNow else s

/-! ## The shutdown action (R430, R431) -/

/-- A shutdown trigger: of hall h (stack none) or of a stack; t and hist are its reading and history, in units of 0.25 °C. While
start-up waits at step 1 for the part to cool (R433), none acts. -/
def State.thermTrigger (s : State) (h : Nat) (stack : Option Nat) (t limit : Int) (hist : List (Nat × Int)) : State :=
  if s.stop.cut || s.boot.phase == .hot then s
  else if s.stop.thermal.isSome then (if limit ≤ t then s.cutNow else s)
  else
    let cut := tpWithin hist limit 5 || s.stop.step == 4
    let tp := tpMs hist limit
    let now := s.now
    let s := match stack with
      | none =>
        (s.setFld (Reg.THERM_HALL h) Fl.THERM_HALL_SHUTDOWN 1).post Ev.THERM_SHUTDOWN h 63
          [(1, b2n cut), (10, unsignedOf 10 t), (16, tp)]
      | some m =>
        (s.setFld (Reg.THERM_HBM m) Fl.THERM_HBM_SHUTDOWN 1).post Ev.THERM_SHUTDOWN h m [(1, b2n cut), (8, (t / 4).toNat), (16, tp)]
    if cut then s.cutNow
    else
      let s : State := { s with stop := { s.stop with thermal := some now } }
      let s := if stack.isNone then s.setFld (Reg.THERM_HALL h) Fl.THERM_HALL_STOPPING 1 else s
      s.orderlyStop 2

/-! ## Thresholds and throttling (R427 to R430) -/

/-- Enter or leave a threshold: whether it holds, after a value. -/
def threshold (was : Bool) (t enter leave : Int) : Bool := if was then !decide (t < leave) else decide (enter ≤ t)

/-- The throttle step that temperature t gives, if any (R428), in units of 0.25 °C: step k from 100 + 2.5 k °C. -/
def stepAt (t : Int) : Option Nat := if 430 ≤ t then some 3 else if 420 ≤ t then some 2 else if 410 ≤ t then some 1 else if 400 ≤ t then some 0 else none

/-- A step is left for the one below while the temperature lies below 97.5 + 2.5 k °C. -/
def stepDown (t : Int) : Nat → Nat
  | 0 => 0
  | k + 1 => if t < 390 + 10 * ((k : Int) + 1) then stepDown t k else k + 1

/-- The step of a hall in throttle after a temperature. -/
def stepNext (old : Nat) (t : Int) : Nat :=
  match stepAt t with
  | some k => if old < k then k else stepDown t old
  | none => stepDown t old

/-- The division that hall h's step asks for (R428). -/
def State.divWanted (s : State) (h : Nat) : Nat :=
  let a := Reg.THERM_HALL h
  if s.bit a Fl.THERM_HALL_THROTTLE then s.fld (Reg.THERM_CURVE (s.fld a Fl.THERM_HALL_STEP)) Fl.THERM_CURVE_DIV else 0

/-- A request for a lower division waits. -/
def State.divAsked (s : State) (h : Nat) : Bool := s.adm.queue.any (fun r => decide (r.who = .divLower h))

/-- The division follows the step: raised at once, lowered after a grant of kind 12 (R428, R435). -/
def State.divFollow (s : State) (h : Nat) : State :=
  let want := s.divWanted h
  let have' := s.fld (Reg.HCLK_DIV h) Fl.HCLK_DIV_DIV
  if have' < want then
    (((s.admWithdraw (.divLower h)).admRelease 12 (.divLower h)).setFld (Reg.HCLK_DIV h) Fl.HCLK_DIV_DIV want)
  else if want = have' then s.admWithdraw (.divLower h)
  else if s.divAsked h then s else s.admRequest 12 h (.divLower h)

/-- The grant of kind 12: the division is lowered to what the step now asks for. -/
def State.divGranted (s : State) (h : Nat) : State := s.setFld (Reg.HCLK_DIV h) Fl.HCLK_DIV_DIV (s.divWanted h)

/-- Warning and throttle of hall h after its reading (R427, R428). -/
def State.hallThresholds (s : State) (h : Nat) : State :=
  let a := Reg.THERM_HALL h
  let t := s.hallTemp h
  let arg := (10, unsignedOf 10 t)
  let warn := s.bit a Fl.THERM_HALL_WARN
  let warn' := threshold warn t 380 360
  let s := s.setFld a Fl.THERM_HALL_WARN (b2n warn')
  let s := if !warn && warn' then s.post Ev.THERM_WARN h 63 [arg]
    else if warn && !warn' then s.post Ev.THERM_WARN_CLEAR h 63 [arg] else s
  let thr := s.bit a Fl.THERM_HALL_THROTTLE
  let thr' := threshold thr t 400 380
  let step := if thr' then (if thr then stepNext (s.fld a Fl.THERM_HALL_STEP) t else (stepAt t).getD 0) else 0
  let s := (s.setFld a Fl.THERM_HALL_THROTTLE (b2n thr')).setFld a Fl.THERM_HALL_STEP step
  let s := if !thr && thr' then s.post Ev.THERM_THROTTLE h 63 [(2, step), arg]
    else if thr && !thr' then s.post Ev.THERM_THROTTLE_CLEAR h 63 [arg] else s
  s.divFollow h

/-- The readings of hall h's 32 sensors, in units of 0.25 °C, are taken (R425): each sensor its reading, effective value and flags, then
H_h and the number of suspect sensors. -/
def State.sensorsRead (s : State) (h : Nat) (x : List Int) : State :=
  let a := Reg.THERM_HALL h
  let sus := (List.range 32).map (fun j => s.bit (Reg.THERM_T h j) Fl.THERM_T_SUSPECT)
  let s := (List.range 32).foldl (fun s j => s.sensorCheck h x sus j) (s.setFld a Fl.THERM_HALL_BUSY 0)
  let eff := (List.range 32).map (fun j => signedOf 10 (s.fld (Reg.THERM_T h j) Fl.THERM_T_EFF))
  let n := ((List.range 32).filter (fun j => s.bit (Reg.THERM_T h j) Fl.THERM_T_SUSPECT)).length
  (s.setFld a Fl.THERM_HALL_H (unsignedOf 10 (eff.foldl max (-512)))).setFld a Fl.THERM_HALL_SUSPECTS (min n 31)

/-- The history of hall h with its latest reading (R431). -/
def State.hallPts (s : State) (h : Nat) : List (Nat × Int) := pushPt (Sparse.get s.thermHall {} h).pts s.now (s.hallTemp h)

/-- A reading of hall h gives a shutdown trigger (R430, R431). -/
def State.hallTrips (s : State) (h : Nat) : Bool :=
  decide (440 ≤ s.hallTemp h) || tpWithin (s.hallPts h) 440 (s.fld Reg.THERM_CFG Fl.THERM_CFG_STOP_LEAD)

/-- MEASUREMENT_DONE (R425 to R431). -/
def State.measured (s : State) (h : Nat) (x : List Int) : State :=
  if !s.bit (Reg.THERM_HALL h) Fl.THERM_HALL_BUSY then s
  else
    let u := s.sensorsRead h x
    let s : State := { u with thermHall := Sparse.put u.thermHall h ⟨u.hallPts h⟩ }
    let s := (s.hallThresholds h).calTrigger h
    if u.hallTrips h then s.thermTrigger h none (u.hallTemp h) 440 (u.hallPts h) else s

/-! ## HBM stacks (R279, R427, R430) -/

/-- Warning and throttle of stack m after its reading of t °C. -/
def State.stackThresholds (s : State) (m t : Nat) : State :=
  let h := hallOfStack m
  let a := Reg.THERM_HBM m
  let warn := s.bit a Fl.THERM_HBM_WARN
  let warn' := threshold warn t 85 80
  let s := s.setFld a Fl.THERM_HBM_WARN (b2n warn')
  let s := if !warn && warn' then s.post Ev.HBM_THERM_WARN h m [(8, t)]
    else if warn && !warn' then s.post Ev.HBM_THERM_CLEAR h m [(8, t), (1, 0)] else s
  let thr := s.bit a Fl.THERM_HBM_THROTTLE
  let thr' := threshold thr t 90 85
  let s := s.setFld a Fl.THERM_HBM_THROTTLE (b2n thr')
  if !thr && thr' then s.post Ev.HBM_THERM_THROTTLE h m [(8, t)]
  else if thr && !thr' then s.post Ev.HBM_THERM_CLEAR h m [(8, t), (1, 1)]
  else s

/-- HBM_TEMP_READ (R279): the memory port of stack m reads its temperature in °C and its refresh requirement. -/
def State.stackRead (s : State) (m t mult : Nat) : State :=
  let h := hallOfStack m
  if !s.domOn h 71 then s
  else
    let a := Reg.HBM_TEMP h
    let old := s.fld a Fl.HBM_TEMP_REFMULT
    let s := ((s.setFld a Fl.HBM_TEMP_TEMP t).setFld a Fl.HBM_TEMP_REFMULT mult).setFld (Reg.THERM_HBM m) Fl.THERM_HBM_TEMP t
    let s := if old = mult then s else s.post Ev.HBM_REFRESH_RATE h 63 [(2, mult), (8, t)]
    let v : Int := 4 * (t : Int)
    let hist := pushPt (Sparse.get s.thermStack {} m).pts s.now v
    let s : State := { s with thermStack := Sparse.put s.thermStack m ⟨hist⟩ }
    let s := (s.stackThresholds m t).calStackTrigger m
    if decide (95 ≤ t) || tpWithin hist 380 (s.fld Reg.THERM_CFG Fl.THERM_CFG_STOP_LEAD) then s.thermTrigger h (some m) v 380 hist else s

/-! ## When measurements are made (R424) -/

/-- THERM_MEAS: a write of THERM_MEAS. -/
def State.thermMeas (s : State) (v : Word) : State :=
  (hallsOf (fieldOf v Fl.THERM_MEAS_HALLS)).foldl (fun s h => s.startReading h) s

/-- THERMAL_ROUTINE: the routine measures hall h; PERIOD 0 disables it. -/
def State.thermRoutine (s : State) (h : Nat) : State :=
  if s.fld Reg.THERM_CFG Fl.THERM_CFG_PERIOD = 0 then s else s.startReading h

/-! ## Meanings -/

/-- THERM_MEAS (R424). -/
def execThermMeas (v : Word) (s : State) : Out := .next (s.thermMeas v)
/-- THERMAL_ROUTINE (R424). -/
def execThermalRoutine (h : HallIx) (s : State) : Out := .next (s.thermRoutine h)
/-- MEASUREMENT_DONE (R425). -/
def execMeasurementDone (h : HallIx) (x : List (BitVec 10)) (s : State) : Out := .next (s.measured h (x.map (·.toInt)))
/-- HBM_TEMP_READ (R279). -/
def execHbmTempRead (m : StackIx) (t : Fin 256) (mult : Fin 3) (s : State) : Out := .next (s.stackRead m t mult)
/-- IMMEDIATE_CUT (R432). -/
def execImmediateCut (s : State) : Out := .next s.immediateCut
/-- STOP_N (R434). -/
def execStopN (s : State) : Out := .next (s.orderlyStop 0)
/-- STOP_DRAIN_END (R434). -/
def execStopDrainEnd (mv : List (Fin 4096)) (s : State) : Out := .next (s.stopDrainEnd (mv.map (·.val)))
/-- STOP_DONE (R434). -/
def execStopDone (s : State) : Out := .next s.stopDone

end Sys2Proof.Machine
end

