-- ==== Sys2Proof/Machine/Admit.lean ====
section
/-!
DEFINITION. Machine/Admit.lean: grants and timeouts of the power admission controller (chapter 13, R420 to R422).
-/
namespace Sys2Proof.Machine

/-- A granted request starts its operation (R420). -/
def State.granted (s : State) (r : AdmReq) : State :=
  match r.who with
  | .power h d _ => s.powerGranted h d
  | .hbmExit m => s.exitGranted (hallOfStack m)
  | .mee m k => s.meeGranted (hallOfStack m) k
  | .bist => s.bistBegin
  | .copy G => s.slotCopyStart G
  | .library => { s with boot := { s.boot with libOk := true } }
  | .import_ => s.importGranted
  | .divLower h => s.divGranted h

/-- ADMISSION_GRANT: the first request that the evaluation of R422 grants, its cost held. Requesters that ask again join the queue
first. -/
def State.admGrant (s : State) : State :=
  let s := s.askAgain
  match s.firstGrant [] false s.adm.queue with
  | none => s
  | some (r, c) =>
    let s : State := { s with adm := { s.adm with queue := s.adm.queue.erase r, held := s.adm.held ++ [⟨r.kind, r.hall, r.who, c⟩] } }
    s.granted r

/-- The request waits with no timeout: a library section (R420). -/
def noTimeout (r : AdmReq) : Bool := decide (r.who = .library)

/-- ADM_TIMEOUT: request i of the queue has waited ADM_TO ms and gets the outcome of its kind. -/
def State.admTimeout (s : State) (i : Nat) : State :=
  match s.adm.queue[i]? with
  | none => s
  | some r =>
    if noTimeout r then s
    else
      let s : State := { s with adm := { s.adm with queue := s.adm.queue.eraseIdx i } }
      let s := s.postLim Ev.ADM_TIMEOUT r.kind ms r.hall 63 [(4, r.kind)]
      (s.admTimedOut r.kind r.hall r.who).askAgain

/-! ## Meanings -/

/-- ADMISSION_GRANT (R422). -/
def execAdmissionGrant (s : State) : Out := .next s.admGrant
/-- ADM_TIMEOUT (R422). -/
def execAdmTimeout (i : Fin 64) (s : State) : Out := .next (s.admTimeout i)

end Sys2Proof.Machine
end

