-- ==== Sys2Proof/Machine/RegAccess.lean ====
section
/-!
DEFINITION. Machine/RegAccess.lean: reading and writing a management register, by host software and by the design (R6, R7, R16 to
R18, R33 to R35, R461, R472, R498, R499). A register has one home, State.regs; what a register shows of other state is computed
here, and a write with an effect beyond its own fields goes to the operation of its unit.
-/
namespace Sys2Proof.Machine

/-! ## Computed views -/

/-- Replace fields of a word. -/
def withFields (w : Word) : List (Fld × Nat) → Word
  | [] => w
  | (f, n) :: r => withFields (withField w f n) r

/-- An event record as the 128 bits of R465. -/
def eventBits (r : EventRec) : Nat :=
  packBits [(16, r.code), (2, r.sev), (4, unitOfCode r.code), (4, r.hall), (6, r.idx), (48, r.time), (48, r.args)]

/-- Bits 32 w + 31 to 32 w of a number. -/
def wordOf (n w : Nat) : Word := BitVec.ofNat 32 (n / 2 ^ (32 * w))

/-- SYS: variant and grade (R5), the queue's fill and its oldest record. -/
def State.viewSys (s : State) (off : Nat) (ix : List Nat) (w : Word) : Word :=
  if off = 16 then
    withFields w [(Fl.SYS_CAP_GWEAK, b2n s.part.gweak), (Fl.SYS_CAP_MEE, b2n s.part.mee), (Fl.SYS_CAP_GRADE, s.part.grade)]
  else if off = 260 then withField w Fl.SYS_EVSTAT_COUNT s.ev.recs.length
  else if off = 272 then
    match s.ev.recs with
    | [] => 0
    | r :: _ => wordOf (eventBits r) (ix.getD 0 0)
  else w

/-- Word w of the vendor certificate (R395): the parts that its layout fixes; the rest was written at manufacture. -/
def certWord (w : Nat) : Word :=
  if w = 0 then 0x5A434552
  else if w = 1 then 0x0C8E8035
  else if w = 2 then Config.vendorCert 2 &&& 1
  else if w = 3 then 0
  else if 4 ≤ w ∧ w < 12 then Config.deviceId (w - 4)
  else if 34 ≤ w ∧ w < 64 then 0
  else Config.vendorCert w

/-- SEC: what the one-time-programmable memory and the identity hold (R378, R394), and the pin TAMP_N (R393). -/
def State.viewSec (s : State) (off : Nat) (ix : List Nat) (w : Word) : Word :=
  let i := ix.getD 0 0
  if off = 0 then otpInfo s.otp
  else if off = 20 then withField w Fl.SEC_TAMP_STAT_PIN (b2n (Config.tampPin s.now))
  else if off = 512 then Config.deviceId i
  else if off = 34816 then certWord i
  else w

/-- PWR: the ledger and the queue (R422), and domain states (R417). -/
def State.viewPwr (s : State) (off : Nat) (ix : List Nat) (w : Word) : Word :=
  let i := ix.getD 0 0
  if off = 8 then BitVec.ofNat 32 s.pkgUsed
  else if off = 28 then
    BitVec.ofNat 32 (packBits [(7, s.adm.queue.length), (9, 0), (4, (s.adm.queue.head?.map (·.kind)).getD 0)])
  else if off = 520 then BitVec.ofNat 32 (s.hallUsed i)
  else if off = 4096 then BitVec.ofNat 32 (s.domState i (ix.getD 1 0))
  else w

/-- BIST: the entry of the log that BIST_FIDX selects. -/
def State.viewBist (s : State) (off : Nat) (w : Word) : Word :=
  let e := s.bist.log.getD (s.fld Reg.BIST_FIDX Fl.BIST_FIDX_IDX) (0, 0, 0)
  if off = 260 then BitVec.ofNat 32 e.1
  else if off = 264 then BitVec.ofNat 32 e.2.1
  else if off = 268 then BitVec.ofNat 32 e.2.2
  else w

/-- CLK: straps and the time base (R405, R411). -/
def State.viewClk (s : State) (off : Nat) (w : Word) : Word :=
  if off = 0 then withField w Fl.CLK_STAT_OSCDLY s.clk.oscdly
  else if off = 32 then BitVec.ofNat 32 s.tbNs
  else if off = 36 then BitVec.ofNat 32 s.clk.latch
  else w

/-- HALL: absent corridors, applied landing codes (R46) and the track that MEZZ_QUERY names (R89, R93). -/
def State.viewHall (s : State) (h off : Nat) (ix : List Nat) (w : Word) : Word :=
  if off = 64 then (if (corridorOf h (ix.getD 0 0)).isSome then w else 0)
  else if off = 1024 then withField w Fl.LAND_CODE (s.landApplied h (ix.getD 0 0))
  else if off = 4100 then
    let n := s.fld (Reg.MEZZ_QUERY h) Fl.MEZZ_QUERY_TRACK
    let c := (s.claimOf h n).getD (0, 0)
    let claimed := (s.claimOf h n).isSome
    withFields 0 [(Fl.MEZZ_TRACK_LOCKED, b2n ((s.hall h).mezzLocked.contains n)), (Fl.MEZZ_TRACK_OFF, b2n (s.trackOff h n)),
      (Fl.MEZZ_TRACK_PLANES, if claimed then (s.residentDrivers (32 * h + c.1) n).length else 0),
      (Fl.MEZZ_TRACK_CLAIMED, b2n claimed), (Fl.MEZZ_TRACK_OWNER, c.1)]
  else w

/-- OMIST: the link that OMI_LQUERY names, and the links now dead or under test (R250). -/
def State.viewOmist (s : State) (h off : Nat) (ix : List Nat) (w : Word) : Word :=
  if off = 36 then
    let i := s.fld (Reg.OMI_LQUERY h) Fl.OMI_LQUERY_LINK
    if i < 640 then
      withFields 0 [(Fl.OMI_LSTAT_LATE, (s.link h i).late), (Fl.OMI_LSTAT_RESULT, (s.link h i).result),
        (Fl.OMI_LSTAT_STATE, s.linkState h i)]
    else withField 0 Fl.OMI_LSTAT_STATE 3
  else if off = 64 then
    BitVec.ofNat 32 (packBits ((List.range 32).map (fun b =>
      (1, b2n (s.linkState h (32 * ix.getD 0 0 + b) == 1 || s.linkState h (32 * ix.getD 0 0 + b) == 2)))))
  else w

/-- GWEAK: the tick, and the effective MAX_BUSY (R218, R429). -/
def State.viewGweak (s : State) (h off : Nat) (w : Word) : Word :=
  if off = 12 then BitVec.ofNat 32 (s.tnow h)
  else if off = 24 then withField w Fl.GWK_THROTTLE_MAX_BUSY (s.maxBusy h)
  else w

/-- HBMC: the state of a port whose domain is not ON reads OFF; the queues of a pseudo-channel. -/
def State.viewHbmc (s : State) (h off : Nat) (ix : List Nat) (w : Word) : Word :=
  if off = 20 then (if s.domOn h 71 then w else withField w Fl.HBM_STAT_STATE 0)
  else if off = 256 then
    let p := ix.getD 0 0
    let x := s.pc h p
    withFields 0 [(Fl.HBM_PC_FAILED, b2n (s.pcFailed h p)), (Fl.HBM_PC_WMODE, if x.mode = .read then 0 else 1),
      (Fl.HBM_PC_WQ, x.wq.length), (Fl.HBM_PC_RQ, x.rq.length)]
  else w

/-- ETH: transmit queues and the transmit timestamp store (R330, R331). -/
def State.viewEth (s : State) (h off : Nat) (ix : List Nat) (w : Word) : Word :=
  let x := s.eth h (ix.getD 0 0)
  if off = 768 then withField w Fl.ETH_TXQ_FILL (Sparse.get x.txq [] (ix.getD 1 0)).length
  else if off = 1024 then txtsTime x false
  else if off = 1028 then txtsTime x true
  else if off = 1032 then txtsWord x
  else w

/-- The state that GAL_MEM_STAT shows: 0 OFF, 1 RETENTION, 2 ON, 3 changing. -/
def State.memStatState (s : State) (G : Nat) : Nat :=
  let d := s.domState (G / 32) (32 + G % 32)
  if d ≤ 2 then d else 3

/-- Tracks that a gallery claims (R89), as GAL_MEZZ_STAT.CLAIMS counts them. -/
def State.claimsOf (s : State) (G : Nat) : Nat :=
  ((List.range 5120).filter (fun n => (s.claimOf (G / 32) n).any (fun c => c.1 == G % 32))).length

/-- Spare rows of a gallery that are neither used nor retired (R195). -/
def State.sparesFree (s : State) (G : Nat) : Nat :=
  ((List.range 32).map (fun b => ((List.range 8).filter (fun i => !(s.rep G b i).used && !(s.rep G b i).retired)).length)).foldl (· + ·) 0

/-- GAL: the endpoint, claims, masks, the load queue, pins, the memory domain and the repair entries. -/
def State.viewGal (s : State) (G off : Nat) (ix : List Nat) (w : Word) : Word :=
  let i := ix.getD 0 0
  if off = 100 then
    withFields w [(Fl.GAL_EP_STAT_TBP, b2n (!s.tqOpen G && !(s.gal G).tq.isEmpty)), (Fl.GAL_EP_STAT_OUTSTANDING, epOutstanding (s.gal G))]
  else if off = 112 then withField w Fl.GAL_MEZZ_STAT_CLAIMS (s.claimsOf G)
  else if off = 296 then s.bmaskEff G i
  else if off = 356 then withField w Fl.GAL_LOAD_STAT_QUEUED (s.gal G).loadQ.length
  else if off = 512 then withField w Fl.GAL_SLOT_PIN (b2n (s.pinned G i))
  else if off = 1056 then withField w Fl.GAL_MEM_STAT_STATE (s.memStatState G)
  else if off = 1156 then withField w Fl.GAL_MEMTEST_STAT_SPARES_FREE (s.sparesFree G)
  else if off = 1216 then
    let e := s.rep G (s.fld (Reg.GAL_REP_SEL G) Fl.GAL_REP_SEL_BANK) i
    BitVec.ofNat 32 (packBits [(11, e.row), (18, 0), (1, b2n e.retired), (1, b2n e.live), (1, b2n e.used)])
  else w

/-- What a register holds, with what it shows of other state. -/
def State.view (s : State) (b : Block) (u off : Nat) (ix : List Nat) (w : Word) : Word :=
  match b with
  | .sys => s.viewSys off ix w
  | .sec => s.viewSec off ix w
  | .pwr => s.viewPwr off ix w
  | .bist => s.viewBist off w
  | .clk => s.viewClk off w
  | .hall => s.viewHall u off ix w
  | .omist => s.viewOmist u off ix w
  | .gweak => s.viewGweak u off w
  | .hbmc => s.viewHbmc u off ix w
  | .mee => if off = 268 then s.meeMneed u (ix.getD 0 0) else w
  | .eth => s.viewEth u off ix w
  | .gal => s.viewGal u off ix w
  | .boot | .therm | .cal | .lens | .lane | .pad | .hclk => w

/-! ## Reading -/

/-- What a read does beyond clearing RC fields: the latch of the time base's high word, and the timestamp store. -/
def State.readEffect (s : State) (b : Block) (u off : Nat) (ix : List Nat) : State :=
  if b = .clk ∧ off = 32 then { s with clk := { s.clk with latch := s.tbNs / 2 ^ 32 % 65536 } }
  else if b = .eth ∧ off = 1032 then s.txtsRead u (ix.getD 0 0)
  else s

/-- Read the register of a row: its value with write-only fields 0, and then its RC fields cleared (R16). -/
def State.readRow (s : State) (a : Nat) (l : Loc) (r : RegRow) (ix : List Nat) : State × Word :=
  let w := s.reg a
  let v := r.flds.foldl hideWo (s.view l.block l.unit r.off ix w)
  ((s.setReg a (r.flds.foldl clearRc w)).readEffect l.block l.unit r.off ix, v)

/-- Read a management register (R34, R35, R461, R498): the word, and the status of an access through Omist. DESIGN CHOICE (log 62): the
address that an event carries is that of the word, its low two bits 0, since R35 ignores them. -/
def State.readReg (s : State) (a : Nat) : State × OSt × Word :=
  let a := a / 4 * 4
  match s.regGo a with
  | .absent => (s.postAccess Ev.ABSENT_UNIT_ACCESS (hallOfAddr a) a false, .ok, 0)
  | .unmapped => (s.postAccess Ev.UNMAPPED_ACCESS (hallOfAddr a) a false, .ok, 0)
  | .held => (s, .unavail, 0)
  | .at l r ix =>
    let x := s.readRow a l r ix
    (x.1, .ok, x.2)

/-! ## Writing -/

/-- A write of GWK_TRACE_PTR: clearing STOPPED restarts at record 0 (R230). -/
def State.tracePtrWrite (s : State) (h : Nat) (v : Word) : State :=
  let a := Reg.GWK_TRACE_PTR h
  let was := s.bit a Fl.GWK_TRACE_PTR_STOPPED
  let s := s.writeFields a v
  if was && !s.bit a Fl.GWK_TRACE_PTR_STOPPED then s.setFld a Fl.GWK_TRACE_PTR_NEXT 0 else s

/-- n free numbers below m, from the counter of free values. -/
def State.freeNats (s : State) (n m : Nat) : State × List Nat :=
  ({ s with free := s.free + n }, (List.range n).map (fun i => (Config.freeWord (s.free + i)).toNat % m))

/-- A write of BIST_CMD through a register path: the supply readings are free values. -/
def State.bistCmdReg (s : State) (v : Word) : State :=
  let x := s.freeNats 4 4096
  x.1.bistCmd v x.2

/-- A write of BOOT_IMP_CMD through a register path: the status of the header's reads is a free value. -/
def State.importReg (s : State) (v : Word) : State :=
  let x := s.freeNats 1 8
  x.1.importStart v (x.2.headD 0)

/-- Writes to package-level blocks that do more than set fields. -/
def State.writePkg (s : State) (w : Writer) (b : Block) (off : Nat) (ix : List Nat) (a : Nat) (v : Word) : State :=
  let i := ix.getD 0 0
  match b with
  | .boot => if off = 72 then s.importReg v else if off = 196 then s.flashCommand v else s.writeFields a v
  | .sec =>
    if off = 4 then s.lcCommand v
    else if off = 16 then s.tampCfgWrite v
    else if off = 20 then s.tampStatWrite v
    else if off = 32 then s.jtagWrite v
    else if off = 160 then (if fieldOf v Fl.SEC_ATT_CMD_GO = 1 then s.attestStart else s)
    else if off = 192 ∨ off = 4096 then s.setReg a v
    else if off = 256 then s.mrExtend w v
    else if off = 320 then s.vpartWrite i v
    else s.writeFields a v
  | .pwr =>
    if off = 4 then s.ledgerWrite none v
    else if off = 16 then s.pwrCmdWrite v
    else if off = 512 then s.ledgerWrite (some i) v
    else s.writeFields a v
  | .therm => if off = 8 then s.thermMeas v else s.writeFields a v
  | .cal => if off = 4 then s.calCtrlWrite v else s.writeFields a v
  | .bist => if off = 0 then s.bistCmdReg v else s.writeFields a v
  | .clk =>
    if off = 16 then s.tbFreqWrite v
    else if off = 20 then s.tbStep v
    else if off = 28 then s.tbSet v
    else s.writeFields a v
  | _ => s.writeFields a v

/-- Writes to per-hall blocks that do more than set fields. -/
def State.writeHall (s : State) (b : Block) (h off : Nat) (ix : List Nat) (a : Nat) (v : Word) : State :=
  let i := ix.getD 0 0
  let j := ix.getD 1 0
  match b with
  | .hall =>
    if off = 16 then s.frstStart h v
    else if off = 32 then s.hallFenceWrite h v
    else if off = 64 then s.corrCtrlWrite h i v
    else if off = 4352 then s.mezzOffWrite h i v
    else s.writeFields a v
  | .omist => if off = 40 then s.readmitWrite h v else s.writeFields a v
  | .lens =>
    if off = 1028 then s.tptrWrite h v
    else if off = 1032 then s.istatCtrlWrite h v
    else s.writeFields a v
  | .gweak =>
    if off = 8 then s.gwkTickWrite h v
    else if off = 40 then s.tracePtrWrite h v
    else if off = 96 then s.gwkEnqGo h v
    else if off = 128 then s.srvCmdWrite h v
    else if off = 144 then s.flowCmdWrite h v
    else if off = 8192 then s.flowCfgWrite h i v
    else s.writeFields a v
  | .hbmc => if off = 8 then s.hbmWqWrite h v else if off = 16 then s.hbmCtrlWrite h v else s.writeFields a v
  | .mee =>
    if off = 32 then s.setReg a v
    else if off = 64 then s.meeKeyload h v
    else if off = 256 ∨ off = 260 ∨ off = 264 then s.meeSpanWrite h i a (off - 256) v
    else if off = 272 then s.meeCtrlWrite h i v
    else s.writeFields a v
  | .lane =>
    if off = 0 then (s.laneCfgWrite h i v).laneCheck h i
    else if off = 4 then s.laneRateWrite h i v
    else if off = 8 then (s.laneCtrlWrite h i v).laneCheck h i
    else if off = 12 then s.laneTxeqWrite h i v
    else s.writeFields a v
  | .eth =>
    if off = 0 then s.ethModeWrite h i v
    else if off = 8224 then s.ethClActWrite h i j v
    else s.writeFields a v
  | .pad => if off = 256 then s.padCfgWrite h i j v else s.writeFields a v
  | .hclk =>
    if off = 0 then s.clockMode h v
    else if off = 256 then s.hclkPllWrite h i v
    else if off = 260 then s.hclkPlloutWrite h i j v
    else if off = 512 then s.hclkLrefWrite h i v
    else if off = 544 then s.hclkPadWrite h i j v
    else s.writeFields a v
  | _ => s.writeFields a v

/-- Writes to a gallery's block that do more than set fields, with the status of the write's response. -/
def State.writeGal (s : State) (w : Writer) (G off : Nat) (ix : List Nat) (a : Nat) (v : Word) : State × OSt :=
  let i := ix.getD 0 0
  if off = 352 then s.loadCmdWrite w G v
  else
    (if off = 16 then s.galClkselWrite G i v
      else if off = 64 then s.galRst G v
      else if off = 256 then s.ctxCfgWrite G v
      else if off = 260 then s.ctxSelWrite G v
      else if off = 292 then s.bmaskWrite G i v
      else if off = 368 then s.slotCmdWrite G v
      else if off = 4096 then s.qCfgWrite G i v
      else if off = 4100 ∨ off = 4104 then s.qLockedWrite G i a v
      else if off = 4116 then s.qItemWrite G i v
      else s.writeFields a v, .ok)

/-- Whether the design may write a register through the register region (R498). -/
def designMay (w : Writer) (l : Loc) (off : Nat) (v : Word) : Bool :=
  match l.block with
  | .hall => off == 16
  | .gal => off == 64 || off == 352 || ([4096, 4100, 4104, 4112, 4116, 4120].contains off && !isForeign l.unit w)
  | .sec => off == 192 || (off == 256 && fieldOf v Fl.SEC_MRX_CMD_J == 7)
  | _ => false

/-- A block of a hall. -/
def hallLevel : Block → Bool
  | .hall | .omist | .lens | .gweak | .hbmc | .mee | .lane | .eth | .pad | .hclk => true
  | _ => false

/-- Write a register that is there. -/
def State.writeRow (s : State) (w : Writer) (a : Nat) (l : Loc) (r : RegRow) (ix : List Nat) (v : Word) : State × OSt :=
  if w ≠ .host ∧ designMay w l r.off v = false then (s, .denied)
  else if l.block = .gal then s.writeGal w l.unit r.off ix a v
  else if hallLevel l.block then (s.writeHall l.block l.unit r.off ix a v, .ok)
  else (s.writePkg w l.block r.off ix a v, .ok)

/-- Write a management register (R34, R35, R461, R498): the status of an access through Omist. A write by the design to any block other
than of the registers of R498 is DENIED, whether its unit is absent, held or there. The event's address is as readReg gives it. -/
def State.writeReg (s : State) (w : Writer) (a : Nat) (v : Word) : State × OSt :=
  let a := a / 4 * 4
  match s.regGo a with
  | .absent => (s.postAccess Ev.ABSENT_UNIT_ACCESS (hallOfAddr a) a true, if w = .host then .ok else .denied)
  | .unmapped => (s.postAccess Ev.UNMAPPED_ACCESS (hallOfAddr a) a true, .ok)
  | .held => (s, if w = .host then .unavail else .denied)
  | .at l r ix => s.writeRow w a l r ix v

/-! ## The commands -/

/-- REGISTER_WRITE (R17, R18). -/
def execRegisterWrite (w : Writer) (a v : Word) (s : State) : Out := .next (s.writeReg w a.toNat v).1

end Sys2Proof.Machine
end

