-- ==== Sys2Proof/Machine/Targets.lean ====
section
/-!
DEFINITION. Machine/Targets.lean: what a packet does at its target, by node and port (R500), register requests among them (R241),
and the commands of the Omist network (R238, R245, R250 to R257, R260, R264).
-/
namespace Sys2Proof.Machine

/-! ## Register requests (R241) -/

/-- Data units that a register request addresses. -/
def regUnits (p : Packet) : Nat := if p.cmd = 1 ∨ p.cmd = 0xC0 then p.runits.toNat else p.units.toNat

/-- The four byte enables of word i of a register request, as a number. -/
def regEnables (p : Packet) (i : Nat) : Nat :=
  let u := i / 16
  let be : BitVec 64 := if u = 0 then p.beFirst else if u + 1 = regUnits p then p.beLast else BitVec.allOnes 64
  be.toNat / 2 ^ (4 * (i % 16)) % 16

/-- Word i of the data of a register write. -/
def regDatum (p : Packet) (i : Nat) : Word := ((p.data.getD (i / 16) 0) >>> (32 * (i % 16))).setWidth 32

/-- The first status that is not OK (R244). -/
def firstSt (a b : OSt) : OSt := if a = .ok then b else a

/-- The registers that read 0 to the design: SEC_KEYBUF (R498); SEC_SIGBUF is write-only. -/
def hiddenFromDesign (a : Nat) : Bool := decide (Reg.SEC_KEYBUF 0 ≤ a) && decide (a < Reg.SEC_KEYBUF 8)

/-- A word of a register request at offset a with its datum: accessed where all its enables are set. -/
def regWordAt (w : Writer) (write full : Bool) (a : Nat) (d : Word) (r : State × OSt × List Word) : State × OSt × List Word :=
  match full, write with
  | false, _ => (r.1.draw, r.2.1, r.2.2 ++ [Config.freeWord r.1.free])
  | true, true =>
    let x := r.1.writeReg w a d
    (x.1, firstSt r.2.1 x.2, r.2.2 ++ [0])
  | true, false =>
    let x := r.1.readReg a
    (x.1, firstSt r.2.1 x.2.1, r.2.2 ++ [if w ≠ .host ∧ hiddenFromDesign a = true then 0 else x.2.2])

/-- Word i of a register request (R241): one whose enables are all set is accessed. The state, the first status in address order
that is not OK (R244), and the words read; a word that is not accessed reads free. -/
def regWord (p : Packet) (w : Writer) (write : Bool) (r : State × OSt × List Word) (i : Nat) : State × OSt × List Word :=
  regWordAt w write (regEnables p i == 15) (p.addr.toNat / 64 * 64 - regBase + 4 * i) (regDatum p i) r

/-- Sixteen words as a data unit. -/
def unitOf (l : List Word) : BitVec 512 := BitVec.ofNat 512 (packBits (l.map (fun w => (32, w.toNat))))

/-- RD, WR, MRD or MWR at a register agent (R36, R241); outside the register region it is not taken (R500). MRD and MWR come from the
management port (R461). -/
def State.regRequest (s : State) (p : Packet) : State :=
  let c := p.cmd.toNat
  let write := c == 2 || c == 0xC1
  let w := if c = 0xC0 ∨ c = 0xC1 then Writer.host else .design p.srcHall.toNat p.srcNode.toNat
  let n := 16 * regUnits p
  let a := p.addr.toNat / 64 * 64
  if a < regBase ∨ regBase + 0x100000000 < a + 4 * n then s.respond p .denied []
  else
    let r := (List.range n).foldl (regWord p w write) (s, OSt.ok, [])
    let part := (List.range n).any (fun i => regEnables p i != 15 && regEnables p i != 0)
    let st := if part then OSt.denied else r.2.1
    r.1.respond p st (if write then [] else (List.range (regUnits p)).map (fun u => unitOf ((r.2.2.drop (16 * u)).take 16)))

/-! ## Arrival at the target -/

/-- What the target does with a packet that has reached it (R500). -/
def State.serve (s : State) (p : Packet) (f : AccFacts) : State :=
  let h := p.dstHall.toNat
  let n := p.dstNode.toNat
  let port := p.dstPort.toNat
  let c := p.cmd.toNat
  if n < 32 then
    if port = 0 then s.itemArrives (32 * h + n) p
    else if port = 1 then s.msgArrives (32 * h + n) p
    else if c = 1 ∨ c = 2 then s.memAccess (32 * h + n) p f
    else s.queueCommand (32 * h + n) p f
  else if n = 32 then
    if port = 0 then s.enqPacketAt h p else if c = 0x13 then s.gwkDone h p else s.loadRpt h p
  else if n = 33 then s.portArrive h p f.mee
  else if n = 34 then s.ethXmit h port p
  else if n = 35 ∧ port < 7 then s.loadReqArrives h p
  else if n = 36 ∧ port = 6 then s.vaultRequest p (!f.ecc.ue.isEmpty)
  else s.regRequest p

/-- A request to gallery memory waits: it touches a bank whose clock source is being changed (R162). -/
def State.waitsForBank (s : State) (p : Packet) : Bool :=
  decide (p.dstNode.toNat < 32) && p.dstPort == 2 &&
    (let G := 32 * p.dstHall.toNat + p.dstNode.toNat
     s.memOn G && (banksTouched G p).any (s.bankWaits G))

/-- A packet of a command reaches its target and is performed or ends on the way (R245 to R261, R500). -/
def State.targetGets (s : State) (c : Nat) (p : Packet) (f : AccFacts) : State :=
  let y := s.reach { p with cmd := BitVec.ofNat 8 c }
  match y.2 with
  | none => y.1
  | some p =>
    let s := y.1
    if s.waitsForBank p then s
    else
      let x := s.arrive p
      if x.2 then x.1.serve p f else x.1

/-- A response reaches its initiator (R245). -/
def State.responseGets (s : State) (p : Packet) : State :=
  let y := s.reach { p with cmd := 0x80 }
  match y.2 with
  | none => y.1
  | some p => y.1.rspArrives p

/-- A notice reaches a router or gateway of hall h (R251). -/
def State.noticeGets (s : State) (h : Nat) (k : NoticeKind) (p : Packet) : State :=
  let y := s.reach p
  match y.2 with
  | none => y.1
  | some p => y.1.noticeArrives h k p

/-! ## The commands -/

/-- RD (R239). -/
def execRd (p : Packet) (f : AccFacts) (s : State) : Out := .next (s.targetGets 0x01 p f)
/-- WR (R239). -/
def execWr (p : Packet) (f : AccFacts) (s : State) : Out := .next (s.targetGets 0x02 p f)
/-- QPUSH (R185); ovt: the bytes that a prism write of the same cycle took (R174). -/
def execQpush (x : QueuePush) (s : State) : Out := .next (s.targetGets 0x03 x.pkt { ovt := x.ovt })
/-- QPOP (R185). -/
def execQpop (p : Packet) (f : EccFacts) (s : State) : Out := .next (s.targetGets 0x04 p { ecc := f })
/-- SRD (R389); ue: a byte read is uncorrectable. -/
def execSrd (p : Packet) (ue : Bool) (s : State) : Out := .next (s.targetGets 0x05 p { ecc := { ue := if ue then [0] else [] } })
/-- SWR (R389). -/
def execSwr (p : Packet) (s : State) : Out := .next (s.targetGets 0x06 p {})
/-- MSG (R107). -/
def execMsg (p : Packet) (s : State) : Out := .next (s.targetGets 0x10 p {})
/-- ENQ (R200). -/
def execEnq (p : Packet) (s : State) : Out := .next (s.targetGets 0x11 p {})
/-- ITEM (R133). -/
def execItem (p : Packet) (s : State) : Out := .next (s.targetGets 0x12 p {})
/-- DONE (R214). -/
def execDone (p : Packet) (s : State) : Out := .next (s.targetGets 0x13 p {})
/-- LOADREQ (R143). -/
def execLoadreq (p : Packet) (s : State) : Out := .next (s.targetGets 0x14 p {})
/-- LOADRPT (R128). -/
def execLoadrpt (p : Packet) (s : State) : Out := .next (s.targetGets 0x15 p {})
/-- XMIT (R331). -/
def execXmit (p : Packet) (s : State) : Out := .next (s.targetGets 0x16 p {})
/-- MRD (R461). -/
def execMrd (p : Packet) (s : State) : Out := .next (s.targetGets 0xC0 p {})
/-- MWR (R461). -/
def execMwr (p : Packet) (s : State) : Out := .next (s.targetGets 0xC1 p {})
/-- RSP (R245). -/
def execRsp (p : Packet) (s : State) : Out := .next (s.responseGets p)
/-- NOTICE (R251). -/
def execNotice (h : HallIx) (k : NoticeKind) (p : Packet) (s : State) : Out := .next (s.noticeGets h k p)
/-- ROUTER_PACKET (R234). -/
def execRouterPacket (h : HallIx) (n : Fin 40) (d : Fin 8) (p : Packet) (stallIn stallOut : Nat) (fate : HopFate) (s : State) : Out :=
  .next (s.routerPacket h n d p stallIn stallOut fate.lost fate.conf)
/-- LINK_DEAD (R250, R64). -/
def execLinkDead (h : HallIx) (l : LinkCut) (s : State) : Out := .next (s.linkDead h l.link l.part)
/-- LATE_SPEAKER (R254). -/
def execLateSpeaker (h : HallIx) (l : LinkRef) (s : State) : Out := .next (s.lateSpeaker h l)
/-- LINK_READMIT (R255). -/
def execLinkReadmit (h : HallIx) (i : Fin 640) (s : State) : Out := .next (s.linkReadmit h i)
/-- LINK_SELF_TEST_DONE (R255, R66): RESULT 1 to 3. -/
def execLinkSelfTestDone (h : HallIx) (l : LinkRef) (r : Fin 3) (s : State) : Out := .next (s.selfTestDone h l (r + 1))
/-- RSP_TIMEOUT (R245). -/
def execRspTimeout (h : HallIx) (n : Fin 64) (port : Fin 8) (tag : Fin 1024) (s : State) : Out := .next (s.rspTimeout h n port tag)
/-- WAKE_TIMEOUT (R260). -/
def execWakeTimeout (h : HallIx) (r : RouterRef) (vc : Fin 4) (s : State) : Out := .next (s.wakeTimeout h r.dom r.mesh vc)
/-- ISTAT_SNAP (R264). -/
def execIstatSnap (h : HallIx) (s : State) : Out := .next (s.istatSnap h)

end Sys2Proof.Machine
end

