-- ==== Sys2Proof/Machine/Start.lean ====
section
/-!
DEFINITION. Machine/Start.lean: start-up from flash discovery to release, the library phase, and the wait at step 1 after an immediate
cut (R339 to R359, R374, R388, R406, R433, R442, R445, R501).
-/
namespace Sys2Proof.Machine

/-- Change the system manager's start-up state. -/
def State.modBoot (s : State) (f : Boot → Boot) : State := { s with boot := f s.boot }

/-- Every hall, as a fold. -/
def State.eachHall (s : State) (f : State → Nat → State) : State := (List.range 8).foldl f s

/-! ## Failure of an image (R353, R355) -/

/-- Every slot and plane becomes EMPTY (R353); the claim table empties with the planes (R88). -/
def State.emptyAll (s : State) : State :=
  (List.range 256).foldl (fun s G =>
    (List.range 32).foldl (fun s k => s.emptySlot G k) ((List.range 4).foldl (fun s p => s.emptyPlane G p) s)) s

/-- The image being tried fails with a cause and a place. -/
def State.imageFail (s : State) (cause sect G frame : Nat) : State :=
  let s := s.setReg Reg.BOOT_CAUSE_ARG (BitVec.ofNat 32 (packBits [(4, 0), (10, frame), (8, G), (10, sect)]))
  let s := s.modBoot (fun b => { b with runs := false })
  if s.boot.golden then (s.setFld Reg.BOOT_STAT Fl.BOOT_STAT_GCAUSE cause).safeHold false
  else
    let s := (s.setFld Reg.BOOT_STAT Fl.BOOT_STAT_PCAUSE cause).postGal Ev.PRIMARY_FAIL G [(4, cause), (10, sect), (10, frame)]
    (s.emptyAll.modBoot (fun b => { b with golden := true, phase := .check, img := {}, slotSect := [] })).setBoot 2

/-! ## Flash discovery (R339) -/

/-- FLASH_DISCOVERY: which devices answered, whether their tables match and both support what the device needs, and S as 2 ^ (26 +
size). -/
def State.flashDiscovery (s : State) (dev0 dev1 same good : Bool) (size : Nat) : State :=
  if s.boot.phase ≠ .discover then s
  else
    let ok := dev0 && dev1 && same && good
    let s := s.setReg Reg.BOOT_FLASH
      (BitVec.ofNat 32 (packBits [(5, if ok then 26 + size else 0), (3, 0), (1, b2n dev0), (1, b2n dev1), (1, b2n same)]))
    if ok then (s.modBoot (fun b => { b with phase := .check, golden := false })).setBoot 2
    else
      let s := s.postPkg Ev.FLASH_FAULT [(1, b2n dev0), (1, b2n dev1), (1, b2n same)]
      ((s.setFld Reg.BOOT_STAT Fl.BOOT_STAT_PCAUSE 1).setFld Reg.BOOT_STAT Fl.BOOT_STAT_GCAUSE 1).safeHold false

/-! ## Checks before frames, and the self-test path (R343, R351, R361, R388) -/

/-- Measurements of an image that has passed checks 1 to 9 (R388). -/
def State.measureImage (s : State) (i : ImageSt) : State :=
  let n := 0x100 + 96 * i.sects.length + 29792
  (s.extend 0 (i.sects.headD default).digest).extend 1 (Config.shake256 (s.flashBytes i.base n))

/-- BIST_PATH shows the sequence number of the shutdown record examined and the reason. -/
def State.showPath (s : State) (path reason seq : Nat) : State :=
  (s.setFld Reg.BOOT_STAT Fl.BOOT_STAT_PATH path).setReg Reg.BIST_PATH (BitVec.ofNat 32 (packBits [(4, reason), (4, 0), (24, seq)]))

/-- Step 7 begins (R450). -/
def State.selftestStart (s : State) (mv : List Nat) : State :=
  ((s.modBoot (fun b => { b with phase := .selftest })).setBoot 3).bistAtStart mv

/-- The boot phase, step 9, begins: sections from entry 1 on. -/
def State.loadStart (s : State) : State := (s.modBoot (fun b => { b with phase := .load, next := 1 })).setBoot 4

/-- IMAGE_CHECK (steps 3 to 5): the header and manifest of the image being tried. mv: readings of VCC_CORE, for the self-test that
follows in a warm start. -/
def State.imageChecked (s : State) (mv : List Nat) : State :=
  if s.boot.phase ≠ .check then s
  else
    let golden := s.boot.golden
    let r := s.imageCheck (if golden then s.flashSize / 2 else 0) golden
    if r.1 ≠ 0 then s.imageFail r.1 0 0 0
    else
      let s := (s.modBoot (fun b => { b with img := r.2, runs := true })).measureImage r.2
      let s := s.setFld Reg.BOOT_STAT Fl.BOOT_STAT_SOURCE (if golden then 2 else 1)
      if s.boot.passed8 then s.loadStart
      else if 2 ≤ s.boot.kind then (s.showPath 3 6 0).selftestStart mv
      else s.modBoot (fun b => { b with phase := .scan })

/-! ## The record scan (R351, R374, R445) -/

/-- Torn records that are newer than their type's record (R374). -/
def State.tornRecords (s : State) : List Nat :=
  (List.range 128).filter (fun k => s.recThere k && !s.recValid k &&
    (match s.typeRecord (s.recType k) with
      | some j => decide (s.recSeq j < s.recSeq k)
      | none => true))

/-- Why a start does not take the quick path (R351, R445), or 0; k is the slot of the shutdown record. -/
def State.pathReason (s : State) : Nat :=
  if s.boot.img.full then 1
  else match s.typeRecord 1 with
    | none => 2
    | some k =>
      let rep := s.recNat k 0x18 4
      if s.recNat k 0 1 % 2 = 0 then 3
      else if (s.flashBytes (s.recAddr k + 0x1000) 256).any (· != 0xFF) then 4
      else if rep ≠ 0 ∧ (s.typeRecord 3).map s.recSeq ≠ some rep then 5
      else 0

/-- Apply one entry of a repair map (R195, R444). -/
def State.applyRepair (s : State) (w : Nat) : State :=
  let G := bitsOf w 22 8
  let b := bitsOf w 17 5
  let i := bitsOf w 14 3
  if bitsOf w 30 2 = 0 then s.setRep G b i ⟨true, false, false, bitsOf w 0 11⟩
  else if bitsOf w 30 2 = 1 then s.setRep G b i ⟨false, false, true, 0⟩
  else s

/-- Apply n entries of the record in slot k from payload offset o. -/
def State.applyMap (s : State) (k o n : Nat) : State := (List.range n).foldl (fun s i => s.applyRepair (s.recNat k (o + 4 * i) 4)) s

/-- The quick path on the shutdown record in slot k: the record is consumed and its repair map applied. -/
def State.quickPath (s : State) (k : Nat) : State :=
  let s := s.writeBytes (flashKey (s.recAddr k + 0x1000)) (bytesOf 4 (0x5A435553 : Word))
  let s := s.applyMap k 0x40 (min 1003 (s.recNat k 0x1C 2))
  if s.recNat k 0x18 4 = 0 then s
  else match s.typeRecord 3 with
    | some j => s.applyMap j 4 (min 1018 (s.recNat j 0 4))
    | none => s

/-- The quick path is taken where no reason bars it. -/
def State.takePath (s : State) (reason : Nat) : State :=
  match s.typeRecord 1 with
  | some k => if reason = 0 then s.quickPath k else s
  | none => s

/-- RECORD_SCAN (step 6); mv: readings of VCC_CORE for the self-test that follows. -/
def State.recordScan (s : State) (mv : List Nat) : State :=
  if s.boot.phase ≠ .scan then s
  else
    let s := s.tornRecords.foldl (fun s k => s.postPkg Ev.RECORD_TORN [(7, k), (16, s.recType k)]) s
    let s := s.setReg Reg.BOOT_REC (BitVec.ofNat 32 (((s.lastRecord).map s.recSeq).getD 0))
    let reason := s.pathReason
    let seq := ((s.typeRecord 1).map s.recSeq).getD 0
    ((s.showPath (if reason = 0 then 1 else 2) reason seq).takePath reason).selftestStart mv

/-! ## Step 8 (R406, R442, R501) -/

/-- Signed 16-bit number at a payload offset. -/
def State.recTemp (s : State) (k o : Nat) : Int := signedOf 16 (s.recNat k o 2)

/-- The temperatures of hall h and of its stack lie within 8 °C of those of the calibration record in slot k (R442). -/
def State.recordFits (s : State) (k h : Nat) : Bool :=
  let near := fun (a b : Int) => decide (a - b ≤ 32) && decide (b - a ≤ 32)
  near (s.hallTemp h) (s.recTemp k (4 + 2 * h))
    && (!hasPort h || near (4 * (s.stackTemp (stackOfHall h) : Int)) (s.recTemp k (0x14 + 2 * stackOfHall h)))

/-- Bits from a bit offset of a payload. -/
def State.recBits (s : State) (k bit w : Nat) : Nat := s.recNat k (bit / 8) 4 / 2 ^ (bit % 8) % 2 ^ w

/-- Hall h takes its codes and seeds from the record in slot k (R442, R443). -/
def State.codesFrom (s : State) (k h : Nat) : State :=
  let s := (List.range 192).foldl (fun s n => s.setLandCode h n (s.recBits k (8 * 0x60 + 6 * (192 * h + n)) 6)) s
  let m := stackOfHall h
  let s := if hasPort h then
      let s := (List.range 160).foldl (fun s n =>
        let o := 8 * 0x4E0 + 12 * (160 * m + n)
        (s.setFld (Reg.CAL_HBM m n) Fl.CAL_HBM_RD_CODE (s.recBits k o 6)).setFld (Reg.CAL_HBM m n) Fl.CAL_HBM_WR_CODE
          (s.recBits k (o + 6) 6)) s
      (List.range 16).foldl (fun s c =>
        { s with cal := { s.cal with lrep := Sparse.set s.cal.lrep 0 (16 * m + c) (s.recNat k (0x20 + 16 * m + c) 1) } }) s
    else s
  (List.range 16).foldl (fun s l =>
    (List.range 3).foldl (fun s w =>
      s.setReg (Reg.CAL_LSEED (16 * h + l) w) (BitVec.ofNat 32 (s.recNat k (0x8A0 + 12 * (16 * h + l) + 4 * w) 4))) s) s

/-- Whether a group is swept in a cold start: prism and plane-load groups, and the byte lanes of the stack (R442). -/
def coldGroup : CalGroup → Bool
  | .land n => decide (n.val < 160)
  | .hbm _ => true

/-- The sweep of one group in a cold start, with its two edges. -/
def State.coldSweep (s : State) (h : Nat) (g : CalGroup) (lo hi : Int) : State :=
  if !coldGroup g then s
  else match g with
    | .land n => let s := s.landSweep h n lo hi; s.setLandAt h n (s.fld (Reg.LAND h n) Fl.LAND_CODE)
    | .hbm n => if hasPort h then s.hbmSweep h n lo hi else s

/-- The codes of hall h at step 8 (R442): from the record, or a cold start with the edges that its sweeps found. -/
def State.hallCodes (s : State) (sweeps : List (HallIx × CalGroup × Int × Int)) (h : Nat) : State :=
  let cold := fun (s : State) (cause : Nat) =>
    let s := (s.setFldBit Reg.CAL_STAT Fl.CAL_STAT_COLD h true).post Ev.CAL_COLD h 63 [(1, cause)]
    (sweeps.filter (fun x => x.1.val == h)).foldl (fun s x => s.coldSweep h x.2.1 x.2.2.1 x.2.2.2) s
  match s.typeRecord 2 with
  | none => cold s 0
  | some k =>
    if s.recordFits k h then
      ((s.setFldBit Reg.CAL_STAT Fl.CAL_STAT_COLD h false).codesFrom k h).setReg Reg.CAL_REC (BitVec.ofNat 32 (s.recSeq k))
    else cold s 1

/-- Step 8 has not been made since power-on or RST_N: stack 0 is uninitialised. -/
def State.firstStep8 (s : State) : Bool := s.hbmState 0 == 1 && !(s.hbm 0).initBegun

/-- Initialisation of the stack of hall h begins, unless it has been made or is under way (R501). -/
def State.hbmInitBegin (s : State) (h : Nat) : State :=
  if hasPort h && s.hbmState h == 1 then s.modHbm h (fun b => { b with initBegun := true }) else s

/-- The PLLs fed from REFCLK have been started. -/
def State.pllsOn (s : State) : State := { s with clk := { s.clk with pllOn := true } }

/-- Step 8 with REFCLK present: the PLLs run, halls take their codes unless the start is warm (R361), and stacks begin to initialise. -/
def State.step8Halls (s : State) (sweeps : List (HallIx × CalGroup × Int × Int)) : State :=
  let s := s.pllsOn.eachHall (fun s h => (s.locksUp h).hallClockCheck h)
  let s := if s.firstStep8 then s.eachHall (fun s h => s.hallCodes sweeps h) else s
  s.eachHall (fun s h => s.hbmInitBegin h)

/-- FABRIC_PLL_LOCK (step 8): with REFCLK absent start-up waits here (R406). -/
def State.step8 (s : State) (sweeps : List (HallIx × CalGroup × Int × Int)) : State :=
  if s.boot.phase ≠ .pll then s
  else if !s.clk.ref then s.clkLoss 15 0xFF []
  else ((s.step8Halls sweeps).modBoot (fun b => { b with passed8 := true })).loadStart

/-! ## Sections (R344 to R349, R359) -/

/-- The outcome of reading a section: the state, or a failure with cause, gallery and frame. -/
abbrev SectOut := State × Option (Nat × Nat × Nat)

/-- Apply the records of CONFIG from an offset, as writes by host software (R344). -/
def applyConfig (rd : Reader) (len : Nat) : Nat → Nat → State → State
  | 0, _, s => s
  | n + 1, o, s =>
    if o + 8 > len then s
    else
      let a := natOfBytes (rd o 4)
      if a = 0xFFFFFFFF then s
      else applyConfig rd len n (o + 8) (s.writeReg .host a (BitVec.ofNat 32 (natOfBytes (rd (o + 4) 4)))).1

/-- CONFIG (R344). -/
def State.readConfig (s : State) (x : Sect) : SectOut :=
  if !s.digestOk x then (s, some (9, 0, 0))
  else
    let rd := s.sectReader x
    (applyConfig rd x.len (x.len / 8) 0 (s.extend 2 x.digest), none)

/-- BOOTMAP (R345). -/
def State.readBootmap (s : State) (x : Sect) : SectOut :=
  if !s.digestOk x then (s, some (9, 0, 0))
  else
    let recs := mapRecords (s.sectReader x) x.len (x.len / 16) 0
    let places := (recs.filter (fun r => r % 16 == 1)).map placeRec
    let gals := (recs.filter (fun r => r % 16 == 2)).map galRec
    if !bootmapOk s.boot.img recs places gals then (s, some (10, 0, 0))
    else ((s.extend 2 x.digest).modBoot (fun b => { b with img := { b.img with places := places, gals := gals } }), none)

/-- The facts of the load of plane p of gallery G. -/
def factsOf (facts : List (GalIx × PlaneIx × LoadFacts)) (G p : Nat) : LoadFacts :=
  ((facts.find? (fun x => x.1.val == G && x.2.1.val == p)).map (·.2.2)).getD ⟨[], none, [], none⟩

/-- The load of a plane at start-up begins: LOADING (R117). -/
def State.bootLoadStart (s : State) (G slot p : Nat) : State :=
  ((s.loseResidency G p).showNoImage G p 1 0 slot).reportPlane G p 0 false

/-- A plane LOADING at start-up takes its image (R348, R52, R88): the failure it meets, as cause and frame. -/
def State.bootFrames (s : State) (G slot p : Nat) (f : LoadFacts) : SectOut :=
  let cont := s.contentionStair G (Config.designInfo (s.slotImg G slot).frames)
  let s := f.ce.foldl (fun s x => s.mirrorCe G slot x.val) s
  let s := s.setFld (Reg.GAL_LOAD_STAT G) Fl.GAL_LOAD_STAT_RESENT f.resent.length
  let s := s.incFld (Reg.LAND (G / 32) (loadGroup G)) Fl.LAND_PERR (f.resent.length + 2 * b2n f.failed.isSome)
  match firstFailure f cont with
  | none => (s.loadPasses G p slot false, none)
  | some (frame, cause) =>
    let s := match cont with
      | some x => if cause = 2 then s.postGal Ev.MEZZ_LOAD_CONTENTION G [(2, p), (13, x.2), (10, frame)] else s
      | none => s
    (s.loadFails G p slot cause frame false, some (if cause = 2 then 12 else 11, G, frame))

/-- A plane is loaded at start-up: only one that is EMPTY, READY or FAILED can be (R117). -/
def State.bootLoad (s : State) (G slot p : Nat) (f : LoadFacts) : SectOut :=
  if s.planeState G p = 0 ∨ s.planeState G p = 2 ∨ s.planeState G p = 4 then (s.bootLoadStart G slot p).bootFrames G slot p f
  else (s, none)

/-- The loads of one PLACE record. -/
def State.bootPlace (s : State) (facts : List (GalIx × PlaneIx × LoadFacts)) (r : PlaceRec) : SectOut :=
  ((List.range 4).filter (fun p => bitOf r.planes p)).foldl (fun (o : SectOut) p =>
    if o.2.isSome then o else o.1.bootLoad r.G r.slot p (factsOf facts r.G p)) (s, none)

/-- The running CRC of gallery G over frames written n times each, in the order written (R349). -/
def State.crcFrames (s : State) (G n : Nat) (l : List Frame) : State :=
  let c := l.foldl (fun c x => (List.range n).foldl (fun c _ => crcFrame c x) c) (Sparse.get s.boot.img.crc 0xFFFFFFFF G)
  s.modBoot (fun b => { b with img := { b.img with crc := Sparse.put b.img.crc G c } })

/-- The gallery's CRC equals its GCRC (R349). -/
def State.crcOk (s : State) (G : Nat) : Bool :=
  match s.boot.img.gals.find? (fun g => g.G == G) with
  | some g => (Sparse.get s.boot.img.crc 0xFFFFFFFF G) ^^^ 0xFFFFFFFF == g.gcrc
  | none => false

/-- Section i holds the last placement of gallery G in its phase. -/
def State.lastPlacement (s : State) (i G : Nat) : Bool := s.boot.img.places.all (fun r => r.G != G || decide (r.sect ≤ i))

/-- The frames of a decoded PLANE section are written to every destination slot (R345). -/
def State.placeFrames (s : State) (i : Nat) (ps : List PlaceRec) (x : PlaneSec) : State :=
  let s := ps.foldl (fun s r =>
    (s.fillSlot r.G r.slot 1 x.img).modBoot (fun b => { b with slotSect := Sparse.put b.slotSect (32 * r.G + r.slot) i })) s
  ((ps.map (·.G)).eraseDups).foldl (fun s G => s.crcFrames G ((ps.filter (fun r => r.G == G)).length) x.frames) s

/-- A PLANE section, entry i (R346, R348, R349). -/
def State.readPlane (s : State) (i : Nat) (x : Sect) (facts : List (GalIx × PlaneIx × LoadFacts)) : SectOut :=
  let rd := s.sectReader x
  let ps := s.boot.img.places.filter (fun r => r.sect == i)
  let g0 := ((ps.head?).map (·.G)).getD 0
  let h := planeHeader (rd 0 64)
  let bad := ps.find? (fun r => !placeAdmits h.1 r.G)
  if !h.2.2.2 || h.2.1 || decide (x.len < 64 + h.2.2.1) then (s, some (10, g0, 0))
  else if variantLacks s.part h.1.vmask.toNat || gradeLacks s.part h.1.grade.toNat then (s, some (4, g0, 0))
  else match bad with
    | some r => (s, some (10, r.G, 0))
    | none => match decodePlane rd with
      | none => (s, some (10, g0, 0))
      | some d => match firstBad d.frames with
        | some f => (s.placeFrames i ps d, some (11, g0, f))
        | none =>
          let s := s.placeFrames i ps d
          if !s.digestOk x then (s, some (9, g0, 0))
          else
            let s := s.extend (if x.lib then 4 else 3) x.digest
            let o := ps.foldl (fun (o : SectOut) r => if o.2.isSome then o else o.1.bootPlace facts r) (s, none)
            if o.2.isSome then o
            else match (ps.map (·.G)).find? (fun G => o.1.lastPlacement i G && !o.1.crcOk G) with
              | some G => (o.1, some (13, G, 0))
              | none => o

/-- CATALOGUE (R364): digests of 64 bytes. -/
def State.readCatalogue (s : State) (x : Sect) : SectOut :=
  if !s.digestOk x then (s, some (9, 0, 0))
  else
    let rd := s.sectReader x
    let l := (List.range (x.len / 64)).map (fun i => BitVec.ofNat 512 (natOfBytes (rd (64 * i) 64)))
    (s.modBoot (fun b => { b with img := { b.img with cat := l } }), none)

/-- Entry i of the section table is read in full. -/
def State.readSection (s : State) (i : Nat) (facts : List (GalIx × PlaneIx × LoadFacts)) : SectOut :=
  let x := s.boot.img.sects.getD i default
  if x.typ = 2 then s.readConfig x
  else if x.typ = 3 then s.readBootmap x
  else if x.typ = 4 then s.readPlane i x facts
  else if x.typ = 5 then s.readCatalogue x
  else if s.digestOk x then (s, none) else (s, some (9, 0, 0))

/-- The next section of a phase in table order (R344). -/
def State.nextSect (s : State) (lib : Bool) : Option Nat :=
  (List.range s.boot.img.sects.length).find? (fun i => decide (s.boot.next ≤ i) && (s.boot.img.sects.getD i default).lib == lib)

/-- Section i has been read: the next one of the phase follows. -/
def State.sectDone (s : State) (i : Nat) : State := s.modBoot (fun b => { b with next := i + 1 })

/-! ## Release (R357, R131) -/

/-- Step 1 for gallery G: plane p becomes ACTIVE, and live values, C and the shadow take its INIT values; its borders stay presented. -/
def State.activate (s : State) (G p : Nat) : State :=
  let s := ((s.setPlaneState G p 3).setActive G p).initState G p
  let i := s.planeImg G p
  let n := s.free
  let s := ((s.initShadow G p).modGal G (fun g => { g with bBoot := true, fresh := false, held := some i, heldAt := n })).draw
  (s.reportPlane G p 0 false).modBoot (fun b => { b with rel := b.rel ++ [G] })

/-- Galleries of a phase that are to be activated: those whose placements lie in its sections. -/
def State.phaseGals (s : State) (lib : Bool) : List GalRec :=
  s.boot.img.gals.filter (fun g => g.act && s.boot.img.places.any (fun r => r.G == g.G && sectLib s.boot.img r.sect == lib))

/-- Gallery clock branches have been started by release. -/
def State.galOn (s : State) : State := { s with clk := { s.clk with galOn := true } }

/-- RELEASE (steps 1 and 2): every boot section has been read and has passed. -/
def State.release (s : State) : State :=
  if s.boot.phase ≠ .load ∨ (s.nextSect false).isSome = true then s
  else
    let s := ((s.phaseGals false).foldl (fun s g => s.activate g.G g.active) s).galOn
    let s := (List.range 256).foldl (fun s G => s.branchesUpdate G) s
    (s.modBoot (fun b => { b with phase := .border })).setBoot 5

/-- RELEASE_BORDERS (step 3): border presentation ends in every gallery just activated, and its logic runs. -/
def State.releaseBorders (s : State) : State :=
  if s.boot.phase ≠ .border ∧ s.boot.phase ≠ .done then s
  else
    let l := s.boot.rel
    let s := l.foldl (fun s G => (s.modGal G (fun g => { g with bBoot := false })).captureResumes G) s
    s.modBoot (fun b => { b with rel := [], phase := if b.phase = .border then .last else b.phase })

/-- Ask for admission of the next library section (R359, R421: kind 11), or end the phase. -/
def State.libNext (s : State) : State :=
  match s.nextSect true with
  | some i =>
    let G := ((s.boot.img.places.find? (fun r => r.sect == i)).map (·.G)).getD 0
    (s.modBoot (fun b => { b with libOk := false, libAsked := true })).admRequest 11 (G / 32) .library
  | none =>
    let s := s.modBoot (fun b => { b with lib := false, libOk := false, libAsked := false })
    let s := (s.setFld Reg.BOOT_STAT Fl.BOOT_STAT_LIB 0).setFld Reg.BOOT_LIB Fl.BOOT_LIB_RUNNING 0
    s.postPkg Ev.LIB_DONE [(8, s.fld Reg.BOOT_LIB Fl.BOOT_LIB_FAILED)]

/-- The library phase begins (R359), where the image has sections with LIB set. -/
def State.libStart (s : State) : State :=
  let n := (s.boot.img.sects.filter (·.lib)).length
  if n = 0 then s
  else
    let s := (s.modBoot (fun b => { b with lib := true, next := 0 })).setFld Reg.BOOT_STAT Fl.BOOT_STAT_LIB 1
    ((s.setFld Reg.BOOT_LIB Fl.BOOT_LIB_RUNNING 1).setFld Reg.BOOT_LIB Fl.BOOT_LIB_LEFT n).libNext

/-- Pads and lanes have been started by release. -/
def State.ioOn (s : State) : State := { s with clk := { s.clk with ioOn := true } }

/-- Step 4 of release: pad banks measure their supply and lanes start. -/
def State.releaseIo (s : State) (senses : List Nat) : State :=
  let s := ((List.range 16).foldl (fun s i => s.padMeasure (i / 2) (i % 2) (senses.getD i 0)) s).ioOn
  (List.range 128).foldl (fun s L => s.laneStart (L / 16) (L % 16)) s

/-- BOOT_DONE (steps 4 and 5): the supply found at each pad bank (2 h + b), and the time to DONE. -/
def State.bootDone (s : State) (senses : List Nat) : State :=
  if s.boot.phase ≠ .last then s
  else
    let s := s.releaseIo senses
    let t := min ((s.now - s.boot.t0) / 1000) (2 ^ 32 - 1)
    let s := ((s.modBoot (fun b => { b with phase := .done })).setBoot 6).setReg Reg.BOOT_DONE_T (BitVec.ofNat 32 t)
    let s := s.setReg Reg.BOOT_VER (BitVec.ofNat 32 s.boot.img.version)
    let s := s.postPkg Ev.BOOT_DONE
      [(2, s.fld Reg.BOOT_STAT Fl.BOOT_STAT_SOURCE), (2, s.fld Reg.BOOT_STAT Fl.BOOT_STAT_PATH), (32, t)]
    let s := s.eachHall (fun s h => (s.srEnd h 0).srEnd h 3)
    s.libStart.calResume

/-! ## Sections as they end (R344, R353, R359) -/

/-- Galleries that section i is placed in are not activated any more. -/
def State.notActivated (s : State) (i : Nat) : State :=
  s.modBoot (fun b =>
    { b with img := { b.img with gals := b.img.gals.map (fun g =>
        if b.img.places.any (fun r => r.sect == i && r.G == g.G) then { g with act := false } else g) } })

/-- The slots that section i has written become EMPTY: those whose frames came from it. -/
def State.sectEmptied (s : State) (i : Nat) : State :=
  (s.boot.img.places.filter (fun r => r.sect == i && Sparse.get s.boot.slotSect 0 (32 * r.G + r.slot) == i)).foldl
    (fun s r => s.emptySlot r.G r.slot) s

/-- A library section fails (R359): the slots it wrote become EMPTY and its galleries have no active plane. -/
def State.libFail (s : State) (i cause G : Nat) : State :=
  let s := (s.sectEmptied i).notActivated i
  let s := s.incFld Reg.BOOT_LIB Fl.BOOT_LIB_FAILED 1
  s.postGal Ev.LIB_FAIL G [(4, cause), (10, i)]

/-- A library section has passed: galleries whose CRC has passed with it are activated by steps 1 to 3 of release. -/
def State.libPass (s : State) (i : Nat) : State :=
  let l := (s.phaseGals true).filter (fun g =>
    s.boot.img.places.any (fun r => r.sect == i && r.G == g.G) && s.lastPlacement i g.G && s.noPlane g.G)
  l.foldl (fun s g => (s.activate g.G g.active).branchesUpdate g.G) s

/-- A section of the library phase has been read. -/
def State.libRead (s : State) (facts : List (GalIx × PlaneIx × LoadFacts)) : State :=
  match s.nextSect true with
  | none => s
  | some i =>
    let o := s.readSection i facts
    let s := match o.2 with
      | some (c, G, _) => o.1.libFail i c G
      | none => o.1.libPass i
    let s := (s.sectDone i).admRelease 11 .library
    (s.setFld Reg.BOOT_LIB Fl.BOOT_LIB_LEFT (s.fld Reg.BOOT_LIB Fl.BOOT_LIB_LEFT - 1)).libNext

/-- SECTION_READ: the next section of the boot phase, or of the library phase once it has been admitted, has been read in full. -/
def State.sectionRead (s : State) (facts : List (GalIx × PlaneIx × LoadFacts)) : State :=
  if s.boot.phase = .load then
    match s.nextSect false with
    | none => s
    | some i =>
      let o := s.readSection i facts
      match o.2 with
      | some (c, G, f) => o.1.imageFail c i G f
      | none => o.1.sectDone i
  else if s.boot.lib && s.boot.libOk then s.libRead facts
  else s

/-! ## The wait at step 1 after an immediate cut (R433) -/

/-- The first hall or stack that is too hot for start-up: its hall, stack or 63, and temperature as its event gives it. -/
def State.tooHot (s : State) : Option (Nat × Nat × Nat × Nat) :=
  match (List.range 8).find? (fun h => decide (400 ≤ s.hallTemp h)) with
  | some h => some (h, 63, 10, unsignedOf 10 (s.hallTemp h))
  | none => match (List.range 4).find? (fun m => decide (85 ≤ s.stackTemp m)) with
    | some m => some (hallOfStack m, m, 8, s.stackTemp m)
    | none => none

/-- Readings are taken of the sensors of every hall, and of every stack with its refresh requirement. -/
def State.hotReadings (s : State) (x : List (List Int)) (t : List (Nat × Nat)) : State :=
  (List.range 4).foldl (fun s m => s.stackRead m (t.getD m (0, 0)).1 (t.getD m (0, 0)).2)
    (s.eachHall (fun s h => (s.startReading h).measured h (x.getD h [])))

/-- Nothing is too hot any more. -/
def State.hotOver (s : State) : State := { s with stop := { s.stop with hotStart := false, hotRaised := false } }

/-- HOT_START_MEASURE: start-up goes on once nothing is too hot, and START_TOO_HOT is raised once while it waits. -/
def State.hotMeasure (s : State) (x : List (List Int)) (t : List (Nat × Nat)) : State :=
  if s.boot.phase ≠ .hot then s
  else
    let s := s.hotReadings x t
    match s.tooHot with
    | some (h, m, w, v) =>
      if s.stop.hotRaised then s
      else ({ s with stop := { s.stop with hotRaised := true } } : State).post Ev.START_TOO_HOT h m [(w, v)]
    | none => s.hotOver.modBoot (fun b => { b with phase := .discover })

/-! ## Meanings -/

/-- FLASH_DISCOVERY (R339). -/
def execFlashDiscovery (dev0 dev1 same good : Bool) (size : Fin 5) (s : State) : Out :=
  .next (s.flashDiscovery dev0 dev1 same good size)
/-- IMAGE_CHECK (R343). -/
def execImageCheck (mv : List (Fin 4096)) (s : State) : Out := .next (s.imageChecked (mv.map (·.val)))
/-- RECORD_SCAN (R374). -/
def execRecordScan (mv : List (Fin 4096)) (s : State) : Out := .next (s.recordScan (mv.map (·.val)))
/-- FABRIC_PLL_LOCK (R406). -/
def execFabricPllLock (sweeps : List (HallIx × CalGroup × Int × Int)) (s : State) : Out := .next (s.step8 sweeps)
/-- SECTION_READ (R344). -/
def execSectionRead (facts : List (GalIx × PlaneIx × LoadFacts)) (s : State) : Out := .next (s.sectionRead facts)
/-- RELEASE (R357). -/
def execRelease (s : State) : Out := .next s.release
/-- RELEASE_BORDERS (R357). -/
def execReleaseBorders (s : State) : Out := .next s.releaseBorders
/-- BOOT_DONE (R357). -/
def execBootDone (senses : List (Fin 4)) (s : State) : Out := .next (s.bootDone (senses.map (·.val)))
/-- HOT_START_MEASURE (R433). -/
def execHotStartMeasure (x : List (List (BitVec 10))) (t : List (Fin 256 × Fin 3)) (s : State) : Out :=
  .next (s.hotMeasure (x.map (fun l => l.map (·.toInt))) (t.map (fun a => (a.1.val, a.2.val))))

end Sys2Proof.Machine
end

