-- ==== Sys2Proof/Machine/Reset.lean ====
section
/-!
DEFINITION. Machine/Reset.lean: power-up and power loss, RST_N, warm reconfiguration by PROG_N or RELOAD, and step 1 of a start
(R53, R228, R284, R307, R350, R360 to R362, R388, R402, R405, R412, R417, R470, R471, R479 to R483, R497).
-/
namespace Sys2Proof.Machine

/-! ## What the pins and straps show -/

/-- REFCLK and LREF inputs as CLK_STAT and HCLK_STAT show them (R404, R412). -/
def State.refShown (s : State) : State :=
  let s := (s.setFld Reg.CLK_STAT Fl.CLK_STAT_REF_OK (b2n s.clk.ref)).setFld Reg.CLK_STAT Fl.CLK_STAT_TB_HELD (b2n (!s.clk.ref))
  s.eachHall (fun s h => s.setFld (Reg.HCLK_STAT h) Fl.HCLK_STAT_LREF_OK (s.clk.lref / 2 ^ (4 * h)))

/-- Sources of loss that a reset keeps: the reference inputs; every PLL fed from them stops (R406). -/
def refLosses (l : List Lost) : List Lost :=
  l.filter (fun x => x.hall == 15 || (decide (0x40 ≤ x.src) && decide (x.src < 0x44)))

/-- One-time-programmable memory after a reset or loss of power that meets an OTP command in progress (R382): what was being
programmed stands as before (none), or is spoilt: kind 0 slot, 1 position, 2 state, and its index. -/
def State.otpMet (s : State) (spoil : Option (Nat × Nat)) : Otp :=
  match s.sec.cmd, spoil with
  | some c, some (k, i) => if c.sig && decide (s.sec.wipe ≠ some 1) then (s.lcSpoil c.word k i).otp else s.otp
  | _, _ => s.otp

/-- What such a reset spoils, for the next start to report; what an earlier one left stays (R382). -/
def State.spoilMet (s : State) (spoil : Option (Nat × Nat)) : Option (Nat × Nat) :=
  match s.sec.cmd, spoil with
  | some c, some (k, i) => if c.sig && decide (s.sec.wipe ≠ some 1) then some (spoilOf s.otp c.word k i) else s.sec.spoilt
  | _, _ => s.sec.spoilt

/-- OTP_SPOILT for what a reset or loss of power left spoilt (R382). -/
def State.spoilRaise (s : State) : State :=
  match s.sec.spoilt with
  | some (k, i) => ({ s with sec := { s.sec with spoilt := none } } : State).postPkg Ev.OTP_SPOILT [(2, k), (8, i)]
  | none => s

/-! ## Power (R481 to R483) -/

/-- Levels held on RST_N and PROG_N from outside. -/
def pinsOnly (b : Boot) : Boot := { rstLow := b.rstLow, progLow := b.progLow }

/-- SUPPLY_FALL: the part enters power-on reset; flash and one-time-programmable memory stand (R483, R53, R361, R391). -/
def State.supplyFall (s : State) (spoil : Option (Nat × Nat)) : State :=
  { State.reset with
    part := s.part, otp := s.otpMet spoil, mem := Sparse.drop s.mem (fun k => decide (k < 2 ^ 48)), memEpoch := s.memEpoch + 1,
    free := s.free, now := s.now, boot := pinsOnly s.boot, sec := { spoilt := s.spoilMet spoil }, pending := s.pending }

/-- POWER_ON: every rail has passed its threshold, and the start delay begins (R405, R481): the straps OSCDLY, whether REFCLK is
present, and the LREF inputs present (bit 4 h + q). -/
def State.powerOn (s : State) (oscdly : Nat) (ref : Bool) (lref : Nat) : State :=
  if s.boot.phase ≠ .off then s
  else
    let s : State := { s with clk := { s.clk with oscdly := oscdly, ref := ref, lref := lref } }
    (s.modBoot (fun b => { b with phase := .delay, kind := 0, delayOver := false })).refShown

/-! ## Step 1 of a start (R350) -/

/-- Every domain present is ON (R417). -/
def State.domainsOn (s : State) : State :=
  s.eachHall (fun s h => (List.range 72).foldl (fun s d => s.forceDom h d 2) s)

/-- The status of the last start is cleared; BOOT_STAT.STATE is st. -/
def State.startClears (s : State) (st : Nat) : State :=
  let t := s.now
  let s : State := { s with bist := { s.bist with raised := false } }
  let s := s.modBoot (fun b => { b with t0 := t, golden := false, passed8 := false, img := {}, runs := false, next := 0, rel := [] })
  ((s.setReg Reg.BOOT_STAT (withField 0 Fl.BOOT_STAT_STATE st)).clrReg Reg.BOOT_CAUSE_ARG).clrReg Reg.BOOT_LIB

/-- The measurement registers are zeroed (R388). -/
def State.mrZero (s : State) : State := { s with sec := { s.sec with mr := [] } }

/-- The measurement registers are zeroed and MR_0 takes the ROM (R388), the challenge is fresh (R381), and BOOT_START is raised. -/
def State.startMeasures (s : State) : State :=
  (s.mrZero.extend 0 Config.romDigest).newChal.postPkg Ev.BOOT_START [(3, s.boot.kind)]

/-- What a start does next: flash discovery, or after an immediate cut the wait of R433. -/
def State.startNext (s : State) : State := s.modBoot (fun b => { b with phase := if s.stop.hotStart then .hot else .discover })

/-- What every start does first. -/
def State.startCommon (s : State) (st : Nat) : State := (s.startClears st).startMeasures.startNext

/-- The management port is live (R463). -/
def State.portLive (s : State) : State := { s with port := { s.port with live := true } }

/-- Step 1: the ROM starts and the management port is live; at power-on the vault is wiped (R350, R391, R463); what the reset spoilt is
reported (R382; DESIGN CHOICE, log 32: here, since the reset clears the event queue). -/
def State.startStep1 (s : State) : State :=
  let s := (s.setFld Reg.SYS_RSTINFO Fl.SYS_RSTINFO_CAUSE s.boot.kind).setFld Reg.SYS_RSTINFO Fl.SYS_RSTINFO_WARMS 0
  let s := (s.startCommon 0).domainsOn
  let s := if s.boot.kind = 0 then s.wipe 0 else s
  s.portLive.spoilRaise

/-- START_DELAY_END (R405, R479). -/
def State.delayEnd (s : State) : State :=
  if s.boot.phase ≠ .delay ∨ s.boot.delayOver = true then s
  else
    let s := s.modBoot (fun b => { b with delayOver := true })
    if s.boot.rstLow then s else s.startStep1

/-! ## RST_N (R53, R228, R284, R307, R361, R390, R402, R412, R470, R471, R479) -/

/-- Registers that RST_N keeps: the vault's state and partitions, and its tamper latch (R361, R390, R393). -/
def rstKeeps (a : Nat) : Bool :=
  a == Reg.SEC_VAULT_STAT || a == Reg.SEC_TAMP_STAT || (decide (Reg.SEC_VPART 0 ≤ a) && decide (a < Reg.SEC_VPART 16))

/-- Bytes that RST_N keeps: the vault's, and flash. -/
def rstKeepsByte (k : Nat) : Bool := decide (2 ^ 48 ≤ k) || (decide (vaultBase ≤ k) && decide (k < vaultBase + 0x40000))

/-- The part held in reset by RST_N. -/
def State.rstReset (s : State) (spoil : Option (Nat × Nat)) : State :=
  let t : State :=
    { State.reset with
      part := s.part, otp := s.otpMet spoil, regs := Sparse.drop s.regs (fun a => !rstKeeps a),
      mem := Sparse.drop s.mem (fun k => !rstKeepsByte k), memEpoch := s.memEpoch + 1, free := s.free, now := s.now,
      clk := { oscdly := s.clk.oscdly, ref := s.clk.ref, lref := s.clk.lref, lost := refLosses s.clk.lost },
      stop := { hotStart := s.stop.cut || s.stop.hotStart },
      boot := { phase := .delay, kind := 1, rstLow := true, progLow := s.boot.progLow, delayOver := s.boot.delayOver },
      sec := { wipe := s.sec.wipe, zero := s.sec.zero, jtag := s.sec.jtag, unlocked := s.sec.unlocked, spoilt := s.spoilMet spoil },
      pending := s.pending }
  t.refShown

/-- RST_N falls. Before the first start after power-on it only holds the part in reset (R479). -/
def State.rstFall (s : State) (spoil : Option (Nat × Nat)) : State :=
  if s.boot.phase = .off ∨ (s.boot.phase = .delay ∧ s.boot.kind = 0) then s.modBoot (fun b => { b with rstLow := true })
  else s.rstReset spoil

/-- RST_N_RISE: start-up begins at the later of the end of the start delay and this edge (R479). -/
def State.rstRise (s : State) : State :=
  let was := s.boot.rstLow
  let s := s.modBoot (fun b => { b with rstLow := false })
  if was && s.boot.phase == .delay && s.boot.delayOver then s.startStep1 else s

/-! ## The management port's running command (R471) -/

/-- A command (OP, TAG) was accepted and runs, where the port could accept it. -/
def State.portRuns (s : State) (run : Option (Nat × Nat)) : State :=
  if s.port.live && s.port.busy.isNone && run.isSome then
    { s with port := { s.port with busy := run, rsp := none, lastErr := 0 } }
  else s

/-- A running command ends with STATUS 7 (R471). -/
def State.portAbandon (s : State) : State :=
  match s.port.busy with
  | none => s
  | some (op, tag) =>
    let s := (s.incFld Reg.SYS_PORT Fl.SYS_PORT_ABANDONED 1).postPkg Ev.MPORT_ABANDONED [(8, op), (8, tag)]
    { s with port := { s.port with busy := none, rsp := some ⟨tag, 7, 0, []⟩ } }

/-! ## Warm reconfiguration (R360) -/

/-- The stack of hall h enters self-refresh before the fabric is reset: posted writes are written, queued reads answered, and its
engine drains, flushes and pauses (R282, R284, R306, R307). -/
def State.warmStack (s : State) (h : Nat) : State :=
  if !hasPort h then s
  else
    let s := s.srBegin h 0
    let s := if s.hbmState h = 2 ∨ s.hbmState h = 4 then ((((s.wcbDrain h).portFlush h).cacheFlush h).meePause h 0).stackEntered h else s
    s.modHbm h (fun b =>
      { b with buf := [], reqs := [], alerts := [], wants := b.wants.filter (fun c => c != 1 && c != 4),
               pcs := b.pcs.map (fun x => (x.1, { x.2 with rq := [], wq := [], table := [] })) })

/-- An OTP commit in progress finishes before its command is abandoned (R402). -/
def State.commitEnds (s : State) : State :=
  match s.sec.cmd with
  | some c => if c.sig && decide (s.sec.wipe ≠ some 1) then s.lcCommit c.word else s
  | none => s

/-- A management register that PROG_N and RELOAD keep (R497), by block and offset. -/
def warmKeeps (l : Loc) (a : Nat) : Bool :=
  match l.block with
  | .sys => a != Reg.SYS_EVCFG
  | .boot => decide (a ≤ Reg.BOOT_LIB)
  | .sec | .cal | .clk | .hbmc | .mee => true
  | .pwr => a == Reg.PWR_CMD_STAT || decide (Reg.PWR_DSTAT 0 0 ≤ a)
  | .therm => decide (Reg.THERM_HALL 0 ≤ a)
  | .bist => !(decide (Reg.BIST_GSEL 0 ≤ a) && decide (a < Reg.BIST_GSEL 8))
  | .hall => decide (Reg.LAND l.unit 0 ≤ a) && decide (a < Reg.LAND l.unit 192)
  | .omist | .lens | .gweak | .lane | .eth | .pad | .hclk | .gal => false

/-- Registers across PROG_N and RELOAD (R497): the landing registers lose PERR. -/
def State.warmRegs (s : State) : State :=
  let s := s.resetRegs (fun a => match locate a with
    | some l => !warmKeeps l a
    | none => true)
  s.eachHall (fun s h => (List.range 192).foldl (fun s n => s.setFld (Reg.LAND h n) Fl.LAND_PERR 0) s)

/-- What a gallery keeps: its repair map (R361). -/
def warmGals (l : Sparse Gal) : Sparse Gal :=
  (l.map (fun x => (x.1, ({ repair := x.2.repair } : Gal)))).filter (fun x => decide (x.2 ≠ {}))

/-- What a hall keeps: its memory port, its encryption engine and its landing codes (R53, R284, R307). -/
def warmHalls (l : Sparse Hall) : Sparse Hall :=
  (l.map (fun x => (x.1, ({ hbm := x.2.hbm, mee := x.2.mee, landAt := x.2.landAt, landLow := x.2.landLow } : Hall)))).filter
    (fun x => decide (x.2 ≠ {}))

/-- Costs and requests of the admission controller that stay: those of the halls' clock division, which the thermal routine made. -/
def warmAdm (a : Adm) : Adm :=
  { queue := a.queue.filter (fun r => r.kind == 12), held := a.held.filter (fun x => x.kind == 12), again := [] }

/-- Fabric, planes, mirror store, claim table, Gweak and Omist are reset (step 4 of R360). -/
def State.warmFabric (s : State) : State :=
  let s := s.loseMem (memBase 0) (memBase 256)
  { s with
    net := [], reqs := [], seqNext := [], seqRec := [], epochs := [], istat := [], slots := [], corrs := [], dom := [],
    gals := warmGals s.gals, halls := warmHalls s.halls, adm := warmAdm s.adm,
    clk := { s.clk with lost := refLosses s.clk.lost } }

/-- The system manager abandons what it was doing: a record being written is torn, a flash command and a reload end (R362). -/
def State.bootWarm (s : State) (kind : Nat) : State :=
  let s := if s.boot.recs.isEmpty then s else s.setFld Reg.CAL_STAT Fl.CAL_STAT_SAVING 0
  s.modBoot (fun b => { phase := .warm, kind := kind, rstLow := b.rstLow, progLow := b.progLow, delayOver := b.delayOver, t0 := b.t0 })

/-- A stop under way is over; that start-up waits for a hot part (R433) stays. -/
def State.stopOver (s : State) : State := { s with stop := { hotStart := s.stop.hotStart } }

/-- Steps 1 to 3 of R360: what was in progress ends, stacks enter self-refresh, clocks and power changes stop; commit says that an OTP
commit was in progress. -/
def State.warmEnds (s : State) (commit : Bool) : State :=
  let s := (if commit then s.commitEnds else s).secAbandon
  let s := (s.bistAbandon.calAbandon.fabricStop.loadsEnd).stoppingOff.stopOver
  (s.eachHall (fun s h => s.warmStack h)).pwrCut

/-- Step 4 of R360. -/
def State.warmResets (s : State) : State := s.mrZero.warmFabric.warmRegs.domainsOn.locksDown.refShown

/-- The reset kind and the count of warm resets, and BOOT_STAT.STATE (R360). -/
def State.warmMarks (s : State) (kind : Nat) : State :=
  ((s.setFld Reg.SYS_RSTINFO Fl.SYS_RSTINFO_CAUSE kind).incFld Reg.SYS_RSTINFO Fl.SYS_RSTINFO_WARMS 1).setBoot 8

/-- Steps 1 to 4 of R360. -/
def State.warmReset (s : State) (commit : Bool) (kind : Nat) : State :=
  (((s.portAbandon.warmEnds commit).warmResets).bootWarm kind).warmMarks kind

/-- Step 5 of R360: start-up from step 2. -/
def State.warmStart (s : State) : State := s.startCommon 1

/-- The part can be reconfigured: a start has begun and the immediate cut does not hold (R432, R471). -/
def State.warmMay (s : State) : Bool := s.boot.phase != .off && s.boot.phase != .delay && !s.stop.cut

/-- PROG_N falls: run names a command (OP, TAG) of the management port that was still running. -/
def State.progFall (s : State) (commit : Bool) (run : Option (Nat × Nat)) : State :=
  let s := s.modBoot (fun b => { b with progLow := true })
  if s.warmMay then (s.portRuns run).warmReset commit 2 else s

/-- PROG_N_RISE (R360 step 5). -/
def State.progRise (s : State) : State :=
  let s := s.modBoot (fun b => { b with progLow := false })
  if s.boot.phase = .warm then s.warmStart else s

/-- An accepted RELOAD: step 5 follows at once, unless PROG_N is held low. -/
def State.reload (s : State) (commit : Bool) : State :=
  if !s.warmMay then s
  else
    let s := s.warmReset commit 3
    if s.boot.progLow then s else s.warmStart

/-! ## Meanings -/

/-- An index of R382 as numbers. -/
def spoilNat (x : Option (Fin 3 × Fin 128)) : Option (Nat × Nat) := x.map (fun y => (y.1.val, y.2.val))

/-- POWER_ON (R405, R481). -/
def execPowerOn (oscdly : Fin 4) (ref : Bool) (lref : BitVec 32) (s : State) : Out := .next (s.powerOn oscdly ref lref.toNat)
/-- START_DELAY_END (R405). -/
def execStartDelayEnd (s : State) : Out := .next s.delayEnd
/-- SUPPLY_FALL (R483). -/
def execSupplyFall (spoil : Option (Fin 3 × Fin 128)) (s : State) : Out := .next (s.supplyFall (spoilNat spoil))
/-- RST_N (R361). -/
def execRstN (spoil : Option (Fin 3 × Fin 128)) (s : State) : Out := .next (s.rstFall (spoilNat spoil))
/-- RST_N_RISE (R479). -/
def execRstNRise (s : State) : Out := .next s.rstRise
/-- PROG_N (R360). -/
def execProgN (commit : Bool) (run : Option (Byte × Byte)) (s : State) : Out :=
  .next (s.progFall commit (run.map (fun x => (x.1.toNat, x.2.toNat))))
/-- PROG_N_RISE (R360). -/
def execProgNRise (s : State) : Out := .next s.progRise

end Sys2Proof.Machine
end

