-- ==== Sys2Proof/Machine/Port.lean ====
section
/-!
DEFINITION. Machine/Port.lean: the management port (R454 to R464, R468, R471). A command is accepted, performed and answered as one
step.
-/
namespace Sys2Proof.Machine

/-! ## Check words (R456) -/

/-- Bytes with their check word, low byte first. -/
def withCrc (l : List Byte) : List Byte := l ++ bytesOf 2 (BitVec.ofNat 16 (crc16 l))

/-- The OP byte of a transaction: bit 7 is the width (R455). -/
def opByte (op : Nat) (c : PortCmd) : Nat := op + (if c.wide then 128 else 0)

/-- Header bytes 0 to 7 of a command (R457). -/
def headerBytes (op : Nat) (c : PortCmd) : List Byte :=
  [BitVec.ofNat 8 (opByte op c), c.tag] ++ bytesOf 4 c.addr ++ bytesOf 2 c.len

/-- The header's check word is right. -/
def hcrcOk (op : Nat) (c : PortCmd) : Bool := crc16 (headerBytes op c) == c.hcrc.toNat

/-- The data's check word is right. -/
def dcrcOk (c : PortCmd) : Bool := crc16 c.data == c.dcrc.toNat

/-! ## Acceptance and response (R459, R460) -/

/-- How a command ends: status, OSTAT and data. -/
structure PortEnd where
  status : Nat
  ostat : Nat := 0
  data : List Byte := []

/-- A transaction that is not accepted: LASTERR and the count of SYS_PORT (R459). -/
def State.portReject (s : State) (err : Nat) : State :=
  ({ s with port := { s.port with lastErr := err } } : State).incFld Reg.SYS_PORT Fl.SYS_PORT_REJECT 1

/-- A command is accepted (R459): BUSY, LASTERR cleared, the held response discarded. -/
def State.portAccept (s : State) (op : Nat) (c : PortCmd) : State :=
  { s with port := { s.port with busy := some (opByte op c, c.tag.toNat), rsp := none, lastErr := 0 } }

/-- A command ends: its response enters the slot and BUSY clears. -/
def State.portEnd (s : State) (c : PortCmd) (e : PortEnd) : State :=
  { s with port := { s.port with busy := none, rsp := some ⟨c.tag.toNat, e.status, e.ostat, e.data⟩ } }

/-- A header (kind 0) or data (kind 1) whose check fails: nothing is performed (R459, R460). -/
def State.portCheckFail (s : State) (kind op : Nat) (c : PortCmd) : State :=
  let s := s.incFld Reg.SYS_PORT (if kind = 0 then Fl.SYS_PORT_HCRC else Fl.SYS_PORT_DCRC) 1
  let s := s.postLim Ev.MPORT_CHECK_FAIL 0 (1000 * ms) 15 63 [(1, kind), (8, opByte op c)]
  s.portEnd c { status := 1 + kind }

/-- A transaction is accepted and its command performed (R459): hasData says that its OP carries data. -/
def State.portPerforms (s : State) (op : Nat) (hasData : Bool) (c : PortCmd) : Bool :=
  s.port.live && s.port.busy.isNone && hcrcOk op c && c.data.length == (if hasData then c.len.toNat else 0) && (!hasData || dcrcOk c)

/-- A command transaction (R457, R459): hasData says that OP carries data, run what the command does. -/
def State.portCommand (s : State) (op : Nat) (hasData : Bool) (c : PortCmd) (run : State → State × PortEnd) : State :=
  if !s.port.live then s
  else if s.port.busy.isSome then s.portReject 1
  else if !hcrcOk op c then (s.portAccept op c).portCheckFail 0 op c
  else if c.data.length ≠ (if hasData then c.len.toNat else 0) then s.portReject 2
  else
    let s := s.portAccept op c
    if hasData && !dcrcOk c then s.portCheckFail 1 op c
    else
      let x := run s
      x.1.portEnd c x.2

/-! ## Register commands (R461) -/

/-- The hall whose register agent an address is sent to: its block lies in that hall; none where the system manager performs it. -/
def portHall (a : Nat) : Option Nat := regHall a

/-- A hall's register agent answers (R65, R360): Omist is not held in reset and both ways to it are up. -/
def State.hallAnswers (s : State) (h a : Nat) : Bool :=
  s.boot.phase != .warm && s.connected 0 h ((regBase + a) / 512 % 2 ^ 31)

/-- Whether a word cannot be reached. -/
def State.portLost (s : State) (a : Nat) : Bool := (portHall a).any (fun h => !s.hallAnswers h a)

/-- The MRD or MWR that the bridge sends to hall h's register agent for the word at a, with SRC_PORT 1 (R239, R461). -/
def bridgePacket (h a : Nat) (write : Bool) : Packet :=
  { unitPacket 0 36 1 h 35 7 (if write then 0xC1 else 0xC0) 3 0 with
    addr := BitVec.ofNat 48 (regBase + a), units := if write then 1 else 0, runits := if write then 0 else 1,
    beFirst := BitVec.ofNat 64 (15 * 2 ^ (a % 64)), beLast := BitVec.ofNat 64 (15 * 2 ^ (a % 64)) }

/-- The bridge's request for a word goes out and arrives; one that cannot get through is answered UNAVAIL on the way (R239, R246, R264).
The system manager's own words take no packet. -/
def State.wordAsked (s : State) (a : Nat) (write lost : Bool) : State :=
  match portHall a with
  | some h =>
    let p := bridgePacket h a write
    if s.boot.phase = .warm then s else if lost then (s.numbered p).istatAdd p 4 0 else s.passes p
  | none => s

/-- The agent's response comes back and is counted (R246, R264). -/
def State.wordAnswered (s : State) (a : Nat) (write : Bool) (st : OSt) : State :=
  match portHall a with
  | some h => let p := bridgePacket h a write; (s.passes (rspOf p st [])).istatAdd p st.code 0
  | none => s

/-- Read words in ascending order up to the first whose status is not OK. -/
def State.readWords (s : State) (a : Nat) : Nat → State × OSt × List Byte
  | 0 => (s, .ok, [])
  | n + 1 =>
    if s.portLost a then (s.wordAsked a false true, .unavail, [])
    else
      let x := (s.wordAsked a false false).readReg a
      let t := x.1.wordAnswered a false x.2.1
      if x.2.1 ≠ .ok then (t, x.2.1, [])
      else
        let y := t.readWords (a + 4) n
        (y.1, y.2.1, bytesOf 4 x.2.2 ++ y.2.2)

/-- Write words in ascending order up to the first whose status is not OK. -/
def State.writeWords (s : State) (a : Nat) : List Byte → State × OSt
  | b0 :: b1 :: b2 :: b3 :: r =>
    if s.portLost a then (s.wordAsked a true true, .unavail)
    else
      let x := (s.wordAsked a true false).writeReg .host a (BitVec.ofNat 32 (natOfBytes [b0, b1, b2, b3]))
      let t := x.1.wordAnswered a true x.2
      if x.2 ≠ .ok then (t, x.2) else t.writeWords (a + 4) r
  | _ => (s, .ok)

/-- ADDR and LEN of RDREG and WRREG (R458). -/
def regArgs (c : PortCmd) : Bool :=
  c.addr.toNat % 4 == 0 && decide (4 ≤ c.len.toNat) && decide (c.len.toNat ≤ 4096) && c.len.toNat % 4 == 0

/-- The end of a register command. -/
def regEnd (st : OSt) (data : List Byte) : PortEnd := { status := if st = .ok then 0 else 6, ostat := st.code, data := data }

/-- RDREG. -/
def State.rdreg (s : State) (c : PortCmd) : State × PortEnd :=
  if !regArgs c then (s, { status := 4 })
  else
    let x := s.readWords c.addr.toNat (c.len.toNat / 4)
    (x.1, regEnd x.2.1 x.2.2)

/-- WRREG. -/
def State.wrreg (s : State) (c : PortCmd) : State × PortEnd :=
  if !regArgs c then (s, { status := 4 })
  else
    let x := s.writeWords c.addr.toNat c.data
    (x.1, regEnd x.2 [])

/-! ## EVREAD (R468) -/

/-- EVREAD: acknowledge the oldest ack held records, release the rest, and hold and return the oldest n. -/
def State.evTake (s : State) (ack n : Nat) : State × List Byte :=
  let q := s.ev.recs.drop (min ack s.ev.held)
  let k := min n q.length
  ({ s with ev := { s.ev with recs := q, held := k } }, (q.take k).flatMap (fun r => bytesOf 16 (BitVec.ofNat 128 (eventBits r))))

/-- EVREAD. -/
def State.evread (s : State) (c : PortCmd) : State × PortEnd :=
  if 256 < c.addr.toNat ∨ 4096 < c.len.toNat ∨ c.len.toNat % 16 ≠ 0 then (s, { status := 4 })
  else
    let x := s.evTake c.addr.toNat (c.len.toNat / 16)
    (x.1, { status := 0, data := x.2 })

/-! ## BULKRD (R464) -/

/-- Bytes of a buffer of records of n bytes each, kept by record. -/
def recBytes {w : Nat} (m : Sparse (BitVec w)) (n off len : Nat) : List Byte :=
  (List.range len).map (fun i => BitVec.ofNat 8 ((Sparse.get m 0 ((off + i) / n)).toNat / 2 ^ (8 * ((off + i) % n))))

/-- The size of a bulk source. -/
def State.bulkSize (s : State) (src h : Nat) : Nat :=
  if src = 0 then 50496 else if src = 1 then 65536 else 16 * traceRecs (s.fld (Reg.GWK_TRACE_CFG h) Fl.GWK_TRACE_CFG_SIZE)

/-- The start of a Gweak's ring in HBM. -/
def State.ringBase (s : State) (h : Nat) : Nat := s.fld (Reg.GWK_TRACE_BASE h) Fl.GWK_TRACE_BASE_BASE * 4096

/-- A bulk source that is read through Omist: the status of the read and its data. st is the status that reads of an HBM ring
receive. -/
def State.bulkOmist (s : State) (src h off len st : Nat) : PortEnd :=
  if src = 2 ∧ s.part.gweak = false then { status := 6, ostat := 3 }
  else if !s.hallAnswers h 0 then { status := 6, ostat := 4 }
  else if src = 1 then { status := 0, data := recBytes (s.hall h).lens 32 off len }
  else if s.inFrst h || !s.domOn h 70 then { status := 6, ostat := 4 }
  else if s.fld (Reg.GWK_TRACE_CFG h) Fl.GWK_TRACE_CFG_SIZE = 0 then { status := 0, data := recBytes (s.gwk h).trace 16 off len }
  else if st ≠ 0 then { status := 6, ostat := st }
  else { status := 0, data := s.readBytes (s.ringBase h + off) len }

/-- BULKRD. -/
def State.bulkrd (s : State) (c : PortCmd) (st : Nat) : State × PortEnd :=
  let a := c.addr.toNat
  let src := a / 2 ^ 28
  let h := a / 2 ^ 25 % 8
  let off := a % 2 ^ 25
  let len := c.len.toNat
  if 2 < src ∨ len < 16 ∨ 4096 < len ∨ len % 16 ≠ 0 ∨ off % 16 ≠ 0 ∨ s.bulkSize src h < off + len then (s, { status := 4 })
  else if src = 0 then
    if s.bit Reg.SEC_ATT_STAT Fl.SEC_ATT_STAT_DONE then (s, { status := 0, data := ((s.sec.report.getD []).drop off).take len })
    else (s, { status := 5 })
  else (s, s.bulkOmist src h off len st)

/-! ## RELOAD, STOP, ATTEST (R360, R396, R434, R471) -/

/-- RELOAD: the OK response enters the slot before step 1; refused with STATE only after the immediate cut. -/
def State.reloadCommand (s : State) (c : PortCmd) : State × PortEnd :=
  if c.addr ≠ 0x5A5A ∨ c.len ≠ 0 then (s, { status := 4 }) else if s.stop.cut then (s, { status := 5 }) else (s, { status := 0 })

/-- STOP: STATE while a stop runs. -/
def State.stopCommand (s : State) (c : PortCmd) : State × PortEnd :=
  if c.addr ≠ 0xA5A5 ∨ c.len ≠ 0 then (s, { status := 4 }) else if s.stop.step ≠ 0 then (s, { status := 5 }) else (s, { status := 0 })

/-- ATTEST: writes the nonce and GO. -/
def State.attestCommand (s : State) (c : PortCmd) : State × PortEnd :=
  if c.addr ≠ 0 ∨ c.len.toNat ≠ 32 then (s, { status := 4 })
  else if s.bit Reg.SEC_ATT_STAT Fl.SEC_ATT_STAT_BUSY then (s, { status := 5 })
  else
    let s := (List.range 8).foldl (fun s w =>
      s.setReg (Reg.SEC_ATT_NONCE w) (BitVec.ofNat 32 (natOfBytes ((c.data.drop (4 * w)).take 4)))) s
    (s.attestStart, { status := 0 })

/-! ## STATUS, GETRSP, and the pin MRDY (R460, R462, R463) -/

/-- A record at or above SYS_EVCFG.ATTN is in the queue and not held. -/
def State.portPend (s : State) : Bool :=
  (s.ev.recs.drop s.ev.held).any (fun r => decide (s.fld Reg.SYS_EVCFG Fl.SYS_EVCFG_ATTN ≤ r.sev))

/-- The status word. -/
def State.statusWord (s : State) : Word :=
  BitVec.ofNat 32 (packBits [(1, b2n s.port.busy.isSome), (1, b2n s.port.rsp.isSome),
    (1, s.fld Reg.SYS_EVSTAT Fl.SYS_EVSTAT_CRIT), (1, b2n s.portPend), (4, s.fld Reg.BOOT_STAT Fl.BOOT_STAT_STATE),
    (9, s.ev.recs.length - s.ev.held), (3, 0), (4, s.port.lastErr), (8, (s.port.rsp.map (·.tag)).getD 0)])

/-- The bytes of a STATUS transaction. -/
def State.statusBytes (s : State) : List Byte := withCrc (bytesOf 4 s.statusWord)

/-- The bytes of a GETRSP transaction. -/
def State.rspBytes (s : State) : List Byte :=
  let r := s.port.rsp.getD ⟨0, 8, 0, []⟩
  let head := [BitVec.ofNat 8 r.tag, BitVec.ofNat 8 (r.status + 16 * r.ostat)] ++ bytesOf 2 (BitVec.ofNat 16 r.data.length)
  withCrc head ++ (if r.data.isEmpty then [] else withCrc r.data)

/-- The port drives bytes; while it is not live it drives none. -/
def State.portDrive (s : State) (l : List Byte) : State :=
  if s.port.live then { s with port := { s.port with out := l } } else s

/-- MRDY is high. -/
def State.mrdy (s : State) : Bool := s.port.live && s.port.busy.isNone && !s.portPend

/-- A transaction that no row of its own names (R458, R459). -/
def State.badXact (s : State) (b : BadXact) : State :=
  if !s.port.live then s
  else match b with
    | .malformed => s.portReject (if s.port.busy.isSome then 1 else 2)
    | .busy => s.portReject 1
    | .reserved op c =>
      if [1, 2, 4, 5, 6, 8, 9, 10, 12].contains op.val then s
      else s.portCommand op false c (fun s => (s, { status := 3 }))

/-! ## Meanings -/

/-- RDREG (R461). -/
def execRdreg (c : PortCmd) (s : State) : Out := .next (s.portCommand 1 false c (fun s => s.rdreg c))
/-- WRREG (R461). -/
def execWrreg (c : PortCmd) (s : State) : Out := .next (s.portCommand 2 true c (fun s => s.wrreg c))
/-- EVREAD (R468). -/
def execEvread (c : PortCmd) (s : State) : Out := .next (s.portCommand 4 false c (fun s => s.evread c))
/-- STATUS (R462). -/
def execStatus (s : State) : Out := .next (s.portDrive s.statusBytes)
/-- GETRSP (R460). -/
def execGetrsp (s : State) : Out := .next (s.portDrive s.rspBytes)
/-- RELOAD (R360, R471). -/
def execReload (c : PortCmd) (commit : Bool) (s : State) : Out :=
  let t := s.portCommand 8 false c (fun s => s.reloadCommand c)
  .next (if s.portPerforms 8 false c && (s.reloadCommand c).2.status == 0 then t.reload commit else t)
/-- STOP (R434, R471). -/
def execStop (c : PortCmd) (s : State) : Out :=
  let t := s.portCommand 9 false c (fun s => s.stopCommand c)
  .next (if s.portPerforms 9 false c && (s.stopCommand c).2.status == 0 then t.orderlyStop 1 else t)
/-- ATTEST (R396, R458). -/
def execAttest (c : PortCmd) (s : State) : Out := .next (s.portCommand 10 true c (fun s => s.attestCommand c))
/-- BULKRD (R464): st is the status that the reads of a ring in HBM receive. -/
def execBulkrd (c : PortCmd) (st : Fin 8) (s : State) : Out := .next (s.portCommand 12 false c (fun s => s.bulkrd c st))
/-- MALFORMED_TRANSACTION (R459). -/
def execMalformedTransaction (b : BadXact) (s : State) : Out := .next (s.badXact b)

end Sys2Proof.Machine
end

