-- ==== Sys2Proof/Machine/Dispatch.lean ====
section
/-!
DEFINITION. Machine/Dispatch.lean: one arm per command, each a direct call of the command's meaning.
-/
namespace Sys2Proof.Machine
open Sys2Proof

def exec (i : Instr) (s : State) : Host.Outcome State Fault Refusal :=
  match i with
  | .registerWrite w a v => Sys2Proof.Machine.execRegisterWrite w a v s
  | .powerOn oscdly ref lref => Sys2Proof.Machine.execPowerOn oscdly ref lref s
  | .startDelayEnd => Sys2Proof.Machine.execStartDelayEnd s
  | .supplyFall spoil => Sys2Proof.Machine.execSupplyFall spoil s
  | .rstN spoil => Sys2Proof.Machine.execRstN spoil s
  | .progN commit run => Sys2Proof.Machine.execProgN commit run s
  | .stopN => Sys2Proof.Machine.execStopN s
  | .flashDiscovery dev0 dev1 same good size => Sys2Proof.Machine.execFlashDiscovery dev0 dev1 same good size s
  | .imageCheck mv => Sys2Proof.Machine.execImageCheck mv s
  | .recordScan mv => Sys2Proof.Machine.execRecordScan mv s
  | .fabricPllLock sweeps => Sys2Proof.Machine.execFabricPllLock sweeps s
  | .sectionRead facts => Sys2Proof.Machine.execSectionRead facts s
  | .release => Sys2Proof.Machine.execRelease s
  | .releaseBorders => Sys2Proof.Machine.execReleaseBorders s
  | .bootDone senses => Sys2Proof.Machine.execBootDone senses s
  | .importCmd v st => Sys2Proof.Machine.execImport v st s
  | .importComplete st => Sys2Proof.Machine.execImportComplete st s
  | .scrubFrameStep h mirror diff => Sys2Proof.Machine.execScrubFrameStep h mirror diff s
  | .scrubSlotReloadDone G k fault => Sys2Proof.Machine.execScrubSlotReloadDone G k fault s
  | .flashRead v => Sys2Proof.Machine.execFlashRead v s
  | .flashProgram v => Sys2Proof.Machine.execFlashProgram v s
  | .flashErase v => Sys2Proof.Machine.execFlashErase v s
  | .flashCmdDone fault => Sys2Proof.Machine.execFlashCmdDone fault s
  | .recordWriteDone fault => Sys2Proof.Machine.execRecordWriteDone fault s
  | .frstStart h v => Sys2Proof.Machine.execFrstStart h v s
  | .frstDrainEnd h => Sys2Proof.Machine.execFrstDrainEnd h s
  | .frstHoldEnd h => Sys2Proof.Machine.execFrstHoldEnd h s
  | .frstDone h => Sys2Proof.Machine.execFrstDone h s
  | .frstTimeout h => Sys2Proof.Machine.execFrstTimeout h s
  | .hallFenceSet h => Sys2Proof.Machine.execHallFenceSet h s
  | .hallFenceClear h => Sys2Proof.Machine.execHallFenceClear h s
  | .corrFence h k v => Sys2Proof.Machine.execCorrFence h k v s
  | .corrReadmit h k => Sys2Proof.Machine.execCorrReadmit h k s
  | .landCodeStep h n => Sys2Proof.Machine.execLandCodeStep h n s
  | .landParity h n => Sys2Proof.Machine.execLandParity h n s
  | .mezzContention h track g1 g2 => Sys2Proof.Machine.execMezzContention h track g1 g2 s
  | .mezzRearmed h track => Sys2Proof.Machine.execMezzRearmed h track s
  | .mezzOffWrite h j v => Sys2Proof.Machine.execMezzOffWrite h j v s
  | .galClkselWrite G n v => Sys2Proof.Machine.execGalClkselWrite G n v s
  | .galClkSwitchDone G n => Sys2Proof.Machine.execGalClkSwitchDone G n s
  | .epRequest G vc last p => Sys2Proof.Machine.execEpRequest G vc last p s
  | .dnDone G status => Sys2Proof.Machine.execDnDone G status s
  | .eqEnqueue G desc => Sys2Proof.Machine.execEqEnqueue G desc s
  | .msgAccept G last => Sys2Proof.Machine.execMsgAccept G last s
  | .itAccept G => Sys2Proof.Machine.execItAccept G s
  | .galRst G v => Sys2Proof.Machine.execGalRst G v s
  | .galResetEdge G => Sys2Proof.Machine.execGalResetEdge G s
  | .galResetRelease G => Sys2Proof.Machine.execGalResetRelease G s
  | .galResetDone G => Sys2Proof.Machine.execGalResetDone G s
  | .galCtxCfgWrite G v => Sys2Proof.Machine.execGalCtxCfgWrite G v s
  | .galCtxSelWrite G v => Sys2Proof.Machine.execGalCtxSelWrite G v s
  | .planeRequest G q => Sys2Proof.Machine.execPlaneRequest G q s
  | .planeSwitchEdge G => Sys2Proof.Machine.execPlaneSwitchEdge G s
  | .switchCapture G => Sys2Proof.Machine.execSwitchCapture G s
  | .galLoadCmdLoad w G slot p => Sys2Proof.Machine.execGalLoadCmdLoad w G slot p s
  | .galLoadCmdReplace w G slot p => Sys2Proof.Machine.execGalLoadCmdReplace w G slot p s
  | .planeLoadStart G => Sys2Proof.Machine.execPlaneLoadStart G s
  | .planeLoadComplete G f => Sys2Proof.Machine.execPlaneLoadComplete G f s
  | .replaceEdge G => Sys2Proof.Machine.execReplaceEdge G s
  | .replaceActivate G => Sys2Proof.Machine.execReplaceActivate G s
  | .replaceCapture G => Sys2Proof.Machine.execReplaceCapture G s
  | .slotCopy G srcG srcSlot dst => Sys2Proof.Machine.execSlotCopy G srcG srcSlot dst s
  | .slotInvalidate G k => Sys2Proof.Machine.execSlotInvalidate G k s
  | .slotCopyComplete G pass => Sys2Proof.Machine.execSlotCopyComplete G pass s
  | .prismRequest G k op bank row be wdata parity => Sys2Proof.Machine.execPrismRequest G k op bank row be wdata parity s
  | .bankAccess G b f diff => Sys2Proof.Machine.execBankAccess G b f diff s
  | .prismCompletion G k => Sys2Proof.Machine.execPrismCompletion G k s
  | .queueEnqRetry G b => Sys2Proof.Machine.execQueueEnqRetry G b s
  | .galQCfgWrite G b v => Sys2Proof.Machine.execGalQCfgWrite G b v s
  | .memtestRowStart G r => Sys2Proof.Machine.execMemtestRowStart G r s
  | .memtestRestore G b => Sys2Proof.Machine.execMemtestRestore G b s
  | .enq p => Sys2Proof.Machine.execEnq p s
  | .gwkEnqGo h v => Sys2Proof.Machine.execGwkEnqGo h v s
  | .dispatchDecision h => Sys2Proof.Machine.execDispatchDecision h s
  | .classNoServer h f => Sys2Proof.Machine.execClassNoServer h f s
  | .doneMsg p => Sys2Proof.Machine.execDone p s
  | .watchdogCheck h => Sys2Proof.Machine.execWatchdogCheck h s
  | .engineRetryReady h f => Sys2Proof.Machine.execEngineRetryReady h f s
  | .dueRelease h => Sys2Proof.Machine.execDueRelease h s
  | .gwkTickWrite h v => Sys2Proof.Machine.execGwkTickWrite h v s
  | .gwkFlowCfgWrite h f v => Sys2Proof.Machine.execGwkFlowCfgWrite h f v s
  | .flowResume h f => Sys2Proof.Machine.execFlowResume h f s
  | .flowFlush h f => Sys2Proof.Machine.execFlowFlush h f s
  | .srvAdd h g => Sys2Proof.Machine.execSrvAdd h g s
  | .srvRemove h g => Sys2Proof.Machine.execSrvRemove h g s
  | .srvRemoved h g => Sys2Proof.Machine.execSrvRemoved h g s
  | .srvPreload h g k => Sys2Proof.Machine.execSrvPreload h g k s
  | .rd p f => Sys2Proof.Machine.execRd p f s
  | .wr p f => Sys2Proof.Machine.execWr p f s
  | .qpush x => Sys2Proof.Machine.execQpush x s
  | .qpop p f => Sys2Proof.Machine.execQpop p f s
  | .srd p ue => Sys2Proof.Machine.execSrd p ue s
  | .swr p => Sys2Proof.Machine.execSwr p s
  | .msg p => Sys2Proof.Machine.execMsg p s
  | .item p => Sys2Proof.Machine.execItem p s
  | .loadreq p => Sys2Proof.Machine.execLoadreq p s
  | .loadrpt p => Sys2Proof.Machine.execLoadrpt p s
  | .xmit p => Sys2Proof.Machine.execXmit p s
  | .rsp p => Sys2Proof.Machine.execRsp p s
  | .mrd p => Sys2Proof.Machine.execMrd p s
  | .mwr p => Sys2Proof.Machine.execMwr p s
  | .notice h k p => Sys2Proof.Machine.execNotice h k p s
  | .routerPacket h n d p stallIn stallOut fate => Sys2Proof.Machine.execRouterPacket h n d p stallIn stallOut fate s
  | .linkDead h l => Sys2Proof.Machine.execLinkDead h l s
  | .lateSpeaker h l => Sys2Proof.Machine.execLateSpeaker h l s
  | .linkReadmit h k => Sys2Proof.Machine.execLinkReadmit h k s
  | .linkSelfTestDone h l r => Sys2Proof.Machine.execLinkSelfTestDone h l r s
  | .rspTimeout h n port tag => Sys2Proof.Machine.execRspTimeout h n port tag s
  | .wakeTimeout h r vc => Sys2Proof.Machine.execWakeTimeout h r vc s
  | .istatSnap h => Sys2Proof.Machine.execIstatSnap h s
  | .hbmInitDone m bad => Sys2Proof.Machine.execHbmInitDone m bad s
  | .hbmBurst m pc f0 f1 mf => Sys2Proof.Machine.execHbmBurst m pc f0 f1 mf s
  | .hbmAlert m ch kind acked acts => Sys2Proof.Machine.execHbmAlert m ch kind acked acts s
  | .hbmRefresh m pc bank => Sys2Proof.Machine.execHbmRefresh m pc bank s
  | .hbmTempRead m t mult => Sys2Proof.Machine.execHbmTempRead m t mult s
  | .activationTableClear m => Sys2Proof.Machine.execActivationTableClear m s
  | .hbmChannelSrEntry m ch => Sys2Proof.Machine.execHbmChannelSrEntry m ch s
  | .srHoldSet m => Sys2Proof.Machine.execSrHoldSet m s
  | .srHoldClear m => Sys2Proof.Machine.execSrHoldClear m s
  | .hbmStackSrEntry m => Sys2Proof.Machine.execHbmStackSrEntry m s
  | .hbmWqWrite m v => Sys2Proof.Machine.execHbmWqWrite m v s
  | .meeRangeEnable m r => Sys2Proof.Machine.execMeeRangeEnable m r s
  | .meeRangeDisable m r => Sys2Proof.Machine.execMeeRangeDisable m r s
  | .meeKeychg m r => Sys2Proof.Machine.execMeeKeychg m r s
  | .meeKeyLoad m v => Sys2Proof.Machine.execMeeKeyLoad m v s
  | .meeUnitDone m r fails metaBad => Sys2Proof.Machine.execMeeUnitDone m r fails metaBad s
  | .wcbAgeMerge m blk f => Sys2Proof.Machine.execWcbAgeMerge m blk f s
  | .laneEnable h l v => Sys2Proof.Machine.execLaneEnable h l v s
  | .laneDisable h l => Sys2Proof.Machine.execLaneDisable h l s
  | .laneQuiet h l b => Sys2Proof.Machine.execLaneQuiet h l b s
  | .laneDormant h l b => Sys2Proof.Machine.execLaneDormant h l b s
  | .qreq h l b => Sys2Proof.Machine.execQreq h l b s
  | .lanePllLock h l => Sys2Proof.Machine.execLanePllLock h l s
  | .fomMeasure h l fom cdr under => Sys2Proof.Machine.execFomMeasure h l fom cdr under s
  | .ethModeWrite h e v => Sys2Proof.Machine.execEthModeWrite h e v s
  | .ethLinkUp h e p => Sys2Proof.Machine.execEthLinkUp h e p s
  | .ethLinkDown h e p cause => Sys2Proof.Machine.execEthLinkDown h e p cause s
  | .ethFrameReceive h e p b fcs cor unc => Sys2Proof.Machine.execEthFrameReceive h e p b fcs cor unc s
  | .ethStreamFrame h e j p b err tsid => Sys2Proof.Machine.execEthStreamFrame h e j p b err tsid s
  | .ethTxEopTimeout h e p => Sys2Proof.Machine.execEthTxEopTimeout h e p s
  | .ethFrameTransmit h e p => Sys2Proof.Machine.execEthFrameTransmit h e p s
  | .txtsRead h e => Sys2Proof.Machine.execTxtsRead h e s
  | .ethClActWrite h e n v => Sys2Proof.Machine.execEthClActWrite h e n v s
  | .padCfgWrite h b n v => Sys2Proof.Machine.execPadCfgWrite h b n v s
  | .own v => Sys2Proof.Machine.execOwn v s
  | .secure v => Sys2Proof.Machine.execSecure v s
  | .returnCmd v => Sys2Proof.Machine.execReturn v s
  | .keyAdd v => Sys2Proof.Machine.execKeyAdd v s
  | .keyRevoke v => Sys2Proof.Machine.execKeyRevoke v s
  | .rbAdvance v => Sys2Proof.Machine.execRbAdvance v s
  | .lcCmdComplete fail => Sys2Proof.Machine.execLcCmdComplete fail s
  | .vpartWrite ix v => Sys2Proof.Machine.execVpartWrite ix v s
  | .vpartZeroDone ix => Sys2Proof.Machine.execVpartZeroDone ix s
  | .vaultWipeDone fail => Sys2Proof.Machine.execVaultWipeDone fail s
  | .tamper => Sys2Proof.Machine.execTamper s
  | .attestStart => Sys2Proof.Machine.execAttestStart s
  | .attestDone => Sys2Proof.Machine.execAttestDone s
  | .mrExtend w v => Sys2Proof.Machine.execMrExtend w v s
  | .rngFail test => Sys2Proof.Machine.execRngFail test s
  | .rngRetry pass => Sys2Proof.Machine.execRngRetry pass s
  | .jtagInstruction op code => Sys2Proof.Machine.execJtagInstruction op code s
  | .vendorUnlock k sig => Sys2Proof.Machine.execVendorUnlock k sig s
  | .clkLoss c frames => Sys2Proof.Machine.execClkLoss c frames s
  | .clkRestored c => Sys2Proof.Machine.execClkRestored c s
  | .hclkPllWrite h ix v => Sys2Proof.Machine.execHclkPllWrite h ix v s
  | .hclkPlloutWrite h ix j v => Sys2Proof.Machine.execHclkPlloutWrite h ix j v s
  | .hclkPadWrite h b k v => Sys2Proof.Machine.execHclkPadWrite h b k v s
  | .hclkLrefWrite h q v => Sys2Proof.Machine.execHclkLrefWrite h q v s
  | .clockModeChange h v => Sys2Proof.Machine.execClockModeChange h v s
  | .tbFreqWrite v => Sys2Proof.Machine.execTbFreqWrite v s
  | .tbStep v => Sys2Proof.Machine.execTbStep v s
  | .tbSet v => Sys2Proof.Machine.execTbSet v s
  | .pwrCmdOn h d => Sys2Proof.Machine.execPwrCmdOn h d s
  | .pwrCmdOff h d => Sys2Proof.Machine.execPwrCmdOff h d s
  | .pwrCmdRetention h d => Sys2Proof.Machine.execPwrCmdRetention h d s
  | .domainPowerUpDone h d => Sys2Proof.Machine.execDomainPowerUpDone h d s
  | .domainPowerDownDone h d => Sys2Proof.Machine.execDomainPowerDownDone h d s
  | .admissionGrant => Sys2Proof.Machine.execAdmissionGrant s
  | .admTimeout ix => Sys2Proof.Machine.execAdmTimeout ix s
  | .pwrLedgerWrite hall v => Sys2Proof.Machine.execPwrLedgerWrite hall v s
  | .thermMeas v => Sys2Proof.Machine.execThermMeas v s
  | .thermalRoutine h => Sys2Proof.Machine.execThermalRoutine h s
  | .measurementDone h x => Sys2Proof.Machine.execMeasurementDone h x s
  | .immediateCut => Sys2Proof.Machine.execImmediateCut s
  | .stopDrainEnd mv => Sys2Proof.Machine.execStopDrainEnd mv s
  | .stopDone => Sys2Proof.Machine.execStopDone s
  | .calRunRequest halls => Sys2Proof.Machine.execCalRunRequest halls s
  | .calSave => Sys2Proof.Machine.execCalSave s
  | .calWatch h => Sys2Proof.Machine.execCalWatch h s
  | .calGroupSweep h g lo hi => Sys2Proof.Machine.execCalGroupSweep h g lo hi s
  | .calGroupIdle h g => Sys2Proof.Machine.execCalGroupIdle h g s
  | .calRunDone h seeds => Sys2Proof.Machine.execCalRunDone h seeds s
  | .bistCmd v mv => Sys2Proof.Machine.execBistCmd v mv s
  | .bistUnitDone fails => Sys2Proof.Machine.execBistUnitDone fails s
  | .bistSupplyCheck mv => Sys2Proof.Machine.execBistSupplyCheck mv s
  | .rdreg c => Sys2Proof.Machine.execRdreg c s
  | .wrreg c => Sys2Proof.Machine.execWrreg c s
  | .evread c => Sys2Proof.Machine.execEvread c s
  | .status => Sys2Proof.Machine.execStatus s
  | .getrsp => Sys2Proof.Machine.execGetrsp s
  | .reload c commit => Sys2Proof.Machine.execReload c commit s
  | .stop c => Sys2Proof.Machine.execStop c s
  | .attest c => Sys2Proof.Machine.execAttest c s
  | .bulkrd c st => Sys2Proof.Machine.execBulkrd c st s
  | .malformedTransaction b => Sys2Proof.Machine.execMalformedTransaction b s
  | .hbmSrExitDone m => Sys2Proof.Machine.execHbmSrExitDone m s
  | .progNRise => Sys2Proof.Machine.execProgNRise s
  | .rstNRise => Sys2Proof.Machine.execRstNRise s
  | .rxRdyRise h e p rdy => Sys2Proof.Machine.execRxRdyRise h e p rdy s
  | .pllRelock h x => Sys2Proof.Machine.execPllRelock h x s
  | .sweepAdmissionRetry m r => Sys2Proof.Machine.execSweepAdmissionRetry m r s
  | .calStartRun => Sys2Proof.Machine.execCalStartRun s
  | .clockBorderRelease G => Sys2Proof.Machine.execClockBorderRelease G s
  | .padSafeExit h b k => Sys2Proof.Machine.execPadSafeExit h b k s
  | .selftestSupplyRecheck mv => Sys2Proof.Machine.execSelftestSupplyRecheck mv s
  | .hotStartMeasure x t => Sys2Proof.Machine.execHotStartMeasure x t s

end Sys2Proof.Machine
end

