-- ==== Sys2Proof/Safety.lean ====
section
/-!
DEFINITION. Safety.lean: the terms that claims about the block use: its invariant, what no command changes, and what can only advance.
-/
namespace Sys2Proof.Machine

/-- The event queue holds at most 256 records, and EVREAD holds only records that are in it (R467, R468). -/
def evOk (q : EventQ) : Prop := q.recs.length ≤ 256 ∧ q.held ≤ q.recs.length

/-- The invariant of the block: memory in its canonical form, the event queue within its size (R467), and at most 64 requests in the
admission queue (R422). -/
structure State.Inv (s : State) : Prop where
  mem : memWf s.mem = true
  ev : evOk s.ev
  adm : s.adm.queue.length ≤ 64

/-- One-time-programmable memory only advances: the life cycle and the anti-rollback counter do not go back, a bit once programmed
stays, and the hash of a programmed key does not change (R378, R379, R382, R386). -/
structure OtpLe (a b : Otp) : Prop where
  lc : a.lc ≤ b.lc
  rb : a.rb ≤ b.rb
  prog : ∀ k, bitOf a.prog k = true → bitOf b.prog k = true
  rev : ∀ k, bitOf a.rev k = true → bitOf b.rev k = true
  spoilt : ∀ k, bitOf a.spoilt k = true → bitOf b.spoilt k = true
  rbSpoilt : ∀ k, bitOf a.rbSpoilt k = true → bitOf b.rbSpoilt k = true
  keys : ∀ k, bitOf a.prog k = true → Sparse.find b.keys k = Sparse.find a.keys k

/-! ## The fields of State that a command may change -/

/-- The fields of State but the part, the commands that wait and simulated time, which no command changes. -/
inductive Field where
  | regs | mem | gals | halls | ev | adm | otp | port | clk | dom | pwrCmd | thermHall | thermStack | thermGood | stop | slots | boot
  | bist | cal | sec | net | reqs | seqNext | seqRec | epochs | istat | corrs | free
  deriving DecidableEq, Repr

/-- A field is the same in both states. -/
def Field.same (x : Field) (s t : State) : Prop :=
  match x with
  | .regs => t.regs = s.regs
  | .mem => t.mem = s.mem ∧ t.memEpoch = s.memEpoch
  | .gals => t.gals = s.gals
  | .halls => t.halls = s.halls
  | .ev => t.ev = s.ev
  | .adm => t.adm = s.adm
  | .otp => t.otp = s.otp
  | .port => t.port = s.port
  | .clk => t.clk = s.clk
  | .dom => t.dom = s.dom
  | .pwrCmd => t.pwrCmd = s.pwrCmd
  | .thermHall => t.thermHall = s.thermHall
  | .thermStack => t.thermStack = s.thermStack
  | .thermGood => t.thermGood = s.thermGood
  | .stop => t.stop = s.stop
  | .slots => t.slots = s.slots
  | .boot => t.boot = s.boot
  | .bist => t.bist = s.bist
  | .cal => t.cal = s.cal
  | .sec => t.sec = s.sec
  | .net => t.net = s.net
  | .reqs => t.reqs = s.reqs
  | .seqNext => t.seqNext = s.seqNext
  | .seqRec => t.seqRec = s.seqRec
  | .epochs => t.epochs = s.epochs
  | .istat => t.istat = s.istat
  | .corrs => t.corrs = s.corrs
  | .free => t.free = s.free

/-- Every field of the first list is in the second. -/
def Field.sub (l m : List Field) : Bool := l.all (fun x => m.contains x)

/-- What every operation of the block keeps: the part itself, the commands that wait, simulated time, what one-time-programmable memory
has taken, the invariant, and every field of State outside the list W. -/
structure State.Keeps (W : List Field) (s t : State) : Prop where
  part : t.part = s.part
  pending : t.pending = s.pending
  now : t.now = s.now
  otp : OtpLe s.otp t.otp
  mem : memWf s.mem = true → memWf t.mem = true
  ev : evOk s.ev → evOk t.ev
  adm : s.adm.queue.length ≤ 64 → t.adm.queue.length ≤ 64
  rest : ∀ x, W.contains x = false → x.same s t

/-! ## Frames: what a command leaves as it was -/

/-- What a command may change: registers by address, bytes of memory (first key and number), galleries, halls, and other fields. -/
structure Foot where
  regs : List Nat := []
  bytes : List (Nat × Nat) := []
  gals : List Nat := []
  halls : List Nat := []
  fields : List Field := []

/-- A key of memory lies among the bytes that a command may store to. -/
def Foot.stores (f : Foot) (k : Nat) : Prop := ∃ r ∈ f.bytes, r.1 ≤ k ∧ k < r.1 + r.2

/-- The fields that a footprint lists one by one: registers, bytes, galleries and halls. -/
def Field.listed : List Field := [.regs, .mem, .gals, .halls]

/-- From s to t nothing changes but what the footprint names: every other register, every other byte of memory, every other gallery and
hall, every other field, and the commands that wait. -/
structure State.Within (f : Foot) (s t : State) : Prop where
  part : t.part = s.part
  pending : t.pending = s.pending
  now : t.now = s.now
  regs : ∀ a, a ∉ f.regs → t.reg a = s.reg a
  bytes : ∀ k, ¬ f.stores k → t.readByte k = s.readByte k
  gals : ∀ G, G ∉ f.gals → t.gal G = s.gal G
  halls : ∀ h, h ∉ f.halls → t.hall h = s.hall h
  rest : ∀ x, (Field.listed ++ f.fields).contains x = false → x.same s t

/-- Registers that raising an event may change: the counts of SYS_EVSTAT (R467). -/
def evRegs : List Nat := [Reg.SYS_EVSTAT]

/-- The event queue has room for a record (R467). -/
def State.evRoom (s : State) : Prop := s.ev.recs.length < 256

/-- The record r has joined the event queue as its newest (R467). -/
def State.Queued (s t : State) (r : EventRec) : Prop := t.ev.recs = s.ev.recs ++ [r]

/-- The packet p has joined those in flight as the newest; its sender has filled in its number, epoch and mesh (R235, R246). -/
def State.Sent (s t : State) (p : Packet) : Prop := ∃ n e m, t.net = s.net ++ [{ p with seq := n, epoch := e, mesh := m }]

/-! ## Packets at their targets -/

/-- A packet as a packet of command c. -/
def asCmd (p : Packet) (c : Nat) : Packet := { p with cmd := BitVec.ofNat 8 c }

/-- The packet has been received: it is no longer in flight, and its number is in the receiver's record (R246). -/
def State.received (s : State) (p : Packet) : State := (s.take p).accept p

/-- The router before the packet's target lets it through (R30, R57, R251, R258): its attachment side is live, a unit lies at its node and
port, and the unit is neither in reset nor asleep. -/
abbrev State.Open (s : State) (p : Packet) : Prop :=
  s.attachDead p = false ∧ s.nobody p.dstHall.toNat p.dstNode.toNat p.dstPort.toNat = false ∧ s.resetTurns p.dstHall.toNat p = none ∧
  (domOfPort p.dstNode.toNat p.dstPort.toNat).all (s.domOn p.dstHall.toNat) = true

/-- Nothing turns the packet away (R236, R245 to R261, R500): its command finds it before its target with none before it in its order, it
is whole and good, its router lets it through, it is no duplicate, and the port takes its command. -/
abbrev State.Clear (s : State) (p : Packet) : Prop :=
  s.reached p = true ∧ s.waitsForBank p = false ∧ p.cut = false ∧ p.hdrBad = false ∧ p.poison = false ∧ p.badUnits = [] ∧ s.Open p ∧
  s.isDup p = false ∧ malformed p = false ∧ portTakes p.dstNode.toNat p.dstPort.toNat p.cmd.toNat = true ∧
  (p.cmd.toNat = 0x12 → s.part.gweak = true)

end Sys2Proof.Machine
end

