-- ==== Sys2Proof/Certificates/Slice0/Obligations.lean ====
section
/-!
DEFINITION. Certificates/Slice0/Obligations.lean: the statements for the provers. Each docstring names the rules of the spec that its statement
formalises, and the log entry where it rests on a choice of the model.
-/
namespace Sys2Proof.Machine

/-- The packet commands of R238 that a target performs, with what each carries: read facts f, check facts e, bytes ov that a prism write of
the same cycle took, and ue. -/
def packetRows (p : Packet) (f : AccFacts) (e : EccFacts) (ov : List Nat) (ue : Bool) : List (Nat × Instr) :=
  [(0x01, .rd p f), (0x02, .wr p f), (0x03, .qpush ⟨p, ov⟩), (0x04, .qpop p e), (0x05, .srd p ue), (0x06, .swr p), (0x10, .msg p),
   (0x11, .enq p), (0x12, .item p), (0x13, .doneMsg p), (0x14, .loadreq p), (0x15, .loadrpt p), (0x16, .xmit p), (0xC0, .mrd p),
   (0xC1, .mwr p)]

/-- A ring offset after n rows: each advances it by one, modulo the ring's size (R181), in the 14 bits that hold it. -/
def ringOff (size n o : Nat) : Nat := (List.replicate n ()).foldl (fun x _ => (x + 1) % max 1 size % 16384) o

/-- What a snapshot shows of an initiator's statistics x (R264): registers and the numbers that they hold. -/
def istatView (h i : Nat) (x : IStat) : List (Nat × Nat) :=
  [(Reg.LENS_IREQ h i, x.req), (Reg.LENS_IUNITS h i, x.units), (Reg.LENS_ILMIN h i, x.lmin), (Reg.LENS_ILMAX h i, x.lmax),
   (Reg.LENS_ILSUM_LO h i, x.lsum), (Reg.LENS_ILSUM_HI h i, x.lsum / 2 ^ 32), (Reg.LENS_IERR h i, x.err)] ++
  (List.range 8).map (fun j => (Reg.LENS_IHIST h i j, Sparse.get x.hist 0 j))

/-- A packet in flight stands at input d of router n of hall h, or is a copy that this router sends again, and has not reached its
target. -/
def standsIn (h n d : Nat) (p : Packet) : Prop :=
  (spotOf p).hall = h ∧ (spotOf p).node = n ∧ ((spotOf p).side = d ∨ (spotOf p).side = 8) ∧ p.landed = false

/-- The commands of the security engine, each with its OP (R379). -/
def lcCmds : List (Nat × (Word → Instr)) := [(1, .own), (2, .secure), (3, .returnCmd), (4, .keyAdd), (5, .keyRevoke), (6, .rbAdvance)]

/-- The word is a command that the security engine takes now (R380): it bears the key and GO, the device runs or is held safe, and no command
runs. -/
def State.lcTaken (s : State) (v : Word) : Prop :=
  fieldOf v Fl.SEC_LC_CMD_KEY = 0xA7 ∧ fieldOf v Fl.SEC_LC_CMD_GO ≠ 0 ∧
    (s.fld Reg.BOOT_STAT Fl.BOOT_STAT_STATE = 6 ∨ s.fld Reg.BOOT_STAT Fl.BOOT_STAT_STATE = 7) ∧
    s.bit Reg.SEC_CMD_STAT Fl.SEC_CMD_STAT_BUSY = false

/-- The challenge that t shows is the one drawn in s (R381). -/
def State.freshChal (s t : State) : Prop :=
  ∀ w : Fin 8, t.reg (Reg.SEC_CHAL w) = BitVec.ofNat 32 ((Config.random s.free).toNat / 2 ^ (32 * w.val))

/-- The galleries of a hall. -/
def hallGals (h : Nat) : List Nat := (List.range 32).map (fun g => 32 * h + g)

/-- The registers of gallery G that change when its clock branches follow their clocks (R97): what the branches show and, where a context
clock begins to run, what waits for its edge: the context source and Gweak's servers (R122, R223). -/
def branchRegs (G : Nat) : List Nat :=
  [Reg.GAL_CLKSTAT G, Reg.GAL_CTX_CFG G, Reg.GAL_CTX_STAT G, Reg.GWK_TRACE_PTR (G / 32)] ++
    (List.range 4).map (fun p => Reg.GWK_SRV (G / 32) (4 * (G % 32) + p)) ++ evRegs

/-- What else it changes: the gallery, Gweak's state, and what a trace record or an event takes. -/
def branchFields : List Field := [.ev, .net, .reqs, .seqNext, .free]

/-- The frame of a command that changes the registers rs, and after which the galleries of hall h follow their clocks. -/
def hallFoot (h : Nat) (rs : List Nat) (fs : List Field) : Foot :=
  { regs := rs ++ (hallGals h).flatMap branchRegs, gals := hallGals h, halls := [h], fields := fs ++ branchFields }

/-- The power commands, each with the state it names (R417, R418). -/
def pwrCmds : List (Nat × (HallIx → Fin 128 → Instr)) := [(2, .pwrCmdOn), (0, .pwrCmdOff), (1, .pwrCmdRetention)]

/-- The request r of cost c leaves the queue, and its cost is held (R422). -/
def State.granting (s t : State) (r : AdmReq) (c : Nat) : Prop :=
  t.adm.queue = s.adm.queue.erase r ∧ t.adm.held = s.adm.held ++ [⟨r.kind, r.hall, r.who, c⟩]

/-- The readings of VCC_CORE as the voltage monitors show them (R448): none outside its range. -/
def railsOk (mv : List (Fin 4096)) : Bool := (List.range 4).all (fun c => vccOk (((mv.map (·.val))).getD c 0))

/-- The command transactions of the port, each with its OP and whether it carries data (R457, R458). -/
def portCmds : List (Nat × Bool × (PortCmd → Instr)) := [(1, false, .rdreg), (2, true, .wrreg), (4, false, .evread),
  (8, false, fun c => .reload c false), (9, false, .stop), (10, true, .attest), (12, false, fun c => .bulkrd c 0)]

end Sys2Proof.Machine

open Sys2Proof Sys2Proof.Machine

/-- The command at the front of the queue runs on the rest: a step with c in front is exec of c on the state without it. -/
def Obligations.StepRunsFront : Prop :=
  ∀ (c : Instr) (s : State), step { s with pending := c :: s.pending } = exec c s

/-- On an empty queue the block idles for a nanosecond (the model's choice, log 2): simulated time advances by one and nothing but the
clock units changes; the time base advances by 65536 units of 2^-16 ns where the frequency offset is 0 and REFCLK is not lost. -/
def Obligations.IdleStep : Prop :=
  ∀ s : State, s.pending = [] → ∃ t, step s = .next t ∧ t.now = s.now + 1 ∧ { t with now := s.now, clk := s.clk } = s ∧
    (s.fld Reg.CLK_STAT Fl.CLK_STAT_TB_HELD = 1 → t.clk = s.clk) ∧
    (s.fld Reg.CLK_STAT Fl.CLK_STAT_TB_HELD = 0 → s.reg Reg.CLK_TB_FREQ = 0 → 0 ≤ s.clk.acc → s.clk.acc < 1000000000 →
      t.clk = { s.clk with tb := s.clk.tb + 65536 })

/-- State.reset: every register at its reset value, no event queued, nothing stored, one-time-programmable memory BLANK (the model's
choice, log 3), the part in power-on reset with no command waiting. -/
def Obligations.ResetState : Prop :=
  (∀ a, State.reset.reg a = resetWord a) ∧ State.reset.ev.recs = [] ∧ State.reset.mem = [] ∧ State.reset.otp.lc = 0 ∧
    State.reset.boot.phase = .off ∧ State.reset.port.live = false ∧ State.reset.pending = [] ∧
    (∀ k, 2 ^ 48 ≤ k → State.reset.readByte k = 0xFF) ∧
    (∀ k, vaultBase ≤ k → k < vaultBase + 0x40000 → State.reset.readByte k = 0)

/-- The invariant holds after reset. -/
def Obligations.ResetInvariant : Prop := State.reset.Inv

/-- Every step keeps the invariant: memory in its canonical form, the event queue within its 256 records (R467), the admission queue
within 64 requests (R422). -/
def Obligations.StepKeepsInvariant : Prop := ∀ s t : State, s.Inv → step s = .next t → t.Inv

/-- One-time-programmable memory only advances, whatever step is taken: the life cycle and the counter do not go back, programmed,
revoked and spoilt bits stay, and the key hash of a programmed slot does not change. -/
def Obligations.OtpOnlyAdvances : Prop := ∀ s t : State, step s = .next t → OtpLe s.otp t.otp

/-- No command changes the part, simulated time or the commands that wait behind it; every one ends in a next state. -/
def Obligations.CommandsEnd : Prop :=
  ∀ (c : Instr) (s : State), ∃ t, exec c s = .next t ∧ t.part = s.part ∧ t.now = s.now ∧ t.pending = s.pending

/-- POWER_ON in power-on reset begins the start delay (R405, R481), and START_DELAY_END with RST_N held low only records that the delay
is over (R479). -/
def Obligations.PowerOnBeginsDelay : Prop :=
  (∀ (s : State) (d : Fin 4) (ref : Bool) (l : BitVec 32), s.boot.phase = .off →
    ∃ t, exec (.powerOn d ref l) s = .next t ∧ t.boot.phase = .delay ∧ t.boot.kind = 0 ∧ t.clk.oscdly = d.val ∧ t.clk.ref = ref ∧
      t.fld Reg.CLK_STAT Fl.CLK_STAT_REF_OK = b2n ref ∧
      State.Within { regs := Reg.CLK_STAT :: (List.range 8).map Reg.HCLK_STAT, fields := [.clk, .boot] } s t) ∧
  (∀ s : State, s.boot.phase = .delay → s.boot.delayOver = false → s.boot.rstLow = true →
    exec .startDelayEnd s = .next { s with boot := { s.boot with delayOver := true } })

/-- Start-up begins at the later of the end of the start delay and the rising edge of RST_N (R479): both commands then take step 1 of a
start, after which the management port is live, flash discovery is next (or, after an immediate cut, the wait of R433), BOOT_STAT.STATE
is 0 and SYS_RSTINFO.CAUSE names the reset kind. Nothing spoilt by the reset is left to report (R382, log 32). -/
def Obligations.StartUpBegins : Prop :=
  ∀ (s : State) (c : Instr), s.boot.phase = .delay →
    (c = .startDelayEnd ∧ s.boot.delayOver = false ∧ s.boot.rstLow = false) ∨
      (c = .rstNRise ∧ s.boot.delayOver = true ∧ s.boot.rstLow = true) →
    ∃ t, exec c s = .next t ∧ t.boot.phase = (if s.stop.hotStart then .hot else .discover) ∧ t.boot.delayOver = true ∧
      t.boot.rstLow = false ∧ t.port.live = true ∧ t.fld Reg.BOOT_STAT Fl.BOOT_STAT_STATE = 0 ∧
      t.fld Reg.SYS_RSTINFO Fl.SYS_RSTINFO_CAUSE = s.boot.kind % 8 ∧ t.fld Reg.SYS_RSTINFO Fl.SYS_RSTINFO_WARMS = 0 ∧
      (s.boot.kind = 0 → s.vaultState ≠ 3 → t.sec.wipe = some 0 ∧ t.vaultState = 1) ∧ t.sec.spoilt = none ∧
      s.Keeps [.regs, .mem, .ev, .port, .dom, .boot, .bist, .sec, .free] t

/-- SUPPLY_FALL in any state enters power-on reset (R483): every register at its reset value, HBM, gallery memory and vault lost, flash
kept, no stop, no command and no packet left; without an OTP command in progress the OTP does not change. What the loss of power spoilt is kept for
the next start to report. -/
def Obligations.SupplyFall : Prop :=
  ∀ (s : State) (spoil : Option (Fin 3 × Fin 128)), ∃ t, exec (.supplyFall spoil) s = .next t ∧ (∀ a, t.reg a = resetWord a) ∧
    (∀ k, k < 2 ^ 48 → t.memByte k = unlistedByte k) ∧ (∀ k, 2 ^ 48 ≤ k → t.memByte k = s.memByte k) ∧ t.stop = {} ∧ t.net = [] ∧
    t.ev.recs = [] ∧ t.boot.phase = .off ∧ t.boot.rstLow = s.boot.rstLow ∧ t.boot.progLow = s.boot.progLow ∧ t.gals = [] ∧ t.halls = [] ∧
    t.port.live = false ∧ t.port.busy = none ∧ t.sec.cmd = none ∧ t.pwrCmd = none ∧
    t.sec.spoilt = s.spoilMet (spoilNat spoil) ∧ OtpLe s.otp t.otp ∧ (s.sec.cmd = none → t.otp = s.otp)

/-- RST_N after a start has begun (R361, R470, R479): the part is held in reset; the vault's state, partitions, latch and bytes, flash
and the OTP are kept, and every other register but the clock status returns to its reset value. What the reset spoilt is kept for the next start to
report. -/
def Obligations.RstNResets : Prop :=
  ∀ (s : State) (spoil : Option (Fin 3 × Fin 128)), s.boot.phase ≠ .off → s.boot.phase ≠ .delay →
    ∃ t, exec (.rstN spoil) s = .next t ∧
      (∀ a, rstKeeps a = true → t.reg a = s.reg a) ∧
      (∀ a, rstKeeps a = false → a ≠ Reg.CLK_STAT → a ∉ (List.range 8).map Reg.HCLK_STAT → t.reg a = resetWord a) ∧
      (∀ k, rstKeepsByte k = true → t.memByte k = s.memByte k) ∧ (∀ k, rstKeepsByte k = false → t.memByte k = unlistedByte k) ∧
      t.boot.phase = .delay ∧ t.boot.kind = 1 ∧ t.boot.rstLow = true ∧ t.ev.recs = [] ∧ t.port.live = false ∧ t.gals = [] ∧ t.halls = [] ∧
      t.sec.wipe = s.sec.wipe ∧ t.sec.spoilt = s.spoilMet (spoilNat spoil) ∧ t.clk.oscdly = s.clk.oscdly ∧ (s.sec.cmd = none → t.otp = s.otp)

/-- PROG_N and its rising edge (R360): the warm part of a reconfiguration ends with the part waiting for PROG_N high, its reset kind 2;
the rising edge starts the load from flash discovery. PROG_N before a start only holds its level. -/
def Obligations.WarmReconfiguration : Prop :=
  (∀ (s : State) (commit : Bool) (run : Option (Byte × Byte)), s.boot.phase ≠ .off → s.boot.phase ≠ .delay → s.stop.cut = false →
    ∃ t, exec (.progN commit run) s = .next t ∧ t.boot.phase = .warm ∧ t.boot.kind = 2 ∧
      t.fld Reg.BOOT_STAT Fl.BOOT_STAT_STATE = 8 ∧ t.fld Reg.SYS_RSTINFO Fl.SYS_RSTINFO_CAUSE = 2 ∧ t.net = [] ∧ t.reqs = [] ∧
      t.port.busy = none ∧ OtpLe s.otp t.otp) ∧
  (∀ (s : State) (commit : Bool) (run : Option (Byte × Byte)), s.boot.phase = .off ∨ s.boot.phase = .delay →
    exec (.progN commit run) s = .next { s with boot := { s.boot with progLow := true } }) ∧
  (∀ s : State, s.boot.phase = .warm → ∃ t, exec .progNRise s = .next t ∧ t.boot.progLow = false ∧
    t.boot.phase = (if s.stop.hotStart then .hot else .discover) ∧ t.fld Reg.BOOT_STAT Fl.BOOT_STAT_STATE = 1 ∧
    s.Keeps [.regs, .ev, .boot, .bist, .sec, .free] t) ∧
  (∀ s : State, s.boot.phase ≠ .warm → exec .progNRise s = .next { s with boot := { s.boot with progLow := false } })

/-- How the fields of a register take a written word (R16, R18): RW takes the written field unless its encoding is reserved, and then keeps the
old one; W1C clears and W1S sets the bits written 1; RO, RC and WO keep the stored field. The fields of every register lie apart, and of a whole
write each field takes its own effect, whatever becomes of the others. -/
def Obligations.FieldAccessCodes : Prop :=
  (∀ (v old : Word) (f : FldRow), f.lo + f.width ≤ 32 →
    (f.acc = .rw → rowReserved f (fieldOf v (rowFld f)) = false → fieldOf (applyField v old f) (rowFld f) = fieldOf v (rowFld f)) ∧
    (f.acc = .rw → rowReserved f (fieldOf v (rowFld f)) = true → applyField v old f = old) ∧
    (f.acc = .w1s → fieldOf (applyField v old f) (rowFld f) = fieldOf old (rowFld f) ||| fieldOf v (rowFld f)) ∧
    (f.acc = .w1c → ∀ i, i < f.width → (fieldOf (applyField v old f) (rowFld f)).testBit i =
      ((fieldOf old (rowFld f)).testBit i && !(fieldOf v (rowFld f)).testBit i)) ∧
    (f.acc = .ro ∨ f.acc = .rc ∨ f.acc = .wo → applyField v old f = old)) ∧
  (∀ (a : Nat) (l : Loc) (r : RegRow) (ix : List Nat), regAt a = some (l, r, ix) → (∀ f ∈ r.flds, f.lo + f.width ≤ 32) ∧
    r.flds.Pairwise (fun f g => f.lo + f.width ≤ g.lo ∨ g.lo + g.width ≤ f.lo) ∧
    ∀ (s : State) (v : Word), ∀ f ∈ r.flds,
      fieldOf ((s.writeFields a v).reg a) (rowFld f) = fieldOf (applyField v (s.reg a) f) (rowFld f))

/-- Management registers are accessed as whole words, and address bits 1:0 are ignored (R35): two addresses of one word are written and read
alike. REGISTER_WRITE to a register of the LENS, OMIST, THERM or CAL blocks whose write does no more than set fields: its word becomes the old one
with every field taking the write by its access code, and nothing else changes. -/
def Obligations.RegisterWriteSetsFields : Prop :=
  (∀ (s : State) (a v : Word) (l : Loc) (r : RegRow) (ix : List Nat), s.regGo (a.toNat / 4 * 4) = .at l r ix →
    (l.block = .lens ∧ r.off ≠ 1028 ∧ r.off ≠ 1032) ∨ (l.block = .omist ∧ r.off ≠ 40) ∨ (l.block = .therm ∧ r.off ≠ 8) ∨
      (l.block = .cal ∧ r.off ≠ 4) →
    ∃ t, exec (.registerWrite .host a v) s = .next t ∧
      t = s.setReg (a.toNat / 4 * 4) (r.flds.foldl (applyField v) (s.reg (a.toNat / 4 * 4))) ∧
      t.reg (a.toNat / 4 * 4) = r.flds.foldl (applyField v) (s.reg (a.toNat / 4 * 4)) ∧
      State.Within { regs := [a.toNat / 4 * 4] } s t) ∧
  (∀ (s : State) (a b v : Word) (w : Writer), a.toNat / 4 = b.toNat / 4 → exec (.registerWrite w a v) s = exec (.registerWrite w b v) s ∧
    s.readReg a.toNat = s.readReg b.toNat)

/-- REGISTER_WRITE of an unmapped address is ignored and raises UNMAPPED_ACCESS with the address, a set bit 32 for the write, and the hall whose
block contains it, or 0xF (R34); within the limit of 16 queued records of R7, and with room in the queue. A write of the design that R498 does not
allow has no effect. -/
def Obligations.RegisterWritesTurnedAway : Prop :=
  (∀ (s : State) (a v : Word) (w : Writer), s.regGo (a.toNat / 4 * 4) = .unmapped → accessRecords s.ev.recs < 16 → s.evRoom →
    ∃ t, exec (.registerWrite w a v) s = .next t ∧
      State.Queued s t (s.record Ev.UNMAPPED_ACCESS (hallOfAddr (a.toNat / 4 * 4)) 63 (packArgs [(32, a.toNat / 4 * 4), (1, 1)])) ∧
      State.Within { fields := [.ev] } s t) ∧
  (∀ (s : State) (a v : Word) (h n : Nat) (l : Loc) (r : RegRow) (ix : List Nat), s.regGo (a.toNat / 4 * 4) = .at l r ix →
    designMay (.design h n) l r.off v = false → exec (.registerWrite (.design h n) a v) s = .next s)

/-- Temperature readings. They are begun by THERM_MEAS for every hall written 1 and by THERMAL_ROUTINE unless PERIOD is 0 (R424), and by
CAL_WATCH where AUTO is 1 and the hall has no reading or one older than WATCH × 100 ms (R441). MEASUREMENT_DONE of a hall that is converting, where
no threshold, trigger or calibration follows from it (R425 to R428): every sensor takes its reading and is valid, BUSY is cleared, H is the greatest
effective temperature, and the readings' history gains it. HBM_TEMP_READ while the memory port is powered, for a stack below 80 °C with no warning,
throttle, trigger or calibration due: the reading and its refresh multiple stand in HBM_TEMP and THERM_HBM (R279), and a changed multiple raises
HBM_REFRESH_RATE. -/
def Obligations.Temperatures : Prop :=
  ((∀ (s : State) (v : Word), ∃ t, exec (.thermMeas v) s = .next t ∧
    (∀ h ∈ hallsOf (fieldOf v Fl.THERM_MEAS_HALLS), t.fld (Reg.THERM_HALL h) Fl.THERM_HALL_BUSY = 1) ∧
    State.Within { regs := (hallsOf (fieldOf v Fl.THERM_MEAS_HALLS)).map Reg.THERM_HALL } s t) ∧
  (∀ (s : State) (h : HallIx), exec (.thermalRoutine h) s = .next
    (if s.fld Reg.THERM_CFG Fl.THERM_CFG_PERIOD = 0 then s else s.setFld (Reg.THERM_HALL h) Fl.THERM_HALL_BUSY 1)) ∧
  (∀ (s : State) (h : HallIx), s.fld Reg.CAL_CFG Fl.CAL_CFG_AUTO = 0 → exec (.calWatch h) s = .next s) ∧
  (∀ (s : State) (h : HallIx), s.fld Reg.CAL_CFG Fl.CAL_CFG_AUTO ≠ 0 →
    (∀ p, (Sparse.get s.thermHall {} h).pts.head? = some p → p.1 + s.fld Reg.CAL_CFG Fl.CAL_CFG_WATCH * 100 * ms < s.now) →
    exec (.calWatch h) s = .next (s.setFld (Reg.THERM_HALL h) Fl.THERM_HALL_BUSY 1))) ∧
  (∀ (s : State) (h : HallIx) (x : List (BitVec 10)), x.length = 32 → s.fld (Reg.THERM_HALL h) Fl.THERM_HALL_BUSY ≠ 0 →
    s.fld (Reg.THERM_HALL h) Fl.THERM_HALL_WARN = 0 → s.fld (Reg.THERM_HALL h) Fl.THERM_HALL_THROTTLE = 0 →
    s.fld (Reg.HCLK_DIV h) Fl.HCLK_DIV_DIV = 0 → s.fld Reg.CAL_CFG Fl.CAL_CFG_AUTO = 0 →
    (s.sensorsRead h (x.map (·.toInt))).hallTemp h < 380 → (s.sensorsRead h (x.map (·.toInt))).hallTrips h = false →
    ∃ t, exec (.measurementDone h x) s = .next t ∧ t.fld (Reg.THERM_HALL h) Fl.THERM_HALL_BUSY = 0 ∧
      (∀ j, j < 32 → t.fld (Reg.THERM_T h j) Fl.THERM_T_RAW = unsignedOf 10 (x.getD j 0).toInt ∧
        t.fld (Reg.THERM_T h j) Fl.THERM_T_VALID = 1) ∧
      t.hallTemp h = (s.sensorsRead h (x.map (·.toInt))).hallTemp h ∧
      t.thermHall = Sparse.put s.thermHall h ⟨pushPt (Sparse.get s.thermHall {} h).pts s.now (t.hallTemp h)⟩ ∧
      State.Within { regs := Reg.SYS_EVSTAT :: Reg.THERM_HALL h :: Reg.HCLK_DIV h :: (List.range 32).map (Reg.THERM_T h),
                     fields := [.ev, .adm, .thermHall, .thermGood, .free] } s t) ∧
  (∀ (s : State) (m : StackIx) (c : Fin 256) (mult : Fin 3), s.domOn (hallOfStack m) 71 = true → c.val < 80 → s.evRoom →
    s.fld (Reg.THERM_HBM m) Fl.THERM_HBM_WARN = 0 → s.fld (Reg.THERM_HBM m) Fl.THERM_HBM_THROTTLE = 0 →
    s.fld Reg.CAL_CFG Fl.CAL_CFG_AUTO = 0 →
    tpWithin (pushPt (Sparse.get s.thermStack {} m).pts s.now (4 * (c.val : Int))) 380 (s.fld Reg.THERM_CFG Fl.THERM_CFG_STOP_LEAD) = false →
    ∃ t, exec (.hbmTempRead m c mult) s = .next t ∧ t.fld (Reg.HBM_TEMP (hallOfStack m)) Fl.HBM_TEMP_TEMP = c ∧
      t.fld (Reg.HBM_TEMP (hallOfStack m)) Fl.HBM_TEMP_REFMULT = mult ∧ t.fld (Reg.THERM_HBM m) Fl.THERM_HBM_TEMP = c ∧
      t.ev.recs = s.ev.recs ++ (if s.fld (Reg.HBM_TEMP (hallOfStack m)) Fl.HBM_TEMP_REFMULT = mult.val then []
        else [s.record Ev.HBM_REFRESH_RATE (hallOfStack m) 63 (packArgs [(2, mult), (8, c)])]) ∧
      State.Within { regs := [Reg.SYS_EVSTAT, Reg.HBM_TEMP (hallOfStack m), Reg.THERM_HBM m], fields := [.ev, .thermStack] } s t)

/-- The orderly stop (R434, R435): STOP_N begins it while the device runs, before release makes the state STOPPED, and otherwise does
nothing; STOP_DRAIN_END goes on from step 2 to step 4, or to step 3 of a thermal stop; STOP_DONE ends step 4 in state STOPPED with
STOP_DONE. -/
def Obligations.OrderlyStop : Prop :=
  (∀ s : State, s.stopMay = false → exec .stopN s = .next s) ∧
  (∀ s : State, s.stopMay = true → s.donePin = true → ∃ t, exec .stopN s = .next t ∧ t.stop = { s.stop with step := 2, cause := 0, t0 := s.now } ∧
    s.Keeps [.regs, .mem, .gals, .halls, .ev, .adm, .dom, .pwrCmd, .stop, .boot, .bist, .net, .reqs, .seqNext, .free] t) ∧
  (∀ s : State, s.stopMay = true → s.donePin = false → ∃ t, exec .stopN s = .next t ∧ t.boot.phase = .done ∧
    t.fld Reg.BOOT_STAT Fl.BOOT_STAT_STATE = 9 ∧ t.stop = s.stop) ∧
  (∀ (s : State) (mv : List (Fin 4096)), s.stop.step ≠ 2 → exec (.stopDrainEnd mv) s = .next s) ∧
  (∀ (s : State) (mv : List (Fin 4096)), s.stop.step = 2 → ∃ t, exec (.stopDrainEnd mv) s = .next t ∧
    t.stop = { s.stop with step := if s.stop.thermal.isSome then 3 else 4 }) ∧
  (∀ s : State, s.stop.step = 4 → s.bist.run = none → s.boot.recs = [] → s.evRoom → ∃ t, exec .stopDone s = .next t ∧
    t.stop = { s.stop with step := 0 } ∧ t.boot = { s.boot with phase := .done, runs := false } ∧
    t.fld Reg.BOOT_STAT Fl.BOOT_STAT_STATE = 9 ∧
    State.Queued s t (s.record Ev.STOP_DONE 15 63 (packArgs [(16, min ((s.now - s.stop.t0) / ms) 0xFFFF)])) ∧
    State.Within { regs := [Reg.BOOT_STAT, Reg.SYS_EVSTAT], fields := [.stop, .boot, .ev] } s t)

/-- IMMEDIATE_CUT during a thermal stop (R432): no stop step remains, the cut holds, BOOT_STAT.STATE is SAFE_HOLD and no admission
waits; without a thermal stop, or once cut, it does nothing. -/
def Obligations.ImmediateCut : Prop :=
  (∀ s : State, s.stop.thermal.isSome = true → s.stop.cut = false → ∃ t, exec .immediateCut s = .next t ∧ t.stop.cut = true ∧
    t.stop.step = 0 ∧ t.stop.thermal = none ∧ t.fld Reg.BOOT_STAT Fl.BOOT_STAT_STATE = 7 ∧ t.adm.queue = [] ∧ t.adm.again = [] ∧
    s.Keeps [.regs, .mem, .gals, .halls, .ev, .adm, .clk, .dom, .pwrCmd, .stop, .boot, .bist, .net, .reqs, .seqNext, .free] t) ∧
  (∀ s : State, s.stop.thermal = none ∨ s.stop.cut = true → exec .immediateCut s = .next s)

/-- Calibration. LAND_CODE_STEP moves the applied delay one code toward CODE; a sweep of a landing group in a run whose centre lies within 0 to 63 and
whose margin is not low sets CODE to the centre, rounded toward the old code, unless HOLD is 1; CAL_GROUP_IDLE keeps the group's code and MARGIN and
counts it; with no run in progress neither has an effect (R46, R437, R438). A request begins a run of every named hall that runs normally and has
none, and shows it in RUNNING; CAL_START_RUN does so for all eight halls while the device runs; CAL_SAVE asks for a calibration record, and is
ignored with SAVE_RESULT 3 while one is being written (R440, R443). CAL_RUN_DONE of a run that is neither repeated nor the last start run: T_CAL
takes the temperature of the reading at the run's start, RUNS counts it, CAL_RUN_DONE is raised, and the hall has no run (R439, R440). -/
def Obligations.Calibration : Prop :=
  ((∀ (s : State) (h : HallIx) (n : Fin 192), ∃ t, exec (.landCodeStep h n) s = .next t ∧
    t.landApplied h n = (if s.landApplied h n < s.fld (Reg.LAND h n) Fl.LAND_CODE then s.landApplied h n + 1
      else if s.fld (Reg.LAND h n) Fl.LAND_CODE < s.landApplied h n then s.landApplied h n - 1 else s.landApplied h n) ∧
    State.Within { halls := [h.val] } s t) ∧
  (∀ (s : State) (h : HallIx) (n : Fin 192) (lo hi : Int) (r : CalRun), s.calRun h = some r → (s.hall h).landLow.contains n.val = false →
    s.fld (Reg.LAND_CFG h) Fl.LAND_CFG_MARGIN_MIN ≤ clipCode (hi - lo - 1) →
    0 ≤ centreOf lo hi (s.fld (Reg.LAND h n) Fl.LAND_CODE) → centreOf lo hi (s.fld (Reg.LAND h n) Fl.LAND_CODE) ≤ 63 →
    ∃ t, exec (.calGroupSweep h (.land n) lo hi) s = .next t ∧ t.fld (Reg.LAND h n) Fl.LAND_MARGIN = clipCode (hi - lo - 1) ∧
      t.fld (Reg.LAND h n) Fl.LAND_CODE = (if s.fld (Reg.LAND h n) Fl.LAND_HOLD = 0
        then (centreOf lo hi (s.fld (Reg.LAND h n) Fl.LAND_CODE)).toNat else s.fld (Reg.LAND h n) Fl.LAND_CODE) ∧
      State.Within { regs := [Reg.LAND h n], halls := [h.val], fields := [.cal] } s t) ∧
  (∀ (s : State) (h : HallIx) (g : CalGroup) (r : CalRun), s.calRun h = some r →
    ∃ t, exec (.calGroupIdle h g) s = .next t ∧ t.calRun h = some { r with swept := true, idle := r.idle + 1 } ∧
      State.Within { fields := [.cal] } s t) ∧
  (∀ (s : State) (h : HallIx) (g : CalGroup) (lo hi : Int), s.calRun h = none →
    exec (.calGroupIdle h g) s = .next s ∧ exec (.calGroupSweep h g lo hi) s = .next s)) ∧
  ((∀ (s : State) (halls : Fin 256), s.running = true → (∀ h, h < 8 → s.calRun h = none ∧ s.inFrst h = false) →
    ∃ t, exec (.calRunRequest halls) s = .next t ∧
      (∀ h, h < 8 → bitOf halls h = true → t.calRun h ≠ none ∧ bitOf (t.fld Reg.CAL_STAT Fl.CAL_STAT_RUNNING) h = true) ∧
      State.Within { regs := [Reg.CAL_STAT], fields := [.cal] } s t) ∧
  (∀ s : State, s.running = true → (∀ h, h < 8 → s.calRun h = none ∧ s.inFrst h = false) →
    ∃ t, exec .calStartRun s = .next t ∧ t.cal.startLeft = 0xFF ∧
      (∀ h, h < 8 → t.calRun h ≠ none ∧ bitOf (t.fld Reg.CAL_STAT Fl.CAL_STAT_RUNNING) h = true) ∧
      State.Within { regs := [Reg.CAL_STAT], fields := [.cal] } s t) ∧
  (∀ s : State, s.running = false → exec .calStartRun s = .next s) ∧
  (∀ s : State, s.fld Reg.CAL_STAT Fl.CAL_STAT_SAVING = 0 → ∃ t, exec .calSave s = .next t ∧ t.fld Reg.CAL_STAT Fl.CAL_STAT_SAVING = 1 ∧
    (∃ r, t.boot = { s.boot with recs := s.boot.recs ++ [r] } ∧ r.typ = 2) ∧ State.Within { regs := [Reg.CAL_STAT], fields := [.boot] } s t) ∧
  (∀ s : State, s.fld Reg.CAL_STAT Fl.CAL_STAT_SAVING ≠ 0 → exec .calSave s = .next (s.setFld Reg.CAL_STAT Fl.CAL_STAT_SAVE_RESULT 3))) ∧
  ((∀ (s : State) (h : HallIx) (seeds : List (LaneIx × BitVec 88)) (r : CalRun), s.calRun h = some r → r.again = false →
    bitOf s.cal.startLeft h = false → s.evRoom →
    ∃ t, exec (.calRunDone h seeds) s = .next t ∧ t.calRun h = none ∧
      t.fld (Reg.CAL_HTEMP h) Fl.CAL_HTEMP_T_CAL = r.temp % 1024 ∧
      t.fld (Reg.CAL_HTEMP h) Fl.CAL_HTEMP_RUNS = min (s.fld (Reg.CAL_HTEMP h) Fl.CAL_HTEMP_RUNS + 1) 0xFFFF ∧
      State.Queued s t (s.record Ev.CAL_RUN_DONE h 63 (packArgs [(8, min r.moved 255), (8, min r.idle 255)])) ∧
      s.Keeps [.regs, .ev, .boot, .cal, .free] t) ∧
  (∀ (s : State) (h : HallIx) (seeds : List (LaneIx × BitVec 88)), s.calRun h = none → exec (.calRunDone h seeds) s = .next s))

/-- Start-up before the frames (R339, R343, R355, R374, R388, R406, R433), in the start's own phases. Discovery of two good devices with
one table shows their size and leads to the image checks; any other outcome shows no size and ends in safe hold. An image that passes the
checks is measured into MR_0 and MR_1, and a power-on or RST_N start goes on to the record scan; one that fails leads from the primary to
the golden image, and from that to safe hold. The scan begins the start-up self-test where the supply and REFCLK permit it, on units 3
and 4 on the quick path and on all six otherwise. Step 8 with REFCLK present starts the PLLs and begins the boot phase. A start held hot
goes on once nothing is too hot, and waits on otherwise. -/
def Obligations.StartUpBeforeFrames : Prop :=
  (∀ (s : State) (size : Fin 5), s.boot.phase = .discover → ∃ t, exec (.flashDiscovery true true true true size) s = .next t ∧
    t.boot = { s.boot with phase := .check, golden := false } ∧ t.fld Reg.BOOT_STAT Fl.BOOT_STAT_STATE = 2 ∧
    t.reg Reg.BOOT_FLASH = BitVec.ofNat 32 (26 + size + 7 * 2 ^ 8) ∧
    State.Within { regs := [Reg.BOOT_FLASH, Reg.BOOT_STAT], fields := [.boot] } s t) ∧
  (∀ (s : State) (dev0 dev1 same good : Bool) (size : Fin 5), s.boot.phase = .discover → (dev0 && dev1 && same && good) = false →
    ∃ t, exec (.flashDiscovery dev0 dev1 same good size) s = .next t ∧ t.boot.phase = .done ∧ t.boot.runs = false ∧
      t.fld Reg.BOOT_STAT Fl.BOOT_STAT_STATE = 7) ∧
  (∀ (s : State) (mv : List (Fin 4096)), s.boot.phase = .check → s.boot.passed8 = false → s.boot.kind < 2 →
    ∃ t, exec (.imageCheck mv) s = .next t ∧
      ((s.imageCheck (if s.boot.golden then s.flashSize / 2 else 0) s.boot.golden).1 = 0 →
        t.boot = { s.boot with phase := .scan, runs := true, img := (s.imageCheck (if s.boot.golden then s.flashSize / 2 else 0) s.boot.golden).2 } ∧
        t.sec = (s.measureImage (s.imageCheck (if s.boot.golden then s.flashSize / 2 else 0) s.boot.golden).2).sec ∧
        t.fld Reg.BOOT_STAT Fl.BOOT_STAT_SOURCE = (if s.boot.golden then 2 else 1) ∧
        State.Within { regs := [Reg.BOOT_STAT], fields := [.boot, .sec] } s t) ∧
      ((s.imageCheck (if s.boot.golden then s.flashSize / 2 else 0) s.boot.golden).1 ≠ 0 → t.boot.runs = false ∧
        t.boot.phase = (if s.boot.golden then .done else .check) ∧ t.boot.golden = true ∧
        t.fld Reg.BOOT_STAT Fl.BOOT_STAT_STATE = (if s.boot.golden then 7 else 2))) ∧
  (∀ (s : State) (mv : List (Fin 4096)), s.boot.phase = .scan → s.fld Reg.CLK_STAT Fl.CLK_STAT_REF_OK = 1 →
    (∀ c, c < 4 → vccOk (mv.getD c 0) = true) → ∃ t, exec (.recordScan mv) s = .next t ∧ t.boot.phase = .selftest ∧
    t.bist.run = some ⟨if s.pathReason = 0 then [3, 4] else [0, 1, 2, 3, 4, 5], 0xFF, false, 0, true, false, false, none, none⟩ ∧ t.bist.log = [] ∧
    s.Keeps [.regs, .mem, .gals, .halls, .ev, .adm, .clk, .boot, .bist, .net, .reqs, .seqNext, .free] t) ∧
  (∀ (s : State) (sweeps : List (HallIx × CalGroup × Int × Int)), s.boot.phase = .pll → s.clk.ref = true →
    ∃ t, exec (.fabricPllLock sweeps) s = .next t ∧ t.boot = { s.boot with phase := .load, passed8 := true, next := 1 } ∧
      t.clk.pllOn = true ∧ t.fld Reg.BOOT_STAT Fl.BOOT_STAT_STATE = 4 ∧
      s.Keeps [.regs, .mem, .gals, .halls, .ev, .adm, .clk, .dom, .pwrCmd, .boot, .bist, .cal, .net, .reqs, .seqNext, .free] t) ∧
  (∀ (s : State) (x : List (List (BitVec 10))) (r : List (Fin 256 × Fin 3)), s.boot.phase = .hot →
    ∃ t, exec (.hotStartMeasure x r) s = .next t ∧ t.otp = s.otp ∧ t.sec = s.sec ∧
      match (s.hotReadings (x.map (fun l => l.map (·.toInt))) (r.map (fun a => (a.1.val, a.2.val)))).tooHot with
      | none => t.boot = { s.boot with phase := .discover } ∧ t.stop.hotStart = false ∧ t.stop.hotRaised = false
      | some _ => t.boot = s.boot ∧ t.stop.hotRaised = true)

/-- Sections, release and the end of a start (R344, R353, R357, R359, R388). SECTION_READ of the boot phase: a section of no other type
whose digest matches is passed over; a CONFIG section whose digest matches is measured into MR_2 and its records are applied as writes of
host software, and the next section follows; a CATALOGUE whose digest matches gives the image its digests; a section that passes is
followed by the next one; one that fails ends the image, which leads from the primary to the golden image, and from that to safe hold.
RELEASE, once no section of the boot phase is left: steps 1 and 2 start the gallery clocks and hold the borders of every gallery of the
phase. RELEASE_BORDERS, step 3: the galleries just activated present their borders no more. BOOT_DONE, steps 4 and 5, for an image
without library sections, ends the start in state RUN with the version and the time to DONE. -/
def Obligations.ReleaseSteps : Prop :=
  (∀ (s : State) (facts : List (GalIx × PlaneIx × LoadFacts)) (i : Nat), s.boot.phase = .load → s.nextSect false = some i →
    s.digestOk (s.boot.img.sects.getD i default) = true →
    ((s.boot.img.sects.getD i default).typ = 6 →
      exec (.sectionRead facts) s = .next { s with boot := { s.boot with next := i + 1 } }) ∧
    ((s.boot.img.sects.getD i default).typ = 2 → ∃ t, exec (.sectionRead facts) s = .next t ∧ t.boot.next = i + 1 ∧
      t = (applyConfig (s.sectReader (s.boot.img.sects.getD i default)) (s.boot.img.sects.getD i default).len
        ((s.boot.img.sects.getD i default).len / 8) 0 (s.extend 2 (s.boot.img.sects.getD i default).digest)).sectDone i) ∧
    ((s.boot.img.sects.getD i default).typ = 5 → ∃ t, exec (.sectionRead facts) s = .next t ∧
      t.boot.img.cat = (List.range ((s.boot.img.sects.getD i default).len / 64)).map
        (fun k => BitVec.ofNat 512 (natOfBytes (s.sectReader (s.boot.img.sects.getD i default) (64 * k) 64))) ∧
      t.boot.next = i + 1 ∧ State.Within { fields := [.boot] } s t)) ∧
  (∀ (s : State) (facts : List (GalIx × PlaneIx × LoadFacts)) (i : Nat), s.boot.phase = .load → s.nextSect false = some i →
    ∃ t, exec (.sectionRead facts) s = .next t ∧
      ((s.readSection i facts).2 = none → t = { (s.readSection i facts).1 with boot := { (s.readSection i facts).1.boot with next := i + 1 } }) ∧
      ((s.readSection i facts).2.isSome = true → t.boot.runs = false ∧ t.boot.golden = true ∧
        t.boot.phase = (if (s.readSection i facts).1.boot.golden then .done else .check) ∧
        t.fld Reg.BOOT_STAT Fl.BOOT_STAT_STATE = (if (s.readSection i facts).1.boot.golden then 7 else 2))) ∧
  (∀ s : State, s.boot.phase = .load → s.nextSect false = none → ∃ t, exec .release s = .next t ∧ t.boot.phase = .border ∧
    t.clk = { s.clk with galOn := true } ∧ (∀ g ∈ s.phaseGals false, (t.gal g.G).bBoot = true ∧ t.bordersHeld g.G = true) ∧
    t.fld Reg.BOOT_STAT Fl.BOOT_STAT_STATE = 5 ∧ s.Keeps [.regs, .gals, .halls, .ev, .clk, .boot, .net, .reqs, .seqNext, .free] t) ∧
  (∀ s : State, s.boot.phase = .border → ∃ t, exec .releaseBorders s = .next t ∧ t.boot = { s.boot with phase := .last, rel := [] } ∧
    (∀ G ∈ s.boot.rel, (t.gal G).bBoot = false) ∧ s.Keeps [.gals, .boot, .free] t) ∧
  (∀ (s : State) (senses : List (Fin 4)), s.boot.phase = .last → s.boot.img.sects.filter (·.lib) = [] →
    ∃ t, exec (.bootDone senses) s = .next t ∧ t.boot = { s.boot with phase := .done } ∧
      t.fld Reg.BOOT_STAT Fl.BOOT_STAT_STATE = 6 ∧ t.reg Reg.BOOT_VER = BitVec.ofNat 32 s.boot.img.version ∧
      t.reg Reg.BOOT_DONE_T = BitVec.ofNat 32 (min ((s.now - s.boot.t0) / 1000) (2 ^ 32 - 1)) ∧
      s.Keeps [.regs, .gals, .halls, .ev, .adm, .clk, .dom, .pwrCmd, .boot, .bist, .cal, .net, .reqs, .seqNext, .free] t)

/-- Flash commands (R377): a word with GO, where no command runs, that names an aligned address below S that the command may act on,
waits as the command; a PROGRAM or an ERASE without its KEY is refused with RESULT 4, a READ of an unaligned address with RESULT 2; at its
end a flash fault gives RESULT 3 and changes neither the buffer nor memory, READ fills the buffer, PROGRAM writes the buffer's 256 bytes,
ERASE leaves 0xFF in the 8 KiB, each with RESULT 0, and no other byte of memory changes. -/
def Obligations.FlashCommands : Prop :=
  (∀ (s : State) (v : Word), fieldOf v Fl.BOOT_FCMD_GO ≠ 0 → s.fld Reg.BOOT_FSTAT Fl.BOOT_FSTAT_BUSY = 0 → s.flashOk = true →
    s.fld Reg.BOOT_FADDR Fl.BOOT_FADDR_FADDR < s.flashSize →
    (s.fld Reg.BOOT_FADDR Fl.BOOT_FADDR_FADDR % 256 = 0 → exec (.flashRead v) s = .next
      (({ s with boot := { s.boot with fcmd := some (1, s.fld Reg.BOOT_FADDR Fl.BOOT_FADDR_FADDR) } } : State).setFld Reg.BOOT_FSTAT Fl.BOOT_FSTAT_BUSY 1)) ∧
    (s.fld Reg.BOOT_FADDR Fl.BOOT_FADDR_FADDR % 256 = 0 → fieldOf v Fl.BOOT_FCMD_KEY = 0xC3 →
      s.flashProtected (s.fld Reg.BOOT_FADDR Fl.BOOT_FADDR_FADDR) = false → exec (.flashProgram v) s = .next
      (({ s with boot := { s.boot with fcmd := some (2, s.fld Reg.BOOT_FADDR Fl.BOOT_FADDR_FADDR) } } : State).setFld Reg.BOOT_FSTAT Fl.BOOT_FSTAT_BUSY 1)) ∧
    (s.fld Reg.BOOT_FADDR Fl.BOOT_FADDR_FADDR % 0x2000 = 0 → fieldOf v Fl.BOOT_FCMD_KEY = 0xC3 →
      s.flashProtected (s.fld Reg.BOOT_FADDR Fl.BOOT_FADDR_FADDR) = false → exec (.flashErase v) s = .next
      (({ s with boot := { s.boot with fcmd := some (3, s.fld Reg.BOOT_FADDR Fl.BOOT_FADDR_FADDR) } } : State).setFld Reg.BOOT_FSTAT Fl.BOOT_FSTAT_BUSY 1))) ∧
  (∀ (s : State) (v : Word), fieldOf v Fl.BOOT_FCMD_GO ≠ 0 → s.fld Reg.BOOT_FSTAT Fl.BOOT_FSTAT_BUSY = 0 →
    (fieldOf v Fl.BOOT_FCMD_KEY ≠ 0xC3 → exec (.flashProgram v) s = .next (s.flashResult 4) ∧ exec (.flashErase v) s = .next (s.flashResult 4)) ∧
    (s.fld Reg.BOOT_FADDR Fl.BOOT_FADDR_FADDR % 256 ≠ 0 → exec (.flashRead v) s = .next (s.flashResult 2))) ∧
  (∀ (s : State) (fault : Bool) (op a : Nat), s.boot.fcmd = some (op, a) → s.flashBusy = false → 1 ≤ op → op ≤ 3 →
    ∃ t, exec (.flashCmdDone fault) s = .next t ∧ t.boot.fcmd = none ∧ t.fld Reg.BOOT_FSTAT Fl.BOOT_FSTAT_BUSY = 0 ∧
      t.fld Reg.BOOT_FSTAT Fl.BOOT_FSTAT_RESULT = (if fault then 3 else 0) ∧
      (fault = false → op = 1 → ∀ w, w < 64 → t.reg (Reg.BOOT_FBUF w) = BitVec.ofNat 32 (s.flashNat (a + 4 * w) 4)) ∧
      (fault = true → ∀ w, w < 64 → t.reg (Reg.BOOT_FBUF w) = s.reg (Reg.BOOT_FBUF w)) ∧
      (∀ k, t.readByte k = if fault = false ∧ op = 2 ∧ flashKey a ≤ k ∧ k < flashKey a + 256 then (s.regBytes Reg.BOOT_FBUF 64).getD (k - flashKey a) 0
        else if fault = false ∧ op = 3 ∧ flashKey a ≤ k ∧ k < flashKey a + 0x2000 then 0xFF else s.readByte k) ∧
      s.Keeps [.regs, .mem, .boot] t)

/-- RECORD_WRITE_DONE (R375, R443, R444): the record at the front of those waiting leaves them; a calibration record ends SAVING, with
SAVE_RESULT 1 once written and 2 after a flash fault; with no record waiting nothing happens. -/
def Obligations.RecordWrites : Prop :=
  (∀ (s : State) (fault : Bool), s.boot.recs = [] → exec (.recordWriteDone fault) s = .next s) ∧
  (∀ (s : State) (fault : Bool) (r : RecWrite) (rs : List RecWrite), s.boot.recs = r :: rs →
    ∃ t, exec (.recordWriteDone fault) s = .next t ∧ t.boot = { s.boot with recs := rs } ∧
      (r.typ = 2 → t.fld Reg.CAL_STAT Fl.CAL_STAT_SAVING = 0 ∧
        t.fld Reg.CAL_STAT Fl.CAL_STAT_SAVE_RESULT = (if fault || !s.flashOk then 2 else 1)) ∧
      (fault = true → r.typ = 1 → t = { s with boot := { s.boot with recs := rs } }) ∧ s.Keeps [.regs, .mem, .ev, .boot] t)

/-- Imports (R363 to R365): a word without GO does nothing; one while an import runs is refused with RESULT 1 and IMPORT_REFUSED; one
whose slot is pinned or being written ends with RESULT 2, one whose header cannot be read with RESULT 8, and one whose header does not admit
the gallery, the part or the image with RESULT 3, 4 or 5; one whose header admits them is the import under way, BUSY is set, and it waits for admission of kind 11. IMPORT_COMPLETE of an admitted import ends it,
with RESULT 8 where the section could not be read, 9 where its marks or a frame are bad (log 46), and otherwise what R364 gives. -/
def Obligations.Imports : Prop :=
  (∀ (s : State) (v : Word) (st : Fin 8), fieldOf v Fl.BOOT_IMP_CMD_GO = 0 → exec (.importCmd v st) s = .next s) ∧
  (∀ (s : State) (v : Word) (st : Fin 8) (i : Import), fieldOf v Fl.BOOT_IMP_CMD_GO ≠ 0 → s.boot.imp = some i → s.evRoom →
    ∃ t, exec (.importCmd v st) s = .next t ∧ t.fld Reg.BOOT_IMP_STAT Fl.BOOT_IMP_STAT_RESULT = 1 ∧
      State.Queued s t (s.record Ev.IMPORT_REFUSED (fieldOf v Fl.BOOT_IMP_CMD_HALL) (fieldOf v Fl.BOOT_IMP_CMD_G)
        (packArgs [(5, fieldOf v Fl.BOOT_IMP_CMD_SLOT), (4, 1)])) ∧
      State.Within { regs := [Reg.BOOT_IMP_STAT, Reg.SYS_EVSTAT], fields := [.ev] } s t) ∧
  (∀ (s : State) (v : Word) (st : Fin 8) (h g k : Nat), fieldOf v Fl.BOOT_IMP_CMD_GO ≠ 0 → s.boot.imp = none →
    h = fieldOf v Fl.BOOT_IMP_CMD_HALL → g = fieldOf v Fl.BOOT_IMP_CMD_G → k = fieldOf v Fl.BOOT_IMP_CMD_SLOT →
    ∃ t, exec (.importCmd v st) s = .next t ∧
      (s.pinned (32 * h + g) k = true ∨ s.slotWriting (32 * h + g) k = true → t.fld Reg.BOOT_IMP_STAT Fl.BOOT_IMP_STAT_BUSY = 0 ∧
        t.fld Reg.BOOT_IMP_STAT Fl.BOOT_IMP_STAT_RESULT = 2) ∧
      (s.pinned (32 * h + g) k = false → s.slotWriting (32 * h + g) k = false → st.val ≠ 0 ∨ s.loaderDown h = true →
        t.fld Reg.BOOT_IMP_STAT Fl.BOOT_IMP_STAT_BUSY = 0 ∧ t.fld Reg.BOOT_IMP_STAT Fl.BOOT_IMP_STAT_RESULT = 8) ∧
      (∀ x, s.pinned (32 * h + g) k = false → s.slotWriting (32 * h + g) k = false → st.val = 0 → s.loaderDown h = false →
        x = planeHeader (s.readBytes (64 * s.fld Reg.BOOT_IMP_ADDR Fl.BOOT_IMP_ADDR_ADDR +
          2 ^ 32 * s.fld Reg.BOOT_IMP_ADDRH Fl.BOOT_IMP_ADDRH_ADDRH) 64) →
        (placeAdmits x.1 (32 * h + g) = false → t.fld Reg.BOOT_IMP_STAT Fl.BOOT_IMP_STAT_RESULT = 3) ∧
        (placeAdmits x.1 (32 * h + g) = true → (variantLacks s.part x.1.vmask.toNat || gradeLacks s.part x.1.grade.toNat) = true →
          t.fld Reg.BOOT_IMP_STAT Fl.BOOT_IMP_STAT_RESULT = 4) ∧
        (placeAdmits x.1 (32 * h + g) = true → (variantLacks s.part x.1.vmask.toNat || gradeLacks s.part x.1.grade.toNat) = false →
          x.2.2.2 = false → t.fld Reg.BOOT_IMP_STAT Fl.BOOT_IMP_STAT_RESULT = 5))) ∧
  (∀ (s : State) (v : Word) (h g k a : Nat), fieldOf v Fl.BOOT_IMP_CMD_GO ≠ 0 → s.boot.imp = none →
    h = fieldOf v Fl.BOOT_IMP_CMD_HALL → g = fieldOf v Fl.BOOT_IMP_CMD_G → k = fieldOf v Fl.BOOT_IMP_CMD_SLOT →
    a = 64 * s.fld Reg.BOOT_IMP_ADDR Fl.BOOT_IMP_ADDR_ADDR + 2 ^ 32 * s.fld Reg.BOOT_IMP_ADDRH Fl.BOOT_IMP_ADDRH_ADDRH →
    s.pinned (32 * h + g) k = false → s.slotWriting (32 * h + g) k = false → s.loaderDown h = false →
    placeAdmits (planeHeader (s.readBytes a 64)).1 (32 * h + g) = true →
    variantLacks s.part (planeHeader (s.readBytes a 64)).1.vmask.toNat = false →
    gradeLacks s.part (planeHeader (s.readBytes a 64)).1.grade.toNat = false → (planeHeader (s.readBytes a 64)).2.2.2 = true →
    s.stopping = false → s.stop.cut = false → s.adm.queue.length < 64 →
    ∃ t, exec (.importCmd v 0) s = .next t ∧ t.boot = { s.boot with imp := some ⟨h, g, k, a, false⟩ } ∧
      t.fld Reg.BOOT_IMP_STAT Fl.BOOT_IMP_STAT_BUSY = 1 ∧ t.adm.queue = s.adm.queue ++ [⟨11, h, .import_, s.now⟩] ∧
      State.Within { regs := [Reg.BOOT_IMP_STAT, Reg.THERM_HALL h], fields := [.boot, .adm] } s t) ∧
  (∀ (s : State) (st : Fin 8) (i : Import), s.boot.imp = some i → i.granted = true →
    ∃ t, exec (.importComplete st) s = .next t ∧ t.boot.imp = none ∧ t.fld Reg.BOOT_IMP_STAT Fl.BOOT_IMP_STAT_BUSY = 0 ∧
      (st.val ≠ 0 → t.fld Reg.BOOT_IMP_STAT Fl.BOOT_IMP_STAT_RESULT = 8) ∧
      (st.val = 0 → t.fld Reg.BOOT_IMP_STAT Fl.BOOT_IMP_STAT_RESULT =
        match decodePlane (fun o n => s.readBytes (i.addr + o) n) with
        | none => 9
        | some x => if (firstBad x.frames).isSome then 9 else (s.importVerdict i x).2 % 16) ∧
      s.Keeps [.regs, .gals, .ev, .adm, .boot, .sec] t)

/-- Scrubbing (R366 to R369): while the scrubber of a hall does not work, a step shows KIND 3 and does nothing else; with nothing left to
scrub in the round, it counts the round; in a resident pass over a plane that agrees with its good mirror copy, a step shows where it
stands and moves to the next frame; the reload of a BAD slot leaves it VALID with the image of its section, or unusable after a flash
fault, a digest that does not match or an image that cannot be decoded, each with its event. -/
def Obligations.Scrubbing : Prop :=
  (∀ (s : State) (h : HallIx) (mirror : Fin 3) (diff : BitVec 4096), s.scrubOn h = false →
    exec (.scrubFrameStep h mirror diff) s = .next (s.setFld (Reg.BOOT_SCRUB_POS h) Fl.BOOT_SCRUB_POS_KIND 3)) ∧
  (∀ (s : State) (h : HallIx) (mirror : Fin 3) (diff : BitVec 4096), s.scrubOn h = true → (s.scrub h).prio = none → s.prioGals h = [] →
    s.nextUnit h (s.scrub h).m (s.scrub h).u = none →
    exec (.scrubFrameStep h mirror diff) s = .next ((s.incFld (Reg.BOOT_SCRUB_ROUNDS h) Fl.BOOT_SCRUB_ROUNDS_COUNT 1).setScrub h
      { s.scrub h with u := 0, frame := 0, m := ((s.scrub h).m + 1) % 32 })) ∧
  (∀ (s : State) (h : HallIx), s.scrubOn h = true → (s.scrub h).prio = none → s.prioGals h = [] → (s.scrub h).u < 128 →
    s.nextUnit h (s.scrub h).m (s.scrub h).u = some (s.scrub h).u → (s.gal (32 * h + (s.scrub h).u / 4)).loadBusy = false →
    (s.scrub h).frame + 1 < 768 →
    exec (.scrubFrameStep h 0 0) s = .next ((s.showScrub h 0 ((s.scrub h).u / 4)
      (s.fld (Reg.GAL_PLANE (32 * h + (s.scrub h).u / 4) ((s.scrub h).u % 4)) Fl.GAL_PLANE_SLOT) ((s.scrub h).u % 4) (s.scrub h).frame).setScrub h
      { s.scrub h with frame := (s.scrub h).frame + 1 })) ∧
  (∀ (s : State) (G : GalIx) (k : SlotIx) (fault : Bool), (32 * G.val + k.val) ∈ s.boot.reload → s.slotState G k = 3 → s.evRoom →
    ∃ t, exec (.scrubSlotReloadDone G k fault) s = .next t ∧
      t.boot = { s.boot with reload := s.boot.reload.filter (· != 32 * G.val + k.val) } ∧
      (match (if fault || !s.digestOk (s.boot.img.sects.getD (Sparse.get s.boot.slotSect 0 (32 * G + k)) default) then none
          else decodePlane (s.sectReader (s.boot.img.sects.getD (Sparse.get s.boot.slotSect 0 (32 * G + k)) default))) with
        | some d => t.slotState G k = 2 ∧ t.slotImg G k = d.img ∧
            State.Queued s t (s.record Ev.SCRUB_SLOT_RELOADED (G / 32) (G % 32) (packArgs [(5, k)]))
        | none => t.slotState G k = 4 ∧
            State.Queued s t (s.record Ev.SCRUB_SLOT_UNUSABLE (G / 32) (G % 32) (packArgs [(5, k), (2, s.fld (Reg.GAL_SLOT G k) Fl.GAL_SLOT_ORIGIN)]))) ∧
      State.Within { regs := [Reg.GAL_SLOT G k, Reg.SYS_EVSTAT], gals := [G.val], fields := [.boot, .ev] } s t)

/-- Partial reset (R56, R57, R61): FRST_START without its key, without GO, or during a partial reset does nothing, and otherwise puts
FRST_STAT.STATE at DRAIN, empties the hall's wake slots and ends a calibration run of the hall; the drain's end puts FRST_STAT.STATE at HOLD; the hold's end advances the hall's epoch and
puts it at RESTART; the end shows STATE 0 and raises FRST_DONE with the count dropped; a hall late for the first time shows TIMEOUT and
has its HALL_FENCE set. -/
def Obligations.PartialReset : Prop :=
  (∀ (s : State) (h : HallIx) (v : Word), fieldOf v Fl.FRST_CTRL_KEY ≠ 0xA5 ∨ fieldOf v Fl.FRST_CTRL_GO = 0 ∨ s.inFrst h = true →
    exec (.frstStart h v) s = .next s) ∧
  (∀ (s : State) (h : HallIx) (v : Word), fieldOf v Fl.FRST_CTRL_KEY = 0xA5 → fieldOf v Fl.FRST_CTRL_GO ≠ 0 → s.inFrst h = false →
    ∃ t, exec (.frstStart h v) s = .next t ∧ t.fld (Reg.FRST_STAT h) Fl.FRST_STAT_STATE = 1 ∧
      (∀ x ∈ t.slots, x.1 / 8 / 72 ≠ h.val) ∧ (s.running = true → Sparse.find t.cal.runs h = none) ∧ t.epochs = s.epochs) ∧
  (∀ (s : State) (h : HallIx), s.fld (Reg.FRST_STAT h) Fl.FRST_STAT_STATE ≠ 1 → exec (.frstDrainEnd h) s = .next s) ∧
  (∀ (s : State) (h : HallIx), s.fld (Reg.FRST_STAT h) Fl.FRST_STAT_STATE = 1 → ∃ t, exec (.frstDrainEnd h) s = .next t ∧
    t.fld (Reg.FRST_STAT h) Fl.FRST_STAT_STATE = 2 ∧ t.slots = s.slots ∧ t.epochs = s.epochs) ∧
  (∀ (s : State) (h : HallIx), s.fld (Reg.FRST_STAT h) Fl.FRST_STAT_STATE = 2 → ∃ t, exec (.frstHoldEnd h) s = .next t ∧
    t.fld (Reg.FRST_STAT h) Fl.FRST_STAT_STATE = 3 ∧ t.epochs = Sparse.set s.epochs 0 h ((Sparse.get s.epochs 0 h + 1) % 4)) ∧
  (∀ (s : State) (h : HallIx), s.fld (Reg.FRST_STAT h) Fl.FRST_STAT_STATE = 3 → (hasPort h = true → s.hbmState h ≠ 4) → s.evRoom →
    ∃ t, exec (.frstDone h) s = .next t ∧ t.fld (Reg.FRST_STAT h) Fl.FRST_STAT_STATE = 0 ∧
      State.Queued s t (s.record Ev.FRST_DONE h 63 (packArgs [(16, s.fld (Reg.FRST_STAT h) Fl.FRST_STAT_DROPPED)])) ∧
      s.Keeps [.regs, .ev, .cal] t) ∧
  (∀ (s : State) (h : HallIx), s.inFrst h = true → (s.hall h).frstLate = false →
    ∃ t, exec (.frstTimeout h) s = .next t ∧ (t.hall h).frstLate = true ∧ t.fld (Reg.FRST_STAT h) Fl.FRST_STAT_TIMEOUT = 1 ∧
      t.bit (Reg.HALL_FENCE h) Fl.HALL_FENCE_FENCE = true ∧
      (s.bit (Reg.HALL_FENCE h) Fl.HALL_FENCE_FENCE = true →
        State.Within { regs := [Reg.FRST_STAT h, Reg.SYS_EVSTAT], halls := [h.val], fields := [.ev] } s t)) ∧
  (∀ (s : State) (h : HallIx), s.inFrst h = false ∨ (s.hall h).frstLate = true → exec (.frstTimeout h) s = .next s)

/-- Fences (R63, R65, R66), and the parity of a landing group (R51): a hall fence is set and cleared in HALL_FENCE, and setting one that is
set changes nothing; a write of CORR_CTRL sets its fields; READMIT puts every DEAD channel that no fence holds to its self-test, and no
other; a word that arrives with a mismatch counts in PERR, and LAND_PARITY is raised where a millisecond has passed since the last one of
that group. -/
def Obligations.FencesAndParity : Prop :=
  (∀ (s : State) (h : HallIx), ∃ t, exec (.hallFenceSet h) s = .next t ∧ t.bit (Reg.HALL_FENCE h) Fl.HALL_FENCE_FENCE = true ∧
    (s.bit (Reg.HALL_FENCE h) Fl.HALL_FENCE_FENCE = true → t = s) ∧ s.Keeps [.regs, .ev, .corrs] t) ∧
  (∀ (s : State) (h : HallIx), ∃ t, exec (.hallFenceClear h) s = .next t ∧ t.bit (Reg.HALL_FENCE h) Fl.HALL_FENCE_FENCE = false ∧
    s.Keeps [.regs, .ev, .net, .corrs] t) ∧
  (∀ (s : State) (h : HallIx) (k : Fin 3) (v : Word), corridorOf h k = none → exec (.corrFence h k v) s = .next s ∧
    exec (.corrReadmit h k) s = .next s) ∧
  (∀ (s : State) (h : HallIx) (k : Fin 3) (v : Word) (c : Nat), corridorOf h k = some c → ∃ t, exec (.corrFence h k v) s = .next t ∧
    t.reg (Reg.CORR_CTRL h k) = (s.writeFields (Reg.CORR_CTRL h k) v).reg (Reg.CORR_CTRL h k) ∧ s.Keeps [.regs, .ev, .corrs] t) ∧
  (∀ (s : State) (h : HallIx) (k : Fin 3) (c : Nat), corridorOf h k = some c → ∃ t, exec (.corrReadmit h k) s = .next t ∧
    (∀ ch, ch < 5 → t.chanOf c ch = (if s.chanOf c ch = 1 ∧ s.fenceBit c ch = false ∧ s.hallFence c = false then 2 else s.chanOf c ch)) ∧
    s.Keeps [.regs, .ev, .net, .corrs] t) ∧
  (∀ (s : State) (h : HallIx) (n : Fin 192), ∃ t, exec (.landParity h n) s = .next t ∧
    t.fld (Reg.LAND h n) Fl.LAND_PERR = min (s.fld (Reg.LAND h n) Fl.LAND_PERR + 1) 0xFF ∧
    (s.evRoom → s.limOpen (Ev.LAND_PARITY.code * 65536 + (256 * h + n)) ms = true →
      State.Queued s t (s.record Ev.LAND_PARITY h 63 (packArgs [(8, n), (8, t.fld (Reg.LAND h n) Fl.LAND_PERR)]))) ∧
    State.Within { regs := [Reg.LAND h n, Reg.SYS_EVSTAT], fields := [.ev] } s t)

/-- Mezzanine (R91, R93, R94): a contention on a track that is on switches it off, counts in the galleries of the two stairs, raises
MEZZ_CONTENTION, and locks the track with MEZZ_TRACK_LOCKED where it recurs or rearming is not automatic; on a track that is off nothing
happens. The end of the priority passes re-enables a track that is off and not locked where rearming is automatic, with MEZZ_REARMED, and
locks it where it is not; on a track that is on, locked or with passes to come it does nothing. A write of MEZZ_OFF_j re-enables exactly
the tracks it names that are off and whose claims are valid. -/
def Obligations.MezzanineTracks : Prop :=
  (∀ (s : State) (h : HallIx) (n : Fin 5120) (g1 g2 : Fin 32), s.trackOff h n = true → exec (.mezzContention h n g1 g2) s = .next s) ∧
  (∀ (s : State) (h : HallIx) (n : Fin 5120) (g1 g2 : Fin 32), s.trackOff h n = false → ∃ t,
    exec (.mezzContention h n g1 g2) s = .next t ∧ t.trackOff h n = true ∧
    (n.val ∈ (t.hall h).mezzLocked ↔
      s.recurs h n = true ∨ s.bit (Reg.MEZZ_CFG h) Fl.MEZZ_CFG_AUTO_REARM = false ∨ n.val ∈ (s.hall h).mezzLocked) ∧
    (∀ g, g = g1 ∨ g = g2 → t.fld (Reg.GAL_MEZZ_STAT (32 * h + g)) Fl.GAL_MEZZ_STAT_CONT =
      min (s.fld (Reg.GAL_MEZZ_STAT (32 * h + g)) Fl.GAL_MEZZ_STAT_CONT + 1) 0xFF) ∧
    (s.ev.recs.length < 255 → t.ev.recs = s.ev.recs ++ s.record Ev.MEZZ_CONTENTION h g1 (packArgs [(13, n), (5, g2)]) ::
      (if s.recurs h n = true ∨ s.bit (Reg.MEZZ_CFG h) Fl.MEZZ_CFG_AUTO_REARM = false then
        [s.record Ev.MEZZ_TRACK_LOCKED h 63 (packArgs [(13, n)])] else [])) ∧
    State.Within { regs := [Reg.MEZZ_OFF h (n / 32), Reg.GAL_MEZZ_STAT (32 * h + g1), Reg.GAL_MEZZ_STAT (32 * h + g2), Reg.SYS_EVSTAT],
                   halls := [h.val], fields := [.ev] } s t) ∧
  (∀ (s : State) (h : HallIx) (n : Fin 5120), s.trackOff h n = true → n.val ∉ (s.hall h).mezzLocked →
    s.bit (Reg.MEZZ_CFG h) Fl.MEZZ_CFG_AUTO_REARM = true → Sparse.get (s.hall h).mezzPass [] n = [] → s.evRoom → ∃ t,
    exec (.mezzRearmed h n) s = .next t ∧ t.trackOff h n = false ∧
    State.Queued s t (s.record Ev.MEZZ_REARMED h 63 (packArgs [(13, n)])) ∧
    State.Within { regs := [Reg.MEZZ_OFF h (n / 32), Reg.SYS_EVSTAT], halls := [h.val], fields := [.ev] } s t) ∧
  (∀ (s : State) (h : HallIx) (n : Fin 5120), s.trackOff h n = true → n.val ∉ (s.hall h).mezzLocked →
    s.bit (Reg.MEZZ_CFG h) Fl.MEZZ_CFG_AUTO_REARM = false → Sparse.get (s.hall h).mezzPass [] n = [] → s.evRoom → ∃ t,
    exec (.mezzRearmed h n) s = .next t ∧ t.trackOff h n = true ∧ n.val ∈ (t.hall h).mezzLocked ∧
    State.Queued s t (s.record Ev.MEZZ_TRACK_LOCKED h 63 (packArgs [(13, n)]))) ∧
  (∀ (s : State) (h : HallIx) (n : Fin 5120),
    s.trackOff h n = false ∨ n.val ∈ (s.hall h).mezzLocked ∨ Sparse.get (s.hall h).mezzPass [] n ≠ [] →
    exec (.mezzRearmed h n) s = .next s) ∧
  (∀ (s : State) (h : HallIx) (j : Fin 160) (v : Word), ∃ t, exec (.mezzOffWrite h j v) s = .next t ∧
    (∀ i, i < 32 → t.trackOff h (32 * j + i) =
      (s.trackOff h (32 * j + i) && !(bitOf v.toNat i && s.claimValid h (32 * j + i)))) ∧
    (∀ i, i < 32 → bitOf v.toNat i = true → s.trackOff h (32 * j + i) = true → s.claimValid h (32 * j + i) = true →
      32 * j + i ∉ (t.hall h).mezzLocked) ∧
    State.Within { regs := [Reg.MEZZ_OFF h j], halls := [h.val] } s t)

/-- Clock branches of a gallery (R96, R97, R98): a write of GAL_CLKSEL_n sets the register's fields; where it changes the source, the
branch is switching and does not run until the new source starts; GAL_CLK_SWITCH_DONE then clears SWITCHING, and the branch runs where its
source runs, its enable for the clock mode is set and nothing stops it. The other branches stay as they are, and where nothing waits for a
context-clock edge (R122, R151) no other register changes. -/
def Obligations.GalleryClocks : Prop :=
  (∀ (s : State) (G : GalIx) (n : Fin 8) (v : Word), ∃ t, exec (.galClkselWrite G n v) s = .next t ∧
    t.reg (Reg.GAL_CLKSEL G n) = (s.writeFields (Reg.GAL_CLKSEL G n) v).reg (Reg.GAL_CLKSEL G n) ∧
    (t.branchSrc G n ≠ s.branchSrc G n →
      bitOf (t.fld (Reg.GAL_CLKSTAT G) Fl.GAL_CLKSTAT_SWITCHING) n = true ∧ t.branchRuns G n = false) ∧
    (∀ m, m < 8 → m ≠ n.val → bitOf (t.fld (Reg.GAL_CLKSTAT G) Fl.GAL_CLKSTAT_SWITCHING) m =
      bitOf (s.fld (Reg.GAL_CLKSTAT G) Fl.GAL_CLKSTAT_SWITCHING) m ∧ t.branchRuns G m = s.branchRuns G m) ∧
    ((s.gal G).srcNext = none → (s.gal G).maskOld = [] →
      State.Within { regs := [Reg.GAL_CLKSEL G n, Reg.GAL_CLKSTAT G], gals := [G.val], fields := [.free] } s t)) ∧
  (∀ (s : State) (G : GalIx) (n : Fin 8), bitOf (s.fld (Reg.GAL_CLKSTAT G) Fl.GAL_CLKSTAT_SWITCHING) n = true →
    ∃ t, exec (.galClkSwitchDone G n) s = .next t ∧ bitOf (t.fld (Reg.GAL_CLKSTAT G) Fl.GAL_CLKSTAT_SWITCHING) n = false ∧
    t.branchRuns G n = (s.setFldBit (Reg.GAL_CLKSTAT G) Fl.GAL_CLKSTAT_SWITCHING n false).branchOn G n ∧
    (∀ m, m < 8 → m ≠ n.val → bitOf (t.fld (Reg.GAL_CLKSTAT G) Fl.GAL_CLKSTAT_SWITCHING) m =
      bitOf (s.fld (Reg.GAL_CLKSTAT G) Fl.GAL_CLKSTAT_SWITCHING) m ∧ t.branchRuns G m = s.branchRuns G m) ∧
    ((s.gal G).srcNext = none → (s.gal G).maskOld = [] →
      State.Within { regs := [Reg.GAL_CLKSTAT G], gals := [G.val], fields := [.free] } s t)) ∧
  (∀ (s : State) (G : GalIx) (n : Fin 8), bitOf (s.fld (Reg.GAL_CLKSTAT G) Fl.GAL_CLKSTAT_SWITCHING) n = false →
    exec (.galClkSwitchDone G n) s = .next s)

/-- The endpoint's port for requests (R104 to R106, R37): with no active plane, borders presented, the endpoint clock stopped or LIMIT
requests outstanding nothing is taken; the first unit of a request is kept by its tag with the bank mask that then holds (R152); a request
on virtual channel 1 or 3 is answered DENIED and counted in VCERR, one whose tag is outstanding is answered DENIED and counted in TAGERR;
in a partial reset of the hall one that R499 does not let pass is answered UNAVAIL; a request that maps nowhere is answered ABSENT, and
one that its mask does not allow DENIED; any other is sent with the gallery as its
source, and is outstanding. A switch that waited for the request then stops its branches (R129, R135). -/
def Obligations.EndpointRequests : Prop :=
  (∀ (s : State) (G : GalIx) (vc : Fin 4) (last : Bool) (q : Packet),
    s.canIssue G = false ∨ s.endpointRuns G = false ∨ s.fld (Reg.GAL_EP_CFG G) Fl.GAL_EP_CFG_LIMIT ≤ epOutstanding (s.gal G) →
    exec (.epRequest G vc last q) s = .next s) ∧
  (∀ (s : State) (G : GalIx) (p : Nat) (vc : Fin 4) (q : Packet), s.activePlane G = some p → s.bordersHeld G = false →
    s.endpointRuns G = true → epOutstanding (s.gal G) < s.fld (Reg.GAL_EP_CFG G) Fl.GAL_EP_CFG_LIMIT →
    (∃ t, exec (.epRequest G vc false q) s = .next t ∧ (t.gal G).iqPart = some (q.tag.toNat, s.bmaskEff G p) ∧ State.Within { gals := [G.val] } s t) ∧
    ∃ t, exec (.epRequest G vc true q) s = .next (if s.bit (Reg.GAL_CTX_STAT G) Fl.GAL_CTX_STAT_PENDING then t.switchStarts G else t) ∧
      (t.gal G).iqPart = none ∧
      (vc = 1 ∨ vc = 3 → s.evRoom →
        (t.gal G).ipLast = some (localRsp G (epFilled G p vc (s.epMask G p) q) .denied) ∧
        t.fld (Reg.GAL_EP_STAT G) Fl.GAL_EP_STAT_VCERR = min (s.fld (Reg.GAL_EP_STAT G) Fl.GAL_EP_STAT_VCERR + 1) 0xFF ∧
        State.Queued s t (s.record Ev.EP_VC_REJECT (G / 32) (G % 32) (packArgs [(2, vc)])) ∧
        State.Within { regs := [Reg.GAL_EP_STAT G, Reg.SYS_EVSTAT], gals := [G.val], fields := [.ev] } s t) ∧
      (vc = 0 ∨ vc = 2 → ((s.gal G).epOut.any (fun o => o.tag == q.tag.toNat) || (s.gal G).ipHeld.any (fun x => x.2.tag == q.tag)) = true →
        s.evRoom →
        (t.gal G).ipLast = some (localRsp G (epFilled G p vc (s.epMask G p) q) .denied) ∧
        t.fld (Reg.GAL_EP_STAT G) Fl.GAL_EP_STAT_TAGERR = min (s.fld (Reg.GAL_EP_STAT G) Fl.GAL_EP_STAT_TAGERR + 1) 0xFF ∧
        State.Queued s t (s.record Ev.EP_TAG_REUSE (G / 32) (G % 32) (packArgs [(10, q.tag.toNat)])) ∧
        State.Within { regs := [Reg.GAL_EP_STAT G, Reg.SYS_EVSTAT], gals := [G.val], fields := [.ev] } s t) ∧
      (vc = 0 ∨ vc = 2 → ((s.gal G).epOut.any (fun o => o.tag == q.tag.toNat) || (s.gal G).ipHeld.any (fun x => x.2.tag == q.tag)) = false →
        s.inFrst (G / 32) = true → passesFrst (G / 32) q = false →
        (t.gal G).ipLast = some (localRsp G (epFilled G p vc (s.epMask G p) q) .unavail) ∧ State.Within { gals := [G.val] } s t) ∧
      (vc = 0 ∨ vc = 2 → ((s.gal G).epOut.any (fun o => o.tag == q.tag.toNat) || (s.gal G).ipHeld.any (fun x => x.2.tag == q.tag)) = false →
        s.inFrst (G / 32) = false ∨ passesFrst (G / 32) q = true →
        (routedCmd q.cmd.toNat = false → State.Sent s t (epFilled G p vc (s.epMask G p) q) ∧
          (t.gal G).epOut = (s.gal G).epOut ++ [⟨q.tag.toNat, p, epFilled G p vc (s.epMask G p) q⟩]) ∧
        (∀ d, routedCmd q.cmd.toNat = true → destOfReq q = some d → bankOutside (s.epMask G p) G q = none →
          State.Sent s t (routedTo (epFilled G p vc (s.epMask G p) q) d) ∧
          (t.gal G).epOut = (s.gal G).epOut ++ [⟨q.tag.toNat, p, routedTo (epFilled G p vc (s.epMask G p) q) d⟩]) ∧
        (∀ d b, routedCmd q.cmd.toNat = true → destOfReq q = some d → bankOutside (s.epMask G p) G q = some b → t.net = s.net ∧
          (t.gal G).ipLast = some (localRsp G (routedTo (epFilled G p vc (s.epMask G p) q) d) .denied)) ∧
        (routedCmd q.cmd.toNat = true → destOfReq q = none → t.net = s.net ∧
          (t.gal G).ipLast = some (localRsp G (epFilled G p vc (s.epMask G p) q) .absent)) ∧
        State.Within { regs := [Reg.GAL_CTX_DROP G, Reg.SYS_EVSTAT], gals := [G.val], fields := [.ev, .net, .reqs, .seqNext] } s t))

/-- The other ports of an endpoint (R107 to R109), at edges of the clocks that R104 gives them: a message taken whole is answered OK and
leaves the queue, and until its last unit each unit taken counts; an item taken is marked so, and its end is reported to Gweak with the
status the design gives; an enqueue goes to Gweak with a tag of its own, and with 16 outstanding none is taken; without Gweak it is
answered ABSENT, and in a partial reset of the hall UNAVAIL. With no active plane, borders presented or the clock stopped, nothing is
taken. -/
def Obligations.EndpointPorts : Prop :=
  (∀ (s : State) (G : GalIx) (m : Packet) (r : List Packet), s.tqOpen G = true → s.endpointRuns G = true → (s.gal G).tq = m :: r →
    (∃ t, exec (.msgAccept G true) s = .next t ∧ (t.gal G).tq = r ∧ State.Sent s t (rspOf m .ok []) ∧
      State.Within { gals := [G.val], fields := [.net, .reqs, .seqNext] } s t) ∧
    (∃ t, exec (.msgAccept G false) s = .next t ∧ (t.gal G).tq = m :: r ∧
      (t.gal G).tqTaken = (if (s.gal G).tqTaken = m.data.length then (s.gal G).tqTaken else (s.gal G).tqTaken + 1) ∧
      State.Within { gals := [G.val] } s t)) ∧
  (∀ (s : State) (G : GalIx) (last : Bool), s.tqOpen G = false ∨ s.endpointRuns G = false ∨ (s.gal G).tq = [] →
    exec (.msgAccept G last) s = .next s) ∧
  (∀ (s : State) (G : GalIx) (p : Nat), s.activePlane G = some p → s.bordersHeld G = false → s.contextClockRuns G = true →
    ∃ t, exec (.itAccept G) s = .next t ∧ (∀ i ∈ (s.gal G).it, i.plane = p → { i with accepted := true } ∈ (t.gal G).it) ∧
      (∀ i ∈ (s.gal G).it, i.plane ≠ p → i ∈ (t.gal G).it) ∧ (t.gal G).it.length = (s.gal G).it.length ∧
      State.Within { gals := [G.val] } s t) ∧
  (∀ (s : State) (G : GalIx) (p : Nat) (st : Fin 4), s.activePlane G = some p → s.bordersHeld G = false → s.contextClockRuns G = true →
    (s.gal G).it.any (fun i => i.plane == p && i.accepted) = true →
    ∃ t, exec (.dnDone G st) s = .next t ∧ State.Sent s t (donePacket G p (if st = 0 then 0 else if st = 1 then 1 else 3)) ∧
      (∀ i, i ∈ (t.gal G).it ↔ i ∈ (s.gal G).it ∧ ¬(i.plane = p ∧ i.accepted = true)) ∧
      State.Within { gals := [G.val], fields := [.net, .reqs, .seqNext] } s t) ∧
  (∀ (s : State) (G : GalIx) (p : Nat) (desc : BitVec 256), s.activePlane G = some p → s.bordersHeld G = false →
    s.contextClockRuns G = true → (s.gal G).eqOut.length < 16 →
    (s.part.gweak = true → s.inFrst (G / 32) = false →
      ∃ t, exec (.eqEnqueue G desc) s = .next t ∧
        State.Sent s t { enqPacket (G / 32) (G % 32) 0 (freeEqTag (s.gal G)) desc with eq := true } ∧
        (t.gal G).eqOut = (s.gal G).eqOut ++ [⟨p, freeEqTag (s.gal G), none⟩] ∧
        State.Within { gals := [G.val], fields := [.net, .reqs, .seqNext] } s t) ∧
    (s.part.gweak = false ∨ s.inFrst (G / 32) = true → (s.gal G).eqOut = [] →
      ∃ t, exec (.eqEnqueue G desc) s = .next t ∧ (t.gal G).eqLast = some (if s.part.gweak = false then 3 else 4) ∧
        (t.gal G).eqOut = [] ∧ State.Within { gals := [G.val] } s t)) ∧
  (∀ (s : State) (G : GalIx) (st : Fin 4) (desc : BitVec 256), s.canIssue G = false ∨ s.contextClockRuns G = false →
    exec (.itAccept G) s = .next s ∧ exec (.dnDone G st) s = .next s ∧ exec (.eqEnqueue G desc) s = .next s) ∧
  (∀ (s : State) (G : GalIx) (desc : BitVec 256), (s.gal G).eqOut.length ≥ 16 → exec (.eqEnqueue G desc) s = .next s)

/-- Gallery reset (R110, R111): a write of GAL_RST with its key and GO marks the reset pending where none is pending or active, and any
other write does nothing; at the next edge of a running context clock, with no replacement under way, it is active and holds the gallery:
its borders are presented, live flip-flops and the shared shadow take the active plane's INIT values, held items are reported with status
RESET, and a request part-way across and the responses held are discarded, while messages stay queued; the release lets the flip-flops go;
the end clears ACTIVE, counts the reset and raises GAL_RESET. The frames, the reports and the event are stated where nothing waits for a
context-clock edge (R122, R151). -/
def Obligations.GalleryReset : Prop :=
  (∀ (s : State) (G : GalIx) (v : Word), fieldOf v Fl.GAL_RST_KEY ≠ 0x5A ∨ fieldOf v Fl.GAL_RST_GO = 0 ∨
    s.fld (Reg.GAL_RSTSTAT G) Fl.GAL_RSTSTAT_ACTIVE = 1 ∨ s.fld (Reg.GAL_RSTSTAT G) Fl.GAL_RSTSTAT_PENDING = 1 →
    exec (.galRst G v) s = .next s) ∧
  (∀ (s : State) (G : GalIx) (v : Word), fieldOf v Fl.GAL_RST_KEY = 0x5A → fieldOf v Fl.GAL_RST_GO = 1 →
    s.fld (Reg.GAL_RSTSTAT G) Fl.GAL_RSTSTAT_ACTIVE = 0 → s.fld (Reg.GAL_RSTSTAT G) Fl.GAL_RSTSTAT_PENDING = 0 →
    ∃ t, exec (.galRst G v) s = .next t ∧ t.fld (Reg.GAL_RSTSTAT G) Fl.GAL_RSTSTAT_PENDING = 1 ∧
      t.fld (Reg.GAL_RSTSTAT G) Fl.GAL_RSTSTAT_ACTIVE = 0 ∧ State.Within { regs := [Reg.GAL_RSTSTAT G] } s t) ∧
  (∀ (s : State) (G : GalIx), s.fld (Reg.GAL_RSTSTAT G) Fl.GAL_RSTSTAT_PENDING = 1 → s.contextClockRuns G = true →
    (s.gal G).repl = none →
    ∃ t, exec (.galResetEdge G) s = .next t ∧ t.fld (Reg.GAL_RSTSTAT G) Fl.GAL_RSTSTAT_PENDING = 0 ∧
      t.fld (Reg.GAL_RSTSTAT G) Fl.GAL_RSTSTAT_ACTIVE = 1 ∧ (t.gal G).rst = .hold ∧ t.bordersHeld G = true ∧
      (∀ p, s.activePlane G = some p →
        (t.gal G).live = (s.planeInfo G p).init &&& ffMask ∧ (t.gal G).shared = (s.planeInfo G p).init) ∧
      (t.gal G).it = [] ∧ (t.gal G).ipHeld = [] ∧ (t.gal G).iqPart = none ∧ (t.gal G).tq = (s.gal G).tq ∧
      ((s.gal G).srcNext = none → (s.gal G).maskOld = [] →
        (∃ l, t.net = s.net ++ l ∧ l.length = (s.gal G).it.length ∧ ∀ x ∈ l, x.cmd = 0x13 ∧ ∃ q, x.arg = (donePacket G q 2).arg) ∧
        State.Within { regs := [Reg.GAL_RSTSTAT G, Reg.GAL_CLKSTAT G], gals := [G.val], fields := [.net, .reqs, .seqNext, .free] } s t)) ∧
  (∀ (s : State) (G : GalIx), s.fld (Reg.GAL_RSTSTAT G) Fl.GAL_RSTSTAT_PENDING = 0 ∨ s.contextClockRuns G = false ∨
    (s.gal G).repl ≠ none → exec (.galResetEdge G) s = .next s) ∧
  (∀ (s : State) (G : GalIx), (s.gal G).rst = .hold → ∃ t, exec (.galResetRelease G) s = .next t ∧ (t.gal G).rst = .released ∧
    State.Within { gals := [G.val] } s t) ∧
  (∀ (s : State) (G : GalIx), (s.gal G).rst ≠ .hold → exec (.galResetRelease G) s = .next s) ∧
  (∀ (s : State) (G : GalIx), (s.gal G).rst = .released → ∃ t, exec (.galResetDone G) s = .next t ∧ (t.gal G).rst = .none ∧
    t.fld (Reg.GAL_RSTSTAT G) Fl.GAL_RSTSTAT_ACTIVE = 0 ∧
    t.fld (Reg.GAL_RSTSTAT G) Fl.GAL_RSTSTAT_COUNT = min (s.fld (Reg.GAL_RSTSTAT G) Fl.GAL_RSTSTAT_COUNT + 1) 0xFFFF ∧
    (s.evRoom → (s.gal G).srcNext = none → (s.gal G).maskOld = [] →
      State.Queued s t (s.record Ev.GAL_RESET (G / 32) (G % 32) (packArgs [(16, t.fld (Reg.GAL_RSTSTAT G) Fl.GAL_RSTSTAT_COUNT)])) ∧
      State.Within { regs := [Reg.GAL_RSTSTAT G, Reg.GAL_CLKSTAT G, Reg.SYS_EVSTAT], gals := [G.val], fields := [.ev, .free] } s t)) ∧
  (∀ (s : State) (G : GalIx), (s.gal G).rst ≠ .released → exec (.galResetDone G) s = .next s)

/-- Selecting a plane (R122 to R125, R129 to R132): a write of GAL_CTX_CFG changes the context clock at once and SRC at the next edge of
the context clock; one that leaves SCHEDULED while the gallery has servers leaves SRC and raises CTX_SRC_REFUSED, and SRC 3, or SCHEDULED
without Gweak, leaves it too. GAL_CTX_SEL and the plane-request port ask for a switch to a READY plane, and for another plane raise
CTX_SWITCH_REFUSED, or give PR_NAK; the active plane's own number does nothing. At the switch edge the outgoing plane is READY, the
incoming plane ACTIVE, the switch is counted, private bits of the outgoing plane go to its shadow and those that are shared to the shared
shadow, and the live bits become the incoming plane's; a pending plane that is READY no longer is refused; capture resumes at the next
edge. The frames are stated where nothing waits for a context-clock edge (R122, R151). -/
def Obligations.PlaneSwitches : Prop :=
  (∀ (s : State) (G : GalIx) (v : Word), s.ctxSrc G = 2 → s.servers G ≠ 0 → fieldOf v Fl.GAL_CTX_CFG_SRC < 2 → s.evRoom →
    (s.gal G).srcNext = none → (s.gal G).maskOld = [] →
    ∃ t, exec (.galCtxCfgWrite G v) s = .next t ∧ t.ctxSrc G = 2 ∧
      t.fld (Reg.GAL_CTX_CFG G) Fl.GAL_CTX_CFG_CCLK = fieldOf v Fl.GAL_CTX_CFG_CCLK ∧
      State.Queued s t (s.record Ev.CTX_SRC_REFUSED (G / 32) (G % 32) (packArgs [(2, fieldOf v Fl.GAL_CTX_CFG_SRC), (4, s.servers G)])) ∧
      State.Within { regs := [Reg.GAL_CTX_CFG G, Reg.GAL_CLKSTAT G, Reg.SYS_EVSTAT], gals := [G.val], fields := [.ev, .free] } s t) ∧
  (∀ (s : State) (G : GalIx) (v : Word), s.ctxSrc G < 2 → (s.gal G).srcNext = none → (s.gal G).maskOld = [] →
    ∃ t, exec (.galCtxCfgWrite G v) s = .next t ∧
      t.fld (Reg.GAL_CTX_CFG G) Fl.GAL_CTX_CFG_CCLK = fieldOf v Fl.GAL_CTX_CFG_CCLK ∧
      (fieldOf v Fl.GAL_CTX_CFG_SRC < 2 →
        (t.contextClockRuns G = true → t.ctxSrc G = fieldOf v Fl.GAL_CTX_CFG_SRC) ∧
        (t.contextClockRuns G = false → t.ctxSrc G = s.ctxSrc G ∧
          (t.gal G).srcNext = if fieldOf v Fl.GAL_CTX_CFG_SRC = s.ctxSrc G then none else some (fieldOf v Fl.GAL_CTX_CFG_SRC)) ∧
        State.Within { regs := [Reg.GAL_CTX_CFG G, Reg.GAL_CLKSTAT G], gals := [G.val], fields := [.free] } s t) ∧
      (fieldOf v Fl.GAL_CTX_CFG_SRC = 3 ∨ fieldOf v Fl.GAL_CTX_CFG_SRC = 2 ∧ s.part.gweak = false → t.ctxSrc G = s.ctxSrc G ∧
        State.Within { regs := [Reg.GAL_CTX_CFG G, Reg.GAL_CLKSTAT G], gals := [G.val], fields := [.free] } s t)) ∧
  (∀ (s : State) (G : GalIx) (v : Word), s.ctxSrc G = 0 ∨ s.noPlane G = true ∧ s.ctxSrc G ≠ 2 →
    s.activePlane G ≠ some (fieldOf v Fl.GAL_CTX_SEL_PLANE) →
    (s.planeState G (fieldOf v Fl.GAL_CTX_SEL_PLANE) = 2 → ∃ t, exec (.galCtxSelWrite G v) s = .next t ∧
      t.fld (Reg.GAL_CTX_SEL G) Fl.GAL_CTX_SEL_PLANE = fieldOf v Fl.GAL_CTX_SEL_PLANE ∧
      t.fld (Reg.GAL_CTX_STAT G) Fl.GAL_CTX_STAT_PENDING = 1 ∧
      t.fld (Reg.GAL_CTX_STAT G) Fl.GAL_CTX_STAT_PEND_PLANE = fieldOf v Fl.GAL_CTX_SEL_PLANE ∧
      ((s.gal G).srcNext = none → (s.gal G).maskOld = [] →
        State.Within { regs := [Reg.GAL_CTX_SEL G, Reg.GAL_CTX_STAT G, Reg.GAL_CLKSTAT G], gals := [G.val], fields := [.free] } s t)) ∧
    (s.planeState G (fieldOf v Fl.GAL_CTX_SEL_PLANE) ≠ 2 → s.evRoom → ∃ t, exec (.galCtxSelWrite G v) s = .next t ∧
      State.Queued s t (s.record Ev.CTX_SWITCH_REFUSED (G / 32) (G % 32)
        (packArgs [(2, fieldOf v Fl.GAL_CTX_SEL_PLANE), (3, s.planeState G (fieldOf v Fl.GAL_CTX_SEL_PLANE)), (2, 0)])) ∧
      State.Within { regs := [Reg.SYS_EVSTAT], fields := [.ev] } s t)) ∧
  (∀ (s : State) (G : GalIx) (v : Word), s.activePlane G = some (fieldOf v Fl.GAL_CTX_SEL_PLANE) → exec (.galCtxSelWrite G v) s = .next s) ∧
  (∀ (s : State) (G : GalIx) (p : Nat) (q : PlaneIx), s.ctxSrc G = 1 → s.contextClockRuns G = true → s.activePlane G = some p →
    (q.val = p → exec (.planeRequest G q) s = .next s) ∧
    (q.val ≠ p → s.planeState G q = 2 → ∃ t, exec (.planeRequest G q) s = .next t ∧
      t.fld (Reg.GAL_CTX_STAT G) Fl.GAL_CTX_STAT_PENDING = 1 ∧
      t.fld (Reg.GAL_CTX_STAT G) Fl.GAL_CTX_STAT_PEND_PLANE = q.val ∧
      ((s.gal G).srcNext = none → (s.gal G).maskOld = [] →
        State.Within { regs := [Reg.GAL_CTX_STAT G, Reg.GAL_CLKSTAT G], gals := [G.val], fields := [.free] } s t)) ∧
    (q.val ≠ p → s.planeState G q ≠ 2 → ∃ t, exec (.planeRequest G q) s = .next t ∧ t.prNak G = true ∧
      (s.evRoom → s.limOpen (Ev.CTX_SWITCH_REFUSED.code * 65536 + G) ms = true → State.Queued s t
        (s.record Ev.CTX_SWITCH_REFUSED (G / 32) (G % 32) (packArgs [(2, q), (3, s.planeState G q), (2, 1)]))) ∧
      State.Within { regs := [Reg.SYS_EVSTAT], gals := [G.val], fields := [.ev] } s t)) ∧
  (∀ (s : State) (G : GalIx) (p q : PlaneIx), s.fld (Reg.GAL_CTX_STAT G) Fl.GAL_CTX_STAT_PENDING = 1 →
    s.fld (Reg.GAL_CTX_STAT G) Fl.GAL_CTX_STAT_PEND_PLANE = q.val → s.edgeEligible G = true → s.activePlane G = some p.val → p ≠ q →
    s.planeState G q = 2 → (s.gal G).fresh = false → ∃ t, exec (.planeSwitchEdge G) s = .next t ∧
      t.planeState G p = 2 ∧ t.planeState G q = 3 ∧ t.activePlane G = some q.val ∧
      t.fld (Reg.GAL_CTX_STAT G) Fl.GAL_CTX_STAT_PENDING = 0 ∧
      t.fld (Reg.GAL_CTX_COUNT G) Fl.GAL_CTX_COUNT_COUNT = min (s.fld (Reg.GAL_CTX_COUNT G) Fl.GAL_CTX_COUNT_COUNT + 1) (2 ^ 32 - 1) ∧
      (t.gal G).switching = true ∧
      Sparse.get (t.gal G).shadow 0 p.val = storeShadow (s.planeInfo G p).priv (s.gal G).live (Sparse.get (s.gal G).shadow 0 p.val) ∧
      (t.gal G).shared = storeShared (s.planeInfo G p).priv (s.gal G).live (s.gal G).shared ∧
      (t.gal G).live = loadLive (s.planeInfo G q).priv (Sparse.get (s.gal G).shadow 0 q.val) (t.gal G).shared ∧
      ((s.gal G).srcNext = none → (s.gal G).maskOld = [] →
        State.Within { regs := [Reg.GAL_PLANE G p, Reg.GAL_PLANE G q, Reg.GAL_CTX_STAT G, Reg.GAL_CTX_COUNT G, Reg.GAL_CTX_DROP G,
                                Reg.GAL_CLKSTAT G], gals := [G.val], fields := [.net, .reqs, .seqNext, .free] } s t)) ∧
  (∀ (s : State) (G : GalIx) (q : PlaneIx), s.fld (Reg.GAL_CTX_STAT G) Fl.GAL_CTX_STAT_PENDING = 1 →
    s.fld (Reg.GAL_CTX_STAT G) Fl.GAL_CTX_STAT_PEND_PLANE = q.val → s.edgeEligible G = true → s.planeState G q ≠ 2 →
    ∃ t, exec (.planeSwitchEdge G) s = .next t ∧ t.fld (Reg.GAL_CTX_STAT G) Fl.GAL_CTX_STAT_PENDING = 0 ∧
      t.activePlane G = s.activePlane G ∧ ∀ p, p < 4 → t.planeState G p = s.planeState G p) ∧
  (∀ (s : State) (G : GalIx), s.fld (Reg.GAL_CTX_STAT G) Fl.GAL_CTX_STAT_PENDING = 0 ∨ s.edgeEligible G = false →
    exec (.planeSwitchEdge G) s = .next s) ∧
  (∀ (s : State) (G : GalIx), (s.gal G).switching = true → s.contextClockRuns G = true →
    ∃ t, exec (.switchCapture G) s = .next t ∧ (t.gal G).switching = false ∧
    ((s.gal G).srcNext = none → (s.gal G).maskOld = [] →
      State.Within { regs := [Reg.GAL_CLKSTAT G], gals := [G.val], fields := [.free] } s t)) ∧
  (∀ (s : State) (G : GalIx), (s.gal G).switching = false ∨ s.contextClockRuns G = false → exec (.switchCapture G) s = .next s)

/-- Loads of planes (R142 to R149): an accepted request joins the queue; a refused one gives its REASON and RESULT and raises
PLANE_LOAD_REFUSED; a request of a design outside the gallery is refused with reason 1, and
one that meets a mirror loader under test with UNAVAIL (R447); a load that starts puts the plane at LOADING, and
one whose frames pass puts the image into the plane and makes it READY, counted in LOADS, or FAILED with cause 2 where it would drive a
contended track; a replacement presents the borders and leaves no active plane until its image is active, and then capture resumes. -/
def Obligations.PlaneLoads : Prop :=
  (∀ (s : State) (w : Writer) (G : GalIx) (k : SlotIx) (p : PlaneIx), s.loaderTested (G / 32) = false →
    ∃ t, exec (.galLoadCmdLoad w G k p) s = .next t ∧
      (s.loadCheck G ⟨p, k, false, requesterOf w⟩ (isForeign G w) = none →
        (t.gal G).loadQ = (s.gal G).loadQ ++ [⟨p, k, false, requesterOf w⟩] ∧ t.fld (Reg.GAL_LOAD_STAT G) Fl.GAL_LOAD_STAT_RESULT = 0) ∧
      (∀ r st, s.loadCheck G ⟨p, k, false, requesterOf w⟩ (isForeign G w) = some (r, st) →
        t.fld (Reg.GAL_LOAD_STAT G) Fl.GAL_LOAD_STAT_REASON = r ∧ t.fld (Reg.GAL_LOAD_STAT G) Fl.GAL_LOAD_STAT_RESULT = st.code ∧
        (t.gal G).loadQ = (s.gal G).loadQ ∧
        (s.evRoom → State.Queued s t (s.record Ev.PLANE_LOAD_REFUSED (G / 32) (G % 32)
          (packArgs [(2, p), (5, k), (4, r), (2, (requesterOf w).code)])))) ∧
      (s.inFrst (G / 32) = false → isForeign G w = true → t.fld (Reg.GAL_LOAD_STAT G) Fl.GAL_LOAD_STAT_REASON = 1) ∧
      State.Within { regs := [Reg.GAL_LOAD_STAT G, Reg.SYS_EVSTAT], gals := [G.val], fields := [.ev] } s t) ∧
  (∀ (s : State) (w : Writer) (G : GalIx) (k : SlotIx) (p : PlaneIx), s.loaderTested (G / 32) = false →
    ∃ t, exec (.galLoadCmdReplace w G k p) s = .next t ∧
      (s.loadCheck G ⟨p, k, true, requesterOf w⟩ (isForeign G w) = none →
        (t.gal G).loadQ = (s.gal G).loadQ ++ [⟨p, k, true, requesterOf w⟩] ∧ t.fld (Reg.GAL_LOAD_STAT G) Fl.GAL_LOAD_STAT_RESULT = 0) ∧
      (∀ r st, s.loadCheck G ⟨p, k, true, requesterOf w⟩ (isForeign G w) = some (r, st) →
        t.fld (Reg.GAL_LOAD_STAT G) Fl.GAL_LOAD_STAT_REASON = r ∧ t.fld (Reg.GAL_LOAD_STAT G) Fl.GAL_LOAD_STAT_RESULT = st.code ∧
        (t.gal G).loadQ = (s.gal G).loadQ ∧
        (s.evRoom → State.Queued s t (s.record Ev.PLANE_LOAD_REFUSED (G / 32) (G % 32)
          (packArgs [(2, p), (5, k), (4, r), (2, (requesterOf w).code)])))) ∧
      (s.inFrst (G / 32) = false → isForeign G w = true → t.fld (Reg.GAL_LOAD_STAT G) Fl.GAL_LOAD_STAT_REASON = 1) ∧
      State.Within { regs := [Reg.GAL_LOAD_STAT G, Reg.SYS_EVSTAT], gals := [G.val], fields := [.ev] } s t) ∧
  (∀ (s : State) (w : Writer) (G : GalIx) (k : SlotIx) (p : PlaneIx) (rep : Bool), s.loaderTested (G / 32) = true →
    ∃ t, exec (if rep then .galLoadCmdReplace w G k p else .galLoadCmdLoad w G k p) s = .next t ∧
      t.fld (Reg.GAL_LOAD_STAT G) Fl.GAL_LOAD_STAT_RESULT = OSt.unavail.code ∧ (t.gal G).loadQ = (s.gal G).loadQ) ∧
  (∀ (s : State) (G : GalIx) (r : LoadReq) (rs : List LoadReq), (s.gal G).loadQ = r :: rs → (s.gal G).loadBusy = false →
    s.loaderTested (G / 32) = false → r.replace = false → s.loadCheckHead G r = none → r.plane < 4 → r.slot < 32 →
    ∃ t, exec (.planeLoadStart G) s = .next t ∧ t.planeState G r.plane = 1 ∧ (t.gal G).loadBusy = true ∧
      t.fld (Reg.GAL_PLANE G r.plane) Fl.GAL_PLANE_SLOT = r.slot ∧ Sparse.find (t.gal G).planes r.plane = none ∧
      State.Within { regs := [Reg.GAL_PLANE G r.plane], gals := [G.val], fields := [.net, .reqs, .seqNext] } s t) ∧
  (∀ (s : State) (G : GalIx) (r : LoadReq) (rs : List LoadReq) (f : LoadFacts), (s.gal G).loadQ = r :: rs → (s.gal G).loadBusy = true →
    r.replace = false → r.plane < 4 → f.failed = none → f.double = none →
    ∃ t, exec (.planeLoadComplete G f) s = .next t ∧
      (s.contentionStair G (Config.designInfo (s.slotImg G r.slot).frames) = none →
        t.planeState G r.plane = 2 ∧ t.planeImg G r.plane = s.slotImg G r.slot ∧ (t.gal G).loadQ = rs ∧ (t.gal G).loadBusy = false ∧
        t.fld (Reg.GAL_LOAD_STAT G) Fl.GAL_LOAD_STAT_LOADS = min (s.fld (Reg.GAL_LOAD_STAT G) Fl.GAL_LOAD_STAT_LOADS + 1) 0xFFFF) ∧
      (s.contentionStair G (Config.designInfo (s.slotImg G r.slot).frames) ≠ none →
        t.planeState G r.plane = 4 ∧ t.fld (Reg.GAL_PLANE G r.plane) Fl.GAL_PLANE_FAIL_CAUSE = 2)) ∧
  (∀ (s : State) (G : GalIx) (r : LoadReq) (rs : List LoadReq), (s.gal G).loadQ = r :: rs → (s.gal G).loadBusy = false →
    r.replace = true → (s.gal G).repl = none → s.contextClockRuns G = true → (s.gal G).rst = .none → (s.gal G).switching = false →
    s.loadCheckHead G r = none → r.plane < 4 → s.fld (Reg.GAL_CTX_STAT G) Fl.GAL_CTX_STAT_PENDING = 0 →
    ∃ t, exec (.replaceEdge G) s = .next t ∧ t.planeState G r.plane = 5 ∧ t.activePlane G = none ∧
      (t.gal G).repl = some (r.plane, .loading) ∧ t.bordersHeld G = true ∧
      ((s.gal G).srcNext = none → (s.gal G).maskOld = [] →
        State.Within { regs := [Reg.GAL_PLANE G r.plane, Reg.GAL_CTX_STAT G, Reg.GAL_CLKSTAT G], gals := [G.val],
                       fields := [.net, .reqs, .seqNext, .free] } s t)) ∧
  (∀ (s : State) (G : GalIx) (p : PlaneIx), (s.gal G).repl = some (p.val, .loaded) → s.contextClockRuns G = true →
    ∃ t, exec (.replaceActivate G) s = .next t ∧ t.planeState G p = 3 ∧ t.activePlane G = some p.val ∧
      (t.gal G).live = loadLive (s.planeInfo G p).priv (Sparse.get (s.gal G).shadow 0 p.val) (s.gal G).shared ∧
      (t.gal G).repl = some (p.val, .activated) ∧
      State.Within { regs := [Reg.GAL_PLANE G p, Reg.GAL_CTX_STAT G, Reg.GAL_LOAD_STAT G], gals := [G.val],
                     fields := [.net, .reqs, .seqNext] } s t) ∧
  (∀ (s : State) (G : GalIx) (p : Nat), (s.gal G).repl = some (p, .activated) → s.contextClockRuns G = true →
    ∃ t, exec (.replaceCapture G) s = .next t ∧ (t.gal G).repl = none ∧ (t.gal G).bRepl = false ∧
      ((s.gal G).srcNext = none → (s.gal G).maskOld = [] →
        State.Within { regs := [Reg.GAL_CLKSTAT G], gals := [G.val], fields := [.free] } s t)) ∧
  (∀ (s : State) (G : GalIx), s.contextClockRuns G = false →
    exec (.replaceEdge G) s = .next s ∧ exec (.replaceActivate G) s = .next s ∧ exec (.replaceCapture G) s = .next s)

/-- Stored slots (R157): a copy that passes its checks waits for admission with BUSY set; one from a slot that is not VALID gives RESULT
1, one into a pinned slot RESULT 2, one of an image that its place does not admit RESULT 3, and one while a copy is under way or the slot
is being written RESULT 4, each with SLOT_COPY_DONE; a copy that completes fills its slot with the source's image, ORIGIN copy; an
invalidation empties the slot, and one of a pinned slot or of one that is being written gives RESULT 2 or 4. -/
def Obligations.StoredSlots : Prop :=
  (∀ (s : State) (G : GalIx) (g : Fin 32) (k d : SlotIx), s.slotState (32 * (G / 32) + g) k = 2 → s.pinned G d = false →
    placeAdmits (s.slotImg (32 * (G / 32) + g) k) G = true → (s.gal G).copy = none → s.slotWriting G d = false → s.loaderTested (G / 32) = false →
    s.stopping = false → s.stop.cut = false → s.adm.queue.length < 64 → ∃ t, exec (.slotCopy G g k d) s = .next t ∧
      t.fld (Reg.GAL_SLOT_STAT G) Fl.GAL_SLOT_STAT_BUSY = 1 ∧ (t.gal G).copy = some ⟨g, k, d, false⟩ ∧
      t.adm.queue = s.adm.queue ++ [⟨11, G / 32, .copy G, s.now⟩] ∧
      State.Within { regs := [Reg.GAL_SLOT_STAT G, Reg.THERM_HALL (G / 32)], gals := [G.val], fields := [.adm] } s t) ∧
  (∀ (s : State) (G : GalIx) (g : Fin 32) (k d : SlotIx), s.evRoom → ∃ t, exec (.slotCopy G g k d) s = .next t ∧
      (s.slotState (32 * (G / 32) + g) k ≠ 2 → t.fld (Reg.GAL_SLOT_STAT G) Fl.GAL_SLOT_STAT_RESULT = 1 ∧
        State.Queued s t (s.record Ev.SLOT_COPY_DONE (G / 32) (G % 32) (packArgs [(5, d), (3, 1)])) ∧ t.gals = s.gals) ∧
      (s.slotState (32 * (G / 32) + g) k = 2 → s.pinned G d = true → t.fld (Reg.GAL_SLOT_STAT G) Fl.GAL_SLOT_STAT_RESULT = 2 ∧
        State.Queued s t (s.record Ev.SLOT_COPY_DONE (G / 32) (G % 32) (packArgs [(5, d), (3, 2)])) ∧ t.gals = s.gals) ∧
      (s.slotState (32 * (G / 32) + g) k = 2 → s.pinned G d = false → placeAdmits (s.slotImg (32 * (G / 32) + g) k) G = false →
        t.fld (Reg.GAL_SLOT_STAT G) Fl.GAL_SLOT_STAT_RESULT = 3 ∧
        State.Queued s t (s.record Ev.SLOT_COPY_DONE (G / 32) (G % 32) (packArgs [(5, d), (3, 3)])) ∧ t.gals = s.gals) ∧
      (s.slotState (32 * (G / 32) + g) k = 2 → s.pinned G d = false → placeAdmits (s.slotImg (32 * (G / 32) + g) k) G = true →
        (s.gal G).copy ≠ none ∨ s.slotWriting G d = true → t.fld (Reg.GAL_SLOT_STAT G) Fl.GAL_SLOT_STAT_RESULT = 4 ∧
        State.Queued s t (s.record Ev.SLOT_COPY_DONE (G / 32) (G % 32) (packArgs [(5, d), (3, 4)])) ∧ t.gals = s.gals)) ∧
  (∀ (s : State) (G : GalIx) (k : SlotIx), s.pinned G k = false → s.slotWriting G k = false → s.evRoom →
    ∃ t, exec (.slotInvalidate G k) s = .next t ∧ t.slotState G k = 0 ∧ Sparse.find (t.gal G).slots k.val = none ∧
      t.fld (Reg.GAL_SLOT_STAT G) Fl.GAL_SLOT_STAT_RESULT = 0 ∧
      State.Queued s t (s.record Ev.SLOT_COPY_DONE (G / 32) (G % 32) (packArgs [(5, k), (3, 0)])) ∧
      State.Within { regs := [Reg.GAL_SLOT G k, Reg.GAL_SLOT_STAT G, Reg.SYS_EVSTAT], gals := [G.val], fields := [.ev, .boot] } s t) ∧
  (∀ (s : State) (G : GalIx) (k : SlotIx), s.pinned G k = true ∨ s.slotWriting G k = true → s.evRoom →
    ∃ t, exec (.slotInvalidate G k) s = .next t ∧ t.gals = s.gals ∧
      t.fld (Reg.GAL_SLOT_STAT G) Fl.GAL_SLOT_STAT_RESULT = (if s.pinned G k then 2 else 4) ∧
      State.Queued s t (s.record Ev.SLOT_COPY_DONE (G / 32) (G % 32) (packArgs [(5, k), (3, if s.pinned G k then 2 else 4)]))) ∧
  (∀ (s : State) (G : GalIx) (c : CopyOp) (pass : Bool), (s.gal G).copy = some c → c.running = true → c.dst < 32 →
    ∃ t, exec (.slotCopyComplete G pass) s = .next t ∧ (t.gal G).copy = none ∧ t.slotState G c.dst = (if pass then 2 else 0) ∧
      (pass = true → t.slotImg G c.dst = s.slotImg (32 * (G / 32) + c.srcG) c.srcSlot ∧
        t.fld (Reg.GAL_SLOT G c.dst) Fl.GAL_SLOT_ORIGIN = 3) ∧
      t.fld (Reg.GAL_SLOT_STAT G) Fl.GAL_SLOT_STAT_BUSY = 0 ∧
      t.fld (Reg.GAL_SLOT_STAT G) Fl.GAL_SLOT_STAT_RESULT = (if pass then 0 else 5) ∧
      State.Within { regs := [Reg.GAL_SLOT G c.dst, Reg.GAL_SLOT_STAT G, Reg.SYS_EVSTAT], gals := [G.val], fields := [.ev, .adm, .boot] } s t)

/-- Prisms and banks (R163, R164, R165, R172, R173, R175, R177, R191, R192): where PSM_READY stands, an accepted request joins its prism's
queue as the newest, one with a parity error already failed with code 2, the reserved operation with 7, a request of a bank that the mask
does not give with 3; where it does not stand, nothing changes. A bank cycle performs the request that the prism presents to the bank that
holds its row: a write stores the enabled bytes of its row and no other byte, a read delivers the row's checked bytes, with code 1 where
one is uncorrectable; PSM_READY stands again. With no request, a march step of the test goes on, or else the oldest corrected byte is
written back, unless it is uncorrectable. The oldest request that has been performed completes, is presented and counts in ERRS when it
failed. The frames are stated where no announcement of the bank's queue is due. -/
def Obligations.PrismsAndBanks : Prop :=
  (∀ (s : State) (G : GalIx) (p : Nat) (k : Fin 4) (op : PrismOp) (bank : Fin 8) (row : Fin 2048) (be : BitVec 128) (wd : BitVec 1024)
    (par : Bool), s.activePlane G = some p → s.psmReady G k = true →
    ∃ t r, exec (.prismRequest G k op bank row be wd par) s = .next t ∧ t.prismQ G k = s.prismQ G k ++ [r] ∧
      r.plane = p ∧ r.op = op ∧ r.bank = 8 * k.val + bank.val ∧ r.row = row.val ∧ r.be = be ∧ r.wdata = wd ∧ r.dropped = 0 ∧
      (op = .reserved → r.done = some (7, 0)) ∧
      (par = true → op ≠ .reserved → s.memOn G = true → s.galTesting G 0 = false → r.done = some (2, 0)) ∧
      (par = false → op = .read → s.memOn G = true → s.galTesting G 0 = false → r.done =
        if bitOf (s.bmaskEff G p).toNat (8 * k.val + bank.val) = true then none else some (3, 0)) ∧
      State.Within { regs := [Reg.GAL_CTX_DROP G, Reg.SYS_EVSTAT], gals := [G.val], fields := [.ev] } s t) ∧
  (∀ (s : State) (G : GalIx) (k : Fin 4) (op : PrismOp) (bank : Fin 8) (row : Fin 2048) (be : BitVec 128) (wd : BitVec 1024)
    (par : Bool), s.psmReady G k = false → exec (.prismRequest G k op bank row be wd par) s = .next s) ∧
  (∀ (s : State) (G : GalIx) (b : BankIx) (f : EccFacts) (d : Option (Fin 1664)) (r : PrismReq), s.memOn G = true →
    s.bankClockRuns G b = true → Sparse.find (s.gal G).memtest b.val = none → s.galTesting G 0 = false →
    s.prismAt G b = some r →
    (r.op = .write → ∃ t, exec (.bankAccess G b f d) s = .next t ∧
      (∀ i, i < 128 → t.readByte (memKey G b r.row i) =
        if bitOf r.be.toNat i then BitVec.ofNat 8 (r.wdata.toNat / 2 ^ (8 * i)) else s.readByte (memKey G b r.row i)) ∧
      t.prismQ G (b / 8) = markDone (0, 0) (s.prismQ G (b / 8)) ∧ (t.gal G).psmStall.contains (b.val / 8) = false ∧
      (s.qDue G b = false → State.Within { bytes := [(memKey G b r.row 0, 128)], gals := [G.val] } s t)) ∧
    (r.op = .read → ∃ t, exec (.bankAccess G b f d) s = .next t ∧
      t.prismQ G (b / 8) = markDone (if s.placesWith (memKey G b r.row 0) 128 2 f = [] then 0 else 1,
        BitVec.ofNat 1024 (natOfBytes (s.checkedBytes (memKey G b r.row 0) 128 f))) (s.prismQ G (b / 8)) ∧
      (t.gal G).psmStall.contains (b.val / 8) = false ∧
      (s.qDue G b = false → State.Within { regs := [Reg.GAL_MEM_ECC G, Reg.GAL_MEM_ELOG G, Reg.SYS_EVSTAT], gals := [G.val],
                                           fields := [.ev] } s t))) ∧
  (∀ (s : State) (G : GalIx) (b : BankIx) (f : EccFacts) (x : MemTest), s.memOn G = true → s.bankClockRuns G b = true →
    Sparse.find (s.gal G).memtest b.val = some x → x.step < 7 → s.prismAt G b = none → ∃ t, exec (.bankAccess G b f none) s = .next t ∧
      Sparse.find (t.gal G).memtest b.val = some { x with step := x.step + 1 } ∧
      (s.qDue G b = false → State.Within { gals := [G.val] } s t)) ∧
  (∀ (s : State) (G : GalIx) (b : BankIx) (f : EccFacts) (d : Option (Fin 1664)) (k : Nat) (ks : List Nat), s.memOn G = true →
    s.bankClockRuns G b = true → Sparse.find (s.gal G).memtest b.val = none → s.prismAt G b = none →
    Sparse.get (s.gal G).wb [] b.val = k :: ks → ∃ t, exec (.bankAccess G b f d) s = .next t ∧
      Sparse.get (t.gal G).wb [] b.val = ks ∧ (∀ j, t.readByte j = s.readByte j) ∧
      (s.byteCheck k 0 f ≠ 2 → t.memByte k = some (s.readByte k)) ∧
      (s.qDue G b = false → State.Within { regs := [Reg.GAL_MEM_ECC G, Reg.GAL_MEM_ELOG G, Reg.SYS_EVSTAT], bytes := [(k, 1)],
                                           gals := [G.val], fields := [.ev] } s t)) ∧
  (∀ (s : State) (G : GalIx) (b : BankIx) (f : EccFacts) (d : Option (Fin 1664)),
    s.memOn G = false ∨ s.bankClockRuns G b = false ∨ Sparse.find (s.gal G).memtest b.val = none ∧ s.prismAt G b = none ∧
      Sparse.get (s.gal G).wb [] b.val = [] ∧ s.qDue G b = false → exec (.bankAccess G b f d) s = .next s) ∧
  (∀ (s : State) (G : GalIx) (k : Fin 4) (r : PrismReq) (rs : List PrismReq) (c : Nat) (x : BitVec 1024), s.prismQ G k = r :: rs →
    r.done = some (c, x) → r.dropped = 0 → ∃ t, exec (.prismCompletion G k) s = .next t ∧ t.prismQ G k = rs ∧
      Sparse.find (t.gal G).psmLast k.val = some (c, x) ∧
      t.fld (Reg.GAL_PRISM_STAT G k) Fl.GAL_PRISM_STAT_ERRS =
        (if c = 0 then s.fld (Reg.GAL_PRISM_STAT G k) Fl.GAL_PRISM_STAT_ERRS
         else min (s.fld (Reg.GAL_PRISM_STAT G k) Fl.GAL_PRISM_STAT_ERRS + 1) 0xFF) ∧
      State.Within { regs := [Reg.GAL_PRISM_STAT G k], gals := [G.val] } s t)

/-- Queue controllers and the transparent test (R182, R183, R187, R188, R191 to R194): an enabling write that fits sets EN and SPAN and
empties the queue, one that does not raises QUEUE_CFG_REFUSED and changes nothing; clearing EN empties the queue and discards its
announcement. A bank cycle with an announcement due sends its item with tag 512 + b, or completes it at once on a part without Gweak. An
announcement that was not answered OK is sent again, and the first retry raises QUEUE_ENQ_RETRY. The test takes its next row where its
interval has passed and no prism request waits at the bank, and its save checks the row; a row whose march is done without a fault is
released and the next row follows; a prism request that waits at the bank in the restore cycle stalls: STALLS counts it and PSM_READY
falls. -/
def Obligations.QueuesAndRowTest : Prop :=
  (∀ (s : State) (G : GalIx) (b : BankIx) (v : Word), s.qOn G b = false → fieldOf v Fl.GAL_Q_CFG_EN = 1 →
    b.val % spanBanks (fieldOf v Fl.GAL_Q_CFG_SPAN) = 0 → s.spanTaken G b (spanBanks (fieldOf v Fl.GAL_Q_CFG_SPAN)) = false →
    2 ≤ s.qSize G b → s.qBase G b + s.qSize G b ≤ spanBanks (fieldOf v Fl.GAL_Q_CFG_SPAN) * 2048 →
    ∃ t, exec (.galQCfgWrite G b v) s = .next t ∧ t.qOn G b = true ∧
      t.fld (Reg.GAL_Q_CFG G b) Fl.GAL_Q_CFG_SPAN = fieldOf v Fl.GAL_Q_CFG_SPAN ∧ t.qFill G b = 0 ∧ t.qHead G b = 0 ∧ t.qTail G b = 0 ∧
      t.fld (Reg.GAL_Q_ANN G b) Fl.GAL_Q_ANN_ANN = 0 ∧ t.qHid G b = {} ∧
      State.Within { regs := [Reg.GAL_Q_CFG G b, Reg.GAL_Q_PTR G b, Reg.GAL_Q_STAT G b, Reg.GAL_Q_ANN G b], gals := [G.val] } s t) ∧
  (∀ (s : State) (G : GalIx) (b : BankIx) (v : Word), s.qOn G b = false → fieldOf v Fl.GAL_Q_CFG_EN = 1 →
    (b.val % spanBanks (fieldOf v Fl.GAL_Q_CFG_SPAN) ≠ 0 ∨ s.spanTaken G b (spanBanks (fieldOf v Fl.GAL_Q_CFG_SPAN)) = true ∨
      s.qSize G b < 2 ∨ s.qBase G b + s.qSize G b > spanBanks (fieldOf v Fl.GAL_Q_CFG_SPAN) * 2048) → s.evRoom →
    ∃ t, exec (.galQCfgWrite G b v) s = .next t ∧ State.Queued s t (s.record Ev.QUEUE_CFG_REFUSED (G / 32) (G % 32)
        (packArgs [(5, b), (2, fieldOf v Fl.GAL_Q_CFG_SPAN), (14, s.qBase G b), (15, s.qSize G b)])) ∧
      State.Within { regs := [Reg.SYS_EVSTAT], fields := [.ev] } s t) ∧
  (∀ (s : State) (G : GalIx) (b : BankIx) (v : Word), s.qOn G b = true → fieldOf v Fl.GAL_Q_CFG_EN = 0 →
    ∃ t, exec (.galQCfgWrite G b v) s = .next t ∧ t.qOn G b = false ∧ t.qFill G b = 0 ∧ t.qHead G b = 0 ∧ t.qTail G b = 0 ∧
      t.fld (Reg.GAL_Q_ANN G b) Fl.GAL_Q_ANN_ANN = 0 ∧ t.qHid G b = {} ∧
      State.Within { regs := [Reg.GAL_Q_CFG G b, Reg.GAL_Q_PTR G b, Reg.GAL_Q_STAT G b, Reg.GAL_Q_ANN G b], gals := [G.val] } s t) ∧
  (∀ (s : State) (G : GalIx) (b : BankIx) (v : Word), s.qOn G b = true → fieldOf v Fl.GAL_Q_CFG_EN = 1 →
    exec (.galQCfgWrite G b v) s = .next s) ∧
  (∀ (s : State) (G : GalIx) (b : BankIx) (f : EccFacts) (d : Option (Fin 1664)), s.memOn G = true → s.bankClockRuns G b = true →
    Sparse.find (s.gal G).memtest b.val = none → s.prismAt G b = none → Sparse.get (s.gal G).wb [] b.val = [] → s.qDue G b = true →
    (s.part.gweak = true → s.inFrst (G / 32) = false → ∃ t p, exec (.bankAccess G b f d) s = .next t ∧ (t.qHid G b).inFlight = true ∧
      State.Sent s t p ∧ p.cmd = 0x11 ∧ p.srcHall.toNat = G / 32 ∧ p.srcNode.toNat = G % 32 ∧ p.dstNode = 32 ∧ p.tag.toNat = 512 + b ∧
      State.Within { gals := [G.val], fields := [.net, .reqs, .seqNext] } s t) ∧
    (s.part.gweak = false → ∃ t, exec (.bankAccess G b f d) s = .next t ∧
      (t.qHid G b).unann = (s.qHid G b).unann - s.fld (Reg.GAL_Q_WM G b) Fl.GAL_Q_WM_HIGH ∧
      t.fld (Reg.GAL_Q_STAT G b) Fl.GAL_Q_STAT_HI_HIT = 1 ∧
      State.Within { regs := [Reg.GAL_Q_ANN G b, Reg.GAL_Q_STAT G b], gals := [G.val] } s t)) ∧
  (∀ (s : State) (G : GalIx) (b : BankIx) (st : Nat), (s.qHid G b).inFlight = true → (s.qHid G b).retry = some st →
    s.inFrst (G / 32) = false → s.evRoom →
    ∃ t p, exec (.queueEnqRetry G b) s = .next t ∧ (t.qHid G b).retry = none ∧ (t.qHid G b).inFlight = true ∧
      (t.qHid G b).retried = true ∧ State.Sent s t p ∧ p.cmd = 0x11 ∧ p.srcHall.toNat = G / 32 ∧ p.srcNode.toNat = G % 32 ∧ p.dstNode = 32 ∧
      p.tag.toNat = 512 + b ∧
      ((s.qHid G b).retried = false → State.Queued s t (s.record Ev.QUEUE_ENQ_RETRY (G / 32) (G % 32) (packArgs [(5, b), (3, st)]))) ∧
      ((s.qHid G b).retried = true → State.Within { gals := [G.val], fields := [.net, .reqs, .seqNext] } s t) ∧
      State.Within { regs := [Reg.SYS_EVSTAT], gals := [G.val], fields := [.ev, .net, .reqs, .seqNext] } s t) ∧
  (∀ (s : State) (G : GalIx) (b : BankIx), (s.qHid G b).inFlight = false ∨ (s.qHid G b).retry = none →
    exec (.queueEnqRetry G b) s = .next s) ∧
  (∀ (s : State) (G : GalIx) (b : BankIx) (f : EccFacts), s.bit (Reg.GAL_MEMTEST_CFG G) Fl.GAL_MEMTEST_CFG_EN = true →
    s.memOn G = true → s.bankClockRuns G b = true → Sparse.find (s.gal G).memtest b.val = none → s.prismAt G b = none →
    s.testDue G b = true → ∃ t, exec (.memtestRowStart G ⟨b, f⟩) s = .next t ∧
      Sparse.find (t.gal G).memtest b.val = some ⟨Sparse.get (s.gal G).testRow 0 b.val, 1, none⟩ ∧
      State.Within { regs := [Reg.GAL_MEM_ECC G, Reg.GAL_MEM_ELOG G, Reg.SYS_EVSTAT], gals := [G.val], fields := [.ev, .free] } s t) ∧
  (∀ (s : State) (G : GalIx) (b : BankIx) (f : EccFacts), s.bit (Reg.GAL_MEMTEST_CFG G) Fl.GAL_MEMTEST_CFG_EN = false ∨
    s.bankClockRuns G b = false ∨ (s.prismAt G b).isSome = true ∨ s.testDue G b = false → exec (.memtestRowStart G ⟨b, f⟩) s = .next s) ∧
  (∀ (s : State) (G : GalIx) (b : BankIx) (x : MemTest), Sparse.find (s.gal G).memtest b.val = some x → 7 ≤ x.step → x.fault = none →
    s.memOn G = true → s.bankClockRuns G b = true →
    ∃ t, exec (.memtestRestore G b) s = .next t ∧ Sparse.find (t.gal G).memtest b.val = none ∧
      Sparse.get (t.gal G).testRow 0 b.val = (if x.row = 2055 then 0 else x.row + 1) ∧
      (s.prismAt G b = none → State.Within { regs := [Reg.GAL_MEMTEST_STAT G], gals := [G.val] } s t) ∧
      ((s.prismAt G b).isSome = true → t.psmReady G (b / 8) = false ∧
        State.Within { regs := [Reg.GAL_MEMTEST_STAT G, Reg.GAL_PRISM_STAT G (b / 8)], gals := [G.val] } s t)) ∧
  (∀ (s : State) (G : GalIx) (b : BankIx), Sparse.find (s.gal G).memtest b.val = none ∨ s.bankClockRuns G b = false →
    exec (.memtestRestore G b) s = .next s)

/-- Gweak's items (R199, R209 to R211, R215 to R219): GWK_ENQ_GO sends the descriptor of the ENQ words to node 32 and sets BUSY; a decision
with dispatch on assigns the one ready head at the highest priority to the engine its class names, or to the idle server whose active plane
holds its image, which becomes BUSY; a class without a server is reported; the watchdog parks the flow of an item that exceeds its limit;
the tick after an engine's UNAVAIL lets the head be tried again; the earliest due item becomes ready; GWK_TICK is written only while
dispatch is off and nothing is delayed. A host write of Gweak's registers does nothing where the hall is under foundation partial reset,
and on a part without Gweak it raises ABSENT_UNIT_ACCESS only (R6, R7, R499). -/
def Obligations.GweakItems : Prop :=
  (∀ (s : State) (h : HallIx) (v : Word), s.part.gweak = true → s.inFrst h = false → fieldOf v Fl.GWK_ENQ_GO_GO = 1 → s.bit (Reg.GWK_ENQ_RSP h) Fl.GWK_ENQ_RSP_BUSY = false →
    ∃ t p, exec (.gwkEnqGo h v) s = .next t ∧ t.bit (Reg.GWK_ENQ_RSP h) Fl.GWK_ENQ_RSP_BUSY = true ∧ State.Sent s t p ∧ p.cmd = 0x11 ∧
      p.dstHall.toNat = h ∧ p.dstNode = 32 ∧ p.units = 1 ∧ p.data = [(BitVec.ofNat 256 (packBits ((List.range 8).map
        (fun w => (32, (s.reg (Reg.GWK_ENQ h w)).toNat))))).setWidth 512] ∧
      State.Within { regs := [Reg.GWK_ENQ_RSP h], fields := [.net, .reqs, .seqNext] } s t) ∧
  (∀ (s : State) (h : HallIx), s.gwkOn h = false ∨ s.bit (Reg.GWK_CTRL h) Fl.GWK_CTRL_DISPATCH_EN = false →
    exec (.dispatchDecision h) s = .next s) ∧
  (∀ (s : State) (h : HallIx) (f : Fin 512) (x : GFlow) (d : BitVec 256) (r : List (BitVec 256)), s.gwkOn h = true →
    s.bit (Reg.GWK_CTRL h) Fl.GWK_CTRL_DISPATCH_EN = true → (s.gwk h).flows = [(f.val, x)] → x.ready = d :: r → s.flowState h f = 1 →
    x.retryWait = false → s.fld (Reg.GWK_CLASS_A h (dClass d)) Fl.GWK_CLASS_A_PRIO = 7 → s.tooLate h (dClass d) d = false →
    ∃ t, exec (.dispatchDecision h) s = .next t ∧
      (s.bit (Reg.GWK_CLASS_A h (dClass d)) Fl.GWK_CLASS_A_DEST = true → (t.flow h f).svc = some d ∧ (t.flow h f).ready = r ∧
        ∃ p, p ∈ t.net ∧ p.cmd = 0x16 ∧ p.dstNode = 34 ∧ p.data = [d.setWidth 512]) ∧
      (∀ v, s.bit (Reg.GWK_CLASS_A h (dClass d)) Fl.GWK_CLASS_A_DEST = false → s.pickServer h (dClass d) = .active v → v < 128 →
        (t.flow h f).svc = some d ∧ (t.flow h f).ready = r ∧ t.srvState h v = 4 ∧ (t.srv h v).item = some d ∧
        ∃ p, p ∈ t.net ∧ p.cmd = 0x12 ∧ p.dstNode.toNat = v / 4 ∧ p.data = [d.setWidth 512])) ∧
  (∀ (s : State) (h : HallIx) (f : Fin 512) (d : BitVec 256) (r : List (BitVec 256)), (s.flow h f).ready = d :: r →
    s.flowState h f = 1 → s.gwkOn h = true → s.limOpen (Ev.CLASS_NO_SERVER.code * 65536 + (64 * h + dClass d)) ms = true → s.evRoom →
    ∃ t, exec (.classNoServer h f) s = .next t ∧ State.Queued s t (s.record Ev.CLASS_NO_SERVER h 63 (packArgs [(6, dClass d),
        (10, ((s.gwk h).flows.filter (fun x => s.flowState h x.1 == 1 && x.2.ready.head?.any (fun e => dClass e == dClass d))).length)])) ∧
      State.Within { regs := [Reg.SYS_EVSTAT], fields := [.ev] } s t) ∧
  (∀ (s : State) (h : HallIx) (v : Fin 128) (d : BitVec 256), s.gwkOn h = true → (s.srv h v).item = some d →
    (s.srvState h v = 4 ∨ s.srvState h v = 5) →
    s.fld (Reg.GWK_CLASS_B h (dClass d)) Fl.GWK_CLASS_B_SVC_LIMIT ≠ 0 → (s.srv h v).overrun = false →
    s.now - (s.srv h v).sent > s.fld (Reg.GWK_CLASS_B h (dClass d)) Fl.GWK_CLASS_B_SVC_LIMIT * 1000 →
    ∃ t, exec (.watchdogCheck h) s = .next t ∧ (t.flow h (dFlow d % 512)).parked = true ∧ (t.srv h v).overrun = true) ∧
  (∀ (s : State) (h : HallIx), (∀ v, v < 128 → (s.srv h v).item = none) → exec (.watchdogCheck h) s = .next s) ∧
  (∀ (s : State) (h : HallIx) (f : Fin 512), (s.flow h f).retryWait = true → ∃ t, exec (.engineRetryReady h f) s = .next t ∧
    (t.flow h f).retryWait = false ∧ (t.flow h f).ready = (s.flow h f).ready ∧
    State.Within { regs := [Reg.GWK_FLOW_STAT h f], halls := [h.val] } s t) ∧
  (∀ (s : State) (h : HallIx) (f : Fin 512), (s.flow h f).retryWait = false → exec (.engineRetryReady h f) s = .next s) ∧
  (∀ (s : State) (h : HallIx) (f : Fin 512) (d : BitVec 256), s.gwkOn h = true →
    s.bit (Reg.GWK_CTRL h) Fl.GWK_CTRL_RELEASE_EN = true → s.nextDue h = some (f.val, d) → ∃ t, exec (.dueRelease h) s = .next t ∧
      (t.flow h f).ready = (s.flow h f).ready ++ [d] ∧ (t.gwk h).delay = (s.gwk h).delay.erase (f.val, d) ∧
      State.Within { regs := [Reg.GWK_DLY h, Reg.GWK_FLOW_STAT h f, Reg.GWK_TRACE_PTR h, Reg.SYS_EVSTAT], halls := [h.val],
                     fields := [.ev, .free, .net, .reqs, .seqNext] } s t) ∧
  (∀ (s : State) (h : HallIx) (v : Word), s.part.gweak = true → s.inFrst h = false →
    (s.bit (Reg.GWK_CTRL h) Fl.GWK_CTRL_DISPATCH_EN = false ∧ (s.gwk h).delay = [] →
      exec (.gwkTickWrite h v) s = .next (s.writeFields (Reg.GWK_TICK h) v)) ∧
    (s.bit (Reg.GWK_CTRL h) Fl.GWK_CTRL_DISPATCH_EN = true ∨ (s.gwk h).delay ≠ [] → s.evRoom → ∃ t, exec (.gwkTickWrite h v) s = .next t ∧
      State.Queued s t (s.record Ev.GWK_CFG_REFUSED h 63 (packArgs [(16, 0x0008)])) ∧
      State.Within { regs := [Reg.SYS_EVSTAT], fields := [.ev] } s t)) ∧
  (∀ (s : State) (h : HallIx) (f : Fin 512) (g : Fin 32) (k : Fin 64) (v : Word),
    ∀ c ∈ [Instr.gwkEnqGo h v, .gwkTickWrite h v, .gwkFlowCfgWrite h f v, .flowResume h f, .flowFlush h f, .srvAdd h g, .srvRemove h g,
           .srvPreload h g k],
    (s.part.gweak = true → s.inFrst h = true → exec c s = .next s) ∧
    (s.part.gweak = false → accessRecords s.ev.recs < 16 → s.evRoom → ∃ t a, exec c s = .next t ∧
      State.Queued s t (s.record Ev.ABSENT_UNIT_ACCESS h 63 (packArgs [(32, a), (1, 1)])) ∧ hallBase h 0x30000 ≤ a ∧ a < hallBase h 0x40000 ∧
      State.Within { regs := [Reg.SYS_EVSTAT], fields := [.ev] } s t))

/-- Flows and servers of Gweak (R207, R223 to R225): a write that disables a flow frees what it holds and clears PARKED, one that enables a
flow with nothing in service runs it, one that enables a flow with an item in service leaves it disabled, and any other leaves its items;
RESUME unparks a parked flow; FLUSH frees the ready and delayed items of an enabled flow; ADD brings a gallery's four servers, REMOVE starts
their removal, a RESERVED server becoming IDLE and a BUSY one DRAINING, and PRELOAD asks for a load, each with its result where it may not.
Where Gweak is absent or held these writes are those of GweakItems. -/
def Obligations.GweakFlowsAndServers : Prop :=
  (∀ (s : State) (h : HallIx) (f : Fin 512) (v : Word), s.part.gweak = true → s.inFrst h = false → s.flowEn h f = true →
    (s.writeFields (Reg.GWK_FLOW_CFG h f) v).flowEn h f = false → ∃ t, exec (.gwkFlowCfgWrite h f v) s = .next t ∧
      t.flowEn h f = false ∧ (t.flow h f).ready = [] ∧ (t.flow h f).parked = false ∧ (t.flow h f).svc = (s.flow h f).svc ∧
      (∀ x ∈ (t.gwk h).delay, x.1 ≠ f.val) ∧
      State.Within { regs := [Reg.GWK_FLOW_CFG h f, Reg.GWK_DLY h, Reg.GWK_FLOW_STAT h f, Reg.GWK_STAT h, Reg.GWK_FLOW_CNT h f],
                     halls := [h.val] } s t) ∧
  (∀ (s : State) (h : HallIx) (f : Fin 512) (v : Word), s.part.gweak = true → s.inFrst h = false → s.flowEn h f = false →
    (s.writeFields (Reg.GWK_FLOW_CFG h f) v).flowEn h f = true → ∃ t, exec (.gwkFlowCfgWrite h f v) s = .next t ∧
      ((s.flow h f).svc = none → t.flowEn h f = true ∧ (t.flow h f).parked = false) ∧
      ((s.flow h f).svc ≠ none → t.flowEn h f = false ∧ t.flow h f = s.flow h f) ∧
      State.Within { regs := [Reg.GWK_FLOW_CFG h f, Reg.GWK_FLOW_STAT h f], halls := [h.val] } s t) ∧
  (∀ (s : State) (h : HallIx) (f : Fin 512) (v : Word), s.part.gweak = true → s.inFrst h = false → 
    (s.writeFields (Reg.GWK_FLOW_CFG h f) v).flowEn h f = s.flowEn h f →
    ∃ t, exec (.gwkFlowCfgWrite h f v) s = .next t ∧ t.reg (Reg.GWK_FLOW_CFG h f) = (s.writeFields (Reg.GWK_FLOW_CFG h f) v).reg (Reg.GWK_FLOW_CFG h f) ∧
      State.Within { regs := [Reg.GWK_FLOW_CFG h f, Reg.GWK_FLOW_STAT h f] } s t) ∧
  (∀ (s : State) (h : HallIx) (f : Fin 512), s.part.gweak = true → s.inFrst h = false →
    (s.flowState h f = 4 → (s.flow h f).svc = none → ∃ t, exec (.flowResume h f) s = .next t ∧ (t.flow h f).parked = false ∧
      (t.flow h f).ready = (s.flow h f).ready ∧
      State.Within { regs := [Reg.GWK_FLOW_STAT h f, Reg.GWK_TRACE_PTR h, Reg.SYS_EVSTAT], halls := [h.val], fields := [.ev, .free, .net, .reqs, .seqNext] } s t) ∧
    (s.flowState h f ≠ 4 ∨ (s.flow h f).svc ≠ none → exec (.flowResume h f) s = .next s)) ∧
  (∀ (s : State) (h : HallIx) (f : Fin 512), s.part.gweak = true → s.inFrst h = false →
    (s.flowEn h f = true → ∃ t, exec (.flowFlush h f) s = .next t ∧
      (t.flow h f).ready = [] ∧ (t.flow h f).svc = (s.flow h f).svc ∧ (∀ x ∈ (t.gwk h).delay, x.1 ≠ f.val) ∧
      t.gwkItems h = s.gwkItems h - ((s.flow h f).ready.length + s.delayedOf h f) ∧
      State.Within { regs := [Reg.GWK_DLY h, Reg.GWK_FLOW_STAT h f, Reg.GWK_STAT h, Reg.GWK_FLOW_CNT h f, Reg.GWK_TRACE_PTR h, Reg.SYS_EVSTAT],
                     halls := [h.val], fields := [.ev, .free, .net, .reqs, .seqNext] } s t) ∧
    (s.flowEn h f = false → exec (.flowFlush h f) s = .next s)) ∧
  (∀ (s : State) (h : HallIx) (g : Fin 32), s.part.gweak = true → s.inFrst h = false → 
    s.bit (Reg.GWK_SRV_STAT h) Fl.GWK_SRV_STAT_BUSY = true →
    exec (.srvAdd h g) s = .next s ∧ exec (.srvRemove h g) s = .next s ∧ ∀ k, exec (.srvPreload h g k) s = .next s) ∧
  (∀ (s : State) (h : HallIx) (g : Fin 32) (k : Fin 64), s.part.gweak = true → s.inFrst h = false → 
    s.bit (Reg.GWK_SRV_STAT h) Fl.GWK_SRV_STAT_BUSY = false →
    s.ctxSrc (srvGal h g) ≠ 2 ∨ s.domOn h g = false → ∃ t, exec (.srvAdd h g) s = .next t ∧ exec (.srvPreload h g k) s = .next t ∧
      t.fld (Reg.GWK_SRV_STAT h) Fl.GWK_SRV_STAT_RESULT = 1 ∧ State.Within { regs := [Reg.GWK_SRV_STAT h] } s t) ∧
  (∀ (s : State) (h : HallIx) (g : Fin 32), s.part.gweak = true → s.inFrst h = false → 
    s.bit (Reg.GWK_SRV_STAT h) Fl.GWK_SRV_STAT_BUSY = false → s.ctxSrc (srvGal h g) = 2 →
    s.domOn h g = true → ∃ t, exec (.srvAdd h g) s = .next t ∧
      (s.hasServers h g = false → (∀ p, p < 4 → t.srvState h (4 * g + p) = 1) ∧
        t.fld (Reg.GWK_SRV_STAT h) Fl.GWK_SRV_STAT_RESULT = 0 ∧ t.servers (srvGal h g) = 0xF ∧
        State.Within { regs := [Reg.GWK_SRV h (4 * g), Reg.GWK_SRV h (4 * g + 1), Reg.GWK_SRV h (4 * g + 2), Reg.GWK_SRV h (4 * g + 3),
                                Reg.GAL_CTX_STAT (srvGal h g), Reg.GWK_SRV_STAT h, Reg.GWK_TRACE_PTR h, Reg.SYS_EVSTAT],
                       halls := [h.val], fields := [.ev, .free, .net, .reqs, .seqNext] } s t) ∧
      (s.hasServers h g = true → t.fld (Reg.GWK_SRV_STAT h) Fl.GWK_SRV_STAT_RESULT = 2 ∧ State.Within { regs := [Reg.GWK_SRV_STAT h] } s t)) ∧
  (∀ (s : State) (h : HallIx) (g : Fin 32), s.part.gweak = true → s.inFrst h = false → 
    s.bit (Reg.GWK_SRV_STAT h) Fl.GWK_SRV_STAT_BUSY = false → ∃ t,
    exec (.srvRemove h g) s = .next t ∧
      (s.hasServers h g = false → t.fld (Reg.GWK_SRV_STAT h) Fl.GWK_SRV_STAT_RESULT = 2 ∧ State.Within { regs := [Reg.GWK_SRV_STAT h] } s t) ∧
      (s.hasServers h g = true → t.bit (Reg.GWK_SRV_STAT h) Fl.GWK_SRV_STAT_BUSY = true ∧
        (g.val, true) ∈ (t.gwk h).removing ∧
        ∀ v ∈ srvsOf g, t.srvState h v = if s.srvState h v = 3 then 1 else if s.srvState h v = 4 then 5 else s.srvState h v)) ∧
  (∀ (s : State) (h : HallIx) (g : Fin 32) (k : Fin 64) (v : Nat), s.part.gweak = true → s.inFrst h = false → 
    s.bit (Reg.GWK_SRV_STAT h) Fl.GWK_SRV_STAT_BUSY = false →
    s.ctxSrc (srvGal h g) = 2 → s.domOn h g = true → s.hasServers h g = true → (s.gwk h).removing.any (fun x => x.1 == g.val) = false →
    s.victim h g = some v → v < 128 →
    ∃ t, exec (.srvPreload h g k) s = .next t ∧ t.bit (Reg.GWK_SRV_STAT h) Fl.GWK_SRV_STAT_BUSY = true ∧ t.srvState h v = 2 ∧
      (t.srv h v).load = some k.val ∧ (∃ p, p ∈ t.net ∧ p.cmd = 0x14 ∧ p.dstNode = 35 ∧ p.tag.toNat = 512 + v ∧
        p.arg = BitVec.ofNat 224 (packBits [(5, v / 4), (2, v % 4), (5, s.fld (Reg.GWK_CLASS_A h k) Fl.GWK_CLASS_A_SLOT)])) ∧
      State.Within { regs := [Reg.GWK_SRV_STAT h, Reg.GWK_SRV h v, Reg.GWK_CSTAT h k, Reg.GWK_TRACE_PTR h, Reg.SYS_EVSTAT], halls := [h.val],
                     fields := [.ev, .free, .net, .reqs, .seqNext] } s t) ∧
  (∀ (s : State) (h : HallIx) (g : Fin 32) (k : Fin 64), s.part.gweak = true → s.inFrst h = false →
    s.bit (Reg.GWK_SRV_STAT h) Fl.GWK_SRV_STAT_BUSY = false → s.ctxSrc (srvGal h g) = 2 → s.domOn h g = true →
    s.hasServers h g = false ∨ s.victim h g = none → ∃ t, exec (.srvPreload h g k) s = .next t ∧
      t.fld (Reg.GWK_SRV_STAT h) Fl.GWK_SRV_STAT_RESULT = (if s.hasServers h g then 3 else 2) ∧
      State.Within { regs := [Reg.GWK_SRV_STAT h] } s t)

/-- What turns a packet away before its target performs it, for every packet command: one that does not get to its target, or has one
before it in its order, is not performed (R234, R236); a request to a bank whose clock source is being changed waits (R162); a header that
fails its check is counted and the packet dropped (R248); one cut short ends there (R252); behind a link that is not live, a request is
answered UNAVAIL and anything else counted in RETIRED (R251); where no unit lies, a request is answered ABSENT (R8, R30); at a unit under
test, or held by a partial reset and the packet from another hall, a request is answered UNAVAIL and anything else is lost (R57, R447); for a
sleeping unit that must not be woken, or whose wake slot is taken, a request is answered UNAVAIL and counted (R258, R261), and otherwise the
packet waits in the wake slot of its channel (R258); a duplicate is counted and not acted upon (R246); a packet of a form or command that
its port does not take is answered DENIED (R238, R500); and a poisoned request, or one with a unit whose check fails, which is counted, is
answered DATA_ERR (R249). Nothing else of the target changes. -/
def Obligations.PacketsTurnedAway : Prop :=
  ∀ (s : State) (p : Packet) (f : AccFacts) (e : EccFacts) (ov : List Nat) (ue : Bool), ∀ x ∈ packetRows p f e ov ue,
    ∃ t, exec x.2 s = .next t ∧
    let q := asCmd p x.1
    let h := q.dstHall.toNat
    let n := q.dstNode.toNat
    let port := q.dstPort.toNat
    let u := s.take q
    (∀ v, s.reach q = (v, none) → t = v) ∧
    (s.reached q = true → s.waitsForBank q = true → t = s) ∧
    (s.reached q = true → s.waitsForBank q = false →
      (q.hdrBad = true → t.fld (Reg.OMI_ERR h) Fl.OMI_ERR_HDR = satAdd 8 (s.fld (Reg.OMI_ERR h) Fl.OMI_ERR_HDR) 1 ∧
        t.net = s.net.erase q ∧ State.Within { regs := [Reg.OMI_ERR h, Reg.SYS_EVSTAT], fields := [.ev, .net] } s t) ∧
      (q.hdrBad = false → q.badUnits = [] → q.cut = true → t = u) ∧
      (q.hdrBad = false → q.badUnits = [] → q.cut = false → s.attachDead q = true →
        (hasResponse x.1 = true → t = u.respond q .unavail []) ∧
        (hasResponse x.1 = false → t.net = s.net.erase q ∧
          t.fld (Reg.OMI_ERR h) Fl.OMI_ERR_RETIRED = satAdd 8 (s.fld (Reg.OMI_ERR h) Fl.OMI_ERR_RETIRED) 1 ∧
          State.Within { regs := [Reg.OMI_ERR h], fields := [.net] } s t)) ∧
      (q.hdrBad = false → q.badUnits = [] → q.cut = false → s.attachDead q = false → s.nobody h n port = true →
        t = if hasResponse x.1 then u.respond q .absent [] else u) ∧
      (q.hdrBad = false → q.badUnits = [] → q.cut = false → s.attachDead q = false → s.nobody h n port = false →
        (s.testing h 2 && storeUnit n port) = true ∨ s.inFrst h = true ∧ resetUnit n port = true ∧ q.srcHall.toNat ≠ h →
        t = if hasResponse x.1 then u.respond q .unavail [] else u) ∧
      (∀ d, q.hdrBad = false → q.badUnits = [] → q.cut = false → s.attachDead q = false → s.nobody h n port = false →
        s.resetTurns h q = none → domOfPort n port = some d → s.domOn h d = false →
        let k := ((h * 72 + d) * 2 + q.mesh.toNat) * 4 + q.vc.toNat
        (s.noWake h d = true ∨ (Sparse.find s.slots k).isSome = true →
          (hasResponse x.1 = true → State.Sent u t (rspOf q .unavail []) ∧
            t.fld (Reg.OMI_WAKE_STAT h) Fl.OMI_WAKE_STAT_REFUSED = satAdd 8 (s.fld (Reg.OMI_WAKE_STAT h) Fl.OMI_WAKE_STAT_REFUSED) 1) ∧
          (hasResponse x.1 = false →
            t.fld (Reg.OMI_ERR h) Fl.OMI_ERR_RETIRED = satAdd 8 (s.fld (Reg.OMI_ERR h) Fl.OMI_ERR_RETIRED) 1)) ∧
        (s.noWake h d = false → Sparse.find s.slots k = none → Sparse.find t.slots k = some ⟨landedAt q, s.now⟩ ∧ t.net = u.net)) ∧
      (q.hdrBad = false → q.cut = false → s.Open q →
        (s.isDup q = true → q.badUnits = [] → t.fld (Reg.OMI_ERR h) Fl.OMI_ERR_DUP = satAdd 8 (s.fld (Reg.OMI_ERR h) Fl.OMI_ERR_DUP) 1 ∧
          State.Within { regs := [Reg.OMI_ERR h, Reg.SYS_EVSTAT], fields := [.ev, .net] } s t) ∧
        (s.isDup q = false → q.badUnits = [] → malformed q = true ∨ q.poison = false ∧ portTakes n port x.1 = false →
          (hasResponse x.1 = true → t = (s.received q).respond q .denied []) ∧
          (hasResponse x.1 = false → State.Within { regs := [Reg.OMI_ERR h], fields := [.net, .seqRec] } s t)) ∧
        (s.isDup q = false → q.badUnits = [] → malformed q = false → q.poison = true →
          t = if hasResponse x.1 then (s.received q).respond q .dataErr [] else s.received q) ∧
        (s.isDup q = false → q.badUnits ≠ [] → malformed q = false →
          t.fld (Reg.OMI_ERR h) Fl.OMI_ERR_POISON = satAdd 8 (s.fld (Reg.OMI_ERR h) Fl.OMI_ERR_POISON) 1 ∧
          (hasResponse x.1 = true → State.Sent u t (rspOf q .dataErr [])) ∧ (hasResponse x.1 = false → t.net = u.net))))

/-- Requests at a gallery's memory (R169 to R177). One outside the gallery's 8 MiB is answered ABSENT, one at a memory under test UNAVAIL,
one that a bank's access mode does not admit DENIED, and one whose banks' clocks stand still UNAVAIL. Otherwise, with the bank clocks
running, a read is answered OK with the bytes that stand at its address, or DATA_ERR where one of them arrives uncorrectable, and a write
stores each byte whose enable is set and that no prism write of the same cycle took, leaves every other byte of memory, and is answered OK,
or OVERTAKEN where a byte was taken (R174). -/
def Obligations.GalleryMemoryRequests : Prop :=
  (∀ (s : State) (p : Packet) (f : AccFacts), ∀ x ∈ [(1, Instr.rd p f), (2, Instr.wr p f)], let q := asCmd p x.1
    let G := 32 * q.dstHall.toNat + q.dstNode.toNat
    let off := q.addr.toNat / 64 * 64 - memBase G
    let n := 64 * (if x.1 = 2 then q.units.toNat else q.runits.toNat)
    s.Clear q → q.dstNode.toNat < 32 →
    (q.addr.toNat < memBase G ∨ off + n > 0x800000 → exec x.2 s = .next ((s.received q).respond q .absent [])) ∧
    (memBase G ≤ q.addr.toNat → off + n ≤ 0x800000 → s.galTesting G 0 = true → exec x.2 s = .next ((s.received q).respond q .unavail [])) ∧
    (∀ b, memBase G ≤ q.addr.toNat → off + n ≤ 0x800000 → s.galTesting G 0 = false → ownRequest G q = false →
      ((bankChunks off n).map (fun c => bankOf c.1)).find? (fun b => !s.aclAdmits G b q (x.1 == 2)) = some b →
      ∃ t, exec x.2 s = .next t ∧ State.Sent (s.received q) t (rspOf q .denied []) ∧
        t.fld (Reg.GAL_MEM_STAT G) Fl.GAL_MEM_STAT_ACL_DENIED = satAdd 8 (s.fld (Reg.GAL_MEM_STAT G) Fl.GAL_MEM_STAT_ACL_DENIED) 1 ∧
        ∀ k, t.readByte k = s.readByte k) ∧
    (memBase G ≤ q.addr.toNat → off + n ≤ 0x800000 → s.galTesting G 0 = false →
      (ownRequest G q = true ∨ ∀ c ∈ bankChunks off n, s.aclAdmits G (bankOf c.1) q (x.1 == 2) = true) →
      (∀ c ∈ bankChunks off n, s.bankClockRuns G (bankOf c.1) = false) →
      ∃ d, exec x.2 s = .next ((s.received q).respond q .unavail d))) ∧
  (∀ (s : State) (p : Packet) (f : AccFacts), let q := asCmd p 1
    let G := 32 * q.dstHall.toNat + q.dstNode.toNat
    let off := q.addr.toNat / 64 * 64 - memBase G
    let n := 64 * q.runits.toNat
    s.Clear q → q.dstNode.toNat < 32 → memBase G ≤ q.addr.toNat → off + n ≤ 0x800000 → s.galTesting G 0 = false →
    (ownRequest G q = true ∨ ∀ c ∈ bankChunks off n, s.aclAdmits G (bankOf c.1) q false = true) →
    (∀ c ∈ bankChunks off n, s.bankClockRuns G (bankOf c.1) = true) →
    (s.placesWith (memBase G + off) n 2 f.ecc = [] → ∃ t, exec (.rd p f) s = .next t ∧
      State.Sent (s.received q) t (rspOf q .ok (s.unitsAt (memBase G + off) q.runits.toNat)) ∧
      State.Within { regs := [Reg.GAL_MEM_ECC G], gals := [G], fields := [.net, .reqs, .seqNext, .seqRec] } s t) ∧
    (s.placesWith (memBase G + off) n 2 f.ecc ≠ [] → ∃ (v : State) (d : List (BitVec 512)), exec (.rd p f) s = .next (v.respond q .dataErr d))) ∧
  (∀ (s : State) (p : Packet) (f : AccFacts), let q := asCmd p 2
    let G := 32 * q.dstHall.toNat + q.dstNode.toNat
    let off := q.addr.toNat / 64 * 64 - memBase G
    let n := 64 * q.units.toNat
    s.Clear q → q.dstNode.toNat < 32 → memBase G ≤ q.addr.toNat → off + n ≤ 0x800000 → s.galTesting G 0 = false →
    (ownRequest G q = true ∨ ∀ c ∈ bankChunks off n, s.aclAdmits G (bankOf c.1) q true = true) →
    (∀ c ∈ bankChunks off n, s.bankClockRuns G (bankOf c.1) = true) →
    ∃ t, exec (.wr p f) s = .next t ∧
      State.Sent (s.received q) t (rspOf q (if (writeLanes q).zipIdx.any (fun x => x.1.2 && f.ovt.contains x.2) then .overtaken else .ok) []) ∧
      (∀ i, i < n → t.readByte (memBase G + off + i) =
        (if ((writeLanes q).getD i (0, false)).2 && !f.ovt.contains i then ((writeLanes q).getD i (0, false)).1 else s.readByte (memBase G + off + i))) ∧
      State.Within { regs := [Reg.GAL_MEM_STAT G], bytes := [(memBase G + off, n)], gals := [G],
                     fields := [.net, .reqs, .seqNext, .seqRec] } s t)

/-- Queue, vault and register requests. A push or pop of rows is refused whole with UNAVAIL when the queue has no room or too few rows, and
otherwise moves TAIL or HEAD and FILL row by row, stores or delivers its rows, and is answered OK (R184, R185); a push some of whose bytes a
prism write of the same cycle took leaves those bytes, counts the beats in OVERTAKEN and is answered OVERTAKEN (R174). The vault answers
DENIED where a check fails, UNAVAIL where it is not READY, and otherwise reads or writes its bytes (R389). A register request of the
management port outside the register region is answered DENIED (R500); one within it reads or writes each word whose four byte enables are
set, as host software does, and one that enables a word in part is answered DENIED (R241, R461); what an unselected word reads as is free. -/
def Obligations.QueueVaultAndRegisterRequests : Prop :=
  (∀ (s : State) (p : Packet) (ov : List Nat), let q := asCmd p 3
    let G := 32 * q.dstHall.toNat + q.dstNode.toNat
    let off := q.addr.toNat / 64 * 64 - memBase G
    let b := bankOf off
    let n := q.units.toNat / 2
    let beats := (((ov.filter (fun y => decide (y < 128 * n))).map (· / 32)).eraseDups).length
    s.Clear q → q.dstNode.toNat < 32 → memBase G ≤ q.addr.toNat → off % 0x40000 = 0 → off < 0x800000 → s.galTesting G 0 = false →
    s.qOn G b = true → s.bankClockRuns G b = true →
    s.queueBarred G q ((List.range n).map (fun i => s.qBank G b ((s.qTail G b + i) % max 1 (s.qSize G b)))) = none →
    ∃ t, exec (.qpush ⟨p, ov⟩) s = .next t ∧
      (s.qFill G b + n > s.qSize G b → ∃ v : State, t = v.respond q .unavail [] ∧ v.bit (Reg.GAL_Q_STAT G b) Fl.GAL_Q_STAT_OVF = true ∧
        t.qFill G b = s.qFill G b ∧ t.qTail G b = s.qTail G b) ∧
      (s.qFill G b + n ≤ s.qSize G b → (∃ v : State, t = v.respond q (if beats = 0 then .ok else .overtaken) []) ∧
        t.fld (Reg.GAL_MEM_STAT G) Fl.GAL_MEM_STAT_OVERTAKEN = satAdd Fl.GAL_MEM_STAT_OVERTAKEN.width
          (s.fld (Reg.GAL_MEM_STAT G) Fl.GAL_MEM_STAT_OVERTAKEN) beats ∧ t.qFill G b = s.qFill G b + n ∧ t.qTail G b = ringOff (s.qSize G b) n (s.qTail G b) ∧ t.qHead G b = s.qHead G b) ∧
      (n = 1 → s.qFill G b + 1 ≤ s.qSize G b → ∀ i, i < 128 → t.readByte (memBase G + s.qOff G b (s.qTail G b) + i) =
        if ov.contains i then s.readByte (memBase G + s.qOff G b (s.qTail G b) + i)
        else BitVec.ofNat 8 (((q.data.getD 1 0) ++ (q.data.getD 0 0) : BitVec 1024).toNat / 2 ^ (8 * i)))) ∧
  (∀ (s : State) (p : Packet) (f : EccFacts), let q := asCmd p 4
    let G := 32 * q.dstHall.toNat + q.dstNode.toNat
    let off := q.addr.toNat / 64 * 64 - memBase G
    let b := bankOf off
    let n := q.runits.toNat / 2
    s.Clear q → q.dstNode.toNat < 32 → memBase G ≤ q.addr.toNat → off % 0x40000 = 0 → off < 0x800000 → s.galTesting G 0 = false →
    s.qOn G b = true → s.bankClockRuns G b = true →
    s.queueBarred G q ((List.range n).map (fun i => s.qBank G b ((s.qHead G b + i) % max 1 (s.qSize G b)))) = none →
    ∃ t, exec (.qpop p f) s = .next t ∧
      (s.qFill G b < n → ∃ v : State, t = v.respond q .unavail [] ∧ v.bit (Reg.GAL_Q_STAT G b) Fl.GAL_Q_STAT_UNF = true ∧
        t.qFill G b = s.qFill G b ∧ t.qHead G b = s.qHead G b) ∧
      (n ≤ s.qFill G b → (∃ (v : State) (st : OSt) (d : List (BitVec 512)), t = v.respond q st d ∧ d.length = 2 * n) ∧ t.qFill G b = s.qFill G b - n ∧
        t.qHead G b = ringOff (s.qSize G b) n (s.qHead G b) ∧ t.qTail G b = s.qTail G b) ∧
      (n = 1 → 1 ≤ s.qFill G b → s.placesWith (memBase G + s.qOff G b (s.qHead G b)) 128 2 f = [] → ∃ v : State, t = v.respond q .ok
        [(BitVec.ofNat 1024 (natOfBytes (s.readBytes (memBase G + s.qOff G b (s.qHead G b)) 128))).setWidth 512,
         (BitVec.ofNat 1024 (natOfBytes (s.readBytes (memBase G + s.qOff G b (s.qHead G b)) 128)) >>> 512).setWidth 512])) ∧
  (∀ (s : State) (p : Packet) (ue : Bool), ∀ x ∈ [(5, Instr.srd p ue), (6, Instr.swr p)], let q := asCmd p x.1
    s.Clear q → q.dstNode.toNat = 36 → q.dstPort.toNat = 6 → ∃ t, exec x.2 s = .next t ∧
    (∀ k, s.vaultCheck q = some k → State.Sent (s.received q) t (rspOf q (if k = 5 then .unavail else .denied) []) ∧
      ∀ a, t.readByte a = s.readByte a) ∧
    (s.vaultCheck q = none → x.1 = 5 → t = (s.received q).respond q (if ue then .dataErr else .ok)
      (if ue then List.replicate q.runits.toNat 0 else s.unitsAt (q.addr.toNat / 64 * 64) q.runits.toNat)) ∧
    (s.vaultCheck q = none → x.1 = 6 → t = ((s.received q).writeEnabled (q.addr.toNat / 64 * 64) (writeLanes q)).respond q .ok [])) ∧
  (∀ (s : State) (p : Packet), ∀ x ∈ [(0xC0, Instr.mrd p), (0xC1, Instr.mwr p)], let q := asCmd p x.1
    let a := q.addr.toNat / 64 * 64
    s.Clear q → a < regBase ∨ regBase + 0x100000000 < a + 64 → exec x.2 s = .next ((s.received q).respond q .denied [])) ∧
  (∀ (s : State) (p : Packet), ∀ x ∈ [(0xC0, Instr.mrd p), (0xC1, Instr.mwr p)], let q := asCmd p x.1
    let a := q.addr.toNat / 64 * 64
    s.Clear q → regBase ≤ a → a + 64 ≤ regBase + 0x100000000 → (∃ i, i < 16 ∧ regEnables q i ≠ 15 ∧ regEnables q i ≠ 0) →
    ∃ (v : State) (d : List (BitVec 512)), exec x.2 s = .next (v.respond q .denied d)) ∧
  (∀ (s : State) (p : Packet) (i : Fin 16), let q := asCmd p 0xC1
    let a := q.addr.toNat / 64 * 64
    let u : State := { s.received q with free := s.free + i }
    let r := u.writeReg .host (a - regBase + 4 * i) (regDatum q i)
    s.Clear q → regBase ≤ a → a + 64 ≤ regBase + 0x100000000 → q.beFirst = BitVec.ofNat 64 (0xF * 2 ^ (4 * i.val)) →
    exec (.mwr p) s = .next (({ r.1 with free := r.1.free + (15 - i) } : State).respond q r.2 [])) ∧
  (∀ (s : State) (p : Packet) (i : Fin 16), let q := asCmd p 0xC0
    let a := q.addr.toNat / 64 * 64
    let u : State := { s.received q with free := s.free + i }
    let r := u.readReg (a - regBase + 4 * i)
    s.Clear q → regBase ≤ a → a + 64 ≤ regBase + 0x100000000 → q.beFirst = BitVec.ofNat 64 (0xF * 2 ^ (4 * i.val)) →
    ∃ l, l.length = 16 ∧ l.getD i 0 = r.2.2 ∧
      exec (.mrd p) s = .next (({ r.1 with free := r.1.free + (15 - i) } : State).respond q r.2.1 [unitOf l]))

/-- Messages, items, load requests and reports, enqueues, DONE packets and transmit requests at their units, and responses and notices. A
message joins the gallery's message queue (R107); an item waits for its plane, which is asked for when it is READY and not active (R108,
R133); a load request is queued and answered OK, or refused with its status (R143); a load report shows what a plane holds (R128, R208) and
ends a preload, with RESULT 4 and the exclusion of R213 where the load failed (R225); an enqueue for another hall's flow is sent on to it, and one for a flow of this hall is checked and answered (R200,
R222); a DONE packet that no server awaits is counted as stray, and one with end 0 completes the item (R214); a transmit request joins its
queue or is answered DENIED or UNAVAIL (R331); a response completes the request that waits for it, and one that nothing waits for is dropped
and counted, in DROPPED where a partial reset retired the request (R57, R245); a notice of a dead channel fences this end and raises
LINK_DEAD with argument 0 (R257), and any other notice is only received. -/
def Obligations.UnitPackets : Prop :=
  (∀ (s : State) (p : Packet), let q := asCmd p 0x10
    let G := 32 * q.dstHall.toNat + q.dstNode.toNat
    s.Clear q → ∃ t, exec (.msg p) s = .next t ∧ (t.gal G).tq = (s.gal G).tq ++ [q] ∧
      State.Within { gals := [G], fields := [.net, .seqRec] } s t) ∧
  (∀ (s : State) (p : Packet), let q := asCmd p 0x12
    let G := 32 * q.dstHall.toNat + q.dstNode.toNat
    let k := q.arg.toNat % 4
    s.Clear q → ∃ t, exec (.item p) s = .next t ∧
      (t.gal G).it = (s.gal G).it ++ [⟨k, (q.data.headD 0).setWidth 256, false⟩] ∧
      (s.activePlane G = some k ∨ s.ctxSrc G ≠ 2 ∨ s.planeState G k ≠ 2 → State.Within { gals := [G], fields := [.net, .seqRec] } s t) ∧
      (s.activePlane G ≠ some k → s.ctxSrc G = 2 → s.planeState G k = 2 → t.bit (Reg.GAL_CTX_STAT G) Fl.GAL_CTX_STAT_PENDING = true ∧
        t.fld (Reg.GAL_CTX_STAT G) Fl.GAL_CTX_STAT_PEND_PLANE = k)) ∧
  (∀ (s : State) (p : Packet), let q := asCmd p 0x14
    let h := q.dstHall.toNat
    let a := q.arg.toNat
    let G := 32 * h + bitsOf a 0 5
    let r : LoadReq := ⟨bitsOf a 5 2, bitsOf a 7 5, false, .gweak⟩
    s.Clear q → s.loaderTested (G / 32) = false → ∃ t, exec (.loadreq p) s = .next t ∧
      (s.loadCheck G r false = none → (t.gal G).loadQ = (s.gal G).loadQ ++ [r] ∧
        State.Sent (s.received q) t { rspOf q .ok [] with arg := 0 }) ∧
      (∀ x, s.loadCheck G r false = some x → (t.gal G).loadQ = (s.gal G).loadQ ∧
        ∃ n, State.Sent (s.received q) t { rspOf q x.2 [] with arg := n })) ∧
  (∀ (s : State) (p : Packet), let q := asCmd p 0x15
    let h := q.dstHall.toNat
    let a := q.arg.toNat
    let v := 4 * bitsOf a 0 5 + bitsOf a 5 2
    let st := bitsOf a 7 3
    let id := bitsOf a 10 16
    s.Clear q → bitOf a 30 = false → s.srvState h v ≠ 0 → ∃ t, exec (.loadrpt p) s = .next t ∧
      ((s.srv h v).load = none → (t.bit (Reg.GWK_SRV h v) Fl.GWK_SRV_RESIDENT = (st == 2 || st == 3)) ∧
        t.fld (Reg.GWK_SRV h v) Fl.GWK_SRV_IMAGE_ID = (if st == 2 || st == 3 then id else 0) ∧
        State.Within { regs := [Reg.GWK_SRV h v], halls := [h], fields := [.net, .seqRec] } s t) ∧
      (∀ k : Fin 64, (s.srv h v).load = some k.val → (s.srv h v).loaded = false → st = 2 → s.srvState h v = 2 → id = s.classImg h k →
        t.srvState h v = 1 ∧ (t.srv h v).load = none ∧ t.bit (Reg.GWK_SRV_STAT h) Fl.GWK_SRV_STAT_BUSY = false ∧
        t.fld (Reg.GWK_SRV_STAT h) Fl.GWK_SRV_STAT_RESULT = 0) ∧
      (∀ k : Fin 64, (s.srv h v).load = some k.val → (s.srv h v).loaded = false → st = 4 → s.srvState h v = 2 →
        t.srvState h v = 1 ∧ t.bit (Reg.GWK_SRV_STAT h) Fl.GWK_SRV_STAT_BUSY = false ∧
        t.fld (Reg.GWK_SRV_STAT h) Fl.GWK_SRV_STAT_RESULT = 4 ∧
        bitOf (t.fld (Reg.GWK_CLASS_EXCL h k) Fl.GWK_CLASS_EXCL_BITS) (bitsOf a 0 5) = true)) ∧
  (∀ (s : State) (p : Packet), let q := asCmd p 0x11
    let h := q.dstHall.toNat
    let d : BitVec 256 := (q.data.headD 0).setWidth 256
    s.Clear q → ∃ t, exec (.enq p) s = .next t ∧
      (dFlow d / 512 ≠ h → State.Sent (s.received q) t
          { q with dstHall := BitVec.ofNat 3 (dFlow d / 512), data := [(putBits d 23 1 1).setWidth 512], arg := 1, hops := 0 } ∧
        t.reqs = s.reqs ∧ State.Within { fields := [.net, .seqRec, .seqNext] } s t) ∧
      (dFlow d / 512 = h → (∀ row, s.enqCheck h d q.srcHall.toNat q.srcNode.toNat (q.srcNode == 32) = .denied row →
          (∃ v : State, t = v.respond q .denied []) ∧ t.gwkItems h = s.gwkItems h) ∧
        (∀ r, s.enqCheck h d q.srcHall.toNat q.srcNode.toNat (q.srcNode == 32) = .exhausted r →
          (∃ v : State, t = v.respond q .exhausted []) ∧ t.gwkItems h = s.gwkItems h) ∧
        (s.enqCheck h d q.srcHall.toNat q.srcNode.toNat (q.srcNode == 32) = .accepted →
          (∃ v : State, t = v.respond q .ok []) ∧ t.gwkItems h = s.gwkItems h + 1 ∧
          t.flowHolds h (dFlow d % 512) = s.flowHolds h (dFlow d % 512) + 1))) ∧
  (∀ (s : State) (p : Packet), let q := asCmd p 0x13
    let h := q.dstHall.toNat
    let v := bitsOf q.arg.toNat 0 8 % 128
    s.Clear q → ∃ t, exec (.doneMsg p) s = .next t ∧
      (s.srvState h v ≠ 4 → s.srvState h v ≠ 5 → t.fld (Reg.GWK_STAT h) Fl.GWK_STAT_STRAY =
        satAdd Fl.GWK_STAT_STRAY.width (s.fld (Reg.GWK_STAT h) Fl.GWK_STAT_STRAY) 1) ∧
      (∀ d, s.srvState h v = 4 ∨ s.srvState h v = 5 → (s.srv h v).orphan = false → (s.srv h v).item = some d → bitsOf q.arg.toNat 8 3 = 0 →
        (t.flow h (dFlow d % 512)).svc = none ∧ (s.srvState h v = 5 → t.srvState h v = 0) ∧ t.gwkItems h = s.gwkItems h - 1)) ∧
  (∀ (s : State) (p : Packet), let q := asCmd p 0x16
    let h := q.dstHall.toNat
    let e := q.dstPort.toNat
    let d : BitVec 256 := (q.data.headD 0).setWidth 256
    let k := bitsOf q.arg.toNat 0 3
    let port := s.fld (Reg.ETH_TXQ h e k) Fl.ETH_TXQ_PORT
    let len := bitsOf d.toNat 80 24
    let u := s.received q
    s.Clear q → ∃ t, exec (.xmit p) s = .next t ∧
      (len = 0 ∨ len > s.maxLen h e port - 4 → t = u.respond q .denied []) ∧
      (len ≠ 0 → len ≤ s.maxLen h e port - 4 → s.portUp h e port = false ∨ (Sparse.get (s.eth h e).txq [] k).length ≥ 16 →
        t = u.respond q .unavail []) ∧
      (len ≠ 0 → len ≤ s.maxLen h e port - 4 → s.portUp h e port = true → (Sparse.get (s.eth h e).txq [] k).length < 16 →
        ∃ v w : State, t = w.ethPump h e pumpFuel ∧ w = (v.respond q .ok []).ethFetch h e ∧
          Sparse.get (v.eth h e).txq [] k = Sparse.get (s.eth h e).txq [] k ++ [{ desc := d }])) ∧
  (∀ (s : State) (p : Packet), let q := asCmd p 0x80
    let h := q.dstHall.toNat
    let n := q.dstNode.toNat
    let port := q.dstPort.toNat
    s.reached q = true → q.cut = false → q.hdrBad = false → q.badUnits = [] → s.attachDead q = false →
    (domOfPort n port).all (s.domOn h) = true → s.isDup q = false → ∃ t, exec (.rsp p) s = .next t ∧
      (s.answered q = none → 2 ≤ s.fld (Reg.FRST_STAT h) Fl.FRST_STAT_STATE → n < 35 →
        t.fld (Reg.FRST_STAT h) Fl.FRST_STAT_DROPPED = satAdd 16 (s.fld (Reg.FRST_STAT h) Fl.FRST_STAT_DROPPED) 1 ∧ t.reqs = s.reqs) ∧
      (s.answered q = none → s.fld (Reg.FRST_STAT h) Fl.FRST_STAT_STATE < 2 →
        t.fld (Reg.OMI_ERR h) Fl.OMI_ERR_RETIRED = satAdd 8 (s.fld (Reg.OMI_ERR h) Fl.OMI_ERR_RETIRED) 1 ∧ t.reqs = s.reqs) ∧
      (∀ r, s.answered q = some r → t = (((s.received q).dropReq r).istatAdd r.p
          (if q.poison = true ∧ q.status = 0 then 1 else q.status.toNat) (s.now - r.t)).completes r.p
          (if q.poison = true ∧ q.status = 0 then 1 else q.status.toNat) q.data q.arg) ∧
      (∀ r, s.answered q = some r → r.p.srcNode = 32 → r.p.tag = 1000 → q.poison = false →
        t.bit (Reg.GWK_ENQ_RSP r.p.srcHall.toNat) Fl.GWK_ENQ_RSP_BUSY = false ∧
        t.fld (Reg.GWK_ENQ_RSP r.p.srcHall.toNat) Fl.GWK_ENQ_RSP_STATUS = q.status.toNat ∧ t.reqs = s.reqs.erase r)) ∧
  (∀ (s : State) (h : HallIx) (k : NoticeKind) (p : Packet), s.reached p = true → p.cut = false → p.hdrBad = false → p.poison = false → p.badUnits = [] →
    s.isDup p = false → ∃ t, exec (.notice h k p) s = .next t ∧
      (k = .reroute ∨ k = .wake → t = s.received p) ∧
      (∀ j c x, k = .dead j c → corridorOf h j = some x → s.chanSt x h c = 0 → s.chanSt x (farHall x h) c = 1 →
        t.chanSt x h c = 1 ∧ (s.ev.recs.length < 253 → s.record Ev.LINK_DEAD h x (packArgs [(10, c), (1, 0)]) ∈ t.ev.recs)) ∧
      (∀ j c x, k = .dead j c → corridorOf h j = some x → s.chanSt x h c ≠ 0 → t = s.received p))

/-- Links, corridors and lost answers. A packet of no packet in flight comes to the router's input; one that stands elsewhere, or whose
unit can send nothing, stays. One that arrives is dropped and counted when its header is bad (R248), counted and made poisoned when a unit
fails its check (R249), and seen by the lens probes of that input that match it (R262). One that waits in the router stays while its output
has no room or another goes first (R232, R242); otherwise it goes on by its route to the next router's input, over its corridor in the
mesh it is given and with HOPS advanced, or to its target (R234, R253), and is answered UNAVAIL where no live route leads on (R251). A link
found dead is fenced and reported once, and what was started on it and not confirmed is replayed (R251, R252, R257); what a dead link still
says is counted as a late speaker (R254); re-admission tests a dead link, which comes back live with LATE cleared or stays dead with LATE
kept by the result, and fails at once where the unit behind it is down (R255, R66). A request whose time runs out completes with UNAVAIL
(R245); a packet whose wake slot expires is counted, and is answered UNAVAIL or counted in RETIRED (R260). A snapshot shows an initiator's
counters and clears them (R264). -/
def Obligations.LinksAndTimeouts : Prop :=
  (∀ (s : State) (h : HallIx) (n : Fin 40) (d : Fin 8) (p : Packet) (a b : Nat) (lost conf : Bool), ∃ t,
    exec (.routerPacket h n d p a b ⟨lost, conf⟩) s = .next t ∧
    (∀ q, p ∉ s.net → q = { p with spot := some { hall := h, node := n, side := d, mesh := p.mesh.toNat } } →
      exec (.routerPacket h n d q a b ⟨lost, conf⟩) (s.putNet [q]) = .next t) ∧
    (p ∈ s.net → (spotOf p).hall ≠ h ∨ (spotOf p).node ≠ n ∨ ((spotOf p).side ≠ d ∧ (spotOf p).side ≠ 8) → t = s) ∧
    (p ∈ s.net → standsIn h n d p → s.unitMute p = true → t = s) ∧
    (p ∈ s.net → standsIn h n d p → s.unitMute p = false → p.spot.isSome = true ∨ s.noRoom p (s.hopOf p) = false →
      (spotOf p).inside = false →
      (p.hdrBad = true → t.fld (Reg.OMI_ERR h) Fl.OMI_ERR_HDR = satAdd 8 (s.fld (Reg.OMI_ERR h) Fl.OMI_ERR_HDR) 1 ∧ t.net = s.net.erase p) ∧
      (p.hdrBad = false → ¬ (p.dstHall.toNat = h ∧ n = p.dstNode.toNat) →
        (p.badUnits ≠ [] → t.fld (Reg.OMI_ERR h) Fl.OMI_ERR_POISON = satAdd 8 (s.fld (Reg.OMI_ERR h) Fl.OMI_ERR_POISON) 1) ∧
        (∀ k : Fin 8, s.linkState h (linkIx (spotOf p).mesh n (spotOf p).side) ≠ 1 →
          s.linkState h (linkIx (spotOf p).mesh n (spotOf p).side) ≠ 3 →
          s.probeSees h k (spotOf p).mesh n (spotOf p).side 0 p = true →
          t.fld (Reg.LENS_PKTS h k) Fl.LENS_PKTS_COUNT = satAdd 32 (s.fld (Reg.LENS_PKTS h k) Fl.LENS_PKTS_COUNT) 1))) ∧
    (p ∈ s.net → standsIn h n d p → (spotOf p).inside = true → s.unitMute p = false →
      (s.noRoom p (s.hopOf p) = true ∨ s.outbid p (s.hopOf p) = true → t = s) ∧
      (s.noRoom p (s.hopOf p) = false → s.outbid p (s.hopOf p) = false →
        (∀ d' m via j, s.hopOf p = .side d' m via → linkPeer (linkIx m n d') = some j → t.net = s.net.replace p
          { p with mesh := BitVec.ofNat 1 m, spot := some { hall := h, node := linkNode j, side := linkSide j, mesh := m, via := via } }) ∧
        (∀ k m c, s.hopOf p = .corridor k m → corridorOf h k = some c →
          s.chanSt c (farHall c h) (s.chanFor c h m (orderKey p)) ≠ 1 → t.net = s.net.replace p
          { p with mesh := BitVec.ofNat 1 m, hops := p.hops + 1,
                   spot := some { hall := farHall c h, node := 37 + (if k = 2 then 2 else 1 - k), side := 4, mesh := m,
                                  chan := some (s.chanFor c h m (orderKey p)) } }) ∧
        (s.hopOf p = .target → 0x80 ≤ p.cmd.toNat → p.cmd.toNat < 0xC0 → knownCmd p.cmd.toNat = true →
          t.net = s.net.replace p { p with spot := some { spotOf p with inside := true, target := true } }) ∧
        (s.hopOf p = .none → hasResponse p.cmd.toNat = true → State.Sent (s.take p) t (rspOf p .unavail []))))) ∧
  (∀ (s : State) (h : HallIx) (i : Fin 640) (part : List (Fin 4 × Bool)), ∃ t, exec (.linkDead h ⟨.link i, part⟩) s = .next t ∧
    (s.linkState h i ≠ 0 → t = s) ∧
    (s.linkState h i = 0 → t.linkState h i = 1 ∧ (∀ j, linkPeer i = some j → (t.link h j).st = 1) ∧
      (s.evRoom → State.Queued s t (s.record Ev.LINK_DEAD h 63 (packArgs [(10, i), (1, 1)]))) ∧
      (∀ q ∈ s.linkCopies h i, replayOf h (linkNode i) (1 - i / 320) q ∈ t.net) ∧
      State.Within { regs := evRegs, halls := [h.val], fields := [.ev, .net] } s t)) ∧
  (∀ (s : State) (h : HallIx) (k : Fin 3) (ch : Fin 5) (c : Nat) (part : List (Fin 4 × Bool)), corridorOf h k = some c →
    s.chanSt c h ch = 0 → s.fenceBit c ch = false → s.hallFence c = false →
    ∃ t, exec (.linkDead h ⟨.channel k ch, part⟩) s = .next t ∧ t.chanSt c h ch = 1 ∧
      bitOf (t.fld (Reg.CORR_STAT h k) Fl.CORR_STAT_FENCED) ch = true ∧
      (s.ev.recs.length < 253 →
        s.record Ev.LINK_DEAD h c (packArgs [(10, ch), (1, b2n (s.chanSt c (farHall c h) ch == 0))]) ∈ t.ev.recs) ∧
      (∀ q ∈ s.chanCopies c h ch, replayOf h (37 + k) q.mesh.toNat { q with hops := q.hops - 1 } ∈ t.net)) ∧
  (∀ (s : State) (h : HallIx) (i : Fin 640), ∃ t, exec (.lateSpeaker h (.link i)) s = .next t ∧
    (s.linkState h i ≠ 1 → t = s) ∧
    (s.linkState h i = 1 → (t.link h i).late = satAdd 16 (s.link h i).late 1 ∧
      t.fld (Reg.OMI_LATE h) Fl.OMI_LATE_COUNT = satAdd Fl.OMI_LATE_COUNT.width (s.fld (Reg.OMI_LATE h) Fl.OMI_LATE_COUNT) 1 ∧
      ((s.link h i).spoke = false → s.evRoom → State.Queued s t (s.record Ev.LATE_SPEAKER h 63 (packArgs [(10, i)]))))) ∧
  (∀ (s : State) (h : HallIx) (k : Fin 3) (ch : Fin 5) (c : Nat), corridorOf h k = some c → s.chanSt c h ch = 1 →
    ∃ t, exec (.lateSpeaker h (.channel k ch)) s = .next t ∧
      t.fld (Reg.OMI_LATE h) Fl.OMI_LATE_COUNT = satAdd Fl.OMI_LATE_COUNT.width (s.fld (Reg.OMI_LATE h) Fl.OMI_LATE_COUNT) 1 ∧
      ((s.corr c).spoke.contains (5 * h + ch) = false → s.evRoom →
        State.Queued s t (s.record Ev.LATE_SPEAKER h c (packArgs [(10, ch)])))) ∧
  (∀ (s : State) (h : HallIx) (i : Fin 640), ∃ t, exec (.linkReadmit h i) s = .next t ∧
    (s.linkState h i ≠ 1 → t = s) ∧
    (s.linkState h i = 1 → s.unitDown h i = false → t.linkState h i = 2) ∧
    (s.linkState h i = 1 → s.unitDown h i = true → t.linkState h i = 1 ∧ (t.link h i).result = 4 ∧ (t.link h i).late = (s.link h i).late ∧
      (s.evRoom → State.Queued s t (s.record Ev.LINK_TEST_FAIL h 63 (packArgs [(10, i), (3, 4)]))))) ∧
  (∀ (s : State) (h : HallIx) (i : Fin 640) (r : Fin 3), ∃ t, exec (.linkSelfTestDone h (.link i) r) s = .next t ∧
    (s.linkState h i ≠ 2 → t = s) ∧
    (s.linkState h i = 2 → t.linkState h i = (if r.val = 0 then 0 else 1) ∧ (t.link h i).result = r + 1 ∧
      (t.link h i).late = (if r.val = 0 then 0 else (s.link h i).late) ∧
      (s.evRoom → State.Queued s t (s.record (if r.val = 0 then Ev.LINK_READMITTED else Ev.LINK_TEST_FAIL) h 63
        (packArgs (if r.val = 0 then [(10, i)] else [(10, i), (3, r + 1)])))))) ∧
  (∀ (s : State) (h : HallIx) (k : Fin 3) (ch : Fin 5) (r : Fin 3) (c : Nat), corridorOf h k = some c → s.chanOf c ch = 2 → ∃ t,
    exec (.linkSelfTestDone h (.channel k ch) r) s = .next t ∧ t.chanOf c ch = (if r.val = 0 then 0 else 1)) ∧
  (∀ (s : State) (h : HallIx) (n : Fin 64) (q : Fin 8) (tag : Fin 1024), ∃ t, exec (.rspTimeout h n q tag) s = .next t ∧
    (s.findReq h n q tag = none → t = s) ∧
    (∀ r, s.findReq h n q tag = some r → t = ((s.dropReq r).istatAdd r.p 4 (s.fld (Reg.OMI_CFG h) Fl.OMI_CFG_RSP_TO * 100000)).completes
      r.p 4 [] 0) ∧
    (∀ r, s.findReq h n q tag = some r → r.p.srcNode = 32 → r.p.tag = 1000 →
      t.bit (Reg.GWK_ENQ_RSP r.p.srcHall.toNat) Fl.GWK_ENQ_RSP_BUSY = false ∧
      t.fld (Reg.GWK_ENQ_RSP r.p.srcHall.toNat) Fl.GWK_ENQ_RSP_STATUS = 4 ∧ t.reqs = s.reqs.erase r)) ∧
  (∀ (s : State) (h : HallIx) (d : Fin 72) (m : Fin 2) (vc : Fin 4), ∃ t, exec (.wakeTimeout h ⟨d, m⟩ vc) s = .next t ∧
    (Sparse.find s.slots (((h * 72 + d) * 2 + m) * 4 + vc) = none → t = s) ∧
    (∀ x, Sparse.find s.slots (((h * 72 + d) * 2 + m) * 4 + vc) = some x → Sparse.find t.slots (((h * 72 + d) * 2 + m) * 4 + vc) = none ∧
      t.fld (Reg.OMI_WAKE_STAT h) Fl.OMI_WAKE_STAT_TIMEOUT = satAdd 8 (s.fld (Reg.OMI_WAKE_STAT h) Fl.OMI_WAKE_STAT_TIMEOUT) 1 ∧
      (hasResponse x.p.cmd.toNat = true → State.Sent s t (rspOf x.p .unavail [])) ∧
      (hasResponse x.p.cmd.toNat = false →
        t.fld (Reg.OMI_ERR h) Fl.OMI_ERR_RETIRED = satAdd 8 (s.fld (Reg.OMI_ERR h) Fl.OMI_ERR_RETIRED) 1))) ∧
  (∀ (s : State) (h : HallIx), ∃ t, exec (.istatSnap h) s = .next t ∧
    (∀ i : Fin 41, i.val < 39 ∨ h.val = 0 →
      (∀ r ∈ istatView h i (Sparse.get s.istat {} (h * 48 + i)), t.reg r.1 = BitVec.ofNat 32 r.2) ∧ Sparse.find t.istat (h * 48 + i) = none))

/-- Encrypted ranges. Enabling a range that is OFF makes it WAIT with nothing written and asks admission; a configuration that R289 does not
allow is refused with MEE_CFG_REFUSED, and a range that is not OFF is left alone (R289). Disabling a range makes it OFF without keys, roots,
combining entries or dirty lines, gives its cost back, and lets requests that wait go on (R299).
A write of a register of the engine is lost while a partial reset holds it, and is an access to an absent unit where the part has no
engine (R499, R6, R7).
Key loads (R293, R397, R398): a word without GO does nothing; any other clears the key registers; the current slot of a range that is
OFF and the next slot of one that is READY or POISONED take the key, from the registers or from the random source, and anything else is
refused with MEE_CFG_REFUSED: the registers as a source in life-cycle state SECURED, or the random source while it is failed. -/
def Obligations.EncryptedRanges : Prop :=
  ((∀ (s : State) (m : StackIx) (r : Fin 8), s.part.mee = true → s.inFrst (hallOfStack m) = false →
    s.meeState (hallOfStack m) r ≠ 0 → exec (.meeRangeEnable m r) s = .next s) ∧
  (∀ (s : State) (m : StackIx) (r : Fin 8), s.part.mee = true → s.inFrst (hallOfStack m) = false →
    s.meeState (hallOfStack m) r = 0 → s.meeEnableOk (hallOfStack m) r = false →
    ∃ t, exec (.meeRangeEnable m r) s = .next t ∧
      (s.evRoom → State.Queued s t (s.record Ev.MEE_CFG_REFUSED (hallOfStack m) 63 (packArgs [(16, 0x110 + r * 0x40), (3, r)]))) ∧
      State.Within { regs := evRegs, fields := [.ev] } s t) ∧
  (∀ (s : State) (m : StackIx) (r : Fin 8), s.part.mee = true → s.inFrst (hallOfStack m) = false →
    s.meeState (hallOfStack m) r = 0 → s.meeEnableOk (hallOfStack m) r = true →
    ∃ t, exec (.meeRangeEnable m r) s = .next t ∧ t.meeState (hallOfStack m) r = 1 ∧
      t.bit (Reg.MEE_CTRL (hallOfStack m) r) Fl.MEE_CTRL_EN = true ∧ t.bound (hallOfStack m) r = 0 ∧
      t.range (hallOfStack m) r = { s.range (hallOfStack m) r with written := [], cur := {}, next := {}, allPoison := false, begun := false } ∧
      (s.stopping = false → s.stop.cut = false → s.adm.queue.length < 64 → s.adm.queue.any (fun x => decide (x.who = .mee m r)) = false →
        t.adm.queue = s.adm.queue ++ [⟨9, hallOfStack m, .mee m r, s.now⟩]) ∧
      s.Keeps [.regs, .halls, .ev, .adm] t) ∧
  (∀ (s : State) (m : StackIx) (r : Fin 8), s.part.mee = true → s.inFrst (hallOfStack m) = false →
    s.meeState (hallOfStack m) r = 0 →
    exec (.meeRangeDisable m r) s = .next (s.setFld (Reg.MEE_CTRL (hallOfStack m) r) Fl.MEE_CTRL_EN 0)) ∧
  (∀ (s : State) (m : StackIx) (r : Fin 8), s.part.mee = true → s.inFrst (hallOfStack m) = false →
    s.meeState (hallOfStack m) r ≠ 0 → ∃ u : State,
    exec (.meeRangeDisable m r) s = .next (u.portDrain (hallOfStack m)) ∧ u.meeState (hallOfStack m) r = 0 ∧
      u.bit (Reg.MEE_CTRL (hallOfStack m) r) Fl.MEE_CTRL_EN = false ∧
      u.bit (Reg.MEE_STAT (hallOfStack m) r) Fl.MEE_STAT_KEY_CUR = false ∧
      u.bit (Reg.MEE_STAT (hallOfStack m) r) Fl.MEE_STAT_KEY_NEXT = false ∧ u.bound (hallOfStack m) r = 0 ∧
      u.range (hallOfStack m) r = {} ∧ (u.mee (hallOfStack m)).wcb = (s.mee (hallOfStack m)).wcb.filter (fun e => e.range != r.val) ∧
      (u.mee (hallOfStack m)).dirty = (s.mee (hallOfStack m)).dirty.filter (fun d => d.1 != r.val) ∧
      (∀ x ∈ u.adm.held, ¬ (x.kind = 9 ∧ x.who = .mee m r)) ∧ (∀ x ∈ u.adm.queue, x.who ≠ .mee m r) ∧
      s.Keeps [.regs, .mem, .halls, .adm] u)) ∧
  ((∀ (s : State) (m : StackIx) (v : Word), s.part.mee = true → s.inFrst (hallOfStack m) = false →
    fieldOf v Fl.MEE_KEYLD_GO = 0 → exec (.meeKeyLoad m v) s = .next s) ∧
  (∀ (s : State) (m : StackIx) (v : Word), s.part.mee = true → s.inFrst (hallOfStack m) = false →
    fieldOf v Fl.MEE_KEYLD_GO ≠ 0 → ∃ t, exec (.meeKeyLoad m v) s = .next t ∧
    (∀ w, w < 8 → t.reg (Reg.MEE_KEY (hallOfStack m) w) = 0) ∧
    (fieldOf v Fl.MEE_KEYLD_SLOT = 0 → s.meeState (hallOfStack m) (fieldOf v Fl.MEE_KEYLD_RANGE) = 0 →
      (fieldOf v Fl.MEE_KEYLD_SRC = 0 → s.otp.lc ≠ 2 → (t.range (hallOfStack m) (fieldOf v Fl.MEE_KEYLD_RANGE)).keyCur =
          BitVec.ofNat 256 (packBits ((List.range 8).map (fun w => (32, (s.reg (Reg.MEE_KEY (hallOfStack m) w)).toNat)))) ∧
        t.bit (Reg.MEE_STAT (hallOfStack m) (fieldOf v Fl.MEE_KEYLD_RANGE)) Fl.MEE_STAT_KEY_CUR = true) ∧
      (fieldOf v Fl.MEE_KEYLD_SRC = 1 → s.bit Reg.SEC_RNG Fl.SEC_RNG_FAIL = false →
        (t.range (hallOfStack m) (fieldOf v Fl.MEE_KEYLD_RANGE)).keyCur = Config.random s.free ∧ t.free = s.free + 1 ∧
        t.bit (Reg.MEE_STAT (hallOfStack m) (fieldOf v Fl.MEE_KEYLD_RANGE)) Fl.MEE_STAT_KEY_CUR = true)) ∧
    (fieldOf v Fl.MEE_KEYLD_SLOT = 1 → (s.meeState (hallOfStack m) (fieldOf v Fl.MEE_KEYLD_RANGE) = 3 ∨
        s.meeState (hallOfStack m) (fieldOf v Fl.MEE_KEYLD_RANGE) = 6) →
      (fieldOf v Fl.MEE_KEYLD_SRC = 0 → s.otp.lc ≠ 2 → (t.range (hallOfStack m) (fieldOf v Fl.MEE_KEYLD_RANGE)).keyNext =
          BitVec.ofNat 256 (packBits ((List.range 8).map (fun w => (32, (s.reg (Reg.MEE_KEY (hallOfStack m) w)).toNat)))) ∧
        t.bit (Reg.MEE_STAT (hallOfStack m) (fieldOf v Fl.MEE_KEYLD_RANGE)) Fl.MEE_STAT_KEY_NEXT = true) ∧
      (fieldOf v Fl.MEE_KEYLD_SRC = 1 → s.bit Reg.SEC_RNG Fl.SEC_RNG_FAIL = false →
        (t.range (hallOfStack m) (fieldOf v Fl.MEE_KEYLD_RANGE)).keyNext = Config.random s.free ∧ t.free = s.free + 1 ∧
        t.bit (Reg.MEE_STAT (hallOfStack m) (fieldOf v Fl.MEE_KEYLD_RANGE)) Fl.MEE_STAT_KEY_NEXT = true)) ∧
    ((fieldOf v Fl.MEE_KEYLD_SLOT = 0 ∧ s.meeState (hallOfStack m) (fieldOf v Fl.MEE_KEYLD_RANGE) ≠ 0) ∨
        (fieldOf v Fl.MEE_KEYLD_SLOT = 1 ∧ s.meeState (hallOfStack m) (fieldOf v Fl.MEE_KEYLD_RANGE) ≠ 3 ∧
          s.meeState (hallOfStack m) (fieldOf v Fl.MEE_KEYLD_RANGE) ≠ 6) ∨
        (fieldOf v Fl.MEE_KEYLD_SRC = 0 ∧ s.otp.lc = 2) ∨ (fieldOf v Fl.MEE_KEYLD_SRC = 1 ∧ s.bit Reg.SEC_RNG Fl.SEC_RNG_FAIL = true) →
      s.evRoom → State.Queued s t (s.record Ev.MEE_CFG_REFUSED (hallOfStack m) 63 (packArgs [(16, 0x40), (3, fieldOf v Fl.MEE_KEYLD_RANGE)]))))) ∧
  (∀ (s : State) (m : StackIx) (r : Fin 8) (v : Word),
    ∀ c ∈ [Instr.meeRangeEnable m r, .meeRangeDisable m r, .meeKeychg m r, .meeKeyLoad m v],
    (s.part.mee = true → s.inFrst (hallOfStack m) = true → exec c s = .next s) ∧
    (s.part.mee = false → accessRecords s.ev.recs < 16 → s.evRoom → ∃ t a, exec c s = .next t ∧
      State.Queued s t (s.record Ev.ABSENT_UNIT_ACCESS (hallOfStack m) 63 (packArgs [(32, a), (1, 1)])) ∧
      hallBase (hallOfStack m) 0x50000 ≤ a ∧ a < hallBase (hallOfStack m) 0x60000 ∧
      State.Within { regs := [Reg.SYS_EVSTAT], fields := [.ev] } s t))

/-- Key changes and sweeps. A key change of a range that is READY or POISONED and holds a next key makes it PAUSED with boundary 0 and asks
admission; any other is refused (R304). MEE_UNIT_DONE while the stack is ACTIVE moves the boundary on by a unit; an initialisation whose last
unit is done is READY, and a sweep, no block of its unit in the combining buffer and no metadata item failing, moves on too; one whose last
unit is done takes the next key and tree, forgets its poisoned spans and is READY, its cost given
back (R299, R305). A range that waits asks admission again while the stack is ACTIVE (R420).
The combining buffer (R297, R298): an entry whose block is poisoned, or whose read fails, is lost, counted and no longer held; one whose
block verifies and whose counters can advance is merged over the block as the latest write left it and posted to the write queue as a whole
block. -/
def Obligations.KeyChangesAndCombining : Prop :=
  ((∀ (s : State) (m : StackIx) (r : Fin 8), s.part.mee = true → s.inFrst (hallOfStack m) = false →
    (s.meeState (hallOfStack m) r = 3 ∨ s.meeState (hallOfStack m) r = 6) →
    s.bit (Reg.MEE_STAT (hallOfStack m) r) Fl.MEE_STAT_KEY_NEXT = true → ∃ t, exec (.meeKeychg m r) s = .next t ∧
      t.meeState (hallOfStack m) r = 5 ∧ t.bound (hallOfStack m) r = 0 ∧
      t.range (hallOfStack m) r = { s.range (hallOfStack m) r with allPoison := decide (s.meeState (hallOfStack m) r = 6), begun := false, next := {} } ∧
      (s.stopping = false → s.stop.cut = false → s.adm.queue.length < 64 → s.adm.queue.any (fun x => decide (x.who = .mee m r)) = false →
        t.adm.queue = s.adm.queue ++ [⟨9, hallOfStack m, .mee m r, s.now⟩])) ∧
  (∀ (s : State) (m : StackIx) (r : Fin 8), s.part.mee = true → s.inFrst (hallOfStack m) = false →
    ((s.meeState (hallOfStack m) r ≠ 3 ∧ s.meeState (hallOfStack m) r ≠ 6) ∨
    s.bit (Reg.MEE_STAT (hallOfStack m) r) Fl.MEE_STAT_KEY_NEXT = false) → ∃ t, exec (.meeKeychg m r) s = .next t ∧
      (s.evRoom → State.Queued s t (s.record Ev.MEE_CFG_REFUSED (hallOfStack m) 63 (packArgs [(16, 0x110 + r * 0x40), (3, r)]))) ∧
      State.Within { regs := evRegs, fields := [.ev] } s t) ∧
  (∀ (s : State) (m : StackIx) (r : Fin 8) (fails : List (Fin 512 × Bool)) (bad : Option (Fin 10 × Fin 512)),
    (s.hbmState (hallOfStack m) ≠ 2 ∨ (s.meeState (hallOfStack m) r ≠ 2 ∧ s.meeState (hallOfStack m) r ≠ 4)) →
    exec (.meeUnitDone m r fails bad) s = .next s) ∧
  (∀ (s : State) (m : StackIx) (r : Fin 8) (fails : List (Fin 512 × Bool)) (bad : Option (Fin 10 × Fin 512)),
    s.hbmState (hallOfStack m) = 2 → s.meeState (hallOfStack m) r = 2 →
    (s.bound (hallOfStack m) r + 1 < s.dunits (hallOfStack m) r → exec (.meeUnitDone m r fails bad) s =
      .next (s.setFld (Reg.MEE_BOUND (hallOfStack m) r) Fl.MEE_BOUND_BOUND (s.bound (hallOfStack m) r + 1))) ∧
    (s.dunits (hallOfStack m) r ≤ s.bound (hallOfStack m) r + 1 → ∃ t, exec (.meeUnitDone m r fails bad) s = .next t ∧
      t.meeState (hallOfStack m) r = 3 ∧ (∀ x ∈ t.adm.held, ¬ (x.kind = 9 ∧ x.who = .mee m r)) ∧
      (s.evRoom → State.Queued s t (s.record Ev.MEE_INIT_DONE (hallOfStack m) 63 (packArgs [(3, r)]))))) ∧
  (∀ (s : State) (m : StackIx) (r : Fin 8) (fails : List (Fin 512 × Bool)), s.hbmState (hallOfStack m) = 2 →
    s.meeState (hallOfStack m) r = 4 → (s.mee (hallOfStack m)).wcb.filter (fun e => e.range == r.val &&
      s.blkIn (hallOfStack m) r e.blk / 512 == s.bound (hallOfStack m) r) = [] → ∃ u : State,
    exec (.meeUnitDone m r fails none) s = .next (u.portDrain (hallOfStack m)) ∧
    (s.bound (hallOfStack m) r + 1 < s.dunits (hallOfStack m) r → u.meeState (hallOfStack m) r = 4 ∧
      u.bound (hallOfStack m) r = s.bound (hallOfStack m) r + 1) ∧
    (s.dunits (hallOfStack m) r ≤ s.bound (hallOfStack m) r + 1 → u.meeState (hallOfStack m) r = 3 ∧
      (u.range (hallOfStack m) r).keyCur = (s.range (hallOfStack m) r).keyNext ∧ (u.range (hallOfStack m) r).keyNext = 0 ∧
      (u.range (hallOfStack m) r).cur = (s.range (hallOfStack m) r).next ∧
      u.bit (Reg.MEE_STAT (hallOfStack m) r) Fl.MEE_STAT_KEY_NEXT = false ∧
      u.fld (Reg.MEE_STAT (hallOfStack m) r) Fl.MEE_STAT_PCOUNT = 0 ∧ (∀ i, i < 16 → u.reg (Reg.MEE_POISON (hallOfStack m) r i) = 0) ∧
      (∀ x ∈ u.adm.held, ¬ (x.kind = 9 ∧ x.who = .mee m r)))) ∧
  (∀ (s : State) (m : StackIx) (r : Fin 8), ∃ t, exec (.sweepAdmissionRetry m r) s = .next t ∧
    (¬ ((s.meeState (hallOfStack m) r = 1 ∨ s.meeState (hallOfStack m) r = 5) ∧ s.hbmState (hallOfStack m) = 2) → t = s) ∧
    ((s.meeState (hallOfStack m) r = 1 ∨ s.meeState (hallOfStack m) r = 5) → s.hbmState (hallOfStack m) = 2 →
      s.stopping = false → s.stop.cut = false → s.adm.queue.length < 64 → s.adm.queue.any (fun x => decide (x.who = .mee m r)) = false →
      t.adm.queue = s.adm.queue ++ [⟨9, hallOfStack m, .mee m r, s.now⟩]))) ∧
  ((∀ (s : State) (m : StackIx) (blk : Fin 603979776) (f : MeeFacts),
    (s.mee (hallOfStack m)).wcb.find? (fun e => e.blk == blk.val) = none → exec (.wcbAgeMerge m blk f) s = .next s) ∧
  (∀ (s : State) (m : StackIx) (blk : Fin 603979776) (f : MeeFacts) (e : WcbEnt),
    (s.mee (hallOfStack m)).wcb.find? (fun e => e.blk == blk.val) = some e →
    (s.poisoned (hallOfStack m) e.range (s.blkIn (hallOfStack m) e.range blk / 8) = true ∨ f.dataErr = true) →
    ∃ t, exec (.wcbAgeMerge m blk f) s = .next t ∧
      (t.mee (hallOfStack m)).wcb = (s.mee (hallOfStack m)).wcb.filter (fun x => x.blk != blk.val) ∧
      t.fld (Reg.MEE_WCB (hallOfStack m)) Fl.MEE_WCB_LOST = satAdd Fl.MEE_WCB_LOST.width (s.fld (Reg.MEE_WCB (hallOfStack m)) Fl.MEE_WCB_LOST) 1 ∧
      s.Keeps [.regs, .halls, .ev] t) ∧
  (∀ (s : State) (m : StackIx) (blk : Fin 603979776) (e : WcbEnt),
    (s.mee (hallOfStack m)).wcb.find? (fun e => e.blk == blk.val) = some e → e.range < 8 →
    s.poisoned (hallOfStack m) e.range (s.blkIn (hallOfStack m) e.range blk / 8) = false →
    Sparse.get (s.range (hallOfStack m) e.range).written false (s.blkIn (hallOfStack m) e.range blk) = true →
    s.nctrSpent (hallOfStack m) e.range (s.blkIn (hallOfStack m) e.range blk) = none →
    Sparse.get (s.treeOf (hallOfStack m) e.range (s.blkIn (hallOfStack m) e.range blk)).minor 0 (s.blkIn (hallOfStack m) e.range blk) < 127 →
    (let x := s.pc (hallOfStack m) (pcOf (64 * blk)); x.wq.length < 64 ∨ x.wq.any (fun y => y.blk == blk) = true) →
    ∃ t, exec (.wcbAgeMerge m blk { hits := 0, misses := 0, evict := [], dataErr := false, metaBad := none, tagBad := false }) s = .next t ∧
      (t.mee (hallOfStack m)).wcb = (s.mee (hallOfStack m)).wcb.filter (fun x => x.blk != blk.val) ∧
      t.pc (hallOfStack m) (pcOf (64 * blk)) = pcPost (s.pc (hallOfStack m) (pcOf (64 * blk)))
        (fullEnt blk s.now (overlay (s.blkNow (hallOfStack m) blk) e.data e.mask)) ∧
      Sparse.get (t.treeOf (hallOfStack m) e.range (s.blkIn (hallOfStack m) e.range blk)).minor 0 (s.blkIn (hallOfStack m) e.range blk) =
        Sparse.get (s.treeOf (hallOfStack m) e.range (s.blkIn (hallOfStack m) e.range blk)).minor 0 (s.blkIn (hallOfStack m) e.range blk) + 1))

/-- The memory port. A configuration of the write queue whose LOW is not below HIGH, or whose HIGH is past 64, is refused with
HBM_CFG_REFUSED; any other is written (R274). A refresh closes its bank's row, or is postponed while reads wait for the bank and fewer than
8 are (R279). Clearing the activation tables empties them and nothing else (R280). An idle channel with no refresh due enters self-refresh
with its rows closed (R281). SR_HOLD adds a cause of whole-stack self-refresh; its end asks for the exit when no cause is left (R282). Writes
of the port's registers are lost while a partial reset holds it (R499). A stack that something wants in self-refresh, with nothing queued and
no request to serve first, enters it, every channel not failed with it; an exit that ends leaves it ACTIVE and lets waiting requests go on
(R282). An initialisation ends ACTIVE, or FAILED with HBM_INIT_FAIL (R501). -/
def Obligations.StackStates : Prop :=
  (∀ (s : State) (m : StackIx) (v : Word), s.inFrst (hallOfStack m) = false →
    ((fieldOf v Fl.HBM_WQ_LOW ≥ fieldOf v Fl.HBM_WQ_HIGH ∨ fieldOf v Fl.HBM_WQ_HIGH > 64) → ∃ t, exec (.hbmWqWrite m v) s = .next t ∧
      (s.evRoom → State.Queued s t (s.record Ev.HBM_CFG_REFUSED (hallOfStack m) 63 (packArgs [(16, 8)]))) ∧
      State.Within { regs := evRegs, fields := [.ev] } s t) ∧
    (fieldOf v Fl.HBM_WQ_LOW < fieldOf v Fl.HBM_WQ_HIGH → fieldOf v Fl.HBM_WQ_HIGH ≤ 64 → ∃ t, exec (.hbmWqWrite m v) s = .next t ∧
      t.fld (Reg.HBM_WQ (hallOfStack m)) Fl.HBM_WQ_LOW = fieldOf v Fl.HBM_WQ_LOW ∧
      t.fld (Reg.HBM_WQ (hallOfStack m)) Fl.HBM_WQ_HIGH = fieldOf v Fl.HBM_WQ_HIGH ∧
      t.fld (Reg.HBM_WQ (hallOfStack m)) Fl.HBM_WQ_WR_AGE = fieldOf v Fl.HBM_WQ_WR_AGE ∧
      State.Within { regs := [Reg.HBM_WQ (hallOfStack m)] } s t)) ∧
  (∀ (s : State) (m : StackIx) (pc : Fin 32) (bank : Fin 48), ∃ t, exec (.hbmRefresh m pc bank) s = .next t ∧
    ((bitOf (s.fld (Reg.HBM_SR (hallOfStack m)) Fl.HBM_SR_BITS) (pc / 2) = true ∨ s.hbmState (hallOfStack m) ≠ 2) → t = s) ∧
    (bitOf (s.fld (Reg.HBM_SR (hallOfStack m)) Fl.HBM_SR_BITS) (pc / 2) = false → s.hbmState (hallOfStack m) = 2 →
      (t.pc (hallOfStack m) pc).rq = (s.pc (hallOfStack m) pc).rq ∧ (t.pc (hallOfStack m) pc).wq = (s.pc (hallOfStack m) pc).wq ∧
      (∀ b, b ≠ bank.val → Sparse.find (t.pc (hallOfStack m) pc).rows b = Sparse.find (s.pc (hallOfStack m) pc).rows b) ∧
      (if (s.pc (hallOfStack m) pc).rq.any (fun r => hbmBank (64 * r.blk) == bank.val) = true ∧ Sparse.get (s.pc (hallOfStack m) pc).postponed 0 bank < 8
        then Sparse.get (t.pc (hallOfStack m) pc).postponed 0 bank = Sparse.get (s.pc (hallOfStack m) pc).postponed 0 bank + 1 ∧
          Sparse.find (t.pc (hallOfStack m) pc).rows bank = Sparse.find (s.pc (hallOfStack m) pc).rows bank
        else Sparse.get (t.pc (hallOfStack m) pc).postponed 0 bank = 0 ∧ Sparse.find (t.pc (hallOfStack m) pc).rows bank = none) ∧
      State.Within { halls := [hallOfStack m] } s t)) ∧
  (∀ (s : State) (m : StackIx), ∃ t, exec (.activationTableClear m) s = .next t ∧
    (∀ pc, t.pc (hallOfStack m) pc = { s.pc (hallOfStack m) pc with table := [] }) ∧ State.Within { halls := [hallOfStack m] } s t) ∧
  (∀ (s : State) (m : StackIx) (ch : Fin 16), ∃ t, exec (.hbmChannelSrEntry m ch) s = .next t ∧
    (s.hbmState (hallOfStack m) = 2 → s.fld (Reg.HBM_CFG (hallOfStack m)) Fl.HBM_CFG_SR_IDLE ≠ 0 → pcIdle (s.pc (hallOfStack m) (2 * ch)) = true →
      pcIdle (s.pc (hallOfStack m) (2 * ch + 1)) = true → pcRefreshed (s.pc (hallOfStack m) (2 * ch)) = true →
      pcRefreshed (s.pc (hallOfStack m) (2 * ch + 1)) = true → s.pcFailed (hallOfStack m) (2 * ch) = false →
      (∀ k, k < 16 → bitOf (t.fld (Reg.HBM_SR (hallOfStack m)) Fl.HBM_SR_BITS) k =
        if k = ch then true else bitOf (s.fld (Reg.HBM_SR (hallOfStack m)) Fl.HBM_SR_BITS) k) ∧
      (t.pc (hallOfStack m) (2 * ch)).rows = [] ∧ (t.pc (hallOfStack m) (2 * ch + 1)).rows = []) ∧
    ((s.hbmState (hallOfStack m) ≠ 2 ∨ s.fld (Reg.HBM_CFG (hallOfStack m)) Fl.HBM_CFG_SR_IDLE = 0 ∨ pcIdle (s.pc (hallOfStack m) (2 * ch)) = false ∨
      pcIdle (s.pc (hallOfStack m) (2 * ch + 1)) = false ∨ pcRefreshed (s.pc (hallOfStack m) (2 * ch)) = false ∨
      pcRefreshed (s.pc (hallOfStack m) (2 * ch + 1)) = false ∨ s.pcFailed (hallOfStack m) (2 * ch) = true) → t = s)) ∧
  (∀ (s : State) (m : StackIx), s.inFrst (hallOfStack m) = false → ∃ t, exec (.srHoldSet m) s = .next t ∧
    t.bit (Reg.HBM_CTRL (hallOfStack m)) Fl.HBM_CTRL_SR_HOLD = true ∧ 2 ∈ (t.hbm (hallOfStack m)).wants ∧
    (∀ c, c ≠ 2 → (c ∈ (t.hbm (hallOfStack m)).wants ↔ c ∈ (s.hbm (hallOfStack m)).wants)) ∧
    State.Within { regs := [Reg.HBM_CTRL (hallOfStack m)], halls := [hallOfStack m] } s t) ∧
  (∀ (s : State) (m : StackIx), s.inFrst (hallOfStack m) = false → ∃ t, exec (.srHoldClear m) s = .next t ∧
    t.bit (Reg.HBM_CTRL (hallOfStack m)) Fl.HBM_CTRL_SR_HOLD = false ∧
    (t.hbm (hallOfStack m)).wants = (s.hbm (hallOfStack m)).wants.filter (· != 2) ∧
    (2 ∈ (s.hbm (hallOfStack m)).wants → (s.hbm (hallOfStack m)).wants.filter (· != 2) = [] → s.hbmState (hallOfStack m) = 3 →
      s.stopping = false → s.stop.cut = false → s.adm.queue.length < 64 →
      t.hbmState (hallOfStack m) = 4 ∧ t.adm.queue = s.adm.queue ++ [⟨8, hallOfStack m, .hbmExit m, s.now⟩]) ∧
    (2 ∉ (s.hbm (hallOfStack m)).wants ∨ (s.hbm (hallOfStack m)).wants.filter (· != 2) ≠ [] ∨ s.hbmState (hallOfStack m) ≠ 3 →
      State.Within { regs := [Reg.HBM_CTRL (hallOfStack m)], halls := [hallOfStack m] } s t)) ∧
  (∀ (s : State) (m : StackIx) (v : Word), s.inFrst (hallOfStack m) = true → ∀ c ∈ [Instr.hbmWqWrite m v, .srHoldSet m, .srHoldClear m],
    exec c s = .next s) ∧
  (∀ (s : State) (m : StackIx), (s.hbm (hallOfStack m)).wants ≠ [] → s.portQuiet (hallOfStack m) = true →
    (s.hbmState (hallOfStack m) = 2 ∨ (s.hbmState (hallOfStack m) = 4 ∧ (s.hbm (hallOfStack m)).exiting = false)) →
    (s.portServes (hallOfStack m) = false ∨ (s.hbm (hallOfStack m)).buf = []) → ∃ t, exec (.hbmStackSrEntry m) s = .next t ∧
      t.hbmState (hallOfStack m) = 3 ∧ (∀ ch, ch < 16 → t.pcFailed (hallOfStack m) (2 * ch) = false →
        bitOf (t.fld (Reg.HBM_SR (hallOfStack m)) Fl.HBM_SR_BITS) ch = true) ∧ (∀ pc, (t.pc (hallOfStack m) pc).rows = [])) ∧
  (∀ (s : State) (m : StackIx), ((s.hbm (hallOfStack m)).wants = [] ∨ s.portQuiet (hallOfStack m) = false ∨
      ¬ (s.hbmState (hallOfStack m) = 2 ∨ (s.hbmState (hallOfStack m) = 4 ∧ (s.hbm (hallOfStack m)).exiting = false)) ∨
      (s.portServes (hallOfStack m) = true ∧ (s.hbm (hallOfStack m)).buf ≠ [])) → exec (.hbmStackSrEntry m) s = .next s) ∧
  (∀ (s : State) (m : StackIx), ¬ (s.hbmState (hallOfStack m) = 4 ∧ (s.hbm (hallOfStack m)).exiting = true) →
    exec (.hbmSrExitDone m) s = .next s) ∧
  (∀ (s : State) (m : StackIx), s.hbmState (hallOfStack m) = 4 → (s.hbm (hallOfStack m)).exiting = true → ∃ u : State,
    exec (.hbmSrExitDone m) s = .next ((u.portDrain (hallOfStack m)).meeResume (hallOfStack m)) ∧ u.hbmState (hallOfStack m) = 2 ∧
      (u.hbm (hallOfStack m)).exiting = false ∧ u.fld (Reg.HBM_SR (hallOfStack m)) Fl.HBM_SR_BITS = 0 ∧
      State.Within { regs := [Reg.HBM_STAT (hallOfStack m), Reg.HBM_SR (hallOfStack m)], halls := [hallOfStack m] } s u) ∧
  (∀ (s : State) (m : StackIx) (bad : Option (Fin 3)), (s.hbmState (hallOfStack m) ≠ 1 ∨ (s.hbm (hallOfStack m)).initBegun = false) →
    exec (.hbmInitDone m bad) s = .next s) ∧
  (∀ (s : State) (m : StackIx), s.hbmState (hallOfStack m) = 1 → (s.hbm (hallOfStack m)).initBegun = true →
    (∃ u : State, exec (.hbmInitDone m none) s = .next ((u.portDrain (hallOfStack m)).meeResume (hallOfStack m)) ∧
      u.hbmState (hallOfStack m) = 2 ∧ (u.hbm (hallOfStack m)).initBegun = false ∧
      State.Within { regs := [Reg.HBM_STAT (hallOfStack m)], halls := [hallOfStack m] } s u) ∧
    (∀ c : Fin 3, ∃ t, exec (.hbmInitDone m (some c)) s = .next t ∧ t.hbmState (hallOfStack m) = 5 ∧
      (s.evRoom → State.Queued s t (s.record Ev.HBM_INIT_FAIL (hallOfStack m) 63 (packArgs [(2, c)])))))

/-- Bursts and alerts of a memory port. A schedule step of an ACTIVE stack's pseudo-channel that has not failed first lets write-backs that
wait enter the write queue and opens rows for what is queued (R273, R275), then issues what R273 chooses: nothing, and the mode is read; a
read, which leaves its queue with its row open (row counting off) and, where its bursts are good, answers a request of one block with the
stack's data; a write entry, which leaves its queue and, if it enables whole bursts, its bytes stand in the stack and no other byte changes
(R271, R275). An alert is counted and closes the rows of its channel; the fifth in a row without 16 acknowledged commands fails the channel
and empties its queues (R277, R278). -/
def Obligations.BurstsAndAlerts : Prop :=
  (∀ (s : State) (m : StackIx) (pc : Fin 32) (f0 f1 : BurstFact) (mf : MeeFacts),
    (s.hbmState (hallOfStack m) ≠ 2 ∨ s.pcFailed (hallOfStack m) pc = true) → exec (.hbmBurst m pc f0 f1 mf) s = .next s) ∧
  (∀ (s v : State) (m : StackIx) (pc : Fin 32) (f0 f1 : BurstFact) (mf : MeeFacts), s.hbmState (hallOfStack m) = 2 →
    s.pcFailed (hallOfStack m) pc = false → v = (s.wbDrain (hallOfStack m) pc).rowsAhead (hallOfStack m) pc →
    ∃ u : State, exec (.hbmBurst m pc f0 f1 mf) s = .next (u.portDrain (hallOfStack m)) ∧
    ((v.schedule (hallOfStack m) pc).2 = .none → (u.pc (hallOfStack m) pc).mode = .read ∧
      State.Within { halls := [hallOfStack m] } v u) ∧
    (∀ (e : RqEnt) (q : HReq), (v.schedule (hallOfStack m) pc).2 = .read e → e.range = none →
      s.burstFact (hallOfStack m) (64 * e.blk) f0 = .ok → s.burstFact (hallOfStack m) (64 * e.blk + 32) f1 = .ok →
      (s.hbm (hallOfStack m)).reqs.find? (fun x => x.id == e.id) = some q → q.res.length = 1 → e.k = 0 → q.p.cmd = 1 →
      State.Sent s u (rspOf q.p .ok [s.blkData (hallOfStack m) e.blk]) ∧
      (s.bit (Reg.HBM_RH (hallOfStack m)) Fl.HBM_RH_EN = false → rowOpen (u.pc (hallOfStack m) pc) e.blk = true) ∧
      (u.pc (hallOfStack m) pc).rq = (s.pc (hallOfStack m) pc).rq.filter (fun y => !(y.id == e.id && y.k == e.k))) ∧
    (∀ e : WqEnt, (v.schedule (hallOfStack m) pc).2 = .write e → e.mask = BitVec.allOnes 64 → e.waiters = [] →
      (u.pc (hallOfStack m) pc).wq = (v.pc (hallOfStack m) pc).wq.filter (fun y => y.blk != e.blk) ∧
      (∀ k, u.readByte k = if hbmKey (hallOfStack m) (64 * e.blk) ≤ k ∧ k < hbmKey (hallOfStack m) (64 * e.blk) + 64
        then (blkBytes e.data).getD (k - hbmKey (hallOfStack m) (64 * e.blk)) 0 else s.readByte k))) ∧
  (∀ (s : State) (m : StackIx) (ch : Fin 16) (kind : Fin 2) (acked : Bool) (acts : List (Fin 2 × Fin 1572864)),
    (bitOf (s.fld (Reg.HBM_STAT (hallOfStack m)) Fl.HBM_STAT_FAILED_CH) ch = true ∨ s.hbmState (hallOfStack m) ≠ 2) →
    exec (.hbmAlert m ch kind acked acts) s = .next s) ∧
  (∀ (s : State) (m : StackIx) (ch : Fin 16) (kind : Fin 2) (acked : Bool) (acts : List (Fin 2 × Fin 1572864)),
    bitOf (s.fld (Reg.HBM_STAT (hallOfStack m)) Fl.HBM_STAT_FAILED_CH) ch = false → s.hbmState (hallOfStack m) = 2 →
    ∃ t, exec (.hbmAlert m ch kind acked acts) s = .next t ∧
      t.fld (Reg.HBM_ERR (hallOfStack m)) Fl.HBM_ERR_ALERT =
        satAdd Fl.HBM_ERR_ALERT.width (s.fld (Reg.HBM_ERR (hallOfStack m)) Fl.HBM_ERR_ALERT) 1 ∧
      (t.pc (hallOfStack m) (2 * ch)).rows = [] ∧ (t.pc (hallOfStack m) (2 * ch + 1)).rows = [] ∧
      (∀ n, Sparse.find (s.hbm (hallOfStack m)).alerts ch = some n → acked = false →
        Sparse.find (t.hbm (hallOfStack m)).alerts ch = some (n + 1) ∧
        (n + 1 ≥ 4 → bitOf (t.fld (Reg.HBM_STAT (hallOfStack m)) Fl.HBM_STAT_FAILED_CH) ch = true ∧
          pcIdle (t.pc (hallOfStack m) (2 * ch)) = true ∧ pcIdle (t.pc (hallOfStack m) (2 * ch + 1)) = true)) ∧
      ((Sparse.find (s.hbm (hallOfStack m)).alerts ch = none ∨ acked = true) → Sparse.find (t.hbm (hallOfStack m)).alerts ch = some 0 ∧
        t.fld (Reg.HBM_STAT (hallOfStack m)) Fl.HBM_STAT_FAILED_CH = s.fld (Reg.HBM_STAT (hallOfStack m)) Fl.HBM_STAT_FAILED_CH))

/-- Lanes. Enabling a lane that is not enabled writes its configuration and starts it if it is DISABLED and release has reached it; a
configuration that R311 refuses raises LANE_CFG_REFUSED and changes nothing (R311, R317). Clearing EN makes a lane that is not OFF DISABLED,
without lock or stored coefficients (R317, R318). QUIET and QREQ take an ACTIVE lane to QUIET and back, DORMANT takes it to DORMANT, storing
the coefficients of a locked lane, and its end to START; a PLL that locks makes a lane in START ACTIVE (R317, R318). A measurement shows FOM
and its minimum, and LOCK and ALARM follow it (R316). -/
def Obligations.Lanes : Prop :=
  (∀ (s : State) (h : HallIx) (l : LaneIx) (v : Word), s.laneEn h l = true → exec (.laneEnable h l v) s = .next s) ∧
  (∀ (s : State) (h : HallIx) (l : LaneIx) (v : Word), s.laneEn h l = false →
    s.laneRefused h l ((s.writeFields (Reg.LANE_CFG h l) v).reg (Reg.LANE_CFG h l)) = true → ∃ t, exec (.laneEnable h l v) s = .next t ∧
      (s.evRoom → State.Queued s t (s.record Ev.LANE_CFG_REFUSED h l (packArgs [(16, 0)]))) ∧ State.Within { regs := evRegs, fields := [.ev] } s t) ∧
  (∀ (s : State) (h : HallIx) (l : LaneIx) (v : Word), s.laneEn h l = false → (s.writeFields (Reg.LANE_CFG h l) v).laneEn h l = true →
    s.laneRefused h l ((s.writeFields (Reg.LANE_CFG h l) v).reg (Reg.LANE_CFG h l)) = false → ∃ t, exec (.laneEnable h l v) s = .next t ∧
      t.reg (Reg.LANE_CFG h l) = (s.writeFields (Reg.LANE_CFG h l) v).reg (Reg.LANE_CFG h l) ∧ t.laneEn h l = true ∧
      (s.laneState h l = 1 → s.clk.ioOn = true → (s.writeFields (Reg.LANE_CFG h l) v).laneFollows h l = false → t.laneState h l = 2) ∧
      (s.laneState h l ≠ 1 → t = s.writeFields (Reg.LANE_CFG h l) v)) ∧
  (∀ (s : State) (h : HallIx) (l : LaneIx), ∃ t, exec (.laneDisable h l) s = .next t ∧ t.laneEn h l = false ∧
    t.laneState h l = (if s.laneState h l = 0 then 0 else 1) ∧ t.bit (Reg.LANE_STAT h l) Fl.LANE_STAT_STORED = false ∧
    (s.laneState h l = 3 ∨ s.laneState h l = 4 → t.bit (Reg.LANE_STAT h l) Fl.LANE_STAT_LOCK = false)) ∧
  (∀ (s : State) (h : HallIx) (l : LaneIx) (b : Bool), ∃ t, exec (.laneQuiet h l b) s = .next t ∧
    t.bit (Reg.LANE_CTRL h l) Fl.LANE_CTRL_QUIET = b ∧
    (s.laneFollows h l = false → s.bit (Reg.LANE_CTRL h l) Fl.LANE_CTRL_DORMANT = false →
      (b = true → s.laneState h l = 3 → t.laneState h l = 4) ∧ (b = false → s.qreq h l = false → s.laneState h l = 4 → t.laneState h l = 3))) ∧
  (∀ (s : State) (h : HallIx) (l : LaneIx) (b : Bool), ∃ t, exec (.laneDormant h l b) s = .next t ∧
    t.bit (Reg.LANE_CTRL h l) Fl.LANE_CTRL_DORMANT = b ∧
    (s.laneFollows h l = false → b = true → (s.laneState h l = 3 ∨ s.laneState h l = 4) → t.laneState h l = 5 ∧
      (s.bit (Reg.LANE_STAT h l) Fl.LANE_STAT_LOCK = true → t.bit (Reg.LANE_STAT h l) Fl.LANE_STAT_STORED = true)) ∧
    (s.laneFollows h l = false → b = false → s.laneState h l = 5 → t.laneState h l = 2)) ∧
  (∀ (s : State) (h : HallIx) (l : LaneIx) (b : Bool), ∃ t, exec (.qreq h l b) s = .next t ∧ (t.lane h l).qreq = b ∧
    (s.laneFollows h l = false → s.bit (Reg.LANE_CTRL h l) Fl.LANE_CTRL_DORMANT = false →
      (b = true → s.bordersHeld (32 * h + laneGallery l) = false → s.laneState h l = 3 → t.laneState h l = 4) ∧
      (b = false → s.bit (Reg.LANE_CTRL h l) Fl.LANE_CTRL_QUIET = false → s.laneState h l = 4 → t.laneState h l = 3))) ∧
  (∀ (s : State) (h : HallIx) (l : LaneIx), ∃ t, exec (.lanePllLock h l) s = .next t ∧ (s.laneState h l ≠ 2 → t = s) ∧
    (s.laneState h l = 2 → s.laneSource h l = true → s.laneFollows h l = false → s.bit (Reg.LANE_CTRL h l) Fl.LANE_CTRL_DORMANT = false →
      (s.wantsQuiet h l = false → t.laneState h l = 3 ∧ t.bit (Reg.LANE_STAT h l) Fl.LANE_STAT_PLL_LOCK = true) ∧
      (s.bit (Reg.LANE_CTRL h l) Fl.LANE_CTRL_QUIET = true → t.laneState h l = 4 ∧ t.bit (Reg.LANE_STAT h l) Fl.LANE_STAT_PLL_LOCK = true))) ∧
  (∀ (s : State) (h : HallIx) (l : LaneIx) (fom : Fin 256) (cdr : Bool) (under : Nat), (s.laneState h l ≠ 3 ∧ s.laneState h l ≠ 4) →
    exec (.fomMeasure h l fom cdr under) s = .next s) ∧
  (∀ (s : State) (h : HallIx) (l : LaneIx) (fom : Fin 256) (cdr : Bool) (under : Nat), (s.laneState h l = 3 ∨ s.laneState h l = 4) →
    ∃ t, exec (.fomMeasure h l fom cdr under) s = .next t ∧ t.fld (Reg.LANE_FOM h l) Fl.LANE_FOM_FOM = fom ∧
      t.fld (Reg.LANE_FOM h l) Fl.LANE_FOM_MIN = min fom.val (s.fld (Reg.LANE_FOM h l) Fl.LANE_FOM_MIN) ∧
      t.bit (Reg.LANE_STAT h l) Fl.LANE_STAT_LOCK =
        (if s.bit (Reg.LANE_STAT h l) Fl.LANE_STAT_LOCK then
          cdr && !(decide (fom.val < s.fld (Reg.LANE_FOM_CFG h l) Fl.LANE_FOM_CFG_LOCK_FOM) && decide (7 ≤ (s.lane h l).lockLo))
        else cdr && decide (s.fld (Reg.LANE_FOM_CFG h l) Fl.LANE_FOM_CFG_LOCK_FOM ≤ fom.val) && decide (9 ≤ (s.lane h l).lockHi)) ∧
      t.bit (Reg.LANE_STAT h l) Fl.LANE_STAT_ALARM =
        (if s.bit (Reg.LANE_STAT h l) Fl.LANE_STAT_ALARM then
          !(decide (s.fld (Reg.LANE_FOM_CFG h l) Fl.LANE_FOM_CFG_ALARM_FOM + 8 ≤ fom.val) && decide (7 ≤ (s.lane h l).almHi))
        else decide (fom.val < s.fld (Reg.LANE_FOM_CFG h l) Fl.LANE_FOM_CFG_ALARM_FOM) && decide (7 ≤ (s.lane h l).almLo)))

/-- Ethernet engines, their modes and links. A change of MODE, SPEED or FEC25 while a port is enabled is refused with ETH_CFG_REFUSED; any
other write takes effect and brings down the ports that no longer carry frames (R321, R322). A port that carries frames comes up without faults,
with ETH_LINK_UP; one that goes down shows its cause and loses the descriptors of its queues (R322, R331). A write of an entry's action with EN
begins its buffers and its gathering afresh (R326). While the hall's foundation is held these two writes change nothing (R499). -/
def Obligations.EthernetLinks : Prop :=
  (∀ (s : State) (h : HallIx) (e : EngIx) (n : Fin 128) (v : Word), s.inFrst h = true →
    exec (.ethModeWrite h e v) s = .next s ∧ exec (.ethClActWrite h e n v) s = .next s) ∧
  (∀ (s : State) (h : HallIx) (e : EngIx) (v : Word), s.inFrst h = false →
    (s.fld (Reg.ETH_MODE h e) Fl.ETH_MODE_PORTEN ≠ 0 →
      ((s.writeFields (Reg.ETH_MODE h e) v).fld (Reg.ETH_MODE h e) Fl.ETH_MODE_MODE ≠ s.fld (Reg.ETH_MODE h e) Fl.ETH_MODE_MODE ∨
        (s.writeFields (Reg.ETH_MODE h e) v).fld (Reg.ETH_MODE h e) Fl.ETH_MODE_SPEED ≠ s.fld (Reg.ETH_MODE h e) Fl.ETH_MODE_SPEED ∨
        (s.writeFields (Reg.ETH_MODE h e) v).fld (Reg.ETH_MODE h e) Fl.ETH_MODE_FEC25 ≠ s.fld (Reg.ETH_MODE h e) Fl.ETH_MODE_FEC25) →
      ∃ t, exec (.ethModeWrite h e v) s = .next t ∧ (s.evRoom → State.Queued s t (s.record Ev.ETH_CFG_REFUSED h e (packArgs [(16, 0)]))) ∧
        State.Within { regs := evRegs, fields := [.ev] } s t) ∧
    (s.fld (Reg.ETH_MODE h e) Fl.ETH_MODE_PORTEN = 0 ∨
      ((s.writeFields (Reg.ETH_MODE h e) v).fld (Reg.ETH_MODE h e) Fl.ETH_MODE_MODE = s.fld (Reg.ETH_MODE h e) Fl.ETH_MODE_MODE ∧
        (s.writeFields (Reg.ETH_MODE h e) v).fld (Reg.ETH_MODE h e) Fl.ETH_MODE_SPEED = s.fld (Reg.ETH_MODE h e) Fl.ETH_MODE_SPEED ∧
        (s.writeFields (Reg.ETH_MODE h e) v).fld (Reg.ETH_MODE h e) Fl.ETH_MODE_FEC25 = s.fld (Reg.ETH_MODE h e) Fl.ETH_MODE_FEC25) →
      ∃ t, exec (.ethModeWrite h e v) s = .next t ∧ t.reg (Reg.ETH_MODE h e) = (s.writeFields (Reg.ETH_MODE h e) v).reg (Reg.ETH_MODE h e) ∧
        (∀ p, p < 4 → t.portUp h e p = (s.portUp h e p && t.portCarries h e p)))) ∧
  (∀ (s : State) (h : HallIx) (e : EngIx) (p : Fin 4), ∃ t, exec (.ethLinkUp h e p) s = .next t ∧
    ((s.portUp h e p = true ∨ s.portCarries h e p = false) → t = s) ∧
    (s.portUp h e p = false → s.portCarries h e p = true → t.portUp h e p = true ∧
      t.bit (Reg.ETH_PSTAT h e p) Fl.ETH_PSTAT_LFAULT = false ∧ t.bit (Reg.ETH_PSTAT h e p) Fl.ETH_PSTAT_RFAULT = false ∧
      t.bit (Reg.ETH_PSTAT h e p) Fl.ETH_PSTAT_FECLOCK = s.fecOn h e p ∧
      (s.evRoom → State.Queued s t (s.record Ev.ETH_LINK_UP h e (packArgs [(2, p)]))) ∧
      State.Within { regs := Reg.ETH_PSTAT h e p :: evRegs, fields := [.ev] } s t)) ∧
  (∀ (s : State) (h : HallIx) (e : EngIx) (p c : Fin 4), ∃ t, exec (.ethLinkDown h e p c) s = .next t ∧
    (s.portUp h e p = false → t = s) ∧
    (s.portUp h e p = true → t.portUp h e p = false ∧ t.bit (Reg.ETH_PSTAT h e p) Fl.ETH_PSTAT_LFAULT = (c.val == 1) ∧
      t.bit (Reg.ETH_PSTAT h e p) Fl.ETH_PSTAT_RFAULT = (c.val == 2) ∧
      (∀ q, q < 8 → s.fld (Reg.ETH_TXQ h e q) Fl.ETH_TXQ_PORT = p → Sparse.get (t.eth h e).txq [] q = []) ∧
      ((∀ q, q < 8 → s.fld (Reg.ETH_TXQ h e q) Fl.ETH_TXQ_PORT = p → Sparse.get (s.eth h e).txq [] q = []) → s.evRoom →
        State.Queued s t (s.record Ev.ETH_LINK_DOWN h e (packArgs [(2, p), (2, c)]))))) ∧
  (∀ (s : State) (h : HallIx) (e : EngIx) (n : Fin 128) (v : Word), s.inFrst h = false → ∃ t, exec (.ethClActWrite h e n v) s = .next t ∧
    (fieldOf v Fl.ETH_CL_ACT_EN = 0 → t = s.writeFields (Reg.ETH_CL_ACT h e n) v) ∧
    (fieldOf v Fl.ETH_CL_ACT_EN = 1 → t.reg (Reg.ETH_CL_ACT h e n) = (s.writeFields (Reg.ETH_CL_ACT h e n) v).reg (Reg.ETH_CL_ACT h e n) ∧
      t.fld (Reg.ETH_CL_NEXT h e n) Fl.ETH_CL_NEXT_NEXT = 0 ∧ Sparse.find (t.eth h e).gather n = none ∧
      State.Within { regs := [Reg.ETH_CL_ACT h e n, Reg.ETH_CL_NEXT h e n], halls := [h.val] } s t))

/-- Ethernet frames. A frame that arrives on a port that is up is dropped and counted when its FCS is bad or its length is not allowed, counted
as a miss when no entry matches and misses are not presented, and otherwise counted by the entry that wins; one presented to the design whose
port is ready is shown at once (R324, R325, R327). A frame from the design leaves nothing while its gallery presents its borders or the
engines' buffers are held cleared (R324, R333); it is dropped and counted when its port, its length or its end is bad, and otherwise waits to be sent, padded to 60 bytes; a missing end is counted as a drop (R323). At a frame boundary the first ready source of the
port is sent and counted, with its timestamp when it asks for one (R330, R332); a read of the timestamp store removes its oldest
entry (R330), and removes none while the hall's foundation is held (R499). -/
def Obligations.EthernetFrames : Prop :=
  (∀ (s : State) (h : HallIx) (e : EngIx) (p : Fin 4) (b : List Byte) (fcs : Bool) (cor unc : Nat), s.portUp h e p = false →
    exec (.ethFrameReceive h e p b fcs cor unc) s = .next s) ∧
  (∀ (s : State) (h : HallIx) (e : EngIx) (p : Fin 4) (b : List Byte) (fcs : Bool) (cor unc : Nat), s.portUp h e p = true → ∃ t,
    exec (.ethFrameReceive h e p b fcs cor unc) s = .next t ∧
    t.fld (Reg.ETH_FECC h e p) Fl.ETH_FECC_COUNT = satAdd Fl.ETH_FECC_COUNT.width (s.fld (Reg.ETH_FECC h e p) Fl.ETH_FECC_COUNT) cor ∧
    t.fld (Reg.ETH_RXF h e p) Fl.ETH_RXF_COUNT =
      (if fcs then satAdd Fl.ETH_RXF_COUNT.width (s.fld (Reg.ETH_RXF h e p) Fl.ETH_RXF_COUNT) 1 else s.fld (Reg.ETH_RXF h e p) Fl.ETH_RXF_COUNT) ∧
    ((fcs = false ∨ b.length + 4 < 64 ∨ b.length + 4 > s.maxLen h e p ∨ s.ethsHeld h = true) →
      t.fld (Reg.ETH_RXDROP h e p) Fl.ETH_RXDROP_COUNT = satAdd Fl.ETH_RXDROP_COUNT.width (s.fld (Reg.ETH_RXDROP h e p) Fl.ETH_RXDROP_COUNT) 1 ∧
      t.eth h e = s.eth h e ∧ t.net = s.net) ∧
    (fcs = true → 64 ≤ b.length + 4 → b.length + 4 ≤ s.maxLen h e p → s.ethsHeld h = false → rxUsed (s.eth h e) + b.length ≤ 262144 →
      (s.winner h e p b = none → s.bit (Reg.ETH_MODE h e) Fl.ETH_MODE_MISS = false →
        t.fld (Reg.ETH_RXMISS h e p) Fl.ETH_RXMISS_COUNT = satAdd Fl.ETH_RXMISS_COUNT.width (s.fld (Reg.ETH_RXMISS h e p) Fl.ETH_RXMISS_COUNT) 1) ∧
      (s.winner h e p b = none → s.bit (Reg.ETH_MODE h e) Fl.ETH_MODE_MISS = true → bitOf (s.eth h e).rdy p = true →
        s.bordersHeld (32 * h + halfGallery e (halfOf (s.ethMode h e) p)) = false → (t.eth h e).shown = some ⟨p, b, none, none⟩) ∧
      (∀ n, s.winner h e p b = some n → t.fld (Reg.ETH_CL_HITS h e n) Fl.ETH_CL_HITS_HITS =
        satAdd Fl.ETH_CL_HITS_HITS.width (s.fld (Reg.ETH_CL_HITS h e n) Fl.ETH_CL_HITS_HITS) 1))) ∧
  (∀ (s : State) (h : HallIx) (e : EngIx) (j : Fin 2) (p : Fin 4) (b : List Byte) (err : Bool) (tsid : Option (Fin 256)), ∃ t,
    exec (.ethStreamFrame h e j p b err tsid) s = .next t ∧
    (s.bordersHeld (32 * h + halfGallery e j) = true ∨ s.ethsHeld h = true → t = s) ∧
    (s.bordersHeld (32 * h + halfGallery e j) = false → s.ethsHeld h = false →
      (p.val ≥ portsOf (s.ethMode h e) ∨ halfOf (s.ethMode h e) p ≠ j ∨ err = true ∨ b.length + 4 > s.maxLen h e p) →
      t = s.incFld (Reg.ETH_TXDROP h e p) Fl.ETH_TXDROP_COUNT 1) ∧
    (s.bordersHeld (32 * h + halfGallery e j) = false → s.ethsHeld h = false → p.val < portsOf (s.ethMode h e) → halfOf (s.ethMode h e) p = j → err = false →
      b.length + 4 ≤ s.maxLen h e p → (t.eth h e).stream = (s.eth h e).stream ++ [⟨p, b ++ List.replicate (60 - b.length) 0, tsid.map (·.val)⟩] ∧
      State.Within { halls := [h.val] } s t)) ∧
  (∀ (s : State) (h : HallIx) (e : EngIx) (p : Fin 4), exec (.ethTxEopTimeout h e p) s = .next (s.incFld (Reg.ETH_TXDROP h e p) Fl.ETH_TXDROP_COUNT 1)) ∧
  (∀ (s : State) (h : HallIx) (e : EngIx) (p : Fin 4), ∃ t, exec (.ethFrameTransmit h e p) s = .next t ∧
    ((s.portUp h e p = false ∨ s.ethsHeld h = true ∨ (s.txOrder h e p).find? (sourceReady (s.eth h e) p) = none) → t = s) ∧
    (∀ src, s.portUp h e p = true → s.ethsHeld h = false → (s.txOrder h e p).find? (sourceReady (s.eth h e) p) = some src →
      t.fld (Reg.ETH_TXF h e p) Fl.ETH_TXF_COUNT = satAdd Fl.ETH_TXF_COUNT.width (s.fld (Reg.ETH_TXF h e p) Fl.ETH_TXF_COUNT) 1 ∧
      (∀ x, src = 8 → (s.eth h e).stream.find? (fun y => y.port == p.val) = some x → (t.eth h e).sent = some (p.val, 8, x.bytes) ∧
        (t.eth h e).stream = (s.eth h e).stream.erase x ∧ (∀ i, x.tsid = some i → (s.eth h e).ts.length < 32 →
          (t.eth h e).ts = (s.eth h e).ts ++ [⟨stamp s.clk.tb (s.fld (Reg.ETH_TSADJ h e p) Fl.ETH_TSADJ_TX), p, 8, i⟩])) ∧
      (∀ d, src < 8 → headReady (s.eth h e) src = some d → (t.eth h e).sent = some (p.val, src, descBytes d)))) ∧
  (∀ (s : State) (h : HallIx) (e : EngIx), s.inFrst h = true → exec (.txtsRead h e) s = .next s) ∧
  (∀ (s : State) (h : HallIx) (e : EngIx), s.inFrst h = false → ∃ t, exec (.txtsRead h e) s = .next t ∧ (t.eth h e).ts = (s.eth h e).ts.tail ∧
    (t.eth h e).txq = (s.eth h e).txq ∧ (t.eth h e).rx = (s.eth h e).rx ∧ State.Within { halls := [h.val] } s t) ∧
  (∀ (s : State) (h : HallIx) (e : EngIx) (p : Fin 4) (rdy : Fin 16), ∃ t, exec (.rxRdyRise h e p rdy) s = .next t ∧
    bitOf (t.eth h e).rdy p = true ∧ (∀ r ∈ (t.eth h e).rx, r ∈ (s.eth h e).rx) ∧
    (∀ r ∈ (t.eth h e).rx, ∀ f, r.stream = some f → bitOf (t.eth h e).rdy f.port = false ∨
      s.bordersHeld (32 * h + halfGallery e (halfOf (s.ethMode h e) f.port)) = true) ∧ State.Within { halls := [h.val] } s t)

/-- Life-cycle, key and counter commands (R379 to R387, R399, R402). A word that is not such a command, or comes while one runs, does nothing;
one that comes while an attestation runs waits for it. Otherwise the checks of R380 are made in their order: a failing one ends the command with
its RESULT and LC_CMD_REFUSED, and a fresh challenge; one that passes runs, with the outcome of its signature check, and a life-cycle change
whose signature passes wipes the vault first. A command completes with RESULT 3 for a bad signature, RESULT 8 for a failure of programming
or a spoilt position, and otherwise RESULT 0 with what it commits, each time with a fresh challenge; the state and the counter only advance. -/
def Obligations.LifeCycleCommands : Prop :=
  (∀ (s : State) (k : Nat) (c : Word → Instr) (v : Word), (k, c) ∈ lcCmds →
    (¬ s.lcTaken v → exec (c v) s = .next s) ∧
    (s.lcTaken v → ∃ t, exec (c v) s = .next t ∧
      (s.sec.att.isSome = true → t.bit Reg.SEC_CMD_STAT Fl.SEC_CMD_STAT_BUSY = true ∧ t.sec.cmdWait = some (withOp v k)) ∧
      (s.sec.att = none → opAllowed s.otp.lc k = false → t.fld Reg.SEC_CMD_STAT Fl.SEC_CMD_STAT_RESULT = 1 ∧
        t.bit Reg.SEC_CMD_STAT Fl.SEC_CMD_STAT_BUSY = false ∧ t.sec.cmd = none ∧ s.freshChal t ∧ t.otp = s.otp ∧
        (s.evRoom → State.Queued s t (s.record Ev.LC_CMD_REFUSED 15 63 (packArgs [(3, k), (4, 1)])))) ∧
      (∀ r, s.sec.att = none → opAllowed s.otp.lc k = true → s.lcArgs k (fieldOf v Fl.SEC_LC_CMD_SLOT) (fieldOf v Fl.SEC_LC_CMD_VALUE) = r → r ≠ 0 →
        t.fld Reg.SEC_CMD_STAT Fl.SEC_CMD_STAT_RESULT = r ∧ t.bit Reg.SEC_CMD_STAT Fl.SEC_CMD_STAT_BUSY = false ∧ t.sec.cmd = none ∧ s.freshChal t ∧
        t.otp = s.otp ∧
        (s.evRoom → State.Queued s t (s.record Ev.LC_CMD_REFUSED 15 63 (packArgs [(3, k), (4, r)])))) ∧
      (s.sec.att = none → opAllowed s.otp.lc k = true → s.lcArgs k (fieldOf v Fl.SEC_LC_CMD_SLOT) (fieldOf v Fl.SEC_LC_CMD_VALUE) = 0 →
        (k = 6 → fieldOf v Fl.SEC_LC_CMD_FORCE = 0 → (s.goldenSvn.any (fun x => decide (fieldOf v Fl.SEC_LC_CMD_VALUE ≤ x))) = false →
          t.fld Reg.SEC_CMD_STAT Fl.SEC_CMD_STAT_RESULT = 7 ∧ t.bit Reg.SEC_CMD_STAT Fl.SEC_CMD_STAT_BUSY = false ∧ t.sec.cmd = none ∧
          s.freshChal t ∧ t.otp = s.otp ∧ (s.evRoom → State.Queued s t (s.record Ev.LC_CMD_REFUSED 15 63 (packArgs [(3, k), (4, 7)])))) ∧
        ((k ≠ 6 ∨ fieldOf v Fl.SEC_LC_CMD_FORCE = 1 ∨ (s.goldenSvn.any (fun x => decide (fieldOf v Fl.SEC_LC_CMD_VALUE ≤ x))) = true) →
          t.bit Reg.SEC_CMD_STAT Fl.SEC_CMD_STAT_BUSY = true ∧ t.otp = s.otp ∧
          t.sec.cmd = some ⟨withOp v k, !needsSig s.otp.lc k || s.sigGood (withOp v k)⟩ ∧
          t.sec.wipe = (if (!needsSig s.otp.lc k || s.sigGood (withOp v k)) = true ∧ k ≤ 3 ∧ s.vaultState ≠ 3 then some 1 else s.sec.wipe) ∧
          (k > 3 → State.Within { regs := [Reg.SEC_CMD_STAT], fields := [.sec] } s t))))) ∧
  (∀ (s : State) (fail : Option (Fin 3 × Fin 128)), (s.sec.cmd = none ∨ s.sec.wipe = some 1) → exec (.lcCmdComplete fail) s = .next s) ∧
  (∀ (s : State) (fail : Option (Fin 3 × Fin 128)) (w : Word), s.sec.cmd = some ⟨w, false⟩ → s.sec.wipe = none → ∃ t,
    exec (.lcCmdComplete fail) s = .next t ∧ t.fld Reg.SEC_CMD_STAT Fl.SEC_CMD_STAT_RESULT = 3 ∧
    t.bit Reg.SEC_CMD_STAT Fl.SEC_CMD_STAT_BUSY = false ∧ t.sec.cmd = none ∧ t.otp = s.otp ∧ s.freshChal t ∧
    (s.evRoom → State.Queued s t (s.record Ev.LC_CMD_REFUSED 15 63 (packArgs [(3, fieldOf w Fl.SEC_LC_CMD_OP), (4, 3)])))) ∧
  (∀ (s : State) (w : Word) (k : Fin 3) (i : Fin 128), s.sec.cmd = some ⟨w, true⟩ → s.sec.wipe = none → ∃ t,
    exec (.lcCmdComplete (some (k, i))) s = .next t ∧ t.fld Reg.SEC_CMD_STAT Fl.SEC_CMD_STAT_RESULT = 8 ∧
    t.bit Reg.SEC_CMD_STAT Fl.SEC_CMD_STAT_BUSY = false ∧ t.sec.cmd = none ∧
    s.freshChal t ∧
    (fieldOf w Fl.SEC_LC_CMD_OP = 6 → ∀ j, j = (if s.otp.rb ≤ i ∧ i < fieldOf w Fl.SEC_LC_CMD_VALUE then i.val else s.otp.rb) →
      t.otp = { s.otp with rb := max s.otp.rb j, rbSpoilt := setBit s.otp.rbSpoilt j true }) ∧
    (fieldOf w Fl.SEC_LC_CMD_OP = 4 ∨ fieldOf w Fl.SEC_LC_CMD_OP = 5 →
      t.otp = { s.otp with spoilt := setBit s.otp.spoilt (fieldOf w Fl.SEC_LC_CMD_SLOT) true }) ∧
    (fieldOf w Fl.SEC_LC_CMD_OP = 1 → (k.val = 0 → t.otp = { s.otp with spoilt := setBit s.otp.spoilt 0 true }) ∧
      (k.val ≠ 0 → t.otp.lc = s.otp.lc ∧ bitOf t.otp.prog 0 = true)) ∧
    (fieldOf w Fl.SEC_LC_CMD_OP = 2 ∨ fieldOf w Fl.SEC_LC_CMD_OP = 3 → t.otp = s.otp)) ∧
  (∀ (s : State) (w : Word) (i : Nat), s.sec.cmd = some ⟨w, true⟩ → s.sec.wipe = none → fieldOf w Fl.SEC_LC_CMD_OP = 6 → s.otp.rb ≤ i →
    i < fieldOf w Fl.SEC_LC_CMD_VALUE → bitOf s.otp.rbSpoilt i = true → (∀ j, s.otp.rb ≤ j → j < i → bitOf s.otp.rbSpoilt j = false) → ∃ t,
    exec (.lcCmdComplete none) s = .next t ∧ t.fld Reg.SEC_CMD_STAT Fl.SEC_CMD_STAT_RESULT = 8 ∧
    t.bit Reg.SEC_CMD_STAT Fl.SEC_CMD_STAT_BUSY = false ∧ t.sec.cmd = none ∧ t.otp.rb = i ∧ t.otp.lc = s.otp.lc) ∧
  (∀ (s : State) (w : Word), s.sec.cmd = some ⟨w, true⟩ → s.sec.wipe = none →
    (fieldOf w Fl.SEC_LC_CMD_OP = 6 → ∀ i, s.otp.rb ≤ i → i < fieldOf w Fl.SEC_LC_CMD_VALUE → bitOf s.otp.rbSpoilt i = false) → ∃ t,
    exec (.lcCmdComplete none) s = .next t ∧ t.fld Reg.SEC_CMD_STAT Fl.SEC_CMD_STAT_RESULT = 0 ∧
    t.bit Reg.SEC_CMD_STAT Fl.SEC_CMD_STAT_BUSY = false ∧ t.sec.cmd = none ∧ (fieldOf w Fl.SEC_LC_CMD_OP ≠ 3 → s.freshChal t) ∧
    (fieldOf w Fl.SEC_LC_CMD_OP = 1 → t.otp.lc = max s.otp.lc 1 ∧ bitOf t.otp.prog 0 = true ∧
      (bitOf s.otp.prog 0 = false → Sparse.find t.otp.keys 0 = some (BitVec.ofNat 256 (natOfBytes (s.regBytes Reg.SEC_KEYBUF 8)))) ∧
      (s.evRoom → State.Queued s t (s.record Ev.LC_CHANGED 15 63 (packArgs [(2, 0), (2, 1)])))) ∧
    (fieldOf w Fl.SEC_LC_CMD_OP = 2 → t.otp = { s.otp with lc := max s.otp.lc 2 } ∧
      (s.evRoom → State.Queued s t (s.record Ev.LC_CHANGED 15 63 (packArgs [(2, 1), (2, 2)])))) ∧
    (fieldOf w Fl.SEC_LC_CMD_OP = 3 → t.otp = { s.otp with lc := max s.otp.lc 3, rev := s.otp.rev ||| 15 } ∧
      t.fld Reg.BOOT_STAT Fl.BOOT_STAT_STATE = 7) ∧
    (fieldOf w Fl.SEC_LC_CMD_OP = 4 → bitOf t.otp.prog (fieldOf w Fl.SEC_LC_CMD_SLOT) = true ∧ t.otp.lc = s.otp.lc ∧ t.otp.rb = s.otp.rb ∧
      (bitOf s.otp.prog (fieldOf w Fl.SEC_LC_CMD_SLOT) = false → Sparse.find t.otp.keys (fieldOf w Fl.SEC_LC_CMD_SLOT) =
        some (BitVec.ofNat 256 (natOfBytes (s.regBytes Reg.SEC_KEYBUF 8)))) ∧
      (s.evRoom → State.Queued s t (s.record Ev.KEY_ADDED 15 63 (packArgs [(2, fieldOf w Fl.SEC_LC_CMD_SLOT)])))) ∧
    (fieldOf w Fl.SEC_LC_CMD_OP = 5 → t.otp = { s.otp with rev := setBit s.otp.rev (fieldOf w Fl.SEC_LC_CMD_SLOT) true } ∧
      (s.evRoom → State.Queued s t (s.record Ev.KEY_REVOKED 15 63
        (packArgs [(2, fieldOf w Fl.SEC_LC_CMD_SLOT), (2, fieldOf w Fl.SEC_LC_CMD_SIGSLOT)])))) ∧
    (fieldOf w Fl.SEC_LC_CMD_OP = 6 → t.otp = { s.otp with rb := max s.otp.rb (fieldOf w Fl.SEC_LC_CMD_VALUE) } ∧
      (s.evRoom → State.Queued s t (s.record Ev.RB_ADVANCED 15 63 (packArgs [(8, s.otp.rb), (8, fieldOf w Fl.SEC_LC_CMD_VALUE)])))))

/-- The security engine's other events. A partition of the vault whose assignment changes is zeroed before the new one applies (R390). A wipe
leaves every byte of the vault 0 and the vault READY, LOCKED while tampering is latched, or FAILED (R391, R393). Tampering, when enabled, is latched
and counted, wipes the vault, and turns every encrypted range off or holds the device as configured (R393). An attestation begins its report, or
waits for a command, and ends with the report signed (R396, R402). A measurement is extended by its own writer alone (R388). The random generator's
failure and recovery show in FAIL (R397). A boundary-scan instruction is refused while the part runs unless EXT_EN allows it, and the vendor
instruction acts only in RETURNED, where a good response opens the test modes (R400, R401). -/
def Obligations.SecurityEngine : Prop :=
  (∀ (s : State) (i : Fin 16) (v : Word), ∃ t, exec (.vpartWrite i v) s = .next t ∧
    ((fieldOf ((s.writeFields (Reg.SEC_VPART i) v).reg (Reg.SEC_VPART i)) Fl.SEC_VPART_VALID = s.fld (Reg.SEC_VPART i) Fl.SEC_VPART_VALID →
      fieldOf ((s.writeFields (Reg.SEC_VPART i) v).reg (Reg.SEC_VPART i)) Fl.SEC_VPART_G = s.fld (Reg.SEC_VPART i) Fl.SEC_VPART_G →
      fieldOf ((s.writeFields (Reg.SEC_VPART i) v).reg (Reg.SEC_VPART i)) Fl.SEC_VPART_PLANES = s.fld (Reg.SEC_VPART i) Fl.SEC_VPART_PLANES →
      Sparse.find s.sec.zero i = none → t = s.setReg (Reg.SEC_VPART i) ((s.writeFields (Reg.SEC_VPART i) v).reg (Reg.SEC_VPART i)))) ∧
    ((fieldOf ((s.writeFields (Reg.SEC_VPART i) v).reg (Reg.SEC_VPART i)) Fl.SEC_VPART_VALID ≠ s.fld (Reg.SEC_VPART i) Fl.SEC_VPART_VALID ∨
      fieldOf ((s.writeFields (Reg.SEC_VPART i) v).reg (Reg.SEC_VPART i)) Fl.SEC_VPART_G ≠ s.fld (Reg.SEC_VPART i) Fl.SEC_VPART_G ∨
      fieldOf ((s.writeFields (Reg.SEC_VPART i) v).reg (Reg.SEC_VPART i)) Fl.SEC_VPART_PLANES ≠ s.fld (Reg.SEC_VPART i) Fl.SEC_VPART_PLANES ∨
      (Sparse.find s.sec.zero i).isSome = true) → Sparse.find t.sec.zero i = some ((s.writeFields (Reg.SEC_VPART i) v).reg (Reg.SEC_VPART i)) ∧
      State.Within { fields := [.sec] } s t)) ∧
  (∀ (s : State) (i : Fin 16), ∃ t, exec (.vpartZeroDone i) s = .next t ∧ (Sparse.find s.sec.zero i = none → t = s) ∧
    (∀ w, Sparse.find s.sec.zero i = some w → t.reg (Reg.SEC_VPART i) = w ∧ Sparse.find t.sec.zero i = none ∧
      (∀ k, t.readByte k = if vpartBase i ≤ k ∧ k < vpartBase i + 0x4000 then 0 else s.readByte k))) ∧
  (∀ (s : State) (fail : Option (Fin 65536)), ∃ t, exec (.vaultWipeDone fail) s = .next t ∧ (s.sec.wipe = none → t = s) ∧
    (∀ c, s.sec.wipe = some c → t.sec.wipe = none ∧
      (∀ k, t.readByte k = if vaultBase ≤ k ∧ k < vaultBase + 0x40000 then 0 else s.readByte k) ∧
      t.fld Reg.SEC_VAULT_STAT Fl.SEC_VAULT_STAT_WIPES = satAdd 16 (s.fld Reg.SEC_VAULT_STAT Fl.SEC_VAULT_STAT_WIPES) 1 ∧
      (fail = none → t.vaultState = (if s.bit Reg.SEC_TAMP_STAT Fl.SEC_TAMP_STAT_LATCH then 2 else 0) ∧
        (s.evRoom → State.Queued s t (s.record Ev.VAULT_WIPED 15 63 (packArgs [(2, c)])))) ∧
      (∀ w, fail = some w → t.vaultState = 3 ∧ (s.evRoom → State.Queued s t (s.record Ev.VAULT_FAIL 15 63 (packArgs [(16, w)])))))) ∧
  (∀ (s : State), (s.boot.phase = .off ∨ s.bit Reg.SEC_TAMP_CFG Fl.SEC_TAMP_CFG_EN = false) → exec .tamper s = .next s) ∧
  (∀ (s : State), s.boot.phase ≠ .off → s.bit Reg.SEC_TAMP_CFG Fl.SEC_TAMP_CFG_EN = true → ∃ u : State,
    u.bit Reg.SEC_TAMP_STAT Fl.SEC_TAMP_STAT_LATCH = true ∧
    u.fld Reg.SEC_TAMP_STAT Fl.SEC_TAMP_STAT_COUNT = satAdd 16 (s.fld Reg.SEC_TAMP_STAT Fl.SEC_TAMP_STAT_COUNT) 1 ∧
    (∀ k, u.readByte k = if vaultBase ≤ k ∧ k < vaultBase + 0x40000 then 0 else s.readByte k) ∧
    u.vaultState = (if s.vaultState = 3 then 3 else 1) ∧ (s.vaultState ≠ 3 → u.sec.wipe = some 2) ∧
    (s.fld Reg.SEC_TAMP_CFG Fl.SEC_TAMP_CFG_ZMEE = 0 → s.fld Reg.SEC_TAMP_CFG Fl.SEC_TAMP_CFG_HOLD = 0 → exec .tamper s = .next u) ∧
    (s.fld Reg.SEC_TAMP_CFG Fl.SEC_TAMP_CFG_ZMEE = 1 → s.fld Reg.SEC_TAMP_CFG Fl.SEC_TAMP_CFG_HOLD = 0 → exec .tamper s = .next u.allRangesOff) ∧
    (s.fld Reg.SEC_TAMP_CFG Fl.SEC_TAMP_CFG_HOLD = 1 → ∃ t, exec .tamper s = .next t ∧ t.fld Reg.BOOT_STAT Fl.BOOT_STAT_STATE = 7 ∧
      t.boot.phase = .done ∧ t.clk.galOn = false ∧ t.clk.ioOn = false)) ∧
  (∀ (s : State), ∃ t, exec .attestStart s = .next t ∧ (s.bit Reg.SEC_ATT_STAT Fl.SEC_ATT_STAT_BUSY = true → t = s) ∧
    (s.bit Reg.SEC_ATT_STAT Fl.SEC_ATT_STAT_BUSY = false → t.bit Reg.SEC_ATT_STAT Fl.SEC_ATT_STAT_BUSY = true ∧
      t.bit Reg.SEC_ATT_STAT Fl.SEC_ATT_STAT_DONE = false ∧ t.sec.report = none ∧
      (s.sec.cmd = none → t.sec.att = some s.reportHead) ∧ (s.sec.cmd.isSome = true → t.sec.attWait = true ∧ t.sec.att = s.sec.att))) ∧
  (∀ (s : State), s.sec.att = none → exec .attestDone s = .next s) ∧
  (∀ (s : State) (b : List Byte), s.sec.att = some b → ∃ u : State,
    exec .attestDone s = .next (match s.sec.cmdWait with
      | some v => u.lcStart v
      | none => u) ∧
    u.bit Reg.SEC_ATT_STAT Fl.SEC_ATT_STAT_BUSY = false ∧ u.bit Reg.SEC_ATT_STAT Fl.SEC_ATT_STAT_DONE = true ∧ u.sec.att = none ∧
    u.sec.cmdWait = none ∧ u.sec.report = some (b ++ (List.range 49856).map (fun i => (Config.deviceSign b).getD i 0)) ∧
    (s.evRoom → State.Queued s u (s.record Ev.ATTEST_DONE 15 63 (packArgs [(48, natOfBytes ((b.drop 0x18).take 8))])))) ∧
  (∀ (s : State) (w : Writer) (v : Word), ∃ t, exec (.mrExtend w v) s = .next t ∧
    (fieldOf v Fl.SEC_MRX_CMD_GO = 1 → fieldOf v Fl.SEC_MRX_CMD_J = (if w = .host then 6 else 7) →
      t.mr (if w = .host then 6 else 7) = Config.shake256 (bytesOf 64 (s.mr (if w = .host then 6 else 7)) ++
        bytesOf 64 (BitVec.ofNat 512 (natOfBytes (s.regBytes Reg.SEC_MRX 16)))) ∧
      (∀ j, j ≠ (if w = .host then 6 else 7) → t.mr j = s.mr j) ∧ State.Within { fields := [.sec] } s t) ∧
    ((fieldOf v Fl.SEC_MRX_CMD_GO = 0 ∨ fieldOf v Fl.SEC_MRX_CMD_J ≠ (if w = .host then 6 else 7)) → t = s)) ∧
  (∀ (s : State) (test : Fin 256), ∃ t, exec (.rngFail test) s = .next t ∧ t.bit Reg.SEC_RNG Fl.SEC_RNG_FAIL = true ∧
    (s.evRoom → State.Queued s t (s.record Ev.RNG_FAIL 15 63 (packArgs [(8, test)]))) ∧
    State.Within { regs := Reg.SEC_RNG :: evRegs, fields := [.ev] } s t) ∧
  (∀ (s : State), exec (.rngRetry false) s = .next s ∧ ∃ t, exec (.rngRetry true) s = .next t ∧ t.bit Reg.SEC_RNG Fl.SEC_RNG_FAIL = false ∧
    State.Within { regs := [Reg.SEC_RNG] } s t) ∧
  (∀ (s : State) (op : JtagOp) (code : Fin 256), ∃ t, exec (.jtagInstruction op code) s = .next t ∧
    ((op = .extest ∨ op = .clamp ∨ op = .highz ∨ op = .extestPulse ∨ op = .extestTrain) →
      (s.donePin = true → s.bit Reg.SEC_JTAG Fl.SEC_JTAG_EXT_EN = false → t.sec.jtag = .bypass ∧
        (s.evRoom → State.Queued s t (s.record Ev.JTAG_REFUSED 15 63 (packArgs [(8, code)])))) ∧
      ((s.donePin = false ∨ s.bit Reg.SEC_JTAG Fl.SEC_JTAG_EXT_EN = true) → t = { s with sec := { s.sec with jtag := op } })) ∧
    ((op = .bypass ∨ op = .idcode ∨ op = .samplePreload) → t = { s with sec := { s.sec with jtag := op } }) ∧
    (op = .other → t = { s with sec := { s.sec with jtag := .bypass } }) ∧
    (op = .vendor → (s.otp.lc = 3 → t.sec.jtag = .vendor ∧ t.sec.vchal = some (Config.random s.free) ∧ t.free = s.free + 1) ∧
      (s.otp.lc ≠ 3 → t = { s with sec := { s.sec with jtag := .bypass } }))) ∧
  (∀ (s : State) (k : Fin 2) (sig : List Byte), ∃ t, exec (.vendorUnlock k sig) s = .next t ∧
    (t.sec.unlocked = true ↔ s.sec.unlocked = true ∨ (s.otp.lc = 3 ∧ ∃ c h, s.sec.vchal = some c ∧ Config.vendorKeyHash k = some h ∧
      Config.sigOk h (deviceIdBytes ++ bytesOf 32 c) sig = true)) ∧ s.Keeps [.sec, .ev, .regs] t)

/-- The clock registers of a hall (R12, R408 to R410, R413, R416) and its pads (R335, R337). A setting is applied whole, its PLL unlocked
where the rule has it relock, or refused whole with each event that the rules name for it; nothing changes but the register, the locks and
what the galleries' branches change as they follow. -/
def Obligations.HallClocks : Prop :=
  (∀ (s : State) (h : HallIx) (i : Fin 6) (v : Word), ∃ t, exec (.hclkPllWrite h i v) s = .next t ∧
    ((i = 5 ∨ s.written (Reg.HCLK_PLL h i) v = s.reg (Reg.HCLK_PLL h i)) → t = s) ∧
    (i ≠ 5 → s.written (Reg.HCLK_PLL h i) v ≠ s.reg (Reg.HCLK_PLL h i) →
      ((fieldOf v Fl.HCLK_PLL_N < 20 ∨ 40 < fieldOf v Fl.HCLK_PLL_N ∨ vcoOf v < 20 * 2 ^ 24 ∨ 40 * 2 ^ 24 < vcoOf v ∨ s.pllUsed h i false = true) →
        State.Within { regs := evRegs, fields := [.ev] } s t ∧
        (s.overOutput h i (s.written (Reg.HCLK_PLL h i) v) = none → s.evRoom →
          State.Queued s t (s.record Ev.PLL_CFG_REFUSED h 63 (packArgs [(16, 0x100 + 0x20 * i.val)]))) ∧
        (∀ j, s.overOutput h i (s.written (Reg.HCLK_PLL h i) v) = some j → s.ev.recs.length < 255 →
          t.ev.recs = s.ev.recs ++ [s.record Ev.PLL_LIMIT h 63 (packArgs [(3, i), (2, j),
              (16, outMhz (s.written (Reg.HCLK_PLL h i) v) (s.fld (Reg.HCLK_PLLOUT h i j) Fl.HCLK_PLLOUT_D))]),
            s.record Ev.PLL_CFG_REFUSED h 63 (packArgs [(16, 0x100 + 0x20 * i.val)])])) ∧
      ((20 ≤ fieldOf v Fl.HCLK_PLL_N ∧ fieldOf v Fl.HCLK_PLL_N ≤ 40 ∧ 20 * 2 ^ 24 ≤ vcoOf v ∧ vcoOf v ≤ 40 * 2 ^ 24 ∧ s.pllUsed h i false = false) →
        (∀ j, s.overOutput h i (s.written (Reg.HCLK_PLL h i) v) = some j → State.Within { regs := evRegs, fields := [.ev] } s t ∧
          (s.evRoom → State.Queued s t (s.record Ev.PLL_LIMIT h 63 (packArgs [(3, i), (2, j),
            (16, outMhz (s.written (Reg.HCLK_PLL h i) v) (s.fld (Reg.HCLK_PLLOUT h i j) Fl.HCLK_PLLOUT_D))])))) ∧
        (s.overOutput h i (s.written (Reg.HCLK_PLL h i) v) = none → t.reg (Reg.HCLK_PLL h i) = s.written (Reg.HCLK_PLL h i) v ∧
          bitOf (t.fld (Reg.HCLK_STAT h) Fl.HCLK_STAT_PLL_LOCK) i = false ∧
          State.Within (hallFoot h [Reg.HCLK_PLL h i, Reg.HCLK_STAT h] []) s t)))) ∧
  (∀ (s : State) (h : HallIx) (i : Fin 6) (j : Fin 4) (v : Word), ∃ t, exec (.hclkPlloutWrite h i j v) s = .next t ∧
    ((i = 5 ∧ j = 3) → t = s) ∧
    (¬ (i = 5 ∧ j = 3) →
      ((fieldOf (s.written (Reg.HCLK_PLLOUT h i j) v) Fl.HCLK_PLLOUT_EN = 1 ∧ outOver (s.reg (Reg.HCLK_PLL h i))
          (fieldOf (s.written (Reg.HCLK_PLLOUT h i j) v) Fl.HCLK_PLLOUT_D) (s.outLimit h i j) = true) →
        State.Within { regs := evRegs, fields := [.ev] } s t ∧ (s.evRoom → State.Queued s t (s.record Ev.PLL_LIMIT h 63 (packArgs [(3, i), (2, j),
          (16, outMhz (s.reg (Reg.HCLK_PLL h i)) (fieldOf (s.written (Reg.HCLK_PLLOUT h i j) v) Fl.HCLK_PLLOUT_D))])))) ∧
      (¬ (fieldOf (s.written (Reg.HCLK_PLLOUT h i j) v) Fl.HCLK_PLLOUT_EN = 1 ∧ outOver (s.reg (Reg.HCLK_PLL h i))
          (fieldOf (s.written (Reg.HCLK_PLLOUT h i j) v) Fl.HCLK_PLLOUT_D) (s.outLimit h i j) = true) →
        t.reg (Reg.HCLK_PLLOUT h i j) = s.written (Reg.HCLK_PLLOUT h i j) v ∧
        State.Within (hallFoot h [Reg.HCLK_PLLOUT h i j] []) s t))) ∧
  (∀ (s : State) (h : HallIx) (b k : Fin 2) (v : Word), ∃ t, exec (.hclkPadWrite h b k v) s = .next t ∧
    (fieldOf (s.written (Reg.HCLK_PAD h b k) v) Fl.HCLK_PAD_EN = 0 → s.written (Reg.HCLK_PAD h b k) v ≠ s.reg (Reg.HCLK_PAD h b k) →
      t.reg (Reg.HCLK_PAD h b k) = s.written (Reg.HCLK_PAD h b k) v ∧
      bitOf (t.fld (Reg.HCLK_STAT h) Fl.HCLK_STAT_PAD_LOCK) (2 * b.val + k.val) = false ∧
      State.Within (hallFoot h [Reg.HCLK_PAD h b k, Reg.HCLK_STAT h] []) s t) ∧
    (∀ src, fieldOf (s.written (Reg.HCLK_PAD h b k) v) Fl.HCLK_PAD_EN = 1 → fieldOf (s.written (Reg.HCLK_PAD h b k) v) Fl.HCLK_PAD_SRC = src →
      (outOver (s.reg (Reg.HCLK_PLL h (src / 4))) (s.fld (Reg.HCLK_PLLOUT h (src / 4) (src % 4)) Fl.HCLK_PLLOUT_D) 200000 = true →
        State.Within { regs := evRegs, fields := [.ev] } s t ∧
        (s.evRoom → State.Queued s t (s.record Ev.PLL_LIMIT h 63 (packArgs [(3, src / 4), (2, src % 4),
          (16, outMhz (s.reg (Reg.HCLK_PLL h (src / 4))) (s.fld (Reg.HCLK_PLLOUT h (src / 4) (src % 4)) Fl.HCLK_PLLOUT_D))])))) ∧
      (outOver (s.reg (Reg.HCLK_PLL h (src / 4))) (s.fld (Reg.HCLK_PLLOUT h (src / 4) (src % 4)) Fl.HCLK_PLLOUT_D) 200000 = false →
        s.written (Reg.HCLK_PAD h b k) v ≠ s.reg (Reg.HCLK_PAD h b k) → t.reg (Reg.HCLK_PAD h b k) = s.written (Reg.HCLK_PAD h b k) v ∧
        bitOf (t.fld (Reg.HCLK_STAT h) Fl.HCLK_STAT_PAD_LOCK) (2 * b.val + k.val) = false ∧
        State.Within (hallFoot h [Reg.HCLK_PAD h b k, Reg.HCLK_STAT h] []) s t))) ∧
  (∀ (s : State) (h : HallIx) (q : Fin 4) (v : Word), ∃ t, exec (.hclkLrefWrite h q v) s = .next t ∧
    (s.written (Reg.HCLK_LREF h q) v = s.reg (Reg.HCLK_LREF h q) → t = s) ∧
    (s.written (Reg.HCLK_LREF h q) v ≠ s.reg (Reg.HCLK_LREF h q) →
      ((∀ l < 4, s.laneEn h (4 * q.val + l) = false) → t.reg (Reg.HCLK_LREF h q) = s.written (Reg.HCLK_LREF h q) v ∧
        State.Within { regs := [Reg.HCLK_LREF h q] } s t) ∧
      ((∃ l < 4, s.laneEn h (4 * q.val + l) = true) → State.Within { regs := evRegs, fields := [.ev] } s t ∧
        (s.evRoom → State.Queued s t (s.record Ev.PLL_CFG_REFUSED h 63 (packArgs [(16, 0x200 + 4 * q.val)])))))) ∧
  (∀ (s : State) (h : HallIx) (v : Word), ∃ t, exec (.clockModeChange h v) s = .next t ∧
    t.reg (Reg.HCLK_MODE h) = s.written (Reg.HCLK_MODE h) v ∧
    (∀ i < 5, ∀ md, fieldOf (s.written (Reg.HCLK_MODE h) v) Fl.HCLK_MODE_MODE = md →
      (md = 2 → s.fld (Reg.HCLK_MODE h) Fl.HCLK_MODE_MODE ≠ 2 → s.pllUsed h i true = false →
        t.deepStopped h i = true ∧ bitOf (t.fld (Reg.HCLK_STAT h) Fl.HCLK_STAT_PLL_LOCK) i = false) ∧
      ((md ≠ 2 ∨ s.fld (Reg.HCLK_MODE h) Fl.HCLK_MODE_MODE = 2 ∨ s.pllUsed h i true = true) →
        t.deepStopped h i = s.deepStopped h i ∧ bitOf (t.fld (Reg.HCLK_STAT h) Fl.HCLK_STAT_PLL_LOCK) i =
          bitOf (s.fld (Reg.HCLK_STAT h) Fl.HCLK_STAT_PLL_LOCK) i)) ∧
    State.Within (hallFoot h [Reg.HCLK_MODE h, Reg.HCLK_STAT h] [.clk]) s t) ∧
  (∀ (s : State) (h : HallIx) (x : Fin 10), ∃ t, exec (.pllRelock h x) s = .next t ∧ (s.clk.pllOn = false → t = s) ∧
    (s.clk.pllOn = true → x.val < 6 →
      ((s.pllLost h (0x50 + x.val) = true ∨
        (s.deepStopped h x = true ∧ s.fld (Reg.HCLK_MODE h) Fl.HCLK_MODE_MODE = 2 ∧ s.pllUsed h x true = false)) → t = s) ∧
      (s.pllLost h (0x50 + x.val) = false → (s.deepStopped h x = false ∨ s.fld (Reg.HCLK_MODE h) Fl.HCLK_MODE_MODE ≠ 2 ∨ s.pllUsed h x true = true) →
        bitOf (t.fld (Reg.HCLK_STAT h) Fl.HCLK_STAT_PLL_LOCK) x = true ∧ t.deepStopped h x = false ∧
        State.Within (hallFoot h [Reg.HCLK_STAT h] [.clk]) s t)) ∧
    (s.clk.pllOn = true → ∀ c, x.val = 6 + c →
      ((s.bit (Reg.HCLK_PAD h (c / 2) (c % 2)) Fl.HCLK_PAD_EN = false ∨ s.domainLost h (60 + c) = true ∨
          s.srcRuns h (s.fld (Reg.HCLK_PAD h (c / 2) (c % 2)) Fl.HCLK_PAD_SRC) = false) → t = s) ∧
      (s.bit (Reg.HCLK_PAD h (c / 2) (c % 2)) Fl.HCLK_PAD_EN = true → s.domainLost h (60 + c) = false →
        s.srcRuns h (s.fld (Reg.HCLK_PAD h (c / 2) (c % 2)) Fl.HCLK_PAD_SRC) = true →
        bitOf (t.fld (Reg.HCLK_STAT h) Fl.HCLK_STAT_PAD_LOCK) c = true ∧
        State.Within (hallFoot h [Reg.HCLK_STAT h] []) s t))) ∧
  (∀ (s : State) (G : GalIx), ∃ t, exec (.clockBorderRelease G) s = .next t ∧
    ((s.gal G).bClk = true → s.usesLost G = false →
      (∀ n < 8, bitOf (s.usedBranches G) n = true → s.branchEnabled G n = true → s.branchRuns G n = true) →
      (t.gal G).bClk = false ∧ State.Within { regs := branchRegs G, gals := [G.val], halls := [G.val / 32], fields := branchFields } s t) ∧
    (((s.gal G).bClk = false ∨ s.usesLost G = true ∨
      ∃ n < 8, bitOf (s.usedBranches G) n = true ∧ s.branchEnabled G n = true ∧ s.branchRuns G n = false) → t = s)) ∧
  (∀ (s : State) (h : HallIx) (b : Fin 2) (n : Fin 48) (v : Word), ∃ t, exec (.padCfgWrite h b n v) s = .next t ∧
    (padRefused (s.fld (Reg.PAD_BANK h b) Fl.PAD_BANK_VCCIO) n (s.written (Reg.PAD_CFG h b n) v) = true →
      State.Within { regs := evRegs, fields := [.ev] } s t ∧ (s.evRoom → State.Queued s t (s.record Ev.PAD_CFG_REFUSED h b (packArgs [(6, n)])))) ∧
    (padRefused (s.fld (Reg.PAD_BANK h b) Fl.PAD_BANK_VCCIO) n (s.written (Reg.PAD_CFG h b n) v) = false →
      t.reg (Reg.PAD_CFG h b n) = s.written (Reg.PAD_CFG h b n) v ∧ State.Within { regs := [Reg.PAD_CFG h b n] } s t)) ∧
  (∀ (s : State) (h : HallIx) (b k : Fin 2), ∃ t, exec (.padSafeExit h b k) s = .next t ∧
    (s.domainLost h (60 + 2 * b.val + k.val) = true → t = s) ∧
    (s.domainLost h (60 + 2 * b.val + k.val) = false → (t.hall h).padSafe = (s.hall h).padSafe.filter (· != 2 * b.val + k.val) ∧
      State.Within { halls := [h.val] } s t))

/-- The loss and return of a clock (R414 to R416) and the package time base (R411, R412). A source already lost with another changes nothing.
Otherwise the loss is recorded and reported, every lock that it takes clears, the galleries that use the clock present their borders, and the loss
of REFCLK holds the time base. A return is reported with the time lost, if its loss was; the references it feeds are locked again. The time base
takes a frequency within 200 ppm, a step, or a setting, and reports it. -/
def Obligations.ClockLossAndTimeBase : Prop :=
  (∀ (s : State) (c : ClkSrc) (fr : List (HallIx × EngIx × Fin 4 × Bool)), ∃ t, exec (.clkLoss c fr) s = .next t ∧
    (s.covered (srcCode c).1 (srcCode c).2 = true → t = s) ∧
    (∀ h src, srcCode c = (h, src) → s.covered h src = false →
      (⟨h, src, s.now⟩ ∈ t.clk.lost ∧ (∀ l ∈ s.clk.lost, l ∈ t.clk.lost)) ∧
      (s.evRoom → ∃ more, t.ev.recs = s.ev.recs ++ s.record Ev.CLK_LOSS h 63 (packArgs [(8, src)]) :: more) ∧
      (h = 15 → t.clk.ref = false ∧ t.bit Reg.CLK_STAT Fl.CLK_STAT_TB_HELD = true ∧ t.bit Reg.CLK_STAT Fl.CLK_STAT_REF_OK = false) ∧
      (h ≠ 15 → t.clk.ref = s.clk.ref ∧ t.reg Reg.CLK_STAT = s.reg Reg.CLK_STAT) ∧
      (∀ q < 4, h < 8 → src = 0x40 + q → bitOf t.clk.lref (4 * h + q) = false) ∧
      (∀ k < 8, (k = h ∨ h = 15) →
        (∀ i < 6, (s.addLost h src).domainLost k (4 * i) = true → bitOf (t.fld (Reg.HCLK_STAT k) Fl.HCLK_STAT_PLL_LOCK) i = false) ∧
        (∀ e < 4, (s.addLost h src).domainLost k (56 + e) = true → bitOf (t.fld (Reg.HCLK_STAT k) Fl.HCLK_STAT_ETH_LOCK) e = false) ∧
        (∀ p < 4, (s.addLost h src).domainLost k (60 + p) = true → bitOf (t.fld (Reg.HCLK_STAT k) Fl.HCLK_STAT_PAD_LOCK) p = false ∧
          p ∈ (t.hall k).padSafe) ∧
        (∀ g < 32, (s.addLost h src).usesLost (32 * k + g) = true → (t.gal (32 * k + g)).bClk = true)) ∧
      s.Keeps [.regs, .mem, .gals, .halls, .ev, .adm, .clk, .dom, .pwrCmd, .boot, .bist, .net, .reqs, .seqNext, .free] t)) ∧
  (∀ (s : State) (c : ClkSrc), ∃ t, exec (.clkRestored c) s = .next t ∧
    (∀ h src, srcCode c = (h, src) →
      (s.clk.lost.find? (fun l => l.hall == h && l.src == src) = none → s.neverThere h src = false → t = s) ∧
      (∀ l, s.clk.lost.find? (fun l => l.hall == h && l.src == src) = some l →
        t.clk.lost = s.clk.lost.filter (fun x => !(x.hall == h && x.src == src)) ∧
        (s.evRoom → ∃ more, t.ev.recs = s.ev.recs ++ s.record Ev.CLK_RESTORED h 63 (packArgs [(8, src), (32, (s.now - l.since) / 1000)]) :: more)) ∧
      ((s.clk.lost.find? (fun l => l.hall == h && l.src == src)).isSome = true ∨ s.neverThere h src = true →
        (h = 15 → t.clk.ref = true ∧ t.bit Reg.CLK_STAT Fl.CLK_STAT_TB_HELD = false ∧ t.bit Reg.CLK_STAT Fl.CLK_STAT_REF_OK = true) ∧
        (∀ q < 4, h < 8 → src = 0x40 + q → bitOf t.clk.lref (4 * h + q) = true) ∧
        (∀ i < 6, h < 8 → src = 0x50 + i → s.clk.pllOn = true → s.deepStopped h i = false → (∀ l ∈ s.clk.lost, l.hall ≠ 15) →
          bitOf (t.fld (Reg.HCLK_STAT h) Fl.HCLK_STAT_PLL_LOCK) i = true) ∧
        (h ≠ 15 → State.Within (hallFoot h [Reg.HCLK_STAT h] [.clk]) s t)))) ∧
  (∀ (s : State) (v : Word), ∃ t, exec (.tbFreqWrite v) s = .next t ∧
    (819200000 < v.toInt ∨ v.toInt < -819200000 → State.Within { regs := evRegs, fields := [.ev] } s t ∧
      (s.evRoom → State.Queued s t (s.record Ev.TB_FREQ_REFUSED 15 63 (packArgs [(32, v.toNat)])))) ∧
    (-819200000 ≤ v.toInt → v.toInt ≤ 819200000 → t = s.setReg Reg.CLK_TB_FREQ v)) ∧
  (∀ (s : State) (v : Word), ∃ t, exec (.tbStep v) s = .next t ∧
    t.clk = { s.clk with tb := s.clk.tb + BitVec.ofInt 64 (v.toInt * 65536) } ∧ State.Within { regs := evRegs, fields := [.ev, .clk] } s t ∧
    (s.evRoom → State.Queued s t (t.record Ev.TB_STEPPED 15 63 (packArgs [(32, v.toNat)])))) ∧
  (∀ (s : State) (v : Word), ∃ t, exec (.tbSet v) s = .next t ∧
    t.clk = { s.clk with tb := BitVec.ofNat 64 ((fieldOf v Fl.CLK_TB_SET_HI_VALUE * 2 ^ 32 + (s.reg Reg.CLK_TB_SET_LO).toNat) * 65536), acc := 0 } ∧
    State.Within { regs := evRegs, fields := [.ev, .clk] } s t ∧
    (s.evRoom → State.Queued s t (t.record Ev.TB_STEPPED 15 63 (packArgs [(32, 0)]))))

/-- Power domains (R417 to R420, R224, R258, R259). A command is checked in the order of R418: a stop gives RESULT 4, an absent domain, a state it
does not have and a change under way give RESULT 1, each with PWR_CMD_REFUSED; the state the domain is in gives RESULT 0; OFF to RETENTION, which
no rule gives an effect, RESULT 1 (log 33); a precondition that does not hold gives RESULT 2. A power-up waits for admission, a gallery's for the
mirror domain first where that is not ON; a power-down begins at once, and the cost of its power is released; a gallery with servers waits for
their removal. A power-up that ends brings the domain ON and sends on the packets that waited for it; a power-down that ends leaves it in its
target state. -/
def Obligations.PowerDomains : Prop :=
  (∀ (k : Nat) (c : HallIx → Fin 128 → Instr) (s : State) (h : HallIx) (d : Fin 128), (k, c) ∈ pwrCmds → ∃ t, exec (c h d) s = .next t ∧
    (s.bit Reg.PWR_CMD_STAT Fl.PWR_CMD_STAT_BUSY = true → t = s) ∧
    (s.bit Reg.PWR_CMD_STAT Fl.PWR_CMD_STAT_BUSY = false →
      (∀ r, ((s.stopping = true ∧ r = 4) ∨
          (s.stopping = false ∧ r = 1 ∧ (s.domState h d = 6 ∨ domHas d k = false ∨ (3 ≤ s.domState h d ∧ s.domState h d ≤ 5))) ∨
          (s.stopping = false ∧ r = 1 ∧ k = 1 ∧ s.domState h d = 0 ∧ domHas d k = true) ∨
          (s.stopping = false ∧ r = 2 ∧ k ≠ 2 ∧ domHas d k = true ∧ (s.domState h d = 1 ∨ s.domState h d = 2) ∧ s.domState h d ≠ k ∧
            s.downReady h d = false)) →
        t.bit Reg.PWR_CMD_STAT Fl.PWR_CMD_STAT_BUSY = false ∧ t.fld Reg.PWR_CMD_STAT Fl.PWR_CMD_STAT_RESULT = r ∧
        (s.evRoom → State.Queued s t (s.record Ev.PWR_CMD_REFUSED h 63 (packArgs [(7, d), (3, r)]))) ∧
        State.Within { regs := Reg.PWR_CMD_STAT :: evRegs, fields := [.ev, .pwrCmd] } s t) ∧
      (s.stopping = false → domHas d k = true → s.domState h d ≤ 2 →
        (s.domState h d = k → t.bit Reg.PWR_CMD_STAT Fl.PWR_CMD_STAT_BUSY = false ∧ t.fld Reg.PWR_CMD_STAT Fl.PWR_CMD_STAT_RESULT = 0 ∧
          State.Within { regs := [Reg.PWR_CMD_STAT], fields := [.pwrCmd] } s t) ∧
        (k = 2 → s.domState h d ≠ 2 → s.adm.queue.length < 64 → s.stop.cut = false →
          (32 ≤ d.val ∨ s.domState h 64 = 2 → t.bit Reg.PWR_CMD_STAT Fl.PWR_CMD_STAT_BUSY = true ∧
            t.pwrCmd = some ⟨h, d, 2, false, false⟩ ∧ t.domState h d = 3 ∧ t.domChange h d = some ⟨2, s.domState h d, true, false, false⟩ ∧
            t.adm = { s.adm with queue := s.adm.queue ++ [⟨powerKind d (s.domState h d), h, .power h d false, s.now⟩] } ∧
            State.Within { regs := [Reg.PWR_CMD_STAT, Reg.PWR_DSTAT h d, Reg.THERM_HALL h], fields := [.pwrCmd, .dom, .adm] } s t) ∧
          (d.val < 32 → s.domState h 64 = 1 → t.domState h d = 3 ∧ t.domState h 64 = 3 ∧
            t.domChange h d = some ⟨2, s.domState h d, true, false, true⟩ ∧ t.domChange h 64 = some ⟨2, 1, true, false, false⟩ ∧
            t.adm = { s.adm with queue := s.adm.queue ++ [⟨3, h, .power h 64 false, s.now⟩] })) ∧
        (k ≠ 2 → s.domState h d ≠ k → s.domState h d ≠ 0 → s.downReady h d = true → t.bit Reg.PWR_CMD_STAT Fl.PWR_CMD_STAT_BUSY = true ∧
          (d.val < 32 → s.hasServers h d = true → t.pwrCmd = some ⟨h, d, k, true, false⟩ ∧
            (t.gwk h).removing.any (fun y => y.1 == d.val) = true) ∧
          ((d.val < 32 ∧ s.hasServers h d = false) ∨ (32 ≤ d.val ∧ d.val ≠ 69) ∨ (d.val = 69 ∧ s.ethsIdle h = true ∧ s.domState h d = 2) →
            t.pwrCmd = some ⟨h, d, k, false, false⟩ ∧ t.domState h d = 5 ∧ t.domChange h d = some ⟨k, s.domState h d, true, false, false⟩ ∧
            (∀ x ∈ t.adm.held, ∀ w, x.who ≠ .power h d w)) ∧
          (d.val = 69 → s.ethsIdle h = false → t.pwrCmd = some ⟨h, d, k, false, true⟩ ∧ t.domState h d = s.domState h d))))) ∧
  (∀ (s : State) (h : HallIx) (d : Fin 72), ∃ t, exec (.domainPowerUpDone h d) s = .next t ∧ (s.domState h d ≠ 4 → t = s) ∧
    (s.domState h d = 4 → t.domState h d = 2 ∧ t.domChange h d = none ∧ t.slotHeld h d = false ∧
      (∀ m < 2, ∀ vc < 4, ∀ x, Sparse.find s.slots (((h.val * 72 + d.val) * 2 + m) * 4 + vc) = some x → x.p ∈ t.net) ∧
      (∀ x, s.pwrCmd = some x → x.hall = h → x.dom = d → (s.domChange h d).any (·.byCmd) = true → (d = 64 → s.mirrorWaiters h true = []) →
        t.pwrCmd = none ∧
        t.bit Reg.PWR_CMD_STAT Fl.PWR_CMD_STAT_BUSY = false ∧ t.fld Reg.PWR_CMD_STAT Fl.PWR_CMD_STAT_RESULT = 0))) ∧
  (∀ (s : State) (h : HallIx) (d : Fin 72), ∃ t, exec (.domainPowerDownDone h d) s = .next t ∧
    ((s.domChange h d = none ∨ s.domState h d ≠ 5 ∨ (d = 71 ∧ (s.hbmState h = 1 ∨ s.hbmState h = 2 ∨ s.hbmState h = 4))) → t = s) ∧
    (∀ c, s.domChange h d = some c → s.domState h d = 5 → ¬ (d = 71 ∧ (s.hbmState h = 1 ∨ s.hbmState h = 2 ∨ s.hbmState h = 4)) →
      c.target ≤ 2 → c.wakeAfter = false → s.slotHeld h d = false → t.domState h d = c.target ∧ t.domChange h d = none ∧
      (d.val < 32 → (∀ p < 4, t.fld (Reg.GAL_PLANE (32 * h.val + d.val) p) Fl.GAL_PLANE_STATE = 0) ∧
        t.bit (Reg.GAL_CTX_STAT (32 * h.val + d.val)) Fl.GAL_CTX_STAT_NONE = true) ∧
      (32 ≤ d.val → d.val < 64 → c.target = 0 → ∀ k, memBase (32 * h.val + (d.val - 32)) ≤ k → k < memBase (32 * h.val + (d.val - 32)) + 0x1000000 →
        Sparse.find t.mem k = none) ∧
      (∀ x, s.pwrCmd = some x → x.hall = h → x.dom = d → c.byCmd = true → t.pwrCmd = none ∧
        t.bit Reg.PWR_CMD_STAT Fl.PWR_CMD_STAT_BUSY = false ∧ t.fld Reg.PWR_CMD_STAT Fl.PWR_CMD_STAT_RESULT = 0))) ∧
  (∀ (s : State) (h : HallIx) (g : Fin 32), ∃ t, exec (.srvRemoved h g) s = .next t ∧
    ((s.gwk h).removing.find? (fun x => x.1 == g.val) = none ∨ s.galHas h g [2, 3, 5] = true → t = s.pwrGoOn) ∧
    ((s.gwk h).removing.any (fun x => x.1 == g.val) = true → s.galHas h g [2, 3, 5] = false →
      t.hasServers h g = false ∧ (t.gwk h).removing = (s.gwk h).removing.filter (fun z => z.1 != g.val) ∧
      t.fld (Reg.GAL_CTX_STAT (32 * h.val + g.val)) Fl.GAL_CTX_STAT_SERVERS = 0 ∧
      (s.evRoom → ∃ more, t.ev.recs = s.ev.recs ++ s.record Ev.SRV_REMOVED h g (packArgs []) :: more) ∧
      (∀ x, s.pwrCmd = some x → x.hall = h → x.dom = g → x.waitSrv = true → s.domState h g = 2 → t.domState h g = 5)))

/-- The power ledger (R420 to R423). A budget above 700 W, and a hall cap above the budget, are not applied. The evaluation grants the first
request that its rule passes, and does nothing where it passes none; the request granted leaves the queue, its cost is held, and its operation
starts: a power-up, an exit from self-refresh, an initialisation or sweep of a range, a library section, a slot copy, an import. A request that
has waited too long is withdrawn, with ADM_TIMEOUT and the outcome of its kind: a power command fails with RESULT 3 and its domain returns to its
state, a slot copy with RESULT 6, a self-test with RESULT 6, an import with RESULT 10, and a wake and an exit from self-refresh ask again. -/
def Obligations.PowerLedger : Prop :=
  (∀ (s : State) (v : Word), ∃ t, exec (.pwrLedgerWrite none v) s = .next t ∧ (700000 < fieldOf v Fl.PWR_BUDGET_BUDGET → t = s) ∧
    (fieldOf v Fl.PWR_BUDGET_BUDGET ≤ 700000 → t.fld Reg.PWR_BUDGET Fl.PWR_BUDGET_BUDGET = fieldOf v Fl.PWR_BUDGET_BUDGET ∧
      State.Within { regs := [Reg.PWR_BUDGET] } s t)) ∧
  (∀ (s : State) (h : HallIx) (v : Word), ∃ t, exec (.pwrLedgerWrite (some h) v) s = .next t ∧
    (s.fld Reg.PWR_BUDGET Fl.PWR_BUDGET_BUDGET < fieldOf v Fl.PWR_HCAP_CAP → t = s) ∧
    (fieldOf v Fl.PWR_HCAP_CAP ≤ s.fld Reg.PWR_BUDGET Fl.PWR_BUDGET_BUDGET → t.fld (Reg.PWR_HCAP h) Fl.PWR_HCAP_CAP = fieldOf v Fl.PWR_HCAP_CAP ∧
      State.Within { regs := [Reg.PWR_HCAP h] } s t)) ∧
  (∀ (s : State), ∃ t, exec .admissionGrant s = .next t ∧
    (s.adm.again = [] → s.firstGrant [] false s.adm.queue = none → t = s) ∧
    (∀ r c, s.adm.again = [] → s.firstGrant [] false s.adm.queue = some (r, c) → r ∈ s.adm.queue ∧ c = s.admCost r.kind r.hall ∧
      s.hallUsed r.hall + c ≤ s.fld (Reg.PWR_HCAP r.hall) Fl.PWR_HCAP_CAP ∧ s.pkgUsed + c ≤ s.fld Reg.PWR_BUDGET Fl.PWR_BUDGET_BUDGET ∧
      s.admDenied r.kind r.hall = false ∧ s.admOpen r.kind = true ∧
      (∀ h d w, r.who = .power h d w → s.granting t r c ∧ (s.domState h d = 3 → t.domState h d = 4)) ∧
      (∀ m, r.who = .hbmExit m → s.granting t r c ∧ (t.hbm (hallOfStack m)).exiting = true) ∧
      (∀ m k, r.who = .mee m k → s.granting t r c ∧ (s.meeState (hallOfStack m) k = 1 → t.meeState (hallOfStack m) k = 2) ∧
        (s.meeState (hallOfStack m) k = 5 → t.meeState (hallOfStack m) k = 4)) ∧
      (r.who = .library → s.granting t r c ∧ t.boot.libOk = true) ∧
      (∀ G x, r.who = .copy G → (s.gal G).copy = some x → s.copyBarred G x = 0 → s.granting t r c ∧
        (t.gal G).copy = some { x with running := true } ∧ t.slotState G x.dst = 1) ∧
      (∀ i : Import, r.who = .import_ → s.boot.imp = some i → s.pinned (32 * i.hall + i.g) i.slot = false →
        s.slotWriting (32 * i.hall + i.g) i.slot = false → s.granting t r c ∧ t.boot.imp = some { i with granted := true } ∧
        t.slotState (32 * i.hall + i.g) i.slot = 1))) ∧
  (∀ (s : State) (i : Fin 64), ∃ t, exec (.admTimeout i) s = .next t ∧ (s.adm.queue.length ≤ i.val → t = s) ∧
    (∀ r, s.adm.queue[i.val]? = some r → r.who = .library → t = s) ∧
    (∀ r, s.adm.queue[i.val]? = some r → r.who ≠ .library →
      (s.evRoom → s.limOpen (Ev.ADM_TIMEOUT.code * 65536 + r.kind) ms = true →
        ∃ more, t.ev.recs = s.ev.recs ++ s.record Ev.ADM_TIMEOUT r.hall 63 (packArgs [(4, r.kind)]) :: more) ∧
      (∀ h d, r.who = .power h d false → d ≠ 64 → s.slotHeld h d = false → s.adm.again = [] → ∀ c, s.domChange h d = some c →
        t.fld Reg.PWR_CMD_STAT Fl.PWR_CMD_STAT_RESULT = 3 ∧ t.bit Reg.PWR_CMD_STAT Fl.PWR_CMD_STAT_BUSY = false ∧
        t.fld (Reg.PWR_DSTAT h d) Fl.PWR_DSTAT_STATE = c.prev % 8 ∧ t.domChange h d = none ∧ t.adm.queue = s.adm.queue.eraseIdx i) ∧
      (r.who = .bist → s.adm.again = [] → t.bist.run = none ∧ t.fld Reg.BIST_STAT Fl.BIST_STAT_RESULT = 6 ∧ t.bit Reg.BIST_STAT Fl.BIST_STAT_BUSY = false) ∧
      (∀ G, r.who = .copy G → s.adm.again = [] → (t.gal G).copy = none ∧ t.fld (Reg.GAL_SLOT_STAT G) Fl.GAL_SLOT_STAT_RESULT = 6) ∧
      (∀ i : Import, r.who = .import_ → s.boot.imp = some i → s.adm.again = [] → t.boot.imp = none ∧
        t.fld Reg.BOOT_IMP_STAT Fl.BOOT_IMP_STAT_RESULT = 10 ∧ t.bit Reg.BOOT_IMP_STAT Fl.BOOT_IMP_STAT_BUSY = false) ∧
      (((∃ m, r.who = .hbmExit m) ∨ ∃ h d, r.who = .power h d true) → s.adm.queue.length ≤ 64 → s.stopping = false → s.stop.cut = false → s.adm.again = [] →
        t.adm.queue = s.adm.queue.eraseIdx i ++ [⟨r.kind, r.hall, r.who, s.now⟩])))

/-- The self-test engine (R446 to R453). A command that GO and the key do not make one does nothing; one that comes in another state, while a run
is in progress, or to test the fabric of a gallery with servers is refused with RESULT 5; the rails and the reference clock are checked next, with
RESULT 3 and 4; otherwise the run waits for admission of kind 10. A unit that ends records its outcome and failures, a memory fault is repaired
where its bank has a free spare, and the next unit begins or the run ends with its result. The checks during a run make it end after the unit in
progress. The run of a start begins once the checks pass; a refusal is reported once. -/
def Obligations.SelfTest : Prop :=
  (∀ (s : State) (v : Word) (mv : List (Fin 4096)), ∃ t, exec (.bistCmd v mv) s = .next t ∧
    ((fieldOf v Fl.BIST_CMD_GO = 0 ∨ fieldOf v Fl.BIST_CMD_KEY ≠ 0x3C) → t = s) ∧
    (fieldOf v Fl.BIST_CMD_GO ≠ 0 → fieldOf v Fl.BIST_CMD_KEY = 0x3C → ∀ st, s.fld Reg.BOOT_STAT Fl.BOOT_STAT_STATE = st →
      (((st ≠ 6 ∧ st ≠ 7 ∧ st ≠ 9) ∨ s.bit Reg.BIST_STAT Fl.BIST_STAT_BUSY = true ∨
          (bitOf (fieldOf v Fl.BIST_CMD_UNITS) 5 = true ∧ s.bistServers (fieldOf v Fl.BIST_CMD_HALLS) = true)) →
        t.fld Reg.BIST_STAT Fl.BIST_STAT_RESULT = 5 ∧ State.Within { regs := Reg.BIST_STAT :: evRegs, fields := [.ev] } s t ∧
        (s.evRoom → State.Queued s t (s.record Ev.BIST_REFUSED 15 63 (packArgs [(4, 5), (12, s.lowestVcc)])))) ∧
      ((st = 6 ∨ st = 7 ∨ st = 9) → s.bit Reg.BIST_STAT Fl.BIST_STAT_BUSY = false →
        (bitOf (fieldOf v Fl.BIST_CMD_UNITS) 5 = false ∨ s.bistServers (fieldOf v Fl.BIST_CMD_HALLS) = false) →
        (∀ c < 4, t.fld (Reg.BIST_VMON c) Fl.BIST_VMON_MV = (mv.map (·.val)).getD c 0 ∧
          t.bit (Reg.BIST_VMON c) Fl.BIST_VMON_OK = vccOk ((mv.map (·.val)).getD c 0)) ∧
        (railsOk mv = false → t.fld Reg.BIST_STAT Fl.BIST_STAT_RESULT = 3 ∧ t.bit Reg.BIST_STAT Fl.BIST_STAT_BUSY = false ∧ t.bist = s.bist) ∧
        (railsOk mv = true → s.bit Reg.CLK_STAT Fl.CLK_STAT_REF_OK = false → t.fld Reg.BIST_STAT Fl.BIST_STAT_RESULT = 4 ∧
          t.bit Reg.BIST_STAT Fl.BIST_STAT_BUSY = false ∧ t.bist = s.bist) ∧
        (railsOk mv = true → s.bit Reg.CLK_STAT Fl.CLK_STAT_REF_OK = true → s.adm.queue.length < 64 → s.stop.cut = false →
          t.bit Reg.BIST_STAT Fl.BIST_STAT_BUSY = true ∧ t.bist = { s.bist with run := some ⟨unitList (fieldOf v Fl.BIST_CMD_UNITS),
            fieldOf v Fl.BIST_CMD_HALLS, fieldOf v Fl.BIST_CMD_MODE == 1, 2, false, false, false, none, none⟩ } ∧
          t.adm = { s.adm with queue := s.adm.queue ++ [⟨10, 0, .bist, s.now⟩] } ∧
          State.Within { regs := Reg.BIST_STAT :: Reg.THERM_HALL 0 :: (List.range 4).map Reg.BIST_VMON, fields := [.bist, .adm] } s t)))) ∧
  (∀ (s : State) (fails : List BistFail), (∀ r, s.bist.run = some r → r.started = false ∨ r.units = []) →
    exec (.bistUnitDone fails) s = .next s) ∧
  (∀ (s : State) (fails : List BistFail) (r : BistRun) (u : Nat) (rest : List Nat), s.bist.run = some r → r.started = true → r.units = u :: rest →
    u < 6 → r.ends = none → ∃ t, exec (.bistUnitDone fails) s = .next t ∧
      ((∀ f ∈ fails, s.bistTarget r u f = false) → r.who = 2 →
        t.fld (Reg.BIST_UNIT u) Fl.BIST_UNIT_OUTCOME = 1 ∧ t.fld (Reg.BIST_UNIT u) Fl.BIST_UNIT_FAILS = s.fld (Reg.BIST_UNIT u) Fl.BIST_UNIT_FAILS ∧
        t.bist.log = s.bist.log ∧
        (∀ v more, rest = v :: more → v < 6 → t.bist.run = some { r with units := rest } ∧ t.fld Reg.BIST_STAT Fl.BIST_STAT_UNIT = v) ∧
        (rest = [] → t.bist.run = none ∧ t.fld Reg.BIST_STAT Fl.BIST_STAT_UNIT = 7 ∧ t.bit Reg.BIST_STAT Fl.BIST_STAT_BUSY = false ∧
          t.fld Reg.BIST_STAT Fl.BIST_STAT_RESULT = (if r.unrep then 2 else if r.repaired then 1 else 0) ∧
          (∀ x ∈ t.adm.held, ¬ (x.kind = 10 ∧ x.who = .bist)))) ∧
      (∀ f, fails = [f] → s.bistTarget r u f = true → r.who = 2 →
        t.fld (Reg.BIST_UNIT u) Fl.BIST_UNIT_FAILS = satAdd 16 (s.fld (Reg.BIST_UNIT u) Fl.BIST_UNIT_FAILS) 1 ∧
        bitOf (t.fld (Reg.BIST_UNIT u) Fl.BIST_UNIT_HALLS) f.hall = true ∧
        (s.bist.log.length < 64 → t.bist.log = s.bist.log ++
          [(packBits [(20, 0), (5, if unitGal u then f.g.val else 0), (3, f.hall.val), (3, u), (1, 1)], f.f1.toNat, f.f2.toNat)]) ∧
        (u ≠ 0 → t.fld (Reg.BIST_UNIT u) Fl.BIST_UNIT_OUTCOME = 3) ∧
        (∀ G b row, u = 0 → G = 32 * f.hall.val + f.g.val → b = bitsOf f.f1.toNat 12 5 → row = bitsOf f.f1.toNat 0 12 → row < 2048 →
          s.addressedRow G b row = some row →
          (∀ i, s.freeSpare G b = some i → t.fld (Reg.BIST_UNIT 0) Fl.BIST_UNIT_OUTCOME = 2 ∧ t.rep G b i = ⟨true, true, false, row⟩) ∧
          (s.freeSpare G b = none → t.fld (Reg.BIST_UNIT 0) Fl.BIST_UNIT_OUTCOME = 3)))) ∧
  (∀ (s : State) (mv : List (Fin 4096)), ∃ t, exec (.bistSupplyCheck mv) s = .next t ∧
    ((s.bist.run.any (·.started)) = false → t = s) ∧
    (∀ r, s.bist.run = some r → r.started = true →
      (∀ c < 4, t.fld (Reg.BIST_VMON c) Fl.BIST_VMON_MV = (mv.map (·.val)).getD c 0) ∧
      (railsOk mv = false → r.ends = none → t.bist.run = some { r with ends := some 3 }) ∧
      (railsOk mv = true → s.bit Reg.CLK_STAT Fl.CLK_STAT_REF_OK = false → r.ends = none → t.bist.run = some { r with ends := some 4 }) ∧
      (railsOk mv = true → s.bit Reg.CLK_STAT Fl.CLK_STAT_REF_OK = true → t.bist = s.bist) ∧
      State.Within { regs := (List.range 4).map Reg.BIST_VMON, fields := [.bist] } s t)) ∧
  (∀ (s : State) (mv : List (Fin 4096)), ∃ t, exec (.selftestSupplyRecheck mv) s = .next t ∧
    ((s.boot.phase ≠ .selftest ∨ s.bist.run.isSome = true) → t = s) ∧
    (s.boot.phase = .selftest → s.bist.run = none →
      (railsOk mv = false → s.bist.raised = true → t.bist = s.bist ∧ State.Within { regs := (List.range 4).map Reg.BIST_VMON } s t) ∧
      (railsOk mv = false → s.bist.raised = false → t.bist = { s.bist with raised := true } ∧ t.fld Reg.BIST_STAT Fl.BIST_STAT_RESULT = 3) ∧
      (railsOk mv = true → s.bit Reg.CLK_STAT Fl.CLK_STAT_REF_OK = false → s.bist.raised = false → t.bist = { s.bist with raised := true } ∧
        t.fld Reg.BIST_STAT Fl.BIST_STAT_RESULT = 4) ∧
      (railsOk mv = true → s.bit Reg.CLK_STAT Fl.CLK_STAT_REF_OK = true →
        t.bist.run = some ⟨if s.fld Reg.BOOT_STAT Fl.BOOT_STAT_PATH = 1 then [3, 4] else if s.fld Reg.BOOT_STAT Fl.BOOT_STAT_PATH = 3 then [4]
          else [0, 1, 2, 3, 4, 5], 0xFF, false, 0, true, false, false, none, none⟩ ∧ t.bit Reg.BIST_STAT Fl.BIST_STAT_BUSY = true ∧ t.bist.log = [])))

/-- Transactions of the management port (R455 to R463). While the port is not live nothing happens. A command that comes while one runs, or
whose data does not have its length, is not accepted: LASTERR says why, and it is counted. One whose header or data fails its check word ends
with STATUS 1 or 2, and nothing is performed. STATUS and GETRSP drive the status word and the response, each with its check word, and change
nothing else; the response stays. A transaction cut short is not accepted, and a reserved OP ends with STATUS 3. -/
def Obligations.PortTransactions : Prop :=
  (∀ (k : Nat) (d : Bool) (f : PortCmd → Instr) (c : PortCmd) (s : State), (k, d, f) ∈ portCmds → ∃ t, exec (f c) s = .next t ∧
    (s.port.live = false → t = s) ∧
    (s.port.live = true → s.port.busy.isSome = true → t.port = { s.port with lastErr := 1 } ∧
      t.fld Reg.SYS_PORT Fl.SYS_PORT_REJECT = satAdd Fl.SYS_PORT_REJECT.width (s.fld Reg.SYS_PORT Fl.SYS_PORT_REJECT) 1 ∧
      State.Within { regs := [Reg.SYS_PORT], fields := [.port] } s t) ∧
    (s.port.live = true → s.port.busy = none →
      (hcrcOk k c = false → t.port = { s.port with busy := none, rsp := some ⟨c.tag.toNat, 1, 0, []⟩, lastErr := 0 } ∧
        t.fld Reg.SYS_PORT Fl.SYS_PORT_HCRC = satAdd Fl.SYS_PORT_HCRC.width (s.fld Reg.SYS_PORT Fl.SYS_PORT_HCRC) 1 ∧
        State.Within { regs := Reg.SYS_PORT :: evRegs, fields := [.port, .ev] } s t) ∧
      (hcrcOk k c = true → c.data.length ≠ (if d then c.len.toNat else 0) → t.port = { s.port with lastErr := 2 } ∧
        t.fld Reg.SYS_PORT Fl.SYS_PORT_REJECT = satAdd Fl.SYS_PORT_REJECT.width (s.fld Reg.SYS_PORT Fl.SYS_PORT_REJECT) 1 ∧
        State.Within { regs := [Reg.SYS_PORT], fields := [.port] } s t) ∧
      (hcrcOk k c = true → c.data.length = c.len.toNat → d = true → dcrcOk c = false →
        t.port = { s.port with busy := none, rsp := some ⟨c.tag.toNat, 2, 0, []⟩, lastErr := 0 } ∧
        t.fld Reg.SYS_PORT Fl.SYS_PORT_DCRC = satAdd Fl.SYS_PORT_DCRC.width (s.fld Reg.SYS_PORT Fl.SYS_PORT_DCRC) 1 ∧
        State.Within { regs := Reg.SYS_PORT :: evRegs, fields := [.port, .ev] } s t))) ∧
  (∀ (s : State), ∃ t, exec .status s = .next t ∧ (s.port.live = false → t = s) ∧
    (s.port.live = true → ∃ w : Word, t = { s with port := { s.port with out := withCrc (bytesOf 4 w) } } ∧
      w.getLsbD 0 = s.port.busy.isSome ∧ w.getLsbD 1 = s.port.rsp.isSome ∧ w.getLsbD 2 = s.bit Reg.SYS_EVSTAT Fl.SYS_EVSTAT_CRIT ∧
      w.getLsbD 3 = (s.ev.recs.drop s.ev.held).any (fun r => decide (s.fld Reg.SYS_EVCFG Fl.SYS_EVCFG_ATTN ≤ r.sev)) ∧ (w.extractLsb' 4 4).toNat = s.fld Reg.BOOT_STAT Fl.BOOT_STAT_STATE ∧
      (w.extractLsb' 8 9).toNat = (s.ev.recs.length - s.ev.held) % 512 ∧ (w.extractLsb' 17 3).toNat = 0 ∧ (w.extractLsb' 20 4).toNat = s.port.lastErr % 16 ∧
      (w.extractLsb' 24 8).toNat = (match s.port.rsp with | some r => r.tag % 256 | none => 0))) ∧
  (∀ (s : State), ∃ t, exec .getrsp s = .next t ∧ (s.port.live = false → t = s) ∧
    (s.port.live = true → s.port.rsp = none → t = { s with port := { s.port with out := withCrc [0, 8, 0, 0] } }) ∧
    (∀ r out, s.port.live = true → s.port.rsp = some r →
      out = withCrc [BitVec.ofNat 8 r.tag, BitVec.ofNat 8 (r.status + 16 * r.ostat), BitVec.ofNat 8 r.data.length,
        BitVec.ofNat 8 (r.data.length / 256)] ++ (if r.data = [] then [] else withCrc r.data) →
      t = { s with port := { s.port with out := out } })) ∧
  (∀ (s : State), (s.port.live = false → ∀ b, exec (.malformedTransaction b) s = .next s) ∧
    (s.port.live = true → ∀ b, b = .malformed ∨ b = .busy → ∃ t, exec (.malformedTransaction b) s = .next t ∧
      t.port = { s.port with lastErr := if b = .malformed ∧ s.port.busy = none then 2 else 1 } ∧
      t.fld Reg.SYS_PORT Fl.SYS_PORT_REJECT = satAdd Fl.SYS_PORT_REJECT.width (s.fld Reg.SYS_PORT Fl.SYS_PORT_REJECT) 1 ∧
      State.Within { regs := [Reg.SYS_PORT], fields := [.port] } s t) ∧
    (∀ op : Fin 128, ∀ c : PortCmd, op.val ∉ [1, 2, 4, 5, 6, 8, 9, 10, 12] → s.portPerforms op false c = true →
      exec (.malformedTransaction (.reserved op c)) s =
        .next { s with port := { s.port with busy := none, rsp := some ⟨c.tag.toNat, 3, 0, []⟩, lastErr := 0 } }))

/-- The commands of the port that are performed (R458, R461, R464, R468, R360, R396, R434, R471): wrong arguments end them with STATUS 4 and
nothing else. RDREG and WRREG perform their accesses and answer with the status of the last; each word in a hall's block is an MRD or MWR of
the bridge's port 1 on VC 3 with its response, counted for initiator 40 (R239, R264); EVREAD releases the records acknowledged and holds
and returns the next; BULKRD returns a report, STATUS 5 where there is none; ATTEST writes the nonce and begins a report; STOP begins an orderly
stop, and RELOAD a warm start, whose response is in the slot. -/
def Obligations.PortCommands : Prop :=
  (∀ (s : State) (c : PortCmd), s.portPerforms 1 false c = true → ∃ t, exec (.rdreg c) s = .next t ∧ t.port.busy = none ∧
    (regArgs c = false → t = { s with port := { s.port with busy := none, rsp := some ⟨c.tag.toNat, 4, 0, []⟩, lastErr := 0 } }) ∧
    (regArgs c = true → ∃ st data, t.port.rsp = some ⟨c.tag.toNat, if st = OSt.ok then 0 else 6, st.code, data⟩ ∧ (st = .ok → data.length = c.len.toNat) ∧
      data.length < c.len.toNat + 4 ∧ data.length % 4 = 0 ∧
      (s.portLost c.addr.toNat = true → st = .unavail ∧ data = []) ∧
      (s.portLost c.addr.toNat = false → ∀ v w, ((s.portAccept 1 c).wordAsked c.addr.toNat false false).readReg c.addr.toNat = (v, st, w) →
        (st ≠ .ok ∨ c.len.toNat = 4 → data = (if st = .ok then bytesOf 4 w else []) ∧
          t = { v.wordAnswered c.addr.toNat false st with port := t.port })))) ∧
  (∀ (s : State) (c : PortCmd), s.portPerforms 2 true c = true → ∃ t, exec (.wrreg c) s = .next t ∧ t.port.busy = none ∧
    (regArgs c = false → t = { s with port := { s.port with busy := none, rsp := some ⟨c.tag.toNat, 4, 0, []⟩, lastErr := 0 } }) ∧
    (regArgs c = true → s.portLost c.addr.toNat = true → t.port.rsp = some ⟨c.tag.toNat, 6, 4, []⟩) ∧
    (∀ v st, regArgs c = true → s.portLost c.addr.toNat = false → c.len.toNat = 4 →
      ((s.portAccept 2 c).wordAsked c.addr.toNat true false).writeReg .host c.addr.toNat (BitVec.ofNat 32 (natOfBytes c.data)) = (v, st) →
      t.port.rsp = some ⟨c.tag.toNat, if st = OSt.ok then 0 else 6, st.code, []⟩ ∧
      t = { v.wordAnswered c.addr.toNat true st with port := t.port })) ∧
  (∀ (s : State) (a : Nat) (wr : Bool) (st : OSt), (portHall a = none → ∀ lost, s.wordAsked a wr lost = s ∧ s.wordAnswered a wr st = s) ∧
    (∀ h, portHall a = some h → (s.boot.phase ≠ .warm → s.wordAsked a wr false = s.passes (bridgePacket h a wr)) ∧
      (bridgePacket h a wr).srcPort = 1 ∧ (bridgePacket h a wr).srcNode = 36 ∧ (bridgePacket h a wr).vc = 3 ∧
      (bridgePacket h a wr).cmd = (if wr then 0xC1 else 0xC0) ∧ (bridgePacket h a wr).addr = BitVec.ofNat 48 (regBase + a) ∧
      (Sparse.get (s.wordAnswered a wr st).istat {} 40).req = ((Sparse.get s.istat {} 40).req + 1) % 2 ^ 32 ∧
      (Sparse.get (s.wordAnswered a wr st).istat {} 40).err = ((Sparse.get s.istat {} 40).err + b2n (st.code != 0)) % 2 ^ 32)) ∧
  (∀ (s : State) (c : PortCmd), s.portPerforms 4 false c = true → ∃ t, exec (.evread c) s = .next t ∧
    ((256 < c.addr.toNat ∨ 4096 < c.len.toNat ∨ c.len.toNat % 16 ≠ 0) →
      t = { s with port := { s.port with busy := none, rsp := some ⟨c.tag.toNat, 4, 0, []⟩, lastErr := 0 } }) ∧
    (c.addr.toNat ≤ 256 → c.len.toNat ≤ 4096 → c.len.toNat % 16 = 0 → ∀ q n, q = s.ev.recs.drop (min c.addr.toNat s.ev.held) →
      n = min (c.len.toNat / 16) q.length → ∀ data, data = (q.take n).flatMap (fun r => bytesOf 16 (BitVec.ofNat 128 (eventBits r))) →
      t = { s with ev := { s.ev with recs := q, held := n }, port := { s.port with busy := none, rsp := some ⟨c.tag.toNat, 0, 0, data⟩, lastErr := 0 } })) ∧
  (∀ (s : State) (c : PortCmd) (st : Fin 8), s.portPerforms 12 false c = true → ∃ t, exec (.bulkrd c st) s = .next t ∧
    (∀ src h off len, c.addr.toNat = src * 2 ^ 28 + h * 2 ^ 25 + off → h < 8 → off < 2 ^ 25 → len = c.len.toNat →
      ((2 < src ∨ len < 16 ∨ 4096 < len ∨ len % 16 ≠ 0 ∨ off % 16 ≠ 0 ∨ s.bulkSize src h < off + len) → t.port.rsp = some ⟨c.tag.toNat, 4, 0, []⟩) ∧
      (src = 0 → 16 ≤ len → len ≤ 4096 → len % 16 = 0 → off % 16 = 0 → off + len ≤ 50496 →
        (s.bit Reg.SEC_ATT_STAT Fl.SEC_ATT_STAT_DONE = false → t.port.rsp = some ⟨c.tag.toNat, 5, 0, []⟩) ∧
        (∀ b, s.bit Reg.SEC_ATT_STAT Fl.SEC_ATT_STAT_DONE = true → s.sec.report = some b →
          t.port.rsp = some ⟨c.tag.toNat, 0, 0, (b.drop off).take len⟩)) ∧
      (src = 1 → 16 ≤ len → len ≤ 4096 → len % 16 = 0 → off % 16 = 0 → off + len ≤ 65536 → s.hallAnswers h 0 = true →
        ∃ data, t.port.rsp = some ⟨c.tag.toNat, 0, 0, data⟩ ∧ data.length = len)) ∧
    t.port.busy = none ∧ State.Within { fields := [.port] } s t) ∧
  (∀ (s : State) (c : PortCmd), s.portPerforms 10 true c = true → ∃ t, exec (.attest c) s = .next t ∧ t.port.busy = none ∧
    ((c.addr ≠ 0 ∨ c.len.toNat ≠ 32) → t.port.rsp = some ⟨c.tag.toNat, 4, 0, []⟩ ∧ State.Within { fields := [.port] } s t) ∧
    (c.addr = 0 → c.len.toNat = 32 →
      (s.bit Reg.SEC_ATT_STAT Fl.SEC_ATT_STAT_BUSY = true → t.port.rsp = some ⟨c.tag.toNat, 5, 0, []⟩ ∧ State.Within { fields := [.port] } s t) ∧
      (s.bit Reg.SEC_ATT_STAT Fl.SEC_ATT_STAT_BUSY = false → t.port.rsp = some ⟨c.tag.toNat, 0, 0, []⟩ ∧
        (∀ w < 8, t.reg (Reg.SEC_ATT_NONCE w) = BitVec.ofNat 32 (natOfBytes ((c.data.drop (4 * w)).take 4))) ∧
        t.bit Reg.SEC_ATT_STAT Fl.SEC_ATT_STAT_BUSY = true ∧ t.bit Reg.SEC_ATT_STAT Fl.SEC_ATT_STAT_DONE = false ∧
        State.Within { regs := Reg.SEC_ATT_STAT :: (List.range 8).map Reg.SEC_ATT_NONCE, fields := [.port, .sec] } s t))) ∧
  (∀ (s : State) (c : PortCmd), s.portPerforms 9 false c = true → ∃ t, exec (.stop c) s = .next t ∧
    ((c.addr ≠ 0xA5A5 ∨ c.len ≠ 0) → t = { s with port := { s.port with busy := none, rsp := some ⟨c.tag.toNat, 4, 0, []⟩, lastErr := 0 } }) ∧
    (c.addr = 0xA5A5 → c.len = 0 →
      (s.stop.step ≠ 0 → t = { s with port := { s.port with busy := none, rsp := some ⟨c.tag.toNat, 5, 0, []⟩, lastErr := 0 } }) ∧
      (s.stop.step = 0 → t.port = { s.port with busy := none, rsp := some ⟨c.tag.toNat, 0, 0, []⟩, lastErr := 0 } ∧
        (s.stopMay = false → t = { s with port := t.port }) ∧
        (s.stopMay = true → s.donePin = true → t.stop = { s.stop with step := 2, cause := 1, t0 := s.now } ∧
          ∀ h < 8, t.bit (Reg.GWK_CTRL h) Fl.GWK_CTRL_DISPATCH_EN = false) ∧
        (s.stopMay = true → s.donePin = false → t.fld Reg.BOOT_STAT Fl.BOOT_STAT_STATE = 9 ∧ t.boot.phase = .done ∧ t.boot.runs = false)))) ∧
  (∀ (s : State) (c : PortCmd) (commit : Bool), s.portPerforms 8 false c = true → ∃ t, exec (.reload c commit) s = .next t ∧
    ((c.addr ≠ 0x5A5A ∨ c.len ≠ 0) → t = { s with port := { s.port with busy := none, rsp := some ⟨c.tag.toNat, 4, 0, []⟩, lastErr := 0 } }) ∧
    (c.addr = 0x5A5A → c.len = 0 →
      (s.stop.cut = true → t = { s with port := { s.port with busy := none, rsp := some ⟨c.tag.toNat, 5, 0, []⟩, lastErr := 0 } }) ∧
      (s.stop.cut = false → t.port = { s.port with busy := none, rsp := some ⟨c.tag.toNat, 0, 0, []⟩, lastErr := 0 } ∧
        (s.boot.phase ≠ .off → s.boot.phase ≠ .delay → t.boot.kind = 3 ∧ t.fld Reg.SYS_RSTINFO Fl.SYS_RSTINFO_CAUSE = 3 ∧ t.net = [] ∧ t.reqs = [] ∧
          OtpLe s.otp t.otp ∧ t.boot.phase = (if s.boot.progLow then .warm else if s.stop.hotStart then .hot else .discover)))))
end

