-- ==== Sys2Proof/Laws/Sparse.lean ====
section
/-!
SUPPORT. Laws/Sparse.lean: reading after storing in sparse data, the canonical form, and fields of a word.
-/
namespace Sys2Proof

theorem Sparse.find_put_same {α : Type} (m : Sparse α) (k : Nat) (v : α) : Sparse.find (Sparse.put m k v) k = some v := by
  induction m with
  | nil => simp [Sparse.put, Sparse.find]
  | cons e m ih =>
    obtain ⟨j, w⟩ := e
    simp only [Sparse.put]
    split
    · simp [Sparse.find]
    · split
      · simp [Sparse.find]
      · rename_i h
        simp [Sparse.find, h, ih]

theorem Sparse.find_put_other {α : Type} (m : Sparse α) (k j : Nat) (v : α) (h : j ≠ k) :
    Sparse.find (Sparse.put m k v) j = Sparse.find m j := by
  induction m with
  | nil => simp [Sparse.put, Sparse.find, h]
  | cons e m ih =>
    obtain ⟨i, w⟩ := e
    simp only [Sparse.put]
    split
    · simp [Sparse.find, h]
    · split
      · rename_i h1
        subst h1
        simp [Sparse.find, h]
      · simp only [Sparse.find, ih]

theorem Sparse.find_del_same {α : Type} (m : Sparse α) (k : Nat) : Sparse.find (Sparse.del m k) k = none := by
  induction m with
  | nil => simp [Sparse.del, Sparse.find]
  | cons e m ih =>
    obtain ⟨i, w⟩ := e
    by_cases h : i = k
    · simpa [Sparse.del, List.filter_cons, h] using ih
    · have h2 : k ≠ i := fun e => h e.symm
      simpa [Sparse.del, List.filter_cons, h, Sparse.find, h2] using ih

theorem Sparse.find_del_other {α : Type} (m : Sparse α) (k j : Nat) (h : j ≠ k) :
    Sparse.find (Sparse.del m k) j = Sparse.find m j := by
  induction m with
  | nil => simp [Sparse.del]
  | cons e m ih =>
    obtain ⟨i, w⟩ := e
    by_cases h1 : i = k
    · subst h1
      simpa [Sparse.del, List.filter_cons, Sparse.find, h] using ih
    · simp only [Sparse.del, List.filter_cons, bne_iff_ne, ne_eq, h1, not_false_eq_true, ite_true, Sparse.find]
      split
      · rfl
      · exact ih

/-- Storing under a key and reading it back. -/
theorem Sparse.get_set_same {α : Type} [DecidableEq α] (m : Sparse α) (d : α) (k : Nat) (v : α) :
    (Sparse.find (Sparse.set m d k v) k).getD d = v := by
  unfold Sparse.set
  split
  · rename_i h
    simp [Sparse.find_del_same, h]
  · simp [Sparse.find_put_same]

/-- Storing under a key leaves every other key alone. -/
theorem Sparse.find_set_other {α : Type} [DecidableEq α] (m : Sparse α) (d : α) (k j : Nat) (v : α) (h : j ≠ k) :
    Sparse.find (Sparse.set m d k v) j = Sparse.find m j := by
  unfold Sparse.set
  split
  · exact Sparse.find_del_other m k j h
  · exact Sparse.find_put_other m k j v h

theorem Sparse.find_drop {α : Type} (m : Sparse α) (p : Nat → Bool) (k : Nat) :
    Sparse.find (Sparse.drop m p) k = if p k then none else Sparse.find m k := by
  induction m with
  | nil => simp [Sparse.drop, Sparse.find]
  | cons e m ih =>
    obtain ⟨i, w⟩ := e
    by_cases hi : p i
    · by_cases hk : k = i
      · subst hk
        simpa [Sparse.drop, List.filter_cons, hi] using ih
      · simpa [Sparse.drop, List.filter_cons, hi, Sparse.find, hk] using ih
    · by_cases hk : k = i
      · subst hk
        simp [Sparse.drop, hi, Sparse.find]
      · simpa [Sparse.drop, List.filter_cons, hi, Sparse.find, hk] using ih

/-! ## Rising keys -/

theorem Sparse.risingFrom_mono {α : Type} (m : Sparse α) (a b : Nat) (h : b ≤ a) (hr : Sparse.risingFrom a m = true) :
    Sparse.risingFrom b m = true := by
  cases m with
  | nil => rfl
  | cons e m =>
    obtain ⟨j, w⟩ := e
    simp only [Sparse.risingFrom, Bool.and_eq_true, decide_eq_true_eq] at *
    exact ⟨by omega, hr.2⟩

theorem Sparse.risingFrom_put {α : Type} (m : Sparse α) (b k : Nat) (v : α) (hb : b ≤ k) (hr : Sparse.risingFrom b m = true) :
    Sparse.risingFrom b (Sparse.put m k v) = true := by
  induction m generalizing b with
  | nil => simp [Sparse.put, Sparse.risingFrom, hb]
  | cons e m ih =>
    obtain ⟨j, w⟩ := e
    simp only [Sparse.risingFrom, Bool.and_eq_true, decide_eq_true_eq] at hr
    simp only [Sparse.put]
    split
    · simp only [Sparse.risingFrom, Bool.and_eq_true, decide_eq_true_eq]
      exact ⟨hb, by omega, hr.2⟩
    · split
      · rename_i h1
        subst h1
        simp only [Sparse.risingFrom, Bool.and_eq_true, decide_eq_true_eq]
        exact ⟨hb, hr.2⟩
      · simp only [Sparse.risingFrom, Bool.and_eq_true, decide_eq_true_eq]
        exact ⟨hr.1, ih (j + 1) (by omega) hr.2⟩

theorem Sparse.risingFrom_filter {α : Type} (m : Sparse α) (b : Nat) (q : Nat × α → Bool) (hr : Sparse.risingFrom b m = true) :
    Sparse.risingFrom b (m.filter q) = true := by
  induction m generalizing b with
  | nil => simpa using hr
  | cons e m ih =>
    obtain ⟨j, w⟩ := e
    simp only [Sparse.risingFrom, Bool.and_eq_true, decide_eq_true_eq] at hr
    rw [List.filter_cons]
    split
    · simp only [Sparse.risingFrom, Bool.and_eq_true, decide_eq_true_eq]
      exact ⟨hr.1, ih (j + 1) hr.2⟩
    · exact Sparse.risingFrom_mono _ (j + 1) b (by omega) (ih (j + 1) hr.2)

theorem Sparse.rising_put {α : Type} (m : Sparse α) (k : Nat) (v : α) (h : Sparse.rising m = true) :
    Sparse.rising (Sparse.put m k v) = true := Sparse.risingFrom_put m 0 k v (Nat.zero_le k) h

theorem Sparse.rising_filter {α : Type} (m : Sparse α) (q : Nat × α → Bool) (h : Sparse.rising m = true) :
    Sparse.rising (m.filter q) = true := Sparse.risingFrom_filter m 0 q h

theorem Sparse.mem_put {α : Type} (m : Sparse α) (k : Nat) (v : α) (e : Nat × α) (h : e ∈ Sparse.put m k v) :
    e = (k, v) ∨ e ∈ m := by
  induction m with
  | nil => simpa [Sparse.put] using h
  | cons x m ih =>
    obtain ⟨j, w⟩ := x
    simp only [Sparse.put] at h
    split at h
    · simpa using h
    · split at h
      · rcases List.mem_cons.mp h with h | h
        · exact .inl h
        · exact .inr (List.mem_cons_of_mem _ h)
      · rcases List.mem_cons.mp h with h | h
        · exact .inr (by simp [h])
        · rcases ih h with h | h
          · exact .inl h
          · exact .inr (List.mem_cons_of_mem _ h)

/-! ## Fields of a word -/

/-- Setting a field and reading it. -/
theorem fieldOf_withField (w : Word) (f : Fld) (n : Nat) (h : f.lo + f.width ≤ 32) :
    fieldOf (withField w f n) f = n % 2 ^ f.width := by
  have hn : n % 2 ^ f.width < 2 ^ f.width := Nat.mod_lt _ (Nat.two_pow_pos _)
  apply Nat.eq_of_testBit_eq
  intro i
  simp only [fieldOf, withField, maskOf, BitVec.toNat_or, BitVec.toNat_and, BitVec.toNat_not, BitVec.toNat_ofNat]
  simp only [Nat.testBit_mod_two_pow, Nat.testBit_shiftRight, Nat.testBit_or, Nat.testBit_and, Nat.testBit_shiftLeft]
  by_cases hi : i < f.width
  · have h32 : f.lo + i < 32 := by omega
    have hm : ((2 ^ f.width - 1) <<< f.lo % 2 ^ 32).testBit (f.lo + i) = true := by
      rw [Nat.testBit_mod_two_pow, Nat.testBit_shiftLeft, Nat.add_sub_cancel_left, Nat.testBit_two_pow_sub_one]
      simp [h32, hi]
    have : (2 ^ 32 - 1 - (2 ^ f.width - 1) <<< f.lo % 2 ^ 32).testBit (f.lo + i) = false := by
      rw [show 2 ^ 32 - 1 - (2 ^ f.width - 1) <<< f.lo % 2 ^ 32 = 2 ^ 32 - ((2 ^ f.width - 1) <<< f.lo % 2 ^ 32 + 1) by omega]
      rw [Nat.testBit_two_pow_sub_succ (Nat.mod_lt _ (by decide)), hm]
      simp
    rw [this]
    simp [hi, h32]
  · have : (n % 2 ^ f.width).testBit i = false := by simp [Nat.testBit_mod_two_pow, hi]
    simp [hi]

/-- Setting a field leaves a field that shares no bit with it alone. -/
theorem fieldOf_withField_other (w : Word) (f g : Fld) (n : Nat) (hg : g.lo + g.width ≤ 32)
    (h : f.lo + f.width ≤ g.lo ∨ g.lo + g.width ≤ f.lo) : fieldOf (withField w f n) g = fieldOf w g := by
  apply Nat.eq_of_testBit_eq
  intro i
  simp only [fieldOf, withField, maskOf, BitVec.toNat_or, BitVec.toNat_and, BitVec.toNat_not, BitVec.toNat_ofNat]
  simp only [Nat.testBit_mod_two_pow, Nat.testBit_shiftRight, Nat.testBit_or, Nat.testBit_and, Nat.testBit_shiftLeft]
  by_cases hi : i < g.width
  · have h32 : g.lo + i < 32 := by omega
    have hm : ((2 ^ f.width - 1) <<< f.lo % 2 ^ 32).testBit (g.lo + i) = false := by
      rw [Nat.testBit_mod_two_pow, Nat.testBit_shiftLeft, Nat.testBit_two_pow_sub_one]
      rcases h with h | h
      · simp [h32]; omega
      · simp [h32]; omega
    have hb : (2 ^ 32 - 1 - (2 ^ f.width - 1) <<< f.lo % 2 ^ 32).testBit (g.lo + i) = true := by
      rw [show 2 ^ 32 - 1 - (2 ^ f.width - 1) <<< f.lo % 2 ^ 32 = 2 ^ 32 - ((2 ^ f.width - 1) <<< f.lo % 2 ^ 32 + 1) by omega]
      rw [Nat.testBit_two_pow_sub_succ (Nat.mod_lt _ (by decide)), hm]
      simp [h32]
    rw [hb]
    rcases h with h | h
    · have : ¬ g.lo + i - f.lo < f.width := by omega
      simp [hi, this]
    · have : ¬ f.lo ≤ g.lo + i := by omega
      simp [hi, this]
  · simp [hi]

end Sys2Proof
end

