-- ==== Sys2Proof/Laws/Keeps.lean ====
section
/-!
SUPPORT. Laws/Keeps.lean: the relation State.Keeps, and the operations at the bottom of every meaning that keep it.
-/
namespace Sys2Proof.Machine

theorem OtpLe.refl (a : Otp) : OtpLe a a := ⟨Nat.le_refl _, Nat.le_refl _, fun _ h => h, fun _ h => h, fun _ h => h, fun _ h => h, fun _ _ => rfl⟩

theorem OtpLe.trans {a b c : Otp} (h : OtpLe a b) (g : OtpLe b c) : OtpLe a c :=
  ⟨Nat.le_trans h.lc g.lc, Nat.le_trans h.rb g.rb, fun k x => g.prog k (h.prog k x), fun k x => g.rev k (h.rev k x),
    fun k x => g.spoilt k (h.spoilt k x), fun k x => g.rbSpoilt k (h.rbSpoilt k x),
    fun k x => (g.keys k (h.prog k x)).trans (h.keys k x)⟩

theorem Field.mem_of_sub {l m : List Field} (h : Field.sub l m = true) {x : Field} (hx : l.contains x = true) : m.contains x = true := by
  simp only [Field.sub, List.all_eq_true] at h
  exact h x (by simpa using hx)

theorem Field.sub_trans {l m n : List Field} (h : Field.sub l m = true) (g : Field.sub m n = true) : Field.sub l n = true := by
  simp only [Field.sub, List.all_eq_true] at *
  exact fun x hx => g x (by simpa using h x hx)

theorem Field.out {l m : List Field} (h : Field.sub l m = true) {x : Field} (hx : m.contains x = false) : l.contains x = false := by
  cases e : l.contains x
  · rfl
  · rw [Field.mem_of_sub h e] at hx
    exact hx

theorem Field.same_refl (x : Field) (s : State) : x.same s s := by cases x <;> first | rfl | exact ⟨rfl, rfl⟩

theorem Field.same_trans {x : Field} {s t u : State} (h : x.same s t) (g : x.same t u) : x.same s u := by
  cases x <;> first | exact Eq.trans g h | exact ⟨g.1.trans h.1, g.2.trans h.2⟩

theorem Field.same_symm {x : Field} {s t : State} (h : x.same s t) : x.same t s := by
  cases x <;> first | exact Eq.symm h | exact ⟨h.1.symm, h.2.symm⟩

theorem State.Keeps.refl (W : List Field) (s : State) : s.Keeps W s :=
  ⟨rfl, rfl, rfl, OtpLe.refl _, id, id, id, fun x _ => Field.same_refl x s⟩

theorem State.Keeps.trans {W : List Field} {s t u : State} (h : s.Keeps W t) (g : t.Keeps W u) : s.Keeps W u :=
  ⟨g.part.trans h.part, g.pending.trans h.pending, g.now.trans h.now, h.otp.trans g.otp, fun x => g.mem (h.mem x),
    fun x => g.ev (h.ev x), fun x => g.adm (h.adm x), fun x e => Field.same_trans (h.rest x e) (g.rest x e)⟩

/-- An update that touches none of part, queue, time, one-time-programmable memory, memory's bytes, events and admission. -/
theorem State.Keeps.upd {W D : List Field} {s t u : State} (h : s.Keeps W t) (hd : Field.sub D W = true) (hp : u.part = t.part)
    (hq : u.pending = t.pending) (hn : u.now = t.now) (ho : u.otp = t.otp) (hm : u.mem = t.mem) (he : u.ev = t.ev)
    (ha : u.adm.queue.length ≤ t.adm.queue.length) (hx : ∀ x, D.contains x = false → x.same t u) : s.Keeps W u :=
  ⟨hp.trans h.part, hq.trans h.pending, hn.trans h.now, ho ▸ h.otp, fun x => hm ▸ h.mem x, fun x => he ▸ h.ev x,
    fun x => Nat.le_trans ha (h.adm x), fun x e => Field.same_trans (h.rest x e) (hx x (Field.out hd e))⟩

/-- A record update of fields in W, as a rewriting rule. -/
theorem keeps_mk {W D : List Field} (hd : Field.sub D W = true) {s t : State} {regs memEpoch free port clk dom pwrCmd thermHall thermStack thermGood stop slots
    boot bist cal sec net reqs seqNext seqRec epochs istat gals halls corrs}
    (hx : ∀ x, D.contains x = false → x.same t
      ⟨t.part, regs, t.mem, memEpoch, free, t.now, t.ev, port, clk, t.adm, dom, pwrCmd, thermHall, thermStack, thermGood, stop, slots,
      boot, bist, cal, t.otp, sec, net, reqs, seqNext, seqRec, epochs, istat, gals, halls, corrs, t.pending⟩) :
    s.Keeps W
      ⟨t.part, regs, t.mem, memEpoch, free, t.now, t.ev, port, clk, t.adm, dom, pwrCmd, thermHall, thermStack, thermGood, stop, slots,
      boot, bist, cal, t.otp, sec, net, reqs, seqNext, seqRec, epochs, istat, gals, halls, corrs, t.pending⟩ ↔ s.Keeps W t :=
  ⟨fun h => h.upd hd rfl rfl rfl rfl rfl rfl (Nat.le_refl _) (fun x e => Field.same_symm (hx x e)),
    fun h => h.upd hd rfl rfl rfl rfl rfl rfl (Nat.le_refl _) hx⟩

/-- The same for one that leaves the admission queue as it is. -/
theorem keeps_mk_adm {W D : List Field} (hd : Field.sub D W = true) {s t : State} {regs memEpoch free port clk held again dom pwrCmd thermHall thermStack thermGood stop slots
    boot bist cal sec net reqs seqNext seqRec epochs istat gals halls corrs}
    (hx : ∀ x, D.contains x = false → x.same t
      ⟨t.part, regs, t.mem, memEpoch, free, t.now, t.ev, port, clk, ⟨t.adm.queue, held, again⟩, dom, pwrCmd, thermHall, thermStack, thermGood, stop, slots,
      boot, bist, cal, t.otp, sec, net, reqs, seqNext, seqRec, epochs, istat, gals, halls, corrs, t.pending⟩) :
    s.Keeps W
      ⟨t.part, regs, t.mem, memEpoch, free, t.now, t.ev, port, clk, ⟨t.adm.queue, held, again⟩, dom, pwrCmd, thermHall, thermStack, thermGood, stop, slots,
      boot, bist, cal, t.otp, sec, net, reqs, seqNext, seqRec, epochs, istat, gals, halls, corrs, t.pending⟩ ↔ s.Keeps W t :=
  ⟨fun h => h.upd hd rfl rfl rfl rfl rfl rfl (Nat.le_refl _) (fun x e => Field.same_symm (hx x e)),
    fun h => h.upd hd rfl rfl rfl rfl rfl rfl (Nat.le_refl _) hx⟩

/-- The same for one that leaves the admission queue no longer than it is. -/
theorem keeps_mk_le {W D : List Field} (hd : Field.sub D W = true) {s t : State} {regs memEpoch free port clk adm dom pwrCmd thermHall thermStack thermGood stop slots
    boot bist cal sec net reqs seqNext seqRec epochs istat gals halls corrs}
    (hl : adm.queue.length ≤ t.adm.queue.length) (hx : ∀ x, D.contains x = false → x.same t
      ⟨t.part, regs, t.mem, memEpoch, free, t.now, t.ev, port, clk, adm, dom, pwrCmd, thermHall, thermStack, thermGood, stop, slots,
      boot, bist, cal, t.otp, sec, net, reqs, seqNext, seqRec, epochs, istat, gals, halls, corrs, t.pending⟩) (h : s.Keeps W t) :
    s.Keeps W
      ⟨t.part, regs, t.mem, memEpoch, free, t.now, t.ev, port, clk, adm, dom, pwrCmd, thermHall, thermStack, thermGood, stop, slots,
      boot, bist, cal, t.otp, sec, net, reqs, seqNext, seqRec, epochs, istat, gals, halls, corrs, t.pending⟩ :=
  h.upd hd rfl rfl rfl rfl rfl rfl hl hx

theorem keeps_ite {W : List Field} {c : Prop} [Decidable c] {s t u : State} (ht : s.Keeps W t) (hu : s.Keeps W u) : s.Keeps W (if c then t else u) := by
  split
  · exact ht
  · exact hu

theorem keeps_ite_fst {W : List Field} {α : Type} {c : Prop} [Decidable c] {s : State} {t u : State × α} (ht : s.Keeps W t.1) (hu : s.Keeps W u.1) :
    s.Keeps W (if c then t else u).1 := by
  split
  · exact ht
  · exact hu

/-- A fold of an operation that keeps the relation. -/
theorem keeps_foldl {W : List Field} {α : Type} {s t : State} (l : List α) (f : State → α → State) (h : s.Keeps W t)
    (hf : ∀ u x, s.Keeps W u → s.Keeps W (f u x)) : s.Keeps W (l.foldl f t) := by
  induction l generalizing t with
  | nil => exact h
  | cons x l ih => exact ih (hf t x h)

/-- A fold that carries a state and something else. -/
theorem keeps_foldl_fst {W : List Field} {α β : Type} {s : State} {t : State × β} (l : List α) (f : State × β → α → State × β) (h : s.Keeps W t.1)
    (hf : ∀ u x, s.Keeps W u.1 → s.Keeps W (f u x).1) : s.Keeps W (l.foldl f t).1 := by
  induction l generalizing t with
  | nil => exact h
  | cons x l ih => exact ih (hf t x h)

/-! ## Memory -/

theorem memWf_del (m : List Host.Cell) (k : Nat) (h : memWf m = true) : memWf (Sparse.del m k) = true := by
  simp only [memWf, Bool.and_eq_true, List.all_eq_true, decide_eq_true_eq] at *
  refine ⟨Sparse.rising_filter m _ h.1, fun e he => h.2 e ?_⟩
  exact (List.mem_filter.mp he).1

theorem memWf_putCell (m : List Host.Cell) (k : Nat) (b : Byte) (h : memWf m = true) : memWf (putCell m k b) = true := by
  unfold putCell
  split
  · exact memWf_del m k h
  · rename_i hb
    simp only [memWf, Bool.and_eq_true, List.all_eq_true, decide_eq_true_eq] at *
    refine ⟨Sparse.rising_put m k b h.1, fun e he => ?_⟩
    rcases Sparse.mem_put m k b e he with h1 | h1
    · subst h1
      exact hb
    · exact h.2 e h1

theorem memWf_drop (m : List Host.Cell) (p : Nat → Bool) (h : memWf m = true) : memWf (Sparse.drop m p) = true := by
  simp only [memWf, Bool.and_eq_true, List.all_eq_true, decide_eq_true_eq] at *
  refine ⟨Sparse.rising_filter m _ h.1, fun e he => h.2 e ?_⟩
  exact (List.mem_filter.mp he).1

/-- A change of memory alone that keeps the canonical form. -/
theorem State.Keeps.memTo {W : List Field} {s t : State} (h : s.Keeps W t) (hw : W.contains .mem = true) (m : List Host.Cell) (e : Nat)
    (hm : memWf t.mem = true → memWf m = true) : s.Keeps W { t with mem := m, memEpoch := e } :=
  ⟨h.part, h.pending, h.now, h.otp, fun x => hm (h.mem x), h.ev, h.adm,
    fun x hx => Field.same_trans (h.rest x hx) (by cases x <;> first | rfl | (rw [hw] at hx; cases hx))⟩

theorem State.writeByte_keeps {W : List Field} {s₀ s : State} (hk : s₀.Keeps W s) (hw : Field.sub [.mem] W = true) (k : Nat) (b : Byte) :
    s₀.Keeps W (s.writeByte k b) :=
  hk.memTo (Field.mem_of_sub hw rfl) _ _ (memWf_putCell s.mem k b)

theorem State.writeBytes_keeps {W : List Field} {s₀ s : State} (hk : s₀.Keeps W s) (hw : Field.sub [.mem] W = true) (k : Nat)
    (l : List Byte) : s₀.Keeps W (s.writeBytes k l) := by
  induction l generalizing s k with
  | nil => exact hk
  | cons b l ih => exact ih (State.writeByte_keeps hk hw k b) (k + 1)

theorem State.writeEnabled_keeps {W : List Field} {s₀ s : State} (hk : s₀.Keeps W s) (hw : Field.sub [.mem] W = true) (k : Nat)
    (l : List (Byte × Bool)) : s₀.Keeps W (s.writeEnabled k l) := by
  induction l generalizing s k with
  | nil => exact hk
  | cons x l ih =>
    obtain ⟨b, e⟩ := x
    apply ih
    cases e
    · exact hk
    · exact State.writeByte_keeps hk hw k b

theorem State.loseMem_keeps {W : List Field} {s₀ s : State} (hk : s₀.Keeps W s) (hw : Field.sub [.mem] W = true) (lo hi : Nat) :
    s₀.Keeps W (s.loseMem lo hi) :=
  hk.memTo (Field.mem_of_sub hw rfl) _ _ (memWf_drop s.mem _)

theorem State.zeroVault_keeps {W : List Field} {s₀ s : State} (hk : s₀.Keeps W s) (hw : Field.sub [.mem] W = true) (lo hi : Nat) :
    s₀.Keeps W (s.zeroVault lo hi) :=
  hk.memTo (Field.mem_of_sub hw rfl) _ _ (memWf_drop s.mem _)

/-! ## Registers -/

theorem State.setReg_keeps {W : List Field} {s₀ s : State} (hk : s₀.Keeps W s) (hw : Field.sub [.regs] W = true) (a : Nat) (w : Word) :
    s₀.Keeps W (s.setReg a w) :=
  hk.upd hw rfl rfl rfl rfl rfl rfl (Nat.le_refl _) (by intro x hx; cases x <;> first | rfl | exact ⟨rfl, rfl⟩ | cases hx)

theorem State.setFld_keeps {W : List Field} {s₀ s : State} (hk : s₀.Keeps W s) (hw : Field.sub [.regs] W = true) (a : Nat) (f : Fld)
    (n : Nat) : s₀.Keeps W (s.setFld a f n) := State.setReg_keeps hk hw a _

theorem State.incFld_keeps {W : List Field} {s₀ s : State} (hk : s₀.Keeps W s) (hw : Field.sub [.regs] W = true) (a : Nat) (f : Fld)
    (k : Nat) : s₀.Keeps W (s.incFld a f k) := State.setReg_keeps hk hw a _

theorem State.incOvf_keeps {W : List Field} {s₀ s : State} (hk : s₀.Keeps W s) (hw : Field.sub [.regs] W = true) : s₀.Keeps W s.incOvf :=
  State.setReg_keeps hk hw _ _

/-! ## The event queue (R467) -/

theorem dropFirstSev_length (n sev : Nat) (l t : List EventRec) (h : dropFirstSev n sev l = some t) : t.length + 1 = l.length := by
  induction l generalizing n t with
  | nil => simp [dropFirstSev] at h
  | cons r l ih =>
    simp only [dropFirstSev] at h
    split at h
    · simp only [Option.some.injEq] at h
      subst h
      rfl
    · simp only [Option.map_eq_some_iff] at h
      obtain ⟨u, hu, rfl⟩ := h
      simp [ih _ _ hu]

theorem makeRoom_length (n sev : Nat) (l t : List EventRec) (h : makeRoom n sev l = some t) : t.length + 1 = l.length := by
  unfold makeRoom at h
  split at h
  · rename_i u hu
    exact Option.some.inj h ▸ dropFirstSev_length _ _ _ _ hu
  · split at h
    · rename_i u hu
      exact Option.some.inj h ▸ dropFirstSev_length _ _ _ _ hu
    · split at h
      · exact dropFirstSev_length _ _ _ _ h
      · cases h

/-- A change of the event queue alone. -/
theorem State.Keeps.evTo {W : List Field} {s t : State} (h : s.Keeps W t) (hw : W.contains .ev = true) (q : EventQ)
    (hq : evOk t.ev → evOk q) : s.Keeps W { t with ev := q } :=
  ⟨h.part, h.pending, h.now, h.otp, h.mem, fun x => hq (h.ev x), h.adm,
    fun x hx => Field.same_trans (h.rest x hx) (by cases x <;> first | rfl | exact ⟨rfl, rfl⟩ | (rw [hw] at hx; cases hx))⟩

theorem State.enqueueEvent_keeps {W : List Field} {s₀ s : State} (hk : s₀.Keeps W s) (hw : Field.sub [.regs, .ev] W = true)
    (r : EventRec) : s₀.Keeps W (s.enqueueEvent r) := by
  have hr : Field.sub [.regs] W = true := Field.sub_trans (by decide) hw
  have hv : W.contains .ev = true := Field.mem_of_sub hw (by decide)
  unfold State.enqueueEvent
  have h1 : s₀.Keeps W (if r.sev = 3 then s.setFld Reg.SYS_EVSTAT Fl.SYS_EVSTAT_CRIT 1 else s) := by
    split
    · exact State.setFld_keeps hk hr _ _ _
    · exact hk
  have he : (if r.sev = 3 then s.setFld Reg.SYS_EVSTAT Fl.SYS_EVSTAT_CRIT 1 else s).ev = s.ev := by split <;> rfl
  dsimp only
  split
  · rename_i hlt
    refine h1.evTo hv _ (fun h => ?_)
    rw [he] at h ⊢
    refine ⟨?_, ?_⟩
    · simp only [List.length_append, List.length_cons, List.length_nil]
      omega
    · exact Nat.le_trans h.2 (by simp)
  · split
    · rename_i hlt t ht
      refine State.incOvf_keeps (h1.evTo hv _ (fun h => ?_)) hr
      rw [he] at h ⊢
      have hl := makeRoom_length _ _ _ _ ht
      refine ⟨?_, ?_⟩
      · simp only [List.length_append, List.length_cons, List.length_nil]
        have := h.1
        omega
      · simp only [List.length_append, List.length_cons, List.length_nil]
        have := h.2
        omega
    · exact State.incOvf_keeps hk hr

theorem State.post_keeps {W : List Field} {s₀ s : State} (hk : s₀.Keeps W s) (hw : Field.sub [.regs, .ev] W = true) (k : EvKind)
    (hall idx : Nat) (args : List (Nat × Nat)) : s₀.Keeps W (s.post k hall idx args) := State.enqueueEvent_keeps hk hw _

theorem State.limStamp_keeps {W : List Field} {s₀ s : State} (hk : s₀.Keeps W s) (hw : Field.sub [.ev] W = true) (id : Nat) :
    s₀.Keeps W (s.limStamp id) :=
  hk.evTo (Field.mem_of_sub hw rfl) _ (fun h => h)

/-! ## Admission (R422) -/

/-- A change of the admission controller that does not lengthen its queue. -/
theorem State.Keeps.admTo {W : List Field} {s t : State} (h : s.Keeps W t) (hw : Field.sub [.adm] W = true) (q : Adm)
    (hq : q.queue.length ≤ t.adm.queue.length) : s.Keeps W { t with adm := q } :=
  h.upd hw rfl rfl rfl rfl rfl rfl hq (by intro x hx; cases x <;> first | rfl | exact ⟨rfl, rfl⟩ | cases hx)

theorem State.admRelease_keeps {W : List Field} {s₀ s : State} (hk : s₀.Keeps W s) (hw : Field.sub [.adm] W = true) (kind : Nat)
    (who : AdmFor) : s₀.Keeps W (s.admRelease kind who) :=
  hk.admTo hw _ (Nat.le_refl _)

theorem State.admWithdraw_keeps {W : List Field} {s₀ s : State} (hk : s₀.Keeps W s) (hw : Field.sub [.adm] W = true) (who : AdmFor) :
    s₀.Keeps W (s.admWithdraw who) :=
  hk.admTo hw _ (List.length_filter_le _ _)

/-- A request of one more joins a queue that has room. -/
theorem State.Keeps.admPush {W : List Field} {s t : State} (h : s.Keeps W t) (hw : W.contains .adm = true) (r : AdmReq)
    (hl : ¬ t.adm.queue.length ≥ 64) : s.Keeps W { t with adm := { t.adm with queue := t.adm.queue ++ [r] } } :=
  ⟨h.part, h.pending, h.now, h.otp, h.mem, h.ev, fun _ => by
    simp only [List.length_append, List.length_cons, List.length_nil]
    omega, fun x hx => Field.same_trans (h.rest x hx) (by cases x <;> first | rfl | exact ⟨rfl, rfl⟩ | (rw [hw] at hx; cases hx))⟩

/-! ## One-time-programmable memory (R378) -/

/-- A change of one-time-programmable memory alone that only advances it. -/
theorem State.Keeps.otpTo {W : List Field} {s t : State} (h : s.Keeps W t) (hw : W.contains .otp = true) (o : Otp)
    (ho : OtpLe t.otp o) : s.Keeps W { t with otp := o } :=
  ⟨h.part, h.pending, h.now, h.otp.trans ho, h.mem, h.ev, h.adm,
    fun x hx => Field.same_trans (h.rest x hx) (by cases x <;> first | rfl | exact ⟨rfl, rfl⟩ | (rw [hw] at hx; cases hx))⟩

theorem bitOf_or (a b k : Nat) (h : bitOf a k = true) : bitOf (a ||| b) k = true := by
  simp only [bitOf, Nat.testBit_or] at *
  simp [h]

theorem bitOf_setBit (a j k : Nat) (h : bitOf a k = true) : bitOf (setBit a j true) k = true := bitOf_or a _ k h

theorem OtpLe.lcTo {a b : Otp} (h : OtpLe a b) (n : Nat) : OtpLe a { b with lc := max b.lc n } :=
  ⟨Nat.le_trans h.lc (Nat.le_max_left _ _), h.rb, h.prog, h.rev, h.spoilt, h.rbSpoilt, h.keys⟩

theorem OtpLe.rbTo {a b : Otp} (h : OtpLe a b) (n : Nat) : OtpLe a { b with rb := max b.rb n } :=
  ⟨h.lc, Nat.le_trans h.rb (Nat.le_max_left _ _), h.prog, h.rev, h.spoilt, h.rbSpoilt, h.keys⟩

theorem OtpLe.revTo {a b : Otp} (h : OtpLe a b) (n : Nat) : OtpLe a { b with rev := b.rev ||| n } :=
  ⟨h.lc, h.rb, h.prog, fun k x => bitOf_or _ _ _ (h.rev k x), h.spoilt, h.rbSpoilt, h.keys⟩

theorem OtpLe.spoiltTo {a b : Otp} (h : OtpLe a b) (j : Nat) : OtpLe a { b with spoilt := setBit b.spoilt j true } :=
  ⟨h.lc, h.rb, h.prog, h.rev, fun k x => bitOf_setBit _ _ _ (h.spoilt k x), h.rbSpoilt, h.keys⟩

theorem OtpLe.rbSpoiltTo {a b : Otp} (h : OtpLe a b) (j : Nat) : OtpLe a { b with rbSpoilt := setBit b.rbSpoilt j true } :=
  ⟨h.lc, h.rb, h.prog, h.rev, h.spoilt, fun k x => bitOf_setBit _ _ _ (h.rbSpoilt k x), h.keys⟩

/-- A key goes into a slot that is not programmed. -/
theorem OtpLe.keyTo {a b : Otp} (h : OtpLe a b) (j : Nat) (v : BitVec 256) (hj : ¬ bitOf b.prog j = true) :
    OtpLe a { b with prog := setBit b.prog j true, keys := Sparse.put b.keys j v } := by
  refine ⟨h.lc, h.rb, fun k x => bitOf_setBit _ _ _ (h.prog k x), h.rev, h.spoilt, h.rbSpoilt, fun k x => ?_⟩
  have hk : k ≠ j := fun e => hj (e ▸ h.prog k x)
  exact (Sparse.find_put_other b.keys j k v hk).trans (h.keys k x)

end Sys2Proof.Machine
end

