-- ==== Sys2Proof/Laws/State.lean ====
section
/-!
SUPPORT. Laws/State.lean: what each update of a state leaves as it was, field by field.
-/
namespace Sys2Proof.Machine

variable (s : State)

@[simp] theorem State.setReg_part (a : Nat) (w : Word) : (s.setReg a w).part = s.part := rfl
@[simp] theorem State.setReg_mem (a : Nat) (w : Word) : (s.setReg a w).mem = s.mem := rfl
@[simp] theorem State.setReg_memEpoch (a : Nat) (w : Word) : (s.setReg a w).memEpoch = s.memEpoch := rfl
@[simp] theorem State.setReg_free (a : Nat) (w : Word) : (s.setReg a w).free = s.free := rfl
@[simp] theorem State.setReg_now (a : Nat) (w : Word) : (s.setReg a w).now = s.now := rfl
@[simp] theorem State.setReg_ev (a : Nat) (w : Word) : (s.setReg a w).ev = s.ev := rfl
@[simp] theorem State.setReg_port (a : Nat) (w : Word) : (s.setReg a w).port = s.port := rfl
@[simp] theorem State.setReg_clk (a : Nat) (w : Word) : (s.setReg a w).clk = s.clk := rfl
@[simp] theorem State.setReg_adm (a : Nat) (w : Word) : (s.setReg a w).adm = s.adm := rfl
@[simp] theorem State.setReg_dom (a : Nat) (w : Word) : (s.setReg a w).dom = s.dom := rfl
@[simp] theorem State.setReg_pwrCmd (a : Nat) (w : Word) : (s.setReg a w).pwrCmd = s.pwrCmd := rfl
@[simp] theorem State.setReg_thermHall (a : Nat) (w : Word) : (s.setReg a w).thermHall = s.thermHall := rfl
@[simp] theorem State.setReg_thermStack (a : Nat) (w : Word) : (s.setReg a w).thermStack = s.thermStack := rfl
@[simp] theorem State.setReg_thermGood (a : Nat) (w : Word) : (s.setReg a w).thermGood = s.thermGood := rfl
@[simp] theorem State.setReg_stop (a : Nat) (w : Word) : (s.setReg a w).stop = s.stop := rfl
@[simp] theorem State.setReg_slots (a : Nat) (w : Word) : (s.setReg a w).slots = s.slots := rfl
@[simp] theorem State.setReg_boot (a : Nat) (w : Word) : (s.setReg a w).boot = s.boot := rfl
@[simp] theorem State.setReg_bist (a : Nat) (w : Word) : (s.setReg a w).bist = s.bist := rfl
@[simp] theorem State.setReg_cal (a : Nat) (w : Word) : (s.setReg a w).cal = s.cal := rfl
@[simp] theorem State.setReg_otp (a : Nat) (w : Word) : (s.setReg a w).otp = s.otp := rfl
@[simp] theorem State.setReg_sec (a : Nat) (w : Word) : (s.setReg a w).sec = s.sec := rfl
@[simp] theorem State.setReg_net (a : Nat) (w : Word) : (s.setReg a w).net = s.net := rfl
@[simp] theorem State.setReg_reqs (a : Nat) (w : Word) : (s.setReg a w).reqs = s.reqs := rfl
@[simp] theorem State.setReg_seqNext (a : Nat) (w : Word) : (s.setReg a w).seqNext = s.seqNext := rfl
@[simp] theorem State.setReg_seqRec (a : Nat) (w : Word) : (s.setReg a w).seqRec = s.seqRec := rfl
@[simp] theorem State.setReg_epochs (a : Nat) (w : Word) : (s.setReg a w).epochs = s.epochs := rfl
@[simp] theorem State.setReg_istat (a : Nat) (w : Word) : (s.setReg a w).istat = s.istat := rfl
@[simp] theorem State.setReg_gals (a : Nat) (w : Word) : (s.setReg a w).gals = s.gals := rfl
@[simp] theorem State.setReg_halls (a : Nat) (w : Word) : (s.setReg a w).halls = s.halls := rfl
@[simp] theorem State.setReg_corrs (a : Nat) (w : Word) : (s.setReg a w).corrs = s.corrs := rfl
@[simp] theorem State.setReg_pending (a : Nat) (w : Word) : (s.setReg a w).pending = s.pending := rfl
@[simp] theorem State.setFld_part (a : Nat) (f : Fld) (n : Nat) : (s.setFld a f n).part = s.part := rfl
@[simp] theorem State.setFld_mem (a : Nat) (f : Fld) (n : Nat) : (s.setFld a f n).mem = s.mem := rfl
@[simp] theorem State.setFld_memEpoch (a : Nat) (f : Fld) (n : Nat) : (s.setFld a f n).memEpoch = s.memEpoch := rfl
@[simp] theorem State.setFld_free (a : Nat) (f : Fld) (n : Nat) : (s.setFld a f n).free = s.free := rfl
@[simp] theorem State.setFld_now (a : Nat) (f : Fld) (n : Nat) : (s.setFld a f n).now = s.now := rfl
@[simp] theorem State.setFld_ev (a : Nat) (f : Fld) (n : Nat) : (s.setFld a f n).ev = s.ev := rfl
@[simp] theorem State.setFld_port (a : Nat) (f : Fld) (n : Nat) : (s.setFld a f n).port = s.port := rfl
@[simp] theorem State.setFld_clk (a : Nat) (f : Fld) (n : Nat) : (s.setFld a f n).clk = s.clk := rfl
@[simp] theorem State.setFld_adm (a : Nat) (f : Fld) (n : Nat) : (s.setFld a f n).adm = s.adm := rfl
@[simp] theorem State.setFld_dom (a : Nat) (f : Fld) (n : Nat) : (s.setFld a f n).dom = s.dom := rfl
@[simp] theorem State.setFld_pwrCmd (a : Nat) (f : Fld) (n : Nat) : (s.setFld a f n).pwrCmd = s.pwrCmd := rfl
@[simp] theorem State.setFld_thermHall (a : Nat) (f : Fld) (n : Nat) : (s.setFld a f n).thermHall = s.thermHall := rfl
@[simp] theorem State.setFld_thermStack (a : Nat) (f : Fld) (n : Nat) : (s.setFld a f n).thermStack = s.thermStack := rfl
@[simp] theorem State.setFld_thermGood (a : Nat) (f : Fld) (n : Nat) : (s.setFld a f n).thermGood = s.thermGood := rfl
@[simp] theorem State.setFld_stop (a : Nat) (f : Fld) (n : Nat) : (s.setFld a f n).stop = s.stop := rfl
@[simp] theorem State.setFld_slots (a : Nat) (f : Fld) (n : Nat) : (s.setFld a f n).slots = s.slots := rfl
@[simp] theorem State.setFld_boot (a : Nat) (f : Fld) (n : Nat) : (s.setFld a f n).boot = s.boot := rfl
@[simp] theorem State.setFld_bist (a : Nat) (f : Fld) (n : Nat) : (s.setFld a f n).bist = s.bist := rfl
@[simp] theorem State.setFld_cal (a : Nat) (f : Fld) (n : Nat) : (s.setFld a f n).cal = s.cal := rfl
@[simp] theorem State.setFld_otp (a : Nat) (f : Fld) (n : Nat) : (s.setFld a f n).otp = s.otp := rfl
@[simp] theorem State.setFld_sec (a : Nat) (f : Fld) (n : Nat) : (s.setFld a f n).sec = s.sec := rfl
@[simp] theorem State.setFld_net (a : Nat) (f : Fld) (n : Nat) : (s.setFld a f n).net = s.net := rfl
@[simp] theorem State.setFld_reqs (a : Nat) (f : Fld) (n : Nat) : (s.setFld a f n).reqs = s.reqs := rfl
@[simp] theorem State.setFld_seqNext (a : Nat) (f : Fld) (n : Nat) : (s.setFld a f n).seqNext = s.seqNext := rfl
@[simp] theorem State.setFld_seqRec (a : Nat) (f : Fld) (n : Nat) : (s.setFld a f n).seqRec = s.seqRec := rfl
@[simp] theorem State.setFld_epochs (a : Nat) (f : Fld) (n : Nat) : (s.setFld a f n).epochs = s.epochs := rfl
@[simp] theorem State.setFld_istat (a : Nat) (f : Fld) (n : Nat) : (s.setFld a f n).istat = s.istat := rfl
@[simp] theorem State.setFld_gals (a : Nat) (f : Fld) (n : Nat) : (s.setFld a f n).gals = s.gals := rfl
@[simp] theorem State.setFld_halls (a : Nat) (f : Fld) (n : Nat) : (s.setFld a f n).halls = s.halls := rfl
@[simp] theorem State.setFld_corrs (a : Nat) (f : Fld) (n : Nat) : (s.setFld a f n).corrs = s.corrs := rfl
@[simp] theorem State.setFld_pending (a : Nat) (f : Fld) (n : Nat) : (s.setFld a f n).pending = s.pending := rfl
@[simp] theorem State.incFld_part (a : Nat) (f : Fld) (k : Nat) : (s.incFld a f k).part = s.part := rfl
@[simp] theorem State.incFld_mem (a : Nat) (f : Fld) (k : Nat) : (s.incFld a f k).mem = s.mem := rfl
@[simp] theorem State.incFld_memEpoch (a : Nat) (f : Fld) (k : Nat) : (s.incFld a f k).memEpoch = s.memEpoch := rfl
@[simp] theorem State.incFld_free (a : Nat) (f : Fld) (k : Nat) : (s.incFld a f k).free = s.free := rfl
@[simp] theorem State.incFld_now (a : Nat) (f : Fld) (k : Nat) : (s.incFld a f k).now = s.now := rfl
@[simp] theorem State.incFld_ev (a : Nat) (f : Fld) (k : Nat) : (s.incFld a f k).ev = s.ev := rfl
@[simp] theorem State.incFld_port (a : Nat) (f : Fld) (k : Nat) : (s.incFld a f k).port = s.port := rfl
@[simp] theorem State.incFld_clk (a : Nat) (f : Fld) (k : Nat) : (s.incFld a f k).clk = s.clk := rfl
@[simp] theorem State.incFld_adm (a : Nat) (f : Fld) (k : Nat) : (s.incFld a f k).adm = s.adm := rfl
@[simp] theorem State.incFld_dom (a : Nat) (f : Fld) (k : Nat) : (s.incFld a f k).dom = s.dom := rfl
@[simp] theorem State.incFld_pwrCmd (a : Nat) (f : Fld) (k : Nat) : (s.incFld a f k).pwrCmd = s.pwrCmd := rfl
@[simp] theorem State.incFld_thermHall (a : Nat) (f : Fld) (k : Nat) : (s.incFld a f k).thermHall = s.thermHall := rfl
@[simp] theorem State.incFld_thermStack (a : Nat) (f : Fld) (k : Nat) : (s.incFld a f k).thermStack = s.thermStack := rfl
@[simp] theorem State.incFld_thermGood (a : Nat) (f : Fld) (k : Nat) : (s.incFld a f k).thermGood = s.thermGood := rfl
@[simp] theorem State.incFld_stop (a : Nat) (f : Fld) (k : Nat) : (s.incFld a f k).stop = s.stop := rfl
@[simp] theorem State.incFld_slots (a : Nat) (f : Fld) (k : Nat) : (s.incFld a f k).slots = s.slots := rfl
@[simp] theorem State.incFld_boot (a : Nat) (f : Fld) (k : Nat) : (s.incFld a f k).boot = s.boot := rfl
@[simp] theorem State.incFld_bist (a : Nat) (f : Fld) (k : Nat) : (s.incFld a f k).bist = s.bist := rfl
@[simp] theorem State.incFld_cal (a : Nat) (f : Fld) (k : Nat) : (s.incFld a f k).cal = s.cal := rfl
@[simp] theorem State.incFld_otp (a : Nat) (f : Fld) (k : Nat) : (s.incFld a f k).otp = s.otp := rfl
@[simp] theorem State.incFld_sec (a : Nat) (f : Fld) (k : Nat) : (s.incFld a f k).sec = s.sec := rfl
@[simp] theorem State.incFld_net (a : Nat) (f : Fld) (k : Nat) : (s.incFld a f k).net = s.net := rfl
@[simp] theorem State.incFld_reqs (a : Nat) (f : Fld) (k : Nat) : (s.incFld a f k).reqs = s.reqs := rfl
@[simp] theorem State.incFld_seqNext (a : Nat) (f : Fld) (k : Nat) : (s.incFld a f k).seqNext = s.seqNext := rfl
@[simp] theorem State.incFld_seqRec (a : Nat) (f : Fld) (k : Nat) : (s.incFld a f k).seqRec = s.seqRec := rfl
@[simp] theorem State.incFld_epochs (a : Nat) (f : Fld) (k : Nat) : (s.incFld a f k).epochs = s.epochs := rfl
@[simp] theorem State.incFld_istat (a : Nat) (f : Fld) (k : Nat) : (s.incFld a f k).istat = s.istat := rfl
@[simp] theorem State.incFld_gals (a : Nat) (f : Fld) (k : Nat) : (s.incFld a f k).gals = s.gals := rfl
@[simp] theorem State.incFld_halls (a : Nat) (f : Fld) (k : Nat) : (s.incFld a f k).halls = s.halls := rfl
@[simp] theorem State.incFld_corrs (a : Nat) (f : Fld) (k : Nat) : (s.incFld a f k).corrs = s.corrs := rfl
@[simp] theorem State.incFld_pending (a : Nat) (f : Fld) (k : Nat) : (s.incFld a f k).pending = s.pending := rfl
@[simp] theorem State.setFldBit_part (a : Nat) (f : Fld) (k : Nat) (b : Bool) : (s.setFldBit a f k b).part = s.part := rfl
@[simp] theorem State.setFldBit_mem (a : Nat) (f : Fld) (k : Nat) (b : Bool) : (s.setFldBit a f k b).mem = s.mem := rfl
@[simp] theorem State.setFldBit_memEpoch (a : Nat) (f : Fld) (k : Nat) (b : Bool) : (s.setFldBit a f k b).memEpoch = s.memEpoch := rfl
@[simp] theorem State.setFldBit_free (a : Nat) (f : Fld) (k : Nat) (b : Bool) : (s.setFldBit a f k b).free = s.free := rfl
@[simp] theorem State.setFldBit_now (a : Nat) (f : Fld) (k : Nat) (b : Bool) : (s.setFldBit a f k b).now = s.now := rfl
@[simp] theorem State.setFldBit_ev (a : Nat) (f : Fld) (k : Nat) (b : Bool) : (s.setFldBit a f k b).ev = s.ev := rfl
@[simp] theorem State.setFldBit_port (a : Nat) (f : Fld) (k : Nat) (b : Bool) : (s.setFldBit a f k b).port = s.port := rfl
@[simp] theorem State.setFldBit_clk (a : Nat) (f : Fld) (k : Nat) (b : Bool) : (s.setFldBit a f k b).clk = s.clk := rfl
@[simp] theorem State.setFldBit_adm (a : Nat) (f : Fld) (k : Nat) (b : Bool) : (s.setFldBit a f k b).adm = s.adm := rfl
@[simp] theorem State.setFldBit_dom (a : Nat) (f : Fld) (k : Nat) (b : Bool) : (s.setFldBit a f k b).dom = s.dom := rfl
@[simp] theorem State.setFldBit_pwrCmd (a : Nat) (f : Fld) (k : Nat) (b : Bool) : (s.setFldBit a f k b).pwrCmd = s.pwrCmd := rfl
@[simp] theorem State.setFldBit_thermHall (a : Nat) (f : Fld) (k : Nat) (b : Bool) : (s.setFldBit a f k b).thermHall = s.thermHall := rfl
@[simp] theorem State.setFldBit_thermStack (a : Nat) (f : Fld) (k : Nat) (b : Bool) : (s.setFldBit a f k b).thermStack = s.thermStack := rfl
@[simp] theorem State.setFldBit_thermGood (a : Nat) (f : Fld) (k : Nat) (b : Bool) : (s.setFldBit a f k b).thermGood = s.thermGood := rfl
@[simp] theorem State.setFldBit_stop (a : Nat) (f : Fld) (k : Nat) (b : Bool) : (s.setFldBit a f k b).stop = s.stop := rfl
@[simp] theorem State.setFldBit_slots (a : Nat) (f : Fld) (k : Nat) (b : Bool) : (s.setFldBit a f k b).slots = s.slots := rfl
@[simp] theorem State.setFldBit_boot (a : Nat) (f : Fld) (k : Nat) (b : Bool) : (s.setFldBit a f k b).boot = s.boot := rfl
@[simp] theorem State.setFldBit_bist (a : Nat) (f : Fld) (k : Nat) (b : Bool) : (s.setFldBit a f k b).bist = s.bist := rfl
@[simp] theorem State.setFldBit_cal (a : Nat) (f : Fld) (k : Nat) (b : Bool) : (s.setFldBit a f k b).cal = s.cal := rfl
@[simp] theorem State.setFldBit_otp (a : Nat) (f : Fld) (k : Nat) (b : Bool) : (s.setFldBit a f k b).otp = s.otp := rfl
@[simp] theorem State.setFldBit_sec (a : Nat) (f : Fld) (k : Nat) (b : Bool) : (s.setFldBit a f k b).sec = s.sec := rfl
@[simp] theorem State.setFldBit_net (a : Nat) (f : Fld) (k : Nat) (b : Bool) : (s.setFldBit a f k b).net = s.net := rfl
@[simp] theorem State.setFldBit_reqs (a : Nat) (f : Fld) (k : Nat) (b : Bool) : (s.setFldBit a f k b).reqs = s.reqs := rfl
@[simp] theorem State.setFldBit_seqNext (a : Nat) (f : Fld) (k : Nat) (b : Bool) : (s.setFldBit a f k b).seqNext = s.seqNext := rfl
@[simp] theorem State.setFldBit_seqRec (a : Nat) (f : Fld) (k : Nat) (b : Bool) : (s.setFldBit a f k b).seqRec = s.seqRec := rfl
@[simp] theorem State.setFldBit_epochs (a : Nat) (f : Fld) (k : Nat) (b : Bool) : (s.setFldBit a f k b).epochs = s.epochs := rfl
@[simp] theorem State.setFldBit_istat (a : Nat) (f : Fld) (k : Nat) (b : Bool) : (s.setFldBit a f k b).istat = s.istat := rfl
@[simp] theorem State.setFldBit_gals (a : Nat) (f : Fld) (k : Nat) (b : Bool) : (s.setFldBit a f k b).gals = s.gals := rfl
@[simp] theorem State.setFldBit_halls (a : Nat) (f : Fld) (k : Nat) (b : Bool) : (s.setFldBit a f k b).halls = s.halls := rfl
@[simp] theorem State.setFldBit_corrs (a : Nat) (f : Fld) (k : Nat) (b : Bool) : (s.setFldBit a f k b).corrs = s.corrs := rfl
@[simp] theorem State.setFldBit_pending (a : Nat) (f : Fld) (k : Nat) (b : Bool) : (s.setFldBit a f k b).pending = s.pending := rfl
@[simp] theorem State.clrReg_part (a : Nat) : (s.clrReg a).part = s.part := rfl
@[simp] theorem State.clrReg_mem (a : Nat) : (s.clrReg a).mem = s.mem := rfl
@[simp] theorem State.clrReg_memEpoch (a : Nat) : (s.clrReg a).memEpoch = s.memEpoch := rfl
@[simp] theorem State.clrReg_free (a : Nat) : (s.clrReg a).free = s.free := rfl
@[simp] theorem State.clrReg_now (a : Nat) : (s.clrReg a).now = s.now := rfl
@[simp] theorem State.clrReg_ev (a : Nat) : (s.clrReg a).ev = s.ev := rfl
@[simp] theorem State.clrReg_port (a : Nat) : (s.clrReg a).port = s.port := rfl
@[simp] theorem State.clrReg_clk (a : Nat) : (s.clrReg a).clk = s.clk := rfl
@[simp] theorem State.clrReg_adm (a : Nat) : (s.clrReg a).adm = s.adm := rfl
@[simp] theorem State.clrReg_dom (a : Nat) : (s.clrReg a).dom = s.dom := rfl
@[simp] theorem State.clrReg_pwrCmd (a : Nat) : (s.clrReg a).pwrCmd = s.pwrCmd := rfl
@[simp] theorem State.clrReg_thermHall (a : Nat) : (s.clrReg a).thermHall = s.thermHall := rfl
@[simp] theorem State.clrReg_thermStack (a : Nat) : (s.clrReg a).thermStack = s.thermStack := rfl
@[simp] theorem State.clrReg_thermGood (a : Nat) : (s.clrReg a).thermGood = s.thermGood := rfl
@[simp] theorem State.clrReg_stop (a : Nat) : (s.clrReg a).stop = s.stop := rfl
@[simp] theorem State.clrReg_slots (a : Nat) : (s.clrReg a).slots = s.slots := rfl
@[simp] theorem State.clrReg_boot (a : Nat) : (s.clrReg a).boot = s.boot := rfl
@[simp] theorem State.clrReg_bist (a : Nat) : (s.clrReg a).bist = s.bist := rfl
@[simp] theorem State.clrReg_cal (a : Nat) : (s.clrReg a).cal = s.cal := rfl
@[simp] theorem State.clrReg_otp (a : Nat) : (s.clrReg a).otp = s.otp := rfl
@[simp] theorem State.clrReg_sec (a : Nat) : (s.clrReg a).sec = s.sec := rfl
@[simp] theorem State.clrReg_net (a : Nat) : (s.clrReg a).net = s.net := rfl
@[simp] theorem State.clrReg_reqs (a : Nat) : (s.clrReg a).reqs = s.reqs := rfl
@[simp] theorem State.clrReg_seqNext (a : Nat) : (s.clrReg a).seqNext = s.seqNext := rfl
@[simp] theorem State.clrReg_seqRec (a : Nat) : (s.clrReg a).seqRec = s.seqRec := rfl
@[simp] theorem State.clrReg_epochs (a : Nat) : (s.clrReg a).epochs = s.epochs := rfl
@[simp] theorem State.clrReg_istat (a : Nat) : (s.clrReg a).istat = s.istat := rfl
@[simp] theorem State.clrReg_gals (a : Nat) : (s.clrReg a).gals = s.gals := rfl
@[simp] theorem State.clrReg_halls (a : Nat) : (s.clrReg a).halls = s.halls := rfl
@[simp] theorem State.clrReg_corrs (a : Nat) : (s.clrReg a).corrs = s.corrs := rfl
@[simp] theorem State.clrReg_pending (a : Nat) : (s.clrReg a).pending = s.pending := rfl
@[simp] theorem State.resetRegs_part (p : Nat → Bool) : (s.resetRegs p).part = s.part := rfl
@[simp] theorem State.resetRegs_mem (p : Nat → Bool) : (s.resetRegs p).mem = s.mem := rfl
@[simp] theorem State.resetRegs_memEpoch (p : Nat → Bool) : (s.resetRegs p).memEpoch = s.memEpoch := rfl
@[simp] theorem State.resetRegs_free (p : Nat → Bool) : (s.resetRegs p).free = s.free := rfl
@[simp] theorem State.resetRegs_now (p : Nat → Bool) : (s.resetRegs p).now = s.now := rfl
@[simp] theorem State.resetRegs_ev (p : Nat → Bool) : (s.resetRegs p).ev = s.ev := rfl
@[simp] theorem State.resetRegs_port (p : Nat → Bool) : (s.resetRegs p).port = s.port := rfl
@[simp] theorem State.resetRegs_clk (p : Nat → Bool) : (s.resetRegs p).clk = s.clk := rfl
@[simp] theorem State.resetRegs_adm (p : Nat → Bool) : (s.resetRegs p).adm = s.adm := rfl
@[simp] theorem State.resetRegs_dom (p : Nat → Bool) : (s.resetRegs p).dom = s.dom := rfl
@[simp] theorem State.resetRegs_pwrCmd (p : Nat → Bool) : (s.resetRegs p).pwrCmd = s.pwrCmd := rfl
@[simp] theorem State.resetRegs_thermHall (p : Nat → Bool) : (s.resetRegs p).thermHall = s.thermHall := rfl
@[simp] theorem State.resetRegs_thermStack (p : Nat → Bool) : (s.resetRegs p).thermStack = s.thermStack := rfl
@[simp] theorem State.resetRegs_thermGood (p : Nat → Bool) : (s.resetRegs p).thermGood = s.thermGood := rfl
@[simp] theorem State.resetRegs_stop (p : Nat → Bool) : (s.resetRegs p).stop = s.stop := rfl
@[simp] theorem State.resetRegs_slots (p : Nat → Bool) : (s.resetRegs p).slots = s.slots := rfl
@[simp] theorem State.resetRegs_boot (p : Nat → Bool) : (s.resetRegs p).boot = s.boot := rfl
@[simp] theorem State.resetRegs_bist (p : Nat → Bool) : (s.resetRegs p).bist = s.bist := rfl
@[simp] theorem State.resetRegs_cal (p : Nat → Bool) : (s.resetRegs p).cal = s.cal := rfl
@[simp] theorem State.resetRegs_otp (p : Nat → Bool) : (s.resetRegs p).otp = s.otp := rfl
@[simp] theorem State.resetRegs_sec (p : Nat → Bool) : (s.resetRegs p).sec = s.sec := rfl
@[simp] theorem State.resetRegs_net (p : Nat → Bool) : (s.resetRegs p).net = s.net := rfl
@[simp] theorem State.resetRegs_reqs (p : Nat → Bool) : (s.resetRegs p).reqs = s.reqs := rfl
@[simp] theorem State.resetRegs_seqNext (p : Nat → Bool) : (s.resetRegs p).seqNext = s.seqNext := rfl
@[simp] theorem State.resetRegs_seqRec (p : Nat → Bool) : (s.resetRegs p).seqRec = s.seqRec := rfl
@[simp] theorem State.resetRegs_epochs (p : Nat → Bool) : (s.resetRegs p).epochs = s.epochs := rfl
@[simp] theorem State.resetRegs_istat (p : Nat → Bool) : (s.resetRegs p).istat = s.istat := rfl
@[simp] theorem State.resetRegs_gals (p : Nat → Bool) : (s.resetRegs p).gals = s.gals := rfl
@[simp] theorem State.resetRegs_halls (p : Nat → Bool) : (s.resetRegs p).halls = s.halls := rfl
@[simp] theorem State.resetRegs_corrs (p : Nat → Bool) : (s.resetRegs p).corrs = s.corrs := rfl
@[simp] theorem State.resetRegs_pending (p : Nat → Bool) : (s.resetRegs p).pending = s.pending := rfl
@[simp] theorem State.draw_part : (s.draw).part = s.part := rfl
@[simp] theorem State.draw_regs : (s.draw).regs = s.regs := rfl
@[simp] theorem State.draw_mem : (s.draw).mem = s.mem := rfl
@[simp] theorem State.draw_memEpoch : (s.draw).memEpoch = s.memEpoch := rfl
@[simp] theorem State.draw_now : (s.draw).now = s.now := rfl
@[simp] theorem State.draw_ev : (s.draw).ev = s.ev := rfl
@[simp] theorem State.draw_port : (s.draw).port = s.port := rfl
@[simp] theorem State.draw_clk : (s.draw).clk = s.clk := rfl
@[simp] theorem State.draw_adm : (s.draw).adm = s.adm := rfl
@[simp] theorem State.draw_dom : (s.draw).dom = s.dom := rfl
@[simp] theorem State.draw_pwrCmd : (s.draw).pwrCmd = s.pwrCmd := rfl
@[simp] theorem State.draw_thermHall : (s.draw).thermHall = s.thermHall := rfl
@[simp] theorem State.draw_thermStack : (s.draw).thermStack = s.thermStack := rfl
@[simp] theorem State.draw_thermGood : (s.draw).thermGood = s.thermGood := rfl
@[simp] theorem State.draw_stop : (s.draw).stop = s.stop := rfl
@[simp] theorem State.draw_slots : (s.draw).slots = s.slots := rfl
@[simp] theorem State.draw_boot : (s.draw).boot = s.boot := rfl
@[simp] theorem State.draw_bist : (s.draw).bist = s.bist := rfl
@[simp] theorem State.draw_cal : (s.draw).cal = s.cal := rfl
@[simp] theorem State.draw_otp : (s.draw).otp = s.otp := rfl
@[simp] theorem State.draw_sec : (s.draw).sec = s.sec := rfl
@[simp] theorem State.draw_net : (s.draw).net = s.net := rfl
@[simp] theorem State.draw_reqs : (s.draw).reqs = s.reqs := rfl
@[simp] theorem State.draw_seqNext : (s.draw).seqNext = s.seqNext := rfl
@[simp] theorem State.draw_seqRec : (s.draw).seqRec = s.seqRec := rfl
@[simp] theorem State.draw_epochs : (s.draw).epochs = s.epochs := rfl
@[simp] theorem State.draw_istat : (s.draw).istat = s.istat := rfl
@[simp] theorem State.draw_gals : (s.draw).gals = s.gals := rfl
@[simp] theorem State.draw_halls : (s.draw).halls = s.halls := rfl
@[simp] theorem State.draw_corrs : (s.draw).corrs = s.corrs := rfl
@[simp] theorem State.draw_pending : (s.draw).pending = s.pending := rfl
@[simp] theorem State.limStamp_part (id : Nat) : (s.limStamp id).part = s.part := rfl
@[simp] theorem State.limStamp_regs (id : Nat) : (s.limStamp id).regs = s.regs := rfl
@[simp] theorem State.limStamp_mem (id : Nat) : (s.limStamp id).mem = s.mem := rfl
@[simp] theorem State.limStamp_memEpoch (id : Nat) : (s.limStamp id).memEpoch = s.memEpoch := rfl
@[simp] theorem State.limStamp_free (id : Nat) : (s.limStamp id).free = s.free := rfl
@[simp] theorem State.limStamp_now (id : Nat) : (s.limStamp id).now = s.now := rfl
@[simp] theorem State.limStamp_port (id : Nat) : (s.limStamp id).port = s.port := rfl
@[simp] theorem State.limStamp_clk (id : Nat) : (s.limStamp id).clk = s.clk := rfl
@[simp] theorem State.limStamp_adm (id : Nat) : (s.limStamp id).adm = s.adm := rfl
@[simp] theorem State.limStamp_dom (id : Nat) : (s.limStamp id).dom = s.dom := rfl
@[simp] theorem State.limStamp_pwrCmd (id : Nat) : (s.limStamp id).pwrCmd = s.pwrCmd := rfl
@[simp] theorem State.limStamp_thermHall (id : Nat) : (s.limStamp id).thermHall = s.thermHall := rfl
@[simp] theorem State.limStamp_thermStack (id : Nat) : (s.limStamp id).thermStack = s.thermStack := rfl
@[simp] theorem State.limStamp_thermGood (id : Nat) : (s.limStamp id).thermGood = s.thermGood := rfl
@[simp] theorem State.limStamp_stop (id : Nat) : (s.limStamp id).stop = s.stop := rfl
@[simp] theorem State.limStamp_slots (id : Nat) : (s.limStamp id).slots = s.slots := rfl
@[simp] theorem State.limStamp_boot (id : Nat) : (s.limStamp id).boot = s.boot := rfl
@[simp] theorem State.limStamp_bist (id : Nat) : (s.limStamp id).bist = s.bist := rfl
@[simp] theorem State.limStamp_cal (id : Nat) : (s.limStamp id).cal = s.cal := rfl
@[simp] theorem State.limStamp_otp (id : Nat) : (s.limStamp id).otp = s.otp := rfl
@[simp] theorem State.limStamp_sec (id : Nat) : (s.limStamp id).sec = s.sec := rfl
@[simp] theorem State.limStamp_net (id : Nat) : (s.limStamp id).net = s.net := rfl
@[simp] theorem State.limStamp_reqs (id : Nat) : (s.limStamp id).reqs = s.reqs := rfl
@[simp] theorem State.limStamp_seqNext (id : Nat) : (s.limStamp id).seqNext = s.seqNext := rfl
@[simp] theorem State.limStamp_seqRec (id : Nat) : (s.limStamp id).seqRec = s.seqRec := rfl
@[simp] theorem State.limStamp_epochs (id : Nat) : (s.limStamp id).epochs = s.epochs := rfl
@[simp] theorem State.limStamp_istat (id : Nat) : (s.limStamp id).istat = s.istat := rfl
@[simp] theorem State.limStamp_gals (id : Nat) : (s.limStamp id).gals = s.gals := rfl
@[simp] theorem State.limStamp_halls (id : Nat) : (s.limStamp id).halls = s.halls := rfl
@[simp] theorem State.limStamp_corrs (id : Nat) : (s.limStamp id).corrs = s.corrs := rfl
@[simp] theorem State.limStamp_pending (id : Nat) : (s.limStamp id).pending = s.pending := rfl
@[simp] theorem State.writeByte_part (k : Nat) (b : Byte) : (s.writeByte k b).part = s.part := rfl
@[simp] theorem State.writeByte_regs (k : Nat) (b : Byte) : (s.writeByte k b).regs = s.regs := rfl
@[simp] theorem State.writeByte_memEpoch (k : Nat) (b : Byte) : (s.writeByte k b).memEpoch = s.memEpoch := rfl
@[simp] theorem State.writeByte_free (k : Nat) (b : Byte) : (s.writeByte k b).free = s.free := rfl
@[simp] theorem State.writeByte_now (k : Nat) (b : Byte) : (s.writeByte k b).now = s.now := rfl
@[simp] theorem State.writeByte_ev (k : Nat) (b : Byte) : (s.writeByte k b).ev = s.ev := rfl
@[simp] theorem State.writeByte_port (k : Nat) (b : Byte) : (s.writeByte k b).port = s.port := rfl
@[simp] theorem State.writeByte_clk (k : Nat) (b : Byte) : (s.writeByte k b).clk = s.clk := rfl
@[simp] theorem State.writeByte_adm (k : Nat) (b : Byte) : (s.writeByte k b).adm = s.adm := rfl
@[simp] theorem State.writeByte_dom (k : Nat) (b : Byte) : (s.writeByte k b).dom = s.dom := rfl
@[simp] theorem State.writeByte_pwrCmd (k : Nat) (b : Byte) : (s.writeByte k b).pwrCmd = s.pwrCmd := rfl
@[simp] theorem State.writeByte_thermHall (k : Nat) (b : Byte) : (s.writeByte k b).thermHall = s.thermHall := rfl
@[simp] theorem State.writeByte_thermStack (k : Nat) (b : Byte) : (s.writeByte k b).thermStack = s.thermStack := rfl
@[simp] theorem State.writeByte_thermGood (k : Nat) (b : Byte) : (s.writeByte k b).thermGood = s.thermGood := rfl
@[simp] theorem State.writeByte_stop (k : Nat) (b : Byte) : (s.writeByte k b).stop = s.stop := rfl
@[simp] theorem State.writeByte_slots (k : Nat) (b : Byte) : (s.writeByte k b).slots = s.slots := rfl
@[simp] theorem State.writeByte_boot (k : Nat) (b : Byte) : (s.writeByte k b).boot = s.boot := rfl
@[simp] theorem State.writeByte_bist (k : Nat) (b : Byte) : (s.writeByte k b).bist = s.bist := rfl
@[simp] theorem State.writeByte_cal (k : Nat) (b : Byte) : (s.writeByte k b).cal = s.cal := rfl
@[simp] theorem State.writeByte_otp (k : Nat) (b : Byte) : (s.writeByte k b).otp = s.otp := rfl
@[simp] theorem State.writeByte_sec (k : Nat) (b : Byte) : (s.writeByte k b).sec = s.sec := rfl
@[simp] theorem State.writeByte_net (k : Nat) (b : Byte) : (s.writeByte k b).net = s.net := rfl
@[simp] theorem State.writeByte_reqs (k : Nat) (b : Byte) : (s.writeByte k b).reqs = s.reqs := rfl
@[simp] theorem State.writeByte_seqNext (k : Nat) (b : Byte) : (s.writeByte k b).seqNext = s.seqNext := rfl
@[simp] theorem State.writeByte_seqRec (k : Nat) (b : Byte) : (s.writeByte k b).seqRec = s.seqRec := rfl
@[simp] theorem State.writeByte_epochs (k : Nat) (b : Byte) : (s.writeByte k b).epochs = s.epochs := rfl
@[simp] theorem State.writeByte_istat (k : Nat) (b : Byte) : (s.writeByte k b).istat = s.istat := rfl
@[simp] theorem State.writeByte_gals (k : Nat) (b : Byte) : (s.writeByte k b).gals = s.gals := rfl
@[simp] theorem State.writeByte_halls (k : Nat) (b : Byte) : (s.writeByte k b).halls = s.halls := rfl
@[simp] theorem State.writeByte_corrs (k : Nat) (b : Byte) : (s.writeByte k b).corrs = s.corrs := rfl
@[simp] theorem State.writeByte_pending (k : Nat) (b : Byte) : (s.writeByte k b).pending = s.pending := rfl
@[simp] theorem State.loseMem_part (lo hi : Nat) : (s.loseMem lo hi).part = s.part := rfl
@[simp] theorem State.loseMem_regs (lo hi : Nat) : (s.loseMem lo hi).regs = s.regs := rfl
@[simp] theorem State.loseMem_free (lo hi : Nat) : (s.loseMem lo hi).free = s.free := rfl
@[simp] theorem State.loseMem_now (lo hi : Nat) : (s.loseMem lo hi).now = s.now := rfl
@[simp] theorem State.loseMem_ev (lo hi : Nat) : (s.loseMem lo hi).ev = s.ev := rfl
@[simp] theorem State.loseMem_port (lo hi : Nat) : (s.loseMem lo hi).port = s.port := rfl
@[simp] theorem State.loseMem_clk (lo hi : Nat) : (s.loseMem lo hi).clk = s.clk := rfl
@[simp] theorem State.loseMem_adm (lo hi : Nat) : (s.loseMem lo hi).adm = s.adm := rfl
@[simp] theorem State.loseMem_dom (lo hi : Nat) : (s.loseMem lo hi).dom = s.dom := rfl
@[simp] theorem State.loseMem_pwrCmd (lo hi : Nat) : (s.loseMem lo hi).pwrCmd = s.pwrCmd := rfl
@[simp] theorem State.loseMem_thermHall (lo hi : Nat) : (s.loseMem lo hi).thermHall = s.thermHall := rfl
@[simp] theorem State.loseMem_thermStack (lo hi : Nat) : (s.loseMem lo hi).thermStack = s.thermStack := rfl
@[simp] theorem State.loseMem_thermGood (lo hi : Nat) : (s.loseMem lo hi).thermGood = s.thermGood := rfl
@[simp] theorem State.loseMem_stop (lo hi : Nat) : (s.loseMem lo hi).stop = s.stop := rfl
@[simp] theorem State.loseMem_slots (lo hi : Nat) : (s.loseMem lo hi).slots = s.slots := rfl
@[simp] theorem State.loseMem_boot (lo hi : Nat) : (s.loseMem lo hi).boot = s.boot := rfl
@[simp] theorem State.loseMem_bist (lo hi : Nat) : (s.loseMem lo hi).bist = s.bist := rfl
@[simp] theorem State.loseMem_cal (lo hi : Nat) : (s.loseMem lo hi).cal = s.cal := rfl
@[simp] theorem State.loseMem_otp (lo hi : Nat) : (s.loseMem lo hi).otp = s.otp := rfl
@[simp] theorem State.loseMem_sec (lo hi : Nat) : (s.loseMem lo hi).sec = s.sec := rfl
@[simp] theorem State.loseMem_net (lo hi : Nat) : (s.loseMem lo hi).net = s.net := rfl
@[simp] theorem State.loseMem_reqs (lo hi : Nat) : (s.loseMem lo hi).reqs = s.reqs := rfl
@[simp] theorem State.loseMem_seqNext (lo hi : Nat) : (s.loseMem lo hi).seqNext = s.seqNext := rfl
@[simp] theorem State.loseMem_seqRec (lo hi : Nat) : (s.loseMem lo hi).seqRec = s.seqRec := rfl
@[simp] theorem State.loseMem_epochs (lo hi : Nat) : (s.loseMem lo hi).epochs = s.epochs := rfl
@[simp] theorem State.loseMem_istat (lo hi : Nat) : (s.loseMem lo hi).istat = s.istat := rfl
@[simp] theorem State.loseMem_gals (lo hi : Nat) : (s.loseMem lo hi).gals = s.gals := rfl
@[simp] theorem State.loseMem_halls (lo hi : Nat) : (s.loseMem lo hi).halls = s.halls := rfl
@[simp] theorem State.loseMem_corrs (lo hi : Nat) : (s.loseMem lo hi).corrs = s.corrs := rfl
@[simp] theorem State.loseMem_pending (lo hi : Nat) : (s.loseMem lo hi).pending = s.pending := rfl
@[simp] theorem State.zeroVault_part (lo hi : Nat) : (s.zeroVault lo hi).part = s.part := rfl
@[simp] theorem State.zeroVault_regs (lo hi : Nat) : (s.zeroVault lo hi).regs = s.regs := rfl
@[simp] theorem State.zeroVault_memEpoch (lo hi : Nat) : (s.zeroVault lo hi).memEpoch = s.memEpoch := rfl
@[simp] theorem State.zeroVault_free (lo hi : Nat) : (s.zeroVault lo hi).free = s.free := rfl
@[simp] theorem State.zeroVault_now (lo hi : Nat) : (s.zeroVault lo hi).now = s.now := rfl
@[simp] theorem State.zeroVault_ev (lo hi : Nat) : (s.zeroVault lo hi).ev = s.ev := rfl
@[simp] theorem State.zeroVault_port (lo hi : Nat) : (s.zeroVault lo hi).port = s.port := rfl
@[simp] theorem State.zeroVault_clk (lo hi : Nat) : (s.zeroVault lo hi).clk = s.clk := rfl
@[simp] theorem State.zeroVault_adm (lo hi : Nat) : (s.zeroVault lo hi).adm = s.adm := rfl
@[simp] theorem State.zeroVault_dom (lo hi : Nat) : (s.zeroVault lo hi).dom = s.dom := rfl
@[simp] theorem State.zeroVault_pwrCmd (lo hi : Nat) : (s.zeroVault lo hi).pwrCmd = s.pwrCmd := rfl
@[simp] theorem State.zeroVault_thermHall (lo hi : Nat) : (s.zeroVault lo hi).thermHall = s.thermHall := rfl
@[simp] theorem State.zeroVault_thermStack (lo hi : Nat) : (s.zeroVault lo hi).thermStack = s.thermStack := rfl
@[simp] theorem State.zeroVault_thermGood (lo hi : Nat) : (s.zeroVault lo hi).thermGood = s.thermGood := rfl
@[simp] theorem State.zeroVault_stop (lo hi : Nat) : (s.zeroVault lo hi).stop = s.stop := rfl
@[simp] theorem State.zeroVault_slots (lo hi : Nat) : (s.zeroVault lo hi).slots = s.slots := rfl
@[simp] theorem State.zeroVault_boot (lo hi : Nat) : (s.zeroVault lo hi).boot = s.boot := rfl
@[simp] theorem State.zeroVault_bist (lo hi : Nat) : (s.zeroVault lo hi).bist = s.bist := rfl
@[simp] theorem State.zeroVault_cal (lo hi : Nat) : (s.zeroVault lo hi).cal = s.cal := rfl
@[simp] theorem State.zeroVault_otp (lo hi : Nat) : (s.zeroVault lo hi).otp = s.otp := rfl
@[simp] theorem State.zeroVault_sec (lo hi : Nat) : (s.zeroVault lo hi).sec = s.sec := rfl
@[simp] theorem State.zeroVault_net (lo hi : Nat) : (s.zeroVault lo hi).net = s.net := rfl
@[simp] theorem State.zeroVault_reqs (lo hi : Nat) : (s.zeroVault lo hi).reqs = s.reqs := rfl
@[simp] theorem State.zeroVault_seqNext (lo hi : Nat) : (s.zeroVault lo hi).seqNext = s.seqNext := rfl
@[simp] theorem State.zeroVault_seqRec (lo hi : Nat) : (s.zeroVault lo hi).seqRec = s.seqRec := rfl
@[simp] theorem State.zeroVault_epochs (lo hi : Nat) : (s.zeroVault lo hi).epochs = s.epochs := rfl
@[simp] theorem State.zeroVault_istat (lo hi : Nat) : (s.zeroVault lo hi).istat = s.istat := rfl
@[simp] theorem State.zeroVault_gals (lo hi : Nat) : (s.zeroVault lo hi).gals = s.gals := rfl
@[simp] theorem State.zeroVault_halls (lo hi : Nat) : (s.zeroVault lo hi).halls = s.halls := rfl
@[simp] theorem State.zeroVault_corrs (lo hi : Nat) : (s.zeroVault lo hi).corrs = s.corrs := rfl
@[simp] theorem State.zeroVault_pending (lo hi : Nat) : (s.zeroVault lo hi).pending = s.pending := rfl
@[simp] theorem State.setGal_part (G : Nat) (g : Gal) : (s.setGal G g).part = s.part := rfl
@[simp] theorem State.setGal_regs (G : Nat) (g : Gal) : (s.setGal G g).regs = s.regs := rfl
@[simp] theorem State.setGal_mem (G : Nat) (g : Gal) : (s.setGal G g).mem = s.mem := rfl
@[simp] theorem State.setGal_memEpoch (G : Nat) (g : Gal) : (s.setGal G g).memEpoch = s.memEpoch := rfl
@[simp] theorem State.setGal_free (G : Nat) (g : Gal) : (s.setGal G g).free = s.free := rfl
@[simp] theorem State.setGal_now (G : Nat) (g : Gal) : (s.setGal G g).now = s.now := rfl
@[simp] theorem State.setGal_ev (G : Nat) (g : Gal) : (s.setGal G g).ev = s.ev := rfl
@[simp] theorem State.setGal_port (G : Nat) (g : Gal) : (s.setGal G g).port = s.port := rfl
@[simp] theorem State.setGal_clk (G : Nat) (g : Gal) : (s.setGal G g).clk = s.clk := rfl
@[simp] theorem State.setGal_adm (G : Nat) (g : Gal) : (s.setGal G g).adm = s.adm := rfl
@[simp] theorem State.setGal_dom (G : Nat) (g : Gal) : (s.setGal G g).dom = s.dom := rfl
@[simp] theorem State.setGal_pwrCmd (G : Nat) (g : Gal) : (s.setGal G g).pwrCmd = s.pwrCmd := rfl
@[simp] theorem State.setGal_thermHall (G : Nat) (g : Gal) : (s.setGal G g).thermHall = s.thermHall := rfl
@[simp] theorem State.setGal_thermStack (G : Nat) (g : Gal) : (s.setGal G g).thermStack = s.thermStack := rfl
@[simp] theorem State.setGal_thermGood (G : Nat) (g : Gal) : (s.setGal G g).thermGood = s.thermGood := rfl
@[simp] theorem State.setGal_stop (G : Nat) (g : Gal) : (s.setGal G g).stop = s.stop := rfl
@[simp] theorem State.setGal_slots (G : Nat) (g : Gal) : (s.setGal G g).slots = s.slots := rfl
@[simp] theorem State.setGal_boot (G : Nat) (g : Gal) : (s.setGal G g).boot = s.boot := rfl
@[simp] theorem State.setGal_bist (G : Nat) (g : Gal) : (s.setGal G g).bist = s.bist := rfl
@[simp] theorem State.setGal_cal (G : Nat) (g : Gal) : (s.setGal G g).cal = s.cal := rfl
@[simp] theorem State.setGal_otp (G : Nat) (g : Gal) : (s.setGal G g).otp = s.otp := rfl
@[simp] theorem State.setGal_sec (G : Nat) (g : Gal) : (s.setGal G g).sec = s.sec := rfl
@[simp] theorem State.setGal_net (G : Nat) (g : Gal) : (s.setGal G g).net = s.net := rfl
@[simp] theorem State.setGal_reqs (G : Nat) (g : Gal) : (s.setGal G g).reqs = s.reqs := rfl
@[simp] theorem State.setGal_seqNext (G : Nat) (g : Gal) : (s.setGal G g).seqNext = s.seqNext := rfl
@[simp] theorem State.setGal_seqRec (G : Nat) (g : Gal) : (s.setGal G g).seqRec = s.seqRec := rfl
@[simp] theorem State.setGal_epochs (G : Nat) (g : Gal) : (s.setGal G g).epochs = s.epochs := rfl
@[simp] theorem State.setGal_istat (G : Nat) (g : Gal) : (s.setGal G g).istat = s.istat := rfl
@[simp] theorem State.setGal_halls (G : Nat) (g : Gal) : (s.setGal G g).halls = s.halls := rfl
@[simp] theorem State.setGal_corrs (G : Nat) (g : Gal) : (s.setGal G g).corrs = s.corrs := rfl
@[simp] theorem State.setGal_pending (G : Nat) (g : Gal) : (s.setGal G g).pending = s.pending := rfl
@[simp] theorem State.modGal_part (G : Nat) (f : Gal → Gal) : (s.modGal G f).part = s.part := rfl
@[simp] theorem State.modGal_regs (G : Nat) (f : Gal → Gal) : (s.modGal G f).regs = s.regs := rfl
@[simp] theorem State.modGal_mem (G : Nat) (f : Gal → Gal) : (s.modGal G f).mem = s.mem := rfl
@[simp] theorem State.modGal_memEpoch (G : Nat) (f : Gal → Gal) : (s.modGal G f).memEpoch = s.memEpoch := rfl
@[simp] theorem State.modGal_free (G : Nat) (f : Gal → Gal) : (s.modGal G f).free = s.free := rfl
@[simp] theorem State.modGal_now (G : Nat) (f : Gal → Gal) : (s.modGal G f).now = s.now := rfl
@[simp] theorem State.modGal_ev (G : Nat) (f : Gal → Gal) : (s.modGal G f).ev = s.ev := rfl
@[simp] theorem State.modGal_port (G : Nat) (f : Gal → Gal) : (s.modGal G f).port = s.port := rfl
@[simp] theorem State.modGal_clk (G : Nat) (f : Gal → Gal) : (s.modGal G f).clk = s.clk := rfl
@[simp] theorem State.modGal_adm (G : Nat) (f : Gal → Gal) : (s.modGal G f).adm = s.adm := rfl
@[simp] theorem State.modGal_dom (G : Nat) (f : Gal → Gal) : (s.modGal G f).dom = s.dom := rfl
@[simp] theorem State.modGal_pwrCmd (G : Nat) (f : Gal → Gal) : (s.modGal G f).pwrCmd = s.pwrCmd := rfl
@[simp] theorem State.modGal_thermHall (G : Nat) (f : Gal → Gal) : (s.modGal G f).thermHall = s.thermHall := rfl
@[simp] theorem State.modGal_thermStack (G : Nat) (f : Gal → Gal) : (s.modGal G f).thermStack = s.thermStack := rfl
@[simp] theorem State.modGal_thermGood (G : Nat) (f : Gal → Gal) : (s.modGal G f).thermGood = s.thermGood := rfl
@[simp] theorem State.modGal_stop (G : Nat) (f : Gal → Gal) : (s.modGal G f).stop = s.stop := rfl
@[simp] theorem State.modGal_slots (G : Nat) (f : Gal → Gal) : (s.modGal G f).slots = s.slots := rfl
@[simp] theorem State.modGal_boot (G : Nat) (f : Gal → Gal) : (s.modGal G f).boot = s.boot := rfl
@[simp] theorem State.modGal_bist (G : Nat) (f : Gal → Gal) : (s.modGal G f).bist = s.bist := rfl
@[simp] theorem State.modGal_cal (G : Nat) (f : Gal → Gal) : (s.modGal G f).cal = s.cal := rfl
@[simp] theorem State.modGal_otp (G : Nat) (f : Gal → Gal) : (s.modGal G f).otp = s.otp := rfl
@[simp] theorem State.modGal_sec (G : Nat) (f : Gal → Gal) : (s.modGal G f).sec = s.sec := rfl
@[simp] theorem State.modGal_net (G : Nat) (f : Gal → Gal) : (s.modGal G f).net = s.net := rfl
@[simp] theorem State.modGal_reqs (G : Nat) (f : Gal → Gal) : (s.modGal G f).reqs = s.reqs := rfl
@[simp] theorem State.modGal_seqNext (G : Nat) (f : Gal → Gal) : (s.modGal G f).seqNext = s.seqNext := rfl
@[simp] theorem State.modGal_seqRec (G : Nat) (f : Gal → Gal) : (s.modGal G f).seqRec = s.seqRec := rfl
@[simp] theorem State.modGal_epochs (G : Nat) (f : Gal → Gal) : (s.modGal G f).epochs = s.epochs := rfl
@[simp] theorem State.modGal_istat (G : Nat) (f : Gal → Gal) : (s.modGal G f).istat = s.istat := rfl
@[simp] theorem State.modGal_halls (G : Nat) (f : Gal → Gal) : (s.modGal G f).halls = s.halls := rfl
@[simp] theorem State.modGal_corrs (G : Nat) (f : Gal → Gal) : (s.modGal G f).corrs = s.corrs := rfl
@[simp] theorem State.modGal_pending (G : Nat) (f : Gal → Gal) : (s.modGal G f).pending = s.pending := rfl
@[simp] theorem State.modHall_part (h : Nat) (f : Hall → Hall) : (s.modHall h f).part = s.part := rfl
@[simp] theorem State.modHall_regs (h : Nat) (f : Hall → Hall) : (s.modHall h f).regs = s.regs := rfl
@[simp] theorem State.modHall_mem (h : Nat) (f : Hall → Hall) : (s.modHall h f).mem = s.mem := rfl
@[simp] theorem State.modHall_memEpoch (h : Nat) (f : Hall → Hall) : (s.modHall h f).memEpoch = s.memEpoch := rfl
@[simp] theorem State.modHall_free (h : Nat) (f : Hall → Hall) : (s.modHall h f).free = s.free := rfl
@[simp] theorem State.modHall_now (h : Nat) (f : Hall → Hall) : (s.modHall h f).now = s.now := rfl
@[simp] theorem State.modHall_ev (h : Nat) (f : Hall → Hall) : (s.modHall h f).ev = s.ev := rfl
@[simp] theorem State.modHall_port (h : Nat) (f : Hall → Hall) : (s.modHall h f).port = s.port := rfl
@[simp] theorem State.modHall_clk (h : Nat) (f : Hall → Hall) : (s.modHall h f).clk = s.clk := rfl
@[simp] theorem State.modHall_adm (h : Nat) (f : Hall → Hall) : (s.modHall h f).adm = s.adm := rfl
@[simp] theorem State.modHall_dom (h : Nat) (f : Hall → Hall) : (s.modHall h f).dom = s.dom := rfl
@[simp] theorem State.modHall_pwrCmd (h : Nat) (f : Hall → Hall) : (s.modHall h f).pwrCmd = s.pwrCmd := rfl
@[simp] theorem State.modHall_thermHall (h : Nat) (f : Hall → Hall) : (s.modHall h f).thermHall = s.thermHall := rfl
@[simp] theorem State.modHall_thermStack (h : Nat) (f : Hall → Hall) : (s.modHall h f).thermStack = s.thermStack := rfl
@[simp] theorem State.modHall_thermGood (h : Nat) (f : Hall → Hall) : (s.modHall h f).thermGood = s.thermGood := rfl
@[simp] theorem State.modHall_stop (h : Nat) (f : Hall → Hall) : (s.modHall h f).stop = s.stop := rfl
@[simp] theorem State.modHall_slots (h : Nat) (f : Hall → Hall) : (s.modHall h f).slots = s.slots := rfl
@[simp] theorem State.modHall_boot (h : Nat) (f : Hall → Hall) : (s.modHall h f).boot = s.boot := rfl
@[simp] theorem State.modHall_bist (h : Nat) (f : Hall → Hall) : (s.modHall h f).bist = s.bist := rfl
@[simp] theorem State.modHall_cal (h : Nat) (f : Hall → Hall) : (s.modHall h f).cal = s.cal := rfl
@[simp] theorem State.modHall_otp (h : Nat) (f : Hall → Hall) : (s.modHall h f).otp = s.otp := rfl
@[simp] theorem State.modHall_sec (h : Nat) (f : Hall → Hall) : (s.modHall h f).sec = s.sec := rfl
@[simp] theorem State.modHall_net (h : Nat) (f : Hall → Hall) : (s.modHall h f).net = s.net := rfl
@[simp] theorem State.modHall_reqs (h : Nat) (f : Hall → Hall) : (s.modHall h f).reqs = s.reqs := rfl
@[simp] theorem State.modHall_seqNext (h : Nat) (f : Hall → Hall) : (s.modHall h f).seqNext = s.seqNext := rfl
@[simp] theorem State.modHall_seqRec (h : Nat) (f : Hall → Hall) : (s.modHall h f).seqRec = s.seqRec := rfl
@[simp] theorem State.modHall_epochs (h : Nat) (f : Hall → Hall) : (s.modHall h f).epochs = s.epochs := rfl
@[simp] theorem State.modHall_istat (h : Nat) (f : Hall → Hall) : (s.modHall h f).istat = s.istat := rfl
@[simp] theorem State.modHall_gals (h : Nat) (f : Hall → Hall) : (s.modHall h f).gals = s.gals := rfl
@[simp] theorem State.modHall_corrs (h : Nat) (f : Hall → Hall) : (s.modHall h f).corrs = s.corrs := rfl
@[simp] theorem State.modHall_pending (h : Nat) (f : Hall → Hall) : (s.modHall h f).pending = s.pending := rfl
@[simp] theorem State.setDom_part (h d st : Nat) : (s.setDom h d st).part = s.part := rfl
@[simp] theorem State.setDom_mem (h d st : Nat) : (s.setDom h d st).mem = s.mem := rfl
@[simp] theorem State.setDom_memEpoch (h d st : Nat) : (s.setDom h d st).memEpoch = s.memEpoch := rfl
@[simp] theorem State.setDom_free (h d st : Nat) : (s.setDom h d st).free = s.free := rfl
@[simp] theorem State.setDom_now (h d st : Nat) : (s.setDom h d st).now = s.now := rfl
@[simp] theorem State.setDom_ev (h d st : Nat) : (s.setDom h d st).ev = s.ev := rfl
@[simp] theorem State.setDom_port (h d st : Nat) : (s.setDom h d st).port = s.port := rfl
@[simp] theorem State.setDom_clk (h d st : Nat) : (s.setDom h d st).clk = s.clk := rfl
@[simp] theorem State.setDom_adm (h d st : Nat) : (s.setDom h d st).adm = s.adm := rfl
@[simp] theorem State.setDom_dom (h d st : Nat) : (s.setDom h d st).dom = s.dom := rfl
@[simp] theorem State.setDom_pwrCmd (h d st : Nat) : (s.setDom h d st).pwrCmd = s.pwrCmd := rfl
@[simp] theorem State.setDom_thermHall (h d st : Nat) : (s.setDom h d st).thermHall = s.thermHall := rfl
@[simp] theorem State.setDom_thermStack (h d st : Nat) : (s.setDom h d st).thermStack = s.thermStack := rfl
@[simp] theorem State.setDom_thermGood (h d st : Nat) : (s.setDom h d st).thermGood = s.thermGood := rfl
@[simp] theorem State.setDom_stop (h d st : Nat) : (s.setDom h d st).stop = s.stop := rfl
@[simp] theorem State.setDom_slots (h d st : Nat) : (s.setDom h d st).slots = s.slots := rfl
@[simp] theorem State.setDom_boot (h d st : Nat) : (s.setDom h d st).boot = s.boot := rfl
@[simp] theorem State.setDom_bist (h d st : Nat) : (s.setDom h d st).bist = s.bist := rfl
@[simp] theorem State.setDom_cal (h d st : Nat) : (s.setDom h d st).cal = s.cal := rfl
@[simp] theorem State.setDom_otp (h d st : Nat) : (s.setDom h d st).otp = s.otp := rfl
@[simp] theorem State.setDom_sec (h d st : Nat) : (s.setDom h d st).sec = s.sec := rfl
@[simp] theorem State.setDom_net (h d st : Nat) : (s.setDom h d st).net = s.net := rfl
@[simp] theorem State.setDom_reqs (h d st : Nat) : (s.setDom h d st).reqs = s.reqs := rfl
@[simp] theorem State.setDom_seqNext (h d st : Nat) : (s.setDom h d st).seqNext = s.seqNext := rfl
@[simp] theorem State.setDom_seqRec (h d st : Nat) : (s.setDom h d st).seqRec = s.seqRec := rfl
@[simp] theorem State.setDom_epochs (h d st : Nat) : (s.setDom h d st).epochs = s.epochs := rfl
@[simp] theorem State.setDom_istat (h d st : Nat) : (s.setDom h d st).istat = s.istat := rfl
@[simp] theorem State.setDom_gals (h d st : Nat) : (s.setDom h d st).gals = s.gals := rfl
@[simp] theorem State.setDom_halls (h d st : Nat) : (s.setDom h d st).halls = s.halls := rfl
@[simp] theorem State.setDom_corrs (h d st : Nat) : (s.setDom h d st).corrs = s.corrs := rfl
@[simp] theorem State.setDom_pending (h d st : Nat) : (s.setDom h d st).pending = s.pending := rfl
@[simp] theorem State.setChange_part (h d : Nat) (c : DomChange) : (s.setChange h d c).part = s.part := rfl
@[simp] theorem State.setChange_regs (h d : Nat) (c : DomChange) : (s.setChange h d c).regs = s.regs := rfl
@[simp] theorem State.setChange_mem (h d : Nat) (c : DomChange) : (s.setChange h d c).mem = s.mem := rfl
@[simp] theorem State.setChange_memEpoch (h d : Nat) (c : DomChange) : (s.setChange h d c).memEpoch = s.memEpoch := rfl
@[simp] theorem State.setChange_free (h d : Nat) (c : DomChange) : (s.setChange h d c).free = s.free := rfl
@[simp] theorem State.setChange_now (h d : Nat) (c : DomChange) : (s.setChange h d c).now = s.now := rfl
@[simp] theorem State.setChange_ev (h d : Nat) (c : DomChange) : (s.setChange h d c).ev = s.ev := rfl
@[simp] theorem State.setChange_port (h d : Nat) (c : DomChange) : (s.setChange h d c).port = s.port := rfl
@[simp] theorem State.setChange_clk (h d : Nat) (c : DomChange) : (s.setChange h d c).clk = s.clk := rfl
@[simp] theorem State.setChange_adm (h d : Nat) (c : DomChange) : (s.setChange h d c).adm = s.adm := rfl
@[simp] theorem State.setChange_pwrCmd (h d : Nat) (c : DomChange) : (s.setChange h d c).pwrCmd = s.pwrCmd := rfl
@[simp] theorem State.setChange_thermHall (h d : Nat) (c : DomChange) : (s.setChange h d c).thermHall = s.thermHall := rfl
@[simp] theorem State.setChange_thermStack (h d : Nat) (c : DomChange) : (s.setChange h d c).thermStack = s.thermStack := rfl
@[simp] theorem State.setChange_thermGood (h d : Nat) (c : DomChange) : (s.setChange h d c).thermGood = s.thermGood := rfl
@[simp] theorem State.setChange_stop (h d : Nat) (c : DomChange) : (s.setChange h d c).stop = s.stop := rfl
@[simp] theorem State.setChange_slots (h d : Nat) (c : DomChange) : (s.setChange h d c).slots = s.slots := rfl
@[simp] theorem State.setChange_boot (h d : Nat) (c : DomChange) : (s.setChange h d c).boot = s.boot := rfl
@[simp] theorem State.setChange_bist (h d : Nat) (c : DomChange) : (s.setChange h d c).bist = s.bist := rfl
@[simp] theorem State.setChange_cal (h d : Nat) (c : DomChange) : (s.setChange h d c).cal = s.cal := rfl
@[simp] theorem State.setChange_otp (h d : Nat) (c : DomChange) : (s.setChange h d c).otp = s.otp := rfl
@[simp] theorem State.setChange_sec (h d : Nat) (c : DomChange) : (s.setChange h d c).sec = s.sec := rfl
@[simp] theorem State.setChange_net (h d : Nat) (c : DomChange) : (s.setChange h d c).net = s.net := rfl
@[simp] theorem State.setChange_reqs (h d : Nat) (c : DomChange) : (s.setChange h d c).reqs = s.reqs := rfl
@[simp] theorem State.setChange_seqNext (h d : Nat) (c : DomChange) : (s.setChange h d c).seqNext = s.seqNext := rfl
@[simp] theorem State.setChange_seqRec (h d : Nat) (c : DomChange) : (s.setChange h d c).seqRec = s.seqRec := rfl
@[simp] theorem State.setChange_epochs (h d : Nat) (c : DomChange) : (s.setChange h d c).epochs = s.epochs := rfl
@[simp] theorem State.setChange_istat (h d : Nat) (c : DomChange) : (s.setChange h d c).istat = s.istat := rfl
@[simp] theorem State.setChange_gals (h d : Nat) (c : DomChange) : (s.setChange h d c).gals = s.gals := rfl
@[simp] theorem State.setChange_halls (h d : Nat) (c : DomChange) : (s.setChange h d c).halls = s.halls := rfl
@[simp] theorem State.setChange_corrs (h d : Nat) (c : DomChange) : (s.setChange h d c).corrs = s.corrs := rfl
@[simp] theorem State.setChange_pending (h d : Nat) (c : DomChange) : (s.setChange h d c).pending = s.pending := rfl
@[simp] theorem State.endChange_part (h d : Nat) : (s.endChange h d).part = s.part := rfl
@[simp] theorem State.endChange_regs (h d : Nat) : (s.endChange h d).regs = s.regs := rfl
@[simp] theorem State.endChange_mem (h d : Nat) : (s.endChange h d).mem = s.mem := rfl
@[simp] theorem State.endChange_memEpoch (h d : Nat) : (s.endChange h d).memEpoch = s.memEpoch := rfl
@[simp] theorem State.endChange_free (h d : Nat) : (s.endChange h d).free = s.free := rfl
@[simp] theorem State.endChange_now (h d : Nat) : (s.endChange h d).now = s.now := rfl
@[simp] theorem State.endChange_ev (h d : Nat) : (s.endChange h d).ev = s.ev := rfl
@[simp] theorem State.endChange_port (h d : Nat) : (s.endChange h d).port = s.port := rfl
@[simp] theorem State.endChange_clk (h d : Nat) : (s.endChange h d).clk = s.clk := rfl
@[simp] theorem State.endChange_adm (h d : Nat) : (s.endChange h d).adm = s.adm := rfl
@[simp] theorem State.endChange_pwrCmd (h d : Nat) : (s.endChange h d).pwrCmd = s.pwrCmd := rfl
@[simp] theorem State.endChange_thermHall (h d : Nat) : (s.endChange h d).thermHall = s.thermHall := rfl
@[simp] theorem State.endChange_thermStack (h d : Nat) : (s.endChange h d).thermStack = s.thermStack := rfl
@[simp] theorem State.endChange_thermGood (h d : Nat) : (s.endChange h d).thermGood = s.thermGood := rfl
@[simp] theorem State.endChange_stop (h d : Nat) : (s.endChange h d).stop = s.stop := rfl
@[simp] theorem State.endChange_slots (h d : Nat) : (s.endChange h d).slots = s.slots := rfl
@[simp] theorem State.endChange_boot (h d : Nat) : (s.endChange h d).boot = s.boot := rfl
@[simp] theorem State.endChange_bist (h d : Nat) : (s.endChange h d).bist = s.bist := rfl
@[simp] theorem State.endChange_cal (h d : Nat) : (s.endChange h d).cal = s.cal := rfl
@[simp] theorem State.endChange_otp (h d : Nat) : (s.endChange h d).otp = s.otp := rfl
@[simp] theorem State.endChange_sec (h d : Nat) : (s.endChange h d).sec = s.sec := rfl
@[simp] theorem State.endChange_net (h d : Nat) : (s.endChange h d).net = s.net := rfl
@[simp] theorem State.endChange_reqs (h d : Nat) : (s.endChange h d).reqs = s.reqs := rfl
@[simp] theorem State.endChange_seqNext (h d : Nat) : (s.endChange h d).seqNext = s.seqNext := rfl
@[simp] theorem State.endChange_seqRec (h d : Nat) : (s.endChange h d).seqRec = s.seqRec := rfl
@[simp] theorem State.endChange_epochs (h d : Nat) : (s.endChange h d).epochs = s.epochs := rfl
@[simp] theorem State.endChange_istat (h d : Nat) : (s.endChange h d).istat = s.istat := rfl
@[simp] theorem State.endChange_gals (h d : Nat) : (s.endChange h d).gals = s.gals := rfl
@[simp] theorem State.endChange_halls (h d : Nat) : (s.endChange h d).halls = s.halls := rfl
@[simp] theorem State.endChange_corrs (h d : Nat) : (s.endChange h d).corrs = s.corrs := rfl
@[simp] theorem State.endChange_pending (h d : Nat) : (s.endChange h d).pending = s.pending := rfl
@[simp] theorem State.startReading_part (h : Nat) : (s.startReading h).part = s.part := rfl
@[simp] theorem State.startReading_mem (h : Nat) : (s.startReading h).mem = s.mem := rfl
@[simp] theorem State.startReading_memEpoch (h : Nat) : (s.startReading h).memEpoch = s.memEpoch := rfl
@[simp] theorem State.startReading_free (h : Nat) : (s.startReading h).free = s.free := rfl
@[simp] theorem State.startReading_now (h : Nat) : (s.startReading h).now = s.now := rfl
@[simp] theorem State.startReading_ev (h : Nat) : (s.startReading h).ev = s.ev := rfl
@[simp] theorem State.startReading_port (h : Nat) : (s.startReading h).port = s.port := rfl
@[simp] theorem State.startReading_clk (h : Nat) : (s.startReading h).clk = s.clk := rfl
@[simp] theorem State.startReading_adm (h : Nat) : (s.startReading h).adm = s.adm := rfl
@[simp] theorem State.startReading_dom (h : Nat) : (s.startReading h).dom = s.dom := rfl
@[simp] theorem State.startReading_pwrCmd (h : Nat) : (s.startReading h).pwrCmd = s.pwrCmd := rfl
@[simp] theorem State.startReading_thermHall (h : Nat) : (s.startReading h).thermHall = s.thermHall := rfl
@[simp] theorem State.startReading_thermStack (h : Nat) : (s.startReading h).thermStack = s.thermStack := rfl
@[simp] theorem State.startReading_thermGood (h : Nat) : (s.startReading h).thermGood = s.thermGood := rfl
@[simp] theorem State.startReading_stop (h : Nat) : (s.startReading h).stop = s.stop := rfl
@[simp] theorem State.startReading_slots (h : Nat) : (s.startReading h).slots = s.slots := rfl
@[simp] theorem State.startReading_boot (h : Nat) : (s.startReading h).boot = s.boot := rfl
@[simp] theorem State.startReading_bist (h : Nat) : (s.startReading h).bist = s.bist := rfl
@[simp] theorem State.startReading_cal (h : Nat) : (s.startReading h).cal = s.cal := rfl
@[simp] theorem State.startReading_otp (h : Nat) : (s.startReading h).otp = s.otp := rfl
@[simp] theorem State.startReading_sec (h : Nat) : (s.startReading h).sec = s.sec := rfl
@[simp] theorem State.startReading_net (h : Nat) : (s.startReading h).net = s.net := rfl
@[simp] theorem State.startReading_reqs (h : Nat) : (s.startReading h).reqs = s.reqs := rfl
@[simp] theorem State.startReading_seqNext (h : Nat) : (s.startReading h).seqNext = s.seqNext := rfl
@[simp] theorem State.startReading_seqRec (h : Nat) : (s.startReading h).seqRec = s.seqRec := rfl
@[simp] theorem State.startReading_epochs (h : Nat) : (s.startReading h).epochs = s.epochs := rfl
@[simp] theorem State.startReading_istat (h : Nat) : (s.startReading h).istat = s.istat := rfl
@[simp] theorem State.startReading_gals (h : Nat) : (s.startReading h).gals = s.gals := rfl
@[simp] theorem State.startReading_halls (h : Nat) : (s.startReading h).halls = s.halls := rfl
@[simp] theorem State.startReading_corrs (h : Nat) : (s.startReading h).corrs = s.corrs := rfl
@[simp] theorem State.startReading_pending (h : Nat) : (s.startReading h).pending = s.pending := rfl
@[simp] theorem State.admRelease_part (kind : Nat) (who : AdmFor) : (s.admRelease kind who).part = s.part := rfl
@[simp] theorem State.admRelease_regs (kind : Nat) (who : AdmFor) : (s.admRelease kind who).regs = s.regs := rfl
@[simp] theorem State.admRelease_mem (kind : Nat) (who : AdmFor) : (s.admRelease kind who).mem = s.mem := rfl
@[simp] theorem State.admRelease_memEpoch (kind : Nat) (who : AdmFor) : (s.admRelease kind who).memEpoch = s.memEpoch := rfl
@[simp] theorem State.admRelease_free (kind : Nat) (who : AdmFor) : (s.admRelease kind who).free = s.free := rfl
@[simp] theorem State.admRelease_now (kind : Nat) (who : AdmFor) : (s.admRelease kind who).now = s.now := rfl
@[simp] theorem State.admRelease_ev (kind : Nat) (who : AdmFor) : (s.admRelease kind who).ev = s.ev := rfl
@[simp] theorem State.admRelease_port (kind : Nat) (who : AdmFor) : (s.admRelease kind who).port = s.port := rfl
@[simp] theorem State.admRelease_clk (kind : Nat) (who : AdmFor) : (s.admRelease kind who).clk = s.clk := rfl
@[simp] theorem State.admRelease_dom (kind : Nat) (who : AdmFor) : (s.admRelease kind who).dom = s.dom := rfl
@[simp] theorem State.admRelease_pwrCmd (kind : Nat) (who : AdmFor) : (s.admRelease kind who).pwrCmd = s.pwrCmd := rfl
@[simp] theorem State.admRelease_thermHall (kind : Nat) (who : AdmFor) : (s.admRelease kind who).thermHall = s.thermHall := rfl
@[simp] theorem State.admRelease_thermStack (kind : Nat) (who : AdmFor) : (s.admRelease kind who).thermStack = s.thermStack := rfl
@[simp] theorem State.admRelease_thermGood (kind : Nat) (who : AdmFor) : (s.admRelease kind who).thermGood = s.thermGood := rfl
@[simp] theorem State.admRelease_stop (kind : Nat) (who : AdmFor) : (s.admRelease kind who).stop = s.stop := rfl
@[simp] theorem State.admRelease_slots (kind : Nat) (who : AdmFor) : (s.admRelease kind who).slots = s.slots := rfl
@[simp] theorem State.admRelease_boot (kind : Nat) (who : AdmFor) : (s.admRelease kind who).boot = s.boot := rfl
@[simp] theorem State.admRelease_bist (kind : Nat) (who : AdmFor) : (s.admRelease kind who).bist = s.bist := rfl
@[simp] theorem State.admRelease_cal (kind : Nat) (who : AdmFor) : (s.admRelease kind who).cal = s.cal := rfl
@[simp] theorem State.admRelease_otp (kind : Nat) (who : AdmFor) : (s.admRelease kind who).otp = s.otp := rfl
@[simp] theorem State.admRelease_sec (kind : Nat) (who : AdmFor) : (s.admRelease kind who).sec = s.sec := rfl
@[simp] theorem State.admRelease_net (kind : Nat) (who : AdmFor) : (s.admRelease kind who).net = s.net := rfl
@[simp] theorem State.admRelease_reqs (kind : Nat) (who : AdmFor) : (s.admRelease kind who).reqs = s.reqs := rfl
@[simp] theorem State.admRelease_seqNext (kind : Nat) (who : AdmFor) : (s.admRelease kind who).seqNext = s.seqNext := rfl
@[simp] theorem State.admRelease_seqRec (kind : Nat) (who : AdmFor) : (s.admRelease kind who).seqRec = s.seqRec := rfl
@[simp] theorem State.admRelease_epochs (kind : Nat) (who : AdmFor) : (s.admRelease kind who).epochs = s.epochs := rfl
@[simp] theorem State.admRelease_istat (kind : Nat) (who : AdmFor) : (s.admRelease kind who).istat = s.istat := rfl
@[simp] theorem State.admRelease_gals (kind : Nat) (who : AdmFor) : (s.admRelease kind who).gals = s.gals := rfl
@[simp] theorem State.admRelease_halls (kind : Nat) (who : AdmFor) : (s.admRelease kind who).halls = s.halls := rfl
@[simp] theorem State.admRelease_corrs (kind : Nat) (who : AdmFor) : (s.admRelease kind who).corrs = s.corrs := rfl
@[simp] theorem State.admRelease_pending (kind : Nat) (who : AdmFor) : (s.admRelease kind who).pending = s.pending := rfl
@[simp] theorem State.admWithdraw_part (who : AdmFor) : (s.admWithdraw who).part = s.part := rfl
@[simp] theorem State.admWithdraw_regs (who : AdmFor) : (s.admWithdraw who).regs = s.regs := rfl
@[simp] theorem State.admWithdraw_mem (who : AdmFor) : (s.admWithdraw who).mem = s.mem := rfl
@[simp] theorem State.admWithdraw_memEpoch (who : AdmFor) : (s.admWithdraw who).memEpoch = s.memEpoch := rfl
@[simp] theorem State.admWithdraw_free (who : AdmFor) : (s.admWithdraw who).free = s.free := rfl
@[simp] theorem State.admWithdraw_now (who : AdmFor) : (s.admWithdraw who).now = s.now := rfl
@[simp] theorem State.admWithdraw_ev (who : AdmFor) : (s.admWithdraw who).ev = s.ev := rfl
@[simp] theorem State.admWithdraw_port (who : AdmFor) : (s.admWithdraw who).port = s.port := rfl
@[simp] theorem State.admWithdraw_clk (who : AdmFor) : (s.admWithdraw who).clk = s.clk := rfl
@[simp] theorem State.admWithdraw_dom (who : AdmFor) : (s.admWithdraw who).dom = s.dom := rfl
@[simp] theorem State.admWithdraw_pwrCmd (who : AdmFor) : (s.admWithdraw who).pwrCmd = s.pwrCmd := rfl
@[simp] theorem State.admWithdraw_thermHall (who : AdmFor) : (s.admWithdraw who).thermHall = s.thermHall := rfl
@[simp] theorem State.admWithdraw_thermStack (who : AdmFor) : (s.admWithdraw who).thermStack = s.thermStack := rfl
@[simp] theorem State.admWithdraw_thermGood (who : AdmFor) : (s.admWithdraw who).thermGood = s.thermGood := rfl
@[simp] theorem State.admWithdraw_stop (who : AdmFor) : (s.admWithdraw who).stop = s.stop := rfl
@[simp] theorem State.admWithdraw_slots (who : AdmFor) : (s.admWithdraw who).slots = s.slots := rfl
@[simp] theorem State.admWithdraw_boot (who : AdmFor) : (s.admWithdraw who).boot = s.boot := rfl
@[simp] theorem State.admWithdraw_bist (who : AdmFor) : (s.admWithdraw who).bist = s.bist := rfl
@[simp] theorem State.admWithdraw_cal (who : AdmFor) : (s.admWithdraw who).cal = s.cal := rfl
@[simp] theorem State.admWithdraw_otp (who : AdmFor) : (s.admWithdraw who).otp = s.otp := rfl
@[simp] theorem State.admWithdraw_sec (who : AdmFor) : (s.admWithdraw who).sec = s.sec := rfl
@[simp] theorem State.admWithdraw_net (who : AdmFor) : (s.admWithdraw who).net = s.net := rfl
@[simp] theorem State.admWithdraw_reqs (who : AdmFor) : (s.admWithdraw who).reqs = s.reqs := rfl
@[simp] theorem State.admWithdraw_seqNext (who : AdmFor) : (s.admWithdraw who).seqNext = s.seqNext := rfl
@[simp] theorem State.admWithdraw_seqRec (who : AdmFor) : (s.admWithdraw who).seqRec = s.seqRec := rfl
@[simp] theorem State.admWithdraw_epochs (who : AdmFor) : (s.admWithdraw who).epochs = s.epochs := rfl
@[simp] theorem State.admWithdraw_istat (who : AdmFor) : (s.admWithdraw who).istat = s.istat := rfl
@[simp] theorem State.admWithdraw_gals (who : AdmFor) : (s.admWithdraw who).gals = s.gals := rfl
@[simp] theorem State.admWithdraw_halls (who : AdmFor) : (s.admWithdraw who).halls = s.halls := rfl
@[simp] theorem State.admWithdraw_corrs (who : AdmFor) : (s.admWithdraw who).corrs = s.corrs := rfl
@[simp] theorem State.admWithdraw_pending (who : AdmFor) : (s.admWithdraw who).pending = s.pending := rfl
@[simp] theorem State.send_part (p : Packet) : (s.send p).part = s.part := rfl
@[simp] theorem State.send_regs (p : Packet) : (s.send p).regs = s.regs := rfl
@[simp] theorem State.send_mem (p : Packet) : (s.send p).mem = s.mem := rfl
@[simp] theorem State.send_memEpoch (p : Packet) : (s.send p).memEpoch = s.memEpoch := rfl
@[simp] theorem State.send_free (p : Packet) : (s.send p).free = s.free := rfl
@[simp] theorem State.send_now (p : Packet) : (s.send p).now = s.now := rfl
@[simp] theorem State.send_ev (p : Packet) : (s.send p).ev = s.ev := rfl
@[simp] theorem State.send_port (p : Packet) : (s.send p).port = s.port := rfl
@[simp] theorem State.send_clk (p : Packet) : (s.send p).clk = s.clk := rfl
@[simp] theorem State.send_adm (p : Packet) : (s.send p).adm = s.adm := rfl
@[simp] theorem State.send_dom (p : Packet) : (s.send p).dom = s.dom := rfl
@[simp] theorem State.send_pwrCmd (p : Packet) : (s.send p).pwrCmd = s.pwrCmd := rfl
@[simp] theorem State.send_thermHall (p : Packet) : (s.send p).thermHall = s.thermHall := rfl
@[simp] theorem State.send_thermStack (p : Packet) : (s.send p).thermStack = s.thermStack := rfl
@[simp] theorem State.send_thermGood (p : Packet) : (s.send p).thermGood = s.thermGood := rfl
@[simp] theorem State.send_stop (p : Packet) : (s.send p).stop = s.stop := rfl
@[simp] theorem State.send_slots (p : Packet) : (s.send p).slots = s.slots := rfl
@[simp] theorem State.send_boot (p : Packet) : (s.send p).boot = s.boot := rfl
@[simp] theorem State.send_bist (p : Packet) : (s.send p).bist = s.bist := rfl
@[simp] theorem State.send_cal (p : Packet) : (s.send p).cal = s.cal := rfl
@[simp] theorem State.send_otp (p : Packet) : (s.send p).otp = s.otp := rfl
@[simp] theorem State.send_sec (p : Packet) : (s.send p).sec = s.sec := rfl
@[simp] theorem State.send_seqRec (p : Packet) : (s.send p).seqRec = s.seqRec := rfl
@[simp] theorem State.send_epochs (p : Packet) : (s.send p).epochs = s.epochs := rfl
@[simp] theorem State.send_istat (p : Packet) : (s.send p).istat = s.istat := rfl
@[simp] theorem State.send_gals (p : Packet) : (s.send p).gals = s.gals := rfl
@[simp] theorem State.send_halls (p : Packet) : (s.send p).halls = s.halls := rfl
@[simp] theorem State.send_corrs (p : Packet) : (s.send p).corrs = s.corrs := rfl
@[simp] theorem State.send_pending (p : Packet) : (s.send p).pending = s.pending := rfl
@[simp] theorem State.respond_part (p : Packet) (st : OSt) (data : List (BitVec 512)) : (s.respond p st data).part = s.part := rfl
@[simp] theorem State.respond_regs (p : Packet) (st : OSt) (data : List (BitVec 512)) : (s.respond p st data).regs = s.regs := rfl
@[simp] theorem State.respond_mem (p : Packet) (st : OSt) (data : List (BitVec 512)) : (s.respond p st data).mem = s.mem := rfl
@[simp] theorem State.respond_memEpoch (p : Packet) (st : OSt) (data : List (BitVec 512)) : (s.respond p st data).memEpoch = s.memEpoch := rfl
@[simp] theorem State.respond_free (p : Packet) (st : OSt) (data : List (BitVec 512)) : (s.respond p st data).free = s.free := rfl
@[simp] theorem State.respond_now (p : Packet) (st : OSt) (data : List (BitVec 512)) : (s.respond p st data).now = s.now := rfl
@[simp] theorem State.respond_ev (p : Packet) (st : OSt) (data : List (BitVec 512)) : (s.respond p st data).ev = s.ev := rfl
@[simp] theorem State.respond_port (p : Packet) (st : OSt) (data : List (BitVec 512)) : (s.respond p st data).port = s.port := rfl
@[simp] theorem State.respond_clk (p : Packet) (st : OSt) (data : List (BitVec 512)) : (s.respond p st data).clk = s.clk := rfl
@[simp] theorem State.respond_adm (p : Packet) (st : OSt) (data : List (BitVec 512)) : (s.respond p st data).adm = s.adm := rfl
@[simp] theorem State.respond_dom (p : Packet) (st : OSt) (data : List (BitVec 512)) : (s.respond p st data).dom = s.dom := rfl
@[simp] theorem State.respond_pwrCmd (p : Packet) (st : OSt) (data : List (BitVec 512)) : (s.respond p st data).pwrCmd = s.pwrCmd := rfl
@[simp] theorem State.respond_thermHall (p : Packet) (st : OSt) (data : List (BitVec 512)) : (s.respond p st data).thermHall = s.thermHall := rfl
@[simp] theorem State.respond_thermStack (p : Packet) (st : OSt) (data : List (BitVec 512)) : (s.respond p st data).thermStack = s.thermStack := rfl
@[simp] theorem State.respond_thermGood (p : Packet) (st : OSt) (data : List (BitVec 512)) : (s.respond p st data).thermGood = s.thermGood := rfl
@[simp] theorem State.respond_stop (p : Packet) (st : OSt) (data : List (BitVec 512)) : (s.respond p st data).stop = s.stop := rfl
@[simp] theorem State.respond_slots (p : Packet) (st : OSt) (data : List (BitVec 512)) : (s.respond p st data).slots = s.slots := rfl
@[simp] theorem State.respond_boot (p : Packet) (st : OSt) (data : List (BitVec 512)) : (s.respond p st data).boot = s.boot := rfl
@[simp] theorem State.respond_bist (p : Packet) (st : OSt) (data : List (BitVec 512)) : (s.respond p st data).bist = s.bist := rfl
@[simp] theorem State.respond_cal (p : Packet) (st : OSt) (data : List (BitVec 512)) : (s.respond p st data).cal = s.cal := rfl
@[simp] theorem State.respond_otp (p : Packet) (st : OSt) (data : List (BitVec 512)) : (s.respond p st data).otp = s.otp := rfl
@[simp] theorem State.respond_sec (p : Packet) (st : OSt) (data : List (BitVec 512)) : (s.respond p st data).sec = s.sec := rfl
@[simp] theorem State.respond_seqRec (p : Packet) (st : OSt) (data : List (BitVec 512)) : (s.respond p st data).seqRec = s.seqRec := rfl
@[simp] theorem State.respond_epochs (p : Packet) (st : OSt) (data : List (BitVec 512)) : (s.respond p st data).epochs = s.epochs := rfl
@[simp] theorem State.respond_istat (p : Packet) (st : OSt) (data : List (BitVec 512)) : (s.respond p st data).istat = s.istat := rfl
@[simp] theorem State.respond_gals (p : Packet) (st : OSt) (data : List (BitVec 512)) : (s.respond p st data).gals = s.gals := rfl
@[simp] theorem State.respond_halls (p : Packet) (st : OSt) (data : List (BitVec 512)) : (s.respond p st data).halls = s.halls := rfl
@[simp] theorem State.respond_corrs (p : Packet) (st : OSt) (data : List (BitVec 512)) : (s.respond p st data).corrs = s.corrs := rfl
@[simp] theorem State.respond_pending (p : Packet) (st : OSt) (data : List (BitVec 512)) : (s.respond p st data).pending = s.pending := rfl
@[simp] theorem State.take_part (p : Packet) : (s.take p).part = s.part := rfl
@[simp] theorem State.take_regs (p : Packet) : (s.take p).regs = s.regs := rfl
@[simp] theorem State.take_mem (p : Packet) : (s.take p).mem = s.mem := rfl
@[simp] theorem State.take_memEpoch (p : Packet) : (s.take p).memEpoch = s.memEpoch := rfl
@[simp] theorem State.take_free (p : Packet) : (s.take p).free = s.free := rfl
@[simp] theorem State.take_now (p : Packet) : (s.take p).now = s.now := rfl
@[simp] theorem State.take_ev (p : Packet) : (s.take p).ev = s.ev := rfl
@[simp] theorem State.take_port (p : Packet) : (s.take p).port = s.port := rfl
@[simp] theorem State.take_clk (p : Packet) : (s.take p).clk = s.clk := rfl
@[simp] theorem State.take_adm (p : Packet) : (s.take p).adm = s.adm := rfl
@[simp] theorem State.take_dom (p : Packet) : (s.take p).dom = s.dom := rfl
@[simp] theorem State.take_pwrCmd (p : Packet) : (s.take p).pwrCmd = s.pwrCmd := rfl
@[simp] theorem State.take_thermHall (p : Packet) : (s.take p).thermHall = s.thermHall := rfl
@[simp] theorem State.take_thermStack (p : Packet) : (s.take p).thermStack = s.thermStack := rfl
@[simp] theorem State.take_thermGood (p : Packet) : (s.take p).thermGood = s.thermGood := rfl
@[simp] theorem State.take_stop (p : Packet) : (s.take p).stop = s.stop := rfl
@[simp] theorem State.take_slots (p : Packet) : (s.take p).slots = s.slots := rfl
@[simp] theorem State.take_boot (p : Packet) : (s.take p).boot = s.boot := rfl
@[simp] theorem State.take_bist (p : Packet) : (s.take p).bist = s.bist := rfl
@[simp] theorem State.take_cal (p : Packet) : (s.take p).cal = s.cal := rfl
@[simp] theorem State.take_otp (p : Packet) : (s.take p).otp = s.otp := rfl
@[simp] theorem State.take_sec (p : Packet) : (s.take p).sec = s.sec := rfl
@[simp] theorem State.take_reqs (p : Packet) : (s.take p).reqs = s.reqs := rfl
@[simp] theorem State.take_seqNext (p : Packet) : (s.take p).seqNext = s.seqNext := rfl
@[simp] theorem State.take_seqRec (p : Packet) : (s.take p).seqRec = s.seqRec := rfl
@[simp] theorem State.take_epochs (p : Packet) : (s.take p).epochs = s.epochs := rfl
@[simp] theorem State.take_istat (p : Packet) : (s.take p).istat = s.istat := rfl
@[simp] theorem State.take_gals (p : Packet) : (s.take p).gals = s.gals := rfl
@[simp] theorem State.take_halls (p : Packet) : (s.take p).halls = s.halls := rfl
@[simp] theorem State.take_corrs (p : Packet) : (s.take p).corrs = s.corrs := rfl
@[simp] theorem State.take_pending (p : Packet) : (s.take p).pending = s.pending := rfl
@[simp] theorem State.accept_part (p : Packet) : (s.accept p).part = s.part := rfl
@[simp] theorem State.accept_regs (p : Packet) : (s.accept p).regs = s.regs := rfl
@[simp] theorem State.accept_mem (p : Packet) : (s.accept p).mem = s.mem := rfl
@[simp] theorem State.accept_memEpoch (p : Packet) : (s.accept p).memEpoch = s.memEpoch := rfl
@[simp] theorem State.accept_free (p : Packet) : (s.accept p).free = s.free := rfl
@[simp] theorem State.accept_now (p : Packet) : (s.accept p).now = s.now := rfl
@[simp] theorem State.accept_ev (p : Packet) : (s.accept p).ev = s.ev := rfl
@[simp] theorem State.accept_port (p : Packet) : (s.accept p).port = s.port := rfl
@[simp] theorem State.accept_clk (p : Packet) : (s.accept p).clk = s.clk := rfl
@[simp] theorem State.accept_adm (p : Packet) : (s.accept p).adm = s.adm := rfl
@[simp] theorem State.accept_dom (p : Packet) : (s.accept p).dom = s.dom := rfl
@[simp] theorem State.accept_pwrCmd (p : Packet) : (s.accept p).pwrCmd = s.pwrCmd := rfl
@[simp] theorem State.accept_thermHall (p : Packet) : (s.accept p).thermHall = s.thermHall := rfl
@[simp] theorem State.accept_thermStack (p : Packet) : (s.accept p).thermStack = s.thermStack := rfl
@[simp] theorem State.accept_thermGood (p : Packet) : (s.accept p).thermGood = s.thermGood := rfl
@[simp] theorem State.accept_stop (p : Packet) : (s.accept p).stop = s.stop := rfl
@[simp] theorem State.accept_slots (p : Packet) : (s.accept p).slots = s.slots := rfl
@[simp] theorem State.accept_boot (p : Packet) : (s.accept p).boot = s.boot := rfl
@[simp] theorem State.accept_bist (p : Packet) : (s.accept p).bist = s.bist := rfl
@[simp] theorem State.accept_cal (p : Packet) : (s.accept p).cal = s.cal := rfl
@[simp] theorem State.accept_otp (p : Packet) : (s.accept p).otp = s.otp := rfl
@[simp] theorem State.accept_sec (p : Packet) : (s.accept p).sec = s.sec := rfl
@[simp] theorem State.accept_net (p : Packet) : (s.accept p).net = s.net := rfl
@[simp] theorem State.accept_reqs (p : Packet) : (s.accept p).reqs = s.reqs := rfl
@[simp] theorem State.accept_seqNext (p : Packet) : (s.accept p).seqNext = s.seqNext := rfl
@[simp] theorem State.accept_epochs (p : Packet) : (s.accept p).epochs = s.epochs := rfl
@[simp] theorem State.accept_istat (p : Packet) : (s.accept p).istat = s.istat := rfl
@[simp] theorem State.accept_gals (p : Packet) : (s.accept p).gals = s.gals := rfl
@[simp] theorem State.accept_halls (p : Packet) : (s.accept p).halls = s.halls := rfl
@[simp] theorem State.accept_corrs (p : Packet) : (s.accept p).corrs = s.corrs := rfl
@[simp] theorem State.accept_pending (p : Packet) : (s.accept p).pending = s.pending := rfl

end Sys2Proof.Machine
end

