-- ==== Sys2Proof/Laws/Frame.lean ====
section
/-!
SUPPORT. Laws/Frame.lean: registers after an update, and the frame of the operations at the bottom of every meaning.
-/
namespace Sys2Proof.Machine

/-! ## Registers after an update -/

theorem State.reg_setReg (s : State) (a : Nat) (w : Word) : (s.setReg a w).reg a = w :=
  Sparse.get_set_same s.regs (resetWord a) a w

theorem State.reg_setReg_ne (s : State) (a b : Nat) (w : Word) (h : b ≠ a) : (s.setReg a w).reg b = s.reg b := by
  simp only [State.reg, State.setReg, Sparse.find_set_other s.regs (resetWord a) a b w h]

theorem State.reg_setFld_ne (s : State) (a b : Nat) (f : Fld) (n : Nat) (h : b ≠ a) : (s.setFld a f n).reg b = s.reg b :=
  State.reg_setReg_ne s a b _ h

theorem State.reg_setFld (s : State) (a : Nat) (f : Fld) (n : Nat) : (s.setFld a f n).reg a = withField (s.reg a) f n :=
  State.reg_setReg s a _

theorem State.reg_incFld_ne (s : State) (a b : Nat) (f : Fld) (k : Nat) (h : b ≠ a) : (s.incFld a f k).reg b = s.reg b :=
  State.reg_setReg_ne s a b _ h

/-- A field that has been set. -/
theorem State.fld_setFld (s : State) (a : Nat) (f : Fld) (n : Nat) (h : f.lo + f.width ≤ 32) :
    (s.setFld a f n).fld a f = n % 2 ^ f.width := by
  rw [State.fld, State.reg_setFld, fieldOf_withField _ _ _ h]

/-- Setting a field leaves a field of the same register that shares no bit with it. -/
theorem State.fld_setFld_fld (s : State) (a : Nat) (f g : Fld) (n : Nat) (hg : g.lo + g.width ≤ 32)
    (h : f.lo + f.width ≤ g.lo ∨ g.lo + g.width ≤ f.lo) : (s.setFld a f n).fld a g = s.fld a g := by
  rw [State.fld, State.reg_setFld, fieldOf_withField_other _ _ _ _ hg h, State.fld]

/-- Setting a field leaves every other register. -/
theorem State.fld_setFld_ne (s : State) (a b : Nat) (f g : Fld) (n : Nat) (h : b ≠ a) : (s.setFld a f n).fld b g = s.fld b g := by
  rw [State.fld, State.reg_setFld_ne s a b f n h, State.fld]

theorem State.fld_setReg_ne (s : State) (a b : Nat) (w : Word) (g : Fld) (h : b ≠ a) : (s.setReg a w).fld b g = s.fld b g := by
  rw [State.fld, State.reg_setReg_ne s a b w h, State.fld]

theorem State.fld_setReg (s : State) (a : Nat) (w : Word) (g : Fld) : (s.setReg a w).fld a g = fieldOf w g := by
  rw [State.fld, State.reg_setReg]

/-! ## Galleries and halls after an update -/

theorem State.gal_setGal (s : State) (G : Nat) (g : Gal) : (s.setGal G g).gal G = g := Sparse.get_set_same s.gals {} G g

theorem State.gal_setGal_ne (s : State) (G H : Nat) (g : Gal) (h : H ≠ G) : (s.setGal G g).gal H = s.gal H := by
  simp only [State.gal, State.setGal, Sparse.get, Sparse.find_set_other s.gals {} G H g h]

theorem State.gal_modGal (s : State) (G : Nat) (f : Gal → Gal) : (s.modGal G f).gal G = f (s.gal G) := State.gal_setGal s G _

theorem State.gal_modGal_ne (s : State) (G H : Nat) (f : Gal → Gal) (h : H ≠ G) : (s.modGal G f).gal H = s.gal H :=
  State.gal_setGal_ne s G H _ h

theorem State.hall_modHall (s : State) (h : Nat) (f : Hall → Hall) : (s.modHall h f).hall h = f (s.hall h) :=
  Sparse.get_set_same s.halls {} h _

theorem State.hall_modHall_ne (s : State) (h k : Nat) (f : Hall → Hall) (e : k ≠ h) : (s.modHall h f).hall k = s.hall k := by
  show (Sparse.find (Sparse.set s.halls {} h (f (s.hall h))) k).getD {} = _
  rw [Sparse.find_set_other s.halls {} h k (f (s.hall h)) e]
  rfl

/-! ## Frames -/

theorem State.Within.refl (F : Foot) (s : State) : State.Within F s s :=
  ⟨rfl, rfl, rfl, fun _ _ => rfl, fun _ _ => rfl, fun _ _ => rfl, fun _ _ => rfl, fun x _ => Field.same_refl x s⟩

theorem State.Within.trans {F : Foot} {s t u : State} (h : State.Within F s t) (g : State.Within F t u) : State.Within F s u :=
  ⟨g.part.trans h.part, g.pending.trans h.pending, g.now.trans h.now, fun a x => (g.regs a x).trans (h.regs a x),
    fun k x => (g.bytes k x).trans (h.bytes k x), fun G x => (g.gals G x).trans (h.gals G x), fun k x => (g.halls k x).trans (h.halls k x),
    fun x e => Field.same_trans (h.rest x e) (g.rest x e)⟩

/-- A wider footprint. -/
theorem State.Within.mono {F G : Foot} {s t : State} (h : State.Within F s t) (hr : ∀ a ∈ F.regs, a ∈ G.regs) (hb : ∀ r ∈ F.bytes, r ∈ G.bytes)
    (hg : ∀ x ∈ F.gals, x ∈ G.gals) (hh : ∀ x ∈ F.halls, x ∈ G.halls) (hf : ∀ x ∈ F.fields, x ∈ G.fields) : State.Within G s t :=
  ⟨h.part, h.pending, h.now, fun a x => h.regs a (fun e => x (hr a e)),
    fun k x => h.bytes k (fun e => x (e.elim (fun r p => ⟨r, hb r p.1, p.2⟩))), fun a x => h.gals a (fun e => x (hg a e)),
    fun a x => h.halls a (fun e => x (hh a e)), fun x e => h.rest x (by
      simp only [List.contains_eq_mem, List.mem_append, decide_eq_false_iff_not, not_or] at e ⊢
      exact ⟨e.1, fun w => e.2 (hf x w)⟩)⟩

/-- An update that leaves registers, memory, galleries and halls as they are, and of the other fields those not named. -/
theorem State.Within.upd {F : Foot} {s t u : State} (h : State.Within F s t) (hr : u.regs = t.regs) (hm : u.mem = t.mem)
    (he : u.memEpoch = t.memEpoch) (hg : u.gals = t.gals) (hh : u.halls = t.halls) (hp : u.part = t.part) (hq : u.pending = t.pending)
    (hn : u.now = t.now) (hx : ∀ x, (Field.listed ++ F.fields).contains x = false → x.same t u) : State.Within F s u :=
  h.trans ⟨hp, hq, hn, fun a _ => by rw [State.reg, hr, State.reg],
    fun k _ => by rw [State.readByte, State.memByte, hm, he, State.readByte, State.memByte],
    fun G _ => by rw [State.gal, hg, State.gal], fun k _ => by rw [State.hall, hh, State.hall], hx⟩

theorem Field.not_listed {F : Foot} {x : Field} (h : (Field.listed ++ F.fields).contains x = false) : ¬ F.fields.contains x = true := by
  simp only [List.contains_eq_mem, List.mem_append, decide_eq_false_iff_not, not_or] at h
  simpa only [List.contains_eq_mem, decide_eq_true_eq] using h.2

/-- A record update of fields that the footprint names, as a rewriting rule. -/
theorem within_mk {F : Foot} {s t : State} {free ev port clk adm dom pwrCmd thermHall thermStack thermGood stop slots boot bist cal otp
    sec net reqs seqNext seqRec epochs istat corrs}
    (h_free : free = t.free ∨ F.fields.contains .free = true) (h_ev : ev = t.ev ∨ F.fields.contains .ev = true)
    (h_port : port = t.port ∨ F.fields.contains .port = true) (h_clk : clk = t.clk ∨ F.fields.contains .clk = true)
    (h_adm : adm = t.adm ∨ F.fields.contains .adm = true) (h_dom : dom = t.dom ∨ F.fields.contains .dom = true)
    (h_pwrCmd : pwrCmd = t.pwrCmd ∨ F.fields.contains .pwrCmd = true)
    (h_thermHall : thermHall = t.thermHall ∨ F.fields.contains .thermHall = true)
    (h_thermStack : thermStack = t.thermStack ∨ F.fields.contains .thermStack = true)
    (h_thermGood : thermGood = t.thermGood ∨ F.fields.contains .thermGood = true)
    (h_stop : stop = t.stop ∨ F.fields.contains .stop = true) (h_slots : slots = t.slots ∨ F.fields.contains .slots = true)
    (h_boot : boot = t.boot ∨ F.fields.contains .boot = true) (h_bist : bist = t.bist ∨ F.fields.contains .bist = true)
    (h_cal : cal = t.cal ∨ F.fields.contains .cal = true) (h_otp : otp = t.otp ∨ F.fields.contains .otp = true)
    (h_sec : sec = t.sec ∨ F.fields.contains .sec = true) (h_net : net = t.net ∨ F.fields.contains .net = true)
    (h_reqs : reqs = t.reqs ∨ F.fields.contains .reqs = true) (h_seqNext : seqNext = t.seqNext ∨ F.fields.contains .seqNext = true)
    (h_seqRec : seqRec = t.seqRec ∨ F.fields.contains .seqRec = true) (h_epochs : epochs = t.epochs ∨ F.fields.contains .epochs = true)
    (h_istat : istat = t.istat ∨ F.fields.contains .istat = true) (h_corrs : corrs = t.corrs ∨ F.fields.contains .corrs = true) :
    State.Within F s
      ⟨t.part, t.regs, t.mem, t.memEpoch, free, t.now, ev, port, clk, adm, dom, pwrCmd, thermHall, thermStack, thermGood, stop, slots,
        boot, bist, cal, otp, sec, net, reqs, seqNext, seqRec, epochs, istat, t.gals, t.halls, corrs, t.pending⟩ ↔ State.Within F s t := by
  have hx : ∀ x, (Field.listed ++ F.fields).contains x = false → x.same t
      ⟨t.part, t.regs, t.mem, t.memEpoch, free, t.now, ev, port, clk, adm, dom, pwrCmd, thermHall, thermStack, thermGood, stop, slots,
        boot, bist, cal, otp, sec, net, reqs, seqNext, seqRec, epochs, istat, t.gals, t.halls, corrs, t.pending⟩ := by
    intro x hx
    have hn := Field.not_listed hx
    cases x <;> first
      | exact ⟨rfl, rfl⟩
      | rfl
      | exact Or.resolve_right (by assumption) hn
  exact ⟨fun h => h.upd rfl rfl rfl rfl rfl rfl rfl rfl (fun x e => Field.same_symm (hx x e)),
    fun h => h.upd rfl rfl rfl rfl rfl rfl rfl rfl hx⟩

theorem State.Within.setReg {F : Foot} {s t : State} (h : State.Within F s t) (a : Nat) (w : Word) (ha : a ∈ F.regs) :
    State.Within F s (t.setReg a w) :=
  h.trans ⟨rfl, rfl, rfl, fun b hb => State.reg_setReg_ne t a b w (fun e => hb (e ▸ ha)), fun _ _ => rfl, fun _ _ => rfl,
    fun _ _ => rfl, fun x hx => by cases x <;> first | rfl | exact ⟨rfl, rfl⟩ | cases hx⟩

theorem State.Within.setFld {F : Foot} {s t : State} (h : State.Within F s t) (a : Nat) (f : Fld) (n : Nat) (ha : a ∈ F.regs) :
    State.Within F s (t.setFld a f n) := h.setReg a _ ha

theorem State.Within.incFld {F : Foot} {s t : State} (h : State.Within F s t) (a : Nat) (f : Fld) (k : Nat) (ha : a ∈ F.regs) :
    State.Within F s (t.incFld a f k) := h.setReg a _ ha

theorem State.Within.modGal {F : Foot} {s t : State} (h : State.Within F s t) (G : Nat) (f : Gal → Gal) (hG : G ∈ F.gals) :
    State.Within F s (t.modGal G f) :=
  h.trans ⟨rfl, rfl, rfl, fun _ _ => rfl, fun _ _ => rfl, fun K hK => State.gal_modGal_ne t G K f (fun e => hK (e ▸ hG)), fun _ _ => rfl,
    fun x hx => by cases x <;> first | rfl | exact ⟨rfl, rfl⟩ | cases hx⟩

theorem State.Within.modHall {F : Foot} {s t : State} (h : State.Within F s t) (k : Nat) (f : Hall → Hall) (hk : k ∈ F.halls) :
    State.Within F s (t.modHall k f) :=
  h.trans ⟨rfl, rfl, rfl, fun _ _ => rfl, fun _ _ => rfl, fun _ _ => rfl, fun j hj => State.hall_modHall_ne t k j f (fun e => hj (e ▸ hk)),
    fun x hx => by cases x <;> first | rfl | exact ⟨rfl, rfl⟩ | cases hx⟩

/-- An update of one field that the footprint names. -/
theorem State.Within.field {F : Foot} {s t u : State} (h : State.Within F s t) (y : Field) (hy : F.fields.contains y = true)
    (hr : u.regs = t.regs) (hm : u.mem = t.mem)
    (he : u.memEpoch = t.memEpoch) (hg : u.gals = t.gals) (hh : u.halls = t.halls) (hp : u.part = t.part) (hq : u.pending = t.pending)
    (hn : u.now = t.now) (hx : ∀ x, x ≠ y → x.same t u) : State.Within F s u :=
  h.upd hr hm he hg hh hp hq hn (fun x e => hx x (fun w => by
    subst w
    simp only [List.contains_eq_mem, List.mem_append, decide_eq_false_iff_not, not_or] at e
    simp only [List.contains_eq_mem, decide_eq_true_eq] at hy
    exact e.2 hy))

/-- A fold of an operation that stays within the footprint. -/
theorem State.Within.foldl {α : Type} {F : Foot} {s t : State} (l : List α) (f : State → α → State) (h : State.Within F s t)
    (hf : ∀ u x, x ∈ l → State.Within F s u → State.Within F s (f u x)) : State.Within F s (l.foldl f t) := by
  induction l generalizing t with
  | nil => exact h
  | cons x l ih => exact ih (hf t x (List.mem_cons_self ..) h) (fun u y hy => hf u y (List.mem_cons_of_mem x hy))

/-- What a fold keeps of a state. -/
theorem foldl_same {α β : Type} (g : State → β) (l : List α) (f : State → α → State) (s : State) (hf : ∀ u x, x ∈ l → g (f u x) = g u) :
    g (l.foldl f s) = g s := by
  induction l generalizing s with
  | nil => rfl
  | cons x l ih => exact (ih (f s x) (fun u y hy => hf u y (List.mem_cons_of_mem x hy))).trans (hf s x (List.mem_cons_self ..))

/-! ## Memory after a write -/

theorem find_putCell (m : List Host.Cell) (k j : Nat) (b : Byte) :
    (match Sparse.find (putCell m k b) j with | some x => some x | none => unlistedByte j)
      = if j = k then some b else (match Sparse.find m j with | some x => some x | none => unlistedByte j) := by
  unfold putCell
  by_cases e : j = k
  · subst e
    rw [if_pos rfl]
    by_cases h : unlistedByte j = some b
    · simp only [h, if_true, Sparse.find_del_same]
    · simp only [if_neg h, Sparse.find_put_same]
  · rw [if_neg e]
    by_cases h : unlistedByte k = some b
    · simp only [if_pos h, Sparse.find_del_other _ _ _ e]
    · simp only [if_neg h, Sparse.find_put_other _ _ _ _ e]

/-- A byte that has been written stands at its key, and every other key keeps its byte. -/
theorem State.memByte_writeByte (s : State) (k j : Nat) (b : Byte) :
    (s.writeByte k b).memByte j = if j = k then some b else s.memByte j := find_putCell s.mem k j b

theorem State.readByte_writeByte (s : State) (k j : Nat) (b : Byte) :
    (s.writeByte k b).readByte j = if j = k then b else s.readByte j := by
  unfold State.readByte
  rw [State.memByte_writeByte]
  split <;> rfl

/-- Bytes written from a key on: each stands at its key, and every other key keeps its byte. -/
theorem State.readByte_writeBytes (l : List Byte) (s : State) (k j : Nat) :
    (s.writeBytes k l).readByte j = if k ≤ j ∧ j < k + l.length then l.getD (j - k) 0 else s.readByte j := by
  induction l generalizing s k with
  | nil => rw [if_neg (by simp only [List.length_nil]; omega)]; rfl
  | cons b l ih =>
    rw [State.writeBytes, ih, State.readByte_writeByte]
    simp only [List.length_cons]
    by_cases e : j = k
    · subst e
      rw [if_neg (by omega), if_pos rfl, if_pos (by omega)]
      simp
    · rw [if_neg e]
      by_cases h : k + 1 ≤ j ∧ j < k + 1 + l.length
      · rw [if_pos h, if_pos (by omega), show j - k = (j - (k + 1)) + 1 by omega, List.getD_cons_succ]
      · rw [if_neg h, if_neg (by omega)]

theorem State.Within.writeBytes {F : Foot} {s t : State} (h : State.Within F s t) (k : Nat) (l : List Byte) (hb : (k, l.length) ∈ F.bytes) :
    State.Within F s (t.writeBytes k l) := by
  have hf : ∀ (l : List Byte) (t : State) (k : Nat), (t.writeBytes k l) = { t with mem := (t.writeBytes k l).mem } := by
    intro l
    induction l with
    | nil => intro t k; rfl
    | cons b l ih => intro t k; exact ih (t.writeByte k b) (k + 1)
  refine h.trans ?_
  rw [hf]
  exact ⟨rfl, rfl, rfl, fun _ _ => rfl, fun j hj => by
    have e : State.readByte { t with mem := (t.writeBytes k l).mem } j = (t.writeBytes k l).readByte j := by rw [hf l t k]
    rw [e, State.readByte_writeBytes, if_neg (fun x => hj ⟨_, hb, x.1, x.2⟩)], fun _ _ => rfl, fun _ _ => rfl,
    fun x hx => by cases x <;> first | rfl | exact ⟨rfl, rfl⟩ | cases hx⟩

/-- Enabled bytes written from a key on: each enabled one stands at its key, and every other key keeps its byte. -/
theorem State.readByte_writeEnabled (l : List (Byte × Bool)) (s : State) (k j : Nat) :
    (s.writeEnabled k l).readByte j =
      if k ≤ j ∧ j < k + l.length ∧ (l.getD (j - k) (0, false)).2 = true then (l.getD (j - k) (0, false)).1 else s.readByte j := by
  induction l generalizing s k with
  | nil => rw [if_neg (by simp only [List.length_nil]; omega)]; rfl
  | cons b l ih =>
    obtain ⟨b, e⟩ := b
    rw [State.writeEnabled, ih]
    simp only [List.length_cons]
    by_cases ej : j = k
    · subst ej
      rw [if_neg (by omega)]
      simp only [Nat.sub_self, List.getD_cons_zero, Nat.le_refl, true_and]
      cases e
      · simp
      · simp [State.readByte_writeByte]
    · have hs : (if e then s.writeByte k b else s).readByte j = s.readByte j := by
        split
        · rw [State.readByte_writeByte, if_neg ej]
        · rfl
      rw [hs]
      by_cases h : k + 1 ≤ j
      · rw [show j - k = (j - (k + 1)) + 1 by omega, List.getD_cons_succ]
        have e1 : (k ≤ j ∧ j < k + (l.length + 1)) ↔ (k + 1 ≤ j ∧ j < k + 1 + l.length) := by omega
        simp only [← and_assoc, e1]
      · rw [if_neg (by omega), if_neg (by omega)]

theorem State.Within.writeEnabled {F : Foot} {s t : State} (h : State.Within F s t) (k : Nat) (l : List (Byte × Bool))
    (hb : (k, l.length) ∈ F.bytes) : State.Within F s (t.writeEnabled k l) := by
  have hf : ∀ (l : List (Byte × Bool)) (u : State) (k : Nat), u.writeEnabled k l = { u with mem := (u.writeEnabled k l).mem } := by
    intro l
    induction l with
    | nil => intro u k; rfl
    | cons b l ih =>
      intro u k
      rw [State.writeEnabled, ih]
      split <;> rfl
  refine h.trans ?_
  rw [hf]
  exact ⟨rfl, rfl, rfl, fun _ _ => rfl, fun j hj => by
    have e : State.readByte { t with mem := (t.writeEnabled k l).mem } j = (t.writeEnabled k l).readByte j := by rw [hf l t k]
    rw [e, State.readByte_writeEnabled, if_neg (fun x => hj ⟨_, hb, x.1, x.2.1⟩)], fun _ _ => rfl, fun _ _ => rfl,
    fun x hx => by cases x <;> first | rfl | exact ⟨rfl, rfl⟩ | cases hx⟩

/-! ## Events -/

theorem State.Within.enqueueEvent {F : Foot} {s t : State} (h : State.Within F s t) (r : EventRec) (ha : Reg.SYS_EVSTAT ∈ F.regs)
    (he : F.fields.contains .ev = true) : State.Within F s (t.enqueueEvent r) := by
  have h1 : State.Within F s (if r.sev = 3 then t.setFld Reg.SYS_EVSTAT Fl.SYS_EVSTAT_CRIT 1 else t) := by
    split
    · exact h.setFld _ _ _ ha
    · exact h
  have h2 : ∀ {u : State} (q : EventQ), State.Within F s u → State.Within F s { u with ev := q } := fun q hu =>
    hu.field .ev he rfl rfl rfl rfl rfl rfl rfl rfl (fun x hx => by cases x <;> first | rfl | exact ⟨rfl, rfl⟩ | exact absurd rfl hx)
  unfold State.enqueueEvent
  dsimp only
  split
  · exact h2 _ h1
  · split
    · exact (h2 _ h1).incFld _ _ _ ha
    · exact h.incFld _ _ _ ha

theorem State.Within.post {F : Foot} {s t : State} (h : State.Within F s t) (k : EvKind) (hall idx : Nat) (args : List (Nat × Nat))
    (ha : Reg.SYS_EVSTAT ∈ F.regs) (he : F.fields.contains .ev = true) : State.Within F s (t.post k hall idx args) := h.enqueueEvent _ ha he

theorem State.Within.postLim {F : Foot} {s t : State} (h : State.Within F s t) (k : EvKind) (key period hall idx : Nat)
    (args : List (Nat × Nat)) (ha : Reg.SYS_EVSTAT ∈ F.regs) (he : F.fields.contains .ev = true) :
    State.Within F s (t.postLim k key period hall idx args) := by
  unfold State.postLim
  dsimp only
  split
  · refine State.Within.post ?_ k hall idx args ha he
    exact h.field .ev he rfl rfl rfl rfl rfl rfl rfl rfl (fun x hx => by cases x <;> first | rfl | exact ⟨rfl, rfl⟩ | exact absurd rfl hx)
  · exact h

/-- A record joins a queue that has room. -/
theorem State.enqueueEvent_recs (s : State) (r : EventRec) (h : s.ev.recs.length < 256) :
    (s.enqueueEvent r).ev.recs = s.ev.recs ++ [r] := by
  have he : (if r.sev = 3 then s.setFld Reg.SYS_EVSTAT Fl.SYS_EVSTAT_CRIT 1 else s).ev = s.ev := by split <;> rfl
  unfold State.enqueueEvent
  dsimp only
  split
  · simp [he]
  · contradiction

/-- Raising an event leaves every register but SYS_EVSTAT. -/
theorem State.reg_enqueueEvent (s : State) (r : EventRec) (a : Nat) (ha : a ≠ Reg.SYS_EVSTAT) : (s.enqueueEvent r).reg a = s.reg a :=
  ((State.Within.refl ⟨[Reg.SYS_EVSTAT], [], [], [], [.ev]⟩ s).enqueueEvent r (by simp) (by simp)).regs a (by simpa using ha)

theorem State.reg_post (s : State) (k : EvKind) (hall idx : Nat) (args : List (Nat × Nat)) (a : Nat) (ha : a ≠ Reg.SYS_EVSTAT) :
    (s.post k hall idx args).reg a = s.reg a := State.reg_enqueueEvent s _ a ha

theorem State.fld_post (s : State) (k : EvKind) (hall idx : Nat) (args : List (Nat × Nat)) (a : Nat) (f : Fld) (ha : a ≠ Reg.SYS_EVSTAT) :
    (s.post k hall idx args).fld a f = s.fld a f := by
  rw [State.fld, State.reg_post s k hall idx args a ha, State.fld]

theorem State.fld_postLim (s : State) (k : EvKind) (key period hall idx : Nat) (args : List (Nat × Nat)) (a : Nat) (f : Fld)
    (ha : a ≠ Reg.SYS_EVSTAT) : (s.postLim k key period hall idx args).fld a f = s.fld a f := by
  unfold State.postLim
  dsimp only
  split
  · exact State.fld_post _ k hall idx args a f ha
  · rfl

/-- An event raised in a state whose queue and time base are those of an earlier one. -/
theorem State.queued_post (s u : State) (k : EvKind) (hall idx : Nat) (args : List (Nat × Nat)) (he : u.ev = s.ev) (hc : u.clk = s.clk)
    (h : s.ev.recs.length < 256) : State.Queued s (u.post k hall idx args) (s.record k hall idx (packArgs args)) := by
  have e : u.record k hall idx (packArgs args) = s.record k hall idx (packArgs args) := by unfold State.record State.tbNs; rw [hc]
  unfold State.Queued State.post
  rw [State.enqueueEvent_recs _ _ (by rw [he]; exact h), he, e]

/-- A rate-limited event that is due (R470). -/
theorem State.queued_postLim (s u : State) (k : EvKind) (key period hall idx : Nat) (args : List (Nat × Nat)) (he : u.ev = s.ev)
    (hc : u.clk = s.clk) (hn : u.now = s.now) (hl : s.limOpen (k.code * 65536 + key) period = true) (h : s.ev.recs.length < 256) :
    State.Queued s (u.postLim k key period hall idx args) (s.record k hall idx (packArgs args)) := by
  have ho : u.limOpen (k.code * 65536 + key) period = true := by rw [← hl]; unfold State.limOpen; rw [he, hn]
  unfold State.postLim
  dsimp only
  rw [if_pos ho]
  generalize hv : u.limStamp (k.code * 65536 + key) = v
  have vr : v.ev.recs = s.ev.recs := by rw [← hv, ← he]; rfl
  have vc : v.clk = s.clk := by rw [← hv, ← hc]; rfl
  have e : v.record k hall idx (packArgs args) = s.record k hall idx (packArgs args) := by unfold State.record State.tbNs; rw [vc]
  unfold State.Queued State.post
  rw [State.enqueueEvent_recs _ _ (by rw [vr]; exact h), vr, e]

theorem State.gal_post (s : State) (k : EvKind) (hall idx : Nat) (args : List (Nat × Nat)) (G : Nat) :
    (s.post k hall idx args).gal G = s.gal G := by
  unfold State.post State.gal State.enqueueEvent
  dsimp only
  split
  · split <;> rfl
  · split
    · split <;> rfl
    · rfl

theorem State.hall_post (s : State) (k : EvKind) (hall idx : Nat) (args : List (Nat × Nat)) (h : Nat) :
    (s.post k hall idx args).hall h = s.hall h := by
  unfold State.post State.hall State.enqueueEvent
  dsimp only
  split
  · split <;> rfl
  · split
    · split <;> rfl
    · rfl

/-! ## What one kind of update leaves of another kind of state -/

@[simp] theorem State.gal_setReg (s : State) (a : Nat) (w : Word) (G : Nat) : (s.setReg a w).gal G = s.gal G := rfl
@[simp] theorem State.hall_setReg (s : State) (a : Nat) (w : Word) (h : Nat) : (s.setReg a w).hall h = s.hall h := rfl
@[simp] theorem State.gal_setFld (s : State) (a : Nat) (f : Fld) (n : Nat) (G : Nat) : (s.setFld a f n).gal G = s.gal G := rfl
@[simp] theorem State.hall_setFld (s : State) (a : Nat) (f : Fld) (n : Nat) (h : Nat) : (s.setFld a f n).hall h = s.hall h := rfl
@[simp] theorem State.gal_incFld (s : State) (a : Nat) (f : Fld) (k : Nat) (G : Nat) : (s.incFld a f k).gal G = s.gal G := rfl
@[simp] theorem State.hall_incFld (s : State) (a : Nat) (f : Fld) (k : Nat) (h : Nat) : (s.incFld a f k).hall h = s.hall h := rfl
@[simp] theorem State.gal_setFldBit (s : State) (a : Nat) (f : Fld) (k : Nat) (b : Bool) (G : Nat) : (s.setFldBit a f k b).gal G = s.gal G := rfl
@[simp] theorem State.hall_setFldBit (s : State) (a : Nat) (f : Fld) (k : Nat) (b : Bool) (h : Nat) : (s.setFldBit a f k b).hall h = s.hall h := rfl
@[simp] theorem State.gal_send (s : State) (p : Packet) (G : Nat) : (s.send p).gal G = s.gal G := rfl
@[simp] theorem State.hall_send (s : State) (p : Packet) (h : Nat) : (s.send p).hall h = s.hall h := rfl
@[simp] theorem State.gal_respond (s : State) (p : Packet) (st : OSt) (data : List (BitVec 512)) (G : Nat) : (s.respond p st data).gal G = s.gal G := rfl
@[simp] theorem State.hall_respond (s : State) (p : Packet) (st : OSt) (data : List (BitVec 512)) (h : Nat) : (s.respond p st data).hall h = s.hall h := rfl
@[simp] theorem State.gal_draw (s : State) (G : Nat) : (s.draw).gal G = s.gal G := rfl
@[simp] theorem State.hall_draw (s : State) (h : Nat) : (s.draw).hall h = s.hall h := rfl
@[simp] theorem State.reg_modGal (s : State) (G : Nat) (f : Gal → Gal) (b : Nat) : (s.modGal G f).reg b = s.reg b := rfl
@[simp] theorem State.fld_modGal (s : State) (G : Nat) (f : Gal → Gal) (b : Nat) (g : Fld) : (s.modGal G f).fld b g = s.fld b g := rfl
@[simp] theorem State.reg_modHall (s : State) (h : Nat) (f : Hall → Hall) (b : Nat) : (s.modHall h f).reg b = s.reg b := rfl
@[simp] theorem State.fld_modHall (s : State) (h : Nat) (f : Hall → Hall) (b : Nat) (g : Fld) : (s.modHall h f).fld b g = s.fld b g := rfl
@[simp] theorem State.reg_send (s : State) (p : Packet) (b : Nat) : (s.send p).reg b = s.reg b := rfl
@[simp] theorem State.fld_send (s : State) (p : Packet) (b : Nat) (g : Fld) : (s.send p).fld b g = s.fld b g := rfl
@[simp] theorem State.reg_respond (s : State) (p : Packet) (st : OSt) (data : List (BitVec 512)) (b : Nat) : (s.respond p st data).reg b = s.reg b := rfl
@[simp] theorem State.fld_respond (s : State) (p : Packet) (st : OSt) (data : List (BitVec 512)) (b : Nat) (g : Fld) : (s.respond p st data).fld b g = s.fld b g := rfl
@[simp] theorem State.reg_draw (s : State) (b : Nat) : (s.draw).reg b = s.reg b := rfl
@[simp] theorem State.fld_draw (s : State) (b : Nat) (g : Fld) : (s.draw).fld b g = s.fld b g := rfl
@[simp] theorem State.hall_modGal (s : State) (G : Nat) (f : Gal → Gal) (h : Nat) : (s.modGal G f).hall h = s.hall h := rfl
@[simp] theorem State.gal_modHall (s : State) (h : Nat) (f : Hall → Hall) (G : Nat) : (s.modHall h f).gal G = s.gal G := rfl

/-! ## Packets sent, and single bits of a field -/

theorem State.sent_send (s : State) (p : Packet) : State.Sent s (s.send p) p := ⟨_, _, _, rfl⟩

theorem State.Within.send {F : Foot} {s t : State} (h : State.Within F s t) (p : Packet) (h1 : F.fields.contains .net = true)
    (h2 : F.fields.contains .reqs = true) (h3 : F.fields.contains .seqNext = true) : State.Within F s (t.send p) := by
  refine h.trans ⟨rfl, rfl, rfl, fun _ _ => rfl, fun _ _ => rfl, fun _ _ => rfl, fun _ _ => rfl, fun x hx => ?_⟩
  have hn := Field.not_listed hx
  cases x <;> first
    | rfl
    | exact ⟨rfl, rfl⟩
    | exact absurd (by assumption) hn

theorem bitOf_setBit_eq (n k j : Nat) (b : Bool) : bitOf (setBit n k b) j = if j = k then b else bitOf n j := by
  unfold bitOf setBit
  cases b
  · simp only [Bool.false_eq_true, if_false]
    split
    · next h =>
      have hr : n % 2 ^ k < 2 ^ k := Nat.mod_lt _ (Nat.two_pow_pos k)
      have hq : n / 2 ^ k % 2 = 1 := by
        rw [Nat.testBit_eq_decide_div_mod_eq] at h
        exact of_decide_eq_true h
      have hn : n = 2 ^ k * (n / 2 ^ k) + n % 2 ^ k := (Nat.div_add_mod n (2 ^ k)).symm
      have e : n - 1 <<< k = 2 ^ k * (n / 2 ^ k - 1) + n % 2 ^ k := by
        rw [Nat.one_shiftLeft, Nat.mul_sub, Nat.mul_one]
        have : 2 ^ k ≤ 2 ^ k * (n / 2 ^ k) := Nat.le_mul_of_pos_right _ (Nat.pos_of_ne_zero (fun z => by rw [z] at hq; cases hq))
        omega
      rw [e, Nat.testBit_two_pow_mul_add _ hr]
      conv => rhs; rw [hn, Nat.testBit_two_pow_mul_add _ hr]
      by_cases hj : j < k
      · simp [hj, Nat.ne_of_lt hj]
      · by_cases hk : j = k
        · subst hk
          simp only [Nat.lt_irrefl, if_false, Nat.sub_self, if_true, Nat.testBit_zero]
          exact decide_eq_false (by omega)
        · simp only [hj, hk, if_false]
          have : j - k = (j - k - 1) + 1 := by omega
          rw [this, Nat.testBit_succ, Nat.testBit_succ]
          congr 1
          generalize n / 2 ^ k = q at hq
          omega
    · next h =>
      by_cases hj : j = k
      · subst hj; simpa using h
      · simp [hj]
  · simp only [if_true, Nat.testBit_or, Nat.one_shiftLeft, Nat.testBit_two_pow]
    by_cases hj : j = k
    · subst hj; simp
    · simp [hj, Ne.symm hj]

theorem State.Within.setFldBit {F : Foot} {s t : State} (h : State.Within F s t) (a : Nat) (f : Fld) (k : Nat) (b : Bool)
    (ha : a ∈ F.regs) : State.Within F s (t.setFldBit a f k b) := h.setFld a f _ ha

theorem State.fld_incFld (s : State) (a : Nat) (f : Fld) (k : Nat) (h : f.lo + f.width ≤ 32) :
    (s.incFld a f k).fld a f = min (s.fld a f + k) (2 ^ f.width - 1) := by
  unfold State.incFld satAdd
  rw [State.fld_setFld _ _ _ _ h]
  have := Nat.two_pow_pos f.width
  exact Nat.mod_eq_of_lt (by omega)

theorem State.fld_incFld_ne (s : State) (a b : Nat) (f g : Fld) (k : Nat) (h : b ≠ a) : (s.incFld a f k).fld b g = s.fld b g :=
  State.fld_setFld_ne s a b f g _ h

theorem State.reg_setFldBit_ne (s : State) (a b : Nat) (f : Fld) (k : Nat) (v : Bool) (h : b ≠ a) :
    (s.setFldBit a f k v).reg b = s.reg b := State.reg_setFld_ne s a b f _ h

theorem State.fld_setFldBit_ne (s : State) (a b : Nat) (f g : Fld) (k : Nat) (v : Bool) (h : b ≠ a) :
    (s.setFldBit a f k v).fld b g = s.fld b g := State.fld_setFld_ne s a b f g _ h

theorem State.bit_setFldBit (s : State) (a : Nat) (f : Fld) (k j : Nat) (b : Bool) (hf : f.lo + f.width ≤ 32) (hj : j < f.width) :
    bitOf ((s.setFldBit a f k b).fld a f) j = if j = k then b else bitOf (s.fld a f) j := by
  unfold State.setFldBit
  rw [State.fld_setFld _ _ _ _ hf]
  rw [← bitOf_setBit_eq]
  unfold bitOf
  rw [Nat.testBit_mod_two_pow]
  simp [hj]

end Sys2Proof.Machine
end

