-- ==== Sys2Proof/Laws/KeepsOps.lean ====
section
/-!
SUPPORT. Laws/KeepsOps.lean: the operations of Machine/Ops.lean keep State.Keeps.
-/
namespace Sys2Proof.Machine
open Sys2Proof

theorem State.setFldBit_keeps {W : List Field} {s₀ s : State} (hk : s₀.Keeps W s) (hw : Field.sub [.regs] W = true) (a : Nat) (f : Fld)
    (k : Nat) (b : Bool) : s₀.Keeps W (State.setFldBit s a f k b) := by
  unfold State.setFldBit
  repeat' first
    | with_reducible assumption
    | with_reducible exact State.Keeps.refl _ _
    | with_reducible apply State.setFld_keeps (hw := Field.sub_trans (by decide) hw)
    | with_reducible refine keeps_ite ?_ ?_
    | with_reducible refine keeps_ite_fst ?_ ?_
    | intro _
    | dsimp only
    | split

theorem State.clrReg_keeps {W : List Field} {s₀ s : State} (hk : s₀.Keeps W s) (hw : Field.sub [.regs] W = true) (a : Nat) : s₀.Keeps W
    (State.clrReg s a) := by
  unfold State.clrReg
  repeat' first
    | with_reducible assumption
    | with_reducible exact State.Keeps.refl _ _
    | with_reducible apply State.setReg_keeps (hw := Field.sub_trans (by decide) hw)
    | with_reducible refine keeps_ite ?_ ?_
    | with_reducible refine keeps_ite_fst ?_ ?_
    | intro _
    | dsimp only
    | split

theorem State.resetRegs_keeps {W : List Field} {s₀ s : State} (hk : s₀.Keeps W s) (hw : Field.sub [.regs] W = true) (p : Nat → Bool) :
    s₀.Keeps W (State.resetRegs s p) := by
  unfold State.resetRegs
  repeat' first
    | with_reducible assumption
    | with_reducible exact State.Keeps.refl _ _
    | with_reducible refine keeps_ite ?_ ?_
    | with_reducible refine keeps_ite_fst ?_ ?_
    | intro _
    | dsimp only
    | simp (disch := first | assumption | (with_unfolding_all (intro (x : Field) hx; cases x <;>
        first | exact absurd hx (by decide) | (dsimp only [Field.same]; done) | (dsimp only [Field.same]; exact ⟨rfl, rfl⟩)))) only [keeps_mk hw]
    | split

theorem State.writeFields_keeps {W : List Field} {s₀ s : State} (hk : s₀.Keeps W s) (hw : Field.sub [.regs] W = true) (a : Nat) (v :
    Word) : s₀.Keeps W (State.writeFields s a v) := by
  unfold State.writeFields
  repeat' first
    | with_reducible assumption
    | with_reducible exact State.Keeps.refl _ _
    | with_reducible apply State.setReg_keeps (hw := Field.sub_trans (by decide) hw)
    | with_reducible refine keeps_ite ?_ ?_
    | with_reducible refine keeps_ite_fst ?_ ?_
    | with_reducible refine keeps_foldl _ _ ?_ ?_
    | with_reducible refine keeps_foldl_fst _ _ ?_ ?_
    | intro _
    | dsimp only
    | split

theorem State.draw_keeps {W : List Field} {s₀ s : State} (hk : s₀.Keeps W s) (hw : Field.sub [.free] W = true) : s₀.Keeps W (State.draw
    s) := by
  unfold State.draw
  repeat' first
    | with_reducible assumption
    | with_reducible exact State.Keeps.refl _ _
    | with_reducible refine keeps_ite ?_ ?_
    | with_reducible refine keeps_ite_fst ?_ ?_
    | intro _
    | dsimp only
    | simp (disch := first | assumption | (with_unfolding_all (intro (x : Field) hx; cases x <;>
        first | exact absurd hx (by decide) | (dsimp only [Field.same]; done) | (dsimp only [Field.same]; exact ⟨rfl, rfl⟩)))) only [keeps_mk hw]
    | split

theorem State.postPkg_keeps {W : List Field} {s₀ s : State} (hk : s₀.Keeps W s) (hw : Field.sub [.regs, .ev] W = true) (k : EvKind) (args
    : List (Nat × Nat)) : s₀.Keeps W (State.postPkg s k args) := by
  unfold State.postPkg
  repeat' first
    | with_reducible assumption
    | with_reducible exact State.Keeps.refl _ _
    | with_reducible apply State.post_keeps (hw := Field.sub_trans (by decide) hw)
    | with_reducible refine keeps_ite ?_ ?_
    | with_reducible refine keeps_ite_fst ?_ ?_
    | intro _
    | dsimp only
    | split

theorem State.postGal_keeps {W : List Field} {s₀ s : State} (hk : s₀.Keeps W s) (hw : Field.sub [.regs, .ev] W = true) (k : EvKind) (G :
    Nat) (args : List (Nat × Nat)) : s₀.Keeps W (State.postGal s k G args) := by
  unfold State.postGal
  repeat' first
    | with_reducible assumption
    | with_reducible exact State.Keeps.refl _ _
    | with_reducible apply State.post_keeps (hw := Field.sub_trans (by decide) hw)
    | with_reducible refine keeps_ite ?_ ?_
    | with_reducible refine keeps_ite_fst ?_ ?_
    | intro _
    | dsimp only
    | split

theorem State.postLim_keeps {W : List Field} {s₀ s : State} (hk : s₀.Keeps W s) (hw : Field.sub [.regs, .ev] W = true) (k : EvKind) (key
    : Nat) (period : Nat) (hall : Nat) (idx : Nat) (args : List (Nat × Nat)) : s₀.Keeps W (State.postLim s k key period hall idx args) :=
    by
  unfold State.postLim
  repeat' first
    | with_reducible assumption
    | with_reducible exact State.Keeps.refl _ _
    | with_reducible apply State.post_keeps (hw := Field.sub_trans (by decide) hw)
    | with_reducible apply State.limStamp_keeps (hw := Field.sub_trans (by decide) hw)
    | with_reducible refine keeps_ite ?_ ?_
    | with_reducible refine keeps_ite_fst ?_ ?_
    | intro _
    | dsimp only
    | split

theorem State.postAccess_keeps {W : List Field} {s₀ s : State} (hk : s₀.Keeps W s) (hw : Field.sub [.regs, .ev] W = true) (k : EvKind)
    (hall : Nat) (addr : Nat) (write : Bool) : s₀.Keeps W (State.postAccess s k hall addr write) := by
  unfold State.postAccess
  repeat' first
    | with_reducible assumption
    | with_reducible exact State.Keeps.refl _ _
    | with_reducible apply State.incOvf_keeps (hw := Field.sub_trans (by decide) hw)
    | with_reducible apply State.post_keeps (hw := Field.sub_trans (by decide) hw)
    | with_reducible refine keeps_ite ?_ ?_
    | with_reducible refine keeps_ite_fst ?_ ?_
    | intro _
    | dsimp only
    | split

theorem State.send_keeps {W : List Field} {s₀ s : State} (hk : s₀.Keeps W s) (hw : Field.sub [.net, .reqs, .seqNext] W = true) (p :
    Packet) : s₀.Keeps W (State.send s p) := by
  unfold State.send
  repeat' first
    | with_reducible assumption
    | with_reducible exact State.Keeps.refl _ _
    | with_reducible refine keeps_ite ?_ ?_
    | with_reducible refine keeps_ite_fst ?_ ?_
    | intro _
    | dsimp only
    | simp (disch := first | assumption | (with_unfolding_all (intro (x : Field) hx; cases x <;>
        first | exact absurd hx (by decide) | (dsimp only [Field.same]; done) | (dsimp only [Field.same]; exact ⟨rfl, rfl⟩)))) only [keeps_mk hw]
    | split

theorem State.respond_keeps {W : List Field} {s₀ s : State} (hk : s₀.Keeps W s) (hw : Field.sub [.net, .reqs, .seqNext] W = true) (p :
    Packet) (st : OSt) (data : List (BitVec 512)) : s₀.Keeps W (State.respond s p st data) := by
  unfold State.respond
  repeat' first
    | with_reducible assumption
    | with_reducible exact State.Keeps.refl _ _
    | with_reducible apply State.send_keeps (hw := Field.sub_trans (by decide) hw)
    | with_reducible refine keeps_ite ?_ ?_
    | with_reducible refine keeps_ite_fst ?_ ?_
    | intro _
    | dsimp only
    | split

theorem State.take_keeps {W : List Field} {s₀ s : State} (hk : s₀.Keeps W s) (hw : Field.sub [.net] W = true) (p : Packet) : s₀.Keeps W
    (State.take s p) := by
  unfold State.take
  repeat' first
    | with_reducible assumption
    | with_reducible exact State.Keeps.refl _ _
    | with_reducible refine keeps_ite ?_ ?_
    | with_reducible refine keeps_ite_fst ?_ ?_
    | intro _
    | dsimp only
    | simp (disch := first | assumption | (with_unfolding_all (intro (x : Field) hx; cases x <;>
        first | exact absurd hx (by decide) | (dsimp only [Field.same]; done) | (dsimp only [Field.same]; exact ⟨rfl, rfl⟩)))) only [keeps_mk hw]
    | split

theorem State.accept_keeps {W : List Field} {s₀ s : State} (hk : s₀.Keeps W s) (hw : Field.sub [.seqRec] W = true) (p : Packet) :
    s₀.Keeps W (State.accept s p) := by
  unfold State.accept
  repeat' first
    | with_reducible assumption
    | with_reducible exact State.Keeps.refl _ _
    | with_reducible refine keeps_ite ?_ ?_
    | with_reducible refine keeps_ite_fst ?_ ?_
    | intro _
    | dsimp only
    | simp (disch := first | assumption | (with_unfolding_all (intro (x : Field) hx; cases x <;>
        first | exact absurd hx (by decide) | (dsimp only [Field.same]; done) | (dsimp only [Field.same]; exact ⟨rfl, rfl⟩)))) only [keeps_mk hw]
    | split

theorem State.numbered_keeps {W : List Field} {s₀ s : State} (hk : s₀.Keeps W s) (hw : Field.sub [.seqNext] W = true) (p : Packet) :
    s₀.Keeps W (State.numbered s p) := by
  unfold State.numbered
  repeat' first
    | with_reducible assumption
    | with_reducible exact State.Keeps.refl _ _
    | with_reducible refine keeps_ite ?_ ?_
    | with_reducible refine keeps_ite_fst ?_ ?_
    | intro _
    | dsimp only
    | simp (disch := first | assumption | (with_unfolding_all (intro (x : Field) hx; cases x <;>
        first | exact absurd hx (by decide) | (dsimp only [Field.same]; done) | (dsimp only [Field.same]; exact ⟨rfl, rfl⟩)))) only [keeps_mk hw]
    | split

theorem State.passes_keeps {W : List Field} {s₀ s : State} (hk : s₀.Keeps W s) (hw : Field.sub [.seqNext, .seqRec] W = true) (p : Packet)
    : s₀.Keeps W (State.passes s p) := by
  unfold State.passes
  repeat' first
    | with_reducible assumption
    | with_reducible exact State.Keeps.refl _ _
    | with_reducible apply State.accept_keeps (hw := Field.sub_trans (by decide) hw)
    | with_reducible apply State.numbered_keeps (hw := Field.sub_trans (by decide) hw)
    | with_reducible refine keeps_ite ?_ ?_
    | with_reducible refine keeps_ite_fst ?_ ?_
    | intro _
    | dsimp only
    | split

theorem State.setDom_keeps {W : List Field} {s₀ s : State} (hk : s₀.Keeps W s) (hw : Field.sub [.regs] W = true) (h : Nat) (d : Nat) (st
    : Nat) : s₀.Keeps W (State.setDom s h d st) := by
  unfold State.setDom
  repeat' first
    | with_reducible assumption
    | with_reducible exact State.Keeps.refl _ _
    | with_reducible apply State.setFld_keeps (hw := Field.sub_trans (by decide) hw)
    | with_reducible refine keeps_ite ?_ ?_
    | with_reducible refine keeps_ite_fst ?_ ?_
    | intro _
    | dsimp only
    | split

theorem State.setGal_keeps {W : List Field} {s₀ s : State} (hk : s₀.Keeps W s) (hw : Field.sub [.gals] W = true) (G : Nat) (g : Gal) :
    s₀.Keeps W (State.setGal s G g) := by
  unfold State.setGal
  repeat' first
    | with_reducible assumption
    | with_reducible exact State.Keeps.refl _ _
    | with_reducible refine keeps_ite ?_ ?_
    | with_reducible refine keeps_ite_fst ?_ ?_
    | intro _
    | dsimp only
    | simp (disch := first | assumption | (with_unfolding_all (intro (x : Field) hx; cases x <;>
        first | exact absurd hx (by decide) | (dsimp only [Field.same]; done) | (dsimp only [Field.same]; exact ⟨rfl, rfl⟩)))) only [keeps_mk hw]
    | split

theorem State.modGal_keeps {W : List Field} {s₀ s : State} (hk : s₀.Keeps W s) (hw : Field.sub [.gals] W = true) (G : Nat) (f : Gal →
    Gal) : s₀.Keeps W (State.modGal s G f) := by
  unfold State.modGal
  repeat' first
    | with_reducible assumption
    | with_reducible exact State.Keeps.refl _ _
    | with_reducible apply State.setGal_keeps (hw := Field.sub_trans (by decide) hw)
    | with_reducible refine keeps_ite ?_ ?_
    | with_reducible refine keeps_ite_fst ?_ ?_
    | intro _
    | dsimp only
    | split

theorem State.modHall_keeps {W : List Field} {s₀ s : State} (hk : s₀.Keeps W s) (hw : Field.sub [.halls] W = true) (h : Nat) (f : Hall →
    Hall) : s₀.Keeps W (State.modHall s h f) := by
  unfold State.modHall
  repeat' first
    | with_reducible assumption
    | with_reducible exact State.Keeps.refl _ _
    | with_reducible refine keeps_ite ?_ ?_
    | with_reducible refine keeps_ite_fst ?_ ?_
    | intro _
    | dsimp only
    | simp (disch := first | assumption | (with_unfolding_all (intro (x : Field) hx; cases x <;>
        first | exact absurd hx (by decide) | (dsimp only [Field.same]; done) | (dsimp only [Field.same]; exact ⟨rfl, rfl⟩)))) only [keeps_mk hw]
    | split

theorem State.setPlaneState_keeps {W : List Field} {s₀ s : State} (hk : s₀.Keeps W s) (hw : Field.sub [.regs] W = true) (G : Nat) (p :
    Nat) (st : Nat) : s₀.Keeps W (State.setPlaneState s G p st) := by
  unfold State.setPlaneState
  repeat' first
    | with_reducible assumption
    | with_reducible exact State.Keeps.refl _ _
    | with_reducible apply State.setFld_keeps (hw := Field.sub_trans (by decide) hw)
    | with_reducible refine keeps_ite ?_ ?_
    | with_reducible refine keeps_ite_fst ?_ ?_
    | intro _
    | dsimp only
    | split

theorem State.hostWrite_keeps {W : List Field} {s₀ s : State} (hk : s₀.Keeps W s)
    (hw : Field.sub [.regs, .ev] W = true) (a : Nat) (f : State → State) (hf : s₀.Keeps W (f s)) :
    s₀.Keeps W (s.hostWrite a f) := by
  unfold State.hostWrite
  split
  · exact State.postAccess_keeps hk (Field.sub_trans (by decide) hw) _ _ _ _
  · exact State.postAccess_keeps hk (Field.sub_trans (by decide) hw) _ _ _ _
  · exact hk
  · exact hf

theorem State.setChange_keeps {W : List Field} {s₀ s : State} (hk : s₀.Keeps W s) (hw : Field.sub [.dom] W = true) (h : Nat) (d : Nat) (c
    : DomChange) : s₀.Keeps W (State.setChange s h d c) := by
  unfold State.setChange
  repeat' first
    | with_reducible assumption
    | with_reducible exact State.Keeps.refl _ _
    | with_reducible refine keeps_ite ?_ ?_
    | with_reducible refine keeps_ite_fst ?_ ?_
    | intro _
    | dsimp only
    | simp (disch := first | assumption | (with_unfolding_all (intro (x : Field) hx; cases x <;>
        first | exact absurd hx (by decide) | (dsimp only [Field.same]; done) | (dsimp only [Field.same]; exact ⟨rfl, rfl⟩)))) only [keeps_mk hw]
    | split

theorem State.endChange_keeps {W : List Field} {s₀ s : State} (hk : s₀.Keeps W s) (hw : Field.sub [.dom] W = true) (h : Nat) (d : Nat) :
    s₀.Keeps W (State.endChange s h d) := by
  unfold State.endChange
  repeat' first
    | with_reducible assumption
    | with_reducible exact State.Keeps.refl _ _
    | with_reducible refine keeps_ite ?_ ?_
    | with_reducible refine keeps_ite_fst ?_ ?_
    | intro _
    | dsimp only
    | simp (disch := first | assumption | (with_unfolding_all (intro (x : Field) hx; cases x <;>
        first | exact absurd hx (by decide) | (dsimp only [Field.same]; done) | (dsimp only [Field.same]; exact ⟨rfl, rfl⟩)))) only [keeps_mk hw]
    | split

theorem State.pwrResult_keeps {W : List Field} {s₀ s : State} (hk : s₀.Keeps W s) (hw : Field.sub [.regs, .pwrCmd] W = true) (r : Nat) :
    s₀.Keeps W (State.pwrResult s r) := by
  unfold State.pwrResult
  repeat' first
    | with_reducible assumption
    | with_reducible exact State.Keeps.refl _ _
    | with_reducible apply State.setFld_keeps (hw := Field.sub_trans (by decide) hw)
    | with_reducible refine keeps_ite ?_ ?_
    | with_reducible refine keeps_ite_fst ?_ ?_
    | intro _
    | dsimp only
    | simp (disch := first | assumption | (with_unfolding_all (intro (x : Field) hx; cases x <;>
        first | exact absurd hx (by decide) | (dsimp only [Field.same]; done) | (dsimp only [Field.same]; exact ⟨rfl, rfl⟩)))) only [keeps_mk hw]
    | split

theorem State.domBack_keeps {W : List Field} {s₀ s : State} (hk : s₀.Keeps W s) (hw : Field.sub [.regs, .dom] W = true) (h : Nat) (d :
    Nat) : s₀.Keeps W (State.domBack s h d) := by
  unfold State.domBack
  repeat' first
    | with_reducible assumption
    | with_reducible exact State.Keeps.refl _ _
    | with_reducible apply State.endChange_keeps (hw := Field.sub_trans (by decide) hw)
    | with_reducible apply State.setDom_keeps (hw := Field.sub_trans (by decide) hw)
    | with_reducible refine keeps_ite ?_ ?_
    | with_reducible refine keeps_ite_fst ?_ ?_
    | intro _
    | dsimp only
    | split

theorem State.cmdFailed_keeps {W : List Field} {s₀ s : State} (hk : s₀.Keeps W s) (hw : Field.sub [.regs, .dom] W = true) (h : Nat) (d :
    Nat) : s₀.Keeps W (State.cmdFailed s h d) := by
  unfold State.cmdFailed
  repeat' first
    | with_reducible assumption
    | with_reducible exact State.Keeps.refl _ _
    | with_reducible apply State.setChange_keeps (hw := Field.sub_trans (by decide) hw)
    | with_reducible apply State.domBack_keeps (hw := Field.sub_trans (by decide) hw)
    | with_reducible refine keeps_ite ?_ ?_
    | with_reducible refine keeps_ite_fst ?_ ?_
    | intro _
    | dsimp only
    | split

theorem State.powerFailed_keeps {W : List Field} {s₀ s : State} (hk : s₀.Keeps W s) (hw : Field.sub [.regs, .adm, .dom, .pwrCmd] W =
    true) (kind : Nat) (h : Nat) (d : Nat) : s₀.Keeps W (State.powerFailed s kind h d) := by
  unfold State.powerFailed
  repeat' first
    | with_reducible assumption
    | with_reducible exact State.Keeps.refl _ _
    | with_reducible apply State.pwrResult_keeps (hw := Field.sub_trans (by decide) hw)
    | with_reducible apply State.cmdFailed_keeps (hw := Field.sub_trans (by decide) hw)
    | with_reducible apply State.domBack_keeps (hw := Field.sub_trans (by decide) hw)
    | with_reducible refine keeps_ite ?_ ?_
    | with_reducible refine keeps_ite_fst ?_ ?_
    | with_reducible refine keeps_foldl _ _ ?_ ?_
    | with_reducible refine keeps_foldl_fst _ _ ?_ ?_
    | intro _
    | dsimp only
    | simp (disch := first | assumption | (with_unfolding_all (intro (x : Field) hx; cases x <;>
        first | exact absurd hx (by decide) | (dsimp only [Field.same]; done) | (dsimp only [Field.same]; exact ⟨rfl, rfl⟩)))) only [keeps_mk hw]
    | simp (disch := first | assumption | (with_unfolding_all (intro (x : Field) hx; cases x <;>
        first | exact absurd hx (by decide) | (dsimp only [Field.same]; done) | (dsimp only [Field.same]; exact ⟨rfl, rfl⟩)))) only [keeps_mk_adm hw]
    | split

theorem State.admTimedOut_keeps {W : List Field} {s₀ s : State} (hk : s₀.Keeps W s) (hw : Field.sub [.regs, .gals, .ev, .adm, .dom,
    .pwrCmd, .boot, .bist] W = true) (kind : Nat) (hall : Nat) (who : AdmFor) : s₀.Keeps W (State.admTimedOut s kind hall who) := by
  unfold State.admTimedOut
  repeat' first
    | with_reducible assumption
    | with_reducible exact State.Keeps.refl _ _
    | with_reducible apply State.powerFailed_keeps (hw := Field.sub_trans (by decide) hw)
    | with_reducible apply State.setFld_keeps (hw := Field.sub_trans (by decide) hw)
    | with_reducible apply State.modGal_keeps (hw := Field.sub_trans (by decide) hw)
    | with_reducible apply State.postGal_keeps (hw := Field.sub_trans (by decide) hw)
    | with_reducible apply State.post_keeps (hw := Field.sub_trans (by decide) hw)
    | with_reducible refine keeps_ite ?_ ?_
    | with_reducible refine keeps_ite_fst ?_ ?_
    | intro _
    | dsimp only
    | simp (disch := first | assumption | (with_unfolding_all (intro (x : Field) hx; cases x <;>
        first | exact absurd hx (by decide) | (dsimp only [Field.same]; done) | (dsimp only [Field.same]; exact ⟨rfl, rfl⟩)))) only [keeps_mk hw]
    | simp (disch := first | assumption | (with_unfolding_all (intro (x : Field) hx; cases x <;>
        first | exact absurd hx (by decide) | (dsimp only [Field.same]; done) | (dsimp only [Field.same]; exact ⟨rfl, rfl⟩)))) only [keeps_mk_adm hw]
    | split

theorem State.startReading_keeps {W : List Field} {s₀ s : State} (hk : s₀.Keeps W s) (hw : Field.sub [.regs] W = true) (h : Nat) :
    s₀.Keeps W (State.startReading s h) := by
  unfold State.startReading
  repeat' first
    | with_reducible assumption
    | with_reducible exact State.Keeps.refl _ _
    | with_reducible apply State.setFld_keeps (hw := Field.sub_trans (by decide) hw)
    | with_reducible refine keeps_ite ?_ ?_
    | with_reducible refine keeps_ite_fst ?_ ?_
    | intro _
    | dsimp only
    | split

theorem State.admRequest_keeps {W : List Field} {s₀ s : State} (hk : s₀.Keeps W s) (hw : Field.sub [.regs, .gals, .ev, .adm, .dom, .pwrCmd, .boot, .bist] W = true)
    (kind hall : Nat) (who : AdmFor) :
    s₀.Keeps W (s.admRequest kind hall who) := by
  unfold State.admRequest
  split
  · exact State.admTimedOut_keeps hk (Field.sub_trans (by decide) hw) kind hall who
  · split
    · exact State.admTimedOut_keeps (State.post_keeps hk (Field.sub_trans (by decide) hw) _ _ _ _) (Field.sub_trans (by decide) hw) kind hall who
    · rename_i hl
      exact State.startReading_keeps (hk.admPush (Field.mem_of_sub hw (by decide)) _ hl) (Field.sub_trans (by decide) hw) hall

end Sys2Proof.Machine
end

