-- ==== Sys2Proof/Laws/KeepsGwkState.lean ====
section
/-!
SUPPORT. Laws/KeepsGwkState.lean: the operations of Machine/GwkState.lean keep State.Keeps.
-/
namespace Sys2Proof.Machine
open Sys2Proof

theorem State.modGwk_keeps {W : List Field} {s₀ s : State} (hk : s₀.Keeps W s) (hw : Field.sub [.halls] W = true) (h : Nat) (f : Gwk →
    Gwk) : s₀.Keeps W (State.modGwk s h f) := by
  unfold State.modGwk
  repeat' first
    | with_reducible assumption
    | with_reducible exact State.Keeps.refl _ _
    | with_reducible apply State.modHall_keeps (hw := Field.sub_trans (by decide) hw)
    | with_reducible refine keeps_ite ?_ ?_
    | with_reducible refine keeps_ite_fst ?_ ?_
    | intro _
    | dsimp only
    | split

theorem State.modSrv_keeps {W : List Field} {s₀ s : State} (hk : s₀.Keeps W s) (hw : Field.sub [.halls] W = true) (h : Nat) (v : Nat) (f
    : GSrv → GSrv) : s₀.Keeps W (State.modSrv s h v f) := by
  unfold State.modSrv
  repeat' first
    | with_reducible assumption
    | with_reducible exact State.Keeps.refl _ _
    | with_reducible apply State.modGwk_keeps (hw := Field.sub_trans (by decide) hw)
    | with_reducible refine keeps_ite ?_ ?_
    | with_reducible refine keeps_ite_fst ?_ ?_
    | intro _
    | dsimp only
    | split

theorem State.setSrvState_keeps {W : List Field} {s₀ s : State} (hk : s₀.Keeps W s) (hw : Field.sub [.regs] W = true) (h : Nat) (v : Nat)
    (st : Nat) : s₀.Keeps W (State.setSrvState s h v st) := by
  unfold State.setSrvState
  repeat' first
    | with_reducible assumption
    | with_reducible exact State.Keeps.refl _ _
    | with_reducible apply State.setFld_keeps (hw := Field.sub_trans (by decide) hw)
    | with_reducible refine keeps_ite ?_ ?_
    | with_reducible refine keeps_ite_fst ?_ ?_
    | intro _
    | dsimp only
    | split

theorem State.flowSync_keeps {W : List Field} {s₀ s : State} (hk : s₀.Keeps W s) (hw : Field.sub [.regs] W = true) (h : Nat) (f : Nat) :
    s₀.Keeps W (State.flowSync s h f) := by
  unfold State.flowSync
  repeat' first
    | with_reducible assumption
    | with_reducible exact State.Keeps.refl _ _
    | with_reducible apply State.setFld_keeps (hw := Field.sub_trans (by decide) hw)
    | with_reducible refine keeps_ite ?_ ?_
    | with_reducible refine keeps_ite_fst ?_ ?_
    | intro _
    | dsimp only
    | split

theorem State.modFlow_keeps {W : List Field} {s₀ s : State} (hk : s₀.Keeps W s) (hw : Field.sub [.regs, .halls] W = true) (h : Nat) (f :
    Nat) (g : GFlow → GFlow) : s₀.Keeps W (State.modFlow s h f g) := by
  unfold State.modFlow
  repeat' first
    | with_reducible assumption
    | with_reducible exact State.Keeps.refl _ _
    | with_reducible apply State.flowSync_keeps (hw := Field.sub_trans (by decide) hw)
    | with_reducible apply State.modGwk_keeps (hw := Field.sub_trans (by decide) hw)
    | with_reducible refine keeps_ite ?_ ?_
    | with_reducible refine keeps_ite_fst ?_ ?_
    | intro _
    | dsimp only
    | split

theorem State.freeItems_keeps {W : List Field} {s₀ s : State} (hk : s₀.Keeps W s) (hw : Field.sub [.regs] W = true) (h : Nat) (n : Nat) :
    s₀.Keeps W (State.freeItems s h n) := by
  unfold State.freeItems
  repeat' first
    | with_reducible assumption
    | with_reducible exact State.Keeps.refl _ _
    | with_reducible apply State.setFld_keeps (hw := Field.sub_trans (by decide) hw)
    | with_reducible refine keeps_ite ?_ ?_
    | with_reducible refine keeps_ite_fst ?_ ?_
    | intro _
    | dsimp only
    | split

theorem State.delaySync_keeps {W : List Field} {s₀ s : State} (hk : s₀.Keeps W s) (hw : Field.sub [.regs] W = true) (h : Nat) : s₀.Keeps
    W (State.delaySync s h) := by
  unfold State.delaySync
  repeat' first
    | with_reducible assumption
    | with_reducible exact State.Keeps.refl _ _
    | with_reducible apply State.setFld_keeps (hw := Field.sub_trans (by decide) hw)
    | with_reducible refine keeps_ite ?_ ?_
    | with_reducible refine keeps_ite_fst ?_ ?_
    | intro _
    | dsimp only
    | split

theorem State.traceLost_keeps {W : List Field} {s₀ s : State} (hk : s₀.Keeps W s) (hw : Field.sub [.regs, .ev] W = true) (h : Nat) :
    s₀.Keeps W (State.traceLost s h) := by
  unfold State.traceLost
  repeat' first
    | with_reducible assumption
    | with_reducible exact State.Keeps.refl _ _
    | with_reducible apply State.incFld_keeps (hw := Field.sub_trans (by decide) hw)
    | with_reducible apply State.postLim_keeps (hw := Field.sub_trans (by decide) hw)
    | with_reducible refine keeps_ite ?_ ?_
    | with_reducible refine keeps_ite_fst ?_ ?_
    | intro _
    | dsimp only
    | split

theorem State.traceAdvance_keeps {W : List Field} {s₀ s : State} (hk : s₀.Keeps W s) (hw : Field.sub [.regs] W = true) (h : Nat) (n :
    Nat) : s₀.Keeps W (State.traceAdvance s h n) := by
  unfold State.traceAdvance
  repeat' first
    | with_reducible assumption
    | with_reducible exact State.Keeps.refl _ _
    | with_reducible apply State.setFld_keeps (hw := Field.sub_trans (by decide) hw)
    | with_reducible refine keeps_ite ?_ ?_
    | with_reducible refine keeps_ite_fst ?_ ?_
    | intro _
    | dsimp only
    | split

theorem State.gwkTrace_keeps {W : List Field} {s₀ s : State} (hk : s₀.Keeps W s) (hw : Field.sub [.regs, .halls, .ev, .net, .reqs,
    .seqNext, .free] W = true) (h : Nat) (flow : Nat) (cls : Nat) (target : Nat) (reason : Nat) (iseq : Nat) (arg : Nat) : s₀.Keeps W
    (State.gwkTrace s h flow cls target reason iseq arg) := by
  unfold State.gwkTrace
  repeat' first
    | with_reducible assumption
    | with_reducible exact State.Keeps.refl _ _
    | with_reducible apply State.traceAdvance_keeps (hw := Field.sub_trans (by decide) hw)
    | with_reducible apply State.modGwk_keeps (hw := Field.sub_trans (by decide) hw)
    | with_reducible apply State.traceLost_keeps (hw := Field.sub_trans (by decide) hw)
    | with_reducible apply State.draw_keeps (hw := Field.sub_trans (by decide) hw)
    | with_reducible apply State.send_keeps (hw := Field.sub_trans (by decide) hw)
    | with_reducible refine keeps_ite ?_ ?_
    | with_reducible refine keeps_ite_fst ?_ ?_
    | intro _
    | dsimp only
    | split

theorem State.showSrv_keeps {W : List Field} {s₀ s : State} (hk : s₀.Keeps W s) (hw : Field.sub [.regs, .halls] W = true) (h : Nat) (v :
    Nat) (st : Nat) (id : Nat) : s₀.Keeps W (State.showSrv s h v st id) := by
  unfold State.showSrv
  repeat' first
    | with_reducible assumption
    | with_reducible exact State.Keeps.refl _ _
    | with_reducible apply State.setFld_keeps (hw := Field.sub_trans (by decide) hw)
    | with_reducible apply State.modSrv_keeps (hw := Field.sub_trans (by decide) hw)
    | with_reducible refine keeps_ite ?_ ?_
    | with_reducible refine keeps_ite_fst ?_ ?_
    | intro _
    | dsimp only
    | split

theorem State.addServers_keeps {W : List Field} {s₀ s : State} (hk : s₀.Keeps W s) (hw : Field.sub [.regs, .halls, .ev, .net, .reqs,
    .seqNext, .free] W = true) (h : Nat) (g : Nat) : s₀.Keeps W (State.addServers s h g) := by
  unfold State.addServers
  repeat' first
    | with_reducible assumption
    | with_reducible exact State.Keeps.refl _ _
    | with_reducible apply State.showSrv_keeps (hw := Field.sub_trans (by decide) hw)
    | with_reducible apply State.setSrvState_keeps (hw := Field.sub_trans (by decide) hw)
    | with_reducible apply State.setReg_keeps (hw := Field.sub_trans (by decide) hw)
    | with_reducible apply State.modSrv_keeps (hw := Field.sub_trans (by decide) hw)
    | with_reducible apply State.setFld_keeps (hw := Field.sub_trans (by decide) hw)
    | with_reducible apply State.gwkTrace_keeps (hw := Field.sub_trans (by decide) hw)
    | with_reducible apply State.post_keeps (hw := Field.sub_trans (by decide) hw)
    | with_reducible refine keeps_ite ?_ ?_
    | with_reducible refine keeps_ite_fst ?_ ?_
    | with_reducible refine keeps_foldl _ _ ?_ ?_
    | with_reducible refine keeps_foldl_fst _ _ ?_ ?_
    | intro _
    | dsimp only
    | split

theorem State.addServersIf_keeps {W : List Field} {s₀ s : State} (hk : s₀.Keeps W s) (hw : Field.sub [.regs, .halls, .ev, .net, .reqs,
    .seqNext, .free] W = true) (h : Nat) (g : Nat) : s₀.Keeps W (State.addServersIf s h g) := by
  unfold State.addServersIf
  repeat' first
    | with_reducible assumption
    | with_reducible exact State.Keeps.refl _ _
    | with_reducible apply State.addServers_keeps (hw := Field.sub_trans (by decide) hw)
    | with_reducible refine keeps_ite ?_ ?_
    | with_reducible refine keeps_ite_fst ?_ ?_
    | intro _
    | dsimp only
    | split

end Sys2Proof.Machine
end

