-- ==== Sys2Proof/Laws/KeepsGallery.lean ====
section
/-!
SUPPORT. Laws/KeepsGallery.lean: the operations of Machine/Gallery.lean keep State.Keeps.
-/
namespace Sys2Proof.Machine
open Sys2Proof

theorem State.storeState_keeps {W : List Field} {s₀ s : State} (hk : s₀.Keeps W s) (hw : Field.sub [.gals] W = true) (G : Nat) (p : Nat)
    : s₀.Keeps W (State.storeState s G p) := by
  unfold State.storeState
  repeat' first
    | with_reducible assumption
    | with_reducible exact State.Keeps.refl _ _
    | with_reducible apply State.modGal_keeps (hw := Field.sub_trans (by decide) hw)
    | with_reducible refine keeps_ite ?_ ?_
    | with_reducible refine keeps_ite_fst ?_ ?_
    | intro _
    | dsimp only
    | split

theorem State.loadState_keeps {W : List Field} {s₀ s : State} (hk : s₀.Keeps W s) (hw : Field.sub [.gals] W = true) (G : Nat) (q : Nat) :
    s₀.Keeps W (State.loadState s G q) := by
  unfold State.loadState
  repeat' first
    | with_reducible assumption
    | with_reducible exact State.Keeps.refl _ _
    | with_reducible apply State.modGal_keeps (hw := Field.sub_trans (by decide) hw)
    | with_reducible refine keeps_ite ?_ ?_
    | with_reducible refine keeps_ite_fst ?_ ?_
    | intro _
    | dsimp only
    | split

theorem State.initState_keeps {W : List Field} {s₀ s : State} (hk : s₀.Keeps W s) (hw : Field.sub [.gals] W = true) (G : Nat) (q : Nat) :
    s₀.Keeps W (State.initState s G q) := by
  unfold State.initState
  repeat' first
    | with_reducible assumption
    | with_reducible exact State.Keeps.refl _ _
    | with_reducible apply State.modGal_keeps (hw := Field.sub_trans (by decide) hw)
    | with_reducible refine keeps_ite ?_ ?_
    | with_reducible refine keeps_ite_fst ?_ ?_
    | intro _
    | dsimp only
    | split

theorem State.initShadow_keeps {W : List Field} {s₀ s : State} (hk : s₀.Keeps W s) (hw : Field.sub [.gals] W = true) (G : Nat) (q : Nat)
    : s₀.Keeps W (State.initShadow s G q) := by
  unfold State.initShadow
  repeat' first
    | with_reducible assumption
    | with_reducible exact State.Keeps.refl _ _
    | with_reducible apply State.modGal_keeps (hw := Field.sub_trans (by decide) hw)
    | with_reducible refine keeps_ite ?_ ?_
    | with_reducible refine keeps_ite_fst ?_ ?_
    | intro _
    | dsimp only
    | split

theorem State.captureBits_keeps {W : List Field} {s₀ s : State} (hk : s₀.Keeps W s) (hw : Field.sub [.gals, .free] W = true) (G : Nat) (m
    : FabricBits) (idle : FabricBits) : s₀.Keeps W (State.captureBits s G m idle) := by
  unfold State.captureBits
  repeat' first
    | with_reducible assumption
    | with_reducible exact State.Keeps.refl _ _
    | with_reducible apply State.draw_keeps (hw := Field.sub_trans (by decide) hw)
    | with_reducible apply State.modGal_keeps (hw := Field.sub_trans (by decide) hw)
    | with_reducible refine keeps_ite ?_ ?_
    | with_reducible refine keeps_ite_fst ?_ ?_
    | intro _
    | dsimp only
    | split

theorem State.captureResumes_keeps {W : List Field} {s₀ s : State} (hk : s₀.Keeps W s) (hw : Field.sub [.gals, .free] W = true) (G : Nat)
    : s₀.Keeps W (State.captureResumes s G) := by
  unfold State.captureResumes
  repeat' first
    | with_reducible assumption
    | with_reducible exact State.Keeps.refl _ _
    | with_reducible apply State.captureBits_keeps (hw := Field.sub_trans (by decide) hw)
    | with_reducible refine keeps_ite ?_ ?_
    | with_reducible refine keeps_ite_fst ?_ ?_
    | intro _
    | dsimp only
    | split

theorem State.branchCaptures_keeps {W : List Field} {s₀ s : State} (hk : s₀.Keeps W s) (hw : Field.sub [.gals, .free] W = true) (G : Nat)
    (n : Nat) : s₀.Keeps W (State.branchCaptures s G n) := by
  unfold State.branchCaptures
  repeat' first
    | with_reducible assumption
    | with_reducible exact State.Keeps.refl _ _
    | with_reducible apply State.captureBits_keeps (hw := Field.sub_trans (by decide) hw)
    | with_reducible refine keeps_ite ?_ ?_
    | with_reducible refine keeps_ite_fst ?_ ?_
    | intro _
    | dsimp only
    | split

theorem State.setTrackOff_keeps {W : List Field} {s₀ s : State} (hk : s₀.Keeps W s) (hw : Field.sub [.regs] W = true) (h : Nat) (n : Nat)
    (b : Bool) : s₀.Keeps W (State.setTrackOff s h n b) := by
  unfold State.setTrackOff
  repeat' first
    | with_reducible assumption
    | with_reducible exact State.Keeps.refl _ _
    | with_reducible apply State.setFldBit_keeps (hw := Field.sub_trans (by decide) hw)
    | with_reducible refine keeps_ite ?_ ?_
    | with_reducible refine keeps_ite_fst ?_ ?_
    | intro _
    | dsimp only
    | split

theorem State.lockTrack_keeps {W : List Field} {s₀ s : State} (hk : s₀.Keeps W s) (hw : Field.sub [.regs, .halls, .ev] W = true) (h :
    Nat) (n : Nat) : s₀.Keeps W (State.lockTrack s h n) := by
  unfold State.lockTrack
  repeat' first
    | with_reducible assumption
    | with_reducible exact State.Keeps.refl _ _
    | with_reducible apply State.post_keeps (hw := Field.sub_trans (by decide) hw)
    | with_reducible apply State.modHall_keeps (hw := Field.sub_trans (by decide) hw)
    | with_reducible refine keeps_ite ?_ ?_
    | with_reducible refine keeps_ite_fst ?_ ?_
    | intro _
    | dsimp only
    | split

theorem State.mezzContention_keeps {W : List Field} {s₀ s : State} (hk : s₀.Keeps W s) (hw : Field.sub [.regs, .halls, .ev] W = true) (h
    : Nat) (n : Nat) (g1 : Nat) (g2 : Nat) : s₀.Keeps W (State.mezzContention s h n g1 g2) := by
  unfold State.mezzContention
  repeat' first
    | with_reducible assumption
    | with_reducible exact State.Keeps.refl _ _
    | with_reducible apply State.setTrackOff_keeps (hw := Field.sub_trans (by decide) hw)
    | with_reducible apply State.incFld_keeps (hw := Field.sub_trans (by decide) hw)
    | with_reducible apply State.post_keeps (hw := Field.sub_trans (by decide) hw)
    | with_reducible apply State.modHall_keeps (hw := Field.sub_trans (by decide) hw)
    | with_reducible apply State.lockTrack_keeps (hw := Field.sub_trans (by decide) hw)
    | with_reducible refine keeps_ite ?_ ?_
    | with_reducible refine keeps_ite_fst ?_ ?_
    | intro _
    | dsimp only
    | split

theorem State.rearmTrack_keeps {W : List Field} {s₀ s : State} (hk : s₀.Keeps W s) (hw : Field.sub [.regs, .halls] W = true) (h : Nat) (n
    : Nat) : s₀.Keeps W (State.rearmTrack s h n) := by
  unfold State.rearmTrack
  repeat' first
    | with_reducible assumption
    | with_reducible exact State.Keeps.refl _ _
    | with_reducible apply State.modHall_keeps (hw := Field.sub_trans (by decide) hw)
    | with_reducible apply State.setTrackOff_keeps (hw := Field.sub_trans (by decide) hw)
    | with_reducible refine keeps_ite ?_ ?_
    | with_reducible refine keeps_ite_fst ?_ ?_
    | intro _
    | dsimp only
    | split

theorem State.mezzRearmed_keeps {W : List Field} {s₀ s : State} (hk : s₀.Keeps W s) (hw : Field.sub [.regs, .halls, .ev] W = true) (h :
    Nat) (n : Nat) : s₀.Keeps W (State.mezzRearmed s h n) := by
  unfold State.mezzRearmed
  repeat' first
    | with_reducible assumption
    | with_reducible exact State.Keeps.refl _ _
    | with_reducible apply State.post_keeps (hw := Field.sub_trans (by decide) hw)
    | with_reducible apply State.rearmTrack_keeps (hw := Field.sub_trans (by decide) hw)
    | with_reducible apply State.lockTrack_keeps (hw := Field.sub_trans (by decide) hw)
    | with_reducible refine keeps_ite ?_ ?_
    | with_reducible refine keeps_ite_fst ?_ ?_
    | intro _
    | dsimp only
    | split

theorem State.mezzOffBit_keeps {W : List Field} {s₀ s : State} (hk : s₀.Keeps W s) (hw : Field.sub [.regs, .halls] W = true) (h : Nat) (n
    : Nat) : s₀.Keeps W (State.mezzOffBit s h n) := by
  unfold State.mezzOffBit
  repeat' first
    | with_reducible assumption
    | with_reducible exact State.Keeps.refl _ _
    | with_reducible apply State.rearmTrack_keeps (hw := Field.sub_trans (by decide) hw)
    | with_reducible refine keeps_ite ?_ ?_
    | with_reducible refine keeps_ite_fst ?_ ?_
    | intro _
    | dsimp only
    | split

theorem State.mezzOffWrite_keeps {W : List Field} {s₀ s : State} (hk : s₀.Keeps W s) (hw : Field.sub [.regs, .halls] W = true) (h : Nat)
    (j : Nat) (v : Word) : s₀.Keeps W (State.mezzOffWrite s h j v) := by
  unfold State.mezzOffWrite
  repeat' first
    | with_reducible assumption
    | with_reducible exact State.Keeps.refl _ _
    | with_reducible apply State.mezzOffBit_keeps (hw := Field.sub_trans (by decide) hw)
    | with_reducible refine keeps_ite ?_ ?_
    | with_reducible refine keeps_ite_fst ?_ ?_
    | with_reducible refine keeps_foldl _ _ ?_ ?_
    | with_reducible refine keeps_foldl_fst _ _ ?_ ?_
    | intro _
    | dsimp only
    | split

theorem State.holdBorders_keeps {W : List Field} {s₀ s : State} (hk : s₀.Keeps W s) (hw : Field.sub [.gals, .free] W = true) (G : Nat) :
    s₀.Keeps W (State.holdBorders s G) := by
  unfold State.holdBorders
  repeat' first
    | with_reducible assumption
    | with_reducible exact State.Keeps.refl _ _
    | with_reducible apply State.draw_keeps (hw := Field.sub_trans (by decide) hw)
    | with_reducible apply State.modGal_keeps (hw := Field.sub_trans (by decide) hw)
    | with_reducible refine keeps_ite ?_ ?_
    | with_reducible refine keeps_ite_fst ?_ ?_
    | intro _
    | dsimp only
    | split

theorem State.contextEdge_keeps {W : List Field} {s₀ s : State} (hk : s₀.Keeps W s) (hw : Field.sub [.regs, .gals, .halls, .ev, .net,
    .reqs, .seqNext, .free] W = true) (G : Nat) : s₀.Keeps W (State.contextEdge s G) := by
  unfold State.contextEdge
  repeat' first
    | with_reducible assumption
    | with_reducible exact State.Keeps.refl _ _
    | with_reducible apply State.setFld_keeps (hw := Field.sub_trans (by decide) hw)
    | with_reducible apply State.addServersIf_keeps (hw := Field.sub_trans (by decide) hw)
    | with_reducible apply State.modGal_keeps (hw := Field.sub_trans (by decide) hw)
    | with_reducible refine keeps_ite ?_ ?_
    | with_reducible refine keeps_ite_fst ?_ ?_
    | intro _
    | dsimp only
    | split

theorem State.branchUpdate_keeps {W : List Field} {s₀ s : State} (hk : s₀.Keeps W s) (hw : Field.sub [.regs, .gals, .halls, .ev, .net,
    .reqs, .seqNext, .free] W = true) (G : Nat) (n : Nat) : s₀.Keeps W (State.branchUpdate s G n) := by
  unfold State.branchUpdate
  repeat' first
    | with_reducible assumption
    | with_reducible exact State.Keeps.refl _ _
    | with_reducible apply State.setFldBit_keeps (hw := Field.sub_trans (by decide) hw)
    | with_reducible apply State.contextEdge_keeps (hw := Field.sub_trans (by decide) hw)
    | with_reducible apply State.branchCaptures_keeps (hw := Field.sub_trans (by decide) hw)
    | with_reducible refine keeps_ite ?_ ?_
    | with_reducible refine keeps_ite_fst ?_ ?_
    | intro _
    | dsimp only
    | split

theorem State.branchesUpdate_keeps {W : List Field} {s₀ s : State} (hk : s₀.Keeps W s) (hw : Field.sub [.regs, .gals, .halls, .ev, .net,
    .reqs, .seqNext, .free] W = true) (G : Nat) : s₀.Keeps W (State.branchesUpdate s G) := by
  unfold State.branchesUpdate
  repeat' first
    | with_reducible assumption
    | with_reducible exact State.Keeps.refl _ _
    | with_reducible apply State.branchUpdate_keeps (hw := Field.sub_trans (by decide) hw)
    | with_reducible refine keeps_ite ?_ ?_
    | with_reducible refine keeps_ite_fst ?_ ?_
    | with_reducible refine keeps_foldl _ _ ?_ ?_
    | with_reducible refine keeps_foldl_fst _ _ ?_ ?_
    | intro _
    | dsimp only
    | split

theorem State.galClockCheck_keeps {W : List Field} {s₀ s : State} (hk : s₀.Keeps W s) (hw : Field.sub [.regs, .gals, .halls, .ev, .net,
    .reqs, .seqNext, .free] W = true) (G : Nat) : s₀.Keeps W (State.galClockCheck s G) := by
  unfold State.galClockCheck
  repeat' first
    | with_reducible assumption
    | with_reducible exact State.Keeps.refl _ _
    | with_reducible apply State.branchesUpdate_keeps (hw := Field.sub_trans (by decide) hw)
    | with_reducible apply State.modGal_keeps (hw := Field.sub_trans (by decide) hw)
    | with_reducible apply State.holdBorders_keeps (hw := Field.sub_trans (by decide) hw)
    | with_reducible refine keeps_ite ?_ ?_
    | with_reducible refine keeps_ite_fst ?_ ?_
    | intro _
    | dsimp only
    | split

theorem State.hallClockCheck_keeps {W : List Field} {s₀ s : State} (hk : s₀.Keeps W s) (hw : Field.sub [.regs, .gals, .halls, .ev, .net,
    .reqs, .seqNext, .free] W = true) (h : Nat) : s₀.Keeps W (State.hallClockCheck s h) := by
  unfold State.hallClockCheck
  repeat' first
    | with_reducible assumption
    | with_reducible exact State.Keeps.refl _ _
    | with_reducible apply State.galClockCheck_keeps (hw := Field.sub_trans (by decide) hw)
    | with_reducible refine keeps_ite ?_ ?_
    | with_reducible refine keeps_ite_fst ?_ ?_
    | with_reducible refine keeps_foldl _ _ ?_ ?_
    | with_reducible refine keeps_foldl_fst _ _ ?_ ?_
    | intro _
    | dsimp only
    | split

theorem State.switchStarts_keeps {W : List Field} {s₀ s : State} (hk : s₀.Keeps W s) (hw : Field.sub [.regs, .gals, .halls, .ev, .net,
    .reqs, .seqNext, .free] W = true) (G : Nat) : s₀.Keeps W (State.switchStarts s G) := by
  unfold State.switchStarts
  repeat' first
    | with_reducible assumption
    | with_reducible exact State.Keeps.refl _ _
    | with_reducible apply State.branchesUpdate_keeps (hw := Field.sub_trans (by decide) hw)
    | with_reducible refine keeps_ite ?_ ?_
    | with_reducible refine keeps_ite_fst ?_ ?_
    | intro _
    | dsimp only
    | split

theorem State.galClkselWrite_keeps {W : List Field} {s₀ s : State} (hk : s₀.Keeps W s) (hw : Field.sub [.regs, .gals, .halls, .ev, .net,
    .reqs, .seqNext, .free] W = true) (G : Nat) (n : Nat) (v : Word) : s₀.Keeps W (State.galClkselWrite s G n v) := by
  unfold State.galClkselWrite
  repeat' first
    | with_reducible assumption
    | with_reducible exact State.Keeps.refl _ _
    | with_reducible apply State.writeFields_keeps (hw := Field.sub_trans (by decide) hw)
    | with_reducible apply State.setFldBit_keeps (hw := Field.sub_trans (by decide) hw)
    | with_reducible apply State.branchUpdate_keeps (hw := Field.sub_trans (by decide) hw)
    | with_reducible refine keeps_ite ?_ ?_
    | with_reducible refine keeps_ite_fst ?_ ?_
    | intro _
    | dsimp only
    | split

theorem State.galClkSwitchDone_keeps {W : List Field} {s₀ s : State} (hk : s₀.Keeps W s) (hw : Field.sub [.regs, .gals, .halls, .ev,
    .net, .reqs, .seqNext, .free] W = true) (G : Nat) (n : Nat) : s₀.Keeps W (State.galClkSwitchDone s G n) := by
  unfold State.galClkSwitchDone
  repeat' first
    | with_reducible assumption
    | with_reducible exact State.Keeps.refl _ _
    | with_reducible apply State.branchUpdate_keeps (hw := Field.sub_trans (by decide) hw)
    | with_reducible apply State.setFldBit_keeps (hw := Field.sub_trans (by decide) hw)
    | with_reducible refine keeps_ite ?_ ?_
    | with_reducible refine keeps_ite_fst ?_ ?_
    | intro _
    | dsimp only
    | split

theorem State.deliverIP_keeps {W : List Field} {s₀ s : State} (hk : s₀.Keeps W s) (hw : Field.sub [.gals] W = true) (G : Nat) (plane :
    Nat) (r : Packet) : s₀.Keeps W (State.deliverIP s G plane r) := by
  unfold State.deliverIP
  repeat' first
    | with_reducible assumption
    | with_reducible exact State.Keeps.refl _ _
    | with_reducible apply State.modGal_keeps (hw := Field.sub_trans (by decide) hw)
    | with_reducible refine keeps_ite ?_ ?_
    | with_reducible refine keeps_ite_fst ?_ ?_
    | intro _
    | dsimp only
    | split

theorem State.bmaskWrite_keeps {W : List Field} {s₀ s : State} (hk : s₀.Keeps W s) (hw : Field.sub [.regs, .gals] W = true) (G : Nat) (p
    : Nat) (v : Word) : s₀.Keeps W (State.bmaskWrite s G p v) := by
  unfold State.bmaskWrite
  repeat' first
    | with_reducible assumption
    | with_reducible exact State.Keeps.refl _ _
    | with_reducible apply State.writeFields_keeps (hw := Field.sub_trans (by decide) hw)
    | with_reducible apply State.modGal_keeps (hw := Field.sub_trans (by decide) hw)
    | with_reducible refine keeps_ite ?_ ?_
    | with_reducible refine keeps_ite_fst ?_ ?_
    | intro _
    | dsimp only
    | split

theorem State.bankDenied_keeps {W : List Field} {s₀ s : State} (hk : s₀.Keeps W s) (hw : Field.sub [.regs, .ev] W = true) (G : Nat) (p :
    Nat) (bank : Nat) (path : Nat) : s₀.Keeps W (State.bankDenied s G p bank path) := by
  unfold State.bankDenied
  repeat' first
    | with_reducible assumption
    | with_reducible exact State.Keeps.refl _ _
    | with_reducible apply State.postLim_keeps (hw := Field.sub_trans (by decide) hw)
    | with_reducible apply State.incFld_keeps (hw := Field.sub_trans (by decide) hw)
    | with_reducible refine keeps_ite ?_ ?_
    | with_reducible refine keeps_ite_fst ?_ ?_
    | intro _
    | dsimp only
    | split

theorem State.epSend_keeps {W : List Field} {s₀ s : State} (hk : s₀.Keeps W s) (hw : Field.sub [.gals, .net, .reqs, .seqNext] W = true)
    (G : Nat) (p : Nat) (r : Packet) : s₀.Keeps W (State.epSend s G p r) := by
  unfold State.epSend
  repeat' first
    | with_reducible assumption
    | with_reducible exact State.Keeps.refl _ _
    | with_reducible apply State.send_keeps (hw := Field.sub_trans (by decide) hw)
    | with_reducible apply State.modGal_keeps (hw := Field.sub_trans (by decide) hw)
    | with_reducible refine keeps_ite ?_ ?_
    | with_reducible refine keeps_ite_fst ?_ ?_
    | intro _
    | dsimp only
    | split

theorem State.epBanked_keeps {W : List Field} {s₀ s : State} (hk : s₀.Keeps W s) (hw : Field.sub [.regs, .gals, .ev, .net, .reqs,
    .seqNext] W = true) (G : Nat) (p : Nat) (r : Packet) (bank : Option Nat) : s₀.Keeps W (State.epBanked s G p r bank) := by
  unfold State.epBanked
  repeat' first
    | with_reducible assumption
    | with_reducible exact State.Keeps.refl _ _
    | with_reducible apply State.deliverIP_keeps (hw := Field.sub_trans (by decide) hw)
    | with_reducible apply State.bankDenied_keeps (hw := Field.sub_trans (by decide) hw)
    | with_reducible apply State.epSend_keeps (hw := Field.sub_trans (by decide) hw)
    | with_reducible refine keeps_ite ?_ ?_
    | with_reducible refine keeps_ite_fst ?_ ?_
    | intro _
    | dsimp only
    | split

theorem State.epRouted_keeps {W : List Field} {s₀ s : State} (hk : s₀.Keeps W s) (hw : Field.sub [.regs, .gals, .ev, .net, .reqs,
    .seqNext] W = true) (G : Nat) (p : Nat) (r : Packet) : s₀.Keeps W (State.epRouted s G p r) := by
  unfold State.epRouted
  repeat' first
    | with_reducible assumption
    | with_reducible exact State.Keeps.refl _ _
    | with_reducible apply State.epBanked_keeps (hw := Field.sub_trans (by decide) hw)
    | with_reducible refine keeps_ite ?_ ?_
    | with_reducible refine keeps_ite_fst ?_ ?_
    | intro _
    | dsimp only
    | split

theorem State.epActs_keeps {W : List Field} {s₀ s : State} (hk : s₀.Keeps W s) (hw : Field.sub [.regs, .gals, .ev, .net, .reqs, .seqNext]
    W = true) (G : Nat) (p : Nat) (vc : Nat) (r : Packet) : s₀.Keeps W (State.epActs s G p vc r) := by
  unfold State.epActs
  repeat' first
    | with_reducible assumption
    | with_reducible exact State.Keeps.refl _ _
    | with_reducible apply State.postGal_keeps (hw := Field.sub_trans (by decide) hw)
    | with_reducible apply State.incFld_keeps (hw := Field.sub_trans (by decide) hw)
    | with_reducible apply State.deliverIP_keeps (hw := Field.sub_trans (by decide) hw)
    | with_reducible apply State.epRouted_keeps (hw := Field.sub_trans (by decide) hw)
    | with_reducible apply State.epSend_keeps (hw := Field.sub_trans (by decide) hw)
    | with_reducible refine keeps_ite ?_ ?_
    | with_reducible refine keeps_ite_fst ?_ ?_
    | intro _
    | dsimp only
    | split

theorem State.epTaken_keeps {W : List Field} {s₀ s : State} (hk : s₀.Keeps W s) (hw : Field.sub [.regs, .gals, .ev, .net, .reqs,
    .seqNext] W = true) (G : Nat) (p : Nat) (vc : Nat) (m : Word) (q : Packet) : s₀.Keeps W (State.epTaken s G p vc m q) := by
  unfold State.epTaken
  repeat' first
    | with_reducible assumption
    | with_reducible exact State.Keeps.refl _ _
    | with_reducible apply State.epActs_keeps (hw := Field.sub_trans (by decide) hw)
    | with_reducible refine keeps_ite ?_ ?_
    | with_reducible refine keeps_ite_fst ?_ ?_
    | intro _
    | dsimp only
    | split

theorem State.epRequest_keeps {W : List Field} {s₀ s : State} (hk : s₀.Keeps W s) (hw : Field.sub [.regs, .gals, .halls, .ev, .net,
    .reqs, .seqNext, .free] W = true) (G : Nat) (vc : Nat) (last : Bool) (q : Packet) : s₀.Keeps W (State.epRequest s G vc last q) := by
  unfold State.epRequest
  repeat' first
    | with_reducible assumption
    | with_reducible exact State.Keeps.refl _ _
    | with_reducible apply State.epTaken_keeps (hw := Field.sub_trans (by decide) hw)
    | with_reducible apply State.modGal_keeps (hw := Field.sub_trans (by decide) hw)
    | with_reducible apply State.switchStarts_keeps (hw := Field.sub_trans (by decide) hw)
    | with_reducible refine keeps_ite ?_ ?_
    | with_reducible refine keeps_ite_fst ?_ ?_
    | intro _
    | dsimp only
    | split

theorem State.dnDone_keeps {W : List Field} {s₀ s : State} (hk : s₀.Keeps W s) (hw : Field.sub [.gals, .net, .reqs, .seqNext] W = true)
    (G : Nat) (status : Nat) : s₀.Keeps W (State.dnDone s G status) := by
  unfold State.dnDone
  repeat' first
    | with_reducible assumption
    | with_reducible exact State.Keeps.refl _ _
    | with_reducible apply State.send_keeps (hw := Field.sub_trans (by decide) hw)
    | with_reducible apply State.modGal_keeps (hw := Field.sub_trans (by decide) hw)
    | with_reducible refine keeps_ite ?_ ?_
    | with_reducible refine keeps_ite_fst ?_ ?_
    | intro _
    | dsimp only
    | split

theorem State.eqAnswered_keeps {W : List Field} {s₀ s : State} (hk : s₀.Keeps W s) (hw : Field.sub [.gals] W = true) (G : Nat) (p : Nat)
    (tag : Nat) (st : Nat) : s₀.Keeps W (State.eqAnswered s G p tag st) := by
  unfold State.eqAnswered
  repeat' first
    | with_reducible assumption
    | with_reducible exact State.Keeps.refl _ _
    | with_reducible apply State.modGal_keeps (hw := Field.sub_trans (by decide) hw)
    | with_reducible refine keeps_ite ?_ ?_
    | with_reducible refine keeps_ite_fst ?_ ?_
    | intro _
    | dsimp only
    | split

theorem State.eqEnqueue_keeps {W : List Field} {s₀ s : State} (hk : s₀.Keeps W s) (hw : Field.sub [.gals, .net, .reqs, .seqNext] W =
    true) (G : Nat) (desc : BitVec 256) : s₀.Keeps W (State.eqEnqueue s G desc) := by
  unfold State.eqEnqueue
  repeat' first
    | with_reducible assumption
    | with_reducible exact State.Keeps.refl _ _
    | with_reducible apply State.eqAnswered_keeps (hw := Field.sub_trans (by decide) hw)
    | with_reducible apply State.send_keeps (hw := Field.sub_trans (by decide) hw)
    | with_reducible apply State.modGal_keeps (hw := Field.sub_trans (by decide) hw)
    | with_reducible refine keeps_ite ?_ ?_
    | with_reducible refine keeps_ite_fst ?_ ?_
    | intro _
    | dsimp only
    | split

theorem State.msgAccept_keeps {W : List Field} {s₀ s : State} (hk : s₀.Keeps W s) (hw : Field.sub [.gals, .net, .reqs, .seqNext] W =
    true) (G : Nat) (last : Bool) : s₀.Keeps W (State.msgAccept s G last) := by
  unfold State.msgAccept
  repeat' first
    | with_reducible assumption
    | with_reducible exact State.Keeps.refl _ _
    | with_reducible apply State.respond_keeps (hw := Field.sub_trans (by decide) hw)
    | with_reducible apply State.modGal_keeps (hw := Field.sub_trans (by decide) hw)
    | with_reducible refine keeps_ite ?_ ?_
    | with_reducible refine keeps_ite_fst ?_ ?_
    | intro _
    | dsimp only
    | split

theorem State.itAccept_keeps {W : List Field} {s₀ s : State} (hk : s₀.Keeps W s) (hw : Field.sub [.gals] W = true) (G : Nat) : s₀.Keeps W
    (State.itAccept s G) := by
  unfold State.itAccept
  repeat' first
    | with_reducible assumption
    | with_reducible exact State.Keeps.refl _ _
    | with_reducible apply State.modGal_keeps (hw := Field.sub_trans (by decide) hw)
    | with_reducible refine keeps_ite ?_ ?_
    | with_reducible refine keeps_ite_fst ?_ ?_
    | intro _
    | dsimp only
    | split

theorem State.galRst_keeps {W : List Field} {s₀ s : State} (hk : s₀.Keeps W s) (hw : Field.sub [.regs] W = true) (G : Nat) (v : Word) :
    s₀.Keeps W (State.galRst s G v) := by
  unfold State.galRst
  repeat' first
    | with_reducible assumption
    | with_reducible exact State.Keeps.refl _ _
    | with_reducible apply State.setFld_keeps (hw := Field.sub_trans (by decide) hw)
    | with_reducible refine keeps_ite ?_ ?_
    | with_reducible refine keeps_ite_fst ?_ ?_
    | intro _
    | dsimp only
    | split

theorem State.resetShadows_keeps {W : List Field} {s₀ s : State} (hk : s₀.Keeps W s) (hw : Field.sub [.gals] W = true) (G : Nat) (p :
    Nat) : s₀.Keeps W (State.resetShadows s G p) := by
  unfold State.resetShadows
  repeat' first
    | with_reducible assumption
    | with_reducible exact State.Keeps.refl _ _
    | with_reducible apply State.modGal_keeps (hw := Field.sub_trans (by decide) hw)
    | with_reducible refine keeps_ite ?_ ?_
    | with_reducible refine keeps_ite_fst ?_ ?_
    | with_reducible refine keeps_foldl _ _ ?_ ?_
    | with_reducible refine keeps_foldl_fst _ _ ?_ ?_
    | intro _
    | dsimp only
    | split

theorem State.resetFabric_keeps {W : List Field} {s₀ s : State} (hk : s₀.Keeps W s) (hw : Field.sub [.gals] W = true) (G : Nat) :
    s₀.Keeps W (State.resetFabric s G) := by
  unfold State.resetFabric
  repeat' first
    | with_reducible assumption
    | with_reducible exact State.Keeps.refl _ _
    | with_reducible apply State.resetShadows_keeps (hw := Field.sub_trans (by decide) hw)
    | with_reducible apply State.modGal_keeps (hw := Field.sub_trans (by decide) hw)
    | with_reducible refine keeps_ite ?_ ?_
    | with_reducible refine keeps_ite_fst ?_ ?_
    | intro _
    | dsimp only
    | split

theorem State.resetItems_keeps {W : List Field} {s₀ s : State} (hk : s₀.Keeps W s) (hw : Field.sub [.gals, .net, .reqs, .seqNext] W =
    true) (G : Nat) : s₀.Keeps W (State.resetItems s G) := by
  unfold State.resetItems
  repeat' first
    | with_reducible assumption
    | with_reducible exact State.Keeps.refl _ _
    | with_reducible apply State.send_keeps (hw := Field.sub_trans (by decide) hw)
    | with_reducible apply State.modGal_keeps (hw := Field.sub_trans (by decide) hw)
    | with_reducible refine keeps_ite ?_ ?_
    | with_reducible refine keeps_ite_fst ?_ ?_
    | with_reducible refine keeps_foldl _ _ ?_ ?_
    | with_reducible refine keeps_foldl_fst _ _ ?_ ?_
    | intro _
    | dsimp only
    | split

theorem State.galResetEdge_keeps {W : List Field} {s₀ s : State} (hk : s₀.Keeps W s) (hw : Field.sub [.regs, .gals, .halls, .ev, .net,
    .reqs, .seqNext, .free] W = true) (G : Nat) : s₀.Keeps W (State.galResetEdge s G) := by
  unfold State.galResetEdge
  repeat' first
    | with_reducible assumption
    | with_reducible exact State.Keeps.refl _ _
    | with_reducible apply State.setFld_keeps (hw := Field.sub_trans (by decide) hw)
    | with_reducible apply State.switchStarts_keeps (hw := Field.sub_trans (by decide) hw)
    | with_reducible apply State.modGal_keeps (hw := Field.sub_trans (by decide) hw)
    | with_reducible apply State.resetItems_keeps (hw := Field.sub_trans (by decide) hw)
    | with_reducible apply State.resetFabric_keeps (hw := Field.sub_trans (by decide) hw)
    | with_reducible apply State.holdBorders_keeps (hw := Field.sub_trans (by decide) hw)
    | with_reducible refine keeps_ite ?_ ?_
    | with_reducible refine keeps_ite_fst ?_ ?_
    | intro _
    | dsimp only
    | split

theorem State.galResetRelease_keeps {W : List Field} {s₀ s : State} (hk : s₀.Keeps W s) (hw : Field.sub [.gals] W = true) (G : Nat) :
    s₀.Keeps W (State.galResetRelease s G) := by
  unfold State.galResetRelease
  repeat' first
    | with_reducible assumption
    | with_reducible exact State.Keeps.refl _ _
    | with_reducible apply State.modGal_keeps (hw := Field.sub_trans (by decide) hw)
    | with_reducible refine keeps_ite ?_ ?_
    | with_reducible refine keeps_ite_fst ?_ ?_
    | intro _
    | dsimp only
    | split

theorem State.galResetDone_keeps {W : List Field} {s₀ s : State} (hk : s₀.Keeps W s) (hw : Field.sub [.regs, .gals, .halls, .ev, .net,
    .reqs, .seqNext, .free] W = true) (G : Nat) : s₀.Keeps W (State.galResetDone s G) := by
  unfold State.galResetDone
  repeat' first
    | with_reducible assumption
    | with_reducible exact State.Keeps.refl _ _
    | with_reducible apply State.modGal_keeps (hw := Field.sub_trans (by decide) hw)
    | with_reducible apply State.setFld_keeps (hw := Field.sub_trans (by decide) hw)
    | with_reducible apply State.incFld_keeps (hw := Field.sub_trans (by decide) hw)
    | with_reducible apply State.switchStarts_keeps (hw := Field.sub_trans (by decide) hw)
    | with_reducible apply State.captureResumes_keeps (hw := Field.sub_trans (by decide) hw)
    | with_reducible apply State.postGal_keeps (hw := Field.sub_trans (by decide) hw)
    | with_reducible refine keeps_ite ?_ ?_
    | with_reducible refine keeps_ite_fst ?_ ?_
    | intro _
    | dsimp only
    | split

theorem execMezzContention_keeps {s : State} (h : HallIx) (track : Fin 5120) (g1 : Fin 32) (g2 : Fin 32) : ∃ nx, execMezzContention h
    track g1 g2 s = .next nx ∧ s.Keeps [.regs, .halls, .ev] nx := by
  have hw : Field.sub [.regs, .halls, .ev] [.regs, .halls, .ev] = true := by decide
  refine ⟨_, rfl, ?_⟩
  have hk := State.Keeps.refl [.regs, .halls, .ev] s
  repeat' first
    | with_reducible assumption
    | with_reducible exact State.Keeps.refl _ _
    | with_reducible apply State.mezzContention_keeps (hw := Field.sub_trans (by decide) hw)
    | with_reducible refine keeps_ite ?_ ?_
    | with_reducible refine keeps_ite_fst ?_ ?_
    | intro _
    | dsimp only
    | split

theorem execMezzRearmed_keeps {s : State} (h : HallIx) (track : Fin 5120) : ∃ nx, execMezzRearmed h track s = .next nx ∧ s.Keeps [.regs,
    .halls, .ev] nx := by
  have hw : Field.sub [.regs, .halls, .ev] [.regs, .halls, .ev] = true := by decide
  refine ⟨_, rfl, ?_⟩
  have hk := State.Keeps.refl [.regs, .halls, .ev] s
  repeat' first
    | with_reducible assumption
    | with_reducible exact State.Keeps.refl _ _
    | with_reducible apply State.mezzRearmed_keeps (hw := Field.sub_trans (by decide) hw)
    | with_reducible refine keeps_ite ?_ ?_
    | with_reducible refine keeps_ite_fst ?_ ?_
    | intro _
    | dsimp only
    | split

theorem execMezzOffWrite_keeps {s : State} (h : HallIx) (j : Fin 160) (v : Word) : ∃ nx, execMezzOffWrite h j v s = .next nx ∧ s.Keeps
    [.regs, .halls] nx := by
  have hw : Field.sub [.regs, .halls] [.regs, .halls] = true := by decide
  refine ⟨_, rfl, ?_⟩
  have hk := State.Keeps.refl [.regs, .halls] s
  repeat' first
    | with_reducible assumption
    | with_reducible exact State.Keeps.refl _ _
    | with_reducible apply State.mezzOffWrite_keeps (hw := Field.sub_trans (by decide) hw)
    | with_reducible refine keeps_ite ?_ ?_
    | with_reducible refine keeps_ite_fst ?_ ?_
    | intro _
    | dsimp only
    | split

theorem execGalClkselWrite_keeps {s : State} (G : GalIx) (n : Fin 8) (v : Word) : ∃ nx, execGalClkselWrite G n v s = .next nx ∧ s.Keeps
    [.regs, .gals, .halls, .ev, .net, .reqs, .seqNext, .free] nx := by
  have hw : Field.sub [.regs, .gals, .halls, .ev, .net, .reqs, .seqNext, .free] [.regs, .gals, .halls, .ev, .net, .reqs, .seqNext, .free]
    = true := by decide
  refine ⟨_, rfl, ?_⟩
  have hk := State.Keeps.refl [.regs, .gals, .halls, .ev, .net, .reqs, .seqNext, .free] s
  repeat' first
    | with_reducible assumption
    | with_reducible exact State.Keeps.refl _ _
    | with_reducible apply State.galClkselWrite_keeps (hw := Field.sub_trans (by decide) hw)
    | with_reducible refine keeps_ite ?_ ?_
    | with_reducible refine keeps_ite_fst ?_ ?_
    | intro _
    | dsimp only
    | split

theorem execGalClkSwitchDone_keeps {s : State} (G : GalIx) (n : Fin 8) : ∃ nx, execGalClkSwitchDone G n s = .next nx ∧ s.Keeps [.regs,
    .gals, .halls, .ev, .net, .reqs, .seqNext, .free] nx := by
  have hw : Field.sub [.regs, .gals, .halls, .ev, .net, .reqs, .seqNext, .free] [.regs, .gals, .halls, .ev, .net, .reqs, .seqNext, .free]
    = true := by decide
  refine ⟨_, rfl, ?_⟩
  have hk := State.Keeps.refl [.regs, .gals, .halls, .ev, .net, .reqs, .seqNext, .free] s
  repeat' first
    | with_reducible assumption
    | with_reducible exact State.Keeps.refl _ _
    | with_reducible apply State.galClkSwitchDone_keeps (hw := Field.sub_trans (by decide) hw)
    | with_reducible refine keeps_ite ?_ ?_
    | with_reducible refine keeps_ite_fst ?_ ?_
    | intro _
    | dsimp only
    | split

theorem execEpRequest_keeps {s : State} (G : GalIx) (vc : Fin 4) (last : Bool) (p : Packet) : ∃ nx, execEpRequest G vc last p s = .next
    nx ∧ s.Keeps [.regs, .gals, .halls, .ev, .net, .reqs, .seqNext, .free] nx := by
  have hw : Field.sub [.regs, .gals, .halls, .ev, .net, .reqs, .seqNext, .free] [.regs, .gals, .halls, .ev, .net, .reqs, .seqNext, .free]
    = true := by decide
  refine ⟨_, rfl, ?_⟩
  have hk := State.Keeps.refl [.regs, .gals, .halls, .ev, .net, .reqs, .seqNext, .free] s
  repeat' first
    | with_reducible assumption
    | with_reducible exact State.Keeps.refl _ _
    | with_reducible apply State.epRequest_keeps (hw := Field.sub_trans (by decide) hw)
    | with_reducible refine keeps_ite ?_ ?_
    | with_reducible refine keeps_ite_fst ?_ ?_
    | intro _
    | dsimp only
    | split

theorem execDnDone_keeps {s : State} (G : GalIx) (status : Fin 4) : ∃ nx, execDnDone G status s = .next nx ∧ s.Keeps [.gals, .net, .reqs,
    .seqNext] nx := by
  have hw : Field.sub [.gals, .net, .reqs, .seqNext] [.gals, .net, .reqs, .seqNext] = true := by decide
  refine ⟨_, rfl, ?_⟩
  have hk := State.Keeps.refl [.gals, .net, .reqs, .seqNext] s
  repeat' first
    | with_reducible assumption
    | with_reducible exact State.Keeps.refl _ _
    | with_reducible apply State.dnDone_keeps (hw := Field.sub_trans (by decide) hw)
    | with_reducible refine keeps_ite ?_ ?_
    | with_reducible refine keeps_ite_fst ?_ ?_
    | intro _
    | dsimp only
    | split

theorem execEqEnqueue_keeps {s : State} (G : GalIx) (desc : BitVec 256) : ∃ nx, execEqEnqueue G desc s = .next nx ∧ s.Keeps [.gals, .net,
    .reqs, .seqNext] nx := by
  have hw : Field.sub [.gals, .net, .reqs, .seqNext] [.gals, .net, .reqs, .seqNext] = true := by decide
  refine ⟨_, rfl, ?_⟩
  have hk := State.Keeps.refl [.gals, .net, .reqs, .seqNext] s
  repeat' first
    | with_reducible assumption
    | with_reducible exact State.Keeps.refl _ _
    | with_reducible apply State.eqEnqueue_keeps (hw := Field.sub_trans (by decide) hw)
    | with_reducible refine keeps_ite ?_ ?_
    | with_reducible refine keeps_ite_fst ?_ ?_
    | intro _
    | dsimp only
    | split

theorem execMsgAccept_keeps {s : State} (G : GalIx) (last : Bool) : ∃ nx, execMsgAccept G last s = .next nx ∧ s.Keeps [.gals, .net,
    .reqs, .seqNext] nx := by
  have hw : Field.sub [.gals, .net, .reqs, .seqNext] [.gals, .net, .reqs, .seqNext] = true := by decide
  refine ⟨_, rfl, ?_⟩
  have hk := State.Keeps.refl [.gals, .net, .reqs, .seqNext] s
  repeat' first
    | with_reducible assumption
    | with_reducible exact State.Keeps.refl _ _
    | with_reducible apply State.msgAccept_keeps (hw := Field.sub_trans (by decide) hw)
    | with_reducible refine keeps_ite ?_ ?_
    | with_reducible refine keeps_ite_fst ?_ ?_
    | intro _
    | dsimp only
    | split

theorem execItAccept_keeps {s : State} (G : GalIx) : ∃ nx, execItAccept G s = .next nx ∧ s.Keeps [.gals] nx := by
  have hw : Field.sub [.gals] [.gals] = true := by decide
  refine ⟨_, rfl, ?_⟩
  have hk := State.Keeps.refl [.gals] s
  repeat' first
    | with_reducible assumption
    | with_reducible exact State.Keeps.refl _ _
    | with_reducible apply State.itAccept_keeps (hw := Field.sub_trans (by decide) hw)
    | with_reducible refine keeps_ite ?_ ?_
    | with_reducible refine keeps_ite_fst ?_ ?_
    | intro _
    | dsimp only
    | split

theorem execGalRst_keeps {s : State} (G : GalIx) (v : Word) : ∃ nx, execGalRst G v s = .next nx ∧ s.Keeps [.regs] nx := by
  have hw : Field.sub [.regs] [.regs] = true := by decide
  refine ⟨_, rfl, ?_⟩
  have hk := State.Keeps.refl [.regs] s
  repeat' first
    | with_reducible assumption
    | with_reducible exact State.Keeps.refl _ _
    | with_reducible apply State.galRst_keeps (hw := Field.sub_trans (by decide) hw)
    | with_reducible refine keeps_ite ?_ ?_
    | with_reducible refine keeps_ite_fst ?_ ?_
    | intro _
    | dsimp only
    | split

theorem execGalResetEdge_keeps {s : State} (G : GalIx) : ∃ nx, execGalResetEdge G s = .next nx ∧ s.Keeps [.regs, .gals, .halls, .ev,
    .net, .reqs, .seqNext, .free] nx := by
  have hw : Field.sub [.regs, .gals, .halls, .ev, .net, .reqs, .seqNext, .free] [.regs, .gals, .halls, .ev, .net, .reqs, .seqNext, .free]
    = true := by decide
  refine ⟨_, rfl, ?_⟩
  have hk := State.Keeps.refl [.regs, .gals, .halls, .ev, .net, .reqs, .seqNext, .free] s
  repeat' first
    | with_reducible assumption
    | with_reducible exact State.Keeps.refl _ _
    | with_reducible apply State.galResetEdge_keeps (hw := Field.sub_trans (by decide) hw)
    | with_reducible refine keeps_ite ?_ ?_
    | with_reducible refine keeps_ite_fst ?_ ?_
    | intro _
    | dsimp only
    | split

theorem execGalResetRelease_keeps {s : State} (G : GalIx) : ∃ nx, execGalResetRelease G s = .next nx ∧ s.Keeps [.gals] nx := by
  have hw : Field.sub [.gals] [.gals] = true := by decide
  refine ⟨_, rfl, ?_⟩
  have hk := State.Keeps.refl [.gals] s
  repeat' first
    | with_reducible assumption
    | with_reducible exact State.Keeps.refl _ _
    | with_reducible apply State.galResetRelease_keeps (hw := Field.sub_trans (by decide) hw)
    | with_reducible refine keeps_ite ?_ ?_
    | with_reducible refine keeps_ite_fst ?_ ?_
    | intro _
    | dsimp only
    | split

theorem execGalResetDone_keeps {s : State} (G : GalIx) : ∃ nx, execGalResetDone G s = .next nx ∧ s.Keeps [.regs, .gals, .halls, .ev,
    .net, .reqs, .seqNext, .free] nx := by
  have hw : Field.sub [.regs, .gals, .halls, .ev, .net, .reqs, .seqNext, .free] [.regs, .gals, .halls, .ev, .net, .reqs, .seqNext, .free]
    = true := by decide
  refine ⟨_, rfl, ?_⟩
  have hk := State.Keeps.refl [.regs, .gals, .halls, .ev, .net, .reqs, .seqNext, .free] s
  repeat' first
    | with_reducible assumption
    | with_reducible exact State.Keeps.refl _ _
    | with_reducible apply State.galResetDone_keeps (hw := Field.sub_trans (by decide) hw)
    | with_reducible refine keeps_ite ?_ ?_
    | with_reducible refine keeps_ite_fst ?_ ?_
    | intro _
    | dsimp only
    | split

end Sys2Proof.Machine
end

