-- ==== Sys2Proof/Laws/KeepsPlanes.lean ====
section
/-!
SUPPORT. Laws/KeepsPlanes.lean: the operations of Machine/Planes.lean keep State.Keeps.
-/
namespace Sys2Proof.Machine
open Sys2Proof

theorem State.reportPlane_keeps {W : List Field} {s₀ s : State} (hk : s₀.Keeps W s) (hw : Field.sub [.net, .reqs, .seqNext] W = true) (G
    : Nat) (p : Nat) (reason : Nat) (refused : Bool) : s₀.Keeps W (State.reportPlane s G p reason refused) := by
  unfold State.reportPlane
  repeat' first
    | with_reducible assumption
    | with_reducible exact State.Keeps.refl _ _
    | with_reducible apply State.send_keeps (hw := Field.sub_trans (by decide) hw)
    | with_reducible refine keeps_ite ?_ ?_
    | with_reducible refine keeps_ite_fst ?_ ?_
    | intro _
    | dsimp only
    | split

theorem State.loseResidency_keeps {W : List Field} {s₀ s : State} (hk : s₀.Keeps W s) (hw : Field.sub [.gals] W = true) (G : Nat) (p :
    Nat) : s₀.Keeps W (State.loseResidency s G p) := by
  unfold State.loseResidency
  repeat' first
    | with_reducible assumption
    | with_reducible exact State.Keeps.refl _ _
    | with_reducible apply State.modGal_keeps (hw := Field.sub_trans (by decide) hw)
    | with_reducible refine keeps_ite ?_ ?_
    | with_reducible refine keeps_ite_fst ?_ ?_
    | intro _
    | dsimp only
    | split

theorem State.emptyPlane_keeps {W : List Field} {s₀ s : State} (hk : s₀.Keeps W s) (hw : Field.sub [.regs, .gals, .net, .reqs, .seqNext]
    W = true) (G : Nat) (p : Nat) : s₀.Keeps W (State.emptyPlane s G p) := by
  unfold State.emptyPlane
  repeat' first
    | with_reducible assumption
    | with_reducible exact State.Keeps.refl _ _
    | with_reducible apply State.clrReg_keeps (hw := Field.sub_trans (by decide) hw)
    | with_reducible apply State.loseResidency_keeps (hw := Field.sub_trans (by decide) hw)
    | with_reducible apply State.reportPlane_keeps (hw := Field.sub_trans (by decide) hw)
    | with_reducible refine keeps_ite ?_ ?_
    | with_reducible refine keeps_ite_fst ?_ ?_
    | intro _
    | dsimp only
    | split

theorem State.showPlane_keeps {W : List Field} {s₀ s : State} (hk : s₀.Keeps W s) (hw : Field.sub [.regs] W = true) (G : Nat) (p : Nat)
    (st : Nat) (slot : Nat) (img : Image) : s₀.Keeps W (State.showPlane s G p st slot img) := by
  unfold State.showPlane
  repeat' first
    | with_reducible assumption
    | with_reducible exact State.Keeps.refl _ _
    | with_reducible apply State.setReg_keeps (hw := Field.sub_trans (by decide) hw)
    | with_reducible refine keeps_ite ?_ ?_
    | with_reducible refine keeps_ite_fst ?_ ?_
    | intro _
    | dsimp only
    | split

theorem State.showNoImage_keeps {W : List Field} {s₀ s : State} (hk : s₀.Keeps W s) (hw : Field.sub [.regs] W = true) (G : Nat) (p : Nat)
    (st : Nat) (cause : Nat) (slot : Nat) : s₀.Keeps W (State.showNoImage s G p st cause slot) := by
  unfold State.showNoImage
  repeat' first
    | with_reducible assumption
    | with_reducible exact State.Keeps.refl _ _
    | with_reducible apply State.setReg_keeps (hw := Field.sub_trans (by decide) hw)
    | with_reducible refine keeps_ite ?_ ?_
    | with_reducible refine keeps_ite_fst ?_ ?_
    | intro _
    | dsimp only
    | split

theorem State.setActive_keeps {W : List Field} {s₀ s : State} (hk : s₀.Keeps W s) (hw : Field.sub [.regs] W = true) (G : Nat) (p : Nat) :
    s₀.Keeps W (State.setActive s G p) := by
  unfold State.setActive
  repeat' first
    | with_reducible assumption
    | with_reducible exact State.Keeps.refl _ _
    | with_reducible apply State.setFld_keeps (hw := Field.sub_trans (by decide) hw)
    | with_reducible refine keeps_ite ?_ ?_
    | with_reducible refine keeps_ite_fst ?_ ?_
    | intro _
    | dsimp only
    | split

theorem State.switchRefused_keeps {W : List Field} {s₀ s : State} (hk : s₀.Keeps W s) (hw : Field.sub [.regs, .gals, .ev] W = true) (G :
    Nat) (q : Nat) (src : Nat) : s₀.Keeps W (State.switchRefused s G q src) := by
  unfold State.switchRefused
  repeat' first
    | with_reducible assumption
    | with_reducible exact State.Keeps.refl _ _
    | with_reducible apply State.postLim_keeps (hw := Field.sub_trans (by decide) hw)
    | with_reducible apply State.modGal_keeps (hw := Field.sub_trans (by decide) hw)
    | with_reducible apply State.postGal_keeps (hw := Field.sub_trans (by decide) hw)
    | with_reducible refine keeps_ite ?_ ?_
    | with_reducible refine keeps_ite_fst ?_ ?_
    | intro _
    | dsimp only
    | split

theorem State.requestSwitch_keeps {W : List Field} {s₀ s : State} (hk : s₀.Keeps W s) (hw : Field.sub [.regs, .gals, .halls, .ev, .net,
    .reqs, .seqNext, .free] W = true) (G : Nat) (q : Nat) : s₀.Keeps W (State.requestSwitch s G q) := by
  unfold State.requestSwitch
  repeat' first
    | with_reducible assumption
    | with_reducible exact State.Keeps.refl _ _
    | with_reducible apply State.switchStarts_keeps (hw := Field.sub_trans (by decide) hw)
    | with_reducible apply State.setFld_keeps (hw := Field.sub_trans (by decide) hw)
    | with_reducible refine keeps_ite ?_ ?_
    | with_reducible refine keeps_ite_fst ?_ ?_
    | intro _
    | dsimp only
    | split

theorem State.srcChange_keeps {W : List Field} {s₀ s : State} (hk : s₀.Keeps W s) (hw : Field.sub [.regs, .gals, .halls, .ev, .net,
    .reqs, .seqNext, .free] W = true) (G : Nat) (src : Nat) : s₀.Keeps W (State.srcChange s G src) := by
  unfold State.srcChange
  repeat' first
    | with_reducible assumption
    | with_reducible exact State.Keeps.refl _ _
    | with_reducible apply State.contextEdge_keeps (hw := Field.sub_trans (by decide) hw)
    | with_reducible apply State.modGal_keeps (hw := Field.sub_trans (by decide) hw)
    | with_reducible refine keeps_ite ?_ ?_
    | with_reducible refine keeps_ite_fst ?_ ?_
    | intro _
    | dsimp only
    | split

theorem State.ctxCfgWrite_keeps {W : List Field} {s₀ s : State} (hk : s₀.Keeps W s) (hw : Field.sub [.regs, .gals, .halls, .ev, .net,
    .reqs, .seqNext, .free] W = true) (G : Nat) (v : Word) : s₀.Keeps W (State.ctxCfgWrite s G v) := by
  unfold State.ctxCfgWrite
  repeat' first
    | with_reducible assumption
    | with_reducible exact State.Keeps.refl _ _
    | with_reducible apply State.contextEdge_keeps (hw := Field.sub_trans (by decide) hw)
    | with_reducible apply State.branchesUpdate_keeps (hw := Field.sub_trans (by decide) hw)
    | with_reducible apply State.setFld_keeps (hw := Field.sub_trans (by decide) hw)
    | with_reducible apply State.postGal_keeps (hw := Field.sub_trans (by decide) hw)
    | with_reducible apply State.srcChange_keeps (hw := Field.sub_trans (by decide) hw)
    | with_reducible refine keeps_ite ?_ ?_
    | with_reducible refine keeps_ite_fst ?_ ?_
    | intro _
    | dsimp only
    | split

theorem State.ctxSelWrite_keeps {W : List Field} {s₀ s : State} (hk : s₀.Keeps W s) (hw : Field.sub [.regs, .gals, .halls, .ev, .net,
    .reqs, .seqNext, .free] W = true) (G : Nat) (v : Word) : s₀.Keeps W (State.ctxSelWrite s G v) := by
  unfold State.ctxSelWrite
  repeat' first
    | with_reducible assumption
    | with_reducible exact State.Keeps.refl _ _
    | with_reducible apply State.requestSwitch_keeps (hw := Field.sub_trans (by decide) hw)
    | with_reducible apply State.setFld_keeps (hw := Field.sub_trans (by decide) hw)
    | with_reducible apply State.switchRefused_keeps (hw := Field.sub_trans (by decide) hw)
    | with_reducible refine keeps_ite ?_ ?_
    | with_reducible refine keeps_ite_fst ?_ ?_
    | intro _
    | dsimp only
    | split

theorem State.planeRequest_keeps {W : List Field} {s₀ s : State} (hk : s₀.Keeps W s) (hw : Field.sub [.regs, .gals, .halls, .ev, .net,
    .reqs, .seqNext, .free] W = true) (G : Nat) (q : Nat) : s₀.Keeps W (State.planeRequest s G q) := by
  unfold State.planeRequest
  repeat' first
    | with_reducible assumption
    | with_reducible exact State.Keeps.refl _ _
    | with_reducible apply State.requestSwitch_keeps (hw := Field.sub_trans (by decide) hw)
    | with_reducible apply State.switchRefused_keeps (hw := Field.sub_trans (by decide) hw)
    | with_reducible refine keeps_ite ?_ ?_
    | with_reducible refine keeps_ite_fst ?_ ?_
    | intro _
    | dsimp only
    | split

theorem State.clearPending_keeps {W : List Field} {s₀ s : State} (hk : s₀.Keeps W s) (hw : Field.sub [.regs] W = true) (G : Nat) :
    s₀.Keeps W (State.clearPending s G) := by
  unfold State.clearPending
  repeat' first
    | with_reducible assumption
    | with_reducible exact State.Keeps.refl _ _
    | with_reducible apply State.setFld_keeps (hw := Field.sub_trans (by decide) hw)
    | with_reducible refine keeps_ite ?_ ?_
    | with_reducible refine keeps_ite_fst ?_ ?_
    | intro _
    | dsimp only
    | split

theorem State.channelsAtSwitch_keeps {W : List Field} {s₀ s : State} (hk : s₀.Keeps W s) (hw : Field.sub [.regs, .gals] W = true) (G :
    Nat) : s₀.Keeps W (State.channelsAtSwitch s G) := by
  unfold State.channelsAtSwitch
  repeat' first
    | with_reducible assumption
    | with_reducible exact State.Keeps.refl _ _
    | with_reducible apply State.incFld_keeps (hw := Field.sub_trans (by decide) hw)
    | with_reducible apply State.modGal_keeps (hw := Field.sub_trans (by decide) hw)
    | with_reducible refine keeps_ite ?_ ?_
    | with_reducible refine keeps_ite_fst ?_ ?_
    | intro _
    | dsimp only
    | split

theorem State.presentHeld_keeps {W : List Field} {s₀ s : State} (hk : s₀.Keeps W s) (hw : Field.sub [.gals] W = true) (G : Nat) (q : Nat)
    : s₀.Keeps W (State.presentHeld s G q) := by
  unfold State.presentHeld
  repeat' first
    | with_reducible assumption
    | with_reducible exact State.Keeps.refl _ _
    | with_reducible apply State.modGal_keeps (hw := Field.sub_trans (by decide) hw)
    | with_reducible refine keeps_ite ?_ ?_
    | with_reducible refine keeps_ite_fst ?_ ?_
    | intro _
    | dsimp only
    | split

theorem State.leavePlane_keeps {W : List Field} {s₀ s : State} (hk : s₀.Keeps W s) (hw : Field.sub [.regs, .gals, .free] W = true) (G :
    Nat) (p : Nat) : s₀.Keeps W (State.leavePlane s G p) := by
  unfold State.leavePlane
  repeat' first
    | with_reducible assumption
    | with_reducible exact State.Keeps.refl _ _
    | with_reducible apply State.setPlaneState_keeps (hw := Field.sub_trans (by decide) hw)
    | with_reducible apply State.storeState_keeps (hw := Field.sub_trans (by decide) hw)
    | with_reducible apply State.holdBorders_keeps (hw := Field.sub_trans (by decide) hw)
    | with_reducible refine keeps_ite ?_ ?_
    | with_reducible refine keeps_ite_fst ?_ ?_
    | intro _
    | dsimp only
    | split

theorem State.incoming_keeps {W : List Field} {s₀ s : State} (hk : s₀.Keeps W s) (hw : Field.sub [.gals] W = true) (G : Nat) (q : Nat) :
    s₀.Keeps W (State.incoming s G q) := by
  unfold State.incoming
  repeat' first
    | with_reducible assumption
    | with_reducible exact State.Keeps.refl _ _
    | with_reducible apply State.initState_keeps (hw := Field.sub_trans (by decide) hw)
    | with_reducible apply State.loadState_keeps (hw := Field.sub_trans (by decide) hw)
    | with_reducible refine keeps_ite ?_ ?_
    | with_reducible refine keeps_ite_fst ?_ ?_
    | intro _
    | dsimp only
    | split

theorem State.enterPlane_keeps {W : List Field} {s₀ s : State} (hk : s₀.Keeps W s) (hw : Field.sub [.regs, .gals] W = true) (G : Nat) (q
    : Nat) : s₀.Keeps W (State.enterPlane s G q) := by
  unfold State.enterPlane
  repeat' first
    | with_reducible assumption
    | with_reducible exact State.Keeps.refl _ _
    | with_reducible apply State.incFld_keeps (hw := Field.sub_trans (by decide) hw)
    | with_reducible apply State.clearPending_keeps (hw := Field.sub_trans (by decide) hw)
    | with_reducible apply State.setActive_keeps (hw := Field.sub_trans (by decide) hw)
    | with_reducible apply State.setPlaneState_keeps (hw := Field.sub_trans (by decide) hw)
    | with_reducible apply State.modGal_keeps (hw := Field.sub_trans (by decide) hw)
    | with_reducible apply State.incoming_keeps (hw := Field.sub_trans (by decide) hw)
    | with_reducible refine keeps_ite ?_ ?_
    | with_reducible refine keeps_ite_fst ?_ ?_
    | intro _
    | dsimp only
    | split

theorem State.switchTo_keeps {W : List Field} {s₀ s : State} (hk : s₀.Keeps W s) (hw : Field.sub [.regs, .gals, .net, .reqs, .seqNext,
    .free] W = true) (G : Nat) (q : Nat) : s₀.Keeps W (State.switchTo s G q) := by
  unfold State.switchTo
  repeat' first
    | with_reducible assumption
    | with_reducible exact State.Keeps.refl _ _
    | with_reducible apply State.reportPlane_keeps (hw := Field.sub_trans (by decide) hw)
    | with_reducible apply State.presentHeld_keeps (hw := Field.sub_trans (by decide) hw)
    | with_reducible apply State.channelsAtSwitch_keeps (hw := Field.sub_trans (by decide) hw)
    | with_reducible apply State.enterPlane_keeps (hw := Field.sub_trans (by decide) hw)
    | with_reducible apply State.leavePlane_keeps (hw := Field.sub_trans (by decide) hw)
    | with_reducible apply State.modGal_keeps (hw := Field.sub_trans (by decide) hw)
    | with_reducible refine keeps_ite ?_ ?_
    | with_reducible refine keeps_ite_fst ?_ ?_
    | intro _
    | dsimp only
    | split

theorem State.planeSwitchEdge_keeps {W : List Field} {s₀ s : State} (hk : s₀.Keeps W s) (hw : Field.sub [.regs, .gals, .halls, .ev, .net,
    .reqs, .seqNext, .free] W = true) (G : Nat) : s₀.Keeps W (State.planeSwitchEdge s G) := by
  unfold State.planeSwitchEdge
  repeat' first
    | with_reducible assumption
    | with_reducible exact State.Keeps.refl _ _
    | with_reducible apply State.switchStarts_keeps (hw := Field.sub_trans (by decide) hw)
    | with_reducible apply State.switchRefused_keeps (hw := Field.sub_trans (by decide) hw)
    | with_reducible apply State.clearPending_keeps (hw := Field.sub_trans (by decide) hw)
    | with_reducible apply State.switchTo_keeps (hw := Field.sub_trans (by decide) hw)
    | with_reducible refine keeps_ite ?_ ?_
    | with_reducible refine keeps_ite_fst ?_ ?_
    | intro _
    | dsimp only
    | split

theorem State.switchCapture_keeps {W : List Field} {s₀ s : State} (hk : s₀.Keeps W s) (hw : Field.sub [.regs, .gals, .halls, .ev, .net,
    .reqs, .seqNext, .free] W = true) (G : Nat) : s₀.Keeps W (State.switchCapture s G) := by
  unfold State.switchCapture
  repeat' first
    | with_reducible assumption
    | with_reducible exact State.Keeps.refl _ _
    | with_reducible apply State.switchStarts_keeps (hw := Field.sub_trans (by decide) hw)
    | with_reducible apply State.captureResumes_keeps (hw := Field.sub_trans (by decide) hw)
    | with_reducible apply State.modGal_keeps (hw := Field.sub_trans (by decide) hw)
    | with_reducible refine keeps_ite ?_ ?_
    | with_reducible refine keeps_ite_fst ?_ ?_
    | intro _
    | dsimp only
    | split

theorem State.loadRefused_keeps {W : List Field} {s₀ s : State} (hk : s₀.Keeps W s) (hw : Field.sub [.regs, .ev] W = true) (G : Nat) (r :
    LoadReq) (x : LoadRefusal) : s₀.Keeps W (State.loadRefused s G r x) := by
  unfold State.loadRefused
  repeat' first
    | with_reducible assumption
    | with_reducible exact State.Keeps.refl _ _
    | with_reducible apply State.setFld_keeps (hw := Field.sub_trans (by decide) hw)
    | with_reducible apply State.postGal_keeps (hw := Field.sub_trans (by decide) hw)
    | with_reducible refine keeps_ite ?_ ?_
    | with_reducible refine keeps_ite_fst ?_ ?_
    | intro _
    | dsimp only
    | split

theorem State.loadUnderTest_keeps {W : List Field} {s₀ s : State} (hk : s₀.Keeps W s) (hw : Field.sub [.regs, .ev, .free] W = true) (G :
    Nat) (r : LoadReq) : s₀.Keeps W (State.loadUnderTest s G r).1 := by
  unfold State.loadUnderTest
  repeat' first
    | with_reducible assumption
    | with_reducible exact State.Keeps.refl _ _
    | with_reducible apply State.loadRefused_keeps (hw := Field.sub_trans (by decide) hw)
    | with_reducible apply State.draw_keeps (hw := Field.sub_trans (by decide) hw)
    | with_reducible refine keeps_ite ?_ ?_
    | with_reducible refine keeps_ite_fst ?_ ?_
    | intro _
    | dsimp only
    | split

theorem State.loadArrive_keeps {W : List Field} {s₀ s : State} (hk : s₀.Keeps W s) (hw : Field.sub [.regs, .gals, .ev, .free] W = true)
    (G : Nat) (r : LoadReq) (foreign : Bool) : s₀.Keeps W (State.loadArrive s G r foreign).1 := by
  unfold State.loadArrive
  repeat' first
    | with_reducible assumption
    | with_reducible exact State.Keeps.refl _ _
    | with_reducible apply State.loadUnderTest_keeps (hw := Field.sub_trans (by decide) hw)
    | with_reducible apply State.loadRefused_keeps (hw := Field.sub_trans (by decide) hw)
    | with_reducible apply State.setFld_keeps (hw := Field.sub_trans (by decide) hw)
    | with_reducible apply State.modGal_keeps (hw := Field.sub_trans (by decide) hw)
    | with_reducible refine keeps_ite ?_ ?_
    | with_reducible refine keeps_ite_fst ?_ ?_
    | intro _
    | dsimp only
    | split

theorem State.loadCmdWrite_keeps {W : List Field} {s₀ s : State} (hk : s₀.Keeps W s) (hw : Field.sub [.regs, .gals, .ev, .free] W = true)
    (w : Writer) (G : Nat) (v : Word) : s₀.Keeps W (State.loadCmdWrite s w G v).1 := by
  unfold State.loadCmdWrite
  repeat' first
    | with_reducible assumption
    | with_reducible exact State.Keeps.refl _ _
    | with_reducible apply State.loadArrive_keeps (hw := Field.sub_trans (by decide) hw)
    | with_reducible refine keeps_ite ?_ ?_
    | with_reducible refine keeps_ite_fst ?_ ?_
    | intro _
    | dsimp only
    | split

theorem State.loadRefuseHead_keeps {W : List Field} {s₀ s : State} (hk : s₀.Keeps W s) (hw : Field.sub [.regs, .gals, .ev, .net, .reqs,
    .seqNext] W = true) (G : Nat) (r : LoadReq) (x : LoadRefusal) : s₀.Keeps W (State.loadRefuseHead s G r x) := by
  unfold State.loadRefuseHead
  repeat' first
    | with_reducible assumption
    | with_reducible exact State.Keeps.refl _ _
    | with_reducible apply State.loadRefused_keeps (hw := Field.sub_trans (by decide) hw)
    | with_reducible apply State.modGal_keeps (hw := Field.sub_trans (by decide) hw)
    | with_reducible apply State.reportPlane_keeps (hw := Field.sub_trans (by decide) hw)
    | with_reducible refine keeps_ite ?_ ?_
    | with_reducible refine keeps_ite_fst ?_ ?_
    | intro _
    | dsimp only
    | split

theorem State.planeLoadStart_keeps {W : List Field} {s₀ s : State} (hk : s₀.Keeps W s) (hw : Field.sub [.regs, .gals, .ev, .net, .reqs,
    .seqNext] W = true) (G : Nat) : s₀.Keeps W (State.planeLoadStart s G) := by
  unfold State.planeLoadStart
  repeat' first
    | with_reducible assumption
    | with_reducible exact State.Keeps.refl _ _
    | with_reducible apply State.loadRefuseHead_keeps (hw := Field.sub_trans (by decide) hw)
    | with_reducible apply State.showNoImage_keeps (hw := Field.sub_trans (by decide) hw)
    | with_reducible apply State.loseResidency_keeps (hw := Field.sub_trans (by decide) hw)
    | with_reducible apply State.reportPlane_keeps (hw := Field.sub_trans (by decide) hw)
    | with_reducible apply State.modGal_keeps (hw := Field.sub_trans (by decide) hw)
    | with_reducible refine keeps_ite ?_ ?_
    | with_reducible refine keeps_ite_fst ?_ ?_
    | intro _
    | dsimp only
    | split

theorem State.slotBad_keeps {W : List Field} {s₀ s : State} (hk : s₀.Keeps W s) (hw : Field.sub [.regs, .ev] W = true) (G : Nat) (k :
    Nat) (frame : Nat) : s₀.Keeps W (State.slotBad s G k frame) := by
  unfold State.slotBad
  repeat' first
    | with_reducible assumption
    | with_reducible exact State.Keeps.refl _ _
    | with_reducible apply State.postGal_keeps (hw := Field.sub_trans (by decide) hw)
    | with_reducible apply State.setFld_keeps (hw := Field.sub_trans (by decide) hw)
    | with_reducible apply State.incFld_keeps (hw := Field.sub_trans (by decide) hw)
    | with_reducible refine keeps_ite ?_ ?_
    | with_reducible refine keeps_ite_fst ?_ ?_
    | intro _
    | dsimp only
    | split

theorem State.mirrorCe_keeps {W : List Field} {s₀ s : State} (hk : s₀.Keeps W s) (hw : Field.sub [.regs, .ev] W = true) (G : Nat) (k :
    Nat) (frame : Nat) : s₀.Keeps W (State.mirrorCe s G k frame) := by
  unfold State.mirrorCe
  repeat' first
    | with_reducible assumption
    | with_reducible exact State.Keeps.refl _ _
    | with_reducible apply State.postLim_keeps (hw := Field.sub_trans (by decide) hw)
    | with_reducible apply State.incFld_keeps (hw := Field.sub_trans (by decide) hw)
    | with_reducible refine keeps_ite ?_ ?_
    | with_reducible refine keeps_ite_fst ?_ ?_
    | intro _
    | dsimp only
    | split

theorem State.loadFails_keeps {W : List Field} {s₀ s : State} (hk : s₀.Keeps W s) (hw : Field.sub [.regs, .gals, .halls, .ev, .net,
    .reqs, .seqNext, .free] W = true) (G : Nat) (p : Nat) (slot : Nat) (cause : Nat) (frame : Nat) (replaced : Bool) : s₀.Keeps W
    (State.loadFails s G p slot cause frame replaced) := by
  unfold State.loadFails
  repeat' first
    | with_reducible assumption
    | with_reducible exact State.Keeps.refl _ _
    | with_reducible apply State.showNoImage_keeps (hw := Field.sub_trans (by decide) hw)
    | with_reducible apply State.postGal_keeps (hw := Field.sub_trans (by decide) hw)
    | with_reducible apply State.switchStarts_keeps (hw := Field.sub_trans (by decide) hw)
    | with_reducible apply State.modGal_keeps (hw := Field.sub_trans (by decide) hw)
    | with_reducible apply State.reportPlane_keeps (hw := Field.sub_trans (by decide) hw)
    | with_reducible refine keeps_ite ?_ ?_
    | with_reducible refine keeps_ite_fst ?_ ?_
    | intro _
    | dsimp only
    | split

theorem State.loadPasses_keeps {W : List Field} {s₀ s : State} (hk : s₀.Keeps W s) (hw : Field.sub [.regs, .gals, .net, .reqs, .seqNext]
    W = true) (G : Nat) (p : Nat) (slot : Nat) (replaced : Bool) : s₀.Keeps W (State.loadPasses s G p slot replaced) := by
  unfold State.loadPasses
  repeat' first
    | with_reducible assumption
    | with_reducible exact State.Keeps.refl _ _
    | with_reducible apply State.initShadow_keeps (hw := Field.sub_trans (by decide) hw)
    | with_reducible apply State.modGal_keeps (hw := Field.sub_trans (by decide) hw)
    | with_reducible apply State.reportPlane_keeps (hw := Field.sub_trans (by decide) hw)
    | with_reducible apply State.incFld_keeps (hw := Field.sub_trans (by decide) hw)
    | with_reducible apply State.showPlane_keeps (hw := Field.sub_trans (by decide) hw)
    | with_reducible refine keeps_ite ?_ ?_
    | with_reducible refine keeps_ite_fst ?_ ?_
    | intro _
    | dsimp only
    | split

theorem State.loadEnds_keeps {W : List Field} {s₀ s : State} (hk : s₀.Keeps W s) (hw : Field.sub [.regs, .gals, .ev] W = true) (G : Nat)
    (r : LoadReq) (f : LoadFacts) : s₀.Keeps W (State.loadEnds s G r f) := by
  unfold State.loadEnds
  repeat' first
    | with_reducible assumption
    | with_reducible exact State.Keeps.refl _ _
    | with_reducible apply State.modGal_keeps (hw := Field.sub_trans (by decide) hw)
    | with_reducible apply State.mirrorCe_keeps (hw := Field.sub_trans (by decide) hw)
    | with_reducible apply State.setFld_keeps (hw := Field.sub_trans (by decide) hw)
    | with_reducible apply State.incFld_keeps (hw := Field.sub_trans (by decide) hw)
    | with_reducible refine keeps_ite ?_ ?_
    | with_reducible refine keeps_ite_fst ?_ ?_
    | with_reducible refine keeps_foldl _ _ ?_ ?_
    | with_reducible refine keeps_foldl_fst _ _ ?_ ?_
    | intro _
    | dsimp only
    | split

theorem State.frameFails_keeps {W : List Field} {s₀ s : State} (hk : s₀.Keeps W s) (hw : Field.sub [.regs, .ev] W = true) (G : Nat) (r :
    LoadReq) (cont : Option (Nat × Nat)) (frame : Nat) (cause : Nat) : s₀.Keeps W (State.frameFails s G r cont frame cause) := by
  unfold State.frameFails
  repeat' first
    | with_reducible assumption
    | with_reducible exact State.Keeps.refl _ _
    | with_reducible apply State.postGal_keeps (hw := Field.sub_trans (by decide) hw)
    | with_reducible apply State.slotBad_keeps (hw := Field.sub_trans (by decide) hw)
    | with_reducible refine keeps_ite ?_ ?_
    | with_reducible refine keeps_ite_fst ?_ ?_
    | intro _
    | dsimp only
    | split

theorem State.planeLoadComplete_keeps {W : List Field} {s₀ s : State} (hk : s₀.Keeps W s) (hw : Field.sub [.regs, .gals, .halls, .ev,
    .net, .reqs, .seqNext, .free] W = true) (G : Nat) (f : LoadFacts) : s₀.Keeps W (State.planeLoadComplete s G f) := by
  unfold State.planeLoadComplete
  repeat' first
    | with_reducible assumption
    | with_reducible exact State.Keeps.refl _ _
    | with_reducible apply State.loadPasses_keeps (hw := Field.sub_trans (by decide) hw)
    | with_reducible apply State.loadEnds_keeps (hw := Field.sub_trans (by decide) hw)
    | with_reducible apply State.loadFails_keeps (hw := Field.sub_trans (by decide) hw)
    | with_reducible apply State.frameFails_keeps (hw := Field.sub_trans (by decide) hw)
    | with_reducible refine keeps_ite ?_ ?_
    | with_reducible refine keeps_ite_fst ?_ ?_
    | intro _
    | dsimp only
    | split

theorem State.refusePending_keeps {W : List Field} {s₀ s : State} (hk : s₀.Keeps W s) (hw : Field.sub [.regs, .gals, .ev] W = true) (G :
    Nat) : s₀.Keeps W (State.refusePending s G) := by
  unfold State.refusePending
  repeat' first
    | with_reducible assumption
    | with_reducible exact State.Keeps.refl _ _
    | with_reducible apply State.switchRefused_keeps (hw := Field.sub_trans (by decide) hw)
    | with_reducible apply State.clearPending_keeps (hw := Field.sub_trans (by decide) hw)
    | with_reducible refine keeps_ite ?_ ?_
    | with_reducible refine keeps_ite_fst ?_ ?_
    | intro _
    | dsimp only
    | split

theorem State.beginReplace_keeps {W : List Field} {s₀ s : State} (hk : s₀.Keeps W s) (hw : Field.sub [.regs, .gals, .halls, .ev, .net,
    .reqs, .seqNext, .free] W = true) (G : Nat) (p : Nat) (slot : Nat) : s₀.Keeps W (State.beginReplace s G p slot) := by
  unfold State.beginReplace
  repeat' first
    | with_reducible assumption
    | with_reducible exact State.Keeps.refl _ _
    | with_reducible apply State.reportPlane_keeps (hw := Field.sub_trans (by decide) hw)
    | with_reducible apply State.switchStarts_keeps (hw := Field.sub_trans (by decide) hw)
    | with_reducible apply State.setFld_keeps (hw := Field.sub_trans (by decide) hw)
    | with_reducible apply State.showNoImage_keeps (hw := Field.sub_trans (by decide) hw)
    | with_reducible apply State.loseResidency_keeps (hw := Field.sub_trans (by decide) hw)
    | with_reducible apply State.modGal_keeps (hw := Field.sub_trans (by decide) hw)
    | with_reducible apply State.storeState_keeps (hw := Field.sub_trans (by decide) hw)
    | with_reducible apply State.holdBorders_keeps (hw := Field.sub_trans (by decide) hw)
    | with_reducible refine keeps_ite ?_ ?_
    | with_reducible refine keeps_ite_fst ?_ ?_
    | intro _
    | dsimp only
    | split

theorem State.replaceEdge_keeps {W : List Field} {s₀ s : State} (hk : s₀.Keeps W s) (hw : Field.sub [.regs, .gals, .halls, .ev, .net,
    .reqs, .seqNext, .free] W = true) (G : Nat) : s₀.Keeps W (State.replaceEdge s G) := by
  unfold State.replaceEdge
  repeat' first
    | with_reducible assumption
    | with_reducible exact State.Keeps.refl _ _
    | with_reducible apply State.loadRefuseHead_keeps (hw := Field.sub_trans (by decide) hw)
    | with_reducible apply State.beginReplace_keeps (hw := Field.sub_trans (by decide) hw)
    | with_reducible apply State.refusePending_keeps (hw := Field.sub_trans (by decide) hw)
    | with_reducible refine keeps_ite ?_ ?_
    | with_reducible refine keeps_ite_fst ?_ ?_
    | intro _
    | dsimp only
    | split

theorem State.replaceActivate_keeps {W : List Field} {s₀ s : State} (hk : s₀.Keeps W s) (hw : Field.sub [.regs, .gals, .net, .reqs,
    .seqNext] W = true) (G : Nat) : s₀.Keeps W (State.replaceActivate s G) := by
  unfold State.replaceActivate
  repeat' first
    | with_reducible assumption
    | with_reducible exact State.Keeps.refl _ _
    | with_reducible apply State.showPlane_keeps (hw := Field.sub_trans (by decide) hw)
    | with_reducible apply State.loadState_keeps (hw := Field.sub_trans (by decide) hw)
    | with_reducible apply State.incFld_keeps (hw := Field.sub_trans (by decide) hw)
    | with_reducible apply State.setActive_keeps (hw := Field.sub_trans (by decide) hw)
    | with_reducible apply State.reportPlane_keeps (hw := Field.sub_trans (by decide) hw)
    | with_reducible apply State.modGal_keeps (hw := Field.sub_trans (by decide) hw)
    | with_reducible refine keeps_ite ?_ ?_
    | with_reducible refine keeps_ite_fst ?_ ?_
    | intro _
    | dsimp only
    | split

theorem State.replaceCapture_keeps {W : List Field} {s₀ s : State} (hk : s₀.Keeps W s) (hw : Field.sub [.regs, .gals, .halls, .ev, .net,
    .reqs, .seqNext, .free] W = true) (G : Nat) : s₀.Keeps W (State.replaceCapture s G) := by
  unfold State.replaceCapture
  repeat' first
    | with_reducible assumption
    | with_reducible exact State.Keeps.refl _ _
    | with_reducible apply State.switchStarts_keeps (hw := Field.sub_trans (by decide) hw)
    | with_reducible apply State.captureResumes_keeps (hw := Field.sub_trans (by decide) hw)
    | with_reducible apply State.modGal_keeps (hw := Field.sub_trans (by decide) hw)
    | with_reducible refine keeps_ite ?_ ?_
    | with_reducible refine keeps_ite_fst ?_ ?_
    | intro _
    | dsimp only
    | split

theorem State.showSlot_keeps {W : List Field} {s₀ s : State} (hk : s₀.Keeps W s) (hw : Field.sub [.regs] W = true) (G : Nat) (k : Nat)
    (st : Nat) (origin : Nat) (img : Image) : s₀.Keeps W (State.showSlot s G k st origin img) := by
  unfold State.showSlot
  repeat' first
    | with_reducible assumption
    | with_reducible exact State.Keeps.refl _ _
    | with_reducible apply State.setReg_keeps (hw := Field.sub_trans (by decide) hw)
    | with_reducible refine keeps_ite ?_ ?_
    | with_reducible refine keeps_ite_fst ?_ ?_
    | intro _
    | dsimp only
    | split

theorem State.reloadOff_keeps {W : List Field} {s₀ s : State} (hk : s₀.Keeps W s) (hw : Field.sub [.boot] W = true) (G : Nat) (k : Nat) :
    s₀.Keeps W (State.reloadOff s G k) := by
  unfold State.reloadOff
  repeat' first
    | with_reducible assumption
    | with_reducible exact State.Keeps.refl _ _
    | with_reducible refine keeps_ite ?_ ?_
    | with_reducible refine keeps_ite_fst ?_ ?_
    | intro _
    | dsimp only
    | simp (disch := first | assumption | (with_unfolding_all (intro (x : Field) hx; cases x <;>
        first | exact absurd hx (by decide) | (dsimp only [Field.same]; done) | (dsimp only [Field.same]; exact ⟨rfl, rfl⟩)))) only [keeps_mk hw]
    | split

theorem State.emptySlot_keeps {W : List Field} {s₀ s : State} (hk : s₀.Keeps W s) (hw : Field.sub [.regs, .gals, .boot] W = true) (G :
    Nat) (k : Nat) : s₀.Keeps W (State.emptySlot s G k) := by
  unfold State.emptySlot
  repeat' first
    | with_reducible assumption
    | with_reducible exact State.Keeps.refl _ _
    | with_reducible apply State.clrReg_keeps (hw := Field.sub_trans (by decide) hw)
    | with_reducible apply State.modGal_keeps (hw := Field.sub_trans (by decide) hw)
    | with_reducible apply State.reloadOff_keeps (hw := Field.sub_trans (by decide) hw)
    | with_reducible refine keeps_ite ?_ ?_
    | with_reducible refine keeps_ite_fst ?_ ?_
    | intro _
    | dsimp only
    | split

theorem State.fillSlot_keeps {W : List Field} {s₀ s : State} (hk : s₀.Keeps W s) (hw : Field.sub [.regs, .gals, .boot] W = true) (G :
    Nat) (k : Nat) (origin : Nat) (img : Image) : s₀.Keeps W (State.fillSlot s G k origin img) := by
  unfold State.fillSlot
  repeat' first
    | with_reducible assumption
    | with_reducible exact State.Keeps.refl _ _
    | with_reducible apply State.showSlot_keeps (hw := Field.sub_trans (by decide) hw)
    | with_reducible apply State.modGal_keeps (hw := Field.sub_trans (by decide) hw)
    | with_reducible apply State.reloadOff_keeps (hw := Field.sub_trans (by decide) hw)
    | with_reducible refine keeps_ite ?_ ?_
    | with_reducible refine keeps_ite_fst ?_ ?_
    | intro _
    | dsimp only
    | split

theorem State.slotDone_keeps {W : List Field} {s₀ s : State} (hk : s₀.Keeps W s) (hw : Field.sub [.regs, .ev] W = true) (G : Nat) (k :
    Nat) (result : Nat) : s₀.Keeps W (State.slotDone s G k result) := by
  unfold State.slotDone
  repeat' first
    | with_reducible assumption
    | with_reducible exact State.Keeps.refl _ _
    | with_reducible apply State.postGal_keeps (hw := Field.sub_trans (by decide) hw)
    | with_reducible apply State.setFld_keeps (hw := Field.sub_trans (by decide) hw)
    | with_reducible refine keeps_ite ?_ ?_
    | with_reducible refine keeps_ite_fst ?_ ?_
    | intro _
    | dsimp only
    | split

theorem State.slotRefused_keeps {W : List Field} {s₀ s : State} (hk : s₀.Keeps W s) (hw : Field.sub [.regs, .ev] W = true) (G : Nat) (k :
    Nat) (result : Nat) : s₀.Keeps W (State.slotRefused s G k result) := by
  unfold State.slotRefused
  repeat' first
    | with_reducible assumption
    | with_reducible exact State.Keeps.refl _ _
    | with_reducible apply State.postGal_keeps (hw := Field.sub_trans (by decide) hw)
    | with_reducible apply State.setFld_keeps (hw := Field.sub_trans (by decide) hw)
    | with_reducible refine keeps_ite ?_ ?_
    | with_reducible refine keeps_ite_fst ?_ ?_
    | intro _
    | dsimp only
    | split

theorem State.slotCopy_keeps {W : List Field} {s₀ s : State} (hk : s₀.Keeps W s) (hw : Field.sub [.regs, .gals, .ev, .adm, .dom, .pwrCmd,
    .boot, .bist, .free] W = true) (G : Nat) (srcG : Nat) (srcSlot : Nat) (dst : Nat) : s₀.Keeps W (State.slotCopy s G srcG srcSlot dst)
    := by
  unfold State.slotCopy
  repeat' first
    | with_reducible assumption
    | with_reducible exact State.Keeps.refl _ _
    | with_reducible apply State.slotRefused_keeps (hw := Field.sub_trans (by decide) hw)
    | with_reducible apply State.draw_keeps (hw := Field.sub_trans (by decide) hw)
    | with_reducible apply State.modGal_keeps (hw := Field.sub_trans (by decide) hw)
    | with_reducible apply State.admRequest_keeps (hw := Field.sub_trans (by decide) hw)
    | with_reducible apply State.setFld_keeps (hw := Field.sub_trans (by decide) hw)
    | with_reducible refine keeps_ite ?_ ?_
    | with_reducible refine keeps_ite_fst ?_ ?_
    | intro _
    | dsimp only
    | split

theorem State.slotInvalidate_keeps {W : List Field} {s₀ s : State} (hk : s₀.Keeps W s) (hw : Field.sub [.regs, .gals, .ev, .boot] W =
    true) (G : Nat) (k : Nat) : s₀.Keeps W (State.slotInvalidate s G k) := by
  unfold State.slotInvalidate
  repeat' first
    | with_reducible assumption
    | with_reducible exact State.Keeps.refl _ _
    | with_reducible apply State.slotRefused_keeps (hw := Field.sub_trans (by decide) hw)
    | with_reducible apply State.emptySlot_keeps (hw := Field.sub_trans (by decide) hw)
    | with_reducible refine keeps_ite ?_ ?_
    | with_reducible refine keeps_ite_fst ?_ ?_
    | intro _
    | dsimp only
    | split

theorem State.slotCmdWrite_keeps {W : List Field} {s₀ s : State} (hk : s₀.Keeps W s) (hw : Field.sub [.regs, .gals, .ev, .adm, .dom,
    .pwrCmd, .boot, .bist, .free] W = true) (G : Nat) (v : Word) : s₀.Keeps W (State.slotCmdWrite s G v) := by
  unfold State.slotCmdWrite
  repeat' first
    | with_reducible assumption
    | with_reducible exact State.Keeps.refl _ _
    | with_reducible apply State.slotCopy_keeps (hw := Field.sub_trans (by decide) hw)
    | with_reducible apply State.slotInvalidate_keeps (hw := Field.sub_trans (by decide) hw)
    | with_reducible refine keeps_ite ?_ ?_
    | with_reducible refine keeps_ite_fst ?_ ?_
    | intro _
    | dsimp only
    | split

theorem State.slotCopyStart_keeps {W : List Field} {s₀ s : State} (hk : s₀.Keeps W s) (hw : Field.sub [.regs, .gals, .ev, .adm, .boot] W
    = true) (G : Nat) : s₀.Keeps W (State.slotCopyStart s G) := by
  unfold State.slotCopyStart
  repeat' first
    | with_reducible assumption
    | with_reducible exact State.Keeps.refl _ _
    | with_reducible apply State.slotDone_keeps (hw := Field.sub_trans (by decide) hw)
    | with_reducible apply State.admRelease_keeps (hw := Field.sub_trans (by decide) hw)
    | with_reducible apply State.modGal_keeps (hw := Field.sub_trans (by decide) hw)
    | with_reducible apply State.setFld_keeps (hw := Field.sub_trans (by decide) hw)
    | with_reducible apply State.emptySlot_keeps (hw := Field.sub_trans (by decide) hw)
    | with_reducible refine keeps_ite ?_ ?_
    | with_reducible refine keeps_ite_fst ?_ ?_
    | intro _
    | dsimp only
    | split

theorem State.slotCopyComplete_keeps {W : List Field} {s₀ s : State} (hk : s₀.Keeps W s) (hw : Field.sub [.regs, .gals, .ev, .adm, .boot]
    W = true) (G : Nat) (pass : Bool) : s₀.Keeps W (State.slotCopyComplete s G pass) := by
  unfold State.slotCopyComplete
  repeat' first
    | with_reducible assumption
    | with_reducible exact State.Keeps.refl _ _
    | with_reducible apply State.admRelease_keeps (hw := Field.sub_trans (by decide) hw)
    | with_reducible apply State.modGal_keeps (hw := Field.sub_trans (by decide) hw)
    | with_reducible apply State.slotDone_keeps (hw := Field.sub_trans (by decide) hw)
    | with_reducible apply State.fillSlot_keeps (hw := Field.sub_trans (by decide) hw)
    | with_reducible apply State.emptySlot_keeps (hw := Field.sub_trans (by decide) hw)
    | with_reducible refine keeps_ite ?_ ?_
    | with_reducible refine keeps_ite_fst ?_ ?_
    | intro _
    | dsimp only
    | split

theorem execGalCtxSelWrite_keeps {s : State} (G : GalIx) (v : Word) : ∃ nx, execGalCtxSelWrite G v s = .next nx ∧ s.Keeps [.regs, .gals,
    .halls, .ev, .net, .reqs, .seqNext, .free] nx := by
  have hw : Field.sub [.regs, .gals, .halls, .ev, .net, .reqs, .seqNext, .free] [.regs, .gals, .halls, .ev, .net, .reqs, .seqNext, .free]
    = true := by decide
  refine ⟨_, rfl, ?_⟩
  have hk := State.Keeps.refl [.regs, .gals, .halls, .ev, .net, .reqs, .seqNext, .free] s
  repeat' first
    | with_reducible assumption
    | with_reducible exact State.Keeps.refl _ _
    | with_reducible apply State.ctxSelWrite_keeps (hw := Field.sub_trans (by decide) hw)
    | with_reducible refine keeps_ite ?_ ?_
    | with_reducible refine keeps_ite_fst ?_ ?_
    | intro _
    | dsimp only
    | split

theorem execPlaneRequest_keeps {s : State} (G : GalIx) (q : PlaneIx) : ∃ nx, execPlaneRequest G q s = .next nx ∧ s.Keeps [.regs, .gals,
    .halls, .ev, .net, .reqs, .seqNext, .free] nx := by
  have hw : Field.sub [.regs, .gals, .halls, .ev, .net, .reqs, .seqNext, .free] [.regs, .gals, .halls, .ev, .net, .reqs, .seqNext, .free]
    = true := by decide
  refine ⟨_, rfl, ?_⟩
  have hk := State.Keeps.refl [.regs, .gals, .halls, .ev, .net, .reqs, .seqNext, .free] s
  repeat' first
    | with_reducible assumption
    | with_reducible exact State.Keeps.refl _ _
    | with_reducible apply State.planeRequest_keeps (hw := Field.sub_trans (by decide) hw)
    | with_reducible refine keeps_ite ?_ ?_
    | with_reducible refine keeps_ite_fst ?_ ?_
    | intro _
    | dsimp only
    | split

theorem execPlaneSwitchEdge_keeps {s : State} (G : GalIx) : ∃ nx, execPlaneSwitchEdge G s = .next nx ∧ s.Keeps [.regs, .gals, .halls,
    .ev, .net, .reqs, .seqNext, .free] nx := by
  have hw : Field.sub [.regs, .gals, .halls, .ev, .net, .reqs, .seqNext, .free] [.regs, .gals, .halls, .ev, .net, .reqs, .seqNext, .free]
    = true := by decide
  refine ⟨_, rfl, ?_⟩
  have hk := State.Keeps.refl [.regs, .gals, .halls, .ev, .net, .reqs, .seqNext, .free] s
  repeat' first
    | with_reducible assumption
    | with_reducible exact State.Keeps.refl _ _
    | with_reducible apply State.planeSwitchEdge_keeps (hw := Field.sub_trans (by decide) hw)
    | with_reducible refine keeps_ite ?_ ?_
    | with_reducible refine keeps_ite_fst ?_ ?_
    | intro _
    | dsimp only
    | split

theorem execSwitchCapture_keeps {s : State} (G : GalIx) : ∃ nx, execSwitchCapture G s = .next nx ∧ s.Keeps [.regs, .gals, .halls, .ev,
    .net, .reqs, .seqNext, .free] nx := by
  have hw : Field.sub [.regs, .gals, .halls, .ev, .net, .reqs, .seqNext, .free] [.regs, .gals, .halls, .ev, .net, .reqs, .seqNext, .free]
    = true := by decide
  refine ⟨_, rfl, ?_⟩
  have hk := State.Keeps.refl [.regs, .gals, .halls, .ev, .net, .reqs, .seqNext, .free] s
  repeat' first
    | with_reducible assumption
    | with_reducible exact State.Keeps.refl _ _
    | with_reducible apply State.switchCapture_keeps (hw := Field.sub_trans (by decide) hw)
    | with_reducible refine keeps_ite ?_ ?_
    | with_reducible refine keeps_ite_fst ?_ ?_
    | intro _
    | dsimp only
    | split

theorem execGalLoadCmdLoad_keeps {s : State} (w : Writer) (G : GalIx) (slot : SlotIx) (p : PlaneIx) : ∃ nx, execGalLoadCmdLoad w G slot p
    s = .next nx ∧ s.Keeps [.regs, .gals, .ev, .free] nx := by
  have hw : Field.sub [.regs, .gals, .ev, .free] [.regs, .gals, .ev, .free] = true := by decide
  refine ⟨_, rfl, ?_⟩
  have hk := State.Keeps.refl [.regs, .gals, .ev, .free] s
  repeat' first
    | with_reducible assumption
    | with_reducible exact State.Keeps.refl _ _
    | with_reducible apply State.loadArrive_keeps (hw := Field.sub_trans (by decide) hw)
    | with_reducible refine keeps_ite ?_ ?_
    | with_reducible refine keeps_ite_fst ?_ ?_
    | intro _
    | dsimp only
    | split

theorem execGalLoadCmdReplace_keeps {s : State} (w : Writer) (G : GalIx) (slot : SlotIx) (p : PlaneIx) : ∃ nx, execGalLoadCmdReplace w G
    slot p s = .next nx ∧ s.Keeps [.regs, .gals, .ev, .free] nx := by
  have hw : Field.sub [.regs, .gals, .ev, .free] [.regs, .gals, .ev, .free] = true := by decide
  refine ⟨_, rfl, ?_⟩
  have hk := State.Keeps.refl [.regs, .gals, .ev, .free] s
  repeat' first
    | with_reducible assumption
    | with_reducible exact State.Keeps.refl _ _
    | with_reducible apply State.loadArrive_keeps (hw := Field.sub_trans (by decide) hw)
    | with_reducible refine keeps_ite ?_ ?_
    | with_reducible refine keeps_ite_fst ?_ ?_
    | intro _
    | dsimp only
    | split

theorem execPlaneLoadStart_keeps {s : State} (G : GalIx) : ∃ nx, execPlaneLoadStart G s = .next nx ∧ s.Keeps [.regs, .gals, .ev, .net,
    .reqs, .seqNext] nx := by
  have hw : Field.sub [.regs, .gals, .ev, .net, .reqs, .seqNext] [.regs, .gals, .ev, .net, .reqs, .seqNext] = true := by decide
  refine ⟨_, rfl, ?_⟩
  have hk := State.Keeps.refl [.regs, .gals, .ev, .net, .reqs, .seqNext] s
  repeat' first
    | with_reducible assumption
    | with_reducible exact State.Keeps.refl _ _
    | with_reducible apply State.planeLoadStart_keeps (hw := Field.sub_trans (by decide) hw)
    | with_reducible refine keeps_ite ?_ ?_
    | with_reducible refine keeps_ite_fst ?_ ?_
    | intro _
    | dsimp only
    | split

theorem execReplaceEdge_keeps {s : State} (G : GalIx) : ∃ nx, execReplaceEdge G s = .next nx ∧ s.Keeps [.regs, .gals, .halls, .ev, .net,
    .reqs, .seqNext, .free] nx := by
  have hw : Field.sub [.regs, .gals, .halls, .ev, .net, .reqs, .seqNext, .free] [.regs, .gals, .halls, .ev, .net, .reqs, .seqNext, .free]
    = true := by decide
  refine ⟨_, rfl, ?_⟩
  have hk := State.Keeps.refl [.regs, .gals, .halls, .ev, .net, .reqs, .seqNext, .free] s
  repeat' first
    | with_reducible assumption
    | with_reducible exact State.Keeps.refl _ _
    | with_reducible apply State.replaceEdge_keeps (hw := Field.sub_trans (by decide) hw)
    | with_reducible refine keeps_ite ?_ ?_
    | with_reducible refine keeps_ite_fst ?_ ?_
    | intro _
    | dsimp only
    | split

theorem execReplaceActivate_keeps {s : State} (G : GalIx) : ∃ nx, execReplaceActivate G s = .next nx ∧ s.Keeps [.regs, .gals, .net,
    .reqs, .seqNext] nx := by
  have hw : Field.sub [.regs, .gals, .net, .reqs, .seqNext] [.regs, .gals, .net, .reqs, .seqNext] = true := by decide
  refine ⟨_, rfl, ?_⟩
  have hk := State.Keeps.refl [.regs, .gals, .net, .reqs, .seqNext] s
  repeat' first
    | with_reducible assumption
    | with_reducible exact State.Keeps.refl _ _
    | with_reducible apply State.replaceActivate_keeps (hw := Field.sub_trans (by decide) hw)
    | with_reducible refine keeps_ite ?_ ?_
    | with_reducible refine keeps_ite_fst ?_ ?_
    | intro _
    | dsimp only
    | split

theorem execReplaceCapture_keeps {s : State} (G : GalIx) : ∃ nx, execReplaceCapture G s = .next nx ∧ s.Keeps [.regs, .gals, .halls, .ev,
    .net, .reqs, .seqNext, .free] nx := by
  have hw : Field.sub [.regs, .gals, .halls, .ev, .net, .reqs, .seqNext, .free] [.regs, .gals, .halls, .ev, .net, .reqs, .seqNext, .free]
    = true := by decide
  refine ⟨_, rfl, ?_⟩
  have hk := State.Keeps.refl [.regs, .gals, .halls, .ev, .net, .reqs, .seqNext, .free] s
  repeat' first
    | with_reducible assumption
    | with_reducible exact State.Keeps.refl _ _
    | with_reducible apply State.replaceCapture_keeps (hw := Field.sub_trans (by decide) hw)
    | with_reducible refine keeps_ite ?_ ?_
    | with_reducible refine keeps_ite_fst ?_ ?_
    | intro _
    | dsimp only
    | split

theorem execSlotCopy_keeps {s : State} (G : GalIx) (srcG : Fin 32) (srcSlot : SlotIx) (dst : SlotIx) : ∃ nx, execSlotCopy G srcG srcSlot
    dst s = .next nx ∧ s.Keeps [.regs, .gals, .ev, .adm, .dom, .pwrCmd, .boot, .bist, .free] nx := by
  have hw : Field.sub [.regs, .gals, .ev, .adm, .dom, .pwrCmd, .boot, .bist, .free] [.regs, .gals, .ev, .adm, .dom, .pwrCmd, .boot,
    .bist, .free] = true := by decide
  refine ⟨_, rfl, ?_⟩
  have hk := State.Keeps.refl [.regs, .gals, .ev, .adm, .dom, .pwrCmd, .boot, .bist, .free] s
  repeat' first
    | with_reducible assumption
    | with_reducible exact State.Keeps.refl _ _
    | with_reducible apply State.slotCopy_keeps (hw := Field.sub_trans (by decide) hw)
    | with_reducible refine keeps_ite ?_ ?_
    | with_reducible refine keeps_ite_fst ?_ ?_
    | intro _
    | dsimp only
    | split

theorem execSlotInvalidate_keeps {s : State} (G : GalIx) (k : SlotIx) : ∃ nx, execSlotInvalidate G k s = .next nx ∧ s.Keeps [.regs,
    .gals, .ev, .boot] nx := by
  have hw : Field.sub [.regs, .gals, .ev, .boot] [.regs, .gals, .ev, .boot] = true := by decide
  refine ⟨_, rfl, ?_⟩
  have hk := State.Keeps.refl [.regs, .gals, .ev, .boot] s
  repeat' first
    | with_reducible assumption
    | with_reducible exact State.Keeps.refl _ _
    | with_reducible apply State.slotInvalidate_keeps (hw := Field.sub_trans (by decide) hw)
    | with_reducible refine keeps_ite ?_ ?_
    | with_reducible refine keeps_ite_fst ?_ ?_
    | intro _
    | dsimp only
    | split

theorem execSlotCopyComplete_keeps {s : State} (G : GalIx) (pass : Bool) : ∃ nx, execSlotCopyComplete G pass s = .next nx ∧ s.Keeps
    [.regs, .gals, .ev, .adm, .boot] nx := by
  have hw : Field.sub [.regs, .gals, .ev, .adm, .boot] [.regs, .gals, .ev, .adm, .boot] = true := by decide
  refine ⟨_, rfl, ?_⟩
  have hk := State.Keeps.refl [.regs, .gals, .ev, .adm, .boot] s
  repeat' first
    | with_reducible assumption
    | with_reducible exact State.Keeps.refl _ _
    | with_reducible apply State.slotCopyComplete_keeps (hw := Field.sub_trans (by decide) hw)
    | with_reducible refine keeps_ite ?_ ?_
    | with_reducible refine keeps_ite_fst ?_ ?_
    | intro _
    | dsimp only
    | split

end Sys2Proof.Machine
end

