-- ==== Sys2Proof/Laws/KeepsGalMem.lean ====
section
/-!
SUPPORT. Laws/KeepsGalMem.lean: the operations of Machine/GalMem.lean keep State.Keeps.
-/
namespace Sys2Proof.Machine
open Sys2Proof

theorem State.eccReport_keeps {W : List Field} {s₀ s : State} (hk : s₀.Keeps W s) (hw : Field.sub [.regs, .gals, .ev] W = true) (G : Nat)
    (off : Nat) (n : Nat) (path : MemPath) (f : EccFacts) : s₀.Keeps W (State.eccReport s G off n path f) := by
  unfold State.eccReport
  repeat' first
    | with_reducible assumption
    | with_reducible exact State.Keeps.refl _ _
    | with_reducible apply State.incFld_keeps (hw := Field.sub_trans (by decide) hw)
    | with_reducible apply State.modGal_keeps (hw := Field.sub_trans (by decide) hw)
    | with_reducible apply State.setReg_keeps (hw := Field.sub_trans (by decide) hw)
    | with_reducible apply State.postLim_keeps (hw := Field.sub_trans (by decide) hw)
    | with_reducible refine keeps_ite ?_ ?_
    | with_reducible refine keeps_ite_fst ?_ ?_
    | intro _
    | dsimp only
    | split

theorem State.cancelWb_keeps {W : List Field} {s₀ s : State} (hk : s₀.Keeps W s) (hw : Field.sub [.gals] W = true) (G : Nat) (b : Nat)
    (keys : List Nat) : s₀.Keeps W (State.cancelWb s G b keys) := by
  unfold State.cancelWb
  repeat' first
    | with_reducible assumption
    | with_reducible exact State.Keeps.refl _ _
    | with_reducible apply State.modGal_keeps (hw := Field.sub_trans (by decide) hw)
    | with_reducible refine keeps_ite ?_ ?_
    | with_reducible refine keeps_ite_fst ?_ ?_
    | intro _
    | dsimp only
    | split

theorem State.modQ_keeps {W : List Field} {s₀ s : State} (hk : s₀.Keeps W s) (hw : Field.sub [.gals] W = true) (G : Nat) (b : Nat) (f :
    QHid → QHid) : s₀.Keeps W (State.modQ s G b f) := by
  unfold State.modQ
  repeat' first
    | with_reducible assumption
    | with_reducible exact State.Keeps.refl _ _
    | with_reducible apply State.modGal_keeps (hw := Field.sub_trans (by decide) hw)
    | with_reducible refine keeps_ite ?_ ?_
    | with_reducible refine keeps_ite_fst ?_ ?_
    | intro _
    | dsimp only
    | split

theorem State.qMark_keeps {W : List Field} {s₀ s : State} (hk : s₀.Keeps W s) (hw : Field.sub [.regs] W = true) (G : Nat) (b : Nat) (f :
    Fld) : s₀.Keeps W (State.qMark s G b f) := by
  unfold State.qMark
  repeat' first
    | with_reducible assumption
    | with_reducible exact State.Keeps.refl _ _
    | with_reducible apply State.setFld_keeps (hw := Field.sub_trans (by decide) hw)
    | with_reducible refine keeps_ite ?_ ?_
    | with_reducible refine keeps_ite_fst ?_ ?_
    | intro _
    | dsimp only
    | split

theorem State.qSendItem_keeps {W : List Field} {s₀ s : State} (hk : s₀.Keeps W s) (hw : Field.sub [.net, .reqs, .seqNext] W = true) (G :
    Nat) (b : Nat) (item : Nat) (addr : Nat) (len : Nat) (user1 : Nat) (tag : Nat) : s₀.Keeps W (State.qSendItem s G b item addr len
    user1 tag) := by
  unfold State.qSendItem
  repeat' first
    | with_reducible assumption
    | with_reducible exact State.Keeps.refl _ _
    | with_reducible apply State.send_keeps (hw := Field.sub_trans (by decide) hw)
    | with_reducible refine keeps_ite ?_ ?_
    | with_reducible refine keeps_ite_fst ?_ ?_
    | intro _
    | dsimp only
    | split

theorem State.qAnnounced_keeps {W : List Field} {s₀ s : State} (hk : s₀.Keeps W s) (hw : Field.sub [.regs, .gals] W = true) (G : Nat) (b
    : Nat) : s₀.Keeps W (State.qAnnounced s G b) := by
  unfold State.qAnnounced
  repeat' first
    | with_reducible assumption
    | with_reducible exact State.Keeps.refl _ _
    | with_reducible apply State.setFld_keeps (hw := Field.sub_trans (by decide) hw)
    | with_reducible apply State.modQ_keeps (hw := Field.sub_trans (by decide) hw)
    | with_reducible apply State.qMark_keeps (hw := Field.sub_trans (by decide) hw)
    | with_reducible refine keeps_ite ?_ ?_
    | with_reducible refine keeps_ite_fst ?_ ?_
    | intro _
    | dsimp only
    | split

theorem State.qUnanswered_keeps {W : List Field} {s₀ s : State} (hk : s₀.Keeps W s) (hw : Field.sub [.regs, .gals] W = true) (G : Nat) (b
    : Nat) (st : Nat) : s₀.Keeps W (State.qUnanswered s G b st) := by
  unfold State.qUnanswered
  repeat' first
    | with_reducible assumption
    | with_reducible exact State.Keeps.refl _ _
    | with_reducible apply State.modQ_keeps (hw := Field.sub_trans (by decide) hw)
    | with_reducible apply State.qMark_keeps (hw := Field.sub_trans (by decide) hw)
    | with_reducible refine keeps_ite ?_ ?_
    | with_reducible refine keeps_ite_fst ?_ ?_
    | intro _
    | dsimp only
    | split

theorem State.qSendHigh_keeps {W : List Field} {s₀ s : State} (hk : s₀.Keeps W s) (hw : Field.sub [.regs, .gals, .net, .reqs, .seqNext] W
    = true) (G : Nat) (b : Nat) : s₀.Keeps W (State.qSendHigh s G b) := by
  unfold State.qSendHigh
  repeat' first
    | with_reducible assumption
    | with_reducible exact State.Keeps.refl _ _
    | with_reducible apply State.qUnanswered_keeps (hw := Field.sub_trans (by decide) hw)
    | with_reducible apply State.qSendItem_keeps (hw := Field.sub_trans (by decide) hw)
    | with_reducible refine keeps_ite ?_ ?_
    | with_reducible refine keeps_ite_fst ?_ ?_
    | intro _
    | dsimp only
    | split

theorem State.qAnnounce_keeps {W : List Field} {s₀ s : State} (hk : s₀.Keeps W s) (hw : Field.sub [.regs, .gals, .net, .reqs, .seqNext] W
    = true) (G : Nat) (b : Nat) : s₀.Keeps W (State.qAnnounce s G b) := by
  unfold State.qAnnounce
  repeat' first
    | with_reducible assumption
    | with_reducible exact State.Keeps.refl _ _
    | with_reducible apply State.qSendHigh_keeps (hw := Field.sub_trans (by decide) hw)
    | with_reducible apply State.modQ_keeps (hw := Field.sub_trans (by decide) hw)
    | with_reducible apply State.qAnnounced_keeps (hw := Field.sub_trans (by decide) hw)
    | with_reducible refine keeps_ite ?_ ?_
    | with_reducible refine keeps_ite_fst ?_ ?_
    | intro _
    | dsimp only
    | split

theorem State.qItemWrite_keeps {W : List Field} {s₀ s : State} (hk : s₀.Keeps W s) (hw : Field.sub [.regs, .gals, .net, .reqs, .seqNext]
    W = true) (G : Nat) (b : Nat) (v : Word) : s₀.Keeps W (State.qItemWrite s G b v) := by
  unfold State.qItemWrite
  repeat' first
    | with_reducible assumption
    | with_reducible exact State.Keeps.refl _ _
    | with_reducible apply State.qAnnounce_keeps (hw := Field.sub_trans (by decide) hw)
    | with_reducible apply State.writeFields_keeps (hw := Field.sub_trans (by decide) hw)
    | with_reducible refine keeps_ite ?_ ?_
    | with_reducible refine keeps_ite_fst ?_ ?_
    | intro _
    | dsimp only
    | split

theorem State.qResponse_keeps {W : List Field} {s₀ s : State} (hk : s₀.Keeps W s) (hw : Field.sub [.regs, .gals, .net, .reqs, .seqNext] W
    = true) (G : Nat) (b : Nat) (st : Nat) : s₀.Keeps W (State.qResponse s G b st) := by
  unfold State.qResponse
  repeat' first
    | with_reducible assumption
    | with_reducible exact State.Keeps.refl _ _
    | with_reducible apply State.qAnnounce_keeps (hw := Field.sub_trans (by decide) hw)
    | with_reducible apply State.qAnnounced_keeps (hw := Field.sub_trans (by decide) hw)
    | with_reducible apply State.qUnanswered_keeps (hw := Field.sub_trans (by decide) hw)
    | with_reducible refine keeps_ite ?_ ?_
    | with_reducible refine keeps_ite_fst ?_ ?_
    | intro _
    | dsimp only
    | split

theorem State.qLowResponse_keeps {W : List Field} {s₀ s : State} (hk : s₀.Keeps W s) (hw : Field.sub [.regs] W = true) (G : Nat) (b :
    Nat) (st : Nat) : s₀.Keeps W (State.qLowResponse s G b st) := by
  unfold State.qLowResponse
  repeat' first
    | with_reducible assumption
    | with_reducible exact State.Keeps.refl _ _
    | with_reducible apply State.qMark_keeps (hw := Field.sub_trans (by decide) hw)
    | with_reducible refine keeps_ite ?_ ?_
    | with_reducible refine keeps_ite_fst ?_ ?_
    | intro _
    | dsimp only
    | split

theorem State.qRetry_keeps {W : List Field} {s₀ s : State} (hk : s₀.Keeps W s) (hw : Field.sub [.regs, .gals, .ev, .net, .reqs, .seqNext]
    W = true) (G : Nat) (b : Nat) : s₀.Keeps W (State.qRetry s G b) := by
  unfold State.qRetry
  repeat' first
    | with_reducible assumption
    | with_reducible exact State.Keeps.refl _ _
    | with_reducible apply State.postGal_keeps (hw := Field.sub_trans (by decide) hw)
    | with_reducible apply State.qSendHigh_keeps (hw := Field.sub_trans (by decide) hw)
    | with_reducible apply State.modQ_keeps (hw := Field.sub_trans (by decide) hw)
    | with_reducible refine keeps_ite ?_ ?_
    | with_reducible refine keeps_ite_fst ?_ ?_
    | intro _
    | dsimp only
    | split

theorem State.qOverflow_keeps {W : List Field} {s₀ s : State} (hk : s₀.Keeps W s) (hw : Field.sub [.regs, .ev] W = true) (G : Nat) (b :
    Nat) (path : Nat) : s₀.Keeps W (State.qOverflow s G b path) := by
  unfold State.qOverflow
  repeat' first
    | with_reducible assumption
    | with_reducible exact State.Keeps.refl _ _
    | with_reducible apply State.postLim_keeps (hw := Field.sub_trans (by decide) hw)
    | with_reducible apply State.incFld_keeps (hw := Field.sub_trans (by decide) hw)
    | with_reducible apply State.qMark_keeps (hw := Field.sub_trans (by decide) hw)
    | with_reducible refine keeps_ite ?_ ?_
    | with_reducible refine keeps_ite_fst ?_ ?_
    | intro _
    | dsimp only
    | split

theorem State.qUnderflow_keeps {W : List Field} {s₀ s : State} (hk : s₀.Keeps W s) (hw : Field.sub [.regs, .ev] W = true) (G : Nat) (b :
    Nat) (path : Nat) : s₀.Keeps W (State.qUnderflow s G b path) := by
  unfold State.qUnderflow
  repeat' first
    | with_reducible assumption
    | with_reducible exact State.Keeps.refl _ _
    | with_reducible apply State.postLim_keeps (hw := Field.sub_trans (by decide) hw)
    | with_reducible apply State.incFld_keeps (hw := Field.sub_trans (by decide) hw)
    | with_reducible apply State.qMark_keeps (hw := Field.sub_trans (by decide) hw)
    | with_reducible refine keeps_ite ?_ ?_
    | with_reducible refine keeps_ite_fst ?_ ?_
    | intro _
    | dsimp only
    | split

theorem State.qPushed_keeps {W : List Field} {s₀ s : State} (hk : s₀.Keeps W s) (hw : Field.sub [.regs, .gals, .net, .reqs, .seqNext] W =
    true) (G : Nat) (b : Nat) : s₀.Keeps W (State.qPushed s G b) := by
  unfold State.qPushed
  repeat' first
    | with_reducible assumption
    | with_reducible exact State.Keeps.refl _ _
    | with_reducible apply State.setFld_keeps (hw := Field.sub_trans (by decide) hw)
    | with_reducible apply State.qAnnounce_keeps (hw := Field.sub_trans (by decide) hw)
    | with_reducible apply State.modQ_keeps (hw := Field.sub_trans (by decide) hw)
    | with_reducible refine keeps_ite ?_ ?_
    | with_reducible refine keeps_ite_fst ?_ ?_
    | intro _
    | dsimp only
    | split

theorem State.qPopped_keeps {W : List Field} {s₀ s : State} (hk : s₀.Keeps W s) (hw : Field.sub [.regs, .net, .reqs, .seqNext] W = true)
    (G : Nat) (b : Nat) : s₀.Keeps W (State.qPopped s G b) := by
  unfold State.qPopped
  repeat' first
    | with_reducible assumption
    | with_reducible exact State.Keeps.refl _ _
    | with_reducible apply State.setFld_keeps (hw := Field.sub_trans (by decide) hw)
    | with_reducible apply State.qMark_keeps (hw := Field.sub_trans (by decide) hw)
    | with_reducible apply State.qLowResponse_keeps (hw := Field.sub_trans (by decide) hw)
    | with_reducible apply State.qSendItem_keeps (hw := Field.sub_trans (by decide) hw)
    | with_reducible refine keeps_ite ?_ ?_
    | with_reducible refine keeps_ite_fst ?_ ?_
    | intro _
    | dsimp only
    | split

theorem State.qDiscard_keeps {W : List Field} {s₀ s : State} (hk : s₀.Keeps W s) (hw : Field.sub [.regs] W = true) (G : Nat) (b : Nat) :
    s₀.Keeps W (State.qDiscard s G b) := by
  unfold State.qDiscard
  repeat' first
    | with_reducible assumption
    | with_reducible exact State.Keeps.refl _ _
    | with_reducible apply State.setFld_keeps (hw := Field.sub_trans (by decide) hw)
    | with_reducible apply State.clrReg_keeps (hw := Field.sub_trans (by decide) hw)
    | with_reducible refine keeps_ite ?_ ?_
    | with_reducible refine keeps_ite_fst ?_ ?_
    | intro _
    | dsimp only
    | split

theorem State.qCfgWrite_keeps {W : List Field} {s₀ s : State} (hk : s₀.Keeps W s) (hw : Field.sub [.regs, .gals, .ev] W = true) (G : Nat)
    (b : Nat) (v : Word) : s₀.Keeps W (State.qCfgWrite s G b v) := by
  unfold State.qCfgWrite
  repeat' first
    | with_reducible assumption
    | with_reducible exact State.Keeps.refl _ _
    | with_reducible apply State.modGal_keeps (hw := Field.sub_trans (by decide) hw)
    | with_reducible apply State.qDiscard_keeps (hw := Field.sub_trans (by decide) hw)
    | with_reducible apply State.setFld_keeps (hw := Field.sub_trans (by decide) hw)
    | with_reducible apply State.postGal_keeps (hw := Field.sub_trans (by decide) hw)
    | with_reducible refine keeps_ite ?_ ?_
    | with_reducible refine keeps_ite_fst ?_ ?_
    | intro _
    | dsimp only
    | split

theorem State.qLockedWrite_keeps {W : List Field} {s₀ s : State} (hk : s₀.Keeps W s) (hw : Field.sub [.regs] W = true) (G : Nat) (b :
    Nat) (a : Nat) (v : Word) : s₀.Keeps W (State.qLockedWrite s G b a v) := by
  unfold State.qLockedWrite
  repeat' first
    | with_reducible assumption
    | with_reducible exact State.Keeps.refl _ _
    | with_reducible apply State.writeFields_keeps (hw := Field.sub_trans (by decide) hw)
    | with_reducible refine keeps_ite ?_ ?_
    | with_reducible refine keeps_ite_fst ?_ ?_
    | intro _
    | dsimp only
    | split

theorem State.setPrismQ_keeps {W : List Field} {s₀ s : State} (hk : s₀.Keeps W s) (hw : Field.sub [.gals] W = true) (G : Nat) (k : Nat)
    (l : List PrismReq) : s₀.Keeps W (State.setPrismQ s G k l) := by
  unfold State.setPrismQ
  repeat' first
    | with_reducible assumption
    | with_reducible exact State.Keeps.refl _ _
    | with_reducible apply State.modGal_keeps (hw := Field.sub_trans (by decide) hw)
    | with_reducible refine keeps_ite ?_ ?_
    | with_reducible refine keeps_ite_fst ?_ ?_
    | intro _
    | dsimp only
    | split

theorem State.prismRequest_keeps {W : List Field} {s₀ s : State} (hk : s₀.Keeps W s) (hw : Field.sub [.regs, .gals, .ev] W = true) (G :
    Nat) (k : Nat) (op : PrismOp) (b3 : Nat) (row : Nat) (be : BitVec 128) (wd : BitVec 1024) (parity : Bool) : s₀.Keeps W
    (State.prismRequest s G k op b3 row be wd parity) := by
  unfold State.prismRequest
  repeat' first
    | with_reducible assumption
    | with_reducible exact State.Keeps.refl _ _
    | with_reducible apply State.bankDenied_keeps (hw := Field.sub_trans (by decide) hw)
    | with_reducible apply State.modGal_keeps (hw := Field.sub_trans (by decide) hw)
    | with_reducible apply State.setPrismQ_keeps (hw := Field.sub_trans (by decide) hw)
    | with_reducible refine keeps_ite ?_ ?_
    | with_reducible refine keeps_ite_fst ?_ ?_
    | intro _
    | dsimp only
    | split

theorem State.rowRead_keeps {W : List Field} {s₀ s : State} (hk : s₀.Keeps W s) (hw : Field.sub [.regs, .gals, .ev] W = true) (G : Nat)
    (off : Nat) (path : MemPath) (f : EccFacts) : s₀.Keeps W (State.rowRead s G off path f).1 := by
  unfold State.rowRead
  repeat' first
    | with_reducible assumption
    | with_reducible exact State.Keeps.refl _ _
    | with_reducible apply State.eccReport_keeps (hw := Field.sub_trans (by decide) hw)
    | with_reducible refine keeps_ite ?_ ?_
    | with_reducible refine keeps_ite_fst ?_ ?_
    | intro _
    | dsimp only
    | split

theorem State.rowWrite_keeps {W : List Field} {s₀ s : State} (hk : s₀.Keeps W s) (hw : Field.sub [.mem, .gals] W = true) (G : Nat) (off :
    Nat) (be : BitVec 128) (wd : BitVec 1024) : s₀.Keeps W (State.rowWrite s G off be wd) := by
  unfold State.rowWrite
  repeat' first
    | with_reducible assumption
    | with_reducible exact State.Keeps.refl _ _
    | with_reducible apply State.writeEnabled_keeps (hw := Field.sub_trans (by decide) hw)
    | with_reducible apply State.cancelWb_keeps (hw := Field.sub_trans (by decide) hw)
    | with_reducible refine keeps_ite ?_ ?_
    | with_reducible refine keeps_ite_fst ?_ ?_
    | intro _
    | dsimp only
    | split

theorem State.prismPerform_keeps {W : List Field} {s₀ s : State} (hk : s₀.Keeps W s) (hw : Field.sub [.regs, .mem, .gals, .ev, .net,
    .reqs, .seqNext] W = true) (G : Nat) (r : PrismReq) (f : EccFacts) : s₀.Keeps W (State.prismPerform s G r f).1 := by
  unfold State.prismPerform
  repeat' first
    | with_reducible assumption
    | with_reducible exact State.Keeps.refl _ _
    | with_reducible apply State.rowRead_keeps (hw := Field.sub_trans (by decide) hw)
    | with_reducible apply State.rowWrite_keeps (hw := Field.sub_trans (by decide) hw)
    | with_reducible apply State.bankDenied_keeps (hw := Field.sub_trans (by decide) hw)
    | with_reducible apply State.qOverflow_keeps (hw := Field.sub_trans (by decide) hw)
    | with_reducible apply State.qPushed_keeps (hw := Field.sub_trans (by decide) hw)
    | with_reducible apply State.qUnderflow_keeps (hw := Field.sub_trans (by decide) hw)
    | with_reducible apply State.qPopped_keeps (hw := Field.sub_trans (by decide) hw)
    | with_reducible refine keeps_ite ?_ ?_
    | with_reducible refine keeps_ite_fst ?_ ?_
    | intro _
    | dsimp only
    | split

theorem State.setRep_keeps {W : List Field} {s₀ s : State} (hk : s₀.Keeps W s) (hw : Field.sub [.gals] W = true) (G : Nat) (b : Nat) (i :
    Nat) (e : RepEntry) : s₀.Keeps W (State.setRep s G b i e) := by
  unfold State.setRep
  repeat' first
    | with_reducible assumption
    | with_reducible exact State.Keeps.refl _ _
    | with_reducible apply State.modGal_keeps (hw := Field.sub_trans (by decide) hw)
    | with_reducible refine keeps_ite ?_ ?_
    | with_reducible refine keeps_ite_fst ?_ ?_
    | intro _
    | dsimp only
    | split

theorem State.prismStalls_keeps {W : List Field} {s₀ s : State} (hk : s₀.Keeps W s) (hw : Field.sub [.regs, .gals] W = true) (G : Nat) (b
    : Nat) : s₀.Keeps W (State.prismStalls s G b) := by
  unfold State.prismStalls
  repeat' first
    | with_reducible assumption
    | with_reducible exact State.Keeps.refl _ _
    | with_reducible apply State.modGal_keeps (hw := Field.sub_trans (by decide) hw)
    | with_reducible apply State.incFld_keeps (hw := Field.sub_trans (by decide) hw)
    | with_reducible refine keeps_ite ?_ ?_
    | with_reducible refine keeps_ite_fst ?_ ?_
    | intro _
    | dsimp only
    | split

theorem State.prismGranted_keeps {W : List Field} {s₀ s : State} (hk : s₀.Keeps W s) (hw : Field.sub [.regs, .mem, .gals, .ev, .net,
    .reqs, .seqNext] W = true) (G : Nat) (b : Nat) (r : PrismReq) (f : EccFacts) : s₀.Keeps W (State.prismGranted s G b r f) := by
  unfold State.prismGranted
  repeat' first
    | with_reducible assumption
    | with_reducible exact State.Keeps.refl _ _
    | with_reducible apply State.prismPerform_keeps (hw := Field.sub_trans (by decide) hw)
    | with_reducible apply State.modGal_keeps (hw := Field.sub_trans (by decide) hw)
    | with_reducible apply State.setPrismQ_keeps (hw := Field.sub_trans (by decide) hw)
    | with_reducible refine keeps_ite ?_ ?_
    | with_reducible refine keeps_ite_fst ?_ ?_
    | intro _
    | dsimp only
    | split

theorem State.saveChecks_keeps {W : List Field} {s₀ s : State} (hk : s₀.Keeps W s) (hw : Field.sub [.regs, .gals, .ev, .free] W = true)
    (G : Nat) (b : Nat) (r : Nat) (f : EccFacts) : s₀.Keeps W (State.saveChecks s G b r f) := by
  unfold State.saveChecks
  repeat' first
    | with_reducible assumption
    | with_reducible exact State.Keeps.refl _ _
    | with_reducible apply State.eccReport_keeps (hw := Field.sub_trans (by decide) hw)
    | with_reducible apply State.incFld_keeps (hw := Field.sub_trans (by decide) hw)
    | with_reducible apply State.draw_keeps (hw := Field.sub_trans (by decide) hw)
    | with_reducible apply State.setReg_keeps (hw := Field.sub_trans (by decide) hw)
    | with_reducible apply State.postLim_keeps (hw := Field.sub_trans (by decide) hw)
    | with_reducible refine keeps_ite ?_ ?_
    | with_reducible refine keeps_ite_fst ?_ ?_
    | intro _
    | dsimp only
    | split

theorem State.memtestStart_keeps {W : List Field} {s₀ s : State} (hk : s₀.Keeps W s) (hw : Field.sub [.regs, .gals, .ev, .free] W = true)
    (G : Nat) (b : Nat) (f : EccFacts) : s₀.Keeps W (State.memtestStart s G b f) := by
  unfold State.memtestStart
  repeat' first
    | with_reducible assumption
    | with_reducible exact State.Keeps.refl _ _
    | with_reducible apply State.modGal_keeps (hw := Field.sub_trans (by decide) hw)
    | with_reducible apply State.saveChecks_keeps (hw := Field.sub_trans (by decide) hw)
    | with_reducible refine keeps_ite ?_ ?_
    | with_reducible refine keeps_ite_fst ?_ ?_
    | intro _
    | dsimp only
    | split

theorem State.memtestFault_keeps {W : List Field} {s₀ s : State} (hk : s₀.Keeps W s) (hw : Field.sub [.regs, .gals, .ev] W = true) (G :
    Nat) (b : Nat) (t : MemTest) (bit : Nat) : s₀.Keeps W (State.memtestFault s G b t bit) := by
  unfold State.memtestFault
  repeat' first
    | with_reducible assumption
    | with_reducible exact State.Keeps.refl _ _
    | with_reducible apply State.incFld_keeps (hw := Field.sub_trans (by decide) hw)
    | with_reducible apply State.setReg_keeps (hw := Field.sub_trans (by decide) hw)
    | with_reducible apply State.modGal_keeps (hw := Field.sub_trans (by decide) hw)
    | with_reducible apply State.postGal_keeps (hw := Field.sub_trans (by decide) hw)
    | with_reducible refine keeps_ite ?_ ?_
    | with_reducible refine keeps_ite_fst ?_ ?_
    | intro _
    | dsimp only
    | split

theorem State.memtestMarch_keeps {W : List Field} {s₀ s : State} (hk : s₀.Keeps W s) (hw : Field.sub [.regs, .gals, .ev] W = true) (G :
    Nat) (b : Nat) (t : MemTest) (diff : Option Nat) : s₀.Keeps W (State.memtestMarch s G b t diff) := by
  unfold State.memtestMarch
  repeat' first
    | with_reducible assumption
    | with_reducible exact State.Keeps.refl _ _
    | with_reducible apply State.memtestFault_keeps (hw := Field.sub_trans (by decide) hw)
    | with_reducible apply State.modGal_keeps (hw := Field.sub_trans (by decide) hw)
    | with_reducible refine keeps_ite ?_ ?_
    | with_reducible refine keeps_ite_fst ?_ ?_
    | intro _
    | dsimp only
    | split

theorem State.replaceRow_keeps {W : List Field} {s₀ s : State} (hk : s₀.Keeps W s) (hw : Field.sub [.gals] W = true) (G : Nat) (b : Nat)
    (r : Nat) (a : Nat) (i : Nat) (live : Bool) : s₀.Keeps W (State.replaceRow s G b r a i live) := by
  unfold State.replaceRow
  repeat' first
    | with_reducible assumption
    | with_reducible exact State.Keeps.refl _ _
    | with_reducible apply State.setRep_keeps (hw := Field.sub_trans (by decide) hw)
    | with_reducible apply State.modGal_keeps (hw := Field.sub_trans (by decide) hw)
    | with_reducible refine keeps_ite ?_ ?_
    | with_reducible refine keeps_ite_fst ?_ ?_
    | intro _
    | dsimp only
    | split

theorem State.memtestRepair_keeps {W : List Field} {s₀ s : State} (hk : s₀.Keeps W s) (hw : Field.sub [.regs, .gals, .ev] W = true) (G :
    Nat) (b : Nat) (t : MemTest) : s₀.Keeps W (State.memtestRepair s G b t) := by
  unfold State.memtestRepair
  repeat' first
    | with_reducible assumption
    | with_reducible exact State.Keeps.refl _ _
    | with_reducible apply State.setRep_keeps (hw := Field.sub_trans (by decide) hw)
    | with_reducible apply State.replaceRow_keeps (hw := Field.sub_trans (by decide) hw)
    | with_reducible apply State.setFld_keeps (hw := Field.sub_trans (by decide) hw)
    | with_reducible apply State.postGal_keeps (hw := Field.sub_trans (by decide) hw)
    | with_reducible refine keeps_ite ?_ ?_
    | with_reducible refine keeps_ite_fst ?_ ?_
    | intro _
    | dsimp only
    | split

theorem State.faultMapped_keeps {W : List Field} {s₀ s : State} (hk : s₀.Keeps W s) (hw : Field.sub [.gals] W = true) (G : Nat) (x : Nat
    × Nat) : s₀.Keeps W (State.faultMapped s G x) := by
  unfold State.faultMapped
  repeat' first
    | with_reducible assumption
    | with_reducible exact State.Keeps.refl _ _
    | with_reducible apply State.replaceRow_keeps (hw := Field.sub_trans (by decide) hw)
    | with_reducible refine keeps_ite ?_ ?_
    | with_reducible refine keeps_ite_fst ?_ ?_
    | intro _
    | dsimp only
    | split

theorem State.testRestored_keeps {W : List Field} {s₀ s : State} (hk : s₀.Keeps W s) (hw : Field.sub [.regs, .gals, .ev] W = true) (G :
    Nat) (b : Nat) (t : MemTest) : s₀.Keeps W (State.testRestored s G b t) := by
  unfold State.testRestored
  repeat' first
    | with_reducible assumption
    | with_reducible exact State.Keeps.refl _ _
    | with_reducible apply State.memtestRepair_keeps (hw := Field.sub_trans (by decide) hw)
    | with_reducible apply State.modGal_keeps (hw := Field.sub_trans (by decide) hw)
    | with_reducible apply State.incFld_keeps (hw := Field.sub_trans (by decide) hw)
    | with_reducible refine keeps_ite ?_ ?_
    | with_reducible refine keeps_ite_fst ?_ ?_
    | intro _
    | dsimp only
    | split

theorem State.memtestRestore_keeps {W : List Field} {s₀ s : State} (hk : s₀.Keeps W s) (hw : Field.sub [.regs, .gals, .ev] W = true) (G :
    Nat) (b : Nat) : s₀.Keeps W (State.memtestRestore s G b) := by
  unfold State.memtestRestore
  repeat' first
    | with_reducible assumption
    | with_reducible exact State.Keeps.refl _ _
    | with_reducible apply State.prismStalls_keeps (hw := Field.sub_trans (by decide) hw)
    | with_reducible apply State.testRestored_keeps (hw := Field.sub_trans (by decide) hw)
    | with_reducible refine keeps_ite ?_ ?_
    | with_reducible refine keeps_ite_fst ?_ ?_
    | intro _
    | dsimp only
    | split

theorem State.byteWriteBack_keeps {W : List Field} {s₀ s : State} (hk : s₀.Keeps W s) (hw : Field.sub [.regs, .mem, .gals, .ev] W = true)
    (G : Nat) (b : Nat) (f : EccFacts) : s₀.Keeps W (State.byteWriteBack s G b f) := by
  unfold State.byteWriteBack
  repeat' first
    | with_reducible assumption
    | with_reducible exact State.Keeps.refl _ _
    | with_reducible apply State.modGal_keeps (hw := Field.sub_trans (by decide) hw)
    | with_reducible apply State.eccReport_keeps (hw := Field.sub_trans (by decide) hw)
    | with_reducible apply State.writeByte_keeps (hw := Field.sub_trans (by decide) hw)
    | with_reducible refine keeps_ite ?_ ?_
    | with_reducible refine keeps_ite_fst ?_ ?_
    | intro _
    | dsimp only
    | split

theorem State.marchStep_keeps {W : List Field} {s₀ s : State} (hk : s₀.Keeps W s) (hw : Field.sub [.regs, .gals, .ev] W = true) (G : Nat)
    (b : Nat) (diff : Option Nat) : s₀.Keeps W (State.marchStep s G b diff) := by
  unfold State.marchStep
  repeat' first
    | with_reducible assumption
    | with_reducible exact State.Keeps.refl _ _
    | with_reducible apply State.memtestMarch_keeps (hw := Field.sub_trans (by decide) hw)
    | with_reducible refine keeps_ite ?_ ?_
    | with_reducible refine keeps_ite_fst ?_ ?_
    | intro _
    | dsimp only
    | split

theorem State.bankGrant_keeps {W : List Field} {s₀ s : State} (hk : s₀.Keeps W s) (hw : Field.sub [.regs, .mem, .gals, .ev, .net, .reqs,
    .seqNext] W = true) (G : Nat) (b : Nat) (f : EccFacts) (diff : Option Nat) : s₀.Keeps W (State.bankGrant s G b f diff) := by
  unfold State.bankGrant
  repeat' first
    | with_reducible assumption
    | with_reducible exact State.Keeps.refl _ _
    | with_reducible apply State.memtestRestore_keeps (hw := Field.sub_trans (by decide) hw)
    | with_reducible apply State.prismGranted_keeps (hw := Field.sub_trans (by decide) hw)
    | with_reducible apply State.marchStep_keeps (hw := Field.sub_trans (by decide) hw)
    | with_reducible apply State.byteWriteBack_keeps (hw := Field.sub_trans (by decide) hw)
    | with_reducible refine keeps_ite ?_ ?_
    | with_reducible refine keeps_ite_fst ?_ ?_
    | intro _
    | dsimp only
    | split

theorem State.bankAccess_keeps {W : List Field} {s₀ s : State} (hk : s₀.Keeps W s) (hw : Field.sub [.regs, .mem, .gals, .ev, .net, .reqs,
    .seqNext] W = true) (G : Nat) (b : Nat) (f : EccFacts) (diff : Option Nat) : s₀.Keeps W (State.bankAccess s G b f diff) := by
  unfold State.bankAccess
  repeat' first
    | with_reducible assumption
    | with_reducible exact State.Keeps.refl _ _
    | with_reducible apply State.qAnnounce_keeps (hw := Field.sub_trans (by decide) hw)
    | with_reducible apply State.bankGrant_keeps (hw := Field.sub_trans (by decide) hw)
    | with_reducible refine keeps_ite ?_ ?_
    | with_reducible refine keeps_ite_fst ?_ ?_
    | intro _
    | dsimp only
    | split

theorem State.prismCompletion_keeps {W : List Field} {s₀ s : State} (hk : s₀.Keeps W s) (hw : Field.sub [.regs, .gals] W = true) (G :
    Nat) (k : Nat) : s₀.Keeps W (State.prismCompletion s G k) := by
  unfold State.prismCompletion
  repeat' first
    | with_reducible assumption
    | with_reducible exact State.Keeps.refl _ _
    | with_reducible apply State.setPrismQ_keeps (hw := Field.sub_trans (by decide) hw)
    | with_reducible apply State.incFld_keeps (hw := Field.sub_trans (by decide) hw)
    | with_reducible apply State.modGal_keeps (hw := Field.sub_trans (by decide) hw)
    | with_reducible refine keeps_ite ?_ ?_
    | with_reducible refine keeps_ite_fst ?_ ?_
    | intro _
    | dsimp only
    | split

theorem execPrismRequest_keeps {s : State} (G : GalIx) (k : Fin 4) (op : PrismOp) (bank : Fin 8) (row : Fin 2048) (be : BitVec 128)
    (wdata : BitVec 1024) (parity : Bool) : ∃ nx, execPrismRequest G k op bank row be wdata parity s = .next nx ∧ s.Keeps [.regs, .gals,
    .ev] nx := by
  have hw : Field.sub [.regs, .gals, .ev] [.regs, .gals, .ev] = true := by decide
  refine ⟨_, rfl, ?_⟩
  have hk := State.Keeps.refl [.regs, .gals, .ev] s
  repeat' first
    | with_reducible assumption
    | with_reducible exact State.Keeps.refl _ _
    | with_reducible apply State.prismRequest_keeps (hw := Field.sub_trans (by decide) hw)
    | with_reducible refine keeps_ite ?_ ?_
    | with_reducible refine keeps_ite_fst ?_ ?_
    | intro _
    | dsimp only
    | split

theorem execBankAccess_keeps {s : State} (G : GalIx) (b : BankIx) (f : EccFacts) (diff : Option (Fin 1664)) : ∃ nx, execBankAccess G b f
    diff s = .next nx ∧ s.Keeps [.regs, .mem, .gals, .ev, .net, .reqs, .seqNext] nx := by
  have hw : Field.sub [.regs, .mem, .gals, .ev, .net, .reqs, .seqNext] [.regs, .mem, .gals, .ev, .net, .reqs, .seqNext] = true := by
    decide
  refine ⟨_, rfl, ?_⟩
  have hk := State.Keeps.refl [.regs, .mem, .gals, .ev, .net, .reqs, .seqNext] s
  repeat' first
    | with_reducible assumption
    | with_reducible exact State.Keeps.refl _ _
    | with_reducible apply State.bankAccess_keeps (hw := Field.sub_trans (by decide) hw)
    | with_reducible refine keeps_ite ?_ ?_
    | with_reducible refine keeps_ite_fst ?_ ?_
    | intro _
    | dsimp only
    | split

theorem execPrismCompletion_keeps {s : State} (G : GalIx) (k : Fin 4) : ∃ nx, execPrismCompletion G k s = .next nx ∧ s.Keeps [.regs,
    .gals] nx := by
  have hw : Field.sub [.regs, .gals] [.regs, .gals] = true := by decide
  refine ⟨_, rfl, ?_⟩
  have hk := State.Keeps.refl [.regs, .gals] s
  repeat' first
    | with_reducible assumption
    | with_reducible exact State.Keeps.refl _ _
    | with_reducible apply State.prismCompletion_keeps (hw := Field.sub_trans (by decide) hw)
    | with_reducible refine keeps_ite ?_ ?_
    | with_reducible refine keeps_ite_fst ?_ ?_
    | intro _
    | dsimp only
    | split

theorem execQueueEnqRetry_keeps {s : State} (G : GalIx) (b : BankIx) : ∃ nx, execQueueEnqRetry G b s = .next nx ∧ s.Keeps [.regs, .gals,
    .ev, .net, .reqs, .seqNext] nx := by
  have hw : Field.sub [.regs, .gals, .ev, .net, .reqs, .seqNext] [.regs, .gals, .ev, .net, .reqs, .seqNext] = true := by decide
  refine ⟨_, rfl, ?_⟩
  have hk := State.Keeps.refl [.regs, .gals, .ev, .net, .reqs, .seqNext] s
  repeat' first
    | with_reducible assumption
    | with_reducible exact State.Keeps.refl _ _
    | with_reducible apply State.qRetry_keeps (hw := Field.sub_trans (by decide) hw)
    | with_reducible refine keeps_ite ?_ ?_
    | with_reducible refine keeps_ite_fst ?_ ?_
    | intro _
    | dsimp only
    | split

theorem execGalQCfgWrite_keeps {s : State} (G : GalIx) (b : BankIx) (v : Word) : ∃ nx, execGalQCfgWrite G b v s = .next nx ∧ s.Keeps
    [.regs, .gals, .ev] nx := by
  have hw : Field.sub [.regs, .gals, .ev] [.regs, .gals, .ev] = true := by decide
  refine ⟨_, rfl, ?_⟩
  have hk := State.Keeps.refl [.regs, .gals, .ev] s
  repeat' first
    | with_reducible assumption
    | with_reducible exact State.Keeps.refl _ _
    | with_reducible apply State.qCfgWrite_keeps (hw := Field.sub_trans (by decide) hw)
    | with_reducible refine keeps_ite ?_ ?_
    | with_reducible refine keeps_ite_fst ?_ ?_
    | intro _
    | dsimp only
    | split

theorem execMemtestRowStart_keeps {s : State} (G : GalIx) (r : RowSave) : ∃ nx, execMemtestRowStart G r s = .next nx ∧ s.Keeps [.regs,
    .gals, .ev, .free] nx := by
  have hw : Field.sub [.regs, .gals, .ev, .free] [.regs, .gals, .ev, .free] = true := by decide
  refine ⟨_, rfl, ?_⟩
  have hk := State.Keeps.refl [.regs, .gals, .ev, .free] s
  repeat' first
    | with_reducible assumption
    | with_reducible exact State.Keeps.refl _ _
    | with_reducible apply State.memtestStart_keeps (hw := Field.sub_trans (by decide) hw)
    | with_reducible refine keeps_ite ?_ ?_
    | with_reducible refine keeps_ite_fst ?_ ?_
    | intro _
    | dsimp only
    | split

theorem execMemtestRestore_keeps {s : State} (G : GalIx) (b : BankIx) : ∃ nx, execMemtestRestore G b s = .next nx ∧ s.Keeps [.regs,
    .gals, .ev] nx := by
  have hw : Field.sub [.regs, .gals, .ev] [.regs, .gals, .ev] = true := by decide
  refine ⟨_, rfl, ?_⟩
  have hk := State.Keeps.refl [.regs, .gals, .ev] s
  repeat' first
    | with_reducible assumption
    | with_reducible exact State.Keeps.refl _ _
    | with_reducible apply State.memtestRestore_keeps (hw := Field.sub_trans (by decide) hw)
    | with_reducible refine keeps_ite ?_ ?_
    | with_reducible refine keeps_ite_fst ?_ ?_
    | intro _
    | dsimp only
    | split

end Sys2Proof.Machine
end

