-- ==== Sys2Proof/Laws/KeepsGweak.lean ====
section
/-!
SUPPORT. Laws/KeepsGweak.lean: the operations of Machine/Gweak.lean keep State.Keeps.
-/
namespace Sys2Proof.Machine
open Sys2Proof

theorem State.enqAccept_keeps {W : List Field} {s₀ s : State} (hk : s₀.Keeps W s) (hw : Field.sub [.regs, .halls] W = true) (h : Nat) (d
    : BitVec 256) (remote : Bool) : s₀.Keeps W (State.enqAccept s h d remote) := by
  unfold State.enqAccept
  repeat' first
    | with_reducible assumption
    | with_reducible exact State.Keeps.refl _ _
    | with_reducible apply State.setFld_keeps (hw := Field.sub_trans (by decide) hw)
    | with_reducible apply State.flowSync_keeps (hw := Field.sub_trans (by decide) hw)
    | with_reducible apply State.delaySync_keeps (hw := Field.sub_trans (by decide) hw)
    | with_reducible apply State.modGwk_keeps (hw := Field.sub_trans (by decide) hw)
    | with_reducible apply State.incFld_keeps (hw := Field.sub_trans (by decide) hw)
    | with_reducible apply State.modFlow_keeps (hw := Field.sub_trans (by decide) hw)
    | with_reducible refine keeps_ite ?_ ?_
    | with_reducible refine keeps_ite_fst ?_ ?_
    | intro _
    | dsimp only
    | split

theorem State.enqueue_keeps {W : List Field} {s₀ s : State} (hk : s₀.Keeps W s) (hw : Field.sub [.regs, .halls, .ev] W = true) (h : Nat)
    (d : BitVec 256) (sh : Nat) (sn : Nat) (host : Bool) (remote : Bool) : s₀.Keeps W (State.enqueue s h d sh sn host remote).1 := by
  unfold State.enqueue
  repeat' first
    | with_reducible assumption
    | with_reducible exact State.Keeps.refl _ _
    | with_reducible apply State.postLim_keeps (hw := Field.sub_trans (by decide) hw)
    | with_reducible apply State.enqAccept_keeps (hw := Field.sub_trans (by decide) hw)
    | with_reducible refine keeps_ite ?_ ?_
    | with_reducible refine keeps_ite_fst ?_ ?_
    | intro _
    | dsimp only
    | split

theorem State.enqPacketAt_keeps {W : List Field} {s₀ s : State} (hk : s₀.Keeps W s) (hw : Field.sub [.regs, .halls, .ev, .net, .reqs,
    .seqNext, .free] W = true) (h : Nat) (p : Packet) : s₀.Keeps W (State.enqPacketAt s h p) := by
  unfold State.enqPacketAt
  repeat' first
    | with_reducible assumption
    | with_reducible exact State.Keeps.refl _ _
    | with_reducible apply State.send_keeps (hw := Field.sub_trans (by decide) hw)
    | with_reducible apply State.enqueue_keeps (hw := Field.sub_trans (by decide) hw)
    | with_reducible apply State.gwkTrace_keeps (hw := Field.sub_trans (by decide) hw)
    | with_reducible apply State.respond_keeps (hw := Field.sub_trans (by decide) hw)
    | with_reducible refine keeps_ite ?_ ?_
    | with_reducible refine keeps_ite_fst ?_ ?_
    | intro _
    | dsimp only
    | simp (disch := first | assumption | (with_unfolding_all (intro (x : Field) hx; cases x <;>
        first | exact absurd hx (by decide) | (dsimp only [Field.same]; done) | (dsimp only [Field.same]; exact ⟨rfl, rfl⟩)))) only [keeps_mk hw]
    | split

theorem State.gwkEnqGo_keeps {W : List Field} {s₀ s : State} (hk : s₀.Keeps W s) (hw : Field.sub [.regs, .net, .reqs, .seqNext] W = true)
    (h : Nat) (v : Word) : s₀.Keeps W (State.gwkEnqGo s h v) := by
  unfold State.gwkEnqGo
  repeat' first
    | with_reducible assumption
    | with_reducible exact State.Keeps.refl _ _
    | with_reducible apply State.send_keeps (hw := Field.sub_trans (by decide) hw)
    | with_reducible apply State.setFld_keeps (hw := Field.sub_trans (by decide) hw)
    | with_reducible refine keeps_ite ?_ ?_
    | with_reducible refine keeps_ite_fst ?_ ?_
    | intro _
    | dsimp only
    | split

theorem State.gwkEnqRsp_keeps {W : List Field} {s₀ s : State} (hk : s₀.Keeps W s) (hw : Field.sub [.regs] W = true) (h : Nat) (st : Nat)
    : s₀.Keeps W (State.gwkEnqRsp s h st) := by
  unfold State.gwkEnqRsp
  repeat' first
    | with_reducible assumption
    | with_reducible exact State.Keeps.refl _ _
    | with_reducible apply State.setFld_keeps (hw := Field.sub_trans (by decide) hw)
    | with_reducible refine keeps_ite ?_ ?_
    | with_reducible refine keeps_ite_fst ?_ ?_
    | intro _
    | dsimp only
    | split

theorem State.deliver_keeps {W : List Field} {s₀ s : State} (hk : s₀.Keeps W s) (hw : Field.sub [.regs, .halls, .net, .reqs, .seqNext] W
    = true) (h : Nat) (v : Nat) (d : BitVec 256) : s₀.Keeps W (State.deliver s h v d) := by
  unfold State.deliver
  repeat' first
    | with_reducible assumption
    | with_reducible exact State.Keeps.refl _ _
    | with_reducible apply State.modGwk_keeps (hw := Field.sub_trans (by decide) hw)
    | with_reducible apply State.modSrv_keeps (hw := Field.sub_trans (by decide) hw)
    | with_reducible apply State.send_keeps (hw := Field.sub_trans (by decide) hw)
    | with_reducible apply State.setSrvState_keeps (hw := Field.sub_trans (by decide) hw)
    | with_reducible refine keeps_ite ?_ ?_
    | with_reducible refine keeps_ite_fst ?_ ?_
    | intro _
    | dsimp only
    | split

theorem State.takeHead_keeps {W : List Field} {s₀ s : State} (hk : s₀.Keeps W s) (hw : Field.sub [.regs, .halls] W = true) (h : Nat) (f :
    Nat) (d : BitVec 256) (target : Nat) (eng : Bool) : s₀.Keeps W (State.takeHead s h f d target eng) := by
  unfold State.takeHead
  repeat' first
    | with_reducible assumption
    | with_reducible exact State.Keeps.refl _ _
    | with_reducible apply State.modFlow_keeps (hw := Field.sub_trans (by decide) hw)
    | with_reducible apply State.setFld_keeps (hw := Field.sub_trans (by decide) hw)
    | with_reducible refine keeps_ite ?_ ?_
    | with_reducible refine keeps_ite_fst ?_ ?_
    | intro _
    | dsimp only
    | split

theorem State.askLoad_keeps {W : List Field} {s₀ s : State} (hk : s₀.Keeps W s) (hw : Field.sub [.regs, .halls, .net, .reqs, .seqNext] W
    = true) (h : Nat) (v : Nat) (k : Nat) : s₀.Keeps W (State.askLoad s h v k) := by
  unfold State.askLoad
  repeat' first
    | with_reducible assumption
    | with_reducible exact State.Keeps.refl _ _
    | with_reducible apply State.incFld_keeps (hw := Field.sub_trans (by decide) hw)
    | with_reducible apply State.send_keeps (hw := Field.sub_trans (by decide) hw)
    | with_reducible apply State.modSrv_keeps (hw := Field.sub_trans (by decide) hw)
    | with_reducible refine keeps_ite ?_ ?_
    | with_reducible refine keeps_ite_fst ?_ ?_
    | intro _
    | dsimp only
    | split

theorem State.assign_keeps {W : List Field} {s₀ s : State} (hk : s₀.Keeps W s) (hw : Field.sub [.regs, .halls, .ev, .net, .reqs,
    .seqNext, .free] W = true) (h : Nat) (f : Nat) (k : Nat) (d : BitVec 256) (p : Pick) : s₀.Keeps W (State.assign s h f k d p) := by
  unfold State.assign
  repeat' first
    | with_reducible assumption
    | with_reducible exact State.Keeps.refl _ _
    | with_reducible apply State.setFld_keeps (hw := Field.sub_trans (by decide) hw)
    | with_reducible apply State.takeHead_keeps (hw := Field.sub_trans (by decide) hw)
    | with_reducible apply State.modGwk_keeps (hw := Field.sub_trans (by decide) hw)
    | with_reducible apply State.gwkTrace_keeps (hw := Field.sub_trans (by decide) hw)
    | with_reducible apply State.deliver_keeps (hw := Field.sub_trans (by decide) hw)
    | with_reducible apply State.askLoad_keeps (hw := Field.sub_trans (by decide) hw)
    | with_reducible apply State.modSrv_keeps (hw := Field.sub_trans (by decide) hw)
    | with_reducible apply State.setSrvState_keeps (hw := Field.sub_trans (by decide) hw)
    | with_reducible refine keeps_ite ?_ ?_
    | with_reducible refine keeps_ite_fst ?_ ?_
    | intro _
    | dsimp only
    | split

theorem State.assignEngine_keeps {W : List Field} {s₀ s : State} (hk : s₀.Keeps W s) (hw : Field.sub [.regs, .halls, .ev, .net, .reqs,
    .seqNext, .free] W = true) (h : Nat) (f : Nat) (k : Nat) (d : BitVec 256) : s₀.Keeps W (State.assignEngine s h f k d) := by
  unfold State.assignEngine
  repeat' first
    | with_reducible assumption
    | with_reducible exact State.Keeps.refl _ _
    | with_reducible apply State.send_keeps (hw := Field.sub_trans (by decide) hw)
    | with_reducible apply State.takeHead_keeps (hw := Field.sub_trans (by decide) hw)
    | with_reducible apply State.gwkTrace_keeps (hw := Field.sub_trans (by decide) hw)
    | with_reducible refine keeps_ite ?_ ?_
    | with_reducible refine keeps_ite_fst ?_ ?_
    | intro _
    | dsimp only
    | split

theorem State.lateDrop_keeps {W : List Field} {s₀ s : State} (hk : s₀.Keeps W s) (hw : Field.sub [.regs, .halls, .ev, .net, .reqs,
    .seqNext, .free] W = true) (h : Nat) (f : Nat) (k : Nat) (d : BitVec 256) : s₀.Keeps W (State.lateDrop s h f k d) := by
  unfold State.lateDrop
  repeat' first
    | with_reducible assumption
    | with_reducible exact State.Keeps.refl _ _
    | with_reducible apply State.freeItems_keeps (hw := Field.sub_trans (by decide) hw)
    | with_reducible apply State.modFlow_keeps (hw := Field.sub_trans (by decide) hw)
    | with_reducible apply State.incFld_keeps (hw := Field.sub_trans (by decide) hw)
    | with_reducible apply State.postLim_keeps (hw := Field.sub_trans (by decide) hw)
    | with_reducible apply State.gwkTrace_keeps (hw := Field.sub_trans (by decide) hw)
    | with_reducible refine keeps_ite ?_ ?_
    | with_reducible refine keeps_ite_fst ?_ ?_
    | intro _
    | dsimp only
    | split

theorem State.noServer_keeps {W : List Field} {s₀ s : State} (hk : s₀.Keeps W s) (hw : Field.sub [.regs, .halls, .ev, .net, .reqs,
    .seqNext, .free] W = true) (h : Nat) (f : Nat) (k : Nat) (d : BitVec 256) : s₀.Keeps W (State.noServer s h f k d) := by
  unfold State.noServer
  repeat' first
    | with_reducible assumption
    | with_reducible exact State.Keeps.refl _ _
    | with_reducible apply State.incFld_keeps (hw := Field.sub_trans (by decide) hw)
    | with_reducible apply State.gwkTrace_keeps (hw := Field.sub_trans (by decide) hw)
    | with_reducible apply State.limStamp_keeps (hw := Field.sub_trans (by decide) hw)
    | with_reducible refine keeps_ite ?_ ?_
    | with_reducible refine keeps_ite_fst ?_ ?_
    | intro _
    | dsimp only
    | split

theorem State.considerFlow_keeps {W : List Field} {s₀ s : State} (hk : s₀.Keeps W s) (hw : Field.sub [.regs, .halls, .ev, .net, .reqs,
    .seqNext, .free] W = true) (h : Nat) (f : Nat) (prio : Nat) : s₀.Keeps W (State.considerFlow s h f prio).1 := by
  unfold State.considerFlow
  repeat' first
    | with_reducible assumption
    | with_reducible exact State.Keeps.refl _ _
    | with_reducible apply State.lateDrop_keeps (hw := Field.sub_trans (by decide) hw)
    | with_reducible apply State.modGwk_keeps (hw := Field.sub_trans (by decide) hw)
    | with_reducible apply State.assignEngine_keeps (hw := Field.sub_trans (by decide) hw)
    | with_reducible apply State.noServer_keeps (hw := Field.sub_trans (by decide) hw)
    | with_reducible apply State.assign_keeps (hw := Field.sub_trans (by decide) hw)
    | with_reducible refine keeps_ite ?_ ?_
    | with_reducible refine keeps_ite_fst ?_ ?_
    | intro _
    | dsimp only
    | split

theorem State.considerFlows_keeps {W : List Field} {s₀ s : State} (hk : s₀.Keeps W s) (hw : Field.sub [.regs, .halls, .ev, .net, .reqs, .seqNext, .free] W = true)
    (h prio : Nat) (l : List Nat) :
    s₀.Keeps W (State.considerFlows s h prio l).1 := by
  induction l generalizing s with
  | nil => exact hk
  | cons f fs ih =>
    have h1 := State.considerFlow_keeps hk (Field.sub_trans (by decide) hw) h f prio
    exact keeps_ite_fst h1 (ih h1)

theorem State.decidePrio_keeps {W : List Field} {s₀ s : State} (hk : s₀.Keeps W s) (hw : Field.sub [.regs, .halls, .ev, .net, .reqs, .seqNext, .free] W = true)
    (s₁ : State) (h n : Nat) :
    s₀.Keeps W (State.decidePrio s s₁ h n) := by
  induction n generalizing s with
  | zero => exact State.considerFlows_keeps hk (Field.sub_trans (by decide) hw) h 0 _
  | succ n ih =>
    have h1 := State.considerFlows_keeps hk (Field.sub_trans (by decide) hw) h (n + 1) (s₁.flowOrder h (n + 1))
    exact keeps_ite h1 (ih h1)

theorem State.dispatch_keeps {W : List Field} {s₀ s : State} (hk : s₀.Keeps W s) (hw : Field.sub [.regs, .halls, .ev, .net, .reqs,
    .seqNext, .free] W = true) (h : Nat) : s₀.Keeps W (State.dispatch s h) := by
  unfold State.dispatch
  repeat' first
    | with_reducible assumption
    | with_reducible exact State.Keeps.refl _ _
    | with_reducible apply State.decidePrio_keeps (hw := Field.sub_trans (by decide) hw)
    | with_reducible refine keeps_ite ?_ ?_
    | with_reducible refine keeps_ite_fst ?_ ?_
    | intro _
    | dsimp only
    | split

theorem State.classNoServer_keeps {W : List Field} {s₀ s : State} (hk : s₀.Keeps W s) (hw : Field.sub [.regs, .ev] W = true) (h : Nat) (f
    : Nat) : s₀.Keeps W (State.classNoServer s h f) := by
  unfold State.classNoServer
  repeat' first
    | with_reducible assumption
    | with_reducible exact State.Keeps.refl _ _
    | with_reducible apply State.postLim_keeps (hw := Field.sub_trans (by decide) hw)
    | with_reducible refine keeps_ite ?_ ?_
    | with_reducible refine keeps_ite_fst ?_ ?_
    | intro _
    | dsimp only
    | split

theorem State.returnItem_keeps {W : List Field} {s₀ s : State} (hk : s₀.Keeps W s) (hw : Field.sub [.regs, .halls, .ev, .net, .reqs,
    .seqNext, .free] W = true) (h : Nat) (d : BitVec 256) (why : Nat) (target : Nat) : s₀.Keeps W (State.returnItem s h d why target) :=
    by
  unfold State.returnItem
  repeat' first
    | with_reducible assumption
    | with_reducible exact State.Keeps.refl _ _
    | with_reducible apply State.modFlow_keeps (hw := Field.sub_trans (by decide) hw)
    | with_reducible apply State.incFld_keeps (hw := Field.sub_trans (by decide) hw)
    | with_reducible apply State.freeItems_keeps (hw := Field.sub_trans (by decide) hw)
    | with_reducible apply State.gwkTrace_keeps (hw := Field.sub_trans (by decide) hw)
    | with_reducible refine keeps_ite ?_ ?_
    | with_reducible refine keeps_ite_fst ?_ ?_
    | intro _
    | dsimp only
    | split

theorem State.returnReserved_keeps {W : List Field} {s₀ s : State} (hk : s₀.Keeps W s) (hw : Field.sub [.regs, .halls, .ev, .net, .reqs,
    .seqNext, .free] W = true) (h : Nat) (v : Nat) (why : Nat) : s₀.Keeps W (State.returnReserved s h v why) := by
  unfold State.returnReserved
  repeat' first
    | with_reducible assumption
    | with_reducible exact State.Keeps.refl _ _
    | with_reducible apply State.setSrvState_keeps (hw := Field.sub_trans (by decide) hw)
    | with_reducible apply State.modSrv_keeps (hw := Field.sub_trans (by decide) hw)
    | with_reducible apply State.returnItem_keeps (hw := Field.sub_trans (by decide) hw)
    | with_reducible refine keeps_ite ?_ ?_
    | with_reducible refine keeps_ite_fst ?_ ?_
    | intro _
    | dsimp only
    | split

theorem State.deliverLoaded_keeps {W : List Field} {s₀ s : State} (hk : s₀.Keeps W s) (hw : Field.sub [.regs, .halls, .ev, .net, .reqs,
    .seqNext, .free] W = true) (h : Nat) (g : Nat) : s₀.Keeps W (State.deliverLoaded s h g) := by
  unfold State.deliverLoaded
  repeat' first
    | with_reducible assumption
    | with_reducible exact State.Keeps.refl _ _
    | with_reducible apply State.gwkTrace_keeps (hw := Field.sub_trans (by decide) hw)
    | with_reducible apply State.deliver_keeps (hw := Field.sub_trans (by decide) hw)
    | with_reducible refine keeps_ite ?_ ?_
    | with_reducible refine keeps_ite_fst ?_ ?_
    | intro _
    | dsimp only
    | split

theorem State.preloadEnded_keeps {W : List Field} {s₀ s : State} (hk : s₀.Keeps W s) (hw : Field.sub [.regs, .halls, .ev, .net, .reqs,
    .seqNext, .free] W = true) (h : Nat) (v : Nat) (result : Nat) : s₀.Keeps W (State.preloadEnded s h v result) := by
  unfold State.preloadEnded
  repeat' first
    | with_reducible assumption
    | with_reducible exact State.Keeps.refl _ _
    | with_reducible apply State.deliverLoaded_keeps (hw := Field.sub_trans (by decide) hw)
    | with_reducible apply State.setFld_keeps (hw := Field.sub_trans (by decide) hw)
    | with_reducible apply State.setSrvState_keeps (hw := Field.sub_trans (by decide) hw)
    | with_reducible refine keeps_ite ?_ ?_
    | with_reducible refine keeps_ite_fst ?_ ?_
    | intro _
    | dsimp only
    | split

theorem State.loadFailed_keeps {W : List Field} {s₀ s : State} (hk : s₀.Keeps W s) (hw : Field.sub [.regs, .ev] W = true) (h : Nat) (v :
    Nat) (k : Nat) (reason : Nat) : s₀.Keeps W (State.loadFailed s h v k reason) := by
  unfold State.loadFailed
  repeat' first
    | with_reducible assumption
    | with_reducible exact State.Keeps.refl _ _
    | with_reducible apply State.setFldBit_keeps (hw := Field.sub_trans (by decide) hw)
    | with_reducible apply State.incFld_keeps (hw := Field.sub_trans (by decide) hw)
    | with_reducible apply State.post_keeps (hw := Field.sub_trans (by decide) hw)
    | with_reducible refine keeps_ite ?_ ?_
    | with_reducible refine keeps_ite_fst ?_ ?_
    | intro _
    | dsimp only
    | split

theorem State.loadEnded_keeps {W : List Field} {s₀ s : State} (hk : s₀.Keeps W s) (hw : Field.sub [.regs, .halls, .ev, .net, .reqs,
    .seqNext, .free] W = true) (h : Nat) (v : Nat) (k : Nat) (why : Nat) (reason : Nat) (excl : Bool) : s₀.Keeps W (State.loadEnded s h v
    k why reason excl) := by
  unfold State.loadEnded
  repeat' first
    | with_reducible assumption
    | with_reducible exact State.Keeps.refl _ _
    | with_reducible apply State.modSrv_keeps (hw := Field.sub_trans (by decide) hw)
    | with_reducible apply State.loadFailed_keeps (hw := Field.sub_trans (by decide) hw)
    | with_reducible apply State.returnReserved_keeps (hw := Field.sub_trans (by decide) hw)
    | with_reducible apply State.preloadEnded_keeps (hw := Field.sub_trans (by decide) hw)
    | with_reducible refine keeps_ite ?_ ?_
    | with_reducible refine keeps_ite_fst ?_ ?_
    | intro _
    | dsimp only
    | split

theorem State.loadReqRefused_keeps {W : List Field} {s₀ s : State} (hk : s₀.Keeps W s) (hw : Field.sub [.regs, .halls, .ev, .net, .reqs,
    .seqNext, .free] W = true) (h : Nat) (v : Nat) (reason : Nat) : s₀.Keeps W (State.loadReqRefused s h v reason) := by
  unfold State.loadReqRefused
  repeat' first
    | with_reducible assumption
    | with_reducible exact State.Keeps.refl _ _
    | with_reducible apply State.loadEnded_keeps (hw := Field.sub_trans (by decide) hw)
    | with_reducible refine keeps_ite ?_ ?_
    | with_reducible refine keeps_ite_fst ?_ ?_
    | intro _
    | dsimp only
    | split

theorem State.loadRpt_keeps {W : List Field} {s₀ s : State} (hk : s₀.Keeps W s) (hw : Field.sub [.regs, .halls, .ev, .net, .reqs,
    .seqNext, .free] W = true) (h : Nat) (p : Packet) : s₀.Keeps W (State.loadRpt s h p) := by
  unfold State.loadRpt
  repeat' first
    | with_reducible assumption
    | with_reducible exact State.Keeps.refl _ _
    | with_reducible apply State.loadReqRefused_keeps (hw := Field.sub_trans (by decide) hw)
    | with_reducible apply State.showSrv_keeps (hw := Field.sub_trans (by decide) hw)
    | with_reducible apply State.loadEnded_keeps (hw := Field.sub_trans (by decide) hw)
    | with_reducible apply State.deliverLoaded_keeps (hw := Field.sub_trans (by decide) hw)
    | with_reducible apply State.modSrv_keeps (hw := Field.sub_trans (by decide) hw)
    | with_reducible apply State.preloadEnded_keeps (hw := Field.sub_trans (by decide) hw)
    | with_reducible refine keeps_ite ?_ ?_
    | with_reducible refine keeps_ite_fst ?_ ?_
    | intro _
    | dsimp only
    | split

theorem State.loadReqRsp_keeps {W : List Field} {s₀ s : State} (hk : s₀.Keeps W s) (hw : Field.sub [.regs, .halls, .ev, .net, .reqs,
    .seqNext, .free] W = true) (h : Nat) (v : Nat) (st : Nat) (reason : Nat) : s₀.Keeps W (State.loadReqRsp s h v st reason) := by
  unfold State.loadReqRsp
  repeat' first
    | with_reducible assumption
    | with_reducible exact State.Keeps.refl _ _
    | with_reducible apply State.loadReqRefused_keeps (hw := Field.sub_trans (by decide) hw)
    | with_reducible refine keeps_ite ?_ ?_
    | with_reducible refine keeps_ite_fst ?_ ?_
    | intro _
    | dsimp only
    | split

theorem State.itemFailed_keeps {W : List Field} {s₀ s : State} (hk : s₀.Keeps W s) (hw : Field.sub [.regs, .halls, .ev, .net, .reqs,
    .seqNext, .free] W = true) (h : Nat) (d : BitVec 256) (target : Nat) (eng : Bool) (cause : Nat) : s₀.Keeps W (State.itemFailed s h d
    target eng cause) := by
  unfold State.itemFailed
  repeat' first
    | with_reducible assumption
    | with_reducible exact State.Keeps.refl _ _
    | with_reducible apply State.freeItems_keeps (hw := Field.sub_trans (by decide) hw)
    | with_reducible apply State.modFlow_keeps (hw := Field.sub_trans (by decide) hw)
    | with_reducible apply State.incFld_keeps (hw := Field.sub_trans (by decide) hw)
    | with_reducible apply State.postLim_keeps (hw := Field.sub_trans (by decide) hw)
    | with_reducible apply State.gwkTrace_keeps (hw := Field.sub_trans (by decide) hw)
    | with_reducible refine keeps_ite ?_ ?_
    | with_reducible refine keeps_ite_fst ?_ ?_
    | intro _
    | dsimp only
    | split

theorem State.itemDone_keeps {W : List Field} {s₀ s : State} (hk : s₀.Keeps W s) (hw : Field.sub [.regs, .halls] W = true) (h : Nat) (d :
    BitVec 256) : s₀.Keeps W (State.itemDone s h d) := by
  unfold State.itemDone
  repeat' first
    | with_reducible assumption
    | with_reducible exact State.Keeps.refl _ _
    | with_reducible apply State.incFld_keeps (hw := Field.sub_trans (by decide) hw)
    | with_reducible apply State.freeItems_keeps (hw := Field.sub_trans (by decide) hw)
    | with_reducible apply State.modFlow_keeps (hw := Field.sub_trans (by decide) hw)
    | with_reducible refine keeps_ite ?_ ?_
    | with_reducible refine keeps_ite_fst ?_ ?_
    | intro _
    | dsimp only
    | split

theorem State.gwkDone_keeps {W : List Field} {s₀ s : State} (hk : s₀.Keeps W s) (hw : Field.sub [.regs, .halls, .ev, .net, .reqs,
    .seqNext, .free] W = true) (h : Nat) (p : Packet) : s₀.Keeps W (State.gwkDone s h p) := by
  unfold State.gwkDone
  repeat' first
    | with_reducible assumption
    | with_reducible exact State.Keeps.refl _ _
    | with_reducible apply State.postLim_keeps (hw := Field.sub_trans (by decide) hw)
    | with_reducible apply State.incFld_keeps (hw := Field.sub_trans (by decide) hw)
    | with_reducible apply State.setSrvState_keeps (hw := Field.sub_trans (by decide) hw)
    | with_reducible apply State.modSrv_keeps (hw := Field.sub_trans (by decide) hw)
    | with_reducible apply State.deliverLoaded_keeps (hw := Field.sub_trans (by decide) hw)
    | with_reducible apply State.post_keeps (hw := Field.sub_trans (by decide) hw)
    | with_reducible apply State.gwkTrace_keeps (hw := Field.sub_trans (by decide) hw)
    | with_reducible apply State.itemDone_keeps (hw := Field.sub_trans (by decide) hw)
    | with_reducible apply State.itemFailed_keeps (hw := Field.sub_trans (by decide) hw)
    | with_reducible refine keeps_ite ?_ ?_
    | with_reducible refine keeps_ite_fst ?_ ?_
    | intro _
    | dsimp only
    | split

theorem State.watchSrv_keeps {W : List Field} {s₀ s : State} (hk : s₀.Keeps W s) (hw : Field.sub [.regs, .halls, .ev, .net, .reqs,
    .seqNext, .free] W = true) (h : Nat) (v : Nat) : s₀.Keeps W (State.watchSrv s h v) := by
  unfold State.watchSrv
  repeat' first
    | with_reducible assumption
    | with_reducible exact State.Keeps.refl _ _
    | with_reducible apply State.modFlow_keeps (hw := Field.sub_trans (by decide) hw)
    | with_reducible apply State.modSrv_keeps (hw := Field.sub_trans (by decide) hw)
    | with_reducible apply State.post_keeps (hw := Field.sub_trans (by decide) hw)
    | with_reducible apply State.gwkTrace_keeps (hw := Field.sub_trans (by decide) hw)
    | with_reducible refine keeps_ite ?_ ?_
    | with_reducible refine keeps_ite_fst ?_ ?_
    | intro _
    | dsimp only
    | split

theorem State.watchdog_keeps {W : List Field} {s₀ s : State} (hk : s₀.Keeps W s) (hw : Field.sub [.regs, .halls, .ev, .net, .reqs,
    .seqNext, .free] W = true) (h : Nat) : s₀.Keeps W (State.watchdog s h) := by
  unfold State.watchdog
  repeat' first
    | with_reducible assumption
    | with_reducible exact State.Keeps.refl _ _
    | with_reducible apply State.watchSrv_keeps (hw := Field.sub_trans (by decide) hw)
    | with_reducible refine keeps_ite ?_ ?_
    | with_reducible refine keeps_ite_fst ?_ ?_
    | with_reducible refine keeps_foldl _ _ ?_ ?_
    | with_reducible refine keeps_foldl_fst _ _ ?_ ?_
    | intro _
    | dsimp only
    | split

theorem State.xmitRsp_keeps {W : List Field} {s₀ s : State} (hk : s₀.Keeps W s) (hw : Field.sub [.regs, .halls, .ev, .net, .reqs,
    .seqNext, .free] W = true) (h : Nat) (f : Nat) (st : Nat) : s₀.Keeps W (State.xmitRsp s h f st) := by
  unfold State.xmitRsp
  repeat' first
    | with_reducible assumption
    | with_reducible exact State.Keeps.refl _ _
    | with_reducible apply State.itemDone_keeps (hw := Field.sub_trans (by decide) hw)
    | with_reducible apply State.returnItem_keeps (hw := Field.sub_trans (by decide) hw)
    | with_reducible apply State.modFlow_keeps (hw := Field.sub_trans (by decide) hw)
    | with_reducible apply State.postLim_keeps (hw := Field.sub_trans (by decide) hw)
    | with_reducible apply State.itemFailed_keeps (hw := Field.sub_trans (by decide) hw)
    | with_reducible refine keeps_ite ?_ ?_
    | with_reducible refine keeps_ite_fst ?_ ?_
    | intro _
    | dsimp only
    | split

theorem State.engineRetryReady_keeps {W : List Field} {s₀ s : State} (hk : s₀.Keeps W s) (hw : Field.sub [.regs, .halls] W = true) (h :
    Nat) (f : Nat) : s₀.Keeps W (State.engineRetryReady s h f) := by
  unfold State.engineRetryReady
  repeat' first
    | with_reducible assumption
    | with_reducible exact State.Keeps.refl _ _
    | with_reducible apply State.modFlow_keeps (hw := Field.sub_trans (by decide) hw)
    | with_reducible refine keeps_ite ?_ ?_
    | with_reducible refine keeps_ite_fst ?_ ?_
    | intro _
    | dsimp only
    | split

theorem State.dueRelease_keeps {W : List Field} {s₀ s : State} (hk : s₀.Keeps W s) (hw : Field.sub [.regs, .halls, .ev, .net, .reqs,
    .seqNext, .free] W = true) (h : Nat) : s₀.Keeps W (State.dueRelease s h) := by
  unfold State.dueRelease
  repeat' first
    | with_reducible assumption
    | with_reducible exact State.Keeps.refl _ _
    | with_reducible apply State.delaySync_keeps (hw := Field.sub_trans (by decide) hw)
    | with_reducible apply State.modGwk_keeps (hw := Field.sub_trans (by decide) hw)
    | with_reducible apply State.modFlow_keeps (hw := Field.sub_trans (by decide) hw)
    | with_reducible apply State.incFld_keeps (hw := Field.sub_trans (by decide) hw)
    | with_reducible apply State.postLim_keeps (hw := Field.sub_trans (by decide) hw)
    | with_reducible apply State.gwkTrace_keeps (hw := Field.sub_trans (by decide) hw)
    | with_reducible refine keeps_ite ?_ ?_
    | with_reducible refine keeps_ite_fst ?_ ?_
    | intro _
    | dsimp only
    | split

theorem State.gwkTickWrite_keeps {W : List Field} {s₀ s : State} (hk : s₀.Keeps W s) (hw : Field.sub [.regs, .ev] W = true) (h : Nat) (v
    : Word) : s₀.Keeps W (State.gwkTickWrite s h v) := by
  unfold State.gwkTickWrite
  repeat' first
    | with_reducible assumption
    | with_reducible exact State.Keeps.refl _ _
    | with_reducible apply State.writeFields_keeps (hw := Field.sub_trans (by decide) hw)
    | with_reducible apply State.post_keeps (hw := Field.sub_trans (by decide) hw)
    | with_reducible refine keeps_ite ?_ ?_
    | with_reducible refine keeps_ite_fst ?_ ?_
    | intro _
    | dsimp only
    | split

theorem State.freeFlow_keeps {W : List Field} {s₀ s : State} (hk : s₀.Keeps W s) (hw : Field.sub [.regs, .halls] W = true) (h : Nat) (f :
    Nat) : s₀.Keeps W (State.freeFlow s h f) := by
  unfold State.freeFlow
  repeat' first
    | with_reducible assumption
    | with_reducible exact State.Keeps.refl _ _
    | with_reducible apply State.delaySync_keeps (hw := Field.sub_trans (by decide) hw)
    | with_reducible apply State.modGwk_keeps (hw := Field.sub_trans (by decide) hw)
    | with_reducible apply State.freeItems_keeps (hw := Field.sub_trans (by decide) hw)
    | with_reducible apply State.modFlow_keeps (hw := Field.sub_trans (by decide) hw)
    | with_reducible apply State.incFld_keeps (hw := Field.sub_trans (by decide) hw)
    | with_reducible refine keeps_ite ?_ ?_
    | with_reducible refine keeps_ite_fst ?_ ?_
    | intro _
    | dsimp only
    | split

theorem State.flowCfgWrite_keeps {W : List Field} {s₀ s : State} (hk : s₀.Keeps W s) (hw : Field.sub [.regs, .halls] W = true) (h : Nat)
    (f : Nat) (v : Word) : s₀.Keeps W (State.flowCfgWrite s h f v) := by
  unfold State.flowCfgWrite
  repeat' first
    | with_reducible assumption
    | with_reducible exact State.Keeps.refl _ _
    | with_reducible apply State.writeFields_keeps (hw := Field.sub_trans (by decide) hw)
    | with_reducible apply State.modFlow_keeps (hw := Field.sub_trans (by decide) hw)
    | with_reducible apply State.freeFlow_keeps (hw := Field.sub_trans (by decide) hw)
    | with_reducible apply State.flowSync_keeps (hw := Field.sub_trans (by decide) hw)
    | with_reducible apply State.setFld_keeps (hw := Field.sub_trans (by decide) hw)
    | with_reducible refine keeps_ite ?_ ?_
    | with_reducible refine keeps_ite_fst ?_ ?_
    | intro _
    | dsimp only
    | split

theorem State.flowResume_keeps {W : List Field} {s₀ s : State} (hk : s₀.Keeps W s) (hw : Field.sub [.regs, .halls, .ev, .net, .reqs,
    .seqNext, .free] W = true) (h : Nat) (f : Nat) : s₀.Keeps W (State.flowResume s h f) := by
  unfold State.flowResume
  repeat' first
    | with_reducible assumption
    | with_reducible exact State.Keeps.refl _ _
    | with_reducible apply State.gwkTrace_keeps (hw := Field.sub_trans (by decide) hw)
    | with_reducible apply State.modFlow_keeps (hw := Field.sub_trans (by decide) hw)
    | with_reducible refine keeps_ite ?_ ?_
    | with_reducible refine keeps_ite_fst ?_ ?_
    | intro _
    | dsimp only
    | split

theorem State.flowFlush_keeps {W : List Field} {s₀ s : State} (hk : s₀.Keeps W s) (hw : Field.sub [.regs, .halls, .ev, .net, .reqs,
    .seqNext, .free] W = true) (h : Nat) (f : Nat) : s₀.Keeps W (State.flowFlush s h f) := by
  unfold State.flowFlush
  repeat' first
    | with_reducible assumption
    | with_reducible exact State.Keeps.refl _ _
    | with_reducible apply State.gwkTrace_keeps (hw := Field.sub_trans (by decide) hw)
    | with_reducible apply State.freeFlow_keeps (hw := Field.sub_trans (by decide) hw)
    | with_reducible refine keeps_ite ?_ ?_
    | with_reducible refine keeps_ite_fst ?_ ?_
    | intro _
    | dsimp only
    | split

theorem State.flowCmdWrite_keeps {W : List Field} {s₀ s : State} (hk : s₀.Keeps W s) (hw : Field.sub [.regs, .halls, .ev, .net, .reqs,
    .seqNext, .free] W = true) (h : Nat) (v : Word) : s₀.Keeps W (State.flowCmdWrite s h v) := by
  unfold State.flowCmdWrite
  repeat' first
    | with_reducible assumption
    | with_reducible exact State.Keeps.refl _ _
    | with_reducible apply State.flowResume_keeps (hw := Field.sub_trans (by decide) hw)
    | with_reducible apply State.flowFlush_keeps (hw := Field.sub_trans (by decide) hw)
    | with_reducible refine keeps_ite ?_ ?_
    | with_reducible refine keeps_ite_fst ?_ ?_
    | intro _
    | dsimp only
    | split

theorem State.srvResult_keeps {W : List Field} {s₀ s : State} (hk : s₀.Keeps W s) (hw : Field.sub [.regs] W = true) (h : Nat) (r : Nat) :
    s₀.Keeps W (State.srvResult s h r) := by
  unfold State.srvResult
  repeat' first
    | with_reducible assumption
    | with_reducible exact State.Keeps.refl _ _
    | with_reducible apply State.setFld_keeps (hw := Field.sub_trans (by decide) hw)
    | with_reducible refine keeps_ite ?_ ?_
    | with_reducible refine keeps_ite_fst ?_ ?_
    | intro _
    | dsimp only
    | split

theorem State.srvAdd_keeps {W : List Field} {s₀ s : State} (hk : s₀.Keeps W s) (hw : Field.sub [.regs, .halls, .ev, .net, .reqs,
    .seqNext, .free] W = true) (h : Nat) (g : Nat) : s₀.Keeps W (State.srvAdd s h g) := by
  unfold State.srvAdd
  repeat' first
    | with_reducible assumption
    | with_reducible exact State.Keeps.refl _ _
    | with_reducible apply State.srvResult_keeps (hw := Field.sub_trans (by decide) hw)
    | with_reducible apply State.addServers_keeps (hw := Field.sub_trans (by decide) hw)
    | with_reducible refine keeps_ite ?_ ?_
    | with_reducible refine keeps_ite_fst ?_ ?_
    | intro _
    | dsimp only
    | split

theorem State.removeServers_keeps {W : List Field} {s₀ s : State} (hk : s₀.Keeps W s) (hw : Field.sub [.regs, .halls, .ev, .net, .reqs,
    .seqNext, .free] W = true) (h : Nat) (g : Nat) (byCmd : Bool) : s₀.Keeps W (State.removeServers s h g byCmd) := by
  unfold State.removeServers
  repeat' first
    | with_reducible assumption
    | with_reducible exact State.Keeps.refl _ _
    | with_reducible apply State.modGwk_keeps (hw := Field.sub_trans (by decide) hw)
    | with_reducible apply State.returnReserved_keeps (hw := Field.sub_trans (by decide) hw)
    | with_reducible apply State.setSrvState_keeps (hw := Field.sub_trans (by decide) hw)
    | with_reducible refine keeps_ite ?_ ?_
    | with_reducible refine keeps_ite_fst ?_ ?_
    | with_reducible refine keeps_foldl _ _ ?_ ?_
    | with_reducible refine keeps_foldl_fst _ _ ?_ ?_
    | intro _
    | dsimp only
    | split

theorem State.srvRemove_keeps {W : List Field} {s₀ s : State} (hk : s₀.Keeps W s) (hw : Field.sub [.regs, .halls, .ev, .net, .reqs,
    .seqNext, .free] W = true) (h : Nat) (g : Nat) : s₀.Keeps W (State.srvRemove s h g) := by
  unfold State.srvRemove
  repeat' first
    | with_reducible assumption
    | with_reducible exact State.Keeps.refl _ _
    | with_reducible apply State.srvResult_keeps (hw := Field.sub_trans (by decide) hw)
    | with_reducible apply State.removeServers_keeps (hw := Field.sub_trans (by decide) hw)
    | with_reducible apply State.setFld_keeps (hw := Field.sub_trans (by decide) hw)
    | with_reducible refine keeps_ite ?_ ?_
    | with_reducible refine keeps_ite_fst ?_ ?_
    | intro _
    | dsimp only
    | split

theorem State.serversRemoved_keeps {W : List Field} {s₀ s : State} (hk : s₀.Keeps W s) (hw : Field.sub [.regs, .halls, .ev, .net, .reqs,
    .seqNext, .free] W = true) (h : Nat) (g : Nat) : s₀.Keeps W (State.serversRemoved s h g) := by
  unfold State.serversRemoved
  repeat' first
    | with_reducible assumption
    | with_reducible exact State.Keeps.refl _ _
    | with_reducible apply State.setReg_keeps (hw := Field.sub_trans (by decide) hw)
    | with_reducible apply State.modSrv_keeps (hw := Field.sub_trans (by decide) hw)
    | with_reducible apply State.modGwk_keeps (hw := Field.sub_trans (by decide) hw)
    | with_reducible apply State.setFld_keeps (hw := Field.sub_trans (by decide) hw)
    | with_reducible apply State.gwkTrace_keeps (hw := Field.sub_trans (by decide) hw)
    | with_reducible apply State.post_keeps (hw := Field.sub_trans (by decide) hw)
    | with_reducible apply State.srvResult_keeps (hw := Field.sub_trans (by decide) hw)
    | with_reducible refine keeps_ite ?_ ?_
    | with_reducible refine keeps_ite_fst ?_ ?_
    | with_reducible refine keeps_foldl _ _ ?_ ?_
    | with_reducible refine keeps_foldl_fst _ _ ?_ ?_
    | intro _
    | dsimp only
    | split

theorem State.srvPreload_keeps {W : List Field} {s₀ s : State} (hk : s₀.Keeps W s) (hw : Field.sub [.regs, .halls, .ev, .net, .reqs,
    .seqNext, .free] W = true) (h : Nat) (g : Nat) (k : Nat) : s₀.Keeps W (State.srvPreload s h g k) := by
  unfold State.srvPreload
  repeat' first
    | with_reducible assumption
    | with_reducible exact State.Keeps.refl _ _
    | with_reducible apply State.srvResult_keeps (hw := Field.sub_trans (by decide) hw)
    | with_reducible apply State.askLoad_keeps (hw := Field.sub_trans (by decide) hw)
    | with_reducible apply State.setSrvState_keeps (hw := Field.sub_trans (by decide) hw)
    | with_reducible apply State.setFld_keeps (hw := Field.sub_trans (by decide) hw)
    | with_reducible apply State.gwkTrace_keeps (hw := Field.sub_trans (by decide) hw)
    | with_reducible refine keeps_ite ?_ ?_
    | with_reducible refine keeps_ite_fst ?_ ?_
    | intro _
    | dsimp only
    | split

theorem State.srvCmdWrite_keeps {W : List Field} {s₀ s : State} (hk : s₀.Keeps W s) (hw : Field.sub [.regs, .halls, .ev, .net, .reqs,
    .seqNext, .free] W = true) (h : Nat) (v : Word) : s₀.Keeps W (State.srvCmdWrite s h v) := by
  unfold State.srvCmdWrite
  repeat' first
    | with_reducible assumption
    | with_reducible exact State.Keeps.refl _ _
    | with_reducible apply State.srvAdd_keeps (hw := Field.sub_trans (by decide) hw)
    | with_reducible apply State.srvRemove_keeps (hw := Field.sub_trans (by decide) hw)
    | with_reducible apply State.srvPreload_keeps (hw := Field.sub_trans (by decide) hw)
    | with_reducible refine keeps_ite ?_ ?_
    | with_reducible refine keeps_ite_fst ?_ ?_
    | intro _
    | dsimp only
    | split

theorem State.gwkClear_keeps {W : List Field} {s₀ s : State} (hk : s₀.Keeps W s) (hw : Field.sub [.regs, .halls] W = true) (h : Nat) :
    s₀.Keeps W (State.gwkClear s h) := by
  unfold State.gwkClear
  repeat' first
    | with_reducible assumption
    | with_reducible exact State.Keeps.refl _ _
    | with_reducible apply State.resetRegs_keeps (hw := Field.sub_trans (by decide) hw)
    | with_reducible apply State.modGwk_keeps (hw := Field.sub_trans (by decide) hw)
    | with_reducible apply State.flowSync_keeps (hw := Field.sub_trans (by decide) hw)
    | with_reducible refine keeps_ite ?_ ?_
    | with_reducible refine keeps_ite_fst ?_ ?_
    | with_reducible refine keeps_foldl _ _ ?_ ?_
    | with_reducible refine keeps_foldl_fst _ _ ?_ ?_
    | intro _
    | dsimp only
    | split

theorem State.gwkRestart_keeps {W : List Field} {s₀ s : State} (hk : s₀.Keeps W s) (hw : Field.sub [.regs, .halls, .ev, .net, .reqs,
    .seqNext, .free] W = true) (h : Nat) : s₀.Keeps W (State.gwkRestart s h) := by
  unfold State.gwkRestart
  repeat' first
    | with_reducible assumption
    | with_reducible exact State.Keeps.refl _ _
    | with_reducible apply State.setFld_keeps (hw := Field.sub_trans (by decide) hw)
    | with_reducible apply State.addServersIf_keeps (hw := Field.sub_trans (by decide) hw)
    | with_reducible apply State.modSrv_keeps (hw := Field.sub_trans (by decide) hw)
    | with_reducible apply State.setSrvState_keeps (hw := Field.sub_trans (by decide) hw)
    | with_reducible apply State.gwkClear_keeps (hw := Field.sub_trans (by decide) hw)
    | with_reducible refine keeps_ite ?_ ?_
    | with_reducible refine keeps_ite_fst ?_ ?_
    | with_reducible refine keeps_foldl _ _ ?_ ?_
    | with_reducible refine keeps_foldl_fst _ _ ?_ ?_
    | intro _
    | dsimp only
    | split

theorem execGwkEnqGo_keeps {s : State} (h : HallIx) (v : Word) : ∃ nx, execGwkEnqGo h v s = .next nx ∧ s.Keeps [.regs, .ev, .net, .reqs,
    .seqNext] nx := by
  have hw : Field.sub [.regs, .ev, .net, .reqs, .seqNext] [.regs, .ev, .net, .reqs, .seqNext] = true := by decide
  refine ⟨_, rfl, ?_⟩
  have hk := State.Keeps.refl [.regs, .ev, .net, .reqs, .seqNext] s
  repeat' first
    | with_reducible assumption
    | with_reducible exact State.Keeps.refl _ _
    | with_reducible refine State.hostWrite_keeps ?_ (Field.sub_trans (by decide) hw) _ _ ?_
    | with_reducible apply State.gwkEnqGo_keeps (hw := Field.sub_trans (by decide) hw)
    | with_reducible refine keeps_ite ?_ ?_
    | with_reducible refine keeps_ite_fst ?_ ?_
    | intro _
    | dsimp only
    | split

theorem execDispatchDecision_keeps {s : State} (h : HallIx) : ∃ nx, execDispatchDecision h s = .next nx ∧ s.Keeps [.regs, .halls, .ev,
    .net, .reqs, .seqNext, .free] nx := by
  have hw : Field.sub [.regs, .halls, .ev, .net, .reqs, .seqNext, .free] [.regs, .halls, .ev, .net, .reqs, .seqNext, .free] = true := by
    decide
  refine ⟨_, rfl, ?_⟩
  have hk := State.Keeps.refl [.regs, .halls, .ev, .net, .reqs, .seqNext, .free] s
  repeat' first
    | with_reducible assumption
    | with_reducible exact State.Keeps.refl _ _
    | with_reducible apply State.dispatch_keeps (hw := Field.sub_trans (by decide) hw)
    | with_reducible refine keeps_ite ?_ ?_
    | with_reducible refine keeps_ite_fst ?_ ?_
    | intro _
    | dsimp only
    | split

theorem execClassNoServer_keeps {s : State} (h : HallIx) (f : Fin 512) : ∃ nx, execClassNoServer h f s = .next nx ∧ s.Keeps [.regs, .ev]
    nx := by
  have hw : Field.sub [.regs, .ev] [.regs, .ev] = true := by decide
  refine ⟨_, rfl, ?_⟩
  have hk := State.Keeps.refl [.regs, .ev] s
  repeat' first
    | with_reducible assumption
    | with_reducible exact State.Keeps.refl _ _
    | with_reducible apply State.classNoServer_keeps (hw := Field.sub_trans (by decide) hw)
    | with_reducible refine keeps_ite ?_ ?_
    | with_reducible refine keeps_ite_fst ?_ ?_
    | intro _
    | dsimp only
    | split

theorem execWatchdogCheck_keeps {s : State} (h : HallIx) : ∃ nx, execWatchdogCheck h s = .next nx ∧ s.Keeps [.regs, .halls, .ev, .net,
    .reqs, .seqNext, .free] nx := by
  have hw : Field.sub [.regs, .halls, .ev, .net, .reqs, .seqNext, .free] [.regs, .halls, .ev, .net, .reqs, .seqNext, .free] = true := by
    decide
  refine ⟨_, rfl, ?_⟩
  have hk := State.Keeps.refl [.regs, .halls, .ev, .net, .reqs, .seqNext, .free] s
  repeat' first
    | with_reducible assumption
    | with_reducible exact State.Keeps.refl _ _
    | with_reducible apply State.watchdog_keeps (hw := Field.sub_trans (by decide) hw)
    | with_reducible refine keeps_ite ?_ ?_
    | with_reducible refine keeps_ite_fst ?_ ?_
    | intro _
    | dsimp only
    | split

theorem execEngineRetryReady_keeps {s : State} (h : HallIx) (f : Fin 512) : ∃ nx, execEngineRetryReady h f s = .next nx ∧ s.Keeps [.regs,
    .halls] nx := by
  have hw : Field.sub [.regs, .halls] [.regs, .halls] = true := by decide
  refine ⟨_, rfl, ?_⟩
  have hk := State.Keeps.refl [.regs, .halls] s
  repeat' first
    | with_reducible assumption
    | with_reducible exact State.Keeps.refl _ _
    | with_reducible apply State.engineRetryReady_keeps (hw := Field.sub_trans (by decide) hw)
    | with_reducible refine keeps_ite ?_ ?_
    | with_reducible refine keeps_ite_fst ?_ ?_
    | intro _
    | dsimp only
    | split

theorem execDueRelease_keeps {s : State} (h : HallIx) : ∃ nx, execDueRelease h s = .next nx ∧ s.Keeps [.regs, .halls, .ev, .net, .reqs,
    .seqNext, .free] nx := by
  have hw : Field.sub [.regs, .halls, .ev, .net, .reqs, .seqNext, .free] [.regs, .halls, .ev, .net, .reqs, .seqNext, .free] = true := by
    decide
  refine ⟨_, rfl, ?_⟩
  have hk := State.Keeps.refl [.regs, .halls, .ev, .net, .reqs, .seqNext, .free] s
  repeat' first
    | with_reducible assumption
    | with_reducible exact State.Keeps.refl _ _
    | with_reducible apply State.dueRelease_keeps (hw := Field.sub_trans (by decide) hw)
    | with_reducible refine keeps_ite ?_ ?_
    | with_reducible refine keeps_ite_fst ?_ ?_
    | intro _
    | dsimp only
    | split

theorem execGwkTickWrite_keeps {s : State} (h : HallIx) (v : Word) : ∃ nx, execGwkTickWrite h v s = .next nx ∧ s.Keeps [.regs, .ev] nx :=
    by
  have hw : Field.sub [.regs, .ev] [.regs, .ev] = true := by decide
  refine ⟨_, rfl, ?_⟩
  have hk := State.Keeps.refl [.regs, .ev] s
  repeat' first
    | with_reducible assumption
    | with_reducible exact State.Keeps.refl _ _
    | with_reducible refine State.hostWrite_keeps ?_ (Field.sub_trans (by decide) hw) _ _ ?_
    | with_reducible apply State.gwkTickWrite_keeps (hw := Field.sub_trans (by decide) hw)
    | with_reducible refine keeps_ite ?_ ?_
    | with_reducible refine keeps_ite_fst ?_ ?_
    | intro _
    | dsimp only
    | split

theorem execGwkFlowCfgWrite_keeps {s : State} (h : HallIx) (f : Fin 512) (v : Word) : ∃ nx, execGwkFlowCfgWrite h f v s = .next nx ∧
    s.Keeps [.regs, .halls, .ev] nx := by
  have hw : Field.sub [.regs, .halls, .ev] [.regs, .halls, .ev] = true := by decide
  refine ⟨_, rfl, ?_⟩
  have hk := State.Keeps.refl [.regs, .halls, .ev] s
  repeat' first
    | with_reducible assumption
    | with_reducible exact State.Keeps.refl _ _
    | with_reducible refine State.hostWrite_keeps ?_ (Field.sub_trans (by decide) hw) _ _ ?_
    | with_reducible apply State.flowCfgWrite_keeps (hw := Field.sub_trans (by decide) hw)
    | with_reducible refine keeps_ite ?_ ?_
    | with_reducible refine keeps_ite_fst ?_ ?_
    | intro _
    | dsimp only
    | split

theorem execFlowResume_keeps {s : State} (h : HallIx) (f : Fin 512) : ∃ nx, execFlowResume h f s = .next nx ∧ s.Keeps [.regs, .halls,
    .ev, .net, .reqs, .seqNext, .free] nx := by
  have hw : Field.sub [.regs, .halls, .ev, .net, .reqs, .seqNext, .free] [.regs, .halls, .ev, .net, .reqs, .seqNext, .free] = true := by
    decide
  refine ⟨_, rfl, ?_⟩
  have hk := State.Keeps.refl [.regs, .halls, .ev, .net, .reqs, .seqNext, .free] s
  repeat' first
    | with_reducible assumption
    | with_reducible exact State.Keeps.refl _ _
    | with_reducible refine State.hostWrite_keeps ?_ (Field.sub_trans (by decide) hw) _ _ ?_
    | with_reducible apply State.flowResume_keeps (hw := Field.sub_trans (by decide) hw)
    | with_reducible refine keeps_ite ?_ ?_
    | with_reducible refine keeps_ite_fst ?_ ?_
    | intro _
    | dsimp only
    | split

theorem execFlowFlush_keeps {s : State} (h : HallIx) (f : Fin 512) : ∃ nx, execFlowFlush h f s = .next nx ∧ s.Keeps [.regs, .halls, .ev,
    .net, .reqs, .seqNext, .free] nx := by
  have hw : Field.sub [.regs, .halls, .ev, .net, .reqs, .seqNext, .free] [.regs, .halls, .ev, .net, .reqs, .seqNext, .free] = true := by
    decide
  refine ⟨_, rfl, ?_⟩
  have hk := State.Keeps.refl [.regs, .halls, .ev, .net, .reqs, .seqNext, .free] s
  repeat' first
    | with_reducible assumption
    | with_reducible exact State.Keeps.refl _ _
    | with_reducible refine State.hostWrite_keeps ?_ (Field.sub_trans (by decide) hw) _ _ ?_
    | with_reducible apply State.flowFlush_keeps (hw := Field.sub_trans (by decide) hw)
    | with_reducible refine keeps_ite ?_ ?_
    | with_reducible refine keeps_ite_fst ?_ ?_
    | intro _
    | dsimp only
    | split

theorem execSrvAdd_keeps {s : State} (h : HallIx) (g : Fin 32) : ∃ nx, execSrvAdd h g s = .next nx ∧ s.Keeps [.regs, .halls, .ev, .net,
    .reqs, .seqNext, .free] nx := by
  have hw : Field.sub [.regs, .halls, .ev, .net, .reqs, .seqNext, .free] [.regs, .halls, .ev, .net, .reqs, .seqNext, .free] = true := by
    decide
  refine ⟨_, rfl, ?_⟩
  have hk := State.Keeps.refl [.regs, .halls, .ev, .net, .reqs, .seqNext, .free] s
  repeat' first
    | with_reducible assumption
    | with_reducible exact State.Keeps.refl _ _
    | with_reducible refine State.hostWrite_keeps ?_ (Field.sub_trans (by decide) hw) _ _ ?_
    | with_reducible apply State.srvAdd_keeps (hw := Field.sub_trans (by decide) hw)
    | with_reducible refine keeps_ite ?_ ?_
    | with_reducible refine keeps_ite_fst ?_ ?_
    | intro _
    | dsimp only
    | split

theorem execSrvRemove_keeps {s : State} (h : HallIx) (g : Fin 32) : ∃ nx, execSrvRemove h g s = .next nx ∧ s.Keeps [.regs, .halls, .ev,
    .net, .reqs, .seqNext, .free] nx := by
  have hw : Field.sub [.regs, .halls, .ev, .net, .reqs, .seqNext, .free] [.regs, .halls, .ev, .net, .reqs, .seqNext, .free] = true := by
    decide
  refine ⟨_, rfl, ?_⟩
  have hk := State.Keeps.refl [.regs, .halls, .ev, .net, .reqs, .seqNext, .free] s
  repeat' first
    | with_reducible assumption
    | with_reducible exact State.Keeps.refl _ _
    | with_reducible refine State.hostWrite_keeps ?_ (Field.sub_trans (by decide) hw) _ _ ?_
    | with_reducible apply State.srvRemove_keeps (hw := Field.sub_trans (by decide) hw)
    | with_reducible refine keeps_ite ?_ ?_
    | with_reducible refine keeps_ite_fst ?_ ?_
    | intro _
    | dsimp only
    | split

theorem execSrvPreload_keeps {s : State} (h : HallIx) (g : Fin 32) (k : Fin 64) : ∃ nx, execSrvPreload h g k s = .next nx ∧ s.Keeps
    [.regs, .halls, .ev, .net, .reqs, .seqNext, .free] nx := by
  have hw : Field.sub [.regs, .halls, .ev, .net, .reqs, .seqNext, .free] [.regs, .halls, .ev, .net, .reqs, .seqNext, .free] = true := by
    decide
  refine ⟨_, rfl, ?_⟩
  have hk := State.Keeps.refl [.regs, .halls, .ev, .net, .reqs, .seqNext, .free] s
  repeat' first
    | with_reducible assumption
    | with_reducible exact State.Keeps.refl _ _
    | with_reducible refine State.hostWrite_keeps ?_ (Field.sub_trans (by decide) hw) _ _ ?_
    | with_reducible apply State.srvPreload_keeps (hw := Field.sub_trans (by decide) hw)
    | with_reducible refine keeps_ite ?_ ?_
    | with_reducible refine keeps_ite_fst ?_ ?_
    | intro _
    | dsimp only
    | split

theorem execGalCtxCfgWrite_keeps {s : State} (G : GalIx) (v : Word) : ∃ nx, execGalCtxCfgWrite G v s = .next nx ∧ s.Keeps [.regs, .gals,
    .halls, .ev, .net, .reqs, .seqNext, .free] nx := by
  have hw : Field.sub [.regs, .gals, .halls, .ev, .net, .reqs, .seqNext, .free] [.regs, .gals, .halls, .ev, .net, .reqs, .seqNext, .free]
    = true := by decide
  refine ⟨_, rfl, ?_⟩
  have hk := State.Keeps.refl [.regs, .gals, .halls, .ev, .net, .reqs, .seqNext, .free] s
  repeat' first
    | with_reducible assumption
    | with_reducible exact State.Keeps.refl _ _
    | with_reducible apply State.ctxCfgWrite_keeps (hw := Field.sub_trans (by decide) hw)
    | with_reducible refine keeps_ite ?_ ?_
    | with_reducible refine keeps_ite_fst ?_ ?_
    | intro _
    | dsimp only
    | split

end Sys2Proof.Machine
end

