-- ==== Sys2Proof/Laws/KeepsHbm.lean ====
section
/-!
SUPPORT. Laws/KeepsHbm.lean: the operations of Machine/Hbm.lean keep State.Keeps.
-/
namespace Sys2Proof.Machine
open Sys2Proof

theorem State.modHbm_keeps {W : List Field} {s₀ s : State} (hk : s₀.Keeps W s) (hw : Field.sub [.halls] W = true) (h : Nat) (f : Hbm →
    Hbm) : s₀.Keeps W (State.modHbm s h f) := by
  unfold State.modHbm
  repeat' first
    | with_reducible assumption
    | with_reducible exact State.Keeps.refl _ _
    | with_reducible apply State.modHall_keeps (hw := Field.sub_trans (by decide) hw)
    | with_reducible refine keeps_ite ?_ ?_
    | with_reducible refine keeps_ite_fst ?_ ?_
    | intro _
    | dsimp only
    | split

theorem State.setHbmState_keeps {W : List Field} {s₀ s : State} (hk : s₀.Keeps W s) (hw : Field.sub [.regs] W = true) (h : Nat) (st :
    Nat) : s₀.Keeps W (State.setHbmState s h st) := by
  unfold State.setHbmState
  repeat' first
    | with_reducible assumption
    | with_reducible exact State.Keeps.refl _ _
    | with_reducible apply State.setFld_keeps (hw := Field.sub_trans (by decide) hw)
    | with_reducible refine keeps_ite ?_ ?_
    | with_reducible refine keeps_ite_fst ?_ ?_
    | intro _
    | dsimp only
    | split

theorem State.modPc_keeps {W : List Field} {s₀ s : State} (hk : s₀.Keeps W s) (hw : Field.sub [.halls] W = true) (h : Nat) (pc : Nat) (f
    : PcSt → PcSt) : s₀.Keeps W (State.modPc s h pc f) := by
  unfold State.modPc
  repeat' first
    | with_reducible assumption
    | with_reducible exact State.Keeps.refl _ _
    | with_reducible apply State.modHbm_keeps (hw := Field.sub_trans (by decide) hw)
    | with_reducible refine keeps_ite ?_ ?_
    | with_reducible refine keeps_ite_fst ?_ ?_
    | intro _
    | dsimp only
    | split

theorem State.countActivate_keeps {W : List Field} {s₀ s : State} (hk : s₀.Keeps W s) (hw : Field.sub [.regs, .halls, .ev] W = true) (h :
    Nat) (pc : Nat) (key : Nat) : s₀.Keeps W (State.countActivate s h pc key) := by
  unfold State.countActivate
  repeat' first
    | with_reducible assumption
    | with_reducible exact State.Keeps.refl _ _
    | with_reducible apply State.modPc_keeps (hw := Field.sub_trans (by decide) hw)
    | with_reducible apply State.incFld_keeps (hw := Field.sub_trans (by decide) hw)
    | with_reducible apply State.postLim_keeps (hw := Field.sub_trans (by decide) hw)
    | with_reducible refine keeps_ite ?_ ?_
    | with_reducible refine keeps_ite_fst ?_ ?_
    | intro _
    | dsimp only
    | split

theorem State.openRow_keeps {W : List Field} {s₀ s : State} (hk : s₀.Keeps W s) (hw : Field.sub [.regs, .halls, .ev] W = true) (h : Nat)
    (pc : Nat) (off : Nat) : s₀.Keeps W (State.openRow s h pc off) := by
  unfold State.openRow
  repeat' first
    | with_reducible assumption
    | with_reducible exact State.Keeps.refl _ _
    | with_reducible apply State.countActivate_keeps (hw := Field.sub_trans (by decide) hw)
    | with_reducible apply State.modPc_keeps (hw := Field.sub_trans (by decide) hw)
    | with_reducible refine keeps_ite ?_ ?_
    | with_reducible refine keeps_ite_fst ?_ ?_
    | intro _
    | dsimp only
    | split

theorem State.wqPost_keeps {W : List Field} {s₀ s : State} (hk : s₀.Keeps W s) (hw : Field.sub [.regs, .halls] W = true) (h : Nat) (e :
    WqEnt) : s₀.Keeps W (State.wqPost s h e) := by
  unfold State.wqPost
  repeat' first
    | with_reducible assumption
    | with_reducible exact State.Keeps.refl _ _
    | with_reducible apply State.setFldBit_keeps (hw := Field.sub_trans (by decide) hw)
    | with_reducible apply State.modPc_keeps (hw := Field.sub_trans (by decide) hw)
    | with_reducible refine keeps_ite ?_ ?_
    | with_reducible refine keeps_ite_fst ?_ ?_
    | intro _
    | dsimp only
    | split

theorem State.burstUe_keeps {W : List Field} {s₀ s : State} (hk : s₀.Keeps W s) (hw : Field.sub [.regs, .ev] W = true) (h : Nat) (off :
    Nat) (cause : Nat) : s₀.Keeps W (State.burstUe s h off cause) := by
  unfold State.burstUe
  repeat' first
    | with_reducible assumption
    | with_reducible exact State.Keeps.refl _ _
    | with_reducible apply State.incFld_keeps (hw := Field.sub_trans (by decide) hw)
    | with_reducible apply State.setReg_keeps (hw := Field.sub_trans (by decide) hw)
    | with_reducible apply State.postLim_keeps (hw := Field.sub_trans (by decide) hw)
    | with_reducible refine keeps_ite ?_ ?_
    | with_reducible refine keeps_ite_fst ?_ ?_
    | intro _
    | dsimp only
    | split

theorem State.wbEnter_keeps {W : List Field} {s₀ s : State} (hk : s₀.Keeps W s) (hw : Field.sub [.halls] W = true) (h : Nat) (off : Nat)
    : s₀.Keeps W (State.wbEnter s h off) := by
  unfold State.wbEnter
  repeat' first
    | with_reducible assumption
    | with_reducible exact State.Keeps.refl _ _
    | with_reducible apply State.modPc_keeps (hw := Field.sub_trans (by decide) hw)
    | with_reducible refine keeps_ite ?_ ?_
    | with_reducible refine keeps_ite_fst ?_ ?_
    | intro _
    | dsimp only
    | split

theorem State.wbDrain_keeps {W : List Field} {s₀ s : State} (hk : s₀.Keeps W s) (hw : Field.sub [.halls] W = true) (h : Nat) (pc : Nat) :
    s₀.Keeps W (State.wbDrain s h pc) := by
  unfold State.wbDrain
  repeat' first
    | with_reducible assumption
    | with_reducible exact State.Keeps.refl _ _
    | with_reducible apply State.wbEnter_keeps (hw := Field.sub_trans (by decide) hw)
    | with_reducible apply State.modPc_keeps (hw := Field.sub_trans (by decide) hw)
    | with_reducible refine keeps_ite ?_ ?_
    | with_reducible refine keeps_ite_fst ?_ ?_
    | with_reducible refine keeps_foldl _ _ ?_ ?_
    | with_reducible refine keeps_foldl_fst _ _ ?_ ?_
    | intro _
    | dsimp only
    | split

theorem State.burstCe_keeps {W : List Field} {s₀ s : State} (hk : s₀.Keeps W s) (hw : Field.sub [.regs, .halls] W = true) (h : Nat) (off
    : Nat) (cause : Nat) : s₀.Keeps W (State.burstCe s h off cause) := by
  unfold State.burstCe
  repeat' first
    | with_reducible assumption
    | with_reducible exact State.Keeps.refl _ _
    | with_reducible apply State.incFld_keeps (hw := Field.sub_trans (by decide) hw)
    | with_reducible apply State.wbDrain_keeps (hw := Field.sub_trans (by decide) hw)
    | with_reducible apply State.modPc_keeps (hw := Field.sub_trans (by decide) hw)
    | with_reducible refine keeps_ite ?_ ?_
    | with_reducible refine keeps_ite_fst ?_ ?_
    | intro _
    | dsimp only
    | split

theorem State.burstRead_keeps {W : List Field} {s₀ s : State} (hk : s₀.Keeps W s) (hw : Field.sub [.regs, .halls, .ev] W = true) (h :
    Nat) (off : Nat) (cause : Nat) (f : BurstFact) : s₀.Keeps W (State.burstRead s h off cause f).1 := by
  unfold State.burstRead
  repeat' first
    | with_reducible assumption
    | with_reducible exact State.Keeps.refl _ _
    | with_reducible apply State.burstCe_keeps (hw := Field.sub_trans (by decide) hw)
    | with_reducible apply State.burstUe_keeps (hw := Field.sub_trans (by decide) hw)
    | with_reducible refine keeps_ite ?_ ?_
    | with_reducible refine keeps_ite_fst ?_ ?_
    | intro _
    | dsimp only
    | split

theorem State.hbmFinish_keeps {W : List Field} {s₀ s : State} (hk : s₀.Keeps W s) (hw : Field.sub [.halls, .net, .reqs, .seqNext] W =
    true) (h : Nat) (q : HReq) : s₀.Keeps W (State.hbmFinish s h q) := by
  unfold State.hbmFinish
  repeat' first
    | with_reducible assumption
    | with_reducible exact State.Keeps.refl _ _
    | with_reducible apply State.modHbm_keeps (hw := Field.sub_trans (by decide) hw)
    | with_reducible apply State.respond_keeps (hw := Field.sub_trans (by decide) hw)
    | with_reducible refine keeps_ite ?_ ?_
    | with_reducible refine keeps_ite_fst ?_ ?_
    | intro _
    | dsimp only
    | split

theorem State.hbmResult_keeps {W : List Field} {s₀ s : State} (hk : s₀.Keeps W s) (hw : Field.sub [.halls, .net, .reqs, .seqNext] W =
    true) (h : Nat) (id : Nat) (k : Nat) (code : Nat) (d : BitVec 512) : s₀.Keeps W (State.hbmResult s h id k code d) := by
  unfold State.hbmResult
  repeat' first
    | with_reducible assumption
    | with_reducible exact State.Keeps.refl _ _
    | with_reducible apply State.hbmFinish_keeps (hw := Field.sub_trans (by decide) hw)
    | with_reducible apply State.modHbm_keeps (hw := Field.sub_trans (by decide) hw)
    | with_reducible refine keeps_ite ?_ ?_
    | with_reducible refine keeps_ite_fst ?_ ?_
    | intro _
    | dsimp only
    | split

theorem State.wqPerform_keeps {W : List Field} {s₀ s : State} (hk : s₀.Keeps W s) (hw : Field.sub [.regs, .mem, .halls, .ev, .net, .reqs,
    .seqNext] W = true) (h : Nat) (e : WqEnt) (facts : List BurstFact) : s₀.Keeps W (State.wqPerform s h e facts) := by
  unfold State.wqPerform
  repeat' first
    | with_reducible assumption
    | with_reducible exact State.Keeps.refl _ _
    | with_reducible apply State.writeBytes_keeps (hw := Field.sub_trans (by decide) hw)
    | with_reducible apply State.burstRead_keeps (hw := Field.sub_trans (by decide) hw)
    | with_reducible apply State.hbmResult_keeps (hw := Field.sub_trans (by decide) hw)
    | with_reducible refine keeps_ite ?_ ?_
    | with_reducible refine keeps_ite_fst ?_ ?_
    | with_reducible refine keeps_foldl _ _ ?_ ?_
    | with_reducible refine keeps_foldl_fst _ _ ?_ ?_
    | intro _
    | dsimp only
    | split

theorem State.blkRead_keeps {W : List Field} {s₀ s : State} (hk : s₀.Keeps W s) (hw : Field.sub [.regs, .halls, .ev] W = true) (h : Nat)
    (blk : Nat) (facts : List BurstFact) : s₀.Keeps W (State.blkRead s h blk facts).1 := by
  unfold State.blkRead
  repeat' first
    | with_reducible assumption
    | with_reducible exact State.Keeps.refl _ _
    | with_reducible apply State.burstRead_keeps (hw := Field.sub_trans (by decide) hw)
    | with_reducible refine keeps_ite ?_ ?_
    | with_reducible refine keeps_ite_fst ?_ ?_
    | intro _
    | dsimp only
    | split

theorem State.rowsAhead_keeps {W : List Field} {s₀ s : State} (hk : s₀.Keeps W s) (hw : Field.sub [.regs, .halls, .ev] W = true) (h :
    Nat) (pc : Nat) : s₀.Keeps W (State.rowsAhead s h pc) := by
  unfold State.rowsAhead
  repeat' first
    | with_reducible assumption
    | with_reducible exact State.Keeps.refl _ _
    | with_reducible apply State.openRow_keeps (hw := Field.sub_trans (by decide) hw)
    | with_reducible refine keeps_ite ?_ ?_
    | with_reducible refine keeps_ite_fst ?_ ?_
    | with_reducible refine keeps_foldl _ _ ?_ ?_
    | with_reducible refine keeps_foldl_fst _ _ ?_ ?_
    | intro _
    | dsimp only
    | split

theorem State.modeAfter_keeps {W : List Field} {s₀ s : State} (hk : s₀.Keeps W s) (hw : Field.sub [.halls] W = true) (h : Nat) (pc : Nat)
    (m : PcMode) : s₀.Keeps W (State.modeAfter s h pc m) := by
  unfold State.modeAfter
  repeat' first
    | with_reducible assumption
    | with_reducible exact State.Keeps.refl _ _
    | with_reducible apply State.modPc_keeps (hw := Field.sub_trans (by decide) hw)
    | with_reducible refine keeps_ite ?_ ?_
    | with_reducible refine keeps_ite_fst ?_ ?_
    | intro _
    | dsimp only
    | split

theorem State.issueWrite_keeps {W : List Field} {s₀ s : State} (hk : s₀.Keeps W s) (hw : Field.sub [.regs, .mem, .halls, .ev, .net,
    .reqs, .seqNext] W = true) (h : Nat) (pc : Nat) (m : PcMode) (e : WqEnt) (facts : List BurstFact) : s₀.Keeps W (State.issueWrite s h
    pc m e facts) := by
  unfold State.issueWrite
  repeat' first
    | with_reducible assumption
    | with_reducible exact State.Keeps.refl _ _
    | with_reducible apply State.modPc_keeps (hw := Field.sub_trans (by decide) hw)
    | with_reducible apply State.openRow_keeps (hw := Field.sub_trans (by decide) hw)
    | with_reducible apply State.modeAfter_keeps (hw := Field.sub_trans (by decide) hw)
    | with_reducible apply State.wqPerform_keeps (hw := Field.sub_trans (by decide) hw)
    | with_reducible refine keeps_ite ?_ ?_
    | with_reducible refine keeps_ite_fst ?_ ?_
    | intro _
    | dsimp only
    | split

theorem State.freeFacts_keeps {W : List Field} {s₀ s : State} (hk : s₀.Keeps W s) (hw : Field.sub [.free] W = true) : s₀.Keeps W
    (State.freeFacts s).1 := by
  unfold State.freeFacts
  repeat' first
    | with_reducible assumption
    | with_reducible exact State.Keeps.refl _ _
    | with_reducible apply State.draw_keeps (hw := Field.sub_trans (by decide) hw)
    | with_reducible refine keeps_ite ?_ ?_
    | with_reducible refine keeps_ite_fst ?_ ?_
    | intro _
    | dsimp only
    | split

theorem State.wqRoom_keeps {W : List Field} {s₀ s : State} (hk : s₀.Keeps W s) (hw : Field.sub [.regs, .mem, .halls, .ev, .net, .reqs,
    .seqNext, .free] W = true) (h : Nat) (blk : Nat) : s₀.Keeps W (State.wqRoom s h blk) := by
  unfold State.wqRoom
  repeat' first
    | with_reducible assumption
    | with_reducible exact State.Keeps.refl _ _
    | with_reducible apply State.freeFacts_keeps (hw := Field.sub_trans (by decide) hw)
    | with_reducible apply State.issueWrite_keeps (hw := Field.sub_trans (by decide) hw)
    | with_reducible refine keeps_ite ?_ ?_
    | with_reducible refine keeps_ite_fst ?_ ?_
    | intro _
    | dsimp only
    | split

theorem State.channelFails_keeps {W : List Field} {s₀ s : State} (hk : s₀.Keeps W s) (hw : Field.sub [.regs, .halls, .ev, .net, .reqs,
    .seqNext] W = true) (h : Nat) (ch : Nat) : s₀.Keeps W (State.channelFails s h ch) := by
  unfold State.channelFails
  repeat' first
    | with_reducible assumption
    | with_reducible exact State.Keeps.refl _ _
    | with_reducible apply State.setFldBit_keeps (hw := Field.sub_trans (by decide) hw)
    | with_reducible apply State.modPc_keeps (hw := Field.sub_trans (by decide) hw)
    | with_reducible apply State.hbmResult_keeps (hw := Field.sub_trans (by decide) hw)
    | with_reducible apply State.post_keeps (hw := Field.sub_trans (by decide) hw)
    | with_reducible refine keeps_ite ?_ ?_
    | with_reducible refine keeps_ite_fst ?_ ?_
    | with_reducible refine keeps_foldl _ _ ?_ ?_
    | with_reducible refine keeps_foldl_fst _ _ ?_ ?_
    | intro _
    | dsimp only
    | split

theorem State.hbmAlert_keeps {W : List Field} {s₀ s : State} (hk : s₀.Keeps W s) (hw : Field.sub [.regs, .halls, .ev, .net, .reqs,
    .seqNext] W = true) (h : Nat) (ch : Nat) (kind : Nat) (acked : Bool) (acts : List (Nat × Nat)) : s₀.Keeps W (State.hbmAlert s h ch
    kind acked acts) := by
  unfold State.hbmAlert
  repeat' first
    | with_reducible assumption
    | with_reducible exact State.Keeps.refl _ _
    | with_reducible apply State.modHbm_keeps (hw := Field.sub_trans (by decide) hw)
    | with_reducible apply State.incFld_keeps (hw := Field.sub_trans (by decide) hw)
    | with_reducible apply State.postLim_keeps (hw := Field.sub_trans (by decide) hw)
    | with_reducible apply State.modPc_keeps (hw := Field.sub_trans (by decide) hw)
    | with_reducible apply State.countActivate_keeps (hw := Field.sub_trans (by decide) hw)
    | with_reducible apply State.channelFails_keeps (hw := Field.sub_trans (by decide) hw)
    | with_reducible refine keeps_ite ?_ ?_
    | with_reducible refine keeps_ite_fst ?_ ?_
    | with_reducible refine keeps_foldl _ _ ?_ ?_
    | with_reducible refine keeps_foldl_fst _ _ ?_ ?_
    | intro _
    | dsimp only
    | split

theorem State.hbmRefresh_keeps {W : List Field} {s₀ s : State} (hk : s₀.Keeps W s) (hw : Field.sub [.halls] W = true) (h : Nat) (pc :
    Nat) (bank : Nat) : s₀.Keeps W (State.hbmRefresh s h pc bank) := by
  unfold State.hbmRefresh
  repeat' first
    | with_reducible assumption
    | with_reducible exact State.Keeps.refl _ _
    | with_reducible apply State.modPc_keeps (hw := Field.sub_trans (by decide) hw)
    | with_reducible refine keeps_ite ?_ ?_
    | with_reducible refine keeps_ite_fst ?_ ?_
    | intro _
    | dsimp only
    | split

theorem State.clearTables_keeps {W : List Field} {s₀ s : State} (hk : s₀.Keeps W s) (hw : Field.sub [.halls] W = true) (h : Nat) :
    s₀.Keeps W (State.clearTables s h) := by
  unfold State.clearTables
  repeat' first
    | with_reducible assumption
    | with_reducible exact State.Keeps.refl _ _
    | with_reducible apply State.modHbm_keeps (hw := Field.sub_trans (by decide) hw)
    | with_reducible refine keeps_ite ?_ ?_
    | with_reducible refine keeps_ite_fst ?_ ?_
    | intro _
    | dsimp only
    | split

theorem State.channelSr_keeps {W : List Field} {s₀ s : State} (hk : s₀.Keeps W s) (hw : Field.sub [.regs, .halls] W = true) (h : Nat) (ch
    : Nat) : s₀.Keeps W (State.channelSr s h ch) := by
  unfold State.channelSr
  repeat' first
    | with_reducible assumption
    | with_reducible exact State.Keeps.refl _ _
    | with_reducible apply State.modHbm_keeps (hw := Field.sub_trans (by decide) hw)
    | with_reducible apply State.setFldBit_keeps (hw := Field.sub_trans (by decide) hw)
    | with_reducible refine keeps_ite ?_ ?_
    | with_reducible refine keeps_ite_fst ?_ ?_
    | intro _
    | dsimp only
    | split

theorem State.flushWrites_keeps {W : List Field} {s₀ s : State} (hk : s₀.Keeps W s) (hw : Field.sub [.regs, .mem, .halls, .ev, .net,
    .reqs, .seqNext, .free] W = true) (h : Nat) (pc : Nat) : s₀.Keeps W (State.flushWrites s h pc) := by
  unfold State.flushWrites
  repeat' first
    | with_reducible assumption
    | with_reducible exact State.Keeps.refl _ _
    | with_reducible apply State.freeFacts_keeps (hw := Field.sub_trans (by decide) hw)
    | with_reducible apply State.wqPerform_keeps (hw := Field.sub_trans (by decide) hw)
    | with_reducible apply State.modPc_keeps (hw := Field.sub_trans (by decide) hw)
    | with_reducible refine keeps_ite ?_ ?_
    | with_reducible refine keeps_ite_fst ?_ ?_
    | with_reducible refine keeps_foldl _ _ ?_ ?_
    | with_reducible refine keeps_foldl_fst _ _ ?_ ?_
    | intro _
    | dsimp only
    | split

theorem State.portFlush_keeps {W : List Field} {s₀ s : State} (hk : s₀.Keeps W s) (hw : Field.sub [.regs, .mem, .halls, .ev, .net, .reqs,
    .seqNext, .free] W = true) (h : Nat) : s₀.Keeps W (State.portFlush s h) := by
  unfold State.portFlush
  repeat' first
    | with_reducible assumption
    | with_reducible exact State.Keeps.refl _ _
    | with_reducible apply State.flushWrites_keeps (hw := Field.sub_trans (by decide) hw)
    | with_reducible apply State.modPc_keeps (hw := Field.sub_trans (by decide) hw)
    | with_reducible apply State.freeFacts_keeps (hw := Field.sub_trans (by decide) hw)
    | with_reducible apply State.blkRead_keeps (hw := Field.sub_trans (by decide) hw)
    | with_reducible apply State.hbmResult_keeps (hw := Field.sub_trans (by decide) hw)
    | with_reducible refine keeps_ite ?_ ?_
    | with_reducible refine keeps_ite_fst ?_ ?_
    | with_reducible refine keeps_foldl _ _ ?_ ?_
    | with_reducible refine keeps_foldl_fst _ _ ?_ ?_
    | intro _
    | dsimp only
    | split

theorem State.askExit_keeps {W : List Field} {s₀ s : State} (hk : s₀.Keeps W s) (hw : Field.sub [.regs, .gals, .ev, .adm, .dom, .pwrCmd,
    .boot, .bist] W = true) (h : Nat) : s₀.Keeps W (State.askExit s h) := by
  unfold State.askExit
  repeat' first
    | with_reducible assumption
    | with_reducible exact State.Keeps.refl _ _
    | with_reducible apply State.admRequest_keeps (hw := Field.sub_trans (by decide) hw)
    | with_reducible apply State.setHbmState_keeps (hw := Field.sub_trans (by decide) hw)
    | with_reducible refine keeps_ite ?_ ?_
    | with_reducible refine keeps_ite_fst ?_ ?_
    | intro _
    | dsimp only
    | split

theorem State.srBegin_keeps {W : List Field} {s₀ s : State} (hk : s₀.Keeps W s) (hw : Field.sub [.halls] W = true) (h : Nat) (cause :
    Nat) : s₀.Keeps W (State.srBegin s h cause) := by
  unfold State.srBegin
  repeat' first
    | with_reducible assumption
    | with_reducible exact State.Keeps.refl _ _
    | with_reducible apply State.modHbm_keeps (hw := Field.sub_trans (by decide) hw)
    | with_reducible refine keeps_ite ?_ ?_
    | with_reducible refine keeps_ite_fst ?_ ?_
    | intro _
    | dsimp only
    | split

theorem State.srEnd_keeps {W : List Field} {s₀ s : State} (hk : s₀.Keeps W s) (hw : Field.sub [.regs, .gals, .halls, .ev, .adm, .dom,
    .pwrCmd, .boot, .bist] W = true) (h : Nat) (cause : Nat) : s₀.Keeps W (State.srEnd s h cause) := by
  unfold State.srEnd
  repeat' first
    | with_reducible assumption
    | with_reducible exact State.Keeps.refl _ _
    | with_reducible apply State.modHbm_keeps (hw := Field.sub_trans (by decide) hw)
    | with_reducible apply State.askExit_keeps (hw := Field.sub_trans (by decide) hw)
    | with_reducible refine keeps_ite ?_ ?_
    | with_reducible refine keeps_ite_fst ?_ ?_
    | intro _
    | dsimp only
    | split

theorem State.stackEntered_keeps {W : List Field} {s₀ s : State} (hk : s₀.Keeps W s) (hw : Field.sub [.regs, .gals, .halls, .ev, .adm,
    .dom, .pwrCmd, .boot, .bist] W = true) (h : Nat) : s₀.Keeps W (State.stackEntered s h) := by
  unfold State.stackEntered
  repeat' first
    | with_reducible assumption
    | with_reducible exact State.Keeps.refl _ _
    | with_reducible apply State.setFld_keeps (hw := Field.sub_trans (by decide) hw)
    | with_reducible apply State.modHbm_keeps (hw := Field.sub_trans (by decide) hw)
    | with_reducible apply State.admWithdraw_keeps (hw := Field.sub_trans (by decide) hw)
    | with_reducible apply State.admRelease_keeps (hw := Field.sub_trans (by decide) hw)
    | with_reducible apply State.setHbmState_keeps (hw := Field.sub_trans (by decide) hw)
    | with_reducible apply State.askExit_keeps (hw := Field.sub_trans (by decide) hw)
    | with_reducible refine keeps_ite ?_ ?_
    | with_reducible refine keeps_ite_fst ?_ ?_
    | intro _
    | dsimp only
    | split

theorem State.exitGranted_keeps {W : List Field} {s₀ s : State} (hk : s₀.Keeps W s) (hw : Field.sub [.halls] W = true) (h : Nat) :
    s₀.Keeps W (State.exitGranted s h) := by
  unfold State.exitGranted
  repeat' first
    | with_reducible assumption
    | with_reducible exact State.Keeps.refl _ _
    | with_reducible apply State.modHbm_keeps (hw := Field.sub_trans (by decide) hw)
    | with_reducible refine keeps_ite ?_ ?_
    | with_reducible refine keeps_ite_fst ?_ ?_
    | intro _
    | dsimp only
    | split

theorem State.srHoldSet_keeps {W : List Field} {s₀ s : State} (hk : s₀.Keeps W s) (hw : Field.sub [.regs, .halls] W = true) (h : Nat) :
    s₀.Keeps W (State.srHoldSet s h) := by
  unfold State.srHoldSet
  repeat' first
    | with_reducible assumption
    | with_reducible exact State.Keeps.refl _ _
    | with_reducible apply State.srBegin_keeps (hw := Field.sub_trans (by decide) hw)
    | with_reducible apply State.setFld_keeps (hw := Field.sub_trans (by decide) hw)
    | with_reducible refine keeps_ite ?_ ?_
    | with_reducible refine keeps_ite_fst ?_ ?_
    | intro _
    | dsimp only
    | split

theorem State.srHoldClear_keeps {W : List Field} {s₀ s : State} (hk : s₀.Keeps W s) (hw : Field.sub [.regs, .gals, .halls, .ev, .adm,
    .dom, .pwrCmd, .boot, .bist] W = true) (h : Nat) : s₀.Keeps W (State.srHoldClear s h) := by
  unfold State.srHoldClear
  repeat' first
    | with_reducible assumption
    | with_reducible exact State.Keeps.refl _ _
    | with_reducible apply State.srEnd_keeps (hw := Field.sub_trans (by decide) hw)
    | with_reducible apply State.setFld_keeps (hw := Field.sub_trans (by decide) hw)
    | with_reducible refine keeps_ite ?_ ?_
    | with_reducible refine keeps_ite_fst ?_ ?_
    | intro _
    | dsimp only
    | split

theorem State.hbmCtrlWrite_keeps {W : List Field} {s₀ s : State} (hk : s₀.Keeps W s) (hw : Field.sub [.regs, .gals, .halls, .ev, .adm,
    .dom, .pwrCmd, .boot, .bist] W = true) (h : Nat) (v : Word) : s₀.Keeps W (State.hbmCtrlWrite s h v) := by
  unfold State.hbmCtrlWrite
  repeat' first
    | with_reducible assumption
    | with_reducible exact State.Keeps.refl _ _
    | with_reducible apply State.srHoldSet_keeps (hw := Field.sub_trans (by decide) hw)
    | with_reducible apply State.srHoldClear_keeps (hw := Field.sub_trans (by decide) hw)
    | with_reducible refine keeps_ite ?_ ?_
    | with_reducible refine keeps_ite_fst ?_ ?_
    | intro _
    | dsimp only
    | split

theorem State.hbmWqWrite_keeps {W : List Field} {s₀ s : State} (hk : s₀.Keeps W s) (hw : Field.sub [.regs, .ev] W = true) (h : Nat) (v :
    Word) : s₀.Keeps W (State.hbmWqWrite s h v) := by
  unfold State.hbmWqWrite
  repeat' first
    | with_reducible assumption
    | with_reducible exact State.Keeps.refl _ _
    | with_reducible apply State.post_keeps (hw := Field.sub_trans (by decide) hw)
    | with_reducible apply State.writeFields_keeps (hw := Field.sub_trans (by decide) hw)
    | with_reducible refine keeps_ite ?_ ?_
    | with_reducible refine keeps_ite_fst ?_ ?_
    | intro _
    | dsimp only
    | split

theorem execHbmAlert_keeps {s : State} (m : StackIx) (ch : Fin 16) (kind : Fin 2) (acked : Bool) (acts : List (Fin 2 × Fin 1572864)) : ∃
    nx, execHbmAlert m ch kind acked acts s = .next nx ∧ s.Keeps [.regs, .halls, .ev, .net, .reqs, .seqNext] nx := by
  have hw : Field.sub [.regs, .halls, .ev, .net, .reqs, .seqNext] [.regs, .halls, .ev, .net, .reqs, .seqNext] = true := by decide
  refine ⟨_, rfl, ?_⟩
  have hk := State.Keeps.refl [.regs, .halls, .ev, .net, .reqs, .seqNext] s
  repeat' first
    | with_reducible assumption
    | with_reducible exact State.Keeps.refl _ _
    | with_reducible apply State.hbmAlert_keeps (hw := Field.sub_trans (by decide) hw)
    | with_reducible refine keeps_ite ?_ ?_
    | with_reducible refine keeps_ite_fst ?_ ?_
    | intro _
    | dsimp only
    | split

theorem execHbmRefresh_keeps {s : State} (m : StackIx) (pc : Fin 32) (bank : Fin 48) : ∃ nx, execHbmRefresh m pc bank s = .next nx ∧
    s.Keeps [.halls] nx := by
  have hw : Field.sub [.halls] [.halls] = true := by decide
  refine ⟨_, rfl, ?_⟩
  have hk := State.Keeps.refl [.halls] s
  repeat' first
    | with_reducible assumption
    | with_reducible exact State.Keeps.refl _ _
    | with_reducible apply State.hbmRefresh_keeps (hw := Field.sub_trans (by decide) hw)
    | with_reducible refine keeps_ite ?_ ?_
    | with_reducible refine keeps_ite_fst ?_ ?_
    | intro _
    | dsimp only
    | split

theorem execActivationTableClear_keeps {s : State} (m : StackIx) : ∃ nx, execActivationTableClear m s = .next nx ∧ s.Keeps [.halls] nx :=
    by
  have hw : Field.sub [.halls] [.halls] = true := by decide
  refine ⟨_, rfl, ?_⟩
  have hk := State.Keeps.refl [.halls] s
  repeat' first
    | with_reducible assumption
    | with_reducible exact State.Keeps.refl _ _
    | with_reducible apply State.clearTables_keeps (hw := Field.sub_trans (by decide) hw)
    | with_reducible refine keeps_ite ?_ ?_
    | with_reducible refine keeps_ite_fst ?_ ?_
    | intro _
    | dsimp only
    | split

theorem execHbmChannelSrEntry_keeps {s : State} (m : StackIx) (ch : Fin 16) : ∃ nx, execHbmChannelSrEntry m ch s = .next nx ∧ s.Keeps
    [.regs, .halls] nx := by
  have hw : Field.sub [.regs, .halls] [.regs, .halls] = true := by decide
  refine ⟨_, rfl, ?_⟩
  have hk := State.Keeps.refl [.regs, .halls] s
  repeat' first
    | with_reducible assumption
    | with_reducible exact State.Keeps.refl _ _
    | with_reducible apply State.channelSr_keeps (hw := Field.sub_trans (by decide) hw)
    | with_reducible refine keeps_ite ?_ ?_
    | with_reducible refine keeps_ite_fst ?_ ?_
    | intro _
    | dsimp only
    | split

theorem execSrHoldSet_keeps {s : State} (m : StackIx) : ∃ nx, execSrHoldSet m s = .next nx ∧ s.Keeps [.regs, .halls, .ev] nx := by
  have hw : Field.sub [.regs, .halls, .ev] [.regs, .halls, .ev] = true := by decide
  refine ⟨_, rfl, ?_⟩
  have hk := State.Keeps.refl [.regs, .halls, .ev] s
  repeat' first
    | with_reducible assumption
    | with_reducible exact State.Keeps.refl _ _
    | with_reducible refine State.hostWrite_keeps ?_ (Field.sub_trans (by decide) hw) _ _ ?_
    | with_reducible apply State.srHoldSet_keeps (hw := Field.sub_trans (by decide) hw)
    | with_reducible refine keeps_ite ?_ ?_
    | with_reducible refine keeps_ite_fst ?_ ?_
    | intro _
    | dsimp only
    | split

theorem execSrHoldClear_keeps {s : State} (m : StackIx) : ∃ nx, execSrHoldClear m s = .next nx ∧ s.Keeps [.regs, .gals, .halls, .ev,
    .adm, .dom, .pwrCmd, .boot, .bist] nx := by
  have hw : Field.sub [.regs, .gals, .halls, .ev, .adm, .dom, .pwrCmd, .boot, .bist] [.regs, .gals, .halls, .ev, .adm, .dom, .pwrCmd,
    .boot, .bist] = true := by decide
  refine ⟨_, rfl, ?_⟩
  have hk := State.Keeps.refl [.regs, .gals, .halls, .ev, .adm, .dom, .pwrCmd, .boot, .bist] s
  repeat' first
    | with_reducible assumption
    | with_reducible exact State.Keeps.refl _ _
    | with_reducible refine State.hostWrite_keeps ?_ (Field.sub_trans (by decide) hw) _ _ ?_
    | with_reducible apply State.srHoldClear_keeps (hw := Field.sub_trans (by decide) hw)
    | with_reducible refine keeps_ite ?_ ?_
    | with_reducible refine keeps_ite_fst ?_ ?_
    | intro _
    | dsimp only
    | split

theorem execHbmWqWrite_keeps {s : State} (m : StackIx) (v : Word) : ∃ nx, execHbmWqWrite m v s = .next nx ∧ s.Keeps [.regs, .ev] nx := by
  have hw : Field.sub [.regs, .ev] [.regs, .ev] = true := by decide
  refine ⟨_, rfl, ?_⟩
  have hk := State.Keeps.refl [.regs, .ev] s
  repeat' first
    | with_reducible assumption
    | with_reducible exact State.Keeps.refl _ _
    | with_reducible refine State.hostWrite_keeps ?_ (Field.sub_trans (by decide) hw) _ _ ?_
    | with_reducible apply State.hbmWqWrite_keeps (hw := Field.sub_trans (by decide) hw)
    | with_reducible refine keeps_ite ?_ ?_
    | with_reducible refine keeps_ite_fst ?_ ?_
    | intro _
    | dsimp only
    | split

end Sys2Proof.Machine
end

