-- ==== Sys2Proof/Laws/KeepsMee.lean ====
section
/-!
SUPPORT. Laws/KeepsMee.lean: the operations of Machine/Mee.lean keep State.Keeps.
-/
namespace Sys2Proof.Machine
open Sys2Proof

theorem State.modMee_keeps {W : List Field} {s₀ s : State} (hk : s₀.Keeps W s) (hw : Field.sub [.halls] W = true) (h : Nat) (f : Mee →
    Mee) : s₀.Keeps W (State.modMee s h f) := by
  unfold State.modMee
  repeat' first
    | with_reducible assumption
    | with_reducible exact State.Keeps.refl _ _
    | with_reducible apply State.modHall_keeps (hw := Field.sub_trans (by decide) hw)
    | with_reducible refine keeps_ite ?_ ?_
    | with_reducible refine keeps_ite_fst ?_ ?_
    | intro _
    | dsimp only
    | split

theorem State.modRange_keeps {W : List Field} {s₀ s : State} (hk : s₀.Keeps W s) (hw : Field.sub [.halls] W = true) (h : Nat) (r : Nat)
    (f : MeeRange → MeeRange) : s₀.Keeps W (State.modRange s h r f) := by
  unfold State.modRange
  repeat' first
    | with_reducible assumption
    | with_reducible exact State.Keeps.refl _ _
    | with_reducible apply State.modMee_keeps (hw := Field.sub_trans (by decide) hw)
    | with_reducible refine keeps_ite ?_ ?_
    | with_reducible refine keeps_ite_fst ?_ ?_
    | intro _
    | dsimp only
    | split

theorem State.setMeeState_keeps {W : List Field} {s₀ s : State} (hk : s₀.Keeps W s) (hw : Field.sub [.regs] W = true) (h : Nat) (r : Nat)
    (st : Nat) : s₀.Keeps W (State.setMeeState s h r st) := by
  unfold State.setMeeState
  repeat' first
    | with_reducible assumption
    | with_reducible exact State.Keeps.refl _ _
    | with_reducible apply State.setFld_keeps (hw := Field.sub_trans (by decide) hw)
    | with_reducible refine keeps_ite ?_ ?_
    | with_reducible refine keeps_ite_fst ?_ ?_
    | intro _
    | dsimp only
    | split

theorem State.meeRefuse_keeps {W : List Field} {s₀ s : State} (hk : s₀.Keeps W s) (hw : Field.sub [.regs, .ev] W = true) (h : Nat) (off :
    Nat) (r : Nat) : s₀.Keeps W (State.meeRefuse s h off r) := by
  unfold State.meeRefuse
  repeat' first
    | with_reducible assumption
    | with_reducible exact State.Keeps.refl _ _
    | with_reducible apply State.post_keeps (hw := Field.sub_trans (by decide) hw)
    | with_reducible refine keeps_ite ?_ ?_
    | with_reducible refine keeps_ite_fst ?_ ?_
    | intro _
    | dsimp only
    | split

theorem State.addPoison_keeps {W : List Field} {s₀ s : State} (hk : s₀.Keeps W s) (hw : Field.sub [.regs, .ev, .adm] W = true) (h : Nat)
    (r : Nat) (kind : Nat) (i : Nat) : s₀.Keeps W (State.addPoison s h r kind i) := by
  unfold State.addPoison
  repeat' first
    | with_reducible assumption
    | with_reducible exact State.Keeps.refl _ _
    | with_reducible apply State.setReg_keeps (hw := Field.sub_trans (by decide) hw)
    | with_reducible apply State.setFld_keeps (hw := Field.sub_trans (by decide) hw)
    | with_reducible apply State.post_keeps (hw := Field.sub_trans (by decide) hw)
    | with_reducible apply State.admWithdraw_keeps (hw := Field.sub_trans (by decide) hw)
    | with_reducible apply State.admRelease_keeps (hw := Field.sub_trans (by decide) hw)
    | with_reducible apply State.setMeeState_keeps (hw := Field.sub_trans (by decide) hw)
    | with_reducible refine keeps_ite ?_ ?_
    | with_reducible refine keeps_ite_fst ?_ ?_
    | intro _
    | dsimp only
    | split

theorem State.modTree_keeps {W : List Field} {s₀ s : State} (hk : s₀.Keeps W s) (hw : Field.sub [.halls] W = true) (h : Nat) (r : Nat) (i
    : Nat) (f : MeeTree → MeeTree) : s₀.Keeps W (State.modTree s h r i f) := by
  unfold State.modTree
  repeat' first
    | with_reducible assumption
    | with_reducible exact State.Keeps.refl _ _
    | with_reducible apply State.modRange_keeps (hw := Field.sub_trans (by decide) hw)
    | with_reducible refine keeps_ite ?_ ?_
    | with_reducible refine keeps_ite_fst ?_ ?_
    | intro _
    | dsimp only
    | split

theorem State.writeBack_keeps {W : List Field} {s₀ s : State} (hk : s₀.Keeps W s) (hw : Field.sub [.halls] W = true) (h : Nat) (r : Nat)
    (lvl : Nat) (i : Nat) : s₀.Keeps W (State.writeBack s h r lvl i) := by
  unfold State.writeBack
  repeat' first
    | with_reducible assumption
    | with_reducible exact State.Keeps.refl _ _
    | with_reducible apply State.modTree_keeps (hw := Field.sub_trans (by decide) hw)
    | with_reducible apply State.modMee_keeps (hw := Field.sub_trans (by decide) hw)
    | with_reducible refine keeps_ite ?_ ?_
    | with_reducible refine keeps_ite_fst ?_ ?_
    | intro _
    | dsimp only
    | split

theorem State.cacheFlush_keeps {W : List Field} {s₀ s : State} (hk : s₀.Keeps W s) (hw : Field.sub [.halls] W = true) (h : Nat) :
    s₀.Keeps W (State.cacheFlush s h) := by
  unfold State.cacheFlush
  repeat' first
    | with_reducible assumption
    | with_reducible exact State.Keeps.refl _ _
    | with_reducible apply State.writeBack_keeps (hw := Field.sub_trans (by decide) hw)
    | with_reducible refine keeps_ite ?_ ?_
    | with_reducible refine keeps_ite_fst ?_ ?_
    | with_reducible refine keeps_foldl _ _ ?_ ?_
    | with_reducible refine keeps_foldl_fst _ _ ?_ ?_
    | intro _
    | dsimp only
    | split

theorem State.meeLookups_keeps {W : List Field} {s₀ s : State} (hk : s₀.Keeps W s) (hw : Field.sub [.regs, .halls] W = true) (h : Nat) (r
    : Nat) (f : MeeFacts) : s₀.Keeps W (State.meeLookups s h r f) := by
  unfold State.meeLookups
  repeat' first
    | with_reducible assumption
    | with_reducible exact State.Keeps.refl _ _
    | with_reducible apply State.incFld_keeps (hw := Field.sub_trans (by decide) hw)
    | with_reducible apply State.writeBack_keeps (hw := Field.sub_trans (by decide) hw)
    | with_reducible refine keeps_ite ?_ ?_
    | with_reducible refine keeps_ite_fst ?_ ?_
    | with_reducible refine keeps_foldl _ _ ?_ ?_
    | with_reducible refine keeps_foldl_fst _ _ ?_ ?_
    | intro _
    | dsimp only
    | split

theorem State.meeExhausted_keeps {W : List Field} {s₀ s : State} (hk : s₀.Keeps W s) (hw : Field.sub [.regs, .ev] W = true) (h : Nat) (r
    : Nat) (start : Nat) (k : Nat) (kind : Nat) : s₀.Keeps W (State.meeExhausted s h r start k kind) := by
  unfold State.meeExhausted
  repeat' first
    | with_reducible assumption
    | with_reducible exact State.Keeps.refl _ _
    | with_reducible apply State.postLim_keeps (hw := Field.sub_trans (by decide) hw)
    | with_reducible apply State.setFld_keeps (hw := Field.sub_trans (by decide) hw)
    | with_reducible refine keeps_ite ?_ ?_
    | with_reducible refine keeps_ite_fst ?_ ?_
    | intro _
    | dsimp only
    | split

theorem State.bumpCounters_keeps {W : List Field} {s₀ s : State} (hk : s₀.Keeps W s) (hw : Field.sub [.regs, .halls, .ev] W = true) (h :
    Nat) (r : Nat) (i : Nat) : s₀.Keeps W (State.bumpCounters s h r i).1 := by
  unfold State.bumpCounters
  repeat' first
    | with_reducible assumption
    | with_reducible exact State.Keeps.refl _ _
    | with_reducible apply State.meeExhausted_keeps (hw := Field.sub_trans (by decide) hw)
    | with_reducible apply State.modTree_keeps (hw := Field.sub_trans (by decide) hw)
    | with_reducible apply State.postLim_keeps (hw := Field.sub_trans (by decide) hw)
    | with_reducible refine keeps_ite ?_ ?_
    | with_reducible refine keeps_ite_fst ?_ ?_
    | intro _
    | dsimp only
    | split

theorem State.wcbSync_keeps {W : List Field} {s₀ s : State} (hk : s₀.Keeps W s) (hw : Field.sub [.regs] W = true) (h : Nat) : s₀.Keeps W
    (State.wcbSync s h) := by
  unfold State.wcbSync
  repeat' first
    | with_reducible assumption
    | with_reducible exact State.Keeps.refl _ _
    | with_reducible apply State.setFld_keeps (hw := Field.sub_trans (by decide) hw)
    | with_reducible refine keeps_ite ?_ ?_
    | with_reducible refine keeps_ite_fst ?_ ?_
    | intro _
    | dsimp only
    | split

theorem State.wcbDrop_keeps {W : List Field} {s₀ s : State} (hk : s₀.Keeps W s) (hw : Field.sub [.regs, .halls] W = true) (h : Nat) (blk
    : Nat) : s₀.Keeps W (State.wcbDrop s h blk) := by
  unfold State.wcbDrop
  repeat' first
    | with_reducible assumption
    | with_reducible exact State.Keeps.refl _ _
    | with_reducible apply State.wcbSync_keeps (hw := Field.sub_trans (by decide) hw)
    | with_reducible apply State.modMee_keeps (hw := Field.sub_trans (by decide) hw)
    | with_reducible refine keeps_ite ?_ ?_
    | with_reducible refine keeps_ite_fst ?_ ?_
    | intro _
    | dsimp only
    | split

theorem State.encWrite_keeps {W : List Field} {s₀ s : State} (hk : s₀.Keeps W s) (hw : Field.sub [.regs, .mem, .halls, .ev, .net, .reqs,
    .seqNext, .free] W = true) (h : Nat) (r : Nat) (blk : Nat) (d : BitVec 512) : s₀.Keeps W (State.encWrite s h r blk d).1 := by
  unfold State.encWrite
  repeat' first
    | with_reducible assumption
    | with_reducible exact State.Keeps.refl _ _
    | with_reducible apply State.bumpCounters_keeps (hw := Field.sub_trans (by decide) hw)
    | with_reducible apply State.modRange_keeps (hw := Field.sub_trans (by decide) hw)
    | with_reducible apply State.modMee_keeps (hw := Field.sub_trans (by decide) hw)
    | with_reducible apply State.wqPost_keeps (hw := Field.sub_trans (by decide) hw)
    | with_reducible apply State.wqRoom_keeps (hw := Field.sub_trans (by decide) hw)
    | with_reducible apply State.wcbDrop_keeps (hw := Field.sub_trans (by decide) hw)
    | with_reducible refine keeps_ite ?_ ?_
    | with_reducible refine keeps_ite_fst ?_ ?_
    | intro _
    | dsimp only
    | split

theorem State.meeVerify_keeps {W : List Field} {s₀ s : State} (hk : s₀.Keeps W s) (hw : Field.sub [.regs, .halls, .ev, .adm, .free] W =
    true) (h : Nat) (r : Nat) (blk : Nat) (f : MeeFacts) : s₀.Keeps W (State.meeVerify s h r blk f).1 := by
  unfold State.meeVerify
  repeat' first
    | with_reducible assumption
    | with_reducible exact State.Keeps.refl _ _
    | with_reducible apply State.meeLookups_keeps (hw := Field.sub_trans (by decide) hw)
    | with_reducible apply State.addPoison_keeps (hw := Field.sub_trans (by decide) hw)
    | with_reducible apply State.draw_keeps (hw := Field.sub_trans (by decide) hw)
    | with_reducible apply State.incFld_keeps (hw := Field.sub_trans (by decide) hw)
    | with_reducible apply State.postLim_keeps (hw := Field.sub_trans (by decide) hw)
    | with_reducible refine keeps_ite ?_ ?_
    | with_reducible refine keeps_ite_fst ?_ ?_
    | intro _
    | dsimp only
    | split

theorem State.wcbLost_keeps {W : List Field} {s₀ s : State} (hk : s₀.Keeps W s) (hw : Field.sub [.regs, .halls, .ev] W = true) (h : Nat)
    (e : WcbEnt) : s₀.Keeps W (State.wcbLost s h e) := by
  unfold State.wcbLost
  repeat' first
    | with_reducible assumption
    | with_reducible exact State.Keeps.refl _ _
    | with_reducible apply State.postLim_keeps (hw := Field.sub_trans (by decide) hw)
    | with_reducible apply State.incFld_keeps (hw := Field.sub_trans (by decide) hw)
    | with_reducible apply State.wcbDrop_keeps (hw := Field.sub_trans (by decide) hw)
    | with_reducible refine keeps_ite ?_ ?_
    | with_reducible refine keeps_ite_fst ?_ ?_
    | intro _
    | dsimp only
    | split

theorem State.wcbMerge_keeps {W : List Field} {s₀ s : State} (hk : s₀.Keeps W s) (hw : Field.sub [.regs, .mem, .halls, .ev, .adm, .net,
    .reqs, .seqNext, .free] W = true) (h : Nat) (e : WcbEnt) (f : MeeFacts) : s₀.Keeps W (State.wcbMerge s h e f) := by
  unfold State.wcbMerge
  repeat' first
    | with_reducible assumption
    | with_reducible exact State.Keeps.refl _ _
    | with_reducible apply State.wcbLost_keeps (hw := Field.sub_trans (by decide) hw)
    | with_reducible apply State.meeVerify_keeps (hw := Field.sub_trans (by decide) hw)
    | with_reducible apply State.encWrite_keeps (hw := Field.sub_trans (by decide) hw)
    | with_reducible refine keeps_ite ?_ ?_
    | with_reducible refine keeps_ite_fst ?_ ?_
    | intro _
    | dsimp only
    | split

theorem State.wcbMergeFree_keeps {W : List Field} {s₀ s : State} (hk : s₀.Keeps W s) (hw : Field.sub [.regs, .mem, .halls, .ev, .adm,
    .net, .reqs, .seqNext, .free] W = true) (h : Nat) (e : WcbEnt) : s₀.Keeps W (State.wcbMergeFree s h e) := by
  unfold State.wcbMergeFree
  repeat' first
    | with_reducible assumption
    | with_reducible exact State.Keeps.refl _ _
    | with_reducible apply State.wcbMerge_keeps (hw := Field.sub_trans (by decide) hw)
    | with_reducible apply State.draw_keeps (hw := Field.sub_trans (by decide) hw)
    | with_reducible refine keeps_ite ?_ ?_
    | with_reducible refine keeps_ite_fst ?_ ?_
    | intro _
    | dsimp only
    | split

theorem State.wcbDrain_keeps {W : List Field} {s₀ s : State} (hk : s₀.Keeps W s) (hw : Field.sub [.regs, .mem, .halls, .ev, .adm, .net,
    .reqs, .seqNext, .free] W = true) (h : Nat) : s₀.Keeps W (State.wcbDrain s h) := by
  unfold State.wcbDrain
  repeat' first
    | with_reducible assumption
    | with_reducible exact State.Keeps.refl _ _
    | with_reducible apply State.wcbMergeFree_keeps (hw := Field.sub_trans (by decide) hw)
    | with_reducible refine keeps_ite ?_ ?_
    | with_reducible refine keeps_ite_fst ?_ ?_
    | with_reducible refine keeps_foldl _ _ ?_ ?_
    | with_reducible refine keeps_foldl_fst _ _ ?_ ?_
    | intro _
    | dsimp only
    | split

theorem State.wcbPut_keeps {W : List Field} {s₀ s : State} (hk : s₀.Keeps W s) (hw : Field.sub [.regs, .mem, .halls, .ev, .adm, .net,
    .reqs, .seqNext, .free] W = true) (h : Nat) (r : Nat) (blk : Nat) (d : BitVec 512) (m : BitVec 64) : s₀.Keeps W (State.wcbPut s h r
    blk d m).1 := by
  unfold State.wcbPut
  repeat' first
    | with_reducible assumption
    | with_reducible exact State.Keeps.refl _ _
    | with_reducible apply State.encWrite_keeps (hw := Field.sub_trans (by decide) hw)
    | with_reducible apply State.modMee_keeps (hw := Field.sub_trans (by decide) hw)
    | with_reducible apply State.wcbMergeFree_keeps (hw := Field.sub_trans (by decide) hw)
    | with_reducible apply State.wcbSync_keeps (hw := Field.sub_trans (by decide) hw)
    | with_reducible refine keeps_ite ?_ ?_
    | with_reducible refine keeps_ite_fst ?_ ?_
    | intro _
    | dsimp only
    | split

theorem State.wcbAge_keeps {W : List Field} {s₀ s : State} (hk : s₀.Keeps W s) (hw : Field.sub [.regs, .mem, .halls, .ev, .adm, .net,
    .reqs, .seqNext, .free] W = true) (h : Nat) (blk : Nat) (f : MeeFacts) : s₀.Keeps W (State.wcbAge s h blk f) := by
  unfold State.wcbAge
  repeat' first
    | with_reducible assumption
    | with_reducible exact State.Keeps.refl _ _
    | with_reducible apply State.wcbMerge_keeps (hw := Field.sub_trans (by decide) hw)
    | with_reducible refine keeps_ite ?_ ?_
    | with_reducible refine keeps_ite_fst ?_ ?_
    | intro _
    | dsimp only
    | split

theorem State.meeMetaAccess_keeps {W : List Field} {s₀ s : State} (hk : s₀.Keeps W s) (hw : Field.sub [.regs, .ev] W = true) (h : Nat) (r
    : Nat) (p : Packet) : s₀.Keeps W (State.meeMetaAccess s h r p) := by
  unfold State.meeMetaAccess
  repeat' first
    | with_reducible assumption
    | with_reducible exact State.Keeps.refl _ _
    | with_reducible apply State.postLim_keeps (hw := Field.sub_trans (by decide) hw)
    | with_reducible refine keeps_ite ?_ ?_
    | with_reducible refine keeps_ite_fst ?_ ?_
    | intro _
    | dsimp only
    | split

theorem State.readDone_keeps {W : List Field} {s₀ s : State} (hk : s₀.Keeps W s) (hw : Field.sub [.regs, .halls, .ev, .adm, .net, .reqs,
    .seqNext, .free] W = true) (h : Nat) (id : Nat) (k : Nat) (r : Nat) (blk : Nat) (d : BitVec 512) (f : MeeFacts) : s₀.Keeps W
    (State.readDone s h id k r blk d f) := by
  unfold State.readDone
  repeat' first
    | with_reducible assumption
    | with_reducible exact State.Keeps.refl _ _
    | with_reducible apply State.meeVerify_keeps (hw := Field.sub_trans (by decide) hw)
    | with_reducible apply State.hbmResult_keeps (hw := Field.sub_trans (by decide) hw)
    | with_reducible apply State.draw_keeps (hw := Field.sub_trans (by decide) hw)
    | with_reducible refine keeps_ite ?_ ?_
    | with_reducible refine keeps_ite_fst ?_ ?_
    | intro _
    | dsimp only
    | split

theorem State.startRead_keeps {W : List Field} {s₀ s : State} (hk : s₀.Keeps W s) (hw : Field.sub [.regs, .halls, .ev, .adm, .net, .reqs,
    .seqNext, .free] W = true) (h : Nat) (id : Nat) (p : Packet) (u : Nat) (f : MeeFacts) : s₀.Keeps W (State.startRead s h id p u f) :=
    by
  unfold State.startRead
  repeat' first
    | with_reducible assumption
    | with_reducible exact State.Keeps.refl _ _
    | with_reducible apply State.modPc_keeps (hw := Field.sub_trans (by decide) hw)
    | with_reducible apply State.setFldBit_keeps (hw := Field.sub_trans (by decide) hw)
    | with_reducible apply State.hbmResult_keeps (hw := Field.sub_trans (by decide) hw)
    | with_reducible apply State.meeMetaAccess_keeps (hw := Field.sub_trans (by decide) hw)
    | with_reducible apply State.readDone_keeps (hw := Field.sub_trans (by decide) hw)
    | with_reducible refine keeps_ite ?_ ?_
    | with_reducible refine keeps_ite_fst ?_ ?_
    | intro _
    | dsimp only
    | split

theorem State.startWrite_keeps {W : List Field} {s₀ s : State} (hk : s₀.Keeps W s) (hw : Field.sub [.regs, .mem, .halls, .ev, .adm, .net,
    .reqs, .seqNext, .free] W = true) (h : Nat) (id : Nat) (p : Packet) (u : Nat) (f : MeeFacts) : s₀.Keeps W (State.startWrite s h id p
    u f) := by
  unfold State.startWrite
  repeat' first
    | with_reducible assumption
    | with_reducible exact State.Keeps.refl _ _
    | with_reducible apply State.hbmResult_keeps (hw := Field.sub_trans (by decide) hw)
    | with_reducible apply State.wqPost_keeps (hw := Field.sub_trans (by decide) hw)
    | with_reducible apply State.meeMetaAccess_keeps (hw := Field.sub_trans (by decide) hw)
    | with_reducible apply State.addPoison_keeps (hw := Field.sub_trans (by decide) hw)
    | with_reducible apply State.meeLookups_keeps (hw := Field.sub_trans (by decide) hw)
    | with_reducible apply State.encWrite_keeps (hw := Field.sub_trans (by decide) hw)
    | with_reducible apply State.wcbPut_keeps (hw := Field.sub_trans (by decide) hw)
    | with_reducible refine keeps_ite ?_ ?_
    | with_reducible refine keeps_ite_fst ?_ ?_
    | intro _
    | dsimp only
    | split

theorem State.startReq_keeps {W : List Field} {s₀ s : State} (hk : s₀.Keeps W s) (hw : Field.sub [.regs, .mem, .halls, .ev, .adm, .net,
    .reqs, .seqNext, .free] W = true) (h : Nat) (p : Packet) (facts : List MeeFacts) : s₀.Keeps W (State.startReq s h p facts) := by
  unfold State.startReq
  repeat' first
    | with_reducible assumption
    | with_reducible exact State.Keeps.refl _ _
    | with_reducible apply State.modHbm_keeps (hw := Field.sub_trans (by decide) hw)
    | with_reducible apply State.startRead_keeps (hw := Field.sub_trans (by decide) hw)
    | with_reducible apply State.startWrite_keeps (hw := Field.sub_trans (by decide) hw)
    | with_reducible refine keeps_ite ?_ ?_
    | with_reducible refine keeps_ite_fst ?_ ?_
    | with_reducible refine keeps_foldl _ _ ?_ ?_
    | with_reducible refine keeps_foldl_fst _ _ ?_ ?_
    | intro _
    | dsimp only
    | split

theorem State.portDrain_keeps {W : List Field} {s₀ s : State} (hk : s₀.Keeps W s) (hw : Field.sub [.regs, .mem, .halls, .ev, .adm, .net,
    .reqs, .seqNext, .free] W = true) (h : Nat) : s₀.Keeps W (State.portDrain s h) := by
  unfold State.portDrain
  repeat' first
    | with_reducible assumption
    | with_reducible exact State.Keeps.refl _ _
    | with_reducible apply State.startReq_keeps (hw := Field.sub_trans (by decide) hw)
    | with_reducible apply State.modHbm_keeps (hw := Field.sub_trans (by decide) hw)
    | with_reducible refine keeps_ite ?_ ?_
    | with_reducible refine keeps_ite_fst ?_ ?_
    | with_reducible refine keeps_foldl _ _ ?_ ?_
    | with_reducible refine keeps_foldl_fst _ _ ?_ ?_
    | intro _
    | dsimp only
    | split

theorem State.portArrive_keeps {W : List Field} {s₀ s : State} (hk : s₀.Keeps W s) (hw : Field.sub [.regs, .mem, .halls, .ev, .adm, .net,
    .reqs, .seqNext, .free] W = true) (h : Nat) (p : Packet) (facts : List MeeFacts) : s₀.Keeps W (State.portArrive s h p facts) := by
  unfold State.portArrive
  repeat' first
    | with_reducible assumption
    | with_reducible exact State.Keeps.refl _ _
    | with_reducible apply State.portDrain_keeps (hw := Field.sub_trans (by decide) hw)
    | with_reducible apply State.modHbm_keeps (hw := Field.sub_trans (by decide) hw)
    | with_reducible refine keeps_ite ?_ ?_
    | with_reducible refine keeps_ite_fst ?_ ?_
    | intro _
    | dsimp only
    | split

theorem State.issueRead_keeps {W : List Field} {s₀ s : State} (hk : s₀.Keeps W s) (hw : Field.sub [.regs, .halls, .ev, .adm, .net, .reqs,
    .seqNext, .free] W = true) (h : Nat) (pc : Nat) (e : RqEnt) (facts : List BurstFact) (mf : MeeFacts) : s₀.Keeps W (State.issueRead s
    h pc e facts mf) := by
  unfold State.issueRead
  repeat' first
    | with_reducible assumption
    | with_reducible exact State.Keeps.refl _ _
    | with_reducible apply State.modPc_keeps (hw := Field.sub_trans (by decide) hw)
    | with_reducible apply State.openRow_keeps (hw := Field.sub_trans (by decide) hw)
    | with_reducible apply State.blkRead_keeps (hw := Field.sub_trans (by decide) hw)
    | with_reducible apply State.hbmResult_keeps (hw := Field.sub_trans (by decide) hw)
    | with_reducible apply State.readDone_keeps (hw := Field.sub_trans (by decide) hw)
    | with_reducible refine keeps_ite ?_ ?_
    | with_reducible refine keeps_ite_fst ?_ ?_
    | intro _
    | dsimp only
    | split

theorem State.hbmBurst_keeps {W : List Field} {s₀ s : State} (hk : s₀.Keeps W s) (hw : Field.sub [.regs, .mem, .halls, .ev, .adm, .net,
    .reqs, .seqNext, .free] W = true) (h : Nat) (pc : Nat) (facts : List BurstFact) (mf : MeeFacts) : s₀.Keeps W (State.hbmBurst s h pc
    facts mf) := by
  unfold State.hbmBurst
  repeat' first
    | with_reducible assumption
    | with_reducible exact State.Keeps.refl _ _
    | with_reducible apply State.rowsAhead_keeps (hw := Field.sub_trans (by decide) hw)
    | with_reducible apply State.wbDrain_keeps (hw := Field.sub_trans (by decide) hw)
    | with_reducible apply State.modeAfter_keeps (hw := Field.sub_trans (by decide) hw)
    | with_reducible apply State.issueRead_keeps (hw := Field.sub_trans (by decide) hw)
    | with_reducible apply State.issueWrite_keeps (hw := Field.sub_trans (by decide) hw)
    | with_reducible apply State.portDrain_keeps (hw := Field.sub_trans (by decide) hw)
    | with_reducible refine keeps_ite ?_ ?_
    | with_reducible refine keeps_ite_fst ?_ ?_
    | intro _
    | dsimp only
    | split

theorem State.meeAsk_keeps {W : List Field} {s₀ s : State} (hk : s₀.Keeps W s) (hw : Field.sub [.regs, .gals, .ev, .adm, .dom, .pwrCmd,
    .boot, .bist] W = true) (h : Nat) (r : Nat) : s₀.Keeps W (State.meeAsk s h r) := by
  unfold State.meeAsk
  repeat' first
    | with_reducible assumption
    | with_reducible exact State.Keeps.refl _ _
    | with_reducible apply State.admRequest_keeps (hw := Field.sub_trans (by decide) hw)
    | with_reducible refine keeps_ite ?_ ?_
    | with_reducible refine keeps_ite_fst ?_ ?_
    | intro _
    | dsimp only
    | split

theorem State.meeEnable_keeps {W : List Field} {s₀ s : State} (hk : s₀.Keeps W s) (hw : Field.sub [.regs, .gals, .halls, .ev, .adm, .dom,
    .pwrCmd, .boot, .bist] W = true) (h : Nat) (r : Nat) : s₀.Keeps W (State.meeEnable s h r) := by
  unfold State.meeEnable
  repeat' first
    | with_reducible assumption
    | with_reducible exact State.Keeps.refl _ _
    | with_reducible apply State.meeRefuse_keeps (hw := Field.sub_trans (by decide) hw)
    | with_reducible apply State.setFld_keeps (hw := Field.sub_trans (by decide) hw)
    | with_reducible apply State.setMeeState_keeps (hw := Field.sub_trans (by decide) hw)
    | with_reducible apply State.modRange_keeps (hw := Field.sub_trans (by decide) hw)
    | with_reducible apply State.meeAsk_keeps (hw := Field.sub_trans (by decide) hw)
    | with_reducible refine keeps_ite ?_ ?_
    | with_reducible refine keeps_ite_fst ?_ ?_
    | intro _
    | dsimp only
    | split

theorem State.loseRange_keeps {W : List Field} {s₀ s : State} (hk : s₀.Keeps W s) (hw : Field.sub [.mem] W = true) (h : Nat) (r : Nat) :
    s₀.Keeps W (State.loseRange s h r) := by
  unfold State.loseRange
  repeat' first
    | with_reducible assumption
    | with_reducible exact State.Keeps.refl _ _
    | with_reducible apply State.loseMem_keeps (hw := Field.sub_trans (by decide) hw)
    | with_reducible refine keeps_ite ?_ ?_
    | with_reducible refine keeps_ite_fst ?_ ?_
    | with_reducible refine keeps_foldl _ _ ?_ ?_
    | with_reducible refine keeps_foldl_fst _ _ ?_ ?_
    | intro _
    | dsimp only
    | split

theorem State.meeDisable_keeps {W : List Field} {s₀ s : State} (hk : s₀.Keeps W s) (hw : Field.sub [.regs, .mem, .halls, .ev, .adm, .net,
    .reqs, .seqNext, .free] W = true) (h : Nat) (r : Nat) : s₀.Keeps W (State.meeDisable s h r) := by
  unfold State.meeDisable
  repeat' first
    | with_reducible assumption
    | with_reducible exact State.Keeps.refl _ _
    | with_reducible apply State.setFld_keeps (hw := Field.sub_trans (by decide) hw)
    | with_reducible apply State.loseRange_keeps (hw := Field.sub_trans (by decide) hw)
    | with_reducible apply State.modPc_keeps (hw := Field.sub_trans (by decide) hw)
    | with_reducible apply State.setMeeState_keeps (hw := Field.sub_trans (by decide) hw)
    | with_reducible apply State.modMee_keeps (hw := Field.sub_trans (by decide) hw)
    | with_reducible apply State.portDrain_keeps (hw := Field.sub_trans (by decide) hw)
    | with_reducible apply State.admWithdraw_keeps (hw := Field.sub_trans (by decide) hw)
    | with_reducible apply State.admRelease_keeps (hw := Field.sub_trans (by decide) hw)
    | with_reducible apply State.wcbSync_keeps (hw := Field.sub_trans (by decide) hw)
    | with_reducible refine keeps_ite ?_ ?_
    | with_reducible refine keeps_ite_fst ?_ ?_
    | with_reducible refine keeps_foldl _ _ ?_ ?_
    | with_reducible refine keeps_foldl_fst _ _ ?_ ?_
    | intro _
    | dsimp only
    | split

theorem State.meeKeychg_keeps {W : List Field} {s₀ s : State} (hk : s₀.Keeps W s) (hw : Field.sub [.regs, .gals, .halls, .ev, .adm, .dom,
    .pwrCmd, .boot, .bist] W = true) (h : Nat) (r : Nat) : s₀.Keeps W (State.meeKeychg s h r) := by
  unfold State.meeKeychg
  repeat' first
    | with_reducible assumption
    | with_reducible exact State.Keeps.refl _ _
    | with_reducible apply State.meeRefuse_keeps (hw := Field.sub_trans (by decide) hw)
    | with_reducible apply State.modRange_keeps (hw := Field.sub_trans (by decide) hw)
    | with_reducible apply State.meeAsk_keeps (hw := Field.sub_trans (by decide) hw)
    | with_reducible apply State.setFld_keeps (hw := Field.sub_trans (by decide) hw)
    | with_reducible apply State.setMeeState_keeps (hw := Field.sub_trans (by decide) hw)
    | with_reducible refine keeps_ite ?_ ?_
    | with_reducible refine keeps_ite_fst ?_ ?_
    | intro _
    | dsimp only
    | split

theorem State.meeGranted_keeps {W : List Field} {s₀ s : State} (hk : s₀.Keeps W s) (hw : Field.sub [.regs, .halls, .ev] W = true) (h :
    Nat) (r : Nat) : s₀.Keeps W (State.meeGranted s h r) := by
  unfold State.meeGranted
  repeat' first
    | with_reducible assumption
    | with_reducible exact State.Keeps.refl _ _
    | with_reducible apply State.setMeeState_keeps (hw := Field.sub_trans (by decide) hw)
    | with_reducible apply State.post_keeps (hw := Field.sub_trans (by decide) hw)
    | with_reducible apply State.modRange_keeps (hw := Field.sub_trans (by decide) hw)
    | with_reducible refine keeps_ite ?_ ?_
    | with_reducible refine keeps_ite_fst ?_ ?_
    | intro _
    | dsimp only
    | split

theorem State.sweepDone_keeps {W : List Field} {s₀ s : State} (hk : s₀.Keeps W s) (hw : Field.sub [.regs, .halls, .ev, .adm] W = true) (h
    : Nat) (r : Nat) : s₀.Keeps W (State.sweepDone s h r) := by
  unfold State.sweepDone
  repeat' first
    | with_reducible assumption
    | with_reducible exact State.Keeps.refl _ _
    | with_reducible apply State.modRange_keeps (hw := Field.sub_trans (by decide) hw)
    | with_reducible apply State.setFld_keeps (hw := Field.sub_trans (by decide) hw)
    | with_reducible apply State.clrReg_keeps (hw := Field.sub_trans (by decide) hw)
    | with_reducible apply State.post_keeps (hw := Field.sub_trans (by decide) hw)
    | with_reducible apply State.admRelease_keeps (hw := Field.sub_trans (by decide) hw)
    | with_reducible apply State.setMeeState_keeps (hw := Field.sub_trans (by decide) hw)
    | with_reducible refine keeps_ite ?_ ?_
    | with_reducible refine keeps_ite_fst ?_ ?_
    | with_reducible refine keeps_foldl _ _ ?_ ?_
    | with_reducible refine keeps_foldl_fst _ _ ?_ ?_
    | intro _
    | dsimp only
    | split

theorem State.sweepBlock_keeps {W : List Field} {s₀ s : State} (hk : s₀.Keeps W s) (hw : Field.sub [.regs, .halls, .ev] W = true) (h :
    Nat) (r : Nat) (i : Nat) (fail : Nat) : s₀.Keeps W (State.sweepBlock s h r i fail) := by
  unfold State.sweepBlock
  repeat' first
    | with_reducible assumption
    | with_reducible exact State.Keeps.refl _ _
    | with_reducible apply State.modRange_keeps (hw := Field.sub_trans (by decide) hw)
    | with_reducible apply State.incFld_keeps (hw := Field.sub_trans (by decide) hw)
    | with_reducible apply State.postLim_keeps (hw := Field.sub_trans (by decide) hw)
    | with_reducible refine keeps_ite ?_ ?_
    | with_reducible refine keeps_ite_fst ?_ ?_
    | intro _
    | dsimp only
    | split

theorem State.meeUnitDone_keeps {W : List Field} {s₀ s : State} (hk : s₀.Keeps W s) (hw : Field.sub [.regs, .mem, .halls, .ev, .adm,
    .net, .reqs, .seqNext, .free] W = true) (h : Nat) (r : Nat) (fails : List (Nat × Nat)) (metaBad : Option (Nat × Nat)) : s₀.Keeps W
    (State.meeUnitDone s h r fails metaBad) := by
  unfold State.meeUnitDone
  repeat' first
    | with_reducible assumption
    | with_reducible exact State.Keeps.refl _ _
    | with_reducible apply State.setFld_keeps (hw := Field.sub_trans (by decide) hw)
    | with_reducible apply State.post_keeps (hw := Field.sub_trans (by decide) hw)
    | with_reducible apply State.admRelease_keeps (hw := Field.sub_trans (by decide) hw)
    | with_reducible apply State.setMeeState_keeps (hw := Field.sub_trans (by decide) hw)
    | with_reducible apply State.wcbMerge_keeps (hw := Field.sub_trans (by decide) hw)
    | with_reducible apply State.addPoison_keeps (hw := Field.sub_trans (by decide) hw)
    | with_reducible apply State.portDrain_keeps (hw := Field.sub_trans (by decide) hw)
    | with_reducible apply State.sweepBlock_keeps (hw := Field.sub_trans (by decide) hw)
    | with_reducible apply State.sweepDone_keeps (hw := Field.sub_trans (by decide) hw)
    | with_reducible refine keeps_ite ?_ ?_
    | with_reducible refine keeps_ite_fst ?_ ?_
    | with_reducible refine keeps_foldl _ _ ?_ ?_
    | with_reducible refine keeps_foldl_fst _ _ ?_ ?_
    | intro _
    | dsimp only
    | split

theorem State.sweepRetry_keeps {W : List Field} {s₀ s : State} (hk : s₀.Keeps W s) (hw : Field.sub [.regs, .gals, .ev, .adm, .dom,
    .pwrCmd, .boot, .bist] W = true) (h : Nat) (r : Nat) : s₀.Keeps W (State.sweepRetry s h r) := by
  unfold State.sweepRetry
  repeat' first
    | with_reducible assumption
    | with_reducible exact State.Keeps.refl _ _
    | with_reducible apply State.meeAsk_keeps (hw := Field.sub_trans (by decide) hw)
    | with_reducible refine keeps_ite ?_ ?_
    | with_reducible refine keeps_ite_fst ?_ ?_
    | intro _
    | dsimp only
    | split

theorem State.meePause_keeps {W : List Field} {s₀ s : State} (hk : s₀.Keeps W s) (hw : Field.sub [.regs, .ev, .adm] W = true) (h : Nat)
    (cause : Nat) : s₀.Keeps W (State.meePause s h cause) := by
  unfold State.meePause
  repeat' first
    | with_reducible assumption
    | with_reducible exact State.Keeps.refl _ _
    | with_reducible apply State.post_keeps (hw := Field.sub_trans (by decide) hw)
    | with_reducible apply State.admRelease_keeps (hw := Field.sub_trans (by decide) hw)
    | with_reducible apply State.setMeeState_keeps (hw := Field.sub_trans (by decide) hw)
    | with_reducible apply State.admWithdraw_keeps (hw := Field.sub_trans (by decide) hw)
    | with_reducible refine keeps_ite ?_ ?_
    | with_reducible refine keeps_ite_fst ?_ ?_
    | with_reducible refine keeps_foldl _ _ ?_ ?_
    | with_reducible refine keeps_foldl_fst _ _ ?_ ?_
    | intro _
    | dsimp only
    | split

theorem State.meeResume_keeps {W : List Field} {s₀ s : State} (hk : s₀.Keeps W s) (hw : Field.sub [.regs, .gals, .ev, .adm, .dom,
    .pwrCmd, .boot, .bist] W = true) (h : Nat) : s₀.Keeps W (State.meeResume s h) := by
  unfold State.meeResume
  repeat' first
    | with_reducible assumption
    | with_reducible exact State.Keeps.refl _ _
    | with_reducible apply State.meeAsk_keeps (hw := Field.sub_trans (by decide) hw)
    | with_reducible refine keeps_ite ?_ ?_
    | with_reducible refine keeps_ite_fst ?_ ?_
    | with_reducible refine keeps_foldl _ _ ?_ ?_
    | with_reducible refine keeps_foldl_fst _ _ ?_ ?_
    | intro _
    | dsimp only
    | split

theorem State.meeKeyload_keeps {W : List Field} {s₀ s : State} (hk : s₀.Keeps W s) (hw : Field.sub [.regs, .halls, .ev, .free] W = true)
    (h : Nat) (v : Word) : s₀.Keeps W (State.meeKeyload s h v) := by
  unfold State.meeKeyload
  repeat' first
    | with_reducible assumption
    | with_reducible exact State.Keeps.refl _ _
    | with_reducible apply State.draw_keeps (hw := Field.sub_trans (by decide) hw)
    | with_reducible apply State.clrReg_keeps (hw := Field.sub_trans (by decide) hw)
    | with_reducible apply State.meeRefuse_keeps (hw := Field.sub_trans (by decide) hw)
    | with_reducible apply State.setFld_keeps (hw := Field.sub_trans (by decide) hw)
    | with_reducible apply State.modRange_keeps (hw := Field.sub_trans (by decide) hw)
    | with_reducible refine keeps_ite ?_ ?_
    | with_reducible refine keeps_ite_fst ?_ ?_
    | with_reducible refine keeps_foldl _ _ ?_ ?_
    | with_reducible refine keeps_foldl_fst _ _ ?_ ?_
    | intro _
    | dsimp only
    | split

theorem State.meeCtrlWrite_keeps {W : List Field} {s₀ s : State} (hk : s₀.Keeps W s) (hw : Field.sub [.regs, .mem, .gals, .halls, .ev,
    .adm, .dom, .pwrCmd, .boot, .bist, .net, .reqs, .seqNext, .free] W = true) (h : Nat) (r : Nat) (v : Word) : s₀.Keeps W
    (State.meeCtrlWrite s h r v) := by
  unfold State.meeCtrlWrite
  repeat' first
    | with_reducible assumption
    | with_reducible exact State.Keeps.refl _ _
    | with_reducible apply State.setFld_keeps (hw := Field.sub_trans (by decide) hw)
    | with_reducible apply State.meeEnable_keeps (hw := Field.sub_trans (by decide) hw)
    | with_reducible apply State.meeDisable_keeps (hw := Field.sub_trans (by decide) hw)
    | with_reducible apply State.meeKeychg_keeps (hw := Field.sub_trans (by decide) hw)
    | with_reducible refine keeps_ite ?_ ?_
    | with_reducible refine keeps_ite_fst ?_ ?_
    | intro _
    | dsimp only
    | split

theorem State.meeSpanWrite_keeps {W : List Field} {s₀ s : State} (hk : s₀.Keeps W s) (hw : Field.sub [.regs, .ev] W = true) (h : Nat) (r
    : Nat) (a : Nat) (o : Nat) (v : Word) : s₀.Keeps W (State.meeSpanWrite s h r a o v) := by
  unfold State.meeSpanWrite
  repeat' first
    | with_reducible assumption
    | with_reducible exact State.Keeps.refl _ _
    | with_reducible apply State.writeFields_keeps (hw := Field.sub_trans (by decide) hw)
    | with_reducible apply State.meeRefuse_keeps (hw := Field.sub_trans (by decide) hw)
    | with_reducible refine keeps_ite ?_ ?_
    | with_reducible refine keeps_ite_fst ?_ ?_
    | intro _
    | dsimp only
    | split

theorem State.stackSrEntry_keeps {W : List Field} {s₀ s : State} (hk : s₀.Keeps W s) (hw : Field.sub [.regs, .mem, .gals, .halls, .ev,
    .adm, .dom, .pwrCmd, .boot, .bist, .net, .reqs, .seqNext, .free] W = true) (h : Nat) : s₀.Keeps W (State.stackSrEntry s h) := by
  unfold State.stackSrEntry
  repeat' first
    | with_reducible assumption
    | with_reducible exact State.Keeps.refl _ _
    | with_reducible apply State.cacheFlush_keeps (hw := Field.sub_trans (by decide) hw)
    | with_reducible apply State.portFlush_keeps (hw := Field.sub_trans (by decide) hw)
    | with_reducible apply State.wcbDrain_keeps (hw := Field.sub_trans (by decide) hw)
    | with_reducible apply State.meePause_keeps (hw := Field.sub_trans (by decide) hw)
    | with_reducible apply State.stackEntered_keeps (hw := Field.sub_trans (by decide) hw)
    | with_reducible refine keeps_ite ?_ ?_
    | with_reducible refine keeps_ite_fst ?_ ?_
    | intro _
    | dsimp only
    | split

theorem State.srExitDone_keeps {W : List Field} {s₀ s : State} (hk : s₀.Keeps W s) (hw : Field.sub [.regs, .mem, .gals, .halls, .ev,
    .adm, .dom, .pwrCmd, .boot, .bist, .net, .reqs, .seqNext, .free] W = true) (h : Nat) : s₀.Keeps W (State.srExitDone s h) := by
  unfold State.srExitDone
  repeat' first
    | with_reducible assumption
    | with_reducible exact State.Keeps.refl _ _
    | with_reducible apply State.setHbmState_keeps (hw := Field.sub_trans (by decide) hw)
    | with_reducible apply State.modHbm_keeps (hw := Field.sub_trans (by decide) hw)
    | with_reducible apply State.setFld_keeps (hw := Field.sub_trans (by decide) hw)
    | with_reducible apply State.meeResume_keeps (hw := Field.sub_trans (by decide) hw)
    | with_reducible apply State.portDrain_keeps (hw := Field.sub_trans (by decide) hw)
    | with_reducible refine keeps_ite ?_ ?_
    | with_reducible refine keeps_ite_fst ?_ ?_
    | intro _
    | dsimp only
    | split

theorem State.hbmInitDone_keeps {W : List Field} {s₀ s : State} (hk : s₀.Keeps W s) (hw : Field.sub [.regs, .mem, .gals, .halls, .ev,
    .adm, .dom, .pwrCmd, .boot, .bist, .net, .reqs, .seqNext, .free] W = true) (h : Nat) (bad : Option Nat) : s₀.Keeps W
    (State.hbmInitDone s h bad) := by
  unfold State.hbmInitDone
  repeat' first
    | with_reducible assumption
    | with_reducible exact State.Keeps.refl _ _
    | with_reducible apply State.modHbm_keeps (hw := Field.sub_trans (by decide) hw)
    | with_reducible apply State.meeResume_keeps (hw := Field.sub_trans (by decide) hw)
    | with_reducible apply State.portDrain_keeps (hw := Field.sub_trans (by decide) hw)
    | with_reducible apply State.setHbmState_keeps (hw := Field.sub_trans (by decide) hw)
    | with_reducible apply State.post_keeps (hw := Field.sub_trans (by decide) hw)
    | with_reducible refine keeps_ite ?_ ?_
    | with_reducible refine keeps_ite_fst ?_ ?_
    | intro _
    | dsimp only
    | split

theorem execHbmBurst_keeps {s : State} (m : StackIx) (pc : Fin 32) (f0 : BurstFact) (f1 : BurstFact) (mf : MeeFacts) : ∃ nx, execHbmBurst
    m pc f0 f1 mf s = .next nx ∧ s.Keeps [.regs, .mem, .halls, .ev, .adm, .net, .reqs, .seqNext, .free] nx := by
  have hw : Field.sub [.regs, .mem, .halls, .ev, .adm, .net, .reqs, .seqNext, .free] [.regs, .mem, .halls, .ev, .adm, .net, .reqs,
    .seqNext, .free] = true := by decide
  refine ⟨_, rfl, ?_⟩
  have hk := State.Keeps.refl [.regs, .mem, .halls, .ev, .adm, .net, .reqs, .seqNext, .free] s
  repeat' first
    | with_reducible assumption
    | with_reducible exact State.Keeps.refl _ _
    | with_reducible apply State.hbmBurst_keeps (hw := Field.sub_trans (by decide) hw)
    | with_reducible refine keeps_ite ?_ ?_
    | with_reducible refine keeps_ite_fst ?_ ?_
    | intro _
    | dsimp only
    | split

theorem execHbmInitDone_keeps {s : State} (m : StackIx) (bad : Option (Fin 3)) : ∃ nx, execHbmInitDone m bad s = .next nx ∧ s.Keeps
    [.regs, .mem, .gals, .halls, .ev, .adm, .dom, .pwrCmd, .boot, .bist, .net, .reqs, .seqNext, .free] nx := by
  have hw : Field.sub [.regs, .mem, .gals, .halls, .ev, .adm, .dom, .pwrCmd, .boot, .bist, .net, .reqs, .seqNext, .free] [.regs, .mem,
    .gals, .halls, .ev, .adm, .dom, .pwrCmd, .boot, .bist, .net, .reqs, .seqNext, .free] = true := by decide
  refine ⟨_, rfl, ?_⟩
  have hk := State.Keeps.refl [.regs, .mem, .gals, .halls, .ev, .adm, .dom, .pwrCmd, .boot, .bist, .net, .reqs, .seqNext, .free] s
  repeat' first
    | with_reducible assumption
    | with_reducible exact State.Keeps.refl _ _
    | with_reducible apply State.hbmInitDone_keeps (hw := Field.sub_trans (by decide) hw)
    | with_reducible refine keeps_ite ?_ ?_
    | with_reducible refine keeps_ite_fst ?_ ?_
    | intro _
    | dsimp only
    | split

theorem execHbmStackSrEntry_keeps {s : State} (m : StackIx) : ∃ nx, execHbmStackSrEntry m s = .next nx ∧ s.Keeps [.regs, .mem, .gals,
    .halls, .ev, .adm, .dom, .pwrCmd, .boot, .bist, .net, .reqs, .seqNext, .free] nx := by
  have hw : Field.sub [.regs, .mem, .gals, .halls, .ev, .adm, .dom, .pwrCmd, .boot, .bist, .net, .reqs, .seqNext, .free] [.regs, .mem,
    .gals, .halls, .ev, .adm, .dom, .pwrCmd, .boot, .bist, .net, .reqs, .seqNext, .free] = true := by decide
  refine ⟨_, rfl, ?_⟩
  have hk := State.Keeps.refl [.regs, .mem, .gals, .halls, .ev, .adm, .dom, .pwrCmd, .boot, .bist, .net, .reqs, .seqNext, .free] s
  repeat' first
    | with_reducible assumption
    | with_reducible exact State.Keeps.refl _ _
    | with_reducible apply State.stackSrEntry_keeps (hw := Field.sub_trans (by decide) hw)
    | with_reducible refine keeps_ite ?_ ?_
    | with_reducible refine keeps_ite_fst ?_ ?_
    | intro _
    | dsimp only
    | split

theorem execHbmSrExitDone_keeps {s : State} (m : StackIx) : ∃ nx, execHbmSrExitDone m s = .next nx ∧ s.Keeps [.regs, .mem, .gals, .halls,
    .ev, .adm, .dom, .pwrCmd, .boot, .bist, .net, .reqs, .seqNext, .free] nx := by
  have hw : Field.sub [.regs, .mem, .gals, .halls, .ev, .adm, .dom, .pwrCmd, .boot, .bist, .net, .reqs, .seqNext, .free] [.regs, .mem,
    .gals, .halls, .ev, .adm, .dom, .pwrCmd, .boot, .bist, .net, .reqs, .seqNext, .free] = true := by decide
  refine ⟨_, rfl, ?_⟩
  have hk := State.Keeps.refl [.regs, .mem, .gals, .halls, .ev, .adm, .dom, .pwrCmd, .boot, .bist, .net, .reqs, .seqNext, .free] s
  repeat' first
    | with_reducible assumption
    | with_reducible exact State.Keeps.refl _ _
    | with_reducible apply State.srExitDone_keeps (hw := Field.sub_trans (by decide) hw)
    | with_reducible refine keeps_ite ?_ ?_
    | with_reducible refine keeps_ite_fst ?_ ?_
    | intro _
    | dsimp only
    | split

theorem execMeeRangeEnable_keeps {s : State} (m : StackIx) (r : Fin 8) : ∃ nx, execMeeRangeEnable m r s = .next nx ∧ s.Keeps [.regs,
    .gals, .halls, .ev, .adm, .dom, .pwrCmd, .boot, .bist] nx := by
  have hw : Field.sub [.regs, .gals, .halls, .ev, .adm, .dom, .pwrCmd, .boot, .bist] [.regs, .gals, .halls, .ev, .adm, .dom, .pwrCmd,
    .boot, .bist] = true := by decide
  refine ⟨_, rfl, ?_⟩
  have hk := State.Keeps.refl [.regs, .gals, .halls, .ev, .adm, .dom, .pwrCmd, .boot, .bist] s
  repeat' first
    | with_reducible assumption
    | with_reducible exact State.Keeps.refl _ _
    | with_reducible refine State.hostWrite_keeps ?_ (Field.sub_trans (by decide) hw) _ _ ?_
    | with_reducible apply State.meeEnable_keeps (hw := Field.sub_trans (by decide) hw)
    | with_reducible refine keeps_ite ?_ ?_
    | with_reducible refine keeps_ite_fst ?_ ?_
    | intro _
    | dsimp only
    | split

theorem execMeeRangeDisable_keeps {s : State} (m : StackIx) (r : Fin 8) : ∃ nx, execMeeRangeDisable m r s = .next nx ∧ s.Keeps [.regs,
    .mem, .halls, .ev, .adm, .net, .reqs, .seqNext, .free] nx := by
  have hw : Field.sub [.regs, .mem, .halls, .ev, .adm, .net, .reqs, .seqNext, .free] [.regs, .mem, .halls, .ev, .adm, .net, .reqs,
    .seqNext, .free] = true := by decide
  refine ⟨_, rfl, ?_⟩
  have hk := State.Keeps.refl [.regs, .mem, .halls, .ev, .adm, .net, .reqs, .seqNext, .free] s
  repeat' first
    | with_reducible assumption
    | with_reducible exact State.Keeps.refl _ _
    | with_reducible refine State.hostWrite_keeps ?_ (Field.sub_trans (by decide) hw) _ _ ?_
    | with_reducible apply State.meeDisable_keeps (hw := Field.sub_trans (by decide) hw)
    | with_reducible refine keeps_ite ?_ ?_
    | with_reducible refine keeps_ite_fst ?_ ?_
    | intro _
    | dsimp only
    | split

theorem execMeeKeychg_keeps {s : State} (m : StackIx) (r : Fin 8) : ∃ nx, execMeeKeychg m r s = .next nx ∧ s.Keeps [.regs, .gals, .halls,
    .ev, .adm, .dom, .pwrCmd, .boot, .bist] nx := by
  have hw : Field.sub [.regs, .gals, .halls, .ev, .adm, .dom, .pwrCmd, .boot, .bist] [.regs, .gals, .halls, .ev, .adm, .dom, .pwrCmd,
    .boot, .bist] = true := by decide
  refine ⟨_, rfl, ?_⟩
  have hk := State.Keeps.refl [.regs, .gals, .halls, .ev, .adm, .dom, .pwrCmd, .boot, .bist] s
  repeat' first
    | with_reducible assumption
    | with_reducible exact State.Keeps.refl _ _
    | with_reducible refine State.hostWrite_keeps ?_ (Field.sub_trans (by decide) hw) _ _ ?_
    | with_reducible apply State.meeKeychg_keeps (hw := Field.sub_trans (by decide) hw)
    | with_reducible refine keeps_ite ?_ ?_
    | with_reducible refine keeps_ite_fst ?_ ?_
    | intro _
    | dsimp only
    | split

theorem execMeeKeyLoad_keeps {s : State} (m : StackIx) (v : Word) : ∃ nx, execMeeKeyLoad m v s = .next nx ∧ s.Keeps [.regs, .halls, .ev,
    .free] nx := by
  have hw : Field.sub [.regs, .halls, .ev, .free] [.regs, .halls, .ev, .free] = true := by decide
  refine ⟨_, rfl, ?_⟩
  have hk := State.Keeps.refl [.regs, .halls, .ev, .free] s
  repeat' first
    | with_reducible assumption
    | with_reducible exact State.Keeps.refl _ _
    | with_reducible refine State.hostWrite_keeps ?_ (Field.sub_trans (by decide) hw) _ _ ?_
    | with_reducible apply State.meeKeyload_keeps (hw := Field.sub_trans (by decide) hw)
    | with_reducible refine keeps_ite ?_ ?_
    | with_reducible refine keeps_ite_fst ?_ ?_
    | intro _
    | dsimp only
    | split

theorem execMeeUnitDone_keeps {s : State} (m : StackIx) (r : Fin 8) (fails : List (Fin 512 × Bool)) (metaBad : Option (Fin 10 × Fin 512))
    : ∃ nx, execMeeUnitDone m r fails metaBad s = .next nx ∧ s.Keeps [.regs, .mem, .halls, .ev, .adm, .net, .reqs, .seqNext, .free] nx :=
    by
  have hw : Field.sub [.regs, .mem, .halls, .ev, .adm, .net, .reqs, .seqNext, .free] [.regs, .mem, .halls, .ev, .adm, .net, .reqs,
    .seqNext, .free] = true := by decide
  refine ⟨_, rfl, ?_⟩
  have hk := State.Keeps.refl [.regs, .mem, .halls, .ev, .adm, .net, .reqs, .seqNext, .free] s
  repeat' first
    | with_reducible assumption
    | with_reducible exact State.Keeps.refl _ _
    | with_reducible apply State.meeUnitDone_keeps (hw := Field.sub_trans (by decide) hw)
    | with_reducible refine keeps_ite ?_ ?_
    | with_reducible refine keeps_ite_fst ?_ ?_
    | intro _
    | dsimp only
    | split

theorem execWcbAgeMerge_keeps {s : State} (m : StackIx) (blk : Fin 603979776) (f : MeeFacts) : ∃ nx, execWcbAgeMerge m blk f s = .next nx
    ∧ s.Keeps [.regs, .mem, .halls, .ev, .adm, .net, .reqs, .seqNext, .free] nx := by
  have hw : Field.sub [.regs, .mem, .halls, .ev, .adm, .net, .reqs, .seqNext, .free] [.regs, .mem, .halls, .ev, .adm, .net, .reqs,
    .seqNext, .free] = true := by decide
  refine ⟨_, rfl, ?_⟩
  have hk := State.Keeps.refl [.regs, .mem, .halls, .ev, .adm, .net, .reqs, .seqNext, .free] s
  repeat' first
    | with_reducible assumption
    | with_reducible exact State.Keeps.refl _ _
    | with_reducible apply State.wcbAge_keeps (hw := Field.sub_trans (by decide) hw)
    | with_reducible refine keeps_ite ?_ ?_
    | with_reducible refine keeps_ite_fst ?_ ?_
    | intro _
    | dsimp only
    | split

theorem execSweepAdmissionRetry_keeps {s : State} (m : StackIx) (r : Fin 8) : ∃ nx, execSweepAdmissionRetry m r s = .next nx ∧ s.Keeps
    [.regs, .gals, .ev, .adm, .dom, .pwrCmd, .boot, .bist] nx := by
  have hw : Field.sub [.regs, .gals, .ev, .adm, .dom, .pwrCmd, .boot, .bist] [.regs, .gals, .ev, .adm, .dom, .pwrCmd, .boot, .bist] =
    true := by decide
  refine ⟨_, rfl, ?_⟩
  have hk := State.Keeps.refl [.regs, .gals, .ev, .adm, .dom, .pwrCmd, .boot, .bist] s
  repeat' first
    | with_reducible assumption
    | with_reducible exact State.Keeps.refl _ _
    | with_reducible apply State.sweepRetry_keeps (hw := Field.sub_trans (by decide) hw)
    | with_reducible refine keeps_ite ?_ ?_
    | with_reducible refine keeps_ite_fst ?_ ?_
    | intro _
    | dsimp only
    | split

end Sys2Proof.Machine
end

