-- ==== Sys2Proof/Laws/KeepsLanes.lean ====
section
/-!
SUPPORT. Laws/KeepsLanes.lean: the operations of Machine/Lanes.lean keep State.Keeps.
-/
namespace Sys2Proof.Machine
open Sys2Proof

theorem State.addLost_keeps {W : List Field} {s₀ s : State} (hk : s₀.Keeps W s) (hw : Field.sub [.clk] W = true) (h : Nat) (src : Nat) :
    s₀.Keeps W (State.addLost s h src) := by
  unfold State.addLost
  repeat' first
    | with_reducible assumption
    | with_reducible exact State.Keeps.refl _ _
    | with_reducible refine keeps_ite ?_ ?_
    | with_reducible refine keeps_ite_fst ?_ ?_
    | intro _
    | dsimp only
    | simp (disch := first | assumption | (with_unfolding_all (intro (x : Field) hx; cases x <;>
        first | exact absurd hx (by decide) | (dsimp only [Field.same]; done) | (dsimp only [Field.same]; exact ⟨rfl, rfl⟩)))) only [keeps_mk hw]
    | split

theorem State.rxClockLost_keeps {W : List Field} {s₀ s : State} (hk : s₀.Keeps W s) (hw : Field.sub [.regs, .gals, .halls, .ev, .clk,
    .net, .reqs, .seqNext, .free] W = true) (h : Nat) (l : Nat) (report : Bool) : s₀.Keeps W (State.rxClockLost s h l report) := by
  unfold State.rxClockLost
  repeat' first
    | with_reducible assumption
    | with_reducible exact State.Keeps.refl _ _
    | with_reducible apply State.addLost_keeps (hw := Field.sub_trans (by decide) hw)
    | with_reducible apply State.post_keeps (hw := Field.sub_trans (by decide) hw)
    | with_reducible apply State.hallClockCheck_keeps (hw := Field.sub_trans (by decide) hw)
    | with_reducible refine keeps_ite ?_ ?_
    | with_reducible refine keeps_ite_fst ?_ ?_
    | intro _
    | dsimp only
    | split

theorem State.modLane_keeps {W : List Field} {s₀ s : State} (hk : s₀.Keeps W s) (hw : Field.sub [.halls] W = true) (h : Nat) (l : Nat) (f
    : LaneHid → LaneHid) : s₀.Keeps W (State.modLane s h l f) := by
  unfold State.modLane
  repeat' first
    | with_reducible assumption
    | with_reducible exact State.Keeps.refl _ _
    | with_reducible apply State.modHall_keeps (hw := Field.sub_trans (by decide) hw)
    | with_reducible refine keeps_ite ?_ ?_
    | with_reducible refine keeps_ite_fst ?_ ?_
    | intro _
    | dsimp only
    | split

theorem State.lockLost_keeps {W : List Field} {s₀ s : State} (hk : s₀.Keeps W s) (hw : Field.sub [.regs, .ev] W = true) (h : Nat) (l :
    Nat) (cause : Nat) : s₀.Keeps W (State.lockLost s h l cause) := by
  unfold State.lockLost
  repeat' first
    | with_reducible assumption
    | with_reducible exact State.Keeps.refl _ _
    | with_reducible apply State.post_keeps (hw := Field.sub_trans (by decide) hw)
    | with_reducible apply State.incFld_keeps (hw := Field.sub_trans (by decide) hw)
    | with_reducible apply State.setFld_keeps (hw := Field.sub_trans (by decide) hw)
    | with_reducible refine keeps_ite ?_ ?_
    | with_reducible refine keeps_ite_fst ?_ ?_
    | intro _
    | dsimp only
    | split

theorem State.laneTo_keeps {W : List Field} {s₀ s : State} (hk : s₀.Keeps W s) (hw : Field.sub [.regs, .gals, .halls, .ev, .clk, .net,
    .reqs, .seqNext, .free] W = true) (h : Nat) (l : Nat) (st : Nat) (report : Bool) : s₀.Keeps W (State.laneTo s h l st report) := by
  unfold State.laneTo
  repeat' first
    | with_reducible assumption
    | with_reducible exact State.Keeps.refl _ _
    | with_reducible apply State.setFld_keeps (hw := Field.sub_trans (by decide) hw)
    | with_reducible apply State.hallClockCheck_keeps (hw := Field.sub_trans (by decide) hw)
    | with_reducible apply State.rxClockLost_keeps (hw := Field.sub_trans (by decide) hw)
    | with_reducible apply State.lockLost_keeps (hw := Field.sub_trans (by decide) hw)
    | with_reducible apply State.modLane_keeps (hw := Field.sub_trans (by decide) hw)
    | with_reducible refine keeps_ite ?_ ?_
    | with_reducible refine keeps_ite_fst ?_ ?_
    | intro _
    | dsimp only
    | split

theorem State.laneGo_keeps {W : List Field} {s₀ s : State} (hk : s₀.Keeps W s) (hw : Field.sub [.regs, .gals, .halls, .ev, .clk, .net,
    .reqs, .seqNext, .free] W = true) (h : Nat) (l : Nat) (st : Nat) (report : Bool) : s₀.Keeps W (State.laneGo s h l st report) := by
  unfold State.laneGo
  repeat' first
    | with_reducible assumption
    | with_reducible exact State.Keeps.refl _ _
    | with_reducible apply State.laneTo_keeps (hw := Field.sub_trans (by decide) hw)
    | with_reducible refine keeps_ite ?_ ?_
    | with_reducible refine keeps_ite_fst ?_ ?_
    | with_reducible refine keeps_foldl _ _ ?_ ?_
    | with_reducible refine keeps_foldl_fst _ _ ?_ ?_
    | intro _
    | dsimp only
    | split

theorem State.laneStart_keeps {W : List Field} {s₀ s : State} (hk : s₀.Keeps W s) (hw : Field.sub [.regs, .gals, .halls, .ev, .clk, .net,
    .reqs, .seqNext, .free] W = true) (h : Nat) (l : Nat) : s₀.Keeps W (State.laneStart s h l) := by
  unfold State.laneStart
  repeat' first
    | with_reducible assumption
    | with_reducible exact State.Keeps.refl _ _
    | with_reducible apply State.laneGo_keeps (hw := Field.sub_trans (by decide) hw)
    | with_reducible apply State.modLane_keeps (hw := Field.sub_trans (by decide) hw)
    | with_reducible refine keeps_ite ?_ ?_
    | with_reducible refine keeps_ite_fst ?_ ?_
    | with_reducible refine keeps_foldl _ _ ?_ ?_
    | with_reducible refine keeps_foldl_fst _ _ ?_ ?_
    | intro _
    | dsimp only
    | split

theorem State.laneEnable_keeps {W : List Field} {s₀ s : State} (hk : s₀.Keeps W s) (hw : Field.sub [.regs, .gals, .halls, .ev, .clk,
    .net, .reqs, .seqNext, .free] W = true) (h : Nat) (l : Nat) (v : Word) : s₀.Keeps W (State.laneEnable s h l v) := by
  unfold State.laneEnable
  repeat' first
    | with_reducible assumption
    | with_reducible exact State.Keeps.refl _ _
    | with_reducible apply State.post_keeps (hw := Field.sub_trans (by decide) hw)
    | with_reducible apply State.laneStart_keeps (hw := Field.sub_trans (by decide) hw)
    | with_reducible apply State.writeFields_keeps (hw := Field.sub_trans (by decide) hw)
    | with_reducible refine keeps_ite ?_ ?_
    | with_reducible refine keeps_ite_fst ?_ ?_
    | intro _
    | dsimp only
    | split

theorem State.laneDisable_keeps {W : List Field} {s₀ s : State} (hk : s₀.Keeps W s) (hw : Field.sub [.regs, .gals, .halls, .ev, .clk,
    .net, .reqs, .seqNext, .free] W = true) (h : Nat) (l : Nat) : s₀.Keeps W (State.laneDisable s h l) := by
  unfold State.laneDisable
  repeat' first
    | with_reducible assumption
    | with_reducible exact State.Keeps.refl _ _
    | with_reducible apply State.laneTo_keeps (hw := Field.sub_trans (by decide) hw)
    | with_reducible apply State.setFld_keeps (hw := Field.sub_trans (by decide) hw)
    | with_reducible refine keeps_ite ?_ ?_
    | with_reducible refine keeps_ite_fst ?_ ?_
    | with_reducible refine keeps_foldl _ _ ?_ ?_
    | with_reducible refine keeps_foldl_fst _ _ ?_ ?_
    | intro _
    | dsimp only
    | split

theorem State.laneCfgWrite_keeps {W : List Field} {s₀ s : State} (hk : s₀.Keeps W s) (hw : Field.sub [.regs, .gals, .halls, .ev, .clk,
    .net, .reqs, .seqNext, .free] W = true) (h : Nat) (l : Nat) (v : Word) : s₀.Keeps W (State.laneCfgWrite s h l v) := by
  unfold State.laneCfgWrite
  repeat' first
    | with_reducible assumption
    | with_reducible exact State.Keeps.refl _ _
    | with_reducible apply State.laneEnable_keeps (hw := Field.sub_trans (by decide) hw)
    | with_reducible apply State.laneDisable_keeps (hw := Field.sub_trans (by decide) hw)
    | with_reducible apply State.writeFields_keeps (hw := Field.sub_trans (by decide) hw)
    | with_reducible refine keeps_ite ?_ ?_
    | with_reducible refine keeps_ite_fst ?_ ?_
    | intro _
    | dsimp only
    | split

theorem State.laneRateWrite_keeps {W : List Field} {s₀ s : State} (hk : s₀.Keeps W s) (hw : Field.sub [.regs] W = true) (h : Nat) (l :
    Nat) (v : Word) : s₀.Keeps W (State.laneRateWrite s h l v) := by
  unfold State.laneRateWrite
  repeat' first
    | with_reducible assumption
    | with_reducible exact State.Keeps.refl _ _
    | with_reducible apply State.writeFields_keeps (hw := Field.sub_trans (by decide) hw)
    | with_reducible refine keeps_ite ?_ ?_
    | with_reducible refine keeps_ite_fst ?_ ?_
    | intro _
    | dsimp only
    | split

theorem State.laneTxeqWrite_keeps {W : List Field} {s₀ s : State} (hk : s₀.Keeps W s) (hw : Field.sub [.regs, .ev] W = true) (h : Nat) (l
    : Nat) (v : Word) : s₀.Keeps W (State.laneTxeqWrite s h l v) := by
  unfold State.laneTxeqWrite
  repeat' first
    | with_reducible assumption
    | with_reducible exact State.Keeps.refl _ _
    | with_reducible apply State.post_keeps (hw := Field.sub_trans (by decide) hw)
    | with_reducible apply State.writeFields_keeps (hw := Field.sub_trans (by decide) hw)
    | with_reducible refine keeps_ite ?_ ?_
    | with_reducible refine keeps_ite_fst ?_ ?_
    | intro _
    | dsimp only
    | split

theorem State.dormantEnter_keeps {W : List Field} {s₀ s : State} (hk : s₀.Keeps W s) (hw : Field.sub [.regs, .gals, .halls, .ev, .clk,
    .net, .reqs, .seqNext, .free] W = true) (h : Nat) (l : Nat) : s₀.Keeps W (State.dormantEnter s h l) := by
  unfold State.dormantEnter
  repeat' first
    | with_reducible assumption
    | with_reducible exact State.Keeps.refl _ _
    | with_reducible apply State.setFld_keeps (hw := Field.sub_trans (by decide) hw)
    | with_reducible apply State.modLane_keeps (hw := Field.sub_trans (by decide) hw)
    | with_reducible apply State.laneGo_keeps (hw := Field.sub_trans (by decide) hw)
    | with_reducible refine keeps_ite ?_ ?_
    | with_reducible refine keeps_ite_fst ?_ ?_
    | with_reducible refine keeps_foldl _ _ ?_ ?_
    | with_reducible refine keeps_foldl_fst _ _ ?_ ?_
    | intro _
    | dsimp only
    | split

theorem State.dormantLeave_keeps {W : List Field} {s₀ s : State} (hk : s₀.Keeps W s) (hw : Field.sub [.regs, .gals, .halls, .ev, .clk,
    .net, .reqs, .seqNext, .free] W = true) (h : Nat) (l : Nat) : s₀.Keeps W (State.dormantLeave s h l) := by
  unfold State.dormantLeave
  repeat' first
    | with_reducible assumption
    | with_reducible exact State.Keeps.refl _ _
    | with_reducible apply State.modLane_keeps (hw := Field.sub_trans (by decide) hw)
    | with_reducible apply State.laneGo_keeps (hw := Field.sub_trans (by decide) hw)
    | with_reducible refine keeps_ite ?_ ?_
    | with_reducible refine keeps_ite_fst ?_ ?_
    | with_reducible refine keeps_foldl _ _ ?_ ?_
    | with_reducible refine keeps_foldl_fst _ _ ?_ ?_
    | intro _
    | dsimp only
    | split

theorem State.laneFollow_keeps {W : List Field} {s₀ s : State} (hk : s₀.Keeps W s) (hw : Field.sub [.regs, .gals, .halls, .ev, .clk,
    .net, .reqs, .seqNext, .free] W = true) (h : Nat) (l : Nat) : s₀.Keeps W (State.laneFollow s h l) := by
  unfold State.laneFollow
  repeat' first
    | with_reducible assumption
    | with_reducible exact State.Keeps.refl _ _
    | with_reducible apply State.dormantEnter_keeps (hw := Field.sub_trans (by decide) hw)
    | with_reducible apply State.dormantLeave_keeps (hw := Field.sub_trans (by decide) hw)
    | with_reducible apply State.laneGo_keeps (hw := Field.sub_trans (by decide) hw)
    | with_reducible refine keeps_ite ?_ ?_
    | with_reducible refine keeps_ite_fst ?_ ?_
    | intro _
    | dsimp only
    | split

theorem State.laneCtrlWrite_keeps {W : List Field} {s₀ s : State} (hk : s₀.Keeps W s) (hw : Field.sub [.regs, .gals, .halls, .ev, .clk,
    .net, .reqs, .seqNext, .free] W = true) (h : Nat) (l : Nat) (v : Word) : s₀.Keeps W (State.laneCtrlWrite s h l v) := by
  unfold State.laneCtrlWrite
  repeat' first
    | with_reducible assumption
    | with_reducible exact State.Keeps.refl _ _
    | with_reducible apply State.laneFollow_keeps (hw := Field.sub_trans (by decide) hw)
    | with_reducible apply State.writeFields_keeps (hw := Field.sub_trans (by decide) hw)
    | with_reducible refine keeps_ite ?_ ?_
    | with_reducible refine keeps_ite_fst ?_ ?_
    | intro _
    | dsimp only
    | split

theorem State.laneQuietWrite_keeps {W : List Field} {s₀ s : State} (hk : s₀.Keeps W s) (hw : Field.sub [.regs, .gals, .halls, .ev, .clk,
    .net, .reqs, .seqNext, .free] W = true) (h : Nat) (l : Nat) (b : Bool) : s₀.Keeps W (State.laneQuietWrite s h l b) := by
  unfold State.laneQuietWrite
  repeat' first
    | with_reducible assumption
    | with_reducible exact State.Keeps.refl _ _
    | with_reducible apply State.laneFollow_keeps (hw := Field.sub_trans (by decide) hw)
    | with_reducible apply State.setFld_keeps (hw := Field.sub_trans (by decide) hw)
    | with_reducible refine keeps_ite ?_ ?_
    | with_reducible refine keeps_ite_fst ?_ ?_
    | intro _
    | dsimp only
    | split

theorem State.laneDormantWrite_keeps {W : List Field} {s₀ s : State} (hk : s₀.Keeps W s) (hw : Field.sub [.regs, .gals, .halls, .ev,
    .clk, .net, .reqs, .seqNext, .free] W = true) (h : Nat) (l : Nat) (b : Bool) : s₀.Keeps W (State.laneDormantWrite s h l b) := by
  unfold State.laneDormantWrite
  repeat' first
    | with_reducible assumption
    | with_reducible exact State.Keeps.refl _ _
    | with_reducible apply State.laneFollow_keeps (hw := Field.sub_trans (by decide) hw)
    | with_reducible apply State.setFld_keeps (hw := Field.sub_trans (by decide) hw)
    | with_reducible refine keeps_ite ?_ ?_
    | with_reducible refine keeps_ite_fst ?_ ?_
    | intro _
    | dsimp only
    | split

theorem State.qreqChange_keeps {W : List Field} {s₀ s : State} (hk : s₀.Keeps W s) (hw : Field.sub [.regs, .gals, .halls, .ev, .clk,
    .net, .reqs, .seqNext, .free] W = true) (h : Nat) (l : Nat) (b : Bool) : s₀.Keeps W (State.qreqChange s h l b) := by
  unfold State.qreqChange
  repeat' first
    | with_reducible assumption
    | with_reducible exact State.Keeps.refl _ _
    | with_reducible apply State.laneFollow_keeps (hw := Field.sub_trans (by decide) hw)
    | with_reducible apply State.modLane_keeps (hw := Field.sub_trans (by decide) hw)
    | with_reducible refine keeps_ite ?_ ?_
    | with_reducible refine keeps_ite_fst ?_ ?_
    | intro _
    | dsimp only
    | split

theorem State.lanePllLock_keeps {W : List Field} {s₀ s : State} (hk : s₀.Keeps W s) (hw : Field.sub [.regs, .gals, .halls, .ev, .clk,
    .net, .reqs, .seqNext, .free] W = true) (h : Nat) (l : Nat) : s₀.Keeps W (State.lanePllLock s h l) := by
  unfold State.lanePllLock
  repeat' first
    | with_reducible assumption
    | with_reducible exact State.Keeps.refl _ _
    | with_reducible apply State.laneFollow_keeps (hw := Field.sub_trans (by decide) hw)
    | with_reducible apply State.laneGo_keeps (hw := Field.sub_trans (by decide) hw)
    | with_reducible refine keeps_ite ?_ ?_
    | with_reducible refine keeps_ite_fst ?_ ?_
    | intro _
    | dsimp only
    | split

theorem State.laneClockLost_keeps {W : List Field} {s₀ s : State} (hk : s₀.Keeps W s) (hw : Field.sub [.regs, .gals, .halls, .ev, .clk,
    .net, .reqs, .seqNext, .free] W = true) (h : Nat) (l : Nat) : s₀.Keeps W (State.laneClockLost s h l) := by
  unfold State.laneClockLost
  repeat' first
    | with_reducible assumption
    | with_reducible exact State.Keeps.refl _ _
    | with_reducible apply State.modLane_keeps (hw := Field.sub_trans (by decide) hw)
    | with_reducible apply State.laneGo_keeps (hw := Field.sub_trans (by decide) hw)
    | with_reducible refine keeps_ite ?_ ?_
    | with_reducible refine keeps_ite_fst ?_ ?_
    | with_reducible refine keeps_foldl _ _ ?_ ?_
    | with_reducible refine keeps_foldl_fst _ _ ?_ ?_
    | intro _
    | dsimp only
    | split

theorem State.laneOff_keeps {W : List Field} {s₀ s : State} (hk : s₀.Keeps W s) (hw : Field.sub [.regs, .gals, .halls, .ev, .clk, .net,
    .reqs, .seqNext, .free] W = true) (h : Nat) (l : Nat) : s₀.Keeps W (State.laneOff s h l) := by
  unfold State.laneOff
  repeat' first
    | with_reducible assumption
    | with_reducible exact State.Keeps.refl _ _
    | with_reducible apply State.setFld_keeps (hw := Field.sub_trans (by decide) hw)
    | with_reducible apply State.laneTo_keeps (hw := Field.sub_trans (by decide) hw)
    | with_reducible refine keeps_ite ?_ ?_
    | with_reducible refine keeps_ite_fst ?_ ?_
    | intro _
    | dsimp only
    | split

theorem State.laneOn_keeps {W : List Field} {s₀ s : State} (hk : s₀.Keeps W s) (hw : Field.sub [.regs, .gals, .halls, .ev, .clk, .net,
    .reqs, .seqNext, .free] W = true) (h : Nat) (l : Nat) : s₀.Keeps W (State.laneOn s h l) := by
  unfold State.laneOn
  repeat' first
    | with_reducible assumption
    | with_reducible exact State.Keeps.refl _ _
    | with_reducible apply State.laneStart_keeps (hw := Field.sub_trans (by decide) hw)
    | with_reducible apply State.setFld_keeps (hw := Field.sub_trans (by decide) hw)
    | with_reducible refine keeps_ite ?_ ?_
    | with_reducible refine keeps_ite_fst ?_ ?_
    | intro _
    | dsimp only
    | split

theorem State.fomLock_keeps {W : List Field} {s₀ s : State} (hk : s₀.Keeps W s) (hw : Field.sub [.regs, .halls, .ev] W = true) (h : Nat)
    (l : Nat) (fom : Nat) (cdr : Bool) : s₀.Keeps W (State.fomLock s h l fom cdr) := by
  unfold State.fomLock
  repeat' first
    | with_reducible assumption
    | with_reducible exact State.Keeps.refl _ _
    | with_reducible apply State.modLane_keeps (hw := Field.sub_trans (by decide) hw)
    | with_reducible apply State.lockLost_keeps (hw := Field.sub_trans (by decide) hw)
    | with_reducible apply State.post_keeps (hw := Field.sub_trans (by decide) hw)
    | with_reducible apply State.setFld_keeps (hw := Field.sub_trans (by decide) hw)
    | with_reducible refine keeps_ite ?_ ?_
    | with_reducible refine keeps_ite_fst ?_ ?_
    | intro _
    | dsimp only
    | split

theorem State.fomAlarm_keeps {W : List Field} {s₀ s : State} (hk : s₀.Keeps W s) (hw : Field.sub [.regs, .halls, .ev] W = true) (h : Nat)
    (l : Nat) (fom : Nat) : s₀.Keeps W (State.fomAlarm s h l fom) := by
  unfold State.fomAlarm
  repeat' first
    | with_reducible assumption
    | with_reducible exact State.Keeps.refl _ _
    | with_reducible apply State.modLane_keeps (hw := Field.sub_trans (by decide) hw)
    | with_reducible apply State.post_keeps (hw := Field.sub_trans (by decide) hw)
    | with_reducible apply State.setFld_keeps (hw := Field.sub_trans (by decide) hw)
    | with_reducible apply State.incFld_keeps (hw := Field.sub_trans (by decide) hw)
    | with_reducible refine keeps_ite ?_ ?_
    | with_reducible refine keeps_ite_fst ?_ ?_
    | intro _
    | dsimp only
    | split

theorem State.fomMeasure_keeps {W : List Field} {s₀ s : State} (hk : s₀.Keeps W s) (hw : Field.sub [.regs, .halls, .ev] W = true) (h :
    Nat) (l : Nat) (fom : Nat) (cdr : Bool) (under : Nat) : s₀.Keeps W (State.fomMeasure s h l fom cdr under) := by
  unfold State.fomMeasure
  repeat' first
    | with_reducible assumption
    | with_reducible exact State.Keeps.refl _ _
    | with_reducible apply State.setFld_keeps (hw := Field.sub_trans (by decide) hw)
    | with_reducible apply State.incFld_keeps (hw := Field.sub_trans (by decide) hw)
    | with_reducible apply State.fomAlarm_keeps (hw := Field.sub_trans (by decide) hw)
    | with_reducible apply State.fomLock_keeps (hw := Field.sub_trans (by decide) hw)
    | with_reducible refine keeps_ite ?_ ?_
    | with_reducible refine keeps_ite_fst ?_ ?_
    | intro _
    | dsimp only
    | split

theorem State.landParity_keeps {W : List Field} {s₀ s : State} (hk : s₀.Keeps W s) (hw : Field.sub [.regs, .ev] W = true) (h : Nat) (n :
    Nat) : s₀.Keeps W (State.landParity s h n) := by
  unfold State.landParity
  repeat' first
    | with_reducible assumption
    | with_reducible exact State.Keeps.refl _ _
    | with_reducible apply State.incFld_keeps (hw := Field.sub_trans (by decide) hw)
    | with_reducible apply State.postLim_keeps (hw := Field.sub_trans (by decide) hw)
    | with_reducible refine keeps_ite ?_ ?_
    | with_reducible refine keeps_ite_fst ?_ ?_
    | intro _
    | dsimp only
    | split

theorem State.padCfgWrite_keeps {W : List Field} {s₀ s : State} (hk : s₀.Keeps W s) (hw : Field.sub [.regs, .ev] W = true) (h : Nat) (b :
    Nat) (n : Nat) (v : Word) : s₀.Keeps W (State.padCfgWrite s h b n v) := by
  unfold State.padCfgWrite
  repeat' first
    | with_reducible assumption
    | with_reducible exact State.Keeps.refl _ _
    | with_reducible apply State.post_keeps (hw := Field.sub_trans (by decide) hw)
    | with_reducible apply State.writeFields_keeps (hw := Field.sub_trans (by decide) hw)
    | with_reducible refine keeps_ite ?_ ?_
    | with_reducible refine keeps_ite_fst ?_ ?_
    | intro _
    | dsimp only
    | split

theorem State.padSafe_keeps {W : List Field} {s₀ s : State} (hk : s₀.Keeps W s) (hw : Field.sub [.halls] W = true) (h : Nat) (b : Nat) (k
    : Nat) : s₀.Keeps W (State.padSafe s h b k) := by
  unfold State.padSafe
  repeat' first
    | with_reducible assumption
    | with_reducible exact State.Keeps.refl _ _
    | with_reducible apply State.modHall_keeps (hw := Field.sub_trans (by decide) hw)
    | with_reducible refine keeps_ite ?_ ?_
    | with_reducible refine keeps_ite_fst ?_ ?_
    | intro _
    | dsimp only
    | split

theorem State.padSafeExit_keeps {W : List Field} {s₀ s : State} (hk : s₀.Keeps W s) (hw : Field.sub [.halls] W = true) (h : Nat) (b :
    Nat) (k : Nat) : s₀.Keeps W (State.padSafeExit s h b k) := by
  unfold State.padSafeExit
  repeat' first
    | with_reducible assumption
    | with_reducible exact State.Keeps.refl _ _
    | with_reducible apply State.modHall_keeps (hw := Field.sub_trans (by decide) hw)
    | with_reducible refine keeps_ite ?_ ?_
    | with_reducible refine keeps_ite_fst ?_ ?_
    | intro _
    | dsimp only
    | split

theorem State.padMeasure_keeps {W : List Field} {s₀ s : State} (hk : s₀.Keeps W s) (hw : Field.sub [.regs, .ev] W = true) (h : Nat) (b :
    Nat) (sense : Nat) : s₀.Keeps W (State.padMeasure s h b sense) := by
  unfold State.padMeasure
  repeat' first
    | with_reducible assumption
    | with_reducible exact State.Keeps.refl _ _
    | with_reducible apply State.setFld_keeps (hw := Field.sub_trans (by decide) hw)
    | with_reducible apply State.post_keeps (hw := Field.sub_trans (by decide) hw)
    | with_reducible refine keeps_ite ?_ ?_
    | with_reducible refine keeps_ite_fst ?_ ?_
    | intro _
    | dsimp only
    | split

end Sys2Proof.Machine
end

