-- ==== Sys2Proof/Laws/KeepsEth.lean ====
section
/-!
SUPPORT. Laws/KeepsEth.lean: the operations of Machine/Eth.lean keep State.Keeps.
-/
namespace Sys2Proof.Machine
open Sys2Proof

theorem State.modEth_keeps {W : List Field} {s₀ s : State} (hk : s₀.Keeps W s) (hw : Field.sub [.halls] W = true) (h : Nat) (e : Nat) (f
    : Eth → Eth) : s₀.Keeps W (State.modEth s h e f) := by
  unfold State.modEth
  repeat' first
    | with_reducible assumption
    | with_reducible exact State.Keeps.refl _ _
    | with_reducible apply State.modHall_keeps (hw := Field.sub_trans (by decide) hw)
    | with_reducible refine keeps_ite ?_ ?_
    | with_reducible refine keeps_ite_fst ?_ ?_
    | intro _
    | dsimp only
    | split

theorem State.ethSendOne_keeps {W : List Field} {s₀ s : State} (hk : s₀.Keeps W s) (hw : Field.sub [.halls, .net, .reqs, .seqNext] W =
    true) (h : Nat) (e : Nat) : s₀.Keeps W (State.ethSendOne s h e).1 := by
  unfold State.ethSendOne
  repeat' first
    | with_reducible assumption
    | with_reducible exact State.Keeps.refl _ _
    | with_reducible apply State.modEth_keeps (hw := Field.sub_trans (by decide) hw)
    | with_reducible apply State.send_keeps (hw := Field.sub_trans (by decide) hw)
    | with_reducible refine keeps_ite ?_ ?_
    | with_reducible refine keeps_ite_fst ?_ ?_
    | intro _
    | dsimp only
    | split

theorem State.ethQueue_keeps {W : List Field} {s₀ s : State} (hk : s₀.Keeps W s) (hw : Field.sub [.halls] W = true) (h : Nat) (e : Nat)
    (fr : Option Nat) (l : List (EthOp × Packet)) : s₀.Keeps W (State.ethQueue s h e fr l) := by
  unfold State.ethQueue
  repeat' first
    | with_reducible assumption
    | with_reducible exact State.Keeps.refl _ _
    | with_reducible apply State.modEth_keeps (hw := Field.sub_trans (by decide) hw)
    | with_reducible refine keeps_ite ?_ ?_
    | with_reducible refine keeps_ite_fst ?_ ?_
    | intro _
    | dsimp only
    | split

theorem State.ethItems_keeps {W : List Field} {s₀ s : State} (hk : s₀.Keeps W s) (hw : Field.sub [.halls] W = true) (h : Nat) (e : Nat)
    (entry : Nat) (x4 : Nat) : s₀.Keeps W (State.ethItems s h e entry x4) := by
  induction x4 generalizing s with
  | zero =>
    unfold State.ethItems
    repeat' first
      | with_reducible assumption
      | with_reducible exact State.Keeps.refl _ _
      | with_reducible apply State.ethQueue_keeps (hw := Field.sub_trans (by decide) hw)
      | with_reducible apply State.modEth_keeps (hw := Field.sub_trans (by decide) hw)
      | with_reducible refine keeps_ite ?_ ?_
      | with_reducible refine keeps_ite_fst ?_ ?_
      | intro _
      | dsimp only
      | split
  | succ n ih =>
    unfold State.ethItems
    repeat' first
      | with_reducible assumption
      | with_reducible exact State.Keeps.refl _ _
      | with_reducible apply ih
      | with_reducible apply State.ethQueue_keeps (hw := Field.sub_trans (by decide) hw)
      | with_reducible apply State.modEth_keeps (hw := Field.sub_trans (by decide) hw)
      | with_reducible refine keeps_ite ?_ ?_
      | with_reducible refine keeps_ite_fst ?_ ?_
      | intro _
      | dsimp only
      | split

theorem State.ethPresent_keeps {W : List Field} {s₀ s : State} (hk : s₀.Keeps W s) (hw : Field.sub [.halls] W = true) (h : Nat) (e : Nat)
    : s₀.Keeps W (State.ethPresent s h e) := by
  unfold State.ethPresent
  repeat' first
    | with_reducible assumption
    | with_reducible exact State.Keeps.refl _ _
    | with_reducible apply State.modEth_keeps (hw := Field.sub_trans (by decide) hw)
    | with_reducible refine keeps_ite ?_ ?_
    | with_reducible refine keeps_ite_fst ?_ ?_
    | intro _
    | dsimp only
    | split

theorem State.ethStream_keeps {W : List Field} {s₀ s : State} (hk : s₀.Keeps W s) (hw : Field.sub [.halls] W = true) (h : Nat) (e : Nat)
    (f : EthStream) : s₀.Keeps W (State.ethStream s h e f) := by
  unfold State.ethStream
  repeat' first
    | with_reducible assumption
    | with_reducible exact State.Keeps.refl _ _
    | with_reducible apply State.ethPresent_keeps (hw := Field.sub_trans (by decide) hw)
    | with_reducible apply State.modEth_keeps (hw := Field.sub_trans (by decide) hw)
    | with_reducible refine keeps_ite ?_ ?_
    | with_reducible refine keeps_ite_fst ?_ ?_
    | intro _
    | dsimp only
    | split

theorem State.ethStore_keeps {W : List Field} {s₀ s : State} (hk : s₀.Keeps W s) (hw : Field.sub [.regs, .halls, .ev] W = true) (h : Nat)
    (e : Nat) (n : Nat) (b : List Byte) (ts : Nat) : s₀.Keeps W (State.ethStore s h e n b ts) := by
  unfold State.ethStore
  repeat' first
    | with_reducible assumption
    | with_reducible exact State.Keeps.refl _ _
    | with_reducible apply State.setFld_keeps (hw := Field.sub_trans (by decide) hw)
    | with_reducible apply State.postLim_keeps (hw := Field.sub_trans (by decide) hw)
    | with_reducible apply State.incFld_keeps (hw := Field.sub_trans (by decide) hw)
    | with_reducible apply State.modEth_keeps (hw := Field.sub_trans (by decide) hw)
    | with_reducible apply State.ethItems_keeps (hw := Field.sub_trans (by decide) hw)
    | with_reducible apply State.ethQueue_keeps (hw := Field.sub_trans (by decide) hw)
    | with_reducible refine keeps_ite ?_ ?_
    | with_reducible refine keeps_ite_fst ?_ ?_
    | intro _
    | dsimp only
    | split

theorem State.ethGather_keeps {W : List Field} {s₀ s : State} (hk : s₀.Keeps W s) (hw : Field.sub [.halls] W = true) (h : Nat) (e : Nat)
    (n : Nat) (b : List Byte) : s₀.Keeps W (State.ethGather s h e n b) := by
  unfold State.ethGather
  repeat' first
    | with_reducible assumption
    | with_reducible exact State.Keeps.refl _ _
    | with_reducible apply State.modEth_keeps (hw := Field.sub_trans (by decide) hw)
    | with_reducible apply State.ethQueue_keeps (hw := Field.sub_trans (by decide) hw)
    | with_reducible refine keeps_ite ?_ ?_
    | with_reducible refine keeps_ite_fst ?_ ?_
    | intro _
    | dsimp only
    | split

theorem State.ethClassify_keeps {W : List Field} {s₀ s : State} (hk : s₀.Keeps W s) (hw : Field.sub [.regs, .halls, .ev] W = true) (h :
    Nat) (e : Nat) (p : Nat) (b : List Byte) : s₀.Keeps W (State.ethClassify s h e p b) := by
  unfold State.ethClassify
  repeat' first
    | with_reducible assumption
    | with_reducible exact State.Keeps.refl _ _
    | with_reducible apply State.ethStream_keeps (hw := Field.sub_trans (by decide) hw)
    | with_reducible apply State.incFld_keeps (hw := Field.sub_trans (by decide) hw)
    | with_reducible apply State.ethStore_keeps (hw := Field.sub_trans (by decide) hw)
    | with_reducible apply State.ethGather_keeps (hw := Field.sub_trans (by decide) hw)
    | with_reducible refine keeps_ite ?_ ?_
    | with_reducible refine keeps_ite_fst ?_ ?_
    | intro _
    | dsimp only
    | split

theorem State.rxDrop_keeps {W : List Field} {s₀ s : State} (hk : s₀.Keeps W s) (hw : Field.sub [.regs] W = true) (h : Nat) (e : Nat) (p :
    Nat) : s₀.Keeps W (State.rxDrop s h e p) := by
  unfold State.rxDrop
  repeat' first
    | with_reducible assumption
    | with_reducible exact State.Keeps.refl _ _
    | with_reducible apply State.incFld_keeps (hw := Field.sub_trans (by decide) hw)
    | with_reducible refine keeps_ite ?_ ?_
    | with_reducible refine keeps_ite_fst ?_ ?_
    | intro _
    | dsimp only
    | split

theorem State.fecCount_keeps {W : List Field} {s₀ s : State} (hk : s₀.Keeps W s) (hw : Field.sub [.regs, .ev] W = true) (h : Nat) (e :
    Nat) (p : Nat) (cor : Nat) (unc : Nat) : s₀.Keeps W (State.fecCount s h e p cor unc) := by
  unfold State.fecCount
  repeat' first
    | with_reducible assumption
    | with_reducible exact State.Keeps.refl _ _
    | with_reducible apply State.incFld_keeps (hw := Field.sub_trans (by decide) hw)
    | with_reducible apply State.postLim_keeps (hw := Field.sub_trans (by decide) hw)
    | with_reducible refine keeps_ite ?_ ?_
    | with_reducible refine keeps_ite_fst ?_ ?_
    | intro _
    | dsimp only
    | split

theorem State.ethFetchQ_keeps {W : List Field} {s₀ s : State} (hk : s₀.Keeps W s) (hw : Field.sub [.halls] W = true) (h : Nat) (e : Nat)
    (q : Nat) : s₀.Keeps W (State.ethFetchQ s h e q).1 := by
  unfold State.ethFetchQ
  repeat' first
    | with_reducible assumption
    | with_reducible exact State.Keeps.refl _ _
    | with_reducible apply State.modEth_keeps (hw := Field.sub_trans (by decide) hw)
    | with_reducible apply State.ethQueue_keeps (hw := Field.sub_trans (by decide) hw)
    | with_reducible refine keeps_ite ?_ ?_
    | with_reducible refine keeps_ite_fst ?_ ?_
    | intro _
    | dsimp only
    | split

theorem State.ethFetch_keeps {W : List Field} {s₀ s : State} (hk : s₀.Keeps W s) (hw : Field.sub [.halls] W = true) (h : Nat) (e : Nat) :
    s₀.Keeps W (State.ethFetch s h e) := by
  unfold State.ethFetch
  repeat' first
    | with_reducible assumption
    | with_reducible exact State.Keeps.refl _ _
    | with_reducible apply State.ethFetchQ_keeps (hw := Field.sub_trans (by decide) hw)
    | with_reducible refine keeps_ite ?_ ?_
    | with_reducible refine keeps_ite_fst ?_ ?_
    | with_reducible refine keeps_foldl _ _ ?_ ?_
    | with_reducible refine keeps_foldl_fst _ _ ?_ ?_
    | intro _
    | dsimp only
    | split

theorem State.txqDrop_keeps {W : List Field} {s₀ s : State} (hk : s₀.Keeps W s) (hw : Field.sub [.regs, .halls] W = true) (h : Nat) (e :
    Nat) (q : Nat) : s₀.Keeps W (State.txqDrop s h e q) := by
  unfold State.txqDrop
  repeat' first
    | with_reducible assumption
    | with_reducible exact State.Keeps.refl _ _
    | with_reducible apply State.incFld_keeps (hw := Field.sub_trans (by decide) hw)
    | with_reducible apply State.modEth_keeps (hw := Field.sub_trans (by decide) hw)
    | with_reducible refine keeps_ite ?_ ?_
    | with_reducible refine keeps_ite_fst ?_ ?_
    | intro _
    | dsimp only
    | split

theorem State.ethResult_keeps {W : List Field} {s₀ s : State} (hk : s₀.Keeps W s) (hw : Field.sub [.regs, .halls, .ev] W = true) (h :
    Nat) (e : Nat) (r : Done) : s₀.Keeps W (State.ethResult s h e r) := by
  unfold State.ethResult
  repeat' first
    | with_reducible assumption
    | with_reducible exact State.Keeps.refl _ _
    | with_reducible apply State.modEth_keeps (hw := Field.sub_trans (by decide) hw)
    | with_reducible apply State.incFld_keeps (hw := Field.sub_trans (by decide) hw)
    | with_reducible apply State.postLim_keeps (hw := Field.sub_trans (by decide) hw)
    | with_reducible apply State.ethItems_keeps (hw := Field.sub_trans (by decide) hw)
    | with_reducible apply State.ethFetch_keeps (hw := Field.sub_trans (by decide) hw)
    | with_reducible apply State.txqDrop_keeps (hw := Field.sub_trans (by decide) hw)
    | with_reducible refine keeps_ite ?_ ?_
    | with_reducible refine keeps_ite_fst ?_ ?_
    | intro _
    | dsimp only
    | split

theorem State.ethPump_keeps {W : List Field} {s₀ s : State} (hk : s₀.Keeps W s) (hw : Field.sub [.regs, .halls, .ev, .net, .reqs,
    .seqNext] W = true) (h : Nat) (e : Nat) (x3 : Nat) : s₀.Keeps W (State.ethPump s h e x3) := by
  induction x3 generalizing s with
  | zero =>
    unfold State.ethPump
    repeat' first
      | with_reducible assumption
      | with_reducible exact State.Keeps.refl _ _
      | with_reducible apply State.ethResult_keeps (hw := Field.sub_trans (by decide) hw)
      | with_reducible apply State.ethSendOne_keeps (hw := Field.sub_trans (by decide) hw)
      | with_reducible refine keeps_ite ?_ ?_
      | with_reducible refine keeps_ite_fst ?_ ?_
      | intro _
      | dsimp only
      | split
  | succ n ih =>
    unfold State.ethPump
    repeat' first
      | with_reducible assumption
      | with_reducible exact State.Keeps.refl _ _
      | with_reducible apply ih
      | with_reducible apply State.ethResult_keeps (hw := Field.sub_trans (by decide) hw)
      | with_reducible apply State.ethSendOne_keeps (hw := Field.sub_trans (by decide) hw)
      | with_reducible refine keeps_ite ?_ ?_
      | with_reducible refine keeps_ite_fst ?_ ?_
      | intro _
      | dsimp only
      | split

theorem State.ethRsp_keeps {W : List Field} {s₀ s : State} (hk : s₀.Keeps W s) (hw : Field.sub [.regs, .halls, .ev, .net, .reqs,
    .seqNext] W = true) (h : Nat) (e : Nat) (tag : Nat) (st : Nat) (data : List (BitVec 512)) : s₀.Keeps W (State.ethRsp s h e tag st
    data) := by
  unfold State.ethRsp
  repeat' first
    | with_reducible assumption
    | with_reducible exact State.Keeps.refl _ _
    | with_reducible apply State.modEth_keeps (hw := Field.sub_trans (by decide) hw)
    | with_reducible apply State.ethPump_keeps (hw := Field.sub_trans (by decide) hw)
    | with_reducible apply State.ethResult_keeps (hw := Field.sub_trans (by decide) hw)
    | with_reducible refine keeps_ite ?_ ?_
    | with_reducible refine keeps_ite_fst ?_ ?_
    | intro _
    | dsimp only
    | split

theorem State.ethReceive_keeps {W : List Field} {s₀ s : State} (hk : s₀.Keeps W s) (hw : Field.sub [.regs, .halls, .ev, .net, .reqs,
    .seqNext] W = true) (h : Nat) (e : Nat) (p : Nat) (b : List Byte) (fcs : Bool) (cor : Nat) (unc : Nat) : s₀.Keeps W (State.ethReceive
    s h e p b fcs cor unc) := by
  unfold State.ethReceive
  repeat' first
    | with_reducible assumption
    | with_reducible exact State.Keeps.refl _ _
    | with_reducible apply State.fecCount_keeps (hw := Field.sub_trans (by decide) hw)
    | with_reducible apply State.rxDrop_keeps (hw := Field.sub_trans (by decide) hw)
    | with_reducible apply State.incFld_keeps (hw := Field.sub_trans (by decide) hw)
    | with_reducible apply State.postLim_keeps (hw := Field.sub_trans (by decide) hw)
    | with_reducible apply State.ethPump_keeps (hw := Field.sub_trans (by decide) hw)
    | with_reducible apply State.ethClassify_keeps (hw := Field.sub_trans (by decide) hw)
    | with_reducible refine keeps_ite ?_ ?_
    | with_reducible refine keeps_ite_fst ?_ ?_
    | intro _
    | dsimp only
    | split

theorem State.rxRdy_keeps {W : List Field} {s₀ s : State} (hk : s₀.Keeps W s) (hw : Field.sub [.halls] W = true) (h : Nat) (e : Nat) (p :
    Nat) : s₀.Keeps W (State.rxRdy s h e p) := by
  unfold State.rxRdy
  repeat' first
    | with_reducible assumption
    | with_reducible exact State.Keeps.refl _ _
    | with_reducible apply State.ethPresent_keeps (hw := Field.sub_trans (by decide) hw)
    | with_reducible apply State.modEth_keeps (hw := Field.sub_trans (by decide) hw)
    | with_reducible refine keeps_ite ?_ ?_
    | with_reducible refine keeps_ite_fst ?_ ?_
    | intro _
    | dsimp only
    | split

theorem State.rxRdySet_keeps {W : List Field} {s₀ s : State} (hk : s₀.Keeps W s) (hw : Field.sub [.halls] W = true) (h : Nat) (e : Nat)
    (rdy : Nat) : s₀.Keeps W (State.rxRdySet s h e rdy) := by
  unfold State.rxRdySet
  repeat' first
    | with_reducible assumption
    | with_reducible exact State.Keeps.refl _ _
    | with_reducible apply State.ethPresent_keeps (hw := Field.sub_trans (by decide) hw)
    | with_reducible apply State.modEth_keeps (hw := Field.sub_trans (by decide) hw)
    | with_reducible refine keeps_ite ?_ ?_
    | with_reducible refine keeps_ite_fst ?_ ?_
    | intro _
    | dsimp only
    | split

theorem State.txDrop_keeps {W : List Field} {s₀ s : State} (hk : s₀.Keeps W s) (hw : Field.sub [.regs] W = true) (h : Nat) (e : Nat) (p :
    Nat) : s₀.Keeps W (State.txDrop s h e p) := by
  unfold State.txDrop
  repeat' first
    | with_reducible assumption
    | with_reducible exact State.Keeps.refl _ _
    | with_reducible apply State.incFld_keeps (hw := Field.sub_trans (by decide) hw)
    | with_reducible refine keeps_ite ?_ ?_
    | with_reducible refine keeps_ite_fst ?_ ?_
    | intro _
    | dsimp only
    | split

theorem State.ethStreamFrame_keeps {W : List Field} {s₀ s : State} (hk : s₀.Keeps W s) (hw : Field.sub [.regs, .halls] W = true) (h :
    Nat) (e : Nat) (j : Nat) (p : Nat) (b : List Byte) (err : Bool) (tsid : Option Nat) : s₀.Keeps W (State.ethStreamFrame s h e j p b
    err tsid) := by
  unfold State.ethStreamFrame
  repeat' first
    | with_reducible assumption
    | with_reducible exact State.Keeps.refl _ _
    | with_reducible apply State.txDrop_keeps (hw := Field.sub_trans (by decide) hw)
    | with_reducible apply State.modEth_keeps (hw := Field.sub_trans (by decide) hw)
    | with_reducible refine keeps_ite ?_ ?_
    | with_reducible refine keeps_ite_fst ?_ ?_
    | intro _
    | dsimp only
    | split

theorem State.ethEopTimeout_keeps {W : List Field} {s₀ s : State} (hk : s₀.Keeps W s) (hw : Field.sub [.regs] W = true) (h : Nat) (e :
    Nat) (p : Nat) : s₀.Keeps W (State.ethEopTimeout s h e p) := by
  unfold State.ethEopTimeout
  repeat' first
    | with_reducible assumption
    | with_reducible exact State.Keeps.refl _ _
    | with_reducible apply State.txDrop_keeps (hw := Field.sub_trans (by decide) hw)
    | with_reducible refine keeps_ite ?_ ?_
    | with_reducible refine keeps_ite_fst ?_ ?_
    | intro _
    | dsimp only
    | split

theorem State.ethXmit_keeps {W : List Field} {s₀ s : State} (hk : s₀.Keeps W s) (hw : Field.sub [.regs, .halls, .ev, .net, .reqs,
    .seqNext] W = true) (h : Nat) (e : Nat) (p : Packet) : s₀.Keeps W (State.ethXmit s h e p) := by
  unfold State.ethXmit
  repeat' first
    | with_reducible assumption
    | with_reducible exact State.Keeps.refl _ _
    | with_reducible apply State.respond_keeps (hw := Field.sub_trans (by decide) hw)
    | with_reducible apply State.modEth_keeps (hw := Field.sub_trans (by decide) hw)
    | with_reducible apply State.ethPump_keeps (hw := Field.sub_trans (by decide) hw)
    | with_reducible apply State.ethFetch_keeps (hw := Field.sub_trans (by decide) hw)
    | with_reducible refine keeps_ite ?_ ?_
    | with_reducible refine keeps_ite_fst ?_ ?_
    | intro _
    | dsimp only
    | split

theorem State.txStampAdd_keeps {W : List Field} {s₀ s : State} (hk : s₀.Keeps W s) (hw : Field.sub [.regs, .halls, .ev] W = true) (h :
    Nat) (e : Nat) (p : Nat) (src : Nat) (id : Nat) : s₀.Keeps W (State.txStampAdd s h e p src id) := by
  unfold State.txStampAdd
  repeat' first
    | with_reducible assumption
    | with_reducible exact State.Keeps.refl _ _
    | with_reducible apply State.incFld_keeps (hw := Field.sub_trans (by decide) hw)
    | with_reducible apply State.postLim_keeps (hw := Field.sub_trans (by decide) hw)
    | with_reducible apply State.modEth_keeps (hw := Field.sub_trans (by decide) hw)
    | with_reducible refine keeps_ite ?_ ?_
    | with_reducible refine keeps_ite_fst ?_ ?_
    | intro _
    | dsimp only
    | split

theorem State.ethSend_keeps {W : List Field} {s₀ s : State} (hk : s₀.Keeps W s) (hw : Field.sub [.regs, .halls, .ev] W = true) (h : Nat)
    (e : Nat) (p : Nat) (src : Nat) : s₀.Keeps W (State.ethSend s h e p src) := by
  unfold State.ethSend
  repeat' first
    | with_reducible assumption
    | with_reducible exact State.Keeps.refl _ _
    | with_reducible apply State.incFld_keeps (hw := Field.sub_trans (by decide) hw)
    | with_reducible apply State.modEth_keeps (hw := Field.sub_trans (by decide) hw)
    | with_reducible apply State.txStampAdd_keeps (hw := Field.sub_trans (by decide) hw)
    | with_reducible refine keeps_ite ?_ ?_
    | with_reducible refine keeps_ite_fst ?_ ?_
    | intro _
    | dsimp only
    | split

theorem State.ethTransmit_keeps {W : List Field} {s₀ s : State} (hk : s₀.Keeps W s) (hw : Field.sub [.regs, .halls, .ev, .net, .reqs,
    .seqNext] W = true) (h : Nat) (e : Nat) (p : Nat) : s₀.Keeps W (State.ethTransmit s h e p) := by
  unfold State.ethTransmit
  repeat' first
    | with_reducible assumption
    | with_reducible exact State.Keeps.refl _ _
    | with_reducible apply State.ethPump_keeps (hw := Field.sub_trans (by decide) hw)
    | with_reducible apply State.ethFetch_keeps (hw := Field.sub_trans (by decide) hw)
    | with_reducible apply State.ethSend_keeps (hw := Field.sub_trans (by decide) hw)
    | with_reducible refine keeps_ite ?_ ?_
    | with_reducible refine keeps_ite_fst ?_ ?_
    | intro _
    | dsimp only
    | split

theorem State.txtsRead_keeps {W : List Field} {s₀ s : State} (hk : s₀.Keeps W s) (hw : Field.sub [.halls] W = true) (h : Nat) (e : Nat) :
    s₀.Keeps W (State.txtsRead s h e) := by
  unfold State.txtsRead
  repeat' first
    | with_reducible assumption
    | with_reducible exact State.Keeps.refl _ _
    | with_reducible apply State.modEth_keeps (hw := Field.sub_trans (by decide) hw)
    | with_reducible refine keeps_ite ?_ ?_
    | with_reducible refine keeps_ite_fst ?_ ?_
    | intro _
    | dsimp only
    | split

theorem State.discardTx_keeps {W : List Field} {s₀ s : State} (hk : s₀.Keeps W s) (hw : Field.sub [.regs, .halls, .ev] W = true) (h :
    Nat) (e : Nat) (p : Nat) : s₀.Keeps W (State.discardTx s h e p) := by
  unfold State.discardTx
  repeat' first
    | with_reducible assumption
    | with_reducible exact State.Keeps.refl _ _
    | with_reducible apply State.modEth_keeps (hw := Field.sub_trans (by decide) hw)
    | with_reducible apply State.post_keeps (hw := Field.sub_trans (by decide) hw)
    | with_reducible apply State.incFld_keeps (hw := Field.sub_trans (by decide) hw)
    | with_reducible refine keeps_ite ?_ ?_
    | with_reducible refine keeps_ite_fst ?_ ?_
    | with_reducible refine keeps_foldl _ _ ?_ ?_
    | with_reducible refine keeps_foldl_fst _ _ ?_ ?_
    | intro _
    | dsimp only
    | split

theorem State.linkDown_keeps {W : List Field} {s₀ s : State} (hk : s₀.Keeps W s) (hw : Field.sub [.regs, .halls, .ev] W = true) (h : Nat)
    (e : Nat) (p : Nat) (cause : Nat) : s₀.Keeps W (State.linkDown s h e p cause) := by
  unfold State.linkDown
  repeat' first
    | with_reducible assumption
    | with_reducible exact State.Keeps.refl _ _
    | with_reducible apply State.setFld_keeps (hw := Field.sub_trans (by decide) hw)
    | with_reducible apply State.discardTx_keeps (hw := Field.sub_trans (by decide) hw)
    | with_reducible apply State.post_keeps (hw := Field.sub_trans (by decide) hw)
    | with_reducible refine keeps_ite ?_ ?_
    | with_reducible refine keeps_ite_fst ?_ ?_
    | intro _
    | dsimp only
    | split

theorem State.linksCheck_keeps {W : List Field} {s₀ s : State} (hk : s₀.Keeps W s) (hw : Field.sub [.regs, .halls, .ev] W = true) (h :
    Nat) (e : Nat) : s₀.Keeps W (State.linksCheck s h e) := by
  unfold State.linksCheck
  repeat' first
    | with_reducible assumption
    | with_reducible exact State.Keeps.refl _ _
    | with_reducible apply State.linkDown_keeps (hw := Field.sub_trans (by decide) hw)
    | with_reducible refine keeps_ite ?_ ?_
    | with_reducible refine keeps_ite_fst ?_ ?_
    | with_reducible refine keeps_foldl _ _ ?_ ?_
    | with_reducible refine keeps_foldl_fst _ _ ?_ ?_
    | intro _
    | dsimp only
    | split

theorem State.laneCheck_keeps {W : List Field} {s₀ s : State} (hk : s₀.Keeps W s) (hw : Field.sub [.regs, .halls, .ev] W = true) (h :
    Nat) (l : Nat) : s₀.Keeps W (State.laneCheck s h l) := by
  unfold State.laneCheck
  repeat' first
    | with_reducible assumption
    | with_reducible exact State.Keeps.refl _ _
    | with_reducible apply State.linksCheck_keeps (hw := Field.sub_trans (by decide) hw)
    | with_reducible refine keeps_ite ?_ ?_
    | with_reducible refine keeps_ite_fst ?_ ?_
    | intro _
    | dsimp only
    | split

theorem State.linkUp_keeps {W : List Field} {s₀ s : State} (hk : s₀.Keeps W s) (hw : Field.sub [.regs, .ev] W = true) (h : Nat) (e : Nat)
    (p : Nat) : s₀.Keeps W (State.linkUp s h e p) := by
  unfold State.linkUp
  repeat' first
    | with_reducible assumption
    | with_reducible exact State.Keeps.refl _ _
    | with_reducible apply State.setFld_keeps (hw := Field.sub_trans (by decide) hw)
    | with_reducible apply State.post_keeps (hw := Field.sub_trans (by decide) hw)
    | with_reducible refine keeps_ite ?_ ?_
    | with_reducible refine keeps_ite_fst ?_ ?_
    | intro _
    | dsimp only
    | split

theorem State.ethModeWrite_keeps {W : List Field} {s₀ s : State} (hk : s₀.Keeps W s) (hw : Field.sub [.regs, .halls, .ev] W = true) (h :
    Nat) (e : Nat) (v : Word) : s₀.Keeps W (State.ethModeWrite s h e v) := by
  unfold State.ethModeWrite
  repeat' first
    | with_reducible assumption
    | with_reducible exact State.Keeps.refl _ _
    | with_reducible apply State.post_keeps (hw := Field.sub_trans (by decide) hw)
    | with_reducible apply State.linksCheck_keeps (hw := Field.sub_trans (by decide) hw)
    | with_reducible apply State.writeFields_keeps (hw := Field.sub_trans (by decide) hw)
    | with_reducible refine keeps_ite ?_ ?_
    | with_reducible refine keeps_ite_fst ?_ ?_
    | intro _
    | dsimp only
    | split

theorem State.ethClActWrite_keeps {W : List Field} {s₀ s : State} (hk : s₀.Keeps W s) (hw : Field.sub [.regs, .halls] W = true) (h : Nat)
    (e : Nat) (n : Nat) (v : Word) : s₀.Keeps W (State.ethClActWrite s h e n v) := by
  unfold State.ethClActWrite
  repeat' first
    | with_reducible assumption
    | with_reducible exact State.Keeps.refl _ _
    | with_reducible apply State.writeFields_keeps (hw := Field.sub_trans (by decide) hw)
    | with_reducible apply State.modEth_keeps (hw := Field.sub_trans (by decide) hw)
    | with_reducible apply State.setFld_keeps (hw := Field.sub_trans (by decide) hw)
    | with_reducible refine keeps_ite ?_ ?_
    | with_reducible refine keeps_ite_fst ?_ ?_
    | intro _
    | dsimp only
    | split

theorem State.ethClear_keeps {W : List Field} {s₀ s : State} (hk : s₀.Keeps W s) (hw : Field.sub [.halls] W = true) (h : Nat) (e : Nat) :
    s₀.Keeps W (State.ethClear s h e) := by
  unfold State.ethClear
  repeat' first
    | with_reducible assumption
    | with_reducible exact State.Keeps.refl _ _
    | with_reducible apply State.modEth_keeps (hw := Field.sub_trans (by decide) hw)
    | with_reducible refine keeps_ite ?_ ?_
    | with_reducible refine keeps_ite_fst ?_ ?_
    | intro _
    | dsimp only
    | split

theorem State.ethOff_keeps {W : List Field} {s₀ s : State} (hk : s₀.Keeps W s) (hw : Field.sub [.regs, .halls, .ev] W = true) (h : Nat)
    (e : Nat) : s₀.Keeps W (State.ethOff s h e) := by
  unfold State.ethOff
  repeat' first
    | with_reducible assumption
    | with_reducible exact State.Keeps.refl _ _
    | with_reducible apply State.rxDrop_keeps (hw := Field.sub_trans (by decide) hw)
    | with_reducible apply State.incFld_keeps (hw := Field.sub_trans (by decide) hw)
    | with_reducible apply State.linksCheck_keeps (hw := Field.sub_trans (by decide) hw)
    | with_reducible apply State.ethClear_keeps (hw := Field.sub_trans (by decide) hw)
    | with_reducible refine keeps_ite ?_ ?_
    | with_reducible refine keeps_ite_fst ?_ ?_
    | with_reducible refine keeps_foldl _ _ ?_ ?_
    | with_reducible refine keeps_foldl_fst _ _ ?_ ?_
    | intro _
    | dsimp only
    | split

theorem execLaneEnable_keeps {s : State} (h : HallIx) (l : LaneIx) (v : Word) : ∃ nx, execLaneEnable h l v s = .next nx ∧ s.Keeps [.regs,
    .gals, .halls, .ev, .clk, .net, .reqs, .seqNext, .free] nx := by
  have hw : Field.sub [.regs, .gals, .halls, .ev, .clk, .net, .reqs, .seqNext, .free] [.regs, .gals, .halls, .ev, .clk, .net, .reqs,
    .seqNext, .free] = true := by decide
  refine ⟨_, rfl, ?_⟩
  have hk := State.Keeps.refl [.regs, .gals, .halls, .ev, .clk, .net, .reqs, .seqNext, .free] s
  repeat' first
    | with_reducible assumption
    | with_reducible exact State.Keeps.refl _ _
    | with_reducible apply State.laneEnable_keeps (hw := Field.sub_trans (by decide) hw)
    | with_reducible refine keeps_ite ?_ ?_
    | with_reducible refine keeps_ite_fst ?_ ?_
    | intro _
    | dsimp only
    | split

theorem execLaneDisable_keeps {s : State} (h : HallIx) (l : LaneIx) : ∃ nx, execLaneDisable h l s = .next nx ∧ s.Keeps [.regs, .gals,
    .halls, .ev, .clk, .net, .reqs, .seqNext, .free] nx := by
  have hw : Field.sub [.regs, .gals, .halls, .ev, .clk, .net, .reqs, .seqNext, .free] [.regs, .gals, .halls, .ev, .clk, .net, .reqs,
    .seqNext, .free] = true := by decide
  refine ⟨_, rfl, ?_⟩
  have hk := State.Keeps.refl [.regs, .gals, .halls, .ev, .clk, .net, .reqs, .seqNext, .free] s
  repeat' first
    | with_reducible assumption
    | with_reducible exact State.Keeps.refl _ _
    | with_reducible apply State.laneCheck_keeps (hw := Field.sub_trans (by decide) hw)
    | with_reducible apply State.laneDisable_keeps (hw := Field.sub_trans (by decide) hw)
    | with_reducible refine keeps_ite ?_ ?_
    | with_reducible refine keeps_ite_fst ?_ ?_
    | intro _
    | dsimp only
    | split

theorem execLaneQuiet_keeps {s : State} (h : HallIx) (l : LaneIx) (b : Bool) : ∃ nx, execLaneQuiet h l b s = .next nx ∧ s.Keeps [.regs,
    .gals, .halls, .ev, .clk, .net, .reqs, .seqNext, .free] nx := by
  have hw : Field.sub [.regs, .gals, .halls, .ev, .clk, .net, .reqs, .seqNext, .free] [.regs, .gals, .halls, .ev, .clk, .net, .reqs,
    .seqNext, .free] = true := by decide
  refine ⟨_, rfl, ?_⟩
  have hk := State.Keeps.refl [.regs, .gals, .halls, .ev, .clk, .net, .reqs, .seqNext, .free] s
  repeat' first
    | with_reducible assumption
    | with_reducible exact State.Keeps.refl _ _
    | with_reducible apply State.laneCheck_keeps (hw := Field.sub_trans (by decide) hw)
    | with_reducible apply State.laneQuietWrite_keeps (hw := Field.sub_trans (by decide) hw)
    | with_reducible refine keeps_ite ?_ ?_
    | with_reducible refine keeps_ite_fst ?_ ?_
    | intro _
    | dsimp only
    | split

theorem execLaneDormant_keeps {s : State} (h : HallIx) (l : LaneIx) (b : Bool) : ∃ nx, execLaneDormant h l b s = .next nx ∧ s.Keeps
    [.regs, .gals, .halls, .ev, .clk, .net, .reqs, .seqNext, .free] nx := by
  have hw : Field.sub [.regs, .gals, .halls, .ev, .clk, .net, .reqs, .seqNext, .free] [.regs, .gals, .halls, .ev, .clk, .net, .reqs,
    .seqNext, .free] = true := by decide
  refine ⟨_, rfl, ?_⟩
  have hk := State.Keeps.refl [.regs, .gals, .halls, .ev, .clk, .net, .reqs, .seqNext, .free] s
  repeat' first
    | with_reducible assumption
    | with_reducible exact State.Keeps.refl _ _
    | with_reducible apply State.laneCheck_keeps (hw := Field.sub_trans (by decide) hw)
    | with_reducible apply State.laneDormantWrite_keeps (hw := Field.sub_trans (by decide) hw)
    | with_reducible refine keeps_ite ?_ ?_
    | with_reducible refine keeps_ite_fst ?_ ?_
    | intro _
    | dsimp only
    | split

theorem execQreq_keeps {s : State} (h : HallIx) (l : LaneIx) (b : Bool) : ∃ nx, execQreq h l b s = .next nx ∧ s.Keeps [.regs, .gals,
    .halls, .ev, .clk, .net, .reqs, .seqNext, .free] nx := by
  have hw : Field.sub [.regs, .gals, .halls, .ev, .clk, .net, .reqs, .seqNext, .free] [.regs, .gals, .halls, .ev, .clk, .net, .reqs,
    .seqNext, .free] = true := by decide
  refine ⟨_, rfl, ?_⟩
  have hk := State.Keeps.refl [.regs, .gals, .halls, .ev, .clk, .net, .reqs, .seqNext, .free] s
  repeat' first
    | with_reducible assumption
    | with_reducible exact State.Keeps.refl _ _
    | with_reducible apply State.laneCheck_keeps (hw := Field.sub_trans (by decide) hw)
    | with_reducible apply State.qreqChange_keeps (hw := Field.sub_trans (by decide) hw)
    | with_reducible refine keeps_ite ?_ ?_
    | with_reducible refine keeps_ite_fst ?_ ?_
    | intro _
    | dsimp only
    | split

theorem execLanePllLock_keeps {s : State} (h : HallIx) (l : LaneIx) : ∃ nx, execLanePllLock h l s = .next nx ∧ s.Keeps [.regs, .gals,
    .halls, .ev, .clk, .net, .reqs, .seqNext, .free] nx := by
  have hw : Field.sub [.regs, .gals, .halls, .ev, .clk, .net, .reqs, .seqNext, .free] [.regs, .gals, .halls, .ev, .clk, .net, .reqs,
    .seqNext, .free] = true := by decide
  refine ⟨_, rfl, ?_⟩
  have hk := State.Keeps.refl [.regs, .gals, .halls, .ev, .clk, .net, .reqs, .seqNext, .free] s
  repeat' first
    | with_reducible assumption
    | with_reducible exact State.Keeps.refl _ _
    | with_reducible apply State.lanePllLock_keeps (hw := Field.sub_trans (by decide) hw)
    | with_reducible refine keeps_ite ?_ ?_
    | with_reducible refine keeps_ite_fst ?_ ?_
    | intro _
    | dsimp only
    | split

theorem execFomMeasure_keeps {s : State} (h : HallIx) (l : LaneIx) (fom : Fin 256) (cdr : Bool) (under : Nat) : ∃ nx, execFomMeasure h l
    fom cdr under s = .next nx ∧ s.Keeps [.regs, .halls, .ev] nx := by
  have hw : Field.sub [.regs, .halls, .ev] [.regs, .halls, .ev] = true := by decide
  refine ⟨_, rfl, ?_⟩
  have hk := State.Keeps.refl [.regs, .halls, .ev] s
  repeat' first
    | with_reducible assumption
    | with_reducible exact State.Keeps.refl _ _
    | with_reducible apply State.fomMeasure_keeps (hw := Field.sub_trans (by decide) hw)
    | with_reducible refine keeps_ite ?_ ?_
    | with_reducible refine keeps_ite_fst ?_ ?_
    | intro _
    | dsimp only
    | split

theorem execLandParity_keeps {s : State} (h : HallIx) (n : Fin 192) : ∃ nx, execLandParity h n s = .next nx ∧ s.Keeps [.regs, .ev] nx :=
    by
  have hw : Field.sub [.regs, .ev] [.regs, .ev] = true := by decide
  refine ⟨_, rfl, ?_⟩
  have hk := State.Keeps.refl [.regs, .ev] s
  repeat' first
    | with_reducible assumption
    | with_reducible exact State.Keeps.refl _ _
    | with_reducible apply State.landParity_keeps (hw := Field.sub_trans (by decide) hw)
    | with_reducible refine keeps_ite ?_ ?_
    | with_reducible refine keeps_ite_fst ?_ ?_
    | intro _
    | dsimp only
    | split

theorem execEthModeWrite_keeps {s : State} (h : HallIx) (e : EngIx) (v : Word) : ∃ nx, execEthModeWrite h e v s = .next nx ∧ s.Keeps
    [.regs, .halls, .ev] nx := by
  have hw : Field.sub [.regs, .halls, .ev] [.regs, .halls, .ev] = true := by decide
  refine ⟨_, rfl, ?_⟩
  have hk := State.Keeps.refl [.regs, .halls, .ev] s
  repeat' first
    | with_reducible assumption
    | with_reducible exact State.Keeps.refl _ _
    | with_reducible refine State.hostWrite_keeps ?_ (Field.sub_trans (by decide) hw) _ _ ?_
    | with_reducible apply State.ethModeWrite_keeps (hw := Field.sub_trans (by decide) hw)
    | with_reducible refine keeps_ite ?_ ?_
    | with_reducible refine keeps_ite_fst ?_ ?_
    | intro _
    | dsimp only
    | split

theorem execEthLinkUp_keeps {s : State} (h : HallIx) (e : EngIx) (p : Fin 4) : ∃ nx, execEthLinkUp h e p s = .next nx ∧ s.Keeps [.regs,
    .ev] nx := by
  have hw : Field.sub [.regs, .ev] [.regs, .ev] = true := by decide
  refine ⟨_, rfl, ?_⟩
  have hk := State.Keeps.refl [.regs, .ev] s
  repeat' first
    | with_reducible assumption
    | with_reducible exact State.Keeps.refl _ _
    | with_reducible apply State.linkUp_keeps (hw := Field.sub_trans (by decide) hw)
    | with_reducible refine keeps_ite ?_ ?_
    | with_reducible refine keeps_ite_fst ?_ ?_
    | intro _
    | dsimp only
    | split

theorem execEthLinkDown_keeps {s : State} (h : HallIx) (e : EngIx) (p : Fin 4) (cause : Fin 4) : ∃ nx, execEthLinkDown h e p cause s =
    .next nx ∧ s.Keeps [.regs, .halls, .ev] nx := by
  have hw : Field.sub [.regs, .halls, .ev] [.regs, .halls, .ev] = true := by decide
  refine ⟨_, rfl, ?_⟩
  have hk := State.Keeps.refl [.regs, .halls, .ev] s
  repeat' first
    | with_reducible assumption
    | with_reducible exact State.Keeps.refl _ _
    | with_reducible apply State.linkDown_keeps (hw := Field.sub_trans (by decide) hw)
    | with_reducible refine keeps_ite ?_ ?_
    | with_reducible refine keeps_ite_fst ?_ ?_
    | intro _
    | dsimp only
    | split

theorem execEthFrameReceive_keeps {s : State} (h : HallIx) (e : EngIx) (p : Fin 4) (b : List Byte) (fcs : Bool) (cor : Nat) (unc : Nat) :
    ∃ nx, execEthFrameReceive h e p b fcs cor unc s = .next nx ∧ s.Keeps [.regs, .halls, .ev, .net, .reqs, .seqNext] nx := by
  have hw : Field.sub [.regs, .halls, .ev, .net, .reqs, .seqNext] [.regs, .halls, .ev, .net, .reqs, .seqNext] = true := by decide
  refine ⟨_, rfl, ?_⟩
  have hk := State.Keeps.refl [.regs, .halls, .ev, .net, .reqs, .seqNext] s
  repeat' first
    | with_reducible assumption
    | with_reducible exact State.Keeps.refl _ _
    | with_reducible apply State.ethReceive_keeps (hw := Field.sub_trans (by decide) hw)
    | with_reducible refine keeps_ite ?_ ?_
    | with_reducible refine keeps_ite_fst ?_ ?_
    | intro _
    | dsimp only
    | split

theorem execEthStreamFrame_keeps {s : State} (h : HallIx) (e : EngIx) (j : Fin 2) (p : Fin 4) (b : List Byte) (err : Bool) (tsid : Option
    (Fin 256)) : ∃ nx, execEthStreamFrame h e j p b err tsid s = .next nx ∧ s.Keeps [.regs, .halls] nx := by
  have hw : Field.sub [.regs, .halls] [.regs, .halls] = true := by decide
  refine ⟨_, rfl, ?_⟩
  have hk := State.Keeps.refl [.regs, .halls] s
  repeat' first
    | with_reducible assumption
    | with_reducible exact State.Keeps.refl _ _
    | with_reducible apply State.ethStreamFrame_keeps (hw := Field.sub_trans (by decide) hw)
    | with_reducible refine keeps_ite ?_ ?_
    | with_reducible refine keeps_ite_fst ?_ ?_
    | intro _
    | dsimp only
    | split

theorem execEthTxEopTimeout_keeps {s : State} (h : HallIx) (e : EngIx) (p : Fin 4) : ∃ nx, execEthTxEopTimeout h e p s = .next nx ∧
    s.Keeps [.regs] nx := by
  have hw : Field.sub [.regs] [.regs] = true := by decide
  refine ⟨_, rfl, ?_⟩
  have hk := State.Keeps.refl [.regs] s
  repeat' first
    | with_reducible assumption
    | with_reducible exact State.Keeps.refl _ _
    | with_reducible apply State.ethEopTimeout_keeps (hw := Field.sub_trans (by decide) hw)
    | with_reducible refine keeps_ite ?_ ?_
    | with_reducible refine keeps_ite_fst ?_ ?_
    | intro _
    | dsimp only
    | split

theorem execEthFrameTransmit_keeps {s : State} (h : HallIx) (e : EngIx) (p : Fin 4) : ∃ nx, execEthFrameTransmit h e p s = .next nx ∧
    s.Keeps [.regs, .halls, .ev, .net, .reqs, .seqNext] nx := by
  have hw : Field.sub [.regs, .halls, .ev, .net, .reqs, .seqNext] [.regs, .halls, .ev, .net, .reqs, .seqNext] = true := by decide
  refine ⟨_, rfl, ?_⟩
  have hk := State.Keeps.refl [.regs, .halls, .ev, .net, .reqs, .seqNext] s
  repeat' first
    | with_reducible assumption
    | with_reducible exact State.Keeps.refl _ _
    | with_reducible apply State.ethTransmit_keeps (hw := Field.sub_trans (by decide) hw)
    | with_reducible refine keeps_ite ?_ ?_
    | with_reducible refine keeps_ite_fst ?_ ?_
    | intro _
    | dsimp only
    | split

theorem execTxtsRead_keeps {s : State} (h : HallIx) (e : EngIx) : ∃ nx, execTxtsRead h e s = .next nx ∧ s.Keeps [.regs, .halls, .ev] nx
    := by
  have hw : Field.sub [.regs, .halls, .ev] [.regs, .halls, .ev] = true := by decide
  refine ⟨_, rfl, ?_⟩
  have hk := State.Keeps.refl [.regs, .halls, .ev] s
  repeat' first
    | with_reducible assumption
    | with_reducible exact State.Keeps.refl _ _
    | with_reducible refine State.hostWrite_keeps ?_ (Field.sub_trans (by decide) hw) _ _ ?_
    | with_reducible apply State.txtsRead_keeps (hw := Field.sub_trans (by decide) hw)
    | with_reducible refine keeps_ite ?_ ?_
    | with_reducible refine keeps_ite_fst ?_ ?_
    | intro _
    | dsimp only
    | split

theorem execEthClActWrite_keeps {s : State} (h : HallIx) (e : EngIx) (n : Fin 128) (v : Word) : ∃ nx, execEthClActWrite h e n v s = .next
    nx ∧ s.Keeps [.regs, .halls, .ev] nx := by
  have hw : Field.sub [.regs, .halls, .ev] [.regs, .halls, .ev] = true := by decide
  refine ⟨_, rfl, ?_⟩
  have hk := State.Keeps.refl [.regs, .halls, .ev] s
  repeat' first
    | with_reducible assumption
    | with_reducible exact State.Keeps.refl _ _
    | with_reducible refine State.hostWrite_keeps ?_ (Field.sub_trans (by decide) hw) _ _ ?_
    | with_reducible apply State.ethClActWrite_keeps (hw := Field.sub_trans (by decide) hw)
    | with_reducible refine keeps_ite ?_ ?_
    | with_reducible refine keeps_ite_fst ?_ ?_
    | intro _
    | dsimp only
    | split

theorem execRxRdyRise_keeps {s : State} (h : HallIx) (e : EngIx) (p : Fin 4) (rdy : Fin 16) : ∃ nx, execRxRdyRise h e p rdy s = .next nx
    ∧ s.Keeps [.halls] nx := by
  have hw : Field.sub [.halls] [.halls] = true := by decide
  refine ⟨_, rfl, ?_⟩
  have hk := State.Keeps.refl [.halls] s
  repeat' first
    | with_reducible assumption
    | with_reducible exact State.Keeps.refl _ _
    | with_reducible apply State.rxRdy_keeps (hw := Field.sub_trans (by decide) hw)
    | with_reducible apply State.rxRdySet_keeps (hw := Field.sub_trans (by decide) hw)
    | with_reducible refine keeps_ite ?_ ?_
    | with_reducible refine keeps_ite_fst ?_ ?_
    | intro _
    | dsimp only
    | split

theorem execPadCfgWrite_keeps {s : State} (h : HallIx) (b : Fin 2) (n : Fin 48) (v : Word) : ∃ nx, execPadCfgWrite h b n v s = .next nx ∧
    s.Keeps [.regs, .ev] nx := by
  have hw : Field.sub [.regs, .ev] [.regs, .ev] = true := by decide
  refine ⟨_, rfl, ?_⟩
  have hk := State.Keeps.refl [.regs, .ev] s
  repeat' first
    | with_reducible assumption
    | with_reducible exact State.Keeps.refl _ _
    | with_reducible apply State.padCfgWrite_keeps (hw := Field.sub_trans (by decide) hw)
    | with_reducible refine keeps_ite ?_ ?_
    | with_reducible refine keeps_ite_fst ?_ ?_
    | intro _
    | dsimp only
    | split

theorem execPadSafeExit_keeps {s : State} (h : HallIx) (b : Fin 2) (k : Fin 2) : ∃ nx, execPadSafeExit h b k s = .next nx ∧ s.Keeps
    [.halls] nx := by
  have hw : Field.sub [.halls] [.halls] = true := by decide
  refine ⟨_, rfl, ?_⟩
  have hk := State.Keeps.refl [.halls] s
  repeat' first
    | with_reducible assumption
    | with_reducible exact State.Keeps.refl _ _
    | with_reducible apply State.padSafeExit_keeps (hw := Field.sub_trans (by decide) hw)
    | with_reducible refine keeps_ite ?_ ?_
    | with_reducible refine keeps_ite_fst ?_ ?_
    | intro _
    | dsimp only
    | split

end Sys2Proof.Machine
end

