-- ==== Sys2Proof/Laws/KeepsClocks.lean ====
section
/-!
SUPPORT. Laws/KeepsClocks.lean: the operations of Machine/Clocks.lean keep State.Keeps.
-/
namespace Sys2Proof.Machine
open Sys2Proof

theorem State.pllLimit_keeps {W : List Field} {s₀ s : State} (hk : s₀.Keeps W s) (hw : Field.sub [.regs, .ev] W = true) (h : Nat) (i :
    Nat) (j : Nat) (mhz : Nat) : s₀.Keeps W (State.pllLimit s h i j mhz) := by
  unfold State.pllLimit
  repeat' first
    | with_reducible assumption
    | with_reducible exact State.Keeps.refl _ _
    | with_reducible apply State.post_keeps (hw := Field.sub_trans (by decide) hw)
    | with_reducible refine keeps_ite ?_ ?_
    | with_reducible refine keeps_ite_fst ?_ ?_
    | intro _
    | dsimp only
    | split

theorem State.pllRefused_keeps {W : List Field} {s₀ s : State} (hk : s₀.Keeps W s) (hw : Field.sub [.regs, .ev] W = true) (h : Nat) (off
    : Nat) : s₀.Keeps W (State.pllRefused s h off) := by
  unfold State.pllRefused
  repeat' first
    | with_reducible assumption
    | with_reducible exact State.Keeps.refl _ _
    | with_reducible apply State.post_keeps (hw := Field.sub_trans (by decide) hw)
    | with_reducible refine keeps_ite ?_ ?_
    | with_reducible refine keeps_ite_fst ?_ ?_
    | intro _
    | dsimp only
    | split

theorem State.setLock_keeps {W : List Field} {s₀ s : State} (hk : s₀.Keeps W s) (hw : Field.sub [.regs] W = true) (h : Nat) (f : Fld) (k
    : Nat) (b : Bool) : s₀.Keeps W (State.setLock s h f k b) := by
  unfold State.setLock
  repeat' first
    | with_reducible assumption
    | with_reducible exact State.Keeps.refl _ _
    | with_reducible apply State.setFldBit_keeps (hw := Field.sub_trans (by decide) hw)
    | with_reducible refine keeps_ite ?_ ?_
    | with_reducible refine keeps_ite_fst ?_ ?_
    | intro _
    | dsimp only
    | split

theorem State.pllOver_keeps {W : List Field} {s₀ s : State} (hk : s₀.Keeps W s) (hw : Field.sub [.regs, .ev] W = true) (h : Nat) (i :
    Nat) (w : Word) : s₀.Keeps W (State.pllOver s h i w) := by
  unfold State.pllOver
  repeat' first
    | with_reducible assumption
    | with_reducible exact State.Keeps.refl _ _
    | with_reducible apply State.pllLimit_keeps (hw := Field.sub_trans (by decide) hw)
    | with_reducible refine keeps_ite ?_ ?_
    | with_reducible refine keeps_ite_fst ?_ ?_
    | intro _
    | dsimp only
    | split

theorem State.hclkPllWrite_keeps {W : List Field} {s₀ s : State} (hk : s₀.Keeps W s) (hw : Field.sub [.regs, .gals, .halls, .ev, .net,
    .reqs, .seqNext, .free] W = true) (h : Nat) (i : Nat) (v : Word) : s₀.Keeps W (State.hclkPllWrite s h i v) := by
  unfold State.hclkPllWrite
  repeat' first
    | with_reducible assumption
    | with_reducible exact State.Keeps.refl _ _
    | with_reducible apply State.pllRefused_keeps (hw := Field.sub_trans (by decide) hw)
    | with_reducible apply State.pllOver_keeps (hw := Field.sub_trans (by decide) hw)
    | with_reducible apply State.hallClockCheck_keeps (hw := Field.sub_trans (by decide) hw)
    | with_reducible apply State.setLock_keeps (hw := Field.sub_trans (by decide) hw)
    | with_reducible apply State.writeFields_keeps (hw := Field.sub_trans (by decide) hw)
    | with_reducible refine keeps_ite ?_ ?_
    | with_reducible refine keeps_ite_fst ?_ ?_
    | intro _
    | dsimp only
    | split

theorem State.hclkPlloutWrite_keeps {W : List Field} {s₀ s : State} (hk : s₀.Keeps W s) (hw : Field.sub [.regs, .gals, .halls, .ev, .net,
    .reqs, .seqNext, .free] W = true) (h : Nat) (i : Nat) (j : Nat) (v : Word) : s₀.Keeps W (State.hclkPlloutWrite s h i j v) := by
  unfold State.hclkPlloutWrite
  repeat' first
    | with_reducible assumption
    | with_reducible exact State.Keeps.refl _ _
    | with_reducible apply State.pllLimit_keeps (hw := Field.sub_trans (by decide) hw)
    | with_reducible apply State.hallClockCheck_keeps (hw := Field.sub_trans (by decide) hw)
    | with_reducible apply State.writeFields_keeps (hw := Field.sub_trans (by decide) hw)
    | with_reducible refine keeps_ite ?_ ?_
    | with_reducible refine keeps_ite_fst ?_ ?_
    | intro _
    | dsimp only
    | split

theorem State.hclkPadWrite_keeps {W : List Field} {s₀ s : State} (hk : s₀.Keeps W s) (hw : Field.sub [.regs, .gals, .halls, .ev, .net,
    .reqs, .seqNext, .free] W = true) (h : Nat) (b : Nat) (k : Nat) (v : Word) : s₀.Keeps W (State.hclkPadWrite s h b k v) := by
  unfold State.hclkPadWrite
  repeat' first
    | with_reducible assumption
    | with_reducible exact State.Keeps.refl _ _
    | with_reducible apply State.pllLimit_keeps (hw := Field.sub_trans (by decide) hw)
    | with_reducible apply State.hallClockCheck_keeps (hw := Field.sub_trans (by decide) hw)
    | with_reducible apply State.setLock_keeps (hw := Field.sub_trans (by decide) hw)
    | with_reducible apply State.writeFields_keeps (hw := Field.sub_trans (by decide) hw)
    | with_reducible refine keeps_ite ?_ ?_
    | with_reducible refine keeps_ite_fst ?_ ?_
    | intro _
    | dsimp only
    | split

theorem State.hclkLrefWrite_keeps {W : List Field} {s₀ s : State} (hk : s₀.Keeps W s) (hw : Field.sub [.regs, .ev] W = true) (h : Nat) (q
    : Nat) (v : Word) : s₀.Keeps W (State.hclkLrefWrite s h q v) := by
  unfold State.hclkLrefWrite
  repeat' first
    | with_reducible assumption
    | with_reducible exact State.Keeps.refl _ _
    | with_reducible apply State.pllRefused_keeps (hw := Field.sub_trans (by decide) hw)
    | with_reducible apply State.writeFields_keeps (hw := Field.sub_trans (by decide) hw)
    | with_reducible refine keeps_ite ?_ ?_
    | with_reducible refine keeps_ite_fst ?_ ?_
    | intro _
    | dsimp only
    | split

theorem State.setDeepOff_keeps {W : List Field} {s₀ s : State} (hk : s₀.Keeps W s) (hw : Field.sub [.clk] W = true) (h : Nat) (i : Nat)
    (b : Bool) : s₀.Keeps W (State.setDeepOff s h i b) := by
  unfold State.setDeepOff
  repeat' first
    | with_reducible assumption
    | with_reducible exact State.Keeps.refl _ _
    | with_reducible refine keeps_ite ?_ ?_
    | with_reducible refine keeps_ite_fst ?_ ?_
    | intro _
    | dsimp only
    | simp (disch := first | assumption | (with_unfolding_all (intro (x : Field) hx; cases x <;>
        first | exact absurd hx (by decide) | (dsimp only [Field.same]; done) | (dsimp only [Field.same]; exact ⟨rfl, rfl⟩)))) only [keeps_mk hw]
    | split

theorem State.clockMode_keeps {W : List Field} {s₀ s : State} (hk : s₀.Keeps W s) (hw : Field.sub [.regs, .gals, .halls, .ev, .clk, .net,
    .reqs, .seqNext, .free] W = true) (h : Nat) (v : Word) : s₀.Keeps W (State.clockMode s h v) := by
  unfold State.clockMode
  repeat' first
    | with_reducible assumption
    | with_reducible exact State.Keeps.refl _ _
    | with_reducible apply State.writeFields_keeps (hw := Field.sub_trans (by decide) hw)
    | with_reducible apply State.setLock_keeps (hw := Field.sub_trans (by decide) hw)
    | with_reducible apply State.setDeepOff_keeps (hw := Field.sub_trans (by decide) hw)
    | with_reducible apply State.hallClockCheck_keeps (hw := Field.sub_trans (by decide) hw)
    | with_reducible refine keeps_ite ?_ ?_
    | with_reducible refine keeps_ite_fst ?_ ?_
    | with_reducible refine keeps_foldl _ _ ?_ ?_
    | with_reducible refine keeps_foldl_fst _ _ ?_ ?_
    | intro _
    | dsimp only
    | split

theorem State.pllRelock_keeps {W : List Field} {s₀ s : State} (hk : s₀.Keeps W s) (hw : Field.sub [.regs, .gals, .halls, .ev, .clk, .net,
    .reqs, .seqNext, .free] W = true) (h : Nat) (x : Nat) : s₀.Keeps W (State.pllRelock s h x) := by
  unfold State.pllRelock
  repeat' first
    | with_reducible assumption
    | with_reducible exact State.Keeps.refl _ _
    | with_reducible apply State.hallClockCheck_keeps (hw := Field.sub_trans (by decide) hw)
    | with_reducible apply State.setLock_keeps (hw := Field.sub_trans (by decide) hw)
    | with_reducible apply State.setDeepOff_keeps (hw := Field.sub_trans (by decide) hw)
    | with_reducible refine keeps_ite ?_ ?_
    | with_reducible refine keeps_ite_fst ?_ ?_
    | intro _
    | dsimp only
    | split

theorem State.locksUp_keeps {W : List Field} {s₀ s : State} (hk : s₀.Keeps W s) (hw : Field.sub [.regs] W = true) (h : Nat) : s₀.Keeps W
    (State.locksUp s h) := by
  unfold State.locksUp
  repeat' first
    | with_reducible assumption
    | with_reducible exact State.Keeps.refl _ _
    | with_reducible apply State.setLock_keeps (hw := Field.sub_trans (by decide) hw)
    | with_reducible refine keeps_ite ?_ ?_
    | with_reducible refine keeps_ite_fst ?_ ?_
    | with_reducible refine keeps_foldl _ _ ?_ ?_
    | with_reducible refine keeps_foldl_fst _ _ ?_ ?_
    | intro _
    | dsimp only
    | split

theorem State.padLockUp_keeps {W : List Field} {s₀ s : State} (hk : s₀.Keeps W s) (hw : Field.sub [.regs] W = true) (h : Nat) (c : Nat) :
    s₀.Keeps W (State.padLockUp s h c) := by
  unfold State.padLockUp
  repeat' first
    | with_reducible assumption
    | with_reducible exact State.Keeps.refl _ _
    | with_reducible apply State.setLock_keeps (hw := Field.sub_trans (by decide) hw)
    | with_reducible refine keeps_ite ?_ ?_
    | with_reducible refine keeps_ite_fst ?_ ?_
    | intro _
    | dsimp only
    | split

theorem State.locksBack_keeps {W : List Field} {s₀ s : State} (hk : s₀.Keeps W s) (hw : Field.sub [.regs] W = true) (h : Nat) (src : Nat)
    : s₀.Keeps W (State.locksBack s h src) := by
  unfold State.locksBack
  repeat' first
    | with_reducible assumption
    | with_reducible exact State.Keeps.refl _ _
    | with_reducible apply State.padLockUp_keeps (hw := Field.sub_trans (by decide) hw)
    | with_reducible apply State.setLock_keeps (hw := Field.sub_trans (by decide) hw)
    | with_reducible refine keeps_ite ?_ ?_
    | with_reducible refine keeps_ite_fst ?_ ?_
    | with_reducible refine keeps_foldl _ _ ?_ ?_
    | with_reducible refine keeps_foldl_fst _ _ ?_ ?_
    | intro _
    | dsimp only
    | split

theorem State.locksDown_keeps {W : List Field} {s₀ s : State} (hk : s₀.Keeps W s) (hw : Field.sub [.regs, .clk] W = true) : s₀.Keeps W
    (State.locksDown s) := by
  unfold State.locksDown
  repeat' first
    | with_reducible assumption
    | with_reducible exact State.Keeps.refl _ _
    | with_reducible apply State.setFld_keeps (hw := Field.sub_trans (by decide) hw)
    | with_reducible refine keeps_ite ?_ ?_
    | with_reducible refine keeps_ite_fst ?_ ?_
    | with_reducible refine keeps_foldl _ _ ?_ ?_
    | with_reducible refine keeps_foldl_fst _ _ ?_ ?_
    | intro _
    | dsimp only
    | simp (disch := first | assumption | (with_unfolding_all (intro (x : Field) hx; cases x <;>
        first | exact absurd hx (by decide) | (dsimp only [Field.same]; done) | (dsimp only [Field.same]; exact ⟨rfl, rfl⟩)))) only [keeps_mk hw]
    | split

theorem State.hbmClockLost_keeps {W : List Field} {s₀ s : State} (hk : s₀.Keeps W s) (hw : Field.sub [.regs, .mem, .gals, .halls, .ev,
    .adm, .dom, .pwrCmd, .boot, .bist, .net, .reqs, .seqNext, .free] W = true) (h : Nat) : s₀.Keeps W (State.hbmClockLost s h) := by
  unfold State.hbmClockLost
  repeat' first
    | with_reducible assumption
    | with_reducible exact State.Keeps.refl _ _
    | with_reducible apply State.srBegin_keeps (hw := Field.sub_trans (by decide) hw)
    | with_reducible apply State.flushWrites_keeps (hw := Field.sub_trans (by decide) hw)
    | with_reducible apply State.modPc_keeps (hw := Field.sub_trans (by decide) hw)
    | with_reducible apply State.stackEntered_keeps (hw := Field.sub_trans (by decide) hw)
    | with_reducible apply State.setHbmState_keeps (hw := Field.sub_trans (by decide) hw)
    | with_reducible refine keeps_ite ?_ ?_
    | with_reducible refine keeps_ite_fst ?_ ?_
    | with_reducible refine keeps_foldl _ _ ?_ ?_
    | with_reducible refine keeps_foldl_fst _ _ ?_ ?_
    | intro _
    | dsimp only
    | split

theorem State.lossLocks_keeps {W : List Field} {s₀ s : State} (hk : s₀.Keeps W s) (hw : Field.sub [.regs] W = true) (h : Nat) : s₀.Keeps
    W (State.lossLocks s h) := by
  unfold State.lossLocks
  repeat' first
    | with_reducible assumption
    | with_reducible exact State.Keeps.refl _ _
    | with_reducible apply State.setLock_keeps (hw := Field.sub_trans (by decide) hw)
    | with_reducible apply State.setFld_keeps (hw := Field.sub_trans (by decide) hw)
    | with_reducible refine keeps_ite ?_ ?_
    | with_reducible refine keeps_ite_fst ?_ ?_
    | with_reducible refine keeps_foldl _ _ ?_ ?_
    | with_reducible refine keeps_foldl_fst _ _ ?_ ?_
    | intro _
    | dsimp only
    | split

theorem State.hallLoss_keeps {W : List Field} {s₀ s : State} (hk : s₀.Keeps W s) (hw : Field.sub [.regs, .gals, .halls, .ev, .clk, .net,
    .reqs, .seqNext, .free] W = true) (h : Nat) : s₀.Keeps W (State.hallLoss s h) := by
  unfold State.hallLoss
  repeat' first
    | with_reducible assumption
    | with_reducible exact State.Keeps.refl _ _
    | with_reducible apply State.hallClockCheck_keeps (hw := Field.sub_trans (by decide) hw)
    | with_reducible apply State.lossLocks_keeps (hw := Field.sub_trans (by decide) hw)
    | with_reducible apply State.padSafe_keeps (hw := Field.sub_trans (by decide) hw)
    | with_reducible apply State.laneClockLost_keeps (hw := Field.sub_trans (by decide) hw)
    | with_reducible apply State.linksCheck_keeps (hw := Field.sub_trans (by decide) hw)
    | with_reducible refine keeps_ite ?_ ?_
    | with_reducible refine keeps_ite_fst ?_ ?_
    | with_reducible refine keeps_foldl _ _ ?_ ?_
    | with_reducible refine keeps_foldl_fst _ _ ?_ ?_
    | intro _
    | dsimp only
    | split

theorem State.framesLost_keeps {W : List Field} {s₀ s : State} (hk : s₀.Keeps W s) (hw : Field.sub [.regs] W = true) (l : List (Nat × Nat
    × Nat × Bool)) : s₀.Keeps W (State.framesLost s l) := by
  unfold State.framesLost
  repeat' first
    | with_reducible assumption
    | with_reducible exact State.Keeps.refl _ _
    | with_reducible apply State.rxDrop_keeps (hw := Field.sub_trans (by decide) hw)
    | with_reducible apply State.txDrop_keeps (hw := Field.sub_trans (by decide) hw)
    | with_reducible refine keeps_ite ?_ ?_
    | with_reducible refine keeps_ite_fst ?_ ?_
    | with_reducible refine keeps_foldl _ _ ?_ ?_
    | with_reducible refine keeps_foldl_fst _ _ ?_ ?_
    | intro _
    | dsimp only
    | split

theorem State.clkLoss_keeps {W : List Field} {s₀ s : State} (hk : s₀.Keeps W s) (hw : Field.sub [.regs, .mem, .gals, .halls, .ev, .adm,
    .clk, .dom, .pwrCmd, .boot, .bist, .net, .reqs, .seqNext, .free] W = true) (h : Nat) (src : Nat) (frames : List (Nat × Nat × Nat ×
    Bool)) : s₀.Keeps W (State.clkLoss s h src frames) := by
  unfold State.clkLoss
  repeat' first
    | with_reducible assumption
    | with_reducible exact State.Keeps.refl _ _
    | with_reducible apply State.post_keeps (hw := Field.sub_trans (by decide) hw)
    | with_reducible apply State.addLost_keeps (hw := Field.sub_trans (by decide) hw)
    | with_reducible apply State.setFld_keeps (hw := Field.sub_trans (by decide) hw)
    | with_reducible apply State.hbmClockLost_keeps (hw := Field.sub_trans (by decide) hw)
    | with_reducible apply State.hallLoss_keeps (hw := Field.sub_trans (by decide) hw)
    | with_reducible apply State.framesLost_keeps (hw := Field.sub_trans (by decide) hw)
    | with_reducible apply State.lockLost_keeps (hw := Field.sub_trans (by decide) hw)
    | with_reducible refine keeps_ite ?_ ?_
    | with_reducible refine keeps_ite_fst ?_ ?_
    | with_reducible refine keeps_foldl _ _ ?_ ?_
    | with_reducible refine keeps_foldl_fst _ _ ?_ ?_
    | intro _
    | dsimp only
    | simp (disch := first | assumption | (with_unfolding_all (intro (x : Field) hx; cases x <;>
        first | exact absurd hx (by decide) | (dsimp only [Field.same]; done) | (dsimp only [Field.same]; exact ⟨rfl, rfl⟩)))) only [keeps_mk hw]
    | split

theorem State.clkBack_keeps {W : List Field} {s₀ s : State} (hk : s₀.Keeps W s) (hw : Field.sub [.regs, .gals, .halls, .ev, .adm, .clk,
    .dom, .pwrCmd, .boot, .bist, .net, .reqs, .seqNext, .free] W = true) (h : Nat) (src : Nat) : s₀.Keeps W (State.clkBack s h src) := by
  unfold State.clkBack
  repeat' first
    | with_reducible assumption
    | with_reducible exact State.Keeps.refl _ _
    | with_reducible apply State.setFld_keeps (hw := Field.sub_trans (by decide) hw)
    | with_reducible apply State.srEnd_keeps (hw := Field.sub_trans (by decide) hw)
    | with_reducible apply State.hallClockCheck_keeps (hw := Field.sub_trans (by decide) hw)
    | with_reducible apply State.locksUp_keeps (hw := Field.sub_trans (by decide) hw)
    | with_reducible apply State.locksBack_keeps (hw := Field.sub_trans (by decide) hw)
    | with_reducible refine keeps_ite ?_ ?_
    | with_reducible refine keeps_ite_fst ?_ ?_
    | with_reducible refine keeps_foldl _ _ ?_ ?_
    | with_reducible refine keeps_foldl_fst _ _ ?_ ?_
    | intro _
    | dsimp only
    | simp (disch := first | assumption | (with_unfolding_all (intro (x : Field) hx; cases x <;>
        first | exact absurd hx (by decide) | (dsimp only [Field.same]; done) | (dsimp only [Field.same]; exact ⟨rfl, rfl⟩)))) only [keeps_mk hw]
    | split

theorem State.clkRestored_keeps {W : List Field} {s₀ s : State} (hk : s₀.Keeps W s) (hw : Field.sub [.regs, .gals, .halls, .ev, .adm,
    .clk, .dom, .pwrCmd, .boot, .bist, .net, .reqs, .seqNext, .free] W = true) (h : Nat) (src : Nat) : s₀.Keeps W (State.clkRestored s h
    src) := by
  unfold State.clkRestored
  repeat' first
    | with_reducible assumption
    | with_reducible exact State.Keeps.refl _ _
    | with_reducible apply State.clkBack_keeps (hw := Field.sub_trans (by decide) hw)
    | with_reducible apply State.post_keeps (hw := Field.sub_trans (by decide) hw)
    | with_reducible refine keeps_ite ?_ ?_
    | with_reducible refine keeps_ite_fst ?_ ?_
    | intro _
    | dsimp only
    | simp (disch := first | assumption | (with_unfolding_all (intro (x : Field) hx; cases x <;>
        first | exact absurd hx (by decide) | (dsimp only [Field.same]; done) | (dsimp only [Field.same]; exact ⟨rfl, rfl⟩)))) only [keeps_mk hw]
    | split

theorem State.clockBorder_keeps {W : List Field} {s₀ s : State} (hk : s₀.Keeps W s) (hw : Field.sub [.regs, .gals, .halls, .ev, .net,
    .reqs, .seqNext, .free] W = true) (G : Nat) : s₀.Keeps W (State.clockBorder s G) := by
  unfold State.clockBorder
  repeat' first
    | with_reducible assumption
    | with_reducible exact State.Keeps.refl _ _
    | with_reducible apply State.branchesUpdate_keeps (hw := Field.sub_trans (by decide) hw)
    | with_reducible apply State.captureResumes_keeps (hw := Field.sub_trans (by decide) hw)
    | with_reducible apply State.modGal_keeps (hw := Field.sub_trans (by decide) hw)
    | with_reducible refine keeps_ite ?_ ?_
    | with_reducible refine keeps_ite_fst ?_ ?_
    | intro _
    | dsimp only
    | split

theorem State.tbFreqWrite_keeps {W : List Field} {s₀ s : State} (hk : s₀.Keeps W s) (hw : Field.sub [.regs, .ev] W = true) (v : Word) :
    s₀.Keeps W (State.tbFreqWrite s v) := by
  unfold State.tbFreqWrite
  repeat' first
    | with_reducible assumption
    | with_reducible exact State.Keeps.refl _ _
    | with_reducible apply State.postPkg_keeps (hw := Field.sub_trans (by decide) hw)
    | with_reducible apply State.setReg_keeps (hw := Field.sub_trans (by decide) hw)
    | with_reducible refine keeps_ite ?_ ?_
    | with_reducible refine keeps_ite_fst ?_ ?_
    | intro _
    | dsimp only
    | split

theorem State.tbStep_keeps {W : List Field} {s₀ s : State} (hk : s₀.Keeps W s) (hw : Field.sub [.regs, .ev, .clk] W = true) (v : Word) :
    s₀.Keeps W (State.tbStep s v) := by
  unfold State.tbStep
  repeat' first
    | with_reducible assumption
    | with_reducible exact State.Keeps.refl _ _
    | with_reducible apply State.postPkg_keeps (hw := Field.sub_trans (by decide) hw)
    | with_reducible refine keeps_ite ?_ ?_
    | with_reducible refine keeps_ite_fst ?_ ?_
    | intro _
    | dsimp only
    | simp (disch := first | assumption | (with_unfolding_all (intro (x : Field) hx; cases x <;>
        first | exact absurd hx (by decide) | (dsimp only [Field.same]; done) | (dsimp only [Field.same]; exact ⟨rfl, rfl⟩)))) only [keeps_mk hw]
    | split

theorem State.tbSet_keeps {W : List Field} {s₀ s : State} (hk : s₀.Keeps W s) (hw : Field.sub [.regs, .ev, .clk] W = true) (v : Word) :
    s₀.Keeps W (State.tbSet s v) := by
  unfold State.tbSet
  repeat' first
    | with_reducible assumption
    | with_reducible exact State.Keeps.refl _ _
    | with_reducible apply State.postPkg_keeps (hw := Field.sub_trans (by decide) hw)
    | with_reducible refine keeps_ite ?_ ?_
    | with_reducible refine keeps_ite_fst ?_ ?_
    | intro _
    | dsimp only
    | simp (disch := first | assumption | (with_unfolding_all (intro (x : Field) hx; cases x <;>
        first | exact absurd hx (by decide) | (dsimp only [Field.same]; done) | (dsimp only [Field.same]; exact ⟨rfl, rfl⟩)))) only [keeps_mk hw]
    | split

theorem execClkLoss_keeps {s : State} (c : ClkSrc) (frames : List (HallIx × EngIx × Fin 4 × Bool)) : ∃ nx, execClkLoss c frames s = .next
    nx ∧ s.Keeps [.regs, .mem, .gals, .halls, .ev, .adm, .clk, .dom, .pwrCmd, .boot, .bist, .net, .reqs, .seqNext, .free] nx := by
  have hw : Field.sub [.regs, .mem, .gals, .halls, .ev, .adm, .clk, .dom, .pwrCmd, .boot, .bist, .net, .reqs, .seqNext, .free] [.regs,
    .mem, .gals, .halls, .ev, .adm, .clk, .dom, .pwrCmd, .boot, .bist, .net, .reqs, .seqNext, .free] = true := by decide
  refine ⟨_, rfl, ?_⟩
  have hk := State.Keeps.refl [.regs, .mem, .gals, .halls, .ev, .adm, .clk, .dom, .pwrCmd, .boot, .bist, .net, .reqs, .seqNext, .free] s
  repeat' first
    | with_reducible assumption
    | with_reducible exact State.Keeps.refl _ _
    | with_reducible apply State.clkLoss_keeps (hw := Field.sub_trans (by decide) hw)
    | with_reducible refine keeps_ite ?_ ?_
    | with_reducible refine keeps_ite_fst ?_ ?_
    | intro _
    | dsimp only
    | split

theorem execClkRestored_keeps {s : State} (c : ClkSrc) : ∃ nx, execClkRestored c s = .next nx ∧ s.Keeps [.regs, .gals, .halls, .ev, .adm,
    .clk, .dom, .pwrCmd, .boot, .bist, .net, .reqs, .seqNext, .free] nx := by
  have hw : Field.sub [.regs, .gals, .halls, .ev, .adm, .clk, .dom, .pwrCmd, .boot, .bist, .net, .reqs, .seqNext, .free] [.regs, .gals,
    .halls, .ev, .adm, .clk, .dom, .pwrCmd, .boot, .bist, .net, .reqs, .seqNext, .free] = true := by decide
  refine ⟨_, rfl, ?_⟩
  have hk := State.Keeps.refl [.regs, .gals, .halls, .ev, .adm, .clk, .dom, .pwrCmd, .boot, .bist, .net, .reqs, .seqNext, .free] s
  repeat' first
    | with_reducible assumption
    | with_reducible exact State.Keeps.refl _ _
    | with_reducible apply State.clkRestored_keeps (hw := Field.sub_trans (by decide) hw)
    | with_reducible refine keeps_ite ?_ ?_
    | with_reducible refine keeps_ite_fst ?_ ?_
    | intro _
    | dsimp only
    | split

theorem execHclkPllWrite_keeps {s : State} (h : HallIx) (i : Fin 6) (v : Word) : ∃ nx, execHclkPllWrite h i v s = .next nx ∧ s.Keeps
    [.regs, .gals, .halls, .ev, .net, .reqs, .seqNext, .free] nx := by
  have hw : Field.sub [.regs, .gals, .halls, .ev, .net, .reqs, .seqNext, .free] [.regs, .gals, .halls, .ev, .net, .reqs, .seqNext, .free]
    = true := by decide
  refine ⟨_, rfl, ?_⟩
  have hk := State.Keeps.refl [.regs, .gals, .halls, .ev, .net, .reqs, .seqNext, .free] s
  repeat' first
    | with_reducible assumption
    | with_reducible exact State.Keeps.refl _ _
    | with_reducible apply State.hclkPllWrite_keeps (hw := Field.sub_trans (by decide) hw)
    | with_reducible refine keeps_ite ?_ ?_
    | with_reducible refine keeps_ite_fst ?_ ?_
    | intro _
    | dsimp only
    | split

theorem execHclkPlloutWrite_keeps {s : State} (h : HallIx) (i : Fin 6) (j : Fin 4) (v : Word) : ∃ nx, execHclkPlloutWrite h i j v s =
    .next nx ∧ s.Keeps [.regs, .gals, .halls, .ev, .net, .reqs, .seqNext, .free] nx := by
  have hw : Field.sub [.regs, .gals, .halls, .ev, .net, .reqs, .seqNext, .free] [.regs, .gals, .halls, .ev, .net, .reqs, .seqNext, .free]
    = true := by decide
  refine ⟨_, rfl, ?_⟩
  have hk := State.Keeps.refl [.regs, .gals, .halls, .ev, .net, .reqs, .seqNext, .free] s
  repeat' first
    | with_reducible assumption
    | with_reducible exact State.Keeps.refl _ _
    | with_reducible apply State.hclkPlloutWrite_keeps (hw := Field.sub_trans (by decide) hw)
    | with_reducible refine keeps_ite ?_ ?_
    | with_reducible refine keeps_ite_fst ?_ ?_
    | intro _
    | dsimp only
    | split

theorem execHclkPadWrite_keeps {s : State} (h : HallIx) (b : Fin 2) (k : Fin 2) (v : Word) : ∃ nx, execHclkPadWrite h b k v s = .next nx
    ∧ s.Keeps [.regs, .gals, .halls, .ev, .net, .reqs, .seqNext, .free] nx := by
  have hw : Field.sub [.regs, .gals, .halls, .ev, .net, .reqs, .seqNext, .free] [.regs, .gals, .halls, .ev, .net, .reqs, .seqNext, .free]
    = true := by decide
  refine ⟨_, rfl, ?_⟩
  have hk := State.Keeps.refl [.regs, .gals, .halls, .ev, .net, .reqs, .seqNext, .free] s
  repeat' first
    | with_reducible assumption
    | with_reducible exact State.Keeps.refl _ _
    | with_reducible apply State.hclkPadWrite_keeps (hw := Field.sub_trans (by decide) hw)
    | with_reducible refine keeps_ite ?_ ?_
    | with_reducible refine keeps_ite_fst ?_ ?_
    | intro _
    | dsimp only
    | split

theorem execHclkLrefWrite_keeps {s : State} (h : HallIx) (q : Fin 4) (v : Word) : ∃ nx, execHclkLrefWrite h q v s = .next nx ∧ s.Keeps
    [.regs, .ev] nx := by
  have hw : Field.sub [.regs, .ev] [.regs, .ev] = true := by decide
  refine ⟨_, rfl, ?_⟩
  have hk := State.Keeps.refl [.regs, .ev] s
  repeat' first
    | with_reducible assumption
    | with_reducible exact State.Keeps.refl _ _
    | with_reducible apply State.hclkLrefWrite_keeps (hw := Field.sub_trans (by decide) hw)
    | with_reducible refine keeps_ite ?_ ?_
    | with_reducible refine keeps_ite_fst ?_ ?_
    | intro _
    | dsimp only
    | split

theorem execClockModeChange_keeps {s : State} (h : HallIx) (v : Word) : ∃ nx, execClockModeChange h v s = .next nx ∧ s.Keeps [.regs,
    .gals, .halls, .ev, .clk, .net, .reqs, .seqNext, .free] nx := by
  have hw : Field.sub [.regs, .gals, .halls, .ev, .clk, .net, .reqs, .seqNext, .free] [.regs, .gals, .halls, .ev, .clk, .net, .reqs,
    .seqNext, .free] = true := by decide
  refine ⟨_, rfl, ?_⟩
  have hk := State.Keeps.refl [.regs, .gals, .halls, .ev, .clk, .net, .reqs, .seqNext, .free] s
  repeat' first
    | with_reducible assumption
    | with_reducible exact State.Keeps.refl _ _
    | with_reducible apply State.clockMode_keeps (hw := Field.sub_trans (by decide) hw)
    | with_reducible refine keeps_ite ?_ ?_
    | with_reducible refine keeps_ite_fst ?_ ?_
    | intro _
    | dsimp only
    | split

theorem execTbFreqWrite_keeps {s : State} (v : Word) : ∃ nx, execTbFreqWrite v s = .next nx ∧ s.Keeps [.regs, .ev] nx := by
  have hw : Field.sub [.regs, .ev] [.regs, .ev] = true := by decide
  refine ⟨_, rfl, ?_⟩
  have hk := State.Keeps.refl [.regs, .ev] s
  repeat' first
    | with_reducible assumption
    | with_reducible exact State.Keeps.refl _ _
    | with_reducible apply State.tbFreqWrite_keeps (hw := Field.sub_trans (by decide) hw)
    | with_reducible refine keeps_ite ?_ ?_
    | with_reducible refine keeps_ite_fst ?_ ?_
    | intro _
    | dsimp only
    | split

theorem execTbStep_keeps {s : State} (v : Word) : ∃ nx, execTbStep v s = .next nx ∧ s.Keeps [.regs, .ev, .clk] nx := by
  have hw : Field.sub [.regs, .ev, .clk] [.regs, .ev, .clk] = true := by decide
  refine ⟨_, rfl, ?_⟩
  have hk := State.Keeps.refl [.regs, .ev, .clk] s
  repeat' first
    | with_reducible assumption
    | with_reducible exact State.Keeps.refl _ _
    | with_reducible apply State.tbStep_keeps (hw := Field.sub_trans (by decide) hw)
    | with_reducible refine keeps_ite ?_ ?_
    | with_reducible refine keeps_ite_fst ?_ ?_
    | intro _
    | dsimp only
    | split

theorem execTbSet_keeps {s : State} (v : Word) : ∃ nx, execTbSet v s = .next nx ∧ s.Keeps [.regs, .ev, .clk] nx := by
  have hw : Field.sub [.regs, .ev, .clk] [.regs, .ev, .clk] = true := by decide
  refine ⟨_, rfl, ?_⟩
  have hk := State.Keeps.refl [.regs, .ev, .clk] s
  repeat' first
    | with_reducible assumption
    | with_reducible exact State.Keeps.refl _ _
    | with_reducible apply State.tbSet_keeps (hw := Field.sub_trans (by decide) hw)
    | with_reducible refine keeps_ite ?_ ?_
    | with_reducible refine keeps_ite_fst ?_ ?_
    | intro _
    | dsimp only
    | split

theorem execPllRelock_keeps {s : State} (h : HallIx) (x : Fin 10) : ∃ nx, execPllRelock h x s = .next nx ∧ s.Keeps [.regs, .gals, .halls,
    .ev, .clk, .net, .reqs, .seqNext, .free] nx := by
  have hw : Field.sub [.regs, .gals, .halls, .ev, .clk, .net, .reqs, .seqNext, .free] [.regs, .gals, .halls, .ev, .clk, .net, .reqs,
    .seqNext, .free] = true := by decide
  refine ⟨_, rfl, ?_⟩
  have hk := State.Keeps.refl [.regs, .gals, .halls, .ev, .clk, .net, .reqs, .seqNext, .free] s
  repeat' first
    | with_reducible assumption
    | with_reducible exact State.Keeps.refl _ _
    | with_reducible apply State.pllRelock_keeps (hw := Field.sub_trans (by decide) hw)
    | with_reducible refine keeps_ite ?_ ?_
    | with_reducible refine keeps_ite_fst ?_ ?_
    | intro _
    | dsimp only
    | split

theorem execClockBorderRelease_keeps {s : State} (G : GalIx) : ∃ nx, execClockBorderRelease G s = .next nx ∧ s.Keeps [.regs, .gals,
    .halls, .ev, .net, .reqs, .seqNext, .free] nx := by
  have hw : Field.sub [.regs, .gals, .halls, .ev, .net, .reqs, .seqNext, .free] [.regs, .gals, .halls, .ev, .net, .reqs, .seqNext, .free]
    = true := by decide
  refine ⟨_, rfl, ?_⟩
  have hk := State.Keeps.refl [.regs, .gals, .halls, .ev, .net, .reqs, .seqNext, .free] s
  repeat' first
    | with_reducible assumption
    | with_reducible exact State.Keeps.refl _ _
    | with_reducible apply State.clockBorder_keeps (hw := Field.sub_trans (by decide) hw)
    | with_reducible refine keeps_ite ?_ ?_
    | with_reducible refine keeps_ite_fst ?_ ?_
    | intro _
    | dsimp only
    | split

end Sys2Proof.Machine
end

