-- ==== Sys2Proof/Laws/KeepsPower.lean ====
section
/-!
SUPPORT. Laws/KeepsPower.lean: the operations of Machine/Power.lean keep State.Keeps.
-/
namespace Sys2Proof.Machine
open Sys2Proof

theorem State.askAgain_keeps {W : List Field} {s₀ s : State} (hk : s₀.Keeps W s) (hw : Field.sub [.regs, .gals, .ev, .adm, .dom, .pwrCmd,
    .boot, .bist] W = true) : s₀.Keeps W (State.askAgain s) := by
  unfold State.askAgain
  repeat' first
    | with_reducible assumption
    | with_reducible exact State.Keeps.refl _ _
    | with_reducible apply State.admRequest_keeps (hw := Field.sub_trans (by decide) hw)
    | with_reducible refine keeps_ite ?_ ?_
    | with_reducible refine keeps_ite_fst ?_ ?_
    | with_reducible refine keeps_foldl _ _ ?_ ?_
    | with_reducible refine keeps_foldl_fst _ _ ?_ ?_
    | intro _
    | dsimp only
    | simp (disch := first | assumption | (with_unfolding_all (intro (x : Field) hx; cases x <;>
        first | exact absurd hx (by decide) | (dsimp only [Field.same]; done) | (dsimp only [Field.same]; exact ⟨rfl, rfl⟩)))) only [keeps_mk hw]
    | simp (disch := first | assumption | (with_unfolding_all (intro (x : Field) hx; cases x <;>
        first | exact absurd hx (by decide) | (dsimp only [Field.same]; done) | (dsimp only [Field.same]; exact ⟨rfl, rfl⟩)))) only [keeps_mk_adm hw]
    | split

theorem State.ledgerWrite_keeps {W : List Field} {s₀ s : State} (hk : s₀.Keeps W s) (hw : Field.sub [.regs] W = true) (hall : Option Nat)
    (v : Word) : s₀.Keeps W (State.ledgerWrite s hall v) := by
  unfold State.ledgerWrite
  repeat' first
    | with_reducible assumption
    | with_reducible exact State.Keeps.refl _ _
    | with_reducible apply State.writeFields_keeps (hw := Field.sub_trans (by decide) hw)
    | with_reducible refine keeps_ite ?_ ?_
    | with_reducible refine keeps_ite_fst ?_ ?_
    | intro _
    | dsimp only
    | split

theorem State.waitPower_keeps {W : List Field} {s₀ s : State} (hk : s₀.Keeps W s) (hw : Field.sub [.regs, .gals, .ev, .adm, .dom,
    .pwrCmd, .boot, .bist] W = true) (h : Nat) (d : Nat) (byCmd : Bool) : s₀.Keeps W (State.waitPower s h d byCmd) := by
  unfold State.waitPower
  repeat' first
    | with_reducible assumption
    | with_reducible exact State.Keeps.refl _ _
    | with_reducible apply State.setChange_keeps (hw := Field.sub_trans (by decide) hw)
    | with_reducible apply State.setDom_keeps (hw := Field.sub_trans (by decide) hw)
    | with_reducible apply State.admRequest_keeps (hw := Field.sub_trans (by decide) hw)
    | with_reducible refine keeps_ite ?_ ?_
    | with_reducible refine keeps_ite_fst ?_ ?_
    | intro _
    | dsimp only
    | split

theorem State.startUp_keeps {W : List Field} {s₀ s : State} (hk : s₀.Keeps W s) (hw : Field.sub [.regs, .gals, .ev, .adm, .dom, .pwrCmd,
    .boot, .bist] W = true) (h : Nat) (d : Nat) (byCmd : Bool) : s₀.Keeps W (State.startUp s h d byCmd) := by
  unfold State.startUp
  repeat' first
    | with_reducible assumption
    | with_reducible exact State.Keeps.refl _ _
    | with_reducible apply State.setChange_keeps (hw := Field.sub_trans (by decide) hw)
    | with_reducible apply State.setDom_keeps (hw := Field.sub_trans (by decide) hw)
    | with_reducible apply State.waitPower_keeps (hw := Field.sub_trans (by decide) hw)
    | with_reducible refine keeps_ite ?_ ?_
    | with_reducible refine keeps_ite_fst ?_ ?_
    | intro _
    | dsimp only
    | split

theorem State.wakeUp_keeps {W : List Field} {s₀ s : State} (hk : s₀.Keeps W s) (hw : Field.sub [.regs, .gals, .ev, .adm, .dom, .pwrCmd,
    .boot, .bist] W = true) (h : Nat) (d : Nat) : s₀.Keeps W (State.wakeUp s h d) := by
  unfold State.wakeUp
  repeat' first
    | with_reducible assumption
    | with_reducible exact State.Keeps.refl _ _
    | with_reducible apply State.startUp_keeps (hw := Field.sub_trans (by decide) hw)
    | with_reducible apply State.setChange_keeps (hw := Field.sub_trans (by decide) hw)
    | with_reducible refine keeps_ite ?_ ?_
    | with_reducible refine keeps_ite_fst ?_ ?_
    | intro _
    | dsimp only
    | split

theorem State.withdrawWake_keeps {W : List Field} {s₀ s : State} (hk : s₀.Keeps W s) (hw : Field.sub [.regs, .adm, .dom] W = true) (h :
    Nat) (d : Nat) : s₀.Keeps W (State.withdrawWake s h d) := by
  unfold State.withdrawWake
  repeat' first
    | with_reducible assumption
    | with_reducible exact State.Keeps.refl _ _
    | with_reducible apply State.setChange_keeps (hw := Field.sub_trans (by decide) hw)
    | with_reducible apply State.domBack_keeps (hw := Field.sub_trans (by decide) hw)
    | with_reducible apply State.admWithdraw_keeps (hw := Field.sub_trans (by decide) hw)
    | with_reducible refine keeps_ite ?_ ?_
    | with_reducible refine keeps_ite_fst ?_ ?_
    | intro _
    | dsimp only
    | split

theorem State.powerGranted_keeps {W : List Field} {s₀ s : State} (hk : s₀.Keeps W s) (hw : Field.sub [.regs] W = true) (h : Nat) (d :
    Nat) : s₀.Keeps W (State.powerGranted s h d) := by
  unfold State.powerGranted
  repeat' first
    | with_reducible assumption
    | with_reducible exact State.Keeps.refl _ _
    | with_reducible apply State.setDom_keeps (hw := Field.sub_trans (by decide) hw)
    | with_reducible refine keeps_ite ?_ ?_
    | with_reducible refine keeps_ite_fst ?_ ?_
    | intro _
    | dsimp only
    | split

theorem State.deliverSlots_keeps {W : List Field} {s₀ s : State} (hk : s₀.Keeps W s) (hw : Field.sub [.regs, .slots, .net] W = true) (h :
    Nat) (d : Nat) : s₀.Keeps W (State.deliverSlots s h d) := by
  unfold State.deliverSlots
  repeat' first
    | with_reducible assumption
    | with_reducible exact State.Keeps.refl _ _
    | with_reducible apply State.incFld_keeps (hw := Field.sub_trans (by decide) hw)
    | with_reducible refine keeps_ite ?_ ?_
    | with_reducible refine keeps_ite_fst ?_ ?_
    | with_reducible refine keeps_foldl _ _ ?_ ?_
    | with_reducible refine keeps_foldl_fst _ _ ?_ ?_
    | intro _
    | dsimp only
    | simp (disch := first | assumption | (with_unfolding_all (intro (x : Field) hx; cases x <;>
        first | exact absurd hx (by decide) | (dsimp only [Field.same]; done) | (dsimp only [Field.same]; exact ⟨rfl, rfl⟩)))) only [keeps_mk hw]
    | split

theorem State.domainOn_keeps {W : List Field} {s₀ s : State} (hk : s₀.Keeps W s) (hw : Field.sub [.regs, .gals, .halls, .ev, .adm, .clk,
    .dom, .pwrCmd, .boot, .bist, .net, .reqs, .seqNext, .free] W = true) (h : Nat) (d : Nat) : s₀.Keeps W (State.domainOn s h d) := by
  unfold State.domainOn
  repeat' first
    | with_reducible assumption
    | with_reducible exact State.Keeps.refl _ _
    | with_reducible apply State.branchesUpdate_keeps (hw := Field.sub_trans (by decide) hw)
    | with_reducible apply State.addServersIf_keeps (hw := Field.sub_trans (by decide) hw)
    | with_reducible apply State.admRequest_keeps (hw := Field.sub_trans (by decide) hw)
    | with_reducible apply State.setChange_keeps (hw := Field.sub_trans (by decide) hw)
    | with_reducible apply State.laneOn_keeps (hw := Field.sub_trans (by decide) hw)
    | with_reducible apply State.gwkRestart_keeps (hw := Field.sub_trans (by decide) hw)
    | with_reducible apply State.srEnd_keeps (hw := Field.sub_trans (by decide) hw)
    | with_reducible refine keeps_ite ?_ ?_
    | with_reducible refine keeps_ite_fst ?_ ?_
    | with_reducible refine keeps_foldl _ _ ?_ ?_
    | with_reducible refine keeps_foldl_fst _ _ ?_ ?_
    | intro _
    | dsimp only
    | split

theorem State.powerUpDone_keeps {W : List Field} {s₀ s : State} (hk : s₀.Keeps W s) (hw : Field.sub [.regs, .gals, .halls, .ev, .adm,
    .clk, .dom, .pwrCmd, .slots, .boot, .bist, .net, .reqs, .seqNext, .free] W = true) (h : Nat) (d : Nat) : s₀.Keeps W
    (State.powerUpDone s h d) := by
  unfold State.powerUpDone
  repeat' first
    | with_reducible assumption
    | with_reducible exact State.Keeps.refl _ _
    | with_reducible apply State.domainOn_keeps (hw := Field.sub_trans (by decide) hw)
    | with_reducible apply State.endChange_keeps (hw := Field.sub_trans (by decide) hw)
    | with_reducible apply State.setDom_keeps (hw := Field.sub_trans (by decide) hw)
    | with_reducible apply State.deliverSlots_keeps (hw := Field.sub_trans (by decide) hw)
    | with_reducible apply State.pwrResult_keeps (hw := Field.sub_trans (by decide) hw)
    | with_reducible refine keeps_ite ?_ ?_
    | with_reducible refine keeps_ite_fst ?_ ?_
    | intro _
    | dsimp only
    | split

theorem State.memQuiesce_keeps {W : List Field} {s₀ s : State} (hk : s₀.Keeps W s) (hw : Field.sub [.regs, .mem, .gals, .ev, .net, .reqs,
    .seqNext] W = true) (G : Nat) : s₀.Keeps W (State.memQuiesce s G) := by
  unfold State.memQuiesce
  repeat' first
    | with_reducible assumption
    | with_reducible exact State.Keeps.refl _ _
    | with_reducible apply State.prismPerform_keeps (hw := Field.sub_trans (by decide) hw)
    | with_reducible apply State.setPrismQ_keeps (hw := Field.sub_trans (by decide) hw)
    | with_reducible apply State.testRestored_keeps (hw := Field.sub_trans (by decide) hw)
    | with_reducible refine keeps_ite ?_ ?_
    | with_reducible refine keeps_ite_fst ?_ ?_
    | with_reducible refine keeps_foldl _ _ ?_ ?_
    | with_reducible refine keeps_foldl_fst _ _ ?_ ?_
    | intro _
    | dsimp only
    | split

theorem State.queuesOff_keeps {W : List Field} {s₀ s : State} (hk : s₀.Keeps W s) (hw : Field.sub [.regs, .gals] W = true) (G : Nat) :
    s₀.Keeps W (State.queuesOff s G) := by
  unfold State.queuesOff
  repeat' first
    | with_reducible assumption
    | with_reducible exact State.Keeps.refl _ _
    | with_reducible apply State.clrReg_keeps (hw := Field.sub_trans (by decide) hw)
    | with_reducible apply State.qDiscard_keeps (hw := Field.sub_trans (by decide) hw)
    | with_reducible apply State.setFld_keeps (hw := Field.sub_trans (by decide) hw)
    | with_reducible apply State.modGal_keeps (hw := Field.sub_trans (by decide) hw)
    | with_reducible refine keeps_ite ?_ ?_
    | with_reducible refine keeps_ite_fst ?_ ?_
    | with_reducible refine keeps_foldl _ _ ?_ ?_
    | with_reducible refine keeps_foldl_fst _ _ ?_ ?_
    | intro _
    | dsimp only
    | split

theorem State.memLost_keeps {W : List Field} {s₀ s : State} (hk : s₀.Keeps W s) (hw : Field.sub [.regs, .mem, .gals] W = true) (G : Nat)
    : s₀.Keeps W (State.memLost s G) := by
  unfold State.memLost
  repeat' first
    | with_reducible assumption
    | with_reducible exact State.Keeps.refl _ _
    | with_reducible apply State.queuesOff_keeps (hw := Field.sub_trans (by decide) hw)
    | with_reducible apply State.loseMem_keeps (hw := Field.sub_trans (by decide) hw)
    | with_reducible apply State.modGal_keeps (hw := Field.sub_trans (by decide) hw)
    | with_reducible refine keeps_ite ?_ ?_
    | with_reducible refine keeps_ite_fst ?_ ?_
    | intro _
    | dsimp only
    | split

theorem State.galleryOff_keeps {W : List Field} {s₀ s : State} (hk : s₀.Keeps W s) (hw : Field.sub [.regs, .gals, .halls, .ev, .net,
    .reqs, .seqNext, .free] W = true) (G : Nat) : s₀.Keeps W (State.galleryOff s G) := by
  unfold State.galleryOff
  repeat' first
    | with_reducible assumption
    | with_reducible exact State.Keeps.refl _ _
    | with_reducible apply State.emptyPlane_keeps (hw := Field.sub_trans (by decide) hw)
    | with_reducible apply State.setFld_keeps (hw := Field.sub_trans (by decide) hw)
    | with_reducible apply State.modGal_keeps (hw := Field.sub_trans (by decide) hw)
    | with_reducible apply State.branchesUpdate_keeps (hw := Field.sub_trans (by decide) hw)
    | with_reducible refine keeps_ite ?_ ?_
    | with_reducible refine keeps_ite_fst ?_ ?_
    | with_reducible refine keeps_foldl _ _ ?_ ?_
    | with_reducible refine keeps_foldl_fst _ _ ?_ ?_
    | intro _
    | dsimp only
    | split

theorem State.releasePower_keeps {W : List Field} {s₀ s : State} (hk : s₀.Keeps W s) (hw : Field.sub [.adm] W = true) (h : Nat) (d : Nat)
    : s₀.Keeps W (State.releasePower s h d) := by
  unfold State.releasePower
  repeat' first
    | with_reducible assumption
    | with_reducible exact State.Keeps.refl _ _
    | with_reducible refine keeps_ite ?_ ?_
    | with_reducible refine keeps_ite_fst ?_ ?_
    | intro _
    | dsimp only
    | simp (disch := first | assumption | (with_unfolding_all (intro (x : Field) hx; cases x <;>
        first | exact absurd hx (by decide) | (dsimp only [Field.same]; done) | (dsimp only [Field.same]; exact ⟨rfl, rfl⟩)))) only [keeps_mk hw]
    | simp (disch := first | assumption | (with_unfolding_all (intro (x : Field) hx; cases x <;>
        first | exact absurd hx (by decide) | (dsimp only [Field.same]; done) | (dsimp only [Field.same]; exact ⟨rfl, rfl⟩)))) only [keeps_mk_adm hw]
    | split

theorem State.beginDown_keeps {W : List Field} {s₀ s : State} (hk : s₀.Keeps W s) (hw : Field.sub [.regs, .mem, .gals, .halls, .ev, .adm,
    .clk, .dom, .net, .reqs, .seqNext, .free] W = true) (h : Nat) (d : Nat) (target : Nat) : s₀.Keeps W (State.beginDown s h d target) :=
    by
  unfold State.beginDown
  repeat' first
    | with_reducible assumption
    | with_reducible exact State.Keeps.refl _ _
    | with_reducible apply State.memQuiesce_keeps (hw := Field.sub_trans (by decide) hw)
    | with_reducible apply State.releasePower_keeps (hw := Field.sub_trans (by decide) hw)
    | with_reducible apply State.setChange_keeps (hw := Field.sub_trans (by decide) hw)
    | with_reducible apply State.setDom_keeps (hw := Field.sub_trans (by decide) hw)
    | with_reducible apply State.branchesUpdate_keeps (hw := Field.sub_trans (by decide) hw)
    | with_reducible apply State.laneOff_keeps (hw := Field.sub_trans (by decide) hw)
    | with_reducible apply State.srBegin_keeps (hw := Field.sub_trans (by decide) hw)
    | with_reducible refine keeps_ite ?_ ?_
    | with_reducible refine keeps_ite_fst ?_ ?_
    | with_reducible refine keeps_foldl _ _ ?_ ?_
    | with_reducible refine keeps_foldl_fst _ _ ?_ ?_
    | intro _
    | dsimp only
    | split

theorem State.pwrGoOn_keeps {W : List Field} {s₀ s : State} (hk : s₀.Keeps W s) (hw : Field.sub [.regs, .mem, .gals, .halls, .ev, .adm,
    .clk, .dom, .pwrCmd, .net, .reqs, .seqNext, .free] W = true) : s₀.Keeps W (State.pwrGoOn s) := by
  unfold State.pwrGoOn
  repeat' first
    | with_reducible assumption
    | with_reducible exact State.Keeps.refl _ _
    | with_reducible apply State.beginDown_keeps (hw := Field.sub_trans (by decide) hw)
    | with_reducible refine keeps_ite ?_ ?_
    | with_reducible refine keeps_ite_fst ?_ ?_
    | intro _
    | dsimp only
    | simp (disch := first | assumption | (with_unfolding_all (intro (x : Field) hx; cases x <;>
        first | exact absurd hx (by decide) | (dsimp only [Field.same]; done) | (dsimp only [Field.same]; exact ⟨rfl, rfl⟩)))) only [keeps_mk hw]
    | split

theorem State.commandDown_keeps {W : List Field} {s₀ s : State} (hk : s₀.Keeps W s) (hw : Field.sub [.regs, .mem, .gals, .halls, .ev,
    .adm, .clk, .dom, .pwrCmd, .net, .reqs, .seqNext, .free] W = true) (h : Nat) (d : Nat) (target : Nat) : s₀.Keeps W (State.commandDown
    s h d target) := by
  unfold State.commandDown
  repeat' first
    | with_reducible assumption
    | with_reducible exact State.Keeps.refl _ _
    | with_reducible apply State.removeServers_keeps (hw := Field.sub_trans (by decide) hw)
    | with_reducible apply State.pwrGoOn_keeps (hw := Field.sub_trans (by decide) hw)
    | with_reducible apply State.beginDown_keeps (hw := Field.sub_trans (by decide) hw)
    | with_reducible refine keeps_ite ?_ ?_
    | with_reducible refine keeps_ite_fst ?_ ?_
    | intro _
    | dsimp only
    | simp (disch := first | assumption | (with_unfolding_all (intro (x : Field) hx; cases x <;>
        first | exact absurd hx (by decide) | (dsimp only [Field.same]; done) | (dsimp only [Field.same]; exact ⟨rfl, rfl⟩)))) only [keeps_mk hw]
    | split

theorem State.pwrRefuse_keeps {W : List Field} {s₀ s : State} (hk : s₀.Keeps W s) (hw : Field.sub [.regs, .ev, .pwrCmd] W = true) (h :
    Nat) (d : Nat) (r : Nat) : s₀.Keeps W (State.pwrRefuse s h d r) := by
  unfold State.pwrRefuse
  repeat' first
    | with_reducible assumption
    | with_reducible exact State.Keeps.refl _ _
    | with_reducible apply State.post_keeps (hw := Field.sub_trans (by decide) hw)
    | with_reducible apply State.pwrResult_keeps (hw := Field.sub_trans (by decide) hw)
    | with_reducible refine keeps_ite ?_ ?_
    | with_reducible refine keeps_ite_fst ?_ ?_
    | intro _
    | dsimp only
    | split

theorem State.pwrCommand_keeps {W : List Field} {s₀ s : State} (hk : s₀.Keeps W s) (hw : Field.sub [.regs, .mem, .gals, .halls, .ev,
    .adm, .clk, .dom, .pwrCmd, .boot, .bist, .net, .reqs, .seqNext, .free] W = true) (h : Nat) (d : Nat) (target : Nat) : s₀.Keeps W
    (State.pwrCommand s h d target) := by
  unfold State.pwrCommand
  repeat' first
    | with_reducible assumption
    | with_reducible exact State.Keeps.refl _ _
    | with_reducible apply State.pwrRefuse_keeps (hw := Field.sub_trans (by decide) hw)
    | with_reducible apply State.pwrResult_keeps (hw := Field.sub_trans (by decide) hw)
    | with_reducible apply State.startUp_keeps (hw := Field.sub_trans (by decide) hw)
    | with_reducible apply State.setFld_keeps (hw := Field.sub_trans (by decide) hw)
    | with_reducible apply State.commandDown_keeps (hw := Field.sub_trans (by decide) hw)
    | with_reducible refine keeps_ite ?_ ?_
    | with_reducible refine keeps_ite_fst ?_ ?_
    | intro _
    | dsimp only
    | simp (disch := first | assumption | (with_unfolding_all (intro (x : Field) hx; cases x <;>
        first | exact absurd hx (by decide) | (dsimp only [Field.same]; done) | (dsimp only [Field.same]; exact ⟨rfl, rfl⟩)))) only [keeps_mk hw]
    | split

theorem State.pwrCmdWrite_keeps {W : List Field} {s₀ s : State} (hk : s₀.Keeps W s) (hw : Field.sub [.regs, .mem, .gals, .halls, .ev,
    .adm, .clk, .dom, .pwrCmd, .boot, .bist, .net, .reqs, .seqNext, .free] W = true) (v : Word) : s₀.Keeps W (State.pwrCmdWrite s v) := by
  unfold State.pwrCmdWrite
  repeat' first
    | with_reducible assumption
    | with_reducible exact State.Keeps.refl _ _
    | with_reducible apply State.pwrCommand_keeps (hw := Field.sub_trans (by decide) hw)
    | with_reducible refine keeps_ite ?_ ?_
    | with_reducible refine keeps_ite_fst ?_ ?_
    | intro _
    | dsimp only
    | split

theorem State.domainDown_keeps {W : List Field} {s₀ s : State} (hk : s₀.Keeps W s) (hw : Field.sub [.regs, .mem, .gals, .halls, .ev,
    .net, .reqs, .seqNext, .free] W = true) (h : Nat) (d : Nat) (target : Nat) : s₀.Keeps W (State.domainDown s h d target) := by
  unfold State.domainDown
  repeat' first
    | with_reducible assumption
    | with_reducible exact State.Keeps.refl _ _
    | with_reducible apply State.galleryOff_keeps (hw := Field.sub_trans (by decide) hw)
    | with_reducible apply State.memLost_keeps (hw := Field.sub_trans (by decide) hw)
    | with_reducible apply State.ethOff_keeps (hw := Field.sub_trans (by decide) hw)
    | with_reducible refine keeps_ite ?_ ?_
    | with_reducible refine keeps_ite_fst ?_ ?_
    | with_reducible refine keeps_foldl _ _ ?_ ?_
    | with_reducible refine keeps_foldl_fst _ _ ?_ ?_
    | intro _
    | dsimp only
    | split

theorem State.powerDownDone_keeps {W : List Field} {s₀ s : State} (hk : s₀.Keeps W s) (hw : Field.sub [.regs, .mem, .gals, .halls, .ev,
    .adm, .dom, .pwrCmd, .boot, .bist, .net, .reqs, .seqNext, .free] W = true) (h : Nat) (d : Nat) : s₀.Keeps W (State.powerDownDone s h
    d) := by
  unfold State.powerDownDone
  repeat' first
    | with_reducible assumption
    | with_reducible exact State.Keeps.refl _ _
    | with_reducible apply State.domainDown_keeps (hw := Field.sub_trans (by decide) hw)
    | with_reducible apply State.endChange_keeps (hw := Field.sub_trans (by decide) hw)
    | with_reducible apply State.setDom_keeps (hw := Field.sub_trans (by decide) hw)
    | with_reducible apply State.pwrResult_keeps (hw := Field.sub_trans (by decide) hw)
    | with_reducible apply State.startUp_keeps (hw := Field.sub_trans (by decide) hw)
    | with_reducible refine keeps_ite ?_ ?_
    | with_reducible refine keeps_ite_fst ?_ ?_
    | intro _
    | dsimp only
    | split

theorem State.forceDom_keeps {W : List Field} {s₀ s : State} (hk : s₀.Keeps W s) (hw : Field.sub [.regs, .dom] W = true) (h : Nat) (d :
    Nat) (st : Nat) : s₀.Keeps W (State.forceDom s h d st) := by
  unfold State.forceDom
  repeat' first
    | with_reducible assumption
    | with_reducible exact State.Keeps.refl _ _
    | with_reducible apply State.endChange_keeps (hw := Field.sub_trans (by decide) hw)
    | with_reducible apply State.setDom_keeps (hw := Field.sub_trans (by decide) hw)
    | with_reducible refine keeps_ite ?_ ?_
    | with_reducible refine keeps_ite_fst ?_ ?_
    | intro _
    | dsimp only
    | split

theorem execPwrCmdOn_keeps {s : State} (h : HallIx) (d : Fin 128) : ∃ nx, execPwrCmdOn h d s = .next nx ∧ s.Keeps [.regs, .mem, .gals,
    .halls, .ev, .adm, .clk, .dom, .pwrCmd, .boot, .bist, .net, .reqs, .seqNext, .free] nx := by
  have hw : Field.sub [.regs, .mem, .gals, .halls, .ev, .adm, .clk, .dom, .pwrCmd, .boot, .bist, .net, .reqs, .seqNext, .free] [.regs,
    .mem, .gals, .halls, .ev, .adm, .clk, .dom, .pwrCmd, .boot, .bist, .net, .reqs, .seqNext, .free] = true := by decide
  refine ⟨_, rfl, ?_⟩
  have hk := State.Keeps.refl [.regs, .mem, .gals, .halls, .ev, .adm, .clk, .dom, .pwrCmd, .boot, .bist, .net, .reqs, .seqNext, .free] s
  repeat' first
    | with_reducible assumption
    | with_reducible exact State.Keeps.refl _ _
    | with_reducible apply State.pwrCommand_keeps (hw := Field.sub_trans (by decide) hw)
    | with_reducible refine keeps_ite ?_ ?_
    | with_reducible refine keeps_ite_fst ?_ ?_
    | intro _
    | dsimp only
    | split

theorem execPwrCmdOff_keeps {s : State} (h : HallIx) (d : Fin 128) : ∃ nx, execPwrCmdOff h d s = .next nx ∧ s.Keeps [.regs, .mem, .gals,
    .halls, .ev, .adm, .clk, .dom, .pwrCmd, .boot, .bist, .net, .reqs, .seqNext, .free] nx := by
  have hw : Field.sub [.regs, .mem, .gals, .halls, .ev, .adm, .clk, .dom, .pwrCmd, .boot, .bist, .net, .reqs, .seqNext, .free] [.regs,
    .mem, .gals, .halls, .ev, .adm, .clk, .dom, .pwrCmd, .boot, .bist, .net, .reqs, .seqNext, .free] = true := by decide
  refine ⟨_, rfl, ?_⟩
  have hk := State.Keeps.refl [.regs, .mem, .gals, .halls, .ev, .adm, .clk, .dom, .pwrCmd, .boot, .bist, .net, .reqs, .seqNext, .free] s
  repeat' first
    | with_reducible assumption
    | with_reducible exact State.Keeps.refl _ _
    | with_reducible apply State.pwrCommand_keeps (hw := Field.sub_trans (by decide) hw)
    | with_reducible refine keeps_ite ?_ ?_
    | with_reducible refine keeps_ite_fst ?_ ?_
    | intro _
    | dsimp only
    | split

theorem execPwrCmdRetention_keeps {s : State} (h : HallIx) (d : Fin 128) : ∃ nx, execPwrCmdRetention h d s = .next nx ∧ s.Keeps [.regs,
    .mem, .gals, .halls, .ev, .adm, .clk, .dom, .pwrCmd, .boot, .bist, .net, .reqs, .seqNext, .free] nx := by
  have hw : Field.sub [.regs, .mem, .gals, .halls, .ev, .adm, .clk, .dom, .pwrCmd, .boot, .bist, .net, .reqs, .seqNext, .free] [.regs,
    .mem, .gals, .halls, .ev, .adm, .clk, .dom, .pwrCmd, .boot, .bist, .net, .reqs, .seqNext, .free] = true := by decide
  refine ⟨_, rfl, ?_⟩
  have hk := State.Keeps.refl [.regs, .mem, .gals, .halls, .ev, .adm, .clk, .dom, .pwrCmd, .boot, .bist, .net, .reqs, .seqNext, .free] s
  repeat' first
    | with_reducible assumption
    | with_reducible exact State.Keeps.refl _ _
    | with_reducible apply State.pwrCommand_keeps (hw := Field.sub_trans (by decide) hw)
    | with_reducible refine keeps_ite ?_ ?_
    | with_reducible refine keeps_ite_fst ?_ ?_
    | intro _
    | dsimp only
    | split

theorem execDomainPowerUpDone_keeps {s : State} (h : HallIx) (d : Fin 72) : ∃ nx, execDomainPowerUpDone h d s = .next nx ∧ s.Keeps
    [.regs, .gals, .halls, .ev, .adm, .clk, .dom, .pwrCmd, .slots, .boot, .bist, .net, .reqs, .seqNext, .free] nx := by
  have hw : Field.sub [.regs, .gals, .halls, .ev, .adm, .clk, .dom, .pwrCmd, .slots, .boot, .bist, .net, .reqs, .seqNext, .free] [.regs,
    .gals, .halls, .ev, .adm, .clk, .dom, .pwrCmd, .slots, .boot, .bist, .net, .reqs, .seqNext, .free] = true := by decide
  refine ⟨_, rfl, ?_⟩
  have hk := State.Keeps.refl [.regs, .gals, .halls, .ev, .adm, .clk, .dom, .pwrCmd, .slots, .boot, .bist, .net, .reqs, .seqNext, .free] s
  repeat' first
    | with_reducible assumption
    | with_reducible exact State.Keeps.refl _ _
    | with_reducible apply State.powerUpDone_keeps (hw := Field.sub_trans (by decide) hw)
    | with_reducible refine keeps_ite ?_ ?_
    | with_reducible refine keeps_ite_fst ?_ ?_
    | intro _
    | dsimp only
    | split

theorem execDomainPowerDownDone_keeps {s : State} (h : HallIx) (d : Fin 72) : ∃ nx, execDomainPowerDownDone h d s = .next nx ∧ s.Keeps
    [.regs, .mem, .gals, .halls, .ev, .adm, .dom, .pwrCmd, .boot, .bist, .net, .reqs, .seqNext, .free] nx := by
  have hw : Field.sub [.regs, .mem, .gals, .halls, .ev, .adm, .dom, .pwrCmd, .boot, .bist, .net, .reqs, .seqNext, .free] [.regs, .mem,
    .gals, .halls, .ev, .adm, .dom, .pwrCmd, .boot, .bist, .net, .reqs, .seqNext, .free] = true := by decide
  refine ⟨_, rfl, ?_⟩
  have hk := State.Keeps.refl [.regs, .mem, .gals, .halls, .ev, .adm, .dom, .pwrCmd, .boot, .bist, .net, .reqs, .seqNext, .free] s
  repeat' first
    | with_reducible assumption
    | with_reducible exact State.Keeps.refl _ _
    | with_reducible apply State.powerDownDone_keeps (hw := Field.sub_trans (by decide) hw)
    | with_reducible refine keeps_ite ?_ ?_
    | with_reducible refine keeps_ite_fst ?_ ?_
    | intro _
    | dsimp only
    | split

theorem execPwrLedgerWrite_keeps {s : State} (hall : Option HallIx) (v : Word) : ∃ nx, execPwrLedgerWrite hall v s = .next nx ∧ s.Keeps
    [.regs] nx := by
  have hw : Field.sub [.regs] [.regs] = true := by decide
  refine ⟨_, rfl, ?_⟩
  have hk := State.Keeps.refl [.regs] s
  repeat' first
    | with_reducible assumption
    | with_reducible exact State.Keeps.refl _ _
    | with_reducible apply State.ledgerWrite_keeps (hw := Field.sub_trans (by decide) hw)
    | with_reducible refine keeps_ite ?_ ?_
    | with_reducible refine keeps_ite_fst ?_ ?_
    | intro _
    | dsimp only
    | split

theorem execSrvRemoved_keeps {s : State} (h : HallIx) (g : Fin 32) : ∃ nx, execSrvRemoved h g s = .next nx ∧ s.Keeps [.regs, .mem, .gals,
    .halls, .ev, .adm, .clk, .dom, .pwrCmd, .net, .reqs, .seqNext, .free] nx := by
  have hw : Field.sub [.regs, .mem, .gals, .halls, .ev, .adm, .clk, .dom, .pwrCmd, .net, .reqs, .seqNext, .free] [.regs, .mem, .gals,
    .halls, .ev, .adm, .clk, .dom, .pwrCmd, .net, .reqs, .seqNext, .free] = true := by decide
  refine ⟨_, rfl, ?_⟩
  have hk := State.Keeps.refl [.regs, .mem, .gals, .halls, .ev, .adm, .clk, .dom, .pwrCmd, .net, .reqs, .seqNext, .free] s
  repeat' first
    | with_reducible assumption
    | with_reducible exact State.Keeps.refl _ _
    | with_reducible apply State.pwrGoOn_keeps (hw := Field.sub_trans (by decide) hw)
    | with_reducible apply State.serversRemoved_keeps (hw := Field.sub_trans (by decide) hw)
    | with_reducible refine keeps_ite ?_ ?_
    | with_reducible refine keeps_ite_fst ?_ ?_
    | intro _
    | dsimp only
    | split

end Sys2Proof.Machine
end

