-- ==== Sys2Proof/Laws/KeepsSecurity.lean ====
section
/-!
SUPPORT. Laws/KeepsSecurity.lean: the operations of Machine/Security.lean keep State.Keeps.
-/
namespace Sys2Proof.Machine
open Sys2Proof

theorem State.fabricStop_keeps {W : List Field} {s₀ s : State} (hk : s₀.Keeps W s) (hw : Field.sub [.regs, .gals, .halls, .ev, .clk,
    .net, .reqs, .seqNext, .free] W = true) : s₀.Keeps W (State.fabricStop s) := by
  unfold State.fabricStop
  repeat' first
    | with_reducible assumption
    | with_reducible exact State.Keeps.refl _ _
    | with_reducible apply State.branchesUpdate_keeps (hw := Field.sub_trans (by decide) hw)
    | with_reducible apply State.modGal_keeps (hw := Field.sub_trans (by decide) hw)
    | with_reducible apply State.holdBorders_keeps (hw := Field.sub_trans (by decide) hw)
    | with_reducible refine keeps_ite ?_ ?_
    | with_reducible refine keeps_ite_fst ?_ ?_
    | with_reducible refine keeps_foldl _ _ ?_ ?_
    | with_reducible refine keeps_foldl_fst _ _ ?_ ?_
    | intro _
    | dsimp only
    | simp (disch := first | assumption | (with_unfolding_all (intro (x : Field) hx; cases x <;>
        first | exact absurd hx (by decide) | (dsimp only [Field.same]; done) | (dsimp only [Field.same]; exact ⟨rfl, rfl⟩)))) only [keeps_mk hw]
    | split

theorem State.noActive_keeps {W : List Field} {s₀ s : State} (hk : s₀.Keeps W s) (hw : Field.sub [.regs, .net, .reqs, .seqNext] W = true)
    : s₀.Keeps W (State.noActive s) := by
  unfold State.noActive
  repeat' first
    | with_reducible assumption
    | with_reducible exact State.Keeps.refl _ _
    | with_reducible apply State.reportPlane_keeps (hw := Field.sub_trans (by decide) hw)
    | with_reducible apply State.setFld_keeps (hw := Field.sub_trans (by decide) hw)
    | with_reducible apply State.setPlaneState_keeps (hw := Field.sub_trans (by decide) hw)
    | with_reducible refine keeps_ite ?_ ?_
    | with_reducible refine keeps_ite_fst ?_ ?_
    | with_reducible refine keeps_foldl _ _ ?_ ?_
    | with_reducible refine keeps_foldl_fst _ _ ?_ ?_
    | intro _
    | dsimp only
    | split

theorem State.copyEnds_keeps {W : List Field} {s₀ s : State} (hk : s₀.Keeps W s) (hw : Field.sub [.regs, .gals, .ev, .adm, .boot, .free]
    W = true) (G : Nat) : s₀.Keeps W (State.copyEnds s G) := by
  unfold State.copyEnds
  repeat' first
    | with_reducible assumption
    | with_reducible exact State.Keeps.refl _ _
    | with_reducible apply State.emptySlot_keeps (hw := Field.sub_trans (by decide) hw)
    | with_reducible apply State.draw_keeps (hw := Field.sub_trans (by decide) hw)
    | with_reducible apply State.modGal_keeps (hw := Field.sub_trans (by decide) hw)
    | with_reducible apply State.slotDone_keeps (hw := Field.sub_trans (by decide) hw)
    | with_reducible apply State.admRelease_keeps (hw := Field.sub_trans (by decide) hw)
    | with_reducible apply State.admWithdraw_keeps (hw := Field.sub_trans (by decide) hw)
    | with_reducible refine keeps_ite ?_ ?_
    | with_reducible refine keeps_ite_fst ?_ ?_
    | intro _
    | dsimp only
    | split

theorem State.importSlot_keeps {W : List Field} {s₀ s : State} (hk : s₀.Keeps W s) (hw : Field.sub [.regs, .gals, .ev, .boot, .free] W =
    true) : s₀.Keeps W (State.importSlot s) := by
  unfold State.importSlot
  repeat' first
    | with_reducible assumption
    | with_reducible exact State.Keeps.refl _ _
    | with_reducible apply State.emptySlot_keeps (hw := Field.sub_trans (by decide) hw)
    | with_reducible apply State.draw_keeps (hw := Field.sub_trans (by decide) hw)
    | with_reducible apply State.post_keeps (hw := Field.sub_trans (by decide) hw)
    | with_reducible apply State.setFld_keeps (hw := Field.sub_trans (by decide) hw)
    | with_reducible refine keeps_ite ?_ ?_
    | with_reducible refine keeps_ite_fst ?_ ?_
    | intro _
    | dsimp only
    | split

theorem State.noLoads_keeps {W : List Field} {s₀ s : State} (hk : s₀.Keeps W s) (hw : Field.sub [.boot] W = true) : s₀.Keeps W
    (State.noLoads s) := by
  unfold State.noLoads
  repeat' first
    | with_reducible assumption
    | with_reducible exact State.Keeps.refl _ _
    | with_reducible refine keeps_ite ?_ ?_
    | with_reducible refine keeps_ite_fst ?_ ?_
    | intro _
    | dsimp only
    | simp (disch := first | assumption | (with_unfolding_all (intro (x : Field) hx; cases x <;>
        first | exact absurd hx (by decide) | (dsimp only [Field.same]; done) | (dsimp only [Field.same]; exact ⟨rfl, rfl⟩)))) only [keeps_mk hw]
    | split

theorem State.loadsEnd_keeps {W : List Field} {s₀ s : State} (hk : s₀.Keeps W s) (hw : Field.sub [.regs, .gals, .ev, .adm, .boot, .free]
    W = true) : s₀.Keeps W (State.loadsEnd s) := by
  unfold State.loadsEnd
  repeat' first
    | with_reducible assumption
    | with_reducible exact State.Keeps.refl _ _
    | with_reducible apply State.noLoads_keeps (hw := Field.sub_trans (by decide) hw)
    | with_reducible apply State.importSlot_keeps (hw := Field.sub_trans (by decide) hw)
    | with_reducible apply State.copyEnds_keeps (hw := Field.sub_trans (by decide) hw)
    | with_reducible apply State.admWithdraw_keeps (hw := Field.sub_trans (by decide) hw)
    | with_reducible apply State.admRelease_keeps (hw := Field.sub_trans (by decide) hw)
    | with_reducible apply State.setFld_keeps (hw := Field.sub_trans (by decide) hw)
    | with_reducible refine keeps_ite ?_ ?_
    | with_reducible refine keeps_ite_fst ?_ ?_
    | with_reducible refine keeps_foldl _ _ ?_ ?_
    | with_reducible refine keeps_foldl_fst _ _ ?_ ?_
    | intro _
    | dsimp only
    | split

theorem State.setBoot_keeps {W : List Field} {s₀ s : State} (hk : s₀.Keeps W s) (hw : Field.sub [.regs] W = true) (st : Nat) : s₀.Keeps W
    (State.setBoot s st) := by
  unfold State.setBoot
  repeat' first
    | with_reducible assumption
    | with_reducible exact State.Keeps.refl _ _
    | with_reducible apply State.setFld_keeps (hw := Field.sub_trans (by decide) hw)
    | with_reducible refine keeps_ite ?_ ?_
    | with_reducible refine keeps_ite_fst ?_ ?_
    | intro _
    | dsimp only
    | split

theorem State.startOver_keeps {W : List Field} {s₀ s : State} (hk : s₀.Keeps W s) (hw : Field.sub [.boot] W = true) : s₀.Keeps W
    (State.startOver s) := by
  unfold State.startOver
  repeat' first
    | with_reducible assumption
    | with_reducible exact State.Keeps.refl _ _
    | with_reducible refine keeps_ite ?_ ?_
    | with_reducible refine keeps_ite_fst ?_ ?_
    | intro _
    | dsimp only
    | simp (disch := first | assumption | (with_unfolding_all (intro (x : Field) hx; cases x <;>
        first | exact absurd hx (by decide) | (dsimp only [Field.same]; done) | (dsimp only [Field.same]; exact ⟨rfl, rfl⟩)))) only [keeps_mk hw]
    | split

theorem State.safeHold_keeps {W : List Field} {s₀ s : State} (hk : s₀.Keeps W s) (hw : Field.sub [.regs, .gals, .halls, .ev, .adm, .clk,
    .boot, .net, .reqs, .seqNext, .free] W = true) (selftest : Bool) : s₀.Keeps W (State.safeHold s selftest) := by
  unfold State.safeHold
  repeat' first
    | with_reducible assumption
    | with_reducible exact State.Keeps.refl _ _
    | with_reducible apply State.startOver_keeps (hw := Field.sub_trans (by decide) hw)
    | with_reducible apply State.setBoot_keeps (hw := Field.sub_trans (by decide) hw)
    | with_reducible apply State.loadsEnd_keeps (hw := Field.sub_trans (by decide) hw)
    | with_reducible apply State.noActive_keeps (hw := Field.sub_trans (by decide) hw)
    | with_reducible apply State.fabricStop_keeps (hw := Field.sub_trans (by decide) hw)
    | with_reducible apply State.postPkg_keeps (hw := Field.sub_trans (by decide) hw)
    | with_reducible refine keeps_ite ?_ ?_
    | with_reducible refine keeps_ite_fst ?_ ?_
    | intro _
    | dsimp only
    | split

theorem State.newChal_keeps {W : List Field} {s₀ s : State} (hk : s₀.Keeps W s) (hw : Field.sub [.regs, .free] W = true) : s₀.Keeps W
    (State.newChal s) := by
  unfold State.newChal
  repeat' first
    | with_reducible assumption
    | with_reducible exact State.Keeps.refl _ _
    | with_reducible apply State.setReg_keeps (hw := Field.sub_trans (by decide) hw)
    | with_reducible apply State.draw_keeps (hw := Field.sub_trans (by decide) hw)
    | with_reducible refine keeps_ite ?_ ?_
    | with_reducible refine keeps_ite_fst ?_ ?_
    | with_reducible refine keeps_foldl _ _ ?_ ?_
    | with_reducible refine keeps_foldl_fst _ _ ?_ ?_
    | intro _
    | dsimp only
    | split

theorem State.extend_keeps {W : List Field} {s₀ s : State} (hk : s₀.Keeps W s) (hw : Field.sub [.sec] W = true) (j : Nat) (x : BitVec
    512) : s₀.Keeps W (State.extend s j x) := by
  unfold State.extend
  repeat' first
    | with_reducible assumption
    | with_reducible exact State.Keeps.refl _ _
    | with_reducible refine keeps_ite ?_ ?_
    | with_reducible refine keeps_ite_fst ?_ ?_
    | intro _
    | dsimp only
    | simp (disch := first | assumption | (with_unfolding_all (intro (x : Field) hx; cases x <;>
        first | exact absurd hx (by decide) | (dsimp only [Field.same]; done) | (dsimp only [Field.same]; exact ⟨rfl, rfl⟩)))) only [keeps_mk hw]
    | split

theorem State.mrExtend_keeps {W : List Field} {s₀ s : State} (hk : s₀.Keeps W s) (hw : Field.sub [.sec] W = true) (w : Writer) (v : Word)
    : s₀.Keeps W (State.mrExtend s w v) := by
  unfold State.mrExtend
  repeat' first
    | with_reducible assumption
    | with_reducible exact State.Keeps.refl _ _
    | with_reducible apply State.extend_keeps (hw := Field.sub_trans (by decide) hw)
    | with_reducible refine keeps_ite ?_ ?_
    | with_reducible refine keeps_ite_fst ?_ ?_
    | intro _
    | dsimp only
    | split

theorem State.setVault_keeps {W : List Field} {s₀ s : State} (hk : s₀.Keeps W s) (hw : Field.sub [.regs] W = true) (st : Nat) : s₀.Keeps
    W (State.setVault s st) := by
  unfold State.setVault
  repeat' first
    | with_reducible assumption
    | with_reducible exact State.Keeps.refl _ _
    | with_reducible apply State.setFld_keeps (hw := Field.sub_trans (by decide) hw)
    | with_reducible refine keeps_ite ?_ ?_
    | with_reducible refine keeps_ite_fst ?_ ?_
    | intro _
    | dsimp only
    | split

theorem State.wipe_keeps {W : List Field} {s₀ s : State} (hk : s₀.Keeps W s) (hw : Field.sub [.regs, .mem, .sec] W = true) (cause : Nat)
    : s₀.Keeps W (State.wipe s cause) := by
  unfold State.wipe
  repeat' first
    | with_reducible assumption
    | with_reducible exact State.Keeps.refl _ _
    | with_reducible apply State.zeroVault_keeps (hw := Field.sub_trans (by decide) hw)
    | with_reducible apply State.setVault_keeps (hw := Field.sub_trans (by decide) hw)
    | with_reducible refine keeps_ite ?_ ?_
    | with_reducible refine keeps_ite_fst ?_ ?_
    | intro _
    | dsimp only
    | simp (disch := first | assumption | (with_unfolding_all (intro (x : Field) hx; cases x <;>
        first | exact absurd hx (by decide) | (dsimp only [Field.same]; done) | (dsimp only [Field.same]; exact ⟨rfl, rfl⟩)))) only [keeps_mk hw]
    | split

theorem State.wipeDone_keeps {W : List Field} {s₀ s : State} (hk : s₀.Keeps W s) (hw : Field.sub [.regs, .mem, .ev, .sec] W = true) (fail
    : Option Nat) : s₀.Keeps W (State.wipeDone s fail) := by
  unfold State.wipeDone
  repeat' first
    | with_reducible assumption
    | with_reducible exact State.Keeps.refl _ _
    | with_reducible apply State.incFld_keeps (hw := Field.sub_trans (by decide) hw)
    | with_reducible apply State.zeroVault_keeps (hw := Field.sub_trans (by decide) hw)
    | with_reducible apply State.postPkg_keeps (hw := Field.sub_trans (by decide) hw)
    | with_reducible apply State.setVault_keeps (hw := Field.sub_trans (by decide) hw)
    | with_reducible refine keeps_ite ?_ ?_
    | with_reducible refine keeps_ite_fst ?_ ?_
    | intro _
    | dsimp only
    | simp (disch := first | assumption | (with_unfolding_all (intro (x : Field) hx; cases x <;>
        first | exact absurd hx (by decide) | (dsimp only [Field.same]; done) | (dsimp only [Field.same]; exact ⟨rfl, rfl⟩)))) only [keeps_mk hw]
    | split

theorem State.vpartWrite_keeps {W : List Field} {s₀ s : State} (hk : s₀.Keeps W s) (hw : Field.sub [.regs, .sec] W = true) (i : Nat) (v :
    Word) : s₀.Keeps W (State.vpartWrite s i v) := by
  unfold State.vpartWrite
  repeat' first
    | with_reducible assumption
    | with_reducible exact State.Keeps.refl _ _
    | with_reducible apply State.setReg_keeps (hw := Field.sub_trans (by decide) hw)
    | with_reducible refine keeps_ite ?_ ?_
    | with_reducible refine keeps_ite_fst ?_ ?_
    | intro _
    | dsimp only
    | simp (disch := first | assumption | (with_unfolding_all (intro (x : Field) hx; cases x <;>
        first | exact absurd hx (by decide) | (dsimp only [Field.same]; done) | (dsimp only [Field.same]; exact ⟨rfl, rfl⟩)))) only [keeps_mk hw]
    | split

theorem State.vpartZeroDone_keeps {W : List Field} {s₀ s : State} (hk : s₀.Keeps W s) (hw : Field.sub [.regs, .mem, .sec] W = true) (i :
    Nat) : s₀.Keeps W (State.vpartZeroDone s i) := by
  unfold State.vpartZeroDone
  repeat' first
    | with_reducible assumption
    | with_reducible exact State.Keeps.refl _ _
    | with_reducible apply State.setReg_keeps (hw := Field.sub_trans (by decide) hw)
    | with_reducible apply State.zeroVault_keeps (hw := Field.sub_trans (by decide) hw)
    | with_reducible refine keeps_ite ?_ ?_
    | with_reducible refine keeps_ite_fst ?_ ?_
    | intro _
    | dsimp only
    | simp (disch := first | assumption | (with_unfolding_all (intro (x : Field) hx; cases x <;>
        first | exact absurd hx (by decide) | (dsimp only [Field.same]; done) | (dsimp only [Field.same]; exact ⟨rfl, rfl⟩)))) only [keeps_mk hw]
    | split

theorem State.vaultRequest_keeps {W : List Field} {s₀ s : State} (hk : s₀.Keeps W s) (hw : Field.sub [.regs, .mem, .ev, .net, .reqs,
    .seqNext] W = true) (p : Packet) (ue : Bool) : s₀.Keeps W (State.vaultRequest s p ue) := by
  unfold State.vaultRequest
  repeat' first
    | with_reducible assumption
    | with_reducible exact State.Keeps.refl _ _
    | with_reducible apply State.respond_keeps (hw := Field.sub_trans (by decide) hw)
    | with_reducible apply State.postLim_keeps (hw := Field.sub_trans (by decide) hw)
    | with_reducible apply State.writeEnabled_keeps (hw := Field.sub_trans (by decide) hw)
    | with_reducible refine keeps_ite ?_ ?_
    | with_reducible refine keeps_ite_fst ?_ ?_
    | intro _
    | dsimp only
    | split

theorem State.attBegin_keeps {W : List Field} {s₀ s : State} (hk : s₀.Keeps W s) (hw : Field.sub [.sec] W = true) : s₀.Keeps W
    (State.attBegin s) := by
  unfold State.attBegin
  repeat' first
    | with_reducible assumption
    | with_reducible exact State.Keeps.refl _ _
    | with_reducible refine keeps_ite ?_ ?_
    | with_reducible refine keeps_ite_fst ?_ ?_
    | intro _
    | dsimp only
    | simp (disch := first | assumption | (with_unfolding_all (intro (x : Field) hx; cases x <;>
        first | exact absurd hx (by decide) | (dsimp only [Field.same]; done) | (dsimp only [Field.same]; exact ⟨rfl, rfl⟩)))) only [keeps_mk hw]
    | split

theorem State.attestStart_keeps {W : List Field} {s₀ s : State} (hk : s₀.Keeps W s) (hw : Field.sub [.regs, .sec] W = true) : s₀.Keeps W
    (State.attestStart s) := by
  unfold State.attestStart
  repeat' first
    | with_reducible assumption
    | with_reducible exact State.Keeps.refl _ _
    | with_reducible apply State.setFld_keeps (hw := Field.sub_trans (by decide) hw)
    | with_reducible apply State.attBegin_keeps (hw := Field.sub_trans (by decide) hw)
    | with_reducible refine keeps_ite ?_ ?_
    | with_reducible refine keeps_ite_fst ?_ ?_
    | intro _
    | dsimp only
    | simp (disch := first | assumption | (with_unfolding_all (intro (x : Field) hx; cases x <;>
        first | exact absurd hx (by decide) | (dsimp only [Field.same]; done) | (dsimp only [Field.same]; exact ⟨rfl, rfl⟩)))) only [keeps_mk hw]
    | split

theorem State.lcRefuse_keeps {W : List Field} {s₀ s : State} (hk : s₀.Keeps W s) (hw : Field.sub [.regs, .ev, .sec, .free] W = true) (op
    : Nat) (r : Nat) : s₀.Keeps W (State.lcRefuse s op r) := by
  unfold State.lcRefuse
  repeat' first
    | with_reducible assumption
    | with_reducible exact State.Keeps.refl _ _
    | with_reducible apply State.setFld_keeps (hw := Field.sub_trans (by decide) hw)
    | with_reducible apply State.postPkg_keeps (hw := Field.sub_trans (by decide) hw)
    | with_reducible apply State.newChal_keeps (hw := Field.sub_trans (by decide) hw)
    | with_reducible refine keeps_ite ?_ ?_
    | with_reducible refine keeps_ite_fst ?_ ?_
    | intro _
    | dsimp only
    | simp (disch := first | assumption | (with_unfolding_all (intro (x : Field) hx; cases x <;>
        first | exact absurd hx (by decide) | (dsimp only [Field.same]; done) | (dsimp only [Field.same]; exact ⟨rfl, rfl⟩)))) only [keeps_mk hw]
    | split

theorem State.lcStart_keeps {W : List Field} {s₀ s : State} (hk : s₀.Keeps W s) (hw : Field.sub [.regs, .mem, .ev, .sec, .free] W = true)
    (v : Word) : s₀.Keeps W (State.lcStart s v) := by
  unfold State.lcStart
  repeat' first
    | with_reducible assumption
    | with_reducible exact State.Keeps.refl _ _
    | with_reducible apply State.setFld_keeps (hw := Field.sub_trans (by decide) hw)
    | with_reducible apply State.lcRefuse_keeps (hw := Field.sub_trans (by decide) hw)
    | with_reducible apply State.wipe_keeps (hw := Field.sub_trans (by decide) hw)
    | with_reducible refine keeps_ite ?_ ?_
    | with_reducible refine keeps_ite_fst ?_ ?_
    | intro _
    | dsimp only
    | simp (disch := first | assumption | (with_unfolding_all (intro (x : Field) hx; cases x <;>
        first | exact absurd hx (by decide) | (dsimp only [Field.same]; done) | (dsimp only [Field.same]; exact ⟨rfl, rfl⟩)))) only [keeps_mk hw]
    | split

theorem State.lcCommand_keeps {W : List Field} {s₀ s : State} (hk : s₀.Keeps W s) (hw : Field.sub [.regs, .mem, .ev, .sec, .free] W =
    true) (v : Word) : s₀.Keeps W (State.lcCommand s v) := by
  unfold State.lcCommand
  repeat' first
    | with_reducible assumption
    | with_reducible exact State.Keeps.refl _ _
    | with_reducible apply State.setFld_keeps (hw := Field.sub_trans (by decide) hw)
    | with_reducible apply State.lcStart_keeps (hw := Field.sub_trans (by decide) hw)
    | with_reducible refine keeps_ite ?_ ?_
    | with_reducible refine keeps_ite_fst ?_ ?_
    | intro _
    | dsimp only
    | simp (disch := first | assumption | (with_unfolding_all (intro (x : Field) hx; cases x <;>
        first | exact absurd hx (by decide) | (dsimp only [Field.same]; done) | (dsimp only [Field.same]; exact ⟨rfl, rfl⟩)))) only [keeps_mk hw]
    | split

theorem State.allRangesOff_keeps {W : List Field} {s₀ s : State} (hk : s₀.Keeps W s) (hw : Field.sub [.regs, .mem, .halls, .ev, .adm,
    .net, .reqs, .seqNext, .free] W = true) : s₀.Keeps W (State.allRangesOff s) := by
  unfold State.allRangesOff
  repeat' first
    | with_reducible assumption
    | with_reducible exact State.Keeps.refl _ _
    | with_reducible apply State.meeDisable_keeps (hw := Field.sub_trans (by decide) hw)
    | with_reducible refine keeps_ite ?_ ?_
    | with_reducible refine keeps_ite_fst ?_ ?_
    | with_reducible refine keeps_foldl _ _ ?_ ?_
    | with_reducible refine keeps_foldl_fst _ _ ?_ ?_
    | intro _
    | dsimp only
    | split

theorem State.keyCommit_keeps {W : List Field} {s₀ s : State} (hk : s₀.Keeps W s) (hw : Field.sub [.otp] W = true)
    (slot : Nat) :
    s₀.Keeps W (State.keyCommit s slot) := by
  unfold State.keyCommit
  dsimp only
  split
  · exact hk
  · rename_i hj
    exact hk.otpTo (Field.mem_of_sub hw (by decide)) _ ((OtpLe.refl _).keyTo slot _ hj)

theorem State.lcCommit_keeps {W : List Field} {s₀ s : State} (hk : s₀.Keeps W s) (hw : Field.sub [.regs, .mem, .gals, .halls, .ev, .adm, .otp, .clk, .boot, .net, .reqs, .seqNext, .free] W = true)
    (v : Word) :
    s₀.Keeps W (State.lcCommit s v) := by
  have ho : W.contains .otp = true := Field.mem_of_sub hw (by decide)
  unfold State.lcCommit
  dsimp only
  refine keeps_ite ?_ (keeps_ite ?_ (keeps_ite ?_ (keeps_ite ?_ (keeps_ite ?_ ?_))))
  · exact State.postPkg_keeps ((State.keyCommit_keeps hk (Field.sub_trans (by decide) hw) 0).otpTo ho _ ((OtpLe.refl _).lcTo 1)) (Field.sub_trans (by decide) hw) _ _
  · exact State.postPkg_keeps (hk.otpTo ho _ ((OtpLe.refl _).lcTo 2)) (Field.sub_trans (by decide) hw) _ _
  · exact State.safeHold_keeps (State.allRangesOff_keeps (State.postPkg_keeps
      (hk.otpTo ho _ (((OtpLe.refl _).lcTo 3).revTo 15)) (Field.sub_trans (by decide) hw) _ _) (Field.sub_trans (by decide) hw)) (Field.sub_trans (by decide) hw) _
  · exact State.postPkg_keeps (State.keyCommit_keeps hk (Field.sub_trans (by decide) hw) _) (Field.sub_trans (by decide) hw) _ _
  · exact State.postPkg_keeps (hk.otpTo ho _ ((OtpLe.refl _).revTo _)) (Field.sub_trans (by decide) hw) _ _
  · exact State.postPkg_keeps (hk.otpTo ho _ ((OtpLe.refl _).rbTo _)) (Field.sub_trans (by decide) hw) _ _

theorem State.lcSpoil_keeps {W : List Field} {s₀ s : State} (hk : s₀.Keeps W s) (hw : Field.sub [.regs, .ev, .otp, .sec, .free] W = true)
    (v : Word) (kind idx : Nat) :
    s₀.Keeps W (State.lcSpoil s v kind idx) := by
  have ho : W.contains .otp = true := Field.mem_of_sub hw (by decide)
  unfold State.lcSpoil
  dsimp only
  refine State.lcRefuse_keeps (State.postPkg_keeps ?_ (Field.sub_trans (by decide) hw) _ _) (Field.sub_trans (by decide) hw) _ _
  refine keeps_ite ?_ (keeps_ite ?_ (keeps_ite ?_ hk))
  · exact hk.otpTo ho _ ((OtpLe.refl _).spoiltTo _)
  · exact hk.otpTo ho _ (((OtpLe.refl _).rbTo _).rbSpoiltTo _)
  · exact State.keyCommit_keeps hk (Field.sub_trans (by decide) hw) 0

theorem State.afterCmd_keeps {W : List Field} {s₀ s : State} (hk : s₀.Keeps W s) (hw : Field.sub [.sec] W = true) : s₀.Keeps W
    (State.afterCmd s) := by
  unfold State.afterCmd
  repeat' first
    | with_reducible assumption
    | with_reducible exact State.Keeps.refl _ _
    | with_reducible apply State.attBegin_keeps (hw := Field.sub_trans (by decide) hw)
    | with_reducible refine keeps_ite ?_ ?_
    | with_reducible refine keeps_ite_fst ?_ ?_
    | intro _
    | dsimp only
    | split

theorem State.lcComplete_keeps {W : List Field} {s₀ s : State} (hk : s₀.Keeps W s) (hw : Field.sub [.regs, .mem, .gals, .halls, .ev,
    .adm, .otp, .clk, .boot, .sec, .net, .reqs, .seqNext, .free] W = true) (fail : Option (Nat × Nat)) : s₀.Keeps W (State.lcComplete s
    fail) := by
  unfold State.lcComplete
  repeat' first
    | with_reducible assumption
    | with_reducible exact State.Keeps.refl _ _
    | with_reducible apply State.afterCmd_keeps (hw := Field.sub_trans (by decide) hw)
    | with_reducible apply State.lcRefuse_keeps (hw := Field.sub_trans (by decide) hw)
    | with_reducible apply State.lcSpoil_keeps (hw := Field.sub_trans (by decide) hw)
    | with_reducible apply State.setFld_keeps (hw := Field.sub_trans (by decide) hw)
    | with_reducible apply State.newChal_keeps (hw := Field.sub_trans (by decide) hw)
    | with_reducible apply State.lcCommit_keeps (hw := Field.sub_trans (by decide) hw)
    | with_reducible refine keeps_ite ?_ ?_
    | with_reducible refine keeps_ite_fst ?_ ?_
    | intro _
    | dsimp only
    | simp (disch := first | assumption | (with_unfolding_all (intro (x : Field) hx; cases x <;>
        first | exact absurd hx (by decide) | (dsimp only [Field.same]; done) | (dsimp only [Field.same]; exact ⟨rfl, rfl⟩)))) only [keeps_mk hw]
    | split

theorem State.attestDone_keeps {W : List Field} {s₀ s : State} (hk : s₀.Keeps W s) (hw : Field.sub [.regs, .mem, .ev, .sec, .free] W =
    true) : s₀.Keeps W (State.attestDone s) := by
  unfold State.attestDone
  repeat' first
    | with_reducible assumption
    | with_reducible exact State.Keeps.refl _ _
    | with_reducible apply State.setFld_keeps (hw := Field.sub_trans (by decide) hw)
    | with_reducible apply State.postPkg_keeps (hw := Field.sub_trans (by decide) hw)
    | with_reducible apply State.lcStart_keeps (hw := Field.sub_trans (by decide) hw)
    | with_reducible refine keeps_ite ?_ ?_
    | with_reducible refine keeps_ite_fst ?_ ?_
    | intro _
    | dsimp only
    | simp (disch := first | assumption | (with_unfolding_all (intro (x : Field) hx; cases x <;>
        first | exact absurd hx (by decide) | (dsimp only [Field.same]; done) | (dsimp only [Field.same]; exact ⟨rfl, rfl⟩)))) only [keeps_mk hw]
    | split

theorem State.attAbandon_keeps {W : List Field} {s₀ s : State} (hk : s₀.Keeps W s) (hw : Field.sub [.regs, .sec] W = true) : s₀.Keeps W
    (State.attAbandon s) := by
  unfold State.attAbandon
  repeat' first
    | with_reducible assumption
    | with_reducible exact State.Keeps.refl _ _
    | with_reducible apply State.setFld_keeps (hw := Field.sub_trans (by decide) hw)
    | with_reducible refine keeps_ite ?_ ?_
    | with_reducible refine keeps_ite_fst ?_ ?_
    | intro _
    | dsimp only
    | simp (disch := first | assumption | (with_unfolding_all (intro (x : Field) hx; cases x <;>
        first | exact absurd hx (by decide) | (dsimp only [Field.same]; done) | (dsimp only [Field.same]; exact ⟨rfl, rfl⟩)))) only [keeps_mk hw]
    | split

theorem State.secAbandon_keeps {W : List Field} {s₀ s : State} (hk : s₀.Keeps W s) (hw : Field.sub [.regs, .sec] W = true) : s₀.Keeps W
    (State.secAbandon s) := by
  unfold State.secAbandon
  repeat' first
    | with_reducible assumption
    | with_reducible exact State.Keeps.refl _ _
    | with_reducible apply State.attAbandon_keeps (hw := Field.sub_trans (by decide) hw)
    | with_reducible apply State.setFld_keeps (hw := Field.sub_trans (by decide) hw)
    | with_reducible refine keeps_ite ?_ ?_
    | with_reducible refine keeps_ite_fst ?_ ?_
    | intro _
    | dsimp only
    | simp (disch := first | assumption | (with_unfolding_all (intro (x : Field) hx; cases x <;>
        first | exact absurd hx (by decide) | (dsimp only [Field.same]; done) | (dsimp only [Field.same]; exact ⟨rfl, rfl⟩)))) only [keeps_mk hw]
    | split

theorem State.tampCfgWrite_keeps {W : List Field} {s₀ s : State} (hk : s₀.Keeps W s) (hw : Field.sub [.regs] W = true) (v : Word) :
    s₀.Keeps W (State.tampCfgWrite s v) := by
  unfold State.tampCfgWrite
  repeat' first
    | with_reducible assumption
    | with_reducible exact State.Keeps.refl _ _
    | with_reducible apply State.writeFields_keeps (hw := Field.sub_trans (by decide) hw)
    | with_reducible refine keeps_ite ?_ ?_
    | with_reducible refine keeps_ite_fst ?_ ?_
    | intro _
    | dsimp only
    | split

theorem State.tampStatWrite_keeps {W : List Field} {s₀ s : State} (hk : s₀.Keeps W s) (hw : Field.sub [.regs] W = true) (v : Word) :
    s₀.Keeps W (State.tampStatWrite s v) := by
  unfold State.tampStatWrite
  repeat' first
    | with_reducible assumption
    | with_reducible exact State.Keeps.refl _ _
    | with_reducible apply State.setFld_keeps (hw := Field.sub_trans (by decide) hw)
    | with_reducible apply State.setVault_keeps (hw := Field.sub_trans (by decide) hw)
    | with_reducible refine keeps_ite ?_ ?_
    | with_reducible refine keeps_ite_fst ?_ ?_
    | intro _
    | dsimp only
    | split

theorem State.jtagWrite_keeps {W : List Field} {s₀ s : State} (hk : s₀.Keeps W s) (hw : Field.sub [.regs] W = true) (v : Word) : s₀.Keeps
    W (State.jtagWrite s v) := by
  unfold State.jtagWrite
  repeat' first
    | with_reducible assumption
    | with_reducible exact State.Keeps.refl _ _
    | with_reducible apply State.writeFields_keeps (hw := Field.sub_trans (by decide) hw)
    | with_reducible refine keeps_ite ?_ ?_
    | with_reducible refine keeps_ite_fst ?_ ?_
    | intro _
    | dsimp only
    | split

theorem State.tamper_keeps {W : List Field} {s₀ s : State} (hk : s₀.Keeps W s) (hw : Field.sub [.regs, .mem, .gals, .halls, .ev, .adm,
    .clk, .boot, .sec, .net, .reqs, .seqNext, .free] W = true) : s₀.Keeps W (State.tamper s) := by
  unfold State.tamper
  repeat' first
    | with_reducible assumption
    | with_reducible exact State.Keeps.refl _ _
    | with_reducible apply State.incFld_keeps (hw := Field.sub_trans (by decide) hw)
    | with_reducible apply State.setFld_keeps (hw := Field.sub_trans (by decide) hw)
    | with_reducible apply State.postPkg_keeps (hw := Field.sub_trans (by decide) hw)
    | with_reducible apply State.wipe_keeps (hw := Field.sub_trans (by decide) hw)
    | with_reducible apply State.allRangesOff_keeps (hw := Field.sub_trans (by decide) hw)
    | with_reducible apply State.safeHold_keeps (hw := Field.sub_trans (by decide) hw)
    | with_reducible refine keeps_ite ?_ ?_
    | with_reducible refine keeps_ite_fst ?_ ?_
    | intro _
    | dsimp only
    | split

theorem State.rngFail_keeps {W : List Field} {s₀ s : State} (hk : s₀.Keeps W s) (hw : Field.sub [.regs, .ev] W = true) (test : Nat) :
    s₀.Keeps W (State.rngFail s test) := by
  unfold State.rngFail
  repeat' first
    | with_reducible assumption
    | with_reducible exact State.Keeps.refl _ _
    | with_reducible apply State.postPkg_keeps (hw := Field.sub_trans (by decide) hw)
    | with_reducible apply State.setFld_keeps (hw := Field.sub_trans (by decide) hw)
    | with_reducible refine keeps_ite ?_ ?_
    | with_reducible refine keeps_ite_fst ?_ ?_
    | intro _
    | dsimp only
    | split

theorem State.jtagLoad_keeps {W : List Field} {s₀ s : State} (hk : s₀.Keeps W s) (hw : Field.sub [.regs, .ev, .sec, .free] W = true) (op
    : JtagOp) (code : Nat) : s₀.Keeps W (State.jtagLoad s op code) := by
  unfold State.jtagLoad
  repeat' first
    | with_reducible assumption
    | with_reducible exact State.Keeps.refl _ _
    | with_reducible apply State.postPkg_keeps (hw := Field.sub_trans (by decide) hw)
    | with_reducible apply State.draw_keeps (hw := Field.sub_trans (by decide) hw)
    | with_reducible refine keeps_ite ?_ ?_
    | with_reducible refine keeps_ite_fst ?_ ?_
    | intro _
    | dsimp only
    | simp (disch := first | assumption | (with_unfolding_all (intro (x : Field) hx; cases x <;>
        first | exact absurd hx (by decide) | (dsimp only [Field.same]; done) | (dsimp only [Field.same]; exact ⟨rfl, rfl⟩)))) only [keeps_mk hw]
    | split

theorem State.vendorUnlock_keeps {W : List Field} {s₀ s : State} (hk : s₀.Keeps W s) (hw : Field.sub [.regs, .ev, .sec] W = true) (k :
    Nat) (sig : List Byte) : s₀.Keeps W (State.vendorUnlock s k sig) := by
  unfold State.vendorUnlock
  repeat' first
    | with_reducible assumption
    | with_reducible exact State.Keeps.refl _ _
    | with_reducible apply State.postPkg_keeps (hw := Field.sub_trans (by decide) hw)
    | with_reducible refine keeps_ite ?_ ?_
    | with_reducible refine keeps_ite_fst ?_ ?_
    | intro _
    | dsimp only
    | simp (disch := first | assumption | (with_unfolding_all (intro (x : Field) hx; cases x <;>
        first | exact absurd hx (by decide) | (dsimp only [Field.same]; done) | (dsimp only [Field.same]; exact ⟨rfl, rfl⟩)))) only [keeps_mk hw]
    | split

theorem execOwn_keeps {s : State} (v : Word) : ∃ nx, execOwn v s = .next nx ∧ s.Keeps [.regs, .mem, .ev, .sec, .free] nx := by
  have hw : Field.sub [.regs, .mem, .ev, .sec, .free] [.regs, .mem, .ev, .sec, .free] = true := by decide
  refine ⟨_, rfl, ?_⟩
  have hk := State.Keeps.refl [.regs, .mem, .ev, .sec, .free] s
  repeat' first
    | with_reducible assumption
    | with_reducible exact State.Keeps.refl _ _
    | with_reducible apply State.lcCommand_keeps (hw := Field.sub_trans (by decide) hw)
    | with_reducible refine keeps_ite ?_ ?_
    | with_reducible refine keeps_ite_fst ?_ ?_
    | intro _
    | dsimp only
    | split

theorem execSecure_keeps {s : State} (v : Word) : ∃ nx, execSecure v s = .next nx ∧ s.Keeps [.regs, .mem, .ev, .sec, .free] nx := by
  have hw : Field.sub [.regs, .mem, .ev, .sec, .free] [.regs, .mem, .ev, .sec, .free] = true := by decide
  refine ⟨_, rfl, ?_⟩
  have hk := State.Keeps.refl [.regs, .mem, .ev, .sec, .free] s
  repeat' first
    | with_reducible assumption
    | with_reducible exact State.Keeps.refl _ _
    | with_reducible apply State.lcCommand_keeps (hw := Field.sub_trans (by decide) hw)
    | with_reducible refine keeps_ite ?_ ?_
    | with_reducible refine keeps_ite_fst ?_ ?_
    | intro _
    | dsimp only
    | split

theorem execReturn_keeps {s : State} (v : Word) : ∃ nx, execReturn v s = .next nx ∧ s.Keeps [.regs, .mem, .ev, .sec, .free] nx := by
  have hw : Field.sub [.regs, .mem, .ev, .sec, .free] [.regs, .mem, .ev, .sec, .free] = true := by decide
  refine ⟨_, rfl, ?_⟩
  have hk := State.Keeps.refl [.regs, .mem, .ev, .sec, .free] s
  repeat' first
    | with_reducible assumption
    | with_reducible exact State.Keeps.refl _ _
    | with_reducible apply State.lcCommand_keeps (hw := Field.sub_trans (by decide) hw)
    | with_reducible refine keeps_ite ?_ ?_
    | with_reducible refine keeps_ite_fst ?_ ?_
    | intro _
    | dsimp only
    | split

theorem execKeyAdd_keeps {s : State} (v : Word) : ∃ nx, execKeyAdd v s = .next nx ∧ s.Keeps [.regs, .mem, .ev, .sec, .free] nx := by
  have hw : Field.sub [.regs, .mem, .ev, .sec, .free] [.regs, .mem, .ev, .sec, .free] = true := by decide
  refine ⟨_, rfl, ?_⟩
  have hk := State.Keeps.refl [.regs, .mem, .ev, .sec, .free] s
  repeat' first
    | with_reducible assumption
    | with_reducible exact State.Keeps.refl _ _
    | with_reducible apply State.lcCommand_keeps (hw := Field.sub_trans (by decide) hw)
    | with_reducible refine keeps_ite ?_ ?_
    | with_reducible refine keeps_ite_fst ?_ ?_
    | intro _
    | dsimp only
    | split

theorem execKeyRevoke_keeps {s : State} (v : Word) : ∃ nx, execKeyRevoke v s = .next nx ∧ s.Keeps [.regs, .mem, .ev, .sec, .free] nx := by
  have hw : Field.sub [.regs, .mem, .ev, .sec, .free] [.regs, .mem, .ev, .sec, .free] = true := by decide
  refine ⟨_, rfl, ?_⟩
  have hk := State.Keeps.refl [.regs, .mem, .ev, .sec, .free] s
  repeat' first
    | with_reducible assumption
    | with_reducible exact State.Keeps.refl _ _
    | with_reducible apply State.lcCommand_keeps (hw := Field.sub_trans (by decide) hw)
    | with_reducible refine keeps_ite ?_ ?_
    | with_reducible refine keeps_ite_fst ?_ ?_
    | intro _
    | dsimp only
    | split

theorem execRbAdvance_keeps {s : State} (v : Word) : ∃ nx, execRbAdvance v s = .next nx ∧ s.Keeps [.regs, .mem, .ev, .sec, .free] nx := by
  have hw : Field.sub [.regs, .mem, .ev, .sec, .free] [.regs, .mem, .ev, .sec, .free] = true := by decide
  refine ⟨_, rfl, ?_⟩
  have hk := State.Keeps.refl [.regs, .mem, .ev, .sec, .free] s
  repeat' first
    | with_reducible assumption
    | with_reducible exact State.Keeps.refl _ _
    | with_reducible apply State.lcCommand_keeps (hw := Field.sub_trans (by decide) hw)
    | with_reducible refine keeps_ite ?_ ?_
    | with_reducible refine keeps_ite_fst ?_ ?_
    | intro _
    | dsimp only
    | split

theorem execLcCmdComplete_keeps {s : State} (fail : Option (Fin 3 × Fin 128)) : ∃ nx, execLcCmdComplete fail s = .next nx ∧ s.Keeps
    [.regs, .mem, .gals, .halls, .ev, .adm, .otp, .clk, .boot, .sec, .net, .reqs, .seqNext, .free] nx := by
  have hw : Field.sub [.regs, .mem, .gals, .halls, .ev, .adm, .otp, .clk, .boot, .sec, .net, .reqs, .seqNext, .free] [.regs, .mem, .gals,
    .halls, .ev, .adm, .otp, .clk, .boot, .sec, .net, .reqs, .seqNext, .free] = true := by decide
  refine ⟨_, rfl, ?_⟩
  have hk := State.Keeps.refl [.regs, .mem, .gals, .halls, .ev, .adm, .otp, .clk, .boot, .sec, .net, .reqs, .seqNext, .free] s
  repeat' first
    | with_reducible assumption
    | with_reducible exact State.Keeps.refl _ _
    | with_reducible apply State.lcComplete_keeps (hw := Field.sub_trans (by decide) hw)
    | with_reducible refine keeps_ite ?_ ?_
    | with_reducible refine keeps_ite_fst ?_ ?_
    | intro _
    | dsimp only
    | split

theorem execVpartWrite_keeps {s : State} (i : Fin 16) (v : Word) : ∃ nx, execVpartWrite i v s = .next nx ∧ s.Keeps [.regs, .sec] nx := by
  have hw : Field.sub [.regs, .sec] [.regs, .sec] = true := by decide
  refine ⟨_, rfl, ?_⟩
  have hk := State.Keeps.refl [.regs, .sec] s
  repeat' first
    | with_reducible assumption
    | with_reducible exact State.Keeps.refl _ _
    | with_reducible apply State.vpartWrite_keeps (hw := Field.sub_trans (by decide) hw)
    | with_reducible refine keeps_ite ?_ ?_
    | with_reducible refine keeps_ite_fst ?_ ?_
    | intro _
    | dsimp only
    | split

theorem execVpartZeroDone_keeps {s : State} (i : Fin 16) : ∃ nx, execVpartZeroDone i s = .next nx ∧ s.Keeps [.regs, .mem, .sec] nx := by
  have hw : Field.sub [.regs, .mem, .sec] [.regs, .mem, .sec] = true := by decide
  refine ⟨_, rfl, ?_⟩
  have hk := State.Keeps.refl [.regs, .mem, .sec] s
  repeat' first
    | with_reducible assumption
    | with_reducible exact State.Keeps.refl _ _
    | with_reducible apply State.vpartZeroDone_keeps (hw := Field.sub_trans (by decide) hw)
    | with_reducible refine keeps_ite ?_ ?_
    | with_reducible refine keeps_ite_fst ?_ ?_
    | intro _
    | dsimp only
    | split

theorem execVaultWipeDone_keeps {s : State} (fail : Option (Fin 65536)) : ∃ nx, execVaultWipeDone fail s = .next nx ∧ s.Keeps [.regs,
    .mem, .ev, .sec] nx := by
  have hw : Field.sub [.regs, .mem, .ev, .sec] [.regs, .mem, .ev, .sec] = true := by decide
  refine ⟨_, rfl, ?_⟩
  have hk := State.Keeps.refl [.regs, .mem, .ev, .sec] s
  repeat' first
    | with_reducible assumption
    | with_reducible exact State.Keeps.refl _ _
    | with_reducible apply State.wipeDone_keeps (hw := Field.sub_trans (by decide) hw)
    | with_reducible refine keeps_ite ?_ ?_
    | with_reducible refine keeps_ite_fst ?_ ?_
    | intro _
    | dsimp only
    | split

theorem execTamper_keeps {s : State} : ∃ nx, execTamper s = .next nx ∧ s.Keeps [.regs, .mem, .gals, .halls, .ev, .adm, .clk, .boot, .sec,
    .net, .reqs, .seqNext, .free] nx := by
  have hw : Field.sub [.regs, .mem, .gals, .halls, .ev, .adm, .clk, .boot, .sec, .net, .reqs, .seqNext, .free] [.regs, .mem, .gals,
    .halls, .ev, .adm, .clk, .boot, .sec, .net, .reqs, .seqNext, .free] = true := by decide
  refine ⟨_, rfl, ?_⟩
  have hk := State.Keeps.refl [.regs, .mem, .gals, .halls, .ev, .adm, .clk, .boot, .sec, .net, .reqs, .seqNext, .free] s
  repeat' first
    | with_reducible assumption
    | with_reducible exact State.Keeps.refl _ _
    | with_reducible apply State.tamper_keeps (hw := Field.sub_trans (by decide) hw)
    | with_reducible refine keeps_ite ?_ ?_
    | with_reducible refine keeps_ite_fst ?_ ?_
    | intro _
    | dsimp only
    | split

theorem execAttestStart_keeps {s : State} : ∃ nx, execAttestStart s = .next nx ∧ s.Keeps [.regs, .sec] nx := by
  have hw : Field.sub [.regs, .sec] [.regs, .sec] = true := by decide
  refine ⟨_, rfl, ?_⟩
  have hk := State.Keeps.refl [.regs, .sec] s
  repeat' first
    | with_reducible assumption
    | with_reducible exact State.Keeps.refl _ _
    | with_reducible apply State.attestStart_keeps (hw := Field.sub_trans (by decide) hw)
    | with_reducible refine keeps_ite ?_ ?_
    | with_reducible refine keeps_ite_fst ?_ ?_
    | intro _
    | dsimp only
    | split

theorem execAttestDone_keeps {s : State} : ∃ nx, execAttestDone s = .next nx ∧ s.Keeps [.regs, .mem, .ev, .sec, .free] nx := by
  have hw : Field.sub [.regs, .mem, .ev, .sec, .free] [.regs, .mem, .ev, .sec, .free] = true := by decide
  refine ⟨_, rfl, ?_⟩
  have hk := State.Keeps.refl [.regs, .mem, .ev, .sec, .free] s
  repeat' first
    | with_reducible assumption
    | with_reducible exact State.Keeps.refl _ _
    | with_reducible apply State.attestDone_keeps (hw := Field.sub_trans (by decide) hw)
    | with_reducible refine keeps_ite ?_ ?_
    | with_reducible refine keeps_ite_fst ?_ ?_
    | intro _
    | dsimp only
    | split

theorem execMrExtend_keeps {s : State} (w : Writer) (v : Word) : ∃ nx, execMrExtend w v s = .next nx ∧ s.Keeps [.sec] nx := by
  have hw : Field.sub [.sec] [.sec] = true := by decide
  refine ⟨_, rfl, ?_⟩
  have hk := State.Keeps.refl [.sec] s
  repeat' first
    | with_reducible assumption
    | with_reducible exact State.Keeps.refl _ _
    | with_reducible apply State.mrExtend_keeps (hw := Field.sub_trans (by decide) hw)
    | with_reducible refine keeps_ite ?_ ?_
    | with_reducible refine keeps_ite_fst ?_ ?_
    | intro _
    | dsimp only
    | split

theorem execRngFail_keeps {s : State} (test : Fin 256) : ∃ nx, execRngFail test s = .next nx ∧ s.Keeps [.regs, .ev] nx := by
  have hw : Field.sub [.regs, .ev] [.regs, .ev] = true := by decide
  refine ⟨_, rfl, ?_⟩
  have hk := State.Keeps.refl [.regs, .ev] s
  repeat' first
    | with_reducible assumption
    | with_reducible exact State.Keeps.refl _ _
    | with_reducible apply State.rngFail_keeps (hw := Field.sub_trans (by decide) hw)
    | with_reducible refine keeps_ite ?_ ?_
    | with_reducible refine keeps_ite_fst ?_ ?_
    | intro _
    | dsimp only
    | split

theorem execRngRetry_keeps {s : State} (pass : Bool) : ∃ nx, execRngRetry pass s = .next nx ∧ s.Keeps [.regs] nx := by
  have hw : Field.sub [.regs] [.regs] = true := by decide
  refine ⟨_, rfl, ?_⟩
  have hk := State.Keeps.refl [.regs] s
  repeat' first
    | with_reducible assumption
    | with_reducible exact State.Keeps.refl _ _
    | with_reducible apply State.setFld_keeps (hw := Field.sub_trans (by decide) hw)
    | with_reducible refine keeps_ite ?_ ?_
    | with_reducible refine keeps_ite_fst ?_ ?_
    | intro _
    | dsimp only
    | split

theorem execJtagInstruction_keeps {s : State} (op : JtagOp) (code : Fin 256) : ∃ nx, execJtagInstruction op code s = .next nx ∧ s.Keeps
    [.regs, .ev, .sec, .free] nx := by
  have hw : Field.sub [.regs, .ev, .sec, .free] [.regs, .ev, .sec, .free] = true := by decide
  refine ⟨_, rfl, ?_⟩
  have hk := State.Keeps.refl [.regs, .ev, .sec, .free] s
  repeat' first
    | with_reducible assumption
    | with_reducible exact State.Keeps.refl _ _
    | with_reducible apply State.jtagLoad_keeps (hw := Field.sub_trans (by decide) hw)
    | with_reducible refine keeps_ite ?_ ?_
    | with_reducible refine keeps_ite_fst ?_ ?_
    | intro _
    | dsimp only
    | split

theorem execVendorUnlock_keeps {s : State} (k : Fin 2) (sig : List Byte) : ∃ nx, execVendorUnlock k sig s = .next nx ∧ s.Keeps [.regs,
    .ev, .sec] nx := by
  have hw : Field.sub [.regs, .ev, .sec] [.regs, .ev, .sec] = true := by decide
  refine ⟨_, rfl, ?_⟩
  have hk := State.Keeps.refl [.regs, .ev, .sec] s
  repeat' first
    | with_reducible assumption
    | with_reducible exact State.Keeps.refl _ _
    | with_reducible apply State.vendorUnlock_keeps (hw := Field.sub_trans (by decide) hw)
    | with_reducible refine keeps_ite ?_ ?_
    | with_reducible refine keeps_ite_fst ?_ ?_
    | intro _
    | dsimp only
    | split

end Sys2Proof.Machine
end

