-- ==== Sys2Proof/Laws/KeepsBoot.lean ====
section
/-!
SUPPORT. Laws/KeepsBoot.lean: the operations of Machine/Boot.lean keep State.Keeps.
-/
namespace Sys2Proof.Machine
open Sys2Proof

theorem State.flashErase_keeps {W : List Field} {s₀ s : State} (hk : s₀.Keeps W s) (hw : Field.sub [.mem] W = true)
    (a n : Nat) :
    s₀.Keeps W (State.flashErase s a n) := by
  exact hk.memTo (Field.mem_of_sub hw (by decide)) _ s.memEpoch (memWf_drop s.mem _)

theorem State.programRecord_keeps {W : List Field} {s₀ s : State} (hk : s₀.Keeps W s) (hw : Field.sub [.mem] W = true) (k : Nat) (typ :
    Nat) (seq : Nat) (payload : List Byte) : s₀.Keeps W (State.programRecord s k typ seq payload) := by
  unfold State.programRecord
  repeat' first
    | with_reducible assumption
    | with_reducible exact State.Keeps.refl _ _
    | with_reducible apply State.writeBytes_keeps (hw := Field.sub_trans (by decide) hw)
    | with_reducible apply State.flashErase_keeps (hw := Field.sub_trans (by decide) hw)
    | with_reducible refine keeps_ite ?_ ?_
    | with_reducible refine keeps_ite_fst ?_ ?_
    | intro _
    | dsimp only
    | split

theorem State.recordsRewritten_keeps {W : List Field} {s₀ s : State} (hk : s₀.Keeps W s) (hw : Field.sub [.regs, .mem, .ev] W = true) :
    s₀.Keeps W (State.recordsRewritten s) := by
  unfold State.recordsRewritten
  repeat' first
    | with_reducible assumption
    | with_reducible exact State.Keeps.refl _ _
    | with_reducible apply State.flashErase_keeps (hw := Field.sub_trans (by decide) hw)
    | with_reducible apply State.programRecord_keeps (hw := Field.sub_trans (by decide) hw)
    | with_reducible apply State.postPkg_keeps (hw := Field.sub_trans (by decide) hw)
    | with_reducible refine keeps_ite ?_ ?_
    | with_reducible refine keeps_ite_fst ?_ ?_
    | with_reducible refine keeps_foldl _ _ ?_ ?_
    | with_reducible refine keeps_foldl_fst _ _ ?_ ?_
    | intro _
    | dsimp only
    | split

theorem State.writeRecord_keeps {W : List Field} {s₀ s : State} (hk : s₀.Keeps W s) (hw : Field.sub [.regs, .mem, .ev] W = true) (typ :
    Nat) (payload : List Byte) : s₀.Keeps W (State.writeRecord s typ payload).1 := by
  unfold State.writeRecord
  repeat' first
    | with_reducible assumption
    | with_reducible exact State.Keeps.refl _ _
    | with_reducible apply State.recordsRewritten_keeps (hw := Field.sub_trans (by decide) hw)
    | with_reducible apply State.setReg_keeps (hw := Field.sub_trans (by decide) hw)
    | with_reducible apply State.programRecord_keeps (hw := Field.sub_trans (by decide) hw)
    | with_reducible refine keeps_ite ?_ ?_
    | with_reducible refine keeps_ite_fst ?_ ?_
    | intro _
    | dsimp only
    | split

theorem State.askRecord_keeps {W : List Field} {s₀ s : State} (hk : s₀.Keeps W s) (hw : Field.sub [.boot] W = true) (typ : Nat) (payload
    : List Byte) : s₀.Keeps W (State.askRecord s typ payload) := by
  unfold State.askRecord
  repeat' first
    | with_reducible assumption
    | with_reducible exact State.Keeps.refl _ _
    | with_reducible refine keeps_ite ?_ ?_
    | with_reducible refine keeps_ite_fst ?_ ?_
    | intro _
    | dsimp only
    | simp (disch := first | assumption | (with_unfolding_all (intro (x : Field) hx; cases x <;>
        first | exact absurd hx (by decide) | (dsimp only [Field.same]; done) | (dsimp only [Field.same]; exact ⟨rfl, rfl⟩)))) only [keeps_mk hw]
    | split

theorem State.recordWriteDone_keeps {W : List Field} {s₀ s : State} (hk : s₀.Keeps W s) (hw : Field.sub [.regs, .mem, .ev, .boot] W =
    true) (fault : Bool) : s₀.Keeps W (State.recordWriteDone s fault) := by
  unfold State.recordWriteDone
  repeat' first
    | with_reducible assumption
    | with_reducible exact State.Keeps.refl _ _
    | with_reducible apply State.setFld_keeps (hw := Field.sub_trans (by decide) hw)
    | with_reducible apply State.postPkg_keeps (hw := Field.sub_trans (by decide) hw)
    | with_reducible apply State.writeRecord_keeps (hw := Field.sub_trans (by decide) hw)
    | with_reducible apply State.setReg_keeps (hw := Field.sub_trans (by decide) hw)
    | with_reducible refine keeps_ite ?_ ?_
    | with_reducible refine keeps_ite_fst ?_ ?_
    | intro _
    | dsimp only
    | simp (disch := first | assumption | (with_unfolding_all (intro (x : Field) hx; cases x <;>
        first | exact absurd hx (by decide) | (dsimp only [Field.same]; done) | (dsimp only [Field.same]; exact ⟨rfl, rfl⟩)))) only [keeps_mk hw]
    | split

theorem State.flashResult_keeps {W : List Field} {s₀ s : State} (hk : s₀.Keeps W s) (hw : Field.sub [.regs, .boot] W = true) (r : Nat) :
    s₀.Keeps W (State.flashResult s r) := by
  unfold State.flashResult
  repeat' first
    | with_reducible assumption
    | with_reducible exact State.Keeps.refl _ _
    | with_reducible apply State.setFld_keeps (hw := Field.sub_trans (by decide) hw)
    | with_reducible refine keeps_ite ?_ ?_
    | with_reducible refine keeps_ite_fst ?_ ?_
    | intro _
    | dsimp only
    | simp (disch := first | assumption | (with_unfolding_all (intro (x : Field) hx; cases x <;>
        first | exact absurd hx (by decide) | (dsimp only [Field.same]; done) | (dsimp only [Field.same]; exact ⟨rfl, rfl⟩)))) only [keeps_mk hw]
    | split

theorem State.flashCommand_keeps {W : List Field} {s₀ s : State} (hk : s₀.Keeps W s) (hw : Field.sub [.regs, .boot] W = true) (v : Word)
    : s₀.Keeps W (State.flashCommand s v) := by
  unfold State.flashCommand
  repeat' first
    | with_reducible assumption
    | with_reducible exact State.Keeps.refl _ _
    | with_reducible apply State.flashResult_keeps (hw := Field.sub_trans (by decide) hw)
    | with_reducible apply State.setFld_keeps (hw := Field.sub_trans (by decide) hw)
    | with_reducible refine keeps_ite ?_ ?_
    | with_reducible refine keeps_ite_fst ?_ ?_
    | intro _
    | dsimp only
    | simp (disch := first | assumption | (with_unfolding_all (intro (x : Field) hx; cases x <;>
        first | exact absurd hx (by decide) | (dsimp only [Field.same]; done) | (dsimp only [Field.same]; exact ⟨rfl, rfl⟩)))) only [keeps_mk hw]
    | split

theorem State.flashCmdDone_keeps {W : List Field} {s₀ s : State} (hk : s₀.Keeps W s) (hw : Field.sub [.regs, .mem, .boot] W = true)
    (fault : Bool) : s₀.Keeps W (State.flashCmdDone s fault) := by
  unfold State.flashCmdDone
  repeat' first
    | with_reducible assumption
    | with_reducible exact State.Keeps.refl _ _
    | with_reducible apply State.flashResult_keeps (hw := Field.sub_trans (by decide) hw)
    | with_reducible apply State.setReg_keeps (hw := Field.sub_trans (by decide) hw)
    | with_reducible apply State.writeBytes_keeps (hw := Field.sub_trans (by decide) hw)
    | with_reducible apply State.flashErase_keeps (hw := Field.sub_trans (by decide) hw)
    | with_reducible refine keeps_ite ?_ ?_
    | with_reducible refine keeps_ite_fst ?_ ?_
    | with_reducible refine keeps_foldl _ _ ?_ ?_
    | with_reducible refine keeps_foldl_fst _ _ ?_ ?_
    | intro _
    | dsimp only
    | split

theorem State.importEnd_keeps {W : List Field} {s₀ s : State} (hk : s₀.Keeps W s) (hw : Field.sub [.regs, .ev, .adm, .boot] W = true) (i
    : Import) (result : Nat) (id : Nat) : s₀.Keeps W (State.importEnd s i result id) := by
  unfold State.importEnd
  repeat' first
    | with_reducible assumption
    | with_reducible exact State.Keeps.refl _ _
    | with_reducible apply State.setFld_keeps (hw := Field.sub_trans (by decide) hw)
    | with_reducible apply State.admWithdraw_keeps (hw := Field.sub_trans (by decide) hw)
    | with_reducible apply State.admRelease_keeps (hw := Field.sub_trans (by decide) hw)
    | with_reducible apply State.post_keeps (hw := Field.sub_trans (by decide) hw)
    | with_reducible refine keeps_ite ?_ ?_
    | with_reducible refine keeps_ite_fst ?_ ?_
    | intro _
    | dsimp only
    | simp (disch := first | assumption | (with_unfolding_all (intro (x : Field) hx; cases x <;>
        first | exact absurd hx (by decide) | (dsimp only [Field.same]; done) | (dsimp only [Field.same]; exact ⟨rfl, rfl⟩)))) only [keeps_mk hw]
    | split

theorem State.importStart_keeps {W : List Field} {s₀ s : State} (hk : s₀.Keeps W s) (hw : Field.sub [.regs, .gals, .ev, .adm, .dom,
    .pwrCmd, .boot, .bist] W = true) (v : Word) (st : Nat) : s₀.Keeps W (State.importStart s v st) := by
  unfold State.importStart
  repeat' first
    | with_reducible assumption
    | with_reducible exact State.Keeps.refl _ _
    | with_reducible apply State.post_keeps (hw := Field.sub_trans (by decide) hw)
    | with_reducible apply State.setFld_keeps (hw := Field.sub_trans (by decide) hw)
    | with_reducible apply State.importEnd_keeps (hw := Field.sub_trans (by decide) hw)
    | with_reducible apply State.admRequest_keeps (hw := Field.sub_trans (by decide) hw)
    | with_reducible refine keeps_ite ?_ ?_
    | with_reducible refine keeps_ite_fst ?_ ?_
    | intro _
    | dsimp only
    | simp (disch := first | assumption | (with_unfolding_all (intro (x : Field) hx; cases x <;>
        first | exact absurd hx (by decide) | (dsimp only [Field.same]; done) | (dsimp only [Field.same]; exact ⟨rfl, rfl⟩)))) only [keeps_mk hw]
    | split

theorem State.importGranted_keeps {W : List Field} {s₀ s : State} (hk : s₀.Keeps W s) (hw : Field.sub [.regs, .gals, .ev, .adm, .boot] W
    = true) : s₀.Keeps W (State.importGranted s) := by
  unfold State.importGranted
  repeat' first
    | with_reducible assumption
    | with_reducible exact State.Keeps.refl _ _
    | with_reducible apply State.importEnd_keeps (hw := Field.sub_trans (by decide) hw)
    | with_reducible apply State.setFld_keeps (hw := Field.sub_trans (by decide) hw)
    | with_reducible apply State.emptySlot_keeps (hw := Field.sub_trans (by decide) hw)
    | with_reducible refine keeps_ite ?_ ?_
    | with_reducible refine keeps_ite_fst ?_ ?_
    | intro _
    | dsimp only
    | simp (disch := first | assumption | (with_unfolding_all (intro (x : Field) hx; cases x <;>
        first | exact absurd hx (by decide) | (dsimp only [Field.same]; done) | (dsimp only [Field.same]; exact ⟨rfl, rfl⟩)))) only [keeps_mk hw]
    | split

theorem State.importComplete_keeps {W : List Field} {s₀ s : State} (hk : s₀.Keeps W s) (hw : Field.sub [.regs, .gals, .ev, .adm, .boot,
    .sec] W = true) (st : Nat) : s₀.Keeps W (State.importComplete s st) := by
  unfold State.importComplete
  repeat' first
    | with_reducible assumption
    | with_reducible exact State.Keeps.refl _ _
    | with_reducible apply State.importEnd_keeps (hw := Field.sub_trans (by decide) hw)
    | with_reducible apply State.emptySlot_keeps (hw := Field.sub_trans (by decide) hw)
    | with_reducible apply State.fillSlot_keeps (hw := Field.sub_trans (by decide) hw)
    | with_reducible apply State.extend_keeps (hw := Field.sub_trans (by decide) hw)
    | with_reducible refine keeps_ite ?_ ?_
    | with_reducible refine keeps_ite_fst ?_ ?_
    | intro _
    | dsimp only
    | split

theorem State.setScrub_keeps {W : List Field} {s₀ s : State} (hk : s₀.Keeps W s) (hw : Field.sub [.boot] W = true) (h : Nat) (x : Scrub)
    : s₀.Keeps W (State.setScrub s h x) := by
  unfold State.setScrub
  repeat' first
    | with_reducible assumption
    | with_reducible exact State.Keeps.refl _ _
    | with_reducible refine keeps_ite ?_ ?_
    | with_reducible refine keeps_ite_fst ?_ ?_
    | intro _
    | dsimp only
    | simp (disch := first | assumption | (with_unfolding_all (intro (x : Field) hx; cases x <;>
        first | exact absurd hx (by decide) | (dsimp only [Field.same]; done) | (dsimp only [Field.same]; exact ⟨rfl, rfl⟩)))) only [keeps_mk hw]
    | split

theorem State.prioDone_keeps {W : List Field} {s₀ s : State} (hk : s₀.Keeps W s) (hw : Field.sub [.halls] W = true) (h : Nat) (g : Nat)
    (tracks : List Nat) : s₀.Keeps W (State.prioDone s h g tracks) := by
  unfold State.prioDone
  repeat' first
    | with_reducible assumption
    | with_reducible exact State.Keeps.refl _ _
    | with_reducible apply State.modHall_keeps (hw := Field.sub_trans (by decide) hw)
    | with_reducible refine keeps_ite ?_ ?_
    | with_reducible refine keeps_ite_fst ?_ ?_
    | intro _
    | dsimp only
    | split

theorem State.scrubBad_keeps {W : List Field} {s₀ s : State} (hk : s₀.Keeps W s) (hw : Field.sub [.regs, .ev, .boot] W = true) (G : Nat)
    (k : Nat) (f : Nat) : s₀.Keeps W (State.scrubBad s G k f) := by
  unfold State.scrubBad
  repeat' first
    | with_reducible assumption
    | with_reducible exact State.Keeps.refl _ _
    | with_reducible apply State.slotBad_keeps (hw := Field.sub_trans (by decide) hw)
    | with_reducible refine keeps_ite ?_ ?_
    | with_reducible refine keeps_ite_fst ?_ ?_
    | intro _
    | dsimp only
    | simp (disch := first | assumption | (with_unfolding_all (intro (x : Field) hx; cases x <;>
        first | exact absurd hx (by decide) | (dsimp only [Field.same]; done) | (dsimp only [Field.same]; exact ⟨rfl, rfl⟩)))) only [keeps_mk hw]
    | split

theorem State.planeRewrite_keeps {W : List Field} {s₀ s : State} (hk : s₀.Keeps W s) (hw : Field.sub [.regs, .ev] W = true) (G : Nat) (p
    : Nat) (f : Nat) (diff : BitVec 4096) : s₀.Keeps W (State.planeRewrite s G p f diff) := by
  unfold State.planeRewrite
  repeat' first
    | with_reducible assumption
    | with_reducible exact State.Keeps.refl _ _
    | with_reducible apply State.incFld_keeps (hw := Field.sub_trans (by decide) hw)
    | with_reducible apply State.postLim_keeps (hw := Field.sub_trans (by decide) hw)
    | with_reducible apply State.postGal_keeps (hw := Field.sub_trans (by decide) hw)
    | with_reducible refine keeps_ite ?_ ?_
    | with_reducible refine keeps_ite_fst ?_ ?_
    | intro _
    | dsimp only
    | split

theorem State.residentFrame_keeps {W : List Field} {s₀ s : State} (hk : s₀.Keeps W s) (hw : Field.sub [.regs, .ev, .boot] W = true) (G :
    Nat) (p : Nat) (f : Nat) (mirror : Nat) (diff : BitVec 4096) : s₀.Keeps W (State.residentFrame s G p f mirror diff) := by
  unfold State.residentFrame
  repeat' first
    | with_reducible assumption
    | with_reducible exact State.Keeps.refl _ _
    | with_reducible apply State.scrubBad_keeps (hw := Field.sub_trans (by decide) hw)
    | with_reducible apply State.mirrorCe_keeps (hw := Field.sub_trans (by decide) hw)
    | with_reducible apply State.planeRewrite_keeps (hw := Field.sub_trans (by decide) hw)
    | with_reducible refine keeps_ite ?_ ?_
    | with_reducible refine keeps_ite_fst ?_ ?_
    | intro _
    | dsimp only
    | split

theorem State.showScrub_keeps {W : List Field} {s₀ s : State} (hk : s₀.Keeps W s) (hw : Field.sub [.regs] W = true) (h : Nat) (kind :
    Nat) (g : Nat) (slot : Nat) (plane : Nat) (frame : Nat) : s₀.Keeps W (State.showScrub s h kind g slot plane frame) := by
  unfold State.showScrub
  repeat' first
    | with_reducible assumption
    | with_reducible exact State.Keeps.refl _ _
    | with_reducible apply State.setReg_keeps (hw := Field.sub_trans (by decide) hw)
    | with_reducible refine keeps_ite ?_ ?_
    | with_reducible refine keeps_ite_fst ?_ ?_
    | intro _
    | dsimp only
    | split

theorem State.scrubPaused_keeps {W : List Field} {s₀ s : State} (hk : s₀.Keeps W s) (hw : Field.sub [.regs] W = true) (h : Nat) :
    s₀.Keeps W (State.scrubPaused s h) := by
  unfold State.scrubPaused
  repeat' first
    | with_reducible assumption
    | with_reducible exact State.Keeps.refl _ _
    | with_reducible apply State.setFld_keeps (hw := Field.sub_trans (by decide) hw)
    | with_reducible refine keeps_ite ?_ ?_
    | with_reducible refine keeps_ite_fst ?_ ?_
    | intro _
    | dsimp only
    | split

theorem State.prioStep_keeps {W : List Field} {s₀ s : State} (hk : s₀.Keeps W s) (hw : Field.sub [.regs, .halls, .ev, .boot] W = true) (h
    : Nat) (g : Nat) (p : Nat) (f : Nat) (mirror : Nat) (diff : BitVec 4096) : s₀.Keeps W (State.prioStep s h g p f mirror diff) := by
  unfold State.prioStep
  repeat' first
    | with_reducible assumption
    | with_reducible exact State.Keeps.refl _ _
    | with_reducible apply State.setScrub_keeps (hw := Field.sub_trans (by decide) hw)
    | with_reducible apply State.prioDone_keeps (hw := Field.sub_trans (by decide) hw)
    | with_reducible apply State.residentFrame_keeps (hw := Field.sub_trans (by decide) hw)
    | with_reducible apply State.showScrub_keeps (hw := Field.sub_trans (by decide) hw)
    | with_reducible refine keeps_ite ?_ ?_
    | with_reducible refine keeps_ite_fst ?_ ?_
    | intro _
    | dsimp only
    | split

theorem State.roundGoes_keeps {W : List Field} {s₀ s : State} (hk : s₀.Keeps W s) (hw : Field.sub [.regs, .boot] W = true) (h : Nat) (x :
    Scrub) : s₀.Keeps W (State.roundGoes s h x) := by
  unfold State.roundGoes
  repeat' first
    | with_reducible assumption
    | with_reducible exact State.Keeps.refl _ _
    | with_reducible apply State.setScrub_keeps (hw := Field.sub_trans (by decide) hw)
    | with_reducible apply State.incFld_keeps (hw := Field.sub_trans (by decide) hw)
    | with_reducible refine keeps_ite ?_ ?_
    | with_reducible refine keeps_ite_fst ?_ ?_
    | intro _
    | dsimp only
    | split

theorem State.roundStep_keeps {W : List Field} {s₀ s : State} (hk : s₀.Keeps W s) (hw : Field.sub [.regs, .ev, .boot] W = true) (h : Nat)
    (mirror : Nat) (diff : BitVec 4096) : s₀.Keeps W (State.roundStep s h mirror diff) := by
  unfold State.roundStep
  repeat' first
    | with_reducible assumption
    | with_reducible exact State.Keeps.refl _ _
    | with_reducible apply State.roundGoes_keeps (hw := Field.sub_trans (by decide) hw)
    | with_reducible apply State.scrubPaused_keeps (hw := Field.sub_trans (by decide) hw)
    | with_reducible apply State.residentFrame_keeps (hw := Field.sub_trans (by decide) hw)
    | with_reducible apply State.showScrub_keeps (hw := Field.sub_trans (by decide) hw)
    | with_reducible apply State.mirrorCe_keeps (hw := Field.sub_trans (by decide) hw)
    | with_reducible apply State.scrubBad_keeps (hw := Field.sub_trans (by decide) hw)
    | with_reducible refine keeps_ite ?_ ?_
    | with_reducible refine keeps_ite_fst ?_ ?_
    | intro _
    | dsimp only
    | split

theorem State.scrubStep_keeps {W : List Field} {s₀ s : State} (hk : s₀.Keeps W s) (hw : Field.sub [.regs, .halls, .ev, .boot] W = true)
    (h : Nat) (mirror : Nat) (diff : BitVec 4096) : s₀.Keeps W (State.scrubStep s h mirror diff) := by
  unfold State.scrubStep
  repeat' first
    | with_reducible assumption
    | with_reducible exact State.Keeps.refl _ _
    | with_reducible apply State.scrubPaused_keeps (hw := Field.sub_trans (by decide) hw)
    | with_reducible apply State.prioStep_keeps (hw := Field.sub_trans (by decide) hw)
    | with_reducible apply State.setScrub_keeps (hw := Field.sub_trans (by decide) hw)
    | with_reducible apply State.roundStep_keeps (hw := Field.sub_trans (by decide) hw)
    | with_reducible refine keeps_ite ?_ ?_
    | with_reducible refine keeps_ite_fst ?_ ?_
    | intro _
    | dsimp only
    | split

theorem State.slotReloaded_keeps {W : List Field} {s₀ s : State} (hk : s₀.Keeps W s) (hw : Field.sub [.regs, .gals, .ev, .boot] W = true)
    (G : Nat) (k : Nat) (fault : Bool) : s₀.Keeps W (State.slotReloaded s G k fault) := by
  unfold State.slotReloaded
  repeat' first
    | with_reducible assumption
    | with_reducible exact State.Keeps.refl _ _
    | with_reducible apply State.postGal_keeps (hw := Field.sub_trans (by decide) hw)
    | with_reducible apply State.fillSlot_keeps (hw := Field.sub_trans (by decide) hw)
    | with_reducible apply State.setFld_keeps (hw := Field.sub_trans (by decide) hw)
    | with_reducible refine keeps_ite ?_ ?_
    | with_reducible refine keeps_ite_fst ?_ ?_
    | intro _
    | dsimp only
    | simp (disch := first | assumption | (with_unfolding_all (intro (x : Field) hx; cases x <;>
        first | exact absurd hx (by decide) | (dsimp only [Field.same]; done) | (dsimp only [Field.same]; exact ⟨rfl, rfl⟩)))) only [keeps_mk hw]
    | split

theorem State.loadCompleted_keeps {W : List Field} {s₀ s : State} (hk : s₀.Keeps W s) (hw : Field.sub [.regs, .gals, .halls, .ev, .boot,
    .net, .reqs, .seqNext, .free] W = true) (G : Nat) (f : LoadFacts) : s₀.Keeps W (State.loadCompleted s G f) := by
  unfold State.loadCompleted
  repeat' first
    | with_reducible assumption
    | with_reducible exact State.Keeps.refl _ _
    | with_reducible apply State.planeLoadComplete_keeps (hw := Field.sub_trans (by decide) hw)
    | with_reducible refine keeps_ite ?_ ?_
    | with_reducible refine keeps_ite_fst ?_ ?_
    | intro _
    | dsimp only
    | simp (disch := first | assumption | (with_unfolding_all (intro (x : Field) hx; cases x <;>
        first | exact absurd hx (by decide) | (dsimp only [Field.same]; done) | (dsimp only [Field.same]; exact ⟨rfl, rfl⟩)))) only [keeps_mk hw]
    | split

theorem execRecordWriteDone_keeps {s : State} (fault : Bool) : ∃ nx, execRecordWriteDone fault s = .next nx ∧ s.Keeps [.regs, .mem, .ev,
    .boot] nx := by
  have hw : Field.sub [.regs, .mem, .ev, .boot] [.regs, .mem, .ev, .boot] = true := by decide
  refine ⟨_, rfl, ?_⟩
  have hk := State.Keeps.refl [.regs, .mem, .ev, .boot] s
  repeat' first
    | with_reducible assumption
    | with_reducible exact State.Keeps.refl _ _
    | with_reducible apply State.recordWriteDone_keeps (hw := Field.sub_trans (by decide) hw)
    | with_reducible refine keeps_ite ?_ ?_
    | with_reducible refine keeps_ite_fst ?_ ?_
    | intro _
    | dsimp only
    | split

theorem execFlashRead_keeps {s : State} (v : Word) : ∃ nx, execFlashRead v s = .next nx ∧ s.Keeps [.regs, .boot] nx := by
  have hw : Field.sub [.regs, .boot] [.regs, .boot] = true := by decide
  refine ⟨_, rfl, ?_⟩
  have hk := State.Keeps.refl [.regs, .boot] s
  repeat' first
    | with_reducible assumption
    | with_reducible exact State.Keeps.refl _ _
    | with_reducible apply State.flashCommand_keeps (hw := Field.sub_trans (by decide) hw)
    | with_reducible refine keeps_ite ?_ ?_
    | with_reducible refine keeps_ite_fst ?_ ?_
    | intro _
    | dsimp only
    | split

theorem execFlashProgram_keeps {s : State} (v : Word) : ∃ nx, execFlashProgram v s = .next nx ∧ s.Keeps [.regs, .boot] nx := by
  have hw : Field.sub [.regs, .boot] [.regs, .boot] = true := by decide
  refine ⟨_, rfl, ?_⟩
  have hk := State.Keeps.refl [.regs, .boot] s
  repeat' first
    | with_reducible assumption
    | with_reducible exact State.Keeps.refl _ _
    | with_reducible apply State.flashCommand_keeps (hw := Field.sub_trans (by decide) hw)
    | with_reducible refine keeps_ite ?_ ?_
    | with_reducible refine keeps_ite_fst ?_ ?_
    | intro _
    | dsimp only
    | split

theorem execFlashErase_keeps {s : State} (v : Word) : ∃ nx, execFlashErase v s = .next nx ∧ s.Keeps [.regs, .boot] nx := by
  have hw : Field.sub [.regs, .boot] [.regs, .boot] = true := by decide
  refine ⟨_, rfl, ?_⟩
  have hk := State.Keeps.refl [.regs, .boot] s
  repeat' first
    | with_reducible assumption
    | with_reducible exact State.Keeps.refl _ _
    | with_reducible apply State.flashCommand_keeps (hw := Field.sub_trans (by decide) hw)
    | with_reducible refine keeps_ite ?_ ?_
    | with_reducible refine keeps_ite_fst ?_ ?_
    | intro _
    | dsimp only
    | split

theorem execFlashCmdDone_keeps {s : State} (fault : Bool) : ∃ nx, execFlashCmdDone fault s = .next nx ∧ s.Keeps [.regs, .mem, .boot] nx
    := by
  have hw : Field.sub [.regs, .mem, .boot] [.regs, .mem, .boot] = true := by decide
  refine ⟨_, rfl, ?_⟩
  have hk := State.Keeps.refl [.regs, .mem, .boot] s
  repeat' first
    | with_reducible assumption
    | with_reducible exact State.Keeps.refl _ _
    | with_reducible apply State.flashCmdDone_keeps (hw := Field.sub_trans (by decide) hw)
    | with_reducible refine keeps_ite ?_ ?_
    | with_reducible refine keeps_ite_fst ?_ ?_
    | intro _
    | dsimp only
    | split

theorem execImport_keeps {s : State} (v : Word) (st : Fin 8) : ∃ nx, execImport v st s = .next nx ∧ s.Keeps [.regs, .gals, .ev, .adm,
    .dom, .pwrCmd, .boot, .bist] nx := by
  have hw : Field.sub [.regs, .gals, .ev, .adm, .dom, .pwrCmd, .boot, .bist] [.regs, .gals, .ev, .adm, .dom, .pwrCmd, .boot, .bist] =
    true := by decide
  refine ⟨_, rfl, ?_⟩
  have hk := State.Keeps.refl [.regs, .gals, .ev, .adm, .dom, .pwrCmd, .boot, .bist] s
  repeat' first
    | with_reducible assumption
    | with_reducible exact State.Keeps.refl _ _
    | with_reducible apply State.importStart_keeps (hw := Field.sub_trans (by decide) hw)
    | with_reducible refine keeps_ite ?_ ?_
    | with_reducible refine keeps_ite_fst ?_ ?_
    | intro _
    | dsimp only
    | split

theorem execImportComplete_keeps {s : State} (st : Fin 8) : ∃ nx, execImportComplete st s = .next nx ∧ s.Keeps [.regs, .gals, .ev, .adm,
    .boot, .sec] nx := by
  have hw : Field.sub [.regs, .gals, .ev, .adm, .boot, .sec] [.regs, .gals, .ev, .adm, .boot, .sec] = true := by decide
  refine ⟨_, rfl, ?_⟩
  have hk := State.Keeps.refl [.regs, .gals, .ev, .adm, .boot, .sec] s
  repeat' first
    | with_reducible assumption
    | with_reducible exact State.Keeps.refl _ _
    | with_reducible apply State.importComplete_keeps (hw := Field.sub_trans (by decide) hw)
    | with_reducible refine keeps_ite ?_ ?_
    | with_reducible refine keeps_ite_fst ?_ ?_
    | intro _
    | dsimp only
    | split

theorem execScrubFrameStep_keeps {s : State} (h : HallIx) (mirror : Fin 3) (diff : BitVec 4096) : ∃ nx, execScrubFrameStep h mirror diff
    s = .next nx ∧ s.Keeps [.regs, .halls, .ev, .boot] nx := by
  have hw : Field.sub [.regs, .halls, .ev, .boot] [.regs, .halls, .ev, .boot] = true := by decide
  refine ⟨_, rfl, ?_⟩
  have hk := State.Keeps.refl [.regs, .halls, .ev, .boot] s
  repeat' first
    | with_reducible assumption
    | with_reducible exact State.Keeps.refl _ _
    | with_reducible apply State.scrubStep_keeps (hw := Field.sub_trans (by decide) hw)
    | with_reducible refine keeps_ite ?_ ?_
    | with_reducible refine keeps_ite_fst ?_ ?_
    | intro _
    | dsimp only
    | split

theorem execScrubSlotReloadDone_keeps {s : State} (G : GalIx) (k : SlotIx) (fault : Bool) : ∃ nx, execScrubSlotReloadDone G k fault s =
    .next nx ∧ s.Keeps [.regs, .gals, .ev, .boot] nx := by
  have hw : Field.sub [.regs, .gals, .ev, .boot] [.regs, .gals, .ev, .boot] = true := by decide
  refine ⟨_, rfl, ?_⟩
  have hk := State.Keeps.refl [.regs, .gals, .ev, .boot] s
  repeat' first
    | with_reducible assumption
    | with_reducible exact State.Keeps.refl _ _
    | with_reducible apply State.slotReloaded_keeps (hw := Field.sub_trans (by decide) hw)
    | with_reducible refine keeps_ite ?_ ?_
    | with_reducible refine keeps_ite_fst ?_ ?_
    | intro _
    | dsimp only
    | split

theorem execPlaneLoadComplete_keeps {s : State} (G : GalIx) (f : LoadFacts) : ∃ nx, execPlaneLoadComplete G f s = .next nx ∧ s.Keeps
    [.regs, .gals, .halls, .ev, .boot, .net, .reqs, .seqNext, .free] nx := by
  have hw : Field.sub [.regs, .gals, .halls, .ev, .boot, .net, .reqs, .seqNext, .free] [.regs, .gals, .halls, .ev, .boot, .net, .reqs,
    .seqNext, .free] = true := by decide
  refine ⟨_, rfl, ?_⟩
  have hk := State.Keeps.refl [.regs, .gals, .halls, .ev, .boot, .net, .reqs, .seqNext, .free] s
  repeat' first
    | with_reducible assumption
    | with_reducible exact State.Keeps.refl _ _
    | with_reducible apply State.loadCompleted_keeps (hw := Field.sub_trans (by decide) hw)
    | with_reducible refine keeps_ite ?_ ?_
    | with_reducible refine keeps_ite_fst ?_ ?_
    | intro _
    | dsimp only
    | split

end Sys2Proof.Machine
end

