-- ==== Sys2Proof/Laws/KeepsOmist.lean ====
section
/-!
SUPPORT. Laws/KeepsOmist.lean: the operations of Machine/Omist.lean keep State.Keeps.
-/
namespace Sys2Proof.Machine
open Sys2Proof

theorem State.retired_keeps {W : List Field} {s₀ s : State} (hk : s₀.Keeps W s) (hw : Field.sub [.regs] W = true) (h : Nat) : s₀.Keeps W
    (State.retired s h) := by
  unfold State.retired
  repeat' first
    | with_reducible assumption
    | with_reducible exact State.Keeps.refl _ _
    | with_reducible apply State.incFld_keeps (hw := Field.sub_trans (by decide) hw)
    | with_reducible refine keeps_ite ?_ ?_
    | with_reducible refine keeps_ite_fst ?_ ?_
    | intro _
    | dsimp only
    | split

theorem State.turnedAway_keeps {W : List Field} {s₀ s : State} (hk : s₀.Keeps W s) (hw : Field.sub [.regs, .net, .reqs, .seqNext] W =
    true) (h : Nat) (p : Packet) (st : OSt) : s₀.Keeps W (State.turnedAway s h p st) := by
  unfold State.turnedAway
  repeat' first
    | with_reducible assumption
    | with_reducible exact State.Keeps.refl _ _
    | with_reducible apply State.respond_keeps (hw := Field.sub_trans (by decide) hw)
    | with_reducible apply State.retired_keeps (hw := Field.sub_trans (by decide) hw)
    | with_reducible refine keeps_ite ?_ ?_
    | with_reducible refine keeps_ite_fst ?_ ?_
    | intro _
    | dsimp only
    | split

theorem State.modLink_keeps {W : List Field} {s₀ s : State} (hk : s₀.Keeps W s) (hw : Field.sub [.halls] W = true) (h : Nat) (i : Nat) (f
    : Link → Link) : s₀.Keeps W (State.modLink s h i f) := by
  unfold State.modLink
  repeat' first
    | with_reducible assumption
    | with_reducible exact State.Keeps.refl _ _
    | with_reducible apply State.modHall_keeps (hw := Field.sub_trans (by decide) hw)
    | with_reducible refine keeps_ite ?_ ?_
    | with_reducible refine keeps_ite_fst ?_ ?_
    | intro _
    | dsimp only
    | split

theorem State.modBoth_keeps {W : List Field} {s₀ s : State} (hk : s₀.Keeps W s) (hw : Field.sub [.halls] W = true) (h : Nat) (i : Nat) (f
    : Link → Link) : s₀.Keeps W (State.modBoth s h i f) := by
  unfold State.modBoth
  repeat' first
    | with_reducible assumption
    | with_reducible exact State.Keeps.refl _ _
    | with_reducible apply State.modLink_keeps (hw := Field.sub_trans (by decide) hw)
    | with_reducible refine keeps_ite ?_ ?_
    | with_reducible refine keeps_ite_fst ?_ ?_
    | intro _
    | dsimp only
    | split

theorem State.modCorr_keeps {W : List Field} {s₀ s : State} (hk : s₀.Keeps W s) (hw : Field.sub [.corrs] W = true) (c : Nat) (f : Corr →
    Corr) : s₀.Keeps W (State.modCorr s c f) := by
  unfold State.modCorr
  repeat' first
    | with_reducible assumption
    | with_reducible exact State.Keeps.refl _ _
    | with_reducible refine keeps_ite ?_ ?_
    | with_reducible refine keeps_ite_fst ?_ ?_
    | intro _
    | dsimp only
    | simp (disch := first | assumption | (with_unfolding_all (intro (x : Field) hx; cases x <;>
        first | exact absurd hx (by decide) | (dsimp only [Field.same]; done) | (dsimp only [Field.same]; exact ⟨rfl, rfl⟩)))) only [keeps_mk hw]
    | split

theorem State.corrShow_keeps {W : List Field} {s₀ s : State} (hk : s₀.Keeps W s) (hw : Field.sub [.regs] W = true) (c : Nat) (f : Fld) (n
    : Nat) : s₀.Keeps W (State.corrShow s c f n) := by
  unfold State.corrShow
  repeat' first
    | with_reducible assumption
    | with_reducible exact State.Keeps.refl _ _
    | with_reducible apply State.setFld_keeps (hw := Field.sub_trans (by decide) hw)
    | with_reducible refine keeps_ite ?_ ?_
    | with_reducible refine keeps_ite_fst ?_ ?_
    | intro _
    | dsimp only
    | split

theorem State.meshSettle_keeps {W : List Field} {s₀ s : State} (hk : s₀.Keeps W s) (hw : Field.sub [.regs, .ev] W = true) (c : Nat) (m :
    Nat) : s₀.Keeps W (State.meshSettle s c m) := by
  unfold State.meshSettle
  repeat' first
    | with_reducible assumption
    | with_reducible exact State.Keeps.refl _ _
    | with_reducible apply State.post_keeps (hw := Field.sub_trans (by decide) hw)
    | with_reducible apply State.corrShow_keeps (hw := Field.sub_trans (by decide) hw)
    | with_reducible refine keeps_ite ?_ ?_
    | with_reducible refine keeps_ite_fst ?_ ?_
    | intro _
    | dsimp only
    | split

theorem State.corrSettle_keeps {W : List Field} {s₀ s : State} (hk : s₀.Keeps W s) (hw : Field.sub [.regs, .ev, .corrs] W = true) (c :
    Nat) : s₀.Keeps W (State.corrSettle s c) := by
  unfold State.corrSettle
  repeat' first
    | with_reducible assumption
    | with_reducible exact State.Keeps.refl _ _
    | with_reducible apply State.post_keeps (hw := Field.sub_trans (by decide) hw)
    | with_reducible apply State.modCorr_keeps (hw := Field.sub_trans (by decide) hw)
    | with_reducible apply State.meshSettle_keeps (hw := Field.sub_trans (by decide) hw)
    | with_reducible apply State.corrShow_keeps (hw := Field.sub_trans (by decide) hw)
    | with_reducible refine keeps_ite ?_ ?_
    | with_reducible refine keeps_ite_fst ?_ ?_
    | intro _
    | dsimp only
    | split

theorem State.setEnd_keeps {W : List Field} {s₀ s : State} (hk : s₀.Keeps W s) (hw : Field.sub [.corrs] W = true) (c : Nat) (h : Nat) (ch
    : Nat) (st : Nat) : s₀.Keeps W (State.setEnd s c h ch st) := by
  unfold State.setEnd
  repeat' first
    | with_reducible assumption
    | with_reducible exact State.Keeps.refl _ _
    | with_reducible apply State.modCorr_keeps (hw := Field.sub_trans (by decide) hw)
    | with_reducible refine keeps_ite ?_ ?_
    | with_reducible refine keeps_ite_fst ?_ ?_
    | intro _
    | dsimp only
    | split

theorem State.setChan_keeps {W : List Field} {s₀ s : State} (hk : s₀.Keeps W s) (hw : Field.sub [.corrs] W = true) (c : Nat) (ch : Nat)
    (st : Nat) : s₀.Keeps W (State.setChan s c ch st) := by
  unfold State.setChan
  repeat' first
    | with_reducible assumption
    | with_reducible exact State.Keeps.refl _ _
    | with_reducible apply State.setEnd_keeps (hw := Field.sub_trans (by decide) hw)
    | with_reducible refine keeps_ite ?_ ?_
    | with_reducible refine keeps_ite_fst ?_ ?_
    | intro _
    | dsimp only
    | split

theorem State.cutPackets_keeps {W : List Field} {s₀ s : State} (hk : s₀.Keeps W s) (hw : Field.sub [.net] W = true) (l : List Packet) :
    s₀.Keeps W (State.cutPackets s l) := by
  unfold State.cutPackets
  repeat' first
    | with_reducible assumption
    | with_reducible exact State.Keeps.refl _ _
    | with_reducible refine keeps_ite ?_ ?_
    | with_reducible refine keeps_ite_fst ?_ ?_
    | intro _
    | dsimp only
    | simp (disch := first | assumption | (with_unfolding_all (intro (x : Field) hx; cases x <;>
        first | exact absurd hx (by decide) | (dsimp only [Field.same]; done) | (dsimp only [Field.same]; exact ⟨rfl, rfl⟩)))) only [keeps_mk hw]
    | split

theorem State.putNet_keeps {W : List Field} {s₀ s : State} (hk : s₀.Keeps W s) (hw : Field.sub [.net] W = true) (l : List Packet) :
    s₀.Keeps W (State.putNet s l) := by
  unfold State.putNet
  repeat' first
    | with_reducible assumption
    | with_reducible exact State.Keeps.refl _ _
    | with_reducible refine keeps_ite ?_ ?_
    | with_reducible refine keeps_ite_fst ?_ ?_
    | intro _
    | dsimp only
    | simp (disch := first | assumption | (with_unfolding_all (intro (x : Field) hx; cases x <;>
        first | exact absurd hx (by decide) | (dsimp only [Field.same]; done) | (dsimp only [Field.same]; exact ⟨rfl, rfl⟩)))) only [keeps_mk hw]
    | split

theorem State.endFences_keeps {W : List Field} {s₀ s : State} (hk : s₀.Keeps W s) (hw : Field.sub [.regs, .ev, .net, .corrs] W = true) (h
    : Nat) (c : Nat) (ch : Nat) (own : Bool) (part : List (Fin 4)) : s₀.Keeps W (State.endFences s h c ch own part) := by
  unfold State.endFences
  repeat' first
    | with_reducible assumption
    | with_reducible exact State.Keeps.refl _ _
    | with_reducible apply State.putNet_keeps (hw := Field.sub_trans (by decide) hw)
    | with_reducible apply State.cutPackets_keeps (hw := Field.sub_trans (by decide) hw)
    | with_reducible apply State.modCorr_keeps (hw := Field.sub_trans (by decide) hw)
    | with_reducible apply State.setEnd_keeps (hw := Field.sub_trans (by decide) hw)
    | with_reducible apply State.post_keeps (hw := Field.sub_trans (by decide) hw)
    | with_reducible refine keeps_ite ?_ ?_
    | with_reducible refine keeps_ite_fst ?_ ?_
    | intro _
    | dsimp only
    | split

theorem State.endLearns_keeps {W : List Field} {s₀ s : State} (hk : s₀.Keeps W s) (hw : Field.sub [.regs, .ev, .net, .corrs] W = true) (c
    : Nat) (h : Nat) (ch : Nat) : s₀.Keeps W (State.endLearns s c h ch) := by
  unfold State.endLearns
  repeat' first
    | with_reducible assumption
    | with_reducible exact State.Keeps.refl _ _
    | with_reducible apply State.endFences_keeps (hw := Field.sub_trans (by decide) hw)
    | with_reducible refine keeps_ite ?_ ?_
    | with_reducible refine keeps_ite_fst ?_ ?_
    | intro _
    | dsimp only
    | split

theorem State.chanTest_keeps {W : List Field} {s₀ s : State} (hk : s₀.Keeps W s) (hw : Field.sub [.regs, .ev, .net, .corrs] W = true) (h
    : Nat) (c : Nat) (ch : Nat) : s₀.Keeps W (State.chanTest s h c ch) := by
  unfold State.chanTest
  repeat' first
    | with_reducible assumption
    | with_reducible exact State.Keeps.refl _ _
    | with_reducible apply State.modCorr_keeps (hw := Field.sub_trans (by decide) hw)
    | with_reducible apply State.setChan_keeps (hw := Field.sub_trans (by decide) hw)
    | with_reducible apply State.endLearns_keeps (hw := Field.sub_trans (by decide) hw)
    | with_reducible refine keeps_ite ?_ ?_
    | with_reducible refine keeps_ite_fst ?_ ?_
    | intro _
    | dsimp only
    | split

theorem State.hallFenceSet_keeps {W : List Field} {s₀ s : State} (hk : s₀.Keeps W s) (hw : Field.sub [.regs, .ev, .corrs] W = true) (h :
    Nat) (cause : Nat) : s₀.Keeps W (State.hallFenceSet s h cause) := by
  unfold State.hallFenceSet
  repeat' first
    | with_reducible assumption
    | with_reducible exact State.Keeps.refl _ _
    | with_reducible apply State.post_keeps (hw := Field.sub_trans (by decide) hw)
    | with_reducible apply State.setFld_keeps (hw := Field.sub_trans (by decide) hw)
    | with_reducible apply State.corrSettle_keeps (hw := Field.sub_trans (by decide) hw)
    | with_reducible refine keeps_ite ?_ ?_
    | with_reducible refine keeps_ite_fst ?_ ?_
    | with_reducible refine keeps_foldl _ _ ?_ ?_
    | with_reducible refine keeps_foldl_fst _ _ ?_ ?_
    | intro _
    | dsimp only
    | split

theorem State.hallFenceClear_keeps {W : List Field} {s₀ s : State} (hk : s₀.Keeps W s) (hw : Field.sub [.regs, .ev, .net, .corrs] W =
    true) (h : Nat) : s₀.Keeps W (State.hallFenceClear s h) := by
  unfold State.hallFenceClear
  repeat' first
    | with_reducible assumption
    | with_reducible exact State.Keeps.refl _ _
    | with_reducible apply State.setFld_keeps (hw := Field.sub_trans (by decide) hw)
    | with_reducible apply State.chanTest_keeps (hw := Field.sub_trans (by decide) hw)
    | with_reducible apply State.corrSettle_keeps (hw := Field.sub_trans (by decide) hw)
    | with_reducible refine keeps_ite ?_ ?_
    | with_reducible refine keeps_ite_fst ?_ ?_
    | with_reducible refine keeps_foldl _ _ ?_ ?_
    | with_reducible refine keeps_foldl_fst _ _ ?_ ?_
    | intro _
    | dsimp only
    | split

theorem State.hallFenceWrite_keeps {W : List Field} {s₀ s : State} (hk : s₀.Keeps W s) (hw : Field.sub [.regs, .ev, .net, .corrs] W =
    true) (h : Nat) (v : Word) : s₀.Keeps W (State.hallFenceWrite s h v) := by
  unfold State.hallFenceWrite
  repeat' first
    | with_reducible assumption
    | with_reducible exact State.Keeps.refl _ _
    | with_reducible apply State.hallFenceSet_keeps (hw := Field.sub_trans (by decide) hw)
    | with_reducible apply State.hallFenceClear_keeps (hw := Field.sub_trans (by decide) hw)
    | with_reducible refine keeps_ite ?_ ?_
    | with_reducible refine keeps_ite_fst ?_ ?_
    | intro _
    | dsimp only
    | split

theorem State.corrFence_keeps {W : List Field} {s₀ s : State} (hk : s₀.Keeps W s) (hw : Field.sub [.regs, .ev, .corrs] W = true) (h :
    Nat) (k : Nat) (v : Word) : s₀.Keeps W (State.corrFence s h k v) := by
  unfold State.corrFence
  repeat' first
    | with_reducible assumption
    | with_reducible exact State.Keeps.refl _ _
    | with_reducible apply State.corrSettle_keeps (hw := Field.sub_trans (by decide) hw)
    | with_reducible apply State.writeFields_keeps (hw := Field.sub_trans (by decide) hw)
    | with_reducible refine keeps_ite ?_ ?_
    | with_reducible refine keeps_ite_fst ?_ ?_
    | intro _
    | dsimp only
    | split

theorem State.corrReadmit_keeps {W : List Field} {s₀ s : State} (hk : s₀.Keeps W s) (hw : Field.sub [.regs, .ev, .net, .corrs] W = true)
    (h : Nat) (k : Nat) : s₀.Keeps W (State.corrReadmit s h k) := by
  unfold State.corrReadmit
  repeat' first
    | with_reducible assumption
    | with_reducible exact State.Keeps.refl _ _
    | with_reducible apply State.chanTest_keeps (hw := Field.sub_trans (by decide) hw)
    | with_reducible apply State.corrSettle_keeps (hw := Field.sub_trans (by decide) hw)
    | with_reducible refine keeps_ite ?_ ?_
    | with_reducible refine keeps_ite_fst ?_ ?_
    | with_reducible refine keeps_foldl _ _ ?_ ?_
    | with_reducible refine keeps_foldl_fst _ _ ?_ ?_
    | intro _
    | dsimp only
    | split

theorem State.corrCtrlWrite_keeps {W : List Field} {s₀ s : State} (hk : s₀.Keeps W s) (hw : Field.sub [.regs, .ev, .net, .corrs] W =
    true) (h : Nat) (k : Nat) (v : Word) : s₀.Keeps W (State.corrCtrlWrite s h k v) := by
  unfold State.corrCtrlWrite
  repeat' first
    | with_reducible assumption
    | with_reducible exact State.Keeps.refl _ _
    | with_reducible apply State.corrFence_keeps (hw := Field.sub_trans (by decide) hw)
    | with_reducible apply State.corrReadmit_keeps (hw := Field.sub_trans (by decide) hw)
    | with_reducible refine keeps_ite ?_ ?_
    | with_reducible refine keeps_ite_fst ?_ ?_
    | intro _
    | dsimp only
    | split

theorem State.linkReplay_keeps {W : List Field} {s₀ s : State} (hk : s₀.Keeps W s) (hw : Field.sub [.net] W = true) (h : Nat) (i : Nat)
    (part : List (Fin 4)) : s₀.Keeps W (State.linkReplay s h i part) := by
  unfold State.linkReplay
  repeat' first
    | with_reducible assumption
    | with_reducible exact State.Keeps.refl _ _
    | with_reducible apply State.putNet_keeps (hw := Field.sub_trans (by decide) hw)
    | with_reducible apply State.cutPackets_keeps (hw := Field.sub_trans (by decide) hw)
    | with_reducible refine keeps_ite ?_ ?_
    | with_reducible refine keeps_ite_fst ?_ ?_
    | intro _
    | dsimp only
    | split

theorem State.linkDead_keeps {W : List Field} {s₀ s : State} (hk : s₀.Keeps W s) (hw : Field.sub [.regs, .halls, .ev, .net, .corrs] W =
    true) (h : Nat) (l : LinkRef) (part : List (Fin 4 × Bool)) : s₀.Keeps W (State.linkDead s h l part) := by
  unfold State.linkDead
  repeat' first
    | with_reducible assumption
    | with_reducible exact State.Keeps.refl _ _
    | with_reducible apply State.linkReplay_keeps (hw := Field.sub_trans (by decide) hw)
    | with_reducible apply State.post_keeps (hw := Field.sub_trans (by decide) hw)
    | with_reducible apply State.modBoth_keeps (hw := Field.sub_trans (by decide) hw)
    | with_reducible apply State.corrSettle_keeps (hw := Field.sub_trans (by decide) hw)
    | with_reducible apply State.endFences_keeps (hw := Field.sub_trans (by decide) hw)
    | with_reducible refine keeps_ite ?_ ?_
    | with_reducible refine keeps_ite_fst ?_ ?_
    | intro _
    | dsimp only
    | split

theorem State.noticeDead_keeps {W : List Field} {s₀ s : State} (hk : s₀.Keeps W s) (hw : Field.sub [.regs, .ev, .net, .corrs] W = true)
    (h : Nat) (k : Nat) (ch : Nat) : s₀.Keeps W (State.noticeDead s h k ch) := by
  unfold State.noticeDead
  repeat' first
    | with_reducible assumption
    | with_reducible exact State.Keeps.refl _ _
    | with_reducible apply State.corrSettle_keeps (hw := Field.sub_trans (by decide) hw)
    | with_reducible apply State.endFences_keeps (hw := Field.sub_trans (by decide) hw)
    | with_reducible refine keeps_ite ?_ ?_
    | with_reducible refine keeps_ite_fst ?_ ?_
    | intro _
    | dsimp only
    | split

theorem State.chanLate_keeps {W : List Field} {s₀ s : State} (hk : s₀.Keeps W s) (hw : Field.sub [.regs, .ev, .corrs] W = true) (h : Nat)
    (c : Nat) (ch : Nat) (n : Nat) : s₀.Keeps W (State.chanLate s h c ch n) := by
  unfold State.chanLate
  repeat' first
    | with_reducible assumption
    | with_reducible exact State.Keeps.refl _ _
    | with_reducible apply State.incFld_keeps (hw := Field.sub_trans (by decide) hw)
    | with_reducible apply State.post_keeps (hw := Field.sub_trans (by decide) hw)
    | with_reducible apply State.modCorr_keeps (hw := Field.sub_trans (by decide) hw)
    | with_reducible refine keeps_ite ?_ ?_
    | with_reducible refine keeps_ite_fst ?_ ?_
    | intro _
    | dsimp only
    | split

theorem State.lateSpeaker_keeps {W : List Field} {s₀ s : State} (hk : s₀.Keeps W s) (hw : Field.sub [.regs, .halls, .ev, .corrs] W =
    true) (h : Nat) (x2 : LinkRef) : s₀.Keeps W (State.lateSpeaker s h x2) := by
  unfold State.lateSpeaker
  repeat' first
    | with_reducible assumption
    | with_reducible exact State.Keeps.refl _ _
    | with_reducible apply State.incFld_keeps (hw := Field.sub_trans (by decide) hw)
    | with_reducible apply State.modLink_keeps (hw := Field.sub_trans (by decide) hw)
    | with_reducible apply State.post_keeps (hw := Field.sub_trans (by decide) hw)
    | with_reducible apply State.chanLate_keeps (hw := Field.sub_trans (by decide) hw)
    | with_reducible refine keeps_ite ?_ ?_
    | with_reducible refine keeps_ite_fst ?_ ?_
    | intro _
    | dsimp only
    | split

theorem State.linkTested_keeps {W : List Field} {s₀ s : State} (hk : s₀.Keeps W s) (hw : Field.sub [.regs, .halls, .ev] W = true) (h :
    Nat) (i : Nat) (r : Nat) : s₀.Keeps W (State.linkTested s h i r) := by
  unfold State.linkTested
  repeat' first
    | with_reducible assumption
    | with_reducible exact State.Keeps.refl _ _
    | with_reducible apply State.post_keeps (hw := Field.sub_trans (by decide) hw)
    | with_reducible apply State.modBoth_keeps (hw := Field.sub_trans (by decide) hw)
    | with_reducible refine keeps_ite ?_ ?_
    | with_reducible refine keeps_ite_fst ?_ ?_
    | intro _
    | dsimp only
    | split

theorem State.linkReadmit_keeps {W : List Field} {s₀ s : State} (hk : s₀.Keeps W s) (hw : Field.sub [.regs, .halls, .ev] W = true) (h :
    Nat) (i : Nat) : s₀.Keeps W (State.linkReadmit s h i) := by
  unfold State.linkReadmit
  repeat' first
    | with_reducible assumption
    | with_reducible exact State.Keeps.refl _ _
    | with_reducible apply State.linkTested_keeps (hw := Field.sub_trans (by decide) hw)
    | with_reducible apply State.modBoth_keeps (hw := Field.sub_trans (by decide) hw)
    | with_reducible refine keeps_ite ?_ ?_
    | with_reducible refine keeps_ite_fst ?_ ?_
    | intro _
    | dsimp only
    | split

theorem State.readmitWrite_keeps {W : List Field} {s₀ s : State} (hk : s₀.Keeps W s) (hw : Field.sub [.regs, .halls, .ev] W = true) (h :
    Nat) (v : Word) : s₀.Keeps W (State.readmitWrite s h v) := by
  unfold State.readmitWrite
  repeat' first
    | with_reducible assumption
    | with_reducible exact State.Keeps.refl _ _
    | with_reducible apply State.linkReadmit_keeps (hw := Field.sub_trans (by decide) hw)
    | with_reducible refine keeps_ite ?_ ?_
    | with_reducible refine keeps_ite_fst ?_ ?_
    | intro _
    | dsimp only
    | split

theorem State.selfTestDone_keeps {W : List Field} {s₀ s : State} (hk : s₀.Keeps W s) (hw : Field.sub [.regs, .halls, .ev, .corrs] W =
    true) (h : Nat) (l : LinkRef) (r : Nat) : s₀.Keeps W (State.selfTestDone s h l r) := by
  unfold State.selfTestDone
  repeat' first
    | with_reducible assumption
    | with_reducible exact State.Keeps.refl _ _
    | with_reducible apply State.linkTested_keeps (hw := Field.sub_trans (by decide) hw)
    | with_reducible apply State.corrSettle_keeps (hw := Field.sub_trans (by decide) hw)
    | with_reducible apply State.post_keeps (hw := Field.sub_trans (by decide) hw)
    | with_reducible apply State.setChan_keeps (hw := Field.sub_trans (by decide) hw)
    | with_reducible refine keeps_ite ?_ ?_
    | with_reducible refine keeps_ite_fst ?_ ?_
    | intro _
    | dsimp only
    | split

theorem State.lensTrace_keeps {W : List Field} {s₀ s : State} (hk : s₀.Keeps W s) (hw : Field.sub [.regs, .halls, .ev] W = true) (h :
    Nat) (k : Nat) (flits : Nat) (stall : Nat) (p : Packet) (lost : Bool) : s₀.Keeps W (State.lensTrace s h k flits stall p lost) := by
  unfold State.lensTrace
  repeat' first
    | with_reducible assumption
    | with_reducible exact State.Keeps.refl _ _
    | with_reducible apply State.incFld_keeps (hw := Field.sub_trans (by decide) hw)
    | with_reducible apply State.postLim_keeps (hw := Field.sub_trans (by decide) hw)
    | with_reducible apply State.modHall_keeps (hw := Field.sub_trans (by decide) hw)
    | with_reducible apply State.setFld_keeps (hw := Field.sub_trans (by decide) hw)
    | with_reducible refine keeps_ite ?_ ?_
    | with_reducible refine keeps_ite_fst ?_ ?_
    | intro _
    | dsimp only
    | split

theorem State.lensSee_keeps {W : List Field} {s₀ s : State} (hk : s₀.Keeps W s) (hw : Field.sub [.regs, .halls, .ev] W = true) (h : Nat)
    (m : Nat) (n : Nat) (d : Nat) (dir : Nat) (p : Packet) (stall : Nat) (lost : Bool) : s₀.Keeps W (State.lensSee s h m n d dir p stall
    lost) := by
  unfold State.lensSee
  repeat' first
    | with_reducible assumption
    | with_reducible exact State.Keeps.refl _ _
    | with_reducible apply State.incFld_keeps (hw := Field.sub_trans (by decide) hw)
    | with_reducible apply State.lensTrace_keeps (hw := Field.sub_trans (by decide) hw)
    | with_reducible refine keeps_ite ?_ ?_
    | with_reducible refine keeps_ite_fst ?_ ?_
    | with_reducible refine keeps_foldl _ _ ?_ ?_
    | with_reducible refine keeps_foldl_fst _ _ ?_ ?_
    | intro _
    | dsimp only
    | split

theorem State.changePacket_keeps {W : List Field} {s₀ s : State} (hk : s₀.Keeps W s) (hw : Field.sub [.net] W = true) (p : Packet) (q :
    Packet) : s₀.Keeps W (State.changePacket s p q) := by
  unfold State.changePacket
  repeat' first
    | with_reducible assumption
    | with_reducible exact State.Keeps.refl _ _
    | with_reducible refine keeps_ite ?_ ?_
    | with_reducible refine keeps_ite_fst ?_ ?_
    | intro _
    | dsimp only
    | simp (disch := first | assumption | (with_unfolding_all (intro (x : Field) hx; cases x <;>
        first | exact absurd hx (by decide) | (dsimp only [Field.same]; done) | (dsimp only [Field.same]; exact ⟨rfl, rfl⟩)))) only [keeps_mk hw]
    | split

theorem State.outputSent_keeps {W : List Field} {s₀ s : State} (hk : s₀.Keeps W s) (hw : Field.sub [.halls] W = true) (p : Packet) (e :
    Hop) : s₀.Keeps W (State.outputSent s p e) := by
  unfold State.outputSent
  repeat' first
    | with_reducible assumption
    | with_reducible exact State.Keeps.refl _ _
    | with_reducible apply State.modLink_keeps (hw := Field.sub_trans (by decide) hw)
    | with_reducible refine keeps_ite ?_ ?_
    | with_reducible refine keeps_ite_fst ?_ ?_
    | intro _
    | dsimp only
    | split

theorem State.noRoute_keeps {W : List Field} {s₀ s : State} (hk : s₀.Keeps W s) (hw : Field.sub [.regs, .ev, .net, .reqs, .seqNext] W =
    true) (h : Nat) (p : Packet) : s₀.Keeps W (State.noRoute s h p) := by
  unfold State.noRoute
  repeat' first
    | with_reducible assumption
    | with_reducible exact State.Keeps.refl _ _
    | with_reducible apply State.turnedAway_keeps (hw := Field.sub_trans (by decide) hw)
    | with_reducible apply State.take_keeps (hw := Field.sub_trans (by decide) hw)
    | with_reducible apply State.postLim_keeps (hw := Field.sub_trans (by decide) hw)
    | with_reducible refine keeps_ite ?_ ?_
    | with_reducible refine keeps_ite_fst ?_ ?_
    | intro _
    | dsimp only
    | split

theorem State.hdrCheck_keeps {W : List Field} {s₀ s : State} (hk : s₀.Keeps W s) (hw : Field.sub [.regs, .ev] W = true) (h : Nat) (n :
    Nat) (d : Nat) : s₀.Keeps W (State.hdrCheck s h n d) := by
  unfold State.hdrCheck
  repeat' first
    | with_reducible assumption
    | with_reducible exact State.Keeps.refl _ _
    | with_reducible apply State.postLim_keeps (hw := Field.sub_trans (by decide) hw)
    | with_reducible apply State.incFld_keeps (hw := Field.sub_trans (by decide) hw)
    | with_reducible refine keeps_ite ?_ ?_
    | with_reducible refine keeps_ite_fst ?_ ?_
    | intro _
    | dsimp only
    | split

theorem State.poisonCheck_keeps {W : List Field} {s₀ s : State} (hk : s₀.Keeps W s) (hw : Field.sub [.regs, .ev] W = true) (h : Nat) (n :
    Nat) (d : Nat) (p : Packet) : s₀.Keeps W (State.poisonCheck s h n d p).1 := by
  unfold State.poisonCheck
  repeat' first
    | with_reducible assumption
    | with_reducible exact State.Keeps.refl _ _
    | with_reducible apply State.postLim_keeps (hw := Field.sub_trans (by decide) hw)
    | with_reducible apply State.incFld_keeps (hw := Field.sub_trans (by decide) hw)
    | with_reducible refine keeps_ite ?_ ?_
    | with_reducible refine keeps_ite_fst ?_ ?_
    | intro _
    | dsimp only
    | split

theorem State.confirm_keeps {W : List Field} {s₀ s : State} (hk : s₀.Keeps W s) (hw : Field.sub [.regs, .halls, .ev, .corrs] W = true) (p
    : Packet) (conf : Bool) : s₀.Keeps W (State.confirm s p conf) := by
  unfold State.confirm
  repeat' first
    | with_reducible assumption
    | with_reducible exact State.Keeps.refl _ _
    | with_reducible apply State.modCorr_keeps (hw := Field.sub_trans (by decide) hw)
    | with_reducible apply State.corrSettle_keeps (hw := Field.sub_trans (by decide) hw)
    | with_reducible apply State.modLink_keeps (hw := Field.sub_trans (by decide) hw)
    | with_reducible refine keeps_ite ?_ ?_
    | with_reducible refine keeps_ite_fst ?_ ?_
    | intro _
    | dsimp only
    | split

theorem State.crosses_keeps {W : List Field} {s₀ s : State} (hk : s₀.Keeps W s) (hw : Field.sub [.regs, .ev, .net, .corrs] W = true) (c :
    Nat) (h : Nat) (ch : Nat) (g : Nat) (k : Nat) (m : Nat) (p : Packet) : s₀.Keeps W (State.crosses s c h ch g k m p).1 := by
  unfold State.crosses
  repeat' first
    | with_reducible assumption
    | with_reducible exact State.Keeps.refl _ _
    | with_reducible apply State.chanLate_keeps (hw := Field.sub_trans (by decide) hw)
    | with_reducible apply State.modCorr_keeps (hw := Field.sub_trans (by decide) hw)
    | with_reducible apply State.take_keeps (hw := Field.sub_trans (by decide) hw)
    | with_reducible apply State.changePacket_keeps (hw := Field.sub_trans (by decide) hw)
    | with_reducible refine keeps_ite ?_ ?_
    | with_reducible refine keeps_ite_fst ?_ ?_
    | intro _
    | dsimp only
    | split

theorem State.moves_keeps {W : List Field} {s₀ s : State} (hk : s₀.Keeps W s) (hw : Field.sub [.regs, .halls, .ev, .net, .reqs, .seqNext,
    .corrs] W = true) (p : Packet) (e : Hop) (conf : Bool) : s₀.Keeps W (State.moves s p e conf).1 := by
  unfold State.moves
  repeat' first
    | with_reducible assumption
    | with_reducible exact State.Keeps.refl _ _
    | with_reducible apply State.confirm_keeps (hw := Field.sub_trans (by decide) hw)
    | with_reducible apply State.changePacket_keeps (hw := Field.sub_trans (by decide) hw)
    | with_reducible apply State.outputSent_keeps (hw := Field.sub_trans (by decide) hw)
    | with_reducible apply State.crosses_keeps (hw := Field.sub_trans (by decide) hw)
    | with_reducible apply State.noRoute_keeps (hw := Field.sub_trans (by decide) hw)
    | with_reducible refine keeps_ite ?_ ?_
    | with_reducible refine keeps_ite_fst ?_ ?_
    | intro _
    | dsimp only
    | split

theorem State.enters_keeps {W : List Field} {s₀ s : State} (hk : s₀.Keeps W s) (hw : Field.sub [.regs, .halls, .ev, .net, .corrs] W =
    true) (p : Packet) (stall : Nat) (lost : Bool) : s₀.Keeps W (State.enters s p stall lost).1 := by
  unfold State.enters
  repeat' first
    | with_reducible assumption
    | with_reducible exact State.Keeps.refl _ _
    | with_reducible apply State.confirm_keeps (hw := Field.sub_trans (by decide) hw)
    | with_reducible apply State.hdrCheck_keeps (hw := Field.sub_trans (by decide) hw)
    | with_reducible apply State.take_keeps (hw := Field.sub_trans (by decide) hw)
    | with_reducible apply State.poisonCheck_keeps (hw := Field.sub_trans (by decide) hw)
    | with_reducible apply State.lensSee_keeps (hw := Field.sub_trans (by decide) hw)
    | with_reducible apply State.changePacket_keeps (hw := Field.sub_trans (by decide) hw)
    | with_reducible refine keeps_ite ?_ ?_
    | with_reducible refine keeps_ite_fst ?_ ?_
    | intro _
    | dsimp only
    | split

theorem State.hop_keeps {W : List Field} {s₀ s : State} (hk : s₀.Keeps W s) (hw : Field.sub [.regs, .halls, .ev, .net, .reqs, .seqNext,
    .corrs] W = true) (p : Packet) (stallIn : Nat) (stallOut : Nat) (lost : Bool) (conf : Bool) : s₀.Keeps W (State.hop s p stallIn
    stallOut lost conf).1 := by
  unfold State.hop
  repeat' first
    | with_reducible assumption
    | with_reducible exact State.Keeps.refl _ _
    | with_reducible apply State.enters_keeps (hw := Field.sub_trans (by decide) hw)
    | with_reducible apply State.changePacket_keeps (hw := Field.sub_trans (by decide) hw)
    | with_reducible apply State.moves_keeps (hw := Field.sub_trans (by decide) hw)
    | with_reducible apply State.lensSee_keeps (hw := Field.sub_trans (by decide) hw)
    | with_reducible refine keeps_ite ?_ ?_
    | with_reducible refine keeps_ite_fst ?_ ?_
    | intro _
    | dsimp only
    | split

theorem State.travel_keeps {W : List Field} {s₀ s : State} (hk : s₀.Keeps W s) (hw : Field.sub [.regs, .halls, .ev, .net, .reqs, .seqNext, .corrs] W = true)
    (n : Nat) (p : Packet) :
    s₀.Keeps W (State.travel n s p).1 := by
  induction n generalizing s p with
  | zero => exact hk
  | succ n ih =>
    have h1 : s₀.Keeps W (s.hop p 0 0 false true).1 := State.hop_keeps hk (Field.sub_trans (by decide) hw) p 0 0 false true
    unfold State.travel
    dsimp only
    refine keeps_ite_fst hk ?_
    split
    · exact h1
    · exact keeps_ite_fst h1 (ih h1 _)

theorem State.reach_keeps {W : List Field} {s₀ s : State} (hk : s₀.Keeps W s) (hw : Field.sub [.regs, .halls, .ev, .net, .reqs, .seqNext,
    .corrs] W = true) (p : Packet) : s₀.Keeps W (State.reach s p).1 := by
  unfold State.reach
  repeat' first
    | with_reducible assumption
    | with_reducible exact State.Keeps.refl _ _
    | with_reducible apply State.travel_keeps (hw := Field.sub_trans (by decide) hw)
    | with_reducible refine keeps_ite ?_ ?_
    | with_reducible refine keeps_ite_fst ?_ ?_
    | intro _
    | dsimp only
    | split

theorem State.istatAdd_keeps {W : List Field} {s₀ s : State} (hk : s₀.Keeps W s) (hw : Field.sub [.istat] W = true) (r : Packet) (st :
    Nat) (lat : Nat) : s₀.Keeps W (State.istatAdd s r st lat) := by
  unfold State.istatAdd
  repeat' first
    | with_reducible assumption
    | with_reducible exact State.Keeps.refl _ _
    | with_reducible refine keeps_ite ?_ ?_
    | with_reducible refine keeps_ite_fst ?_ ?_
    | intro _
    | dsimp only
    | simp (disch := first | assumption | (with_unfolding_all (intro (x : Field) hx; cases x <;>
        first | exact absurd hx (by decide) | (dsimp only [Field.same]; done) | (dsimp only [Field.same]; exact ⟨rfl, rfl⟩)))) only [keeps_mk hw]
    | split

theorem State.istatShow_keeps {W : List Field} {s₀ s : State} (hk : s₀.Keeps W s) (hw : Field.sub [.regs] W = true) (h : Nat) (i : Nat) :
    s₀.Keeps W (State.istatShow s h i) := by
  unfold State.istatShow
  repeat' first
    | with_reducible assumption
    | with_reducible exact State.Keeps.refl _ _
    | with_reducible apply State.setReg_keeps (hw := Field.sub_trans (by decide) hw)
    | with_reducible refine keeps_ite ?_ ?_
    | with_reducible refine keeps_ite_fst ?_ ?_
    | with_reducible refine keeps_foldl _ _ ?_ ?_
    | with_reducible refine keeps_foldl_fst _ _ ?_ ?_
    | intro _
    | dsimp only
    | split

theorem State.istatSnap_keeps {W : List Field} {s₀ s : State} (hk : s₀.Keeps W s) (hw : Field.sub [.regs, .istat] W = true) (h : Nat) :
    s₀.Keeps W (State.istatSnap s h) := by
  unfold State.istatSnap
  repeat' first
    | with_reducible assumption
    | with_reducible exact State.Keeps.refl _ _
    | with_reducible apply State.istatShow_keeps (hw := Field.sub_trans (by decide) hw)
    | with_reducible refine keeps_ite ?_ ?_
    | with_reducible refine keeps_ite_fst ?_ ?_
    | with_reducible refine keeps_foldl _ _ ?_ ?_
    | with_reducible refine keeps_foldl_fst _ _ ?_ ?_
    | intro _
    | dsimp only
    | simp (disch := first | assumption | (with_unfolding_all (intro (x : Field) hx; cases x <;>
        first | exact absurd hx (by decide) | (dsimp only [Field.same]; done) | (dsimp only [Field.same]; exact ⟨rfl, rfl⟩)))) only [keeps_mk hw]
    | split

theorem State.istatCtrlWrite_keeps {W : List Field} {s₀ s : State} (hk : s₀.Keeps W s) (hw : Field.sub [.regs, .istat] W = true) (h :
    Nat) (v : Word) : s₀.Keeps W (State.istatCtrlWrite s h v) := by
  unfold State.istatCtrlWrite
  repeat' first
    | with_reducible assumption
    | with_reducible exact State.Keeps.refl _ _
    | with_reducible apply State.writeFields_keeps (hw := Field.sub_trans (by decide) hw)
    | with_reducible apply State.istatSnap_keeps (hw := Field.sub_trans (by decide) hw)
    | with_reducible refine keeps_ite ?_ ?_
    | with_reducible refine keeps_ite_fst ?_ ?_
    | intro _
    | dsimp only
    | split

theorem State.tptrWrite_keeps {W : List Field} {s₀ s : State} (hk : s₀.Keeps W s) (hw : Field.sub [.regs] W = true) (h : Nat) (v : Word)
    : s₀.Keeps W (State.tptrWrite s h v) := by
  unfold State.tptrWrite
  repeat' first
    | with_reducible assumption
    | with_reducible exact State.Keeps.refl _ _
    | with_reducible apply State.writeFields_keeps (hw := Field.sub_trans (by decide) hw)
    | with_reducible apply State.setFld_keeps (hw := Field.sub_trans (by decide) hw)
    | with_reducible refine keeps_ite ?_ ?_
    | with_reducible refine keeps_ite_fst ?_ ?_
    | intro _
    | dsimp only
    | split

theorem State.galCompletes_keeps {W : List Field} {s₀ s : State} (hk : s₀.Keeps W s) (hw : Field.sub [.regs, .gals, .net, .reqs,
    .seqNext] W = true) (G : Nat) (r : Packet) (st : Nat) (data : List (BitVec 512)) (arg : BitVec 224) : s₀.Keeps W (State.galCompletes
    s G r st data arg) := by
  unfold State.galCompletes
  repeat' first
    | with_reducible assumption
    | with_reducible exact State.Keeps.refl _ _
    | with_reducible apply State.qResponse_keeps (hw := Field.sub_trans (by decide) hw)
    | with_reducible apply State.qLowResponse_keeps (hw := Field.sub_trans (by decide) hw)
    | with_reducible apply State.modGal_keeps (hw := Field.sub_trans (by decide) hw)
    | with_reducible apply State.deliverIP_keeps (hw := Field.sub_trans (by decide) hw)
    | with_reducible refine keeps_ite ?_ ?_
    | with_reducible refine keeps_ite_fst ?_ ?_
    | intro _
    | dsimp only
    | split

theorem State.completes_keeps {W : List Field} {s₀ s : State} (hk : s₀.Keeps W s) (hw : Field.sub [.regs, .mem, .gals, .halls, .ev, .adm,
    .clk, .dom, .pwrCmd, .net, .reqs, .seqNext, .free] W = true) (r : Packet) (st : Nat) (data : List (BitVec 512)) (arg : BitVec 224) :
    s₀.Keeps W (State.completes s r st data arg) := by
  unfold State.completes
  repeat' first
    | with_reducible assumption
    | with_reducible exact State.Keeps.refl _ _
    | with_reducible apply State.galCompletes_keeps (hw := Field.sub_trans (by decide) hw)
    | with_reducible apply State.traceLost_keeps (hw := Field.sub_trans (by decide) hw)
    | with_reducible apply State.gwkEnqRsp_keeps (hw := Field.sub_trans (by decide) hw)
    | with_reducible apply State.loadReqRsp_keeps (hw := Field.sub_trans (by decide) hw)
    | with_reducible apply State.xmitRsp_keeps (hw := Field.sub_trans (by decide) hw)
    | with_reducible apply State.pwrGoOn_keeps (hw := Field.sub_trans (by decide) hw)
    | with_reducible apply State.ethRsp_keeps (hw := Field.sub_trans (by decide) hw)
    | with_reducible refine keeps_ite ?_ ?_
    | with_reducible refine keeps_ite_fst ?_ ?_
    | intro _
    | dsimp only
    | split

theorem State.dropReq_keeps {W : List Field} {s₀ s : State} (hk : s₀.Keeps W s) (hw : Field.sub [.reqs] W = true) (r : Req) : s₀.Keeps W
    (State.dropReq s r) := by
  unfold State.dropReq
  repeat' first
    | with_reducible assumption
    | with_reducible exact State.Keeps.refl _ _
    | with_reducible refine keeps_ite ?_ ?_
    | with_reducible refine keeps_ite_fst ?_ ?_
    | intro _
    | dsimp only
    | simp (disch := first | assumption | (with_unfolding_all (intro (x : Field) hx; cases x <;>
        first | exact absurd hx (by decide) | (dsimp only [Field.same]; done) | (dsimp only [Field.same]; exact ⟨rfl, rfl⟩)))) only [keeps_mk hw]
    | split

theorem State.rspTimeout_keeps {W : List Field} {s₀ s : State} (hk : s₀.Keeps W s) (hw : Field.sub [.regs, .mem, .gals, .halls, .ev,
    .adm, .clk, .dom, .pwrCmd, .net, .reqs, .seqNext, .istat, .free] W = true) (h : Nat) (n : Nat) (port : Nat) (tag : Nat) : s₀.Keeps W
    (State.rspTimeout s h n port tag) := by
  unfold State.rspTimeout
  repeat' first
    | with_reducible assumption
    | with_reducible exact State.Keeps.refl _ _
    | with_reducible apply State.completes_keeps (hw := Field.sub_trans (by decide) hw)
    | with_reducible apply State.istatAdd_keeps (hw := Field.sub_trans (by decide) hw)
    | with_reducible apply State.dropReq_keeps (hw := Field.sub_trans (by decide) hw)
    | with_reducible refine keeps_ite ?_ ?_
    | with_reducible refine keeps_ite_fst ?_ ?_
    | intro _
    | dsimp only
    | split

theorem State.rspRetired_keeps {W : List Field} {s₀ s : State} (hk : s₀.Keeps W s) (hw : Field.sub [.regs, .ev] W = true) (h : Nat) (n :
    Nat) (port : Nat) (tag : Nat) : s₀.Keeps W (State.rspRetired s h n port tag) := by
  unfold State.rspRetired
  repeat' first
    | with_reducible assumption
    | with_reducible exact State.Keeps.refl _ _
    | with_reducible apply State.incFld_keeps (hw := Field.sub_trans (by decide) hw)
    | with_reducible apply State.postLim_keeps (hw := Field.sub_trans (by decide) hw)
    | with_reducible apply State.retired_keeps (hw := Field.sub_trans (by decide) hw)
    | with_reducible refine keeps_ite ?_ ?_
    | with_reducible refine keeps_ite_fst ?_ ?_
    | intro _
    | dsimp only
    | split

theorem State.dupDiscard_keeps {W : List Field} {s₀ s : State} (hk : s₀.Keeps W s) (hw : Field.sub [.regs, .ev] W = true) (h : Nat) (p :
    Packet) : s₀.Keeps W (State.dupDiscard s h p) := by
  unfold State.dupDiscard
  repeat' first
    | with_reducible assumption
    | with_reducible exact State.Keeps.refl _ _
    | with_reducible apply State.postLim_keeps (hw := Field.sub_trans (by decide) hw)
    | with_reducible apply State.incFld_keeps (hw := Field.sub_trans (by decide) hw)
    | with_reducible refine keeps_ite ?_ ?_
    | with_reducible refine keeps_ite_fst ?_ ?_
    | intro _
    | dsimp only
    | split

theorem State.rspArrives_keeps {W : List Field} {s₀ s : State} (hk : s₀.Keeps W s) (hw : Field.sub [.regs, .mem, .gals, .halls, .ev,
    .adm, .clk, .dom, .pwrCmd, .net, .reqs, .seqNext, .seqRec, .istat, .free] W = true) (p : Packet) : s₀.Keeps W (State.rspArrives s p)
    := by
  unfold State.rspArrives
  repeat' first
    | with_reducible assumption
    | with_reducible exact State.Keeps.refl _ _
    | with_reducible apply State.take_keeps (hw := Field.sub_trans (by decide) hw)
    | with_reducible apply State.hdrCheck_keeps (hw := Field.sub_trans (by decide) hw)
    | with_reducible apply State.poisonCheck_keeps (hw := Field.sub_trans (by decide) hw)
    | with_reducible apply State.retired_keeps (hw := Field.sub_trans (by decide) hw)
    | with_reducible apply State.dupDiscard_keeps (hw := Field.sub_trans (by decide) hw)
    | with_reducible apply State.accept_keeps (hw := Field.sub_trans (by decide) hw)
    | with_reducible apply State.rspRetired_keeps (hw := Field.sub_trans (by decide) hw)
    | with_reducible apply State.completes_keeps (hw := Field.sub_trans (by decide) hw)
    | with_reducible apply State.istatAdd_keeps (hw := Field.sub_trans (by decide) hw)
    | with_reducible apply State.dropReq_keeps (hw := Field.sub_trans (by decide) hw)
    | with_reducible refine keeps_ite ?_ ?_
    | with_reducible refine keeps_ite_fst ?_ ?_
    | intro _
    | dsimp only
    | split

theorem State.wakeRefused_keeps {W : List Field} {s₀ s : State} (hk : s₀.Keeps W s) (hw : Field.sub [.regs, .ev, .net, .reqs, .seqNext] W
    = true) (h : Nat) (p : Packet) (cause : Nat) : s₀.Keeps W (State.wakeRefused s h p cause) := by
  unfold State.wakeRefused
  repeat' first
    | with_reducible assumption
    | with_reducible exact State.Keeps.refl _ _
    | with_reducible apply State.incFld_keeps (hw := Field.sub_trans (by decide) hw)
    | with_reducible apply State.respond_keeps (hw := Field.sub_trans (by decide) hw)
    | with_reducible apply State.postLim_keeps (hw := Field.sub_trans (by decide) hw)
    | with_reducible apply State.retired_keeps (hw := Field.sub_trans (by decide) hw)
    | with_reducible refine keeps_ite ?_ ?_
    | with_reducible refine keeps_ite_fst ?_ ?_
    | intro _
    | dsimp only
    | split

theorem State.wakeGate_keeps {W : List Field} {s₀ s : State} (hk : s₀.Keeps W s) (hw : Field.sub [.regs, .gals, .ev, .adm, .dom, .pwrCmd,
    .slots, .boot, .bist, .net, .reqs, .seqNext] W = true) (h : Nat) (d : Nat) (p : Packet) : s₀.Keeps W (State.wakeGate s h d p) := by
  unfold State.wakeGate
  repeat' first
    | with_reducible assumption
    | with_reducible exact State.Keeps.refl _ _
    | with_reducible apply State.wakeRefused_keeps (hw := Field.sub_trans (by decide) hw)
    | with_reducible apply State.wakeUp_keeps (hw := Field.sub_trans (by decide) hw)
    | with_reducible refine keeps_ite ?_ ?_
    | with_reducible refine keeps_ite_fst ?_ ?_
    | intro _
    | dsimp only
    | simp (disch := first | assumption | (with_unfolding_all (intro (x : Field) hx; cases x <;>
        first | exact absurd hx (by decide) | (dsimp only [Field.same]; done) | (dsimp only [Field.same]; exact ⟨rfl, rfl⟩)))) only [keeps_mk hw]
    | split

theorem State.wakeTimeout_keeps {W : List Field} {s₀ s : State} (hk : s₀.Keeps W s) (hw : Field.sub [.regs, .ev, .adm, .dom, .slots,
    .net, .reqs, .seqNext] W = true) (h : Nat) (d : Nat) (m : Nat) (vc : Nat) : s₀.Keeps W (State.wakeTimeout s h d m vc) := by
  unfold State.wakeTimeout
  repeat' first
    | with_reducible assumption
    | with_reducible exact State.Keeps.refl _ _
    | with_reducible apply State.incFld_keeps (hw := Field.sub_trans (by decide) hw)
    | with_reducible apply State.turnedAway_keeps (hw := Field.sub_trans (by decide) hw)
    | with_reducible apply State.postLim_keeps (hw := Field.sub_trans (by decide) hw)
    | with_reducible apply State.withdrawWake_keeps (hw := Field.sub_trans (by decide) hw)
    | with_reducible refine keeps_ite ?_ ?_
    | with_reducible refine keeps_ite_fst ?_ ?_
    | intro _
    | dsimp only
    | simp (disch := first | assumption | (with_unfolding_all (intro (x : Field) hx; cases x <;>
        first | exact absurd hx (by decide) | (dsimp only [Field.same]; done) | (dsimp only [Field.same]; exact ⟨rfl, rfl⟩)))) only [keeps_mk hw]
    | split

theorem State.resetTurns_keeps {W : List Field} {s₀ s t : State} (hk : s₀.Keeps W s) (hw : Field.sub [.net, .reqs, .seqNext] W = true) (h : Nat)
    (p : Packet) (e : s.resetTurns h p = some t) : s₀.Keeps W t := by
  have hr := State.respond_keeps hk hw p .unavail []
  unfold State.resetTurns at e
  dsimp only at e
  repeat' split at e
  all_goals first
    | (cases e; assumption)
    | cases e

theorem State.answerIf_keeps {W : List Field} {s₀ s : State} (hk : s₀.Keeps W s) (hw : Field.sub [.net, .reqs, .seqNext] W = true) (p :
    Packet) (st : OSt) : s₀.Keeps W (State.answerIf s p st) := by
  unfold State.answerIf
  repeat' first
    | with_reducible assumption
    | with_reducible exact State.Keeps.refl _ _
    | with_reducible apply State.respond_keeps (hw := Field.sub_trans (by decide) hw)
    | with_reducible refine keeps_ite ?_ ?_
    | with_reducible refine keeps_ite_fst ?_ ?_
    | intro _
    | dsimp only
    | split

theorem State.routerEnds_keeps {W : List Field} {s₀ s t : State} (hk : s₀.Keeps W s) (hw : Field.sub [.regs, .gals, .ev, .adm, .dom, .pwrCmd, .slots, .boot, .bist, .net, .reqs, .seqNext] W = true)
    (p : Packet) (e : s.routerEnds p = some t) : s₀.Keeps W t := by
  unfold State.routerEnds at e
  dsimp only at e
  repeat' split at e
  · exact Option.some.inj e ▸ State.turnedAway_keeps hk (Field.sub_trans (by decide) hw) _ p .unavail
  · exact Option.some.inj e ▸ State.answerIf_keeps hk (Field.sub_trans (by decide) hw) p .absent
  · rename_i t' ht
    exact Option.some.inj e ▸ State.resetTurns_keeps hk (Field.sub_trans (by decide) hw) _ p ht
  · rw [Option.map_eq_some_iff] at e
    obtain ⟨d, -, rfl⟩ := e
    exact State.wakeGate_keeps hk (Field.sub_trans (by decide) hw) _ d p

theorem State.routerEndsD_keeps {W : List Field} {s₀ s u : State} (hk : s₀.Keeps W s) (hu : s₀.Keeps W u)
    (hw : Field.sub [.regs, .gals, .ev, .adm, .dom, .pwrCmd, .slots, .boot, .bist, .net, .reqs, .seqNext] W = true) (p : Packet) : s₀.Keeps W ((s.routerEnds p).getD u) := by
  cases e : s.routerEnds p with
  | none => exact hu
  | some t => exact State.routerEnds_keeps hk hw p e

theorem State.arriveChecked_keeps {W : List Field} {s₀ s : State} (hk : s₀.Keeps W s) (hw : Field.sub [.regs, .gals, .ev, .adm, .dom,
    .pwrCmd, .slots, .boot, .bist, .net, .reqs, .seqNext, .seqRec] W = true) (p : Packet) : s₀.Keeps W (State.arriveChecked s p).1 := by
  unfold State.arriveChecked
  repeat' first
    | with_reducible assumption
    | with_reducible exact State.Keeps.refl _ _
    | with_reducible apply State.dupDiscard_keeps (hw := Field.sub_trans (by decide) hw)
    | with_reducible apply State.accept_keeps (hw := Field.sub_trans (by decide) hw)
    | with_reducible apply State.turnedAway_keeps (hw := Field.sub_trans (by decide) hw)
    | with_reducible apply State.answerIf_keeps (hw := Field.sub_trans (by decide) hw)
    | with_reducible exact State.routerEnds_keeps (by assumption) (Field.sub_trans (by decide) hw) _ (by assumption)
    | with_reducible refine keeps_ite ?_ ?_
    | with_reducible refine keeps_ite_fst ?_ ?_
    | intro _
    | dsimp only
    | split

theorem State.arrive_keeps {W : List Field} {s₀ s : State} (hk : s₀.Keeps W s) (hw : Field.sub [.regs, .gals, .ev, .adm, .dom, .pwrCmd,
    .slots, .boot, .bist, .net, .reqs, .seqNext, .seqRec] W = true) (p : Packet) : s₀.Keeps W (State.arrive s p).1 := by
  unfold State.arrive
  repeat' first
    | with_reducible assumption
    | with_reducible exact State.Keeps.refl _ _
    | with_reducible apply State.take_keeps (hw := Field.sub_trans (by decide) hw)
    | with_reducible apply State.hdrCheck_keeps (hw := Field.sub_trans (by decide) hw)
    | with_reducible apply State.poisonCheck_keeps (hw := Field.sub_trans (by decide) hw)
    | with_reducible apply State.arriveChecked_keeps (hw := Field.sub_trans (by decide) hw)
    | with_reducible refine keeps_ite ?_ ?_
    | with_reducible refine keeps_ite_fst ?_ ?_
    | intro _
    | dsimp only
    | split

theorem State.routerPacket_keeps {W : List Field} {s₀ s : State} (hk : s₀.Keeps W s) (hw : Field.sub [.regs, .gals, .halls, .ev, .adm,
    .dom, .pwrCmd, .slots, .boot, .bist, .net, .reqs, .seqNext, .seqRec, .corrs] W = true) (h : Nat) (n : Nat) (d : Nat) (p : Packet)
    (stallIn : Nat) (stallOut : Nat) (lost : Bool) (conf : Bool) : s₀.Keeps W (State.routerPacket s h n d p stallIn stallOut lost conf)
    := by
  unfold State.routerPacket
  repeat' first
    | with_reducible assumption
    | with_reducible exact State.Keeps.refl _ _
    | with_reducible apply State.hop_keeps (hw := Field.sub_trans (by decide) hw)
    | with_reducible apply State.putNet_keeps (hw := Field.sub_trans (by decide) hw)
    | with_reducible apply State.take_keeps (hw := Field.sub_trans (by decide) hw)
    | with_reducible apply State.arriveChecked_keeps (hw := Field.sub_trans (by decide) hw)
    | with_reducible refine State.routerEndsD_keeps ?_ ?_ (Field.sub_trans (by decide) hw) _
    | with_reducible refine keeps_ite ?_ ?_
    | with_reducible refine keeps_ite_fst ?_ ?_
    | intro _
    | dsimp only
    | split

theorem State.noticeArrives_keeps {W : List Field} {s₀ s : State} (hk : s₀.Keeps W s) (hw : Field.sub [.regs, .ev, .net, .seqRec, .corrs]
    W = true) (h : Nat) (k : NoticeKind) (p : Packet) : s₀.Keeps W (State.noticeArrives s h k p) := by
  unfold State.noticeArrives
  repeat' first
    | with_reducible assumption
    | with_reducible exact State.Keeps.refl _ _
    | with_reducible apply State.take_keeps (hw := Field.sub_trans (by decide) hw)
    | with_reducible apply State.hdrCheck_keeps (hw := Field.sub_trans (by decide) hw)
    | with_reducible apply State.poisonCheck_keeps (hw := Field.sub_trans (by decide) hw)
    | with_reducible apply State.dupDiscard_keeps (hw := Field.sub_trans (by decide) hw)
    | with_reducible apply State.noticeDead_keeps (hw := Field.sub_trans (by decide) hw)
    | with_reducible apply State.accept_keeps (hw := Field.sub_trans (by decide) hw)
    | with_reducible refine keeps_ite ?_ ?_
    | with_reducible refine keeps_ite_fst ?_ ?_
    | intro _
    | dsimp only
    | split

theorem State.aclDenied_keeps {W : List Field} {s₀ s : State} (hk : s₀.Keeps W s) (hw : Field.sub [.regs, .ev, .net, .reqs, .seqNext] W =
    true) (G : Nat) (b : Nat) (p : Packet) : s₀.Keeps W (State.aclDenied s G b p) := by
  unfold State.aclDenied
  repeat' first
    | with_reducible assumption
    | with_reducible exact State.Keeps.refl _ _
    | with_reducible apply State.incFld_keeps (hw := Field.sub_trans (by decide) hw)
    | with_reducible apply State.respond_keeps (hw := Field.sub_trans (by decide) hw)
    | with_reducible apply State.postLim_keeps (hw := Field.sub_trans (by decide) hw)
    | with_reducible refine keeps_ite ?_ ?_
    | with_reducible refine keeps_ite_fst ?_ ?_
    | intro _
    | dsimp only
    | split

theorem State.memRead_keeps {W : List Field} {s₀ s : State} (hk : s₀.Keeps W s) (hw : Field.sub [.regs, .gals, .ev] W = true) (G : Nat)
    (off : Nat) (n : Nat) (f : EccFacts) : s₀.Keeps W (State.memRead s G off n f).1 := by
  unfold State.memRead
  repeat' first
    | with_reducible assumption
    | with_reducible exact State.Keeps.refl _ _
    | with_reducible apply State.eccReport_keeps (hw := Field.sub_trans (by decide) hw)
    | with_reducible refine keeps_ite ?_ ?_
    | with_reducible refine keeps_ite_fst ?_ ?_
    | with_reducible refine keeps_foldl _ _ ?_ ?_
    | with_reducible refine keeps_foldl_fst _ _ ?_ ?_
    | intro _
    | dsimp only
    | split

theorem State.memWrite_keeps {W : List Field} {s₀ s : State} (hk : s₀.Keeps W s) (hw : Field.sub [.regs, .mem, .gals] W = true) (G : Nat)
    (off : Nat) (l : List (Byte × Bool)) (ovt : List Nat) : s₀.Keeps W (State.memWrite s G off l ovt).1 := by
  unfold State.memWrite
  repeat' first
    | with_reducible assumption
    | with_reducible exact State.Keeps.refl _ _
    | with_reducible apply State.writeEnabled_keeps (hw := Field.sub_trans (by decide) hw)
    | with_reducible apply State.cancelWb_keeps (hw := Field.sub_trans (by decide) hw)
    | with_reducible apply State.incFld_keeps (hw := Field.sub_trans (by decide) hw)
    | with_reducible refine keeps_ite ?_ ?_
    | with_reducible refine keeps_ite_fst ?_ ?_
    | with_reducible refine keeps_foldl _ _ ?_ ?_
    | with_reducible refine keeps_foldl_fst _ _ ?_ ?_
    | intro _
    | dsimp only
    | split

theorem State.memAccess_keeps {W : List Field} {s₀ s : State} (hk : s₀.Keeps W s) (hw : Field.sub [.regs, .mem, .gals, .ev, .net, .reqs,
    .seqNext] W = true) (G : Nat) (p : Packet) (f : AccFacts) : s₀.Keeps W (State.memAccess s G p f) := by
  unfold State.memAccess
  repeat' first
    | with_reducible assumption
    | with_reducible exact State.Keeps.refl _ _
    | with_reducible apply State.respond_keeps (hw := Field.sub_trans (by decide) hw)
    | with_reducible apply State.aclDenied_keeps (hw := Field.sub_trans (by decide) hw)
    | with_reducible apply State.memWrite_keeps (hw := Field.sub_trans (by decide) hw)
    | with_reducible apply State.memRead_keeps (hw := Field.sub_trans (by decide) hw)
    | with_reducible refine keeps_ite ?_ ?_
    | with_reducible refine keeps_ite_fst ?_ ?_
    | intro _
    | dsimp only
    | split

theorem State.queueDenied_keeps {W : List Field} {s₀ s : State} (hk : s₀.Keeps W s) (hw : Field.sub [.regs, .ev, .net, .reqs, .seqNext] W
    = true) (G : Nat) (b : Nat) (p : Packet) : s₀.Keeps W (State.queueDenied s G b p) := by
  unfold State.queueDenied
  repeat' first
    | with_reducible assumption
    | with_reducible exact State.Keeps.refl _ _
    | with_reducible apply State.respond_keeps (hw := Field.sub_trans (by decide) hw)
    | with_reducible apply State.bankDenied_keeps (hw := Field.sub_trans (by decide) hw)
    | with_reducible apply State.aclDenied_keeps (hw := Field.sub_trans (by decide) hw)
    | with_reducible refine keeps_ite ?_ ?_
    | with_reducible refine keeps_ite_fst ?_ ?_
    | intro _
    | dsimp only
    | split

theorem State.queuePush_keeps {W : List Field} {s₀ s : State} (hk : s₀.Keeps W s) (hw : Field.sub [.regs, .mem, .gals, .ev, .net, .reqs,
    .seqNext] W = true) (G : Nat) (b : Nat) (n : Nat) (p : Packet) (ovt : List Nat) : s₀.Keeps W (State.queuePush s G b n p ovt) := by
  unfold State.queuePush
  repeat' first
    | with_reducible assumption
    | with_reducible exact State.Keeps.refl _ _
    | with_reducible apply State.respond_keeps (hw := Field.sub_trans (by decide) hw)
    | with_reducible apply State.qOverflow_keeps (hw := Field.sub_trans (by decide) hw)
    | with_reducible apply State.qPushed_keeps (hw := Field.sub_trans (by decide) hw)
    | with_reducible apply State.rowWrite_keeps (hw := Field.sub_trans (by decide) hw)
    | with_reducible apply State.incFld_keeps (hw := Field.sub_trans (by decide) hw)
    | with_reducible refine keeps_ite ?_ ?_
    | with_reducible refine keeps_ite_fst ?_ ?_
    | with_reducible refine keeps_foldl _ _ ?_ ?_
    | with_reducible refine keeps_foldl_fst _ _ ?_ ?_
    | intro _
    | dsimp only
    | split

theorem State.queuePop_keeps {W : List Field} {s₀ s : State} (hk : s₀.Keeps W s) (hw : Field.sub [.regs, .gals, .ev, .net, .reqs,
    .seqNext] W = true) (G : Nat) (b : Nat) (n : Nat) (p : Packet) (f : EccFacts) : s₀.Keeps W (State.queuePop s G b n p f) := by
  unfold State.queuePop
  repeat' first
    | with_reducible assumption
    | with_reducible exact State.Keeps.refl _ _
    | with_reducible apply State.respond_keeps (hw := Field.sub_trans (by decide) hw)
    | with_reducible apply State.qUnderflow_keeps (hw := Field.sub_trans (by decide) hw)
    | with_reducible apply State.rowRead_keeps (hw := Field.sub_trans (by decide) hw)
    | with_reducible apply State.qPopped_keeps (hw := Field.sub_trans (by decide) hw)
    | with_reducible refine keeps_ite ?_ ?_
    | with_reducible refine keeps_ite_fst ?_ ?_
    | with_reducible refine keeps_foldl _ _ ?_ ?_
    | with_reducible refine keeps_foldl_fst _ _ ?_ ?_
    | intro _
    | dsimp only
    | split

theorem State.queueCommand_keeps {W : List Field} {s₀ s : State} (hk : s₀.Keeps W s) (hw : Field.sub [.regs, .mem, .gals, .ev, .net,
    .reqs, .seqNext] W = true) (G : Nat) (p : Packet) (f : AccFacts) : s₀.Keeps W (State.queueCommand s G p f) := by
  unfold State.queueCommand
  repeat' first
    | with_reducible assumption
    | with_reducible exact State.Keeps.refl _ _
    | with_reducible apply State.respond_keeps (hw := Field.sub_trans (by decide) hw)
    | with_reducible apply State.queueDenied_keeps (hw := Field.sub_trans (by decide) hw)
    | with_reducible apply State.queuePush_keeps (hw := Field.sub_trans (by decide) hw)
    | with_reducible apply State.queuePop_keeps (hw := Field.sub_trans (by decide) hw)
    | with_reducible refine keeps_ite ?_ ?_
    | with_reducible refine keeps_ite_fst ?_ ?_
    | intro _
    | dsimp only
    | split

theorem State.itemArrives_keeps {W : List Field} {s₀ s : State} (hk : s₀.Keeps W s) (hw : Field.sub [.regs, .gals, .halls, .ev, .net,
    .reqs, .seqNext, .free] W = true) (G : Nat) (p : Packet) : s₀.Keeps W (State.itemArrives s G p) := by
  unfold State.itemArrives
  repeat' first
    | with_reducible assumption
    | with_reducible exact State.Keeps.refl _ _
    | with_reducible apply State.modGal_keeps (hw := Field.sub_trans (by decide) hw)
    | with_reducible apply State.requestSwitch_keeps (hw := Field.sub_trans (by decide) hw)
    | with_reducible refine keeps_ite ?_ ?_
    | with_reducible refine keeps_ite_fst ?_ ?_
    | intro _
    | dsimp only
    | split

theorem State.msgArrives_keeps {W : List Field} {s₀ s : State} (hk : s₀.Keeps W s) (hw : Field.sub [.gals] W = true) (G : Nat) (p :
    Packet) : s₀.Keeps W (State.msgArrives s G p) := by
  unfold State.msgArrives
  repeat' first
    | with_reducible assumption
    | with_reducible exact State.Keeps.refl _ _
    | with_reducible apply State.modGal_keeps (hw := Field.sub_trans (by decide) hw)
    | with_reducible refine keeps_ite ?_ ?_
    | with_reducible refine keeps_ite_fst ?_ ?_
    | intro _
    | dsimp only
    | split

theorem State.loadReqArrives_keeps {W : List Field} {s₀ s : State} (hk : s₀.Keeps W s) (hw : Field.sub [.regs, .gals, .ev, .net, .reqs,
    .seqNext, .free] W = true) (h : Nat) (p : Packet) : s₀.Keeps W (State.loadReqArrives s h p) := by
  unfold State.loadReqArrives
  repeat' first
    | with_reducible assumption
    | with_reducible exact State.Keeps.refl _ _
    | with_reducible apply State.loadArrive_keeps (hw := Field.sub_trans (by decide) hw)
    | with_reducible apply State.send_keeps (hw := Field.sub_trans (by decide) hw)
    | with_reducible refine keeps_ite ?_ ?_
    | with_reducible refine keeps_ite_fst ?_ ?_
    | intro _
    | dsimp only
    | split

end Sys2Proof.Machine
end

