-- ==== Sys2Proof/Laws/KeepsFrst.lean ====
section
/-!
SUPPORT. Laws/KeepsFrst.lean: the operations of Machine/Frst.lean keep State.Keeps.
-/
namespace Sys2Proof.Machine
open Sys2Proof

theorem State.portDrop_keeps {W : List Field} {s₀ s : State} (hk : s₀.Keeps W s) (hw : Field.sub [.regs, .mem, .gals, .halls, .ev, .adm,
    .dom, .pwrCmd, .boot, .bist, .net, .reqs, .seqNext, .free] W = true) (h : Nat) : s₀.Keeps W (State.portDrop s h) := by
  unfold State.portDrop
  repeat' first
    | with_reducible assumption
    | with_reducible exact State.Keeps.refl _ _
    | with_reducible apply State.modHbm_keeps (hw := Field.sub_trans (by decide) hw)
    | with_reducible apply State.stackEntered_keeps (hw := Field.sub_trans (by decide) hw)
    | with_reducible apply State.meePause_keeps (hw := Field.sub_trans (by decide) hw)
    | with_reducible apply State.cacheFlush_keeps (hw := Field.sub_trans (by decide) hw)
    | with_reducible apply State.portFlush_keeps (hw := Field.sub_trans (by decide) hw)
    | with_reducible apply State.wcbDrain_keeps (hw := Field.sub_trans (by decide) hw)
    | with_reducible refine keeps_ite ?_ ?_
    | with_reducible refine keeps_ite_fst ?_ ?_
    | intro _
    | dsimp only
    | split

theorem State.ethsClear_keeps {W : List Field} {s₀ s : State} (hk : s₀.Keeps W s) (hw : Field.sub [.halls] W = true) (h : Nat) : s₀.Keeps
    W (State.ethsClear s h) := by
  unfold State.ethsClear
  repeat' first
    | with_reducible assumption
    | with_reducible exact State.Keeps.refl _ _
    | with_reducible apply State.ethClear_keeps (hw := Field.sub_trans (by decide) hw)
    | with_reducible refine keeps_ite ?_ ?_
    | with_reducible refine keeps_ite_fst ?_ ?_
    | with_reducible refine keeps_foldl _ _ ?_ ?_
    | with_reducible refine keeps_foldl_fst _ _ ?_ ?_
    | intro _
    | dsimp only
    | split

theorem State.refuseQueued_keeps {W : List Field} {s₀ s : State} (hk : s₀.Keeps W s) (hw : Field.sub [.regs, .gals, .ev, .net, .reqs,
    .seqNext] W = true) (G : Nat) : s₀.Keeps W (State.refuseQueued s G) := by
  unfold State.refuseQueued
  repeat' first
    | with_reducible assumption
    | with_reducible exact State.Keeps.refl _ _
    | with_reducible apply State.modGal_keeps (hw := Field.sub_trans (by decide) hw)
    | with_reducible apply State.loadRefused_keeps (hw := Field.sub_trans (by decide) hw)
    | with_reducible apply State.reportPlane_keeps (hw := Field.sub_trans (by decide) hw)
    | with_reducible refine keeps_ite ?_ ?_
    | with_reducible refine keeps_ite_fst ?_ ?_
    | with_reducible refine keeps_foldl _ _ ?_ ?_
    | with_reducible refine keeps_foldl_fst _ _ ?_ ?_
    | intro _
    | dsimp only
    | split

theorem State.dropSlots_keeps {W : List Field} {s₀ s : State} (hk : s₀.Keeps W s) (hw : Field.sub [.regs, .adm, .dom, .slots, .net,
    .reqs, .seqNext] W = true) (h : Nat) : s₀.Keeps W (State.dropSlots s h) := by
  unfold State.dropSlots
  repeat' first
    | with_reducible assumption
    | with_reducible exact State.Keeps.refl _ _
    | with_reducible apply State.withdrawWake_keeps (hw := Field.sub_trans (by decide) hw)
    | with_reducible apply State.turnedAway_keeps (hw := Field.sub_trans (by decide) hw)
    | with_reducible refine keeps_ite ?_ ?_
    | with_reducible refine keeps_ite_fst ?_ ?_
    | with_reducible refine keeps_foldl _ _ ?_ ?_
    | with_reducible refine keeps_foldl_fst _ _ ?_ ?_
    | intro _
    | dsimp only
    | simp (disch := first | assumption | (with_unfolding_all (intro (x : Field) hx; cases x <;>
        first | exact absurd hx (by decide) | (dsimp only [Field.same]; done) | (dsimp only [Field.same]; exact ⟨rfl, rfl⟩)))) only [keeps_mk hw]
    | split

theorem State.bistDropHall_keeps {W : List Field} {s₀ s : State} (hk : s₀.Keeps W s) (hw : Field.sub [.bist] W = true) (h : Nat) :
    s₀.Keeps W (State.bistDropHall s h) := by
  unfold State.bistDropHall
  repeat' first
    | with_reducible assumption
    | with_reducible exact State.Keeps.refl _ _
    | with_reducible refine keeps_ite ?_ ?_
    | with_reducible refine keeps_ite_fst ?_ ?_
    | intro _
    | dsimp only
    | simp (disch := first | assumption | (with_unfolding_all (intro (x : Field) hx; cases x <;>
        first | exact absurd hx (by decide) | (dsimp only [Field.same]; done) | (dsimp only [Field.same]; exact ⟨rfl, rfl⟩)))) only [keeps_mk hw]
    | split

theorem State.frstBegin_keeps {W : List Field} {s₀ s : State} (hk : s₀.Keeps W s) (hw : Field.sub [.regs, .mem, .gals, .halls, .ev, .adm,
    .dom, .slots, .bist, .cal, .net, .reqs, .seqNext, .free] W = true) (h : Nat) : s₀.Keeps W (State.frstBegin s h) := by
  unfold State.frstBegin
  repeat' first
    | with_reducible assumption
    | with_reducible exact State.Keeps.refl _ _
    | with_reducible apply State.setFld_keeps (hw := Field.sub_trans (by decide) hw)
    | with_reducible apply State.post_keeps (hw := Field.sub_trans (by decide) hw)
    | with_reducible apply State.modHall_keeps (hw := Field.sub_trans (by decide) hw)
    | with_reducible apply State.dropSlots_keeps (hw := Field.sub_trans (by decide) hw)
    | with_reducible apply State.calStop_keeps (hw := Field.sub_trans (by decide) hw)
    | with_reducible apply State.bistDropHall_keeps (hw := Field.sub_trans (by decide) hw)
    | with_reducible apply State.refuseQueued_keeps (hw := Field.sub_trans (by decide) hw)
    | with_reducible apply State.portDrain_keeps (hw := Field.sub_trans (by decide) hw)
    | with_reducible apply State.srBegin_keeps (hw := Field.sub_trans (by decide) hw)
    | with_reducible refine keeps_ite ?_ ?_
    | with_reducible refine keeps_ite_fst ?_ ?_
    | with_reducible refine keeps_foldl _ _ ?_ ?_
    | with_reducible refine keeps_foldl_fst _ _ ?_ ?_
    | intro _
    | dsimp only
    | split

theorem State.frstStart_keeps {W : List Field} {s₀ s : State} (hk : s₀.Keeps W s) (hw : Field.sub [.regs, .mem, .gals, .halls, .ev, .adm,
    .dom, .slots, .bist, .cal, .net, .reqs, .seqNext, .free] W = true) (h : Nat) (v : Word) : s₀.Keeps W (State.frstStart s h v) := by
  unfold State.frstStart
  repeat' first
    | with_reducible assumption
    | with_reducible exact State.Keeps.refl _ _
    | with_reducible apply State.frstBegin_keeps (hw := Field.sub_trans (by decide) hw)
    | with_reducible refine keeps_ite ?_ ?_
    | with_reducible refine keeps_ite_fst ?_ ?_
    | intro _
    | dsimp only
    | split

theorem State.frstAnswer_keeps {W : List Field} {s₀ s : State} (hk : s₀.Keeps W s) (hw : Field.sub [.regs, .mem, .gals, .halls, .ev,
    .adm, .clk, .dom, .pwrCmd, .net, .reqs, .seqNext, .istat, .free] W = true) (r : Req) : s₀.Keeps W (State.frstAnswer s r) := by
  unfold State.frstAnswer
  repeat' first
    | with_reducible assumption
    | with_reducible exact State.Keeps.refl _ _
    | with_reducible apply State.completes_keeps (hw := Field.sub_trans (by decide) hw)
    | with_reducible apply State.istatAdd_keeps (hw := Field.sub_trans (by decide) hw)
    | with_reducible apply State.dropReq_keeps (hw := Field.sub_trans (by decide) hw)
    | with_reducible refine keeps_ite ?_ ?_
    | with_reducible refine keeps_ite_fst ?_ ?_
    | intro _
    | dsimp only
    | split

theorem State.frstDrainEnd_keeps {W : List Field} {s₀ s : State} (hk : s₀.Keeps W s) (hw : Field.sub [.regs, .mem, .gals, .halls, .ev,
    .adm, .clk, .dom, .pwrCmd, .boot, .bist, .net, .reqs, .seqNext, .istat, .free] W = true) (h : Nat) : s₀.Keeps W (State.frstDrainEnd s
    h) := by
  unfold State.frstDrainEnd
  repeat' first
    | with_reducible assumption
    | with_reducible exact State.Keeps.refl _ _
    | with_reducible apply State.frstAnswer_keeps (hw := Field.sub_trans (by decide) hw)
    | with_reducible apply State.dropReq_keeps (hw := Field.sub_trans (by decide) hw)
    | with_reducible apply State.modGal_keeps (hw := Field.sub_trans (by decide) hw)
    | with_reducible apply State.setFld_keeps (hw := Field.sub_trans (by decide) hw)
    | with_reducible apply State.portDrop_keeps (hw := Field.sub_trans (by decide) hw)
    | with_reducible apply State.ethsClear_keeps (hw := Field.sub_trans (by decide) hw)
    | with_reducible refine keeps_ite ?_ ?_
    | with_reducible refine keeps_ite_fst ?_ ?_
    | with_reducible refine keeps_foldl _ _ ?_ ?_
    | with_reducible refine keeps_foldl_fst _ _ ?_ ?_
    | intro _
    | dsimp only
    | split

theorem State.removeAgain_keeps {W : List Field} {s₀ s : State} (hk : s₀.Keeps W s) (hw : Field.sub [.regs, .mem, .gals, .halls, .ev,
    .adm, .clk, .dom, .pwrCmd, .net, .reqs, .seqNext, .free] W = true) (h : Nat) : s₀.Keeps W (State.removeAgain s h) := by
  unfold State.removeAgain
  repeat' first
    | with_reducible assumption
    | with_reducible exact State.Keeps.refl _ _
    | with_reducible apply State.pwrGoOn_keeps (hw := Field.sub_trans (by decide) hw)
    | with_reducible apply State.removeServers_keeps (hw := Field.sub_trans (by decide) hw)
    | with_reducible refine keeps_ite ?_ ?_
    | with_reducible refine keeps_ite_fst ?_ ?_
    | intro _
    | dsimp only
    | split

theorem State.epochNext_keeps {W : List Field} {s₀ s : State} (hk : s₀.Keeps W s) (hw : Field.sub [.epochs] W = true) (h : Nat) :
    s₀.Keeps W (State.epochNext s h) := by
  unfold State.epochNext
  repeat' first
    | with_reducible assumption
    | with_reducible exact State.Keeps.refl _ _
    | with_reducible refine keeps_ite ?_ ?_
    | with_reducible refine keeps_ite_fst ?_ ?_
    | intro _
    | dsimp only
    | simp (disch := first | assumption | (with_unfolding_all (intro (x : Field) hx; cases x <;>
        first | exact absurd hx (by decide) | (dsimp only [Field.same]; done) | (dsimp only [Field.same]; exact ⟨rfl, rfl⟩)))) only [keeps_mk hw]
    | split

theorem State.frstHoldEnd_keeps {W : List Field} {s₀ s : State} (hk : s₀.Keeps W s) (hw : Field.sub [.regs, .mem, .gals, .halls, .ev,
    .adm, .clk, .dom, .pwrCmd, .boot, .bist, .net, .reqs, .seqNext, .epochs, .free] W = true) (h : Nat) : s₀.Keeps W (State.frstHoldEnd s
    h) := by
  unfold State.frstHoldEnd
  repeat' first
    | with_reducible assumption
    | with_reducible exact State.Keeps.refl _ _
    | with_reducible apply State.setFld_keeps (hw := Field.sub_trans (by decide) hw)
    | with_reducible apply State.epochNext_keeps (hw := Field.sub_trans (by decide) hw)
    | with_reducible apply State.removeAgain_keeps (hw := Field.sub_trans (by decide) hw)
    | with_reducible apply State.gwkRestart_keeps (hw := Field.sub_trans (by decide) hw)
    | with_reducible apply State.srEnd_keeps (hw := Field.sub_trans (by decide) hw)
    | with_reducible refine keeps_ite ?_ ?_
    | with_reducible refine keeps_ite_fst ?_ ?_
    | intro _
    | dsimp only
    | split

theorem State.frstDone_keeps {W : List Field} {s₀ s : State} (hk : s₀.Keeps W s) (hw : Field.sub [.regs, .ev, .cal] W = true) (h : Nat) :
    s₀.Keeps W (State.frstDone s h) := by
  unfold State.frstDone
  repeat' first
    | with_reducible assumption
    | with_reducible exact State.Keeps.refl _ _
    | with_reducible apply State.setFld_keeps (hw := Field.sub_trans (by decide) hw)
    | with_reducible apply State.calResume_keeps (hw := Field.sub_trans (by decide) hw)
    | with_reducible apply State.post_keeps (hw := Field.sub_trans (by decide) hw)
    | with_reducible refine keeps_ite ?_ ?_
    | with_reducible refine keeps_ite_fst ?_ ?_
    | intro _
    | dsimp only
    | split

theorem State.frstTimeout_keeps {W : List Field} {s₀ s : State} (hk : s₀.Keeps W s) (hw : Field.sub [.regs, .halls, .ev, .corrs] W =
    true) (h : Nat) : s₀.Keeps W (State.frstTimeout s h) := by
  unfold State.frstTimeout
  repeat' first
    | with_reducible assumption
    | with_reducible exact State.Keeps.refl _ _
    | with_reducible apply State.setFld_keeps (hw := Field.sub_trans (by decide) hw)
    | with_reducible apply State.modHall_keeps (hw := Field.sub_trans (by decide) hw)
    | with_reducible apply State.hallFenceSet_keeps (hw := Field.sub_trans (by decide) hw)
    | with_reducible apply State.post_keeps (hw := Field.sub_trans (by decide) hw)
    | with_reducible refine keeps_ite ?_ ?_
    | with_reducible refine keeps_ite_fst ?_ ?_
    | intro _
    | dsimp only
    | split

theorem execFrstStart_keeps {s : State} (h : HallIx) (v : Word) : ∃ nx, execFrstStart h v s = .next nx ∧ s.Keeps [.regs, .mem, .gals,
    .halls, .ev, .adm, .dom, .slots, .bist, .cal, .net, .reqs, .seqNext, .free] nx := by
  have hw : Field.sub [.regs, .mem, .gals, .halls, .ev, .adm, .dom, .slots, .bist, .cal, .net, .reqs, .seqNext, .free] [.regs, .mem,
    .gals, .halls, .ev, .adm, .dom, .slots, .bist, .cal, .net, .reqs, .seqNext, .free] = true := by decide
  refine ⟨_, rfl, ?_⟩
  have hk := State.Keeps.refl [.regs, .mem, .gals, .halls, .ev, .adm, .dom, .slots, .bist, .cal, .net, .reqs, .seqNext, .free] s
  repeat' first
    | with_reducible assumption
    | with_reducible exact State.Keeps.refl _ _
    | with_reducible apply State.frstStart_keeps (hw := Field.sub_trans (by decide) hw)
    | with_reducible refine keeps_ite ?_ ?_
    | with_reducible refine keeps_ite_fst ?_ ?_
    | intro _
    | dsimp only
    | split

theorem execFrstDrainEnd_keeps {s : State} (h : HallIx) : ∃ nx, execFrstDrainEnd h s = .next nx ∧ s.Keeps [.regs, .mem, .gals, .halls,
    .ev, .adm, .clk, .dom, .pwrCmd, .boot, .bist, .net, .reqs, .seqNext, .istat, .free] nx := by
  have hw : Field.sub [.regs, .mem, .gals, .halls, .ev, .adm, .clk, .dom, .pwrCmd, .boot, .bist, .net, .reqs, .seqNext, .istat, .free]
    [.regs, .mem, .gals, .halls, .ev, .adm, .clk, .dom, .pwrCmd, .boot, .bist, .net, .reqs, .seqNext, .istat, .free] = true := by decide
  refine ⟨_, rfl, ?_⟩
  have hk := State.Keeps.refl [.regs, .mem, .gals, .halls, .ev, .adm, .clk, .dom, .pwrCmd, .boot, .bist, .net, .reqs, .seqNext, .istat,
    .free] s
  repeat' first
    | with_reducible assumption
    | with_reducible exact State.Keeps.refl _ _
    | with_reducible apply State.frstDrainEnd_keeps (hw := Field.sub_trans (by decide) hw)
    | with_reducible refine keeps_ite ?_ ?_
    | with_reducible refine keeps_ite_fst ?_ ?_
    | intro _
    | dsimp only
    | split

theorem execFrstHoldEnd_keeps {s : State} (h : HallIx) : ∃ nx, execFrstHoldEnd h s = .next nx ∧ s.Keeps [.regs, .mem, .gals, .halls, .ev,
    .adm, .clk, .dom, .pwrCmd, .boot, .bist, .net, .reqs, .seqNext, .epochs, .free] nx := by
  have hw : Field.sub [.regs, .mem, .gals, .halls, .ev, .adm, .clk, .dom, .pwrCmd, .boot, .bist, .net, .reqs, .seqNext, .epochs, .free]
    [.regs, .mem, .gals, .halls, .ev, .adm, .clk, .dom, .pwrCmd, .boot, .bist, .net, .reqs, .seqNext, .epochs, .free] = true := by decide
  refine ⟨_, rfl, ?_⟩
  have hk := State.Keeps.refl [.regs, .mem, .gals, .halls, .ev, .adm, .clk, .dom, .pwrCmd, .boot, .bist, .net, .reqs, .seqNext, .epochs,
    .free] s
  repeat' first
    | with_reducible assumption
    | with_reducible exact State.Keeps.refl _ _
    | with_reducible apply State.frstHoldEnd_keeps (hw := Field.sub_trans (by decide) hw)
    | with_reducible refine keeps_ite ?_ ?_
    | with_reducible refine keeps_ite_fst ?_ ?_
    | intro _
    | dsimp only
    | split

theorem execFrstDone_keeps {s : State} (h : HallIx) : ∃ nx, execFrstDone h s = .next nx ∧ s.Keeps [.regs, .ev, .cal] nx := by
  have hw : Field.sub [.regs, .ev, .cal] [.regs, .ev, .cal] = true := by decide
  refine ⟨_, rfl, ?_⟩
  have hk := State.Keeps.refl [.regs, .ev, .cal] s
  repeat' first
    | with_reducible assumption
    | with_reducible exact State.Keeps.refl _ _
    | with_reducible apply State.frstDone_keeps (hw := Field.sub_trans (by decide) hw)
    | with_reducible refine keeps_ite ?_ ?_
    | with_reducible refine keeps_ite_fst ?_ ?_
    | intro _
    | dsimp only
    | split

theorem execFrstTimeout_keeps {s : State} (h : HallIx) : ∃ nx, execFrstTimeout h s = .next nx ∧ s.Keeps [.regs, .halls, .ev, .corrs] nx
    := by
  have hw : Field.sub [.regs, .halls, .ev, .corrs] [.regs, .halls, .ev, .corrs] = true := by decide
  refine ⟨_, rfl, ?_⟩
  have hk := State.Keeps.refl [.regs, .halls, .ev, .corrs] s
  repeat' first
    | with_reducible assumption
    | with_reducible exact State.Keeps.refl _ _
    | with_reducible apply State.frstTimeout_keeps (hw := Field.sub_trans (by decide) hw)
    | with_reducible refine keeps_ite ?_ ?_
    | with_reducible refine keeps_ite_fst ?_ ?_
    | intro _
    | dsimp only
    | split

theorem execHallFenceSet_keeps {s : State} (h : HallIx) : ∃ nx, execHallFenceSet h s = .next nx ∧ s.Keeps [.regs, .ev, .corrs] nx := by
  have hw : Field.sub [.regs, .ev, .corrs] [.regs, .ev, .corrs] = true := by decide
  refine ⟨_, rfl, ?_⟩
  have hk := State.Keeps.refl [.regs, .ev, .corrs] s
  repeat' first
    | with_reducible assumption
    | with_reducible exact State.Keeps.refl _ _
    | with_reducible apply State.hallFenceSet_keeps (hw := Field.sub_trans (by decide) hw)
    | with_reducible refine keeps_ite ?_ ?_
    | with_reducible refine keeps_ite_fst ?_ ?_
    | intro _
    | dsimp only
    | split

theorem execHallFenceClear_keeps {s : State} (h : HallIx) : ∃ nx, execHallFenceClear h s = .next nx ∧ s.Keeps [.regs, .ev, .net, .corrs]
    nx := by
  have hw : Field.sub [.regs, .ev, .net, .corrs] [.regs, .ev, .net, .corrs] = true := by decide
  refine ⟨_, rfl, ?_⟩
  have hk := State.Keeps.refl [.regs, .ev, .net, .corrs] s
  repeat' first
    | with_reducible assumption
    | with_reducible exact State.Keeps.refl _ _
    | with_reducible apply State.hallFenceClear_keeps (hw := Field.sub_trans (by decide) hw)
    | with_reducible refine keeps_ite ?_ ?_
    | with_reducible refine keeps_ite_fst ?_ ?_
    | intro _
    | dsimp only
    | split

theorem execCorrFence_keeps {s : State} (h : HallIx) (k : Fin 3) (v : Word) : ∃ nx, execCorrFence h k v s = .next nx ∧ s.Keeps [.regs,
    .ev, .corrs] nx := by
  have hw : Field.sub [.regs, .ev, .corrs] [.regs, .ev, .corrs] = true := by decide
  refine ⟨_, rfl, ?_⟩
  have hk := State.Keeps.refl [.regs, .ev, .corrs] s
  repeat' first
    | with_reducible assumption
    | with_reducible exact State.Keeps.refl _ _
    | with_reducible apply State.corrFence_keeps (hw := Field.sub_trans (by decide) hw)
    | with_reducible refine keeps_ite ?_ ?_
    | with_reducible refine keeps_ite_fst ?_ ?_
    | intro _
    | dsimp only
    | split

theorem execCorrReadmit_keeps {s : State} (h : HallIx) (k : Fin 3) : ∃ nx, execCorrReadmit h k s = .next nx ∧ s.Keeps [.regs, .ev, .net,
    .corrs] nx := by
  have hw : Field.sub [.regs, .ev, .net, .corrs] [.regs, .ev, .net, .corrs] = true := by decide
  refine ⟨_, rfl, ?_⟩
  have hk := State.Keeps.refl [.regs, .ev, .net, .corrs] s
  repeat' first
    | with_reducible assumption
    | with_reducible exact State.Keeps.refl _ _
    | with_reducible apply State.corrReadmit_keeps (hw := Field.sub_trans (by decide) hw)
    | with_reducible refine keeps_ite ?_ ?_
    | with_reducible refine keeps_ite_fst ?_ ?_
    | intro _
    | dsimp only
    | split

end Sys2Proof.Machine
end

