-- ==== Sys2Proof/Laws/KeepsTherm.lean ====
section
/-!
SUPPORT. Laws/KeepsTherm.lean: the operations of Machine/Therm.lean keep State.Keeps.
-/
namespace Sys2Proof.Machine
open Sys2Proof

theorem State.estUnits_keeps {W : List Field} {s₀ s : State} (hk : s₀.Keeps W s) (hw : Field.sub [.free] W = true) (e : Int) : s₀.Keeps W
    (State.estUnits s e).1 := by
  unfold State.estUnits
  repeat' first
    | with_reducible assumption
    | with_reducible exact State.Keeps.refl _ _
    | with_reducible apply State.draw_keeps (hw := Field.sub_trans (by decide) hw)
    | with_reducible refine keeps_ite ?_ ?_
    | with_reducible refine keeps_ite_fst ?_ ?_
    | intro _
    | dsimp only
    | split

theorem State.sensorCheck_keeps {W : List Field} {s₀ s : State} (hk : s₀.Keeps W s) (hw : Field.sub [.regs, .ev, .thermGood, .free] W =
    true) (h : Nat) (x : List Int) (sus : List Bool) (j : Nat) : s₀.Keeps W (State.sensorCheck s h x sus j) := by
  unfold State.sensorCheck
  repeat' first
    | with_reducible assumption
    | with_reducible exact State.Keeps.refl _ _
    | with_reducible apply State.estUnits_keeps (hw := Field.sub_trans (by decide) hw)
    | with_reducible apply State.setFld_keeps (hw := Field.sub_trans (by decide) hw)
    | with_reducible apply State.post_keeps (hw := Field.sub_trans (by decide) hw)
    | with_reducible refine keeps_ite ?_ ?_
    | with_reducible refine keeps_ite_fst ?_ ?_
    | intro _
    | dsimp only
    | simp (disch := first | assumption | (with_unfolding_all (intro (x : Field) hx; cases x <;>
        first | exact absurd hx (by decide) | (dsimp only [Field.same]; done) | (dsimp only [Field.same]; exact ⟨rfl, rfl⟩)))) only [keeps_mk hw]
    | split

theorem State.admStopped_keeps {W : List Field} {s₀ s : State} (hk : s₀.Keeps W s) (hw : Field.sub [.regs, .gals, .ev, .adm, .dom,
    .pwrCmd, .boot, .bist] W = true) : s₀.Keeps W (State.admStopped s) := by
  unfold State.admStopped
  repeat' first
    | with_reducible assumption
    | with_reducible exact State.Keeps.refl _ _
    | with_reducible apply State.admTimedOut_keeps (hw := Field.sub_trans (by decide) hw)
    | with_reducible exact hk.admTo (Field.sub_trans (by decide) hw) _ (List.length_filter_le _ _)
    | with_reducible refine keeps_ite ?_ ?_
    | with_reducible refine keeps_ite_fst ?_ ?_
    | with_reducible refine keeps_foldl _ _ ?_ ?_
    | with_reducible refine keeps_foldl_fst _ _ ?_ ?_
    | intro _
    | dsimp only
    | simp (disch := first | assumption | (with_unfolding_all (intro (x : Field) hx; cases x <;>
        first | exact absurd hx (by decide) | (dsimp only [Field.same]; done) | (dsimp only [Field.same]; exact ⟨rfl, rfl⟩)))) only [keeps_mk hw]
    | simp (disch := first | assumption | (with_unfolding_all (intro (x : Field) hx; cases x <;>
        first | exact absurd hx (by decide) | (dsimp only [Field.same]; done) | (dsimp only [Field.same]; exact ⟨rfl, rfl⟩)))) only [keeps_mk_adm hw]
    | split

theorem State.dispatchOff_keeps {W : List Field} {s₀ s : State} (hk : s₀.Keeps W s) (hw : Field.sub [.regs] W = true) : s₀.Keeps W
    (State.dispatchOff s) := by
  unfold State.dispatchOff
  repeat' first
    | with_reducible assumption
    | with_reducible exact State.Keeps.refl _ _
    | with_reducible apply State.setFld_keeps (hw := Field.sub_trans (by decide) hw)
    | with_reducible refine keeps_ite ?_ ?_
    | with_reducible refine keeps_ite_fst ?_ ?_
    | with_reducible refine keeps_foldl _ _ ?_ ?_
    | with_reducible refine keeps_foldl_fst _ _ ?_ ?_
    | intro _
    | dsimp only
    | split

theorem State.stopBegin_keeps {W : List Field} {s₀ s : State} (hk : s₀.Keeps W s) (hw : Field.sub [.regs, .mem, .gals, .halls, .ev, .adm,
    .dom, .pwrCmd, .stop, .boot, .bist, .net, .reqs, .seqNext, .free] W = true) (cause : Nat) : s₀.Keeps W (State.stopBegin s cause) := by
  unfold State.stopBegin
  repeat' first
    | with_reducible assumption
    | with_reducible exact State.Keeps.refl _ _
    | with_reducible apply State.loadsEnd_keeps (hw := Field.sub_trans (by decide) hw)
    | with_reducible apply State.admStopped_keeps (hw := Field.sub_trans (by decide) hw)
    | with_reducible apply State.bistAbandon_keeps (hw := Field.sub_trans (by decide) hw)
    | with_reducible apply State.dispatchOff_keeps (hw := Field.sub_trans (by decide) hw)
    | with_reducible apply State.postPkg_keeps (hw := Field.sub_trans (by decide) hw)
    | with_reducible refine keeps_ite ?_ ?_
    | with_reducible refine keeps_ite_fst ?_ ?_
    | intro _
    | dsimp only
    | simp (disch := first | assumption | (with_unfolding_all (intro (x : Field) hx; cases x <;>
        first | exact absurd hx (by decide) | (dsimp only [Field.same]; done) | (dsimp only [Field.same]; exact ⟨rfl, rfl⟩)))) only [keeps_mk hw]
    | split

theorem State.stopLoading_keeps {W : List Field} {s₀ s : State} (hk : s₀.Keeps W s) (hw : Field.sub [.regs, .mem, .gals, .halls, .ev,
    .adm, .dom, .pwrCmd, .boot, .bist, .net, .reqs, .seqNext, .free] W = true) : s₀.Keeps W (State.stopLoading s) := by
  unfold State.stopLoading
  repeat' first
    | with_reducible assumption
    | with_reducible exact State.Keeps.refl _ _
    | with_reducible apply State.bistAbandon_keeps (hw := Field.sub_trans (by decide) hw)
    | with_reducible apply State.setBoot_keeps (hw := Field.sub_trans (by decide) hw)
    | with_reducible apply State.loadsEnd_keeps (hw := Field.sub_trans (by decide) hw)
    | with_reducible refine keeps_ite ?_ ?_
    | with_reducible refine keeps_ite_fst ?_ ?_
    | intro _
    | dsimp only
    | simp (disch := first | assumption | (with_unfolding_all (intro (x : Field) hx; cases x <;>
        first | exact absurd hx (by decide) | (dsimp only [Field.same]; done) | (dsimp only [Field.same]; exact ⟨rfl, rfl⟩)))) only [keeps_mk hw]
    | split

theorem State.orderlyStop_keeps {W : List Field} {s₀ s : State} (hk : s₀.Keeps W s) (hw : Field.sub [.regs, .mem, .gals, .halls, .ev,
    .adm, .dom, .pwrCmd, .stop, .boot, .bist, .net, .reqs, .seqNext, .free] W = true) (cause : Nat) : s₀.Keeps W (State.orderlyStop s
    cause) := by
  unfold State.orderlyStop
  repeat' first
    | with_reducible assumption
    | with_reducible exact State.Keeps.refl _ _
    | with_reducible apply State.stopBegin_keeps (hw := Field.sub_trans (by decide) hw)
    | with_reducible apply State.stopLoading_keeps (hw := Field.sub_trans (by decide) hw)
    | with_reducible refine keeps_ite ?_ ?_
    | with_reducible refine keeps_ite_fst ?_ ?_
    | intro _
    | dsimp only
    | split

theorem State.stackHold_keeps {W : List Field} {s₀ s : State} (hk : s₀.Keeps W s) (hw : Field.sub [.regs, .mem, .gals, .halls, .ev, .adm,
    .dom, .pwrCmd, .boot, .bist, .net, .reqs, .seqNext, .free] W = true) (h : Nat) : s₀.Keeps W (State.stackHold s h) := by
  unfold State.stackHold
  repeat' first
    | with_reducible assumption
    | with_reducible exact State.Keeps.refl _ _
    | with_reducible apply State.srBegin_keeps (hw := Field.sub_trans (by decide) hw)
    | with_reducible apply State.stackEntered_keeps (hw := Field.sub_trans (by decide) hw)
    | with_reducible apply State.meePause_keeps (hw := Field.sub_trans (by decide) hw)
    | with_reducible apply State.cacheFlush_keeps (hw := Field.sub_trans (by decide) hw)
    | with_reducible apply State.portFlush_keeps (hw := Field.sub_trans (by decide) hw)
    | with_reducible apply State.wcbDrain_keeps (hw := Field.sub_trans (by decide) hw)
    | with_reducible refine keeps_ite ?_ ?_
    | with_reducible refine keeps_ite_fst ?_ ?_
    | intro _
    | dsimp only
    | split

theorem State.stopTest_keeps {W : List Field} {s₀ s : State} (hk : s₀.Keeps W s) (hw : Field.sub [.regs, .mem, .gals, .halls, .ev, .adm,
    .clk, .stop, .boot, .bist, .net, .reqs, .seqNext, .free] W = true) (mv : List Nat) : s₀.Keeps W (State.stopTest s mv) := by
  unfold State.stopTest
  repeat' first
    | with_reducible assumption
    | with_reducible exact State.Keeps.refl _ _
    | with_reducible apply State.calRecord_keeps (hw := Field.sub_trans (by decide) hw)
    | with_reducible apply State.bistAtStop_keeps (hw := Field.sub_trans (by decide) hw)
    | with_reducible refine keeps_ite ?_ ?_
    | with_reducible refine keeps_ite_fst ?_ ?_
    | intro _
    | dsimp only
    | simp (disch := first | assumption | (with_unfolding_all (intro (x : Field) hx; cases x <;>
        first | exact absurd hx (by decide) | (dsimp only [Field.same]; done) | (dsimp only [Field.same]; exact ⟨rfl, rfl⟩)))) only [keeps_mk hw]
    | split

theorem State.stopDrainEnd_keeps {W : List Field} {s₀ s : State} (hk : s₀.Keeps W s) (hw : Field.sub [.regs, .mem, .gals, .halls, .ev,
    .adm, .clk, .dom, .pwrCmd, .stop, .boot, .bist, .net, .reqs, .seqNext, .free] W = true) (mv : List Nat) : s₀.Keeps W
    (State.stopDrainEnd s mv) := by
  unfold State.stopDrainEnd
  repeat' first
    | with_reducible assumption
    | with_reducible exact State.Keeps.refl _ _
    | with_reducible apply State.postPkg_keeps (hw := Field.sub_trans (by decide) hw)
    | with_reducible apply State.stackHold_keeps (hw := Field.sub_trans (by decide) hw)
    | with_reducible apply State.fabricStop_keeps (hw := Field.sub_trans (by decide) hw)
    | with_reducible apply State.stopTest_keeps (hw := Field.sub_trans (by decide) hw)
    | with_reducible refine keeps_ite ?_ ?_
    | with_reducible refine keeps_ite_fst ?_ ?_
    | with_reducible refine keeps_foldl _ _ ?_ ?_
    | with_reducible refine keeps_foldl_fst _ _ ?_ ?_
    | intro _
    | dsimp only
    | simp (disch := first | assumption | (with_unfolding_all (intro (x : Field) hx; cases x <;>
        first | exact absurd hx (by decide) | (dsimp only [Field.same]; done) | (dsimp only [Field.same]; exact ⟨rfl, rfl⟩)))) only [keeps_mk hw]
    | split

theorem State.stopDone_keeps {W : List Field} {s₀ s : State} (hk : s₀.Keeps W s) (hw : Field.sub [.regs, .ev, .stop, .boot] W = true) :
    s₀.Keeps W (State.stopDone s) := by
  unfold State.stopDone
  repeat' first
    | with_reducible assumption
    | with_reducible exact State.Keeps.refl _ _
    | with_reducible apply State.postPkg_keeps (hw := Field.sub_trans (by decide) hw)
    | with_reducible apply State.setBoot_keeps (hw := Field.sub_trans (by decide) hw)
    | with_reducible refine keeps_ite ?_ ?_
    | with_reducible refine keeps_ite_fst ?_ ?_
    | intro _
    | dsimp only
    | simp (disch := first | assumption | (with_unfolding_all (intro (x : Field) hx; cases x <;>
        first | exact absurd hx (by decide) | (dsimp only [Field.same]; done) | (dsimp only [Field.same]; exact ⟨rfl, rfl⟩)))) only [keeps_mk hw]
    | split

theorem State.pwrCut_keeps {W : List Field} {s₀ s : State} (hk : s₀.Keeps W s) (hw : Field.sub [.regs, .pwrCmd, .free] W = true) :
    s₀.Keeps W (State.pwrCut s) := by
  unfold State.pwrCut
  repeat' first
    | with_reducible assumption
    | with_reducible exact State.Keeps.refl _ _
    | with_reducible apply State.pwrResult_keeps (hw := Field.sub_trans (by decide) hw)
    | with_reducible apply State.draw_keeps (hw := Field.sub_trans (by decide) hw)
    | with_reducible refine keeps_ite ?_ ?_
    | with_reducible refine keeps_ite_fst ?_ ?_
    | intro _
    | dsimp only
    | split

theorem State.hallCut_keeps {W : List Field} {s₀ s : State} (hk : s₀.Keeps W s) (hw : Field.sub [.regs, .mem, .gals, .halls, .ev, .clk,
    .dom, .net, .reqs, .seqNext, .free] W = true) (h : Nat) : s₀.Keeps W (State.hallCut s h) := by
  unfold State.hallCut
  repeat' first
    | with_reducible assumption
    | with_reducible exact State.Keeps.refl _ _
    | with_reducible apply State.forceDom_keeps (hw := Field.sub_trans (by decide) hw)
    | with_reducible apply State.laneOff_keeps (hw := Field.sub_trans (by decide) hw)
    | with_reducible apply State.domainDown_keeps (hw := Field.sub_trans (by decide) hw)
    | with_reducible apply State.branchesUpdate_keeps (hw := Field.sub_trans (by decide) hw)
    | with_reducible refine keeps_ite ?_ ?_
    | with_reducible refine keeps_ite_fst ?_ ?_
    | with_reducible refine keeps_foldl _ _ ?_ ?_
    | with_reducible refine keeps_foldl_fst _ _ ?_ ?_
    | intro _
    | dsimp only
    | split

theorem State.portCut_keeps {W : List Field} {s₀ s : State} (hk : s₀.Keeps W s) (hw : Field.sub [.regs, .mem, .gals, .halls, .ev, .adm,
    .dom, .pwrCmd, .boot, .bist, .net, .reqs, .seqNext, .free] W = true) (h : Nat) : s₀.Keeps W (State.portCut s h) := by
  unfold State.portCut
  repeat' first
    | with_reducible assumption
    | with_reducible exact State.Keeps.refl _ _
    | with_reducible apply State.stackHold_keeps (hw := Field.sub_trans (by decide) hw)
    | with_reducible apply State.modHbm_keeps (hw := Field.sub_trans (by decide) hw)
    | with_reducible apply State.meePause_keeps (hw := Field.sub_trans (by decide) hw)
    | with_reducible apply State.modMee_keeps (hw := Field.sub_trans (by decide) hw)
    | with_reducible apply State.forceDom_keeps (hw := Field.sub_trans (by decide) hw)
    | with_reducible apply State.setHbmState_keeps (hw := Field.sub_trans (by decide) hw)
    | with_reducible apply State.loseMem_keeps (hw := Field.sub_trans (by decide) hw)
    | with_reducible refine keeps_ite ?_ ?_
    | with_reducible refine keeps_ite_fst ?_ ?_
    | intro _
    | dsimp only
    | split

theorem State.costsCut_keeps {W : List Field} {s₀ s : State} (hk : s₀.Keeps W s) (hw : Field.sub [.adm] W = true)
    :
    s₀.Keeps W (State.costsCut s) := by
  exact hk.admTo hw _ (Nat.zero_le _)

theorem State.stoppingOff_keeps {W : List Field} {s₀ s : State} (hk : s₀.Keeps W s) (hw : Field.sub [.regs] W = true) : s₀.Keeps W
    (State.stoppingOff s) := by
  unfold State.stoppingOff
  repeat' first
    | with_reducible assumption
    | with_reducible exact State.Keeps.refl _ _
    | with_reducible apply State.setFld_keeps (hw := Field.sub_trans (by decide) hw)
    | with_reducible refine keeps_ite ?_ ?_
    | with_reducible refine keeps_ite_fst ?_ ?_
    | with_reducible refine keeps_foldl _ _ ?_ ?_
    | with_reducible refine keeps_foldl_fst _ _ ?_ ?_
    | intro _
    | dsimp only
    | split

theorem State.noRecords_keeps {W : List Field} {s₀ s : State} (hk : s₀.Keeps W s) (hw : Field.sub [.regs, .boot] W = true) : s₀.Keeps W
    (State.noRecords s) := by
  unfold State.noRecords
  repeat' first
    | with_reducible assumption
    | with_reducible exact State.Keeps.refl _ _
    | with_reducible apply State.setFld_keeps (hw := Field.sub_trans (by decide) hw)
    | with_reducible refine keeps_ite ?_ ?_
    | with_reducible refine keeps_ite_fst ?_ ?_
    | intro _
    | dsimp only
    | simp (disch := first | assumption | (with_unfolding_all (intro (x : Field) hx; cases x <;>
        first | exact absurd hx (by decide) | (dsimp only [Field.same]; done) | (dsimp only [Field.same]; exact ⟨rfl, rfl⟩)))) only [keeps_mk hw]
    | split

theorem State.cutMade_keeps {W : List Field} {s₀ s : State} (hk : s₀.Keeps W s) (hw : Field.sub [.stop, .boot] W = true) : s₀.Keeps W
    (State.cutMade s) := by
  unfold State.cutMade
  repeat' first
    | with_reducible assumption
    | with_reducible exact State.Keeps.refl _ _
    | with_reducible refine keeps_ite ?_ ?_
    | with_reducible refine keeps_ite_fst ?_ ?_
    | intro _
    | dsimp only
    | simp (disch := first | assumption | (with_unfolding_all (intro (x : Field) hx; cases x <;>
        first | exact absurd hx (by decide) | (dsimp only [Field.same]; done) | (dsimp only [Field.same]; exact ⟨rfl, rfl⟩)))) only [keeps_mk hw]
    | split

theorem State.cutNow_keeps {W : List Field} {s₀ s : State} (hk : s₀.Keeps W s) (hw : Field.sub [.regs, .mem, .gals, .halls, .ev, .adm,
    .clk, .dom, .pwrCmd, .stop, .boot, .bist, .net, .reqs, .seqNext, .free] W = true) : s₀.Keeps W (State.cutNow s) := by
  unfold State.cutNow
  repeat' first
    | with_reducible assumption
    | with_reducible exact State.Keeps.refl _ _
    | with_reducible apply State.cutMade_keeps (hw := Field.sub_trans (by decide) hw)
    | with_reducible apply State.pwrCut_keeps (hw := Field.sub_trans (by decide) hw)
    | with_reducible apply State.loadsEnd_keeps (hw := Field.sub_trans (by decide) hw)
    | with_reducible apply State.fabricStop_keeps (hw := Field.sub_trans (by decide) hw)
    | with_reducible apply State.noRecords_keeps (hw := Field.sub_trans (by decide) hw)
    | with_reducible apply State.bistAbandon_keeps (hw := Field.sub_trans (by decide) hw)
    | with_reducible apply State.hallCut_keeps (hw := Field.sub_trans (by decide) hw)
    | with_reducible apply State.portCut_keeps (hw := Field.sub_trans (by decide) hw)
    | with_reducible apply State.setBoot_keeps (hw := Field.sub_trans (by decide) hw)
    | with_reducible apply State.stoppingOff_keeps (hw := Field.sub_trans (by decide) hw)
    | with_reducible apply State.costsCut_keeps (hw := Field.sub_trans (by decide) hw)
    | with_reducible refine keeps_ite ?_ ?_
    | with_reducible refine keeps_ite_fst ?_ ?_
    | with_reducible refine keeps_foldl _ _ ?_ ?_
    | with_reducible refine keeps_foldl_fst _ _ ?_ ?_
    | intro _
    | dsimp only
    | split

theorem State.immediateCut_keeps {W : List Field} {s₀ s : State} (hk : s₀.Keeps W s) (hw : Field.sub [.regs, .mem, .gals, .halls, .ev,
    .adm, .clk, .dom, .pwrCmd, .stop, .boot, .bist, .net, .reqs, .seqNext, .free] W = true) : s₀.Keeps W (State.immediateCut s) := by
  unfold State.immediateCut
  repeat' first
    | with_reducible assumption
    | with_reducible exact State.Keeps.refl _ _
    | with_reducible apply State.cutNow_keeps (hw := Field.sub_trans (by decide) hw)
    | with_reducible refine keeps_ite ?_ ?_
    | with_reducible refine keeps_ite_fst ?_ ?_
    | intro _
    | dsimp only
    | split

theorem State.thermTrigger_keeps {W : List Field} {s₀ s : State} (hk : s₀.Keeps W s) (hw : Field.sub [.regs, .mem, .gals, .halls, .ev,
    .adm, .clk, .dom, .pwrCmd, .stop, .boot, .bist, .net, .reqs, .seqNext, .free] W = true) (h : Nat) (stack : Option Nat) (t : Int)
    (limit : Int) (hist : List (Nat × Int)) : s₀.Keeps W (State.thermTrigger s h stack t limit hist) := by
  unfold State.thermTrigger
  repeat' first
    | with_reducible assumption
    | with_reducible exact State.Keeps.refl _ _
    | with_reducible apply State.cutNow_keeps (hw := Field.sub_trans (by decide) hw)
    | with_reducible apply State.post_keeps (hw := Field.sub_trans (by decide) hw)
    | with_reducible apply State.setFld_keeps (hw := Field.sub_trans (by decide) hw)
    | with_reducible apply State.orderlyStop_keeps (hw := Field.sub_trans (by decide) hw)
    | with_reducible refine keeps_ite ?_ ?_
    | with_reducible refine keeps_ite_fst ?_ ?_
    | intro _
    | dsimp only
    | simp (disch := first | assumption | (with_unfolding_all (intro (x : Field) hx; cases x <;>
        first | exact absurd hx (by decide) | (dsimp only [Field.same]; done) | (dsimp only [Field.same]; exact ⟨rfl, rfl⟩)))) only [keeps_mk hw]
    | split

theorem State.divFollow_keeps {W : List Field} {s₀ s : State} (hk : s₀.Keeps W s) (hw : Field.sub [.regs, .gals, .ev, .adm, .dom,
    .pwrCmd, .boot, .bist] W = true) (h : Nat) : s₀.Keeps W (State.divFollow s h) := by
  unfold State.divFollow
  repeat' first
    | with_reducible assumption
    | with_reducible exact State.Keeps.refl _ _
    | with_reducible apply State.setFld_keeps (hw := Field.sub_trans (by decide) hw)
    | with_reducible apply State.admRelease_keeps (hw := Field.sub_trans (by decide) hw)
    | with_reducible apply State.admWithdraw_keeps (hw := Field.sub_trans (by decide) hw)
    | with_reducible apply State.admRequest_keeps (hw := Field.sub_trans (by decide) hw)
    | with_reducible refine keeps_ite ?_ ?_
    | with_reducible refine keeps_ite_fst ?_ ?_
    | intro _
    | dsimp only
    | split

theorem State.divGranted_keeps {W : List Field} {s₀ s : State} (hk : s₀.Keeps W s) (hw : Field.sub [.regs] W = true) (h : Nat) : s₀.Keeps
    W (State.divGranted s h) := by
  unfold State.divGranted
  repeat' first
    | with_reducible assumption
    | with_reducible exact State.Keeps.refl _ _
    | with_reducible apply State.setFld_keeps (hw := Field.sub_trans (by decide) hw)
    | with_reducible refine keeps_ite ?_ ?_
    | with_reducible refine keeps_ite_fst ?_ ?_
    | intro _
    | dsimp only
    | split

theorem State.hallThresholds_keeps {W : List Field} {s₀ s : State} (hk : s₀.Keeps W s) (hw : Field.sub [.regs, .gals, .ev, .adm, .dom,
    .pwrCmd, .boot, .bist] W = true) (h : Nat) : s₀.Keeps W (State.hallThresholds s h) := by
  unfold State.hallThresholds
  repeat' first
    | with_reducible assumption
    | with_reducible exact State.Keeps.refl _ _
    | with_reducible apply State.setFld_keeps (hw := Field.sub_trans (by decide) hw)
    | with_reducible apply State.post_keeps (hw := Field.sub_trans (by decide) hw)
    | with_reducible apply State.divFollow_keeps (hw := Field.sub_trans (by decide) hw)
    | with_reducible refine keeps_ite ?_ ?_
    | with_reducible refine keeps_ite_fst ?_ ?_
    | intro _
    | dsimp only
    | split

theorem State.sensorsRead_keeps {W : List Field} {s₀ s : State} (hk : s₀.Keeps W s) (hw : Field.sub [.regs, .ev, .thermGood, .free] W =
    true) (h : Nat) (x : List Int) : s₀.Keeps W (State.sensorsRead s h x) := by
  unfold State.sensorsRead
  repeat' first
    | with_reducible assumption
    | with_reducible exact State.Keeps.refl _ _
    | with_reducible apply State.sensorCheck_keeps (hw := Field.sub_trans (by decide) hw)
    | with_reducible apply State.setFld_keeps (hw := Field.sub_trans (by decide) hw)
    | with_reducible refine keeps_ite ?_ ?_
    | with_reducible refine keeps_ite_fst ?_ ?_
    | with_reducible refine keeps_foldl _ _ ?_ ?_
    | with_reducible refine keeps_foldl_fst _ _ ?_ ?_
    | intro _
    | dsimp only
    | split

theorem State.measured_keeps {W : List Field} {s₀ s : State} (hk : s₀.Keeps W s) (hw : Field.sub [.regs, .mem, .gals, .halls, .ev, .adm,
    .clk, .dom, .pwrCmd, .thermHall, .thermGood, .stop, .boot, .bist, .cal, .net, .reqs, .seqNext, .free] W = true) (h : Nat) (x : List
    Int) : s₀.Keeps W (State.measured s h x) := by
  unfold State.measured
  repeat' first
    | with_reducible assumption
    | with_reducible exact State.Keeps.refl _ _
    | with_reducible apply State.sensorsRead_keeps (hw := Field.sub_trans (by decide) hw)
    | with_reducible apply State.calTrigger_keeps (hw := Field.sub_trans (by decide) hw)
    | with_reducible apply State.hallThresholds_keeps (hw := Field.sub_trans (by decide) hw)
    | with_reducible apply State.thermTrigger_keeps (hw := Field.sub_trans (by decide) hw)
    | with_reducible refine keeps_ite ?_ ?_
    | with_reducible refine keeps_ite_fst ?_ ?_
    | intro _
    | dsimp only
    | simp (disch := first | assumption | (with_unfolding_all (intro (x : Field) hx; cases x <;>
        first | exact absurd hx (by decide) | (dsimp only [Field.same]; done) | (dsimp only [Field.same]; exact ⟨rfl, rfl⟩)))) only [keeps_mk hw]
    | split

theorem State.stackThresholds_keeps {W : List Field} {s₀ s : State} (hk : s₀.Keeps W s) (hw : Field.sub [.regs, .ev] W = true) (m : Nat)
    (t : Nat) : s₀.Keeps W (State.stackThresholds s m t) := by
  unfold State.stackThresholds
  repeat' first
    | with_reducible assumption
    | with_reducible exact State.Keeps.refl _ _
    | with_reducible apply State.setFld_keeps (hw := Field.sub_trans (by decide) hw)
    | with_reducible apply State.post_keeps (hw := Field.sub_trans (by decide) hw)
    | with_reducible refine keeps_ite ?_ ?_
    | with_reducible refine keeps_ite_fst ?_ ?_
    | intro _
    | dsimp only
    | split

theorem State.stackRead_keeps {W : List Field} {s₀ s : State} (hk : s₀.Keeps W s) (hw : Field.sub [.regs, .mem, .gals, .halls, .ev, .adm,
    .clk, .dom, .pwrCmd, .thermStack, .stop, .boot, .bist, .cal, .net, .reqs, .seqNext, .free] W = true) (m : Nat) (t : Nat) (mult : Nat)
    : s₀.Keeps W (State.stackRead s m t mult) := by
  unfold State.stackRead
  repeat' first
    | with_reducible assumption
    | with_reducible exact State.Keeps.refl _ _
    | with_reducible apply State.setFld_keeps (hw := Field.sub_trans (by decide) hw)
    | with_reducible apply State.post_keeps (hw := Field.sub_trans (by decide) hw)
    | with_reducible apply State.calStackTrigger_keeps (hw := Field.sub_trans (by decide) hw)
    | with_reducible apply State.stackThresholds_keeps (hw := Field.sub_trans (by decide) hw)
    | with_reducible apply State.thermTrigger_keeps (hw := Field.sub_trans (by decide) hw)
    | with_reducible refine keeps_ite ?_ ?_
    | with_reducible refine keeps_ite_fst ?_ ?_
    | intro _
    | dsimp only
    | simp (disch := first | assumption | (with_unfolding_all (intro (x : Field) hx; cases x <;>
        first | exact absurd hx (by decide) | (dsimp only [Field.same]; done) | (dsimp only [Field.same]; exact ⟨rfl, rfl⟩)))) only [keeps_mk hw]
    | split

theorem State.thermMeas_keeps {W : List Field} {s₀ s : State} (hk : s₀.Keeps W s) (hw : Field.sub [.regs] W = true) (v : Word) : s₀.Keeps
    W (State.thermMeas s v) := by
  unfold State.thermMeas
  repeat' first
    | with_reducible assumption
    | with_reducible exact State.Keeps.refl _ _
    | with_reducible apply State.startReading_keeps (hw := Field.sub_trans (by decide) hw)
    | with_reducible refine keeps_ite ?_ ?_
    | with_reducible refine keeps_ite_fst ?_ ?_
    | with_reducible refine keeps_foldl _ _ ?_ ?_
    | with_reducible refine keeps_foldl_fst _ _ ?_ ?_
    | intro _
    | dsimp only
    | split

theorem State.thermRoutine_keeps {W : List Field} {s₀ s : State} (hk : s₀.Keeps W s) (hw : Field.sub [.regs] W = true) (h : Nat) :
    s₀.Keeps W (State.thermRoutine s h) := by
  unfold State.thermRoutine
  repeat' first
    | with_reducible assumption
    | with_reducible exact State.Keeps.refl _ _
    | with_reducible apply State.startReading_keeps (hw := Field.sub_trans (by decide) hw)
    | with_reducible refine keeps_ite ?_ ?_
    | with_reducible refine keeps_ite_fst ?_ ?_
    | intro _
    | dsimp only
    | split

theorem execThermMeas_keeps {s : State} (v : Word) : ∃ nx, execThermMeas v s = .next nx ∧ s.Keeps [.regs] nx := by
  have hw : Field.sub [.regs] [.regs] = true := by decide
  refine ⟨_, rfl, ?_⟩
  have hk := State.Keeps.refl [.regs] s
  repeat' first
    | with_reducible assumption
    | with_reducible exact State.Keeps.refl _ _
    | with_reducible apply State.thermMeas_keeps (hw := Field.sub_trans (by decide) hw)
    | with_reducible refine keeps_ite ?_ ?_
    | with_reducible refine keeps_ite_fst ?_ ?_
    | intro _
    | dsimp only
    | split

theorem execThermalRoutine_keeps {s : State} (h : HallIx) : ∃ nx, execThermalRoutine h s = .next nx ∧ s.Keeps [.regs] nx := by
  have hw : Field.sub [.regs] [.regs] = true := by decide
  refine ⟨_, rfl, ?_⟩
  have hk := State.Keeps.refl [.regs] s
  repeat' first
    | with_reducible assumption
    | with_reducible exact State.Keeps.refl _ _
    | with_reducible apply State.thermRoutine_keeps (hw := Field.sub_trans (by decide) hw)
    | with_reducible refine keeps_ite ?_ ?_
    | with_reducible refine keeps_ite_fst ?_ ?_
    | intro _
    | dsimp only
    | split

theorem execMeasurementDone_keeps {s : State} (h : HallIx) (x : List (BitVec 10)) : ∃ nx, execMeasurementDone h x s = .next nx ∧ s.Keeps
    [.regs, .mem, .gals, .halls, .ev, .adm, .clk, .dom, .pwrCmd, .thermHall, .thermGood, .stop, .boot, .bist, .cal, .net, .reqs,
    .seqNext, .free] nx := by
  have hw : Field.sub [.regs, .mem, .gals, .halls, .ev, .adm, .clk, .dom, .pwrCmd, .thermHall, .thermGood, .stop, .boot, .bist, .cal,
    .net, .reqs, .seqNext, .free] [.regs, .mem, .gals, .halls, .ev, .adm, .clk, .dom, .pwrCmd, .thermHall, .thermGood, .stop, .boot,
    .bist, .cal, .net, .reqs, .seqNext, .free] = true := by decide
  refine ⟨_, rfl, ?_⟩
  have hk := State.Keeps.refl [.regs, .mem, .gals, .halls, .ev, .adm, .clk, .dom, .pwrCmd, .thermHall, .thermGood, .stop, .boot, .bist,
    .cal, .net, .reqs, .seqNext, .free] s
  repeat' first
    | with_reducible assumption
    | with_reducible exact State.Keeps.refl _ _
    | with_reducible apply State.measured_keeps (hw := Field.sub_trans (by decide) hw)
    | with_reducible refine keeps_ite ?_ ?_
    | with_reducible refine keeps_ite_fst ?_ ?_
    | intro _
    | dsimp only
    | split

theorem execHbmTempRead_keeps {s : State} (m : StackIx) (t : Fin 256) (mult : Fin 3) : ∃ nx, execHbmTempRead m t mult s = .next nx ∧
    s.Keeps [.regs, .mem, .gals, .halls, .ev, .adm, .clk, .dom, .pwrCmd, .thermStack, .stop, .boot, .bist, .cal, .net, .reqs, .seqNext,
    .free] nx := by
  have hw : Field.sub [.regs, .mem, .gals, .halls, .ev, .adm, .clk, .dom, .pwrCmd, .thermStack, .stop, .boot, .bist, .cal, .net, .reqs,
    .seqNext, .free] [.regs, .mem, .gals, .halls, .ev, .adm, .clk, .dom, .pwrCmd, .thermStack, .stop, .boot, .bist, .cal, .net, .reqs,
    .seqNext, .free] = true := by decide
  refine ⟨_, rfl, ?_⟩
  have hk := State.Keeps.refl [.regs, .mem, .gals, .halls, .ev, .adm, .clk, .dom, .pwrCmd, .thermStack, .stop, .boot, .bist, .cal, .net,
    .reqs, .seqNext, .free] s
  repeat' first
    | with_reducible assumption
    | with_reducible exact State.Keeps.refl _ _
    | with_reducible apply State.stackRead_keeps (hw := Field.sub_trans (by decide) hw)
    | with_reducible refine keeps_ite ?_ ?_
    | with_reducible refine keeps_ite_fst ?_ ?_
    | intro _
    | dsimp only
    | split

theorem execImmediateCut_keeps {s : State} : ∃ nx, execImmediateCut s = .next nx ∧ s.Keeps [.regs, .mem, .gals, .halls, .ev, .adm, .clk,
    .dom, .pwrCmd, .stop, .boot, .bist, .net, .reqs, .seqNext, .free] nx := by
  have hw : Field.sub [.regs, .mem, .gals, .halls, .ev, .adm, .clk, .dom, .pwrCmd, .stop, .boot, .bist, .net, .reqs, .seqNext, .free]
    [.regs, .mem, .gals, .halls, .ev, .adm, .clk, .dom, .pwrCmd, .stop, .boot, .bist, .net, .reqs, .seqNext, .free] = true := by decide
  refine ⟨_, rfl, ?_⟩
  have hk := State.Keeps.refl [.regs, .mem, .gals, .halls, .ev, .adm, .clk, .dom, .pwrCmd, .stop, .boot, .bist, .net, .reqs, .seqNext,
    .free] s
  repeat' first
    | with_reducible assumption
    | with_reducible exact State.Keeps.refl _ _
    | with_reducible apply State.immediateCut_keeps (hw := Field.sub_trans (by decide) hw)
    | with_reducible refine keeps_ite ?_ ?_
    | with_reducible refine keeps_ite_fst ?_ ?_
    | intro _
    | dsimp only
    | split

theorem execStopN_keeps {s : State} : ∃ nx, execStopN s = .next nx ∧ s.Keeps [.regs, .mem, .gals, .halls, .ev, .adm, .dom, .pwrCmd,
    .stop, .boot, .bist, .net, .reqs, .seqNext, .free] nx := by
  have hw : Field.sub [.regs, .mem, .gals, .halls, .ev, .adm, .dom, .pwrCmd, .stop, .boot, .bist, .net, .reqs, .seqNext, .free] [.regs,
    .mem, .gals, .halls, .ev, .adm, .dom, .pwrCmd, .stop, .boot, .bist, .net, .reqs, .seqNext, .free] = true := by decide
  refine ⟨_, rfl, ?_⟩
  have hk := State.Keeps.refl [.regs, .mem, .gals, .halls, .ev, .adm, .dom, .pwrCmd, .stop, .boot, .bist, .net, .reqs, .seqNext, .free] s
  repeat' first
    | with_reducible assumption
    | with_reducible exact State.Keeps.refl _ _
    | with_reducible apply State.orderlyStop_keeps (hw := Field.sub_trans (by decide) hw)
    | with_reducible refine keeps_ite ?_ ?_
    | with_reducible refine keeps_ite_fst ?_ ?_
    | intro _
    | dsimp only
    | split

theorem execStopDrainEnd_keeps {s : State} (mv : List (Fin 4096)) : ∃ nx, execStopDrainEnd mv s = .next nx ∧ s.Keeps [.regs, .mem, .gals,
    .halls, .ev, .adm, .clk, .dom, .pwrCmd, .stop, .boot, .bist, .net, .reqs, .seqNext, .free] nx := by
  have hw : Field.sub [.regs, .mem, .gals, .halls, .ev, .adm, .clk, .dom, .pwrCmd, .stop, .boot, .bist, .net, .reqs, .seqNext, .free]
    [.regs, .mem, .gals, .halls, .ev, .adm, .clk, .dom, .pwrCmd, .stop, .boot, .bist, .net, .reqs, .seqNext, .free] = true := by decide
  refine ⟨_, rfl, ?_⟩
  have hk := State.Keeps.refl [.regs, .mem, .gals, .halls, .ev, .adm, .clk, .dom, .pwrCmd, .stop, .boot, .bist, .net, .reqs, .seqNext,
    .free] s
  repeat' first
    | with_reducible assumption
    | with_reducible exact State.Keeps.refl _ _
    | with_reducible apply State.stopDrainEnd_keeps (hw := Field.sub_trans (by decide) hw)
    | with_reducible refine keeps_ite ?_ ?_
    | with_reducible refine keeps_ite_fst ?_ ?_
    | intro _
    | dsimp only
    | split

theorem execStopDone_keeps {s : State} : ∃ nx, execStopDone s = .next nx ∧ s.Keeps [.regs, .ev, .stop, .boot] nx := by
  have hw : Field.sub [.regs, .ev, .stop, .boot] [.regs, .ev, .stop, .boot] = true := by decide
  refine ⟨_, rfl, ?_⟩
  have hk := State.Keeps.refl [.regs, .ev, .stop, .boot] s
  repeat' first
    | with_reducible assumption
    | with_reducible exact State.Keeps.refl _ _
    | with_reducible apply State.stopDone_keeps (hw := Field.sub_trans (by decide) hw)
    | with_reducible refine keeps_ite ?_ ?_
    | with_reducible refine keeps_ite_fst ?_ ?_
    | intro _
    | dsimp only
    | split

end Sys2Proof.Machine
end

