-- ==== Sys2Proof/Laws/KeepsAdmit.lean ====
section
/-!
SUPPORT. Laws/KeepsAdmit.lean: the operations of Machine/Admit.lean keep State.Keeps.
-/
namespace Sys2Proof.Machine
open Sys2Proof

theorem State.granted_keeps {W : List Field} {s₀ s : State} (hk : s₀.Keeps W s) (hw : Field.sub [.regs, .mem, .gals, .halls, .ev, .adm,
    .clk, .boot, .bist, .net, .reqs, .seqNext, .free] W = true) (r : AdmReq) : s₀.Keeps W (State.granted s r) := by
  unfold State.granted
  repeat' first
    | with_reducible assumption
    | with_reducible exact State.Keeps.refl _ _
    | with_reducible apply State.powerGranted_keeps (hw := Field.sub_trans (by decide) hw)
    | with_reducible apply State.exitGranted_keeps (hw := Field.sub_trans (by decide) hw)
    | with_reducible apply State.meeGranted_keeps (hw := Field.sub_trans (by decide) hw)
    | with_reducible apply State.bistBegin_keeps (hw := Field.sub_trans (by decide) hw)
    | with_reducible apply State.slotCopyStart_keeps (hw := Field.sub_trans (by decide) hw)
    | with_reducible apply State.importGranted_keeps (hw := Field.sub_trans (by decide) hw)
    | with_reducible apply State.divGranted_keeps (hw := Field.sub_trans (by decide) hw)
    | with_reducible refine keeps_ite ?_ ?_
    | with_reducible refine keeps_ite_fst ?_ ?_
    | intro _
    | dsimp only
    | simp (disch := first | assumption | (with_unfolding_all (intro (x : Field) hx; cases x <;>
        first | exact absurd hx (by decide) | (dsimp only [Field.same]; done) | (dsimp only [Field.same]; exact ⟨rfl, rfl⟩)))) only [keeps_mk hw]
    | split

theorem State.admGrant_keeps {W : List Field} {s₀ s : State} (hk : s₀.Keeps W s) (hw : Field.sub [.regs, .mem, .gals, .halls, .ev, .adm, .clk, .dom, .pwrCmd, .boot, .bist, .net, .reqs, .seqNext, .free] W = true)
    :
    s₀.Keeps W (State.admGrant s) := by
  unfold State.admGrant
  dsimp only
  have h1 := State.askAgain_keeps hk (Field.sub_trans (by decide) hw)
  split
  · exact h1
  · exact State.granted_keeps (h1.admTo (Field.sub_trans (by decide) hw) _ (List.length_erase_le ..)) (Field.sub_trans (by decide) hw) _

theorem State.admTimeout_keeps {W : List Field} {s₀ s : State} (hk : s₀.Keeps W s) (hw : Field.sub [.regs, .gals, .ev, .adm, .dom, .pwrCmd, .boot, .bist] W = true)
    (i : Nat) :
    s₀.Keeps W (State.admTimeout s i) := by
  unfold State.admTimeout
  dsimp only
  split
  · exact hk
  · refine keeps_ite hk (State.askAgain_keeps (State.admTimedOut_keeps (State.postLim_keeps ?_ (Field.sub_trans (by decide) hw) _ _ _ _ _ _) (Field.sub_trans (by decide) hw) _ _ _) (Field.sub_trans (by decide) hw))
    exact hk.admTo (Field.sub_trans (by decide) hw) _ (List.length_eraseIdx_le ..)

theorem execAdmissionGrant_keeps {s : State} : ∃ nx, execAdmissionGrant s = .next nx ∧ s.Keeps [.regs, .mem, .gals, .halls, .ev, .adm,
    .clk, .dom, .pwrCmd, .boot, .bist, .net, .reqs, .seqNext, .free] nx := by
  have hw : Field.sub [.regs, .mem, .gals, .halls, .ev, .adm, .clk, .dom, .pwrCmd, .boot, .bist, .net, .reqs, .seqNext, .free] [.regs,
    .mem, .gals, .halls, .ev, .adm, .clk, .dom, .pwrCmd, .boot, .bist, .net, .reqs, .seqNext, .free] = true := by decide
  refine ⟨_, rfl, ?_⟩
  have hk := State.Keeps.refl [.regs, .mem, .gals, .halls, .ev, .adm, .clk, .dom, .pwrCmd, .boot, .bist, .net, .reqs, .seqNext, .free] s
  repeat' first
    | with_reducible assumption
    | with_reducible exact State.Keeps.refl _ _
    | with_reducible apply State.admGrant_keeps (hw := Field.sub_trans (by decide) hw)
    | with_reducible refine keeps_ite ?_ ?_
    | with_reducible refine keeps_ite_fst ?_ ?_
    | intro _
    | dsimp only
    | split

theorem execAdmTimeout_keeps {s : State} (i : Fin 64) : ∃ nx, execAdmTimeout i s = .next nx ∧ s.Keeps [.regs, .gals, .ev, .adm, .dom,
    .pwrCmd, .boot, .bist] nx := by
  have hw : Field.sub [.regs, .gals, .ev, .adm, .dom, .pwrCmd, .boot, .bist] [.regs, .gals, .ev, .adm, .dom, .pwrCmd, .boot, .bist] =
    true := by decide
  refine ⟨_, rfl, ?_⟩
  have hk := State.Keeps.refl [.regs, .gals, .ev, .adm, .dom, .pwrCmd, .boot, .bist] s
  repeat' first
    | with_reducible assumption
    | with_reducible exact State.Keeps.refl _ _
    | with_reducible apply State.admTimeout_keeps (hw := Field.sub_trans (by decide) hw)
    | with_reducible refine keeps_ite ?_ ?_
    | with_reducible refine keeps_ite_fst ?_ ?_
    | intro _
    | dsimp only
    | split

end Sys2Proof.Machine
end

