-- ==== Sys2Proof/Laws/KeepsRegAccess.lean ====
section
/-!
SUPPORT. Laws/KeepsRegAccess.lean: the operations of Machine/RegAccess.lean keep State.Keeps.
-/
namespace Sys2Proof.Machine
open Sys2Proof

theorem State.readEffect_keeps {W : List Field} {s₀ s : State} (hk : s₀.Keeps W s) (hw : Field.sub [.halls, .clk] W = true) (b : Block)
    (u : Nat) (off : Nat) (ix : List Nat) : s₀.Keeps W (State.readEffect s b u off ix) := by
  unfold State.readEffect
  repeat' first
    | with_reducible assumption
    | with_reducible exact State.Keeps.refl _ _
    | with_reducible apply State.txtsRead_keeps (hw := Field.sub_trans (by decide) hw)
    | with_reducible refine keeps_ite ?_ ?_
    | with_reducible refine keeps_ite_fst ?_ ?_
    | intro _
    | dsimp only
    | simp (disch := first | assumption | (with_unfolding_all (intro (x : Field) hx; cases x <;>
        first | exact absurd hx (by decide) | (dsimp only [Field.same]; done) | (dsimp only [Field.same]; exact ⟨rfl, rfl⟩)))) only [keeps_mk hw]
    | split

theorem State.readRow_keeps {W : List Field} {s₀ s : State} (hk : s₀.Keeps W s) (hw : Field.sub [.regs, .halls, .clk] W = true) (a : Nat)
    (l : Loc) (r : RegRow) (ix : List Nat) : s₀.Keeps W (State.readRow s a l r ix).1 := by
  unfold State.readRow
  repeat' first
    | with_reducible assumption
    | with_reducible exact State.Keeps.refl _ _
    | with_reducible apply State.readEffect_keeps (hw := Field.sub_trans (by decide) hw)
    | with_reducible apply State.setReg_keeps (hw := Field.sub_trans (by decide) hw)
    | with_reducible refine keeps_ite ?_ ?_
    | with_reducible refine keeps_ite_fst ?_ ?_
    | with_reducible refine keeps_foldl _ _ ?_ ?_
    | with_reducible refine keeps_foldl_fst _ _ ?_ ?_
    | intro _
    | dsimp only
    | split

theorem State.readReg_keeps {W : List Field} {s₀ s : State} (hk : s₀.Keeps W s) (hw : Field.sub [.regs, .halls, .ev, .clk] W = true) (a :
    Nat) : s₀.Keeps W (State.readReg s a).1 := by
  unfold State.readReg
  repeat' first
    | with_reducible assumption
    | with_reducible exact State.Keeps.refl _ _
    | with_reducible apply State.postAccess_keeps (hw := Field.sub_trans (by decide) hw)
    | with_reducible apply State.readRow_keeps (hw := Field.sub_trans (by decide) hw)
    | with_reducible refine keeps_ite ?_ ?_
    | with_reducible refine keeps_ite_fst ?_ ?_
    | intro _
    | dsimp only
    | split

theorem State.tracePtrWrite_keeps {W : List Field} {s₀ s : State} (hk : s₀.Keeps W s) (hw : Field.sub [.regs] W = true) (h : Nat) (v :
    Word) : s₀.Keeps W (State.tracePtrWrite s h v) := by
  unfold State.tracePtrWrite
  repeat' first
    | with_reducible assumption
    | with_reducible exact State.Keeps.refl _ _
    | with_reducible apply State.writeFields_keeps (hw := Field.sub_trans (by decide) hw)
    | with_reducible apply State.setFld_keeps (hw := Field.sub_trans (by decide) hw)
    | with_reducible refine keeps_ite ?_ ?_
    | with_reducible refine keeps_ite_fst ?_ ?_
    | intro _
    | dsimp only
    | split

theorem State.freeNats_keeps {W : List Field} {s₀ s : State} (hk : s₀.Keeps W s) (hw : Field.sub [.free] W = true) (n : Nat) (m : Nat) :
    s₀.Keeps W (State.freeNats s n m).1 := by
  unfold State.freeNats
  repeat' first
    | with_reducible assumption
    | with_reducible exact State.Keeps.refl _ _
    | with_reducible refine keeps_ite ?_ ?_
    | with_reducible refine keeps_ite_fst ?_ ?_
    | intro _
    | dsimp only
    | simp (disch := first | assumption | (with_unfolding_all (intro (x : Field) hx; cases x <;>
        first | exact absurd hx (by decide) | (dsimp only [Field.same]; done) | (dsimp only [Field.same]; exact ⟨rfl, rfl⟩)))) only [keeps_mk hw]
    | split

theorem State.bistCmdReg_keeps {W : List Field} {s₀ s : State} (hk : s₀.Keeps W s) (hw : Field.sub [.regs, .gals, .ev, .adm, .dom,
    .pwrCmd, .boot, .bist, .free] W = true) (v : Word) : s₀.Keeps W (State.bistCmdReg s v) := by
  unfold State.bistCmdReg
  repeat' first
    | with_reducible assumption
    | with_reducible exact State.Keeps.refl _ _
    | with_reducible apply State.freeNats_keeps (hw := Field.sub_trans (by decide) hw)
    | with_reducible apply State.bistCmd_keeps (hw := Field.sub_trans (by decide) hw)
    | with_reducible refine keeps_ite ?_ ?_
    | with_reducible refine keeps_ite_fst ?_ ?_
    | intro _
    | dsimp only
    | split

theorem State.importReg_keeps {W : List Field} {s₀ s : State} (hk : s₀.Keeps W s) (hw : Field.sub [.regs, .gals, .ev, .adm, .dom,
    .pwrCmd, .boot, .bist, .free] W = true) (v : Word) : s₀.Keeps W (State.importReg s v) := by
  unfold State.importReg
  repeat' first
    | with_reducible assumption
    | with_reducible exact State.Keeps.refl _ _
    | with_reducible apply State.freeNats_keeps (hw := Field.sub_trans (by decide) hw)
    | with_reducible apply State.importStart_keeps (hw := Field.sub_trans (by decide) hw)
    | with_reducible refine keeps_ite ?_ ?_
    | with_reducible refine keeps_ite_fst ?_ ?_
    | intro _
    | dsimp only
    | split

theorem State.writePkg_keeps {W : List Field} {s₀ s : State} (hk : s₀.Keeps W s) (hw : Field.sub [.regs, .mem, .gals, .halls, .ev, .adm,
    .clk, .dom, .pwrCmd, .boot, .bist, .cal, .sec, .net, .reqs, .seqNext, .free] W = true) (w : Writer) (b : Block) (off : Nat) (ix :
    List Nat) (a : Nat) (v : Word) : s₀.Keeps W (State.writePkg s w b off ix a v) := by
  unfold State.writePkg
  repeat' first
    | with_reducible assumption
    | with_reducible exact State.Keeps.refl _ _
    | with_reducible apply State.importReg_keeps (hw := Field.sub_trans (by decide) hw)
    | with_reducible apply State.flashCommand_keeps (hw := Field.sub_trans (by decide) hw)
    | with_reducible apply State.writeFields_keeps (hw := Field.sub_trans (by decide) hw)
    | with_reducible apply State.lcCommand_keeps (hw := Field.sub_trans (by decide) hw)
    | with_reducible apply State.tampCfgWrite_keeps (hw := Field.sub_trans (by decide) hw)
    | with_reducible apply State.tampStatWrite_keeps (hw := Field.sub_trans (by decide) hw)
    | with_reducible apply State.jtagWrite_keeps (hw := Field.sub_trans (by decide) hw)
    | with_reducible apply State.attestStart_keeps (hw := Field.sub_trans (by decide) hw)
    | with_reducible apply State.setReg_keeps (hw := Field.sub_trans (by decide) hw)
    | with_reducible apply State.mrExtend_keeps (hw := Field.sub_trans (by decide) hw)
    | with_reducible apply State.vpartWrite_keeps (hw := Field.sub_trans (by decide) hw)
    | with_reducible apply State.ledgerWrite_keeps (hw := Field.sub_trans (by decide) hw)
    | with_reducible apply State.pwrCmdWrite_keeps (hw := Field.sub_trans (by decide) hw)
    | with_reducible apply State.thermMeas_keeps (hw := Field.sub_trans (by decide) hw)
    | with_reducible apply State.calCtrlWrite_keeps (hw := Field.sub_trans (by decide) hw)
    | with_reducible apply State.bistCmdReg_keeps (hw := Field.sub_trans (by decide) hw)
    | with_reducible apply State.tbFreqWrite_keeps (hw := Field.sub_trans (by decide) hw)
    | with_reducible apply State.tbStep_keeps (hw := Field.sub_trans (by decide) hw)
    | with_reducible apply State.tbSet_keeps (hw := Field.sub_trans (by decide) hw)
    | with_reducible refine keeps_ite ?_ ?_
    | with_reducible refine keeps_ite_fst ?_ ?_
    | intro _
    | dsimp only
    | split

theorem State.writeHall_keeps {W : List Field} {s₀ s : State} (hk : s₀.Keeps W s) (hw : Field.sub [.regs, .mem, .gals, .halls, .ev, .adm,
    .clk, .dom, .pwrCmd, .slots, .boot, .bist, .cal, .net, .reqs, .seqNext, .istat, .corrs, .free] W = true) (b : Block) (h : Nat) (off :
    Nat) (ix : List Nat) (a : Nat) (v : Word) : s₀.Keeps W (State.writeHall s b h off ix a v) := by
  unfold State.writeHall
  repeat' first
    | with_reducible assumption
    | with_reducible exact State.Keeps.refl _ _
    | with_reducible apply State.frstStart_keeps (hw := Field.sub_trans (by decide) hw)
    | with_reducible apply State.hallFenceWrite_keeps (hw := Field.sub_trans (by decide) hw)
    | with_reducible apply State.corrCtrlWrite_keeps (hw := Field.sub_trans (by decide) hw)
    | with_reducible apply State.mezzOffWrite_keeps (hw := Field.sub_trans (by decide) hw)
    | with_reducible apply State.writeFields_keeps (hw := Field.sub_trans (by decide) hw)
    | with_reducible apply State.readmitWrite_keeps (hw := Field.sub_trans (by decide) hw)
    | with_reducible apply State.tptrWrite_keeps (hw := Field.sub_trans (by decide) hw)
    | with_reducible apply State.istatCtrlWrite_keeps (hw := Field.sub_trans (by decide) hw)
    | with_reducible apply State.gwkTickWrite_keeps (hw := Field.sub_trans (by decide) hw)
    | with_reducible apply State.tracePtrWrite_keeps (hw := Field.sub_trans (by decide) hw)
    | with_reducible apply State.gwkEnqGo_keeps (hw := Field.sub_trans (by decide) hw)
    | with_reducible apply State.srvCmdWrite_keeps (hw := Field.sub_trans (by decide) hw)
    | with_reducible apply State.flowCmdWrite_keeps (hw := Field.sub_trans (by decide) hw)
    | with_reducible apply State.flowCfgWrite_keeps (hw := Field.sub_trans (by decide) hw)
    | with_reducible apply State.hbmWqWrite_keeps (hw := Field.sub_trans (by decide) hw)
    | with_reducible apply State.hbmCtrlWrite_keeps (hw := Field.sub_trans (by decide) hw)
    | with_reducible apply State.setReg_keeps (hw := Field.sub_trans (by decide) hw)
    | with_reducible apply State.meeKeyload_keeps (hw := Field.sub_trans (by decide) hw)
    | with_reducible apply State.meeSpanWrite_keeps (hw := Field.sub_trans (by decide) hw)
    | with_reducible apply State.meeCtrlWrite_keeps (hw := Field.sub_trans (by decide) hw)
    | with_reducible apply State.laneCheck_keeps (hw := Field.sub_trans (by decide) hw)
    | with_reducible apply State.laneCfgWrite_keeps (hw := Field.sub_trans (by decide) hw)
    | with_reducible apply State.laneRateWrite_keeps (hw := Field.sub_trans (by decide) hw)
    | with_reducible apply State.laneCtrlWrite_keeps (hw := Field.sub_trans (by decide) hw)
    | with_reducible apply State.laneTxeqWrite_keeps (hw := Field.sub_trans (by decide) hw)
    | with_reducible apply State.ethModeWrite_keeps (hw := Field.sub_trans (by decide) hw)
    | with_reducible apply State.ethClActWrite_keeps (hw := Field.sub_trans (by decide) hw)
    | with_reducible apply State.padCfgWrite_keeps (hw := Field.sub_trans (by decide) hw)
    | with_reducible apply State.clockMode_keeps (hw := Field.sub_trans (by decide) hw)
    | with_reducible apply State.hclkPllWrite_keeps (hw := Field.sub_trans (by decide) hw)
    | with_reducible apply State.hclkPlloutWrite_keeps (hw := Field.sub_trans (by decide) hw)
    | with_reducible apply State.hclkLrefWrite_keeps (hw := Field.sub_trans (by decide) hw)
    | with_reducible apply State.hclkPadWrite_keeps (hw := Field.sub_trans (by decide) hw)
    | with_reducible refine keeps_ite ?_ ?_
    | with_reducible refine keeps_ite_fst ?_ ?_
    | intro _
    | dsimp only
    | split

theorem State.writeGal_keeps {W : List Field} {s₀ s : State} (hk : s₀.Keeps W s) (hw : Field.sub [.regs, .gals, .halls, .ev, .adm, .dom,
    .pwrCmd, .boot, .bist, .net, .reqs, .seqNext, .free] W = true) (w : Writer) (G : Nat) (off : Nat) (ix : List Nat) (a : Nat) (v :
    Word) : s₀.Keeps W (State.writeGal s w G off ix a v).1 := by
  unfold State.writeGal
  repeat' first
    | with_reducible assumption
    | with_reducible exact State.Keeps.refl _ _
    | with_reducible apply State.loadCmdWrite_keeps (hw := Field.sub_trans (by decide) hw)
    | with_reducible apply State.galClkselWrite_keeps (hw := Field.sub_trans (by decide) hw)
    | with_reducible apply State.galRst_keeps (hw := Field.sub_trans (by decide) hw)
    | with_reducible apply State.ctxCfgWrite_keeps (hw := Field.sub_trans (by decide) hw)
    | with_reducible apply State.ctxSelWrite_keeps (hw := Field.sub_trans (by decide) hw)
    | with_reducible apply State.bmaskWrite_keeps (hw := Field.sub_trans (by decide) hw)
    | with_reducible apply State.slotCmdWrite_keeps (hw := Field.sub_trans (by decide) hw)
    | with_reducible apply State.qCfgWrite_keeps (hw := Field.sub_trans (by decide) hw)
    | with_reducible apply State.qLockedWrite_keeps (hw := Field.sub_trans (by decide) hw)
    | with_reducible apply State.qItemWrite_keeps (hw := Field.sub_trans (by decide) hw)
    | with_reducible apply State.writeFields_keeps (hw := Field.sub_trans (by decide) hw)
    | with_reducible refine keeps_ite ?_ ?_
    | with_reducible refine keeps_ite_fst ?_ ?_
    | intro _
    | dsimp only
    | split

theorem State.writeRow_keeps {W : List Field} {s₀ s : State} (hk : s₀.Keeps W s) (hw : Field.sub [.regs, .mem, .gals, .halls, .ev, .adm,
    .clk, .dom, .pwrCmd, .slots, .boot, .bist, .cal, .sec, .net, .reqs, .seqNext, .istat, .corrs, .free] W = true) (w : Writer) (a : Nat)
    (l : Loc) (r : RegRow) (ix : List Nat) (v : Word) : s₀.Keeps W (State.writeRow s w a l r ix v).1 := by
  unfold State.writeRow
  repeat' first
    | with_reducible assumption
    | with_reducible exact State.Keeps.refl _ _
    | with_reducible apply State.writeGal_keeps (hw := Field.sub_trans (by decide) hw)
    | with_reducible apply State.writeHall_keeps (hw := Field.sub_trans (by decide) hw)
    | with_reducible apply State.writePkg_keeps (hw := Field.sub_trans (by decide) hw)
    | with_reducible refine keeps_ite ?_ ?_
    | with_reducible refine keeps_ite_fst ?_ ?_
    | intro _
    | dsimp only
    | split

theorem State.writeReg_keeps {W : List Field} {s₀ s : State} (hk : s₀.Keeps W s) (hw : Field.sub [.regs, .mem, .gals, .halls, .ev, .adm,
    .clk, .dom, .pwrCmd, .slots, .boot, .bist, .cal, .sec, .net, .reqs, .seqNext, .istat, .corrs, .free] W = true) (w : Writer) (a : Nat)
    (v : Word) : s₀.Keeps W (State.writeReg s w a v).1 := by
  unfold State.writeReg
  repeat' first
    | with_reducible assumption
    | with_reducible exact State.Keeps.refl _ _
    | with_reducible apply State.postAccess_keeps (hw := Field.sub_trans (by decide) hw)
    | with_reducible apply State.writeRow_keeps (hw := Field.sub_trans (by decide) hw)
    | with_reducible refine keeps_ite ?_ ?_
    | with_reducible refine keeps_ite_fst ?_ ?_
    | intro _
    | dsimp only
    | split

theorem execRegisterWrite_keeps {s : State} (w : Writer) (a : Word) (v : Word) : ∃ nx, execRegisterWrite w a v s = .next nx ∧ s.Keeps
    [.regs, .mem, .gals, .halls, .ev, .adm, .clk, .dom, .pwrCmd, .slots, .boot, .bist, .cal, .sec, .net, .reqs, .seqNext, .istat, .corrs,
    .free] nx := by
  have hw : Field.sub [.regs, .mem, .gals, .halls, .ev, .adm, .clk, .dom, .pwrCmd, .slots, .boot, .bist, .cal, .sec, .net, .reqs,
    .seqNext, .istat, .corrs, .free] [.regs, .mem, .gals, .halls, .ev, .adm, .clk, .dom, .pwrCmd, .slots, .boot, .bist, .cal, .sec, .net,
    .reqs, .seqNext, .istat, .corrs, .free] = true := by decide
  refine ⟨_, rfl, ?_⟩
  have hk := State.Keeps.refl [.regs, .mem, .gals, .halls, .ev, .adm, .clk, .dom, .pwrCmd, .slots, .boot, .bist, .cal, .sec, .net, .reqs,
    .seqNext, .istat, .corrs, .free] s
  repeat' first
    | with_reducible assumption
    | with_reducible exact State.Keeps.refl _ _
    | with_reducible apply State.writeReg_keeps (hw := Field.sub_trans (by decide) hw)
    | with_reducible refine keeps_ite ?_ ?_
    | with_reducible refine keeps_ite_fst ?_ ?_
    | intro _
    | dsimp only
    | split

end Sys2Proof.Machine
end

