-- ==== Sys2Proof/Laws/KeepsTargets.lean ====
section
/-!
SUPPORT. Laws/KeepsTargets.lean: the operations of Machine/Targets.lean keep State.Keeps.
-/
namespace Sys2Proof.Machine
open Sys2Proof

theorem regWordAt_keeps {W : List Field} {s₀ : State} (w : Writer) (write full : Bool) (a : Nat) (d : Word)
    (r : State × OSt × List Word) (hk : s₀.Keeps W r.1) (hw : Field.sub [.regs, .mem, .gals, .halls, .ev, .adm, .clk, .dom, .pwrCmd, .slots, .boot, .bist, .cal, .sec, .net, .reqs, .seqNext, .istat, .corrs, .free] W = true) :
    s₀.Keeps W (regWordAt w write full a d r).1 := by
  cases full
  · exact State.draw_keeps hk (Field.sub_trans (by decide) hw)
  · cases write
    · exact State.readReg_keeps hk (Field.sub_trans (by decide) hw) _
    · exact State.writeReg_keeps hk (Field.sub_trans (by decide) hw) _ _ _

theorem regWord_keeps {W : List Field} {s₀ : State} (p : Packet) (w : Writer) (write : Bool) (r : State × OSt × List Word) (i : Nat)
    (hk : s₀.Keeps W r.1) (hw : Field.sub [.regs, .mem, .gals, .halls, .ev, .adm, .clk, .dom, .pwrCmd, .slots, .boot, .bist, .cal, .sec, .net, .reqs, .seqNext, .istat, .corrs, .free] W = true) : s₀.Keeps W (regWord p w write r i).1 := by
  generalize h : regWord p w write r i = x
  unfold regWord at h
  subst h
  exact regWordAt_keeps w write _ _ _ r hk hw

theorem State.regRequest_keeps {W : List Field} {s₀ s : State} (hk : s₀.Keeps W s) (hw : Field.sub [.regs, .mem, .gals, .halls, .ev,
    .adm, .clk, .dom, .pwrCmd, .slots, .boot, .bist, .cal, .sec, .net, .reqs, .seqNext, .istat, .corrs, .free] W = true) (p : Packet) :
    s₀.Keeps W (State.regRequest s p) := by
  unfold State.regRequest
  repeat' first
    | with_reducible assumption
    | with_reducible exact State.Keeps.refl _ _
    | with_reducible apply State.respond_keeps (hw := Field.sub_trans (by decide) hw)
    | with_reducible apply regWord_keeps (hw := Field.sub_trans (by decide) hw)
    | with_reducible refine keeps_ite ?_ ?_
    | with_reducible refine keeps_ite_fst ?_ ?_
    | with_reducible refine keeps_foldl _ _ ?_ ?_
    | with_reducible refine keeps_foldl_fst _ _ ?_ ?_
    | intro _
    | dsimp only
    | split

theorem State.serve_keeps {W : List Field} {s₀ s : State} (hk : s₀.Keeps W s) (hw : Field.sub [.regs, .mem, .gals, .halls, .ev, .adm,
    .clk, .dom, .pwrCmd, .slots, .boot, .bist, .cal, .sec, .net, .reqs, .seqNext, .istat, .corrs, .free] W = true) (p : Packet) (f :
    AccFacts) : s₀.Keeps W (State.serve s p f) := by
  unfold State.serve
  repeat' first
    | with_reducible assumption
    | with_reducible exact State.Keeps.refl _ _
    | with_reducible apply State.itemArrives_keeps (hw := Field.sub_trans (by decide) hw)
    | with_reducible apply State.msgArrives_keeps (hw := Field.sub_trans (by decide) hw)
    | with_reducible apply State.memAccess_keeps (hw := Field.sub_trans (by decide) hw)
    | with_reducible apply State.queueCommand_keeps (hw := Field.sub_trans (by decide) hw)
    | with_reducible apply State.enqPacketAt_keeps (hw := Field.sub_trans (by decide) hw)
    | with_reducible apply State.gwkDone_keeps (hw := Field.sub_trans (by decide) hw)
    | with_reducible apply State.loadRpt_keeps (hw := Field.sub_trans (by decide) hw)
    | with_reducible apply State.portArrive_keeps (hw := Field.sub_trans (by decide) hw)
    | with_reducible apply State.ethXmit_keeps (hw := Field.sub_trans (by decide) hw)
    | with_reducible apply State.loadReqArrives_keeps (hw := Field.sub_trans (by decide) hw)
    | with_reducible apply State.vaultRequest_keeps (hw := Field.sub_trans (by decide) hw)
    | with_reducible apply State.regRequest_keeps (hw := Field.sub_trans (by decide) hw)
    | with_reducible refine keeps_ite ?_ ?_
    | with_reducible refine keeps_ite_fst ?_ ?_
    | intro _
    | dsimp only
    | split

theorem State.targetGets_keeps {W : List Field} {s₀ s : State} (hk : s₀.Keeps W s) (hw : Field.sub [.regs, .mem, .gals, .halls, .ev,
    .adm, .clk, .dom, .pwrCmd, .slots, .boot, .bist, .cal, .sec, .net, .reqs, .seqNext, .seqRec, .istat, .corrs, .free] W = true) (c :
    Nat) (p : Packet) (f : AccFacts) : s₀.Keeps W (State.targetGets s c p f) := by
  unfold State.targetGets
  repeat' first
    | with_reducible assumption
    | with_reducible exact State.Keeps.refl _ _
    | with_reducible apply State.reach_keeps (hw := Field.sub_trans (by decide) hw)
    | with_reducible apply State.arrive_keeps (hw := Field.sub_trans (by decide) hw)
    | with_reducible apply State.serve_keeps (hw := Field.sub_trans (by decide) hw)
    | with_reducible refine keeps_ite ?_ ?_
    | with_reducible refine keeps_ite_fst ?_ ?_
    | intro _
    | dsimp only
    | split

theorem State.responseGets_keeps {W : List Field} {s₀ s : State} (hk : s₀.Keeps W s) (hw : Field.sub [.regs, .mem, .gals, .halls, .ev,
    .adm, .clk, .dom, .pwrCmd, .net, .reqs, .seqNext, .seqRec, .istat, .corrs, .free] W = true) (p : Packet) : s₀.Keeps W
    (State.responseGets s p) := by
  unfold State.responseGets
  repeat' first
    | with_reducible assumption
    | with_reducible exact State.Keeps.refl _ _
    | with_reducible apply State.reach_keeps (hw := Field.sub_trans (by decide) hw)
    | with_reducible apply State.rspArrives_keeps (hw := Field.sub_trans (by decide) hw)
    | with_reducible refine keeps_ite ?_ ?_
    | with_reducible refine keeps_ite_fst ?_ ?_
    | intro _
    | dsimp only
    | split

theorem State.noticeGets_keeps {W : List Field} {s₀ s : State} (hk : s₀.Keeps W s) (hw : Field.sub [.regs, .halls, .ev, .net, .reqs,
    .seqNext, .seqRec, .corrs] W = true) (h : Nat) (k : NoticeKind) (p : Packet) : s₀.Keeps W (State.noticeGets s h k p) := by
  unfold State.noticeGets
  repeat' first
    | with_reducible assumption
    | with_reducible exact State.Keeps.refl _ _
    | with_reducible apply State.reach_keeps (hw := Field.sub_trans (by decide) hw)
    | with_reducible apply State.noticeArrives_keeps (hw := Field.sub_trans (by decide) hw)
    | with_reducible refine keeps_ite ?_ ?_
    | with_reducible refine keeps_ite_fst ?_ ?_
    | intro _
    | dsimp only
    | split

theorem execRd_keeps {s : State} (p : Packet) (f : AccFacts) : ∃ nx, execRd p f s = .next nx ∧ s.Keeps [.regs, .mem, .gals, .halls, .ev,
    .adm, .clk, .dom, .pwrCmd, .slots, .boot, .bist, .cal, .sec, .net, .reqs, .seqNext, .seqRec, .istat, .corrs, .free] nx := by
  have hw : Field.sub [.regs, .mem, .gals, .halls, .ev, .adm, .clk, .dom, .pwrCmd, .slots, .boot, .bist, .cal, .sec, .net, .reqs,
    .seqNext, .seqRec, .istat, .corrs, .free] [.regs, .mem, .gals, .halls, .ev, .adm, .clk, .dom, .pwrCmd, .slots, .boot, .bist, .cal,
    .sec, .net, .reqs, .seqNext, .seqRec, .istat, .corrs, .free] = true := by decide
  refine ⟨_, rfl, ?_⟩
  have hk := State.Keeps.refl [.regs, .mem, .gals, .halls, .ev, .adm, .clk, .dom, .pwrCmd, .slots, .boot, .bist, .cal, .sec, .net, .reqs,
    .seqNext, .seqRec, .istat, .corrs, .free] s
  repeat' first
    | with_reducible assumption
    | with_reducible exact State.Keeps.refl _ _
    | with_reducible apply State.targetGets_keeps (hw := Field.sub_trans (by decide) hw)
    | with_reducible refine keeps_ite ?_ ?_
    | with_reducible refine keeps_ite_fst ?_ ?_
    | intro _
    | dsimp only
    | split

theorem execWr_keeps {s : State} (p : Packet) (f : AccFacts) : ∃ nx, execWr p f s = .next nx ∧ s.Keeps [.regs, .mem, .gals, .halls, .ev,
    .adm, .clk, .dom, .pwrCmd, .slots, .boot, .bist, .cal, .sec, .net, .reqs, .seqNext, .seqRec, .istat, .corrs, .free] nx := by
  have hw : Field.sub [.regs, .mem, .gals, .halls, .ev, .adm, .clk, .dom, .pwrCmd, .slots, .boot, .bist, .cal, .sec, .net, .reqs,
    .seqNext, .seqRec, .istat, .corrs, .free] [.regs, .mem, .gals, .halls, .ev, .adm, .clk, .dom, .pwrCmd, .slots, .boot, .bist, .cal,
    .sec, .net, .reqs, .seqNext, .seqRec, .istat, .corrs, .free] = true := by decide
  refine ⟨_, rfl, ?_⟩
  have hk := State.Keeps.refl [.regs, .mem, .gals, .halls, .ev, .adm, .clk, .dom, .pwrCmd, .slots, .boot, .bist, .cal, .sec, .net, .reqs,
    .seqNext, .seqRec, .istat, .corrs, .free] s
  repeat' first
    | with_reducible assumption
    | with_reducible exact State.Keeps.refl _ _
    | with_reducible apply State.targetGets_keeps (hw := Field.sub_trans (by decide) hw)
    | with_reducible refine keeps_ite ?_ ?_
    | with_reducible refine keeps_ite_fst ?_ ?_
    | intro _
    | dsimp only
    | split

theorem execQpush_keeps {s : State} (x : QueuePush) : ∃ nx, execQpush x s = .next nx ∧ s.Keeps [.regs, .mem, .gals, .halls, .ev, .adm,
    .clk, .dom, .pwrCmd, .slots, .boot, .bist, .cal, .sec, .net, .reqs, .seqNext, .seqRec, .istat, .corrs, .free] nx := by
  have hw : Field.sub [.regs, .mem, .gals, .halls, .ev, .adm, .clk, .dom, .pwrCmd, .slots, .boot, .bist, .cal, .sec, .net, .reqs,
    .seqNext, .seqRec, .istat, .corrs, .free] [.regs, .mem, .gals, .halls, .ev, .adm, .clk, .dom, .pwrCmd, .slots, .boot, .bist, .cal,
    .sec, .net, .reqs, .seqNext, .seqRec, .istat, .corrs, .free] = true := by decide
  refine ⟨_, rfl, ?_⟩
  have hk := State.Keeps.refl [.regs, .mem, .gals, .halls, .ev, .adm, .clk, .dom, .pwrCmd, .slots, .boot, .bist, .cal, .sec, .net, .reqs,
    .seqNext, .seqRec, .istat, .corrs, .free] s
  repeat' first
    | with_reducible assumption
    | with_reducible exact State.Keeps.refl _ _
    | with_reducible apply State.targetGets_keeps (hw := Field.sub_trans (by decide) hw)
    | with_reducible refine keeps_ite ?_ ?_
    | with_reducible refine keeps_ite_fst ?_ ?_
    | intro _
    | dsimp only
    | split

theorem execQpop_keeps {s : State} (p : Packet) (f : EccFacts) : ∃ nx, execQpop p f s = .next nx ∧ s.Keeps [.regs, .mem, .gals, .halls,
    .ev, .adm, .clk, .dom, .pwrCmd, .slots, .boot, .bist, .cal, .sec, .net, .reqs, .seqNext, .seqRec, .istat, .corrs, .free] nx := by
  have hw : Field.sub [.regs, .mem, .gals, .halls, .ev, .adm, .clk, .dom, .pwrCmd, .slots, .boot, .bist, .cal, .sec, .net, .reqs,
    .seqNext, .seqRec, .istat, .corrs, .free] [.regs, .mem, .gals, .halls, .ev, .adm, .clk, .dom, .pwrCmd, .slots, .boot, .bist, .cal,
    .sec, .net, .reqs, .seqNext, .seqRec, .istat, .corrs, .free] = true := by decide
  refine ⟨_, rfl, ?_⟩
  have hk := State.Keeps.refl [.regs, .mem, .gals, .halls, .ev, .adm, .clk, .dom, .pwrCmd, .slots, .boot, .bist, .cal, .sec, .net, .reqs,
    .seqNext, .seqRec, .istat, .corrs, .free] s
  repeat' first
    | with_reducible assumption
    | with_reducible exact State.Keeps.refl _ _
    | with_reducible apply State.targetGets_keeps (hw := Field.sub_trans (by decide) hw)
    | with_reducible refine keeps_ite ?_ ?_
    | with_reducible refine keeps_ite_fst ?_ ?_
    | intro _
    | dsimp only
    | split

theorem execSrd_keeps {s : State} (p : Packet) (ue : Bool) : ∃ nx, execSrd p ue s = .next nx ∧ s.Keeps [.regs, .mem, .gals, .halls, .ev,
    .adm, .clk, .dom, .pwrCmd, .slots, .boot, .bist, .cal, .sec, .net, .reqs, .seqNext, .seqRec, .istat, .corrs, .free] nx := by
  have hw : Field.sub [.regs, .mem, .gals, .halls, .ev, .adm, .clk, .dom, .pwrCmd, .slots, .boot, .bist, .cal, .sec, .net, .reqs,
    .seqNext, .seqRec, .istat, .corrs, .free] [.regs, .mem, .gals, .halls, .ev, .adm, .clk, .dom, .pwrCmd, .slots, .boot, .bist, .cal,
    .sec, .net, .reqs, .seqNext, .seqRec, .istat, .corrs, .free] = true := by decide
  refine ⟨_, rfl, ?_⟩
  have hk := State.Keeps.refl [.regs, .mem, .gals, .halls, .ev, .adm, .clk, .dom, .pwrCmd, .slots, .boot, .bist, .cal, .sec, .net, .reqs,
    .seqNext, .seqRec, .istat, .corrs, .free] s
  repeat' first
    | with_reducible assumption
    | with_reducible exact State.Keeps.refl _ _
    | with_reducible apply State.targetGets_keeps (hw := Field.sub_trans (by decide) hw)
    | with_reducible refine keeps_ite ?_ ?_
    | with_reducible refine keeps_ite_fst ?_ ?_
    | intro _
    | dsimp only
    | split

theorem execSwr_keeps {s : State} (p : Packet) : ∃ nx, execSwr p s = .next nx ∧ s.Keeps [.regs, .mem, .gals, .halls, .ev, .adm, .clk,
    .dom, .pwrCmd, .slots, .boot, .bist, .cal, .sec, .net, .reqs, .seqNext, .seqRec, .istat, .corrs, .free] nx := by
  have hw : Field.sub [.regs, .mem, .gals, .halls, .ev, .adm, .clk, .dom, .pwrCmd, .slots, .boot, .bist, .cal, .sec, .net, .reqs,
    .seqNext, .seqRec, .istat, .corrs, .free] [.regs, .mem, .gals, .halls, .ev, .adm, .clk, .dom, .pwrCmd, .slots, .boot, .bist, .cal,
    .sec, .net, .reqs, .seqNext, .seqRec, .istat, .corrs, .free] = true := by decide
  refine ⟨_, rfl, ?_⟩
  have hk := State.Keeps.refl [.regs, .mem, .gals, .halls, .ev, .adm, .clk, .dom, .pwrCmd, .slots, .boot, .bist, .cal, .sec, .net, .reqs,
    .seqNext, .seqRec, .istat, .corrs, .free] s
  repeat' first
    | with_reducible assumption
    | with_reducible exact State.Keeps.refl _ _
    | with_reducible apply State.targetGets_keeps (hw := Field.sub_trans (by decide) hw)
    | with_reducible refine keeps_ite ?_ ?_
    | with_reducible refine keeps_ite_fst ?_ ?_
    | intro _
    | dsimp only
    | split

theorem execMsg_keeps {s : State} (p : Packet) : ∃ nx, execMsg p s = .next nx ∧ s.Keeps [.regs, .mem, .gals, .halls, .ev, .adm, .clk,
    .dom, .pwrCmd, .slots, .boot, .bist, .cal, .sec, .net, .reqs, .seqNext, .seqRec, .istat, .corrs, .free] nx := by
  have hw : Field.sub [.regs, .mem, .gals, .halls, .ev, .adm, .clk, .dom, .pwrCmd, .slots, .boot, .bist, .cal, .sec, .net, .reqs,
    .seqNext, .seqRec, .istat, .corrs, .free] [.regs, .mem, .gals, .halls, .ev, .adm, .clk, .dom, .pwrCmd, .slots, .boot, .bist, .cal,
    .sec, .net, .reqs, .seqNext, .seqRec, .istat, .corrs, .free] = true := by decide
  refine ⟨_, rfl, ?_⟩
  have hk := State.Keeps.refl [.regs, .mem, .gals, .halls, .ev, .adm, .clk, .dom, .pwrCmd, .slots, .boot, .bist, .cal, .sec, .net, .reqs,
    .seqNext, .seqRec, .istat, .corrs, .free] s
  repeat' first
    | with_reducible assumption
    | with_reducible exact State.Keeps.refl _ _
    | with_reducible apply State.targetGets_keeps (hw := Field.sub_trans (by decide) hw)
    | with_reducible refine keeps_ite ?_ ?_
    | with_reducible refine keeps_ite_fst ?_ ?_
    | intro _
    | dsimp only
    | split

theorem execEnq_keeps {s : State} (p : Packet) : ∃ nx, execEnq p s = .next nx ∧ s.Keeps [.regs, .mem, .gals, .halls, .ev, .adm, .clk,
    .dom, .pwrCmd, .slots, .boot, .bist, .cal, .sec, .net, .reqs, .seqNext, .seqRec, .istat, .corrs, .free] nx := by
  have hw : Field.sub [.regs, .mem, .gals, .halls, .ev, .adm, .clk, .dom, .pwrCmd, .slots, .boot, .bist, .cal, .sec, .net, .reqs,
    .seqNext, .seqRec, .istat, .corrs, .free] [.regs, .mem, .gals, .halls, .ev, .adm, .clk, .dom, .pwrCmd, .slots, .boot, .bist, .cal,
    .sec, .net, .reqs, .seqNext, .seqRec, .istat, .corrs, .free] = true := by decide
  refine ⟨_, rfl, ?_⟩
  have hk := State.Keeps.refl [.regs, .mem, .gals, .halls, .ev, .adm, .clk, .dom, .pwrCmd, .slots, .boot, .bist, .cal, .sec, .net, .reqs,
    .seqNext, .seqRec, .istat, .corrs, .free] s
  repeat' first
    | with_reducible assumption
    | with_reducible exact State.Keeps.refl _ _
    | with_reducible apply State.targetGets_keeps (hw := Field.sub_trans (by decide) hw)
    | with_reducible refine keeps_ite ?_ ?_
    | with_reducible refine keeps_ite_fst ?_ ?_
    | intro _
    | dsimp only
    | split

theorem execItem_keeps {s : State} (p : Packet) : ∃ nx, execItem p s = .next nx ∧ s.Keeps [.regs, .mem, .gals, .halls, .ev, .adm, .clk,
    .dom, .pwrCmd, .slots, .boot, .bist, .cal, .sec, .net, .reqs, .seqNext, .seqRec, .istat, .corrs, .free] nx := by
  have hw : Field.sub [.regs, .mem, .gals, .halls, .ev, .adm, .clk, .dom, .pwrCmd, .slots, .boot, .bist, .cal, .sec, .net, .reqs,
    .seqNext, .seqRec, .istat, .corrs, .free] [.regs, .mem, .gals, .halls, .ev, .adm, .clk, .dom, .pwrCmd, .slots, .boot, .bist, .cal,
    .sec, .net, .reqs, .seqNext, .seqRec, .istat, .corrs, .free] = true := by decide
  refine ⟨_, rfl, ?_⟩
  have hk := State.Keeps.refl [.regs, .mem, .gals, .halls, .ev, .adm, .clk, .dom, .pwrCmd, .slots, .boot, .bist, .cal, .sec, .net, .reqs,
    .seqNext, .seqRec, .istat, .corrs, .free] s
  repeat' first
    | with_reducible assumption
    | with_reducible exact State.Keeps.refl _ _
    | with_reducible apply State.targetGets_keeps (hw := Field.sub_trans (by decide) hw)
    | with_reducible refine keeps_ite ?_ ?_
    | with_reducible refine keeps_ite_fst ?_ ?_
    | intro _
    | dsimp only
    | split

theorem execDone_keeps {s : State} (p : Packet) : ∃ nx, execDone p s = .next nx ∧ s.Keeps [.regs, .mem, .gals, .halls, .ev, .adm, .clk,
    .dom, .pwrCmd, .slots, .boot, .bist, .cal, .sec, .net, .reqs, .seqNext, .seqRec, .istat, .corrs, .free] nx := by
  have hw : Field.sub [.regs, .mem, .gals, .halls, .ev, .adm, .clk, .dom, .pwrCmd, .slots, .boot, .bist, .cal, .sec, .net, .reqs,
    .seqNext, .seqRec, .istat, .corrs, .free] [.regs, .mem, .gals, .halls, .ev, .adm, .clk, .dom, .pwrCmd, .slots, .boot, .bist, .cal,
    .sec, .net, .reqs, .seqNext, .seqRec, .istat, .corrs, .free] = true := by decide
  refine ⟨_, rfl, ?_⟩
  have hk := State.Keeps.refl [.regs, .mem, .gals, .halls, .ev, .adm, .clk, .dom, .pwrCmd, .slots, .boot, .bist, .cal, .sec, .net, .reqs,
    .seqNext, .seqRec, .istat, .corrs, .free] s
  repeat' first
    | with_reducible assumption
    | with_reducible exact State.Keeps.refl _ _
    | with_reducible apply State.targetGets_keeps (hw := Field.sub_trans (by decide) hw)
    | with_reducible refine keeps_ite ?_ ?_
    | with_reducible refine keeps_ite_fst ?_ ?_
    | intro _
    | dsimp only
    | split

theorem execLoadreq_keeps {s : State} (p : Packet) : ∃ nx, execLoadreq p s = .next nx ∧ s.Keeps [.regs, .mem, .gals, .halls, .ev, .adm,
    .clk, .dom, .pwrCmd, .slots, .boot, .bist, .cal, .sec, .net, .reqs, .seqNext, .seqRec, .istat, .corrs, .free] nx := by
  have hw : Field.sub [.regs, .mem, .gals, .halls, .ev, .adm, .clk, .dom, .pwrCmd, .slots, .boot, .bist, .cal, .sec, .net, .reqs,
    .seqNext, .seqRec, .istat, .corrs, .free] [.regs, .mem, .gals, .halls, .ev, .adm, .clk, .dom, .pwrCmd, .slots, .boot, .bist, .cal,
    .sec, .net, .reqs, .seqNext, .seqRec, .istat, .corrs, .free] = true := by decide
  refine ⟨_, rfl, ?_⟩
  have hk := State.Keeps.refl [.regs, .mem, .gals, .halls, .ev, .adm, .clk, .dom, .pwrCmd, .slots, .boot, .bist, .cal, .sec, .net, .reqs,
    .seqNext, .seqRec, .istat, .corrs, .free] s
  repeat' first
    | with_reducible assumption
    | with_reducible exact State.Keeps.refl _ _
    | with_reducible apply State.targetGets_keeps (hw := Field.sub_trans (by decide) hw)
    | with_reducible refine keeps_ite ?_ ?_
    | with_reducible refine keeps_ite_fst ?_ ?_
    | intro _
    | dsimp only
    | split

theorem execLoadrpt_keeps {s : State} (p : Packet) : ∃ nx, execLoadrpt p s = .next nx ∧ s.Keeps [.regs, .mem, .gals, .halls, .ev, .adm,
    .clk, .dom, .pwrCmd, .slots, .boot, .bist, .cal, .sec, .net, .reqs, .seqNext, .seqRec, .istat, .corrs, .free] nx := by
  have hw : Field.sub [.regs, .mem, .gals, .halls, .ev, .adm, .clk, .dom, .pwrCmd, .slots, .boot, .bist, .cal, .sec, .net, .reqs,
    .seqNext, .seqRec, .istat, .corrs, .free] [.regs, .mem, .gals, .halls, .ev, .adm, .clk, .dom, .pwrCmd, .slots, .boot, .bist, .cal,
    .sec, .net, .reqs, .seqNext, .seqRec, .istat, .corrs, .free] = true := by decide
  refine ⟨_, rfl, ?_⟩
  have hk := State.Keeps.refl [.regs, .mem, .gals, .halls, .ev, .adm, .clk, .dom, .pwrCmd, .slots, .boot, .bist, .cal, .sec, .net, .reqs,
    .seqNext, .seqRec, .istat, .corrs, .free] s
  repeat' first
    | with_reducible assumption
    | with_reducible exact State.Keeps.refl _ _
    | with_reducible apply State.targetGets_keeps (hw := Field.sub_trans (by decide) hw)
    | with_reducible refine keeps_ite ?_ ?_
    | with_reducible refine keeps_ite_fst ?_ ?_
    | intro _
    | dsimp only
    | split

theorem execXmit_keeps {s : State} (p : Packet) : ∃ nx, execXmit p s = .next nx ∧ s.Keeps [.regs, .mem, .gals, .halls, .ev, .adm, .clk,
    .dom, .pwrCmd, .slots, .boot, .bist, .cal, .sec, .net, .reqs, .seqNext, .seqRec, .istat, .corrs, .free] nx := by
  have hw : Field.sub [.regs, .mem, .gals, .halls, .ev, .adm, .clk, .dom, .pwrCmd, .slots, .boot, .bist, .cal, .sec, .net, .reqs,
    .seqNext, .seqRec, .istat, .corrs, .free] [.regs, .mem, .gals, .halls, .ev, .adm, .clk, .dom, .pwrCmd, .slots, .boot, .bist, .cal,
    .sec, .net, .reqs, .seqNext, .seqRec, .istat, .corrs, .free] = true := by decide
  refine ⟨_, rfl, ?_⟩
  have hk := State.Keeps.refl [.regs, .mem, .gals, .halls, .ev, .adm, .clk, .dom, .pwrCmd, .slots, .boot, .bist, .cal, .sec, .net, .reqs,
    .seqNext, .seqRec, .istat, .corrs, .free] s
  repeat' first
    | with_reducible assumption
    | with_reducible exact State.Keeps.refl _ _
    | with_reducible apply State.targetGets_keeps (hw := Field.sub_trans (by decide) hw)
    | with_reducible refine keeps_ite ?_ ?_
    | with_reducible refine keeps_ite_fst ?_ ?_
    | intro _
    | dsimp only
    | split

theorem execMrd_keeps {s : State} (p : Packet) : ∃ nx, execMrd p s = .next nx ∧ s.Keeps [.regs, .mem, .gals, .halls, .ev, .adm, .clk,
    .dom, .pwrCmd, .slots, .boot, .bist, .cal, .sec, .net, .reqs, .seqNext, .seqRec, .istat, .corrs, .free] nx := by
  have hw : Field.sub [.regs, .mem, .gals, .halls, .ev, .adm, .clk, .dom, .pwrCmd, .slots, .boot, .bist, .cal, .sec, .net, .reqs,
    .seqNext, .seqRec, .istat, .corrs, .free] [.regs, .mem, .gals, .halls, .ev, .adm, .clk, .dom, .pwrCmd, .slots, .boot, .bist, .cal,
    .sec, .net, .reqs, .seqNext, .seqRec, .istat, .corrs, .free] = true := by decide
  refine ⟨_, rfl, ?_⟩
  have hk := State.Keeps.refl [.regs, .mem, .gals, .halls, .ev, .adm, .clk, .dom, .pwrCmd, .slots, .boot, .bist, .cal, .sec, .net, .reqs,
    .seqNext, .seqRec, .istat, .corrs, .free] s
  repeat' first
    | with_reducible assumption
    | with_reducible exact State.Keeps.refl _ _
    | with_reducible apply State.targetGets_keeps (hw := Field.sub_trans (by decide) hw)
    | with_reducible refine keeps_ite ?_ ?_
    | with_reducible refine keeps_ite_fst ?_ ?_
    | intro _
    | dsimp only
    | split

theorem execMwr_keeps {s : State} (p : Packet) : ∃ nx, execMwr p s = .next nx ∧ s.Keeps [.regs, .mem, .gals, .halls, .ev, .adm, .clk,
    .dom, .pwrCmd, .slots, .boot, .bist, .cal, .sec, .net, .reqs, .seqNext, .seqRec, .istat, .corrs, .free] nx := by
  have hw : Field.sub [.regs, .mem, .gals, .halls, .ev, .adm, .clk, .dom, .pwrCmd, .slots, .boot, .bist, .cal, .sec, .net, .reqs,
    .seqNext, .seqRec, .istat, .corrs, .free] [.regs, .mem, .gals, .halls, .ev, .adm, .clk, .dom, .pwrCmd, .slots, .boot, .bist, .cal,
    .sec, .net, .reqs, .seqNext, .seqRec, .istat, .corrs, .free] = true := by decide
  refine ⟨_, rfl, ?_⟩
  have hk := State.Keeps.refl [.regs, .mem, .gals, .halls, .ev, .adm, .clk, .dom, .pwrCmd, .slots, .boot, .bist, .cal, .sec, .net, .reqs,
    .seqNext, .seqRec, .istat, .corrs, .free] s
  repeat' first
    | with_reducible assumption
    | with_reducible exact State.Keeps.refl _ _
    | with_reducible apply State.targetGets_keeps (hw := Field.sub_trans (by decide) hw)
    | with_reducible refine keeps_ite ?_ ?_
    | with_reducible refine keeps_ite_fst ?_ ?_
    | intro _
    | dsimp only
    | split

theorem execRsp_keeps {s : State} (p : Packet) : ∃ nx, execRsp p s = .next nx ∧ s.Keeps [.regs, .mem, .gals, .halls, .ev, .adm, .clk,
    .dom, .pwrCmd, .net, .reqs, .seqNext, .seqRec, .istat, .corrs, .free] nx := by
  have hw : Field.sub [.regs, .mem, .gals, .halls, .ev, .adm, .clk, .dom, .pwrCmd, .net, .reqs, .seqNext, .seqRec, .istat, .corrs, .free]
    [.regs, .mem, .gals, .halls, .ev, .adm, .clk, .dom, .pwrCmd, .net, .reqs, .seqNext, .seqRec, .istat, .corrs, .free] = true := by
    decide
  refine ⟨_, rfl, ?_⟩
  have hk := State.Keeps.refl [.regs, .mem, .gals, .halls, .ev, .adm, .clk, .dom, .pwrCmd, .net, .reqs, .seqNext, .seqRec, .istat,
    .corrs, .free] s
  repeat' first
    | with_reducible assumption
    | with_reducible exact State.Keeps.refl _ _
    | with_reducible apply State.responseGets_keeps (hw := Field.sub_trans (by decide) hw)
    | with_reducible refine keeps_ite ?_ ?_
    | with_reducible refine keeps_ite_fst ?_ ?_
    | intro _
    | dsimp only
    | split

theorem execNotice_keeps {s : State} (h : HallIx) (k : NoticeKind) (p : Packet) : ∃ nx, execNotice h k p s = .next nx ∧ s.Keeps [.regs,
    .halls, .ev, .net, .reqs, .seqNext, .seqRec, .corrs] nx := by
  have hw : Field.sub [.regs, .halls, .ev, .net, .reqs, .seqNext, .seqRec, .corrs] [.regs, .halls, .ev, .net, .reqs, .seqNext, .seqRec,
    .corrs] = true := by decide
  refine ⟨_, rfl, ?_⟩
  have hk := State.Keeps.refl [.regs, .halls, .ev, .net, .reqs, .seqNext, .seqRec, .corrs] s
  repeat' first
    | with_reducible assumption
    | with_reducible exact State.Keeps.refl _ _
    | with_reducible apply State.noticeGets_keeps (hw := Field.sub_trans (by decide) hw)
    | with_reducible refine keeps_ite ?_ ?_
    | with_reducible refine keeps_ite_fst ?_ ?_
    | intro _
    | dsimp only
    | split

theorem execRouterPacket_keeps {s : State} (h : HallIx) (n : Fin 40) (d : Fin 8) (p : Packet) (stallIn : Nat) (stallOut : Nat) (fate :
    HopFate) : ∃ nx, execRouterPacket h n d p stallIn stallOut fate s = .next nx ∧ s.Keeps [.regs, .gals, .halls, .ev, .adm, .dom,
    .pwrCmd, .slots, .boot, .bist, .net, .reqs, .seqNext, .seqRec, .corrs] nx := by
  have hw : Field.sub [.regs, .gals, .halls, .ev, .adm, .dom, .pwrCmd, .slots, .boot, .bist, .net, .reqs, .seqNext, .seqRec, .corrs]
    [.regs, .gals, .halls, .ev, .adm, .dom, .pwrCmd, .slots, .boot, .bist, .net, .reqs, .seqNext, .seqRec, .corrs] = true := by decide
  refine ⟨_, rfl, ?_⟩
  have hk := State.Keeps.refl [.regs, .gals, .halls, .ev, .adm, .dom, .pwrCmd, .slots, .boot, .bist, .net, .reqs, .seqNext, .seqRec,
    .corrs] s
  repeat' first
    | with_reducible assumption
    | with_reducible exact State.Keeps.refl _ _
    | with_reducible apply State.routerPacket_keeps (hw := Field.sub_trans (by decide) hw)
    | with_reducible refine keeps_ite ?_ ?_
    | with_reducible refine keeps_ite_fst ?_ ?_
    | intro _
    | dsimp only
    | split

theorem execLinkDead_keeps {s : State} (h : HallIx) (l : LinkCut) : ∃ nx, execLinkDead h l s = .next nx ∧ s.Keeps [.regs, .halls, .ev,
    .net, .corrs] nx := by
  have hw : Field.sub [.regs, .halls, .ev, .net, .corrs] [.regs, .halls, .ev, .net, .corrs] = true := by decide
  refine ⟨_, rfl, ?_⟩
  have hk := State.Keeps.refl [.regs, .halls, .ev, .net, .corrs] s
  repeat' first
    | with_reducible assumption
    | with_reducible exact State.Keeps.refl _ _
    | with_reducible apply State.linkDead_keeps (hw := Field.sub_trans (by decide) hw)
    | with_reducible refine keeps_ite ?_ ?_
    | with_reducible refine keeps_ite_fst ?_ ?_
    | intro _
    | dsimp only
    | split

theorem execLateSpeaker_keeps {s : State} (h : HallIx) (l : LinkRef) : ∃ nx, execLateSpeaker h l s = .next nx ∧ s.Keeps [.regs, .halls,
    .ev, .corrs] nx := by
  have hw : Field.sub [.regs, .halls, .ev, .corrs] [.regs, .halls, .ev, .corrs] = true := by decide
  refine ⟨_, rfl, ?_⟩
  have hk := State.Keeps.refl [.regs, .halls, .ev, .corrs] s
  repeat' first
    | with_reducible assumption
    | with_reducible exact State.Keeps.refl _ _
    | with_reducible apply State.lateSpeaker_keeps (hw := Field.sub_trans (by decide) hw)
    | with_reducible refine keeps_ite ?_ ?_
    | with_reducible refine keeps_ite_fst ?_ ?_
    | intro _
    | dsimp only
    | split

theorem execLinkReadmit_keeps {s : State} (h : HallIx) (i : Fin 640) : ∃ nx, execLinkReadmit h i s = .next nx ∧ s.Keeps [.regs, .halls,
    .ev] nx := by
  have hw : Field.sub [.regs, .halls, .ev] [.regs, .halls, .ev] = true := by decide
  refine ⟨_, rfl, ?_⟩
  have hk := State.Keeps.refl [.regs, .halls, .ev] s
  repeat' first
    | with_reducible assumption
    | with_reducible exact State.Keeps.refl _ _
    | with_reducible apply State.linkReadmit_keeps (hw := Field.sub_trans (by decide) hw)
    | with_reducible refine keeps_ite ?_ ?_
    | with_reducible refine keeps_ite_fst ?_ ?_
    | intro _
    | dsimp only
    | split

theorem execLinkSelfTestDone_keeps {s : State} (h : HallIx) (l : LinkRef) (r : Fin 3) : ∃ nx, execLinkSelfTestDone h l r s = .next nx ∧
    s.Keeps [.regs, .halls, .ev, .corrs] nx := by
  have hw : Field.sub [.regs, .halls, .ev, .corrs] [.regs, .halls, .ev, .corrs] = true := by decide
  refine ⟨_, rfl, ?_⟩
  have hk := State.Keeps.refl [.regs, .halls, .ev, .corrs] s
  repeat' first
    | with_reducible assumption
    | with_reducible exact State.Keeps.refl _ _
    | with_reducible apply State.selfTestDone_keeps (hw := Field.sub_trans (by decide) hw)
    | with_reducible refine keeps_ite ?_ ?_
    | with_reducible refine keeps_ite_fst ?_ ?_
    | intro _
    | dsimp only
    | split

theorem execRspTimeout_keeps {s : State} (h : HallIx) (n : Fin 64) (port : Fin 8) (tag : Fin 1024) : ∃ nx, execRspTimeout h n port tag s
    = .next nx ∧ s.Keeps [.regs, .mem, .gals, .halls, .ev, .adm, .clk, .dom, .pwrCmd, .net, .reqs, .seqNext, .istat, .free] nx := by
  have hw : Field.sub [.regs, .mem, .gals, .halls, .ev, .adm, .clk, .dom, .pwrCmd, .net, .reqs, .seqNext, .istat, .free] [.regs, .mem,
    .gals, .halls, .ev, .adm, .clk, .dom, .pwrCmd, .net, .reqs, .seqNext, .istat, .free] = true := by decide
  refine ⟨_, rfl, ?_⟩
  have hk := State.Keeps.refl [.regs, .mem, .gals, .halls, .ev, .adm, .clk, .dom, .pwrCmd, .net, .reqs, .seqNext, .istat, .free] s
  repeat' first
    | with_reducible assumption
    | with_reducible exact State.Keeps.refl _ _
    | with_reducible apply State.rspTimeout_keeps (hw := Field.sub_trans (by decide) hw)
    | with_reducible refine keeps_ite ?_ ?_
    | with_reducible refine keeps_ite_fst ?_ ?_
    | intro _
    | dsimp only
    | split

theorem execWakeTimeout_keeps {s : State} (h : HallIx) (r : RouterRef) (vc : Fin 4) : ∃ nx, execWakeTimeout h r vc s = .next nx ∧ s.Keeps
    [.regs, .ev, .adm, .dom, .slots, .net, .reqs, .seqNext] nx := by
  have hw : Field.sub [.regs, .ev, .adm, .dom, .slots, .net, .reqs, .seqNext] [.regs, .ev, .adm, .dom, .slots, .net, .reqs, .seqNext] =
    true := by decide
  refine ⟨_, rfl, ?_⟩
  have hk := State.Keeps.refl [.regs, .ev, .adm, .dom, .slots, .net, .reqs, .seqNext] s
  repeat' first
    | with_reducible assumption
    | with_reducible exact State.Keeps.refl _ _
    | with_reducible apply State.wakeTimeout_keeps (hw := Field.sub_trans (by decide) hw)
    | with_reducible refine keeps_ite ?_ ?_
    | with_reducible refine keeps_ite_fst ?_ ?_
    | intro _
    | dsimp only
    | split

theorem execIstatSnap_keeps {s : State} (h : HallIx) : ∃ nx, execIstatSnap h s = .next nx ∧ s.Keeps [.regs, .istat] nx := by
  have hw : Field.sub [.regs, .istat] [.regs, .istat] = true := by decide
  refine ⟨_, rfl, ?_⟩
  have hk := State.Keeps.refl [.regs, .istat] s
  repeat' first
    | with_reducible assumption
    | with_reducible exact State.Keeps.refl _ _
    | with_reducible apply State.istatSnap_keeps (hw := Field.sub_trans (by decide) hw)
    | with_reducible refine keeps_ite ?_ ?_
    | with_reducible refine keeps_ite_fst ?_ ?_
    | intro _
    | dsimp only
    | split

end Sys2Proof.Machine
end

