-- ==== Sys2Proof/Laws/KeepsStart.lean ====
section
/-!
SUPPORT. Laws/KeepsStart.lean: the operations of Machine/Start.lean keep State.Keeps.
-/
namespace Sys2Proof.Machine
open Sys2Proof

theorem State.modBoot_keeps {W : List Field} {s₀ s : State} (hk : s₀.Keeps W s) (hw : Field.sub [.boot] W = true) (f : Boot → Boot) :
    s₀.Keeps W (State.modBoot s f) := by
  unfold State.modBoot
  repeat' first
    | with_reducible assumption
    | with_reducible exact State.Keeps.refl _ _
    | with_reducible refine keeps_ite ?_ ?_
    | with_reducible refine keeps_ite_fst ?_ ?_
    | intro _
    | dsimp only
    | simp (disch := first | assumption | (with_unfolding_all (intro (x : Field) hx; cases x <;>
        first | exact absurd hx (by decide) | (dsimp only [Field.same]; done) | (dsimp only [Field.same]; exact ⟨rfl, rfl⟩)))) only [keeps_mk hw]
    | split

theorem State.eachHall_keeps {W : List Field} {s₀ s : State} (hk : s₀.Keeps W s) (f : State → Nat → State)
    (hf : ∀ u x, s₀.Keeps W u → s₀.Keeps W (f u x)) : s₀.Keeps W (State.eachHall s f) := keeps_foldl _ _ hk hf

theorem State.emptyAll_keeps {W : List Field} {s₀ s : State} (hk : s₀.Keeps W s) (hw : Field.sub [.regs, .gals, .boot, .net, .reqs,
    .seqNext] W = true) : s₀.Keeps W (State.emptyAll s) := by
  unfold State.emptyAll
  repeat' first
    | with_reducible assumption
    | with_reducible exact State.Keeps.refl _ _
    | with_reducible apply State.emptySlot_keeps (hw := Field.sub_trans (by decide) hw)
    | with_reducible apply State.emptyPlane_keeps (hw := Field.sub_trans (by decide) hw)
    | with_reducible refine keeps_ite ?_ ?_
    | with_reducible refine keeps_ite_fst ?_ ?_
    | with_reducible refine keeps_foldl _ _ ?_ ?_
    | with_reducible refine keeps_foldl_fst _ _ ?_ ?_
    | intro _
    | dsimp only
    | split

theorem State.imageFail_keeps {W : List Field} {s₀ s : State} (hk : s₀.Keeps W s) (hw : Field.sub [.regs, .gals, .halls, .ev, .adm, .clk,
    .boot, .net, .reqs, .seqNext, .free] W = true) (cause : Nat) (sect : Nat) (G : Nat) (frame : Nat) : s₀.Keeps W (State.imageFail s
    cause sect G frame) := by
  unfold State.imageFail
  repeat' first
    | with_reducible assumption
    | with_reducible exact State.Keeps.refl _ _
    | with_reducible apply State.setReg_keeps (hw := Field.sub_trans (by decide) hw)
    | with_reducible apply State.modBoot_keeps (hw := Field.sub_trans (by decide) hw)
    | with_reducible apply State.safeHold_keeps (hw := Field.sub_trans (by decide) hw)
    | with_reducible apply State.setFld_keeps (hw := Field.sub_trans (by decide) hw)
    | with_reducible apply State.postGal_keeps (hw := Field.sub_trans (by decide) hw)
    | with_reducible apply State.setBoot_keeps (hw := Field.sub_trans (by decide) hw)
    | with_reducible apply State.emptyAll_keeps (hw := Field.sub_trans (by decide) hw)
    | with_reducible refine keeps_ite ?_ ?_
    | with_reducible refine keeps_ite_fst ?_ ?_
    | intro _
    | dsimp only
    | split

theorem State.flashDiscovery_keeps {W : List Field} {s₀ s : State} (hk : s₀.Keeps W s) (hw : Field.sub [.regs, .gals, .halls, .ev, .adm,
    .clk, .boot, .net, .reqs, .seqNext, .free] W = true) (dev0 : Bool) (dev1 : Bool) (same : Bool) (good : Bool) (size : Nat) : s₀.Keeps
    W (State.flashDiscovery s dev0 dev1 same good size) := by
  unfold State.flashDiscovery
  repeat' first
    | with_reducible assumption
    | with_reducible exact State.Keeps.refl _ _
    | with_reducible apply State.setReg_keeps (hw := Field.sub_trans (by decide) hw)
    | with_reducible apply State.setBoot_keeps (hw := Field.sub_trans (by decide) hw)
    | with_reducible apply State.modBoot_keeps (hw := Field.sub_trans (by decide) hw)
    | with_reducible apply State.postPkg_keeps (hw := Field.sub_trans (by decide) hw)
    | with_reducible apply State.safeHold_keeps (hw := Field.sub_trans (by decide) hw)
    | with_reducible apply State.setFld_keeps (hw := Field.sub_trans (by decide) hw)
    | with_reducible refine keeps_ite ?_ ?_
    | with_reducible refine keeps_ite_fst ?_ ?_
    | intro _
    | dsimp only
    | split

theorem State.measureImage_keeps {W : List Field} {s₀ s : State} (hk : s₀.Keeps W s) (hw : Field.sub [.sec] W = true) (i : ImageSt) :
    s₀.Keeps W (State.measureImage s i) := by
  unfold State.measureImage
  repeat' first
    | with_reducible assumption
    | with_reducible exact State.Keeps.refl _ _
    | with_reducible apply State.extend_keeps (hw := Field.sub_trans (by decide) hw)
    | with_reducible refine keeps_ite ?_ ?_
    | with_reducible refine keeps_ite_fst ?_ ?_
    | intro _
    | dsimp only
    | split

theorem State.showPath_keeps {W : List Field} {s₀ s : State} (hk : s₀.Keeps W s) (hw : Field.sub [.regs] W = true) (path : Nat) (reason :
    Nat) (seq : Nat) : s₀.Keeps W (State.showPath s path reason seq) := by
  unfold State.showPath
  repeat' first
    | with_reducible assumption
    | with_reducible exact State.Keeps.refl _ _
    | with_reducible apply State.setReg_keeps (hw := Field.sub_trans (by decide) hw)
    | with_reducible apply State.setFld_keeps (hw := Field.sub_trans (by decide) hw)
    | with_reducible refine keeps_ite ?_ ?_
    | with_reducible refine keeps_ite_fst ?_ ?_
    | intro _
    | dsimp only
    | split

theorem State.selftestStart_keeps {W : List Field} {s₀ s : State} (hk : s₀.Keeps W s) (hw : Field.sub [.regs, .mem, .gals, .halls, .ev,
    .adm, .clk, .boot, .bist, .net, .reqs, .seqNext, .free] W = true) (mv : List Nat) : s₀.Keeps W (State.selftestStart s mv) := by
  unfold State.selftestStart
  repeat' first
    | with_reducible assumption
    | with_reducible exact State.Keeps.refl _ _
    | with_reducible apply State.bistAtStart_keeps (hw := Field.sub_trans (by decide) hw)
    | with_reducible apply State.setBoot_keeps (hw := Field.sub_trans (by decide) hw)
    | with_reducible apply State.modBoot_keeps (hw := Field.sub_trans (by decide) hw)
    | with_reducible refine keeps_ite ?_ ?_
    | with_reducible refine keeps_ite_fst ?_ ?_
    | intro _
    | dsimp only
    | split

theorem State.loadStart_keeps {W : List Field} {s₀ s : State} (hk : s₀.Keeps W s) (hw : Field.sub [.regs, .boot] W = true) : s₀.Keeps W
    (State.loadStart s) := by
  unfold State.loadStart
  repeat' first
    | with_reducible assumption
    | with_reducible exact State.Keeps.refl _ _
    | with_reducible apply State.setBoot_keeps (hw := Field.sub_trans (by decide) hw)
    | with_reducible apply State.modBoot_keeps (hw := Field.sub_trans (by decide) hw)
    | with_reducible refine keeps_ite ?_ ?_
    | with_reducible refine keeps_ite_fst ?_ ?_
    | intro _
    | dsimp only
    | split

theorem State.imageChecked_keeps {W : List Field} {s₀ s : State} (hk : s₀.Keeps W s) (hw : Field.sub [.regs, .mem, .gals, .halls, .ev,
    .adm, .clk, .boot, .bist, .sec, .net, .reqs, .seqNext, .free] W = true) (mv : List Nat) : s₀.Keeps W (State.imageChecked s mv) := by
  unfold State.imageChecked
  repeat' first
    | with_reducible assumption
    | with_reducible exact State.Keeps.refl _ _
    | with_reducible apply State.imageFail_keeps (hw := Field.sub_trans (by decide) hw)
    | with_reducible apply State.measureImage_keeps (hw := Field.sub_trans (by decide) hw)
    | with_reducible apply State.modBoot_keeps (hw := Field.sub_trans (by decide) hw)
    | with_reducible apply State.setFld_keeps (hw := Field.sub_trans (by decide) hw)
    | with_reducible apply State.loadStart_keeps (hw := Field.sub_trans (by decide) hw)
    | with_reducible apply State.selftestStart_keeps (hw := Field.sub_trans (by decide) hw)
    | with_reducible apply State.showPath_keeps (hw := Field.sub_trans (by decide) hw)
    | with_reducible refine keeps_ite ?_ ?_
    | with_reducible refine keeps_ite_fst ?_ ?_
    | intro _
    | dsimp only
    | split

theorem State.applyRepair_keeps {W : List Field} {s₀ s : State} (hk : s₀.Keeps W s) (hw : Field.sub [.gals] W = true) (w : Nat) :
    s₀.Keeps W (State.applyRepair s w) := by
  unfold State.applyRepair
  repeat' first
    | with_reducible assumption
    | with_reducible exact State.Keeps.refl _ _
    | with_reducible apply State.setRep_keeps (hw := Field.sub_trans (by decide) hw)
    | with_reducible refine keeps_ite ?_ ?_
    | with_reducible refine keeps_ite_fst ?_ ?_
    | intro _
    | dsimp only
    | split

theorem State.applyMap_keeps {W : List Field} {s₀ s : State} (hk : s₀.Keeps W s) (hw : Field.sub [.gals] W = true) (k : Nat) (o : Nat) (n
    : Nat) : s₀.Keeps W (State.applyMap s k o n) := by
  unfold State.applyMap
  repeat' first
    | with_reducible assumption
    | with_reducible exact State.Keeps.refl _ _
    | with_reducible apply State.applyRepair_keeps (hw := Field.sub_trans (by decide) hw)
    | with_reducible refine keeps_ite ?_ ?_
    | with_reducible refine keeps_ite_fst ?_ ?_
    | with_reducible refine keeps_foldl _ _ ?_ ?_
    | with_reducible refine keeps_foldl_fst _ _ ?_ ?_
    | intro _
    | dsimp only
    | split

theorem State.quickPath_keeps {W : List Field} {s₀ s : State} (hk : s₀.Keeps W s) (hw : Field.sub [.mem, .gals] W = true) (k : Nat) :
    s₀.Keeps W (State.quickPath s k) := by
  unfold State.quickPath
  repeat' first
    | with_reducible assumption
    | with_reducible exact State.Keeps.refl _ _
    | with_reducible apply State.writeBytes_keeps (hw := Field.sub_trans (by decide) hw)
    | with_reducible apply State.applyMap_keeps (hw := Field.sub_trans (by decide) hw)
    | with_reducible refine keeps_ite ?_ ?_
    | with_reducible refine keeps_ite_fst ?_ ?_
    | intro _
    | dsimp only
    | split

theorem State.takePath_keeps {W : List Field} {s₀ s : State} (hk : s₀.Keeps W s) (hw : Field.sub [.mem, .gals] W = true) (reason : Nat) :
    s₀.Keeps W (State.takePath s reason) := by
  unfold State.takePath
  repeat' first
    | with_reducible assumption
    | with_reducible exact State.Keeps.refl _ _
    | with_reducible apply State.quickPath_keeps (hw := Field.sub_trans (by decide) hw)
    | with_reducible refine keeps_ite ?_ ?_
    | with_reducible refine keeps_ite_fst ?_ ?_
    | intro _
    | dsimp only
    | split

theorem State.recordScan_keeps {W : List Field} {s₀ s : State} (hk : s₀.Keeps W s) (hw : Field.sub [.regs, .mem, .gals, .halls, .ev,
    .adm, .clk, .boot, .bist, .net, .reqs, .seqNext, .free] W = true) (mv : List Nat) : s₀.Keeps W (State.recordScan s mv) := by
  unfold State.recordScan
  repeat' first
    | with_reducible assumption
    | with_reducible exact State.Keeps.refl _ _
    | with_reducible apply State.postPkg_keeps (hw := Field.sub_trans (by decide) hw)
    | with_reducible apply State.setReg_keeps (hw := Field.sub_trans (by decide) hw)
    | with_reducible apply State.selftestStart_keeps (hw := Field.sub_trans (by decide) hw)
    | with_reducible apply State.takePath_keeps (hw := Field.sub_trans (by decide) hw)
    | with_reducible apply State.showPath_keeps (hw := Field.sub_trans (by decide) hw)
    | with_reducible refine keeps_ite ?_ ?_
    | with_reducible refine keeps_ite_fst ?_ ?_
    | with_reducible refine keeps_foldl _ _ ?_ ?_
    | with_reducible refine keeps_foldl_fst _ _ ?_ ?_
    | intro _
    | dsimp only
    | split

theorem State.codesFrom_keeps {W : List Field} {s₀ s : State} (hk : s₀.Keeps W s) (hw : Field.sub [.regs, .halls, .cal] W = true) (k :
    Nat) (h : Nat) : s₀.Keeps W (State.codesFrom s k h) := by
  unfold State.codesFrom
  repeat' first
    | with_reducible assumption
    | with_reducible exact State.Keeps.refl _ _
    | with_reducible apply State.setLandCode_keeps (hw := Field.sub_trans (by decide) hw)
    | with_reducible apply State.setFld_keeps (hw := Field.sub_trans (by decide) hw)
    | with_reducible apply State.setReg_keeps (hw := Field.sub_trans (by decide) hw)
    | with_reducible refine keeps_ite ?_ ?_
    | with_reducible refine keeps_ite_fst ?_ ?_
    | with_reducible refine keeps_foldl _ _ ?_ ?_
    | with_reducible refine keeps_foldl_fst _ _ ?_ ?_
    | intro _
    | dsimp only
    | simp (disch := first | assumption | (with_unfolding_all (intro (x : Field) hx; cases x <;>
        first | exact absurd hx (by decide) | (dsimp only [Field.same]; done) | (dsimp only [Field.same]; exact ⟨rfl, rfl⟩)))) only [keeps_mk hw]
    | split

theorem State.coldSweep_keeps {W : List Field} {s₀ s : State} (hk : s₀.Keeps W s) (hw : Field.sub [.regs, .halls, .ev, .cal] W = true) (h
    : Nat) (g : CalGroup) (lo : Int) (hi : Int) : s₀.Keeps W (State.coldSweep s h g lo hi) := by
  unfold State.coldSweep
  repeat' first
    | with_reducible assumption
    | with_reducible exact State.Keeps.refl _ _
    | with_reducible apply State.landSweep_keeps (hw := Field.sub_trans (by decide) hw)
    | with_reducible apply State.setLandAt_keeps (hw := Field.sub_trans (by decide) hw)
    | with_reducible apply State.hbmSweep_keeps (hw := Field.sub_trans (by decide) hw)
    | with_reducible refine keeps_ite ?_ ?_
    | with_reducible refine keeps_ite_fst ?_ ?_
    | intro _
    | dsimp only
    | split

theorem State.hallCodes_keeps {W : List Field} {s₀ s : State} (hk : s₀.Keeps W s) (hw : Field.sub [.regs, .halls, .ev, .cal] W = true)
    (sweeps : List (HallIx × CalGroup × Int × Int)) (h : Nat) : s₀.Keeps W (State.hallCodes s sweeps h) := by
  unfold State.hallCodes
  repeat' first
    | with_reducible assumption
    | with_reducible exact State.Keeps.refl _ _
    | with_reducible apply State.post_keeps (hw := Field.sub_trans (by decide) hw)
    | with_reducible apply State.setFldBit_keeps (hw := Field.sub_trans (by decide) hw)
    | with_reducible apply State.coldSweep_keeps (hw := Field.sub_trans (by decide) hw)
    | with_reducible apply State.setReg_keeps (hw := Field.sub_trans (by decide) hw)
    | with_reducible apply State.codesFrom_keeps (hw := Field.sub_trans (by decide) hw)
    | with_reducible refine keeps_ite ?_ ?_
    | with_reducible refine keeps_ite_fst ?_ ?_
    | with_reducible refine keeps_foldl _ _ ?_ ?_
    | with_reducible refine keeps_foldl_fst _ _ ?_ ?_
    | intro _
    | dsimp only
    | split

theorem State.hbmInitBegin_keeps {W : List Field} {s₀ s : State} (hk : s₀.Keeps W s) (hw : Field.sub [.halls] W = true) (h : Nat) :
    s₀.Keeps W (State.hbmInitBegin s h) := by
  unfold State.hbmInitBegin
  repeat' first
    | with_reducible assumption
    | with_reducible exact State.Keeps.refl _ _
    | with_reducible apply State.modHbm_keeps (hw := Field.sub_trans (by decide) hw)
    | with_reducible refine keeps_ite ?_ ?_
    | with_reducible refine keeps_ite_fst ?_ ?_
    | intro _
    | dsimp only
    | split

theorem State.pllsOn_keeps {W : List Field} {s₀ s : State} (hk : s₀.Keeps W s) (hw : Field.sub [.clk] W = true) : s₀.Keeps W
    (State.pllsOn s) := by
  unfold State.pllsOn
  repeat' first
    | with_reducible assumption
    | with_reducible exact State.Keeps.refl _ _
    | with_reducible refine keeps_ite ?_ ?_
    | with_reducible refine keeps_ite_fst ?_ ?_
    | intro _
    | dsimp only
    | simp (disch := first | assumption | (with_unfolding_all (intro (x : Field) hx; cases x <;>
        first | exact absurd hx (by decide) | (dsimp only [Field.same]; done) | (dsimp only [Field.same]; exact ⟨rfl, rfl⟩)))) only [keeps_mk hw]
    | split

theorem State.step8Halls_keeps {W : List Field} {s₀ s : State} (hk : s₀.Keeps W s) (hw : Field.sub [.regs, .gals, .halls, .ev, .clk,
    .cal, .net, .reqs, .seqNext, .free] W = true) (sweeps : List (HallIx × CalGroup × Int × Int)) : s₀.Keeps W (State.step8Halls s
    sweeps) := by
  unfold State.step8Halls
  repeat' first
    | with_reducible assumption
    | with_reducible exact State.Keeps.refl _ _
    | with_reducible apply State.eachHall_keeps
    | with_reducible apply State.pllsOn_keeps (hw := Field.sub_trans (by decide) hw)
    | with_reducible apply State.hallClockCheck_keeps (hw := Field.sub_trans (by decide) hw)
    | with_reducible apply State.locksUp_keeps (hw := Field.sub_trans (by decide) hw)
    | with_reducible apply State.hallCodes_keeps (hw := Field.sub_trans (by decide) hw)
    | with_reducible apply State.hbmInitBegin_keeps (hw := Field.sub_trans (by decide) hw)
    | with_reducible refine keeps_ite ?_ ?_
    | with_reducible refine keeps_ite_fst ?_ ?_
    | intro _
    | dsimp only
    | split

theorem State.step8_keeps {W : List Field} {s₀ s : State} (hk : s₀.Keeps W s) (hw : Field.sub [.regs, .mem, .gals, .halls, .ev, .adm,
    .clk, .dom, .pwrCmd, .boot, .bist, .cal, .net, .reqs, .seqNext, .free] W = true) (sweeps : List (HallIx × CalGroup × Int × Int)) :
    s₀.Keeps W (State.step8 s sweeps) := by
  unfold State.step8
  repeat' first
    | with_reducible assumption
    | with_reducible exact State.Keeps.refl _ _
    | with_reducible apply State.clkLoss_keeps (hw := Field.sub_trans (by decide) hw)
    | with_reducible apply State.loadStart_keeps (hw := Field.sub_trans (by decide) hw)
    | with_reducible apply State.modBoot_keeps (hw := Field.sub_trans (by decide) hw)
    | with_reducible apply State.step8Halls_keeps (hw := Field.sub_trans (by decide) hw)
    | with_reducible refine keeps_ite ?_ ?_
    | with_reducible refine keeps_ite_fst ?_ ?_
    | intro _
    | dsimp only
    | split

theorem applyConfig_keeps {W : List Field} {s₀ s : State} (hk : s₀.Keeps W s) (hw : Field.sub [.regs, .mem, .gals, .halls, .ev, .adm,
    .clk, .dom, .pwrCmd, .slots, .boot, .bist, .cal, .sec, .net, .reqs, .seqNext, .istat, .corrs, .free] W = true) (rd : Reader) (len :
    Nat) (x2 : Nat) (x3 : Nat) : s₀.Keeps W (applyConfig rd len x2 x3 s) := by
  induction x2 generalizing s x3 with
  | zero =>
    unfold applyConfig
    repeat' first
      | with_reducible assumption
      | with_reducible exact State.Keeps.refl _ _
      | with_reducible apply State.writeReg_keeps (hw := Field.sub_trans (by decide) hw)
      | with_reducible refine keeps_ite ?_ ?_
      | with_reducible refine keeps_ite_fst ?_ ?_
      | intro _
      | dsimp only
      | split
  | succ n ih =>
    unfold applyConfig
    repeat' first
      | with_reducible assumption
      | with_reducible exact State.Keeps.refl _ _
      | with_reducible apply ih
      | with_reducible apply State.writeReg_keeps (hw := Field.sub_trans (by decide) hw)
      | with_reducible refine keeps_ite ?_ ?_
      | with_reducible refine keeps_ite_fst ?_ ?_
      | intro _
      | dsimp only
      | split

theorem State.readConfig_keeps {W : List Field} {s₀ s : State} (hk : s₀.Keeps W s) (hw : Field.sub [.regs, .mem, .gals, .halls, .ev,
    .adm, .clk, .dom, .pwrCmd, .slots, .boot, .bist, .cal, .sec, .net, .reqs, .seqNext, .istat, .corrs, .free] W = true) (x : Sect) :
    s₀.Keeps W (State.readConfig s x).1 := by
  unfold State.readConfig
  repeat' first
    | with_reducible assumption
    | with_reducible exact State.Keeps.refl _ _
    | with_reducible apply applyConfig_keeps (hw := Field.sub_trans (by decide) hw)
    | with_reducible apply State.extend_keeps (hw := Field.sub_trans (by decide) hw)
    | with_reducible refine keeps_ite ?_ ?_
    | with_reducible refine keeps_ite_fst ?_ ?_
    | intro _
    | dsimp only
    | split

theorem State.readBootmap_keeps {W : List Field} {s₀ s : State} (hk : s₀.Keeps W s) (hw : Field.sub [.boot, .sec] W = true) (x : Sect) :
    s₀.Keeps W (State.readBootmap s x).1 := by
  unfold State.readBootmap
  repeat' first
    | with_reducible assumption
    | with_reducible exact State.Keeps.refl _ _
    | with_reducible apply State.modBoot_keeps (hw := Field.sub_trans (by decide) hw)
    | with_reducible apply State.extend_keeps (hw := Field.sub_trans (by decide) hw)
    | with_reducible refine keeps_ite ?_ ?_
    | with_reducible refine keeps_ite_fst ?_ ?_
    | intro _
    | dsimp only
    | split

theorem State.bootLoadStart_keeps {W : List Field} {s₀ s : State} (hk : s₀.Keeps W s) (hw : Field.sub [.regs, .gals, .net, .reqs,
    .seqNext] W = true) (G : Nat) (slot : Nat) (p : Nat) : s₀.Keeps W (State.bootLoadStart s G slot p) := by
  unfold State.bootLoadStart
  repeat' first
    | with_reducible assumption
    | with_reducible exact State.Keeps.refl _ _
    | with_reducible apply State.reportPlane_keeps (hw := Field.sub_trans (by decide) hw)
    | with_reducible apply State.showNoImage_keeps (hw := Field.sub_trans (by decide) hw)
    | with_reducible apply State.loseResidency_keeps (hw := Field.sub_trans (by decide) hw)
    | with_reducible refine keeps_ite ?_ ?_
    | with_reducible refine keeps_ite_fst ?_ ?_
    | intro _
    | dsimp only
    | split

theorem State.bootFrames_keeps {W : List Field} {s₀ s : State} (hk : s₀.Keeps W s) (hw : Field.sub [.regs, .gals, .halls, .ev, .net,
    .reqs, .seqNext, .free] W = true) (G : Nat) (slot : Nat) (p : Nat) (f : LoadFacts) : s₀.Keeps W (State.bootFrames s G slot p f).1 :=
    by
  unfold State.bootFrames
  repeat' first
    | with_reducible assumption
    | with_reducible exact State.Keeps.refl _ _
    | with_reducible apply State.mirrorCe_keeps (hw := Field.sub_trans (by decide) hw)
    | with_reducible apply State.setFld_keeps (hw := Field.sub_trans (by decide) hw)
    | with_reducible apply State.incFld_keeps (hw := Field.sub_trans (by decide) hw)
    | with_reducible apply State.loadPasses_keeps (hw := Field.sub_trans (by decide) hw)
    | with_reducible apply State.postGal_keeps (hw := Field.sub_trans (by decide) hw)
    | with_reducible apply State.loadFails_keeps (hw := Field.sub_trans (by decide) hw)
    | with_reducible refine keeps_ite ?_ ?_
    | with_reducible refine keeps_ite_fst ?_ ?_
    | with_reducible refine keeps_foldl _ _ ?_ ?_
    | with_reducible refine keeps_foldl_fst _ _ ?_ ?_
    | intro _
    | dsimp only
    | split

theorem State.bootLoad_keeps {W : List Field} {s₀ s : State} (hk : s₀.Keeps W s) (hw : Field.sub [.regs, .gals, .halls, .ev, .net, .reqs,
    .seqNext, .free] W = true) (G : Nat) (slot : Nat) (p : Nat) (f : LoadFacts) : s₀.Keeps W (State.bootLoad s G slot p f).1 := by
  unfold State.bootLoad
  repeat' first
    | with_reducible assumption
    | with_reducible exact State.Keeps.refl _ _
    | with_reducible apply State.bootFrames_keeps (hw := Field.sub_trans (by decide) hw)
    | with_reducible apply State.bootLoadStart_keeps (hw := Field.sub_trans (by decide) hw)
    | with_reducible refine keeps_ite ?_ ?_
    | with_reducible refine keeps_ite_fst ?_ ?_
    | intro _
    | dsimp only
    | split

theorem State.bootPlace_keeps {W : List Field} {s₀ s : State} (hk : s₀.Keeps W s) (hw : Field.sub [.regs, .gals, .halls, .ev, .net,
    .reqs, .seqNext, .free] W = true) (facts : List (GalIx × PlaneIx × LoadFacts)) (r : PlaceRec) : s₀.Keeps W (State.bootPlace s facts
    r).1 := by
  unfold State.bootPlace
  repeat' first
    | with_reducible assumption
    | with_reducible exact State.Keeps.refl _ _
    | with_reducible apply State.bootLoad_keeps (hw := Field.sub_trans (by decide) hw)
    | with_reducible refine keeps_ite ?_ ?_
    | with_reducible refine keeps_ite_fst ?_ ?_
    | with_reducible refine keeps_foldl _ _ ?_ ?_
    | with_reducible refine keeps_foldl_fst _ _ ?_ ?_
    | intro _
    | dsimp only
    | split

theorem State.crcFrames_keeps {W : List Field} {s₀ s : State} (hk : s₀.Keeps W s) (hw : Field.sub [.boot] W = true) (G : Nat) (n : Nat)
    (l : List Frame) : s₀.Keeps W (State.crcFrames s G n l) := by
  unfold State.crcFrames
  repeat' first
    | with_reducible assumption
    | with_reducible exact State.Keeps.refl _ _
    | with_reducible apply State.modBoot_keeps (hw := Field.sub_trans (by decide) hw)
    | with_reducible refine keeps_ite ?_ ?_
    | with_reducible refine keeps_ite_fst ?_ ?_
    | with_reducible refine keeps_foldl _ _ ?_ ?_
    | with_reducible refine keeps_foldl_fst _ _ ?_ ?_
    | intro _
    | dsimp only
    | split

theorem State.placeFrames_keeps {W : List Field} {s₀ s : State} (hk : s₀.Keeps W s) (hw : Field.sub [.regs, .gals, .boot] W = true) (i :
    Nat) (ps : List PlaceRec) (x : PlaneSec) : s₀.Keeps W (State.placeFrames s i ps x) := by
  unfold State.placeFrames
  repeat' first
    | with_reducible assumption
    | with_reducible exact State.Keeps.refl _ _
    | with_reducible apply State.modBoot_keeps (hw := Field.sub_trans (by decide) hw)
    | with_reducible apply State.fillSlot_keeps (hw := Field.sub_trans (by decide) hw)
    | with_reducible apply State.crcFrames_keeps (hw := Field.sub_trans (by decide) hw)
    | with_reducible refine keeps_ite ?_ ?_
    | with_reducible refine keeps_ite_fst ?_ ?_
    | with_reducible refine keeps_foldl _ _ ?_ ?_
    | with_reducible refine keeps_foldl_fst _ _ ?_ ?_
    | intro _
    | dsimp only
    | split

theorem State.readPlane_keeps {W : List Field} {s₀ s : State} (hk : s₀.Keeps W s) (hw : Field.sub [.regs, .gals, .halls, .ev, .boot,
    .sec, .net, .reqs, .seqNext, .free] W = true) (i : Nat) (x : Sect) (facts : List (GalIx × PlaneIx × LoadFacts)) : s₀.Keeps W
    (State.readPlane s i x facts).1 := by
  unfold State.readPlane
  repeat' first
    | with_reducible assumption
    | with_reducible exact State.Keeps.refl _ _
    | with_reducible apply State.placeFrames_keeps (hw := Field.sub_trans (by decide) hw)
    | with_reducible apply State.extend_keeps (hw := Field.sub_trans (by decide) hw)
    | with_reducible apply State.bootPlace_keeps (hw := Field.sub_trans (by decide) hw)
    | with_reducible refine keeps_ite ?_ ?_
    | with_reducible refine keeps_ite_fst ?_ ?_
    | with_reducible refine keeps_foldl _ _ ?_ ?_
    | with_reducible refine keeps_foldl_fst _ _ ?_ ?_
    | intro _
    | dsimp only
    | split

theorem State.readCatalogue_keeps {W : List Field} {s₀ s : State} (hk : s₀.Keeps W s) (hw : Field.sub [.boot] W = true) (x : Sect) :
    s₀.Keeps W (State.readCatalogue s x).1 := by
  unfold State.readCatalogue
  repeat' first
    | with_reducible assumption
    | with_reducible exact State.Keeps.refl _ _
    | with_reducible apply State.modBoot_keeps (hw := Field.sub_trans (by decide) hw)
    | with_reducible refine keeps_ite ?_ ?_
    | with_reducible refine keeps_ite_fst ?_ ?_
    | intro _
    | dsimp only
    | split

theorem State.readSection_keeps {W : List Field} {s₀ s : State} (hk : s₀.Keeps W s) (hw : Field.sub [.regs, .mem, .gals, .halls, .ev,
    .adm, .clk, .dom, .pwrCmd, .slots, .boot, .bist, .cal, .sec, .net, .reqs, .seqNext, .istat, .corrs, .free] W = true) (i : Nat) (facts
    : List (GalIx × PlaneIx × LoadFacts)) : s₀.Keeps W (State.readSection s i facts).1 := by
  unfold State.readSection
  repeat' first
    | with_reducible assumption
    | with_reducible exact State.Keeps.refl _ _
    | with_reducible apply State.readConfig_keeps (hw := Field.sub_trans (by decide) hw)
    | with_reducible apply State.readBootmap_keeps (hw := Field.sub_trans (by decide) hw)
    | with_reducible apply State.readPlane_keeps (hw := Field.sub_trans (by decide) hw)
    | with_reducible apply State.readCatalogue_keeps (hw := Field.sub_trans (by decide) hw)
    | with_reducible refine keeps_ite ?_ ?_
    | with_reducible refine keeps_ite_fst ?_ ?_
    | intro _
    | dsimp only
    | split

theorem State.sectDone_keeps {W : List Field} {s₀ s : State} (hk : s₀.Keeps W s) (hw : Field.sub [.boot] W = true) (i : Nat) : s₀.Keeps W
    (State.sectDone s i) := by
  unfold State.sectDone
  repeat' first
    | with_reducible assumption
    | with_reducible exact State.Keeps.refl _ _
    | with_reducible apply State.modBoot_keeps (hw := Field.sub_trans (by decide) hw)
    | with_reducible refine keeps_ite ?_ ?_
    | with_reducible refine keeps_ite_fst ?_ ?_
    | intro _
    | dsimp only
    | split

theorem State.activate_keeps {W : List Field} {s₀ s : State} (hk : s₀.Keeps W s) (hw : Field.sub [.regs, .gals, .boot, .net, .reqs,
    .seqNext, .free] W = true) (G : Nat) (p : Nat) : s₀.Keeps W (State.activate s G p) := by
  unfold State.activate
  repeat' first
    | with_reducible assumption
    | with_reducible exact State.Keeps.refl _ _
    | with_reducible apply State.initState_keeps (hw := Field.sub_trans (by decide) hw)
    | with_reducible apply State.setActive_keeps (hw := Field.sub_trans (by decide) hw)
    | with_reducible apply State.setPlaneState_keeps (hw := Field.sub_trans (by decide) hw)
    | with_reducible apply State.draw_keeps (hw := Field.sub_trans (by decide) hw)
    | with_reducible apply State.modGal_keeps (hw := Field.sub_trans (by decide) hw)
    | with_reducible apply State.initShadow_keeps (hw := Field.sub_trans (by decide) hw)
    | with_reducible apply State.modBoot_keeps (hw := Field.sub_trans (by decide) hw)
    | with_reducible apply State.reportPlane_keeps (hw := Field.sub_trans (by decide) hw)
    | with_reducible refine keeps_ite ?_ ?_
    | with_reducible refine keeps_ite_fst ?_ ?_
    | intro _
    | dsimp only
    | split

theorem State.galOn_keeps {W : List Field} {s₀ s : State} (hk : s₀.Keeps W s) (hw : Field.sub [.clk] W = true) : s₀.Keeps W (State.galOn
    s) := by
  unfold State.galOn
  repeat' first
    | with_reducible assumption
    | with_reducible exact State.Keeps.refl _ _
    | with_reducible refine keeps_ite ?_ ?_
    | with_reducible refine keeps_ite_fst ?_ ?_
    | intro _
    | dsimp only
    | simp (disch := first | assumption | (with_unfolding_all (intro (x : Field) hx; cases x <;>
        first | exact absurd hx (by decide) | (dsimp only [Field.same]; done) | (dsimp only [Field.same]; exact ⟨rfl, rfl⟩)))) only [keeps_mk hw]
    | split

theorem State.release_keeps {W : List Field} {s₀ s : State} (hk : s₀.Keeps W s) (hw : Field.sub [.regs, .gals, .halls, .ev, .clk, .boot,
    .net, .reqs, .seqNext, .free] W = true) : s₀.Keeps W (State.release s) := by
  unfold State.release
  repeat' first
    | with_reducible assumption
    | with_reducible exact State.Keeps.refl _ _
    | with_reducible apply State.galOn_keeps (hw := Field.sub_trans (by decide) hw)
    | with_reducible apply State.activate_keeps (hw := Field.sub_trans (by decide) hw)
    | with_reducible apply State.branchesUpdate_keeps (hw := Field.sub_trans (by decide) hw)
    | with_reducible apply State.setBoot_keeps (hw := Field.sub_trans (by decide) hw)
    | with_reducible apply State.modBoot_keeps (hw := Field.sub_trans (by decide) hw)
    | with_reducible refine keeps_ite ?_ ?_
    | with_reducible refine keeps_ite_fst ?_ ?_
    | with_reducible refine keeps_foldl _ _ ?_ ?_
    | with_reducible refine keeps_foldl_fst _ _ ?_ ?_
    | intro _
    | dsimp only
    | split

theorem State.releaseBorders_keeps {W : List Field} {s₀ s : State} (hk : s₀.Keeps W s) (hw : Field.sub [.gals, .boot, .free] W = true) :
    s₀.Keeps W (State.releaseBorders s) := by
  unfold State.releaseBorders
  repeat' first
    | with_reducible assumption
    | with_reducible exact State.Keeps.refl _ _
    | with_reducible apply State.captureResumes_keeps (hw := Field.sub_trans (by decide) hw)
    | with_reducible apply State.modGal_keeps (hw := Field.sub_trans (by decide) hw)
    | with_reducible apply State.modBoot_keeps (hw := Field.sub_trans (by decide) hw)
    | with_reducible refine keeps_ite ?_ ?_
    | with_reducible refine keeps_ite_fst ?_ ?_
    | with_reducible refine keeps_foldl _ _ ?_ ?_
    | with_reducible refine keeps_foldl_fst _ _ ?_ ?_
    | intro _
    | dsimp only
    | split

theorem State.libNext_keeps {W : List Field} {s₀ s : State} (hk : s₀.Keeps W s) (hw : Field.sub [.regs, .gals, .ev, .adm, .dom, .pwrCmd,
    .boot, .bist] W = true) : s₀.Keeps W (State.libNext s) := by
  unfold State.libNext
  repeat' first
    | with_reducible assumption
    | with_reducible exact State.Keeps.refl _ _
    | with_reducible apply State.admRequest_keeps (hw := Field.sub_trans (by decide) hw)
    | with_reducible apply State.modBoot_keeps (hw := Field.sub_trans (by decide) hw)
    | with_reducible apply State.setFld_keeps (hw := Field.sub_trans (by decide) hw)
    | with_reducible apply State.postPkg_keeps (hw := Field.sub_trans (by decide) hw)
    | with_reducible refine keeps_ite ?_ ?_
    | with_reducible refine keeps_ite_fst ?_ ?_
    | intro _
    | dsimp only
    | split

theorem State.libStart_keeps {W : List Field} {s₀ s : State} (hk : s₀.Keeps W s) (hw : Field.sub [.regs, .gals, .ev, .adm, .dom, .pwrCmd,
    .boot, .bist] W = true) : s₀.Keeps W (State.libStart s) := by
  unfold State.libStart
  repeat' first
    | with_reducible assumption
    | with_reducible exact State.Keeps.refl _ _
    | with_reducible apply State.setFld_keeps (hw := Field.sub_trans (by decide) hw)
    | with_reducible apply State.modBoot_keeps (hw := Field.sub_trans (by decide) hw)
    | with_reducible apply State.libNext_keeps (hw := Field.sub_trans (by decide) hw)
    | with_reducible refine keeps_ite ?_ ?_
    | with_reducible refine keeps_ite_fst ?_ ?_
    | intro _
    | dsimp only
    | split

theorem State.ioOn_keeps {W : List Field} {s₀ s : State} (hk : s₀.Keeps W s) (hw : Field.sub [.clk] W = true) : s₀.Keeps W (State.ioOn s)
    := by
  unfold State.ioOn
  repeat' first
    | with_reducible assumption
    | with_reducible exact State.Keeps.refl _ _
    | with_reducible refine keeps_ite ?_ ?_
    | with_reducible refine keeps_ite_fst ?_ ?_
    | intro _
    | dsimp only
    | simp (disch := first | assumption | (with_unfolding_all (intro (x : Field) hx; cases x <;>
        first | exact absurd hx (by decide) | (dsimp only [Field.same]; done) | (dsimp only [Field.same]; exact ⟨rfl, rfl⟩)))) only [keeps_mk hw]
    | split

theorem State.releaseIo_keeps {W : List Field} {s₀ s : State} (hk : s₀.Keeps W s) (hw : Field.sub [.regs, .gals, .halls, .ev, .clk, .net,
    .reqs, .seqNext, .free] W = true) (senses : List Nat) : s₀.Keeps W (State.releaseIo s senses) := by
  unfold State.releaseIo
  repeat' first
    | with_reducible assumption
    | with_reducible exact State.Keeps.refl _ _
    | with_reducible apply State.ioOn_keeps (hw := Field.sub_trans (by decide) hw)
    | with_reducible apply State.padMeasure_keeps (hw := Field.sub_trans (by decide) hw)
    | with_reducible apply State.laneStart_keeps (hw := Field.sub_trans (by decide) hw)
    | with_reducible refine keeps_ite ?_ ?_
    | with_reducible refine keeps_ite_fst ?_ ?_
    | with_reducible refine keeps_foldl _ _ ?_ ?_
    | with_reducible refine keeps_foldl_fst _ _ ?_ ?_
    | intro _
    | dsimp only
    | split

theorem State.bootDone_keeps {W : List Field} {s₀ s : State} (hk : s₀.Keeps W s) (hw : Field.sub [.regs, .gals, .halls, .ev, .adm, .clk,
    .dom, .pwrCmd, .boot, .bist, .cal, .net, .reqs, .seqNext, .free] W = true) (senses : List Nat) : s₀.Keeps W (State.bootDone s senses)
    := by
  unfold State.bootDone
  repeat' first
    | with_reducible assumption
    | with_reducible exact State.Keeps.refl _ _
    | with_reducible apply State.releaseIo_keeps (hw := Field.sub_trans (by decide) hw)
    | with_reducible apply State.setReg_keeps (hw := Field.sub_trans (by decide) hw)
    | with_reducible apply State.setBoot_keeps (hw := Field.sub_trans (by decide) hw)
    | with_reducible apply State.modBoot_keeps (hw := Field.sub_trans (by decide) hw)
    | with_reducible apply State.postPkg_keeps (hw := Field.sub_trans (by decide) hw)
    | with_reducible apply State.eachHall_keeps
    | with_reducible apply State.srEnd_keeps (hw := Field.sub_trans (by decide) hw)
    | with_reducible apply State.calResume_keeps (hw := Field.sub_trans (by decide) hw)
    | with_reducible apply State.libStart_keeps (hw := Field.sub_trans (by decide) hw)
    | with_reducible refine keeps_ite ?_ ?_
    | with_reducible refine keeps_ite_fst ?_ ?_
    | intro _
    | dsimp only
    | split

theorem State.notActivated_keeps {W : List Field} {s₀ s : State} (hk : s₀.Keeps W s) (hw : Field.sub [.boot] W = true) (i : Nat) :
    s₀.Keeps W (State.notActivated s i) := by
  unfold State.notActivated
  repeat' first
    | with_reducible assumption
    | with_reducible exact State.Keeps.refl _ _
    | with_reducible apply State.modBoot_keeps (hw := Field.sub_trans (by decide) hw)
    | with_reducible refine keeps_ite ?_ ?_
    | with_reducible refine keeps_ite_fst ?_ ?_
    | intro _
    | dsimp only
    | split

theorem State.sectEmptied_keeps {W : List Field} {s₀ s : State} (hk : s₀.Keeps W s) (hw : Field.sub [.regs, .gals, .boot] W = true) (i :
    Nat) : s₀.Keeps W (State.sectEmptied s i) := by
  unfold State.sectEmptied
  repeat' first
    | with_reducible assumption
    | with_reducible exact State.Keeps.refl _ _
    | with_reducible apply State.emptySlot_keeps (hw := Field.sub_trans (by decide) hw)
    | with_reducible refine keeps_ite ?_ ?_
    | with_reducible refine keeps_ite_fst ?_ ?_
    | with_reducible refine keeps_foldl _ _ ?_ ?_
    | with_reducible refine keeps_foldl_fst _ _ ?_ ?_
    | intro _
    | dsimp only
    | split

theorem State.libFail_keeps {W : List Field} {s₀ s : State} (hk : s₀.Keeps W s) (hw : Field.sub [.regs, .gals, .ev, .boot] W = true) (i :
    Nat) (cause : Nat) (G : Nat) : s₀.Keeps W (State.libFail s i cause G) := by
  unfold State.libFail
  repeat' first
    | with_reducible assumption
    | with_reducible exact State.Keeps.refl _ _
    | with_reducible apply State.notActivated_keeps (hw := Field.sub_trans (by decide) hw)
    | with_reducible apply State.sectEmptied_keeps (hw := Field.sub_trans (by decide) hw)
    | with_reducible apply State.incFld_keeps (hw := Field.sub_trans (by decide) hw)
    | with_reducible apply State.postGal_keeps (hw := Field.sub_trans (by decide) hw)
    | with_reducible refine keeps_ite ?_ ?_
    | with_reducible refine keeps_ite_fst ?_ ?_
    | intro _
    | dsimp only
    | split

theorem State.libPass_keeps {W : List Field} {s₀ s : State} (hk : s₀.Keeps W s) (hw : Field.sub [.regs, .gals, .halls, .ev, .boot, .net,
    .reqs, .seqNext, .free] W = true) (i : Nat) : s₀.Keeps W (State.libPass s i) := by
  unfold State.libPass
  repeat' first
    | with_reducible assumption
    | with_reducible exact State.Keeps.refl _ _
    | with_reducible apply State.branchesUpdate_keeps (hw := Field.sub_trans (by decide) hw)
    | with_reducible apply State.activate_keeps (hw := Field.sub_trans (by decide) hw)
    | with_reducible refine keeps_ite ?_ ?_
    | with_reducible refine keeps_ite_fst ?_ ?_
    | with_reducible refine keeps_foldl _ _ ?_ ?_
    | with_reducible refine keeps_foldl_fst _ _ ?_ ?_
    | intro _
    | dsimp only
    | split

theorem State.libRead_keeps {W : List Field} {s₀ s : State} (hk : s₀.Keeps W s) (hw : Field.sub [.regs, .mem, .gals, .halls, .ev, .adm,
    .clk, .dom, .pwrCmd, .slots, .boot, .bist, .cal, .sec, .net, .reqs, .seqNext, .istat, .corrs, .free] W = true) (facts : List (GalIx ×
    PlaneIx × LoadFacts)) : s₀.Keeps W (State.libRead s facts) := by
  unfold State.libRead
  repeat' first
    | with_reducible assumption
    | with_reducible exact State.Keeps.refl _ _
    | with_reducible apply State.readSection_keeps (hw := Field.sub_trans (by decide) hw)
    | with_reducible apply State.libFail_keeps (hw := Field.sub_trans (by decide) hw)
    | with_reducible apply State.libPass_keeps (hw := Field.sub_trans (by decide) hw)
    | with_reducible apply State.admRelease_keeps (hw := Field.sub_trans (by decide) hw)
    | with_reducible apply State.sectDone_keeps (hw := Field.sub_trans (by decide) hw)
    | with_reducible apply State.libNext_keeps (hw := Field.sub_trans (by decide) hw)
    | with_reducible apply State.setFld_keeps (hw := Field.sub_trans (by decide) hw)
    | with_reducible refine keeps_ite ?_ ?_
    | with_reducible refine keeps_ite_fst ?_ ?_
    | intro _
    | dsimp only
    | split

theorem State.sectionRead_keeps {W : List Field} {s₀ s : State} (hk : s₀.Keeps W s) (hw : Field.sub [.regs, .mem, .gals, .halls, .ev,
    .adm, .clk, .dom, .pwrCmd, .slots, .boot, .bist, .cal, .sec, .net, .reqs, .seqNext, .istat, .corrs, .free] W = true) (facts : List
    (GalIx × PlaneIx × LoadFacts)) : s₀.Keeps W (State.sectionRead s facts) := by
  unfold State.sectionRead
  repeat' first
    | with_reducible assumption
    | with_reducible exact State.Keeps.refl _ _
    | with_reducible apply State.readSection_keeps (hw := Field.sub_trans (by decide) hw)
    | with_reducible apply State.imageFail_keeps (hw := Field.sub_trans (by decide) hw)
    | with_reducible apply State.sectDone_keeps (hw := Field.sub_trans (by decide) hw)
    | with_reducible apply State.libRead_keeps (hw := Field.sub_trans (by decide) hw)
    | with_reducible refine keeps_ite ?_ ?_
    | with_reducible refine keeps_ite_fst ?_ ?_
    | intro _
    | dsimp only
    | split

theorem State.hotReadings_keeps {W : List Field} {s₀ s : State} (hk : s₀.Keeps W s) (hw : Field.sub [.regs, .mem, .gals, .halls, .ev,
    .adm, .clk, .dom, .pwrCmd, .thermHall, .thermStack, .thermGood, .stop, .boot, .bist, .cal, .net, .reqs, .seqNext, .free] W = true) (x
    : List (List Int)) (t : List (Nat × Nat)) : s₀.Keeps W (State.hotReadings s x t) := by
  unfold State.hotReadings
  repeat' first
    | with_reducible assumption
    | with_reducible exact State.Keeps.refl _ _
    | with_reducible apply State.stackRead_keeps (hw := Field.sub_trans (by decide) hw)
    | with_reducible apply State.eachHall_keeps
    | with_reducible apply State.measured_keeps (hw := Field.sub_trans (by decide) hw)
    | with_reducible apply State.startReading_keeps (hw := Field.sub_trans (by decide) hw)
    | with_reducible refine keeps_ite ?_ ?_
    | with_reducible refine keeps_ite_fst ?_ ?_
    | with_reducible refine keeps_foldl _ _ ?_ ?_
    | with_reducible refine keeps_foldl_fst _ _ ?_ ?_
    | intro _
    | dsimp only
    | split

theorem State.hotOver_keeps {W : List Field} {s₀ s : State} (hk : s₀.Keeps W s) (hw : Field.sub [.stop] W = true) : s₀.Keeps W
    (State.hotOver s) := by
  unfold State.hotOver
  repeat' first
    | with_reducible assumption
    | with_reducible exact State.Keeps.refl _ _
    | with_reducible refine keeps_ite ?_ ?_
    | with_reducible refine keeps_ite_fst ?_ ?_
    | intro _
    | dsimp only
    | simp (disch := first | assumption | (with_unfolding_all (intro (x : Field) hx; cases x <;>
        first | exact absurd hx (by decide) | (dsimp only [Field.same]; done) | (dsimp only [Field.same]; exact ⟨rfl, rfl⟩)))) only [keeps_mk hw]
    | split

theorem State.hotMeasure_keeps {W : List Field} {s₀ s : State} (hk : s₀.Keeps W s) (hw : Field.sub [.regs, .mem, .gals, .halls, .ev,
    .adm, .clk, .dom, .pwrCmd, .thermHall, .thermStack, .thermGood, .stop, .boot, .bist, .cal, .net, .reqs, .seqNext, .free] W = true) (x
    : List (List Int)) (t : List (Nat × Nat)) : s₀.Keeps W (State.hotMeasure s x t) := by
  unfold State.hotMeasure
  repeat' first
    | with_reducible assumption
    | with_reducible exact State.Keeps.refl _ _
    | with_reducible apply State.hotReadings_keeps (hw := Field.sub_trans (by decide) hw)
    | with_reducible apply State.post_keeps (hw := Field.sub_trans (by decide) hw)
    | with_reducible apply State.modBoot_keeps (hw := Field.sub_trans (by decide) hw)
    | with_reducible apply State.hotOver_keeps (hw := Field.sub_trans (by decide) hw)
    | with_reducible refine keeps_ite ?_ ?_
    | with_reducible refine keeps_ite_fst ?_ ?_
    | intro _
    | dsimp only
    | simp (disch := first | assumption | (with_unfolding_all (intro (x : Field) hx; cases x <;>
        first | exact absurd hx (by decide) | (dsimp only [Field.same]; done) | (dsimp only [Field.same]; exact ⟨rfl, rfl⟩)))) only [keeps_mk hw]
    | split

theorem execFlashDiscovery_keeps {s : State} (dev0 : Bool) (dev1 : Bool) (same : Bool) (good : Bool) (size : Fin 5) : ∃ nx,
    execFlashDiscovery dev0 dev1 same good size s = .next nx ∧ s.Keeps [.regs, .gals, .halls, .ev, .adm, .clk, .boot, .net, .reqs,
    .seqNext, .free] nx := by
  have hw : Field.sub [.regs, .gals, .halls, .ev, .adm, .clk, .boot, .net, .reqs, .seqNext, .free] [.regs, .gals, .halls, .ev, .adm,
    .clk, .boot, .net, .reqs, .seqNext, .free] = true := by decide
  refine ⟨_, rfl, ?_⟩
  have hk := State.Keeps.refl [.regs, .gals, .halls, .ev, .adm, .clk, .boot, .net, .reqs, .seqNext, .free] s
  repeat' first
    | with_reducible assumption
    | with_reducible exact State.Keeps.refl _ _
    | with_reducible apply State.flashDiscovery_keeps (hw := Field.sub_trans (by decide) hw)
    | with_reducible refine keeps_ite ?_ ?_
    | with_reducible refine keeps_ite_fst ?_ ?_
    | intro _
    | dsimp only
    | split

theorem execImageCheck_keeps {s : State} (mv : List (Fin 4096)) : ∃ nx, execImageCheck mv s = .next nx ∧ s.Keeps [.regs, .mem, .gals,
    .halls, .ev, .adm, .clk, .boot, .bist, .sec, .net, .reqs, .seqNext, .free] nx := by
  have hw : Field.sub [.regs, .mem, .gals, .halls, .ev, .adm, .clk, .boot, .bist, .sec, .net, .reqs, .seqNext, .free] [.regs, .mem,
    .gals, .halls, .ev, .adm, .clk, .boot, .bist, .sec, .net, .reqs, .seqNext, .free] = true := by decide
  refine ⟨_, rfl, ?_⟩
  have hk := State.Keeps.refl [.regs, .mem, .gals, .halls, .ev, .adm, .clk, .boot, .bist, .sec, .net, .reqs, .seqNext, .free] s
  repeat' first
    | with_reducible assumption
    | with_reducible exact State.Keeps.refl _ _
    | with_reducible apply State.imageChecked_keeps (hw := Field.sub_trans (by decide) hw)
    | with_reducible refine keeps_ite ?_ ?_
    | with_reducible refine keeps_ite_fst ?_ ?_
    | intro _
    | dsimp only
    | split

theorem execRecordScan_keeps {s : State} (mv : List (Fin 4096)) : ∃ nx, execRecordScan mv s = .next nx ∧ s.Keeps [.regs, .mem, .gals,
    .halls, .ev, .adm, .clk, .boot, .bist, .net, .reqs, .seqNext, .free] nx := by
  have hw : Field.sub [.regs, .mem, .gals, .halls, .ev, .adm, .clk, .boot, .bist, .net, .reqs, .seqNext, .free] [.regs, .mem, .gals,
    .halls, .ev, .adm, .clk, .boot, .bist, .net, .reqs, .seqNext, .free] = true := by decide
  refine ⟨_, rfl, ?_⟩
  have hk := State.Keeps.refl [.regs, .mem, .gals, .halls, .ev, .adm, .clk, .boot, .bist, .net, .reqs, .seqNext, .free] s
  repeat' first
    | with_reducible assumption
    | with_reducible exact State.Keeps.refl _ _
    | with_reducible apply State.recordScan_keeps (hw := Field.sub_trans (by decide) hw)
    | with_reducible refine keeps_ite ?_ ?_
    | with_reducible refine keeps_ite_fst ?_ ?_
    | intro _
    | dsimp only
    | split

theorem execFabricPllLock_keeps {s : State} (sweeps : List (HallIx × CalGroup × Int × Int)) : ∃ nx, execFabricPllLock sweeps s = .next nx
    ∧ s.Keeps [.regs, .mem, .gals, .halls, .ev, .adm, .clk, .dom, .pwrCmd, .boot, .bist, .cal, .net, .reqs, .seqNext, .free] nx := by
  have hw : Field.sub [.regs, .mem, .gals, .halls, .ev, .adm, .clk, .dom, .pwrCmd, .boot, .bist, .cal, .net, .reqs, .seqNext, .free]
    [.regs, .mem, .gals, .halls, .ev, .adm, .clk, .dom, .pwrCmd, .boot, .bist, .cal, .net, .reqs, .seqNext, .free] = true := by decide
  refine ⟨_, rfl, ?_⟩
  have hk := State.Keeps.refl [.regs, .mem, .gals, .halls, .ev, .adm, .clk, .dom, .pwrCmd, .boot, .bist, .cal, .net, .reqs, .seqNext,
    .free] s
  repeat' first
    | with_reducible assumption
    | with_reducible exact State.Keeps.refl _ _
    | with_reducible apply State.step8_keeps (hw := Field.sub_trans (by decide) hw)
    | with_reducible refine keeps_ite ?_ ?_
    | with_reducible refine keeps_ite_fst ?_ ?_
    | intro _
    | dsimp only
    | split

theorem execSectionRead_keeps {s : State} (facts : List (GalIx × PlaneIx × LoadFacts)) : ∃ nx, execSectionRead facts s = .next nx ∧
    s.Keeps [.regs, .mem, .gals, .halls, .ev, .adm, .clk, .dom, .pwrCmd, .slots, .boot, .bist, .cal, .sec, .net, .reqs, .seqNext, .istat,
    .corrs, .free] nx := by
  have hw : Field.sub [.regs, .mem, .gals, .halls, .ev, .adm, .clk, .dom, .pwrCmd, .slots, .boot, .bist, .cal, .sec, .net, .reqs,
    .seqNext, .istat, .corrs, .free] [.regs, .mem, .gals, .halls, .ev, .adm, .clk, .dom, .pwrCmd, .slots, .boot, .bist, .cal, .sec, .net,
    .reqs, .seqNext, .istat, .corrs, .free] = true := by decide
  refine ⟨_, rfl, ?_⟩
  have hk := State.Keeps.refl [.regs, .mem, .gals, .halls, .ev, .adm, .clk, .dom, .pwrCmd, .slots, .boot, .bist, .cal, .sec, .net, .reqs,
    .seqNext, .istat, .corrs, .free] s
  repeat' first
    | with_reducible assumption
    | with_reducible exact State.Keeps.refl _ _
    | with_reducible apply State.sectionRead_keeps (hw := Field.sub_trans (by decide) hw)
    | with_reducible refine keeps_ite ?_ ?_
    | with_reducible refine keeps_ite_fst ?_ ?_
    | intro _
    | dsimp only
    | split

theorem execRelease_keeps {s : State} : ∃ nx, execRelease s = .next nx ∧ s.Keeps [.regs, .gals, .halls, .ev, .clk, .boot, .net, .reqs,
    .seqNext, .free] nx := by
  have hw : Field.sub [.regs, .gals, .halls, .ev, .clk, .boot, .net, .reqs, .seqNext, .free] [.regs, .gals, .halls, .ev, .clk, .boot,
    .net, .reqs, .seqNext, .free] = true := by decide
  refine ⟨_, rfl, ?_⟩
  have hk := State.Keeps.refl [.regs, .gals, .halls, .ev, .clk, .boot, .net, .reqs, .seqNext, .free] s
  repeat' first
    | with_reducible assumption
    | with_reducible exact State.Keeps.refl _ _
    | with_reducible apply State.release_keeps (hw := Field.sub_trans (by decide) hw)
    | with_reducible refine keeps_ite ?_ ?_
    | with_reducible refine keeps_ite_fst ?_ ?_
    | intro _
    | dsimp only
    | split

theorem execReleaseBorders_keeps {s : State} : ∃ nx, execReleaseBorders s = .next nx ∧ s.Keeps [.gals, .boot, .free] nx := by
  have hw : Field.sub [.gals, .boot, .free] [.gals, .boot, .free] = true := by decide
  refine ⟨_, rfl, ?_⟩
  have hk := State.Keeps.refl [.gals, .boot, .free] s
  repeat' first
    | with_reducible assumption
    | with_reducible exact State.Keeps.refl _ _
    | with_reducible apply State.releaseBorders_keeps (hw := Field.sub_trans (by decide) hw)
    | with_reducible refine keeps_ite ?_ ?_
    | with_reducible refine keeps_ite_fst ?_ ?_
    | intro _
    | dsimp only
    | split

theorem execBootDone_keeps {s : State} (senses : List (Fin 4)) : ∃ nx, execBootDone senses s = .next nx ∧ s.Keeps [.regs, .gals, .halls,
    .ev, .adm, .clk, .dom, .pwrCmd, .boot, .bist, .cal, .net, .reqs, .seqNext, .free] nx := by
  have hw : Field.sub [.regs, .gals, .halls, .ev, .adm, .clk, .dom, .pwrCmd, .boot, .bist, .cal, .net, .reqs, .seqNext, .free] [.regs,
    .gals, .halls, .ev, .adm, .clk, .dom, .pwrCmd, .boot, .bist, .cal, .net, .reqs, .seqNext, .free] = true := by decide
  refine ⟨_, rfl, ?_⟩
  have hk := State.Keeps.refl [.regs, .gals, .halls, .ev, .adm, .clk, .dom, .pwrCmd, .boot, .bist, .cal, .net, .reqs, .seqNext, .free] s
  repeat' first
    | with_reducible assumption
    | with_reducible exact State.Keeps.refl _ _
    | with_reducible apply State.bootDone_keeps (hw := Field.sub_trans (by decide) hw)
    | with_reducible refine keeps_ite ?_ ?_
    | with_reducible refine keeps_ite_fst ?_ ?_
    | intro _
    | dsimp only
    | split

theorem execHotStartMeasure_keeps {s : State} (x : List (List (BitVec 10))) (t : List (Fin 256 × Fin 3)) : ∃ nx, execHotStartMeasure x t
    s = .next nx ∧ s.Keeps [.regs, .mem, .gals, .halls, .ev, .adm, .clk, .dom, .pwrCmd, .thermHall, .thermStack, .thermGood, .stop,
    .boot, .bist, .cal, .net, .reqs, .seqNext, .free] nx := by
  have hw : Field.sub [.regs, .mem, .gals, .halls, .ev, .adm, .clk, .dom, .pwrCmd, .thermHall, .thermStack, .thermGood, .stop, .boot,
    .bist, .cal, .net, .reqs, .seqNext, .free] [.regs, .mem, .gals, .halls, .ev, .adm, .clk, .dom, .pwrCmd, .thermHall, .thermStack,
    .thermGood, .stop, .boot, .bist, .cal, .net, .reqs, .seqNext, .free] = true := by decide
  refine ⟨_, rfl, ?_⟩
  have hk := State.Keeps.refl [.regs, .mem, .gals, .halls, .ev, .adm, .clk, .dom, .pwrCmd, .thermHall, .thermStack, .thermGood, .stop,
    .boot, .bist, .cal, .net, .reqs, .seqNext, .free] s
  repeat' first
    | with_reducible assumption
    | with_reducible exact State.Keeps.refl _ _
    | with_reducible apply State.hotMeasure_keeps (hw := Field.sub_trans (by decide) hw)
    | with_reducible refine keeps_ite ?_ ?_
    | with_reducible refine keeps_ite_fst ?_ ?_
    | intro _
    | dsimp only
    | split

end Sys2Proof.Machine
end

