-- ==== Sys2Proof/Laws/KeepsReset.lean ====
section
/-!
SUPPORT. Laws/KeepsReset.lean: the operations of Machine/Reset.lean keep State.Keeps.
-/
namespace Sys2Proof.Machine
open Sys2Proof

theorem State.refShown_keeps {W : List Field} {s₀ s : State} (hk : s₀.Keeps W s) (hw : Field.sub [.regs] W = true) : s₀.Keeps W
    (State.refShown s) := by
  unfold State.refShown
  repeat' first
    | with_reducible assumption
    | with_reducible exact State.Keeps.refl _ _
    | with_reducible apply State.setFld_keeps (hw := Field.sub_trans (by decide) hw)
    | with_reducible apply State.eachHall_keeps
    | with_reducible refine keeps_ite ?_ ?_
    | with_reducible refine keeps_ite_fst ?_ ?_
    | intro _
    | dsimp only
    | split

theorem State.spoilRaise_keeps {W : List Field} {s₀ s : State} (hk : s₀.Keeps W s) (hw : Field.sub [.regs, .ev, .sec] W = true) :
    s₀.Keeps W (State.spoilRaise s) := by
  unfold State.spoilRaise
  repeat' first
    | with_reducible assumption
    | with_reducible exact State.Keeps.refl _ _
    | with_reducible apply State.postPkg_keeps (hw := Field.sub_trans (by decide) hw)
    | with_reducible refine keeps_ite ?_ ?_
    | with_reducible refine keeps_ite_fst ?_ ?_
    | intro _
    | dsimp only
    | simp (disch := first | assumption | (with_unfolding_all (intro (x : Field) hx; cases x <;>
        first | exact absurd hx (by decide) | (dsimp only [Field.same]; done) | (dsimp only [Field.same]; exact ⟨rfl, rfl⟩)))) only [keeps_mk hw]
    | split

theorem State.otpMet_le (s : State) (spoil : Option (Nat × Nat)) : OtpLe s.otp (State.otpMet s spoil) := by
  unfold State.otpMet
  split
  · split
    · exact (State.lcSpoil_keeps (W := [.regs, .ev, .otp, .sec, .free]) (State.Keeps.refl _ s) (by decide) _ _ _).otp
    · exact OtpLe.refl _
  · exact OtpLe.refl _

theorem State.supplyFall_keeps {W : List Field} {s₀ s : State} (hk : s₀.Keeps W s) (hw : Field.sub [.regs, .mem, .gals, .halls, .ev, .adm, .otp, .port, .clk, .dom, .pwrCmd, .thermHall, .thermStack, .thermGood, .stop, .slots, .boot, .bist, .cal, .sec, .net, .reqs, .seqNext, .seqRec, .epochs, .istat, .corrs, .free] W = true)
    (spoil : Option (Nat × Nat)) :
    s₀.Keeps W (State.supplyFall s spoil) := by
  have hall : ∀ x, W.contains x = true := fun x => Field.mem_of_sub hw (by cases x <;> rfl)
  unfold State.supplyFall
  exact ⟨hk.part, hk.pending, hk.now, hk.otp.trans (State.otpMet_le s spoil),
    fun x => memWf_drop s.mem (fun k => decide (k < 2 ^ 48)) (hk.mem x),
    fun _ => ⟨Nat.zero_le _, Nat.le_refl _⟩, fun _ => Nat.zero_le _, fun x hx => by rw [hall x] at hx; cases hx⟩

theorem State.powerOn_keeps {W : List Field} {s₀ s : State} (hk : s₀.Keeps W s) (hw : Field.sub [.regs, .clk, .boot] W = true) (oscdly :
    Nat) (ref : Bool) (lref : Nat) : s₀.Keeps W (State.powerOn s oscdly ref lref) := by
  unfold State.powerOn
  repeat' first
    | with_reducible assumption
    | with_reducible exact State.Keeps.refl _ _
    | with_reducible apply State.refShown_keeps (hw := Field.sub_trans (by decide) hw)
    | with_reducible apply State.modBoot_keeps (hw := Field.sub_trans (by decide) hw)
    | with_reducible refine keeps_ite ?_ ?_
    | with_reducible refine keeps_ite_fst ?_ ?_
    | intro _
    | dsimp only
    | simp (disch := first | assumption | (with_unfolding_all (intro (x : Field) hx; cases x <;>
        first | exact absurd hx (by decide) | (dsimp only [Field.same]; done) | (dsimp only [Field.same]; exact ⟨rfl, rfl⟩)))) only [keeps_mk hw]
    | split

theorem State.domainsOn_keeps {W : List Field} {s₀ s : State} (hk : s₀.Keeps W s) (hw : Field.sub [.regs, .dom] W = true) : s₀.Keeps W
    (State.domainsOn s) := by
  unfold State.domainsOn
  repeat' first
    | with_reducible assumption
    | with_reducible exact State.Keeps.refl _ _
    | with_reducible apply State.eachHall_keeps
    | with_reducible apply State.forceDom_keeps (hw := Field.sub_trans (by decide) hw)
    | with_reducible refine keeps_ite ?_ ?_
    | with_reducible refine keeps_ite_fst ?_ ?_
    | with_reducible refine keeps_foldl _ _ ?_ ?_
    | with_reducible refine keeps_foldl_fst _ _ ?_ ?_
    | intro _
    | dsimp only
    | split

theorem State.startClears_keeps {W : List Field} {s₀ s : State} (hk : s₀.Keeps W s) (hw : Field.sub [.regs, .boot, .bist] W = true) (st :
    Nat) : s₀.Keeps W (State.startClears s st) := by
  unfold State.startClears
  repeat' first
    | with_reducible assumption
    | with_reducible exact State.Keeps.refl _ _
    | with_reducible apply State.modBoot_keeps (hw := Field.sub_trans (by decide) hw)
    | with_reducible apply State.clrReg_keeps (hw := Field.sub_trans (by decide) hw)
    | with_reducible apply State.setReg_keeps (hw := Field.sub_trans (by decide) hw)
    | with_reducible refine keeps_ite ?_ ?_
    | with_reducible refine keeps_ite_fst ?_ ?_
    | intro _
    | dsimp only
    | simp (disch := first | assumption | (with_unfolding_all (intro (x : Field) hx; cases x <;>
        first | exact absurd hx (by decide) | (dsimp only [Field.same]; done) | (dsimp only [Field.same]; exact ⟨rfl, rfl⟩)))) only [keeps_mk hw]
    | split

theorem State.mrZero_keeps {W : List Field} {s₀ s : State} (hk : s₀.Keeps W s) (hw : Field.sub [.sec] W = true) : s₀.Keeps W
    (State.mrZero s) := by
  unfold State.mrZero
  repeat' first
    | with_reducible assumption
    | with_reducible exact State.Keeps.refl _ _
    | with_reducible refine keeps_ite ?_ ?_
    | with_reducible refine keeps_ite_fst ?_ ?_
    | intro _
    | dsimp only
    | simp (disch := first | assumption | (with_unfolding_all (intro (x : Field) hx; cases x <;>
        first | exact absurd hx (by decide) | (dsimp only [Field.same]; done) | (dsimp only [Field.same]; exact ⟨rfl, rfl⟩)))) only [keeps_mk hw]
    | split

theorem State.startMeasures_keeps {W : List Field} {s₀ s : State} (hk : s₀.Keeps W s) (hw : Field.sub [.regs, .ev, .sec, .free] W = true)
    : s₀.Keeps W (State.startMeasures s) := by
  unfold State.startMeasures
  repeat' first
    | with_reducible assumption
    | with_reducible exact State.Keeps.refl _ _
    | with_reducible apply State.postPkg_keeps (hw := Field.sub_trans (by decide) hw)
    | with_reducible apply State.newChal_keeps (hw := Field.sub_trans (by decide) hw)
    | with_reducible apply State.extend_keeps (hw := Field.sub_trans (by decide) hw)
    | with_reducible apply State.mrZero_keeps (hw := Field.sub_trans (by decide) hw)
    | with_reducible refine keeps_ite ?_ ?_
    | with_reducible refine keeps_ite_fst ?_ ?_
    | intro _
    | dsimp only
    | split

theorem State.startNext_keeps {W : List Field} {s₀ s : State} (hk : s₀.Keeps W s) (hw : Field.sub [.boot] W = true) : s₀.Keeps W
    (State.startNext s) := by
  unfold State.startNext
  repeat' first
    | with_reducible assumption
    | with_reducible exact State.Keeps.refl _ _
    | with_reducible apply State.modBoot_keeps (hw := Field.sub_trans (by decide) hw)
    | with_reducible refine keeps_ite ?_ ?_
    | with_reducible refine keeps_ite_fst ?_ ?_
    | intro _
    | dsimp only
    | split

theorem State.startCommon_keeps {W : List Field} {s₀ s : State} (hk : s₀.Keeps W s) (hw : Field.sub [.regs, .ev, .boot, .bist, .sec,
    .free] W = true) (st : Nat) : s₀.Keeps W (State.startCommon s st) := by
  unfold State.startCommon
  repeat' first
    | with_reducible assumption
    | with_reducible exact State.Keeps.refl _ _
    | with_reducible apply State.startNext_keeps (hw := Field.sub_trans (by decide) hw)
    | with_reducible apply State.startMeasures_keeps (hw := Field.sub_trans (by decide) hw)
    | with_reducible apply State.startClears_keeps (hw := Field.sub_trans (by decide) hw)
    | with_reducible refine keeps_ite ?_ ?_
    | with_reducible refine keeps_ite_fst ?_ ?_
    | intro _
    | dsimp only
    | split

theorem State.portLive_keeps {W : List Field} {s₀ s : State} (hk : s₀.Keeps W s) (hw : Field.sub [.port] W = true) : s₀.Keeps W
    (State.portLive s) := by
  unfold State.portLive
  repeat' first
    | with_reducible assumption
    | with_reducible exact State.Keeps.refl _ _
    | with_reducible refine keeps_ite ?_ ?_
    | with_reducible refine keeps_ite_fst ?_ ?_
    | intro _
    | dsimp only
    | simp (disch := first | assumption | (with_unfolding_all (intro (x : Field) hx; cases x <;>
        first | exact absurd hx (by decide) | (dsimp only [Field.same]; done) | (dsimp only [Field.same]; exact ⟨rfl, rfl⟩)))) only [keeps_mk hw]
    | split

theorem State.startStep1_keeps {W : List Field} {s₀ s : State} (hk : s₀.Keeps W s) (hw : Field.sub [.regs, .mem, .ev, .port, .dom, .boot,
    .bist, .sec, .free] W = true) : s₀.Keeps W (State.startStep1 s) := by
  unfold State.startStep1
  repeat' first
    | with_reducible assumption
    | with_reducible exact State.Keeps.refl _ _
    | with_reducible apply State.setFld_keeps (hw := Field.sub_trans (by decide) hw)
    | with_reducible apply State.domainsOn_keeps (hw := Field.sub_trans (by decide) hw)
    | with_reducible apply State.startCommon_keeps (hw := Field.sub_trans (by decide) hw)
    | with_reducible apply State.wipe_keeps (hw := Field.sub_trans (by decide) hw)
    | with_reducible apply State.spoilRaise_keeps (hw := Field.sub_trans (by decide) hw)
    | with_reducible apply State.portLive_keeps (hw := Field.sub_trans (by decide) hw)
    | with_reducible refine keeps_ite ?_ ?_
    | with_reducible refine keeps_ite_fst ?_ ?_
    | intro _
    | dsimp only
    | split

theorem State.delayEnd_keeps {W : List Field} {s₀ s : State} (hk : s₀.Keeps W s) (hw : Field.sub [.regs, .mem, .ev, .port, .dom, .boot,
    .bist, .sec, .free] W = true) : s₀.Keeps W (State.delayEnd s) := by
  unfold State.delayEnd
  repeat' first
    | with_reducible assumption
    | with_reducible exact State.Keeps.refl _ _
    | with_reducible apply State.modBoot_keeps (hw := Field.sub_trans (by decide) hw)
    | with_reducible apply State.startStep1_keeps (hw := Field.sub_trans (by decide) hw)
    | with_reducible refine keeps_ite ?_ ?_
    | with_reducible refine keeps_ite_fst ?_ ?_
    | intro _
    | dsimp only
    | split

theorem State.rstReset_keeps {W : List Field} {s₀ s : State} (hk : s₀.Keeps W s) (hw : Field.sub [.regs, .mem, .gals, .halls, .ev, .adm, .otp, .port, .clk, .dom, .pwrCmd, .thermHall, .thermStack, .thermGood, .stop, .slots, .boot, .bist, .cal, .sec, .net, .reqs, .seqNext, .seqRec, .epochs, .istat, .corrs, .free] W = true)
    (spoil : Option (Nat × Nat)) :
    s₀.Keeps W (State.rstReset s spoil) := by
  have hall : ∀ x, W.contains x = true := fun x => Field.mem_of_sub hw (by cases x <;> rfl)
  unfold State.rstReset
  dsimp only
  exact State.refShown_keeps ⟨hk.part, hk.pending, hk.now, hk.otp.trans (State.otpMet_le s spoil),
    fun x => memWf_drop s.mem (fun k => !rstKeepsByte k) (hk.mem x),
    fun _ => ⟨Nat.zero_le _, Nat.le_refl _⟩, fun _ => Nat.zero_le _, fun x hx => by rw [hall x] at hx; cases hx⟩ (Field.sub_trans (by decide) hw)

theorem State.rstFall_keeps {W : List Field} {s₀ s : State} (hk : s₀.Keeps W s) (hw : Field.sub [.regs, .mem, .gals, .halls, .ev, .adm,
    .otp, .port, .clk, .dom, .pwrCmd, .thermHall, .thermStack, .thermGood, .stop, .slots, .boot, .bist, .cal, .sec, .net, .reqs,
    .seqNext, .seqRec, .epochs, .istat, .corrs, .free] W = true) (spoil : Option (Nat × Nat)) : s₀.Keeps W (State.rstFall s spoil) := by
  unfold State.rstFall
  repeat' first
    | with_reducible assumption
    | with_reducible exact State.Keeps.refl _ _
    | with_reducible apply State.modBoot_keeps (hw := Field.sub_trans (by decide) hw)
    | with_reducible apply State.rstReset_keeps (hw := Field.sub_trans (by decide) hw)
    | with_reducible refine keeps_ite ?_ ?_
    | with_reducible refine keeps_ite_fst ?_ ?_
    | intro _
    | dsimp only
    | split

theorem State.rstRise_keeps {W : List Field} {s₀ s : State} (hk : s₀.Keeps W s) (hw : Field.sub [.regs, .mem, .ev, .port, .dom, .boot,
    .bist, .sec, .free] W = true) : s₀.Keeps W (State.rstRise s) := by
  unfold State.rstRise
  repeat' first
    | with_reducible assumption
    | with_reducible exact State.Keeps.refl _ _
    | with_reducible apply State.modBoot_keeps (hw := Field.sub_trans (by decide) hw)
    | with_reducible apply State.startStep1_keeps (hw := Field.sub_trans (by decide) hw)
    | with_reducible refine keeps_ite ?_ ?_
    | with_reducible refine keeps_ite_fst ?_ ?_
    | intro _
    | dsimp only
    | split

theorem State.portRuns_keeps {W : List Field} {s₀ s : State} (hk : s₀.Keeps W s) (hw : Field.sub [.port] W = true) (run : Option (Nat ×
    Nat)) : s₀.Keeps W (State.portRuns s run) := by
  unfold State.portRuns
  repeat' first
    | with_reducible assumption
    | with_reducible exact State.Keeps.refl _ _
    | with_reducible refine keeps_ite ?_ ?_
    | with_reducible refine keeps_ite_fst ?_ ?_
    | intro _
    | dsimp only
    | simp (disch := first | assumption | (with_unfolding_all (intro (x : Field) hx; cases x <;>
        first | exact absurd hx (by decide) | (dsimp only [Field.same]; done) | (dsimp only [Field.same]; exact ⟨rfl, rfl⟩)))) only [keeps_mk hw]
    | split

theorem State.portAbandon_keeps {W : List Field} {s₀ s : State} (hk : s₀.Keeps W s) (hw : Field.sub [.regs, .ev, .port] W = true) :
    s₀.Keeps W (State.portAbandon s) := by
  unfold State.portAbandon
  repeat' first
    | with_reducible assumption
    | with_reducible exact State.Keeps.refl _ _
    | with_reducible apply State.postPkg_keeps (hw := Field.sub_trans (by decide) hw)
    | with_reducible apply State.incFld_keeps (hw := Field.sub_trans (by decide) hw)
    | with_reducible refine keeps_ite ?_ ?_
    | with_reducible refine keeps_ite_fst ?_ ?_
    | intro _
    | dsimp only
    | simp (disch := first | assumption | (with_unfolding_all (intro (x : Field) hx; cases x <;>
        first | exact absurd hx (by decide) | (dsimp only [Field.same]; done) | (dsimp only [Field.same]; exact ⟨rfl, rfl⟩)))) only [keeps_mk hw]
    | split

theorem State.warmStack_keeps {W : List Field} {s₀ s : State} (hk : s₀.Keeps W s) (hw : Field.sub [.regs, .mem, .gals, .halls, .ev, .adm,
    .dom, .pwrCmd, .boot, .bist, .net, .reqs, .seqNext, .free] W = true) (h : Nat) : s₀.Keeps W (State.warmStack s h) := by
  unfold State.warmStack
  repeat' first
    | with_reducible assumption
    | with_reducible exact State.Keeps.refl _ _
    | with_reducible apply State.srBegin_keeps (hw := Field.sub_trans (by decide) hw)
    | with_reducible apply State.stackEntered_keeps (hw := Field.sub_trans (by decide) hw)
    | with_reducible apply State.meePause_keeps (hw := Field.sub_trans (by decide) hw)
    | with_reducible apply State.cacheFlush_keeps (hw := Field.sub_trans (by decide) hw)
    | with_reducible apply State.portFlush_keeps (hw := Field.sub_trans (by decide) hw)
    | with_reducible apply State.wcbDrain_keeps (hw := Field.sub_trans (by decide) hw)
    | with_reducible apply State.modHbm_keeps (hw := Field.sub_trans (by decide) hw)
    | with_reducible refine keeps_ite ?_ ?_
    | with_reducible refine keeps_ite_fst ?_ ?_
    | intro _
    | dsimp only
    | split

theorem State.commitEnds_keeps {W : List Field} {s₀ s : State} (hk : s₀.Keeps W s) (hw : Field.sub [.regs, .mem, .gals, .halls, .ev,
    .adm, .otp, .clk, .boot, .net, .reqs, .seqNext, .free] W = true) : s₀.Keeps W (State.commitEnds s) := by
  unfold State.commitEnds
  repeat' first
    | with_reducible assumption
    | with_reducible exact State.Keeps.refl _ _
    | with_reducible apply State.lcCommit_keeps (hw := Field.sub_trans (by decide) hw)
    | with_reducible refine keeps_ite ?_ ?_
    | with_reducible refine keeps_ite_fst ?_ ?_
    | intro _
    | dsimp only
    | split

theorem State.warmRegs_keeps {W : List Field} {s₀ s : State} (hk : s₀.Keeps W s) (hw : Field.sub [.regs] W = true) : s₀.Keeps W
    (State.warmRegs s) := by
  unfold State.warmRegs
  repeat' first
    | with_reducible assumption
    | with_reducible exact State.Keeps.refl _ _
    | with_reducible apply State.resetRegs_keeps (hw := Field.sub_trans (by decide) hw)
    | with_reducible apply State.eachHall_keeps
    | with_reducible apply State.setFld_keeps (hw := Field.sub_trans (by decide) hw)
    | with_reducible refine keeps_ite ?_ ?_
    | with_reducible refine keeps_ite_fst ?_ ?_
    | with_reducible refine keeps_foldl _ _ ?_ ?_
    | with_reducible refine keeps_foldl_fst _ _ ?_ ?_
    | intro _
    | dsimp only
    | split

theorem State.warmFabric_keeps {W : List Field} {s₀ s : State} (hk : s₀.Keeps W s) (hw : Field.sub [.mem, .gals, .halls, .adm, .clk, .dom, .slots, .net, .reqs, .seqNext, .seqRec, .epochs, .istat, .corrs] W = true)
    :
    s₀.Keeps W (State.warmFabric s) := by
  exact keeps_mk_le hw (List.length_filter_le _ _) (by intro x hx; cases x <;> first | rfl | exact ⟨rfl, rfl⟩ | cases hx)
    (State.loseMem_keeps hk (Field.sub_trans (by decide) hw) _ _)

theorem State.bootWarm_keeps {W : List Field} {s₀ s : State} (hk : s₀.Keeps W s) (hw : Field.sub [.regs, .boot] W = true) (kind : Nat) :
    s₀.Keeps W (State.bootWarm s kind) := by
  unfold State.bootWarm
  repeat' first
    | with_reducible assumption
    | with_reducible exact State.Keeps.refl _ _
    | with_reducible apply State.setFld_keeps (hw := Field.sub_trans (by decide) hw)
    | with_reducible apply State.modBoot_keeps (hw := Field.sub_trans (by decide) hw)
    | with_reducible refine keeps_ite ?_ ?_
    | with_reducible refine keeps_ite_fst ?_ ?_
    | intro _
    | dsimp only
    | split

theorem State.stopOver_keeps {W : List Field} {s₀ s : State} (hk : s₀.Keeps W s) (hw : Field.sub [.stop] W = true) : s₀.Keeps W
    (State.stopOver s) := by
  unfold State.stopOver
  repeat' first
    | with_reducible assumption
    | with_reducible exact State.Keeps.refl _ _
    | with_reducible refine keeps_ite ?_ ?_
    | with_reducible refine keeps_ite_fst ?_ ?_
    | intro _
    | dsimp only
    | simp (disch := first | assumption | (with_unfolding_all (intro (x : Field) hx; cases x <;>
        first | exact absurd hx (by decide) | (dsimp only [Field.same]; done) | (dsimp only [Field.same]; exact ⟨rfl, rfl⟩)))) only [keeps_mk hw]
    | split

theorem State.warmEnds_keeps {W : List Field} {s₀ s : State} (hk : s₀.Keeps W s) (hw : Field.sub [.regs, .mem, .gals, .halls, .ev, .adm,
    .otp, .clk, .dom, .pwrCmd, .stop, .boot, .bist, .cal, .sec, .net, .reqs, .seqNext, .free] W = true) (commit : Bool) : s₀.Keeps W
    (State.warmEnds s commit) := by
  unfold State.warmEnds
  repeat' first
    | with_reducible assumption
    | with_reducible exact State.Keeps.refl _ _
    | with_reducible apply State.secAbandon_keeps (hw := Field.sub_trans (by decide) hw)
    | with_reducible apply State.commitEnds_keeps (hw := Field.sub_trans (by decide) hw)
    | with_reducible apply State.stopOver_keeps (hw := Field.sub_trans (by decide) hw)
    | with_reducible apply State.stoppingOff_keeps (hw := Field.sub_trans (by decide) hw)
    | with_reducible apply State.loadsEnd_keeps (hw := Field.sub_trans (by decide) hw)
    | with_reducible apply State.fabricStop_keeps (hw := Field.sub_trans (by decide) hw)
    | with_reducible apply State.calAbandon_keeps (hw := Field.sub_trans (by decide) hw)
    | with_reducible apply State.bistAbandon_keeps (hw := Field.sub_trans (by decide) hw)
    | with_reducible apply State.pwrCut_keeps (hw := Field.sub_trans (by decide) hw)
    | with_reducible apply State.eachHall_keeps
    | with_reducible apply State.warmStack_keeps (hw := Field.sub_trans (by decide) hw)
    | with_reducible refine keeps_ite ?_ ?_
    | with_reducible refine keeps_ite_fst ?_ ?_
    | intro _
    | dsimp only
    | split

theorem State.warmResets_keeps {W : List Field} {s₀ s : State} (hk : s₀.Keeps W s) (hw : Field.sub [.regs, .mem, .gals, .halls, .adm,
    .clk, .dom, .slots, .sec, .net, .reqs, .seqNext, .seqRec, .epochs, .istat, .corrs] W = true) : s₀.Keeps W (State.warmResets s) := by
  unfold State.warmResets
  repeat' first
    | with_reducible assumption
    | with_reducible exact State.Keeps.refl _ _
    | with_reducible apply State.refShown_keeps (hw := Field.sub_trans (by decide) hw)
    | with_reducible apply State.locksDown_keeps (hw := Field.sub_trans (by decide) hw)
    | with_reducible apply State.domainsOn_keeps (hw := Field.sub_trans (by decide) hw)
    | with_reducible apply State.warmRegs_keeps (hw := Field.sub_trans (by decide) hw)
    | with_reducible apply State.warmFabric_keeps (hw := Field.sub_trans (by decide) hw)
    | with_reducible apply State.mrZero_keeps (hw := Field.sub_trans (by decide) hw)
    | with_reducible refine keeps_ite ?_ ?_
    | with_reducible refine keeps_ite_fst ?_ ?_
    | intro _
    | dsimp only
    | split

theorem State.warmMarks_keeps {W : List Field} {s₀ s : State} (hk : s₀.Keeps W s) (hw : Field.sub [.regs] W = true) (kind : Nat) :
    s₀.Keeps W (State.warmMarks s kind) := by
  unfold State.warmMarks
  repeat' first
    | with_reducible assumption
    | with_reducible exact State.Keeps.refl _ _
    | with_reducible apply State.setBoot_keeps (hw := Field.sub_trans (by decide) hw)
    | with_reducible apply State.incFld_keeps (hw := Field.sub_trans (by decide) hw)
    | with_reducible apply State.setFld_keeps (hw := Field.sub_trans (by decide) hw)
    | with_reducible refine keeps_ite ?_ ?_
    | with_reducible refine keeps_ite_fst ?_ ?_
    | intro _
    | dsimp only
    | split

theorem State.warmReset_keeps {W : List Field} {s₀ s : State} (hk : s₀.Keeps W s) (hw : Field.sub [.regs, .mem, .gals, .halls, .ev, .adm,
    .otp, .port, .clk, .dom, .pwrCmd, .stop, .slots, .boot, .bist, .cal, .sec, .net, .reqs, .seqNext, .seqRec, .epochs, .istat, .corrs,
    .free] W = true) (commit : Bool) (kind : Nat) : s₀.Keeps W (State.warmReset s commit kind) := by
  unfold State.warmReset
  repeat' first
    | with_reducible assumption
    | with_reducible exact State.Keeps.refl _ _
    | with_reducible apply State.warmMarks_keeps (hw := Field.sub_trans (by decide) hw)
    | with_reducible apply State.bootWarm_keeps (hw := Field.sub_trans (by decide) hw)
    | with_reducible apply State.warmResets_keeps (hw := Field.sub_trans (by decide) hw)
    | with_reducible apply State.warmEnds_keeps (hw := Field.sub_trans (by decide) hw)
    | with_reducible apply State.portAbandon_keeps (hw := Field.sub_trans (by decide) hw)
    | with_reducible refine keeps_ite ?_ ?_
    | with_reducible refine keeps_ite_fst ?_ ?_
    | intro _
    | dsimp only
    | split

theorem State.warmStart_keeps {W : List Field} {s₀ s : State} (hk : s₀.Keeps W s) (hw : Field.sub [.regs, .ev, .boot, .bist, .sec, .free]
    W = true) : s₀.Keeps W (State.warmStart s) := by
  unfold State.warmStart
  repeat' first
    | with_reducible assumption
    | with_reducible exact State.Keeps.refl _ _
    | with_reducible apply State.startCommon_keeps (hw := Field.sub_trans (by decide) hw)
    | with_reducible refine keeps_ite ?_ ?_
    | with_reducible refine keeps_ite_fst ?_ ?_
    | intro _
    | dsimp only
    | split

theorem State.progFall_keeps {W : List Field} {s₀ s : State} (hk : s₀.Keeps W s) (hw : Field.sub [.regs, .mem, .gals, .halls, .ev, .adm,
    .otp, .port, .clk, .dom, .pwrCmd, .stop, .slots, .boot, .bist, .cal, .sec, .net, .reqs, .seqNext, .seqRec, .epochs, .istat, .corrs,
    .free] W = true) (commit : Bool) (run : Option (Nat × Nat)) : s₀.Keeps W (State.progFall s commit run) := by
  unfold State.progFall
  repeat' first
    | with_reducible assumption
    | with_reducible exact State.Keeps.refl _ _
    | with_reducible apply State.modBoot_keeps (hw := Field.sub_trans (by decide) hw)
    | with_reducible apply State.warmReset_keeps (hw := Field.sub_trans (by decide) hw)
    | with_reducible apply State.portRuns_keeps (hw := Field.sub_trans (by decide) hw)
    | with_reducible refine keeps_ite ?_ ?_
    | with_reducible refine keeps_ite_fst ?_ ?_
    | intro _
    | dsimp only
    | split

theorem State.progRise_keeps {W : List Field} {s₀ s : State} (hk : s₀.Keeps W s) (hw : Field.sub [.regs, .ev, .boot, .bist, .sec, .free]
    W = true) : s₀.Keeps W (State.progRise s) := by
  unfold State.progRise
  repeat' first
    | with_reducible assumption
    | with_reducible exact State.Keeps.refl _ _
    | with_reducible apply State.modBoot_keeps (hw := Field.sub_trans (by decide) hw)
    | with_reducible apply State.warmStart_keeps (hw := Field.sub_trans (by decide) hw)
    | with_reducible refine keeps_ite ?_ ?_
    | with_reducible refine keeps_ite_fst ?_ ?_
    | intro _
    | dsimp only
    | split

theorem State.reload_keeps {W : List Field} {s₀ s : State} (hk : s₀.Keeps W s) (hw : Field.sub [.regs, .mem, .gals, .halls, .ev, .adm,
    .otp, .port, .clk, .dom, .pwrCmd, .stop, .slots, .boot, .bist, .cal, .sec, .net, .reqs, .seqNext, .seqRec, .epochs, .istat, .corrs,
    .free] W = true) (commit : Bool) : s₀.Keeps W (State.reload s commit) := by
  unfold State.reload
  repeat' first
    | with_reducible assumption
    | with_reducible exact State.Keeps.refl _ _
    | with_reducible apply State.warmReset_keeps (hw := Field.sub_trans (by decide) hw)
    | with_reducible apply State.warmStart_keeps (hw := Field.sub_trans (by decide) hw)
    | with_reducible refine keeps_ite ?_ ?_
    | with_reducible refine keeps_ite_fst ?_ ?_
    | intro _
    | dsimp only
    | split

theorem execPowerOn_keeps {s : State} (oscdly : Fin 4) (ref : Bool) (lref : BitVec 32) : ∃ nx, execPowerOn oscdly ref lref s = .next nx ∧
    s.Keeps [.regs, .clk, .boot] nx := by
  have hw : Field.sub [.regs, .clk, .boot] [.regs, .clk, .boot] = true := by decide
  refine ⟨_, rfl, ?_⟩
  have hk := State.Keeps.refl [.regs, .clk, .boot] s
  repeat' first
    | with_reducible assumption
    | with_reducible exact State.Keeps.refl _ _
    | with_reducible apply State.powerOn_keeps (hw := Field.sub_trans (by decide) hw)
    | with_reducible refine keeps_ite ?_ ?_
    | with_reducible refine keeps_ite_fst ?_ ?_
    | intro _
    | dsimp only
    | split

theorem execStartDelayEnd_keeps {s : State} : ∃ nx, execStartDelayEnd s = .next nx ∧ s.Keeps [.regs, .mem, .ev, .port, .dom, .boot,
    .bist, .sec, .free] nx := by
  have hw : Field.sub [.regs, .mem, .ev, .port, .dom, .boot, .bist, .sec, .free] [.regs, .mem, .ev, .port, .dom, .boot, .bist, .sec,
    .free] = true := by decide
  refine ⟨_, rfl, ?_⟩
  have hk := State.Keeps.refl [.regs, .mem, .ev, .port, .dom, .boot, .bist, .sec, .free] s
  repeat' first
    | with_reducible assumption
    | with_reducible exact State.Keeps.refl _ _
    | with_reducible apply State.delayEnd_keeps (hw := Field.sub_trans (by decide) hw)
    | with_reducible refine keeps_ite ?_ ?_
    | with_reducible refine keeps_ite_fst ?_ ?_
    | intro _
    | dsimp only
    | split

theorem execSupplyFall_keeps {s : State} (spoil : Option (Fin 3 × Fin 128)) : ∃ nx, execSupplyFall spoil s = .next nx ∧ s.Keeps [.regs,
    .mem, .gals, .halls, .ev, .adm, .otp, .port, .clk, .dom, .pwrCmd, .thermHall, .thermStack, .thermGood, .stop, .slots, .boot, .bist,
    .cal, .sec, .net, .reqs, .seqNext, .seqRec, .epochs, .istat, .corrs, .free] nx := by
  have hw : Field.sub [.regs, .mem, .gals, .halls, .ev, .adm, .otp, .port, .clk, .dom, .pwrCmd, .thermHall, .thermStack, .thermGood,
    .stop, .slots, .boot, .bist, .cal, .sec, .net, .reqs, .seqNext, .seqRec, .epochs, .istat, .corrs, .free] [.regs, .mem, .gals, .halls,
    .ev, .adm, .otp, .port, .clk, .dom, .pwrCmd, .thermHall, .thermStack, .thermGood, .stop, .slots, .boot, .bist, .cal, .sec, .net,
    .reqs, .seqNext, .seqRec, .epochs, .istat, .corrs, .free] = true := by decide
  refine ⟨_, rfl, ?_⟩
  have hk := State.Keeps.refl [.regs, .mem, .gals, .halls, .ev, .adm, .otp, .port, .clk, .dom, .pwrCmd, .thermHall, .thermStack,
    .thermGood, .stop, .slots, .boot, .bist, .cal, .sec, .net, .reqs, .seqNext, .seqRec, .epochs, .istat, .corrs, .free] s
  repeat' first
    | with_reducible assumption
    | with_reducible exact State.Keeps.refl _ _
    | with_reducible apply State.supplyFall_keeps (hw := Field.sub_trans (by decide) hw)
    | with_reducible refine keeps_ite ?_ ?_
    | with_reducible refine keeps_ite_fst ?_ ?_
    | intro _
    | dsimp only
    | split

theorem execRstN_keeps {s : State} (spoil : Option (Fin 3 × Fin 128)) : ∃ nx, execRstN spoil s = .next nx ∧ s.Keeps [.regs, .mem, .gals,
    .halls, .ev, .adm, .otp, .port, .clk, .dom, .pwrCmd, .thermHall, .thermStack, .thermGood, .stop, .slots, .boot, .bist, .cal, .sec,
    .net, .reqs, .seqNext, .seqRec, .epochs, .istat, .corrs, .free] nx := by
  have hw : Field.sub [.regs, .mem, .gals, .halls, .ev, .adm, .otp, .port, .clk, .dom, .pwrCmd, .thermHall, .thermStack, .thermGood,
    .stop, .slots, .boot, .bist, .cal, .sec, .net, .reqs, .seqNext, .seqRec, .epochs, .istat, .corrs, .free] [.regs, .mem, .gals, .halls,
    .ev, .adm, .otp, .port, .clk, .dom, .pwrCmd, .thermHall, .thermStack, .thermGood, .stop, .slots, .boot, .bist, .cal, .sec, .net,
    .reqs, .seqNext, .seqRec, .epochs, .istat, .corrs, .free] = true := by decide
  refine ⟨_, rfl, ?_⟩
  have hk := State.Keeps.refl [.regs, .mem, .gals, .halls, .ev, .adm, .otp, .port, .clk, .dom, .pwrCmd, .thermHall, .thermStack,
    .thermGood, .stop, .slots, .boot, .bist, .cal, .sec, .net, .reqs, .seqNext, .seqRec, .epochs, .istat, .corrs, .free] s
  repeat' first
    | with_reducible assumption
    | with_reducible exact State.Keeps.refl _ _
    | with_reducible apply State.rstFall_keeps (hw := Field.sub_trans (by decide) hw)
    | with_reducible refine keeps_ite ?_ ?_
    | with_reducible refine keeps_ite_fst ?_ ?_
    | intro _
    | dsimp only
    | split

theorem execRstNRise_keeps {s : State} : ∃ nx, execRstNRise s = .next nx ∧ s.Keeps [.regs, .mem, .ev, .port, .dom, .boot, .bist, .sec,
    .free] nx := by
  have hw : Field.sub [.regs, .mem, .ev, .port, .dom, .boot, .bist, .sec, .free] [.regs, .mem, .ev, .port, .dom, .boot, .bist, .sec,
    .free] = true := by decide
  refine ⟨_, rfl, ?_⟩
  have hk := State.Keeps.refl [.regs, .mem, .ev, .port, .dom, .boot, .bist, .sec, .free] s
  repeat' first
    | with_reducible assumption
    | with_reducible exact State.Keeps.refl _ _
    | with_reducible apply State.rstRise_keeps (hw := Field.sub_trans (by decide) hw)
    | with_reducible refine keeps_ite ?_ ?_
    | with_reducible refine keeps_ite_fst ?_ ?_
    | intro _
    | dsimp only
    | split

theorem execProgN_keeps {s : State} (commit : Bool) (run : Option (Byte × Byte)) : ∃ nx, execProgN commit run s = .next nx ∧ s.Keeps
    [.regs, .mem, .gals, .halls, .ev, .adm, .otp, .port, .clk, .dom, .pwrCmd, .stop, .slots, .boot, .bist, .cal, .sec, .net, .reqs,
    .seqNext, .seqRec, .epochs, .istat, .corrs, .free] nx := by
  have hw : Field.sub [.regs, .mem, .gals, .halls, .ev, .adm, .otp, .port, .clk, .dom, .pwrCmd, .stop, .slots, .boot, .bist, .cal, .sec,
    .net, .reqs, .seqNext, .seqRec, .epochs, .istat, .corrs, .free] [.regs, .mem, .gals, .halls, .ev, .adm, .otp, .port, .clk, .dom,
    .pwrCmd, .stop, .slots, .boot, .bist, .cal, .sec, .net, .reqs, .seqNext, .seqRec, .epochs, .istat, .corrs, .free] = true := by decide
  refine ⟨_, rfl, ?_⟩
  have hk := State.Keeps.refl [.regs, .mem, .gals, .halls, .ev, .adm, .otp, .port, .clk, .dom, .pwrCmd, .stop, .slots, .boot, .bist,
    .cal, .sec, .net, .reqs, .seqNext, .seqRec, .epochs, .istat, .corrs, .free] s
  repeat' first
    | with_reducible assumption
    | with_reducible exact State.Keeps.refl _ _
    | with_reducible apply State.progFall_keeps (hw := Field.sub_trans (by decide) hw)
    | with_reducible refine keeps_ite ?_ ?_
    | with_reducible refine keeps_ite_fst ?_ ?_
    | intro _
    | dsimp only
    | split

theorem execProgNRise_keeps {s : State} : ∃ nx, execProgNRise s = .next nx ∧ s.Keeps [.regs, .ev, .boot, .bist, .sec, .free] nx := by
  have hw : Field.sub [.regs, .ev, .boot, .bist, .sec, .free] [.regs, .ev, .boot, .bist, .sec, .free] = true := by decide
  refine ⟨_, rfl, ?_⟩
  have hk := State.Keeps.refl [.regs, .ev, .boot, .bist, .sec, .free] s
  repeat' first
    | with_reducible assumption
    | with_reducible exact State.Keeps.refl _ _
    | with_reducible apply State.progRise_keeps (hw := Field.sub_trans (by decide) hw)
    | with_reducible refine keeps_ite ?_ ?_
    | with_reducible refine keeps_ite_fst ?_ ?_
    | intro _
    | dsimp only
    | split

end Sys2Proof.Machine
end

