-- ==== Sys2Proof/Laws/KeepsPort.lean ====
section
/-!
SUPPORT. Laws/KeepsPort.lean: the operations of Machine/Port.lean keep State.Keeps.
-/
namespace Sys2Proof.Machine
open Sys2Proof

theorem State.portReject_keeps {W : List Field} {s₀ s : State} (hk : s₀.Keeps W s) (hw : Field.sub [.regs, .port] W = true) (err : Nat) :
    s₀.Keeps W (State.portReject s err) := by
  unfold State.portReject
  repeat' first
    | with_reducible assumption
    | with_reducible exact State.Keeps.refl _ _
    | with_reducible apply State.incFld_keeps (hw := Field.sub_trans (by decide) hw)
    | with_reducible refine keeps_ite ?_ ?_
    | with_reducible refine keeps_ite_fst ?_ ?_
    | intro _
    | dsimp only
    | simp (disch := first | assumption | (with_unfolding_all (intro (x : Field) hx; cases x <;>
        first | exact absurd hx (by decide) | (dsimp only [Field.same]; done) | (dsimp only [Field.same]; exact ⟨rfl, rfl⟩)))) only [keeps_mk hw]
    | split

theorem State.portAccept_keeps {W : List Field} {s₀ s : State} (hk : s₀.Keeps W s) (hw : Field.sub [.port] W = true) (op : Nat) (c :
    PortCmd) : s₀.Keeps W (State.portAccept s op c) := by
  unfold State.portAccept
  repeat' first
    | with_reducible assumption
    | with_reducible exact State.Keeps.refl _ _
    | with_reducible refine keeps_ite ?_ ?_
    | with_reducible refine keeps_ite_fst ?_ ?_
    | intro _
    | dsimp only
    | simp (disch := first | assumption | (with_unfolding_all (intro (x : Field) hx; cases x <;>
        first | exact absurd hx (by decide) | (dsimp only [Field.same]; done) | (dsimp only [Field.same]; exact ⟨rfl, rfl⟩)))) only [keeps_mk hw]
    | split

theorem State.portEnd_keeps {W : List Field} {s₀ s : State} (hk : s₀.Keeps W s) (hw : Field.sub [.port] W = true) (c : PortCmd) (e :
    PortEnd) : s₀.Keeps W (State.portEnd s c e) := by
  unfold State.portEnd
  repeat' first
    | with_reducible assumption
    | with_reducible exact State.Keeps.refl _ _
    | with_reducible refine keeps_ite ?_ ?_
    | with_reducible refine keeps_ite_fst ?_ ?_
    | intro _
    | dsimp only
    | simp (disch := first | assumption | (with_unfolding_all (intro (x : Field) hx; cases x <;>
        first | exact absurd hx (by decide) | (dsimp only [Field.same]; done) | (dsimp only [Field.same]; exact ⟨rfl, rfl⟩)))) only [keeps_mk hw]
    | split

theorem State.portCheckFail_keeps {W : List Field} {s₀ s : State} (hk : s₀.Keeps W s) (hw : Field.sub [.regs, .ev, .port] W = true) (kind
    : Nat) (op : Nat) (c : PortCmd) : s₀.Keeps W (State.portCheckFail s kind op c) := by
  unfold State.portCheckFail
  repeat' first
    | with_reducible assumption
    | with_reducible exact State.Keeps.refl _ _
    | with_reducible apply State.incFld_keeps (hw := Field.sub_trans (by decide) hw)
    | with_reducible apply State.postLim_keeps (hw := Field.sub_trans (by decide) hw)
    | with_reducible apply State.portEnd_keeps (hw := Field.sub_trans (by decide) hw)
    | with_reducible refine keeps_ite ?_ ?_
    | with_reducible refine keeps_ite_fst ?_ ?_
    | intro _
    | dsimp only
    | split

theorem State.portCommand_keeps {W : List Field} {s₀ s : State} (hk : s₀.Keeps W s) (hw : Field.sub [.regs, .ev, .port] W = true)
    (op : Nat) (hasData : Bool) (c : PortCmd) (run : State → State × PortEnd)
    (hf : ∀ u, s₀.Keeps W u → s₀.Keeps W (run u).1) :
    s₀.Keeps W (State.portCommand s op hasData c run) := by
  unfold State.portCommand
  refine keeps_ite hk (keeps_ite (State.portReject_keeps hk (Field.sub_trans (by decide) hw) _) (keeps_ite ?_ (keeps_ite (State.portReject_keeps hk (Field.sub_trans (by decide) hw) _) ?_)))
  · exact State.portCheckFail_keeps (State.portAccept_keeps hk (Field.sub_trans (by decide) hw) op c) (Field.sub_trans (by decide) hw) 0 op c
  · have h1 := State.portAccept_keeps hk (Field.sub_trans (by decide) hw) op c
    exact keeps_ite (State.portCheckFail_keeps h1 (Field.sub_trans (by decide) hw) 1 op c) (State.portEnd_keeps (hf _ h1) (Field.sub_trans (by decide) hw) c _)

theorem State.wordAsked_keeps {W : List Field} {s₀ s : State} (hk : s₀.Keeps W s) (hw : Field.sub [.seqNext, .seqRec, .istat] W = true)
    (a : Nat) (write : Bool) (lost : Bool) : s₀.Keeps W (State.wordAsked s a write lost) := by
  unfold State.wordAsked
  repeat' first
    | with_reducible assumption
    | with_reducible exact State.Keeps.refl _ _
    | with_reducible apply State.istatAdd_keeps (hw := Field.sub_trans (by decide) hw)
    | with_reducible apply State.numbered_keeps (hw := Field.sub_trans (by decide) hw)
    | with_reducible apply State.passes_keeps (hw := Field.sub_trans (by decide) hw)
    | with_reducible refine keeps_ite ?_ ?_
    | with_reducible refine keeps_ite_fst ?_ ?_
    | intro _
    | dsimp only
    | split

theorem State.wordAnswered_keeps {W : List Field} {s₀ s : State} (hk : s₀.Keeps W s) (hw : Field.sub [.seqNext, .seqRec, .istat] W =
    true) (a : Nat) (write : Bool) (st : OSt) : s₀.Keeps W (State.wordAnswered s a write st) := by
  unfold State.wordAnswered
  repeat' first
    | with_reducible assumption
    | with_reducible exact State.Keeps.refl _ _
    | with_reducible apply State.istatAdd_keeps (hw := Field.sub_trans (by decide) hw)
    | with_reducible apply State.passes_keeps (hw := Field.sub_trans (by decide) hw)
    | with_reducible refine keeps_ite ?_ ?_
    | with_reducible refine keeps_ite_fst ?_ ?_
    | intro _
    | dsimp only
    | split

theorem State.readWords_keeps {W : List Field} {s₀ s : State} (hk : s₀.Keeps W s) (hw : Field.sub [.regs, .halls, .ev, .clk, .seqNext,
    .seqRec, .istat] W = true) (a : Nat) (x2 : Nat) : s₀.Keeps W (State.readWords s a x2).1 := by
  induction x2 generalizing s a with
  | zero =>
    unfold State.readWords
    repeat' first
      | with_reducible assumption
      | with_reducible exact State.Keeps.refl _ _
      | with_reducible apply State.readReg_keeps (hw := Field.sub_trans (by decide) hw)
      | with_reducible apply State.wordAsked_keeps (hw := Field.sub_trans (by decide) hw)
      | with_reducible apply State.wordAnswered_keeps (hw := Field.sub_trans (by decide) hw)
      | with_reducible refine keeps_ite ?_ ?_
      | with_reducible refine keeps_ite_fst ?_ ?_
      | intro _
      | dsimp only
      | split
  | succ n ih =>
    unfold State.readWords
    repeat' first
      | with_reducible assumption
      | with_reducible exact State.Keeps.refl _ _
      | with_reducible apply ih
      | with_reducible apply State.readReg_keeps (hw := Field.sub_trans (by decide) hw)
      | with_reducible apply State.wordAsked_keeps (hw := Field.sub_trans (by decide) hw)
      | with_reducible apply State.wordAnswered_keeps (hw := Field.sub_trans (by decide) hw)
      | with_reducible refine keeps_ite ?_ ?_
      | with_reducible refine keeps_ite_fst ?_ ?_
      | intro _
      | dsimp only
      | split

theorem State.writeWords_keeps {W : List Field} {s₀ s : State} (hk : s₀.Keeps W s) (hw : Field.sub [.regs, .mem, .gals, .halls, .ev, .adm, .clk, .dom, .pwrCmd, .slots, .boot, .bist, .cal, .sec, .net, .reqs, .seqNext, .seqRec, .istat, .corrs, .free] W = true)
    (a : Nat) (l : List Byte) :
    s₀.Keeps W (State.writeWords s a l).1 := by
  fun_induction State.writeWords s a l with
  | case1 => exact State.wordAsked_keeps hk (Field.sub_trans (by decide) hw) _ _ _
  | case2 => exact State.wordAnswered_keeps (State.writeReg_keeps (State.wordAsked_keeps hk (Field.sub_trans (by decide) hw) _ _ _) (Field.sub_trans (by decide) hw) _ _ _) (Field.sub_trans (by decide) hw) _ _ _
  | case3 s a b0 b1 b2 b3 r hl x t hx ih =>
    exact ih (State.wordAnswered_keeps (State.writeReg_keeps (State.wordAsked_keeps hk (Field.sub_trans (by decide) hw) _ _ _) (Field.sub_trans (by decide) hw) _ _ _) (Field.sub_trans (by decide) hw) _ _ _)
  | case4 => exact hk

theorem State.rdreg_keeps {W : List Field} {s₀ s : State} (hk : s₀.Keeps W s) (hw : Field.sub [.regs, .halls, .ev, .clk, .seqNext,
    .seqRec, .istat] W = true) (c : PortCmd) : s₀.Keeps W (State.rdreg s c).1 := by
  unfold State.rdreg
  repeat' first
    | with_reducible assumption
    | with_reducible exact State.Keeps.refl _ _
    | with_reducible apply State.readWords_keeps (hw := Field.sub_trans (by decide) hw)
    | with_reducible refine keeps_ite ?_ ?_
    | with_reducible refine keeps_ite_fst ?_ ?_
    | intro _
    | dsimp only
    | split

theorem State.wrreg_keeps {W : List Field} {s₀ s : State} (hk : s₀.Keeps W s) (hw : Field.sub [.regs, .mem, .gals, .halls, .ev, .adm,
    .clk, .dom, .pwrCmd, .slots, .boot, .bist, .cal, .sec, .net, .reqs, .seqNext, .seqRec, .istat, .corrs, .free] W = true) (c : PortCmd)
    : s₀.Keeps W (State.wrreg s c).1 := by
  unfold State.wrreg
  repeat' first
    | with_reducible assumption
    | with_reducible exact State.Keeps.refl _ _
    | with_reducible apply State.writeWords_keeps (hw := Field.sub_trans (by decide) hw)
    | with_reducible refine keeps_ite ?_ ?_
    | with_reducible refine keeps_ite_fst ?_ ?_
    | intro _
    | dsimp only
    | split

theorem State.evTake_keeps {W : List Field} {s₀ s : State} (hk : s₀.Keeps W s) (hw : Field.sub [.ev] W = true)
    (ack n : Nat) :
    s₀.Keeps W (State.evTake s ack n).1 := by
  refine hk.evTo (Field.mem_of_sub hw (by decide)) _ (fun h => ⟨?_, Nat.min_le_right _ _⟩)
  have := h.1
  simp only [List.length_drop]
  omega

theorem State.evread_keeps {W : List Field} {s₀ s : State} (hk : s₀.Keeps W s) (hw : Field.sub [.ev] W = true) (c : PortCmd) : s₀.Keeps W
    (State.evread s c).1 := by
  unfold State.evread
  repeat' first
    | with_reducible assumption
    | with_reducible exact State.Keeps.refl _ _
    | with_reducible apply State.evTake_keeps (hw := Field.sub_trans (by decide) hw)
    | with_reducible refine keeps_ite ?_ ?_
    | with_reducible refine keeps_ite_fst ?_ ?_
    | intro _
    | dsimp only
    | split

theorem State.bulkrd_keeps {W : List Field} {s₀ s : State} (hk : s₀.Keeps W s) (hw : Field.sub [] W = true) (c : PortCmd) (st : Nat) :
    s₀.Keeps W (State.bulkrd s c st).1 := by
  unfold State.bulkrd
  repeat' first
    | with_reducible assumption
    | with_reducible exact State.Keeps.refl _ _
    | with_reducible refine keeps_ite ?_ ?_
    | with_reducible refine keeps_ite_fst ?_ ?_
    | intro _
    | dsimp only
    | split

theorem State.reloadCommand_keeps {W : List Field} {s₀ s : State} (hk : s₀.Keeps W s) (hw : Field.sub [] W = true) (c : PortCmd) :
    s₀.Keeps W (State.reloadCommand s c).1 := by
  unfold State.reloadCommand
  repeat' first
    | with_reducible assumption
    | with_reducible exact State.Keeps.refl _ _
    | with_reducible refine keeps_ite ?_ ?_
    | with_reducible refine keeps_ite_fst ?_ ?_
    | intro _
    | dsimp only
    | split

theorem State.stopCommand_keeps {W : List Field} {s₀ s : State} (hk : s₀.Keeps W s) (hw : Field.sub [] W = true) (c : PortCmd) : s₀.Keeps
    W (State.stopCommand s c).1 := by
  unfold State.stopCommand
  repeat' first
    | with_reducible assumption
    | with_reducible exact State.Keeps.refl _ _
    | with_reducible refine keeps_ite ?_ ?_
    | with_reducible refine keeps_ite_fst ?_ ?_
    | intro _
    | dsimp only
    | split

theorem State.attestCommand_keeps {W : List Field} {s₀ s : State} (hk : s₀.Keeps W s) (hw : Field.sub [.regs, .sec] W = true) (c :
    PortCmd) : s₀.Keeps W (State.attestCommand s c).1 := by
  unfold State.attestCommand
  repeat' first
    | with_reducible assumption
    | with_reducible exact State.Keeps.refl _ _
    | with_reducible apply State.setReg_keeps (hw := Field.sub_trans (by decide) hw)
    | with_reducible apply State.attestStart_keeps (hw := Field.sub_trans (by decide) hw)
    | with_reducible refine keeps_ite ?_ ?_
    | with_reducible refine keeps_ite_fst ?_ ?_
    | with_reducible refine keeps_foldl _ _ ?_ ?_
    | with_reducible refine keeps_foldl_fst _ _ ?_ ?_
    | intro _
    | dsimp only
    | split

theorem State.portDrive_keeps {W : List Field} {s₀ s : State} (hk : s₀.Keeps W s) (hw : Field.sub [.port] W = true) (l : List Byte) :
    s₀.Keeps W (State.portDrive s l) := by
  unfold State.portDrive
  repeat' first
    | with_reducible assumption
    | with_reducible exact State.Keeps.refl _ _
    | with_reducible refine keeps_ite ?_ ?_
    | with_reducible refine keeps_ite_fst ?_ ?_
    | intro _
    | dsimp only
    | simp (disch := first | assumption | (with_unfolding_all (intro (x : Field) hx; cases x <;>
        first | exact absurd hx (by decide) | (dsimp only [Field.same]; done) | (dsimp only [Field.same]; exact ⟨rfl, rfl⟩)))) only [keeps_mk hw]
    | split

theorem State.badXact_keeps {W : List Field} {s₀ s : State} (hk : s₀.Keeps W s) (hw : Field.sub [.regs, .ev, .port] W = true) (b :
    BadXact) : s₀.Keeps W (State.badXact s b) := by
  unfold State.badXact
  repeat' first
    | with_reducible assumption
    | with_reducible exact State.Keeps.refl _ _
    | with_reducible apply State.portReject_keeps (hw := Field.sub_trans (by decide) hw)
    | with_reducible apply State.portCommand_keeps (hw := Field.sub_trans (by decide) hw)
    | with_reducible refine keeps_ite ?_ ?_
    | with_reducible refine keeps_ite_fst ?_ ?_
    | intro _
    | dsimp only
    | split

theorem execRdreg_keeps {s : State} (c : PortCmd) : ∃ nx, execRdreg c s = .next nx ∧ s.Keeps [.regs, .halls, .ev, .port, .clk, .seqNext,
    .seqRec, .istat] nx := by
  have hw : Field.sub [.regs, .halls, .ev, .port, .clk, .seqNext, .seqRec, .istat] [.regs, .halls, .ev, .port, .clk, .seqNext, .seqRec,
    .istat] = true := by decide
  refine ⟨_, rfl, ?_⟩
  have hk := State.Keeps.refl [.regs, .halls, .ev, .port, .clk, .seqNext, .seqRec, .istat] s
  repeat' first
    | with_reducible assumption
    | with_reducible exact State.Keeps.refl _ _
    | with_reducible apply State.portCommand_keeps (hw := Field.sub_trans (by decide) hw)
    | with_reducible apply State.rdreg_keeps (hw := Field.sub_trans (by decide) hw)
    | with_reducible refine keeps_ite ?_ ?_
    | with_reducible refine keeps_ite_fst ?_ ?_
    | intro _
    | dsimp only
    | split

theorem execWrreg_keeps {s : State} (c : PortCmd) : ∃ nx, execWrreg c s = .next nx ∧ s.Keeps [.regs, .mem, .gals, .halls, .ev, .adm,
    .port, .clk, .dom, .pwrCmd, .slots, .boot, .bist, .cal, .sec, .net, .reqs, .seqNext, .seqRec, .istat, .corrs, .free] nx := by
  have hw : Field.sub [.regs, .mem, .gals, .halls, .ev, .adm, .port, .clk, .dom, .pwrCmd, .slots, .boot, .bist, .cal, .sec, .net, .reqs,
    .seqNext, .seqRec, .istat, .corrs, .free] [.regs, .mem, .gals, .halls, .ev, .adm, .port, .clk, .dom, .pwrCmd, .slots, .boot, .bist,
    .cal, .sec, .net, .reqs, .seqNext, .seqRec, .istat, .corrs, .free] = true := by decide
  refine ⟨_, rfl, ?_⟩
  have hk := State.Keeps.refl [.regs, .mem, .gals, .halls, .ev, .adm, .port, .clk, .dom, .pwrCmd, .slots, .boot, .bist, .cal, .sec, .net,
    .reqs, .seqNext, .seqRec, .istat, .corrs, .free] s
  repeat' first
    | with_reducible assumption
    | with_reducible exact State.Keeps.refl _ _
    | with_reducible apply State.portCommand_keeps (hw := Field.sub_trans (by decide) hw)
    | with_reducible apply State.wrreg_keeps (hw := Field.sub_trans (by decide) hw)
    | with_reducible refine keeps_ite ?_ ?_
    | with_reducible refine keeps_ite_fst ?_ ?_
    | intro _
    | dsimp only
    | split

theorem execEvread_keeps {s : State} (c : PortCmd) : ∃ nx, execEvread c s = .next nx ∧ s.Keeps [.regs, .ev, .port] nx := by
  have hw : Field.sub [.regs, .ev, .port] [.regs, .ev, .port] = true := by decide
  refine ⟨_, rfl, ?_⟩
  have hk := State.Keeps.refl [.regs, .ev, .port] s
  repeat' first
    | with_reducible assumption
    | with_reducible exact State.Keeps.refl _ _
    | with_reducible apply State.portCommand_keeps (hw := Field.sub_trans (by decide) hw)
    | with_reducible apply State.evread_keeps (hw := Field.sub_trans (by decide) hw)
    | with_reducible refine keeps_ite ?_ ?_
    | with_reducible refine keeps_ite_fst ?_ ?_
    | intro _
    | dsimp only
    | split

theorem execStatus_keeps {s : State} : ∃ nx, execStatus s = .next nx ∧ s.Keeps [.port] nx := by
  have hw : Field.sub [.port] [.port] = true := by decide
  refine ⟨_, rfl, ?_⟩
  have hk := State.Keeps.refl [.port] s
  repeat' first
    | with_reducible assumption
    | with_reducible exact State.Keeps.refl _ _
    | with_reducible apply State.portDrive_keeps (hw := Field.sub_trans (by decide) hw)
    | with_reducible refine keeps_ite ?_ ?_
    | with_reducible refine keeps_ite_fst ?_ ?_
    | intro _
    | dsimp only
    | split

theorem execGetrsp_keeps {s : State} : ∃ nx, execGetrsp s = .next nx ∧ s.Keeps [.port] nx := by
  have hw : Field.sub [.port] [.port] = true := by decide
  refine ⟨_, rfl, ?_⟩
  have hk := State.Keeps.refl [.port] s
  repeat' first
    | with_reducible assumption
    | with_reducible exact State.Keeps.refl _ _
    | with_reducible apply State.portDrive_keeps (hw := Field.sub_trans (by decide) hw)
    | with_reducible refine keeps_ite ?_ ?_
    | with_reducible refine keeps_ite_fst ?_ ?_
    | intro _
    | dsimp only
    | split

theorem execReload_keeps {s : State} (c : PortCmd) (commit : Bool) : ∃ nx, execReload c commit s = .next nx ∧ s.Keeps [.regs, .mem,
    .gals, .halls, .ev, .adm, .otp, .port, .clk, .dom, .pwrCmd, .stop, .slots, .boot, .bist, .cal, .sec, .net, .reqs, .seqNext, .seqRec,
    .epochs, .istat, .corrs, .free] nx := by
  have hw : Field.sub [.regs, .mem, .gals, .halls, .ev, .adm, .otp, .port, .clk, .dom, .pwrCmd, .stop, .slots, .boot, .bist, .cal, .sec,
    .net, .reqs, .seqNext, .seqRec, .epochs, .istat, .corrs, .free] [.regs, .mem, .gals, .halls, .ev, .adm, .otp, .port, .clk, .dom,
    .pwrCmd, .stop, .slots, .boot, .bist, .cal, .sec, .net, .reqs, .seqNext, .seqRec, .epochs, .istat, .corrs, .free] = true := by decide
  refine ⟨_, rfl, ?_⟩
  have hk := State.Keeps.refl [.regs, .mem, .gals, .halls, .ev, .adm, .otp, .port, .clk, .dom, .pwrCmd, .stop, .slots, .boot, .bist,
    .cal, .sec, .net, .reqs, .seqNext, .seqRec, .epochs, .istat, .corrs, .free] s
  repeat' first
    | with_reducible assumption
    | with_reducible exact State.Keeps.refl _ _
    | with_reducible apply State.portCommand_keeps (hw := Field.sub_trans (by decide) hw)
    | with_reducible apply State.reloadCommand_keeps (hw := Field.sub_trans (by decide) hw)
    | with_reducible apply State.reload_keeps (hw := Field.sub_trans (by decide) hw)
    | with_reducible refine keeps_ite ?_ ?_
    | with_reducible refine keeps_ite_fst ?_ ?_
    | intro _
    | dsimp only
    | split

theorem execStop_keeps {s : State} (c : PortCmd) : ∃ nx, execStop c s = .next nx ∧ s.Keeps [.regs, .mem, .gals, .halls, .ev, .adm, .port,
    .dom, .pwrCmd, .stop, .boot, .bist, .net, .reqs, .seqNext, .free] nx := by
  have hw : Field.sub [.regs, .mem, .gals, .halls, .ev, .adm, .port, .dom, .pwrCmd, .stop, .boot, .bist, .net, .reqs, .seqNext, .free]
    [.regs, .mem, .gals, .halls, .ev, .adm, .port, .dom, .pwrCmd, .stop, .boot, .bist, .net, .reqs, .seqNext, .free] = true := by decide
  refine ⟨_, rfl, ?_⟩
  have hk := State.Keeps.refl [.regs, .mem, .gals, .halls, .ev, .adm, .port, .dom, .pwrCmd, .stop, .boot, .bist, .net, .reqs, .seqNext,
    .free] s
  repeat' first
    | with_reducible assumption
    | with_reducible exact State.Keeps.refl _ _
    | with_reducible apply State.portCommand_keeps (hw := Field.sub_trans (by decide) hw)
    | with_reducible apply State.stopCommand_keeps (hw := Field.sub_trans (by decide) hw)
    | with_reducible apply State.orderlyStop_keeps (hw := Field.sub_trans (by decide) hw)
    | with_reducible refine keeps_ite ?_ ?_
    | with_reducible refine keeps_ite_fst ?_ ?_
    | intro _
    | dsimp only
    | split

theorem execAttest_keeps {s : State} (c : PortCmd) : ∃ nx, execAttest c s = .next nx ∧ s.Keeps [.regs, .ev, .port, .sec] nx := by
  have hw : Field.sub [.regs, .ev, .port, .sec] [.regs, .ev, .port, .sec] = true := by decide
  refine ⟨_, rfl, ?_⟩
  have hk := State.Keeps.refl [.regs, .ev, .port, .sec] s
  repeat' first
    | with_reducible assumption
    | with_reducible exact State.Keeps.refl _ _
    | with_reducible apply State.portCommand_keeps (hw := Field.sub_trans (by decide) hw)
    | with_reducible apply State.attestCommand_keeps (hw := Field.sub_trans (by decide) hw)
    | with_reducible refine keeps_ite ?_ ?_
    | with_reducible refine keeps_ite_fst ?_ ?_
    | intro _
    | dsimp only
    | split

theorem execBulkrd_keeps {s : State} (c : PortCmd) (st : Fin 8) : ∃ nx, execBulkrd c st s = .next nx ∧ s.Keeps [.regs, .ev, .port] nx :=
    by
  have hw : Field.sub [.regs, .ev, .port] [.regs, .ev, .port] = true := by decide
  refine ⟨_, rfl, ?_⟩
  have hk := State.Keeps.refl [.regs, .ev, .port] s
  repeat' first
    | with_reducible assumption
    | with_reducible exact State.Keeps.refl _ _
    | with_reducible apply State.portCommand_keeps (hw := Field.sub_trans (by decide) hw)
    | with_reducible apply State.bulkrd_keeps (hw := Field.sub_trans (by decide) hw)
    | with_reducible refine keeps_ite ?_ ?_
    | with_reducible refine keeps_ite_fst ?_ ?_
    | intro _
    | dsimp only
    | split

theorem execMalformedTransaction_keeps {s : State} (b : BadXact) : ∃ nx, execMalformedTransaction b s = .next nx ∧ s.Keeps [.regs, .ev,
    .port] nx := by
  have hw : Field.sub [.regs, .ev, .port] [.regs, .ev, .port] = true := by decide
  refine ⟨_, rfl, ?_⟩
  have hk := State.Keeps.refl [.regs, .ev, .port] s
  repeat' first
    | with_reducible assumption
    | with_reducible exact State.Keeps.refl _ _
    | with_reducible apply State.badXact_keeps (hw := Field.sub_trans (by decide) hw)
    | with_reducible refine keeps_ite ?_ ?_
    | with_reducible refine keeps_ite_fst ?_ ?_
    | intro _
    | dsimp only
    | split

end Sys2Proof.Machine
end

