-- ==== Sys2Proof/Laws/RegMap.lean ====
section
/-!
SUPPORT. Laws/RegMap.lean: where the registers of a gallery lie, for any gallery (R32, R35), and what its stored slots read at reset.
-/
namespace Sys2Proof

theorem galSplit (G o : Nat) (hG : G < 256) (ho : o < 65536) (h4 : o % 4 = 0) :
    (galBase G + o) / 4 * 4 = galBase G + o ∧ (galBase G + o - 268435456) % 16777216 = 1048576 + G % 32 * 65536 + o ∧
    (galBase G + o - 268435456) / 16777216 = G / 32 ∧ 268435456 ≤ galBase G + o ∧ galBase G + o < 402653184 ∧
    32 * (G / 32) + (1048576 + G % 32 * 65536 + o - 1048576) / 65536 = G ∧ (1048576 + G % 32 * 65536 + o) % 65536 = o := by
  unfold galBase; omega

theorem locate_gal (G o : Nat) (hG : G < 256) (ho : o < 65536) (h4 : o % 4 = 0) : locate (galBase G + o) = some ⟨.gal, G, o⟩ := by
  obtain ⟨e1, e2, e3, e4, e5, e6, e7⟩ := galSplit G o hG ho h4
  unfold locate
  generalize galBase G + o = a at *
  dsimp only
  rw [e1, e2, e3, if_neg (by omega), if_pos ⟨e4, e5⟩, if_neg (by omega), if_pos (by omega), e6, e7]

theorem regAt_some (a : Nat) (l : Loc) (h : locate a = some l) :
    regAt a = (findRow (rowsOf l.block) l.off).map (fun p => (l, p.1, p.2)) := by
  unfold regAt; rw [h]

theorem resetWord_some (a : Nat) (l : Loc) (h : locate a = some l) :
    some (resetWord a) = (findRow (rowsOf l.block) l.off).elim (some 0) (fun p => some (BitVec.ofNat 32 (p.1.rst l.unit p.2))) := by
  unfold resetWord
  rw [regAt_some a l h]
  cases findRow (rowsOf l.block) l.off <;> rfl

theorem slotRow (G : Nat) : (k : Nat) → k < 32 → (findRow rows_gal (512 + k * 4)).map (fun p => p.1.rst G p.2) = some 0
  | 0, _ => rfl
  | 1, _ => rfl
  | 2, _ => rfl
  | 3, _ => rfl
  | 4, _ => rfl
  | 5, _ => rfl
  | 6, _ => rfl
  | 7, _ => rfl
  | 8, _ => rfl
  | 9, _ => rfl
  | 10, _ => rfl
  | 11, _ => rfl
  | 12, _ => rfl
  | 13, _ => rfl
  | 14, _ => rfl
  | 15, _ => rfl
  | 16, _ => rfl
  | 17, _ => rfl
  | 18, _ => rfl
  | 19, _ => rfl
  | 20, _ => rfl
  | 21, _ => rfl
  | 22, _ => rfl
  | 23, _ => rfl
  | 24, _ => rfl
  | 25, _ => rfl
  | 26, _ => rfl
  | 27, _ => rfl
  | 28, _ => rfl
  | 29, _ => rfl
  | 30, _ => rfl
  | 31, _ => rfl
  | n + 32, h => absurd h (by omega)

theorem resetWord_galSlot (G k : Nat) (hG : G < 256) (hk : k < 32) : resetWord (Reg.GAL_SLOT G k) = 0 := by
  have e : Reg.GAL_SLOT G k = galBase G + (512 + k * 4) := by unfold Reg.GAL_SLOT; omega
  have d := slotRow G k hk
  rw [e]
  have w := resetWord_some _ _ (locate_gal G (512 + k * 4) hG (by omega) (by omega))
  generalize resetWord (galBase G + (512 + k * 4)) = x at *
  have w' : some x = (findRow rows_gal (512 + k * 4)).elim (some 0) (fun p => some (BitVec.ofNat 32 (p.1.rst G p.2))) := w
  generalize findRow rows_gal (512 + k * 4) = z at *
  cases z with
  | none => cases d
  | some p =>
    have d' : p.1.rst G p.2 = 0 := Option.some.inj d
    have w2 : some x = some (BitVec.ofNat 32 (p.1.rst G p.2)) := w'
    rw [d'] at w2
    exact Option.some.inj w2

end Sys2Proof
end

