-- ==== Sys2Proof/Laws/Step.lean ====
section
/-!
SUPPORT. Laws/Step.lean: what an idle nanosecond leaves as it was.
-/
namespace Sys2Proof.Machine

theorem State.tick_fields (s : State) : ∃ c r, s.tick = { s with clk := c, now := r } := by
  unfold State.tick State.tbTick
  split
  · exact ⟨_, _, rfl⟩
  · exact ⟨_, _, rfl⟩

end Sys2Proof.Machine
end

