-- ==== Sys2Proof/Laws/FactsStart.lean ====
section
/-!
SUPPORT. Laws/FactsStart.lean: what single operations do and leave unchanged, and when two states agree on what they read: registers, the steps of a start, the stop, readings, calibration and flash.
A name proj_op says what op does to proj.
-/
namespace Sys2Proof.Machine

theorem State.fld_startClears (s : State) (st a f) (h1 : a ≠ Reg.BOOT_STAT) (h2 : a ≠ Reg.BOOT_CAUSE_ARG) (h3 : a ≠ Reg.BOOT_LIB) : (s.startClears st).fld a f = s.fld a f := by
  unfold State.startClears State.clrReg
  rw [State.fld_setReg_ne _ _ _ _ _ h3, State.fld_setReg_ne _ _ _ _ _ h2, State.fld_setReg_ne _ _ _ _ _ h1]
  rfl

theorem State.fld_startClears_BOOT_STAT (s : State) (st f) : (s.startClears st).fld Reg.BOOT_STAT f = fieldOf (withField 0 Fl.BOOT_STAT_STATE st) f := by
  unfold State.startClears State.clrReg
  rw [State.fld_setReg_ne _ _ _ _ _ (by decide), State.fld_setReg_ne _ _ _ _ _ (by decide), State.fld_setReg]

theorem State.fld_newChal (s : State) (a f) (h : ∀ w, a ≠ Reg.SEC_CHAL w) : s.newChal.fld a f = s.fld a f := by
  unfold State.newChal
  refine (foldl_same (fun s => s.fld a f) _ _ _ (fun u x _ => State.fld_setReg_ne _ _ _ _ _ (h x))).trans rfl

theorem State.fld_startMeasures (s : State) (a f) (h : ∀ w, a ≠ Reg.SEC_CHAL w) (h2 : a ≠ Reg.SYS_EVSTAT) : (s.startMeasures).fld a f = s.fld a f := by
  unfold State.startMeasures State.postPkg
  rw [State.fld_post _ _ _ _ _ _ _ h2, State.fld_newChal _ _ _ h]
  rfl

theorem State.startMeasures_keeps_regs (s : State) : s.Keeps [.regs, .sec, .ev, .free] s.startMeasures := State.startMeasures_keeps (State.Keeps.refl _ s) (by decide)

theorem State.startClears_keeps_regs (s : State) (st) : s.Keeps [.regs, .boot, .bist] (s.startClears st) := State.startClears_keeps (State.Keeps.refl _ s) (by decide) _

theorem State.fld_startNext (s : State) (a f) : (s.startNext).fld a f = s.fld a f := rfl

theorem State.startCommon_facts (s : State) (st : Nat) : (s.startCommon st).boot.phase = (if s.stop.hotStart then .hot else .discover) ∧ (s.startCommon st).boot.rstLow = s.boot.rstLow ∧ (s.startCommon st).boot.delayOver = s.boot.delayOver
   ∧ (s.startCommon st).fld Reg.BOOT_STAT Fl.BOOT_STAT_STATE = st % 16 ∧ (∀ f, (s.startCommon st).fld Reg.SYS_RSTINFO f = s.fld Reg.SYS_RSTINFO f) ∧  (s.startCommon st).boot.progLow = s.boot.progLow ∧ (s.startCommon st).boot.kind = s.boot.kind
   ∧ (∀ f, (s.startCommon st).fld Reg.SEC_VAULT_STAT f = s.fld Reg.SEC_VAULT_STAT f) := by
  have c1 : ∀ w, Reg.BOOT_STAT ≠ Reg.SEC_CHAL w := by intro w; simp [Reg.BOOT_STAT, Reg.SEC_CHAL]; try omega
  have c2 : ∀ w, Reg.SYS_RSTINFO ≠ Reg.SEC_CHAL w := by intro w; simp [Reg.SYS_RSTINFO, Reg.SEC_CHAL]; try omega
  have c3 : ∀ w, Reg.SEC_VAULT_STAT ≠ Reg.SEC_CHAL w := by intro w; simp [Reg.SEC_VAULT_STAT, Reg.SEC_CHAL]; try omega
  have hb : ((s.startClears st).startMeasures).boot = (s.startClears st).boot := (State.startMeasures_keeps_regs _).rest .boot rfl
  have hs : ((s.startClears st).startMeasures).stop = s.stop := ((State.startMeasures_keeps_regs _).rest .stop rfl).trans ((State.startClears_keeps_regs s st).rest .stop rfl)
  unfold State.startCommon
  refine ⟨?_, ?_, ?_, ?_, ?_, ?_, ?_, ?_⟩
  · unfold State.startNext State.modBoot
    rw [← hs]
  · exact (congrArg Boot.rstLow hb : (State.startMeasures _).boot.rstLow = (s.startClears st).boot.rstLow)
  · exact (congrArg Boot.delayOver hb : (State.startMeasures _).boot.delayOver = (s.startClears st).boot.delayOver)
  · rw [State.fld_startNext, State.fld_startMeasures _ _ _ c1 (by decide), State.fld_startClears_BOOT_STAT, fieldOf_withField _ _ _ (by decide)]; rfl
  · intro f; rw [State.fld_startNext, State.fld_startMeasures _ _ _ c2 (by decide), State.fld_startClears _ _ _ _ (by decide) (by decide) (by decide)]
  · exact (congrArg Boot.progLow hb : (State.startMeasures _).boot.progLow = (s.startClears st).boot.progLow)
  · exact (congrArg Boot.kind hb : (State.startMeasures _).boot.kind = (s.startClears st).boot.kind)
  · intro f; rw [State.fld_startNext, State.fld_startMeasures _ _ _ c3 (by decide), State.fld_startClears _ _ _ _ (by decide) (by decide) (by decide)]

theorem State.boot_domainsOn (s : State) : s.domainsOn.boot = s.boot := (State.domainsOn_keeps (W := [.regs,.dom]) (State.Keeps.refl _ s) (by decide)).rest .boot rfl

theorem State.port_domainsOn (s : State) : s.domainsOn.port = s.port := (State.domainsOn_keeps (W := [.regs,.dom]) (State.Keeps.refl _ s) (by decide)).rest .port rfl

theorem State.fld_forceDom (u : State) (x d : Nat) (a f) (h : ∀ k d, a ≠ Reg.PWR_DSTAT k d) : (u.forceDom x d 2).fld a f = u.fld a f := by
  unfold State.forceDom
  split
  · rfl
  · show (u.setDom x d 2).fld a f = u.fld a f
    unfold State.setDom
    rw [State.fld_setFld_ne _ _ _ _ _ _ (h _ _)]

theorem State.fld_foldl_forceDom (u : State) (x : Nat) (a f) (h : ∀ k d, a ≠ Reg.PWR_DSTAT k d) (l : List Nat) : (l.foldl (fun s d => s.forceDom x d 2) u).fld a f = u.fld a f := by
  have := foldl_same (fun s => s.fld a f) l (fun s d => s.forceDom x d 2) u (fun u d _ => State.fld_forceDom u x d a f h)
  exact this

theorem State.fld_foldl_domains (u : State) (a f) (h : ∀ k d, a ≠ Reg.PWR_DSTAT k d) (l m : List Nat) : (m.foldl (fun s h => l.foldl (fun s d => s.forceDom h d 2) s) u).fld a f = u.fld a f := by
  exact foldl_same (fun s => s.fld a f) m _ _ (fun u d _ => State.fld_foldl_forceDom u d a f h l)

theorem State.fld_domainsOn (s : State) (a f) (h : ∀ k d, a ≠ Reg.PWR_DSTAT k d) : s.domainsOn.fld a f = s.fld a f := State.fld_foldl_domains s a f h _ _

theorem State.fld_wipe (s : State) (c a f) (h : a ≠ Reg.SEC_VAULT_STAT) : (s.wipe c).fld a f = s.fld a f := by
  unfold State.wipe
  dsimp only
  split
  · rfl
  · unfold State.setVault
    rw [State.fld_setFld_ne _ _ _ _ _ _ h]; rfl

theorem State.boot_wipe (s : State) (c) : (s.wipe c).boot = s.boot := by
  unfold State.wipe
  dsimp only
  split <;> rfl

theorem State.wipe_of_working (s : State) (c) (h : (s.zeroVault vaultBase (vaultBase + 0x40000)).vaultState ≠ 3) : s.wipe c = ({ (s.zeroVault vaultBase (vaultBase + 0x40000)) with sec := { (s.zeroVault vaultBase (vaultBase + 0x40000)).sec with wipe := some c } } : State).setVault 1 := by
  unfold State.wipe
  simp only [h, if_false]

theorem State.warmMarks_facts (s : State) (k) : (s.warmMarks k).boot = s.boot ∧ (s.warmMarks k).net = s.net ∧ (s.warmMarks k).reqs = s.reqs ∧ (s.warmMarks k).port = s.port ∧ (s.warmMarks k).fld Reg.BOOT_STAT Fl.BOOT_STAT_STATE = 8 ∧ (s.warmMarks k).fld Reg.SYS_RSTINFO Fl.SYS_RSTINFO_CAUSE = k % 8 := by
  unfold State.warmMarks State.setBoot
  refine ⟨rfl, rfl, rfl, rfl, ?_, ?_⟩
  · rw [State.fld_setFld _ _ _ _ (by decide)]; rfl
  · rw [State.fld_setFld_ne _ _ _ _ _ _ (by decide)]
    unfold State.incFld
    rw [State.fld_setFld_fld _ _ _ _ _ (by decide) (by decide), State.fld_setFld _ _ _ _ (by decide)]; rfl

def fieldsApart (l : List FldRow) : Bool := l.all (fun f => decide (f.lo + f.width ≤ 32)) && decide (l.Pairwise (fun f g => f.lo + f.width ≤ g.lo ∨ g.lo + g.width ≤ f.lo))

theorem fieldsApart_rowsOf : ∀ b, (rowsOf b).all (fun r => fieldsApart r.flds) = true := by
  intro b; cases b <;> decide +kernel

theorem mem_of_findRow : ∀ (l : List RegRow) (o : Nat) (r : RegRow) (ix : List Nat), findRow l o = some (r, ix) → r ∈ l := by
  intro l; induction l with
  | nil => intro o r ix h; cases h
  | cons x xs ih =>
    intro o r ix h
    unfold findRow at h
    split at h
    · cases h; simp
    · exact List.mem_cons_of_mem _ (ih _ _ _ h)

theorem fieldOf_applyField_other (v old : Word) (f g : FldRow) (hf : f.lo + f.width ≤ 32) (hg : g.lo + g.width ≤ 32)
    (h : f.lo + f.width ≤ g.lo ∨ g.lo + g.width ≤ f.lo) : fieldOf (applyField v old g) (rowFld f) = fieldOf old (rowFld f) := by
  unfold applyField
  dsimp only
  have k := fun n => fieldOf_withField_other old (rowFld g) (rowFld f) n hf h.symm
  split
  · split
    · rfl
    · exact k _
  · exact k _
  · exact k _
  · rfl
  · rfl
  · rfl

theorem fieldOf_foldl_applyField_other (v : Word) (f : FldRow) (hf : f.lo + f.width ≤ 32) : ∀ (fs : List FldRow), (∀ g ∈ fs, g.lo + g.width ≤ 32) →
    (∀ g ∈ fs, f.lo + f.width ≤ g.lo ∨ g.lo + g.width ≤ f.lo) → ∀ old, fieldOf (fs.foldl (applyField v) old) (rowFld f) = fieldOf old (rowFld f) := by
  intro fs; induction fs with
  | nil => intros; rfl
  | cons g gs ih =>
    intro h1 h2 old
    rw [List.foldl_cons, ih (fun x hx => h1 x (List.mem_cons_of_mem _ hx)) (fun x hx => h2 x (List.mem_cons_of_mem _ hx)),
      fieldOf_applyField_other v old f g hf (h1 g (by simp)) (h2 g (by simp))]

theorem fieldOf_applyField_congr (v a b : Word) (f : FldRow) (hf : f.lo + f.width ≤ 32) (h : fieldOf a (rowFld f) = fieldOf b (rowFld f)) :
    fieldOf (applyField v a f) (rowFld f) = fieldOf (applyField v b f) (rowFld f) := by
  unfold applyField
  dsimp only
  split
  · split
    · exact h
    · rw [fieldOf_withField _ _ _ hf, fieldOf_withField _ _ _ hf]
  · rw [fieldOf_withField _ _ _ hf, fieldOf_withField _ _ _ hf, h]
  · rw [fieldOf_withField _ _ _ hf, fieldOf_withField _ _ _ hf, h]
  · exact h
  · exact h
  · exact h

theorem fieldOf_foldl_applyField (v : Word) : ∀ (fs : List FldRow), (∀ g ∈ fs, g.lo + g.width ≤ 32) →
    fs.Pairwise (fun f g => f.lo + f.width ≤ g.lo ∨ g.lo + g.width ≤ f.lo) → ∀ old, ∀ f ∈ fs,
    fieldOf (fs.foldl (applyField v) old) (rowFld f) = fieldOf (applyField v old f) (rowFld f) := by
  intro fs; induction fs with
  | nil => intro _ _ _ f hf; cases hf
  | cons g gs ih =>
    intro h1 h2 old f hf
    rw [List.pairwise_cons] at h2
    rw [List.foldl_cons]
    rcases List.mem_cons.mp hf with rfl | hf
    · exact fieldOf_foldl_applyField_other v f (h1 f (by simp)) gs (fun x hx => h1 x (List.mem_cons_of_mem _ hx)) (fun x hx => h2.1 x hx) _
    · rw [ih (fun x hx => h1 x (List.mem_cons_of_mem _ hx)) h2.2 _ f hf]
      exact fieldOf_applyField_congr _ _ _ _ (h1 f (List.mem_cons_of_mem _ hf)) (fieldOf_applyField_other _ _ _ _ (h1 f (List.mem_cons_of_mem _ hf)) (h1 g (by simp)) (h2.1 f hf).symm)

theorem locate_aligned (a : Nat) : locate (a / 4 * 4) = locate a := by
  unfold locate
  have : a / 4 * 4 / 4 * 4 = a / 4 * 4 := by omega
  rw [this]

theorem regAt_of_regGo (s : State) (a l r ix) (h : s.regGo a = .at l r ix) : regAt a = some (l, r, ix) := by
  cases hl : locate a with
  | none => simp [State.regGo, hl] at h
  | some l' =>
    have e : regAt a = (findRow (rowsOf l'.block) l'.off).map (fun p => (l', p.1, p.2)) := by simp [regAt, hl]
    cases hf : findRow (rowsOf l'.block) l'.off with
    | none => simp only [State.regGo, hl, hf] at h; split at h <;> (try split at h) <;> cases h
    | some p =>
      simp only [State.regGo, hl, hf] at h
      split at h
      · cases h
      · split at h
        · cases h
        · cases h; rw [e, hf]; rfl

theorem State.fld_admWithdraw (s : State) (w a f) : (s.admWithdraw w).fld a f = s.fld a f := rfl

theorem State.hallTemp_admWithdraw (s : State) (w a) : (s.admWithdraw w).hallTemp a = s.hallTemp a := rfl

theorem State.fld_sensorCheck (s : State) (h : Nat) (x sus j a f) (h1 : a ≠ Reg.THERM_T h j) (h2 : a ≠ Reg.SYS_EVSTAT) : (s.sensorCheck h x sus j).fld a f = s.fld a f := by
  unfold State.sensorCheck State.estUnits
  dsimp only
  repeat' split
  all_goals (try rw [State.fld_post _ _ _ _ _ _ _ h2])
  all_goals (repeat rw [State.fld_setFld_ne _ _ _ _ _ _ h1])
  all_goals rfl

theorem State.fld_sensorsRead (s : State) (h x a f) (h1 : ∀ j, j < 32 → a ≠ Reg.THERM_T h j) (h2 : a ≠ Reg.SYS_EVSTAT) (h3 : a ≠ Reg.THERM_HALL h) : (s.sensorsRead h x).fld a f = s.fld a f := by
  unfold State.sensorsRead
  dsimp only
  rw [State.fld_setFld_ne _ _ _ _ _ _ h3, State.fld_setFld_ne _ _ _ _ _ _ h3]
  refine (foldl_same (fun s => s.fld a f) _ _ _ (fun u z hz => State.fld_sensorCheck _ _ _ _ _ _ _ (h1 z (List.mem_range.mp hz)) h2)).trans ?_
  exact State.fld_setFld_ne _ _ _ _ _ _ h3

theorem State.Keeps.stop_eq {s t : State} {W} (k : s.Keeps W t) (h : W.contains .stop = false) : t.stop = s.stop := k.rest .stop h

theorem State.landApplied_setLandAt (s : State) (h n c : Nat) : (s.setLandAt h n c).landApplied h n = c := by
  unfold State.landApplied State.setLandAt
  rw [State.hall_modHall]
  exact Sparse.get_set_same _ _ _ _

theorem State.fld_modCal (s : State) (h f a g) : (s.modCal h f).fld a g = s.fld a g := by unfold State.modCal; split <;> rfl

theorem State.bit_modCal (s : State) (h f a g) : (s.modCal h f).bit a g = s.bit a g := by unfold State.bit; rw [State.fld_modCal]

theorem State.hall_modCal (s : State) (h f a) : (s.modCal h f).hall a = s.hall a := by unfold State.modCal; split <;> rfl

theorem State.fld_lt (s : State) (a f) : s.fld a f < 2 ^ f.width := Nat.mod_lt _ (Nat.two_pow_pos _)

theorem bitOf_setBit_true (n k j : Nat) : bitOf (setBit n k true) j = (decide (k = j) || bitOf n j) := by
  unfold bitOf setBit
  simp only [if_true, Nat.testBit_or, Nat.shiftLeft_eq, Nat.one_mul, Nat.testBit_two_pow, Bool.or_comm]

theorem bitOf_mod_two_pow (n w j : Nat) (h : j < w) : bitOf (n % 2 ^ w) j = bitOf n j := by
  unfold bitOf; rw [Nat.testBit_mod_two_pow]; simp [h]

theorem State.running_setFldBit (s : State) (x v) : (s.setFldBit Reg.CAL_STAT Fl.CAL_STAT_RUNNING x v).running = s.running := by
  unfold State.running State.setFldBit
  rw [State.fld_setFld_ne _ _ _ _ _ _ (by decide)]

theorem State.fld_laneSeed (s : State) (h l v a f) (hl : ∀ w < 3, a ≠ Reg.CAL_LSEED (16 * h + l) w) : (s.laneSeed h l v).fld a f = s.fld a f := by
  unfold State.laneSeed
  split
  · rfl
  · dsimp only
    rw [State.fld_setReg_ne _ _ _ _ _ (hl 2 (by decide)), State.fld_setReg_ne _ _ _ _ _ (hl 1 (by decide)), State.fld_setReg_ne _ _ _ _ _ (hl 0 (by decide))]

theorem State.fld_foldl_laneSeed (s : State) (h : Nat) (l a f) (hl : ∀ x < 16, ∀ w < 3, a ≠ Reg.CAL_LSEED (16 * h + x) w) : (s.laneSeeds h l).fld a f = s.fld a f := by
  refine foldl_same (fun s => s.fld a f) _ _ _ (fun u x hx => ?_)
  have hx := List.mem_range.mp hx
  split
  · exact State.fld_laneSeed _ _ _ _ _ _ (hl x hx)
  · exact State.fld_laneSeed _ _ _ _ _ _ (hl x hx)

theorem State.clk_loadStart (v : State) (f) : ((v.modBoot f).loadStart).clk = v.clk := rfl

theorem State.boot_loadStart (v : State) (f) : ((v.modBoot f).loadStart).boot = { (f v.boot) with phase := .load, next := 1 } := rfl

theorem State.pathReason_congr (s u : State) (hm : u.mem = s.mem) (he : u.memEpoch = s.memEpoch) (hb : u.boot = s.boot) (hf : ∀ f, u.fld Reg.BOOT_FLASH f = s.fld Reg.BOOT_FLASH f) : u.pathReason = s.pathReason := by
  have r0 : u.flashBytes = s.flashBytes := by
    funext a n; simp only [State.flashBytes, State.readBytes, State.readByte, State.memByte, hm, he]
  have r1 : u.flashNat = s.flashNat := by funext a n; simp only [State.flashNat, r0]
  have r2 : u.flashSize = s.flashSize := by simp only [State.flashSize, hf]
  have r3 : u.recAddr = s.recAddr := by funext k; simp only [State.recAddr, r2]
  have r4 : u.recType = s.recType := by funext k; simp only [State.recType, r1, r3]
  have r5 : u.recSeq = s.recSeq := by funext k; simp only [State.recSeq, r1, r3]
  have r6 : u.recThere = s.recThere := by funext k; simp only [State.recThere, r1, r3, r4, r5]
  have r7 : u.recValid = s.recValid := by funext k; simp only [State.recValid, r0, r1, r3, r6]
  have r8 : u.highest = s.highest := by
    funext l; induction l with
    | nil => rfl
    | cons a l ih => simp only [State.highest, ih, r5]
  have r9 : u.typeRecord = s.typeRecord := by funext t; simp only [State.typeRecord, r4, r7, r8]
  have r10 : u.recPayload = s.recPayload := by funext k o n; simp only [State.recPayload, r0, r3]
  have r11 : u.recNat = s.recNat := by funext k o n; simp only [State.recNat, r10]
  simp only [State.pathReason, hb, r0, r3, r5, r9, r11]

theorem State.fld_vmonRead (mv : List Nat) (s : State) (a f) (h : ∀ c < 4, a ≠ Reg.BIST_VMON c) : (s.vmonRead mv).fld a f = s.fld a f := by
  unfold State.vmonRead
  exact foldl_same (fun s => s.fld a f) _ _ _ (fun u x hx => State.fld_setReg_ne _ _ _ _ _ (h x (List.mem_range.mp hx)))

theorem State.bit_vmonRead (mv : List Nat) (s : State) (h : ∀ c < 4, vccOk (mv.getD c 0) = true) (c : Nat) (hc : c < 4) : (s.vmonRead mv).bit (Reg.BIST_VMON c) Fl.BIST_VMON_OK = true := by
  have ok : ∀ (u : State) (c : Nat) x, vccOk x = true → (u.setReg (Reg.BIST_VMON c) (BitVec.ofNat 32 (packBits [(12, x), (19, 0), (1, b2n (vccOk x))]))).fld (Reg.BIST_VMON c) Fl.BIST_VMON_OK = 1 := by
    intro u c x hx
    rw [State.fld_setReg, hx]
    unfold fieldOf
    have hx' : x ≤ 772 := by unfold vccOk at hx; simp at hx; exact hx.2
    simp only [packBits, b2n, Fl.BIST_VMON_OK, BitVec.toNat_ofNat, Nat.shiftRight_eq_div_pow, if_true]
    omega
  unfold State.bit State.vmonRead
  have e : List.range 4 = [0, 1, 2, 3] := rfl
  rw [e]
  simp only [List.foldl_cons, List.foldl_nil]
  have hcc : c = 0 ∨ c = 1 ∨ c = 2 ∨ c = 3 := by omega
  rcases hcc with rfl | rfl | rfl | rfl
  · rw [State.fld_setReg_ne _ _ _ _ _ (by decide), State.fld_setReg_ne _ _ _ _ _ (by decide), State.fld_setReg_ne _ _ _ _ _ (by decide), ok _ _ _ (h 0 (by omega))]; rfl
  · rw [State.fld_setReg_ne _ _ _ _ _ (by decide), State.fld_setReg_ne _ _ _ _ _ (by decide), ok _ _ _ (h 1 (by omega))]; rfl
  · rw [State.fld_setReg_ne _ _ _ _ _ (by decide), ok _ _ _ (h 2 (by omega))]; rfl
  · rw [ok _ _ _ (h 3 (by omega))]; rfl

theorem State.vmonRead_keeps_regs (s : State) (mv) : s.Keeps [.regs] (s.vmonRead mv) := State.vmonRead_keeps (State.Keeps.refl _ s) (by decide) mv

theorem fieldOf_withFop_other (v : Word) (op : Nat) (g : Fld) (hg : g.lo + g.width ≤ 32) (h : Fl.BOOT_FCMD_OP.lo + Fl.BOOT_FCMD_OP.width ≤ g.lo ∨ g.lo + g.width ≤ Fl.BOOT_FCMD_OP.lo) : fieldOf (withFop v op) g = fieldOf v g :=
  fieldOf_withField_other _ _ _ _ hg h

theorem fieldOf_withFop (v : Word) (op : Nat) (h : op < 4) : fieldOf (withFop v op) Fl.BOOT_FCMD_OP = op := by
  unfold withFop; rw [fieldOf_withField _ _ _ (by decide)]; exact Nat.mod_eq_of_lt (Nat.lt_of_lt_of_le h (by decide))

theorem State.fcmd_flashResult (s : State) (r) : (s.flashResult r).boot.fcmd = none := rfl

theorem State.readByte_flashResult (s : State) (r k) : (s.flashResult r).readByte k = s.readByte k := rfl

theorem State.reg_flashResult (s : State) (r a) (h : a ≠ Reg.BOOT_FSTAT) : (s.flashResult r).reg a = s.reg a := by
  unfold State.flashResult; rw [State.reg_setFld_ne _ _ _ _ _ h, State.reg_setFld_ne _ _ _ _ _ h]; rfl

theorem State.readByte_foldl_fbuf (l : List Nat) (f : State → Nat → Word) (s : State) (k) : (l.foldl (fun s w => s.setReg (Reg.BOOT_FBUF w) (f s w)) s).readByte k = s.readByte k :=
  foldl_same (fun s => s.readByte k) _ _ _ (fun _ _ _ => rfl)

theorem State.readByte_flashErase (s : State) (a n k : Nat) : (s.flashErase a n).readByte k = if flashKey a ≤ k ∧ k < flashKey (a + n) then 0xFF else s.readByte k := by
  unfold State.readByte State.memByte State.flashErase
  dsimp only
  rw [Sparse.find_drop]
  by_cases h : flashKey a ≤ k ∧ k < flashKey (a + n)
  · have : (decide (flashKey a ≤ k) && decide (k < flashKey (a + n))) = true := by simp [h]
    rw [this, if_pos h]
    have h48 : 2 ^ 48 ≤ k := by have := h.1; unfold flashKey at this; omega
    simp only [if_true, unlistedByte, h48]
    rfl
  · have : (decide (flashKey a ≤ k) && decide (k < flashKey (a + n))) = false := by simp; omega
    rw [this, if_neg h]; simp

theorem State.length_regBytes (s : State) (f : Nat → Nat) (n : Nat) : (s.regBytes f n).length = 4 * n := by
  have : ∀ l : List Nat, (l.flatMap (fun w => bytesOf 4 (s.reg (f w)))).length = 4 * l.length := by
    intro l
    induction l with
    | nil => rfl
    | cons a l ih => rw [List.flatMap_cons, List.length_append, ih]; simp [bytesOf]; omega
  unfold State.regBytes; rw [this]; simp

end Sys2Proof.Machine
end

