-- ==== Sys2Proof/Laws/FactsGallery.lean ====
section
/-!
SUPPORT. Laws/FactsGallery.lean: what single operations do and leave unchanged, and when two states agree on what they read: corridors, mezzanine tracks, galleries, planes and banks.
A name proj_op says what op does to proj.
-/
namespace Sys2Proof.Machine

theorem State.inFrst_iff (s : State) (h) : s.inFrst h = true ↔ s.fld (Reg.FRST_STAT h) Fl.FRST_STAT_STATE ≠ 0 := by unfold State.inFrst State.bit; simp

theorem corrEnds_side_lt (c : Nat) : (corrEnds c).1.2 < 3 ∧ (corrEnds c).2.2 < 3 := by unfold corrEnds; split <;> simp

theorem State.reg_corrShow (s : State) (c f n a) (h : ∀ x y, y < 3 → a ≠ Reg.CORR_STAT x y) : (s.corrShow c f n).reg a = s.reg a := by
  unfold State.corrShow
  dsimp only
  rw [State.reg_setFld_ne _ _ _ _ _ (h _ _ (corrEnds_side_lt c).2), State.reg_setFld_ne _ _ _ _ _ (h _ _ (corrEnds_side_lt c).1)]

theorem State.reg_meshSettle (s : State) (c m a) (h : ∀ x y, y < 3 → a ≠ Reg.CORR_STAT x y) (h2 : a ≠ Reg.SYS_EVSTAT) : (s.meshSettle c m).reg a = s.reg a := by
  unfold State.meshSettle
  dsimp only
  rw [State.reg_corrShow _ _ _ _ _ h]
  split
  · exact State.reg_post _ _ _ _ _ _ h2
  · rfl

theorem State.reg_corrSettle (s : State) (c a) (h : ∀ x y, y < 3 → a ≠ Reg.CORR_STAT x y) (h2 : a ≠ Reg.SYS_EVSTAT) : (s.corrSettle c).reg a = s.reg a := by
  unfold State.corrSettle
  dsimp only
  rw [State.reg_corrShow _ _ _ _ _ h, State.reg_corrShow _ _ _ _ _ h, State.reg_meshSettle _ _ _ _ h h2, State.reg_meshSettle _ _ _ _ h h2]
  split
  · exact State.reg_post _ _ _ _ _ _ h2
  · rfl

theorem State.reg_foldl_corrSettle (l : List Nat) (s : State) (a) (h : ∀ x y, y < 3 → a ≠ Reg.CORR_STAT x y) (h2 : a ≠ Reg.SYS_EVSTAT) : (l.foldl (fun s c => s.corrSettle c) s).reg a = s.reg a :=
  foldl_same (fun s => s.reg a) _ _ _ (fun u x _ => State.reg_corrSettle u x a h h2)

theorem State.corr_modCorr (s : State) (c f) : (s.modCorr c f).corr c = f (s.corr c) := Sparse.get_set_same _ _ _ _

theorem State.chanSt_setEnd (s : State) (c h ch n h' j) : (s.setEnd c h ch n).chanSt c h' j = if 5 * h' + j = 5 * h + ch then n else s.chanSt c h' j := by
  unfold State.setEnd State.chanSt
  rw [State.corr_modCorr]
  dsimp only
  unfold Sparse.get
  split
  · next e => rw [e]; exact Sparse.get_set_same _ _ _ _
  · next e => rw [Sparse.find_set_other _ _ _ _ _ e]

theorem State.reg_endFences (s : State) (c h ch own part a) (ha : a ≠ Reg.SYS_EVSTAT) : (s.endFences c h ch own part).reg a = s.reg a := by
  unfold State.endFences
  dsimp only
  exact State.reg_post _ _ _ _ _ _ ha

theorem State.reg_endLearns (s : State) (c h ch a) (ha : a ≠ Reg.SYS_EVSTAT) : (s.endLearns c h ch).reg a = s.reg a := by
  unfold State.endLearns; split
  · exact State.reg_endFences _ _ _ _ _ _ _ ha
  · rfl

theorem State.reg_chanTest (s : State) (h c ch a) (ha : a ≠ Reg.SYS_EVSTAT) : (s.chanTest h c ch).reg a = s.reg a := by
  unfold State.chanTest State.setChan
  rw [show ∀ (u : State) c f, (u.modCorr c f).reg a = u.reg a from fun _ _ _ => rfl,
    show ∀ (u : State) c h ch n, (u.setEnd c h ch n).reg a = u.reg a from fun _ _ _ _ _ => rfl,
    show ∀ (u : State) c h ch n, (u.setEnd c h ch n).reg a = u.reg a from fun _ _ _ _ _ => rfl]
  rw [State.reg_endLearns _ _ _ _ _ ha, State.reg_endLearns _ _ _ _ _ ha]

theorem State.chanOf_setChan (s : State) (c ch n j) (hj : j < 5) (hc : ch < 5) : (s.setChan c ch n).chanOf c j = if j = ch then n else s.chanOf c j := by
  unfold State.chanOf State.setChan
  dsimp only
  by_cases e : j = ch
  · subst e; simp [State.chanSt_setEnd]
  · simp only [State.chanSt_setEnd, e, if_false]
    rw [if_neg (by omega), if_neg (by omega), if_neg (by omega), if_neg (by omega)]

theorem State.trackOff_setTrackOff (s : State) (h n j b) : (s.setTrackOff h n b).trackOff h j = if j = n then b else s.trackOff h j := by
  unfold State.setTrackOff State.trackOff
  by_cases e : j / 32 = n / 32
  · rw [e, State.bit_setFldBit _ _ _ _ _ _ (by decide) (by show j % 32 < 32; omega)]
    have : (j % 32 = n % 32) ↔ j = n := by omega
    simp only [this]
  · have e2 : j ≠ n := fun x => e (by rw [x])
    have e3 : Reg.MEZZ_OFF h (j / 32) ≠ Reg.MEZZ_OFF h (n / 32) := by simp only [Reg.MEZZ_OFF]; omega
    rw [if_neg e2]
    unfold State.setFldBit
    rw [State.fld_setFld_ne _ _ _ _ _ _ e3]

theorem State.trackOff_congr {s t : State} (h n) (e : t.reg (Reg.MEZZ_OFF h (n / 32)) = s.reg (Reg.MEZZ_OFF h (n / 32))) : t.trackOff h n = s.trackOff h n := by
  unfold State.trackOff State.fld; rw [e]

theorem trackGals_lt (n) (hn : n < 5120) : ∀ g ∈ trackGals n, g < 32 := by
  intro g hg
  unfold trackGals at hg
  split at hg
  all_goals (simp only [List.mem_map, List.mem_range] at hg; obtain ⟨i, hi, rfl⟩ := hg; omega)

theorem State.net_foldl_done (G : Nat) (l : List ItHeld) : ∀ (u : State), ∃ m, (l.foldl (fun s i => s.send (donePacket G i.plane 2)) u).net = u.net ++ m ∧ m.length = l.length ∧ ∀ x ∈ m, x.cmd = 0x13 ∧ ∃ q, x.arg = (donePacket G q 2).arg := by
  induction l with
  | nil => intro u; exact ⟨[], by simp, rfl, by simp⟩
  | cons x l ih =>
    intro u
    obtain ⟨m, h1, h2, h3⟩ := ih (u.send (donePacket G x.plane 2))
    obtain ⟨n, e, k, hn⟩ := State.sent_send u (donePacket G x.plane 2)
    refine ⟨_ :: m, by rw [List.foldl_cons, h1, hn, List.append_assoc]; rfl, by simp [h2], ?_⟩
    intro y hy
    rcases List.mem_cons.mp hy with q | q
    · rw [q]; exact ⟨rfl, x.plane, rfl⟩
    · exact h3 y q

theorem State.gal_foldl_done (G : Nat) (l : List ItHeld) (u : State) (H) : (l.foldl (fun s i => s.send (donePacket G i.plane 2)) u).gal H = u.gal H :=
  foldl_same (fun s => s.gal H) _ _ _ (fun _ _ _ => rfl)

theorem fieldOf_ofNat (a b : List (Nat × Nat)) (f : Fld) (n : Nat) (h : f.lo + f.width ≤ 32) :
    fieldOf (BitVec.ofNat 32 n) f = n / 2 ^ f.lo % 2 ^ f.width := by
  unfold fieldOf
  rw [BitVec.toNat_ofNat, Nat.shiftRight_eq_div_pow]
  have e : (2:Nat) ^ 32 = 2 ^ f.lo * 2 ^ (32 - f.lo) := by rw [← Nat.pow_add]; congr 1; omega
  rw [e, Nat.mod_mul_right_div_self]
  exact Nat.mod_mod_of_dvd _ (Nat.pow_dvd_pow 2 (by omega))

theorem State.planeState_showNoImage (s : State) (G p st c k) (h : st < 8) : (s.showNoImage G p st c k).planeState G p = st := by
  unfold State.showNoImage State.planeState
  rw [State.fld_setReg, fieldOf_ofNat [] [] _ _ (by decide)]
  simp [packBits, Fl.GAL_PLANE_STATE]; omega

theorem State.fld_showNoImage (s : State) (G p st c k) (h : k < 32) : (s.showNoImage G p st c k).fld (Reg.GAL_PLANE G p) Fl.GAL_PLANE_SLOT = k := by
  unfold State.showNoImage
  rw [State.fld_setReg, fieldOf_ofNat [] [] _ _ (by decide)]
  simp [packBits, Fl.GAL_PLANE_SLOT]; omega

theorem State.planeState_showPlane (s : State) (G p st k i) (h : st < 8) : (s.showPlane G p st k i).planeState G p = st := by
  unfold State.showPlane State.planeState
  rw [State.fld_setReg, fieldOf_ofNat [] [] _ _ (by decide)]
  simp [packBits, Fl.GAL_PLANE_STATE]; omega

theorem State.reportPlane_facts (s : State) (G p r b) : (s.reportPlane G p r b).gals = s.gals ∧ (s.reportPlane G p r b).regs = s.regs ∧ ∀ {F : Foot} {s0 : State}, F.fields.contains .net = true → F.fields.contains .reqs = true → F.fields.contains .seqNext = true → State.Within F s0 s → State.Within F s0 (s.reportPlane G p r b) := by
  unfold State.reportPlane
  split
  · exact ⟨rfl, rfl, fun h1 h2 h3 h => State.Within.send h _ h1 h2 h3⟩
  · exact ⟨rfl, rfl, fun _ _ _ h => h⟩

theorem State.gal_reportPlane (s : State) (G p r b H) : (s.reportPlane G p r b).gal H = s.gal H := by unfold State.gal; rw [(State.reportPlane_facts s G p r b).1]

theorem State.reg_reportPlane (s : State) (G p r b H) : (s.reportPlane G p r b).reg H = s.reg H := by unfold State.reg; rw [(State.reportPlane_facts s G p r b).2.1]

theorem State.fld_reportPlane (s : State) (G p r b H f) : (s.reportPlane G p r b).fld H f = s.fld H f := by unfold State.fld; rw [State.reg_reportPlane]

theorem State.Within.reportPlane {F : Foot} {s0 s : State} (h : State.Within F s0 s) (G p r b) (h1 : F.fields.contains .net = true) (h2 : F.fields.contains .reqs = true) (h3 : F.fields.contains .seqNext = true) : State.Within F s0 (s.reportPlane G p r b) :=
  (State.reportPlane_facts s G p r b).2.2 h1 h2 h3 h

theorem drainEq_facts (a) (g : Gal) : (drainEq a g).switching = g.switching ∧ (drainEq a g).shadow = g.shadow ∧ (drainEq a g).shared = g.shared ∧ (drainEq a g).live = g.live ∧
    (drainEq a g).srcNext = g.srcNext ∧ (drainEq a g).maskOld = g.maskOld := by
  unfold drainEq; split <;> exact ⟨rfl, rfl, rfl, rfl, rfl, rfl⟩

theorem OSt.code_lt (st : OSt) : st.code < 8 := by cases st <;> decide

theorem State.loadCheckHead_lt (s : State) (G r) (x : LoadRefusal) (h : s.loadCheckHead G r = some x) : x.1 < 16 := by
  unfold State.loadCheckHead at h
  dsimp only at h
  repeat' (split at h)
  all_goals (cases h; try decide)

theorem State.loadCheck_lt (s : State) (G r fo) (x : LoadRefusal) (h : s.loadCheck G r fo = some x) : x.1 < 16 := by
  unfold State.loadCheck at h
  iterate 6 (split at h; · cases h; decide)
  split at h
  · next y hy => cases h; exact State.loadCheckHead_lt _ _ _ _ hy
  · split at h
    · cases h; decide
    · cases h

theorem Sparse.find_del {α : Type} (m : Sparse α) (k : Nat) : Sparse.find (Sparse.del m k) k = none := Sparse.find_del_same m k

theorem State.gal_limStamp (u : State) (n G) : (u.limStamp n).gal G = u.gal G := rfl

theorem State.reg_limStamp (u : State) (n a) : (u.limStamp n).reg a = u.reg a := rfl

theorem State.gal_postLim (u : State) (k key per h i args G) : (u.postLim k key per h i args).gal G = u.gal G := by
  unfold State.postLim; dsimp only; split
  · rw [State.gal_post, State.gal_limStamp]
  · rfl

theorem State.reg_postLim (u : State) (k key per h i args a) (ha : a ≠ Reg.SYS_EVSTAT) : (u.postLim k key per h i args).reg a = u.reg a := by
  unfold State.postLim; dsimp only; split
  · rw [State.reg_post _ _ _ _ _ _ ha, State.reg_limStamp]
  · rfl

theorem State.gal_mirrorCe (u : State) (G k x H) : (u.mirrorCe G k x).gal H = u.gal H := by unfold State.mirrorCe; rw [State.gal_postLim, State.gal_incFld]

theorem State.reg_mirrorCe (u : State) (G k x a) (ha : a ≠ Reg.BOOT_SCRUB_CNT (G / 32)) (hb : a ≠ Reg.SYS_EVSTAT) : (u.mirrorCe G k x).reg a = u.reg a := by
  unfold State.mirrorCe; rw [State.reg_postLim _ _ _ _ _ _ _ _ hb, State.reg_incFld_ne _ _ _ _ _ ha]

theorem State.gal_foldl_mirrorCe (l : List (Fin 768)) (u : State) (G k H) : (l.foldl (fun s x => s.mirrorCe G k x.val) u).gal H = u.gal H :=
  foldl_same (fun s => s.gal H) _ _ _ (fun w x _ => State.gal_mirrorCe w _ _ _ _)

theorem State.reg_foldl_mirrorCe (l : List (Fin 768)) (u : State) (G k a) (ha : a ≠ Reg.BOOT_SCRUB_CNT (G / 32)) (hb : a ≠ Reg.SYS_EVSTAT) : (l.foldl (fun s x => s.mirrorCe G k x.val) u).reg a = u.reg a :=
  foldl_same (fun s => s.reg a) _ _ _ (fun w x _ => State.reg_mirrorCe w _ _ _ _ ha hb)

theorem State.gal_loadEnds (s : State) (G) (r : LoadReq) (rs) (f : LoadFacts) (h1 : (s.gal G).loadQ = r :: rs) : (s.loadEnds G r f).gal G = { s.gal G with loadQ := rs, loadBusy := false } := by
  unfold State.loadEnds
  dsimp only
  rw [State.gal_incFld, State.gal_setFld, State.gal_foldl_mirrorCe, State.gal_modGal, h1]
  rfl

theorem State.activePlane_congr {s t : State} (G) (h : t.reg (Reg.GAL_CTX_STAT G) = s.reg (Reg.GAL_CTX_STAT G)) : t.activePlane G = s.activePlane G := by
  unfold State.activePlane State.noPlane State.bit State.fld; rw [h]

theorem State.activePlane_setActive (u : State) (G p) (hp : p < 4) : (u.setActive G p).activePlane G = some p := by
  have h1 : (u.setActive G p).noPlane G = false := by
    unfold State.setActive State.noPlane State.bit; rw [State.fld_setFld _ _ _ _ (by decide)]; rfl
  have h2 : (u.setActive G p).fld (Reg.GAL_CTX_STAT G) Fl.GAL_CTX_STAT_ACTIVE = p := by
    unfold State.setActive; rw [State.fld_setFld_fld _ _ _ _ _ (by decide) (by decide), State.fld_setFld _ _ _ _ (by decide)]; exact Nat.mod_eq_of_lt hp
  unfold State.activePlane; rw [h1, h2]; rfl

theorem State.showSlot_facts (s : State) (G k st o i) (h : st < 8) (ho : o < 4) : (s.showSlot G k st o i).slotState G k = st ∧ (s.showSlot G k st o i).fld (Reg.GAL_SLOT G k) Fl.GAL_SLOT_ORIGIN = o := by
  unfold State.showSlot State.slotState
  rw [State.fld_setReg, State.fld_setReg, fieldOf_ofNat [] [] _ _ (by decide), fieldOf_ofNat [] [] _ _ (by decide)]
  simp [packBits, Fl.GAL_SLOT_STATE, Fl.GAL_SLOT_ORIGIN]; omega

theorem State.gal_bankDenied (u : State) (G p b k H) : (u.bankDenied G p b k).gal H = u.gal H := by unfold State.bankDenied; rw [State.gal_postLim, State.gal_incFld]

theorem State.gal_writeEnabled (l : List (Byte × Bool)) : ∀ (u : State) k H, (u.writeEnabled k l).gal H = u.gal H := by
  induction l with
  | nil => intro u k H; rfl
  | cons b l ih =>
    intro u k H
    rw [State.writeEnabled, ih]
    split <;> rfl

theorem State.regs_writeEnabled (u : State) (k l) : (u.writeEnabled k l).regs = u.regs := by
  induction l generalizing u k with
  | nil => rfl
  | cons b l ih => rw [State.writeEnabled, ih]; split <;> rfl

theorem State.clk_writeEnabled (u : State) (k l) : (u.writeEnabled k l).clk = u.clk := by
  induction l generalizing u k with
  | nil => rfl
  | cons b l ih => rw [State.writeEnabled, ih]; split <;> rfl

theorem State.qHid_modQ (s : State) (G b f) : (s.modQ G b f).qHid G b = f (s.qHid G b) := by
  unfold State.modQ State.qHid; rw [State.gal_modGal]; exact Sparse.get_set_same _ _ _ _

end Sys2Proof.Machine
end

