-- ==== Sys2Proof/Laws/FactsNetwork.lean ====
section
/-!
SUPPORT. Laws/FactsNetwork.lean: what single operations do and leave unchanged, and when two states agree on what they read: Gweak, arrivals and responses, requests at their targets, links and lens probes.
A name proj_op says what op does to proj.
-/
namespace Sys2Proof.Machine

theorem State.gwk_post (u : State) (k h i a H) : (u.post k h i a).gwk H = u.gwk H := by unfold State.gwk; rw [State.hall_post]

theorem State.hall_limStamp (u : State) (n H) : (u.limStamp n).hall H = u.hall H := rfl

theorem State.hall_postLim (u : State) (k key per h i args H) : (u.postLim k key per h i args).hall H = u.hall H := by
  unfold State.postLim; dsimp only; split
  · rw [State.hall_post, State.hall_limStamp]
  · rfl

theorem State.gwk_postLim (u : State) (k key per h i args H) : (u.postLim k key per h i args).gwk H = u.gwk H := by unfold State.gwk; rw [State.hall_postLim]

/-- What a trace record may touch. -/
def TraceSame (h : Nat) (s t : State) : Prop :=
  State.Within { regs := [Reg.GWK_TRACE_PTR h, Reg.SYS_EVSTAT], halls := [h], fields := [.ev, .free, .net, .reqs, .seqNext] } s t ∧
  (t.gwk h).flows = (s.gwk h).flows ∧ (t.gwk h).srvs = (s.gwk h).srvs ∧ (t.gwk h).delay = (s.gwk h).delay ∧ ∃ l, t.net = s.net ++ l

theorem TraceSame.refl (h s) : TraceSame h s s := ⟨State.Within.refl _ _, rfl, rfl, rfl, [], by simp⟩

theorem TraceSame.trans {h s t u} (a : TraceSame h s t) (b : TraceSame h t u) : TraceSame h s u := by
  obtain ⟨a1, a2, a3, a4, l, a5⟩ := a
  obtain ⟨b1, b2, b3, b4, m, b5⟩ := b
  exact ⟨a1.trans b1, b2.trans a2, b3.trans a3, b4.trans a4, l ++ m, by rw [b5, a5, List.append_assoc]⟩

theorem State.gwk_modGwk (s : State) (h f) : (s.modGwk h f).gwk h = f (s.gwk h) := by unfold State.modGwk State.gwk; rw [State.hall_modHall]

theorem TraceSame.flow_eq {h s t} (a : TraceSame h s t) (f) : t.flow h f = s.flow h f := by unfold State.flow; rw [a.2.1]

theorem TraceSame.srv_eq {h s t} (a : TraceSame h s t) (f) : t.srv h f = s.srv h f := by unfold State.srv; rw [a.2.2.1]

theorem TraceSame.net_mem {h s t} (a : TraceSame h s t) {p} (hp : p ∈ s.net) : p ∈ t.net := by obtain ⟨l, e⟩ := a.2.2.2.2; rw [e]; exact List.mem_append_left _ hp

theorem State.reg_modFlow (s : State) (h f g a) (ha : a ≠ Reg.GWK_FLOW_STAT h f) : (s.modFlow h f g).reg a = s.reg a := by
  unfold State.modFlow State.flowSync; dsimp only; rw [State.reg_setFld_ne _ _ _ _ _ ha, State.reg_setFld_ne _ _ _ _ _ ha]; rfl

theorem State.srv_modSrv (s : State) (h v g) : (s.modSrv h v g).srv h v = g (s.srv h v) := by
  unfold State.modSrv State.srv; rw [State.gwk_modGwk]; exact Sparse.get_set_same _ _ _ _

theorem State.srv_modSrv_ne (s : State) (h v w g) (e : w ≠ v) : (s.modSrv h v g).srv h w = s.srv h w := by
  unfold State.modSrv State.srv; rw [State.gwk_modGwk]; unfold Sparse.get; rw [Sparse.find_set_other _ _ _ _ _ e]

theorem State.flow_modSrv (s : State) (h v g f) : (s.modSrv h v g).flow h f = s.flow h f := by unfold State.modSrv State.flow; rw [State.gwk_modGwk]

theorem TraceSame.within {F : Foot} {h s0 s t} (w : State.Within F s0 s) (a : TraceSame h s t) (h1 : Reg.GWK_TRACE_PTR h ∈ F.regs) (h2 : Reg.SYS_EVSTAT ∈ F.regs) (h3 : h ∈ F.halls) (h4 : ∀ x ∈ [Field.ev, .free, .net, .reqs, .seqNext], x ∈ F.fields) : State.Within F s0 t :=
  w.trans (a.1.mono (by intro x hx; simp at hx; rcases hx with rfl | rfl <;> assumption) (by simp) (by simp) (by intro x hx; simp at hx; subst hx; exact h3) h4)

theorem State.flow_setFld (s : State) (a b n h f) : (s.setFld a b n).flow h f = s.flow h f := rfl

theorem State.gwk_setFld (s : State) (a b n h) : (s.setFld a b n).gwk h = s.gwk h := rfl

theorem State.flow_send (s : State) (p h f) : (s.send p).flow h f = s.flow h f := rfl

theorem State.srv_setFld (s : State) (a b n h f) : (s.setFld a b n).srv h f = s.srv h f := rfl

theorem dClass_lt (d : BitVec 256) : dClass d < 64 := by unfold dClass bitsOf; exact Nat.mod_lt _ (by decide)

theorem State.fld_congr {s t : State} {a : Nat} (f) (e : t.reg a = s.reg a) : t.fld a f = s.fld a f := by unfold State.fld; rw [e]

theorem State.fld_modSrv (s : State) (h v g a f) : (s.modSrv h v g).fld a f = s.fld a f := rfl

theorem State.flowEn_congr {s t : State} (h f) (e : t.reg (Reg.GWK_FLOW_CFG h f) = s.reg (Reg.GWK_FLOW_CFG h f)) : t.flowEn h f = s.flowEn h f := by
  unfold State.flowEn State.bit State.fld; rw [e]

theorem State.reg_writeFields_ne (s : State) (a v b) (h : b ≠ a) : (s.writeFields a v).reg b = s.reg b := by
  unfold State.writeFields; split
  · rfl
  · exact State.reg_setReg_ne _ _ _ _ h

theorem State.Within.writeFields {F : Foot} {s0 s : State} (w : State.Within F s0 s) (a v) (h : a ∈ F.regs) : State.Within F s0 (s.writeFields a v) := by
  unfold State.writeFields; split
  · exact w
  · exact w.setReg _ _ h

theorem State.gwk_writeFields (s : State) (a v h) : (s.writeFields a v).gwk h = s.gwk h := by
  unfold State.writeFields; split <;> rfl

theorem State.aclFind_none {s : State} {G off n q w} (h : ownRequest G q = true ∨ ∀ c ∈ bankChunks off n, s.aclAdmits G (bankOf c.1) q w = true) :
    (if ownRequest G q then none else ((bankChunks off n).map (fun c => bankOf c.1)).find? (fun b => !s.aclAdmits G b q w)) = none := by
  split
  · rfl
  · next hn =>
    rcases h with h | h
    · exact absurd h hn
    · rw [List.find?_eq_none]
      intro b hb
      obtain ⟨c, hc, rfl⟩ := List.mem_map.mp hb
      simp [h c hc]

theorem State.serve_memory {u : State} {q : Packet} {f} (h : q.dstNode.toNat < 32) (hp : q.dstPort = 2) (hc : q.cmd.toNat = 1 ∨ q.cmd.toNat = 2) : u.serve q f = u.memAccess (32 * q.dstHall.toNat + q.dstNode.toNat) q f := by
  unfold State.serve
  dsimp only
  rw [if_pos h, if_neg (by rw [hp]; decide), if_neg (by rw [hp]; decide), if_pos hc]

theorem portTakes_memory {q : Packet} (h : q.dstNode.toNat < 32) (hc : q.cmd.toNat ≤ 6) (tk : portTakes q.dstNode.toNat q.dstPort.toNat q.cmd.toNat = true) (hn : ∀ s : State, s.nobody q.dstHall.toNat q.dstNode.toNat q.dstPort.toNat = false) : q.dstPort = 2 := by
  have h1 := hn State.reset
  unfold State.nobody at h1
  rw [if_pos h] at h1
  unfold portTakes at tk
  rw [if_pos h] at tk
  have h2 : q.dstPort.toNat ≤ 2 := by simpa using h1
  apply BitVec.eq_of_toNat_eq
  show _ = 2
  split at tk
  · simp at tk; omega
  · split at tk
    · simp at tk; omega
    · omega

theorem State.nobody_gallery {s : State} {h n port} (hn : n < 32) : s.nobody h n port = decide (2 < port) := by unfold State.nobody; rw [if_pos hn]

theorem State.byteCheck_factsFrom (s : State) (k i d f) : s.byteCheck (k + i) i (factsFrom f d) = s.byteCheck (k + i) (d + i) f := by
  have e : ∀ l : List Nat, ((l.filter (fun i => decide (d ≤ i))).map (· - d)).contains i = l.contains (d + i) := by
    intro l
    rw [Bool.eq_iff_iff]
    simp only [List.contains_eq_mem, decide_eq_true_eq, List.mem_map, List.mem_filter]
    constructor
    · rintro ⟨a, ⟨h1, h2⟩, h3⟩; have : d + i = a := by omega
      exact this ▸ h1
    · intro h; exact ⟨d + i, ⟨h, by omega⟩, by omega⟩
  unfold State.byteCheck factsFrom
  dsimp only
  rw [e, e]

theorem bankOf_lt (x) : bankOf x < 32 := Nat.mod_lt _ (by decide)

theorem drop_take_map_range {α : Type} (g : Nat → α) (d m n : Nat) (h : d + m ≤ n) : (((List.range n).map g).drop d).take m = (List.range m).map (fun i => g (d + i)) := by
  apply List.ext_getElem
  · simp; omega
  · intro i h1 h2; simp

theorem State.placesWith_factsFrom {u : State} {k d m n f} (h : u.placesWith k n 2 f = []) (hd : d + m ≤ n) : u.placesWith (k + d) m 2 (factsFrom f d) = [] := by
  unfold State.placesWith at *
  rw [List.filter_eq_nil_iff] at *
  intro i hi
  have hi2 := List.mem_range.mp hi
  rw [State.byteCheck_factsFrom, Nat.add_assoc]
  exact h (d + i) (List.mem_range.mpr (by omega))

theorem State.checkedBytes_of_good {u : State} {k m f} (h : u.placesWith k m 2 f = []) : u.checkedBytes k m f = u.readBytes k m := by
  unfold State.placesWith at h
  rw [List.filter_eq_nil_iff] at h
  unfold State.checkedBytes State.readBytes
  apply List.map_congr_left
  intro i hi
  rw [if_neg]
  have := h i hi
  simpa using this

theorem State.readChunk_of_good (v : State) (G off n : Nat) (f : EccFacts) (s0 : List Byte) (c : Nat × Nat) (u : State) (hm : v.mem = u.mem) (he : v.memEpoch = u.memEpoch)
    (h1 : off ≤ c.1) (h2 : c.1 + c.2 ≤ off + n) (hp : u.placesWith (memBase G + off) n 2 f = []) :
    v.placesWith (memBase G + c.1) c.2 2 (factsFrom f (c.1 - off)) = [] ∧ v.checkedBytes (memBase G + c.1) c.2 (factsFrom f (c.1 - off)) = (List.range c.2).map (fun i => u.readByte (memBase G + off + (c.1 - off + i))) := by
  have e1 : ∀ k i f, v.byteCheck k i f = u.byteCheck k i f := by intro k i f; unfold State.byteCheck State.memByte; rw [hm, he]
  have e2 : ∀ k, v.readByte k = u.readByte k := by intro k; unfold State.readByte State.memByte; rw [hm, he]
  have p := State.placesWith_factsFrom (d := c.1 - off) (m := c.2) hp (by omega)
  have q : v.placesWith (memBase G + c.1) c.2 2 (factsFrom f (c.1 - off)) = [] := by
    rw [← p]; unfold State.placesWith; rw [show memBase G + off + (c.1 - off) = memBase G + c.1 by omega]
    congr 1; funext i; rw [e1]
  refine ⟨q, ?_⟩
  rw [State.checkedBytes_of_good q]
  unfold State.readBytes
  apply List.map_congr_left
  intro i _
  rw [e2]; congr 1; omega

def memWriteStep (G off : Nat) (l : List (Byte × Bool)) (ovt : List Nat) (r : State × Nat) (c : Nat × Nat) : State × Nat :=
      let s := r.1
      let st := fun (x : Nat) => if r.2 = 0 then x else r.2
      if !s.bankClockRuns G (bankOf c.1) then (s, st 4)
      else
        let i0 := c.1 - off
        let part := (l.zipIdx.drop i0).take c.2
        let hit := part.filter (fun x => x.1.2 && ovt.contains x.2)
        let beats := ((hit.map (fun x => (off + x.2) / 32)).eraseDups).length
        let wr := part.map (fun x => (x.1.1, x.1.2 && !ovt.contains x.2))
        let k := memBase G + c.1
        let keys := ((wr.zipIdx).filter (fun x => x.1.2)).map (fun x => k + x.2)
        let s := (s.cancelWb G (bankOf c.1) keys).writeEnabled k wr
        (s.incFld (Reg.GAL_MEM_STAT G) Fl.GAL_MEM_STAT_OVERTAKEN beats, st (if beats = 0 then 0 else 6))

theorem State.memWrite_foldl (u : State) (G off l ovt) : u.memWrite G off l ovt = (bankChunks off l.length).foldl (memWriteStep G off l ovt) (u, 0) := rfl

theorem regWord_selected (q write a) (r : State × OSt × List Word) (i : Nat) (h : regEnables q i = 15) (ha : q.addr.toNat / 64 * 64 - regBase = a) :
    regWord q .host write r i = (if write then ((r.1.writeReg .host (a + 4 * i) (regDatum q i)).1, firstSt r.2.1 (r.1.writeReg .host (a + 4 * i) (regDatum q i)).2, r.2.2 ++ [0])
      else ((r.1.readReg (a + 4 * i)).1, firstSt r.2.1 (r.1.readReg (a + 4 * i)).2.1, r.2.2 ++ [(r.1.readReg (a + 4 * i)).2.2])) := by
  unfold regWord regWordAt
  rw [h, ha]
  cases write <;> rfl

theorem regWord_unselected (q w write) (r : State × OSt × List Word) (i : Nat) (h : regEnables q i = 0) :
    regWord q w write r i = (r.1.draw, r.2.1, r.2.2 ++ [Config.freeWord r.1.free]) := by
  unfold regWord regWordAt
  rw [h]
  cases write <;> rfl

theorem regWord_foldl_unselected (q w write) : ∀ (l : List Nat) (_ : ∀ j ∈ l, regEnables q j = 0) (r : State × OSt × List Word), ∃ m : List Word, m.length = l.length ∧
    l.foldl (regWord q w write) r = (({ r.1 with free := r.1.free + l.length } : State), r.2.1, r.2.2 ++ m) := by
  intro l
  induction l with
  | nil => intro _ r; exact ⟨[], rfl, by simp⟩
  | cons j l ih =>
    intro h r
    rw [List.foldl_cons, regWord_unselected _ _ _ _ _ (h j (List.mem_cons_self ..))]
    obtain ⟨m, h1, h2⟩ := ih (fun y hy => h y (List.mem_cons_of_mem _ hy)) (r.1.draw, r.2.1, r.2.2 ++ [Config.freeWord r.1.free])
    refine ⟨Config.freeWord r.1.free :: m, by simp [h1], ?_⟩
    rw [h2]
    simp only [List.append_assoc, List.singleton_append, List.length_cons]
    congr 1
    show ({ r.1 with free := r.1.free + 1 + l.length } : State) = _
    rw [Nat.add_assoc, Nat.add_comm 1]

theorem regEnables_one (q : Packet) (i : Fin 16) (h : q.beFirst = BitVec.ofNat 64 (0xF * 2 ^ (4 * i.val))) : ∀ j, j < 16 → regEnables q j = if j = i then 15 else 0 := by
  intro j hj
  unfold regEnables
  dsimp only
  rw [if_pos (by omega), h]
  have : ∀ (i : Fin 16) (j : Fin 16), (BitVec.ofNat 64 (0xF * 2 ^ (4 * i.val))).toNat / 2 ^ (4 * (j.val % 16)) % 16 = if j.val = i.val then 15 else 0 := by decide +kernel
  exact this i ⟨j, hj⟩

theorem range16_split (i : Fin 16) : List.range 16 = List.range i ++ i.val :: (List.range (15 - i)).map (i.val + 1 + ·) := by revert i; decide

theorem State.serve_register {u : State} {q : Packet} {f} (hc : q.cmd.toNat = 0xC0 ∨ q.cmd.toNat = 0xC1) (tk : portTakes q.dstNode.toNat q.dstPort.toNat q.cmd.toNat = true) : u.serve q f = u.regRequest q := by
  unfold portTakes at tk
  unfold State.serve
  dsimp only
  by_cases h1 : q.dstNode.toNat < 32
  · rw [if_pos h1] at tk
    exfalso
    rcases hc with e | e <;> rw [e] at tk <;> (split at tk; revert tk; decide; split at tk; revert tk; decide; revert tk; decide)
  · rw [if_neg h1] at tk ⊢
    by_cases h2 : q.dstNode.toNat = 32
    · rw [if_pos h2] at tk
      exfalso
      rcases hc with e | e <;> rw [e] at tk <;> (split at tk; revert tk; decide; revert tk; decide)
    · rw [if_neg h2] at tk ⊢
      by_cases h3 : q.dstNode.toNat = 33
      · rw [if_pos h3] at tk; exfalso; rcases hc with e | e <;> rw [e] at tk <;> (revert tk; decide)
      · rw [if_neg h3] at tk ⊢
        by_cases h4 : q.dstNode.toNat = 34
        · rw [if_pos h4] at tk; exfalso; rcases hc with e | e <;> rw [e] at tk <;> (revert tk; decide)
        · rw [if_neg h4] at tk ⊢
          split at tk
          · exfalso; rcases hc with e | e <;> rw [e] at tk <;> (revert tk; decide)
          · next h5 =>
            rw [if_neg h5]
            split at tk
            · exfalso; rcases hc with e | e <;> rw [e] at tk <;> (revert tk; decide)
            · next h6 => rw [if_neg h6]

theorem regUnits_eq_one {q : Packet} (hc : q.cmd.toNat = 0xC0 ∨ q.cmd.toNat = 0xC1) (wf : wellFormedPacket q = true) : regUnits q = 1 := by
  unfold wellFormedPacket at wf
  unfold regUnits
  have c0 : q.cmd.toNat = 0xC0 → q.cmd = 0xC0 := fun e => BitVec.eq_of_toNat_eq e
  rcases hc with e | e
  · rw [if_pos (Or.inr (c0 e))]
    simp [e] at wf
    omega
  · have a1 : q.cmd ≠ 1 := by intro x; rw [x] at e; revert e; decide
    have a2 : q.cmd ≠ 0xC0 := by intro x; rw [x] at e; revert e; decide
    rw [if_neg (by rintro (x | x); exact a1 x; exact a2 x)]
    simp [e] at wf
    omega

theorem State.serve_vault {u : State} {q : Packet} {f} (h1 : q.dstNode.toNat = 36) (h2 : q.dstPort.toNat = 6) : u.serve q f = u.vaultRequest q (!f.ecc.ue.isEmpty) := by
  unfold State.serve
  dsimp only
  rw [h1, h2]
  simp

theorem State.fld_modQ (s : State) (G b f a g) : (s.modQ G b f).fld a g = s.fld a g := rfl

theorem State.reg_modQ (s : State) (G b f a) : (s.modQ G b f).reg a = s.reg a := rfl

theorem State.writeEnabled_mem (l : List (Byte × Bool)) (u : State) (k : Nat) : u.writeEnabled k l = { u with mem := (u.writeEnabled k l).mem } := by
  induction l generalizing u k with
  | nil => rfl
  | cons b l ih =>
    rw [State.writeEnabled, ih]
    split <;> rfl

theorem State.reg_rowWrite (s : State) (G off be wd a) : (s.rowWrite G off be wd).reg a = s.reg a := by
  unfold State.rowWrite; dsimp only; rw [State.writeEnabled_mem]; rfl

theorem State.fld_qMark (s : State) (G b f g) (h : f.lo + f.width ≤ g.lo ∨ g.lo + g.width ≤ f.lo) (hg : g.lo + g.width ≤ 32) : (s.qMark G b f).fld (Reg.GAL_Q_STAT G b) g = s.fld (Reg.GAL_Q_STAT G b) g := State.fld_setFld_fld _ _ _ _ _ hg h

theorem State.queueCommand_row {s : State} {q : Packet} (G off b : Nat) (f) (ho : q.addr.toNat / 64 * 64 - memBase G = off) (hbk : bankOf off = b) (h1 : memBase G ≤ q.addr.toNat) (h2 : off % 0x40000 = 0) (h3 : off < 0x800000) (h4 : s.galTesting G 0 = false)
    (h5 : s.qOn G b = true) (h6 : s.bankClockRuns G b = true) (h7 : s.queueBarred G q ((List.range ((if (q.cmd == 3) = true then q.units.toNat else q.runits.toNat) / 2)).map (fun i => s.qBank G b (((if (q.cmd == 3) = true then s.qTail G b else s.qHead G b) + i) % max 1 (s.qSize G b)))) = none) :
    s.queueCommand G q f = if (q.cmd == 3) = true then s.queuePush G b ((if (q.cmd == 3) = true then q.units.toNat else q.runits.toNat) / 2) q f.ovt else s.queuePop G b ((if (q.cmd == 3) = true then q.units.toNat else q.runits.toNat) / 2) q f.ecc := by
  unfold State.queueCommand
  dsimp only
  rw [ho, hbk, if_neg (by omega), if_neg (by simp [h4, h5, h6]), h7]

theorem State.serve_queue {u : State} {q : Packet} {f} (h : q.dstNode.toNat < 32) (hp : q.dstPort = 2) (hc : q.cmd.toNat = 3 ∨ q.cmd.toNat = 4) : u.serve q f = u.queueCommand (32 * q.dstHall.toNat + q.dstNode.toNat) q f := by
  unfold State.serve
  dsimp only
  rw [if_pos h, if_neg (by rw [hp]; decide), if_neg (by rw [hp]; decide), if_neg (by omega)]

theorem State.fld_qMark_set (s : State) (G b f) (h : f.lo + f.width ≤ 32) (hw : f.width = 1) : (s.qMark G b f).fld (Reg.GAL_Q_STAT G b) f = 1 := by
  unfold State.qMark; have e := State.fld_setFld s (Reg.GAL_Q_STAT G b) f 1 h; rw [hw] at e; exact e

theorem State.gwkItems_congr {s t : State} {h} (e : t.reg (Reg.GWK_STAT h) = s.reg (Reg.GWK_STAT h)) : t.gwkItems h = s.gwkItems h := State.fld_congr _ e

theorem State.deliver_facts (s : State) (h v : Nat) (d) (hh : h < 8) : (∀ f, (s.deliver h v d).flow h f = s.flow h f) ∧ (∀ a, a ≠ Reg.GWK_SRV h v → (s.deliver h v d).reg a = s.reg a) := by
  unfold State.deliver
  dsimp only
  constructor
  · intro f
    rw [State.flow_send]; unfold State.setSrvState; rw [State.flow_setFld, State.flow_modSrv]
    unfold State.flow; rw [State.gwk_modGwk]
  · intro a ha
    rw [State.reg_send]; unfold State.setSrvState; rw [State.reg_setFld_ne _ _ _ _ _ ha]; rfl

theorem State.flow_congr {s t : State} {h f} (e : t.gwk h = s.gwk h) : t.flow h f = s.flow h f := by unfold State.flow; rw [e]

theorem TraceSame.flowHolds_eq {h f : Nat} {s t : State} (a : TraceSame h s t) : t.flowHolds h f = s.flowHolds h f := by
  unfold State.flowHolds State.delayedOf; rw [TraceSame.flow_eq a, a.2.2.2.1]

theorem Sparse.get_put_eq {α : Type} (m : Sparse α) (d : α) (k : Nat) (v : α) : Sparse.get (Sparse.put m k v) d k = v := by
  unfold Sparse.get; rw [Sparse.find_put_same]; rfl

theorem State.eth_modEth (s : State) (h e f) : (s.modEth h e f).eth h e = f (s.eth h e) := by
  unfold State.modEth State.eth; rw [State.hall_modHall]; exact Sparse.get_set_same _ _ _ _

theorem State.link_modLink (s : State) (h i f) : (s.modLink h i f).link h i = f (s.link h i) := by
  unfold State.modLink State.link; rw [State.hall_modHall]; exact Sparse.get_set_same _ _ _ _

theorem State.link_modLink_ne (s : State) (h i j f) (e : j ≠ i) : (s.modLink h i f).link h j = s.link h j := by
  unfold State.modLink State.link; rw [State.hall_modHall]; unfold Sparse.get; rw [Sparse.find_set_other _ _ _ _ _ e]

theorem linkPeer_ne {i j : Nat} (e : linkPeer i = some j) : j ≠ i := by
  unfold linkPeer linkIx linkNode linkSide at e
  dsimp only at e
  repeat' split at e
  all_goals first | (cases e; done) | (simp only [Option.some.injEq] at e; omega)

theorem State.link_post (s : State) (k hh ii aa h i) : (s.post k hh ii aa).link h i = s.link h i := by unfold State.link; rw [State.hall_post]

theorem State.linkAbsent_congr {s t : State} (e : t.part = s.part) (h i) : t.linkAbsent h i = s.linkAbsent h i := by unfold State.linkAbsent; rw [e]

theorem State.part_post (s : State) (k hh ii aa) : (s.post k hh ii aa).part = s.part := (State.post_keeps (W := [.regs, .ev]) (State.Keeps.refl _ s) (by decide) _ _ _ _).part

theorem State.linkState_of_present {s t : State} {h i} (hp : t.part = s.part) (hs : s.linkState h i ≠ 3) : t.linkState h i = (t.link h i).st := by
  unfold State.linkState at *
  rw [State.linkAbsent_congr hp]
  split at hs
  · exact absurd rfl hs
  · next e => rw [if_neg e]

theorem State.st_link_of_linkState {s : State} {h i n} (hs : s.linkState h i = n) (hn : n ≠ 3) : (s.link h i).st = n := by
  rw [← State.linkState_of_present rfl (by rw [hs]; exact hn)]; exact hs

theorem corrEnds_of_corridorOf (h : HallIx) (k : Fin 3) (c : Nat) (e : corridorOf h k = some c) : c < 10 ∧ ((corrEnds c).1 = (h.val, k.val) ∨ (corrEnds c).2 = (h.val, k.val)) ∧ (corrEnds c).1 ≠ (corrEnds c).2 ∧ (corrEnds c).1.1 < 8 ∧ (corrEnds c).1.2 < 3 ∧ (corrEnds c).2.1 < 8 ∧ (corrEnds c).2.2 < 3 := by
  have : ∀ (h : Fin 8) (k : Fin 3), (corridorOf h k).all (fun c => decide (c < 10 ∧ ((corrEnds c).1 = (h.val, k.val) ∨ (corrEnds c).2 = (h.val, k.val)) ∧ (corrEnds c).1 ≠ (corrEnds c).2 ∧ (corrEnds c).1.1 < 8 ∧ (corrEnds c).1.2 < 3 ∧ (corrEnds c).2.1 < 8 ∧ (corrEnds c).2.2 < 3)) = true := by decide +kernel
  have t := this h k
  rw [e] at t
  simpa using t

theorem State.fld_corrShow (s : State) (h : HallIx) (k : Fin 3) (c : Nat) (e : corridorOf h k = some c) (f : Fld) (n : Nat) (hf : f.lo + f.width ≤ 32) :
    (s.corrShow c f n).fld (Reg.CORR_STAT h k) f = n % 2 ^ f.width ∧ (∀ g, g.lo + g.width ≤ 32 → f.lo + f.width ≤ g.lo ∨ g.lo + g.width ≤ f.lo → (s.corrShow c f n).fld (Reg.CORR_STAT h k) g = s.fld (Reg.CORR_STAT h k) g) := by
  obtain ⟨_, a, b, c1, c2, c3, c4⟩ := corrEnds_of_corridorOf h k c e
  unfold State.corrShow
  dsimp only
  generalize (corrEnds c).1 = x at *
  generalize (corrEnds c).2 = y at *
  have ne : Reg.CORR_STAT x.1 x.2 ≠ Reg.CORR_STAT y.1 y.2 := by
    have : x.1 ≠ y.1 ∨ x.2 ≠ y.2 := by
      by_cases q1 : x.1 = y.1
      · exact Or.inr (fun q2 => b (Prod.ext q1 q2))
      · exact Or.inl q1
    simp only [Reg.CORR_STAT, hallBase]; omega
  rcases a with a | a
  · rw [show h.val = x.1 by rw [a], show k.val = x.2 by rw [a]]
    constructor
    · rw [State.fld_setFld_ne _ _ _ _ _ _ ne, State.fld_setFld _ _ _ _ hf]
    · intro g h1 h2
      rw [State.fld_setFld_ne _ _ _ _ _ _ ne, State.fld_setFld_fld _ _ _ _ _ h1 h2]
  · rw [show h.val = y.1 by rw [a], show k.val = y.2 by rw [a]]
    constructor
    · rw [State.fld_setFld _ _ _ _ hf]
    · intro g h1 h2
      rw [State.fld_setFld_fld _ _ _ _ _ h1 h2, State.fld_setFld_ne _ _ _ _ _ _ (Ne.symm ne)]

theorem bitOf_packBits_five (f : Nat → Bool) (ch : Fin 5) : bitOf (packBits ([0, 1, 2, 3, 4].map (fun ch => (1, b2n (f ch)))) % 2 ^ 5) ch.val = f ch.val := by
  simp only [List.map_cons, List.map_nil]
  match ch with
  | 0 => show _ = f 0; cases f 0 <;> cases f 1 <;> cases f 2 <;> cases f 3 <;> cases f 4 <;> rfl
  | 1 => show _ = f 1; cases f 0 <;> cases f 1 <;> cases f 2 <;> cases f 3 <;> cases f 4 <;> rfl
  | 2 => show _ = f 2; cases f 0 <;> cases f 1 <;> cases f 2 <;> cases f 3 <;> cases f 4 <;> rfl
  | 3 => show _ = f 3; cases f 0 <;> cases f 1 <;> cases f 2 <;> cases f 3 <;> cases f 4 <;> rfl
  | 4 => show _ = f 4; cases f 0 <;> cases f 1 <;> cases f 2 <;> cases f 3 <;> cases f 4 <;> rfl

theorem State.reg_lensTrace (s : State) (h k fl st p lost a) (h1 : a ≠ Reg.LENS_TPTR h) (h2 : a ≠ Reg.SYS_EVSTAT) : (s.lensTrace h k fl st p lost).reg a = s.reg a := by
  unfold State.lensTrace
  dsimp only
  split
  · rfl
  · split
    · rw [State.reg_postLim _ _ _ _ _ _ _ _ h2, State.reg_incFld_ne _ _ _ _ _ h1]
    · split
      · rw [State.reg_setFld_ne _ _ _ _ _ h1]; rfl
      · rw [State.reg_setFld_ne _ _ _ _ _ h1, State.reg_setFld_ne _ _ _ _ _ h1]; rfl

theorem State.lensPat_congr {s t : State} {r : Nat → Nat} (e : ∀ w, w < 4 → t.reg (r w) = s.reg (r w)) : t.lensPat r = s.lensPat r := by
  unfold State.lensPat
  congr 1
  apply List.map_congr_left
  intro w hw
  rw [e w (List.mem_range.mp hw)]

theorem State.probeSees_congr {s t : State} {h k m n d dir p} (hh : h < 8) (hk : k < 8) (e : ∀ a, (a = Reg.LENS_CFG h k ∨ (∃ w, w < 4 ∧ (a = Reg.LENS_MASK h k w ∨ a = Reg.LENS_MATCH h k w))) → t.reg a = s.reg a) : t.probeSees h k m n d dir p = s.probeSees h k m n d dir p := by
  unfold State.probeSees State.bit
  dsimp only
  rw [State.lensPat_congr (r := Reg.LENS_MASK h k) (fun w hw => e _ (Or.inr ⟨w, hw, Or.inl rfl⟩)), State.lensPat_congr (r := Reg.LENS_MATCH h k) (fun w hw => e _ (Or.inr ⟨w, hw, Or.inr rfl⟩))]
  simp only [fun f => State.fld_congr f (e (Reg.LENS_CFG h k) (Or.inl rfl))]

theorem range8_split (k : Fin 8) : List.range 8 = List.range k ++ k.val :: (List.range (7 - k)).map (k.val + 1 + ·) := by revert k; decide

theorem State.net_lensSee (s : State) (h m n d dir p stall lost) : (s.lensSee h m n d dir p stall lost).net = s.net :=
  (State.lensSee_keeps (W := [.regs, .halls, .ev]) (State.Keeps.refl _ s) (by decide) _ _ _ _ _ _ _ _).rest .net rfl

theorem replace_self (l : List Packet) (p) : l.replace p p = l := by
  induction l with
  | nil => rfl
  | cons a l ih => rw [List.replace_cons, ih]; split <;> simp_all

theorem State.net_corrSettle (s : State) (c) : (s.corrSettle c).net = s.net :=
  (State.corrSettle_keeps (W := [.regs, .ev, .corrs]) (State.Keeps.refl _ s) (by decide) c).rest .net rfl

theorem State.reg_chanLate (s : State) (h c ch n a) (h1 : a ≠ Reg.OMI_LATE h) (h2 : a ≠ Reg.SYS_EVSTAT) : (s.chanLate h c ch n).reg a = s.reg a := by
  unfold State.chanLate
  dsimp only
  have w : (s.incFld (Reg.OMI_LATE h) Fl.OMI_LATE_COUNT n).reg a = s.reg a := State.reg_incFld_ne _ _ _ _ _ h1
  generalize s.incFld (Reg.OMI_LATE h) Fl.OMI_LATE_COUNT n = u at *
  split
  · rw [State.reg_post _ _ _ _ _ _ h2, show ∀ (u : State) f, (u.modCorr c f).reg a = u.reg a from fun _ _ => rfl, w]
  · exact w

theorem State.reg_lensSee (s : State) (h m n d dir p st lost a) (hh : h < 8) (h0 : a < hallBase h 0x20000 ∨ hallBase h 0x30000 ≤ a) (h2 : a ≠ Reg.SYS_EVSTAT) : (s.lensSee h m n d dir p st lost).reg a = s.reg a := by
  unfold State.lensSee
  split
  · rfl
  · refine foldl_same (fun s => s.reg a) _ _ _ (fun u k hk => ?_)
    have hk := List.mem_range.mp hk
    dsimp only
    split
    · rw [State.reg_lensTrace _ _ _ _ _ _ _ _ (by simp only [Reg.LENS_TPTR, hallBase] at *; omega) h2, State.reg_incFld_ne _ _ _ _ _ (by simp only [Reg.LENS_STALL, hallBase] at *; omega),
        State.reg_incFld_ne _ _ _ _ _ (by simp only [Reg.LENS_FLITS, hallBase] at *; omega), State.reg_incFld_ne _ _ _ _ _ (by simp only [Reg.LENS_PKTS, hallBase] at *; omega)]
    · rfl

theorem State.reqs_istatAdd (s : State) (r : Packet) (st lat) : (s.istatAdd r st lat).reqs = s.reqs ∧ (s.istatAdd r st lat).regs = s.regs := ⟨rfl, rfl⟩

theorem State.reg_domBack (s : State) (h d : Nat) (a) (h1 : a ≠ Reg.PWR_DSTAT h d) : (s.domBack h d).reg a = s.reg a := by
  unfold State.domBack
  split
  · rw [show ∀ u : State, (u.endChange h d).reg a = u.reg a from fun _ => rfl]
    unfold State.setDom
    exact State.reg_setFld_ne _ _ _ _ _ h1
  · rfl

theorem State.reg_withdrawWake (s : State) (h d : Nat) (a) (h1 : a ≠ Reg.PWR_DSTAT h d) (h2 : a ≠ Reg.PWR_DSTAT h 64) : (s.withdrawWake h d).reg a = s.reg a := by
  unfold State.withdrawWake
  split
  · rfl
  · split
    · rfl
    · split
      · dsimp only
        split
        · rw [State.reg_domBack _ _ _ _ h2]; exact State.reg_domBack _ _ _ _ h1
        · exact State.reg_domBack _ _ _ _ h1
      · rfl

end Sys2Proof.Machine
end

