-- ==== Sys2Proof/Laws/FactsMemory.lean ====
section
/-!
SUPPORT. Laws/FactsMemory.lean: what single operations do and leave unchanged, and when two states agree on what they read: encrypted ranges, memory ports, lanes, clocks, admission and the management port.
A name proj_op says what op does to proj.
-/
namespace Sys2Proof.Machine

theorem State.portCommand_of_performs (s : State) (op d c run) (h : s.portPerforms op d c = true) : s.portCommand op d c run = (run (s.portAccept op c)).1.portEnd c (run (s.portAccept op c)).2 := by
  unfold State.portPerforms at h
  simp only [Bool.and_eq_true, beq_iff_eq, Bool.or_eq_true, Bool.not_eq_true'] at h
  obtain ⟨⟨⟨⟨h1, h2⟩, h3⟩, h4⟩, h5⟩ := h
  unfold State.portCommand
  rw [h1, h3, if_neg (by simp), if_neg (by rw [Option.isNone_iff_eq_none] at h2; simp [h2]), if_neg (by simp), if_neg (by rw [h4]; simp)]
  rw [if_neg (by rcases h5 with h5 | h5 <;> simp [h5])]

theorem State.readWords_length (a n : Nat) : ∀ (s : State) (a : Nat), (((s.readWords a n).2.1 = .ok → (s.readWords a n).2.2.length = 4 * n) ∧ (s.readWords a n).2.2.length ≤ 4 * n ∧ (s.readWords a n).2.2.length % 4 = 0) := by
  induction n with
  | zero => intro s a; simp [State.readWords]
  | succ n ih =>
    intro s a
    unfold State.readWords
    split
    · simp
    · dsimp only
      generalize (s.wordAsked a false false).readReg a = x
      split
      · rename_i h; refine ⟨fun e => absurd e h, by simp, by simp⟩
      · have := ih (x.1.wordAnswered a false x.2.1) (a + 4)
        have l : (bytesOf 4 x.2.2).length = 4 := by simp [bytesOf]
        refine ⟨fun e => ?_, ?_, ?_⟩
        · rw [List.length_append, l, this.1 e]; omega
        · rw [List.length_append, l]; omega
        · rw [List.length_append, l]; omega

theorem State.portLost_portAccept (s : State) (op c a) : (s.portAccept op c).portLost a = s.portLost a := rfl

theorem hallOfStack_lt (m : StackIx) : hallOfStack m < 8 ∧ stackOfHall (hallOfStack m) = m.val := by revert m; decide

theorem State.range_modRange (s : State) (h r f) : (s.modRange h r f).range h r = f (s.range h r) := by
  unfold State.modRange State.range State.modMee State.mee; rw [State.hall_modHall]; exact Sparse.get_set_same _ _ _ _

theorem State.fld_modRange (s : State) (h r f a g) : (s.modRange h r f).fld a g = s.fld a g := rfl

theorem State.Keeps.mono {W V : List Field} {s t : State} (h : s.Keeps W t) (hw : Field.sub W V = true) : s.Keeps V t :=
  ⟨h.part, h.pending, h.now, h.otp, h.mem, h.ev, h.adm, fun x hx => h.rest x (Field.out hw hx)⟩

theorem State.range_congr {s t : State} {h r} (e : t.hall h = s.hall h) : t.range h r = s.range h r := by unfold State.range State.mee; rw [e]

theorem State.meeAsk_keeps_regs (s : State) (h r) : s.Keeps [.regs, .ev, .adm] (s.meeAsk h r) := by
  unfold State.meeAsk
  dsimp only
  split
  · exact State.Keeps.refl _ s
  · unfold State.admRequest State.admTimedOut
    dsimp only
    split
    · exact State.Keeps.refl _ s
    · split
      · exact State.post_keeps (State.Keeps.refl _ s) (by decide) _ _ _ _
      · next hl => exact State.startReading_keeps ((State.Keeps.refl _ s).admPush (by decide) _ hl) (by decide) _

theorem State.reg_meeAsk (s : State) (h r a) (h1 : a ≠ Reg.THERM_HALL h) (h2 : a ≠ Reg.SYS_EVSTAT) : (s.meeAsk h r).reg a = s.reg a := by
  unfold State.meeAsk
  dsimp only
  split
  · rfl
  · unfold State.admRequest State.admTimedOut
    dsimp only
    split
    · rfl
    · split
      · rw [State.reg_post _ _ _ _ _ _ h2]
      · unfold State.startReading; rw [State.reg_setFld_ne _ _ _ _ _ h1]; rfl

theorem State.meeAsk_queue (s : State) (m : StackIx) (r) (h1 : s.stopping = false) (h2 : s.stop.cut = false) (h3 : s.adm.queue.length < 64)
    (h4 : s.adm.queue.any (fun x => decide (x.who = .mee m r)) = false) : (s.meeAsk (hallOfStack m) r).adm.queue = s.adm.queue ++ [⟨9, hallOfStack m, .mee m r, s.now⟩] := by
  unfold State.meeAsk
  dsimp only
  rw [(hallOfStack_lt m).2, if_neg (by simp only [h4]; decide)]
  unfold State.admRequest
  rw [if_neg (by simp [h1, h2]), if_neg (by omega)]
  rfl

theorem State.mee_foldl_modPc (h : Nat) (f : PcSt → PcSt) (l : List Nat) (s : State) : (l.foldl (fun s pc => s.modPc h pc f) s).mee h = s.mee h ∧ (l.foldl (fun s pc => s.modPc h pc f) s).adm = s.adm ∧
    (l.foldl (fun s pc => s.modPc h pc f) s).regs = s.regs ∧ s.Keeps [.halls] (l.foldl (fun s pc => s.modPc h pc f) s) := by
  refine ⟨foldl_same (fun s => s.mee h) _ _ _ (fun u x _ => ?_), foldl_same (fun s => s.adm) _ _ _ (fun u x _ => rfl), foldl_same (fun s => s.regs) _ _ _ (fun u x _ => rfl),
    keeps_foldl _ _ (State.Keeps.refl _ s) (fun u x hu => State.modPc_keeps hu (by decide) _ _ _)⟩
  show (State.modPc u h x f).mee h = _
  unfold State.modPc State.modHbm State.mee; rw [State.hall_modHall]

theorem State.loseRange_facts (s : State) (h r) : (s.loseRange h r).halls = s.halls ∧ (s.loseRange h r).adm = s.adm ∧ (s.loseRange h r).regs = s.regs ∧ s.Keeps [.mem] (s.loseRange h r) := by
  have k : s.Keeps [.mem] (s.loseRange h r) := State.loseRange_keeps (State.Keeps.refl _ s) (by decide) _ _
  exact ⟨k.rest .halls rfl, k.rest .adm rfl, k.rest .regs rfl, k⟩

theorem State.range_setFld (s : State) (a f n h r) : (s.setFld a f n).range h r = s.range h r := rfl

theorem State.reg_foldl_clrKey (h : Nat) (hh : h < 8) (b : Nat) (hb : ∀ w, w < 8 → b ≠ Reg.MEE_KEY h w) : ∀ (l : List Nat) (_ : ∀ w ∈ l, w < 8) (s : State), (l.foldl (fun s w => s.clrReg (Reg.MEE_KEY h w)) s).reg b = s.reg b := by
  intro l
  induction l with
  | nil => intro _ s; rfl
  | cons a l ih =>
    intro hl s
    rw [List.foldl_cons, ih (fun w hw => hl w (List.mem_cons_of_mem _ hw))]
    unfold State.clrReg
    exact State.reg_setReg_ne _ _ _ _ (hb a (hl a (List.mem_cons_self ..)))

theorem resetWord_MEE_KEY : ∀ (m : StackIx) (w : Fin 8), resetWord (Reg.MEE_KEY (hallOfStack m) w) = 0 := by decide

theorem State.clrKeys_keeps (h : Nat) (s : State) : s.Keeps [.regs] ((List.range 8).foldl (fun s w => s.clrReg (Reg.MEE_KEY h w)) s) :=
  keeps_foldl _ _ (State.Keeps.refl _ s) (fun u x hu => State.clrReg_keeps hu (by decide) _)

theorem State.fld_admRelease (s : State) (k w a f) : (s.admRelease k w).fld a f = s.fld a f := rfl

theorem State.mee_modMee (s : State) (h f) : (s.modMee h f).mee h = f (s.mee h) := by unfold State.modMee State.mee; rw [State.hall_modHall]

theorem State.treeOf_congr {s t : State} {h r i} (e1 : t.reg (Reg.MEE_STAT h r) = s.reg (Reg.MEE_STAT h r)) (e2 : t.reg (Reg.MEE_BOUND h r) = s.reg (Reg.MEE_BOUND h r))
    (e3 : (t.range h r).begun = (s.range h r).begun ) : t.underNext h r i = s.underNext h r i := by
  unfold State.underNext State.meeState State.bound; rw [e3, State.fld_congr _ e1, State.fld_congr _ e2]

theorem State.hbm_setFld (s : State) (a f n h) : (s.setFld a f n).hbm h = s.hbm h := rfl

theorem State.hbm_modHbm (s : State) (h f) : (s.modHbm h f).hbm h = f (s.hbm h) := by unfold State.modHbm State.hbm; rw [State.hall_modHall]

theorem State.pc_modPc (s : State) (h p f) : (s.modPc h p f).pc h p = f (s.pc h p) := by
  unfold State.modPc State.pc; rw [State.hbm_modHbm]; exact Sparse.get_set_same _ _ _ _

theorem State.pc_modPc_ne (s : State) (h p q f) (e : q ≠ p) : (s.modPc h p f).pc h q = s.pc h q := by
  unfold State.modPc State.pc; rw [State.hbm_modHbm]; unfold Sparse.get; dsimp only; rw [Sparse.find_set_other _ _ _ _ _ e]

theorem Sparse.find_map {α : Type} (m : Sparse α) (f : α → α) (k) : Sparse.find (m.map (fun x => (x.1, f x.2))) k = (Sparse.find m k).map f := by
  induction m with
  | nil => rfl
  | cons a l ih =>
    show Sparse.find ((a.1, f a.2) :: _) k = _
    unfold Sparse.find
    split
    · rfl
    · first | exact ih | (split <;> first | rfl | exact ih)

theorem hasPort_hallOfStack (m : StackIx) : hasPort (hallOfStack m) = true := by revert m; decide

theorem State.lane_modLane (s : State) (h l f) : (s.modLane h l f).lane h l = f (s.lane h l) := by
  unfold State.modLane State.lane; rw [State.hall_modHall]; exact Sparse.get_set_same _ _ _ _

theorem State.lane_congr {s t : State} {h l} (e : t.halls = s.halls) : t.lane h l = s.lane h l := by unfold State.lane State.hall; rw [e]

theorem State.halls_send (u : State) (p : Packet) : (u.send p).halls = u.halls :=
  (State.send_keeps (W := [.net, .reqs, .seqNext]) (State.Keeps.refl _ u) (by decide) p).rest .halls rfl

theorem State.Within.foldl_mem {α : Type} {F : Foot} {s : State} (l : List α) (f : State → α → State) :
    ∀ t, State.Within F s t → (∀ u x, x ∈ l → State.Within F s u → State.Within F s (f u x)) → State.Within F s (l.foldl f t) := by
  induction l with
  | nil => intro t h _; exact h
  | cons x l ih => intro t h hf; exact ih _ (hf _ _ (List.mem_cons_self ..) h) (fun u y hy => hf u y (List.mem_cons_of_mem _ hy))

theorem State.clk_writeFields (s : State) (a : Nat) (v : Word) : (s.writeFields a v).clk = s.clk := by unfold State.writeFields; split <;> rfl

theorem State.Within.setLock {F : Foot} {s t : State} (h : State.Within F s t) (k : Nat) (f : Fld) (i : Nat) (b : Bool) (ha : Reg.HCLK_STAT k ∈ F.regs) : State.Within F s (t.setLock k f i b) :=
  State.Within.setFldBit h _ _ _ _ ha

theorem State.bit_setLock (s : State) (h : Nat) (f : Fld) (i : Nat) (b : Bool) (hf : f.lo + f.width ≤ 32) (hj : i < f.width) : bitOf ((s.setLock h f i b).fld (Reg.HCLK_STAT h) f) i = b := by
  unfold State.setLock
  have := State.bit_setFldBit s (Reg.HCLK_STAT h) f i i b hf hj
  rw [this]; simp

theorem any_range_four (p : Nat → Bool) : ((List.range 4).any p = true ↔ ∃ l < 4, p l = true) := by simp [List.any_eq_true, List.mem_range]

theorem State.deepStopped_setDeepOff (s : State) (h i : Nat) (b : Bool) (j : Nat) : (s.setDeepOff h i b).deepStopped h j = if j = i then b else s.deepStopped h j := by
  unfold State.deepStopped State.setDeepOff
  dsimp only
  exact (congrArg (fun n => bitOf n j) (Sparse.get_set_same s.clk.deepOff 0 h _)).trans (bitOf_setBit_eq _ _ _ _)

theorem any_range_congr (n : Nat) (p q : Nat → Bool) (h : ∀ x < n, p x = q x) : (List.range n).any p = (List.range n).any q := by
  rw [Bool.eq_iff_iff, List.any_eq_true, List.any_eq_true]
  constructor
  · rintro ⟨x, hx, e⟩; exact ⟨x, hx, by rw [← h x (List.mem_range.mp hx)]; exact e⟩
  · rintro ⟨x, hx, e⟩; exact ⟨x, hx, by rw [h x (List.mem_range.mp hx)]; exact e⟩

theorem State.pllUsed_congr (s u : State) (k i d) (h : ∀ G, ∀ n < 8, u.reg (Reg.GAL_CLKSEL G n) = s.reg (Reg.GAL_CLKSEL G n))
    (h2 : ∀ b c, u.reg (Reg.HCLK_PAD k b c) = s.reg (Reg.HCLK_PAD k b c)) : u.pllUsed k i d = s.pllUsed k i d := by
  unfold State.pllUsed State.padFrom State.branchSrc State.bit State.fld
  simp only [h2]
  congr 1
  refine any_range_congr _ _ _ (fun g _ => any_range_congr _ _ _ (fun n hn => ?_))
  rw [h _ n hn]

theorem State.firstGrant_some (s : State) : ∀ (l : List AdmReq) (b : List Nat) (p : Bool) (r c), s.firstGrant b p l = some (r, c) → r ∈ l ∧ c = s.admCost r.kind r.hall ∧
      s.hallUsed r.hall + c ≤ s.fld (Reg.PWR_HCAP r.hall) Fl.PWR_HCAP_CAP ∧ s.pkgUsed + c ≤ s.fld Reg.PWR_BUDGET Fl.PWR_BUDGET_BUDGET ∧
      s.admDenied r.kind r.hall = false ∧ s.admOpen r.kind = true := by
  intro l
  induction l with
  | nil => intro b p r c h; cases h
  | cons x l ih =>
    intro b p r c h
    unfold State.firstGrant at h
    dsimp only at h
    split at h
    · next hc =>
      cases h
      simp only [Bool.and_eq_true, decide_eq_true_eq, Bool.not_eq_true'] at hc
      exact ⟨List.mem_cons_self .., rfl, hc.1.1.1.1, hc.2.2, hc.1.1.1.2, hc.1.2⟩
    · have := ih _ _ _ _ h
      exact ⟨List.mem_cons_of_mem _ this.1, this.2⟩

theorem State.askAgain_nil (s : State) (h : s.adm.again = []) : s.askAgain = s := by
  unfold State.askAgain
  split
  · rfl
  · rw [h]; show ({ s with adm := { s.adm with again := [] } } : State) = s
    rw [← h]

end Sys2Proof.Machine
end

