-- ==== Sys2Proof/Laws/FactsShared.lean ====
section
/-!
SUPPORT. Laws/FactsShared.lean: the gates of a write from the port, and what a context-clock edge, a server's entry, a trace record and a packet's arrival change.
A name proj_op says what op does to proj.
-/
namespace Sys2Proof.Machine

theorem State.calResume_same (s : State) : s.calResume.boot = s.boot ∧ ∀ a, s.calResume.reg a = s.reg a := by
  have k : s.Keeps [.cal] s.calResume := by
    unfold State.calResume
    refine keeps_foldl _ _ (State.Keeps.refl _ s) (fun u x hu => ?_)
    split
    · exact State.calBegin_keeps hu (by decide) x
    · exact hu
  exact ⟨k.rest .boot rfl, fun a => by unfold State.reg; rw [k.rest .regs rfl]⟩

theorem State.reg_traceAdvance (u : State) (h n a) (h4 : a ≠ Reg.GWK_TRACE_PTR h) : (u.traceAdvance h n).reg a = u.reg a := by
  unfold State.traceAdvance; dsimp only
  split
  · exact State.reg_setFld_ne _ _ _ _ _ h4
  · exact (State.reg_setFld_ne _ _ _ _ _ h4).trans (State.reg_setFld_ne _ _ _ _ _ h4)

theorem State.reg_traceLost (u : State) (h a) (h1 : a ≠ Reg.SYS_EVSTAT) (h4 : a ≠ Reg.GWK_TRACE_PTR h) : (u.traceLost h).reg a = u.reg a := by
  unfold State.traceLost; dsimp only
  exact (State.reg_postLim _ _ _ _ _ _ _ _ h1).trans (State.reg_incFld_ne _ _ _ _ _ h4)

theorem State.reg_gwkTrace (u : State) (h x1 x2 x3 x4 x5 x6 a) (h1 : a ≠ Reg.SYS_EVSTAT) (h4 : a ≠ Reg.GWK_TRACE_PTR h) : (u.gwkTrace h x1 x2 x3 x4 x5 x6).reg a = u.reg a := by
  unfold State.gwkTrace
  dsimp only
  split
  · rfl
  · split
    · exact (State.reg_traceAdvance _ _ _ _ h4).trans rfl
    · split
      · exact State.reg_traceLost _ _ _ h1 h4
      · split
        · exact (State.reg_traceLost _ _ _ h1 h4).trans rfl
        · exact (State.reg_traceAdvance _ _ _ _ h4).trans rfl

theorem State.reg_showSrv (u : State) (h v st id a) (h3 : a ≠ Reg.GWK_SRV h v) : (u.showSrv h v st id).reg a = u.reg a := by
  unfold State.showSrv; dsimp only
  exact (State.reg_setFld_ne _ _ _ _ _ h3).trans ((State.reg_setFld_ne _ _ _ _ _ h3).trans rfl)

theorem State.reg_setSrvState (u : State) (h v st a) (h3 : a ≠ Reg.GWK_SRV h v) : (u.setSrvState h v st).reg a = u.reg a := by
  unfold State.setSrvState
  exact State.reg_setFld_ne _ _ _ _ _ h3

theorem State.reg_addServers (s : State) (h g a) (h1 : a ≠ Reg.SYS_EVSTAT) (h2 : a ≠ Reg.GAL_CTX_STAT (srvGal h g)) (h3 : ∀ v, v < 4 → a ≠ Reg.GWK_SRV h (4 * g + v))
    (h4 : a ≠ Reg.GWK_TRACE_PTR h) : (s.addServers h g).reg a = s.reg a := by
  unfold State.addServers
  dsimp only
  rw [State.reg_gwkTrace _ _ _ _ _ _ _ _ _ h1 h4, State.reg_post _ _ _ _ _ _ h1, State.reg_setFld_ne _ _ _ _ _ h2]
  refine foldl_same (fun s => s.reg a) _ _ _ (fun u p hp => ?_)
  have n3 := h3 p (List.mem_range.mp hp)
  refine (State.reg_showSrv _ _ _ _ _ _ n3).trans ((State.reg_setSrvState _ _ _ _ _ n3).trans ((State.reg_setReg_ne _ _ _ _ n3).trans rfl))

theorem State.reg_addServersIf (s : State) (h g a) (h1 : a ≠ Reg.SYS_EVSTAT) (h2 : a ≠ Reg.GAL_CTX_STAT (srvGal h g)) (h3 : ∀ v, v < 4 → a ≠ Reg.GWK_SRV h (4 * g + v))
    (h4 : a ≠ Reg.GWK_TRACE_PTR h) : (s.addServersIf h g).reg a = s.reg a := by
  unfold State.addServersIf
  split
  · exact State.reg_addServers _ _ _ _ h1 h2 h3 h4
  · rfl

theorem State.reg_contextEdge (s : State) (G a) (h1 : a ≠ Reg.SYS_EVSTAT) (h2 : a ≠ Reg.GAL_CTX_STAT G) (h3 : ∀ v, v < 4 → a ≠ Reg.GWK_SRV (G / 32) (4 * (G % 32) + v))
    (h4 : a ≠ Reg.GWK_TRACE_PTR (G / 32)) (h5 : a ≠ Reg.GAL_CTX_CFG G) : (s.contextEdge G).reg a = s.reg a := by
  have e : srvGal (G / 32) (G % 32) = G := by unfold srvGal; omega
  unfold State.contextEdge
  split
  · dsimp only
    refine Eq.trans (b := State.reg (match (s.gal G).srcNext with
      | some n => if n = 2 then (s.setFld (Reg.GAL_CTX_CFG G) Fl.GAL_CTX_CFG_SRC n).addServersIf (G / 32) (G % 32) else s.setFld (Reg.GAL_CTX_CFG G) Fl.GAL_CTX_CFG_SRC n
      | none => s) a) rfl ?_
    split
    · split
      · exact (State.reg_addServersIf _ _ _ _ h1 (by rw [e]; exact h2) h3 h4).trans (State.reg_setFld_ne _ _ _ _ _ h5)
      · exact State.reg_setFld_ne _ _ _ _ _ h5
    · rfl
  · rfl

theorem State.contextEdge_of_nothing_waiting (s : State) (G) (h1 : (s.gal G).srcNext = none) (h2 : (s.gal G).maskOld = []) : s.contextEdge G = s := by
  unfold State.contextEdge; simp [h1, h2]

theorem State.branchCaptures_waiting (s : State) (G n) : ((s.branchCaptures G n).gal G).srcNext = (s.gal G).srcNext ∧ ((s.branchCaptures G n).gal G).maskOld = (s.gal G).maskOld := by
  unfold State.branchCaptures
  split
  · exact ⟨rfl, rfl⟩
  · split
    · exact ⟨rfl, rfl⟩
    · unfold State.captureBits
      rw [show ∀ u : State, u.draw.gal G = u.gal G from fun _ => rfl, State.gal_modGal]; exact ⟨rfl, rfl⟩

theorem State.reg_branchCaptures (s : State) (G n a) : (s.branchCaptures G n).reg a = s.reg a := by
  unfold State.branchCaptures
  split
  · rfl
  · split <;> rfl

theorem State.activePlane_lt (s : State) (G p) (h : s.activePlane G = some p) : p < 4 := by
  unfold State.activePlane at h
  split at h
  · cases h
  · cases h; exact Nat.mod_lt _ (by decide)

theorem State.gal_addServersIf (s : State) (h g H) : (s.addServersIf h g).gal H = s.gal H := by
  unfold State.gal
  rw [(State.addServersIf_keeps (W := [.regs, .halls, .ev, .net, .reqs, .seqNext, .free]) (State.Keeps.refl _ s) (by decide) h g).rest .gals rfl]

theorem State.gal_branchCaptures (s : State) (G n) : ∃ l, (s.branchCaptures G n).gal G = { s.gal G with live := l } ∧ (s.bordersHeld G = true → l = (s.gal G).live) := by
  unfold State.branchCaptures
  split
  · exact ⟨_, rfl, fun _ => rfl⟩
  · split
    · exact ⟨_, rfl, fun _ => rfl⟩
    · next hb =>
      unfold State.captureBits
      rw [show ∀ u : State, u.draw.gal G = u.gal G from fun _ => rfl, State.gal_modGal]
      exact ⟨_, rfl, fun h => absurd h (by simpa using hb)⟩

/-- What the branches of a gallery change in its record. -/
def Gal.BranchSame (hb : Bool) (g g' : Gal) : Prop := ∃ l sn mo, g' = { g with live := l, srcNext := sn, maskOld := mo } ∧ (hb = true → l = g.live)

theorem Gal.BranchSame.refl (hb g) : Gal.BranchSame hb g g := ⟨_, _, _, rfl, fun _ => rfl⟩

theorem Gal.BranchSame.trans {hb a b c} (h : Gal.BranchSame hb a b) (k : Gal.BranchSame hb b c) : Gal.BranchSame hb a c := by
  obtain ⟨l, sn, mo, e, f⟩ := h
  obtain ⟨l', sn', mo', e', f'⟩ := k
  refine ⟨l', sn', mo', by rw [e', e], fun x => ?_⟩
  rw [f' x, e]; exact f x

theorem Gal.BranchSame.held {hb} {s t : State} {G} (h : Gal.BranchSame hb (s.gal G) (t.gal G)) (e : t.noPlane G = s.noPlane G) : t.bordersHeld G = s.bordersHeld G := by
  obtain ⟨l, sn, mo, e', _⟩ := h
  unfold State.bordersHeld; rw [e', e]

theorem State.reg_branchUpdate (s : State) (G n a) (h0 : a ≠ Reg.GAL_CLKSTAT G) (h1 : a ≠ Reg.SYS_EVSTAT) (h2 : a ≠ Reg.GAL_CTX_STAT G) (h3 : ∀ v, v < 4 → a ≠ Reg.GWK_SRV (G / 32) (4 * (G % 32) + v))
    (h4 : a ≠ Reg.GWK_TRACE_PTR (G / 32)) (h5 : a ≠ Reg.GAL_CTX_CFG G) : (s.branchUpdate G n).reg a = s.reg a := by
  unfold State.branchUpdate
  dsimp only
  generalize hx : State.setFldBit (State.setFldBit s _ _ _ _) _ _ _ _ = x
  have xr : x.reg a = s.reg a := by rw [← hx, State.reg_setFldBit_ne _ _ _ _ _ _ h0, State.reg_setFldBit_ne _ _ _ _ _ _ h0]
  split
  · rw [State.reg_contextEdge _ _ _ h1 h2 h3 h4 h5, State.reg_branchCaptures, xr]
  · exact xr

theorem State.reg_switchStarts (s : State) (G a) (h0 : a ≠ Reg.GAL_CLKSTAT G) (h1 : a ≠ Reg.SYS_EVSTAT) (h2 : a ≠ Reg.GAL_CTX_STAT G) (h3 : ∀ v, v < 4 → a ≠ Reg.GWK_SRV (G / 32) (4 * (G % 32) + v))
    (h4 : a ≠ Reg.GWK_TRACE_PTR (G / 32)) (h5 : a ≠ Reg.GAL_CTX_CFG G) : (s.switchStarts G).reg a = s.reg a :=
  foldl_same (fun s => s.reg a) _ _ _ (fun u n _ => State.reg_branchUpdate u G n a h0 h1 h2 h3 h4 h5)

/-- The registers that an access to gallery memory may write. -/
def IsGalMemReg (G a : Nat) : Prop := a = Reg.SYS_EVSTAT ∨ galBase G + 1040 ≤ a ∧ a < galBase G + 8192

theorem State.reg_eccReport (s : State) (G off n path f a) (h1 : a ≠ Reg.GAL_MEM_ECC G) (h2 : a ≠ Reg.GAL_MEM_ELOG G) (h3 : a ≠ Reg.SYS_EVSTAT) : (s.eccReport G off n path f).reg a = s.reg a := by
  unfold State.eccReport
  dsimp only
  split
  · rw [State.reg_modGal, State.reg_incFld_ne _ _ _ _ _ h1]
  · rw [State.reg_postLim _ _ _ _ _ _ _ _ h3, State.reg_setReg_ne _ _ _ _ h2, State.reg_incFld_ne _ _ _ _ _ h1, State.reg_modGal, State.reg_incFld_ne _ _ _ _ _ h1]

theorem State.Within.eccReport {F : Foot} {s0 s : State} (h : State.Within F s0 s) (G off n path f) (h1 : Reg.GAL_MEM_ECC G ∈ F.regs) (h2 : Reg.GAL_MEM_ELOG G ∈ F.regs) (h3 : Reg.SYS_EVSTAT ∈ F.regs)
    (h4 : G ∈ F.gals) (h5 : F.fields.contains .ev = true) : State.Within F s0 (s.eccReport G off n path f) := by
  unfold State.eccReport
  dsimp only
  split
  · refine State.Within.modGal (State.Within.incFld h _ _ _ h1) _ _ h4
  · refine State.Within.postLim (State.Within.setReg (State.Within.incFld (State.Within.modGal (State.Within.incFld h _ _ _ h1) _ _ h4) _ _ _ h1) _ _ h2) _ _ _ _ _ _ h3 h5

theorem State.qAnnounce_of_not_due (s : State) (G b) (h : s.qDue G b = false) : s.qAnnounce G b = s := by unfold State.qAnnounce; simp [h]

theorem locate_hallBlock (h n o : Nat) (b : Block) (hh : h < 8) (hn : n < 10) (ho : o < 65536) (h4 : o % 4 = 0) (hb : hallBlock n = some b) (hp : b ≠ .hbmc ∧ b ≠ .mee ∨ hasPort h = true) :
    locate (hallBase h (n * 65536 + o)) = some ⟨b, h, o⟩ := by
  have e1 : hallBase h (n * 65536 + o) / 4 * 4 = hallBase h (n * 65536 + o) := by unfold hallBase; omega
  have e2 : (hallBase h (n * 65536 + o) - 0x10000000) / 0x1000000 = h := by unfold hallBase; omega
  have e3 : (hallBase h (n * 65536 + o) - 0x10000000) % 0x1000000 = n * 65536 + o := by unfold hallBase; omega
  have e4 : 0x10000000 ≤ hallBase h (n * 65536 + o) ∧ hallBase h (n * 65536 + o) < 0x18000000 := by unfold hallBase; omega
  unfold locate
  generalize hallBase h (n * 65536 + o) = a at *
  dsimp only
  rw [e1, e2, e3, if_neg (by omega), if_pos e4, if_pos (by omega), show (n * 65536 + o) / 65536 = n by omega, show (n * 65536 + o) % 65536 = o by omega, hb]
  dsimp only
  rw [if_neg]
  rcases hp with ⟨a, b⟩ | a
  · simp [a, b]
  · simp [a]

theorem State.hostWrite_of_row {s : State} {a l} (h1 : locate a = some l) (h2 : (findRow (rowsOf l.block) l.off).isSome = true) (h3 : s.blockAbsent l.block = false) :
    (s.blockHeld l = false → ∀ f, s.hostWrite a f = f s) ∧ (s.blockHeld l = true → ∀ f, s.hostWrite a f = s) := by
  cases h : findRow (rowsOf l.block) l.off with
  | none => rw [h] at h2; cases h2
  | some p =>
    refine ⟨fun hb f => ?_, fun hb f => ?_⟩
    · have e : s.regGo a = .at l p.1 p.2 := by unfold State.regGo; rw [h1]; dsimp only; rw [if_neg (by simp [h3]), h]; dsimp only; rw [if_neg (by simp [hb])]
      unfold State.hostWrite; rw [e]
    · have e : s.regGo a = .held := by unfold State.regGo; rw [h1]; dsimp only; rw [if_neg (by simp [h3]), h]; dsimp only; rw [if_pos hb]
      unfold State.hostWrite; rw [e]

theorem State.hostWrite_absent {s : State} {a l} (h1 : locate a = some l) (h3 : s.blockAbsent l.block = true) (f) : s.hostWrite a f = s.postAccess Ev.ABSENT_UNIT_ACCESS (hallOfAddr a) a true := by
  have e : s.regGo a = .absent := by unfold State.regGo; rw [h1]; dsimp only; rw [if_pos h3]
  unfold State.hostWrite; rw [e]

theorem findRow_gweak : (∀ o ∈ [8, 96, 128, 144], (findRow rows_gweak o).isSome = true) ∧ ∀ f, f < 512 → (findRow rows_gweak (8192 + f * 16)).isSome = true := by decide +kernel

theorem State.hostWrite_gweak (s : State) (h o : Nat) (hh : h < 8) (ho : (findRow rows_gweak o).isSome = true) (h1 : o < 65536) (h2 : o % 4 = 0) : 
    (s.part.gweak = true → s.inFrst h = false → ∀ f, s.hostWrite (hallBase h (3 * 65536 + o)) f = f s) ∧
    (s.part.gweak = true → s.inFrst h = true → ∀ f, s.hostWrite (hallBase h (3 * 65536 + o)) f = s) ∧
    (s.part.gweak = false → ∀ f, s.hostWrite (hallBase h (3 * 65536 + o)) f = s.postAccess Ev.ABSENT_UNIT_ACCESS h (hallBase h (3 * 65536 + o)) true) := by
  have l := locate_hallBlock h 3 o .gweak hh (by omega) h1 h2 rfl (.inl ⟨by decide, by decide⟩)
  have hs : ∀ g, s.part.gweak = g → s.blockAbsent .gweak = !g := by intro g e; unfold State.blockAbsent; rw [e]; cases g <;> rfl
  refine ⟨fun g x => ?_, fun g x => ?_, fun g f => ?_⟩
  · exact (State.hostWrite_of_row l ho (hs _ g)).1 (by unfold State.blockHeld; simp [x])
  · exact (State.hostWrite_of_row l ho (hs _ g)).2 (by unfold State.blockHeld; simp [x])
  · rw [State.hostWrite_absent l (hs _ g)]; congr 1
    unfold hallOfAddr hallBase
    rw [if_pos (by omega)]; dsimp only
    rw [if_pos (by omega)]; omega

theorem State.hostWrite_GWK_ENQ_GO (s : State) (h : HallIx) : (s.part.gweak = true → s.inFrst h = false → ∀ f, s.hostWrite (Reg.GWK_ENQ_GO h) f = f s) ∧ (s.part.gweak = true → s.inFrst h = true → ∀ f, s.hostWrite (Reg.GWK_ENQ_GO h) f = s) ∧
    (s.part.gweak = false → ∀ f, s.hostWrite (Reg.GWK_ENQ_GO h) f = s.postAccess Ev.ABSENT_UNIT_ACCESS h (Reg.GWK_ENQ_GO h) true) := by
  have := State.hostWrite_gweak s h 96 h.isLt (findRow_gweak.1 _ (by simp)) (by omega) (by omega)
  rwa [show hallBase h (3 * 65536 + 96) = Reg.GWK_ENQ_GO h by simp only [Reg.GWK_ENQ_GO, hallBase]] at this

theorem State.hostWrite_GWK_TICK (s : State) (h : HallIx) : (s.part.gweak = true → s.inFrst h = false → ∀ f, s.hostWrite (Reg.GWK_TICK h) f = f s) ∧ (s.part.gweak = true → s.inFrst h = true → ∀ f, s.hostWrite (Reg.GWK_TICK h) f = s) ∧
    (s.part.gweak = false → ∀ f, s.hostWrite (Reg.GWK_TICK h) f = s.postAccess Ev.ABSENT_UNIT_ACCESS h (Reg.GWK_TICK h) true) := by
  have := State.hostWrite_gweak s h 8 h.isLt (findRow_gweak.1 _ (by simp)) (by omega) (by omega)
  rwa [show hallBase h (3 * 65536 + 8) = Reg.GWK_TICK h by simp only [Reg.GWK_TICK, hallBase]] at this

theorem State.hostWrite_GWK_SRV_CMD (s : State) (h : HallIx) : (s.part.gweak = true → s.inFrst h = false → ∀ f, s.hostWrite (Reg.GWK_SRV_CMD h) f = f s) ∧ (s.part.gweak = true → s.inFrst h = true → ∀ f, s.hostWrite (Reg.GWK_SRV_CMD h) f = s) ∧
    (s.part.gweak = false → ∀ f, s.hostWrite (Reg.GWK_SRV_CMD h) f = s.postAccess Ev.ABSENT_UNIT_ACCESS h (Reg.GWK_SRV_CMD h) true) := by
  have := State.hostWrite_gweak s h 128 h.isLt (findRow_gweak.1 _ (by simp)) (by omega) (by omega)
  rwa [show hallBase h (3 * 65536 + 128) = Reg.GWK_SRV_CMD h by simp only [Reg.GWK_SRV_CMD, hallBase]] at this

theorem State.hostWrite_GWK_FLOW_CMD (s : State) (h : HallIx) : (s.part.gweak = true → s.inFrst h = false → ∀ f, s.hostWrite (Reg.GWK_FLOW_CMD h) f = f s) ∧ (s.part.gweak = true → s.inFrst h = true → ∀ f, s.hostWrite (Reg.GWK_FLOW_CMD h) f = s) ∧
    (s.part.gweak = false → ∀ f, s.hostWrite (Reg.GWK_FLOW_CMD h) f = s.postAccess Ev.ABSENT_UNIT_ACCESS h (Reg.GWK_FLOW_CMD h) true) := by
  have := State.hostWrite_gweak s h 144 h.isLt (findRow_gweak.1 _ (by simp)) (by omega) (by omega)
  rwa [show hallBase h (3 * 65536 + 144) = Reg.GWK_FLOW_CMD h by simp only [Reg.GWK_FLOW_CMD, hallBase]] at this

theorem State.hostWrite_GWK_FLOW_CFG (s : State) (h : HallIx) (f : Fin 512) : (s.part.gweak = true → s.inFrst h = false → ∀ F, s.hostWrite (Reg.GWK_FLOW_CFG h f) F = F s) ∧ (s.part.gweak = true → s.inFrst h = true → ∀ F, s.hostWrite (Reg.GWK_FLOW_CFG h f) F = s) ∧
    (s.part.gweak = false → ∀ F, s.hostWrite (Reg.GWK_FLOW_CFG h f) F = s.postAccess Ev.ABSENT_UNIT_ACCESS h (Reg.GWK_FLOW_CFG h f) true) := by
  have hf : f.val < 512 := f.isLt
  have := State.hostWrite_gweak s h (8192 + f * 16) h.isLt (findRow_gweak.2 f hf) (by omega) (by omega)
  rwa [show hallBase h (3 * 65536 + (8192 + f * 16)) = Reg.GWK_FLOW_CFG h f by simp only [Reg.GWK_FLOW_CFG, hallBase]; omega] at this

theorem hallOfStack_port (m : StackIx) : hallOfStack m < 8 ∧ hasPort (hallOfStack m) = true := by revert m; decide

theorem findRow_mee : (findRow rows_mee 64).isSome = true ∧ ∀ r : Fin 8, (findRow rows_mee (272 + r * 64)).isSome = true := by decide +kernel

theorem findRow_hbmc : (findRow rows_hbmc 8).isSome = true ∧ (findRow rows_hbmc 16).isSome = true := by decide +kernel

theorem findRow_eth : (∀ e : Fin 4, (findRow rows_eth (e * 16384)).isSome = true ∧ (findRow rows_eth (1032 + e * 16384)).isSome = true) ∧
    ∀ (e : Fin 4) (n : Fin 64), (findRow rows_eth (8224 + e * 16384 + n * 64)).isSome = true := by decide +kernel

theorem State.hostWrite_mee (s : State) (m : StackIx) (o : Nat) (ho : (findRow rows_mee o).isSome = true) (h1 : o < 65536) (h2 : o % 4 = 0) :
    (s.part.mee = true → s.inFrst (hallOfStack m) = false → ∀ f, s.hostWrite (hallBase (hallOfStack m) (5 * 65536 + o)) f = f s) ∧
    (s.part.mee = true → s.inFrst (hallOfStack m) = true → ∀ f, s.hostWrite (hallBase (hallOfStack m) (5 * 65536 + o)) f = s) ∧
    (s.part.mee = false → ∀ f, s.hostWrite (hallBase (hallOfStack m) (5 * 65536 + o)) f =
      s.postAccess Ev.ABSENT_UNIT_ACCESS (hallOfStack m) (hallBase (hallOfStack m) (5 * 65536 + o)) true) := by
  obtain ⟨hh, hp⟩ := hallOfStack_port m
  generalize hallOfStack m = h at *
  have l := locate_hallBlock h 5 o .mee hh (by omega) h1 h2 rfl (.inr hp)
  have hs : ∀ g, s.part.mee = g → s.blockAbsent .mee = !g := by intro g e; unfold State.blockAbsent; rw [e]; cases g <;> rfl
  refine ⟨fun g x => ?_, fun g x => ?_, fun g f => ?_⟩
  · exact (State.hostWrite_of_row l ho (hs _ g)).1 (by unfold State.blockHeld; simp [x])
  · exact (State.hostWrite_of_row l ho (hs _ g)).2 (by unfold State.blockHeld; simp [x])
  · rw [State.hostWrite_absent l (hs _ g)]; congr 1
    unfold hallOfAddr hallBase
    rw [if_pos (by omega)]; dsimp only
    rw [if_pos (by omega)]; omega

theorem State.hostWrite_MEE (s : State) (m : StackIx) (a : Nat) (ha : a = Reg.MEE_KEYLD (hallOfStack m) ∨ ∃ r : Fin 8, a = Reg.MEE_CTRL (hallOfStack m) r) :
    (s.part.mee = true → s.inFrst (hallOfStack m) = false → ∀ f, s.hostWrite a f = f s) ∧
    (s.part.mee = true → s.inFrst (hallOfStack m) = true → ∀ f, s.hostWrite a f = s) ∧
    (s.part.mee = false → ∀ f, s.hostWrite a f = s.postAccess Ev.ABSENT_UNIT_ACCESS (hallOfStack m) a true) := by
  rcases ha with rfl | ⟨r, rfl⟩
  · have := State.hostWrite_mee s m 64 findRow_mee.1 (by omega) (by omega)
    rwa [show hallBase (hallOfStack m) (5 * 65536 + 64) = Reg.MEE_KEYLD (hallOfStack m) by simp only [Reg.MEE_KEYLD, hallBase]] at this
  · have hr := r.isLt
    have := State.hostWrite_mee s m (272 + r * 64) (findRow_mee.2 r) (by omega) (by omega)
    rwa [show hallBase (hallOfStack m) (5 * 65536 + (272 + r * 64)) = Reg.MEE_CTRL (hallOfStack m) r by simp only [Reg.MEE_CTRL, hallBase]; omega] at this

theorem State.hostWrite_HBM (s : State) (m : StackIx) (a : Nat) (ha : a = Reg.HBM_CTRL (hallOfStack m) ∨ a = Reg.HBM_WQ (hallOfStack m)) :
    (s.inFrst (hallOfStack m) = false → ∀ f, s.hostWrite a f = f s) ∧ (s.inFrst (hallOfStack m) = true → ∀ f, s.hostWrite a f = s) := by
  obtain ⟨hh, hp⟩ := hallOfStack_port m
  generalize hallOfStack m = h at *
  have key : ∀ o, (findRow rows_hbmc o).isSome = true → o < 65536 → o % 4 = 0 → (s.inFrst h = false → ∀ f, s.hostWrite (hallBase h (4 * 65536 + o)) f = f s) ∧ (s.inFrst h = true → ∀ f, s.hostWrite (hallBase h (4 * 65536 + o)) f = s) := by
    intro o ho h1 h2
    have l := locate_hallBlock h 4 o .hbmc hh (by omega) h1 h2 rfl (.inr hp)
    have q := State.hostWrite_of_row (s := s) l ho (by unfold State.blockAbsent; rfl)
    exact ⟨fun x => q.1 (by unfold State.blockHeld; simp [x]), fun x => q.2 (by unfold State.blockHeld; simp [x])⟩
  rcases ha with rfl | rfl
  · have := key 16 findRow_hbmc.2 (by omega) (by omega)
    rwa [show hallBase h (4 * 65536 + 16) = Reg.HBM_CTRL h by simp only [Reg.HBM_CTRL, hallBase]] at this
  · have := key 8 findRow_hbmc.1 (by omega) (by omega)
    rwa [show hallBase h (4 * 65536 + 8) = Reg.HBM_WQ h by simp only [Reg.HBM_WQ, hallBase]] at this

theorem State.hostWrite_ETH (s : State) (h : HallIx) (e : Fin 4) (a : Nat) (ha : a = Reg.ETH_MODE h e ∨ a = Reg.ETH_TXTS_2 h e ∨ ∃ n : Fin 64, a = Reg.ETH_CL_ACT h e n) :
    (s.inFrst h = false → ∀ f, s.hostWrite a f = f s) ∧ (s.inFrst h = true → ∀ f, s.hostWrite a f = s) := by
  have hh : h.val < 8 := h.isLt
  have he := e.isLt
  have key : ∀ o, (findRow rows_eth o).isSome = true → o < 65536 → o % 4 = 0 → (s.inFrst h = false → ∀ f, s.hostWrite (hallBase h (7 * 65536 + o)) f = f s) ∧ (s.inFrst h = true → ∀ f, s.hostWrite (hallBase h (7 * 65536 + o)) f = s) := by
    intro o ho h1 h2
    have l := locate_hallBlock h 7 o .eth hh (by omega) h1 h2 rfl (.inl ⟨by decide, by decide⟩)
    have q := State.hostWrite_of_row (s := s) l ho (by unfold State.blockAbsent; rfl)
    exact ⟨fun x => q.1 (by unfold State.blockHeld; simp [x]), fun x => q.2 (by unfold State.blockHeld; simp [x])⟩
  rcases ha with rfl | rfl | ⟨n, rfl⟩
  · have := key (e * 16384) (findRow_eth.1 e).1 (by omega) (by omega)
    rwa [show hallBase h (7 * 65536 + e * 16384) = Reg.ETH_MODE h e by simp only [Reg.ETH_MODE, hallBase]; omega] at this
  · have := key (1032 + e * 16384) (findRow_eth.1 e).2 (by omega) (by omega)
    rwa [show hallBase h (7 * 65536 + (1032 + e * 16384)) = Reg.ETH_TXTS_2 h e by simp only [Reg.ETH_TXTS_2, hallBase]; omega] at this
  · have hn := n.isLt
    have := key (8224 + e * 16384 + n * 64) (findRow_eth.2 e n) (by omega) (by omega)
    rwa [show hallBase h (7 * 65536 + (8224 + e * 16384 + n * 64)) = Reg.ETH_CL_ACT h e n by simp only [Reg.ETH_CL_ACT, hallBase]; omega] at this

theorem State.resetTurns_take {s : State} {h q} (e : s.resetTurns h q = none) : (s.take q).resetTurns h q = none := by
  unfold State.resetTurns at *
  dsimp only at *
  rw [show (s.take q).testing h 2 = s.testing h 2 from rfl, show (s.take q).inFrst h = s.inFrst h from rfl, show (s.take q).fld (Reg.FRST_STAT h) Fl.FRST_STAT_STATE = s.fld (Reg.FRST_STAT h) Fl.FRST_STAT_STATE from rfl]
  split at e
  · cases e
  · next c1 =>
    rw [if_neg c1]
    split at e
    · next c2 => rw [if_pos c2]
    · next c2 =>
      rw [if_neg c2]
      split at e
      · cases e
      · next c3 =>
        rw [if_neg c3]
        split at e
        · next c4 => rw [if_pos c4]
        · cases e

theorem State.domOff_take {s : State} {h n port} {q : Packet} (e : (domOfPort n port).all (s.domOn h) = true) : (domOfPort n port).filter (fun d => !(s.take q).domOn h d) = none := by
  cases hd : domOfPort n port with
  | none => rfl
  | some d =>
    rw [hd] at e
    have e2 : s.domOn h d = true := e
    simp only [Option.filter, show (s.take q).domOn h d = true from e2]
    rfl

theorem State.reach_of_reached {s : State} {q : Packet} (h : s.reached q = true) : s.reach q = (s, some q) := by
  unfold State.reached at h
  unfold State.reach
  by_cases hc : s.net.contains q = true
  · rw [if_pos hc]
    rw [hc] at h
    simp only [Bool.not_true, Bool.false_or, Bool.and_eq_true] at h
    have e : s.travel 128 q = (s, some q) := by unfold State.travel; rw [if_pos h.1]
    rw [e]
    simp [Option.filter, h.2]
  · rw [if_neg hc]

theorem State.routerEnds_of_open {s : State} {q : Packet} (h : s.Open q) : (s.take q).routerEnds q = none := by
  obtain ⟨l, o, r, d⟩ := h
  unfold State.routerEnds
  dsimp only
  rw [if_neg (by rw [show (s.take q).attachDead q = false from l]; simp), if_neg (by rw [show (s.take q).nobody _ _ _ = false from o]; simp), State.resetTurns_take r]
  dsimp only
  rw [State.domOff_take d]; rfl

theorem State.Clear.isOpen {s : State} {q : Packet} (h : s.Clear q) : s.Open q := h.2.2.2.2.2.2.1

theorem State.Clear.notDup {s : State} {q : Packet} (h : s.Clear q) : s.isDup q = false := h.2.2.2.2.2.2.2.1

theorem State.Clear.wellFormed {s : State} {q : Packet} (h : s.Clear q) : malformed q = false := h.2.2.2.2.2.2.2.2.1

theorem State.Clear.portTakes {s : State} {q : Packet} (h : s.Clear q) : portTakes q.dstNode.toNat q.dstPort.toNat q.cmd.toNat = true := h.2.2.2.2.2.2.2.2.2.1

theorem State.Clear.gweak {s : State} {q : Packet} (h : s.Clear q) : q.cmd.toNat = 0x12 → s.part.gweak = true := h.2.2.2.2.2.2.2.2.2.2

theorem wellFormed_of_not_malformed {q : Packet} (h : malformed q = false) : wellFormedPacket q = true := by
  unfold malformed at h
  dsimp only at h
  cases hw : wellFormedPacket q
  · rw [hw] at h; simp at h
  · rfl

end Sys2Proof.Machine
end

