-- ==== Sys2Proof/Machine/Package.lean ====
section
/-!
DEFINITION. Machine/Package.lean: the balls of the package and their nets (R474 to R476), and the bits of the management port's wires
(R454, R455).
-/
namespace Sys2Proof.Machine

/-! ## Balls (R474 to R476) -/

/-- The 19 letters of ball rows (R474). -/
def rowLetters : List Char := "ABCDEFGHJKLMNPTUVWY".toList

/-- The name of ball row r (R474). -/
def rowName (r : Nat) : List Char :=
  let at' := fun (i : Nat) => rowLetters.getD i 'A'
  if r < 19 then [at' r] else [at' (r / 19 - 1), at' (r % 19)]

/-- The net of a ball (R475). -/
inductive Net where
  | gnd | dnc | vttLane | vccLane | vddHbm | vddqHbm | vppHbm | vccAux | vccAon | vccMem
  | vccCore (c : Nat)
  | vccio (h b : Nat)
  /-- Transmit or receive side of global lane L; negative side or not. -/
  | lane (rx : Bool) (L : Nat) (neg : Bool)
  /-- Pin n of bank b of hall h. -/
  | io (h b n : Nat)
  | lref (h q : Nat) (neg : Bool)
  /-- Dedicated signal k of R476's list. -/
  | service (k : Nat)
  deriving DecidableEq, Repr

/-- The net of the ball in row r and column c of the pad zones (R475). -/
def padZone (r c : Nat) : Net :=
  let left := decide (c ≤ 8)
  let j := if left then c - 1 else 96 - c
  let q := (r - 8) / 20
  let i := (r - 8) % 20
  let h := (if left then [0, 1, 4, 5] else [3, 2, 7, 6]).getD q 0
  let x := 6 * i + j
  if 16 ≤ i then (if j % 2 = 1 then .gnd else .vccio h (i / 18))
  else if 6 ≤ j then .gnd
  else .io h (x / 48) (x % 48)

/-- The net of a ball of the lane rows (R475). -/
def laneRow (r c : Nat) : Net :=
  let top := decide (r ≤ 3)
  let d := if top then r else 95 - r
  let h := (c - 1) / 24 + (if top then 0 else 4)
  let t := (c - 1) % 24
  if t % 3 = 2 then .gnd else .lane (d % 2 == 1) (16 * h + 8 * (d / 2) + t / 3) (t % 3 != 0)

/-- The net of the ball in row r (0 to 95) and column c (1 to 96) (R475). -/
def netOf (r c : Nat) : Net :=
  let chk := decide ((r + c) % 2 = 1)
  if r ≤ 3 ∨ 92 ≤ r then laneRow r c
  else if r ≤ 7 ∨ 88 ≤ r then (if chk then .gnd else if r = 4 ∨ r = 91 then .vttLane else .vccLane)
  else if c ≤ 8 ∨ 89 ≤ c then padZone r c
  else if c ≤ 16 ∨ 81 ≤ c then
    if chk then .gnd
    else
      let i := (r - 8) % 40
      if i < 22 then .vddHbm else if i < 38 then .vddqHbm else .vppHbm
  else if r = 8 then .lref ((c - 17) / 8) ((c - 17) / 2 % 4) ((c - 17) % 2 != 0)
  else if r = 9 then .gnd
  else if r = 10 then (if c ≤ 60 then .service (c - 17) else .dnc)
  else if r = 11 then (if c ≤ 40 then .vccAux else if c ≤ 44 then .vccAon else .gnd)
  else if chk then .gnd
  else if r ≤ 15 ∨ 80 ≤ r then .vccMem
  else .vccCore ((if 48 ≤ r then 2 else 0) + (if 49 ≤ c then 1 else 0))

/-- The dedicated signals of row L, in order (R476). -/
def serviceNames : List String :=
  ["REFCLK_P", "REFCLK_N", "MCS_N", "MSCK", "MIO_0", "MIO_1", "MIO_2", "MIO_3", "MRDY", "DONE", "ERR_N", "RST_N", "PROG_N", "STOP_N",
    "TAMP_N", "OSCDLY_0", "OSCDLY_1", "IOPULL", "TCK", "TMS", "TDI", "TDO", "TRST_N", "FCK", "FCS_N", "FRESET_N", "FDS_0", "FDS_1"]
  ++ ["FD_0_0", "FD_0_1", "FD_0_2", "FD_0_3", "FD_0_4", "FD_0_5", "FD_0_6", "FD_0_7"]
  ++ ["FD_1_0", "FD_1_1", "FD_1_2", "FD_1_3", "FD_1_4", "FD_1_5", "FD_1_6", "FD_1_7"]

/-! ## Dedicated outputs that follow the state (R356, R463, R469, R478, R483) -/

/-- What an output shows; an open-drain output that is released is high-impedance. -/
inductive PinLevel where
  | low | high | highz
  deriving DecidableEq, Repr

/-- The level of a push-pull output. -/
def PinLevel.driven (b : Bool) : PinLevel := if b then .high else .low

/-- MRDY, DONE and ERR_N by their places in R476's list (8, 9, 10); aux says that VCC_AUX is above its threshold. MRDY and DONE are low from
then on until the port is live and the part is released. -/
def State.dedicatedOut (s : State) (aux : Bool) (k : Nat) : Option PinLevel :=
  if k < 8 ∨ 10 < k then none
  else if !aux then some .highz
  else if k = 8 then some (.driven s.mrdy)
  else if k = 9 then some (.driven s.donePin)
  else some (if s.errN then .highz else .low)

/-! ## The wires of the management port (R454, R455) -/

/-- The levels of MIO_3 to MIO_0 (as bits 3 to 0) in one clock; none: high-impedance at the device. -/
abbrev MioClock := Option (BitVec 4)

/-- The clocks in which the device sends a byte: bits 7:4 and then 3:0 in 4-bit form, else bit by bit on MIO_1, the most significant first
(R454). In 1-bit form the other wires, which carry no data from the device, are shown as 0. -/
def byteClocks (wide : Bool) (b : Byte) : List MioClock :=
  if wide then [some (BitVec.ofNat 4 (b.toNat / 16)), some (BitVec.ofNat 4 b.toNat)]
  else (List.range 8).map (fun i => some (BitVec.ofNat 4 (2 * (b.toNat / 2 ^ (7 - i) % 2))))

/-- What the device shows after the last byte of host software: 8 dummy clocks, then its bytes (R455). -/
def deviceClocks (wide : Bool) (l : List Byte) : List MioClock := List.replicate 8 none ++ l.flatMap (byteClocks wide)

/-- What the device shows in answer to a transaction whose OP has the given width. -/
def State.mioOut (s : State) (wide : Bool) : List MioClock := deviceClocks wide s.port.out

end Sys2Proof.Machine
end

