-- ==== Sys2Proof/WellFormed.lean ====
section
/-!
DEFINITION. WellFormed.lean: commands whose operands describe something that can happen. The types of the operands hold the other
bounds. Every meaning is total: an ill-formed command has one too.
-/
namespace Sys2Proof

/-- The four readings of VCC_CORE_0 to VCC_CORE_3 (R448). -/
def readingsOk (mv : List (Fin 4096)) : Bool := mv.length == 4

/-- A packet holds as many data units as its header says, at most eight (R237), and bad units are among them. -/
def packetOk (p : Packet) : Bool :=
  p.data.length == p.units.toNat && decide (p.units.toNat ≤ 8) && p.badUnits.all (fun u => decide (u < p.units.toNat))

/-- Frames of a plane image are numbered 0 to 767 in order, and a frame that failed is not among those sent again once. -/
def loadFactsOk (f : LoadFacts) : Bool := f.failed.all (fun x => !f.resent.contains x) && f.double.all (fun x => !f.ce.contains x)

/-- Whether a command's operands describe something that can happen. -/
def WellFormed (i : Instr) : Bool :=
  match i with
  | .imageCheck mv | .recordScan mv | .stopDrainEnd mv | .bistSupplyCheck mv | .selftestSupplyRecheck mv => readingsOk mv
  | .bistCmd _ mv => readingsOk mv
  | .bootDone senses => senses.length == 16
  | .measurementDone _ x => x.length == 32
  | .hotStartMeasure x t => x.length == 8 && x.all (fun l => l.length == 32) && t.length == 4
  | .enq p | .doneMsg p | .rd p _ | .wr p _ | .qpush ⟨p, _⟩ | .qpop p _ | .srd p _ | .swr p | .msg p | .item p | .loadreq p | .loadrpt p
  | .xmit p | .rsp p | .mrd p | .mwr p | .notice _ _ p | .routerPacket _ _ _ p _ _ _ => packetOk p
  | .epRequest _ _ _ p => decide (p.data.length ≤ 8)
  | .planeLoadComplete _ f => loadFactsOk f
  | .sectionRead facts => facts.all (fun x => loadFactsOk x.2.2)
  | .malformedTransaction (.reserved op _) => !([1, 2, 4, 5, 6, 8, 9, 10, 12].contains op.val)
  | .malformedTransaction .malformed | .malformedTransaction .busy => true
  | .registerWrite _ _ _ | .powerOn _ _ _ | .startDelayEnd | .supplyFall _ | .rstN _ | .progN _ _ | .stopN | .flashDiscovery _ _ _ _ _ |
    .fabricPllLock _ | .release | .releaseBorders | .importCmd _ _ | .importComplete _ | .scrubFrameStep _ _ _ |
    .scrubSlotReloadDone _ _ _ | .flashRead _ | .flashProgram _ | .flashErase _ | .flashCmdDone _ | .recordWriteDone _ | .frstStart _ _ |
    .frstDrainEnd _ | .frstHoldEnd _ | .frstDone _ | .frstTimeout _ | .hallFenceSet _ | .hallFenceClear _ | .corrFence _ _ _ |
    .corrReadmit _ _ | .landCodeStep _ _ | .landParity _ _ | .mezzContention _ _ _ _ | .mezzRearmed _ _ | .mezzOffWrite _ _ _ |
    .galClkselWrite _ _ _ | .galClkSwitchDone _ _ | .dnDone _ _ | .eqEnqueue _ _ | .msgAccept _ _ | .itAccept _ | .galRst _ _ |
    .galResetEdge _ | .galResetRelease _ | .galResetDone _ | .galCtxCfgWrite _ _ | .galCtxSelWrite _ _ | .planeRequest _ _ |
    .planeSwitchEdge _ | .switchCapture _ | .galLoadCmdLoad _ _ _ _ | .galLoadCmdReplace _ _ _ _ | .planeLoadStart _ | .replaceEdge _ |
    .replaceActivate _ | .replaceCapture _ | .slotCopy _ _ _ _ | .slotInvalidate _ _ | .slotCopyComplete _ _ |
    .prismRequest _ _ _ _ _ _ _ _ | .bankAccess _ _ _ _ | .prismCompletion _ _ | .queueEnqRetry _ _ | .galQCfgWrite _ _ _ |
    .memtestRowStart _ _ | .memtestRestore _ _ | .gwkEnqGo _ _ | .dispatchDecision _ | .classNoServer _ _ | .watchdogCheck _ |
    .engineRetryReady _ _ | .dueRelease _ | .gwkTickWrite _ _ | .gwkFlowCfgWrite _ _ _ | .flowResume _ _ | .flowFlush _ _ | .srvAdd _ _ |
    .srvRemove _ _ | .srvRemoved _ _ | .srvPreload _ _ _ | .linkDead _ _ | .lateSpeaker _ _ | .linkReadmit _ _ | .linkSelfTestDone _ _ _ |
    .rspTimeout _ _ _ _ | .wakeTimeout _ _ _ | .istatSnap _ | .hbmInitDone _ _ | .hbmBurst _ _ _ _ _ | .hbmAlert _ _ _ _ _ |
    .hbmRefresh _ _ _ | .hbmTempRead _ _ _ | .activationTableClear _ | .hbmChannelSrEntry _ _ | .srHoldSet _ | .srHoldClear _ |
    .hbmStackSrEntry _ | .hbmWqWrite _ _ | .meeRangeEnable _ _ | .meeRangeDisable _ _ | .meeKeychg _ _ | .meeKeyLoad _ _ |
    .meeUnitDone _ _ _ _ | .wcbAgeMerge _ _ _ | .laneEnable _ _ _ | .laneDisable _ _ | .laneQuiet _ _ _ | .laneDormant _ _ _ |
    .qreq _ _ _ | .lanePllLock _ _ | .fomMeasure _ _ _ _ _ | .ethModeWrite _ _ _ | .ethLinkUp _ _ _ | .ethLinkDown _ _ _ _ |
    .ethFrameReceive _ _ _ _ _ _ _ | .ethStreamFrame _ _ _ _ _ _ _ | .ethTxEopTimeout _ _ _ | .ethFrameTransmit _ _ _ | .txtsRead _ _ |
    .ethClActWrite _ _ _ _ | .padCfgWrite _ _ _ _ | .own _ | .secure _ | .returnCmd _ | .keyAdd _ | .keyRevoke _ | .rbAdvance _ |
    .lcCmdComplete _ | .vpartWrite _ _ | .vpartZeroDone _ | .vaultWipeDone _ | .tamper | .attestStart | .attestDone | .mrExtend _ _ |
    .rngFail _ | .rngRetry _ | .jtagInstruction _ _ | .vendorUnlock _ _ | .clkLoss _ _ | .clkRestored _ | .hclkPllWrite _ _ _ |
    .hclkPlloutWrite _ _ _ _ | .hclkPadWrite _ _ _ _ | .hclkLrefWrite _ _ _ | .clockModeChange _ _ | .tbFreqWrite _ | .tbStep _ |
    .tbSet _ | .pwrCmdOn _ _ | .pwrCmdOff _ _ | .pwrCmdRetention _ _ | .domainPowerUpDone _ _ | .domainPowerDownDone _ _ |
    .admissionGrant | .admTimeout _ | .pwrLedgerWrite _ _ | .thermMeas _ | .thermalRoutine _ | .immediateCut | .stopDone |
    .calRunRequest _ | .calSave | .calWatch _ | .calGroupSweep _ _ _ _ | .calGroupIdle _ _ | .calRunDone _ _ | .bistUnitDone _ |
    .rdreg _ | .wrreg _ | .evread _ | .status | .getrsp | .reload _ _ | .stop _ | .attest _ | .bulkrd _ _ | .hbmSrExitDone _ |
    .progNRise | .rstNRise | .rxRdyRise _ _ _ _ | .pllRelock _ _ | .sweepAdmissionRetry _ _ | .calStartRun | .clockBorderRelease _ |
    .padSafeExit _ _ _ => true

end Sys2Proof
end

