-- ==== Sys2Proof/Tests/Slice0.lean ====
section
/-!
SUPPORT. Tests/Slice0.lean: an ill-formed command for each check of WellFormed, the spec's worked examples, and for every statement of the
obligations with premises a state and operands that meet them.
-/
namespace Sys2Proof.Machine

set_option Elab.async false

/-! ## Ill-formed commands are refused by WellFormed -/

theorem test_wf_readings : WellFormed (.bistSupplyCheck [750, 750, 750]) = false ∧ WellFormed (.bistSupplyCheck [750, 750, 750, 750]) = true := by decide
theorem test_wf_readings_cmd : WellFormed (.bistCmd 0 []) = false ∧ WellFormed (.stopDrainEnd [1]) = false := by decide
theorem test_wf_senses : WellFormed (.bootDone []) = false := by decide
theorem test_wf_sensors : WellFormed (.measurementDone 0 [1, 2]) = false := by decide
theorem test_wf_hot_start : WellFormed (.hotStartMeasure [] []) = false := by decide
theorem test_wf_packet_units : WellFormed (.msg { (default : Packet) with units := 1, data := [] }) = false ∧
    WellFormed (.msg { (default : Packet) with units := 0, data := [] }) = true := by decide
theorem test_wf_packet_bad_unit : WellFormed (.msg { (default : Packet) with units := 0, data := [], fdiff := [(3, 1)] }) = false := by decide
theorem test_wf_request_data : WellFormed (.epRequest 0 0 false { (default : Packet) with data := List.replicate 9 0 }) = false := by decide
theorem test_wf_load_facts : WellFormed (.planeLoadComplete 0 { (default : LoadFacts) with failed := some 3, resent := [3] }) = false := by decide
theorem test_wf_reserved_op : WellFormed (.malformedTransaction (.reserved 4 default)) = false ∧
    WellFormed (.malformedTransaction (.reserved 3 default)) = true := by decide

/-! ## The table gives its rows no bits -/

theorem test_decode_none : decodeTableWord 32 0x12345678 = none ∧ State.reset.withFetchWord 32 1 = State.reset := ⟨rfl, rfl⟩

/-! ## Examples and figures of the spec -/

/-- SYS_CAP of a CHEM-8-E-2 and of a CHEM-8-GE-1 (chapter 00, worked example). -/
theorem test_sys_cap : (({ State.reset with part := ⟨false, true, 2⟩ } : State).readReg Reg.SYS_CAP).2.2 = 0x0804080A ∧
    (({ State.reset with part := ⟨true, true, 1⟩ } : State).readReg Reg.SYS_CAP).2.2 = 0x08040807 := by decide +kernel
/-- The check word over "123456789" (R456). -/
theorem test_crc16 : crc16 [0x31, 0x32, 0x33, 0x34, 0x35, 0x36, 0x37, 0x38, 0x39] = 0x29B1 := by decide +kernel
/-- Horizontal track 1,061 spans galleries 10 to 13 (chapter 03, worked example). -/
theorem test_track_span : trackGals 1061 = [10, 11, 12, 13] := by decide +kernel
/-- A = 0x4312_7C00 maps to pc 28, p = 0x218_9300, SID 0, bank group 0, bank 1, row 2,146 (chapter 08). -/
theorem test_hbm_map : pcOf 0x43127C00 = 28 ∧ pcOff 0x43127C00 = 0x2189300 ∧ hbmBank 0x43127C00 = 1 ∧ hbmRow 0x43127C00 = 2146 ∧
    pcOff 0x43127C00 % 1024 = 768 := by decide +kernel
/-- The read at 0x4313_7C00 goes to pc 28, bank group 2, bank 1, row 2,146 (chapter 08). -/
theorem test_hbm_map_next : pcOf 0x43137C00 = 28 ∧ hbmBank 0x43137C00 = 4 * 2 + 1 ∧ hbmRow 0x43137C00 = 2146 := by decide +kernel
/-- The node counts, levels and metadata of a range of 262,144 units (chapter 09). -/
theorem test_mee_counts : nodeCounts 8 262144 = [262144, 32768, 4096, 512, 64, 8] ∧ meeLevels 262144 = 6 ∧ meeNeed 262144 = 303690 := by decide +kernel
/-- Lane 5 lands at gallery 16 (chapter 10), and lane 8 at the right edge (R42). -/
theorem test_lane_gallery : laneGallery 5 = 16 ∧ laneGallery 8 = 7 := by decide
/-- The edges 18 and 40 centre at 29 with margin 21 (chapter 14). -/
theorem test_calibration_centre : centreOf 18 40 33 = 29 ∧ clipCode (40 - 18 - 1) = 21 := by decide
/-- A centre between two codes is rounded toward the old code (R438). -/
theorem test_calibration_rounding : centreOf 18 41 33 = 30 ∧ centreOf 18 41 20 = 29 := by decide
/-- VCC_CORE lies in range from 0.7275 to 0.7725 V (R448). -/
theorem test_vcc_range : vccOk 727 = false ∧ vccOk 728 = true ∧ vccOk 772 = true ∧ vccOk 773 = false := by decide
/-- PLL 5 runs at 3.0 GHz and its output 3 at 500 MHz (R408): a limit of 500 MHz is kept, one of 499 MHz is not. -/
theorem test_pll_output : outMhz 0x1E000000 6 = 500 ∧ outOver 0x1E000000 6 500000 = false ∧ outOver 0x1E000000 6 499000 = true := by decide +kernel

/-- L26 is DONE, AB40 VCC_CORE of core 0, DY62 the receive side of lane 100 and J33 the LREF input 0 of hall 2 (chapter 16);
DC6 is pin 17 of bank 1 of hall 5. -/
theorem test_balls : serviceNames[9]? = some "DONE" ∧ netOf 10 26 = .service 9 ∧ rowName 10 = ['L'] ∧ netOf 20 40 = .vccCore 0 ∧
    rowName 94 = ['D', 'Y'] ∧ netOf 94 62 = .lane true 100 true ∧ netOf 8 33 = .lref 2 0 false ∧
    rowName 78 = ['D', 'C'] ∧ netOf 78 6 = .io 5 1 17 := by decide +kernel
/-- The receiver of R313 gives back the bits the transmitter took. -/
theorem test_sdi_round : let w := [true, false, true, true, false, false, true, false, true, true, true, false, true];
    (sdiRun sdiRxBit (0, false) (sdiRun sdiTxBit (0, false) w).2).2 = w := by decide +kernel

/-! ## One step -/

/-- The state that a command ends in. -/
def after (c : Instr) (s : State) : State := match exec c s with
  | .next t => t
  | _ => s

/-- POWER_ON begins the start delay (R405). -/
theorem test_power_on : (after (.powerOn 1 true 0) State.reset).boot.phase = .delay := by decide +kernel
/-- A step of 5 ns adds 5 to the time base, which has a 16-bit fraction (R411). -/
theorem test_tb_step : (after (.tbStep 5) State.reset).clk.tb = 0x50000 := by decide +kernel
/-- 200 ppm is taken and more is not (R411). -/
theorem test_tb_freq : (after (.tbFreqWrite 819200000) State.reset).reg Reg.CLK_TB_FREQ = 819200000 ∧
    (after (.tbFreqWrite 819200001) State.reset).reg Reg.CLK_TB_FREQ = 0 := by decide +kernel
/-- A budget above 700 W is not applied (R423). -/
theorem test_budget : (after (.pwrLedgerWrite none 700001) State.reset).reg Reg.PWR_BUDGET = 0xAAE60 ∧
    (after (.pwrLedgerWrite none 650000) State.reset).reg Reg.PWR_BUDGET = 650000 := by decide +kernel
/-- A command to an absent domain ends with RESULT 1 (R418): halls 1, 2, 5 and 6 have no memory port (R417). -/
theorem test_absent_domain : (after (.pwrCmdOn 1 71) State.reset).reg Reg.PWR_CMD_STAT = 1 := by decide +kernel
/-- Address bits 1:0 are ignored, and a reserved encoding keeps the field (R35, R18): DELTA of CAL_CFG takes 2 to 20. -/
theorem test_register_write : (after (.registerWrite .host (BitVec.ofNat 32 (Reg.CAL_CFG + 2)) 0x00030A05) State.reset).fld Reg.CAL_CFG Fl.CAL_CFG_DELTA = 5 ∧
    (after (.registerWrite .host (BitVec.ofNat 32 Reg.CAL_CFG) 0x00020A01) State.reset).fld Reg.CAL_CFG Fl.CAL_CFG_DELTA = 8 ∧
    (after (.registerWrite .host (BitVec.ofNat 32 Reg.CAL_CFG) 0x00020A01) State.reset).fld Reg.CAL_CFG Fl.CAL_CFG_AUTO = 0 := by decide +kernel
/-- A write of a read-only register changes nothing (R16). -/
theorem test_read_only : (after (.registerWrite .host (BitVec.ofNat 32 Reg.SYS_CAP) 0xFFFFFFFF) State.reset).reg Reg.SYS_CAP = State.reset.reg Reg.SYS_CAP := by
  decide +kernel
/-- A wrong key starts nothing (R449). -/
theorem test_bist_key : after (.bistCmd 0x3D010101 [750, 750, 750, 750]) State.reset = State.reset := by decide +kernel
/-- GETRSP with no response held answers STATUS 8 (R460). -/
theorem test_getrsp_empty : ((after .getrsp { State.reset with port := { State.reset.port with live := true } }).port.out.take 4) = [0, 8, 0, 0] := by
  decide +kernel
/-- The queue is first in, first out: the front command runs. -/
theorem test_front : step { State.reset with pending := [.tbStep 1, .tbStep 2] } = exec (.tbStep 1) { State.reset with pending := [.tbStep 2] } := rfl

/-! ## States that meet the premises of the obligations -/

/-- Witness of IdleStep: the reset state, where the time base runs. -/
theorem witness_IdleStep : State.reset.pending = [] ∧ State.reset.fld Reg.CLK_STAT Fl.CLK_STAT_TB_HELD = 0 ∧
    State.reset.reg Reg.CLK_TB_FREQ = 0 ∧ State.reset.clk.acc = 0 := by decide

/-- Witness of the invariant's premise: the reset state. -/
theorem witness_StepKeepsInvariant : State.reset.Inv ∧ step State.reset = .next State.reset.tick :=
  ⟨⟨rfl, ⟨by decide, by decide⟩, by decide⟩, rfl⟩

/-- Witness of PowerOnBeginsDelay and of its second clause. -/
theorem witness_PowerOnBeginsDelay : State.reset.boot.phase = .off ∧
    ∃ s : State, s.boot.phase = .delay ∧ s.boot.delayOver = false ∧ s.boot.rstLow = true :=
  ⟨rfl, { State.reset with boot := { phase := .delay, rstLow := true } }, rfl, rfl, rfl⟩

/-- Witnesses of both cases of StartUpBegins. -/
theorem witness_StartUpBegins :
    (∃ s : State, s.boot.phase = .delay ∧ s.boot.delayOver = false ∧ s.boot.rstLow = false ∧ s.boot.kind = 0 ∧ s.vaultState ≠ 3) ∧
    (∃ s : State, s.boot.phase = .delay ∧ s.boot.delayOver = true ∧ s.boot.rstLow = true) :=
  ⟨⟨{ State.reset with boot := { phase := .delay } }, rfl, rfl, rfl, rfl, by decide⟩,
    ⟨{ State.reset with boot := { phase := .delay, rstLow := true, delayOver := true } }, rfl, rfl, rfl⟩⟩

/-- Witness of SupplyFall's last clause and of RstNResets. -/
theorem witness_RstNResets : ∃ s : State, s.boot.phase ≠ .off ∧ s.boot.phase ≠ .delay ∧ s.sec.cmd = none :=
  ⟨{ State.reset with boot := { phase := .done } }, by decide, by decide, rfl⟩

/-- Witnesses of the clauses of WarmReconfiguration. -/
theorem witness_WarmReconfiguration :
    (∃ s : State, s.boot.phase ≠ .off ∧ s.boot.phase ≠ .delay ∧ s.stop.cut = false) ∧ State.reset.boot.phase = .off ∧
    (∃ s : State, s.boot.phase = .warm) ∧ State.reset.boot.phase ≠ .warm :=
  ⟨⟨{ State.reset with boot := { phase := .done } }, by decide, by decide, rfl⟩, rfl,
    ⟨{ State.reset with boot := { phase := .warm } }, rfl⟩, by decide⟩

/-- A field that meets the premise of FieldAccessCodes, for each access code. -/
theorem witness_FieldAccessCodes : ∀ c ∈ [Access.rw, .ro, .wo, .w1c, .w1s, .rc], (⟨4, 8, c, [(3, 4)]⟩ : FldRow).lo + 8 ≤ 32 ∧
    rowReserved ⟨4, 8, c, [(3, 4)]⟩ 2 = false ∧ rowReserved ⟨4, 8, c, [(3, 4)]⟩ 3 = true := by decide

/-- Addresses that meet the premise of FieldAccessCodes' second clause: a register, the last lane register, and a gap beside. -/
theorem witness_FieldAccessCodes_register : (regAt Reg.SYS_EVCFG).isSome = true ∧ (regAt (Reg.LANE_CFG 7 23)).isSome = true ∧
    (regAt 0x0000FFFC).isSome = false := by decide

/-- Addresses that meet the premises of RegisterWriteSetsFields, in each of the four blocks. -/
theorem witness_RegisterWriteSetsFields :
    (∃ l r ix, State.reset.regGo (Reg.OMI_LQUERY 2) = .at l r ix ∧ l.block = .omist ∧ r.off ≠ 40) ∧
    (∃ l r ix, State.reset.regGo (Reg.THERM_HALL 1) = .at l r ix ∧ l.block = .therm ∧ r.off ≠ 8) :=
  ⟨⟨_, _, _, rfl, rfl, by decide⟩, ⟨_, _, _, rfl, rfl, by decide⟩⟩

/-- Addresses that meet the premises of UnmappedWrite: outside every block, and in a block's gap. -/
theorem witness_UnmappedWrite : State.reset.regGo 0x18000000 = .unmapped ∧ State.reset.regGo 0x0000FFFC = .unmapped ∧
    accessRecords State.reset.ev.recs < 16 ∧ State.reset.evRoom := ⟨rfl, rfl, by decide, show (0 : Nat) < 256 by decide⟩

/-- An address that meets the premises of DesignWriteDenied. -/
theorem witness_DesignWriteDenied : ∃ l r ix, State.reset.regGo (Reg.SYS_EVCFG) = .at l r ix ∧ designMay (.design 0 0) l r.off 1 = false :=
  ⟨_, _, _, rfl, by decide⟩

/-- A state after reset with hall 0 converting. -/
def measState : State := (State.reset.setFld (Reg.THERM_HALL 0) Fl.THERM_HALL_BUSY 1).setFld Reg.CAL_CFG Fl.CAL_CFG_AUTO 0

/-- States that meet the premises of ReadingsBegin. -/
theorem witness_ReadingsBegin : hallsOf (fieldOf 5 Fl.THERM_MEAS_HALLS) = [0, 2] ∧
    (State.reset.setFld Reg.CAL_CFG Fl.CAL_CFG_AUTO 0).fld Reg.CAL_CFG Fl.CAL_CFG_AUTO = 0 ∧ State.reset.fld Reg.CAL_CFG Fl.CAL_CFG_AUTO ≠ 0 ∧
    (Sparse.get State.reset.thermHall {} 0).pts.head? = none := ⟨by decide, by decide, by decide, rfl⟩

/-- A state that meets the premises of MeasurementTaken. -/
theorem witness_MeasurementTaken : (List.replicate 32 (60 : BitVec 10)).length = 32 ∧ measState.fld (Reg.THERM_HALL 0) Fl.THERM_HALL_BUSY ≠ 0 ∧
    measState.fld (Reg.THERM_HALL 0) Fl.THERM_HALL_WARN = 0 ∧ measState.fld (Reg.THERM_HALL 0) Fl.THERM_HALL_THROTTLE = 0 ∧
    measState.fld (Reg.HCLK_DIV 0) Fl.HCLK_DIV_DIV = 0 ∧
    measState.fld Reg.CAL_CFG Fl.CAL_CFG_AUTO = 0 ∧
    (measState.sensorsRead 0 (List.replicate 32 60)).hallTemp 0 < 380 ∧ (measState.sensorsRead 0 (List.replicate 32 60)).hallTrips 0 = false :=
  ⟨rfl, by decide, by decide, by decide, by decide, by decide, by decide +kernel, by decide +kernel⟩

/-- A state with the memory port of hall 0 powered. -/
def portState : State := (State.reset.setDom 0 71 2).setFld Reg.CAL_CFG Fl.CAL_CFG_AUTO 0

/-- A state that meets the premises of StackTemperatureRead. -/
theorem witness_StackTemperatureRead : hallOfStack 0 = 0 ∧ portState.domOn 0 71 = true ∧ portState.evRoom ∧
    portState.fld (Reg.THERM_HBM 0) Fl.THERM_HBM_WARN = 0 ∧ portState.fld (Reg.THERM_HBM 0) Fl.THERM_HBM_THROTTLE = 0 ∧
    portState.fld Reg.CAL_CFG Fl.CAL_CFG_AUTO = 0 ∧
    tpWithin (pushPt (Sparse.get portState.thermStack {} 0).pts portState.now (4 * (79 : Int))) 380 (portState.fld Reg.THERM_CFG Fl.THERM_CFG_STOP_LEAD) = false :=
  ⟨by decide, by decide, show (0 : Nat) < 256 by decide, by decide, by decide, by decide, by decide⟩

/-- A state in which the device runs. -/
def runState : State := ({ State.reset with boot := { State.reset.boot with phase := .done, delayOver := true } } : State).setFld Reg.BOOT_STAT Fl.BOOT_STAT_STATE 6

/-- States that meet the premises of OrderlyStop. -/
theorem witness_OrderlyStop : State.reset.stopMay = false ∧ runState.stopMay = true ∧ runState.donePin = true ∧
    ({ State.reset with boot := { phase := .load } } : State).stopMay = true ∧
    ({ State.reset with boot := { phase := .load } } : State).donePin = false ∧ State.reset.stop.step ≠ 2 ∧
    ({ runState with stop := { step := 2 } } : State).stop.step = 2 ∧
    ({ runState with stop := { step := 4 } } : State).stop.step = 4 ∧ ({ runState with stop := { step := 4 } } : State).bist.run = none ∧
    ({ runState with stop := { step := 4 } } : State).boot.recs = [] ∧ ({ runState with stop := { step := 4 } } : State).evRoom :=
  ⟨by decide, by decide, by decide, by decide, by decide, by decide, rfl, rfl, rfl, rfl, show (0 : Nat) < 256 by decide⟩

/-- A state that meets the premises of ImmediateCut. -/
theorem witness_ImmediateCut : ({ runState with stop := { step := 2, thermal := some 0 } } : State).stop.thermal.isSome = true ∧
    ({ runState with stop := { step := 2, thermal := some 0 } } : State).stop.cut = false ∧ State.reset.stop.thermal = none :=
  ⟨rfl, rfl, rfl⟩

/-- The device runs, and hall 1 has a calibration run. -/
def calState : State := { State.reset.setFld Reg.BOOT_STAT Fl.BOOT_STAT_STATE 6 with cal := { State.reset.cal with runs := [(1, { temp := 100 })] } }
theorem witness_Calibration : calState.calRun 1 = some { temp := 100 } ∧ (calState.hall 1).landLow.contains 47 = false ∧
    calState.fld (Reg.LAND_CFG 1) Fl.LAND_CFG_MARGIN_MIN ≤ clipCode (40 - 18 - 1) ∧
    0 ≤ centreOf 18 40 (calState.fld (Reg.LAND 1 47) Fl.LAND_CODE) ∧ centreOf 18 40 (calState.fld (Reg.LAND 1 47) Fl.LAND_CODE) ≤ 63 ∧
    calState.calRun 2 = none ∧ runState.running = true ∧ (∀ h, h < 8 → runState.calRun h = none ∧ runState.inFrst h = false) ∧
    State.reset.running = false ∧ State.reset.fld Reg.CAL_STAT Fl.CAL_STAT_SAVING = 0 ∧
    (State.reset.setFld Reg.CAL_STAT Fl.CAL_STAT_SAVING 1).fld Reg.CAL_STAT Fl.CAL_STAT_SAVING ≠ 0 ∧
    bitOf calState.cal.startLeft 1 = false ∧ calState.ev.recs.length < 256 := by decide +kernel

/-- A reset state with start-up at a phase. -/
def atPhase (p : BootPhase) : State := { State.reset with boot := { State.reset.boot with phase := p } }

/-- A reset state at the record scan with REFCLK present. -/
def scanState : State := (atPhase .scan).setFld Reg.CLK_STAT Fl.CLK_STAT_REF_OK 1

/-- States that meet the premises of ReleaseSteps: a boot phase whose only section has been read, and release without library. -/
theorem witness_ReleaseSteps : (atPhase .load).boot.phase = .load ∧ (atPhase .load).nextSect false = none ∧
    (atPhase .border).boot.phase = .border ∧ (atPhase .last).boot.phase = .last ∧ (atPhase .last).boot.img.sects.filter (·.lib) = [] :=
  ⟨rfl, rfl, rfl, rfl, rfl⟩

/-- A boot phase whose next section is SENSITIVE, empty, with its digest. -/
def sectState : State :=
  { State.reset with boot := { State.reset.boot with phase := .load, img := { sects := [⟨6, false, 0, 0, Config.shake256 []⟩] } } }

/-- States that meet the premises of StartUpBeforeFrames, phase by phase. -/
theorem witness_StartUpBeforeFrames : (atPhase .discover).boot.phase = .discover ∧ (atPhase .check).boot.phase = .check ∧
    (atPhase .check).boot.passed8 = false ∧ (atPhase .check).boot.kind < 2 ∧ scanState.boot.phase = .scan ∧
    scanState.fld Reg.CLK_STAT Fl.CLK_STAT_REF_OK = 1 ∧ (∀ c, c < 4 → vccOk ([750, 750, 750, 750].getD c 0) = true) ∧
    (atPhase .pll).boot.phase = .pll ∧ (atPhase .pll).clk.ref = true ∧ (atPhase .hot).boot.phase = .hot :=
  ⟨rfl, rfl, rfl, by decide, rfl, by decide, by decide, rfl, rfl, rfl⟩

/-- A section that meets the first premise of ReleaseSteps. -/
theorem witness_ReleaseSteps_section : sectState.boot.phase = .load ∧ sectState.nextSect false = some 0 ∧
    (sectState.boot.img.sects.getD 0 default).typ = 6 ∧ sectState.digestOk (sectState.boot.img.sects.getD 0 default) = true :=
  ⟨rfl, by rfl, rfl, decide_eq_true rfl⟩

/-- A start that waits for the device to cool. -/
theorem witness_StartUpBeforeFrames_hot : (atPhase .hot).boot.phase = .hot := rfl

/-- Sections of the other types: CONFIG and CATALOGUE with their digest, and a PLANE section whose header is none. -/
def sectOf (typ : Nat) : State :=
  { State.reset with boot := { State.reset.boot with phase := .load, img := { sects := [⟨typ, false, 0, 0, Config.shake256 []⟩] } } }

theorem witness_ReleaseSteps_types : (sectOf 2).boot.phase = .load ∧ (sectOf 2).nextSect false = some 0 ∧
    (sectOf 2).digestOk ((sectOf 2).boot.img.sects.getD 0 default) = true ∧ ((sectOf 2).boot.img.sects.getD 0 default).typ = 2 ∧
    (sectOf 5).digestOk ((sectOf 5).boot.img.sects.getD 0 default) = true ∧ ((sectOf 5).boot.img.sects.getD 0 default).typ = 5 :=
  ⟨rfl, by rfl, decide_eq_true rfl, rfl, decide_eq_true rfl, rfl⟩

/-- A PLANE section with no header fails. -/
theorem witness_ReleaseSteps_failure : ((sectOf 4).readSection 0 []).2.isSome = true := by decide +kernel

/-- A boot phase with one gallery to activate. -/
def galSeven : State :=
  { State.reset with boot := { State.reset.boot with phase := .load, img := { sects := [⟨4, false, 0, 0, 0⟩], gals := [⟨3, 0, true, 0⟩],
                                                                              places := [⟨0, 3, 0, 1⟩] } } }

/-- A gallery of the boot phase that is to be activated, one just activated, and a flash pair that fails discovery. -/
theorem witness_ReleaseSteps_galleries : ⟨3, 0, true, 0⟩ ∈ galSeven.phaseGals false ∧
    3 ∈ ({ State.reset with boot := { State.reset.boot with phase := .border, rel := [3] } } : State).boot.rel ∧
    (true && false && true && true) = false := by decide

/-- Flash of 64 MiB, start-up over, the buffer's address at 0. -/
def flashState : State := (({ State.reset with boot := { State.reset.boot with phase := .done } } : State).setFld Reg.BOOT_FLASH Fl.BOOT_FLASH_SIZE 26)

/-- A state that meets the premises of FlashCommands, and the same with the command of an erase waiting. -/
theorem witness_FlashCommands : fieldOf (0xFFFFC3FF : Word) Fl.BOOT_FCMD_GO ≠ 0 ∧ fieldOf (0xFFFFFFFF : Word) Fl.BOOT_FCMD_KEY ≠ 0xC3 ∧
    (flashState.setFld Reg.BOOT_FADDR Fl.BOOT_FADDR_FADDR 4).fld Reg.BOOT_FADDR Fl.BOOT_FADDR_FADDR % 256 ≠ 0 ∧ flashState.fld Reg.BOOT_FSTAT Fl.BOOT_FSTAT_BUSY = 0 ∧
    flashState.flashOk = true ∧ flashState.fld Reg.BOOT_FADDR Fl.BOOT_FADDR_FADDR < flashState.flashSize ∧
    flashState.fld Reg.BOOT_FADDR Fl.BOOT_FADDR_FADDR % 0x2000 = 0 ∧ (∃ v, fieldOf v Fl.BOOT_FCMD_GO ≠ 0 ∧ fieldOf v Fl.BOOT_FCMD_KEY = 0xC3) ∧
    flashState.flashProtected (flashState.fld Reg.BOOT_FADDR Fl.BOOT_FADDR_FADDR) = false ∧
    ({ flashState with boot := { flashState.boot with fcmd := some (3, 0) } } : State).flashBusy = false :=
  ⟨by decide, by decide, by decide, by decide, by decide, by decide, by decide,
    ⟨withField (withField 0 Fl.BOOT_FCMD_GO 1) Fl.BOOT_FCMD_KEY 0xC3, by decide, by decide⟩, by decide, by decide⟩

/-- A word of BOOT_IMP_CMD with GO. -/
def importWord : Word := withField 0 Fl.BOOT_IMP_CMD_GO 1

/-- A reset state with the mirror domain of hall 0 ON and the header of a plane image for gallery 0 at address 0. -/
def importState : State := (State.reset.setDom 0 64 2).writeBytes 0 ([0x4D, 0x49, 0x50, 0x5A, 1] ++ List.replicate 59 0)

/-- States that meet the premises of Imports. -/
theorem witness_Imports : fieldOf 0 Fl.BOOT_IMP_CMD_GO = 0 ∧ fieldOf importWord Fl.BOOT_IMP_CMD_GO ≠ 0 ∧ State.reset.boot.imp = none ∧
    State.reset.pinned (32 * fieldOf importWord Fl.BOOT_IMP_CMD_HALL + fieldOf importWord Fl.BOOT_IMP_CMD_G) (fieldOf importWord Fl.BOOT_IMP_CMD_SLOT) = false ∧
    State.reset.slotWriting (32 * fieldOf importWord Fl.BOOT_IMP_CMD_HALL + fieldOf importWord Fl.BOOT_IMP_CMD_G) (fieldOf importWord Fl.BOOT_IMP_CMD_SLOT) = false ∧
    (State.reset.setFld (Reg.GAL_SLOT 0 0) Fl.GAL_SLOT_STATE 1).slotWriting 0 0 = true ∧
    State.reset.evRoom := ⟨by decide, by decide, rfl, by decide, by decide, by decide, show (0 : Nat) < 256 by decide⟩

/-- A header that admits its gallery and the part. -/
theorem witness_Imports_header : fieldOf importWord Fl.BOOT_IMP_CMD_HALL = 0 ∧ fieldOf importWord Fl.BOOT_IMP_CMD_G = 0 ∧
    fieldOf importWord Fl.BOOT_IMP_CMD_SLOT = 0 ∧ 64 * importState.fld Reg.BOOT_IMP_ADDR Fl.BOOT_IMP_ADDR_ADDR +
      2 ^ 32 * importState.fld Reg.BOOT_IMP_ADDRH Fl.BOOT_IMP_ADDRH_ADDRH = 0 ∧
    importState.pinned 0 0 = false ∧ importState.slotWriting 0 0 = false ∧ importState.loaderDown 0 = false ∧
    placeAdmits (planeHeader (importState.readBytes 0 64)).1 0 = true ∧
    variantLacks importState.part (planeHeader (importState.readBytes 0 64)).1.vmask.toNat = false ∧
    gradeLacks importState.part (planeHeader (importState.readBytes 0 64)).1.grade.toNat = false ∧
    (planeHeader (importState.readBytes 0 64)).2.2.2 = true ∧ importState.stopping = false ∧ importState.stop.cut = false ∧
    importState.adm.queue.length < 64 ∧ importState.boot.imp = none := by decide +kernel

/-- A state that runs with the scrubber of hall 0 at work, and nothing resident. -/
def scrubState : State := (runState.setDom 0 64 2).setFld Reg.BOOT_SCRUB_CFG Fl.BOOT_SCRUB_CFG_EN 1

/-- The same with plane 0 of gallery 0 READY. -/
def planeState : State := (scrubState.setPlaneState 0 0 2).setFld (Reg.GAL_SLOT 0 0) Fl.GAL_SLOT_STATE 2

/-- States that meet the premises of Scrubbing. -/
theorem witness_Scrubbing : State.reset.scrubOn 0 = false ∧ scrubState.scrubOn 0 = true ∧ (scrubState.scrub 0).prio = none ∧
    scrubState.prioGals 0 = [] ∧ ({ scrubState with boot := { scrubState.boot with scrub := [(0, { m := 1 })] } } : State).nextUnit 0 1 0 = none ∧
    planeState.scrubOn 0 = true ∧ planeState.prioGals 0 = [] ∧ planeState.nextUnit 0 (planeState.scrub 0).m (planeState.scrub 0).u = some (planeState.scrub 0).u ∧
    (planeState.gal 0).loadBusy = false ∧
    (State.reset.setFld (Reg.GAL_SLOT 0 0) Fl.GAL_SLOT_STATE 3).slotState 0 0 = 3 :=
  ⟨by decide, by decide, by decide, by decide +kernel, by decide +kernel, by decide, by decide +kernel, by decide +kernel, by decide, by decide⟩

/-- States that meet the premises of RecordWrites. -/
theorem witness_RecordWrites : State.reset.boot.recs = [] ∧
    ({ State.reset with boot := { State.reset.boot with recs := [{ (default : RecWrite) with typ := 2 }] } } : State).boot.recs = [{ (default : RecWrite) with typ := 2 }] ∧
    ({ (default : RecWrite) with typ := 1 } : RecWrite).typ = 1 := ⟨rfl, rfl, rfl⟩

/-- A word of FRST_CTRL with its key and GO, and states of a hall in a partial reset. -/
def frstWord : Word := withField (withField 0 Fl.FRST_CTRL_KEY 0xA5) Fl.FRST_CTRL_GO 1
def frstState (n : Nat) : State := State.reset.setFld (Reg.FRST_STAT 1) Fl.FRST_STAT_STATE n
theorem witness_PartialReset : fieldOf frstWord Fl.FRST_CTRL_KEY = 0xA5 ∧ fieldOf frstWord Fl.FRST_CTRL_GO ≠ 0 ∧ State.reset.inFrst 1 = false ∧
    fieldOf (0 : Word) Fl.FRST_CTRL_KEY ≠ 0xA5 ∧ State.reset.fld (Reg.FRST_STAT 1) Fl.FRST_STAT_STATE ≠ 1 ∧
    (frstState 1).fld (Reg.FRST_STAT 1) Fl.FRST_STAT_STATE = 1 ∧ (frstState 2).fld (Reg.FRST_STAT 1) Fl.FRST_STAT_STATE = 2 ∧
    (frstState 3).fld (Reg.FRST_STAT 1) Fl.FRST_STAT_STATE = 3 ∧ (hasPort 1 = true → (frstState 3).hbmState 1 ≠ 4) ∧ (frstState 3).evRoom ∧
    (((frstState 2).setFld (Reg.HALL_FENCE 1) Fl.HALL_FENCE_FENCE 1).inFrst 1 = true ∧
      (((frstState 2).setFld (Reg.HALL_FENCE 1) Fl.HALL_FENCE_FENCE 1).hall 1).frstLate = false ∧
      ((frstState 2).setFld (Reg.HALL_FENCE 1) Fl.HALL_FENCE_FENCE 1).bit (Reg.HALL_FENCE 1) Fl.HALL_FENCE_FENCE = true) ∧ State.reset.running = false ∧ (runState.setFld (Reg.FRST_STAT 1) Fl.FRST_STAT_STATE 0).running = true ∧
    State.reset.inFrst 1 = false :=
  ⟨by decide, by decide, by decide, by decide, by decide, by decide, by decide, by decide, by decide, show (0:Nat) < 256 by decide,
    ⟨by decide, by decide, by decide⟩, by decide, by decide, by decide⟩
/-- A corridor of hall 0 with its channel 2 dead at one end. -/
def chanState : State := State.reset.setEnd 0 0 2 1
theorem witness_FencesAndParity : corridorOf 0 0 = none ∧ corridorOf 0 1 = some 0 ∧ (∃ c, corridorOf 7 2 = some c) ∧ chanState.chanOf 0 2 = 1 ∧
    chanState.fenceBit 0 2 = false ∧ chanState.hallFence 0 = false ∧ chanState.chanOf 0 4 = 0 ∧ State.reset.evRoom ∧
    State.reset.limOpen (Ev.LAND_PARITY.code * 65536 + (256 * 7 + 191)) ms = true :=
  ⟨by decide, by decide, ⟨9, by decide⟩, by decide, by decide, by decide, by decide, show (0 : Nat) < 256 by decide, by decide⟩

/-- Track 40 of hall 1 switched off, its passes done, rearming automatic. -/
def trackState : State := ((State.reset.setTrackOff 1 40 true).setFld (Reg.MEZZ_CFG 1) Fl.MEZZ_CFG_AUTO_REARM 1)
theorem witness_MezzanineTracks : trackState.trackOff 1 40 = true ∧ State.reset.trackOff 1 40 = false ∧ 40 ∉ (trackState.hall 1).mezzLocked ∧
    trackState.bit (Reg.MEZZ_CFG 1) Fl.MEZZ_CFG_AUTO_REARM = true ∧ Sparse.get (trackState.hall 1).mezzPass [] 40 = [] ∧ trackState.evRoom ∧
    bitOf (0x100 : Word).toNat 8 = true ∧ trackState.claimValid 1 (32 * 1 + 8) = true ∧ trackState.trackOff 1 (32 * 1 + 8) = true ∧
    (trackState.setFld (Reg.MEZZ_CFG 1) Fl.MEZZ_CFG_AUTO_REARM 0).trackOff 1 40 = true ∧
    (trackState.setFld (Reg.MEZZ_CFG 1) Fl.MEZZ_CFG_AUTO_REARM 0).bit (Reg.MEZZ_CFG 1) Fl.MEZZ_CFG_AUTO_REARM = false ∧
    State.reset.ev.recs.length < 255 :=
  ⟨by decide, by decide, by decide, by decide, by decide, show (0:Nat) < 256 by decide, by decide, by decide +kernel, by decide, by decide, by decide,
    by decide⟩

/-- Gallery 33 (hall 1) with plane 2 active and its borders released, its clock 0 (context and endpoint) running: its message queue open
with one message, one item accepted. -/
def galState : State :=
  (((((State.reset.setFld (Reg.GAL_CTX_STAT 33) Fl.GAL_CTX_STAT_NONE 0).setFld (Reg.GAL_CTX_STAT 33) Fl.GAL_CTX_STAT_ACTIVE 2).setFld
    (Reg.GAL_EP_CFG 33) Fl.GAL_EP_CFG_LIMIT 4).setFld (Reg.GAL_PLANE 33 2) Fl.GAL_PLANE_TQ_EN 1).setFld (Reg.GAL_CLKSTAT 33)
    Fl.GAL_CLKSTAT_RUNNING 0xFF).modGal 33 (fun g => { g with tq := [{ cmd := 9 }], it := [⟨2, 0, true⟩] })
theorem witness_GalleryClocks : bitOf ((State.reset.setFldBit (Reg.GAL_CLKSTAT 33) Fl.GAL_CLKSTAT_SWITCHING 3 true).fld (Reg.GAL_CLKSTAT 33)
    Fl.GAL_CLKSTAT_SWITCHING) (3 : Fin 8) = true ∧ bitOf (State.reset.fld (Reg.GAL_CLKSTAT 33) Fl.GAL_CLKSTAT_SWITCHING) (3 : Fin 8) = false ∧
    (State.reset.gal 33).srcNext = none ∧ (State.reset.gal 33).maskOld = [] ∧
    ∃ v, (State.reset.galClkselWrite 33 3 v).branchSrc 33 3 ≠ State.reset.branchSrc 33 3 :=
  ⟨by decide, by decide, by decide, by decide, withField 0 Fl.GAL_CLKSEL_SRC 5, by decide +kernel⟩
/-- The same with a request of tag 5 outstanding, and in a partial reset of its hall. -/
def galBusy : State := galState.modGal 33 (fun g => { g with epOut := [⟨5, 2, {}⟩] })
def galFrst : State := galState.setFld (Reg.FRST_STAT 1) Fl.FRST_STAT_STATE 2
theorem witness_EndpointRequests : State.reset.canIssue 33 = false ∧ galState.activePlane 33 = some 2 ∧ galState.bordersHeld 33 = false ∧
    galState.endpointRuns 33 = true ∧ epOutstanding (galState.gal 33) < galState.fld (Reg.GAL_EP_CFG 33) Fl.GAL_EP_CFG_LIMIT ∧
    galState.evRoom ∧ ((galState.gal 33).epOut.any (fun o => o.tag == 5) || (galState.gal 33).ipHeld.any (fun x => x.2.tag == 5)) = false ∧
    galState.inFrst (33 / 32) = false := by
  and_intros <;> first | decide +kernel | exact show (0 : Nat) < 256 by decide
theorem witness_EndpointRequests_busy : galBusy.activePlane 33 = some 2 ∧ galBusy.bordersHeld 33 = false ∧ galBusy.endpointRuns 33 = true ∧
    epOutstanding (galBusy.gal 33) < galBusy.fld (Reg.GAL_EP_CFG 33) Fl.GAL_EP_CFG_LIMIT ∧
    ((galBusy.gal 33).epOut.any (fun o => o.tag == 5) || (galBusy.gal 33).ipHeld.any (fun x => x.2.tag == 5)) = true ∧
    galFrst.activePlane 33 = some 2 ∧ galFrst.endpointRuns 33 = true ∧ galFrst.inFrst (33 / 32) = true ∧
    passesFrst (33 / 32) { cmd := 1, runits := 1, addr := 0x40 } = false := by
  and_intros <;> decide +kernel
theorem witness_EndpointRequests_routes : routedCmd 0x11 = false ∧
    (routedCmd 1 = true ∧ destOfReq { cmd := 1, runits := 1, addr := 0x40 } = some (hallOfStack 0, 33, 0)) ∧
    (routedCmd 1 = true ∧ destOfReq { cmd := 1, runits := 1, addr := 0x9000000000 } = none) ∧
    bankOutside (galState.epMask 33 2) 33 { cmd := 1, runits := 1, addr := 0x40 } = none ∧
    (∃ d b, destOfReq { cmd := 1, runits := 1, addr := BitVec.ofNat 48 (memBase 33) } = some d ∧
      bankOutside (galState.epMask 33 2) 33 { cmd := 1, runits := 1, addr := BitVec.ofNat 48 (memBase 33) } = some b) :=
  by
  refine ⟨?_, ?_, ?_, ?_, (1, 1, 2), 0, ?_, ?_⟩ <;> decide +kernel
theorem witness_EndpointPorts : galState.tqOpen 33 = true ∧ (galState.gal 33).tq = [{ cmd := 9 }] ∧ galState.endpointRuns 33 = true ∧
    galState.contextClockRuns 33 = true ∧ galState.activePlane 33 = some 2 ∧
    galState.bordersHeld 33 = false ∧ (galState.gal 33).it.any (fun i => i.plane == 2 && i.accepted) = true ∧
    (galState.gal 33).eqOut.length < 16 ∧ galState.part.gweak = true ∧ galState.inFrst (33 / 32) = false ∧ (galState.gal 33).eqOut = [] ∧
    galFrst.contextClockRuns 33 = true ∧ galFrst.inFrst (33 / 32) = true ∧ State.reset.tqOpen 33 = false ∧ State.reset.canIssue 33 = false ∧
    ((galState.modGal 33 (fun g => { g with eqOut := List.replicate 16 ⟨2, 768, none⟩ })).gal 33).eqOut.length ≥ 16 := by
  and_intros <;> decide +kernel

/-- A word of GAL_RST with its key and GO; gallery 33 with plane 2 active, its context clock running, and a reset pending. -/
def galRstWord : Word := withField (withField 0 Fl.GAL_RST_KEY 0x5A) Fl.GAL_RST_GO 1
def galRstState : State := (galState.setFldBit (Reg.GAL_CLKSTAT 33) Fl.GAL_CLKSTAT_RUNNING 0 true).setFld (Reg.GAL_RSTSTAT 33) Fl.GAL_RSTSTAT_PENDING 1
theorem witness_GalleryReset : fieldOf galRstWord Fl.GAL_RST_KEY = 0x5A ∧ fieldOf galRstWord Fl.GAL_RST_GO = 1 ∧
    galState.fld (Reg.GAL_RSTSTAT 33) Fl.GAL_RSTSTAT_ACTIVE = 0 ∧ galState.fld (Reg.GAL_RSTSTAT 33) Fl.GAL_RSTSTAT_PENDING = 0 ∧
    fieldOf (0 : Word) Fl.GAL_RST_KEY ≠ 0x5A ∧ galRstState.fld (Reg.GAL_RSTSTAT 33) Fl.GAL_RSTSTAT_PENDING = 1 ∧
    galRstState.contextClockRuns 33 = true ∧ (galRstState.gal 33).repl = none ∧ (galRstState.gal 33).srcNext = none ∧ (galRstState.gal 33).maskOld = [] ∧
    galRstState.activePlane 33 = some 2 ∧
    ((galState.modGal 33 (fun g => { g with rst := .hold })).gal 33).rst = .hold ∧
    ((galState.modGal 33 (fun g => { g with rst := .released })).gal 33).rst = .released ∧ galState.evRoom ∧ (galState.gal 33).rst ≠ .hold ∧
    (galState.gal 33).rst ≠ .released ∧ ((galRstState.modGal 33 (fun g => { g with repl := some (1, .loading) })).gal 33).repl ≠ none := by
  and_intros <;> first | decide +kernel | exact show (0 : Nat) < 256 by decide

/-- Gallery 33 with plane 2 active and plane 1 READY; the context clock runs; a VALID image in slot 3 that any of its galleries admits. -/
def planeGal : State :=
  (((galState.setFldBit (Reg.GAL_CLKSTAT 33) Fl.GAL_CLKSTAT_RUNNING 0 true).setPlaneState 33 2 3).setPlaneState 33 1 2).fillSlot 33 3 1
    { (default : Image) with place := 1 }
def planeOn : State := planeGal.setFld (Reg.PWR_DSTAT 1 1) Fl.PWR_DSTAT_STATE 2
/-- Requests of Gweak's hall for plane 0 from slot 3, a load and a replacement of the active plane. -/
def loadOf (p : Nat) (rep : Bool) : LoadReq := ⟨p, 3, rep, .host⟩
def queued (r : LoadReq) (busy : Bool) : State := planeOn.modGal 33 (fun g => { g with loadQ := [r], loadBusy := busy })
/-- A switch to a plane pending, the context clock alone running. -/
def pendState (q : Nat) : State :=
  (((planeGal.setFld (Reg.GAL_CLKSTAT 33) Fl.GAL_CLKSTAT_RUNNING 1).setFld (Reg.GAL_CTX_STAT 33) Fl.GAL_CTX_STAT_PENDING 1).setFld
    (Reg.GAL_CTX_STAT 33) Fl.GAL_CTX_STAT_PEND_PLANE q).modGal 33 (fun g => { g with fresh := false })
def designGal : State := planeGal.setFld (Reg.GAL_CTX_CFG 33) Fl.GAL_CTX_CFG_SRC 1
theorem pend_edge (q : Nat) (hq : q = 0 ∨ q = 1) : (pendState q).edgeEligible 33 = true := by
  have stop : ∀ n ∈ List.range 8, (!((pendState q).switchStops 33 n && (pendState q).branchRuns 33 n)) = true := by
    intro n hn
    by_cases e : n = 0
    · have c : ((pendState q).fld (Reg.GAL_CTX_CFG 33) Fl.GAL_CTX_CFG_CCLK != n) = false := by
        rw [e]; rcases hq with x | x <;> subst x <;> decide +kernel
      unfold State.switchStops
      rw [c, Bool.and_false]; rfl
    · have r : (pendState q).branchRuns 33 n = false := by
        have hn' := List.mem_range.mp hn
        have all : ∀ k : Fin 8, k.val ≠ 0 → (pendState q).branchRuns 33 k = false := by
          rcases hq with x | x <;> subst x <;> decide +kernel
        exact all ⟨n, hn'⟩ e
      rw [r, Bool.and_false]; rfl
  unfold State.edgeEligible
  rw [List.all_eq_true.mpr stop, Bool.and_true]
  rcases hq with x | x <;> subst x <;> decide +kernel
theorem witness_PlaneSwitches :
    (let s := ((planeGal.setFld (Reg.GAL_CTX_CFG 33) Fl.GAL_CTX_CFG_SRC 2).setFld (Reg.GAL_CTX_STAT 33) Fl.GAL_CTX_STAT_SERVERS 3);
      s.ctxSrc 33 = 2 ∧ s.servers 33 ≠ 0 ∧ s.ev.recs.length < 256 ∧ (s.gal 33).srcNext = none ∧ (s.gal 33).maskOld = []) ∧
    fieldOf (0 : Word) Fl.GAL_CTX_CFG_SRC < 2 ∧ planeGal.ctxSrc 33 < 2 ∧
    fieldOf (withField 0 Fl.GAL_CTX_CFG_SRC 3) Fl.GAL_CTX_CFG_SRC = 3 ∧ planeGal.ctxSrc 33 = 0 ∧
    (∃ v, planeGal.planeState 33 (fieldOf v Fl.GAL_CTX_SEL_PLANE) = 2 ∧ planeGal.activePlane 33 ≠ some (fieldOf v Fl.GAL_CTX_SEL_PLANE)) ∧
    (∃ v, planeGal.planeState 33 (fieldOf v Fl.GAL_CTX_SEL_PLANE) ≠ 2 ∧ planeGal.activePlane 33 ≠ some (fieldOf v Fl.GAL_CTX_SEL_PLANE)) ∧
    planeGal.evRoom ∧ (∃ v, planeGal.activePlane 33 = some (fieldOf v Fl.GAL_CTX_SEL_PLANE)) :=
  ⟨by decide +kernel, by decide, by decide +kernel, by decide, by decide +kernel, ⟨withField 0 Fl.GAL_CTX_SEL_PLANE 1, by decide +kernel⟩,
    ⟨withField 0 Fl.GAL_CTX_SEL_PLANE 3, by decide +kernel⟩, show (0 : Nat) < 256 by decide, ⟨withField 0 Fl.GAL_CTX_SEL_PLANE 2, by decide +kernel⟩⟩
theorem witness_PlaneSwitches_port : designGal.ctxSrc 33 = 1 ∧ designGal.contextClockRuns 33 = true ∧ designGal.activePlane 33 = some 2 ∧
    designGal.planeState 33 (1 : PlaneIx) = 2 ∧ designGal.planeState 33 (3 : PlaneIx) ≠ 2 ∧
    designGal.limOpen (Ev.CTX_SWITCH_REFUSED.code * 65536 + 33) ms = true := by
  and_intros <;> decide +kernel
theorem witness_PlaneSwitches_edge : (pendState 1).edgeEligible 33 = true ∧ (pendState 0).edgeEligible 33 = true ∧
    (let s := pendState 1;
      s.fld (Reg.GAL_CTX_STAT 33) Fl.GAL_CTX_STAT_PENDING = 1 ∧ s.fld (Reg.GAL_CTX_STAT 33) Fl.GAL_CTX_STAT_PEND_PLANE = 1 ∧
      s.activePlane 33 = some 2 ∧ s.planeState 33 (1 : PlaneIx) = 2 ∧ (s.gal 33).fresh = false ∧ (s.gal 33).srcNext = none) ∧
    (pendState 0).planeState 33 (0 : PlaneIx) ≠ 2 ∧ planeGal.fld (Reg.GAL_CTX_STAT 33) Fl.GAL_CTX_STAT_PENDING = 0 ∧
    ((planeGal.modGal 33 (fun g => { g with switching := true })).gal 33).switching = true ∧ planeGal.contextClockRuns 33 = true ∧
    (planeGal.gal 33).switching = false :=
  ⟨pend_edge 1 (Or.inr rfl), pend_edge 0 (Or.inl rfl), by decide +kernel, by decide +kernel, by decide +kernel, by decide +kernel,
    by decide +kernel, by decide +kernel⟩
theorem witness_PlaneLoads : planeOn.loaderTested (33 / 32) = false ∧
    planeOn.loadCheck 33 (loadOf 0 false) (isForeign 33 .host) = none ∧ planeOn.loadCheck 33 (loadOf 2 false) (isForeign 33 .host) = some (3, .denied) ∧
    isForeign 33 (.design 0 5) = true ∧ planeOn.inFrst (33 / 32) = false ∧
    (let s := queued (loadOf 0 false) false;
      (s.gal 33).loadQ = [loadOf 0 false] ∧ (s.gal 33).loadBusy = false ∧ s.loaderTested (33 / 32) = false ∧ s.loadCheckHead 33 (loadOf 0 false) = none) ∧
    ((queued (loadOf 0 false) true).gal 33).loadBusy = true ∧
    (let s := queued (loadOf 2 true) false;
      (s.gal 33).loadQ = [loadOf 2 true] ∧ (s.gal 33).loadBusy = false ∧ (s.gal 33).repl = none ∧ s.contextClockRuns 33 = true ∧
      (s.gal 33).rst = .none ∧ (s.gal 33).switching = false ∧ s.loadCheckHead 33 (loadOf 2 true) = none ∧
      s.fld (Reg.GAL_CTX_STAT 33) Fl.GAL_CTX_STAT_PENDING = 0) ∧
    ((planeOn.modGal 33 (fun g => { g with repl := some (2, .loaded) })).gal 33).repl = some (2, .loaded) ∧
    ((planeOn.modGal 33 (fun g => { g with repl := some (2, .activated) })).gal 33).repl = some (2, .activated) := by
  and_intros <;> decide +kernel
/-- A copy of gallery 33's slot 3 under way into its slot 5. -/
def copyState : State := planeOn.modGal 33 (fun g => { g with copy := some ⟨1, 3, 5, true⟩ })
theorem witness_StoredSlots : planeOn.slotState (32 * (33 / 32) + (1 : Fin 32)) 3 = 2 ∧ planeOn.pinned 33 5 = false ∧
    placeAdmits (planeOn.slotImg (32 * (33 / 32) + (1 : Fin 32)) 3) 33 = true ∧ (planeOn.gal 33).copy = none ∧ planeOn.slotWriting 33 5 = false ∧
    planeOn.loaderTested (33 / 32) = false ∧ planeOn.stopping = false ∧ planeOn.stop.cut = false ∧ planeOn.adm.queue.length < 64 ∧
    planeOn.slotState (32 * (33 / 32) + (1 : Fin 32)) 4 ≠ 2 ∧ planeOn.pinned 33 0 = true ∧ planeOn.ev.recs.length < 256 ∧
    (copyState.gal 33).copy = some ⟨1, 3, 5, true⟩ := by
  and_intros <;> decide +kernel
/-- A slot whose image gallery 33 does not admit, and one being written. -/
def oddSlots : State := (planeOn.fillSlot 33 4 1 { (default : Image) with place := 2 }).setFld (Reg.GAL_SLOT 33 5) Fl.GAL_SLOT_STATE 1
theorem witness_StoredSlots_refused : oddSlots.slotState (32 * (33 / 32) + (1 : Fin 32)) 4 = 2 ∧ oddSlots.pinned 33 6 = false ∧
    placeAdmits (oddSlots.slotImg (32 * (33 / 32) + (1 : Fin 32)) 4) 33 = false ∧ oddSlots.slotWriting 33 5 = true ∧
    oddSlots.pinned 33 5 = false ∧ oddSlots.slotState (32 * (33 / 32) + (1 : Fin 32)) 3 = 2 ∧ (planeOn.setFld (Reg.GAL_CLKSTAT 33) Fl.GAL_CLKSTAT_RUNNING 0).contextClockRuns 33 = false ∧
    ({ planeOn with bist := { planeOn.bist with run := some { units := [1], halls := 2, keep := false, who := 0, started := true } } } :
      State).loaderTested (33 / 32) = true := by
  and_intros <;> decide +kernel

/-- Gallery 33's memory powered, its bank clock running, and a write of a row of bank 3 waiting at prism 0. -/
def memGal : State :=
  ((((planeOn.setFld (Reg.PWR_DSTAT 1 33) Fl.PWR_DSTAT_STATE 2).setFld (Reg.GAL_CLKSEL 33 0) Fl.GAL_CLKSEL_SRC 56).setFld (Reg.GAL_CLKSEL 33 0)
    Fl.GAL_CLKSEL_RUN 1).setFldBit (Reg.HCLK_STAT 1) Fl.HCLK_STAT_ETH_LOCK 0 true)
def prismReq : PrismReq := ⟨2, .write, 3, 17, 0x5, 0x112233, none, 0⟩
def writeGal : State := memGal.setPrismQ 33 0 [prismReq]
def readGal : State := memGal.setPrismQ 33 0 [{ prismReq with op := .read }]
/-- Bank 3 with a march under way, and with a corrected byte that waits. -/
def marchGal : State := memGal.modGal 33 (fun g => { g with memtest := Sparse.put g.memtest 3 ⟨2055, 1, none⟩ })
def wbGal : State :=
  (memGal.modGal 33 (fun g => { g with wb := Sparse.put g.wb 3 [memKey 33 3 9 1] })).writeByte (memKey 33 3 9 1) 7
theorem witness_PrismsAndBanks : memGal.activePlane 33 = some 2 ∧ memGal.psmReady 33 0 = true ∧ PrismOp.read ≠ .reserved ∧
    memGal.memOn 33 = true ∧ memGal.galTesting 33 0 = false ∧ State.reset.psmReady 33 0 = false := by
  and_intros <;> decide +kernel
theorem witness_PrismsAndBanks_bank : writeGal.memOn 33 = true ∧ writeGal.bankClockRuns 33 3 = true ∧
    Sparse.find (writeGal.gal 33).memtest 3 = none ∧ writeGal.galTesting 33 0 = false ∧ writeGal.prismAt 33 3 = some prismReq ∧
    writeGal.qDue 33 3 = false ∧ readGal.memOn 33 = true ∧ readGal.bankClockRuns 33 3 = true ∧
    Sparse.find (readGal.gal 33).memtest 3 = none ∧ readGal.galTesting 33 0 = false ∧
    readGal.prismAt 33 3 = some { prismReq with op := .read } ∧ readGal.qDue 33 3 = false := by
  and_intros <;> decide +kernel
theorem witness_PrismsAndBanks_idle : marchGal.memOn 33 = true ∧ marchGal.bankClockRuns 33 3 = true ∧
    Sparse.find (marchGal.gal 33).memtest 3 = some ⟨2055, 1, none⟩ ∧ marchGal.prismAt 33 3 = none ∧ marchGal.qDue 33 3 = false ∧
    wbGal.memOn 33 = true ∧ wbGal.bankClockRuns 33 3 = true ∧ Sparse.find (wbGal.gal 33).memtest 3 = none ∧ wbGal.prismAt 33 3 = none ∧
    Sparse.get (wbGal.gal 33).wb [] 3 = [memKey 33 3 9 1] ∧ wbGal.qDue 33 3 = false := by
  and_intros <;> decide +kernel
/-- The corrected byte has been written and arrives correct. -/
theorem witness_PrismsAndBanks_byte : wbGal.byteCheck (memKey 33 3 9 1) 0 default ≠ 2 := by decide +kernel
theorem witness_PrismsAndBanks_done : State.reset.memOn 33 = false ∧ State.reset.bankClockRuns 33 3 = false ∧
    Sparse.find (memGal.gal 33).memtest 3 = none ∧ memGal.prismAt 33 3 = none ∧ Sparse.get (memGal.gal 33).wb [] 3 = [] ∧
    memGal.qDue 33 3 = false ∧
    (memGal.setPrismQ 33 0 [{ prismReq with done := some (2, 0) }]).prismQ 33 0 = [{ prismReq with done := some (2, 0) }] := by
  and_intros <;> decide +kernel
/-- Queue 4 of gallery 33, of 16 rows, not enabled; a word that enables it with a span of one bank; the queue enabled and its
announcement waiting; the same queue with an announcement due. -/
def queueGal : State := memGal.setFld (Reg.GAL_Q_RING 33 4) Fl.GAL_Q_RING_SIZE 16
def ringOn : State := queueGal.setFld (Reg.GAL_Q_CFG 33 4) Fl.GAL_Q_CFG_EN 1
def retryGal : State := ringOn.modQ 33 4 (fun q => { q with inFlight := true, retry := some 4 })
def dueGal : State :=
  ((ringOn.setFld (Reg.GAL_Q_WM 33 4) Fl.GAL_Q_WM_HIGH 2).setFld (Reg.GAL_Q_ITEM_HI 33 4) Fl.GAL_Q_ITEM_HI_EN 1).modQ 33 4
    (fun q => { q with unann := 2 })
theorem witness_QueuesAndRowTest : queueGal.qOn 33 4 = false ∧ fieldOf (1 : Word) Fl.GAL_Q_CFG_EN = 1 ∧
    4 % spanBanks (fieldOf (1 : Word) Fl.GAL_Q_CFG_SPAN) = 0 ∧ queueGal.spanTaken 33 4 (spanBanks (fieldOf (1 : Word) Fl.GAL_Q_CFG_SPAN)) = false ∧
    2 ≤ queueGal.qSize 33 4 ∧ queueGal.qBase 33 4 + queueGal.qSize 33 4 ≤ spanBanks (fieldOf (1 : Word) Fl.GAL_Q_CFG_SPAN) * 2048 ∧
    (let s := memGal.setFld (Reg.GAL_Q_RING 33 5) Fl.GAL_Q_RING_SIZE 1; s.qOn 33 5 = false ∧ s.qSize 33 5 < 2 ∧ s.ev.recs.length < 256) ∧ retryGal.qOn 33 4 = true ∧
    fieldOf (0 : Word) Fl.GAL_Q_CFG_EN = 0 := by
  and_intros <;> decide +kernel
theorem witness_QueuesAndRowTest_due : dueGal.memOn 33 = true ∧ dueGal.bankClockRuns 33 4 = true ∧
    Sparse.find (dueGal.gal 33).memtest 4 = none ∧ dueGal.prismAt 33 4 = none ∧ Sparse.get (dueGal.gal 33).wb [] 4 = [] ∧
    dueGal.qDue 33 4 = true ∧ dueGal.part.gweak = true ∧ dueGal.inFrst 1 = false ∧
    (let s := { dueGal with part := { dueGal.part with gweak := false } }; s.memOn 33 = true ∧ s.bankClockRuns 33 4 = true ∧
      s.qDue 33 4 = true ∧ s.part.gweak = false) := by
  and_intros <;> decide +kernel
theorem witness_QueuesAndRowTest_retry : (retryGal.qHid 33 4).inFlight = true ∧ (retryGal.qHid 33 4).retry = some 4 ∧
    retryGal.inFrst 1 = false ∧ retryGal.ev.recs.length < 256 ∧ (retryGal.qHid 33 4).retried = false ∧
    ((retryGal.modQ 33 4 (fun q => { q with retried := true })).qHid 33 4).retried = true ∧ (queueGal.qHid 33 4).inFlight = false := by
  and_intros <;> decide +kernel
def testGal : State := memGal.setFld (Reg.GAL_MEMTEST_CFG 33) Fl.GAL_MEMTEST_CFG_EN 1
def restoreGal : State := writeGal.modGal 33 (fun g => { g with memtest := Sparse.put g.memtest 3 ⟨2055, 7, none⟩ })
theorem witness_QueuesAndRowTest_test : testGal.bit (Reg.GAL_MEMTEST_CFG 33) Fl.GAL_MEMTEST_CFG_EN = true ∧ testGal.memOn 33 = true ∧
    testGal.bankClockRuns 33 4 = true ∧ Sparse.find (testGal.gal 33).memtest 4 = none ∧ testGal.prismAt 33 4 = none ∧
    testGal.testDue 33 4 = true ∧ memGal.bit (Reg.GAL_MEMTEST_CFG 33) Fl.GAL_MEMTEST_CFG_EN = false ∧
    Sparse.find (restoreGal.gal 33).memtest 3 = some ⟨2055, 7, none⟩ ∧ restoreGal.memOn 33 = true ∧ restoreGal.bankClockRuns 33 3 = true ∧
    (restoreGal.prismAt 33 3).isSome = true ∧ (restoreGal.setPrismQ 33 0 []).prismAt 33 3 = none := by
  and_intros <;> decide +kernel

/-- Gweak of hall 1 on, dispatch and release enabled, and a descriptor of flow 512 + 5, class 2. -/
def gwkState : State :=
  (((State.reset.setFld (Reg.PWR_DSTAT 1 70) Fl.PWR_DSTAT_STATE 2).setFld (Reg.GWK_CTRL 1) Fl.GWK_CTRL_DISPATCH_EN 1).setFld (Reg.GWK_CTRL 1)
    Fl.GWK_CTRL_RELEASE_EN 1).setFld (Reg.GWK_FLOW_CFG 1 5) Fl.GWK_FLOW_CFG_EN 1
def descOf : BitVec 256 := BitVec.ofNat 256 (517 + 2 * 4096)
/-- One ready item in flow 5, its class at priority 7: for an engine, or for the idle server 8 whose active plane holds the image. -/
def readyState : State := (gwkState.modFlow 1 5 (fun x => { x with ready := [descOf] })).setFld (Reg.GWK_CLASS_A 1 2) Fl.GWK_CLASS_A_PRIO 7
def engState : State := readyState.setFld (Reg.GWK_CLASS_A 1 2) Fl.GWK_CLASS_A_DEST 1
def srvState1 : State :=
  (((((((readyState.setFld (Reg.GAL_CTX_CFG 34) Fl.GAL_CTX_CFG_SRC 2).setFld (Reg.PWR_DSTAT 1 2) Fl.PWR_DSTAT_STATE 2).setSrvState 1 8 1).setFld
    (Reg.GWK_SRV 1 8) Fl.GWK_SRV_RESIDENT 1).modSrv 1 8 (fun x => { x with pstate := 3 })).setReg (Reg.GWK_CLASS_MASK 1 2) 0xFFFFFFFF).setFld
    (Reg.GWK_THROTTLE 1) Fl.GWK_THROTTLE_MAX_BUSY 32)
theorem witness_GweakItems : gwkState.part.gweak = true ∧ gwkState.inFrst 1 = false ∧ fieldOf (1 : Word) Fl.GWK_ENQ_GO_GO = 1 ∧ gwkState.bit (Reg.GWK_ENQ_RSP 1) Fl.GWK_ENQ_RSP_BUSY = false ∧
    State.reset.gwkOn 1 = false ∧ gwkState.gwkOn 1 = true ∧ readyState.gwkOn 1 = true ∧
    readyState.bit (Reg.GWK_CTRL 1) Fl.GWK_CTRL_DISPATCH_EN = true ∧ (readyState.gwk 1).flows = [(5, { ready := [descOf] })] ∧
    readyState.flowState 1 5 = 1 ∧ dClass descOf = 2 ∧ readyState.fld (Reg.GWK_CLASS_A 1 2) Fl.GWK_CLASS_A_PRIO = 7 ∧
    readyState.tooLate 1 2 descOf = false ∧
    (engState.flowState 1 5 = 1 ∧ (engState.gwk 1).flows = [(5, { ready := [descOf] })] ∧ engState.gwkOn 1 = true ∧
      engState.bit (Reg.GWK_CTRL 1) Fl.GWK_CTRL_DISPATCH_EN = true ∧ engState.fld (Reg.GWK_CLASS_A 1 2) Fl.GWK_CLASS_A_PRIO = 7 ∧
      engState.bit (Reg.GWK_CLASS_A 1 2) Fl.GWK_CLASS_A_DEST = true) ∧
    (srvState1.gwkOn 1 = true ∧ srvState1.bit (Reg.GWK_CTRL 1) Fl.GWK_CTRL_DISPATCH_EN = true ∧
      (srvState1.gwk 1).flows = [(5, { ready := [descOf] })] ∧ srvState1.flowState 1 5 = 1 ∧
      srvState1.fld (Reg.GWK_CLASS_A 1 2) Fl.GWK_CLASS_A_PRIO = 7 ∧ srvState1.bit (Reg.GWK_CLASS_A 1 2) Fl.GWK_CLASS_A_DEST = false ∧
      srvState1.pickServer 1 2 = .active 8) ∧
    readyState.limOpen (Ev.CLASS_NO_SERVER.code * 65536 + (64 * 1 + 2)) ms = true ∧ readyState.ev.recs.length < 256 := by
  and_intros <;> decide +kernel
/-- Server 8 busy for 5 ms past a limit of 1 ms; an item delayed to a due time that has come. -/
def lateState : State :=
  { ((gwkState.modSrv 1 8 (fun x => { x with item := some descOf })).setSrvState 1 8 4).setFld (Reg.GWK_CLASS_B 1 2) Fl.GWK_CLASS_B_SVC_LIMIT 1000
    with now := 6000000 }
def dueState : State := gwkState.modGwk 1 (fun g => { g with delay := [(5, descOf)] })
theorem witness_GweakItems_time : lateState.gwkOn 1 = true ∧ (lateState.srv 1 8).item = some descOf ∧ lateState.srvState 1 8 = 4 ∧
    lateState.fld (Reg.GWK_CLASS_B 1 (dClass descOf)) Fl.GWK_CLASS_B_SVC_LIMIT ≠ 0 ∧ (lateState.srv 1 8).overrun = false ∧
    lateState.now - (lateState.srv 1 8).sent > lateState.fld (Reg.GWK_CLASS_B 1 (dClass descOf)) Fl.GWK_CLASS_B_SVC_LIMIT * 1000 ∧
    (State.reset.srv 1 8).item = none ∧
    ((gwkState.modFlow 1 5 (fun x => { x with retryWait := true })).flow 1 5).retryWait = true ∧
    dueState.gwkOn 1 = true ∧ dueState.bit (Reg.GWK_CTRL 1) Fl.GWK_CTRL_RELEASE_EN = true ∧ dueState.nextDue 1 = some (5, descOf) ∧
    State.reset.bit (Reg.GWK_CTRL 1) Fl.GWK_CTRL_DISPATCH_EN = false ∧ (State.reset.gwk 1).delay = [] := by
  and_intros <;> decide +kernel
theorem witness_GweakItems_gate : (gwkState.flow 1 5).retryWait = false ∧ gwkState.bit (Reg.GWK_CTRL 1) Fl.GWK_CTRL_DISPATCH_EN = true ∧
    gwkState.ev.recs.length < 256 ∧ (gwkState.setFld (Reg.FRST_STAT 1) Fl.FRST_STAT_STATE 1).inFrst 1 = true ∧
    { gwkState with part := { gwkState.part with gweak := false } }.part.gweak = false ∧ accessRecords gwkState.ev.recs < 16 := by
  and_intros <;> decide +kernel

/-- Gallery 2 of hall 1 scheduled and its logic powered; the same with its four servers, one of them assigned. -/
def schedState : State :=
  (gwkState.setFld (Reg.GAL_CTX_CFG 34) Fl.GAL_CTX_CFG_SRC 2).setFld (Reg.PWR_DSTAT 1 2) Fl.PWR_DSTAT_STATE 2
def serversOn : State := schedState.addServers 1 2
theorem witness_GweakFlowsAndServers : gwkState.part.gweak = true ∧ gwkState.inFrst 1 = false ∧ gwkState.flowEn 1 5 = true ∧
    (gwkState.writeFields (Reg.GWK_FLOW_CFG 1 5) 0).flowEn 1 5 = false ∧ State.reset.flowEn 1 5 = false ∧
    (State.reset.flow 1 5).svc = none ∧ (State.reset.writeFields (Reg.GWK_FLOW_CFG 1 5) 0x80000000).flowEn 1 5 = true ∧
    (let s := gwkState.modFlow 1 5 (fun x => { x with parked := true }); s.flowState 1 5 = 4 ∧ (s.flow 1 5).svc = none) ∧
    State.reset.flowState 1 5 ≠ 4 ∧
    (State.reset.setFld (Reg.GWK_SRV_STAT 1) Fl.GWK_SRV_STAT_BUSY 1).bit (Reg.GWK_SRV_STAT 1) Fl.GWK_SRV_STAT_BUSY = true ∧
    State.reset.bit (Reg.GWK_SRV_STAT 1) Fl.GWK_SRV_STAT_BUSY = false ∧ State.reset.ctxSrc (srvGal 1 2) ≠ 2 := by
  and_intros <;> decide +kernel
theorem witness_GweakFlowsAndServers_srv : schedState.bit (Reg.GWK_SRV_STAT 1) Fl.GWK_SRV_STAT_BUSY = false ∧
    schedState.ctxSrc (srvGal 1 2) = 2 ∧ schedState.domOn 1 2 = true ∧ schedState.hasServers 1 2 = false ∧
    serversOn.bit (Reg.GWK_SRV_STAT 1) Fl.GWK_SRV_STAT_BUSY = false ∧ serversOn.ctxSrc (srvGal 1 2) = 2 ∧ serversOn.domOn 1 2 = true ∧
    serversOn.hasServers 1 2 = true ∧ serversOn.galHas 1 2 [3] = false ∧ (serversOn.gwk 1).removing = [] ∧
    serversOn.victim 1 2 = some 8 := by
  and_intros <;> decide +kernel
theorem witness_GweakFlowsAndServers_rest : State.reset.part.gweak = true ∧ State.reset.inFrst 1 = false ∧
    (let s := State.reset.modFlow 1 5 (fun x => { x with svc := some descOf }); s.flowEn 1 5 = false ∧ (s.flow 1 5).svc ≠ none ∧
      (s.writeFields (Reg.GWK_FLOW_CFG 1 5) 0x80000000).flowEn 1 5 = true) ∧
    (gwkState.writeFields (Reg.GWK_FLOW_CFG 1 5) 0x80000000).flowEn 1 5 = gwkState.flowEn 1 5 ∧
    (serversOn.gwk 1).removing.any (fun x => x.1 == 2) = false ∧
    (let s := ((serversOn.setSrvState 1 8 4).setSrvState 1 9 4).setSrvState 1 10 4 |>.setSrvState 1 11 4; s.hasServers 1 2 = true ∧
      s.victim 1 2 = none ∧ s.domOn 1 2 = true) := by
  and_intros <;> decide +kernel

/-- A read of 64 bytes of gallery 33's memory by gallery 3 of hall 1, and the same packet spoilt in every way that turns it away. -/
def rdPkt : Packet := { unitPacket 1 3 0 1 1 2 1 0 5 with runits := 1, addr := BitVec.ofNat 48 (memBase 33) }
def seenState : State := memGal.accept rdPkt
/-- The same read on its way, come to its last router while one of the same order that was sent before it is still under way. -/
def wayPkt : Packet := { rdPkt with seq := 5, spot := some { hall := 1, node := 1, side := 5, mesh := 0, inside := true, target := true } }
def wayState : State := { memGal with net := [{ rdPkt with seq := 4 }, wayPkt] }
/-- The source of gallery 33's prism clock being changed. -/
def changingGal : State := memGal.setFld (Reg.GAL_CLKSTAT 33) Fl.GAL_CLKSTAT_SWITCHING 255
theorem witness_PacketsTurnedAway : memGal.reached rdPkt = true ∧ memGal.waitsForBank rdPkt = false ∧ changingGal.reached rdPkt = true ∧
    changingGal.waitsForBank rdPkt = true ∧ { rdPkt with hdiff := 1 }.hdrBad = true ∧ { rdPkt with fdiff := [(0, 1)] }.badUnits ≠ [] ∧
    rdPkt.cut = false ∧ rdPkt.hdrBad = false ∧ rdPkt.badUnits = [] ∧ { rdPkt with cut := true }.cut = true ∧
    { rdPkt with cut := true }.hdrBad = false ∧ asCmd rdPkt 1 = rdPkt ∧ hasResponse 0x01 = true ∧ hasResponse 0x13 = false := by
  and_intros <;> decide +kernel
theorem witness_PacketsTurnedAway_way : wayState.reached wayPkt = false ∧ (memGal.modLink 1 (linkIx 0 1 5) (fun l => { l with st := 1 })).attachDead rdPkt = true ∧
    memGal.attachDead rdPkt = false ∧ memGal.nobody 1 1 3 = true ∧ memGal.nobody 1 1 2 = false ∧
    (let s := memGal.setFld (Reg.FRST_STAT 1) Fl.FRST_STAT_STATE 1; s.inFrst 1 = true ∧ s.attachDead { rdPkt with srcHall := 0 } = false) ∧
    resetUnit 1 2 = true ∧ { rdPkt with srcHall := 0 }.srcHall.toNat ≠ 1 := by
  and_intros <;> decide +kernel
theorem witness_PacketsTurnedAway_none : (wayState.reach (asCmd wayPkt 1)).2 = none := by decide +kernel
theorem witness_PacketsTurnedAway_slot : domOfPort 1 2 = some 33 ∧ State.reset.domOn 1 33 = false ∧ State.reset.reached rdPkt = true ∧
    State.reset.waitsForBank rdPkt = false ∧ State.reset.attachDead rdPkt = false ∧ State.reset.nobody 1 1 2 = false ∧
    State.reset.resetTurns 1 rdPkt = none ∧
    (let s := State.reset.setFld (Reg.OMI_NOWAKE 1 1) Fl.OMI_NOWAKE_BITS 2; s.noWake 1 33 = true) ∧ State.reset.noWake 1 33 = false ∧
    Sparse.find State.reset.slots (((1 * 72 + 33) * 2 + rdPkt.mesh.toNat) * 4 + rdPkt.vc.toNat) = none ∧
    (let s := { State.reset with slots := [(((1 * 72 + 33) * 2 + rdPkt.mesh.toNat) * 4 + rdPkt.vc.toNat, ⟨rdPkt, 0⟩)] };
      (Sparse.find s.slots (((1 * 72 + 33) * 2 + rdPkt.mesh.toNat) * 4 + rdPkt.vc.toNat)).isSome = true) := by
  and_intros <;> decide +kernel
theorem witness_PacketsTurnedAway_open : memGal.Open rdPkt ∧ seenState.Open rdPkt ∧ seenState.isDup rdPkt = true ∧
    memGal.isDup rdPkt = false ∧ malformed { rdPkt with runits := 0 } = true ∧ malformed rdPkt = false ∧ portTakes 1 2 0x10 = false ∧
    { rdPkt with poison := true }.poison = true := by
  and_intros <;> decide +kernel

/-- A write of a unit of gallery 33's memory. -/
def wrPkt : Packet :=
  { rdPkt with runits := 0, units := 1, data := [0x1234], beFirst := 1 }
/-- The memory with bank 0 closed to others; a byte of the read's unit that stands in memory. -/
def closedGal : State := memGal.setReg (Reg.GAL_MEM_ACL 33 0) 3
theorem witness_GalleryMemoryRequests_clear : memGal.Clear (asCmd rdPkt 1) ∧ memGal.Clear (asCmd wrPkt 2) ∧ closedGal.Clear (asCmd rdPkt 1) ∧
    memGal.Clear (asCmd { rdPkt with addr := 64 } 1) := by
  and_intros <;> decide +kernel
/-- 64 bytes of zeros written at the read's address. -/
def filledGal : State := memGal.writeBytes (memBase 33) (List.replicate 64 0)
theorem witness_GalleryMemoryRequests : (asCmd { rdPkt with addr := 64 } 1).addr.toNat < memBase 33 ∧
    memBase 33 ≤ (asCmd rdPkt 1).addr.toNat ∧ (asCmd rdPkt 1).addr.toNat / 64 * 64 - memBase 33 = 0 ∧ memGal.galTesting 33 0 = false ∧
    (let s := { memGal.setReg (Reg.BIST_GSEL 1) 2 with bist := { memGal.bist with run := some { (default : BistRun) with units := [0], halls := 2, started := true } } };
      s.galTesting 33 0 = true ∧ s.Clear (asCmd rdPkt 1)) ∧
    ownRequest 33 (asCmd rdPkt 1) = false ∧
    ((bankChunks 0 64).map (fun c => bankOf c.1)).find? (fun b => !closedGal.aclAdmits 33 b (asCmd rdPkt 1) false) = some 0 ∧
    filledGal.Clear (asCmd rdPkt 1) ∧ (∀ c ∈ bankChunks 0 64, filledGal.aclAdmits 33 (bankOf c.1) (asCmd rdPkt 1) false = true) ∧
    (∀ c ∈ bankChunks 0 64, filledGal.bankClockRuns 33 (bankOf c.1) = true) ∧ filledGal.placesWith (memBase 33 + 0) 64 2 {} = [] ∧
    (∀ c ∈ bankChunks 0 64, memGal.aclAdmits 33 (bankOf c.1) (asCmd wrPkt 2) true = true) ∧ ({} : AccFacts).ovt = [] := by
  and_intros <;> decide +kernel
/-- The prism clock's branch stopped; a write two of whose bytes a prism write of the same cycle takes; an uncorrectable byte. -/
def stillGal : State := memGal.setFld (Reg.GAL_CLKSEL 33 0) Fl.GAL_CLKSEL_RUN 0
theorem witness_GalleryMemoryRequests_rest : stillGal.Clear (asCmd rdPkt 1) ∧
    (∀ c ∈ bankChunks 0 64, stillGal.aclAdmits 33 (bankOf c.1) (asCmd rdPkt 1) false = true) ∧
    (∀ c ∈ bankChunks 0 64, stillGal.bankClockRuns 33 (bankOf c.1) = false) ∧ stillGal.galTesting 33 0 = false ∧
    filledGal.placesWith (memBase 33 + 0) 64 2 ⟨[], [5]⟩ ≠ [] ∧
    (writeLanes (asCmd wrPkt 2)).zipIdx.any (fun x => x.1.2 && [0, 1].contains x.2) = true := by
  and_intros <;> decide +kernel

/-- Queue 4 of gallery 33 enabled, with room; with two rows in it; a push and a pop of one row of it. -/
def openQueue : State := queueGal.setFld (Reg.GAL_Q_CFG 33 4) Fl.GAL_Q_CFG_EN 1
def twoRows : State := (openQueue.setFld (Reg.GAL_Q_STAT 33 4) Fl.GAL_Q_STAT_FILL 2).writeBytes (memBase 33 + 0x100000) (List.replicate 128 1)
def pushPkt : Packet := { rdPkt with runits := 0, units := 2, addr := BitVec.ofNat 48 (memBase 33 + 0x100000) }
def popPkt : Packet := { pushPkt with runits := 2, units := 0 }
theorem witness_QueueVaultAndRegisterRequests_queue : openQueue.Clear (asCmd pushPkt 3) ∧ memBase 33 ≤ (asCmd pushPkt 3).addr.toNat ∧
    (asCmd pushPkt 3).addr.toNat / 64 * 64 - memBase 33 = 0x100000 ∧ bankOf 0x100000 = 4 ∧ openQueue.galTesting 33 0 = false ∧
    openQueue.qOn 33 4 = true ∧ openQueue.bankClockRuns 33 4 = true ∧
    openQueue.queueBarred 33 (asCmd pushPkt 3) ((List.range 1).map (fun i => openQueue.qBank 33 4 ((openQueue.qTail 33 4 + i) % max 1 (openQueue.qSize 33 4)))) = none ∧
    openQueue.qFill 33 4 + 1 ≤ openQueue.qSize 33 4 ∧
    (let s := openQueue.setFld (Reg.GAL_Q_STAT 33 4) Fl.GAL_Q_STAT_FILL 16; s.qFill 33 4 + 1 > s.qSize 33 4) ∧
    twoRows.Clear (asCmd popPkt 4) ∧ twoRows.qOn 33 4 = true ∧ twoRows.bankClockRuns 33 4 = true ∧ 1 ≤ twoRows.qFill 33 4 ∧
    openQueue.qFill 33 4 < 1 ∧
    twoRows.queueBarred 33 (asCmd popPkt 4) ((List.range 1).map (fun i => twoRows.qBank 33 4 ((twoRows.qHead 33 4 + i) % max 1 (twoRows.qSize 33 4)))) = none ∧
    twoRows.placesWith (memBase 33 + twoRows.qOff 33 4 (twoRows.qHead 33 4)) 128 2 {} = [] := by
  and_intros <;> decide +kernel
/-- The vault READY, with partition 0 for plane 0 of gallery 35; a read of it, and a register request of the management port. -/
def vaultState1 : State :=
  (((State.reset.setFld (Reg.SEC_VPART 0) Fl.SEC_VPART_VALID 1).setFld (Reg.SEC_VPART 0) Fl.SEC_VPART_G 35).setFld (Reg.SEC_VPART 0)
    Fl.SEC_VPART_PLANES 1).setFld Reg.SEC_VAULT_STAT Fl.SEC_VAULT_STAT_STATE 0
def srdPkt : Packet := { unitPacket 1 3 0 0 36 6 5 0 5 with runits := 1, addr := BitVec.ofNat 48 vaultBase }
def mwrPkt : Packet := { unitPacket 0 36 1 1 35 7 0xC1 3 5 with units := 1, addr := BitVec.ofNat 48 (regBase + 0x10000000), beFirst := 0xF0 }
theorem witness_QueueVaultAndRegisterRequests_vault : vaultState1.Clear (asCmd srdPkt 5) ∧ vaultState1.vaultCheck (asCmd srdPkt 5) = none ∧
    State.reset.Clear (asCmd srdPkt 5) ∧ State.reset.vaultCheck (asCmd srdPkt 5) = some 3 ∧
    vaultState1.Clear (asCmd { srdPkt with runits := 0, units := 1 } 6) ∧ vaultState1.vaultCheck (asCmd { srdPkt with runits := 0, units := 1 } 6) = none ∧
    State.reset.Clear (asCmd mwrPkt 0xC1) ∧ regBase ≤ (asCmd mwrPkt 0xC1).addr.toNat / 64 * 64 ∧
    (asCmd mwrPkt 0xC1).addr.toNat / 64 * 64 + 64 ≤ regBase + 0x100000000 ∧ (asCmd mwrPkt 0xC1).beFirst = BitVec.ofNat 64 (0xF * 2 ^ (4 * 1)) ∧
    State.reset.Clear (asCmd { mwrPkt with addr := 0 } 0xC1) ∧ (asCmd { mwrPkt with addr := 0 } 0xC1).addr.toNat / 64 * 64 < regBase ∧
    State.reset.Clear (asCmd { mwrPkt with units := 0, runits := 1 } 0xC0) ∧ State.reset.Clear (asCmd { mwrPkt with beFirst := 3 } 0xC1) ∧
    regEnables (asCmd { mwrPkt with beFirst := 3 } 0xC1) 0 ≠ 15 ∧ regEnables (asCmd { mwrPkt with beFirst := 3 } 0xC1) 0 ≠ 0 := by
  and_intros <;> decide +kernel

/-- Packets for the units of hall 1, and states in which they have their effects. -/
def msgPkt : Packet := { unitPacket 1 3 0 1 1 1 0x10 2 5 with units := 1, data := [0] }
def itemPkt : Packet := { unitPacket 1 32 0 1 1 0 0x12 2 5 with units := 1, data := [0], arg := 3 }
def loadPkt : Packet := { unitPacket 1 32 0 1 35 0 0x14 2 520 with arg := 1 }
def mirrorOn : State := State.reset.setFld (Reg.PWR_DSTAT 1 64) Fl.PWR_DSTAT_STATE 2
theorem witness_UnitPackets_gal : memGal.Clear (asCmd msgPkt 0x10) ∧ memGal.Clear (asCmd itemPkt 0x12) ∧
    (asCmd itemPkt 0x12).arg.toNat % 4 = 3 ∧ memGal.ctxSrc 33 ≠ 2 ∧
    (let s := (memGal.setFld (Reg.GAL_CTX_CFG 33) Fl.GAL_CTX_CFG_SRC 2).setPlaneState 33 3 2;
      s.activePlane 33 ≠ some 3 ∧ s.ctxSrc 33 = 2 ∧ s.planeState 33 3 = 2 ∧ s.Clear (asCmd itemPkt 0x12)) ∧
    mirrorOn.Clear (asCmd loadPkt 0x14) ∧ mirrorOn.loaderTested 1 = false ∧
    (mirrorOn.loadCheck 33 ⟨0, 0, false, .gweak⟩ false).isSome = true ∧
    (let s := (mirrorOn.setFld (Reg.GAL_SLOT 33 0) Fl.GAL_SLOT_STATE 2).setFld (Reg.PWR_DSTAT 1 1) Fl.PWR_DSTAT_STATE 2;
      s.Clear (asCmd loadPkt 0x14) ∧ s.loaderTested 1 = false ∧
      (s.modGal 33 (fun g => { g with slots := Sparse.put g.slots 0 { (default : Image) with place := 1 } })).loadCheck 33 ⟨0, 0, false, .gweak⟩ false = none) := by
  and_intros <;> decide +kernel
/-- Load reports of server 8's plane, enqueues, a DONE of server 8, a transmit request, and a response to host software's enqueue. -/
def rptPkt : Packet := { unitPacket 1 35 0 1 32 1 0x15 2 0 with arg := BitVec.ofNat 224 (packBits [(5, 2), (2, 0), (3, 2), (16, 7)]) }
/-- The report of the load's failure. -/
def failPkt : Packet := { rptPkt with arg := BitVec.ofNat 224 (packBits [(5, 2), (2, 0), (3, 4), (16, 7)]) }
def rptState : State := serversOn
def preloadState : State :=
  ((serversOn.setSrvState 1 8 2).modSrv 1 8 (fun x => { x with load := some 2 })).setFld (Reg.GWK_CLASS_B 1 2) Fl.GWK_CLASS_B_IMAGE_ID 7
def enqPkt : Packet := { unitPacket 1 3 0 1 32 0 0x11 2 9 with units := 1, data := [descOf.setWidth 512] }
def classOn : State := gwkState.setFld (Reg.GWK_CLASS_A 1 2) Fl.GWK_CLASS_A_EN 1
def donePkt : Packet := { unitPacket 1 2 0 1 32 1 0x13 2 0 with arg := 8 }
def busyState1 : State := (serversOn.modSrv 1 8 (fun x => { x with item := some descOf })).setSrvState 1 8 4
theorem witness_UnitPackets_gwk : rptState.Clear (asCmd rptPkt 0x15) ∧ bitOf (asCmd rptPkt 0x15).arg.toNat 30 = false ∧
    rptState.srvState 1 8 ≠ 0 ∧ (rptState.srv 1 8).load = none ∧
    preloadState.Clear (asCmd rptPkt 0x15) ∧ (preloadState.srv 1 8).load = some 2 ∧ (preloadState.srv 1 8).loaded = false ∧
    preloadState.srvState 1 8 = 2 ∧ preloadState.classImg 1 2 = 7 ∧
    gwkState.Clear (asCmd enqPkt 0x11) ∧ dFlow descOf / 512 = 1 ∧ gwkState.enqCheck 1 descOf 1 3 false = .denied 2 ∧
    classOn.Clear (asCmd enqPkt 0x11) ∧ classOn.enqCheck 1 descOf 1 3 false = .accepted ∧
    (let s := classOn.setFld (Reg.GWK_STAT 1) Fl.GWK_STAT_ITEMS 65536; s.Clear (asCmd enqPkt 0x11) ∧ s.enqCheck 1 descOf 1 3 false = .exhausted 0) ∧
    gwkState.Clear (asCmd { enqPkt with data := [0] } 0x11) ∧ dFlow (0 : BitVec 256) / 512 ≠ 1 ∧
    gwkState.Clear (asCmd donePkt 0x13) ∧ gwkState.srvState 1 8 ≠ 4 ∧ gwkState.srvState 1 8 ≠ 5 ∧
    busyState1.Clear (asCmd donePkt 0x13) ∧ busyState1.srvState 1 8 = 4 ∧ (busyState1.srv 1 8).orphan = false ∧
    (busyState1.srv 1 8).item = some descOf ∧ bitsOf (asCmd donePkt 0x13).arg.toNat 8 3 = 0 := by
  and_intros <;> decide +kernel
def ethOn : State := (State.reset.setFld (Reg.PWR_DSTAT 1 69) Fl.PWR_DSTAT_STATE 2).setFld (Reg.ETH_PSTAT 1 0 0) Fl.ETH_PSTAT_LINK 1
def xmitPkt (len : Nat) : Packet := { unitPacket 1 32 0 1 34 0 0x16 2 5 with units := 1, data := [BitVec.ofNat 512 (len * 2 ^ 80)] }
def waiting : State := gwkState.send { unitPacket 1 32 0 1 32 0 0x11 2 1000 with units := 1, data := [descOf.setWidth 512] }
def rspPkt : Packet := { unitPacket 1 32 0 1 32 0 0x80 1 1000 with status := 2 }
/-- Channel 1 of corridor 3, which the end of the other hall has declared dead. -/
def deadChan : State := State.reset.setEnd 3 (farHall 3 5) 1 1
def noticePkt : Packet := unitPacket 1 37 7 1 38 7 0xC2 3 0
theorem witness_UnitPackets_rest : ethOn.Clear (asCmd (xmitPkt 100) 0x16) ∧ ethOn.Clear (asCmd (xmitPkt 0) 0x16) ∧
    bitsOf (((xmitPkt 0).data.headD 0).setWidth 256 : BitVec 256).toNat 80 24 = 0 ∧
    bitsOf (((xmitPkt 100).data.headD 0).setWidth 256 : BitVec 256).toNat 80 24 = 100 ∧ ethOn.fld (Reg.ETH_TXQ 1 0 0) Fl.ETH_TXQ_PORT = 0 ∧
    100 ≤ ethOn.maxLen 1 0 0 - 4 ∧ ethOn.portUp 1 0 0 = true ∧ (Sparse.get (ethOn.eth 1 0).txq [] 0).length < 16 ∧
    (let s := ethOn.setFld (Reg.ETH_PSTAT 1 0 0) Fl.ETH_PSTAT_LINK 0; s.portUp 1 0 0 = false ∧ s.Clear (asCmd (xmitPkt 100) 0x16)) ∧
    (asCmd rspPkt 0x80).cut = false ∧ (asCmd rspPkt 0x80).hdrBad = false ∧ (asCmd rspPkt 0x80).badUnits = [] ∧
    waiting.attachDead (asCmd rspPkt 0x80) = false ∧ (domOfPort 32 0).all (waiting.domOn 1) = true ∧ waiting.isDup (asCmd rspPkt 0x80) = false ∧
    (waiting.answered (asCmd rspPkt 0x80)).any (fun r => r.p.srcNode == 32 && r.p.tag == 1000) = true ∧ gwkState.answered (asCmd rspPkt 0x80) = none ∧
    gwkState.fld (Reg.FRST_STAT 1) Fl.FRST_STAT_STATE < 2 ∧ noticePkt.cut = false ∧ noticePkt.hdrBad = false ∧ noticePkt.poison = false ∧
    noticePkt.badUnits = [] ∧ deadChan.isDup noticePkt = false ∧ corridorOf 5 0 = some 3 ∧ deadChan.chanSt 3 5 1 = 0 ∧
    deadChan.chanSt 3 (farHall 3 5) 1 = 1 ∧ deadChan.ev.recs.length < 253 ∧ (deadChan.setEnd 3 5 1 1).chanSt 3 5 1 ≠ 0 ∧
    waiting.reached (asCmd rspPkt 0x80) = true ∧ deadChan.reached noticePkt = true ∧
    (let s := gwkState.setFld (Reg.FRST_STAT 1) Fl.FRST_STAT_STATE 2; s.answered (asCmd rspPkt 0x80) = none ∧
      2 ≤ s.fld (Reg.FRST_STAT 1) Fl.FRST_STAT_STATE ∧ (asCmd rspPkt 0x80).dstNode.toNat < 35 ∧ s.isDup (asCmd rspPkt 0x80) = false ∧
      s.attachDead (asCmd rspPkt 0x80) = false) ∧
    (bitsOf (asCmd failPkt 0x15).arg.toNat 7 3 = 4 ∧ preloadState.Clear (asCmd failPkt 0x15)) := by
  and_intros <;> decide +kernel

/-- Packets at router 1 of hall 0, a probe that sees them, dead links and channels, and requests whose time runs out. -/
def rtPkt : Packet := { unitPacket 1 3 0 0 2 0 0x10 2 5 with units := 1, data := [0] }
def rtAt (d : Nat) (inside : Bool) (p : Packet) : Packet := { p with spot := some { hall := 0, node := 1, side := d, mesh := 0, inside := inside } }
def gwAt (p : Packet) : Packet := { p with spot := some { hall := 0, node := 38, side := 3, mesh := 0, inside := true } }
def probeOn : State := ((State.reset.setFld (Reg.LENS_CFG 0 2) Fl.LENS_CFG_EN 1).setFld (Reg.LENS_CFG 0 2) Fl.LENS_CFG_NODE 1).setFld
  (Reg.LENS_CFG 0 2) Fl.LENS_CFG_VCMASK 15 |>.setFld (Reg.LENS_CFG 0 2) Fl.LENS_CFG_SIDE 4
def withPkt (s : State) (p : Packet) : State := { s with net := [p] }
def linkIs (st : Nat) : State := State.reset.modLink 0 1 (fun x => { x with st := st })
/-- A packet that its unit has not yet put on its router's input; one for hall 1, and one for its own router, with a command of each kind. -/
def newPkt : Packet := { rtPkt with srcHall := 0, srcNode := 1 }
def farPkt : Packet := { rtPkt with dstHall := 1 }
def ownPkt : Packet := { rtPkt with dstNode := 1, cmd := 0x80 }
theorem witness_LinksAndTimeouts_enter :
    (let p := { rtAt 4 false rtPkt with hdiff := 1 }; p ∈ (withPkt probeOn p).net ∧ standsIn 0 1 4 p ∧ (withPkt probeOn p).unitMute p = false ∧
      p.spot.isSome = true ∧ (spotOf p).inside = false ∧ p.hdrBad = true) ∧
    (let p := { rtAt 4 false rtPkt with fdiff := [(0, 1)] }; p ∈ (withPkt probeOn p).net ∧ standsIn 0 1 4 p ∧ p.hdrBad = false ∧ p.badUnits ≠ [] ∧
      ¬ (p.dstHall.toNat = 0 ∧ 1 = p.dstNode.toNat) ∧ (withPkt probeOn p).linkState 0 (linkIx (spotOf p).mesh 1 (spotOf p).side) ≠ 1 ∧
      (withPkt probeOn p).linkState 0 (linkIx (spotOf p).mesh 1 (spotOf p).side) ≠ 3 ∧
      (withPkt probeOn p).probeSees 0 2 (spotOf p).mesh 1 (spotOf p).side 0 p = true) ∧
    (let s := withPkt (State.reset.modLink 0 12 (fun x => { x with st := 1 })) newPkt; newPkt ∈ s.net ∧ standsIn 0 1 4 newPkt ∧ s.unitMute newPkt = true) ∧
    (let p := rtAt 4 false rtPkt; rtPkt ∉ (withPkt probeOn p).net ∧ p ∈ (withPkt probeOn p).net ∧ (spotOf p).node ≠ 2) := by
  and_intros <;> decide +kernel
theorem witness_LinksAndTimeouts_leave :
    (let p := rtAt 4 true rtPkt; let s := withPkt probeOn p; p ∈ s.net ∧ standsIn 0 1 4 p ∧ (spotOf p).inside = true ∧ s.unitMute p = false ∧
      s.noRoom p (s.hopOf p) = false ∧ s.outbid p (s.hopOf p) = false ∧ s.hopOf p = .side 1 0 none ∧ linkPeer (linkIx 0 1 1) = some (linkIx 0 2 3)) ∧
    (let p := gwAt farPkt; let s := withPkt probeOn p; standsIn 0 38 3 p ∧ s.noRoom p (s.hopOf p) = false ∧ s.outbid p (s.hopOf p) = false ∧
      s.hopOf p = .corridor 1 0 ∧ corridorOf 0 1 = some 0 ∧ s.chanSt 0 (farHall 0 0) (s.chanFor 0 0 0 (orderKey p)) ≠ 1) ∧
    (let p := rtAt 4 true ownPkt; let s := withPkt probeOn p; s.noRoom p (s.hopOf p) = false ∧ s.outbid p (s.hopOf p) = false ∧ s.hopOf p = .target ∧
      0x80 ≤ p.cmd.toNat ∧ p.cmd.toNat < 0xC0 ∧ knownCmd p.cmd.toNat = true) ∧
    (let p := rtAt 4 true rtPkt; let s := withPkt ((probeOn.modLink 0 9 (fun x => { x with st := 1 })).modLink 0 329 (fun x => { x with st := 1 })) p;
      s.hopOf p = .none ∧ s.noRoom p (s.hopOf p) = false ∧ s.outbid p (s.hopOf p) = false ∧ hasResponse p.cmd.toNat = true) ∧
    (let p := rtAt 4 true rtPkt; let q := rtAt 5 true { rtPkt with vc := 3 }; let s := ({ probeOn with net := [q, p] } : State);
      s.outbid p (s.hopOf p) = true) := by
  and_intros <;> decide +kernel
def chanIs (st : Nat) : State := State.reset.modCorr 0 (fun x => { x with st := [(2, st), (7, st)] })
def enqReq : Req := ⟨{ rtPkt with srcNode := 32, tag := 1000, srcHall := 0, srcPort := 0 }, 0⟩
theorem witness_LinksAndTimeouts_dead : (linkIs 0).linkState 0 1 = 0 ∧ linkPeer 9 = some 19 ∧ (linkIs 1).linkState 0 1 = 1 ∧
    ((linkIs 1).link 0 1).spoke = false ∧ (linkIs 1).unitDown 0 1 = false ∧ (linkIs 1).ev.recs.length < 256 ∧
    (let s := State.reset.modLink 0 4 (fun x => { x with st := 1 }); s.linkState 0 4 = 1 ∧ s.unitDown 0 4 = true) ∧
    (linkIs 2).linkState 0 1 = 2 ∧ (linkIs 2).linkState 0 1 ≠ 0 ∧
    corridorOf (0 : HallIx) (1 : Fin 3) = some 0 ∧ State.reset.chanSt 0 0 2 = 0 ∧ State.reset.fenceBit 0 2 = false ∧ State.reset.hallFence 0 = false ∧
    State.reset.ev.recs.length < 253 ∧ (chanIs 2).chanOf 0 2 = 2 ∧ (chanIs 1).chanSt 0 0 2 = 1 ∧ ((chanIs 1).corr 0).spoke.contains (5 * 0 + 2) = false ∧
    (let p := rtAt 3 true rtPkt; { p with spot := some { hall := 0, node := 2, side := 3, mesh := 0 } } ∈
      (withPkt State.reset { p with spot := some { hall := 0, node := 2, side := 3, mesh := 0 } }).linkCopies 0 (linkIx 0 1 1)) ∧
    (let p := { farPkt with spot := some { hall := 1, node := 37, side := 4, mesh := 0, chan := some 0 } };
      p ∈ (withPkt State.reset p).chanCopies 0 0 0) := by
  and_intros <;> decide +kernel
theorem witness_LinksAndTimeouts_time : State.reset.findReq 0 32 0 1000 = none ∧ ({ State.reset with reqs := [enqReq] } : State).findReq 0 32 0 1000 = some enqReq ∧
    enqReq.p.srcNode = 32 ∧ enqReq.p.tag = 1000 ∧ Sparse.find State.reset.slots (((0 * 72 + 1) * 2 + 0) * 4 + 2) = none ∧
    Sparse.find ({ State.reset with slots := [(10, ⟨rtPkt, 0⟩)] } : State).slots (((0 * 72 + 1) * 2 + 0) * 4 + 2) = some ⟨rtPkt, 0⟩ ∧
    hasResponse rtPkt.cmd.toNat = true ∧ hasResponse ownPkt.cmd.toNat = false := by and_intros <;> decide +kernel

/-- Range 1 of stack 1's engine, its spans free and a key in place; the range in another state; a combining entry of block 1 of it. -/
def rangeOff : State := (((State.reset.setFld (Reg.MEE_DUNITS 3 1) Fl.MEE_DUNITS_DUNITS 2).setFld (Reg.MEE_MBASE 3 1) Fl.MEE_MBASE_MBASE 64).setFld
  (Reg.MEE_STAT 3 1) Fl.MEE_STAT_KEY_CUR 1)
def rangeIs (st : Nat) : State := ((rangeOff.setMeeState 3 1 st).setFld (Reg.MEE_STAT 3 1) Fl.MEE_STAT_KEY_NEXT 1).setHbmState 3 2
def wcbEnt : WcbEnt := ⟨1, 1, 5, 1, 0⟩
def wcbState : State := ((rangeIs 3).modMee 3 (fun m => { m with wcb := [wcbEnt] })).modRange 3 1 (fun x => { x with written := [(1, true)] })
theorem witness_EncryptedRanges : rangeOff.part.mee = true ∧ rangeOff.inFrst 3 = false ∧
    (State.reset.setFld (Reg.FRST_STAT 3) Fl.FRST_STAT_STATE 2).inFrst 3 = true ∧ ({ State.reset with part := { State.reset.part with mee := false } } : State).part.mee = false ∧
    accessRecords State.reset.ev.recs < 16 ∧ hallOfStack (1 : StackIx) = 3 ∧ rangeOff.meeState 3 1 = 0 ∧ rangeOff.meeEnableOk 3 1 = true ∧ (rangeIs 3).meeState 3 1 ≠ 0 ∧
    State.reset.meeState 3 1 = 0 ∧ State.reset.meeEnableOk 3 1 = false ∧ State.reset.ev.recs.length < 256 ∧
    rangeOff.stopping = false ∧ rangeOff.stop.cut = false ∧ rangeOff.adm.queue.length < 64 ∧
    rangeOff.adm.queue.any (fun x => decide (x.who = .mee 1 1)) = false ∧
    fieldOf (0x11 : Word) Fl.MEE_KEYLD_GO ≠ 0 ∧ fieldOf (0x11 : Word) Fl.MEE_KEYLD_RANGE = 1 ∧ fieldOf (0x11 : Word) Fl.MEE_KEYLD_SLOT = 0 ∧
    fieldOf (0x11 : Word) Fl.MEE_KEYLD_SRC = 0 ∧ rangeOff.otp.lc ≠ 2 ∧ fieldOf (0x15 : Word) Fl.MEE_KEYLD_SRC = 1 ∧
    rangeOff.bit Reg.SEC_RNG Fl.SEC_RNG_FAIL = false ∧ fieldOf (0x13 : Word) Fl.MEE_KEYLD_SLOT = 1 ∧ (rangeIs 3).meeState 3 1 = 3 ∧
    fieldOf (0 : Word) Fl.MEE_KEYLD_GO = 0 ∧ (rangeIs 3).ev.recs.length < 256 := by decide +kernel
theorem witness_KeyChangesAndCombining : (rangeIs 6).meeState 3 1 = 6 ∧ (rangeIs 3).bit (Reg.MEE_STAT 3 1) Fl.MEE_STAT_KEY_NEXT = true ∧
    rangeOff.bit (Reg.MEE_STAT 3 1) Fl.MEE_STAT_KEY_NEXT = false ∧ (rangeIs 2).hbmState 3 = 2 ∧ (rangeIs 2).meeState 3 1 = 2 ∧
    (rangeIs 2).bound 3 1 + 1 < (rangeIs 2).dunits 3 1 ∧ ((rangeIs 2).setFld (Reg.MEE_DUNITS 3 1) Fl.MEE_DUNITS_DUNITS 1).dunits 3 1 ≤ (rangeIs 2).bound 3 1 + 1 ∧
    (rangeIs 4).meeState 3 1 = 4 ∧ ((rangeIs 4).mee 3).wcb.filter (fun e => e.range == 1 && (rangeIs 4).blkIn 3 1 e.blk / 512 == (rangeIs 4).bound 3 1) = [] ∧ (rangeIs 4).bound 3 1 + 1 < (rangeIs 4).dunits 3 1 ∧
    State.reset.hbmState 3 ≠ 2 ∧ (rangeIs 5).meeState 3 1 = 5 ∧ (rangeIs 5).stopping = false ∧ (rangeIs 5).adm.queue.length < 64 ∧
    ((rangeIs 3).mee 3).wcb.find? (fun e => e.blk == 1) = none ∧ (wcbState.mee 3).wcb.find? (fun e => e.blk == 1) = some wcbEnt ∧
    wcbEnt.range < 8 ∧ wcbState.poisoned 3 1 (wcbState.blkIn 3 1 1 / 8) = false ∧
    (let s := wcbState.setReg (Reg.MEE_POISON 3 1 0) 0x80000000; s.poisoned 3 1 (s.blkIn 3 1 1 / 8) = true) ∧
    Sparse.get (wcbState.range 3 1).written false (wcbState.blkIn 3 1 1) = true ∧ wcbState.nctrSpent 3 1 (wcbState.blkIn 3 1 1) = none ∧
    Sparse.get (wcbState.treeOf 3 1 (wcbState.blkIn 3 1 1)).minor 0 (wcbState.blkIn 3 1 1) < 127 ∧ (wcbState.pc 3 (pcOf 64)).wq.length < 64 ∧
    (rangeIs 3).part.mee = true ∧ (rangeIs 3).inFrst 3 = false := by decide +kernel

/-- Stack 0's port in a state; reads and writes waiting in its pseudo-channel 0, bytes of block 0 written. -/
def stackIs (st : Nat) : State := State.reset.setHbmState 0 st
def idleStack : State := (stackIs 2).setFld (Reg.HBM_CFG 0) Fl.HBM_CFG_SR_IDLE 5
def wantStack : State := (stackIs 2).modHbm 0 (fun b => { b with wants := [2] })
def readState : State := (((stackIs 2).modPc 0 0 (fun x => { x with rq := [⟨0, 7, 0, none, 0⟩] })).modHbm 0 (fun b =>
  { b with reqs := [⟨7, { cmd := 1, runits := 1 }, [none]⟩] })).writeBytes 0 (List.replicate 64 1)
def writeState : State := (stackIs 2).modPc 0 0 (fun x => { x with wq := [{ blk := 0, data := 5, mask := BitVec.allOnes 64, t := 0 }] })
theorem witness_StackStates : State.reset.inFrst 0 = false ∧ (State.reset.setFld (Reg.FRST_STAT 0) Fl.FRST_STAT_STATE 2).inFrst 0 = true ∧
    2 ∉ (State.reset.hbm 0).wants ∧ (State.reset.hbm 0).wants = [] ∧ fieldOf (0x0505 : Word) Fl.HBM_WQ_LOW ≥ fieldOf (0x0505 : Word) Fl.HBM_WQ_HIGH ∧
    fieldOf (0x2010 : Word) Fl.HBM_WQ_LOW < fieldOf (0x2010 : Word) Fl.HBM_WQ_HIGH ∧ fieldOf (0x2010 : Word) Fl.HBM_WQ_HIGH ≤ 64 ∧
    State.reset.ev.recs.length < 256 ∧ State.reset.hbmState 0 ≠ 2 ∧ bitOf ((stackIs 2).fld (Reg.HBM_SR 0) Fl.HBM_SR_BITS) (4 / 2) = false ∧
    (stackIs 2).hbmState 0 = 2 ∧ idleStack.hbmState 0 = 2 ∧ idleStack.fld (Reg.HBM_CFG 0) Fl.HBM_CFG_SR_IDLE ≠ 0 ∧
    pcIdle (idleStack.pc 0 6) = true ∧ pcIdle (idleStack.pc 0 7) = true ∧ pcRefreshed (idleStack.pc 0 6) = true ∧ pcRefreshed (idleStack.pc 0 7) = true ∧ idleStack.pcFailed 0 6 = false ∧
    2 ∈ (((stackIs 3).modHbm 0 (fun b => { b with wants := [2] })).hbm 0).wants ∧
    (((stackIs 3).modHbm 0 (fun b => { b with wants := [2] })).hbm 0).wants.filter (· != 2) = [] ∧
    ((stackIs 3).modHbm 0 (fun b => { b with wants := [2] })).hbmState 0 = 3 ∧ (stackIs 3).stopping = false ∧ (stackIs 3).stop.cut = false ∧
    (stackIs 3).adm.queue.length < 64 ∧ (wantStack.hbm 0).wants ≠ [] ∧ wantStack.portQuiet 0 = true ∧ wantStack.hbmState 0 = 2 ∧
    wantStack.portServes 0 = false ∧ (stackIs 4).hbmState 0 = 4 ∧
    (((stackIs 4).modHbm 0 (fun b => { b with exiting := true })).hbm 0).exiting = true ∧ (stackIs 1).hbmState 0 = 1 ∧
    (((stackIs 1).modHbm 0 (fun b => { b with initBegun := true })).hbm 0).initBegun = true ∧ (stackIs 2).hbmState 0 ≠ 1 := by and_intros <;> decide +kernel
/-- What a schedule step of pseudo-channel 0 begins with. -/
def ahead (s : State) : State := (s.wbDrain 0 0).rowsAhead 0 0
theorem witness_BurstsAndAlerts : (stackIs 2).pcFailed 0 0 = false ∧ (ahead (stackIs 2)).schedule 0 0 = (.read, .none) ∧
    ((ahead readState).schedule 0 0).2 = .read ⟨0, 7, 0, none, 0⟩ ∧ readState.burstFact 0 0 .ok = .ok ∧ readState.burstFact 0 32 .ok = .ok ∧
    (readState.hbm 0).reqs.find? (fun x => x.id == 7) = some ⟨7, { cmd := 1, runits := 1 }, [none]⟩ ∧ readState.hbmState 0 = 2 ∧
    (readState.setFld (Reg.HBM_RH 0) Fl.HBM_RH_EN 0).bit (Reg.HBM_RH 0) Fl.HBM_RH_EN = false ∧
    ((ahead writeState).schedule 0 0).2 = .write { blk := 0, data := 5, mask := BitVec.allOnes 64, t := 0 } ∧ writeState.hbmState 0 = 2 ∧
    bitOf ((stackIs 2).fld (Reg.HBM_STAT 0) Fl.HBM_STAT_FAILED_CH) 3 = false ∧
    Sparse.find (((stackIs 2).modHbm 0 (fun b => { b with alerts := [(3, 3)] })).hbm 0).alerts 3 = some 3 ∧
    Sparse.find ((stackIs 2).hbm 0).alerts 3 = none := by and_intros <;> decide +kernel

/-- Lane 4 of hall 1 in a state, its configuration that of an enabled NRZ lane; release has reached the lanes. -/
def laneRate : State := { State.reset.setFld (Reg.LANE_RATE 1 4) Fl.LANE_RATE_RATE 25000000 with clk := { State.reset.clk with ioOn := true } }
def laneIs (st : Nat) : State := (laneRate.setFld (Reg.LANE_CFG 1 4) Fl.LANE_CFG_EN 1).setFld (Reg.LANE_STAT 1 4) Fl.LANE_STAT_STATE st
def laneHid (f : LaneHid → LaneHid) : State := (laneIs 3).modLane 1 4 f
theorem witness_Lanes : (laneIs 3).laneEn 1 4 = true ∧ laneRate.laneEn 1 4 = false ∧
    laneRate.laneRefused 1 4 ((laneRate.writeFields (Reg.LANE_CFG 1 4) 0x80000010).reg (Reg.LANE_CFG 1 4)) = true ∧ laneRate.ev.recs.length < 256 ∧
    (laneRate.writeFields (Reg.LANE_CFG 1 4) 0x80000000).laneEn 1 4 = true ∧
    laneRate.laneRefused 1 4 ((laneRate.writeFields (Reg.LANE_CFG 1 4) 0x80000000).reg (Reg.LANE_CFG 1 4)) = false ∧
    (laneRate.setFld (Reg.LANE_STAT 1 4) Fl.LANE_STAT_STATE 1).laneState 1 4 = 1 ∧ laneRate.clk.ioOn = true ∧
    (laneRate.writeFields (Reg.LANE_CFG 1 4) 0x80000000).laneFollows 1 4 = false ∧ State.reset.laneState 1 4 ≠ 1 ∧
    (laneIs 3).laneFollows 1 4 = false ∧ (laneIs 3).laneState 1 4 = 3 ∧ (laneIs 4).laneState 1 4 = 4 ∧ (laneIs 5).laneState 1 4 = 5 ∧
    (laneIs 3).bit (Reg.LANE_CTRL 1 4) Fl.LANE_CTRL_DORMANT = false ∧ (laneIs 4).qreq 1 4 = false ∧
    ((laneIs 3).setFld (Reg.LANE_STAT 1 4) Fl.LANE_STAT_LOCK 1).bit (Reg.LANE_STAT 1 4) Fl.LANE_STAT_LOCK = true ∧
    (let s := ((laneIs 3).modGal 48 (fun g => { g with bBoot := false })).setFld (Reg.GAL_CTX_STAT 48) Fl.GAL_CTX_STAT_NONE 0; s.bordersHeld (32 * 1 + laneGallery 4) = false) ∧
    (laneIs 4).bit (Reg.LANE_CTRL 1 4) Fl.LANE_CTRL_QUIET = false ∧ (laneIs 2).laneState 1 4 = 2 ∧ (laneIs 2).laneSource 1 4 = true ∧
    (laneIs 2).wantsQuiet 1 4 = false ∧ ((laneIs 2).setFld (Reg.LANE_CTRL 1 4) Fl.LANE_CTRL_QUIET 1).bit (Reg.LANE_CTRL 1 4) Fl.LANE_CTRL_QUIET = true ∧
    (laneIs 1).laneState 1 4 ≠ 3 ∧ (laneIs 1).laneState 1 4 ≠ 4 := by decide +kernel

/-- Engine 1 of hall 1 in port mode 4 (four ports), its lanes 4 to 7 ACTIVE in Ethernet mode, its domain on; port 2 up. -/
def ethEngState : State := ((((List.range 4).foldl (fun (s : State) i => (s.setReg (Reg.LANE_CFG 1 (4 + i)) 0x80000003).setFld (Reg.LANE_STAT 1 (4 + i)) Fl.LANE_STAT_STATE 3)
  State.reset).setFld (Reg.ETH_MODE 1 1) Fl.ETH_MODE_MODE 4).setFld (Reg.ETH_MODE 1 1) Fl.ETH_MODE_PORTEN 15).setFld (Reg.PWR_DSTAT 1 69) Fl.PWR_DSTAT_STATE 2 |>.setFld (Reg.ETH_TXQ 1 1 2) Fl.ETH_TXQ_PORT 2
def engUp : State := ethEngState.setFld (Reg.ETH_PSTAT 1 1 2) Fl.ETH_PSTAT_LINK 1
def frame64 : List Byte := List.replicate 64 7
def engMiss : State := (engUp.setFld (Reg.ETH_MODE 1 1) Fl.ETH_MODE_MISS 1).modEth 1 1 (fun x => { x with rdy := 15 })
def engOpen : State := (engMiss.modGal (32 + halfGallery 1 1) (fun g => { g with bBoot := false })).setFld (Reg.GAL_CTX_STAT (32 + halfGallery 1 1)) Fl.GAL_CTX_STAT_NONE 0
def engHeld : State := ethEngState.setFld (Reg.FRST_STAT 1) Fl.FRST_STAT_STATE 1
theorem witness_EthernetLinks : ethEngState.fld (Reg.ETH_MODE 1 1) Fl.ETH_MODE_PORTEN ≠ 0 ∧
    (ethEngState.writeFields (Reg.ETH_MODE 1 1) 0).fld (Reg.ETH_MODE 1 1) Fl.ETH_MODE_MODE ≠ ethEngState.fld (Reg.ETH_MODE 1 1) Fl.ETH_MODE_MODE ∧
    State.reset.fld (Reg.ETH_MODE 1 1) Fl.ETH_MODE_PORTEN = 0 ∧ ethEngState.ev.recs.length < 256 ∧ ethEngState.portUp 1 1 2 = false ∧
    ethEngState.portCarries 1 1 2 = true ∧ State.reset.portCarries 1 1 2 = false ∧ engUp.portUp 1 1 2 = true ∧
    fieldOf (0 : Word) Fl.ETH_CL_ACT_EN = 0 ∧ fieldOf (0x80000000 : Word) Fl.ETH_CL_ACT_EN = 1 ∧
    engUp.fld (Reg.ETH_TXQ 1 1 2) Fl.ETH_TXQ_PORT = 2 ∧ Sparse.get (engUp.eth 1 1).txq [] 2 = [] ∧ ethEngState.inFrst 1 = false ∧
    engHeld.inFrst 1 = true := by and_intros <;> decide +kernel
theorem witness_EthernetFrames : engUp.portUp 1 1 2 = true ∧ ethEngState.portUp 1 1 2 = false ∧ 64 ≤ frame64.length + 4 ∧
    frame64.length + 4 ≤ engUp.maxLen 1 1 2 ∧ engUp.ethsHeld 1 = false ∧ rxUsed (engUp.eth 1 1) + frame64.length ≤ 262144 ∧
    engUp.winner 1 1 2 frame64 = none ∧ engUp.bit (Reg.ETH_MODE 1 1) Fl.ETH_MODE_MISS = false ∧
    engOpen.portUp 1 1 2 = true ∧ engOpen.ethsHeld 1 = false ∧ engOpen.winner 1 1 2 frame64 = none ∧ engOpen.bit (Reg.ETH_MODE 1 1) Fl.ETH_MODE_MISS = true ∧
    bitOf (engOpen.eth 1 1).rdy 2 = true ∧ engOpen.bordersHeld (32 * 1 + halfGallery 1 (halfOf (engOpen.ethMode 1 1) 2)) = false ∧
    (let s := (engUp.setFld (Reg.ETH_CL_ACT 1 1 5) Fl.ETH_CL_ACT_EN 1).setFld (Reg.ETH_CL_ACT 1 1 5) Fl.ETH_CL_ACT_PORTS 15;
      s.winner 1 1 2 frame64 = some 5 ∧ s.portUp 1 1 2 = true ∧ s.ethsHeld 1 = false) ∧
    engOpen.bordersHeld (32 * 1 + halfGallery 1 1) = false ∧ 2 < portsOf (engOpen.ethMode 1 1) ∧ halfOf (engOpen.ethMode 1 1) 2 = 1 ∧
    ¬ (3 < portsOf (State.reset.ethMode 1 1)) ∧ ethEngState.bordersHeld (32 * 1 + halfGallery 1 1) = true ∧
    (engUp.txOrder 1 1 2).find? (sourceReady (engUp.eth 1 1) 2) = none ∧
    (let s := engUp.modEth 1 1 (fun x => { x with stream := [⟨2, frame64, some 9⟩] });
      (s.txOrder 1 1 2).find? (sourceReady (s.eth 1 1) 2) = some 8 ∧ (s.eth 1 1).stream.find? (fun y => y.port == 2) = some ⟨2, frame64, some 9⟩ ∧
      (s.eth 1 1).ts.length < 32 ∧ s.portUp 1 1 2 = true ∧ s.ethsHeld 1 = false) ∧
    (let s := engUp.modEth 1 1 (fun x => { x with txq := [(2, [{ (default : EthDesc) with reading := true, left := 0, bad := 0 }])] });
      (s.txOrder 1 1 2).find? (sourceReady (s.eth 1 1) 2) = some 2 ∧ (headReady (s.eth 1 1) 2).isSome = true) := by
  and_intros <;> decide +kernel

/-- The device runs; a command word with the key and GO; states in which the commands pass or fail their checks. -/
def runsState : State := { State.reset.setFld Reg.BOOT_STAT Fl.BOOT_STAT_STATE 6 with boot := { State.reset.boot with phase := .done, runs := true, img := { ({} : ImageSt) with svn := 9 } } }
def cmdWord (slot value : Nat) : Word := BitVec.ofNat 32 (packBits [(1, 1), (3, 0), (7, 0), (1, 0), (2, slot), (2, 0), (8, value), (8, 0xA7)])
def ownedState (lc : Nat) : State := { runsState with otp := { runsState.otp with lc := lc } }
def cmdOf (op : Nat) (sig : Bool) : State := { runsState with sec := { runsState.sec with cmd := some ⟨withOp (cmdWord 2 5) op, sig⟩ } }
theorem witness_LifeCycleCommands : runsState.fld Reg.BOOT_STAT Fl.BOOT_STAT_STATE = 6 ∧ fieldOf (cmdWord 2 5) Fl.SEC_LC_CMD_KEY = 0xA7 ∧
    fieldOf (cmdWord 2 5) Fl.SEC_LC_CMD_GO ≠ 0 ∧ runsState.bit Reg.SEC_CMD_STAT Fl.SEC_CMD_STAT_BUSY = false ∧
    fieldOf (0 : Word) Fl.SEC_LC_CMD_KEY ≠ 0xA7 ∧ ({ runsState with sec := { runsState.sec with att := some [] } } : State).sec.att.isSome = true ∧
    runsState.sec.att = none ∧ opAllowed runsState.otp.lc 4 = false ∧ opAllowed runsState.otp.lc 1 = true ∧ runsState.lcArgs 1 2 5 = 0 ∧
    opAllowed (ownedState 1).otp.lc 5 = true ∧ (ownedState 1).lcArgs 5 2 5 = 4 ∧ opAllowed (ownedState 1).otp.lc 6 = true ∧
    (ownedState 1).lcArgs 6 2 5 = 0 ∧ fieldOf (cmdWord 2 5) Fl.SEC_LC_CMD_VALUE = 5 ∧ fieldOf (cmdWord 2 5) Fl.SEC_LC_CMD_SLOT = 2 ∧
    fieldOf (cmdWord 2 5) Fl.SEC_LC_CMD_FORCE = 0 ∧ ((ownedState 1).goldenSvn.any (fun x => decide (5 ≤ x))) = false ∧
    runsState.sec.cmd = none ∧ (cmdOf 3 false).sec.cmd = some ⟨withOp (cmdWord 2 5) 3, false⟩ ∧ (cmdOf 3 false).sec.wipe = none ∧
    (cmdOf 4 true).sec.cmd = some ⟨withOp (cmdWord 2 5) 4, true⟩ ∧ (cmdOf 4 true).sec.wipe = none ∧
    fieldOf (withOp (cmdWord 2 5) 4) Fl.SEC_LC_CMD_OP = 4 ∧ bitOf (cmdOf 4 true).otp.prog 2 = false ∧ (cmdOf 4 true).ev.recs.length < 256 ∧
    fieldOf (withOp (cmdWord 2 5) 1) Fl.SEC_LC_CMD_OP = 1 ∧ fieldOf (withOp (cmdWord 2 5) 2) Fl.SEC_LC_CMD_OP = 2 ∧
    fieldOf (withOp (cmdWord 2 5) 3) Fl.SEC_LC_CMD_OP = 3 ∧ fieldOf (withOp (cmdWord 2 5) 5) Fl.SEC_LC_CMD_OP = 5 ∧
    fieldOf (withOp (cmdWord 2 5) 6) Fl.SEC_LC_CMD_OP = 6 ∧ lcCmds.map (·.1) = [1, 2, 3, 4, 5, 6] ∧
    (∀ i < 5, bitOf (cmdOf 6 true).otp.rbSpoilt i = false) ∧ fieldOf (withOp (cmdWord 2 5) 6) Fl.SEC_LC_CMD_VALUE = 5 ∧
    (let s := cmdOf 6 true; bitOf ({ s with otp := { s.otp with rbSpoilt := 4 } } : State).otp.rbSpoilt 2 = true ∧ (s.otp.rb ≤ 2) ∧
      ∀ j < 2, bitOf ({ s with otp := { s.otp with rbSpoilt := 4 } } : State).otp.rbSpoilt j = false) :=
  by and_intros <;> decide +kernel
/-- A partition being zeroed, a wipe in progress, tampering enabled with each reaction, an attestation under way. -/
def wipeState (latch : Nat) : State := { State.reset.setFld Reg.SEC_TAMP_STAT Fl.SEC_TAMP_STAT_LATCH latch with sec := { State.reset.sec with wipe := some 1 } }
def tampState (zmee hold : Nat) : State := ((runsState.setFld Reg.SEC_TAMP_CFG Fl.SEC_TAMP_CFG_EN 1).setFld Reg.SEC_TAMP_CFG Fl.SEC_TAMP_CFG_ZMEE zmee).setFld
  Reg.SEC_TAMP_CFG Fl.SEC_TAMP_CFG_HOLD hold
def attState (w : Option Word) : State := { runsState with sec := { runsState.sec with att := some [1], cmdWait := w } }
theorem witness_SecurityEngine :
    fieldOf ((State.reset.writeFields (Reg.SEC_VPART 3) 0x40000000).reg (Reg.SEC_VPART 3)) Fl.SEC_VPART_VALID = State.reset.fld (Reg.SEC_VPART 3) Fl.SEC_VPART_VALID ∧
    Sparse.find State.reset.sec.zero 3 = none ∧
    fieldOf ((State.reset.writeFields (Reg.SEC_VPART 3) 0x80000000).reg (Reg.SEC_VPART 3)) Fl.SEC_VPART_VALID ≠ State.reset.fld (Reg.SEC_VPART 3) Fl.SEC_VPART_VALID ∧
    Sparse.find ({ State.reset with sec := { State.reset.sec with zero := [(3, 5)] } } : State).sec.zero 3 = some 5 ∧
    (wipeState 1).sec.wipe = some 1 ∧ State.reset.sec.wipe = none ∧ State.reset.ev.recs.length < 256 ∧ State.reset.boot.phase = .off ∧
    (tampState 0 0).boot.phase ≠ .off ∧ (tampState 0 0).bit Reg.SEC_TAMP_CFG Fl.SEC_TAMP_CFG_EN = true ∧
    (tampState 0 0).fld Reg.SEC_TAMP_CFG Fl.SEC_TAMP_CFG_ZMEE = 0 ∧ (tampState 0 0).fld Reg.SEC_TAMP_CFG Fl.SEC_TAMP_CFG_HOLD = 0 ∧
    (tampState 1 0).fld Reg.SEC_TAMP_CFG Fl.SEC_TAMP_CFG_ZMEE = 1 ∧ (tampState 0 1).fld Reg.SEC_TAMP_CFG Fl.SEC_TAMP_CFG_HOLD = 1 ∧
    (tampState 0 0).vaultState ≠ 3 ∧ (runsState.setFld Reg.SEC_ATT_STAT Fl.SEC_ATT_STAT_BUSY 1).bit Reg.SEC_ATT_STAT Fl.SEC_ATT_STAT_BUSY = true ∧
    runsState.bit Reg.SEC_ATT_STAT Fl.SEC_ATT_STAT_BUSY = false ∧ runsState.sec.cmd = none ∧ (cmdOf 4 true).sec.cmd.isSome = true ∧
    (attState none).sec.att = some [1] ∧ runsState.sec.att = none ∧ fieldOf (0xD : Word) Fl.SEC_MRX_CMD_GO = 1 ∧
    fieldOf (0xD : Word) Fl.SEC_MRX_CMD_J = 6 ∧ fieldOf (0 : Word) Fl.SEC_MRX_CMD_GO = 0 ∧ runsState.donePin = true ∧
    runsState.bit Reg.SEC_JTAG Fl.SEC_JTAG_EXT_EN = false ∧ State.reset.donePin = false ∧ (ownedState 3).otp.lc = 3 ∧ runsState.otp.lc ≠ 3 := by
  decide +kernel

/-- Hall 1 with output 0 of PLL 2 on at D = 4, and pad clock 3 on from it; one whose every gallery branch takes lane clocks. -/
def pllState : State := (State.reset.setFld (Reg.HCLK_PLLOUT 1 2 0) Fl.HCLK_PLLOUT_EN 1).setFld (Reg.HCLK_PLLOUT 1 2 0) Fl.HCLK_PLLOUT_D 4
def pllN (n : Nat) : Word := BitVec.ofNat 32 (n * 2 ^ 24)
def clkOnState : State := { pllState with clk := { pllState.clk with pllOn := true } }
theorem witness_HallClocks : (2 : Fin 6) ≠ 5 ∧ State.reset.written (Reg.HCLK_PLL 1 2) (pllN 40) ≠ State.reset.reg (Reg.HCLK_PLL 1 2) ∧
    fieldOf (pllN 41) Fl.HCLK_PLL_N = 41 ∧ 20 ≤ fieldOf (pllN 40) Fl.HCLK_PLL_N ∧ fieldOf (pllN 40) Fl.HCLK_PLL_N ≤ 40 ∧
    20 * 2 ^ 24 ≤ vcoOf (pllN 40) ∧ vcoOf (pllN 40) ≤ 40 * 2 ^ 24 ∧ State.reset.pllUsed 1 2 false = false ∧ State.reset.pllUsed 1 0 false = true ∧
    State.reset.overOutput 1 2 (State.reset.written (Reg.HCLK_PLL 1 2) (pllN 40)) = none ∧
    pllState.overOutput 1 2 (pllState.written (Reg.HCLK_PLL 1 2) (pllN 40)) = some 0 ∧
    pllState.overOutput 1 2 (pllState.written (Reg.HCLK_PLL 1 2) (pllN 41)) = some 0 ∧ State.reset.ev.recs.length < 255 ∧
    State.reset.overOutput 1 2 (State.reset.written (Reg.HCLK_PLL 1 2) (pllN 41)) = none ∧ State.reset.ev.recs.length < 256 ∧
    (let s := pllState.setFld (Reg.HCLK_PLL 1 2) Fl.HCLK_PLL_N 40;
      fieldOf (s.written (Reg.HCLK_PLLOUT 1 2 0) 0x80000004) Fl.HCLK_PLLOUT_EN = 1 ∧ outOver (s.reg (Reg.HCLK_PLL 1 2))
        (fieldOf (s.written (Reg.HCLK_PLLOUT 1 2 0) 0x80000004) Fl.HCLK_PLLOUT_D) (s.outLimit 1 2 0) = true ∧
      fieldOf (s.written (Reg.HCLK_PAD 1 1 1) 0x80000008) Fl.HCLK_PAD_EN = 1 ∧ fieldOf (s.written (Reg.HCLK_PAD 1 1 1) 0x80000008) Fl.HCLK_PAD_SRC = 8 ∧
      outOver (s.reg (Reg.HCLK_PLL 1 (8 / 4))) (s.fld (Reg.HCLK_PLLOUT 1 (8 / 4) (8 % 4)) Fl.HCLK_PLLOUT_D) 200000 = true) ∧
    (let s := State.reset.setFld (Reg.HCLK_PLLOUT 1 2 0) Fl.HCLK_PLLOUT_D 255;
      fieldOf (s.written (Reg.HCLK_PAD 1 1 1) 0x80000008) Fl.HCLK_PAD_EN = 1 ∧ fieldOf (s.written (Reg.HCLK_PAD 1 1 1) 0x80000008) Fl.HCLK_PAD_SRC = 8 ∧
      outOver (s.reg (Reg.HCLK_PLL 1 (8 / 4))) (s.fld (Reg.HCLK_PLLOUT 1 (8 / 4) (8 % 4)) Fl.HCLK_PLLOUT_D) 200000 = false ∧
      s.written (Reg.HCLK_PAD 1 1 1) 0x80000008 ≠ s.reg (Reg.HCLK_PAD 1 1 1)) ∧
    fieldOf (pllState.written (Reg.HCLK_PLLOUT 1 2 0) 4) Fl.HCLK_PLLOUT_EN = 0 ∧
    fieldOf (State.reset.written (Reg.HCLK_PAD 1 1 1) 8) Fl.HCLK_PAD_EN = 0 ∧
    State.reset.written (Reg.HCLK_PAD 1 1 1) 8 ≠ State.reset.reg (Reg.HCLK_PAD 1 1 1) ∧
    State.reset.written (Reg.HCLK_LREF 1 2) 1 ≠ State.reset.reg (Reg.HCLK_LREF 1 2) ∧ (∀ l < 4, State.reset.laneEn 1 (4 * 2 + l) = false) ∧
    (State.reset.setFld (Reg.LANE_CFG 1 11) Fl.LANE_CFG_EN 1).laneEn 1 (4 * 2 + 3) = true ∧
    fieldOf (State.reset.written (Reg.HCLK_MODE 1) 2) Fl.HCLK_MODE_MODE = 2 ∧ State.reset.fld (Reg.HCLK_MODE 1) Fl.HCLK_MODE_MODE ≠ 2 ∧
    State.reset.pllUsed 1 2 true = false ∧ State.reset.clk.pllOn = false ∧ clkOnState.clk.pllOn = true ∧ clkOnState.pllLost 1 (0x50 + 2) = false ∧
    clkOnState.deepStopped 1 2 = false ∧
    (let s := clkOnState.addLost 1 0x52; s.clk.pllOn = true ∧ s.pllLost 1 (0x50 + 2) = true) ∧
    (let s := ((clkOnState.setFld (Reg.HCLK_PAD 1 1 1) Fl.HCLK_PAD_EN 1).setFld (Reg.HCLK_PAD 1 1 1) Fl.HCLK_PAD_SRC 8).setLock 1 Fl.HCLK_STAT_PLL_LOCK 2 true;
      s.clk.pllOn = true ∧ s.bit (Reg.HCLK_PAD 1 (3 / 2) (3 % 2)) Fl.HCLK_PAD_EN = true ∧ s.domainLost 1 (60 + 3) = false ∧
      s.srcRuns 1 (s.fld (Reg.HCLK_PAD 1 (3 / 2) (3 % 2)) Fl.HCLK_PAD_SRC) = true) ∧
    clkOnState.bit (Reg.HCLK_PAD 1 (3 / 2) (3 % 2)) Fl.HCLK_PAD_EN = false ∧
    (let s := State.reset.modGal 40 (fun g => { g with bClk := true });
      (s.gal 40).bClk = true ∧ s.usesLost 40 = false ∧ (∀ n < 8, bitOf (s.usedBranches 40) n = true → s.branchEnabled 40 n = true → s.branchRuns 40 n = true)) ∧
    (State.reset.gal 40).bClk = false ∧ padRefused (State.reset.fld (Reg.PAD_BANK 1 1) Fl.PAD_BANK_VCCIO) 5 (State.reset.written (Reg.PAD_CFG 1 1 5) 3) = true ∧
    padRefused (State.reset.fld (Reg.PAD_BANK 1 1) Fl.PAD_BANK_VCCIO) 5 (State.reset.written (Reg.PAD_CFG 1 1 5) 1) = false ∧
    State.reset.domainLost 1 (60 + 2 * 1 + 1) = false ∧ (State.reset.addLost 1 63).domainLost 1 (60 + 2 * 1 + 1) = true := by
  and_intros <;> decide +kernel

def lossOf (h src : Nat) : State := State.reset.addLost h src
/-- A gallery uses the clock of a branch that its context takes. -/
theorem usesLost_of (s : State) (G n : Nat) (p : Nat) (hn : n < 8) (a : s.activePlane G = some p) (b : s.fld (Reg.GAL_CTX_CFG G) Fl.GAL_CTX_CFG_CCLK = n)
    (c : s.domainLost (G / 32) (s.branchSrc G n) = true) : s.usesLost G = true := by
  unfold State.usesLost
  rw [List.any_eq_true]
  refine ⟨n, List.mem_range.mpr hn, ?_⟩
  rw [c, Bool.and_true]
  unfold State.usedBranches
  rw [a]
  dsimp only
  rw [b]
  simp [bitOf]
/-- Gallery 40 has an active plane that takes branch 0, whose PLL is lost. -/
def usesState : State := (State.reset.setFld (Reg.GAL_CTX_STAT 40) Fl.GAL_CTX_STAT_NONE 0).addLost 1 0x50
theorem usesState_usesLost : usesState.usesLost (32 * 1 + 8) = true :=
  usesLost_of _ _ 0 0 (by decide) (by decide +kernel) (by decide +kernel) (by decide +kernel)
theorem witness_ClockLossAndTimeBase : (State.reset.addLost 1 0x52).covered 1 0x52 = true ∧ srcCode (.pll 1 2) = (1, 0x52) ∧
    State.reset.covered 1 0x52 = false ∧ srcCode .ref = (15, 0xFF) ∧ State.reset.covered 15 0xFF = false ∧ State.reset.ev.recs.length < 256 ∧
    srcCode (.lref 1 3) = (1, 0x40 + 3) ∧ (State.reset.addLost 1 0x52).domainLost 1 (4 * 2) = true ∧
    (State.reset.addLost 15 0xFF).domainLost 1 (56 + 2) = true ∧ (State.reset.addLost 15 0xFF).domainLost 1 (60 + 2) = true ∧
    usesState.usesLost (32 * 1 + 8) = true ∧
    State.reset.clk.lost.find? (fun l => l.hall == 1 && l.src == 0x52) = none ∧ State.reset.neverThere 1 0x52 = false ∧
    (lossOf 1 0x52).clk.lost.find? (fun l => l.hall == 1 && l.src == 0x52) = some ⟨1, 0x52, 0⟩ ∧
    (let s : State := { lossOf 1 0x52 with clk := { (lossOf 1 0x52).clk with pllOn := true } };
      s.clk.pllOn = true ∧ s.deepStopped 1 2 = false ∧ (∀ l ∈ s.clk.lost, l.hall ≠ 15)) ∧
    (819200000 : Int) < (0x7FFFFFFF : Word).toInt ∧ (-819200000 : Int) ≤ (5 : Word).toInt ∧ (5 : Word).toInt ≤ 819200000 := 
  by and_intros <;> first | with_reducible exact usesState_usesLost | decide +kernel

/-- Domain d of hall 1 in a state, with and without a change under way; a power command that waits; a request in the queue. -/
def domIs (d st : Nat) : State := State.reset.setDom 1 d st
def domDown (d target : Nat) : State := { (domIs d 5).setChange 1 d ⟨target, 2, true, false, false⟩ with pwrCmd := some ⟨1, d, target, false, false⟩ }
def admOf (k : Nat) (who : AdmFor) : State := { State.reset with adm := { State.reset.adm with queue := [⟨k, 1, who, 0⟩] } }
def srvGone : State := { (State.reset.setDom 1 5 2).modGwk 1 (fun x => { x with removing := [(5, false)] }) with pwrCmd := some ⟨1, 5, 0, true, false⟩ }
theorem witness_PowerDomains : pwrCmds.map (·.1) = [2, 0, 1] ∧
    (State.reset.setFld Reg.PWR_CMD_STAT Fl.PWR_CMD_STAT_BUSY 1).bit Reg.PWR_CMD_STAT Fl.PWR_CMD_STAT_BUSY = true ∧
    State.reset.bit Reg.PWR_CMD_STAT Fl.PWR_CMD_STAT_BUSY = false ∧ ({ State.reset with stop := { State.reset.stop with step := 2 } } : State).stopping = true ∧
    State.reset.stopping = false ∧ State.reset.domState 1 71 = 6 ∧ domHas 5 1 = false ∧ (domIs 5 4).domState 1 5 = 4 ∧
    (domIs 40 0).domState 1 40 = 0 ∧ domHas 40 1 = true ∧ (domIs 64 2).domState 1 64 = 2 ∧ ((domIs 64 2).setDom 1 3 2).downReady 1 64 = false ∧
    State.reset.ev.recs.length < 256 ∧ domHas 40 2 = true ∧ State.reset.adm.queue.length < 64 ∧ State.reset.stop.cut = false ∧
    ((domIs 64 1).setDom 1 5 0).domState 1 5 = 0 ∧ ((domIs 64 1).setDom 1 5 0).domState 1 64 = 1 ∧ (domIs 64 2).downReady 1 5 = true ∧
    (domIs 5 2).hasServers 1 5 = false ∧ ((domIs 5 2).setFld (Reg.GWK_SRV 1 21) Fl.GWK_SRV_STATE 1).hasServers 1 5 = true ∧
    ((domIs 5 2).setFld (Reg.GWK_SRV 1 21) Fl.GWK_SRV_STATE 1).downReady 1 5 = true ∧ (domIs 69 2).ethsIdle 1 = true ∧ (domIs 69 2).downReady 1 69 = true ∧
    ((domIs 69 2).modEth 1 0 (fun x => { x with rx := [{ (default : EthRx) with stream := none }] })).ethsIdle 1 = false ∧
    (domIs 5 4).domState 1 5 ≠ 5 ∧ ((domIs 5 4).setChange 1 5 ⟨2, 0, true, false, false⟩).domState 1 5 = 4 ∧
    (({ (domIs 5 4).setChange 1 5 ⟨2, 0, true, false, false⟩ with pwrCmd := some ⟨1, 5, 2, false, false⟩ } : State).domChange 1 5).any (·.byCmd) = true ∧
    Sparse.find ({ domIs 5 4 with slots := [(((1 * 72 + 5) * 2 + 1) * 4 + 1, ⟨unitPacket 1 5 0 1 32 1 0x13 2 0, 0⟩)] } : State).slots (((1 * 72 + 5) * 2 + 1) * 4 + 1) =
      some ⟨unitPacket 1 5 0 1 32 1 0x13 2 0, 0⟩ ∧
    (domIs 5 5).domChange 1 5 = none ∧ (domDown 5 0).domChange 1 5 = some ⟨0, 2, true, false, false⟩ ∧ (domDown 5 0).domState 1 5 = 5 ∧
    (domDown 5 0).slotHeld 1 5 = false ∧ (domDown 40 0).domState 1 40 = 5 ∧
    (State.reset.gwk 1).removing.find? (fun x => x.1 == 5) = none ∧ (srvGone.gwk 1).removing.any (fun x => x.1 == 5) = true ∧
    srvGone.galHas 1 5 [2, 3, 5] = false ∧ srvGone.domState 1 5 = 2 := by
  and_intros <;> decide +kernel
theorem witness_PowerLedger : 700000 < fieldOf (700001 : Word) Fl.PWR_BUDGET_BUDGET ∧ fieldOf (700000 : Word) Fl.PWR_BUDGET_BUDGET ≤ 700000 ∧
    State.reset.fld Reg.PWR_BUDGET Fl.PWR_BUDGET_BUDGET < fieldOf (700001 : Word) Fl.PWR_HCAP_CAP ∧
    fieldOf (5 : Word) Fl.PWR_HCAP_CAP ≤ State.reset.fld Reg.PWR_BUDGET Fl.PWR_BUDGET_BUDGET ∧ State.reset.adm.again = [] ∧ State.reset.adm.queue = [] ∧
    (let s := (admOf 0 (.power 1 5 false)).setBoot 6;
      (s.firstGrant [] false s.adm.queue).isSome = true ∧ (s.setDom 1 5 3).domState 1 5 = 3) ∧
    State.reset.firstGrant [] false State.reset.adm.queue = none ∧
    ((admOf 8 (.hbmExit 0)).setBoot 6).firstGrant [] false ((admOf 8 (.hbmExit 0)).setBoot 6).adm.queue ≠ none ∧
    (let s := ((admOf 9 (.mee 0 3)).setBoot 6).setMeeState 0 3 1;
      s.firstGrant [] false s.adm.queue ≠ none ∧ s.meeState (hallOfStack 0) 3 = 1 ∧ (s.setMeeState 0 3 5).meeState (hallOfStack 0) 3 = 5) ∧
    ((admOf 11 .library).setBoot 6).firstGrant [] false ((admOf 11 .library).setBoot 6).adm.queue ≠ none ∧
    (let s := ((admOf 11 (.copy 40)).setBoot 6).modGal 40 (fun g => { g with copy := some ⟨1, 2, 0, false⟩ }) |>.setFld (Reg.GAL_SLOT 33 2) Fl.GAL_SLOT_STATE 2;
      s.firstGrant [] false s.adm.queue ≠ none ∧ (s.gal 40).copy = some ⟨1, 2, 0, false⟩ ∧ s.copyBarred 40 ⟨1, 2, 0, false⟩ = 0) ∧
    (let s : State := { (admOf 11 .import_).setBoot 6 with boot := { ((admOf 11 .import_).setBoot 6).boot with imp := some ⟨1, 8, 3, 0, false⟩ } };
      s.firstGrant [] false s.adm.queue ≠ none ∧ s.boot.imp = some ⟨1, 8, 3, 0, false⟩ ∧ s.pinned (32 * 1 + 8) 3 = false ∧ s.slotWriting (32 * 1 + 8) 3 = false) ∧
    (admOf 0 (.power 1 5 true)).adm.queue[0]? = some ⟨0, 1, .power 1 5 true, 0⟩ ∧ (admOf 11 .import_).adm.queue[0]? = some ⟨11, 1, .import_, 0⟩ ∧
    (admOf 11 .library).adm.queue[0]? = some ⟨11, 1, .library, 0⟩ ∧ State.reset.adm.queue.length ≤ 5 ∧
    (admOf 0 (.power 1 5 false)).adm.queue[0]? = some ⟨0, 1, .power 1 5 false, 0⟩ ∧ AdmFor.power 1 5 false ≠ .library ∧
    State.reset.ev.recs.length < 256 ∧ (admOf 0 (.power 1 5 false)).limOpen (Ev.ADM_TIMEOUT.code * 65536 + 0) ms = true ∧
    (admOf 0 (.power 1 5 false)).slotHeld 1 5 = false ∧
    ((admOf 0 (.power 1 5 false)).setChange 1 5 ⟨2, 0, true, false, false⟩).domChange 1 5 = some ⟨2, 0, true, false, false⟩ ∧
    (admOf 10 .bist).adm.queue[0]? = some ⟨10, 1, .bist, 0⟩ ∧ (admOf 11 (.copy 40)).adm.queue[0]? = some ⟨11, 1, .copy 40, 0⟩ ∧
    (admOf 8 (.hbmExit 0)).adm.queue[0]? = some ⟨8, 1, .hbmExit 0, 0⟩ ∧ (admOf 8 (.hbmExit 0)).adm.queue.length ≤ 64 ∧
    (admOf 8 (.hbmExit 0)).stopping = false ∧ (admOf 8 (.hbmExit 0)).stop.cut = false := by
  and_intros <;> decide +kernel

/-- The device runs with its reference clock; a run of host software; the first unit under test. -/
def bistReady : State := (State.reset.setBoot 6).setFld Reg.CLK_STAT Fl.CLK_STAT_REF_OK 1
def bistRunning (units : List Nat) : State :=
  { bistReady.setFld Reg.BIST_STAT Fl.BIST_STAT_BUSY 1 with bist := { run := some ⟨units, 2, true, 2, true, false, false, none, none⟩ } }
def bistWord : Word := 0x3C020101
def fault0 : BistFail := ⟨1, 5, 0x3005, 9⟩
def selftestWaits : State := { bistReady with boot := { bistReady.boot with phase := .selftest } }
theorem witness_SelfTest : fieldOf (0 : Word) Fl.BIST_CMD_GO = 0 ∧ fieldOf bistWord Fl.BIST_CMD_GO ≠ 0 ∧ fieldOf bistWord Fl.BIST_CMD_KEY = 0x3C ∧
    State.reset.fld Reg.BOOT_STAT Fl.BOOT_STAT_STATE ≠ 6 ∧ bistReady.fld Reg.BOOT_STAT Fl.BOOT_STAT_STATE = 6 ∧
    (bistRunning [0]).bit Reg.BIST_STAT Fl.BIST_STAT_BUSY = true ∧ bistReady.bit Reg.BIST_STAT Fl.BIST_STAT_BUSY = false ∧ bistReady.ev.recs.length < 256 ∧
    bitOf (fieldOf bistWord Fl.BIST_CMD_UNITS) 5 = false ∧ railsOk [750, 728, 772, 750] = true ∧ railsOk [750, 727, 750, 750] = false ∧
    bistReady.bit Reg.CLK_STAT Fl.CLK_STAT_REF_OK = true ∧ ((State.reset.setBoot 6).setFld Reg.CLK_STAT Fl.CLK_STAT_REF_OK 0).bit Reg.CLK_STAT Fl.CLK_STAT_REF_OK = false ∧
    bistReady.adm.queue.length < 64 ∧ bistReady.stop.cut = false ∧ bistReady.bist.run = none ∧
    (bistRunning [0, 3]).bist.run = some ⟨[0, 3], 2, true, 2, true, false, false, none, none⟩ ∧
    (bistRunning [0]).bist.run = some ⟨[0], 2, true, 2, true, false, false, none, none⟩ ∧
    (let s := (bistRunning [0]).setDom 1 37 2;
      s.bistTarget ⟨[0], 2, true, 2, true, false, false, none, none⟩ 0 fault0 = true ∧ s.addressedRow 37 3 5 = some 5 ∧ s.freeSpare 37 3 = some 0 ∧
      bitsOf fault0.f1.toNat 12 5 = 3 ∧ bitsOf fault0.f1.toNat 0 12 = 5) ∧
    (let s := (List.range 8).foldl (fun (s : State) i => s.setRep 37 3 i ⟨false, false, true, 0⟩) (bistRunning [0]); s.freeSpare 37 3 = none) ∧
    (bistRunning [3]).bistTarget ⟨[3], 2, true, 2, true, false, false, none, none⟩ 3 fault0 = true ∧ (bistRunning [0]).bist.log.length < 64 ∧
    State.reset.bist.run.any (·.started) = false ∧ State.reset.boot.phase ≠ .selftest ∧ selftestWaits.boot.phase = .selftest ∧
    selftestWaits.bist.run = none ∧ selftestWaits.bist.raised = false ∧
    ({ selftestWaits with bist := { selftestWaits.bist with raised := true } } : State).bist.raised = true := by
  decide +kernel

/-- A command with good check words; the port live. -/
def cmdFor (op : Nat) (addr : Word) (len : Nat) (data : List Byte) : PortCmd :=
  let c : PortCmd := { wide := false, tag := 7, addr := addr, len := BitVec.ofNat 16 len, data := data, dcrc := BitVec.ofNat 16 (crc16 data) }
  { c with hcrc := BitVec.ofNat 16 (crc16 (headerBytes op c)) }
def livePort : State := { State.reset with port := { State.reset.port with live := true }, boot := { State.reset.boot with phase := .done } }
def ranPort : State := { livePort with port := { livePort.port with busy := some (1, 7) } }
theorem witness_PortTransactions : portCmds.map (·.1) = [1, 2, 4, 8, 9, 10, 12] ∧ State.reset.port.live = false ∧ livePort.port.live = true ∧
    ranPort.port.live = true ∧ ranPort.port.busy.isSome = true ∧ livePort.port.busy = none ∧
    hcrcOk 2 { cmdFor 2 0x10 4 [1, 2, 3, 4] with hcrc := 0 } = false ∧ hcrcOk 2 (cmdFor 2 0x10 4 [1, 2]) = true ∧
    (cmdFor 2 0x10 4 [1, 2]).data.length ≠ (cmdFor 2 0x10 4 [1, 2]).len.toNat ∧ hcrcOk 2 { cmdFor 2 0x10 4 [1, 2, 3, 4] with dcrc := 0 } = true ∧
    (cmdFor 2 0x10 4 [1, 2, 3, 4]).data.length = (cmdFor 2 0x10 4 [1, 2, 3, 4]).len.toNat ∧
    dcrcOk { cmdFor 2 0x10 4 [1, 2, 3, 4] with dcrc := 0 } = false ∧ livePort.port.rsp = none ∧
    ({ livePort with port := { livePort.port with rsp := some ⟨7, 0, 0, [1]⟩ } } : State).port.rsp = some ⟨7, 0, 0, [1]⟩ ∧
    ¬ (3 ∈ [1, 2, 4, 5, 6, 8, 9, 10, 12]) ∧ livePort.portPerforms 3 false (cmdFor 3 0 0 []) = true := by
  and_intros <;> decide +kernel
theorem witness_PortCommands : livePort.portPerforms 1 false (cmdFor 1 0x10 4 []) = true ∧ regArgs (cmdFor 1 0x11 4 []) = false ∧
    regArgs (cmdFor 1 0x10 4 []) = true ∧ livePort.portLost 0x10 = false ∧
    ({ livePort with boot := { livePort.boot with phase := .warm } } : State).portLost 0x10000000 = true ∧
    portHall 0x10 = none ∧ portHall 0x11000000 = some 1 ∧
    ((livePort.portAccept 1 (cmdFor 1 0x10 4 [])).readReg 0x10).2.1 = .ok ∧
    livePort.portPerforms 2 true (cmdFor 2 0x10 4 [1, 2, 3, 4]) = true ∧ regArgs (cmdFor 2 0x10 4 [1, 2, 3, 4]) = true ∧
    livePort.portPerforms 4 false (cmdFor 4 0 16 []) = true ∧ (cmdFor 4 0 16 []).len.toNat % 16 = 0 ∧
    livePort.portPerforms 12 false (cmdFor 12 0x12000010 16 []) = true ∧
    (cmdFor 12 0x12000010 16 []).addr.toNat = 1 * 2 ^ 28 + 1 * 2 ^ 25 + 16 ∧ livePort.hallAnswers 1 0 = true ∧
    (cmdFor 12 0x10 16 []).addr.toNat = 0 * 2 ^ 28 + 0 * 2 ^ 25 + 16 ∧ livePort.bit Reg.SEC_ATT_STAT Fl.SEC_ATT_STAT_DONE = false ∧
    (let s := { livePort.setFld Reg.SEC_ATT_STAT Fl.SEC_ATT_STAT_DONE 1 with sec := { livePort.sec with report := some [1, 2] } };
      s.bit Reg.SEC_ATT_STAT Fl.SEC_ATT_STAT_DONE = true ∧ s.sec.report = some [1, 2]) ∧
    livePort.portPerforms 10 true (cmdFor 10 0 32 (List.replicate 32 5)) = true ∧ (cmdFor 10 0 32 (List.replicate 32 5)).len.toNat = 32 ∧
    livePort.bit Reg.SEC_ATT_STAT Fl.SEC_ATT_STAT_BUSY = false ∧
    (livePort.setFld Reg.SEC_ATT_STAT Fl.SEC_ATT_STAT_BUSY 1).bit Reg.SEC_ATT_STAT Fl.SEC_ATT_STAT_BUSY = true ∧
    livePort.portPerforms 9 false (cmdFor 9 0xA5A5 0 []) = true ∧ livePort.stop.step = 0 ∧ livePort.stopMay = true ∧ livePort.donePin = false ∧
    (let s := { livePort.setBoot 6 with boot := { livePort.boot with runs := true } }; s.stopMay = true ∧ s.donePin = true) ∧
    (livePort.setBoot 9).stopMay = false ∧ ({ livePort with stop := { livePort.stop with step := 2 } } : State).stop.step ≠ 0 ∧
    livePort.portPerforms 8 false (cmdFor 8 0x5A5A 0 []) = true ∧ livePort.stop.cut = false ∧
    ({ livePort with stop := { livePort.stop with cut := true } } : State).stop.cut = true ∧ livePort.boot.phase ≠ .off ∧ livePort.boot.phase ≠ .delay := by
  and_intros <;> decide +kernel

theorem witness_OtpOnlyAdvances : step State.reset = .next State.reset.tick := rfl
theorem witness_SupplyFall : State.reset.sec.cmd = none := rfl

end Sys2Proof.Machine
end

section
/-!
PROOFS. How the fields of a register take a written word (R16, R18): an equation of applyField for each access code, what the written field
then reads, and the fields of a register of the map, each of which takes a whole write on its own.
-/
namespace Sys2Proof.Machine

/-! ## One field, by its access code -/

theorem fieldOf_mod_two_pow (w : Word) (f : Fld) : fieldOf w f % 2 ^ f.width = fieldOf w f := Nat.mod_mod _ _

theorem fieldOf_lt_two_pow (w : Word) (f : Fld) : fieldOf w f < 2 ^ f.width := Nat.mod_lt _ (Nat.two_pow_pos _)

@[simp] theorem rowFld_width (f : FldRow) : (rowFld f).width = f.width := rfl

/-- The complement of n in a width has, within that width, the bits that n lacks. -/
theorem testBit_two_pow_sub_one_sub {n w i : Nat} (hn : n < 2 ^ w) (hi : i < w) : (2 ^ w - 1 - n).testBit i = !n.testBit i := by
  rw [Nat.sub_sub, Nat.add_comm 1, Nat.testBit_two_pow_sub_succ hn]
  simp [hi]

section
variable {f : FldRow} (v old : Word)

theorem applyField_of_rw (h : f.acc = .rw) : applyField v old f =
    if rowReserved f (fieldOf v (rowFld f)) then old else withField old (rowFld f) (fieldOf v (rowFld f)) := by
  simp only [applyField, h]

theorem applyField_of_w1s (h : f.acc = .w1s) :
    applyField v old f = withField old (rowFld f) (fieldOf old (rowFld f) ||| fieldOf v (rowFld f)) := by
  simp only [applyField, h]

theorem applyField_of_w1c (h : f.acc = .w1c) :
    applyField v old f = withField old (rowFld f) (fieldOf old (rowFld f) &&& (2 ^ f.width - 1 - fieldOf v (rowFld f))) := by
  simp only [applyField, h]

/-- A write does not reach a field that is only read, or one whose written value acts without being stored. -/
theorem applyField_of_not_stored (h : f.acc = .ro ∨ f.acc = .rc ∨ f.acc = .wo) : applyField v old f = old := by
  rcases h with h | h | h <;> simp only [applyField, h]

theorem fieldOf_applyField_of_rw (hf : f.lo + f.width ≤ 32) (h : f.acc = .rw) (hr : rowReserved f (fieldOf v (rowFld f)) = false) :
    fieldOf (applyField v old f) (rowFld f) = fieldOf v (rowFld f) := by
  rw [applyField_of_rw v old h, hr, if_neg Bool.false_ne_true, fieldOf_withField _ _ _ hf, fieldOf_mod_two_pow]

theorem applyField_of_rw_reserved (h : f.acc = .rw) (hr : rowReserved f (fieldOf v (rowFld f)) = true) : applyField v old f = old := by
  rw [applyField_of_rw v old h, if_pos hr]

theorem fieldOf_applyField_of_w1s (hf : f.lo + f.width ≤ 32) (h : f.acc = .w1s) :
    fieldOf (applyField v old f) (rowFld f) = fieldOf old (rowFld f) ||| fieldOf v (rowFld f) := by
  rw [applyField_of_w1s v old h, fieldOf_withField _ _ _ hf]
  exact Nat.mod_eq_of_lt (Nat.or_lt_two_pow (fieldOf_lt_two_pow _ _) (fieldOf_lt_two_pow _ _))

/-- A W1C field keeps exactly the bits written 0: its mask is the written value's complement in the field's width. -/
theorem testBit_fieldOf_applyField_of_w1c (hf : f.lo + f.width ≤ 32) (h : f.acc = .w1c) {i : Nat} (hi : i < f.width) :
    (fieldOf (applyField v old f) (rowFld f)).testBit i =
      ((fieldOf old (rowFld f)).testBit i && !(fieldOf v (rowFld f)).testBit i) := by
  rw [applyField_of_w1c v old h, fieldOf_withField _ _ _ hf, Nat.testBit_mod_two_pow, Nat.testBit_and,
    testBit_two_pow_sub_one_sub (w := f.width) (fieldOf_lt_two_pow v (rowFld f)) hi]
  simp [hi]

end

/-! ## The fields of a register -/

theorem fieldsApart_iff (l : List FldRow) : fieldsApart l = true ↔ (∀ f ∈ l, f.lo + f.width ≤ 32) ∧
    l.Pairwise (fun f g => f.lo + f.width ≤ g.lo ∨ g.lo + g.width ≤ f.lo) := by
  simp [fieldsApart]

/-- The register that an address names is one of its block's. -/
theorem mem_rowsOf_of_regAt {a : Nat} {l : Loc} {r : RegRow} {ix : List Nat} (h : regAt a = some (l, r, ix)) : r ∈ rowsOf l.block := by
  unfold regAt at h
  split at h
  · cases h
  next l' _ =>
    obtain ⟨⟨r', ix'⟩, hrow, heq⟩ := Option.map_eq_some_iff.mp h
    cases heq
    exact mem_of_findRow _ _ _ _ hrow

theorem fieldsApart_of_regAt {a : Nat} {l : Loc} {r : RegRow} {ix : List Nat} (h : regAt a = some (l, r, ix)) :
    fieldsApart r.flds = true :=
  List.all_eq_true.mp (fieldsApart_rowsOf l.block) r (mem_rowsOf_of_regAt h)

theorem State.reg_writeFields (s : State) (v : Word) {a : Nat} {l : Loc} {r : RegRow} {ix : List Nat} (h : regAt a = some (l, r, ix)) :
    (s.writeFields a v).reg a = r.flds.foldl (applyField v) (s.reg a) := by
  simp only [State.writeFields, h, State.reg_setReg]

/-- Settles O13: an equation of applyField for each access code, and for a whole write the fold over fields that lie apart. -/
theorem fieldAccessCodes : Obligations.FieldAccessCodes := by
  unfold Obligations.FieldAccessCodes
  refine ⟨fun v old f hf => ⟨?_, ?_, ?_, ?_, ?_⟩, fun a l r ix h => ?_⟩
  · exact fieldOf_applyField_of_rw v old hf
  · exact applyField_of_rw_reserved v old
  · exact fieldOf_applyField_of_w1s v old hf
  · exact fun hacc i hi => testBit_fieldOf_applyField_of_w1c v old hf hacc hi
  · exact applyField_of_not_stored v old
  · obtain ⟨hwidth, hapart⟩ := (fieldsApart_iff _).mp (fieldsApart_of_regAt h)
    refine ⟨hwidth, hapart, fun s v f hf => ?_⟩
    rw [State.reg_writeFields s v h]
    exact fieldOf_foldl_applyField v r.flds hwidth hapart _ f hf

end Sys2Proof.Machine
end

section
/-!
PROOFS. REGISTER_WRITE to a register whose write only sets fields, and addresses of one word (R17, R35): the path of a write from its address
to the register it reaches, for each block with such registers.
-/
namespace Sys2Proof.Machine

/-! ## The way to a register -/

theorem exec_registerWrite (w : Writer) (a v : Word) (s : State) :
    exec (.registerWrite w a v) s = .next (s.writeReg w a.toNat v).1 := rfl

theorem State.writeReg_of_at {s : State} {a : Nat} {l : Loc} {r : RegRow} {ix : List Nat} (h : s.regGo (a / 4 * 4) = .at l r ix)
    (w : Writer) (v : Word) : s.writeReg w a v = s.writeRow w (a / 4 * 4) l r ix v := by
  simp only [State.writeReg, h]

theorem State.writeReg_congr_word (s : State) (w : Writer) {a b : Nat} (h : a / 4 = b / 4) (v : Word) :
    s.writeReg w a v = s.writeReg w b v := by
  simp only [State.writeReg, h]

theorem State.readReg_congr_word (s : State) {a b : Nat} (h : a / 4 = b / 4) : s.readReg a = s.readReg b := by
  simp only [State.readReg, h]

section
variable {l : Loc} {b : Block} (hb : l.block = b) (s : State) (a : Nat) (r : RegRow) (ix : List Nat) (v : Word)
include hb

/-- A write by host software passes the design's gate (R498), so the block alone decides what it does. -/
theorem State.writeRow_host_hall (hhall : hallLevel b = true) (hgal : b ≠ .gal) :
    (s.writeRow .host a l r ix v).1 = s.writeHall b l.unit r.off ix a v := by
  simp [State.writeRow, hb, hhall, hgal]

theorem State.writeRow_host_pkg (hpkg : hallLevel b = false) (hgal : b ≠ .gal) :
    (s.writeRow .host a l r ix v).1 = s.writePkg .host b r.off ix a v := by
  simp [State.writeRow, hb, hpkg, hgal]

end

/-! ## Registers whose write only sets fields, by block -/

section
variable (s : State) (a h off : Nat) (ix : List Nat) (v : Word)

theorem State.writeHall_lens (h₁ : off ≠ 1028) (h₂ : off ≠ 1032) : s.writeHall .lens h off ix a v = s.writeFields a v := by
  simp only [State.writeHall, if_neg h₁, if_neg h₂]

theorem State.writeHall_omist (h₁ : off ≠ 40) : s.writeHall .omist h off ix a v = s.writeFields a v := by
  simp only [State.writeHall, if_neg h₁]

theorem State.writePkg_therm (w : Writer) (h₁ : off ≠ 8) : s.writePkg w .therm off ix a v = s.writeFields a v := by
  simp only [State.writePkg, if_neg h₁]

theorem State.writePkg_cal (w : Writer) (h₁ : off ≠ 4) : s.writePkg w .cal off ix a v = s.writeFields a v := by
  simp only [State.writePkg, if_neg h₁]

end

/-- A register of the LENS, OMIST, THERM or CAL blocks whose write does no more than set fields (R17). -/
def OnlySetsFields (b : Block) (off : Nat) : Prop :=
  (b = .lens ∧ off ≠ 1028 ∧ off ≠ 1032) ∨ (b = .omist ∧ off ≠ 40) ∨ (b = .therm ∧ off ≠ 8) ∨ (b = .cal ∧ off ≠ 4)

theorem State.writeRow_host_of_onlySetsFields {l : Loc} {r : RegRow} (hset : OnlySetsFields l.block r.off) (s : State) (a : Nat)
    (ix : List Nat) (v : Word) : (s.writeRow .host a l r ix v).1 = s.writeFields a v := by
  rcases hset with ⟨hb, hptr, histat⟩ | ⟨hb, hreadmit⟩ | ⟨hb, hmeas⟩ | ⟨hb, hctrl⟩
  · rw [State.writeRow_host_hall hb _ _ _ _ _ rfl nofun, State.writeHall_lens _ _ _ _ _ _ hptr histat]
  · rw [State.writeRow_host_hall hb _ _ _ _ _ rfl nofun, State.writeHall_omist _ _ _ _ _ _ hreadmit]
  · rw [State.writeRow_host_pkg hb _ _ _ _ _ rfl nofun, State.writePkg_therm _ _ _ _ _ _ hmeas]
  · rw [State.writeRow_host_pkg hb _ _ _ _ _ rfl nofun, State.writePkg_cal _ _ _ _ _ _ hctrl]

theorem State.writeFields_of_regAt (s : State) (v : Word) {a : Nat} {l : Loc} {r : RegRow} {ix : List Nat} (h : regAt a = some (l, r, ix)) :
    s.writeFields a v = s.setReg a (r.flds.foldl (applyField v) (s.reg a)) := by
  simp only [State.writeFields, h]

/-- Settles O14: the address leads to the register of its word, and each of the four blocks leaves the write to writeFields. -/
theorem registerWriteSetsFields : Obligations.RegisterWriteSetsFields := by
  unfold Obligations.RegisterWriteSetsFields
  refine ⟨fun s a v l r ix hat hset => ?_, fun s a b v w hword => ⟨?_, s.readReg_congr_word hword⟩⟩
  · have hreg := regAt_of_regGo s _ l r ix hat
    refine ⟨s.writeFields (a.toNat / 4 * 4) v, ?_, s.writeFields_of_regAt v hreg, s.reg_writeFields v hreg,
      (State.Within.refl _ s).writeFields _ v (List.mem_singleton_self _)⟩
    rw [exec_registerWrite, State.writeReg_of_at hat, State.writeRow_host_of_onlySetsFields hset]
  · rw [exec_registerWrite, exec_registerWrite, s.writeReg_congr_word w hword]

end Sys2Proof.Machine
end

section
/-!
PROOFS. ADM_TIMEOUT of a slot copy raises two events, ADM_TIMEOUT (R422) and SLOT_COPY_DONE (R157). Where the event queue has room for one
record alone, the second replaces the oldest informational record (R467), so that the records held before do not all stay.
-/
namespace Sys2Proof.Machine

/-! ## An event raised with the queue full (R467) -/

/-- With no record held by EVREAD, an informational record at the front makes room for a record of any severity. -/
theorem makeRoom_cons_of_info {r : EventRec} (hinfo : r.sev = 0) (sev : Nat) (rs : List EventRec) :
    makeRoom 0 sev (r :: rs) = some rs := by
  simp [makeRoom, dropFirstSev, hinfo]

theorem State.recs_enqueueEvent_of_full {s : State} {r : EventRec} {rs : List EventRec} (hfull : 256 ≤ s.ev.recs.length)
    (hroom : makeRoom s.ev.held r.sev s.ev.recs = some rs) : (s.enqueueEvent r).ev.recs = rs ++ [r] := by
  simp [State.enqueueEvent, Nat.not_lt.mpr hfull, hroom, State.incOvf]

theorem State.held_enqueueEvent (s : State) (r : EventRec) : (s.enqueueEvent r).ev.held = s.ev.held := by
  have hcrit : (if r.sev = 3 then s.setFld Reg.SYS_EVSTAT Fl.SYS_EVSTAT_CRIT 1 else s).ev = s.ev := by split <;> rfl
  simp only [State.enqueueEvent, State.incOvf]
  split
  · simp [hcrit]
  · split <;> simp [hcrit]

theorem State.held_postLim (s : State) (k : EvKind) (key period hall idx : Nat) (args : List (Nat × Nat)) :
    (s.postLim k key period hall idx args).ev.held = s.ev.held := by
  simp only [State.postLim]
  split
  · exact State.held_enqueueEvent _ _
  · rfl

/-! ## The timeout of a slot copy (R422, R157) -/

/-- What the timeout of gallery G's slot copy does besides raising its event: the copy ends, with RESULT 6. -/
def State.copyTimedOut (s : State) (G : Nat) : State :=
  ((s.modGal G (fun g => { g with copy := none })).setFld (Reg.GAL_SLOT_STAT G) Fl.GAL_SLOT_STAT_RESULT 6).setFld
    (Reg.GAL_SLOT_STAT G) Fl.GAL_SLOT_STAT_BUSY 0

theorem State.admTimedOut_copy (s : State) (kind hall G : Nat) : s.admTimedOut kind hall (.copy G) =
    (s.copyTimedOut G).postGal Ev.SLOT_COPY_DONE G [(5, (((s.gal G).copy).getD ⟨0, 0, 0, false⟩).dst), (3, 6)] := rfl

theorem State.ev_copyTimedOut (s : State) (G : Nat) : (s.copyTimedOut G).ev = s.ev := by
  rw [State.copyTimedOut, State.setFld_ev, State.setFld_ev, State.modGal_ev]

theorem State.adm_copyTimedOut (s : State) (G : Nat) : (s.copyTimedOut G).adm = s.adm := by
  rw [State.copyTimedOut, State.setFld_adm, State.setFld_adm, State.modGal_adm]

theorem State.adm_post (s : State) (k : EvKind) (hall idx : Nat) (args : List (Nat × Nat)) : (s.post k hall idx args).adm = s.adm :=
  (State.post_keeps (W := [.regs, .ev]) (State.Keeps.refl _ s) (by decide) k hall idx args).rest .adm rfl

theorem State.adm_postLim (s : State) (k : EvKind) (key period hall idx : Nat) (args : List (Nat × Nat)) :
    (s.postLim k key period hall idx args).adm = s.adm :=
  (State.postLim_keeps (W := [.regs, .ev]) (State.Keeps.refl _ s) (by decide) k key period hall idx args).rest .adm rfl

/-- Request q, number i of the queue, has left it, and ADM_TIMEOUT has been raised. -/
def State.timeoutRaised (s : State) (i : Nat) (q : AdmReq) : State :=
  ({ s with adm := { s.adm with queue := s.adm.queue.eraseIdx i } } : State).postLim Ev.ADM_TIMEOUT q.kind ms q.hall 63 [(4, q.kind)]

theorem State.admTimeout_of_waiting {s : State} {i : Nat} {q : AdmReq} (hq : s.adm.queue[i]? = some q) (hwho : q.who ≠ .library) :
    s.admTimeout i = ((s.timeoutRaised i q).admTimedOut q.kind q.hall q.who).askAgain := by
  simp [State.admTimeout, State.timeoutRaised, hq, noTimeout, hwho]

theorem State.again_timeoutRaised (s : State) (i : Nat) (q : AdmReq) : (s.timeoutRaised i q).adm.again = s.adm.again := by
  rw [State.timeoutRaised, State.adm_postLim]

theorem State.held_timeoutRaised (s : State) (i : Nat) (q : AdmReq) : (s.timeoutRaised i q).ev.held = s.ev.held :=
  State.held_postLim ..

theorem State.recs_timeoutRaised {s : State} (i : Nat) {q : AdmReq} (hroom : s.evRoom)
    (hlim : s.limOpen (Ev.ADM_TIMEOUT.code * 65536 + q.kind) ms = true) :
    (s.timeoutRaised i q).ev.recs = s.ev.recs ++ [s.record Ev.ADM_TIMEOUT q.hall 63 (packArgs [(4, q.kind)])] :=
  State.queued_postLim s _ _ _ _ _ _ _ rfl rfl rfl hlim hroom

/-- A slot copy that times out while the queue has room for one record: its two events join, and the oldest record leaves, if it is
informational and not held. -/
theorem State.recs_admTimeout_copy {s : State} {i G : Nat} {q : AdmReq} {r : EventRec} {rs : List EventRec}
    (hq : s.adm.queue[i]? = some q) (hwho : q.who = .copy G) (hagain : s.adm.again = [])
    (hlim : s.limOpen (Ev.ADM_TIMEOUT.code * 65536 + q.kind) ms = true) (hheld : s.ev.held = 0)
    (hrecs : s.ev.recs = r :: rs) (hinfo : r.sev = 0) (hlen : rs.length = 254) :
    ∃ e, (s.admTimeout i).ev.recs = rs ++ [s.record Ev.ADM_TIMEOUT q.hall 63 (packArgs [(4, q.kind)])] ++ [e] := by
  have hraised := State.recs_timeoutRaised i (by simp [State.evRoom, hrecs, hlen]) hlim
  rw [hrecs, List.cons_append] at hraised
  have hnone : ((s.timeoutRaised i q).admTimedOut q.kind q.hall (.copy G)).adm.again = [] := by
    rw [State.admTimedOut_copy, State.postGal, State.adm_post, State.adm_copyTimedOut, State.again_timeoutRaised, hagain]
  rw [State.admTimeout_of_waiting hq (by simp [hwho]), hwho, State.askAgain_nil _ hnone, State.admTimedOut_copy]
  refine ⟨_, State.recs_enqueueEvent_of_full ?_ ?_⟩
  · simp [State.ev_copyTimedOut, hraised, hlen]
  · rw [State.ev_copyTimedOut, State.held_timeoutRaised, hheld, hraised, makeRoom_cons_of_info hinfo]

/-! ## O57 -/

/-- An informational record. -/
def oldestInfo : EventRec := ⟨0, 0, 15, 63, 0, 0⟩

/-- The record of an error. -/
def laterError : EventRec := ⟨0, 2, 15, 63, 0, 0⟩

/-- A slot copy of gallery 40 waits for admission, and the event queue holds 255 records: the oldest informational, the others errors. -/
def copyWaitsRoomForOne : State :=
  { State.reset with
    adm := { queue := [⟨11, 1, .copy 40, 0⟩] }
    ev := { recs := oldestInfo :: List.replicate 254 laterError } }

/-- Refutes O57: the clause on ADM_TIMEOUT has every record stay that the queue held, given room for one, but a slot copy's timeout raises
two. With 255 records in the queue SLOT_COPY_DONE replaces the oldest, which is informational (R467). -/
theorem not_powerLedger : ¬ Obligations.PowerLedger := by
  unfold Obligations.PowerLedger
  rintro ⟨-, -, -, htimeout⟩
  obtain ⟨t, hexec, -, -, hwithdrawn⟩ := htimeout copyWaitsRoomForOne 0
  obtain rfl : copyWaitsRoomForOne.admTimeout 0 = t := Host.Outcome.next.inj hexec
  obtain ⟨hraised, -⟩ := hwithdrawn ⟨11, 1, .copy 40, 0⟩ rfl nofun
  have hroom : copyWaitsRoomForOne.evRoom := by
    rw [State.evRoom, show copyWaitsRoomForOne.ev.recs = oldestInfo :: List.replicate 254 laterError from rfl, List.length_cons,
      List.length_replicate]
    decide
  obtain ⟨more, hkept⟩ := hraised hroom rfl
  obtain ⟨e, hreplaced⟩ := State.recs_admTimeout_copy (s := copyWaitsRoomForOne) (i := 0) rfl rfl rfl rfl rfl rfl rfl
    List.length_replicate
  have hold : oldestInfo = laterError := (List.cons.inj (hkept.symm.trans hreplaced)).1
  exact absurd hold (by decide)

end Sys2Proof.Machine
end

section
/-!
PROOFS. Transactions of the management port (R455 to R463): one equation of portCommand for each reason not to perform a command, that every
command of portCmds goes by these equations, and what the status word and the response hold.
-/
namespace Sys2Proof.Machine

/-! ## Fields of a packed number, and bytes -/

theorem packBits_append_div (l r : List (Nat × Nat)) : packBits (l ++ r) / 2 ^ (l.map Prod.fst).sum = packBits r := by
  induction l with
  | nil => exact Nat.div_one _
  | cons x l ih =>
    obtain ⟨w, v⟩ := x
    rw [List.cons_append, packBits, List.map_cons, List.sum_cons, Nat.pow_add, ← Nat.div_div_eq_div_mul,
      Nat.add_mul_div_left _ _ (Nat.two_pow_pos w), Nat.div_eq_of_lt (Nat.mod_lt _ (Nat.two_pow_pos w)), Nat.zero_add, ih]

/-- A field of a packed number, found behind the widths of the fields below it. -/
theorem packBits_field (l r : List (Nat × Nat)) (w v : Nat) :
    packBits (l ++ (w, v) :: r) / 2 ^ (l.map Prod.fst).sum % 2 ^ w = v % 2 ^ w := by
  rw [packBits_append_div, packBits, Nat.add_mul_mod_self_left, Nat.mod_mod]

/-- A field of a packed word, at its place lo. -/
theorem toNat_extractLsb'_packBits (l r : List (Nat × Nat)) (lo w v : Nat) (hlo : (l.map Prod.fst).sum = lo) (hw : lo + w ≤ 32) :
    ((BitVec.ofNat 32 (packBits (l ++ (w, v) :: r))).extractLsb' lo w).toNat = v % 2 ^ w := by
  subst hlo
  have hsplit : 2 ^ 32 = 2 ^ (l.map Prod.fst).sum * 2 ^ (32 - (l.map Prod.fst).sum) := by
    rw [← Nat.pow_add, Nat.add_sub_of_le (by omega)]
  rw [BitVec.extractLsb'_toNat, BitVec.toNat_ofNat, hsplit, Nat.shiftRight_eq_div_pow, Nat.mod_mul_right_div_self,
    Nat.mod_mod_of_dvd _ (Nat.pow_dvd_pow 2 (by omega)), packBits_field]

/-- A flag of a packed word, at its place lo. -/
theorem getLsbD_packBits (l r : List (Nat × Nat)) (lo v : Nat) (hlo : (l.map Prod.fst).sum = lo) (hw : lo < 32) :
    (BitVec.ofNat 32 (packBits (l ++ (1, v) :: r))).getLsbD lo = decide (v % 2 = 1) := by
  subst hlo
  rw [BitVec.getLsbD_ofNat, Nat.testBit_eq_decide_div_mod_eq, decide_eq_true hw, Bool.true_and]
  exact congrArg (fun n => decide (n = 1)) (packBits_field l r 1 v)

theorem decide_b2n_mod_two (b : Bool) : decide (b2n b % 2 = 1) = b := by cases b <;> rfl

theorem bytesOf_two_ofNat (n : Nat) : bytesOf 2 (BitVec.ofNat 16 n) = [BitVec.ofNat 8 n, BitVec.ofNat 8 (n / 256)] := by
  have hlow : BitVec.ofNat 8 (n % 65536) = BitVec.ofNat 8 n := by apply BitVec.eq_of_toNat_eq; simp
  have hhigh : BitVec.ofNat 8 (n % 65536 / 256) = BitVec.ofNat 8 (n / 256) := by apply BitVec.eq_of_toNat_eq; simp; omega
  simp [bytesOf, List.range_succ, hlow, hhigh]

/-- A field of one bit is 1 exactly where it is set. -/
theorem State.decide_fld_mod_two (s : State) (a : Nat) {f : Fld} (hf : f.width = 1) : decide (s.fld a f % 2 = 1) = s.bit a f := by
  have hlt : s.fld a f < 2 ^ f.width := fieldOf_lt_two_pow _ _
  rw [hf] at hlt
  rw [State.bit]
  rcases (by omega : s.fld a f = 0 ∨ s.fld a f = 1) with h | h <;> rw [h] <;> rfl

/-! ## A transaction that is not accepted (R459) -/

theorem State.Within.setPort {F : Foot} {s t : State} (h : State.Within F s t) (hp : F.fields.contains .port = true) (p : MPort) :
    State.Within F s { t with port := p } :=
  h.field .port hp rfl rfl rfl rfl rfl rfl rfl rfl (fun x hx => by cases x <;> first | exact absurd rfl hx | rfl | exact ⟨rfl, rfl⟩)

/-- From s to t a transaction was not accepted: LASTERR is err, the count of SYS_PORT has advanced, and nothing else changed. -/
def State.Rejected (s t : State) (err : Nat) : Prop :=
  t.port = { s.port with lastErr := err } ∧
  t.fld Reg.SYS_PORT Fl.SYS_PORT_REJECT = satAdd Fl.SYS_PORT_REJECT.width (s.fld Reg.SYS_PORT Fl.SYS_PORT_REJECT) 1 ∧
  State.Within { regs := [Reg.SYS_PORT], fields := [.port] } s t

theorem State.rejected_portReject (s : State) (err : Nat) : s.Rejected (s.portReject err) err :=
  ⟨rfl, State.fld_incFld _ _ _ _ (by decide), ((State.Within.refl _ s).setPort rfl _).incFld _ _ _ (List.mem_singleton_self _)⟩

/-! ## A header or data whose check fails (R459, R460) -/

theorem State.port_postLim (s : State) (k : EvKind) (key period hall idx : Nat) (args : List (Nat × Nat)) :
    (s.postLim k key period hall idx args).port = s.port :=
  (State.postLim_keeps (W := [.regs, .ev]) (State.Keeps.refl _ s) (by decide) k key period hall idx args).rest .port rfl

/-- From s to t the command c ended with a failed check and the given STATUS: field f of SYS_PORT has counted it, its event may have been
raised, and nothing else changed. -/
def State.CheckFailed (s t : State) (c : PortCmd) (status : Nat) (f : Fld) : Prop :=
  t.port = { s.port with busy := none, rsp := some ⟨c.tag.toNat, status, 0, []⟩, lastErr := 0 } ∧
  t.fld Reg.SYS_PORT f = satAdd f.width (s.fld Reg.SYS_PORT f) 1 ∧
  State.Within { regs := Reg.SYS_PORT :: evRegs, fields := [.port, .ev] } s t

theorem State.checkFailed_portCheckFail (s : State) (kind op : Nat) (c : PortCmd) :
    s.CheckFailed ((s.portAccept op c).portCheckFail kind op c) c (1 + kind)
      (if kind = 0 then Fl.SYS_PORT_HCRC else Fl.SYS_PORT_DCRC) := by
  have hf : (if kind = 0 then Fl.SYS_PORT_HCRC else Fl.SYS_PORT_DCRC).lo +
      (if kind = 0 then Fl.SYS_PORT_HCRC else Fl.SYS_PORT_DCRC).width ≤ 32 := by split <;> decide
  refine ⟨?_, ?_, ?_⟩
  · simp [State.portCheckFail, State.portEnd, State.port_postLim, State.portAccept]
  · exact (State.fld_postLim _ _ _ _ _ _ _ _ _ (by decide)).trans (State.fld_incFld _ _ _ _ hf)
  · exact ((((State.Within.refl _ s).setPort rfl _).incFld _ _ _ (List.mem_cons_self ..)).postLim _ _ _ _ _ _
      (List.mem_cons_of_mem _ (List.mem_singleton_self _)) rfl).setPort rfl _

/-! ## The ways of a command transaction (R457, R459) -/

section
variable {s : State} {op : Nat} {hasData : Bool} {c : PortCmd}

theorem State.portPerforms_iff : s.portPerforms op hasData c = true ↔ s.port.live = true ∧ s.port.busy = none ∧ hcrcOk op c = true ∧
    c.data.length = (if hasData then c.len.toNat else 0) ∧ (hasData = true → dcrcOk c = true) := by
  cases hasData <;> simp [State.portPerforms, and_assoc]

variable (run : State → State × PortEnd)

theorem State.portCommand_of_not_live (hlive : s.port.live = false) : s.portCommand op hasData c run = s := by
  simp [State.portCommand, hlive]

theorem State.portCommand_of_busy (hlive : s.port.live = true) (hbusy : s.port.busy.isSome = true) :
    s.portCommand op hasData c run = s.portReject 1 := by
  simp [State.portCommand, hlive, hbusy]

theorem State.portCommand_of_header_bad (hlive : s.port.live = true) (hidle : s.port.busy = none) (hh : hcrcOk op c = false) :
    s.portCommand op hasData c run = (s.portAccept op c).portCheckFail 0 op c := by
  simp [State.portCommand, hlive, hidle, hh]

theorem State.portCommand_of_length_bad (hlive : s.port.live = true) (hidle : s.port.busy = none) (hh : hcrcOk op c = true)
    (hlen : c.data.length ≠ (if hasData then c.len.toNat else 0)) : s.portCommand op hasData c run = s.portReject 2 := by
  simp [State.portCommand, hlive, hidle, hh, hlen]

theorem State.portCommand_of_data_bad (hlive : s.port.live = true) (hidle : s.port.busy = none) (hh : hcrcOk op c = true)
    (hlen : c.data.length = c.len.toNat) (hdata : hasData = true) (hd : dcrcOk c = false) :
    s.portCommand op hasData c run = (s.portAccept op c).portCheckFail 1 op c := by
  simp [State.portCommand, hlive, hidle, hh, hlen, hdata, hd]

end

/-- Every command of the port runs through portCommand; only RELOAD and STOP do more, and only when they are performed (R360, R434). -/
theorem exec_portCmd {op : Nat} {hasData : Bool} {f : PortCmd → Instr} (hmem : (op, hasData, f) ∈ portCmds) (c : PortCmd) (s : State) :
    ∃ t run, exec (f c) s = .next t ∧ (s.portPerforms op hasData c = false → t = s.portCommand op hasData c run) := by
  simp only [portCmds, List.mem_cons, Prod.mk.injEq, List.not_mem_nil, or_false] at hmem
  rcases hmem with ⟨rfl, rfl, rfl⟩ | ⟨rfl, rfl, rfl⟩ | ⟨rfl, rfl, rfl⟩ | ⟨rfl, rfl, rfl⟩ | ⟨rfl, rfl, rfl⟩ | ⟨rfl, rfl, rfl⟩ | ⟨rfl, rfl, rfl⟩
  case inr.inr.inr.inl => exact ⟨_, fun s => s.reloadCommand c, rfl, fun h => by simp [h]⟩
  case inr.inr.inr.inr.inl => exact ⟨_, fun s => s.stopCommand c, rfl, fun h => by simp [h]⟩
  all_goals exact ⟨_, _, rfl, fun _ => rfl⟩

/-- A command transaction that is not performed (R455 to R459). -/
theorem portCmd_not_performed {op : Nat} {hasData : Bool} {f : PortCmd → Instr} (hmem : (op, hasData, f) ∈ portCmds) (c : PortCmd)
    (s : State) : ∃ t, exec (f c) s = .next t ∧ (s.port.live = false → t = s) ∧
      (s.port.live = true → s.port.busy.isSome = true → s.Rejected t 1) ∧
      (s.port.live = true → s.port.busy = none →
        (hcrcOk op c = false → s.CheckFailed t c 1 Fl.SYS_PORT_HCRC) ∧
        (hcrcOk op c = true → c.data.length ≠ (if hasData then c.len.toNat else 0) → s.Rejected t 2) ∧
        (hcrcOk op c = true → c.data.length = c.len.toNat → hasData = true → dcrcOk c = false →
          s.CheckFailed t c 2 Fl.SYS_PORT_DCRC)) := by
  obtain ⟨t, run, hexec, hcommand⟩ := exec_portCmd hmem c s
  rw [← Bool.not_eq_true, State.portPerforms_iff] at hcommand
  refine ⟨t, hexec, fun hlive => ?_, fun hlive hbusy => ?_, fun hlive hidle => ⟨fun hh => ?_, fun hh hlen => ?_, fun hh hlen hdata hd => ?_⟩⟩
  · rw [hcommand (by simp [hlive]), State.portCommand_of_not_live run hlive]
  · rw [hcommand (by simp [Option.isSome_iff_ne_none.mp hbusy]), State.portCommand_of_busy run hlive hbusy]
    exact s.rejected_portReject 1
  · rw [hcommand (by simp [hh]), State.portCommand_of_header_bad run hlive hidle hh]
    exact s.checkFailed_portCheckFail 0 op c
  · rw [hcommand (by simp [hlen]), State.portCommand_of_length_bad run hlive hidle hh hlen]
    exact s.rejected_portReject 2
  · rw [hcommand (by simp [hdata, hd]), State.portCommand_of_data_bad run hlive hidle hh hlen hdata hd]
    exact s.checkFailed_portCheckFail 1 op c

/-! ## STATUS and GETRSP (R460, R462) -/

theorem State.portDrive_of_not_live {s : State} (hlive : s.port.live = false) (l : List Byte) : s.portDrive l = s := by
  simp [State.portDrive, hlive]

theorem State.portDrive_of_live {s : State} (hlive : s.port.live = true) (l : List Byte) :
    s.portDrive l = { s with port := { s.port with out := l } } := by
  simp [State.portDrive, hlive]

/-- What each bit of the status word shows (R462). -/
theorem State.statusWord_fields (s : State) :
    s.statusWord.getLsbD 0 = s.port.busy.isSome ∧ s.statusWord.getLsbD 1 = s.port.rsp.isSome ∧
    s.statusWord.getLsbD 2 = s.bit Reg.SYS_EVSTAT Fl.SYS_EVSTAT_CRIT ∧ s.statusWord.getLsbD 3 = s.portPend ∧
    (s.statusWord.extractLsb' 4 4).toNat = s.fld Reg.BOOT_STAT Fl.BOOT_STAT_STATE ∧
    (s.statusWord.extractLsb' 8 9).toNat = (s.ev.recs.length - s.ev.held) % 512 ∧ (s.statusWord.extractLsb' 17 3).toNat = 0 ∧
    (s.statusWord.extractLsb' 20 4).toNat = s.port.lastErr % 16 ∧
    (s.statusWord.extractLsb' 24 8).toNat = (match s.port.rsp with | some r => r.tag % 256 | none => 0) := by
  refine ⟨?_, ?_, ?_, ?_, ?_, ?_, ?_, ?_, ?_⟩
  · exact (getLsbD_packBits [] _ 0 _ rfl (by decide)).trans (decide_b2n_mod_two _)
  · exact (getLsbD_packBits [_] _ 1 _ rfl (by decide)).trans (decide_b2n_mod_two _)
  · exact (getLsbD_packBits [_, _] _ 2 _ rfl (by decide)).trans (s.decide_fld_mod_two _ rfl)
  · exact (getLsbD_packBits [_, _, _] _ 3 _ rfl (by decide)).trans (decide_b2n_mod_two _)
  · exact (toNat_extractLsb'_packBits [_, _, _, _] _ 4 4 _ rfl (by decide)).trans (Nat.mod_eq_of_lt (fieldOf_lt_two_pow _ _))
  · exact toNat_extractLsb'_packBits [_, _, _, _, _] _ 8 9 _ rfl (by decide)
  · exact toNat_extractLsb'_packBits [_, _, _, _, _, _] _ 17 3 0 rfl (by decide)
  · exact toNat_extractLsb'_packBits [_, _, _, _, _, _, _] _ 20 4 _ rfl (by decide)
  · refine (toNat_extractLsb'_packBits [_, _, _, _, _, _, _, _] _ 24 8 _ rfl (by decide)).trans ?_
    cases s.port.rsp <;> rfl

theorem State.rspBytes_of_none {s : State} (hrsp : s.port.rsp = none) : s.rspBytes = withCrc [0, 8, 0, 0] := by
  simp [State.rspBytes, hrsp, bytesOf_two_ofNat]

theorem State.rspBytes_of_some {s : State} {r : PortRsp} (hrsp : s.port.rsp = some r) :
    s.rspBytes = withCrc [BitVec.ofNat 8 r.tag, BitVec.ofNat 8 (r.status + 16 * r.ostat), BitVec.ofNat 8 r.data.length,
      BitVec.ofNat 8 (r.data.length / 256)] ++ (if r.data = [] then [] else withCrc r.data) := by
  simp [State.rspBytes, hrsp, bytesOf_two_ofNat]

/-! ## A transaction cut short, and a reserved OP (R458, R459) -/

theorem State.badXact_of_not_live {s : State} (hlive : s.port.live = false) (b : BadXact) : s.badXact b = s := by
  simp [State.badXact, hlive]

theorem State.rejected_badXact {s : State} (hlive : s.port.live = true) {b : BadXact} (hb : b = .malformed ∨ b = .busy) :
    s.Rejected (s.badXact b) (if b = .malformed ∧ s.port.busy = none then 2 else 1) := by
  have herr : s.badXact b = s.portReject (if b = .malformed ∧ s.port.busy = none then 2 else 1) := by
    rcases hb with rfl | rfl
    · cases hbusy : s.port.busy <;> simp [State.badXact, hlive, hbusy]
    · simp [State.badXact, hlive]
  rw [herr]
  exact s.rejected_portReject _

/-- A reserved OP is a command whose performance is the refusal with STATUS 3. -/
theorem State.badXact_of_reserved {s : State} {op : Fin 128} {c : PortCmd} (hop : op.val ∉ [1, 2, 4, 5, 6, 8, 9, 10, 12])
    (hperforms : s.portPerforms op false c = true) : s.badXact (.reserved op c) = (s.portAccept op c).portEnd c { status := 3 } := by
  have hlive := (State.portPerforms_iff.mp hperforms).1
  rw [State.badXact, hlive, if_neg (by simp)]
  simp only [List.contains_eq_mem, hop, decide_false, Bool.false_eq_true, if_false]
  exact State.portCommand_of_performs s op false c _ hperforms

/-- Settles O59: the ways of portCommand for every command alike, the fields of the status word, the bytes of the response, and the
transactions that no command names. -/
theorem portTransactions : Obligations.PortTransactions := by
  unfold Obligations.PortTransactions
  refine ⟨fun _ _ _ c s hmem => portCmd_not_performed hmem c s, fun s => ?_, fun s => ?_, fun s => ⟨fun hlive b => ?_, fun hlive b hb => ?_,
    fun op c hop hperforms => ?_⟩⟩
  · exact ⟨_, rfl, fun hlive => State.portDrive_of_not_live hlive _,
      fun hlive => ⟨s.statusWord, State.portDrive_of_live hlive _, s.statusWord_fields⟩⟩
  · refine ⟨_, rfl, fun hlive => State.portDrive_of_not_live hlive _, fun hlive hrsp => ?_, fun r out hlive hrsp hout => ?_⟩
    · rw [State.portDrive_of_live hlive, State.rspBytes_of_none hrsp]
    · rw [State.portDrive_of_live hlive, State.rspBytes_of_some hrsp, hout]
  · exact congrArg Host.Outcome.next (State.badXact_of_not_live hlive b)
  · exact ⟨_, rfl, State.rejected_badXact hlive hb⟩
  · exact congrArg Host.Outcome.next (State.badXact_of_reserved hop hperforms)

end Sys2Proof.Machine
end
